-- ==== Sys2Proof/Word.lean ====
section
/-! DEFINITION. The words of the machine: bytes and 64-bit dictionary values (R7, R9). -/
namespace Sys2Proof

/-- One byte of memory, of a record or of a link. -/
abbrev Byte := BitVec 8

/-- A 16 B block map entry (R66), exactly the data bits of one (144,128) codeword. -/
abbrev MapWord := BitVec 128

/-- A sparse table: key and value pairs, keys strictly rising, no value equal to what an unlisted key holds. -/
abbrev Tab (α : Type) := List (Nat × α)

end Sys2Proof
end

