-- ==== Sys2Proof/Syntax.lean ====
section
/-! DEFINITION. The commands of the block: one constructor per row of the table of operations and events. -/
namespace Sys2Proof

/-- What a command's fetches from the stacks meet, an input of the environment (R323, R329). -/
structure Phys where
  /-- Lines (HBM byte address div 64) read with a corrected error, each with the symbol in error. -/
  ce : List (Nat × Nat)
  /-- Lines read uncorrectable. -/
  ue : List Nat
  /-- Blocks whose primary map copy reads uncorrectable. -/
  mapPri : List Nat
  /-- Blocks whose mirror map copy reads uncorrectable. -/
  mapMir : List Nat
  /-- Lines whose bytes meet a parity mismatch at a boundary on their way from the stack (R32). -/
  par : List Nat := []
  deriving DecidableEq, Repr, Inhabited

/-- Metadata of which both copies fail as the patrol scrub reads it (R329). -/
inductive MetaPart where
  /-- The block map entry of a block. -/
  | block (block : Nat)
  /-- A parcel counter. -/
  | parcel (parcel : Nat)
  /-- A detour slot directory entry. -/
  | slot (slot : Nat)
  /-- The oldest held completion of a queue. -/
  | completion (queue : Nat)
  /-- The frame state table, a version table or a job record. -/
  | table
  deriving DecidableEq, Repr, Inhabited

/-- What a read of host memory returns, an input of the environment (R279, R280). -/
inductive HostData where
  /-- The bytes. -/
  | data (bytes : List Byte)
  /-- The bytes, those of some of its reads bad: their 64-byte lines, numbered from the first. -/
  | part (bytes : List Byte) (bad : List Nat)
  /-- The bytes arrived poisoned. -/
  | poisoned
  /-- No completion in time, or an error completion. -/
  | failed
  deriving DecidableEq, Repr, Inhabited

/-- What the environment gives a command that moves data: physical errors met, what its read of host memory returns, and what
reads of detour slots return, by slot. -/
structure Env where
  ph : Phys
  host : HostData
  slots : List (Nat × HostData)
  deriving DecidableEq, Repr, Inhabited

/-- The physical events a patrol scrub read meets (R329, R330): metadata lost in both copies, and those of the line. -/
structure ScrubEvents where
  lost : Option MetaPart
  ph : Phys
  deriving DecidableEq, Repr, Inhabited

/-- The ring entry a FACTOR runs from and the physical events it meets. -/
structure FactorStart where
  idx : Fin 65536
  env : Env
  deriving DecidableEq, Repr, Inhabited

/-- How the data of a port write arrives: marked poison, or with a parity mismatch at a stage of its way in (R32). -/
structure WriteMark where
  poison : Bool
  parity : Bool
  deriving DecidableEq, Repr, Inhabited

/-- The bytes of DICT_READ's payload after the index: subindex and the 5 bytes that must be 0 (R265). -/
structure DictSub where
  subindex : Fin 256
  rest : Nat
  deriving DecidableEq, Repr, Inhabited

/-- The data of a BAR0 write, and whether its TLP is poisoned (R274, R275). -/
structure DictData where
  value : Nat
  poisoned : Bool
  deriving DecidableEq, Repr, Inhabited

/-- A write of a whole entry of an MSI-X table (R238): the vector, its message address and data, its mask bit. -/
structure MsixEntry where
  vector : Fin 2048
  addr : Nat
  data : Nat
  mask : Bool
  deriving DecidableEq, Repr, Inhabited

/-- What is wrong with a completion that arrives (R273, R280). -/
structure CplDefect where
  poisoned : Bool
  badEcrc : Bool
  deriving DecidableEq, Repr, Inhabited

/-- An access of a doorbell slot (R224): a 4-byte write, an 8-byte write of sq_tail and cq_head in one step, a read. -/
inductive DbAccess where
  | one (value : Nat)
  | both (tail head : Nat)
  | read
  deriving DecidableEq, Repr, Inhabited

/-- What a link's partner offers while it trains, an input of the environment (R247). -/
structure Partner where
  /-- Rate codes it advertises and that equalise, a bit each. -/
  rates : Nat
  /-- Lanes on which the link trains. -/
  lanes : Nat
  /-- CXL.io and CXL.mem with 256-byte flits. -/
  cxl : Bool
  /-- It is a switch. -/
  mld : Bool
  /-- LDs the fabric manager binds. -/
  lds : Nat
  /-- Back-invalidate, dynamic capacity and QoS telemetry supported. -/
  backInv : Bool
  dcap : Bool
  qos : Bool
  /-- Transmit credits it advertises: S2M NDR, S2M DRS, S2M BISnp, CXL.io. -/
  credits : List Nat
  /-- When it returns a credit the device spent: 0 at once, 1 with its next request, otherwise never. -/
  back : Nat
  deriving DecidableEq, Repr, Inhabited

/-- A run of a repeated computation, an input of the environment (R347): its result's bits, and whether its check did not flag. -/
structure Run where
  value : Nat
  clean : Bool
  deriving DecidableEq, Repr, Inhabited

/-- The work a flagged result belongs to (R348). -/
inductive Work where
  /-- An OPT_STEP work tile: job and tile. -/
  | step (job tile : Nat)
  /-- A FACTOR work tile: descriptor and tile. -/
  | factor (desc tile : Nat)
  /-- A reconstructed tensor-view block. -/
  | recon (blk : Nat)
  /-- A superaccumulator add of a reduction. -/
  | reduce (red : Nat)
  deriving DecidableEq, Repr, Inhabited

/-- The commands, in the order of the table. -/
inductive Instr where
  /-- CXL_MEM_READ (R30): A CXL.mem read arrives at a port block and passes tollgate, ownership, staging and block-map lookup before its line is fetched in the form its map state gives. -/
  | cxlMemRead (port : Fin 512) (address : Nat) (want : Fin 3) (ph : Phys)
  /-- CXL_MEM_WRITE (R33): A CXL.mem write is accepted into staging SRAM at the home region hub, completes at the port and is gathered into its block. -/
  | cxlMemWrite (port : Fin 512) (address : Nat) (data : List Byte) (mask : Nat) (mark : WriteMark) (keep : Fin 3)
  /-- TOLLGATE_RELEASE (R297): A request held at its tollgate becomes eligible once its master's bucket holds a token and its ceiling allows it. -/
  | tollgateRelease (port : Fin 512) (ph : Phys)
  /-- GATHER_TIMEOUT (R33): 4 µs after a block's first line without all 64 lines, the block is promoted to FLAT as a partial write merged over its prior content. -/
  | gatherTimeout (block : Fin 1073741824) (owner : Fin 257) (env : Env)
  /-- CHECKER_ROUND_TRIP (R90): The checker decoder finishes decoding a newly packed block; on a match the map entry commits, otherwise the block is stored FLAT or RAW. -/
  | checkerRoundTrip (block : Fin 1073741824) (owner : Fin 257) (flag : Bool) (code : Fin 32) (own partner : Bool) (ph : Phys)
  /-- MIRROR_HOME_REWRITE (R88): At a tier-mover pass the home copy of a MIRROR block is rewritten from its partner in new sectors. -/
  | mirrorHomeRewrite (block : Fin 1073741824) (ph : Phys)
  /-- FACTOR_RECONSTRUCT (R114): A factor pipeline reconstructs a queued tensor-view block, requested line first. -/
  | factorReconstruct (region : Fin 4) (block : Fin 9) (env : Env) (creditFault : Bool)
  /-- COMPONENT_INVALIDATE (R108): A write to a component area waits until every panel-cache and waypoint copy built from the block is invalidated, then is accepted. -/
  | componentInvalidate (ph : Phys)
  /-- MOVER_SWEEP (R160): Once per cap_decay_ms the tier mover visits each parcel, halves its counter and demotes or drops copies by the thresholds. -/
  | moverSweep (region : Fin 4) (ph : Phys)
  /-- MOVER_PROMOTE (R161): The tier mover decodes a queued promotion candidate and commits it FLAT in a new frame. -/
  | moverPromote (region : Fin 4) (ph : Phys)
  /-- MOVER_RECOMPRESS (R35): The tier mover finishes recompressing a FLAT block and commits the new entry only if no write was accepted since it read the block. -/
  | moverRecompress (block : Fin 1073741824)
  /-- RELOCATE_BLOCK (R152): The tier mover relocates a live block out of a quarantined, retired or sparse frame with block_version plus one. -/
  | relocateBlock (block : Fin 1073741824) (ph : Phys)
  /-- DETOUR_SPILL (R164): The mover spills a cold block of a DETOUR partition to a detour slot and commits the DETOUR entry after the flushing read completes. -/
  | detourSpill (block : Fin 1073741824) (flushed : Bool) (ph : Phys)
  /-- DETOUR_RECALL (R164): A DETOUR block whose parcel counter reaches cap_promote_t1 is recalled to HBM and its slot freed. -/
  | detourRecall (block : Fin 1073741824) (host : HostData)
  /-- DETOUR_READ_COMPLETE (R165): A detour slot read completes; the slot is deciphered, its CRC checked and the requested line returned or poisoned. -/
  | detourReadComplete (host : HostData)
  /-- DETOUR_LOST (R166): The detour area is lost at FLR, BME clear, D3cold or long link down, and every DETOUR entry is committed POISON. -/
  | detourLost
  /-- LOWER_TILE (R167): Under LOWER_FIDELITY the mover lowers one tile to its new code in one step. -/
  | lowerTile (descriptor : Fin 2048) (tile : Fin 268435456) (env : Env)
  /-- FENCE_LIFT (R158): The fence lifts when every region of the partition's stack set reaches H at or above cap_low_water. -/
  | fenceLift (partition : Fin 64)
  /-- CAPACITY_AUDIT (R148): Once per second each region hub compares its five frame counts with the total. -/
  | capacityAudit
  /-- FRAME_WALK_PASS (R148): The frame-state walker completes a pass and checks its tally against the counts. -/
  | frameWalkPass (region : Fin 4)
  /-- CONSERVATION_AUDIT (R429): On a one-second boundary the device audits a conservation law and sends the device to SAFE on failure. -/
  | conservationAudit (law : Fin 8)
  /-- PART_COMMIT (R44): A write of 1 to part_commit validates and commits a partition, reporting part_status. -/
  | partCommit (partition : Fin 64)
  /-- PART_RELEASE (R44): A write of 2 to part_commit releases a partition and gives up its content. -/
  | partRelease (partition : Fin 64)
  /-- PART_RELEASE_COMPLETE (R44): The region hubs finish emptying a released partition and part_status reads OK. -/
  | partReleaseComplete (partition : Fin 64)
  /-- WIN_COMMIT (R54): A write of 1 to win_commit validates a window and makes it COMMITTED. -/
  | winCommit (window : Fin 1024)
  /-- WIN_WITHDRAW (R54): A write of 2 to win_commit withdraws a window once its accepted requests complete. -/
  | winWithdraw (window : Fin 1024)
  /-- OWNERSHIP_WORD1_WRITE (R62): A write to word 1 of an ownership entry commits it with its shadow words in one step, or takes it out of force. -/
  | ownershipWord1Write (entry : Fin 4096) (value : Nat)
  /-- DESC_COMMIT (R96): A write of 1 to desc_commit validates and commits a tensor descriptor. -/
  | descCommit (descriptor : Fin 2048)
  /-- DESC_RELEASE (R96): A write of 2 to desc_commit releases a tensor descriptor. -/
  | descRelease (descriptor : Fin 2048)
  /-- SR_COMMIT (R199): A write of 1 to sr_commit commits a shared region and publishes its initial version in VERSIONED mode. -/
  | srCommit (region : Fin 256)
  /-- SR_RELEASE (R199): A write of 2 to sr_commit releases a shared region. -/
  | srRelease (region : Fin 256)
  /-- RC_COMMIT (R300): A write of 1 to rc_commit runs admission for a bandwidth contract. -/
  | rcCommit (contract : Fin 1024)
  /-- RC_RELEASE (R300): A write of 2 to rc_commit releases a bandwidth contract at the next boundary. -/
  | rcRelease (contract : Fin 1024)
  /-- TOKEN_BOUNDARY (R296): At each 1 µs boundary guaranteed buckets are filled, the shared pool is dealt and buckets are cut to their burst depth. -/
  | tokenBoundary
  /-- GUARANTEE_WINDOW_END (R303): At the end of each 100 µs window a contract is measured and a missed window is counted and reported. -/
  | guaranteeWindowEnd
  /-- Q_ENABLE (R223): ENABLE written to q_ctl validates a DISABLED queue and makes it RUNNING. -/
  | qEnable (queue : Fin 32768)
  /-- Q_DISABLE (R240): DISABLE written to q_ctl stops fetching and discards completions until started reaches 0. -/
  | qDisable (queue : Fin 32768)
  /-- Q_RESTART (R240): RESTART written to q_ctl posts held completions and resumes a HALTED queue whose cause has cleared. -/
  | qRestart (queue : Fin 32768)
  /-- Q_DISABLE_COMPLETE (R240): A disabling queue becomes DISABLED once its started commands have all finished. -/
  | qDisableComplete (queue : Fin 32768)
  /-- SQ_TAIL_DOORBELL (R225): A write of sq_tail makes new submission entries fetchable or halts the queue with DOORBELL. -/
  | sqTailDoorbell (via : Option (Fin 512)) (queue : Fin 32768) (access : DbAccess)
  /-- CQ_HEAD_DOORBELL (R225): A write of cq_head frees completion slots or halts the queue with DOORBELL. -/
  | cqHeadDoorbell (via : Option (Fin 512)) (queue : Fin 32768) (access : DbAccess)
  /-- QUEUE_FETCH (R235): The queue fetch arbiter grants a queue and fetches up to 8 entries, each checked under R227 and started. -/
  | queueFetch (host : HostData) (ph : Phys)
  /-- FENCE_START (R236): A fetched command carrying FENCE starts once every earlier command of its queue has completed. -/
  | fenceStart (queue : Fin 32768)
  /-- COMPLETION_POST (R232): A finished command's completion is written into a free completion slot, or held while the queue is halted. -/
  | completionPost (queue : Fin 32768) (ph : Phys)
  /-- COALESCE_TIMEOUT (R239): coal_time µs after the first unsignalled completion the queue's vector is raised. -/
  | coalesceTimeout (queue : Fin 32768)
  /-- COPY_DEVICE (R229): COPY mode DEVICE copies a DPA range to another through the write path. -/
  | copyDevice (queue : Fin 32768) (idx : Fin 65536) (env : Env)
  /-- COPY_FROM_HOST (R229): COPY mode FROM_HOST copies host memory reached through the group's path into a DPA range. -/
  | copyFromHost (queue : Fin 32768) (idx : Fin 65536) (env : Env)
  /-- COPY_TO_HOST (R229): COPY mode TO_HOST copies a DPA range to host memory through the group's path. -/
  | copyToHost (queue : Fin 32768) (idx : Fin 65536) (env : Env)
  /-- FILL (R229): FILL writes an 8 B pattern over a DPA range. -/
  | fill (queue : Fin 32768) (idx : Fin 65536) (env : Env)
  /-- PACK (R229): PACK re-encodes each FLAT block of a range at once. -/
  | pack (queue : Fin 32768) (idx : Fin 65536) (ph : Phys)
  /-- UNPACK (R229): UNPACK commits each PACKED block of a range FLAT against cap_promo_reserve. -/
  | unpack (queue : Fin 32768) (idx : Fin 65536) (ph : Phys)
  /-- FACTOR_FULL (R110): FACTOR mode FULL computes factors of a dense tensor and switches its tiles. -/
  | factorFull (queue : Fin 32768) (start : FactorStart)
  /-- FACTOR_RESIDUAL_ONLY (R109): FACTOR mode RESIDUAL_ONLY re-encodes dense blocks against the stored U and V. -/
  | factorResidualOnly (queue : Fin 32768) (idx : Fin 65536)
  /-- TILE_SWITCH (R113): A factored tile whose residual passed the checker switches: record written, tensor-view blocks committed FACTOR, dense frames released. -/
  | tileSwitch (descriptor : Fin 2048) (env : Env)
  /-- STAGE_ARM (R119): STAGE mode ARM arms a waypoint or refuses it. -/
  | stageArm (queue : Fin 32768) (idx : Fin 65536)
  /-- STAGE_DISARM (R119): STAGE mode DISARM disarms a waypoint and releases its copies. -/
  | stageDisarm (queue : Fin 32768) (idx : Fin 65536)
  /-- WAYPOINT_ARM_WRITE (R118): A write of the arm bit in waypoint word 3 arms or disarms a waypoint. -/
  | waypointArmWrite (waypoint : Fin 512) (value : Nat)
  /-- WAYPOINT_TILE_STAGED (R120): A tile of a STAGING waypoint becomes resident in its tier, and the waypoint becomes READY when every tile is resident. -/
  | waypointTileStaged (waypoint : Fin 512) (env : Env)
  /-- OPT_STEP_SGD_MOMENTUM (R181): OPT_STEP with kernel SGD_MOMENTUM applies one momentum step into shadow frames. -/
  | optStepSgdMomentum (queue : Fin 32768) (idx : Fin 65536) (env : Env)
  /-- OPT_STEP_ADAMW (R181): OPT_STEP with kernel ADAMW applies one AdamW step into shadow frames. -/
  | optStepAdamw (queue : Fin 32768) (idx : Fin 65536) (env : Env)
  /-- OPT_STEP_SIGN_MOMENTUM (R181): OPT_STEP with kernel SIGN_MOMENTUM applies one sign-momentum step into shadow frames. -/
  | optStepSignMomentum (queue : Fin 32768) (idx : Fin 65536) (env : Env)
  /-- OPT_STEP_PROJECTED_ADAMW (R182): OPT_STEP with kernel PROJECTED_ADAMW projects, updates subspace moments and back-projects into shadow frames. -/
  | optStepProjectedAdamw (queue : Fin 32768) (idx : Fin 65536) (env : Env)
  /-- WORK_TILE_RETIRE (R183): A work tile of an OPT_STEP or FACTOR finishes on a compute block and its checked outputs are kept. -/
  | workTileRetire (region : Fin 4) (block : Fin 9) (context : Fin 14)
  /-- STEP_REPLAY (R184): A flagged work tile is replayed from committed state and retained inputs on two blocks. -/
  | stepReplay (flag : Nat)
  /-- PREPARE (R174): PREPARE on an OPEN job waits for the step, flushes shadow blocks and makes the job PREPARED. -/
  | prepare (queue : Fin 32768) (idx : Fin 65536)
  /-- PREPARE_COMPLETE (R174): The step of a PREPARING job is flushed and checked, and the PREPARE completes. -/
  | prepareComplete (job : Fin 65536)
  /-- COMMIT (R175): COMMIT switches a PREPARED milestone at once under a hold at every home hub. -/
  | commitStep (queue : Fin 32768) (idx : Fin 65536)
  /-- ABORT_MILESTONE (R174): ABORT_MILESTONE stops running work and releases shadow and retained frames. -/
  | abortMilestone (queue : Fin 32768) (idx : Fin 65536)
  /-- JOB_BASE_WRITE (R177): A write of job_base sets the committed milestone of an IDLE job. -/
  | jobBaseWrite (job : Fin 65536) (value : Nat)
  /-- JOB_RELEASE (R177): A write of job_release clears the owner of an IDLE job. -/
  | jobRelease (job : Fin 65536) (value : Nat)
  /-- REDUCE_OPEN (R187): REDUCE mode OPEN opens a reduction context. -/
  | reduceOpen (queue : Fin 32768) (idx : Fin 65536) (env : Env)
  /-- REDUCE_CONTRIB (R188): REDUCE mode CONTRIB adds one HID's contribution to named reduce tiles. -/
  | reduceContrib (queue : Fin 32768) (idx : Fin 65536) (env : Env)
  /-- REDUCE_CANCEL (R190): REDUCE mode CANCEL faults a reduction. -/
  | reduceCancel (queue : Fin 32768) (idx : Fin 65536)
  /-- REDUCE_TILE_OPEN (R189): A waiting contribution opens its tile when it falls within the front and a slot is free. -/
  | reduceTileOpen
  /-- REDUCE_TILE_ROUND (R189): A complete reduce tile is rounded once and written to its destination or handed to the consuming step. -/
  | reduceTileRound (reduction : Fin 256) (env : Env)
  /-- REDUCE_FRONT_TIMEOUT (R189): A gradient-window write waiting 2 ms faults the reduction with REDUCE_FRONT. -/
  | reduceFrontTimeout (reduction : Fin 256)
  /-- REDUCE_TIMEOUT (R190): A reduction whose front has not advanced for red_timeout_ms faults. -/
  | reduceTimeout (reduction : Fin 256)
  /-- CKPT_FREEZE (R194): CKPT_FREEZE mode FREEZE freezes a job's committed state for a checkpoint. -/
  | ckptFreeze (queue : Fin 32768) (idx : Fin 65536) (env : Env)
  /-- CKPT_FREEZE_RELEASE (R194): CKPT_FREEZE mode RELEASE releases a freeze and its kept sectors. -/
  | ckptFreezeRelease (queue : Fin 32768) (idx : Fin 65536)
  /-- CKPT_DRAIN (R196): CKPT_DRAIN writes the frozen image and trailer to host memory at ckpt_rate. -/
  | ckptDrain (queue : Fin 32768) (idx : Fin 65536) (count : Nat) (env : Env)
  /-- FIT_ESTIMATE (R168): FIT_ESTIMATE computes whether a planned load fits a partition and writes a result record. -/
  | fitEstimate (queue : Fin 32768) (idx : Fin 65536) (env : Env)
  /-- OPEN_VERSION_READ (R203): OPEN_VERSION mode READ binds the HID to read a named live version. -/
  | openVersionRead (queue : Fin 32768) (idx : Fin 65536)
  /-- OPEN_VERSION_READ_LATEST (R203): OPEN_VERSION mode READ_LATEST binds the HID to read the latest version. -/
  | openVersionReadLatest (queue : Fin 32768) (idx : Fin 65536)
  /-- OPEN_VERSION_WRITE (R203): OPEN_VERSION mode WRITE creates an open version on a named base. -/
  | openVersionWrite (queue : Fin 32768) (idx : Fin 65536)
  /-- OPEN_VERSION_WRITE_LATEST (R203): OPEN_VERSION mode WRITE_LATEST creates an open version on the latest. -/
  | openVersionWriteLatest (queue : Fin 32768) (idx : Fin 65536)
  /-- OPEN_VERSION_UNBIND (R203): OPEN_VERSION mode UNBIND sets the HID's binding to none. -/
  | openVersionUnbind (queue : Fin 32768) (idx : Fin 65536)
  /-- PUBLISH_PLAIN (R206): PUBLISH mode PLAIN numbers the HID's open version and makes it the latest. -/
  | publishPlain (queue : Fin 32768) (idx : Fin 65536)
  /-- PUBLISH_CAS (R206): PUBLISH mode CAS publishes only if the latest still equals the version's base. -/
  | publishCas (queue : Fin 32768) (idx : Fin 65536)
  /-- CLOSE_VERSION (R208): CLOSE_VERSION discards an open version whole. -/
  | closeVersion (queue : Fin 32768) (idx : Fin 65536)
  /-- LEASE_RENEW (R214): LEASE_RENEW mode RENEW renews or acquires the HID's lease on one or all shared regions. -/
  | leaseRenew (queue : Fin 32768) (idx : Fin 65536)
  /-- LEASE_RELEASE (R214): LEASE_RENEW mode RELEASE back-invalidates the HID's lines and ends its lease without a declaration. -/
  | leaseRelease (queue : Fin 32768) (idx : Fin 65536)
  /-- REJOIN (R214): LEASE_RENEW mode REJOIN clears a dead HID's bit and starts a new lease. -/
  | rejoin (queue : Fin 32768) (idx : Fin 65536)
  /-- LEASE_EXPIRY_CHECK (R214): Every 1 ms the device checks leases and declares dead each HID whose lease has expired. -/
  | leaseExpiryCheck (ph : Phys)
  /-- LEASE_ENABLE_WRITE (R214): A write of sr_lease_enable gives leases to bound HIDs or cancels every lease. -/
  | leaseEnableWrite (region : Fin 256) (value : Nat)
  /-- SHARE_DECLARE_DEAD (R213): A write of share_declare_dead declares a HID dead in a shared region. -/
  | shareDeclareDead (value : Nat) (ph : Phys)
  /-- SHARE_REVIVE (R214): A write of share_revive rejoins a HID as REJOIN does. -/
  | shareRevive (value : Nat)
  /-- SHARE_VERSION_RESET (R200): A write of 1 to share_version_reset sets the version counter to 1. -/
  | shareVersionReset
  /-- LINK_GRACE_EXPIRY (R213): A HID whose every LD stays down beyond share_link_grace_ms is declared dead where it holds state. -/
  | linkGraceExpiry (hid : Fin 256) (ph : Phys)
  /-- BISNP_RESPONSE (R210): A BIRsp from a holder arrives and the waiting request proceeds. -/
  | bisnpResponse (port : Fin 512) (line : Nat) (shared : Bool) (ph : Phys)
  /-- BISNP_TIMEOUT (R211): A BISnp unanswered for share_bi_timeout_us is reissued once, then the holder is declared dead. -/
  | bisnpTimeout (line : Nat) (hid : Fin 256) (ph : Phys)
  /-- BICONFLICT (R210): A BIConflict from a host is handled as the standard gives. -/
  | biconflict (port : Fin 512) (line : Nat)
  /-- RETIRE_FRAME (R334): RETIRE mode FRAME retires one data frame, relocating its live blocks first. -/
  | retireFrame (queue : Fin 32768) (idx : Fin 65536) (ph : Phys)
  /-- RETIRE_ROW (R334): RETIRE mode ROW retires the frames that a row covers. -/
  | retireRow (queue : Fin 32768) (idx : Fin 65536) (ph : Phys)
  /-- RETIRE_BANK (R334): RETIRE mode BANK retires the frames that a bank covers. -/
  | retireBank (queue : Fin 32768) (idx : Fin 65536) (ph : Phys)
  /-- RETIRE_RELEASE (R334): RETIRE mode RELEASE returns an empty QUARANTINED frame to FREE. -/
  | retireRelease (queue : Fin 32768) (idx : Fin 65536)
  /-- TEST_ROUND (R356): TEST_ROUND runs a dice round on a named block and its partner. -/
  | testRound (queue : Fin 32768) (idx : Fin 65536)
  /-- DICE_ROUND_DUE (R353): A block's dice round falls due by period or milestone count and waits for a boundary or preempts. -/
  | diceRoundDue (region : Fin 4) (block : Fin 9)
  /-- DICE_ROUND_COMPLETE (R356): A dice round ends and the signatures of block and partner are compared and settled. -/
  | diceRoundComplete (region : Fin 4) (own partner third again : Nat) (lanes : List Nat)
  /-- DICE_DEFER_EXPIRY (R354): A due round finds no boundary within integ_defer_ms and preempts the block at its next work-tile boundary. -/
  | diceDeferExpiry (region : Fin 4)
  /-- CHECK_FLAG (R347): A residue, parity or duplicate-logic check flags and the device discards the result and launches two repeats. -/
  | checkFlag (region : Fin 4) (block : Fin 9) (check : Fin 8) (work : Work) (result predicted found : Nat)
  /-- REPEAT_DECIDE (R347): The repeat runs of a flagged computation complete and the outcome is classified. -/
  | repeatDecide (flag : Nat) (a2 b c : Run)
  /-- BLOCK_WATCHDOG_EXPIRY (R374): A block's watchdog finds no progress for 10 ms and flags a hang, starting an engine reset. -/
  | blockWatchdogExpiry (kind : Fin 4) (index : Fin 64) (waiting : Nat)
  /-- ENGINE_FAULT (R375): An engine fault starts an engine reset with no suspect search. -/
  | engineFault (kind : Fin 4) (index : Fin 64) (waiting : Nat)
  /-- ENGINE_RESET_COMPLETE (R375): An engine reset completes and the block's contexts resume or the suspect search begins. -/
  | engineResetComplete (kind : Fin 4) (index : Fin 64) (ph : Phys)
  /-- ENGINE_RESET_OVERRUN (R372): An engine reset not complete 1 ms after its start escalates to a region reset. -/
  | engineResetOverrun (kind : Fin 4) (index : Fin 64)
  /-- SUSPECT_TILE_RESULT (R377): A suspect's replayed work tile retires or hangs the replay block, deciding guilt. -/
  | suspectTileResult (region : Fin 4) (block : Fin 9) (hung : Bool) (env : Env)
  /-- REGION_RESET (R379): A region reset starts: ports fall, staging is journaled, stacks enter self-refresh and the die resets. -/
  | regionReset (region : Fin 4) (fatal : Bool)
  /-- REGION_RESET_COMPLETE (R379): A region reset ends with the journal replayed, held requests served and a BACK notice sent. -/
  | regionResetComplete (region : Fin 4) (lost : List Nat) (env : Env)
  /-- REGION_RESET_OVERRUN (R372): A region reset not complete 5 ms after its start sends the device to SAFE and a warm device reset. -/
  | regionResetOverrun (region : Fin 4)
  /-- WARM_RESET_PHASE_END (R380): A phase of a warm device reset completes and the next begins, ending in STANDBY. -/
  | warmResetPhaseEnd (env : Env) (tables : Bool) (lost : List Nat)
  /-- WARM_RESET_OVERRUN (R372): A warm device reset not in STANDBY 400 ms after its start takes the device OUT_OF_SERVICE. -/
  | warmResetOverrun
  /-- SAFE_ENTRY (R369): A SAFE cause runs the SAFE entry actions within 1 ms. -/
  | safeEntry
  /-- SAFE_AUTO_EXPIRY (R368): After dev_safe_auto_ms in SAFE the device starts a warm device reset. -/
  | safeAutoExpiry
  /-- CORE_WATCHDOG_EXPIRY (R368): The management-core watchdog expires after 100 ms without service and the device enters SAFE with cause CORE. -/
  | coreWatchdogExpiry
  /-- LOCKSTEP_MISMATCH (R368): MC0 and MC1 disagree and the device enters SAFE with cause CORE. -/
  | lockstepMismatch
  /-- CODE_FETCH_UE (R338): An uncorrectable instruction fetch faults both cores and the handler reloads the page. -/
  | codeFetchUe (inHandler : Bool)
  /-- DMA_SOURCE_UE (R339): An internal DMA channel meets an uncorrectable source and halts, to be retried from the mirror. -/
  | dmaSourceUe (channel : Fin 8) (source : Nat) (mirror metadata : Bool)
  /-- ENTER_SERVICE (R366): dev_request ENTER_SERVICE moves STANDBY to SERVICE. -/
  | enterService
  /-- ENTER_STANDBY (R366): dev_request ENTER_STANDBY moves a quiet SERVICE device to STANDBY. -/
  | enterStandby
  /-- RECOVER (R366): dev_request RECOVER leaves SAFE through a warm device reset. -/
  | recover
  /-- ENTER_SAFE (R367): dev_request ENTER_SAFE enters SAFE with cause REQUEST. -/
  | enterSafe
  /-- PATROL_SCRUB_READ (R330): Patrol scrub reads a line, writes back a correctable one or handles an uncorrectable one. -/
  | patrolScrubRead (stack : Fin 16) (events : ScrubEvents)
  /-- SCRUB_WRITEBACK (R331): A scrub writeback commits only if no write to the line was accepted since the scrub read it. -/
  | scrubWriteback (stack : Fin 16)
  /-- SRAM_SCRUB (R330): The cell arbiter scrubs a written SRAM line. -/
  | sramScrub (region : Fin 4) (scratch : Option (Fin 9)) (outcome : Fin 15) (holding : Fin 9) (place : Nat)
  /-- STACK_DEATH (R340): A stack dies, its floor falls to 0 and its blocks are walked, poisoned or rebuilt. -/
  | stackDeath (stack : Fin 16)
  /-- STACK_DEATH_WALK_COMPLETE (R340): The walk of a dead stack's region block map completes within 2 s. -/
  | stackDeathWalkComplete (stack : Fin 16) (ph : Phys)
  /-- REGION_DEATH (R341): A region dies and the device enters SAFE and then OUT_OF_SERVICE. -/
  | regionDeath (region : Fin 4)
  /-- FLIP_ARM (R337): A write arming flip_target makes the next write to the unit store corrupted check or data bits. -/
  | flipArm (value : Nat)
  /-- STACK_TEMP_SAMPLE (R312): Every 250 µs the controller reads the stack temperature and updates its condition. -/
  | stackTempSample (stack : Fin 16) (celsius : Int)
  /-- THERMAL_HOLD_EXPIRY (R312): A stack in HOLD for mc_thermal_hold_ms sends the device to SAFE with cause THERMAL. -/
  | thermalHoldExpiry (stack : Fin 16)
  /-- REFRESH_DUE (R311): A bank's per-bank refresh falls due each tREFI and is issued or postponed. -/
  | refreshDue (stack : Fin 16) (pc : Fin 64) (bank : Fin 48) (waiting promoted : Bool)
  /-- PAGE_IDLE_EXPIRY (R310): A bank's idle timer reaches mc_page_idle_ns and its open row is precharged. -/
  | pageIdleExpiry (stack : Fin 16) (pc : Fin 64) (bank : Fin 48)
  /-- REQUEST_STARVE_PROMOTE (R309): A request that has waited mc_starve_ns becomes promoted. -/
  | requestStarvePromote (place : Nat)
  /-- COMMAND_PARITY_ALERT (R315): A stack raises a command parity alert and the controller stops, precharges and replays the channel's retry buffer. -/
  | commandParityAlert (stack : Fin 16) (channel : Fin 32)
  /-- REPLAY_COMPLETE (R315): A command replay on a channel completes without an alert. -/
  | replayComplete (stack : Fin 16) (channel : Fin 32)
  /-- CHANNEL_RETRAIN_COMPLETE (R316): Firmware retraining of an offline channel ends in success or stack death. -/
  | channelRetrainComplete (stack : Fin 16) (channel : Fin 32) (ok : Bool)
  /-- PANIC_ASSERT (R313): A real-time master's read-return buffer falls below 16 lines with reads outstanding and panic is asserted. -/
  | panicAssert (master : Fin 512) (fill reads : Nat)
  /-- PANIC_DEASSERT (R313): Panic is deasserted when the buffer reaches 32 lines or no read is outstanding. -/
  | panicDeassert (master : Fin 512) (fill reads : Nat)
  /-- TRN_HOLD_WRITE (R318): A write of trn_hold brings a stack out of self-refresh into TRAINED_IDLE or returns it. -/
  | trnHoldWrite (stack : Fin 16) (value : Nat)
  /-- TRN_CTL_START (R318): A write of trn_ctl with start set begins a training pattern run. -/
  | trnCtlStart (stack : Fin 16) (value : Nat)
  /-- TRN_RUN_COMPLETE (R318): A training pattern run finishes and trn_status reads DONE with its mismatch counts. -/
  | trnRunComplete (stack : Fin 16) (mismatch errors : Nat)
  /-- SELF_REFRESH_ENTRY (R319): A stack drains, pays owed refreshes, precharges and enters self-refresh. -/
  | selfRefreshEntry (stack : Fin 16)
  /-- SELF_REFRESH_EXIT (R320): A stack granted its wake tokens exits self-refresh and takes requests again. -/
  | selfRefreshExit (stack : Fin 16) (ph : Phys)
  /-- LINK_DETECT_TICK (R248): An enabled link in DETECT runs receiver detection every 12 ms. -/
  | linkDetectTick (link : Fin 32) (present : Bool)
  /-- LINK_TRAINED (R247): Link training and negotiation complete and the link is UP or INCOMPATIBLE. -/
  | linkTrained (link : Fin 32) (partner : Partner)
  /-- LINK_DOWN (R267): A link falls from UP, its LDs reset, pending reads are discarded and it enters BACKOFF. -/
  | linkDown (link : Fin 32) (hotReset : Bool)
  /-- BACKOFF_EXPIRY (R248): A link's BACKOFF delay expires and it returns to DETECT. -/
  | backoffExpiry (link : Fin 32)
  /-- PORT_ENABLE_WRITE (R249): A write of port_enable enables links or takes them down with DISABLED and clears any rate cap. -/
  | portEnableWrite (block : Fin 16) (value : Nat)
  /-- RX_OVERFLOW (R253): A flit beyond the advertised credit is discarded and the link falls with RX_OVERFLOW. -/
  | rxOverflow (port : Fin 512)
  /-- CREDIT_STALL (R253): No transmit credit returns for port_credit_stall_ms and the link falls with CREDIT_STALL. -/
  | creditStall (link : Fin 32)
  /-- REPLAY_LIMIT_EXHAUSTED (R268): Link-layer replay exhausts its limit and the link retrains with ERROR_RATE. -/
  | replayLimitExhausted (link : Fin 32)
  /-- MALFORMED_MESSAGE (R268): A malformed message or unsupported opcode is discarded and the link goes down with PROTOCOL. -/
  | malformedMessage (port : Fin 512)
  /-- IDE_KEY_PROGRAM (R262): IDE_KM over SPDM in DOE programs link IDE keys and activates the stream. -/
  | ideKeyProgram (link : Fin 32) (keys : List Byte) (containment : Bool)
  /-- IDE_INTEGRITY_FAIL (R262): An IDE integrity failure makes the stream Insecure and the link falls with IDE_INTEGRITY. -/
  | ideIntegrityFail (link : Fin 32)
  /-- LD_FLR (R266): FLR of an LD function silences its requests, halts its LD-path queues and resets its function registers. -/
  | ldFlr (port : Fin 512)
  /-- LD_BME_CLEAR (R266): Bus Master Enable cleared on an LD function silences its requests and halts its LD-path queues. -/
  | ldBmeClear (port : Fin 512)
  /-- LD_CPL_TIMEOUT (R266): A CXL.io read on an LD times out and its owner handles the failure. -/
  | ldCplTimeout (port : Fin 512) (tag : Nat)
  /-- LD_COMPLETION_ARRIVAL (R266): A CXL.io completion arrives on an LD, is used, or discarded if late. -/
  | ldCompletionArrival (port : Fin 512) (tag : Nat)
  /-- CXL_CONFIG_REQUEST (R254): A CXL.io configuration request to an LD function is answered in every state. -/
  | cxlConfigRequest (link : Fin 32) (ld : Fin 17) (write : Bool) (offset : Fin 1024) (value : Nat)
  /-- CDAT_READ (R245): A DOE CDAT read returns one DSMAS entry per committed partition reachable by the LD. -/
  | cdatRead (port : Fin 512)
  /-- DC_ADD_EXTENT (R261): The fabric manager adds dynamic capacity extents to an LD through the FM API. -/
  | dcAddExtent (port : Fin 512) (first count : Nat)
  /-- DC_RELEASE_EXTENT (R261): An extent is released and, if no LD holds it, its blocks become UNWRITTEN. -/
  | dcReleaseExtent (port : Fin 512) (first count : Nat)
  /-- IDENTIFY_MEMORY_DEVICE (R264): Mailbox Identify Memory Device returns the device identity. -/
  | identifyMemoryDevice (port : Fin 512)
  /-- GET_SUPPORTED_LOGS (R264): Mailbox Get Supported Logs lists the logs. -/
  | getSupportedLogs (port : Fin 512)
  /-- GET_LOG (R264): Mailbox Get Log returns a log such as the CEL. -/
  | getLog (port : Fin 512) (uuid offset length : Nat)
  /-- GET_EVENT_RECORDS (R259): Mailbox Get Event Records returns records from an LD's event logs. -/
  | getEventRecords (port : Fin 512) (log : Nat)
  /-- CLEAR_EVENT_RECORDS (R259): Mailbox Clear Event Records clears records from an LD's event logs. -/
  | clearEventRecords (port : Fin 512) (log : Nat) (all : Bool) (handles : List Nat)
  /-- GET_EVENT_INTERRUPT_POLICY (R259): Mailbox Get Event Interrupt Policy returns the LD's policy. -/
  | getEventInterruptPolicy (port : Fin 512)
  /-- SET_EVENT_INTERRUPT_POLICY (R259): Mailbox Set Event Interrupt Policy sets the LD's event vectors. -/
  | setEventInterruptPolicy (port : Fin 512) (settings : List Byte)
  /-- GET_TIMESTAMP (R264): Mailbox Get Timestamp returns the LD's timestamp. -/
  | getTimestamp (port : Fin 512)
  /-- SET_TIMESTAMP (R264): Mailbox Set Timestamp sets the LD's timestamp. -/
  | setTimestamp (port : Fin 512) (value : Nat)
  /-- GET_HEALTH_INFO (R336): Mailbox Get Health Info reports life used, temperature and error counts. -/
  | getHealthInfo (port : Fin 512)
  /-- GET_ALERT_CONFIGURATION (R336): Mailbox Get Alert Configuration returns the alert thresholds. -/
  | getAlertConfiguration (port : Fin 512)
  /-- SET_ALERT_CONFIGURATION (R336): Mailbox Set Alert Configuration sets alerts on life used and temperature. -/
  | setAlertConfiguration (port : Fin 512) (settings : List Byte)
  /-- GET_FW_INFO (R264): Mailbox Get FW Info reports one active firmware slot. -/
  | getFwInfo (port : Fin 512)
  /-- GET_POISON_LIST (R264): Mailbox Get Poison List returns recent POISON blocks the LD's HID may read. -/
  | getPoisonList (port : Fin 512) (dpa length : Nat)
  /-- INJECT_POISON (R264): Mailbox Inject Poison commits a block POISON. -/
  | injectPoison (port : Fin 512) (dpa : Nat)
  /-- CLEAR_POISON (R264): Mailbox Clear Poison writes the supplied 64 B as a CXL.mem write. -/
  | clearPoison (port : Fin 512) (dpa : Nat) (data : List Byte) (ph : Phys)
  /-- GET_DC_CONFIGURATION (R261): Mailbox Get Dynamic Capacity Configuration reports one DC region of the whole DPA. -/
  | getDcConfiguration (port : Fin 512)
  /-- GET_DC_EXTENT_LIST (R261): Mailbox Get DC Extent List returns the LD's accepted extents. -/
  | getDcExtentList (port : Fin 512) (count start : Nat)
  /-- ADD_DC_RESPONSE (R261): Mailbox Add DC Response accepts offered extents. -/
  | addDcResponse (port : Fin 512) (accepted : List (Nat × Nat))
  /-- RELEASE_DC (R261): Mailbox Release DC releases extents of the LD. -/
  | releaseDc (port : Fin 512) (released : List (Nat × Nat))
  /-- MAILBOX_UNSUPPORTED (R264): Any other standard mailbox command returns Unsupported. -/
  | mailboxUnsupported (port : Fin 512) (opcode : Fin 65536)
  /-- DICT_READ (R265): Vendor mailbox DICT_READ returns one dictionary value when port_mbox_dict is 1. -/
  | dictRead (port : Fin 512) (index : Fin 65536) (sub : DictSub)
  /-- GET_SIGNATURES (R265): Vendor mailbox GET_SIGNATURES returns failure-signature records naming the LD's HID or none. -/
  | getSignatures (port : Fin 512) (start : Nat)
  /-- GET_PORT_MODE (R265): Vendor mailbox GET_PORT_MODE returns the link's port_status and credit audit count. -/
  | getPortMode (port : Fin 512)
  /-- GET_BINDING (R265): Vendor mailbox GET_BINDING returns the LD's HID and its queue groups. -/
  | getBinding (port : Fin 512)
  /-- GET_OWN_FAIL (R265): Vendor mailbox GET_OWN_FAIL returns own_last_fail when it names the LD's HID. -/
  | getOwnFail (port : Fin 512)
  /-- SVC_FLR (R282): An FLR of the service function drops its requests, loses the detour, halts SERVICE-path queues and resets its registers. -/
  | svcFlr
  /-- SVC_FLR_COMPLETE (R282): The service function FLR completes within 10 ms. -/
  | svcFlrComplete
  /-- SVC_BME_CLEAR (R284): Bus Master Enable cleared on the service function stops its requests as an FLR does without resetting registers. -/
  | svcBmeClear
  /-- SVC_BME_SET (R284): Bus Master Enable set sends pending MSI-X messages and lets the detour area return to ACTIVE. -/
  | svcBmeSet
  /-- PERST_ASSERT (R284): PERST# asserted, hot reset or DL_Down applies a conventional reset to the service function. -/
  | perstAssert (cause : Fin 3)
  /-- PERST_DEASSERT (R284): PERST# deasserted starts service link training and readiness within 1 s. -/
  | perstDeassert
  /-- SVC_LINK_DOWN_GRACE_EXPIRY (R284): 100 ms after the service link leaves DL_Active without D0 and BME the detour area is lost. -/
  | svcLinkDownGraceExpiry
  /-- SVC_D3HOT_ENTRY (R287): A PMCSR write puts the service function in D3hot. -/
  | svcD3hotEntry
  /-- SVC_D0_ENTRY (R287): A PMCSR write returns the service function to D0. -/
  | svcD0Entry
  /-- SVC_D3COLD_ENTRY (R287): The PME_Turn_Off handshake takes the link to L2 and the service function to D3cold. -/
  | svcD3coldEntry
  /-- SVC_D3_WAIT_EXPIRY (R287): A detour read waiting svc_d3_wait_ms in D3hot returns poison without loss. -/
  | svcD3WaitExpiry
  /-- WAKE_CAUSE_SIGNAL (R288): An enabled wake cause sets PME_Status and sends PM_PME or asserts WAKE#. -/
  | wakeCauseSignal (cause : Fin 4)
  /-- SVC_COMPLETION_ARRIVAL (R280): A completion arrives for a service-link request and is used by its requester or discarded if its tag is quarantined. -/
  | svcCompletionArrival (tag : Nat) (defect : CplDefect)
  /-- SVC_COMPLETION_TIMEOUT (R279): A service-link request times out, its tag is quarantined and its requester handles the failure. -/
  | svcCompletionTimeout (tag : Nat)
  /-- TAG_QUARANTINE_EXPIRY (R281): A quarantined tag returns to the pool after twice the completion timeout. -/
  | tagQuarantineExpiry (tag : Nat)
  /-- SVC_EGRESS_GRANT (R276): The service egress scheduler grants one requester and issues its request. -/
  | svcEgressGrant
  /-- BAR0_READ (R275): A BAR0 read returns a snapshot of a dictionary slot or completes with Unsupported Request. -/
  | bar0Read (offset : Fin 134217728) (size : Nat)
  /-- DICT_WRITE (R275): A write to a dictionary entry with no behaviour of its own is checked and applied or refused with its reason. -/
  | dictWrite (offset : Fin 134217728) (size : Nat) (data : DictData) (ph : Phys)
  /-- LTR_SEND (R290): The service function sends an LTR message when its activity conditions change. -/
  | ltrSend
  /-- ASPM_SUPPORT_WRITE (R289): A write of svc_aspm_support changes the advertised ASPM states at once. -/
  | aspmSupportWrite (value : Nat)
  /-- DOM_DATA_WRITE (R415): A write of dom_data stages firmware image bytes into fw_stage in sequence. -/
  | domDataWrite (slot : Fin 256) (size value : Nat)
  /-- FW_COMMIT (R403): A write of 1 to fw_commit checks the staged image and programs it into flash. -/
  | fwCommit
  /-- FW_WRITE_COMPLETE (R403): Programming and read-back of the new image finish and fw_update_state reads DONE or FAILED. -/
  | fwWriteComplete (good : Bool)
  /-- KEY_ERASE (R410): A write of 1 to key_erase zeroes and empties a key slot not in use. -/
  | keyErase (slot : Fin 256)
  /-- DIAG_MAP_LATCH (R431): A write of diag_map_dpa, diag_map_copy or diag_map_latch latches a block-map entry snapshot. -/
  | diagMapLatch (entry : Fin 3) (value : Nat) (ph : Phys)
  /-- KEY_LOAD (R409): The vendor SPDM request KEY_LOAD loads an AES-256-XTS key pair into an empty slot. -/
  | keyLoad (session : Nat) (slot : Fin 256) (key1 key2 : List Byte)
  /-- SPDM_GET_MEASUREMENTS (R408): SPDM GET_MEASUREMENTS returns the signed measurement blocks. -/
  | spdmGetMeasurements (session : Nat) (operation : Fin 256) (signed : Bool) (nonce : List Byte)
  /-- SPDM_KEY_EXCHANGE (R407): SPDM KEY_EXCHANGE opens a session, or receives Busy when four are held. -/
  | spdmKeyExchange (id : Nat) (mauth : Bool) (transport : Fin 3) (heartbeat : Nat)
  /-- SPDM_REQUEST (R407): Another SPDM 1.3 request such as GET_CERTIFICATE or CHALLENGE is answered. -/
  | spdmRequest (session : Nat) (code : Fin 256) (payload : List Byte)
  /-- MCTP_PACKET (R426): An MCTP packet arrives over PCIe VDM or Glody type 6 and is delivered to its endpoint. -/
  | mctpPacket (glody : Bool) (eid length : Nat)
  /-- SET_ENDPOINT_ID (R426): MCTP Set Endpoint ID from the box controller assigns the device's endpoint ID. -/
  | setEndpointId (eid : Fin 256)
  /-- GLODY_READ (R420): Glody REQUEST op READ returns up to 64 dictionary values with their statuses. -/
  | glodyRead (session seq : Nat) (tagOk : Bool) (src : Nat) (items : List (Fin 16777216))
  /-- GLODY_WRITE (R420): Glody REQUEST op WRITE checks a group of up to 32 items and applies it whole or not at all. -/
  | glodyWrite (session seq : Nat) (tagOk : Bool) (src : Nat) (items : List (Fin 16777216 × Nat)) (ph : Phys)
  /-- READ_DOMAIN (R420): Glody REQUEST op READ_DOMAIN returns bytes of a DOMAIN or VSTR entry. -/
  | readDomain (session seq : Nat) (tagOk : Bool) (src : Nat) (key : Fin 16777216) (offset length : Nat)
  /-- WRITE_DOMAIN (R420): Glody REQUEST op WRITE_DOMAIN writes bytes into a writable DOMAIN entry. -/
  | writeDomain (session seq : Nat) (tagOk : Bool) (src : Nat) (key : Fin 16777216) (offset : Nat) (bytes : List Byte)
  /-- DC_ADD (R420): Glody REQUEST op DC_ADD adds dynamic capacity extents to an LD. -/
  | dcAdd (session seq : Nat) (tagOk : Bool) (src : Nat) (port : Fin 16) (half : Fin 2) (ld : Fin 16) (count dpa : Nat)
  /-- DC_RELEASE (R420): Glody REQUEST op DC_RELEASE releases dynamic capacity extents of an LD. -/
  | dcRelease (session seq : Nat) (tagOk : Bool) (src : Nat) (port : Fin 16) (half : Fin 2) (ld : Fin 16) (count dpa : Nat)
  /-- KEEPALIVE (R420): Glody REQUEST op KEEPALIVE keeps a session alive. -/
  | keepalive (session seq : Nat) (tagOk : Bool) (src : Nat)
  /-- CLOSE (R419): Glody REQUEST op CLOSE closes a Glody session. -/
  | closeSession (session seq : Nat) (tagOk : Bool) (src : Nat)
  /-- GLODY_SESSION_IDLE_EXPIRY (R419): A Glody session with no request for glody_session_idle_ms closes. -/
  | glodySessionIdleExpiry (session : Nat)
  /-- GLODY_DATAGRAM_DROP (R417): A malformed, misaddressed or unauthenticated Glody datagram is dropped or answered AUTH. -/
  | glodyDatagramDrop (kind : Fin 4) (session seq : Nat) (op : Fin 256) (src : Nat)
  /-- NOTICE_REPEAT (R423): glody_repeat_ms after a notice it is sent again with the repeat flag and a fresh signature. -/
  | noticeRepeat
  /-- GLODY_TRANSMIT (R423): The datagram at the head of the transmit queue leaves at the device's next PLCA transmit opportunity. -/
  | glodyTransmit
  /-- ANNOUNCE (R425): Every glody_announce_s, or every 1 s in RECOVERY, the device sends an ANNOUNCE. -/
  | announce
  /-- PLCA_BEACON (R416): As coordinator the device sends the PLCA BEACON for glody_plca_count nodes. -/
  | plcaBeacon
  /-- NEIGHBOR_SOLICITATION (R416): A Neighbor Solicitation for the device's link-local address is answered. -/
  | neighborSolicitation (target : Nat)
  /-- BEGIN (R427): Loader op BEGIN opens a transfer of a key block, configuration record or image and erases its area. -/
  | beginOp (source seq object length : Nat)
  /-- DATA (R427): Loader op DATA programs bytes at the next expected offset. -/
  | dataOp (source seq offset : Nat) (bytes : List Byte)
  /-- END (R427): Loader op END checks the object in flash and restarts the device when every check passes. -/
  | endOp (source seq : Nat)
  /-- LOADER_TRANSFER_TIMEOUT (R427): A loader transfer with no datagram for 10 s is abandoned. -/
  | loaderTransferTimeout
  /-- BOOT_PHASE_END (R399): A boot phase completes and the next begins, ending in STANDBY. -/
  | bootPhaseEnd (flashOk pufOk : Bool) (bist : List Nat) (remaps : List (Nat × Nat × Nat)) (dead : List Nat)
  /-- POWER_INPUT_APPLIED (R444): 36 V is applied with MATE tied and the hot-swap controller charges the input, starting boot. -/
  | powerInputApplied (millivolts : Nat) (slot : Fin 8) (refStable : Bool)
  /-- REFCLK_STABLE (R444): REFCLK has been stable for 10 ms and a POWER_ON held for it ends. -/
  | refclkStable
  /-- INPUT_OUT_OF_RANGE (R386): The input stays below 29.0 V or above 40.5 V for 200 µs and the device enters SAFE with cause SUPPLY. -/
  | inputOutOfRange (millivolts : Nat)
  /-- INPUT_RESTORED (R386): The input has stayed within 30–40 V for 100 ms and SAFE with cause SUPPLY may be left. -/
  | inputRestored (millivolts : Nat)
  /-- INPUT_COLLAPSE (R445): The input below 26.0 V for 10 µs or MATE breaking drops every rail. -/
  | inputCollapse
  /-- REFCLK_LOST (R390): The reference clock is absent for 1 µs and the device switches oscillator and enters SAFE with cause CLOCK. -/
  | refclkLost
  /-- REFCLK_RESTORED (R390): The reference has been stable for 10 ms and SAFE with cause CLOCK may be left. -/
  | refclkRestored
  /-- THERMAL_TRIP (R448): A die above 125 °C for 100 µs or a stack above 105 °C trips the hardware, turning off every rail but the always-on domain. -/
  | thermalTrip (unit : Nat) (celsius : Int)
  /-- GOVERNOR_SAMPLE (R388): Every 10 µs the power governor samples input power and sets the throttle. -/
  | governorSample (watts : Nat)
  /-- POWER_S1_ENTRY (R392): A region idle for pwr_s1_idle_ns enters power state S1. -/
  | powerS1Entry (region : Fin 4)
  /-- POWER_S2_ENTRY (R392): A region in power state S1 for pwr_s2_idle_us enters power state S2. -/
  | powerS2Entry (region : Fin 4)
  /-- POWER_S3_ENTRY (R392): With every region in power state S2 for pwr_s3_idle_ms the device enters power state S3. -/
  | powerS3Entry (linksIdle svcIdle : Bool)
  /-- WAKE_CAUSE (R394): A request, doorbell or access homed in a sleeping region queues the wakes that region needs. -/
  | wakeCause (cause : Fin 18) (region : Option (Fin 4))
  /-- WAKE_TOKEN_TICK (R395): Every 25 µs the wake-token bucket gains one token or the token expires. -/
  | wakeTokenTick
  /-- WAKE_GRANT (R396): The head wake of the token queue is granted whole when the bucket holds its tokens. -/
  | wakeGrant (ph : Phys)
  /-- PLL_LOCK (R391): A region's PLL locks and its stacks begin self-refresh exit. -/
  | pllLock (region : Fin 4) (ph : Phys)
  /-- HUB_RESTORE_COMPLETE (R391): The hub restore after power state S3 completes and woken regions serve requests. -/
  | hubRestoreComplete (ph : Phys)
  /-- LATENCY_TOLERANCE_WRITE (R393): A write lowering the latency tolerance starts exits of regions whose power state no longer fits. -/
  | latencyToleranceWrite (entry : Fin 18) (value : Nat)
  /-- HDM_DECODER_COMMIT (R245): A host writes an LD's HDM decoder registers and commits (and optionally locks) a decoder that maps host addresses to DPA. -/
  | hdmDecoderCommit (port : Fin 512) (decoder : Fin 4) (commit : Bool) (base size ways gran skip : Nat) (lock : Bool)
  /-- VERSION_TABLE_WALK_PASS (R217): The walker of the version tables completes a pass, at least once every 64 s, and counts the result in vref_walk_pass or vref_audit_fail. -/
  | versionTableWalkPass
  /-- SPDM_HEARTBEAT_TIMEOUT (R407): An SPDM session with HBEAT whose heartbeat period lapses is ended, closing any Glody session that rests on it. -/
  | spdmHeartbeatTimeout (session : Nat)
  /-- I3C_DYNAMIC_ADDRESS_ASSIGNMENT (R441): ENTDAA on the external I3C bus assigns the device its dynamic address from its provisional ID. -/
  | i3cDynamicAddressAssignment (address : Fin 128)
  /-- MSIX_VECTOR_UNMASK (R238): A write clearing an MSI-X vector's mask bit while its pending bit is set sends the held message. -/
  | msixVectorUnmask (via : Option (Fin 512)) (entry : MsixEntry)
  /-- PLCA_BEACON_STATUS_CHANGE (R416): As a follower the device gains or loses the coordinator's PLCA beacon and moves between PLCA transmit opportunities and collision rules. -/
  | plcaBeaconStatusChange (present : Bool)
  /-- SVC_LINK_UP (R277): The service link reaches DL_Active and waiting requests, completions and MCTP responses resume, with the detour kept if D0 and BME return within 100 ms. -/
  | svcLinkUp
  /-- SVC_CONFIG_REQUEST (R272): A configuration request to the service function is answered, or answered with Request Retry Status during reset, and writes to its capabilities take effect. -/
  | svcConfigRequest (write : Bool) (offset : Fin 1024) (value : Nat)
  deriving DecidableEq, Repr

end Sys2Proof
end

