-- ==== Sys2Proof/Decode.lean ====
section
/-! DEFINITION. The table gives the commands of this block no bits: no word spells one. -/
namespace Sys2Proof

/-- The command that a word spells: the table's rows carry no encoding, so none. -/
def decodeTableWord (_nbits _w : Nat) : Option Instr := none

end Sys2Proof
end

