-- ==== Sys2Proof/Machine/Bits.lean ====
section
/-! DEFINITION. Fields, little-endian bytes and two's complement (R9, R124). -/
namespace Sys2Proof.Machine

/-- Field [hi:lo] of a value (R9). -/
def fld (v hi lo : Nat) : Nat := (v >>> lo) % 2 ^ (hi + 1 - lo)

/-- `v` with its field [hi:lo] set to `x`, cut to the field's width. -/
def setFld (v hi lo x : Nat) : Nat :=
  v - (fld v hi lo) * 2 ^ lo + (x % 2 ^ (hi + 1 - lo)) * 2 ^ lo

/-- Ceiling division. -/
def cdiv (a b : Nat) : Nat := (a + b - 1) / b

/-- The number of significant bits; 0 for 0 (R104). -/
def bitlen (n : Nat) : Nat := if n = 0 then 0 else Nat.log2 n + 1

/-- The smallest e with n ≤ 2^e. -/
def ceilLog2 (n : Nat) : Nat := bitlen (n - 1)

/-- `n` bytes of `v`, lowest first (R9). -/
def leBytes : Nat → Nat → List Byte
  | 0, _ => []
  | n + 1, v => BitVec.ofNat 8 v :: leBytes n (v / 256)

/-- The value of bytes given lowest first (R9). -/
def ofLe : List Byte → Nat
  | [] => 0
  | b :: bs => b.toNat + 256 * ofLe bs

/-- `n` bytes of `v`, highest first. -/
def beBytes (n v : Nat) : List Byte := (leBytes n v).reverse

/-- `n` items from position `off`. -/
def cut {α : Type} (off n : Nat) (l : List α) : List α := (l.drop off).take n

/-- `l` with its items from position `off` replaced by `xs`. -/
def splice {α : Type} (off : Nat) (xs l : List α) : List α :=
  l.take off ++ xs ++ l.drop (off + xs.length)

/-- `n` zero bytes. -/
def zeros (n : Nat) : List Byte := List.replicate n 0

/-- `l` brought to exactly `n` bytes with zeros. -/
def padTo (n : Nat) (l : List Byte) : List Byte := l.take n ++ zeros (n - l.length)

/-- `l` cut into `k` pieces of `n` items. -/
def chunks {α : Type} (n : Nat) : Nat → List α → List (List α)
  | 0, _ => []
  | k + 1, l => l.take n :: chunks n k (l.drop n)

/-- The two's-complement value of the low `w` bits. -/
def signed (w v : Nat) : Int :=
  let x := v % 2 ^ w
  if 2 ^ (w - 1) ≤ x ∧ 0 < w then (x : Int) - 2 ^ w else x

/-- The low `w` bits of an integer in two's complement. -/
def unsigned (w : Nat) (i : Int) : Nat := (i % (2 : Int) ^ w).toNat

/-- XOR of two byte strings, position by position. -/
def xorBytes (a b : List Byte) : List Byte := List.zipWith (· ^^^ ·) a b

/-- Every byte is zero. -/
def allZero (l : List Byte) : Bool := l.all (· == 0)

/-- Distinct values of a list. -/
def distinct : List Nat → List Nat
  | [] => []
  | x :: xs => let r := distinct xs; if r.contains x then r else x :: r

end Sys2Proof.Machine
end

