-- ==== Sys2Proof/Machine/Aes.lean ====
section
/-! DEFINITION. AES-256-XTS (R85, R86), by the standard that R3 names (IEEE 1619 over AES-256). -/
namespace Sys2Proof.Machine

/-- Multiplication by x in GF(2^8) modulo x^8 + x^4 + x^3 + x + 1. -/
def xtime (b : Byte) : Byte := if b.msb then (b <<< 1) ^^^ 0x1B#8 else b <<< 1

/-- Product in GF(2^8), over the `n` low bits of the second factor. -/
def gmulN : Nat → Byte → Byte → Byte
  | 0, _, _ => 0
  | n + 1, a, b => (if b.getLsbD 0 then a else 0) ^^^ gmulN n (xtime a) (b >>> 1)

def gmul (a b : Byte) : Byte := gmulN 8 a b

/-- The inverse in GF(2^8), x^254; 0 for 0. -/
def ginv (a : Byte) : Byte :=
  let a2 := gmul a a
  let a4 := gmul a2 a2
  let a8 := gmul a4 a4
  let a16 := gmul a8 a8
  let a32 := gmul a16 a16
  let a64 := gmul a32 a32
  let a128 := gmul a64 a64
  gmul a2 (gmul a4 (gmul a8 (gmul a16 (gmul a32 (gmul a64 a128)))))

/-- The S-box: inverse, then the affine map. -/
def sbox (a : Byte) : Byte :=
  let x := ginv a
  x ^^^ x.rotateLeft 1 ^^^ x.rotateLeft 2 ^^^ x.rotateLeft 3 ^^^ x.rotateLeft 4 ^^^ 0x63#8

/-- The inverse S-box. -/
def invSbox (y : Byte) : Byte := ginv (y.rotateLeft 1 ^^^ y.rotateLeft 3 ^^^ y.rotateLeft 6 ^^^ 0x05#8)

/-- The AES-256 key schedule, as 4 B words: `ws` holds the words so far, newest first, `i` their number. -/
def expandFrom : Nat → Nat → Byte → List (List Byte) → List (List Byte)
  | 0, _, _, ws => ws
  | n + 1, i, rcon, ws =>
    let prev := ws.headD []
    let back := ws.getD 7 []
    if i % 8 = 0 then
      let t := (prev.drop 1 ++ prev.take 1).map sbox
      let t := xorBytes t [rcon, 0, 0, 0]
      expandFrom n (i + 1) (xtime rcon) (xorBytes back t :: ws)
    else if i % 8 = 4 then expandFrom n (i + 1) rcon (xorBytes back (prev.map sbox) :: ws)
    else expandFrom n (i + 1) rcon (xorBytes back prev :: ws)

/-- The fifteen 16 B round keys of a 32 B key. -/
def roundKeys (key : List Byte) : List (List Byte) :=
  chunks 16 15 (expandFrom 52 8 0x01#8 (chunks 4 8 key).reverse).reverse.flatten

/-- ShiftRows on the column-major 16 B state. -/
def shiftRows (s : List Byte) : List Byte :=
  [0, 5, 10, 15, 4, 9, 14, 3, 8, 13, 2, 7, 12, 1, 6, 11].map (fun i => s.getD i 0)

def invShiftRows (s : List Byte) : List Byte :=
  [0, 13, 10, 7, 4, 1, 14, 11, 8, 5, 2, 15, 12, 9, 6, 3].map (fun i => s.getD i 0)

/-- One column times the circulant matrix with first row `a b c d`. -/
def mixCol (a b c d : Byte) (col : List Byte) : List Byte :=
  let x := fun i => col.getD i 0
  let row := fun p q r t => gmul p (x 0) ^^^ gmul q (x 1) ^^^ gmul r (x 2) ^^^ gmul t (x 3)
  [row a b c d, row d a b c, row c d a b, row b c d a]

def mixColumns (s : List Byte) : List Byte := ((chunks 4 4 s).map (mixCol 2 3 1 1)).flatten
def invMixColumns (s : List Byte) : List Byte := ((chunks 4 4 s).map (mixCol 14 11 13 9)).flatten

/-- The rounds after the first key addition. -/
def aesRounds : List (List Byte) → List Byte → List Byte
  | [], s => s
  | [k], s => xorBytes (shiftRows (s.map sbox)) k
  | k :: ks, s => aesRounds ks (xorBytes (mixColumns (shiftRows (s.map sbox))) k)

def aesInvRounds : List (List Byte) → List Byte → List Byte
  | [], s => s
  | [k], s => xorBytes ((invShiftRows s).map invSbox) k
  | k :: ks, s => aesInvRounds ks (invMixColumns (xorBytes ((invShiftRows s).map invSbox) k))

/-- AES-256 on one 16 B block under its round keys. -/
def aesEnc (rk : List (List Byte)) (b : List Byte) : List Byte :=
  aesRounds (rk.drop 1) (xorBytes b (rk.headD []))

def aesDec (rk : List (List Byte)) (b : List Byte) : List Byte :=
  let r := rk.reverse
  aesInvRounds (r.drop 1) (xorBytes b (r.headD []))

/-- The tweak of the next unit: times α in GF(2^128), bytes lowest first. -/
def mulAlpha (t : List Byte) : List Byte :=
  let v := BitVec.ofNat 128 (ofLe t)
  leBytes 16 ((if v.msb then (v <<< 1) ^^^ 0x87#128 else v <<< 1).toNat)

/-- Every unit through `f` between its two tweak additions. -/
def xtsUnits (f : List Byte → List Byte) : Nat → List Byte → List Byte → List Byte
  | 0, _, _ => []
  | n + 1, t, d => xorBytes (f (xorBytes (d.take 16) t)) t ++ xtsUnits f n (mulAlpha t) (d.drop 16)

/-- A 64 B key pair: data key, then tweak key. -/
def xtsEnc (keys : List Byte) (tweak : Nat) (d : List Byte) : List Byte :=
  let t := aesEnc (roundKeys (keys.drop 32)) (leBytes 16 tweak)
  xtsUnits (aesEnc (roundKeys (keys.take 32))) (d.length / 16) t d

def xtsDec (keys : List Byte) (tweak : Nat) (d : List Byte) : List Byte :=
  let t := aesEnc (roundKeys (keys.drop 32)) (leBytes 16 tweak)
  xtsUnits (aesDec (roundKeys (keys.take 32))) (d.length / 16) t d

/-- The block tweak: (DPA block number << 20) | block_version (R86). -/
def blockTweak (blk ver : Nat) : Nat := blk * 2 ^ 20 + ver % 2 ^ 20

/-- The journal tweak of a 64 B line: (1 << 127) | (DPA >> 6) (R370). -/
def journalTweak (dpa : Nat) : Nat := 2 ^ 127 + dpa / 64

end Sys2Proof.Machine
end

