-- ==== Sys2Proof/Machine/Crc.lean ====
section
/-! DEFINITION. The one CRC-16 of map entries and block headers (R67). -/
namespace Sys2Proof.Machine

/-- One bit step: polynomial 0x1021, most significant bit first. -/
def crc16Step (c : BitVec 16) : BitVec 16 := if c.msb then (c <<< 1) ^^^ 0x1021#16 else c <<< 1

/-- One byte enters, most significant bit first. -/
def crc16Byte (c : BitVec 16) (b : Byte) : BitVec 16 :=
  let c := c ^^^ (b.zeroExtend 16 <<< 8)
  crc16Step (crc16Step (crc16Step (crc16Step (crc16Step (crc16Step (crc16Step (crc16Step c)))))))

/-- CRC-16 with initial value 0xFFFF, no reflection and no final XOR (R67). -/
def crc16 (bs : List Byte) : BitVec 16 := bs.foldl crc16Byte 0xFFFF#16

end Sys2Proof.Machine
end

