-- ==== Sys2Proof/Machine/Bicel.lean ====
section
/-! DEFINITION. The Bicel block format: map entry, header, the PLANE, BYTE and Rice decoders and their failure codes (R66-R90, R103-R107). -/
namespace Sys2Proof.Machine

/-- A map entry's fields (R66). -/
structure MapEntry where
  ver : Nat
  keySlot : Nat
  addr : Nat
  len : Nat
  codec : Nat
  state : Nat
  check : Nat
  resv : Nat := 0
  deriving DecidableEq, Repr, Inhabited

/-- The fields of the 16 B word (R66). -/
def entryOf (w : MapWord) : MapEntry :=
  let v := w.toNat
  { ver := fld v 91 72, keySlot := fld v 71 64, addr := fld v 63 28, len := fld v 27 23
    codec := fld v 22 19, state := fld v 18 16, check := fld v 15 0, resv := fld v 127 92 }

/-- The 16 B word of an entry's fields (R66). -/
def entryWord (e : MapEntry) : MapWord :=
  BitVec.ofNat 128 ((e.resv % 2 ^ 36) * 2 ^ 92 + (e.ver % 2 ^ 20) * 2 ^ 72 + (e.keySlot % 2 ^ 8) * 2 ^ 64
    + (e.addr % 2 ^ 36) * 2 ^ 28 + (e.len % 2 ^ 5) * 2 ^ 23 + (e.codec % 2 ^ 4) * 2 ^ 19
    + (e.state % 2 ^ 3) * 2 ^ 16 + e.check % 2 ^ 16)

/-- Map states (R68). -/
def stUnwritten : Nat := 0
def stFlat : Nat := 1
def stPacked : Nat := 2
def stFactor : Nat := 3
def stPoison : Nat := 4
def stDetour : Nat := 5

/-- Codec identifiers (R70). -/
def cRaw : Nat := 0
def cZero : Nat := 1
def cPlane16 : Nat := 2
def cPlane32 : Nat := 3
def cPlane64 : Nat := 4
def cByte : Nat := 5
def cFactorU : Nat := 6
def cFactorV : Nat := 7
def cResidual : Nat := 8

/-- The entry's block carries the header of R71: PACKED or FACTOR with a codec other than RAW and ZERO (R67). -/
def MapEntry.headed (e : MapEntry) : Bool := (e.state == stPacked || e.state == stFactor) && 2 ≤ e.codec

/-- The CRC-16 an entry's map_check holds; `hdrCrc` is the block header's, for a headed block (R67). -/
def mapCheckOf (e : MapEntry) (hdrCrc : Nat) : Nat :=
  let bytes := (leBytes 16 (entryWord e).toNat).drop 2
  (crc16 (bytes ++ if e.headed then leBytes 2 hdrCrc else [])).toNat

/-- The entry with its map_check (R67). -/
def MapEntry.sealed (e : MapEntry) (hdrCrc : Nat) : MapEntry := { e with check := mapCheckOf e hdrCrc }

/-- map_check holds; an all-zero entry is exempt (R67). -/
def mapCheckOk (w : MapWord) (hdrCrc : Nat) : Bool :=
  w == 0 || (entryOf w).check == mapCheckOf (entryOf w) hdrCrc

/-- The failure codes of R87 and R106. -/
def fMapField : Nat := 0x01
def fMapCheck : Nat := 0x02
def fSpan : Nat := 0x03
def fHdrCrc : Nat := 0x04
def fCodec : Nat := 0x05
def fLength : Nat := 0x06
def fOffsets : Nat := 0x07
def fPadding : Nat := 0x08
def fParams : Nat := 0x09
def fMarks : Nat := 0x0A
def fCode : Nat := 0x0B
def fOverrun : Nat := 0x0C
def fUnderrun : Nat := 0x0D
def fDistance : Nat := 0x0E
def fFinalState : Nat := 0x0F
def fCheckBits : Nat := 0x10
def fParity : Nat := 0x11
def fTileRecord : Nat := 0x12
def fFactorSource : Nat := 0x13
def fHungTile : Nat := 0x14

/-- The header word of a stored block: its first 16 B (R71). -/
def hdrWord (b : List Byte) : Nat := ofLe (b.take 16)
def hdrCrcOf (b : List Byte) : Nat := fld (hdrWord b) 127 112
def hdrLogical (b : List Byte) : Nat := fld (hdrWord b) 15 4
def hdrCodec (b : List Byte) : Nat := fld (hdrWord b) 3 0

/-- The offset of sub-stream `s`; off_8 is logical_length (R72). -/
def hdrOff (b : List Byte) (s : Nat) : Nat :=
  if s = 8 then hdrLogical b else fld (hdrWord b) (27 + 12 * s) (16 + 12 * s)

/-- The length of a sub-stream's prefix, given its byte 0 (R72). -/
def prefixLen (codec byte0 : Nat) : Nat :=
  if codec = cByte then 14
  else if 6 ≤ codec then 15
  else 16 + (byte0 / 16) * (if codec = cPlane64 then 2 else 1)

/-- Values rise strictly. -/
def rising : List Nat → Bool
  | a :: b :: l => decide (a < b) && rising (b :: l)
  | _ => true

/-- The bytes of sub-stream `s` (R72). -/
def subStream (b : List Byte) (s : Nat) : List Byte := cut (hdrOff b s) (hdrOff b (s + 1) - hdrOff b s) b

/-- The sub-stream is longer than its prefix (R72). -/
def subLongEnough (codec : Nat) (b : List Byte) (s : Nat) : Bool :=
  let ss := subStream b s
  decide (prefixLen codec (ss.headD 0).toNat < ss.length)

/-- HDR_CRC, CODEC, LENGTH and OFFSETS, in that order; `subs` are the sub-streams whose prefixes are checked. -/
def headerFail (codec len : Nat) (b : List Byte) (subs : List Nat) : Option Nat :=
  let ll := hdrLogical b
  let off0 := if codec = cByte then 17 + 2 * (b.getD 16 0).toNat else 16
  if hdrCrcOf b ≠ (crc16 (b.take 14)).toNat then some fHdrCrc
  else if hdrCodec b ≠ codec ∨ 9 ≤ codec then some fCodec
  else if ll < 17 ∨ 3840 < ll ∨ cdiv ll 256 ≠ len then some fLength
  else if hdrOff b 0 ≠ off0 ∨ ¬ rising ((List.range 9).map (hdrOff b)) ∨ ¬ subs.all (subLongEnough codec b)
    then some fOffsets
  else none

/-- A nonzero byte after logical_length (R72). -/
def tailNonzero (b : List Byte) : Bool := !allZero (b.drop (hdrLogical b))

/-- The geometry of a PLANE codec and variant: W, E, M (R78). -/
def planeGeom (codec variant : Nat) : Option (Nat × Nat × Nat) :=
  if codec = cPlane16 ∧ variant = 0 then some (16, 8, 7)
  else if codec = cPlane16 ∧ variant = 1 then some (16, 5, 10)
  else if codec = cPlane32 ∧ variant = 0 then some (32, 8, 23)
  else if codec = cPlane64 ∧ variant = 0 then some (64, 11, 52)
  else none

/-- The symbol counts of a BYTE prologue, ESC last (R81). -/
def byteSyms (b : List Byte) : List (Nat × Nat) :=
  (List.range (b.getD 16 0).toNat).map fun i =>
    ((b.getD (17 + 2 * i) 0).toNat, (b.getD (18 + 2 * i) 0).toNat)

/-- A BYTE prologue that keeps R81. -/
def byteProloguOk (b : List Byte) : Bool :=
  let ps := byteSyms b
  decide ((b.getD 16 0).toNat ≤ 32) && ps.all (fun p => decide (p.2 ≠ 0)) &&
    decide (ps.map Prod.fst).Nodup && decide ((ps.map Prod.snd).sum ≤ 63)

/-- The line marks of a sub-stream, mark 0 first, the body's bit length last; `at` is where m1 stands (R79). -/
def lineMarks (ss : List Byte) (at_ bodyBits : Nat) : List Nat :=
  0 :: (List.range 7).map (fun j => ofLe (cut (at_ + 2 * j) 2 ss)) ++ [bodyBits]

/-- What the decoder of one sub-stream needs. -/
structure SubInfo where
  codec : Nat
  body : Nat
  bodyBits : Nat
  marks : List Nat
  dict : List Nat := []
  geom : Nat × Nat × Nat := (0, 0, 0)
  z : Nat := 0
  k : Nat := 0
  wb : Nat := 0
  syms : List (Nat × Nat) := []
  deriving DecidableEq, Repr

/-- The prefix of a sub-stream read out, its zero-fields and parameters checked: PADDING, PARAMS and MARKS found (R87).
`wb` is the element width a Rice sub-stream must have (R103). -/
def subInfo (codec wb : Nat) (b : List Byte) (s : Nat) : List Nat × SubInfo :=
  let ss := subStream b s
  let b0 := (ss.headD 0).toNat
  let pl := prefixLen codec b0
  let bodyBytes := ss.drop pl
  let bits := 8 * bodyBytes.length
  let marks := lineMarks ss (if codec = cByte then 0 else if 6 ≤ codec then 1 else 2) bits
  let mk := if rising marks then [] else [fMarks]
  let base : SubInfo := { codec := codec, body := ofLe bodyBytes, bodyBits := bits, marks := marks }
  if codec = cByte then
    ((if byteProloguOk b then [] else [fParams]) ++ mk, { base with syms := byteSyms b })
  else if 6 ≤ codec then
    let w := 8 * 2 ^ (b0 / 64)
    let k := b0 % 64
    ((if w = wb ∧ k < wb then [] else [fParams]) ++ mk, { base with k := k, wb := w })
  else
    let es := if codec = cPlane64 then 2 else 1
    let dict := (List.range (b0 / 16)).map (fun i => ofLe (cut (16 + es * i) es ss))
    let z := (ss.getD 1 0).toNat
    match planeGeom codec (b0 % 4) with
    | none => ((if fld b0 3 2 ≠ 0 then [fPadding] else []) ++ [fParams] ++ mk, base)
    | some (w, e, m) =>
      ((if fld b0 3 2 ≠ 0 ∨ dict.any (fun d => decide (2 ^ e ≤ d)) then [fPadding] else []) ++
        (if m < z then [fParams] else []) ++ mk,
       { base with dict := dict, geom := (w, e, m), z := z })

/-- Read `n` bits at `pos`, not past `stop` (R80). -/
def readBits (body stop pos n : Nat) : Except Nat (Nat × Nat) :=
  if stop < pos + n then .error fOverrun else .ok ((body >>> pos) % 2 ^ n, pos + n)

/-- The end-of-line rules of R80. -/
def lineEnd (i : SubInfo) (j pos : Nat) : Except Nat Unit :=
  let stop := i.marks.getD (j + 1) 0
  if j < 7 then (if pos ≠ stop then .error fUnderrun else .ok ())
  else if 7 < stop - pos then .error fUnderrun
  else if i.body >>> pos ≠ 0 then .error fPadding
  else .ok ()

/-- `n` elements of a PLANE line from `pos` (R80). -/
def planeElems (i : SubInfo) (stop : Nat) : Nat → Nat → Except Nat (List Nat × Nat)
  | 0, pos => .ok ([], pos)
  | n + 1, pos => do
    let d := i.dict.length
    let (w, e, m) := i.geom
    let (c, pos) ← readBits i.body stop pos (bitlen d)
    if d < c then .error fCode
    let (ex, pos) ← if c < d then .ok (i.dict.getD c 0, pos) else readBits i.body stop pos e
    let (t, pos) ← readBits i.body stop pos (1 + m - i.z)
    let sg := t >>> (m - i.z)
    let man := (t % 2 ^ (m - i.z)) * 2 ^ i.z
    let (rest, pos) ← planeElems i stop n pos
    .ok ((sg * 2 ^ (w - 1) + ex * 2 ^ m + man) :: rest, pos)

/-- The tANS spread: slot q of the symbols in list order, ESC last, stands at state 43 q mod 64 (R81). -/
def ansSlots (syms : List (Nat × Nat)) : List Nat :=
  let cs := syms.map Prod.snd
  ((cs ++ [64 - cs.sum]).mapIdx (fun i c => List.replicate c i)).flatten

/-- The symbol index at a state: 43 has inverse 3 modulo 64. -/
def ansSym (slots : List Nat) (st : Nat) : Nat := slots.getD ((3 * st) % 64) 0

/-- Row `st` of the decode table: symbol index, bits to read, base (R81). -/
def ansRow (syms : List (Nat × Nat)) (st : Nat) : Nat × Nat × Nat :=
  let slots := ansSlots syms
  let i := ansSym slots st
  let count := if i = syms.length then 64 - (syms.map Prod.snd).sum else (syms.getD i (0, 0)).2
  let before := ((List.range st).filter (fun s => ansSym slots s == i)).length
  let x := count + before
  let nb := 6 - Nat.log2 x
  (i, nb, x * 2 ^ nb - 64)

/-- Copy `n` bytes from `dist` back (R82). -/
def copyBack (dist : Nat) : Nat → List Byte → List Byte
  | 0, out => out
  | n + 1, out => copyBack dist n (out ++ [out.getD (out.length - dist) 0])

/-- The tokens of a BYTE line; at most 64, since each writes at least one byte (R82). -/
def byteTokens (i : SubInfo) (stop : Nat) : Nat → Nat → Nat → List Byte → Except Nat (List Byte × Nat × Nat)
  | 0, pos, st, out => .ok (out, pos, st)
  | n + 1, pos, st, out =>
    if 64 ≤ out.length then .ok (out, pos, st) else do
    let (kind, pos) ← readBits i.body stop pos 1
    if kind = 0 then
      let (sym, nb, base) := ansRow i.syms st
      let (x, pos) ← readBits i.body stop pos nb
      let (v, pos) ← if sym = i.syms.length then readBits i.body stop pos 8 else .ok ((i.syms.getD sym (0, 0)).1, pos)
      byteTokens i stop n pos (base + x) (out ++ [BitVec.ofNat 8 v])
    else
      let (l, pos) ← readBits i.body stop pos 4
      let (d, pos) ← readBits i.body stop pos 6
      if out.length < d + 1 then .error fDistance
      if 64 < out.length + (l + 3) then .error fOverrun
      byteTokens i stop n pos st (copyBack (d + 1) (l + 3) out)

/-- Leading ones below 16 at `pos` (R104). -/
def unaryRun (body stop : Nat) : Nat → Nat → Nat → Except Nat (Nat × Nat)
  | 0, q, pos => .ok (q, pos)
  | n + 1, q, pos => do
    let (x, pos) ← readBits body stop pos 1
    if x = 1 then unaryRun body stop n (q + 1) pos else .ok (q, pos)

/-- The zigzag inverse in `wb` bits (R104). -/
def unzig (wb z : Nat) : Nat := if z % 2 = 0 then z / 2 else 2 ^ wb - 1 - z / 2

/-- `n` elements of a Rice line from `pos` (R104). -/
def riceElems (i : SubInfo) (stop : Nat) : Nat → Nat → Except Nat (List Nat × Nat)
  | 0, pos => .ok ([], pos)
  | n + 1, pos => do
    let (q, pos) ← unaryRun i.body stop 16 0 pos
    if q = 16 then
      let (z, pos) ← readBits i.body stop pos i.wb
      let (rest, pos) ← riceElems i stop n pos
      .ok (unzig i.wb z :: rest, pos)
    else
      if i.wb < i.k + bitlen q then .error fCode
      let (x, pos) ← readBits i.body stop pos i.k
      let (rest, pos) ← riceElems i stop n pos
      .ok (unzig i.wb (q * 2 ^ i.k + x) :: rest, pos)

/-- Line `j` of a sub-stream, 64 bytes (R80, R82, R104). -/
def decodeLine (i : SubInfo) (j : Nat) : Except Nat (List Byte) := do
  let pos := i.marks.getD j 0
  let stop := i.marks.getD (j + 1) 0
  if i.codec = cByte then
    let (st, pos) ← readBits i.body stop pos 6
    let (out, pos, st) ← byteTokens i stop 64 pos st []
    if st ≠ 0 then .error fFinalState
    let _ ← lineEnd i j pos
    .ok out
  else if 6 ≤ i.codec then
    let (es, pos) ← riceElems i stop (512 / i.wb) pos
    let _ ← lineEnd i j pos
    .ok (es.map (leBytes (i.wb / 8))).flatten
  else
    let w := i.geom.1
    let (es, pos) ← planeElems i stop (512 / w) pos
    let _ ← lineEnd i j pos
    .ok (es.map (leBytes (w / 8))).flatten

/-- The lowest failure code of a list: the first in the order of R87. -/
def firstFail (l : List Nat) : Option Nat := l.min?

/-- A read of one line of a headed block: header, the prefix of its sub-stream, the line (R84, R87). -/
def decodeOne (codec wb len : Nat) (b : List Byte) (line : Nat) : Except Nat (List Byte) :=
  let s := line / 8
  match headerFail codec len b [s] with
  | some f => .error f
  | none =>
    let (fs, i) := subInfo codec wb b s
    match firstFail ((if tailNonzero b then [fPadding] else []) ++ fs) with
    | some f => .error f
    | none => decodeLine i (line % 8)

/-- Every line of every sub-stream, in order, with the failures met. -/
def decodeLines (i : SubInfo) : List Nat → List Nat × List Byte
  | [] => ([], [])
  | j :: js =>
    let (fs, bs) := decodeLines i js
    match decodeLine i j with
    | .ok l => (fs, l ++ bs)
    | .error f => (f :: fs, bs)

/-- The checker's decode of a headed block: every rule on every line (R87, R90). -/
def decodeAll (codec wb len : Nat) (b : List Byte) : Except Nat (List Byte) :=
  match headerFail codec len b (List.range 8) with
  | some f => .error f
  | none =>
    let subs := (List.range 8).map (subInfo codec wb b)
    let pre := (if tailNonzero b then [fPadding] else []) ++ (subs.map Prod.fst).flatten
    let outs := if pre.any (fun f => decide (f = fParams ∨ f = fMarks)) then [] else
      subs.map (fun p => decodeLines p.2 (List.range 8))
    match firstFail (pre ++ (outs.map Prod.fst).flatten) with
    | some f => .error f
    | none => .ok (outs.map Prod.snd).flatten

/-- The 4,096 bytes of a stored block, or its failure code (R73, R70). -/
def decodeBlock (codec wb len : Nat) (b : List Byte) : Except Nat (List Byte) :=
  if codec = cRaw then .ok (padTo 4096 b)
  else if codec = cZero then .ok (zeros 4096)
  else if 9 ≤ codec then .error fCodec
  else decodeAll codec wb len b

/-- One 64 B line of a stored block (R84). -/
def decodeBlockLine (codec wb len : Nat) (b : List Byte) (line : Nat) : Except Nat (List Byte) :=
  if codec = cRaw then .ok (cut (64 * line) 64 (padTo 4096 b))
  else if codec = cZero then .ok (zeros 64)
  else if 9 ≤ codec then .error fCodec
  else decodeOne codec wb len b line

/-- The zigzag map of a `wb`-bit two's-complement value (R104). -/
def zig (wb d : Nat) : Nat := if d < 2 ^ (wb - 1) then 2 * d else 2 * (2 ^ wb - 1 - d) + 1

/-- The bits one element takes under parameter `k` (R104, R112). -/
def riceCost (wb k d : Nat) : Nat :=
  let q := zig wb d / 2 ^ k
  if q < 16 then q + 1 + k else 16 + wb

/-- The `k` that minimises the cost, ties to the smaller (R112). -/
def bestK (wb : Nat) (es : List Nat) : Nat :=
  let cost := fun k => (es.map (riceCost wb k)).sum
  (List.range wb).foldl (fun best k => if cost k < cost best then k else best) 0

/-- An element's coded bits, lowest first, as value and length (R104). -/
def riceCode (wb k d : Nat) : Nat × Nat :=
  let z := zig wb d
  let q := z / 2 ^ k
  if q < 16 then ((2 ^ q - 1) + (z % 2 ^ k) * 2 ^ (q + 1), q + 1 + k)
  else ((2 ^ 16 - 1) + z * 2 ^ 16, 16 + wb)

/-- Bit strings joined, lowest first. -/
def joinBits : List (Nat × Nat) → Nat × Nat
  | [] => (0, 0)
  | (v, n) :: l => let (w, m) := joinBits l; (v + w * 2 ^ n, n + m)

/-- A Rice sub-stream of 512 bytes (R103), with the best `k`. -/
def riceSub (wb : Nat) (d : List Byte) : List Byte :=
  let es := (chunks (wb / 8) (512 / (wb / 8)) d).map ofLe
  let k := bestK wb es
  let lines := (chunks (512 / wb) 8 es).map (fun l => joinBits (l.map (riceCode wb k)))
  let ends := (List.range 8).map (fun j => ((lines.take j).map Prod.snd).sum)
  let (body, bits) := joinBits lines
  [BitVec.ofNat 8 ((Nat.log2 (wb / 8)) * 64 + k)] ++ ((ends.drop 1).map (leBytes 2)).flatten
    ++ leBytes (cdiv bits 8) body

/-- A headed block from its sub-streams: header, sub-streams, zero padding (R71, R72). -/
def assemble (codec : Nat) (subs : List (List Byte)) : List Byte :=
  let offs := (List.range 9).map (fun s => 16 + ((subs.take s).map List.length).sum)
  let ll := offs.getD 8 0
  let low := codec + (ll % 4096) * 16 +
    ((List.range 8).map (fun s => (offs.getD s 0 % 4096) * 2 ^ (16 + 12 * s))).sum
  let hdr := leBytes 14 low
  let b := hdr ++ leBytes 2 (crc16 hdr).toNat ++ subs.flatten
  b ++ zeros (256 * cdiv b.length 256 - b.length)

/-- A 4 KiB block of mantissas or residuals in its own codec (R105). -/
def riceBlock (codec wb : Nat) (d : List Byte) : List Byte :=
  assemble codec ((chunks 512 8 d).map (riceSub wb))

end Sys2Proof.Machine
end

