-- ==== Sys2Proof/Config.lean ====
section
/-! DEFINITION. What an implementation fixes and the values the spec leaves open: constants without a body, so that no
proof can see what they are. Each is named in the assumption log. -/
namespace Sys2Proof

/-- A free value, by the number of its use (State.freeCtr). UNVERIFIED, safe. -/
opaque Config.free : Nat → Nat

/-- The stepping (R411, R271). UNVERIFIED, safe. -/
opaque Config.stepping : Nat

/-- The 132 B signature of a message under the alias key, by the number of the free value: each is fresh (R408, R417, R423). UNVERIFIED,
safe. -/
opaque Config.sign : Nat → List Byte → List Byte

/-- The MIPI manufacturer ID in the provisional ID (R441). UNVERIFIED, safe. -/
opaque Config.mipiId : Nat

/-- The SHA-512 digest of the root public key in the mask ROM (R402). UNVERIFIED, safe. -/
opaque Config.rootDigest : List Byte

/-- The parts of the key block (R401): root public key, owner public key, what the owner certificate's signature covers (the owner
public key and an owner svn, R402), that signature. The spec gives no layout of the block. UNVERIFIED, safe. -/
opaque Config.keyRoot : List Byte → List Byte
opaque Config.keyOwner : List Byte → List Byte
opaque Config.keyCert : List Byte → List Byte
opaque Config.keySig : List Byte → List Byte

/-- The parts of the configuration record (R401, R402): what its signature covers, the signature, its dev_class. The spec gives no
layout of the record. UNVERIFIED, safe. -/
opaque Config.cfgBody : List Byte → List Byte
opaque Config.cfgSig : List Byte → List Byte
opaque Config.cfgClass : List Byte → Nat

/-- The factory repair in the configuration record (R28, R401): defects as cell type * 2^32 + cell index. UNVERIFIED, safe. -/
opaque Config.cfgRepair : List Byte → List Nat

/-- The bytes of a repair map and retirement list over which a digest is taken (R408), from their numbers. UNVERIFIED, safe. -/
opaque Config.mapBytes : List Nat → List Byte

/-- The payload of an SPDM response whose content the spec leaves to SPDM 1.3 (R407): request code, request, the number of the free
value. UNVERIFIED, safe. -/
opaque Config.spdm : Nat → List Byte → Nat → List Byte

/-- The digest of the mask ROM (R408). UNVERIFIED, safe. -/
opaque Config.romDigest : List Byte

/-- The DeviceID public key (R406). UNVERIFIED, safe. -/
opaque Config.deviceKey : List Byte

/-- Entries of a region hub's request queue of one class (R260): the spec gives no number. UNVERIFIED, safe. -/
opaque Config.hubDepth : Nat

/-- Entries of the version tables in the metadata reserve (R150, R205): the spec gives no size of an entry. UNVERIFIED, safe. -/
opaque Config.versionEntries : Nat

/-- The CRC-32 of a detour slot (R164): the spec gives no polynomial. UNVERIFIED, safe. -/
opaque Config.crc32 : List Byte → Nat

/-- The bytes a codec lane's encoder chooses for a block: codec, original (R75, R90). UNVERIFIED, safe. -/
opaque Config.encode : Nat → List Byte → List Byte

/-- An FP32 element of a factor that FULL computes (R110): the elements of the tensor it read, sketch_seed, rank_max + oversample, run,
side (0 Uf, 1 Vf), row or column of the tensor, factor column. The spec fixes no bits of it. UNVERIFIED, safe. -/
opaque Config.factor : List Nat → Nat → Nat → Nat → Nat → Nat → Nat → Nat

/-- The frame the allocator looks at first, by the number of the choice (R151). UNVERIFIED, safe. -/
opaque Config.frameChoice : Nat → Nat

/-- The byte offset of the PCI Express capability of a logical device's function, a multiple of 4 (R266). UNVERIFIED, safe. -/
opaque Config.ldPcieCap : Nat

/-- The dword offset of the port DVSEC in a logical device's configuration space (R263). UNVERIFIED, safe. -/
opaque Config.portDvsec : Nat

/-- The next-pointer field of the port DVSEC's header (R263). UNVERIFIED, safe. -/
opaque Config.portDvsecNext : Nat

/-- The dword offset of the MSI-X capability in a logical device's configuration space (R246). UNVERIFIED, safe. -/
opaque Config.ldMsixCap : Nat

/-- The dword offset of the CXL device DVSEC in a logical device's configuration space (R245). UNVERIFIED, safe. -/
opaque Config.ldCxlDvsec : Nat

/-- A logical device's configuration dword as it reads before any write, by LD number (16: FM-owned) and dword (R246): the
standard's layout, which the spec does not repeat. UNVERIFIED, safe. -/
opaque Config.ldConfig : Nat → Nat → Nat

/-- The bits of a configuration dword of a logical device that a write sets (R246). UNVERIFIED, safe. -/
opaque Config.ldCfgMask : Nat → Nat → Nat

/-- The dwords of the service function's configuration space that the spec leaves to the standard (R272, R273). UNVERIFIED, safe. -/
opaque Config.svcConfig : Nat → Nat

end Sys2Proof
end

