-- ==== Sys2Proof/Machine/Cards.lean ====
section
/-! DEFINITION. The object dictionary's cards (R11, R412, R414, R432): type width, access, default, range, reserved bits. -/
namespace Sys2Proof.Machine

/-- Access kinds (R11). -/
inductive Acc where
  | ro | rw | rws | wo | const | rw1c
  deriving DecidableEq, Repr

/-- One parameter's card. -/
structure Card where
  /-- Width of its type in bits. -/
  bits : Nat
  acc : Acc
  /-- Value after cold power-up. -/
  dflt : Nat
  /-- Value ranges; none: any value of the type. -/
  ranges : List (Nat × Nat)
  /-- Values are multiples of this. -/
  step : Nat
  /-- Reserved bits (R13). -/
  resv : Nat
  /-- A DOMAIN or VSTR entry: the slot holds its length (R275). -/
  dom : Bool
  /-- Kept across warm device reset (R12, R382). -/
  keep : Bool
  /-- Device states in which a write is accepted: 0 every state, 1 STANDBY, 2 STANDBY and SERVICE (R414). -/
  states : Nat
  deriving DecidableEq, Repr

/-- A run of entries that share a card: `count` indices from `base`; within an index, object i of `per` begins at
subindex i × stride and its entries stand at `sub` to `sub + subs - 1`. -/
structure CardRow where
  base : Nat
  count : Nat
  stride : Nat
  per : Nat
  sub : Nat
  subs : Nat
  card : Card
  deriving DecidableEq, Repr

/-- The entry (index, subindex) lies in the row. -/
def CardRow.has (r : CardRow) (i s : Nat) : Bool :=
  decide (r.base ≤ i ∧ i < r.base + r.count ∧ s / r.stride < r.per ∧ r.sub ≤ s % r.stride ∧ s % r.stride < r.sub + r.subs)

/-- Cards of chapter 02. -/
def cards02 : List CardRow := [
  ⟨0x4100, 64, 256, 1, 1, 1, ⟨64, .rws, 0, [], 1, 0, false, true, 1⟩⟩,  -- part_base R43
  ⟨0x4100, 64, 256, 1, 2, 1, ⟨64, .rws, 0, [], 1, 0, false, true, 1⟩⟩,  -- part_size R43
  ⟨0x4100, 64, 256, 1, 3, 1, ⟨8, .rws, 0, [(0, 2)], 1, 0, false, true, 1⟩⟩,  -- part_kind R43
  ⟨0x4100, 64, 256, 1, 4, 1, ⟨16, .rws, 65535, [(0, 255), (65535, 65535)], 1, 0, false, true, 1⟩⟩,  -- part_owner_hid R43
  ⟨0x4100, 64, 256, 1, 5, 1, ⟨8, .rws, 0, [(0, 6)], 1, 0, false, true, 1⟩⟩,  -- part_stack_set R43
  ⟨0x4100, 64, 256, 1, 6, 1, ⟨8, .rws, 0, [(0, 1)], 1, 0, false, true, 1⟩⟩,  -- part_redundancy R43
  ⟨0x4100, 64, 256, 1, 7, 1, ⟨1, .rws, 0, [(0, 1)], 1, 0, false, true, 1⟩⟩,  -- part_encrypt R43
  ⟨0x4100, 64, 256, 1, 8, 1, ⟨8, .rws, 0, [(0, 255)], 1, 0, false, true, 1⟩⟩,  -- part_key_slot R43
  ⟨0x4100, 64, 256, 1, 9, 1, ⟨8, .rws, 0, [(0, 2)], 1, 0, false, true, 1⟩⟩,  -- part_policy R43
  ⟨0x4100, 64, 256, 1, 10, 1, ⟨8, .rws, 0, [(0, 2)], 1, 0, false, true, 1⟩⟩,  -- part_share_mode R43
  ⟨0x4100, 64, 256, 1, 11, 1, ⟨8, .ro, 0, [], 1, 0, false, false, 0⟩⟩,  -- part_status R43
  ⟨0x4100, 64, 256, 1, 12, 1, ⟨8, .wo, 0, [(1, 2)], 1, 0, false, false, 1⟩⟩,  -- part_commit R43
  ⟨0x4200, 64, 16, 16, 1, 1, ⟨64, .rw, 0, [], 1, 0, false, true, 2⟩⟩,  -- win_base R53
  ⟨0x4200, 64, 16, 16, 2, 1, ⟨64, .rw, 0, [], 1, 0, false, true, 2⟩⟩,  -- win_size R53
  ⟨0x4200, 64, 16, 16, 3, 1, ⟨8, .rw, 0, [(0, 6)], 1, 0, false, true, 2⟩⟩,  -- win_kind R53
  ⟨0x4200, 64, 16, 16, 4, 1, ⟨8, .rw, 0, [(0, 63)], 1, 0, false, true, 2⟩⟩,  -- win_partition R53
  ⟨0x4200, 64, 16, 16, 5, 1, ⟨16, .rw, 65535, [(0, 2047), (65535, 65535)], 1, 0, false, true, 2⟩⟩,  -- win_descriptor R53
  ⟨0x4200, 64, 16, 16, 6, 1, ⟨8, .rw, 0, [(0, 1)], 1, 0, false, true, 2⟩⟩,  -- win_residency R53
  ⟨0x4200, 64, 16, 16, 7, 1, ⟨8, .ro, 0, [], 1, 0, false, false, 2⟩⟩,  -- win_state R53
  ⟨0x4200, 64, 16, 16, 8, 1, ⟨8, .ro, 0, [], 1, 0, false, false, 2⟩⟩,  -- win_status R53
  ⟨0x4200, 64, 16, 16, 9, 1, ⟨8, .wo, 0, [(1, 2)], 1, 0, false, false, 2⟩⟩,  -- win_commit R53
  ⟨0x3100, 16, 256, 1, 1, 16, ⟨8, .rws, 255, [(0, 255)], 1, 0, false, true, 1⟩⟩,  -- port_ld_hid R63
  ⟨0x5000, 1, 256, 1, 1, 1, ⟨1, .rws, 0, [(0, 1)], 1, 0, false, true, 1⟩⟩,  -- fm_trust_mode R63
  ⟨0x5000, 1, 256, 1, 2, 1, ⟨64, .ro, 0, [], 1, 0, false, true, 0⟩⟩,  -- own_fail_count R63
  ⟨0x5000, 1, 256, 1, 3, 1, ⟨64, .ro, 0, [], 1, 0, false, false, 0⟩⟩,  -- own_last_fail R63
  ⟨0x5000, 1, 256, 1, 4, 1, ⟨8, .ro, 0, [], 1, 0, false, false, 0⟩⟩,  -- own_status R63
  ⟨0x5000, 1, 256, 1, 5, 1, ⟨16, .ro, 0, [], 1, 0, false, false, 0⟩⟩,  -- own_entries_valid R63
  ⟨0x5100, 256, 16, 16, 1, 1, ⟨64, .rw, 0, [], 1, 9223367638808264704, false, true, 0⟩⟩,  -- own_word R61
  ⟨0x5100, 256, 16, 16, 2, 1, ⟨64, .rw, 0, [], 1, 18446744073709420544, false, true, 0⟩⟩,  -- own_word R61
  ⟨0x5100, 256, 16, 16, 3, 4, ⟨64, .rw, 0, [], 1, 0, false, true, 0⟩⟩  -- own_word R61
  ]

/-- Cards of chapter 03. -/
def cards03 : List CardRow := [
  ⟨0x7300, 1, 256, 1, 1, 1, ⟨8, .rws, 31, [(0, 31)], 1, 0, false, true, 1⟩⟩,  -- bicel_codec_enable R77
  ⟨0x7300, 1, 256, 1, 2, 1, ⟨8, .rws, 1, [(1, 8)], 1, 0, false, true, 1⟩⟩,  -- bicel_min_saving R77
  ⟨0x7300, 1, 256, 1, 3, 1, ⟨64, .ro, 0, [], 1, 0, false, true, 0⟩⟩,  -- bicel_fail_count R77
  ⟨0x7300, 1, 256, 1, 4, 1, ⟨64, .ro, 0, [], 1, 0, false, false, 0⟩⟩,  -- bicel_last_fail R77
  ⟨0x7300, 1, 256, 1, 5, 1, ⟨64, .ro, 0, [], 1, 0, false, true, 0⟩⟩,  -- bicel_checker_mismatch R77
  ⟨0x7300, 1, 256, 1, 6, 1, ⟨64, .ro, 0, [], 1, 0, false, true, 0⟩⟩,  -- bicel_checker_busy R77
  ⟨0x7300, 1, 256, 1, 7, 1, ⟨64, .ro, 0, [], 1, 0, false, true, 0⟩⟩,  -- bicel_raw_count R77
  ⟨0x7300, 1, 256, 1, 8, 1, ⟨64, .ro, 0, [], 1, 0, false, true, 0⟩⟩  -- bicel_flat_nocompress R77
  ]

/-- Cards of chapter 04. -/
def cards04 : List CardRow := [
  ⟨0x4800, 2048, 256, 1, 1, 7, ⟨64, .rw, 0, [], 1, 0, false, true, 0⟩⟩,  -- desc_word R94
  ⟨0x4800, 2048, 256, 1, 8, 1, ⟨8, .ro, 0, [], 1, 0, false, true, 0⟩⟩,  -- desc_state R94
  ⟨0x4800, 2048, 256, 1, 9, 1, ⟨8, .ro, 0, [], 1, 0, false, true, 0⟩⟩,  -- desc_status R94
  ⟨0x4800, 2048, 256, 1, 10, 1, ⟨8, .wo, 0, [(1, 2)], 1, 0, false, true, 0⟩⟩,  -- desc_commit R94
  ⟨0x4800, 2048, 256, 1, 11, 1, ⟨32, .ro, 0, [], 1, 0, false, true, 0⟩⟩,  -- desc_gen R94
  ⟨0x4800, 2048, 256, 1, 12, 1, ⟨64, .ro, 0, [], 1, 0, false, true, 0⟩⟩,  -- desc_dense_blocks R94
  ⟨0x4800, 2048, 256, 1, 13, 1, ⟨64, .ro, 0, [], 1, 0, false, true, 0⟩⟩,  -- desc_lowered_tiles R94
  ⟨0x4010, 1, 256, 1, 1, 1, ⟨32, .rws, 3145728, [(0, 3670016)], 65536, 0, false, true, 1⟩⟩,  -- fac_panel_cache R121
  ⟨0x4010, 1, 256, 1, 2, 1, ⟨32, .rws, 16777216, [(0, 33554432)], 1, 0, false, true, 1⟩⟩,  -- fac_wp_t0_limit R121
  ⟨0x4010, 1, 256, 1, 3, 1, ⟨64, .ro, 0, [], 1, 0, false, true, 0⟩⟩,  -- fac_drop_count R121
  ⟨0x4010, 1, 256, 1, 4, 1, ⟨64, .ro, 0, [], 1, 0, false, true, 0⟩⟩,  -- fac_exp_clamp R121
  ⟨0x4010, 1, 256, 1, 5, 1, ⟨64, .ro, 0, [], 1, 0, false, true, 0⟩⟩,  -- fac_rank_only_miss R121
  ⟨0x4010, 1, 256, 1, 6, 1, ⟨64, .ro, 0, [], 1, 0, false, true, 0⟩⟩,  -- fac_credit_fault R121
  ⟨0x4011, 1, 256, 1, 1, 1, ⟨64, .ro, 0, [], 1, 0, false, true, 0⟩⟩,  -- fac_stall_waypoint R121
  ⟨0x4011, 1, 256, 1, 2, 1, ⟨64, .ro, 0, [], 1, 0, false, true, 0⟩⟩,  -- fac_stall_panel R121
  ⟨0x4011, 1, 256, 1, 3, 1, ⟨64, .ro, 0, [], 1, 0, false, true, 0⟩⟩,  -- fac_stall_expander R121
  ⟨0x4011, 1, 256, 1, 4, 1, ⟨64, .ro, 0, [], 1, 0, false, true, 0⟩⟩,  -- fac_stall_egress R121
  ⟨0x4011, 1, 256, 1, 5, 1, ⟨64, .ro, 0, [], 1, 0, false, true, 0⟩⟩,  -- fac_stall_queue R121
  ⟨0x4011, 1, 256, 1, 6, 1, ⟨64, .ro, 0, [], 1, 0, false, true, 0⟩⟩,  -- fac_stall_component R121
  ⟨0x4011, 1, 256, 1, 7, 1, ⟨64, .ro, 0, [], 1, 0, false, true, 0⟩⟩,  -- fac_stall_preempt R121
  ⟨0x4011, 1, 256, 1, 8, 1, ⟨64, .ro, 0, [], 1, 0, false, true, 0⟩⟩,  -- fac_stall_remote R121
  ⟨0x4600, 16, 8, 32, 1, 2, ⟨64, .rw, 0, [], 1, 0, false, true, 0⟩⟩,  -- wp_word R118
  ⟨0x4600, 16, 8, 32, 3, 1, ⟨64, .rw, 0, [], 1, 524287, false, true, 0⟩⟩,  -- wp_word R118
  ⟨0x4600, 16, 8, 32, 4, 1, ⟨64, .rw, 0, [], 1, 16140901068522389504, false, true, 0⟩⟩  -- wp_word R118
  ]

/-- Cards of chapter 05. -/
def cards05 : List CardRow := [
  ⟨0x4020, 1, 256, 1, 1, 1, ⟨64, .ro, 0, [], 1, 0, false, true, 0⟩⟩,  -- ar_overflow_count R145
  ⟨0x4020, 1, 256, 1, 2, 1, ⟨64, .ro, 0, [], 1, 0, false, true, 0⟩⟩,  -- ar_overflow_last R145
  ⟨0x4020, 1, 256, 1, 3, 1, ⟨64, .ro, 0, [], 1, 0, false, true, 0⟩⟩,  -- ar_acc_check_fail R145
  ⟨0x4020, 1, 256, 1, 4, 1, ⟨64, .ro, 0, [], 1, 0, false, true, 0⟩⟩,  -- ar_bound_verify_fail R145
  ⟨0x4020, 1, 256, 1, 5, 1, ⟨64, .ro, 0, [], 1, 0, false, true, 0⟩⟩,  -- ar_reduce_inexact R145
  ⟨0x4020, 1, 256, 1, 6, 1, ⟨64, .ro, 0, [], 1, 0, false, true, 0⟩⟩,  -- ar_reduce_over R145
  ⟨0x4020, 1, 256, 1, 7, 1, ⟨64, .ro, 0, [], 1, 0, false, true, 0⟩⟩,  -- ar_reduce_limit R145
  ⟨0x4020, 1, 256, 1, 8, 1, ⟨1, .rw, 1, [(0, 1)], 1, 0, false, true, 0⟩⟩  -- ar_overflow_notice R145
  ]

/-- Cards of chapter 06. -/
def cards06 : List CardRow := [
  ⟨0x2100, 4, 256, 1, 1, 1, ⟨64, .ro, 72876032, [], 1, 0, false, false, 0⟩⟩,  -- cap_total R149
  ⟨0x2100, 4, 256, 1, 2, 1, ⟨64, .ro, 72876032, [], 1, 0, false, false, 0⟩⟩,  -- cap_free R149
  ⟨0x2100, 4, 256, 1, 3, 1, ⟨64, .ro, 0, [], 1, 0, false, false, 0⟩⟩,  -- cap_used R149
  ⟨0x2100, 4, 256, 1, 4, 1, ⟨64, .ro, 0, [], 1, 0, false, false, 0⟩⟩,  -- cap_shadow R149
  ⟨0x2100, 4, 256, 1, 5, 1, ⟨64, .ro, 0, [], 1, 0, false, true, 0⟩⟩,  -- cap_retired R149
  ⟨0x2100, 4, 256, 1, 6, 1, ⟨64, .ro, 0, [], 1, 0, false, true, 0⟩⟩,  -- cap_quarantined R149
  ⟨0x2100, 4, 256, 1, 7, 1, ⟨64, .ro, 0, [], 1, 0, false, false, 0⟩⟩,  -- cap_owed R149
  ⟨0x2100, 4, 256, 1, 8, 1, ⟨32, .ro, 72876032, [], 1, 0, false, false, 0⟩⟩,  -- cap_headroom R149
  ⟨0x2100, 4, 256, 1, 9, 1, ⟨8, .ro, 0, [], 1, 0, false, false, 0⟩⟩,  -- cap_pressure R149
  ⟨0x2100, 4, 256, 1, 10, 1, ⟨64, .ro, 0, [], 1, 0, false, true, 0⟩⟩,  -- cap_audit_pass R149
  ⟨0x2100, 4, 256, 1, 11, 1, ⟨64, .ro, 0, [], 1, 0, false, true, 0⟩⟩,  -- cap_walk_pass R149
  ⟨0x2100, 4, 256, 1, 12, 1, ⟨64, .ro, 0, [], 1, 0, false, true, 0⟩⟩,  -- cap_audit_fail R149
  ⟨0x4100, 64, 256, 1, 13, 1, ⟨64, .ro, 0, [], 1, 0, false, false, 0⟩⟩,  -- part_held R159
  ⟨0x4100, 64, 256, 1, 14, 1, ⟨64, .ro, 0, [], 1, 0, false, false, 0⟩⟩,  -- part_detour_blocks R159
  ⟨0x4100, 64, 256, 1, 15, 1, ⟨8, .ro, 0, [], 1, 0, false, false, 0⟩⟩,  -- part_fence R159
  ⟨0x4100, 64, 256, 1, 16, 1, ⟨32, .ro, 0, [], 1, 0, false, false, 0⟩⟩,  -- part_fence_count R159
  ⟨0x4040, 1, 256, 1, 1, 1, ⟨64, .rws, 0, [], 2097152, 0, false, true, 1⟩⟩,  -- det_base R163
  ⟨0x4040, 1, 256, 1, 2, 1, ⟨64, .rws, 0, [(0, 274877906944)], 2097152, 0, false, true, 1⟩⟩,  -- det_size R163
  ⟨0x4040, 1, 256, 1, 3, 1, ⟨8, .ro, 0, [], 1, 0, false, false, 0⟩⟩,  -- det_state R163
  ⟨0x4040, 1, 256, 1, 4, 1, ⟨32, .ro, 0, [], 1, 0, false, false, 0⟩⟩,  -- det_slots R163
  ⟨0x4040, 1, 256, 1, 5, 1, ⟨32, .ro, 0, [], 1, 0, false, false, 0⟩⟩,  -- det_free R163
  ⟨0x4040, 1, 256, 1, 6, 1, ⟨32, .ro, 0, [], 1, 0, false, false, 0⟩⟩,  -- det_used R163
  ⟨0x4040, 1, 256, 1, 7, 1, ⟨64, .ro, 0, [], 1, 0, false, true, 0⟩⟩,  -- det_crc_fail R163
  ⟨0x4040, 1, 256, 1, 8, 1, ⟨64, .ro, 0, [], 1, 0, false, true, 0⟩⟩,  -- det_timeout R163
  ⟨0x4030, 1, 256, 1, 1, 1, ⟨16, .rw, 100, [(10, 10000)], 1, 0, false, true, 0⟩⟩,  -- cap_decay_ms R171
  ⟨0x4030, 1, 256, 1, 2, 1, ⟨8, .rw, 32, [(1, 255)], 1, 0, false, true, 0⟩⟩,  -- cap_promote_t1 R171
  ⟨0x4030, 1, 256, 1, 3, 1, ⟨8, .rw, 128, [(1, 255)], 1, 0, false, true, 0⟩⟩,  -- cap_promote_t0 R171
  ⟨0x4030, 1, 256, 1, 4, 1, ⟨8, .rw, 64, [(0, 254)], 1, 0, false, true, 0⟩⟩,  -- cap_demote_t0 R171
  ⟨0x4030, 1, 256, 1, 5, 1, ⟨8, .rw, 2, [(0, 254)], 1, 0, false, true, 0⟩⟩,  -- cap_demote_t2 R171
  ⟨0x4030, 1, 256, 1, 6, 1, ⟨32, .rws, 2048, [(256, 32768)], 1, 0, false, true, 1⟩⟩,  -- cap_low_water R171
  ⟨0x4030, 1, 256, 1, 7, 1, ⟨32, .rws, 1024, [(128, 8192)], 1, 0, false, true, 1⟩⟩,  -- cap_emergency_pool R171
  ⟨0x4030, 1, 256, 1, 8, 1, ⟨32, .rws, 4096, [(0, 65536)], 1, 0, false, true, 1⟩⟩,  -- cap_promo_reserve R171
  ⟨0x4030, 1, 256, 1, 9, 1, ⟨8, .rw, 6, [(0, 12)], 1, 0, false, true, 0⟩⟩,  -- cap_compact_live R171
  ⟨0x4030, 1, 256, 1, 10, 1, ⟨16, .rw, 32, [(4, 128)], 1, 0, false, true, 0⟩⟩,  -- cap_mover_rate R171
  ⟨0x4030, 1, 256, 1, 11, 1, ⟨64, .ro, 0, [], 1, 0, false, false, 0⟩⟩,  -- cap_promo_frames R171
  ⟨0x4030, 1, 256, 1, 12, 1, ⟨64, .ro, 0, [], 1, 0, false, true, 0⟩⟩,  -- cap_promo_drop R171
  ⟨0x4030, 1, 256, 1, 13, 1, ⟨64, .ro, 0, [], 1, 0, false, true, 0⟩⟩,  -- cap_discard_count R171
  ⟨0x4030, 1, 256, 1, 14, 1, ⟨64, .ro, 0, [], 1, 0, false, true, 0⟩⟩  -- cap_fault_count R171
  ]

/-- Cards of chapter 07. -/
def cards07 : List CardRow := [
  ⟨0x8400, 2048, 8, 32, 1, 1, ⟨64, .ro, 0, [], 1, 0, false, true, 0⟩⟩,  -- job_committed R177
  ⟨0x8400, 2048, 8, 32, 2, 1, ⟨64, .ro, 0, [], 1, 0, false, true, 0⟩⟩,  -- job_open R177
  ⟨0x8400, 2048, 8, 32, 3, 1, ⟨64, .ro, 0, [], 1, 0, false, true, 0⟩⟩,  -- job_status R177
  ⟨0x8400, 2048, 8, 32, 4, 1, ⟨64, .ro, 0, [], 1, 0, false, true, 0⟩⟩,  -- job_replays R177
  ⟨0x8400, 2048, 8, 32, 5, 1, ⟨64, .ro, 0, [], 1, 0, false, true, 0⟩⟩,  -- job_shadow_frames R177
  ⟨0x8400, 2048, 8, 32, 6, 1, ⟨64, .rw, 0, [(0, 18446744073709551614)], 1, 0, false, true, 0⟩⟩,  -- job_base R177
  ⟨0x8400, 2048, 8, 32, 7, 1, ⟨8, .wo, 0, [(1, 1)], 1, 0, false, false, 0⟩⟩,  -- job_release R177
  ⟨0x8D00, 1, 256, 1, 1, 1, ⟨8, .rws, 6, [(1, 8)], 1, 0, false, true, 1⟩⟩,  -- red_slots R193
  ⟨0x8D00, 1, 256, 1, 2, 1, ⟨32, .rw, 1000, [(10, 600000)], 1, 0, false, true, 0⟩⟩,  -- red_timeout_ms R193
  ⟨0x8D00, 1, 256, 1, 3, 1, ⟨64, .ro, 0, [], 1, 0, false, true, 0⟩⟩,  -- red_orphan_count R193
  ⟨0x8D00, 1, 256, 1, 4, 1, ⟨64, .ro, 0, [], 1, 0, false, true, 0⟩⟩,  -- opt_replay_count R193
  ⟨0x8D00, 1, 256, 1, 5, 1, ⟨64, .ro, 0, [], 1, 0, false, true, 0⟩⟩,  -- opt_step_faults R193
  ⟨0x8D00, 1, 256, 1, 6, 1, ⟨32, .ro, 0, [], 1, 0, false, false, 0⟩⟩,  -- red_slots_actual R193
  ⟨0x8D00, 1, 256, 1, 7, 1, ⟨8, .rw, 8, [(1, 14)], 1, 0, false, true, 0⟩⟩,  -- ckpt_rate R193
  ⟨0x8D00, 1, 256, 1, 8, 1, ⟨64, .ro, 0, [], 1, 0, false, true, 0⟩⟩,  -- red_wait_ns R193
  ⟨0x8D00, 1, 256, 1, 9, 1, ⟨64, .ro, 0, [], 1, 0, false, true, 0⟩⟩,  -- red_grad_reads R193
  ⟨0x8C00, 256, 256, 1, 1, 1, ⟨8, .ro, 0, [], 1, 0, false, false, 0⟩⟩,  -- red_state R193
  ⟨0x8C00, 256, 256, 1, 2, 1, ⟨64, .ro, 0, [], 1, 0, false, false, 0⟩⟩,  -- red_front R193
  ⟨0x8C00, 256, 256, 1, 3, 1, ⟨64, .ro, 0, [], 1, 0, false, false, 0⟩⟩,  -- red_tiles R193
  ⟨0x8C00, 256, 256, 1, 4, 4, ⟨64, .ro, 0, [], 1, 0, false, false, 0⟩⟩,  -- red_missing R193
  ⟨0x8C00, 256, 256, 1, 8, 1, ⟨64, .ro, 0, [], 1, 0, false, false, 0⟩⟩  -- red_reject_count R193
  ]

/-- Cards of chapter 08. -/
def cards08 : List CardRow := [
  ⟨0x4400, 256, 256, 1, 1, 1, ⟨64, .rws, 0, [], 1, 0, false, true, 1⟩⟩,  -- sr_base R198
  ⟨0x4400, 256, 256, 1, 2, 1, ⟨64, .rws, 0, [], 1, 0, false, true, 1⟩⟩,  -- sr_size R198
  ⟨0x4400, 256, 256, 1, 3, 1, ⟨8, .rw, 1, [(0, 15)], 1, 0, false, true, 0⟩⟩,  -- sr_keep R198
  ⟨0x4400, 256, 256, 1, 4, 1, ⟨1, .rw, 0, [(0, 1)], 1, 0, false, true, 0⟩⟩,  -- sr_lease_enable R198
  ⟨0x4400, 256, 256, 1, 5, 1, ⟨32, .rw, 10000, [(100, 600000)], 1, 0, false, true, 0⟩⟩,  -- sr_lease_ms R198
  ⟨0x4400, 256, 256, 1, 6, 1, ⟨32, .ro, 0, [], 1, 0, false, true, 0⟩⟩,  -- sr_latest R198
  ⟨0x4400, 256, 256, 1, 7, 1, ⟨8, .ro, 0, [], 1, 0, false, true, 0⟩⟩,  -- sr_live R198
  ⟨0x4400, 256, 256, 1, 8, 1, ⟨64, .ro, 0, [], 1, 0, false, true, 0⟩⟩,  -- sr_poison_count R198
  ⟨0x4400, 256, 256, 1, 9, 1, ⟨64, .ro, 0, [], 1, 0, false, true, 0⟩⟩,  -- sr_last_poison R198
  ⟨0x4400, 256, 256, 1, 10, 1, ⟨8, .ro, 0, [], 1, 0, false, false, 0⟩⟩,  -- sr_status R198
  ⟨0x4400, 256, 256, 1, 11, 1, ⟨8, .wo, 0, [(1, 2)], 1, 0, false, false, 1⟩⟩,  -- sr_commit R198
  ⟨0x4400, 256, 256, 1, 12, 4, ⟨64, .ro, 0, [], 1, 0, false, true, 0⟩⟩,  -- sr_dead R198
  ⟨0x4300, 1, 256, 1, 1, 1, ⟨32, .ro, 1, [], 1, 0, false, true, 0⟩⟩,  -- share_version_next R218
  ⟨0x4300, 1, 256, 1, 2, 1, ⟨8, .wo, 0, [(1, 1)], 1, 0, false, false, 1⟩⟩,  -- share_version_reset R218
  ⟨0x4300, 1, 256, 1, 3, 1, ⟨32, .rw, 200, [(10, 10000)], 1, 0, false, true, 0⟩⟩,  -- share_bi_timeout_us R218
  ⟨0x4300, 1, 256, 1, 4, 1, ⟨16, .wo, 0, [], 1, 0, false, false, 0⟩⟩,  -- share_declare_dead R218
  ⟨0x4300, 1, 256, 1, 5, 1, ⟨32, .rw, 1000, [(0, 60000)], 1, 0, false, true, 0⟩⟩,  -- share_link_grace_ms R218
  ⟨0x4300, 1, 256, 1, 6, 1, ⟨64, .ro, 0, [], 1, 0, false, true, 0⟩⟩,  -- share_stray_wb R218
  ⟨0x4300, 1, 256, 1, 7, 1, ⟨16, .wo, 0, [], 1, 0, false, false, 0⟩⟩,  -- share_revive R218
  ⟨0x2200, 1, 256, 1, 1, 1, ⟨32, .const, 69632, [], 1, 0, false, true, 0⟩⟩,  -- vref_total R218
  ⟨0x2200, 1, 256, 1, 2, 1, ⟨32, .ro, 69632, [], 1, 0, false, false, 0⟩⟩,  -- vref_free R218
  ⟨0x2200, 1, 256, 1, 3, 1, ⟨32, .ro, 0, [], 1, 0, false, false, 0⟩⟩,  -- vref_reader R218
  ⟨0x2200, 1, 256, 1, 4, 1, ⟨32, .ro, 0, [], 1, 0, false, false, 0⟩⟩,  -- vref_writer R218
  ⟨0x2200, 1, 256, 1, 5, 1, ⟨32, .ro, 0, [], 1, 0, false, false, 0⟩⟩,  -- vref_pinned R218
  ⟨0x2200, 1, 256, 1, 6, 1, ⟨64, .ro, 0, [], 1, 0, false, true, 0⟩⟩,  -- vref_audit_pass R218
  ⟨0x2200, 1, 256, 1, 7, 1, ⟨64, .ro, 0, [], 1, 0, false, true, 0⟩⟩,  -- vref_walk_pass R218
  ⟨0x2200, 1, 256, 1, 8, 1, ⟨64, .ro, 0, [], 1, 0, false, true, 0⟩⟩  -- vref_audit_fail R218
  ]

/-- Cards of chapter 09. -/
def cards09 : List CardRow := [
  ⟨0x8E00, 512, 256, 1, 1, 1, ⟨16, .rws, 65535, [(0, 255), (65535, 65535)], 1, 0, false, true, 1⟩⟩,  -- grp_hid R220
  ⟨0x8E00, 512, 256, 1, 2, 1, ⟨8, .rws, 0, [(0, 1)], 1, 0, false, true, 1⟩⟩,  -- grp_path R220
  ⟨0x8E00, 512, 256, 1, 3, 1, ⟨8, .rws, 0, [(0, 255)], 1, 0, false, true, 1⟩⟩,  -- grp_port_ld R220
  ⟨0x8E00, 512, 256, 1, 4, 1, ⟨1, .rws, 0, [(0, 1)], 1, 0, false, true, 1⟩⟩,  -- grp_priv R220
  ⟨0x8000, 1024, 8, 32, 1, 1, ⟨64, .rw, 0, [], 1, 0, false, true, 0⟩⟩,  -- q_sq_base R221
  ⟨0x8000, 1024, 8, 32, 2, 1, ⟨64, .rw, 0, [], 1, 0, false, true, 0⟩⟩,  -- q_cq_base R221
  ⟨0x8000, 1024, 8, 32, 3, 1, ⟨64, .rw, 0, [], 1, 0, false, true, 0⟩⟩,  -- q_cfg R221
  ⟨0x8000, 1024, 8, 32, 4, 1, ⟨8, .wo, 0, [(1, 3)], 1, 0, false, false, 0⟩⟩,  -- q_ctl R221
  ⟨0x8000, 1024, 8, 32, 5, 1, ⟨64, .ro, 0, [], 1, 0, false, true, 0⟩⟩,  -- q_state R221
  ⟨0x8D01, 1, 256, 1, 1, 1, ⟨64, .ro, 0, [], 1, 0, false, true, 0⟩⟩,  -- q_db_drop R242
  ⟨0x8D01, 1, 256, 1, 2, 1, ⟨64, .ro, 0, [], 1, 0, false, true, 0⟩⟩,  -- q_halt_count R242
  ⟨0x8D01, 1, 256, 1, 3, 1, ⟨16, .ro, 0, [], 1, 0, false, false, 0⟩⟩  -- q_running R242
  ]

/-- Cards of chapter 10. -/
def cards10 : List CardRow := [
  ⟨0x3010, 16, 256, 1, 1, 1, ⟨8, .rw, 0, [(0, 3)], 1, 0, false, true, 0⟩⟩,  -- port_enable R249
  ⟨0x3010, 16, 256, 1, 2, 1, ⟨8, .rws, 2, [(0, 2)], 1, 0, false, true, 1⟩⟩,  -- port_max_rate R249
  ⟨0x3010, 16, 256, 1, 3, 1, ⟨8, .rws, 16, [(1, 16)], 1, 0, false, true, 1⟩⟩,  -- port_ld_max R249
  ⟨0x3010, 16, 256, 1, 4, 1, ⟨8, .rws, 0, [(0, 2)], 1, 0, false, true, 1⟩⟩,  -- port_ide R249
  ⟨0x3010, 16, 256, 1, 5, 1, ⟨8, .rws, 15, [(0, 15)], 1, 0, false, true, 1⟩⟩,  -- port_features R249
  ⟨0x3010, 16, 256, 1, 6, 1, ⟨64, .ro, 3840, [], 1, 0, false, false, 0⟩⟩,  -- port_status R249
  ⟨0x3010, 16, 256, 1, 7, 1, ⟨64, .ro, 3840, [], 1, 0, false, false, 0⟩⟩,  -- port_status_b R249
  ⟨0x3010, 16, 256, 1, 8, 1, ⟨32, .rw, 0, [(0, 10000000)], 1, 0, false, true, 0⟩⟩,  -- port_lat_tol_ns R249
  ⟨0x3010, 16, 256, 1, 9, 1, ⟨1, .rws, 0, [(0, 1)], 1, 0, false, true, 1⟩⟩,  -- port_mbox_dict R249
  ⟨0x3010, 16, 256, 1, 10, 1, ⟨16, .rw, 10, [(1, 1000)], 1, 0, false, true, 0⟩⟩,  -- port_credit_stall_ms R249
  ⟨0x3010, 16, 256, 1, 11, 1, ⟨64, .ro, 0, [], 1, 0, false, true, 0⟩⟩,  -- port_down_count R249
  ⟨0x3010, 16, 256, 1, 12, 1, ⟨64, .ro, 0, [], 1, 0, false, true, 0⟩⟩,  -- port_rx_overflow R249
  ⟨0x3010, 16, 256, 1, 13, 1, ⟨64, .ro, 0, [], 1, 0, false, true, 0⟩⟩,  -- port_late_cpl R249
  ⟨0x3010, 16, 256, 1, 14, 1, ⟨64, .ro, 0, [], 1, 0, false, true, 0⟩⟩,  -- port_ide_refused R249
  ⟨0x3001, 1, 256, 1, 1, 8, ⟨8, .rws, 0, [(0, 3)], 1, 0, false, true, 1⟩⟩,  -- port_bifurcation R249
  ⟨0x3000, 1, 256, 1, 1, 1, ⟨64, .ro, 0, [], 1, 0, false, true, 0⟩⟩,  -- port_credit_audit_pass R251
  ⟨0x3000, 1, 256, 1, 2, 1, ⟨64, .ro, 0, [], 1, 0, false, true, 0⟩⟩  -- port_credit_audit_fail R251
  ]

/-- Cards of chapter 11. -/
def cards11 : List CardRow := [
  ⟨0x1200, 1, 256, 1, 1, 1, ⟨8, .rws, 14, [(0, 15)], 1, 0, false, true, 1⟩⟩,  -- svc_aspm_support R292
  ⟨0x1200, 1, 256, 1, 2, 1, ⟨32, .rw, 0, [(0, 10000000)], 1, 0, false, true, 0⟩⟩,  -- svc_lat_tol_ns R292
  ⟨0x1200, 1, 256, 1, 3, 1, ⟨8, .rw, 15, [(0, 15)], 1, 0, false, true, 0⟩⟩,  -- svc_wake_mask R292
  ⟨0x1200, 1, 256, 1, 4, 1, ⟨16, .rw, 50, [(1, 1000)], 1, 0, false, true, 0⟩⟩,  -- svc_d3_wait_ms R292
  ⟨0x1200, 1, 256, 1, 5, 1, ⟨64, .ro, 0, [], 1, 0, false, true, 0⟩⟩,  -- svc_late_cpl R292
  ⟨0x1200, 1, 256, 1, 6, 1, ⟨16, .ro, 0, [], 1, 0, false, false, 0⟩⟩,  -- svc_tags_quarantined R292
  ⟨0x1200, 1, 256, 1, 7, 1, ⟨64, .ro, 0, [], 1, 0, false, false, 0⟩⟩,  -- svc_bar_status R292
  ⟨0x1200, 1, 256, 1, 8, 1, ⟨64, .ro, 0, [], 1, 0, false, true, 0⟩⟩,  -- svc_bar_refused R292
  ⟨0x1200, 1, 256, 1, 9, 1, ⟨32, .rw, 3000, [(0, 10000000)], 1, 0, false, true, 0⟩⟩,  -- svc_ltr_ns R292
  ⟨0x1201, 1, 256, 1, 1, 6, ⟨16, .rw, 0, [(0, 65535)], 1, 30720, false, true, 0⟩⟩,  -- svc_irq_cfg R292
  ⟨0x1201, 1, 256, 1, 7, 1, ⟨8, .rw1c, 0, [(0, 255)], 1, 192, false, false, 0⟩⟩  -- svc_irq_status R292
  ]

/-- Cards of chapter 12. -/
def cards12 : List CardRow := [
  ⟨0x6100, 64, 16, 16, 1, 1, ⟨16, .rw, 0, [], 1, 0, false, true, 0⟩⟩,  -- rc_master R295
  ⟨0x6100, 64, 16, 16, 2, 1, ⟨8, .rw, 0, [(0, 6)], 1, 0, false, true, 0⟩⟩,  -- rc_stack_set R295
  ⟨0x6100, 64, 16, 16, 3, 1, ⟨32, .rw, 0, [(0, 375000)], 1, 0, false, true, 0⟩⟩,  -- rc_min R295
  ⟨0x6100, 64, 16, 16, 4, 1, ⟨32, .rw, 0, [(0, 375000)], 1, 0, false, true, 0⟩⟩,  -- rc_ceiling R295
  ⟨0x6100, 64, 16, 16, 5, 1, ⟨8, .rw, 16, [(1, 255)], 1, 0, false, true, 0⟩⟩,  -- rc_weight R295
  ⟨0x6100, 64, 16, 16, 6, 1, ⟨16, .rw, 256, [(16, 4096)], 1, 0, false, true, 0⟩⟩,  -- rc_burst R295
  ⟨0x6100, 64, 16, 16, 7, 1, ⟨8, .ro, 0, [], 1, 0, false, false, 0⟩⟩,  -- rc_state R295
  ⟨0x6100, 64, 16, 16, 8, 1, ⟨8, .ro, 0, [], 1, 0, false, false, 0⟩⟩,  -- rc_status R295
  ⟨0x6100, 64, 16, 16, 9, 1, ⟨8, .wo, 0, [(1, 2)], 1, 0, false, false, 2⟩⟩,  -- rc_commit R295
  ⟨0x6100, 64, 16, 16, 10, 1, ⟨16, .ro, 4096, [], 1, 0, false, false, 0⟩⟩,  -- rc_scale R295
  ⟨0x6100, 64, 16, 16, 11, 1, ⟨64, .ro, 0, [], 1, 0, false, false, 0⟩⟩,  -- rc_missed R295
  ⟨0x6100, 64, 16, 16, 12, 1, ⟨32, .ro, 0, [], 1, 0, false, false, 0⟩⟩,  -- rc_served R295
  ⟨0x6000, 1, 256, 1, 1, 1, ⟨8, .rw, 16, [(1, 255)], 1, 0, false, true, 0⟩⟩,  -- reg_default_weight R306
  ⟨0x6000, 1, 256, 1, 2, 1, ⟨16, .rw, 256, [(16, 4096)], 1, 0, false, true, 0⟩⟩,  -- reg_default_burst R306
  ⟨0x6000, 1, 256, 1, 3, 1, ⟨8, .rw, 95, [(50, 100)], 1, 0, false, true, 0⟩⟩,  -- reg_miss_pct R306
  ⟨0x6000, 1, 256, 1, 4, 1, ⟨8, .rws, 25, [(0, 50)], 1, 0, false, true, 1⟩⟩,  -- reg_rt_limit_pct R306
  ⟨0x6000, 1, 256, 1, 5, 1, ⟨64, .ro, 0, [], 1, 0, false, true, 0⟩⟩,  -- reg_miss_count R306
  ⟨0x6000, 1, 256, 1, 6, 1, ⟨64, .ro, 0, [], 1, 0, false, true, 0⟩⟩,  -- reg_miss_last R306
  ⟨0x6000, 1, 256, 1, 7, 1, ⟨64, .ro, 0, [], 1, 0, false, true, 0⟩⟩,  -- reg_rt_demote R306
  ⟨0x6010, 4, 256, 1, 1, 1, ⟨32, .ro, 6000000, [], 1, 0, false, false, 0⟩⟩,  -- reg_floor_cert R306
  ⟨0x6010, 4, 256, 1, 2, 1, ⟨32, .ro, 6000000, [], 1, 0, false, false, 0⟩⟩,  -- reg_floor_now R306
  ⟨0x6010, 4, 256, 1, 3, 1, ⟨32, .ro, 0, [], 1, 0, false, false, 0⟩⟩,  -- reg_charged R306
  ⟨0x6010, 4, 256, 1, 4, 1, ⟨32, .ro, 0, [], 1, 0, false, false, 0⟩⟩,  -- reg_shared R306
  ⟨0x2300, 1, 256, 1, 1, 1, ⟨64, .ro, 0, [], 1, 0, false, true, 0⟩⟩,  -- tg_audit_pass R306
  ⟨0x2300, 1, 256, 1, 2, 1, ⟨64, .ro, 0, [], 1, 0, false, true, 0⟩⟩  -- tg_audit_fail R306
  ]

/-- Cards of chapter 13. -/
def cards13 : List CardRow := [
  ⟨0xC100, 16, 256, 1, 1, 1, ⟨64, .rws, 0, [], 1, 4222124650659840, false, true, 1⟩⟩,  -- trn_ctl R318
  ⟨0xC100, 16, 256, 1, 2, 1, ⟨32, .rws, 0, [], 1, 192, false, true, 1⟩⟩,  -- trn_lane R318
  ⟨0xC100, 16, 256, 1, 3, 1, ⟨64, .ro, 0, [], 1, 0, false, false, 0⟩⟩,  -- trn_mismatch R318
  ⟨0xC100, 16, 256, 1, 4, 1, ⟨32, .ro, 0, [], 1, 0, false, false, 0⟩⟩,  -- trn_errors R318
  ⟨0xC100, 16, 256, 1, 5, 1, ⟨8, .ro, 0, [], 1, 0, false, false, 0⟩⟩,  -- trn_status R318
  ⟨0xC100, 16, 256, 1, 6, 1, ⟨1, .rws, 0, [(0, 1)], 1, 0, false, true, 1⟩⟩,  -- trn_hold R318
  ⟨0x7000, 1, 256, 1, 1, 1, ⟨16, .rw, 96, [(0, 2000)], 1, 0, false, true, 0⟩⟩,  -- mc_page_idle_ns R321
  ⟨0x7000, 1, 256, 1, 2, 1, ⟨8, .rw, 16, [(1, 64)], 1, 0, false, true, 0⟩⟩,  -- mc_hit_streak R321
  ⟨0x7000, 1, 256, 1, 3, 1, ⟨16, .rw, 2000, [(200, 20000)], 1, 0, false, true, 0⟩⟩,  -- mc_starve_ns R321
  ⟨0x7000, 1, 256, 1, 4, 1, ⟨16, .rw, 100, [(10, 1000)], 1, 0, false, true, 0⟩⟩,  -- mc_thermal_hold_ms R321
  ⟨0x7001, 1, 256, 1, 1, 8, ⟨64, .ro, 0, [], 1, 0, false, false, 0⟩⟩,  -- mc_panic_state R321
  ⟨0x7010, 16, 256, 1, 1, 1, ⟨8, .ro, 0, [], 1, 0, false, false, 0⟩⟩,  -- mc_cond R321
  ⟨0x7010, 16, 256, 1, 2, 1, ⟨16, .ro, 0, [], 1, 0, false, false, 0⟩⟩,  -- mc_temp_c R321
  ⟨0x7010, 16, 256, 1, 3, 1, ⟨8, .ro, 0, [], 1, 0, false, false, 0⟩⟩,  -- mc_sr_state R321
  ⟨0x7010, 16, 256, 1, 4, 1, ⟨32, .ro, 0, [], 1, 0, false, false, 0⟩⟩,  -- mc_channel_offline R321
  ⟨0x7010, 16, 256, 1, 5, 1, ⟨64, .ro, 0, [], 1, 0, false, true, 0⟩⟩,  -- mc_parity_alerts R321
  ⟨0x7010, 16, 256, 1, 6, 1, ⟨64, .ro, 0, [], 1, 0, false, true, 0⟩⟩,  -- mc_replays R321
  ⟨0x7010, 16, 256, 1, 7, 1, ⟨64, .ro, 0, [], 1, 0, false, true, 0⟩⟩,  -- mc_panic_count R321
  ⟨0x7010, 16, 256, 1, 8, 1, ⟨8, .ro, 0, [], 1, 0, false, false, 0⟩⟩,  -- mc_refresh_owed_max R321
  ⟨0x7010, 16, 256, 1, 9, 1, ⟨16, .ro, 0, [], 1, 0, false, false, 0⟩⟩  -- mc_lane_remaps R321
  ]

/-- Cards of chapter 14. -/
def cards14 : List CardRow := [
  ⟨0x7200, 1, 256, 1, 1, 1, ⟨16, .rw, 24, [(1, 168)], 1, 0, false, true, 0⟩⟩,  -- scrub_period_h R342
  ⟨0x7200, 1, 256, 1, 2, 1, ⟨16, .rw, 10, [(1, 3600)], 1, 0, false, true, 0⟩⟩,  -- scrub_sram_period_s R342
  ⟨0x7200, 1, 256, 1, 3, 1, ⟨64, .ro, 0, [], 1, 0, false, true, 0⟩⟩,  -- scrub_passes R342
  ⟨0x7200, 1, 256, 1, 4, 1, ⟨8, .rw, 8, [(1, 255)], 1, 0, false, true, 0⟩⟩,  -- ce_row_threshold R342
  ⟨0x7200, 1, 256, 1, 5, 1, ⟨8, .rw, 24, [(1, 168)], 1, 0, false, true, 0⟩⟩,  -- ce_row_window_h R342
  ⟨0x7200, 1, 256, 1, 6, 1, ⟨16, .rw, 0, [], 1, 20224, false, true, 2⟩⟩,  -- flip_target R342
  ⟨0x7200, 1, 256, 1, 7, 1, ⟨64, .rw, 18446744073709551615, [(0, 1207959551), (18446744073709551615, 18446744073709551615)], 1, 0, false, true, 2⟩⟩,  -- flip_line R342
  ⟨0x7200, 1, 256, 1, 8, 1, ⟨64, .rw, 0, [], 1, 0, false, true, 2⟩⟩,  -- flip_data_lo R342
  ⟨0x7200, 1, 256, 1, 9, 1, ⟨64, .rw, 0, [], 1, 0, false, true, 2⟩⟩,  -- flip_data_hi R342
  ⟨0x7200, 1, 256, 1, 10, 1, ⟨16, .rw, 0, [], 1, 0, false, true, 2⟩⟩,  -- flip_check R342
  ⟨0x7200, 1, 256, 1, 11, 1, ⟨64, .ro, 0, [], 1, 0, true, true, 0⟩⟩,  -- media_log R342
  ⟨0x7200, 1, 256, 1, 12, 1, ⟨32, .ro, 0, [], 1, 0, false, true, 0⟩⟩,  -- media_log_seq R342
  ⟨0x7200, 1, 256, 1, 13, 1, ⟨16, .ro, 0, [], 1, 0, false, false, 0⟩⟩,  -- retire_list_used R342
  ⟨0x7200, 1, 256, 1, 14, 1, ⟨64, .ro, 0, [], 1, 0, false, true, 0⟩⟩,  -- meta_lost R342
  ⟨0x7200, 1, 256, 1, 15, 1, ⟨64, .ro, 0, [], 1, 0, false, false, 0⟩⟩,  -- meta_single R342
  ⟨0x7010, 16, 256, 1, 10, 1, ⟨64, .ro, 0, [], 1, 0, false, true, 0⟩⟩,  -- media_ce R342
  ⟨0x7010, 16, 256, 1, 11, 1, ⟨64, .ro, 0, [], 1, 0, false, true, 0⟩⟩,  -- media_ue R342
  ⟨0x7010, 16, 256, 1, 12, 1, ⟨64, .ro, 0, [], 1, 0, false, true, 0⟩⟩,  -- media_mark_reads R342
  ⟨0x7010, 16, 256, 1, 13, 1, ⟨8, .ro, 0, [], 1, 0, false, true, 0⟩⟩,  -- stack_health R342
  ⟨0x7020, 4, 256, 1, 1, 1, ⟨64, .ro, 0, [], 1, 0, false, true, 0⟩⟩,  -- sram_ce R342
  ⟨0x7020, 4, 256, 1, 2, 1, ⟨64, .ro, 0, [], 1, 0, false, true, 0⟩⟩  -- sram_ue R342
  ]

/-- Cards of chapter 15. -/
def cards15 : List CardRow := [
  ⟨0x9000, 1, 256, 1, 1, 1, ⟨1, .rws, 1, [(0, 1)], 1, 0, false, true, 1⟩⟩,  -- integ_checks R365
  ⟨0x9000, 1, 256, 1, 2, 1, ⟨8, .rws, 0, [(0, 2)], 1, 0, false, true, 1⟩⟩,  -- integ_dual R365
  ⟨0x9000, 1, 256, 1, 3, 1, ⟨16, .rw, 600, [(60, 3600)], 1, 0, false, true, 0⟩⟩,  -- integ_dice_period_s R365
  ⟨0x9000, 1, 256, 1, 4, 1, ⟨16, .rw, 120, [(30, 600)], 1, 0, false, true, 0⟩⟩,  -- integ_obs_period_s R365
  ⟨0x9000, 1, 256, 1, 5, 1, ⟨8, .rw, 32, [(0, 255)], 1, 0, false, true, 0⟩⟩,  -- integ_dice_milestones R365
  ⟨0x9000, 1, 256, 1, 6, 1, ⟨8, .rw, 50, [(0, 50)], 1, 0, false, true, 0⟩⟩,  -- integ_defer_ms R365
  ⟨0x9000, 1, 256, 1, 7, 1, ⟨8, .rw, 30, [(5, 255)], 1, 0, false, true, 0⟩⟩,  -- integ_obs_clear R365
  ⟨0x9000, 1, 256, 1, 8, 1, ⟨64, .ro, 0, [], 1, 0, false, true, 0⟩⟩,  -- integ_flags R365
  ⟨0x9000, 1, 256, 1, 9, 1, ⟨64, .ro, 0, [], 1, 0, false, true, 0⟩⟩,  -- integ_unresolved R365
  ⟨0x9000, 1, 256, 1, 10, 1, ⟨64, .ro, 0, [], 1, 0, false, true, 0⟩⟩,  -- integ_dice_rounds R365
  ⟨0x9000, 1, 256, 1, 11, 1, ⟨64, .ro, 0, [], 1, 0, false, true, 0⟩⟩,  -- integ_dice_fail R365
  ⟨0x9000, 1, 256, 1, 12, 1, ⟨32, .ro, 0, [], 1, 0, false, true, 0⟩⟩,  -- integ_sig_seq R365
  ⟨0x9000, 1, 256, 1, 13, 1, ⟨64, .ro, 0, [], 1, 0, true, true, 0⟩⟩,  -- integ_sig_store R365
  ⟨0x9000, 1, 256, 1, 14, 1, ⟨64, .ro, 34292498175, [], 1, 0, false, false, 0⟩⟩,  -- integ_active R365
  ⟨0x9000, 1, 256, 1, 15, 1, ⟨32, .ro, 1077952576, [], 1, 0, false, false, 0⟩⟩,  -- integ_staging_mib R365
  ⟨0x9100, 8, 256, 1, 1, 1, ⟨8, .ro, 0, [], 1, 0, false, true, 0⟩⟩,  -- blk_state R365
  ⟨0x9108, 1, 256, 1, 1, 1, ⟨8, .ro, 2, [], 1, 0, false, true, 0⟩⟩,  -- blk_state R365
  ⟨0x9110, 8, 256, 1, 1, 1, ⟨8, .ro, 0, [], 1, 0, false, true, 0⟩⟩,  -- blk_state R365
  ⟨0x9118, 1, 256, 1, 1, 1, ⟨8, .ro, 2, [], 1, 0, false, true, 0⟩⟩,  -- blk_state R365
  ⟨0x9120, 8, 256, 1, 1, 1, ⟨8, .ro, 0, [], 1, 0, false, true, 0⟩⟩,  -- blk_state R365
  ⟨0x9128, 1, 256, 1, 1, 1, ⟨8, .ro, 2, [], 1, 0, false, true, 0⟩⟩,  -- blk_state R365
  ⟨0x9130, 8, 256, 1, 1, 1, ⟨8, .ro, 0, [], 1, 0, false, true, 0⟩⟩,  -- blk_state R365
  ⟨0x9138, 1, 256, 1, 1, 1, ⟨8, .ro, 2, [], 1, 0, false, true, 0⟩⟩,  -- blk_state R365
  ⟨0x9100, 9, 256, 1, 2, 1, ⟨8, .ro, 0, [], 1, 0, false, false, 0⟩⟩,  -- blk_permanent R365
  ⟨0x9110, 9, 256, 1, 2, 1, ⟨8, .ro, 0, [], 1, 0, false, false, 0⟩⟩,  -- blk_permanent R365
  ⟨0x9120, 9, 256, 1, 2, 1, ⟨8, .ro, 0, [], 1, 0, false, false, 0⟩⟩,  -- blk_permanent R365
  ⟨0x9130, 9, 256, 1, 2, 1, ⟨8, .ro, 0, [], 1, 0, false, false, 0⟩⟩,  -- blk_permanent R365
  ⟨0x9100, 9, 256, 1, 3, 1, ⟨32, .ro, 0, [], 1, 0, false, true, 0⟩⟩,  -- blk_transient R365
  ⟨0x9110, 9, 256, 1, 3, 1, ⟨32, .ro, 0, [], 1, 0, false, true, 0⟩⟩,  -- blk_transient R365
  ⟨0x9120, 9, 256, 1, 3, 1, ⟨32, .ro, 0, [], 1, 0, false, true, 0⟩⟩,  -- blk_transient R365
  ⟨0x9130, 9, 256, 1, 3, 1, ⟨32, .ro, 0, [], 1, 0, false, true, 0⟩⟩,  -- blk_transient R365
  ⟨0x9100, 9, 256, 1, 4, 1, ⟨16, .ro, 0, [], 1, 0, false, true, 0⟩⟩,  -- blk_checker_wrong R365
  ⟨0x9110, 9, 256, 1, 4, 1, ⟨16, .ro, 0, [], 1, 0, false, true, 0⟩⟩,  -- blk_checker_wrong R365
  ⟨0x9120, 9, 256, 1, 4, 1, ⟨16, .ro, 0, [], 1, 0, false, true, 0⟩⟩,  -- blk_checker_wrong R365
  ⟨0x9130, 9, 256, 1, 4, 1, ⟨16, .ro, 0, [], 1, 0, false, true, 0⟩⟩,  -- blk_checker_wrong R365
  ⟨0x9100, 9, 256, 1, 5, 1, ⟨8, .ro, 0, [], 1, 0, false, false, 0⟩⟩,  -- blk_clean_rounds R365
  ⟨0x9110, 9, 256, 1, 5, 1, ⟨8, .ro, 0, [], 1, 0, false, false, 0⟩⟩,  -- blk_clean_rounds R365
  ⟨0x9120, 9, 256, 1, 5, 1, ⟨8, .ro, 0, [], 1, 0, false, false, 0⟩⟩,  -- blk_clean_rounds R365
  ⟨0x9130, 9, 256, 1, 5, 1, ⟨8, .ro, 0, [], 1, 0, false, false, 0⟩⟩,  -- blk_clean_rounds R365
  ⟨0x9100, 9, 256, 1, 6, 1, ⟨64, .ro, 0, [], 1, 0, false, false, 0⟩⟩,  -- blk_last_round_ms R365
  ⟨0x9110, 9, 256, 1, 6, 1, ⟨64, .ro, 0, [], 1, 0, false, false, 0⟩⟩,  -- blk_last_round_ms R365
  ⟨0x9120, 9, 256, 1, 6, 1, ⟨64, .ro, 0, [], 1, 0, false, false, 0⟩⟩,  -- blk_last_round_ms R365
  ⟨0x9130, 9, 256, 1, 6, 1, ⟨64, .ro, 0, [], 1, 0, false, false, 0⟩⟩,  -- blk_last_round_ms R365
  ⟨0x9100, 9, 256, 1, 7, 8, ⟨32, .ro, 0, [], 1, 0, false, true, 0⟩⟩,  -- lane_rec R365
  ⟨0x9100, 9, 256, 1, 15, 1, ⟨32, .ro, 16777216, [], 1, 0, false, true, 0⟩⟩,  -- lane_rec R365
  ⟨0x9110, 9, 256, 1, 7, 8, ⟨32, .ro, 0, [], 1, 0, false, true, 0⟩⟩,  -- lane_rec R365
  ⟨0x9110, 9, 256, 1, 15, 1, ⟨32, .ro, 16777216, [], 1, 0, false, true, 0⟩⟩,  -- lane_rec R365
  ⟨0x9120, 9, 256, 1, 7, 8, ⟨32, .ro, 0, [], 1, 0, false, true, 0⟩⟩,  -- lane_rec R365
  ⟨0x9120, 9, 256, 1, 15, 1, ⟨32, .ro, 16777216, [], 1, 0, false, true, 0⟩⟩,  -- lane_rec R365
  ⟨0x9130, 9, 256, 1, 7, 8, ⟨32, .ro, 0, [], 1, 0, false, true, 0⟩⟩,  -- lane_rec R365
  ⟨0x9130, 9, 256, 1, 15, 1, ⟨32, .ro, 16777216, [], 1, 0, false, true, 0⟩⟩  -- lane_rec R365
  ]

/-- Cards of chapter 16. -/
def cards16 : List CardRow := [
  ⟨0x2000, 1, 256, 1, 1, 1, ⟨8, .ro, 0, [], 1, 0, false, false, 0⟩⟩,  -- dev_state R385
  ⟨0x2000, 1, 256, 1, 2, 1, ⟨8, .wo, 0, [(1, 4)], 1, 0, false, false, 0⟩⟩,  -- dev_request R385
  ⟨0x2000, 1, 256, 1, 3, 1, ⟨1, .rw, 1, [(0, 1)], 1, 0, false, true, 0⟩⟩,  -- dev_auto_service R385
  ⟨0x2000, 1, 256, 1, 4, 1, ⟨32, .rw, 2000, [(0, 0), (100, 600000)], 1, 0, false, true, 0⟩⟩,  -- dev_safe_auto_ms R385
  ⟨0x2000, 1, 256, 1, 5, 1, ⟨64, .ro, 0, [], 1, 0, false, true, 0⟩⟩,  -- dev_safe_cause R385
  ⟨0x2000, 1, 256, 1, 6, 1, ⟨8, .ro, 0, [], 1, 0, false, false, 0⟩⟩,  -- dev_reset_phase R385
  ⟨0x2000, 1, 256, 1, 7, 1, ⟨64, .ro, 0, [], 1, 0, false, true, 0⟩⟩,  -- dev_engine_resets R385
  ⟨0x2000, 1, 256, 1, 8, 1, ⟨32, .ro, 0, [], 1, 0, false, true, 0⟩⟩,  -- dev_region_resets R385
  ⟨0x2000, 1, 256, 1, 9, 1, ⟨32, .ro, 0, [], 1, 0, false, true, 0⟩⟩,  -- dev_warm_resets R385
  ⟨0x2000, 1, 256, 1, 10, 1, ⟨32, .ro, 0, [], 1, 0, false, true, 0⟩⟩,  -- dev_last_warm_us R385
  ⟨0x2000, 1, 256, 1, 11, 1, ⟨64, .ro, 0, [], 1, 0, false, true, 0⟩⟩,  -- dev_journal_lines R385
  ⟨0x2000, 1, 256, 1, 12, 1, ⟨64, .ro, 0, [], 1, 0, false, true, 0⟩⟩,  -- dev_journal_lost R385
  ⟨0x2000, 1, 256, 1, 13, 1, ⟨64, .ro, 0, [], 1, 0, false, true, 0⟩⟩,  -- hang_unattributed R385
  ⟨0x2000, 1, 256, 1, 14, 1, ⟨64, .ro, 0, [], 1, 0, false, true, 0⟩⟩,  -- hang_replay_resets R385
  ⟨0x2000, 1, 256, 1, 15, 1, ⟨16, .ro, 0, [], 1, 0, false, false, 0⟩⟩,  -- hung_tiles R385
  ⟨0xB100, 1, 256, 1, 1, 1, ⟨32, .ro, 0, [], 1, 0, false, true, 0⟩⟩,  -- hang_seq R385
  ⟨0xB100, 1, 256, 1, 2, 1, ⟨64, .ro, 0, [], 1, 0, true, true, 0⟩⟩  -- hang_store R385
  ]

/-- Cards of chapter 17. -/
def cards17 : List CardRow := [
  ⟨0xA000, 1, 256, 1, 1, 1, ⟨8, .ro, 0, [], 1, 0, false, false, 0⟩⟩,  -- pwr_state R398
  ⟨0xA000, 1, 256, 1, 2, 1, ⟨32, .ro, 200, [], 1, 0, false, false, 0⟩⟩,  -- pwr_tol_ns R398
  ⟨0xA000, 1, 256, 1, 3, 1, ⟨32, .rw, 200, [(0, 10000000)], 1, 0, false, true, 0⟩⟩,  -- pwr_default_tol_ns R398
  ⟨0xA000, 1, 256, 1, 4, 1, ⟨8, .rw, 3, [(0, 3)], 1, 0, false, true, 0⟩⟩,  -- pwr_max_state R398
  ⟨0xA000, 1, 256, 1, 5, 1, ⟨16, .rw, 1000, [(100, 60000)], 1, 0, false, true, 0⟩⟩,  -- pwr_s1_idle_ns R398
  ⟨0xA000, 1, 256, 1, 6, 1, ⟨32, .rw, 500, [(50, 1000000)], 1, 0, false, true, 0⟩⟩,  -- pwr_s2_idle_us R398
  ⟨0xA000, 1, 256, 1, 7, 1, ⟨16, .rw, 10, [(1, 60000)], 1, 0, false, true, 0⟩⟩,  -- pwr_s3_idle_ms R398
  ⟨0xA000, 1, 256, 1, 8, 1, ⟨16, .rws, 1300, [(1150, 1300)], 1, 0, false, true, 1⟩⟩,  -- pwr_limit_w R398
  ⟨0xA000, 1, 256, 1, 9, 1, ⟨16, .ro, 0, [], 1, 0, false, false, 0⟩⟩,  -- pwr_input_w R398
  ⟨0xA000, 1, 256, 1, 10, 1, ⟨16, .ro, 0, [], 1, 0, false, false, 0⟩⟩,  -- pwr_input_mv R398
  ⟨0xA000, 1, 256, 1, 11, 1, ⟨64, .ro, 0, [], 1, 0, false, true, 0⟩⟩,  -- pwr_throttle_us R398
  ⟨0xA000, 1, 256, 1, 12, 1, ⟨8, .ro, 0, [], 1, 0, false, false, 0⟩⟩,  -- wk_queue R398
  ⟨0xA010, 4, 256, 1, 1, 1, ⟨8, .ro, 0, [], 1, 0, false, false, 0⟩⟩,  -- pwr_region_state R398
  ⟨0xA010, 4, 256, 1, 2, 1, ⟨64, .ro, 0, [], 1, 0, false, true, 0⟩⟩,  -- pwr_region_exits R398
  ⟨0x2400, 1, 256, 1, 1, 1, ⟨64, .ro, 0, [], 1, 0, false, false, 0⟩⟩,  -- wk_issued R398
  ⟨0x2400, 1, 256, 1, 2, 1, ⟨8, .ro, 40, [], 1, 0, false, false, 0⟩⟩,  -- wk_held R398
  ⟨0x2400, 1, 256, 1, 3, 1, ⟨64, .ro, 0, [], 1, 0, false, false, 0⟩⟩,  -- wk_spent R398
  ⟨0x2400, 1, 256, 1, 4, 1, ⟨64, .ro, 0, [], 1, 0, false, false, 0⟩⟩,  -- wk_expired R398
  ⟨0x2400, 1, 256, 1, 5, 1, ⟨64, .ro, 0, [], 1, 0, false, true, 0⟩⟩,  -- wk_audit_pass R398
  ⟨0x2400, 1, 256, 1, 6, 1, ⟨64, .ro, 0, [], 1, 0, false, true, 0⟩⟩  -- wk_audit_fail R398
  ]

/-- Cards of chapter 18. -/
def cards18 : List CardRow := [
  ⟨0x1000, 1, 256, 1, 1, 1, ⟨16, .const, 5746, [], 1, 0, false, true, 0⟩⟩,  -- dev_class R411
  ⟨0x1000, 1, 256, 1, 2, 1, ⟨8, .const, 0, [], 1, 0, false, true, 0⟩⟩,  -- dev_stepping R411
  ⟨0x1000, 1, 256, 1, 3, 1, ⟨64, .ro, 0, [], 1, 0, false, false, 0⟩⟩,  -- dev_serial R411
  ⟨0x1000, 1, 256, 1, 4, 1, ⟨32, .ro, 0, [], 1, 0, false, false, 0⟩⟩,  -- fw_version R411
  ⟨0x1000, 1, 256, 1, 5, 1, ⟨16, .ro, 0, [], 1, 0, false, false, 0⟩⟩,  -- fw_svn R411
  ⟨0x1000, 1, 256, 1, 6, 1, ⟨16, .ro, 0, [], 1, 0, false, false, 0⟩⟩,  -- fw_svn_floor R411
  ⟨0x1010, 1, 256, 1, 1, 1, ⟨8, .ro, 1, [], 1, 0, false, false, 0⟩⟩,  -- boot_phase R411
  ⟨0x1010, 1, 256, 1, 2, 1, ⟨64, .ro, 0, [], 1, 0, false, false, 0⟩⟩,  -- boot_status R411
  ⟨0x1010, 1, 256, 1, 3, 1, ⟨32, .ro, 0, [], 1, 0, false, false, 0⟩⟩,  -- boot_time_ms R411
  ⟨0x1020, 1, 256, 1, 1, 1, ⟨64, .wo, 0, [], 1, 0, true, false, 0⟩⟩,  -- fw_stage R411
  ⟨0x1020, 1, 256, 1, 2, 1, ⟨8, .wo, 0, [(1, 1)], 1, 0, false, false, 1⟩⟩,  -- fw_commit R411
  ⟨0x1020, 1, 256, 1, 3, 1, ⟨8, .ro, 0, [], 1, 0, false, false, 0⟩⟩,  -- fw_update_state R411
  ⟨0x1020, 1, 256, 1, 4, 1, ⟨32, .ro, 0, [], 1, 0, false, false, 0⟩⟩,  -- fw_update_bytes R411
  ⟨0x1100, 4, 4, 64, 1, 1, ⟨8, .ro, 0, [], 1, 0, false, false, 0⟩⟩,  -- key_state R411
  ⟨0x1100, 4, 4, 64, 2, 1, ⟨32, .ro, 0, [], 1, 0, false, false, 0⟩⟩,  -- key_kcv R411
  ⟨0x1100, 4, 4, 64, 3, 1, ⟨8, .wo, 0, [(1, 1)], 1, 0, false, false, 0⟩⟩  -- key_erase R411
  ]

/-- Cards of chapter 19. -/
def cards19 : List CardRow := [
  ⟨0x1400, 1, 256, 1, 1, 1, ⟨32, .rw, 0, [], 1, 4278190080, false, true, 0⟩⟩,  -- dom_select R415
  ⟨0x1400, 1, 256, 1, 2, 1, ⟨32, .rw, 0, [(0, 66058240)], 2048, 0, false, true, 0⟩⟩,  -- dom_offset R415
  ⟨0x1400, 1, 256, 1, 3, 1, ⟨32, .ro, 0, [], 1, 0, false, true, 0⟩⟩,  -- dom_length R415
  ⟨0x1410, 1, 256, 1, 0, 256, ⟨64, .rw, 0, [], 1, 0, false, true, 0⟩⟩,  -- dom_data R415
  ⟨0x1300, 1, 256, 1, 1, 1, ⟨1, .rws, 1, [(0, 1)], 1, 0, false, true, 1⟩⟩,  -- glody_enable R428
  ⟨0x1300, 1, 256, 1, 2, 1, ⟨16, .rws, 49201, [(1024, 65535)], 1, 0, false, true, 1⟩⟩,  -- glody_udp_port R428
  ⟨0x1300, 1, 256, 1, 3, 1, ⟨8, .rws, 1, [(0, 254)], 1, 0, false, true, 1⟩⟩,  -- glody_plca_id R428
  ⟨0x1300, 1, 256, 1, 4, 1, ⟨1, .rws, 0, [(0, 1)], 1, 0, false, true, 1⟩⟩,  -- glody_plca_coord R428
  ⟨0x1300, 1, 256, 1, 5, 1, ⟨8, .rws, 9, [(2, 255)], 1, 0, false, true, 1⟩⟩,  -- glody_plca_count R428
  ⟨0x1300, 1, 256, 1, 6, 1, ⟨64, .rw, 18375249429625044992, [], 1, 0, false, true, 0⟩⟩,  -- glody_notify_hi R428
  ⟨0x1300, 1, 256, 1, 7, 1, ⟨64, .rw, 1, [], 1, 0, false, true, 0⟩⟩,  -- glody_notify_lo R428
  ⟨0x1300, 1, 256, 1, 8, 1, ⟨16, .rw, 10, [(1, 3600)], 1, 0, false, true, 0⟩⟩,  -- glody_announce_s R428
  ⟨0x1300, 1, 256, 1, 9, 1, ⟨32, .rw, 30000, [(1000, 600000)], 1, 0, false, true, 0⟩⟩,  -- glody_session_idle_ms R428
  ⟨0x1300, 1, 256, 1, 10, 1, ⟨8, .ro, 0, [], 1, 0, false, false, 0⟩⟩,  -- glody_sessions R428
  ⟨0x1300, 1, 256, 1, 11, 1, ⟨32, .ro, 0, [], 1, 0, false, true, 0⟩⟩,  -- glody_notice_seq R428
  ⟨0x1300, 1, 256, 1, 12, 1, ⟨64, .ro, 0, [], 1, 0, false, true, 0⟩⟩,  -- glody_notice_drop R428
  ⟨0x1300, 1, 256, 1, 13, 1, ⟨64, .ro, 0, [], 1, 0, false, true, 0⟩⟩,  -- glody_auth_fail R428
  ⟨0x1300, 1, 256, 1, 14, 1, ⟨64, .ro, 0, [], 1, 0, false, true, 0⟩⟩,  -- glody_replay_drop R428
  ⟨0x1300, 1, 256, 1, 15, 1, ⟨1, .rws, 0, [(0, 1)], 1, 0, false, true, 1⟩⟩,  -- glody_read_open R428
  ⟨0x1300, 1, 256, 1, 16, 1, ⟨16, .rw, 100, [(0, 1000)], 1, 0, false, true, 0⟩⟩,  -- glody_repeat_ms R428
  ⟨0xB000, 1, 256, 1, 1, 1, ⟨64, .ro, 0, [], 1, 0, true, true, 0⟩⟩,  -- glody_notice_store R428
  ⟨0x2500, 1, 256, 1, 1, 1, ⟨32, .const, 1048576, [], 1, 0, false, true, 0⟩⟩,  -- qe_total R430
  ⟨0x2500, 1, 256, 1, 2, 1, ⟨32, .ro, 1048576, [], 1, 0, false, false, 0⟩⟩,  -- qe_free R430
  ⟨0x2500, 1, 256, 1, 3, 1, ⟨32, .ro, 0, [], 1, 0, false, false, 0⟩⟩,  -- qe_started R430
  ⟨0x2500, 1, 256, 1, 4, 1, ⟨32, .ro, 0, [], 1, 0, false, false, 0⟩⟩,  -- qe_held R430
  ⟨0x2500, 1, 256, 1, 5, 1, ⟨64, .ro, 0, [], 1, 0, false, true, 0⟩⟩,  -- qe_audit_pass R430
  ⟨0x2500, 1, 256, 1, 6, 1, ⟨64, .ro, 0, [], 1, 0, false, true, 0⟩⟩,  -- qe_audit_fail R430
  ⟨0x2600, 1, 256, 1, 1, 1, ⟨64, .ro, 0, [], 1, 0, false, true, 0⟩⟩,  -- det_audit_pass R430
  ⟨0x2600, 1, 256, 1, 2, 1, ⟨64, .ro, 0, [], 1, 0, false, true, 0⟩⟩,  -- det_audit_fail R430
  ⟨0xC000, 1, 256, 1, 1, 1, ⟨64, .rw, 0, [(0, 4398046511103)], 4096, 0, false, true, 0⟩⟩,  -- diag_map_dpa R431
  ⟨0xC000, 1, 256, 1, 2, 1, ⟨8, .rw, 0, [(0, 1)], 1, 0, false, true, 0⟩⟩,  -- diag_map_copy R431
  ⟨0xC000, 1, 256, 1, 3, 1, ⟨8, .wo, 0, [(1, 1)], 1, 0, false, false, 0⟩⟩,  -- diag_map_latch R431
  ⟨0xC000, 1, 256, 1, 4, 1, ⟨64, .ro, 0, [], 1, 0, false, false, 0⟩⟩,  -- diag_map_lo R431
  ⟨0xC000, 1, 256, 1, 5, 1, ⟨64, .ro, 0, [], 1, 0, false, false, 0⟩⟩,  -- diag_map_hi R431
  ⟨0xC000, 1, 256, 1, 6, 1, ⟨8, .ro, 0, [], 1, 0, false, false, 0⟩⟩,  -- diag_map_check R431
  ⟨0xC010, 8, 256, 1, 1, 1, ⟨8, .ro, 0, [], 1, 0, false, false, 0⟩⟩,  -- dma_status R431
  ⟨0xC010, 8, 256, 1, 2, 1, ⟨64, .ro, 0, [], 1, 0, false, false, 0⟩⟩  -- dma_fault_addr R431
  ]

/-- Every card of the dictionary (R432). -/
def cardRows : List CardRow :=
  cards02 ++ cards03 ++ cards04 ++ cards05 ++ cards06 ++ cards07 ++ cards08 ++ cards09 ++ cards10 ++ cards11 ++ cards12 ++ cards13 ++ cards14 ++ cards15 ++ cards16 ++ cards17 ++ cards18 ++ cards19

/-- The card of a dictionary key, if the key names an entry (R412). -/
def cardOf (k : Nat) : Option Card :=
  (cardRows.find? (fun r => r.has (k / 256) (k % 256))).map CardRow.card

/-- The value a key holds when nothing is listed for it: its card's default. -/
def dictDefault (k : Nat) : Nat := ((cardOf k).map Card.dflt).getD 0

end Sys2Proof.Machine
end

