-- ==== Sys2Proof/Machine/Params.lean ====
section
/-! DEFINITION. The dictionary keys of the parameters: index × 256 + subindex (R14), each by the card of its rule (R432). -/
namespace Sys2Proof.Machine

/-- part_base (R43). -/
def P.partBase (n : Nat) : Nat := (0x4100 + n) * 256 + 0x01
/-- part_size (R43). -/
def P.partSize (n : Nat) : Nat := (0x4100 + n) * 256 + 0x02
/-- part_kind (R43). -/
def P.partKind (n : Nat) : Nat := (0x4100 + n) * 256 + 0x03
/-- part_owner_hid (R43). -/
def P.partOwnerHid (n : Nat) : Nat := (0x4100 + n) * 256 + 0x04
/-- part_stack_set (R43). -/
def P.partStackSet (n : Nat) : Nat := (0x4100 + n) * 256 + 0x05
/-- part_redundancy (R43). -/
def P.partRedundancy (n : Nat) : Nat := (0x4100 + n) * 256 + 0x06
/-- part_encrypt (R43). -/
def P.partEncrypt (n : Nat) : Nat := (0x4100 + n) * 256 + 0x07
/-- part_key_slot (R43). -/
def P.partKeySlot (n : Nat) : Nat := (0x4100 + n) * 256 + 0x08
/-- part_policy (R43). -/
def P.partPolicy (n : Nat) : Nat := (0x4100 + n) * 256 + 0x09
/-- part_share_mode (R43). -/
def P.partShareMode (n : Nat) : Nat := (0x4100 + n) * 256 + 0x0A
/-- part_status (R43). -/
def P.partStatus (n : Nat) : Nat := (0x4100 + n) * 256 + 0x0B
/-- part_commit (R43). -/
def P.partCommit (n : Nat) : Nat := (0x4100 + n) * 256 + 0x0C
/-- win_base (R53). -/
def P.winBase (n : Nat) : Nat := (0x4200 + n / 16) * 256 + (n % 16) * 16 + 0x1
/-- win_size (R53). -/
def P.winSize (n : Nat) : Nat := (0x4200 + n / 16) * 256 + (n % 16) * 16 + 0x2
/-- win_kind (R53). -/
def P.winKind (n : Nat) : Nat := (0x4200 + n / 16) * 256 + (n % 16) * 16 + 0x3
/-- win_partition (R53). -/
def P.winPartition (n : Nat) : Nat := (0x4200 + n / 16) * 256 + (n % 16) * 16 + 0x4
/-- win_descriptor (R53). -/
def P.winDescriptor (n : Nat) : Nat := (0x4200 + n / 16) * 256 + (n % 16) * 16 + 0x5
/-- win_residency (R53). -/
def P.winResidency (n : Nat) : Nat := (0x4200 + n / 16) * 256 + (n % 16) * 16 + 0x6
/-- win_state (R53). -/
def P.winState (n : Nat) : Nat := (0x4200 + n / 16) * 256 + (n % 16) * 16 + 0x7
/-- win_status (R53). -/
def P.winStatus (n : Nat) : Nat := (0x4200 + n / 16) * 256 + (n % 16) * 16 + 0x8
/-- win_commit (R53). -/
def P.winCommit (n : Nat) : Nat := (0x4200 + n / 16) * 256 + (n % 16) * 16 + 0x9
/-- port_ld_hid (R63). -/
def P.portLdHid (n i : Nat) : Nat := (0x3100 + n) * 256 + 0x01 + i
/-- fm_trust_mode (R63). -/
def P.fmTrustMode : Nat := 0x5000 * 256 + 0x01
/-- own_fail_count (R63). -/
def P.ownFailCount : Nat := 0x5000 * 256 + 0x02
/-- own_last_fail (R63). -/
def P.ownLastFail : Nat := 0x5000 * 256 + 0x03
/-- own_status (R63). -/
def P.ownStatus : Nat := 0x5000 * 256 + 0x04
/-- own_entries_valid (R63). -/
def P.ownEntriesValid : Nat := 0x5000 * 256 + 0x05
/-- bicel_codec_enable (R77). -/
def P.bicelCodecEnable : Nat := 0x7300 * 256 + 0x01
/-- bicel_min_saving (R77). -/
def P.bicelMinSaving : Nat := 0x7300 * 256 + 0x02
/-- bicel_fail_count (R77). -/
def P.bicelFailCount : Nat := 0x7300 * 256 + 0x03
/-- bicel_last_fail (R77). -/
def P.bicelLastFail : Nat := 0x7300 * 256 + 0x04
/-- bicel_checker_mismatch (R77). -/
def P.bicelCheckerMismatch : Nat := 0x7300 * 256 + 0x05
/-- bicel_checker_busy (R77). -/
def P.bicelCheckerBusy : Nat := 0x7300 * 256 + 0x06
/-- bicel_raw_count (R77). -/
def P.bicelRawCount : Nat := 0x7300 * 256 + 0x07
/-- bicel_flat_nocompress (R77). -/
def P.bicelFlatNocompress : Nat := 0x7300 * 256 + 0x08
/-- desc_word (R94). -/
def P.descWord (n i : Nat) : Nat := (0x4800 + n) * 256 + 0x01 + i
/-- desc_state (R94). -/
def P.descState (n : Nat) : Nat := (0x4800 + n) * 256 + 0x08
/-- desc_status (R94). -/
def P.descStatus (n : Nat) : Nat := (0x4800 + n) * 256 + 0x09
/-- desc_commit (R94). -/
def P.descCommit (n : Nat) : Nat := (0x4800 + n) * 256 + 0x0A
/-- desc_gen (R94). -/
def P.descGen (n : Nat) : Nat := (0x4800 + n) * 256 + 0x0B
/-- desc_dense_blocks (R94). -/
def P.descDenseBlocks (n : Nat) : Nat := (0x4800 + n) * 256 + 0x0C
/-- desc_lowered_tiles (R94). -/
def P.descLoweredTiles (n : Nat) : Nat := (0x4800 + n) * 256 + 0x0D
/-- fac_panel_cache (R121). -/
def P.facPanelCache : Nat := 0x4010 * 256 + 0x01
/-- fac_wp_t0_limit (R121). -/
def P.facWpT0Limit : Nat := 0x4010 * 256 + 0x02
/-- fac_drop_count (R121). -/
def P.facDropCount : Nat := 0x4010 * 256 + 0x03
/-- fac_exp_clamp (R121). -/
def P.facExpClamp : Nat := 0x4010 * 256 + 0x04
/-- fac_rank_only_miss (R121). -/
def P.facRankOnlyMiss : Nat := 0x4010 * 256 + 0x05
/-- fac_credit_fault (R121). -/
def P.facCreditFault : Nat := 0x4010 * 256 + 0x06
/-- fac_stall_waypoint (R121). -/
def P.facStallWaypoint : Nat := 0x4011 * 256 + 0x01
/-- fac_stall_panel (R121). -/
def P.facStallPanel : Nat := 0x4011 * 256 + 0x02
/-- fac_stall_expander (R121). -/
def P.facStallExpander : Nat := 0x4011 * 256 + 0x03
/-- fac_stall_egress (R121). -/
def P.facStallEgress : Nat := 0x4011 * 256 + 0x04
/-- fac_stall_queue (R121). -/
def P.facStallQueue : Nat := 0x4011 * 256 + 0x05
/-- fac_stall_component (R121). -/
def P.facStallComponent : Nat := 0x4011 * 256 + 0x06
/-- fac_stall_preempt (R121). -/
def P.facStallPreempt : Nat := 0x4011 * 256 + 0x07
/-- fac_stall_remote (R121). -/
def P.facStallRemote : Nat := 0x4011 * 256 + 0x08
/-- ar_overflow_count (R145). -/
def P.arOverflowCount : Nat := 0x4020 * 256 + 0x01
/-- ar_overflow_last (R145). -/
def P.arOverflowLast : Nat := 0x4020 * 256 + 0x02
/-- ar_acc_check_fail (R145). -/
def P.arAccCheckFail : Nat := 0x4020 * 256 + 0x03
/-- ar_bound_verify_fail (R145). -/
def P.arBoundVerifyFail : Nat := 0x4020 * 256 + 0x04
/-- ar_reduce_inexact (R145). -/
def P.arReduceInexact : Nat := 0x4020 * 256 + 0x05
/-- ar_reduce_over (R145). -/
def P.arReduceOver : Nat := 0x4020 * 256 + 0x06
/-- ar_reduce_limit (R145). -/
def P.arReduceLimit : Nat := 0x4020 * 256 + 0x07
/-- ar_overflow_notice (R145). -/
def P.arOverflowNotice : Nat := 0x4020 * 256 + 0x08
/-- cap_total (R149). -/
def P.capTotal (n : Nat) : Nat := (0x2100 + n) * 256 + 0x01
/-- cap_free (R149). -/
def P.capFree (n : Nat) : Nat := (0x2100 + n) * 256 + 0x02
/-- cap_used (R149). -/
def P.capUsed (n : Nat) : Nat := (0x2100 + n) * 256 + 0x03
/-- cap_shadow (R149). -/
def P.capShadow (n : Nat) : Nat := (0x2100 + n) * 256 + 0x04
/-- cap_retired (R149). -/
def P.capRetired (n : Nat) : Nat := (0x2100 + n) * 256 + 0x05
/-- cap_quarantined (R149). -/
def P.capQuarantined (n : Nat) : Nat := (0x2100 + n) * 256 + 0x06
/-- cap_owed (R149). -/
def P.capOwed (n : Nat) : Nat := (0x2100 + n) * 256 + 0x07
/-- cap_headroom (R149). -/
def P.capHeadroom (n : Nat) : Nat := (0x2100 + n) * 256 + 0x08
/-- cap_pressure (R149). -/
def P.capPressure (n : Nat) : Nat := (0x2100 + n) * 256 + 0x09
/-- cap_audit_pass (R149). -/
def P.capAuditPass (n : Nat) : Nat := (0x2100 + n) * 256 + 0x0A
/-- cap_walk_pass (R149). -/
def P.capWalkPass (n : Nat) : Nat := (0x2100 + n) * 256 + 0x0B
/-- cap_audit_fail (R149). -/
def P.capAuditFail (n : Nat) : Nat := (0x2100 + n) * 256 + 0x0C
/-- part_held (R159). -/
def P.partHeld (n : Nat) : Nat := (0x4100 + n) * 256 + 0x0D
/-- part_detour_blocks (R159). -/
def P.partDetourBlocks (n : Nat) : Nat := (0x4100 + n) * 256 + 0x0E
/-- part_fence (R159). -/
def P.partFence (n : Nat) : Nat := (0x4100 + n) * 256 + 0x0F
/-- part_fence_count (R159). -/
def P.partFenceCount (n : Nat) : Nat := (0x4100 + n) * 256 + 0x10
/-- det_base (R163). -/
def P.detBase : Nat := 0x4040 * 256 + 0x01
/-- det_size (R163). -/
def P.detSize : Nat := 0x4040 * 256 + 0x02
/-- det_state (R163). -/
def P.detState : Nat := 0x4040 * 256 + 0x03
/-- det_slots (R163). -/
def P.detSlots : Nat := 0x4040 * 256 + 0x04
/-- det_free (R163). -/
def P.detFree : Nat := 0x4040 * 256 + 0x05
/-- det_used (R163). -/
def P.detUsed : Nat := 0x4040 * 256 + 0x06
/-- det_crc_fail (R163). -/
def P.detCrcFail : Nat := 0x4040 * 256 + 0x07
/-- det_timeout (R163). -/
def P.detTimeout : Nat := 0x4040 * 256 + 0x08
/-- cap_decay_ms (R171). -/
def P.capDecayMs : Nat := 0x4030 * 256 + 0x01
/-- cap_promote_t1 (R171). -/
def P.capPromoteT1 : Nat := 0x4030 * 256 + 0x02
/-- cap_promote_t0 (R171). -/
def P.capPromoteT0 : Nat := 0x4030 * 256 + 0x03
/-- cap_demote_t0 (R171). -/
def P.capDemoteT0 : Nat := 0x4030 * 256 + 0x04
/-- cap_demote_t2 (R171). -/
def P.capDemoteT2 : Nat := 0x4030 * 256 + 0x05
/-- cap_low_water (R171). -/
def P.capLowWater : Nat := 0x4030 * 256 + 0x06
/-- cap_emergency_pool (R171). -/
def P.capEmergencyPool : Nat := 0x4030 * 256 + 0x07
/-- cap_promo_reserve (R171). -/
def P.capPromoReserve : Nat := 0x4030 * 256 + 0x08
/-- cap_compact_live (R171). -/
def P.capCompactLive : Nat := 0x4030 * 256 + 0x09
/-- cap_mover_rate (R171). -/
def P.capMoverRate : Nat := 0x4030 * 256 + 0x0A
/-- cap_promo_frames (R171). -/
def P.capPromoFrames : Nat := 0x4030 * 256 + 0x0B
/-- cap_promo_drop (R171). -/
def P.capPromoDrop : Nat := 0x4030 * 256 + 0x0C
/-- cap_discard_count (R171). -/
def P.capDiscardCount : Nat := 0x4030 * 256 + 0x0D
/-- cap_fault_count (R171). -/
def P.capFaultCount : Nat := 0x4030 * 256 + 0x0E
/-- job_committed (R177). -/
def P.jobCommitted (n : Nat) : Nat := (0x8400 + n / 32) * 256 + (n % 32) * 8 + 0x1
/-- job_open (R177). -/
def P.jobOpen (n : Nat) : Nat := (0x8400 + n / 32) * 256 + (n % 32) * 8 + 0x2
/-- job_status (R177). -/
def P.jobStatus (n : Nat) : Nat := (0x8400 + n / 32) * 256 + (n % 32) * 8 + 0x3
/-- job_replays (R177). -/
def P.jobReplays (n : Nat) : Nat := (0x8400 + n / 32) * 256 + (n % 32) * 8 + 0x4
/-- job_shadow_frames (R177). -/
def P.jobShadowFrames (n : Nat) : Nat := (0x8400 + n / 32) * 256 + (n % 32) * 8 + 0x5
/-- job_base (R177). -/
def P.jobBase (n : Nat) : Nat := (0x8400 + n / 32) * 256 + (n % 32) * 8 + 0x6
/-- job_release (R177). -/
def P.jobRelease (n : Nat) : Nat := (0x8400 + n / 32) * 256 + (n % 32) * 8 + 0x7
/-- red_slots (R193). -/
def P.redSlots : Nat := 0x8D00 * 256 + 0x01
/-- red_timeout_ms (R193). -/
def P.redTimeoutMs : Nat := 0x8D00 * 256 + 0x02
/-- red_orphan_count (R193). -/
def P.redOrphanCount : Nat := 0x8D00 * 256 + 0x03
/-- opt_replay_count (R193). -/
def P.optReplayCount : Nat := 0x8D00 * 256 + 0x04
/-- opt_step_faults (R193). -/
def P.optStepFaults : Nat := 0x8D00 * 256 + 0x05
/-- red_slots_actual (R193). -/
def P.redSlotsActual : Nat := 0x8D00 * 256 + 0x06
/-- ckpt_rate (R193). -/
def P.ckptRate : Nat := 0x8D00 * 256 + 0x07
/-- red_wait_ns (R193). -/
def P.redWaitNs : Nat := 0x8D00 * 256 + 0x08
/-- red_grad_reads (R193). -/
def P.redGradReads : Nat := 0x8D00 * 256 + 0x09
/-- red_state (R193). -/
def P.redState (n : Nat) : Nat := (0x8C00 + n) * 256 + 0x01
/-- red_front (R193). -/
def P.redFront (n : Nat) : Nat := (0x8C00 + n) * 256 + 0x02
/-- red_tiles (R193). -/
def P.redTiles (n : Nat) : Nat := (0x8C00 + n) * 256 + 0x03
/-- red_missing (R193). -/
def P.redMissing (n i : Nat) : Nat := (0x8C00 + n) * 256 + 0x04 + i
/-- red_reject_count (R193). -/
def P.redRejectCount (n : Nat) : Nat := (0x8C00 + n) * 256 + 0x08
/-- sr_base (R198). -/
def P.srBase (n : Nat) : Nat := (0x4400 + n) * 256 + 0x01
/-- sr_size (R198). -/
def P.srSize (n : Nat) : Nat := (0x4400 + n) * 256 + 0x02
/-- sr_keep (R198). -/
def P.srKeep (n : Nat) : Nat := (0x4400 + n) * 256 + 0x03
/-- sr_lease_enable (R198). -/
def P.srLeaseEnable (n : Nat) : Nat := (0x4400 + n) * 256 + 0x04
/-- sr_lease_ms (R198). -/
def P.srLeaseMs (n : Nat) : Nat := (0x4400 + n) * 256 + 0x05
/-- sr_latest (R198). -/
def P.srLatest (n : Nat) : Nat := (0x4400 + n) * 256 + 0x06
/-- sr_live (R198). -/
def P.srLive (n : Nat) : Nat := (0x4400 + n) * 256 + 0x07
/-- sr_poison_count (R198). -/
def P.srPoisonCount (n : Nat) : Nat := (0x4400 + n) * 256 + 0x08
/-- sr_last_poison (R198). -/
def P.srLastPoison (n : Nat) : Nat := (0x4400 + n) * 256 + 0x09
/-- sr_status (R198). -/
def P.srStatus (n : Nat) : Nat := (0x4400 + n) * 256 + 0x0A
/-- sr_commit (R198). -/
def P.srCommit (n : Nat) : Nat := (0x4400 + n) * 256 + 0x0B
/-- sr_dead (R198). -/
def P.srDead (n i : Nat) : Nat := (0x4400 + n) * 256 + 0x0C + i
/-- share_version_next (R218). -/
def P.shareVersionNext : Nat := 0x4300 * 256 + 0x01
/-- share_version_reset (R218). -/
def P.shareVersionReset : Nat := 0x4300 * 256 + 0x02
/-- share_bi_timeout_us (R218). -/
def P.shareBiTimeoutUs : Nat := 0x4300 * 256 + 0x03
/-- share_declare_dead (R218). -/
def P.shareDeclareDead : Nat := 0x4300 * 256 + 0x04
/-- share_link_grace_ms (R218). -/
def P.shareLinkGraceMs : Nat := 0x4300 * 256 + 0x05
/-- share_stray_wb (R218). -/
def P.shareStrayWb : Nat := 0x4300 * 256 + 0x06
/-- share_revive (R218). -/
def P.shareRevive : Nat := 0x4300 * 256 + 0x07
/-- vref_total (R218). -/
def P.vrefTotal : Nat := 0x2200 * 256 + 0x01
/-- vref_free (R218). -/
def P.vrefFree : Nat := 0x2200 * 256 + 0x02
/-- vref_reader (R218). -/
def P.vrefReader : Nat := 0x2200 * 256 + 0x03
/-- vref_writer (R218). -/
def P.vrefWriter : Nat := 0x2200 * 256 + 0x04
/-- vref_pinned (R218). -/
def P.vrefPinned : Nat := 0x2200 * 256 + 0x05
/-- vref_audit_pass (R218). -/
def P.vrefAuditPass : Nat := 0x2200 * 256 + 0x06
/-- vref_walk_pass (R218). -/
def P.vrefWalkPass : Nat := 0x2200 * 256 + 0x07
/-- vref_audit_fail (R218). -/
def P.vrefAuditFail : Nat := 0x2200 * 256 + 0x08
/-- grp_hid (R220). -/
def P.grpHid (n : Nat) : Nat := (0x8E00 + n) * 256 + 0x01
/-- grp_path (R220). -/
def P.grpPath (n : Nat) : Nat := (0x8E00 + n) * 256 + 0x02
/-- grp_port_ld (R220). -/
def P.grpPortLd (n : Nat) : Nat := (0x8E00 + n) * 256 + 0x03
/-- grp_priv (R220). -/
def P.grpPriv (n : Nat) : Nat := (0x8E00 + n) * 256 + 0x04
/-- q_sq_base (R221). -/
def P.qSqBase (n : Nat) : Nat := (0x8000 + n / 32) * 256 + (n % 32) * 8 + 0x1
/-- q_cq_base (R221). -/
def P.qCqBase (n : Nat) : Nat := (0x8000 + n / 32) * 256 + (n % 32) * 8 + 0x2
/-- q_cfg (R221). -/
def P.qCfg (n : Nat) : Nat := (0x8000 + n / 32) * 256 + (n % 32) * 8 + 0x3
/-- q_ctl (R221). -/
def P.qCtl (n : Nat) : Nat := (0x8000 + n / 32) * 256 + (n % 32) * 8 + 0x4
/-- q_state (R221). -/
def P.qState (n : Nat) : Nat := (0x8000 + n / 32) * 256 + (n % 32) * 8 + 0x5
/-- q_db_drop (R242). -/
def P.qDbDrop : Nat := 0x8D01 * 256 + 0x01
/-- q_halt_count (R242). -/
def P.qHaltCount : Nat := 0x8D01 * 256 + 0x02
/-- q_running (R242). -/
def P.qRunning : Nat := 0x8D01 * 256 + 0x03
/-- port_enable (R249). -/
def P.portEnable (n : Nat) : Nat := (0x3010 + n) * 256 + 0x01
/-- port_max_rate (R249). -/
def P.portMaxRate (n : Nat) : Nat := (0x3010 + n) * 256 + 0x02
/-- port_ld_max (R249). -/
def P.portLdMax (n : Nat) : Nat := (0x3010 + n) * 256 + 0x03
/-- port_ide (R249). -/
def P.portIde (n : Nat) : Nat := (0x3010 + n) * 256 + 0x04
/-- port_features (R249). -/
def P.portFeatures (n : Nat) : Nat := (0x3010 + n) * 256 + 0x05
/-- port_status (R249). -/
def P.portStatus (n : Nat) : Nat := (0x3010 + n) * 256 + 0x06
/-- port_status_b (R249). -/
def P.portStatusB (n : Nat) : Nat := (0x3010 + n) * 256 + 0x07
/-- port_lat_tol_ns (R249). -/
def P.portLatTolNs (n : Nat) : Nat := (0x3010 + n) * 256 + 0x08
/-- port_mbox_dict (R249). -/
def P.portMboxDict (n : Nat) : Nat := (0x3010 + n) * 256 + 0x09
/-- port_credit_stall_ms (R249). -/
def P.portCreditStallMs (n : Nat) : Nat := (0x3010 + n) * 256 + 0x0A
/-- port_down_count (R249). -/
def P.portDownCount (n : Nat) : Nat := (0x3010 + n) * 256 + 0x0B
/-- port_rx_overflow (R249). -/
def P.portRxOverflow (n : Nat) : Nat := (0x3010 + n) * 256 + 0x0C
/-- port_late_cpl (R249). -/
def P.portLateCpl (n : Nat) : Nat := (0x3010 + n) * 256 + 0x0D
/-- port_ide_refused (R249). -/
def P.portIdeRefused (n : Nat) : Nat := (0x3010 + n) * 256 + 0x0E
/-- port_bifurcation (R249). -/
def P.portBifurcation (i : Nat) : Nat := 0x3001 * 256 + 0x01 + i
/-- svc_aspm_support (R292). -/
def P.svcAspmSupport : Nat := 0x1200 * 256 + 0x01
/-- svc_lat_tol_ns (R292). -/
def P.svcLatTolNs : Nat := 0x1200 * 256 + 0x02
/-- svc_wake_mask (R292). -/
def P.svcWakeMask : Nat := 0x1200 * 256 + 0x03
/-- svc_d3_wait_ms (R292). -/
def P.svcD3WaitMs : Nat := 0x1200 * 256 + 0x04
/-- svc_late_cpl (R292). -/
def P.svcLateCpl : Nat := 0x1200 * 256 + 0x05
/-- svc_tags_quarantined (R292). -/
def P.svcTagsQuarantined : Nat := 0x1200 * 256 + 0x06
/-- svc_bar_status (R292). -/
def P.svcBarStatus : Nat := 0x1200 * 256 + 0x07
/-- svc_bar_refused (R292). -/
def P.svcBarRefused : Nat := 0x1200 * 256 + 0x08
/-- svc_ltr_ns (R292). -/
def P.svcLtrNs : Nat := 0x1200 * 256 + 0x09
/-- svc_irq_cfg (R292). -/
def P.svcIrqCfg (i : Nat) : Nat := 0x1201 * 256 + 0x01 + i
/-- svc_irq_status (R292). -/
def P.svcIrqStatus : Nat := 0x1201 * 256 + 0x07
/-- rc_master (R295). -/
def P.rcMaster (n : Nat) : Nat := (0x6100 + n / 16) * 256 + (n % 16) * 16 + 0x1
/-- rc_stack_set (R295). -/
def P.rcStackSet (n : Nat) : Nat := (0x6100 + n / 16) * 256 + (n % 16) * 16 + 0x2
/-- rc_min (R295). -/
def P.rcMin (n : Nat) : Nat := (0x6100 + n / 16) * 256 + (n % 16) * 16 + 0x3
/-- rc_ceiling (R295). -/
def P.rcCeiling (n : Nat) : Nat := (0x6100 + n / 16) * 256 + (n % 16) * 16 + 0x4
/-- rc_weight (R295). -/
def P.rcWeight (n : Nat) : Nat := (0x6100 + n / 16) * 256 + (n % 16) * 16 + 0x5
/-- rc_burst (R295). -/
def P.rcBurst (n : Nat) : Nat := (0x6100 + n / 16) * 256 + (n % 16) * 16 + 0x6
/-- rc_state (R295). -/
def P.rcState (n : Nat) : Nat := (0x6100 + n / 16) * 256 + (n % 16) * 16 + 0x7
/-- rc_status (R295). -/
def P.rcStatus (n : Nat) : Nat := (0x6100 + n / 16) * 256 + (n % 16) * 16 + 0x8
/-- rc_commit (R295). -/
def P.rcCommit (n : Nat) : Nat := (0x6100 + n / 16) * 256 + (n % 16) * 16 + 0x9
/-- rc_scale (R295). -/
def P.rcScale (n : Nat) : Nat := (0x6100 + n / 16) * 256 + (n % 16) * 16 + 0xA
/-- rc_missed (R295). -/
def P.rcMissed (n : Nat) : Nat := (0x6100 + n / 16) * 256 + (n % 16) * 16 + 0xB
/-- rc_served (R295). -/
def P.rcServed (n : Nat) : Nat := (0x6100 + n / 16) * 256 + (n % 16) * 16 + 0xC
/-- reg_default_weight (R306). -/
def P.regDefaultWeight : Nat := 0x6000 * 256 + 0x01
/-- reg_default_burst (R306). -/
def P.regDefaultBurst : Nat := 0x6000 * 256 + 0x02
/-- reg_miss_pct (R306). -/
def P.regMissPct : Nat := 0x6000 * 256 + 0x03
/-- reg_rt_limit_pct (R306). -/
def P.regRtLimitPct : Nat := 0x6000 * 256 + 0x04
/-- reg_miss_count (R306). -/
def P.regMissCount : Nat := 0x6000 * 256 + 0x05
/-- reg_miss_last (R306). -/
def P.regMissLast : Nat := 0x6000 * 256 + 0x06
/-- reg_rt_demote (R306). -/
def P.regRtDemote : Nat := 0x6000 * 256 + 0x07
/-- reg_floor_cert (R306). -/
def P.regFloorCert (n : Nat) : Nat := (0x6010 + n) * 256 + 0x01
/-- reg_floor_now (R306). -/
def P.regFloorNow (n : Nat) : Nat := (0x6010 + n) * 256 + 0x02
/-- reg_charged (R306). -/
def P.regCharged (n : Nat) : Nat := (0x6010 + n) * 256 + 0x03
/-- reg_shared (R306). -/
def P.regShared (n : Nat) : Nat := (0x6010 + n) * 256 + 0x04
/-- tg_audit_pass (R306). -/
def P.tgAuditPass : Nat := 0x2300 * 256 + 0x01
/-- tg_audit_fail (R306). -/
def P.tgAuditFail : Nat := 0x2300 * 256 + 0x02
/-- trn_ctl (R318). -/
def P.trnCtl (n : Nat) : Nat := (0xC100 + n) * 256 + 0x01
/-- trn_lane (R318). -/
def P.trnLane (n : Nat) : Nat := (0xC100 + n) * 256 + 0x02
/-- trn_mismatch (R318). -/
def P.trnMismatch (n : Nat) : Nat := (0xC100 + n) * 256 + 0x03
/-- trn_errors (R318). -/
def P.trnErrors (n : Nat) : Nat := (0xC100 + n) * 256 + 0x04
/-- trn_status (R318). -/
def P.trnStatus (n : Nat) : Nat := (0xC100 + n) * 256 + 0x05
/-- trn_hold (R318). -/
def P.trnHold (n : Nat) : Nat := (0xC100 + n) * 256 + 0x06
/-- mc_page_idle_ns (R321). -/
def P.mcPageIdleNs : Nat := 0x7000 * 256 + 0x01
/-- mc_hit_streak (R321). -/
def P.mcHitStreak : Nat := 0x7000 * 256 + 0x02
/-- mc_starve_ns (R321). -/
def P.mcStarveNs : Nat := 0x7000 * 256 + 0x03
/-- mc_thermal_hold_ms (R321). -/
def P.mcThermalHoldMs : Nat := 0x7000 * 256 + 0x04
/-- mc_panic_state (R321). -/
def P.mcPanicState (i : Nat) : Nat := 0x7001 * 256 + 0x01 + i
/-- mc_cond (R321). -/
def P.mcCond (n : Nat) : Nat := (0x7010 + n) * 256 + 0x01
/-- mc_temp_c (R321). -/
def P.mcTempC (n : Nat) : Nat := (0x7010 + n) * 256 + 0x02
/-- mc_sr_state (R321). -/
def P.mcSrState (n : Nat) : Nat := (0x7010 + n) * 256 + 0x03
/-- mc_channel_offline (R321). -/
def P.mcChannelOffline (n : Nat) : Nat := (0x7010 + n) * 256 + 0x04
/-- mc_parity_alerts (R321). -/
def P.mcParityAlerts (n : Nat) : Nat := (0x7010 + n) * 256 + 0x05
/-- mc_replays (R321). -/
def P.mcReplays (n : Nat) : Nat := (0x7010 + n) * 256 + 0x06
/-- mc_panic_count (R321). -/
def P.mcPanicCount (n : Nat) : Nat := (0x7010 + n) * 256 + 0x07
/-- mc_refresh_owed_max (R321). -/
def P.mcRefreshOwedMax (n : Nat) : Nat := (0x7010 + n) * 256 + 0x08
/-- mc_lane_remaps (R321). -/
def P.mcLaneRemaps (n : Nat) : Nat := (0x7010 + n) * 256 + 0x09
/-- scrub_period_h (R342). -/
def P.scrubPeriodH : Nat := 0x7200 * 256 + 0x01
/-- scrub_sram_period_s (R342). -/
def P.scrubSramPeriodS : Nat := 0x7200 * 256 + 0x02
/-- scrub_passes (R342). -/
def P.scrubPasses : Nat := 0x7200 * 256 + 0x03
/-- ce_row_threshold (R342). -/
def P.ceRowThreshold : Nat := 0x7200 * 256 + 0x04
/-- ce_row_window_h (R342). -/
def P.ceRowWindowH : Nat := 0x7200 * 256 + 0x05
/-- flip_target (R342). -/
def P.flipTarget : Nat := 0x7200 * 256 + 0x06
/-- flip_line (R342). -/
def P.flipLine : Nat := 0x7200 * 256 + 0x07
/-- flip_data_lo (R342). -/
def P.flipDataLo : Nat := 0x7200 * 256 + 0x08
/-- flip_data_hi (R342). -/
def P.flipDataHi : Nat := 0x7200 * 256 + 0x09
/-- flip_check (R342). -/
def P.flipCheck : Nat := 0x7200 * 256 + 0x0A
/-- media_log (R342). -/
def P.mediaLog : Nat := 0x7200 * 256 + 0x0B
/-- media_log_seq (R342). -/
def P.mediaLogSeq : Nat := 0x7200 * 256 + 0x0C
/-- retire_list_used (R342). -/
def P.retireListUsed : Nat := 0x7200 * 256 + 0x0D
/-- meta_lost (R342). -/
def P.metaLost : Nat := 0x7200 * 256 + 0x0E
/-- meta_single (R342). -/
def P.metaSingle : Nat := 0x7200 * 256 + 0x0F
/-- media_ce (R342). -/
def P.mediaCe (n : Nat) : Nat := (0x7010 + n) * 256 + 0x0A
/-- media_ue (R342). -/
def P.mediaUe (n : Nat) : Nat := (0x7010 + n) * 256 + 0x0B
/-- media_mark_reads (R342). -/
def P.mediaMarkReads (n : Nat) : Nat := (0x7010 + n) * 256 + 0x0C
/-- stack_health (R342). -/
def P.stackHealth (n : Nat) : Nat := (0x7010 + n) * 256 + 0x0D
/-- sram_ce (R342). -/
def P.sramCe (n : Nat) : Nat := (0x7020 + n) * 256 + 0x01
/-- sram_ue (R342). -/
def P.sramUe (n : Nat) : Nat := (0x7020 + n) * 256 + 0x02
/-- integ_checks (R365). -/
def P.integChecks : Nat := 0x9000 * 256 + 0x01
/-- integ_dual (R365). -/
def P.integDual : Nat := 0x9000 * 256 + 0x02
/-- integ_dice_period_s (R365). -/
def P.integDicePeriodS : Nat := 0x9000 * 256 + 0x03
/-- integ_obs_period_s (R365). -/
def P.integObsPeriodS : Nat := 0x9000 * 256 + 0x04
/-- integ_dice_milestones (R365). -/
def P.integDiceMilestones : Nat := 0x9000 * 256 + 0x05
/-- integ_defer_ms (R365). -/
def P.integDeferMs : Nat := 0x9000 * 256 + 0x06
/-- integ_obs_clear (R365). -/
def P.integObsClear : Nat := 0x9000 * 256 + 0x07
/-- integ_flags (R365). -/
def P.integFlags : Nat := 0x9000 * 256 + 0x08
/-- integ_unresolved (R365). -/
def P.integUnresolved : Nat := 0x9000 * 256 + 0x09
/-- integ_dice_rounds (R365). -/
def P.integDiceRounds : Nat := 0x9000 * 256 + 0x0A
/-- integ_dice_fail (R365). -/
def P.integDiceFail : Nat := 0x9000 * 256 + 0x0B
/-- integ_sig_seq (R365). -/
def P.integSigSeq : Nat := 0x9000 * 256 + 0x0C
/-- integ_sig_store (R365). -/
def P.integSigStore : Nat := 0x9000 * 256 + 0x0D
/-- integ_active (R365). -/
def P.integActive : Nat := 0x9000 * 256 + 0x0E
/-- integ_staging_mib (R365). -/
def P.integStagingMib : Nat := 0x9000 * 256 + 0x0F
/-- blk_state (R365). -/
def P.blkState (q c : Nat) : Nat := (0x9100 + q * 16 + c) * 256 + 0x01
/-- blk_permanent (R365). -/
def P.blkPermanent (q c : Nat) : Nat := (0x9100 + q * 16 + c) * 256 + 0x02
/-- blk_transient (R365). -/
def P.blkTransient (q c : Nat) : Nat := (0x9100 + q * 16 + c) * 256 + 0x03
/-- blk_checker_wrong (R365). -/
def P.blkCheckerWrong (q c : Nat) : Nat := (0x9100 + q * 16 + c) * 256 + 0x04
/-- blk_clean_rounds (R365). -/
def P.blkCleanRounds (q c : Nat) : Nat := (0x9100 + q * 16 + c) * 256 + 0x05
/-- blk_last_round_ms (R365). -/
def P.blkLastRoundMs (q c : Nat) : Nat := (0x9100 + q * 16 + c) * 256 + 0x06
/-- lane_rec (R365). -/
def P.laneRec (q c l : Nat) : Nat := (0x9100 + q * 16 + c) * 256 + 0x07 + l
/-- dev_state (R385). -/
def P.devState : Nat := 0x2000 * 256 + 0x01
/-- dev_request (R385). -/
def P.devRequest : Nat := 0x2000 * 256 + 0x02
/-- dev_auto_service (R385). -/
def P.devAutoService : Nat := 0x2000 * 256 + 0x03
/-- dev_safe_auto_ms (R385). -/
def P.devSafeAutoMs : Nat := 0x2000 * 256 + 0x04
/-- dev_safe_cause (R385). -/
def P.devSafeCause : Nat := 0x2000 * 256 + 0x05
/-- dev_reset_phase (R385). -/
def P.devResetPhase : Nat := 0x2000 * 256 + 0x06
/-- dev_engine_resets (R385). -/
def P.devEngineResets : Nat := 0x2000 * 256 + 0x07
/-- dev_region_resets (R385). -/
def P.devRegionResets : Nat := 0x2000 * 256 + 0x08
/-- dev_warm_resets (R385). -/
def P.devWarmResets : Nat := 0x2000 * 256 + 0x09
/-- dev_last_warm_us (R385). -/
def P.devLastWarmUs : Nat := 0x2000 * 256 + 0x0A
/-- dev_journal_lines (R385). -/
def P.devJournalLines : Nat := 0x2000 * 256 + 0x0B
/-- dev_journal_lost (R385). -/
def P.devJournalLost : Nat := 0x2000 * 256 + 0x0C
/-- hang_unattributed (R385). -/
def P.hangUnattributed : Nat := 0x2000 * 256 + 0x0D
/-- hang_replay_resets (R385). -/
def P.hangReplayResets : Nat := 0x2000 * 256 + 0x0E
/-- hung_tiles (R385). -/
def P.hungTiles : Nat := 0x2000 * 256 + 0x0F
/-- hang_seq (R385). -/
def P.hangSeq : Nat := 0xB100 * 256 + 0x01
/-- hang_store (R385). -/
def P.hangStore : Nat := 0xB100 * 256 + 0x02
/-- pwr_state (R398). -/
def P.pwrState : Nat := 0xA000 * 256 + 0x01
/-- pwr_tol_ns (R398). -/
def P.pwrTolNs : Nat := 0xA000 * 256 + 0x02
/-- pwr_default_tol_ns (R398). -/
def P.pwrDefaultTolNs : Nat := 0xA000 * 256 + 0x03
/-- pwr_max_state (R398). -/
def P.pwrMaxState : Nat := 0xA000 * 256 + 0x04
/-- pwr_s1_idle_ns (R398). -/
def P.pwrS1IdleNs : Nat := 0xA000 * 256 + 0x05
/-- pwr_s2_idle_us (R398). -/
def P.pwrS2IdleUs : Nat := 0xA000 * 256 + 0x06
/-- pwr_s3_idle_ms (R398). -/
def P.pwrS3IdleMs : Nat := 0xA000 * 256 + 0x07
/-- pwr_limit_w (R398). -/
def P.pwrLimitW : Nat := 0xA000 * 256 + 0x08
/-- pwr_input_w (R398). -/
def P.pwrInputW : Nat := 0xA000 * 256 + 0x09
/-- pwr_input_mv (R398). -/
def P.pwrInputMv : Nat := 0xA000 * 256 + 0x0A
/-- pwr_throttle_us (R398). -/
def P.pwrThrottleUs : Nat := 0xA000 * 256 + 0x0B
/-- wk_queue (R398). -/
def P.wkQueue : Nat := 0xA000 * 256 + 0x0C
/-- pwr_region_state (R398). -/
def P.pwrRegionState (n : Nat) : Nat := (0xA010 + n) * 256 + 0x01
/-- pwr_region_exits (R398). -/
def P.pwrRegionExits (n : Nat) : Nat := (0xA010 + n) * 256 + 0x02
/-- wk_issued (R398). -/
def P.wkIssued : Nat := 0x2400 * 256 + 0x01
/-- wk_held (R398). -/
def P.wkHeld : Nat := 0x2400 * 256 + 0x02
/-- wk_spent (R398). -/
def P.wkSpent : Nat := 0x2400 * 256 + 0x03
/-- wk_expired (R398). -/
def P.wkExpired : Nat := 0x2400 * 256 + 0x04
/-- wk_audit_pass (R398). -/
def P.wkAuditPass : Nat := 0x2400 * 256 + 0x05
/-- wk_audit_fail (R398). -/
def P.wkAuditFail : Nat := 0x2400 * 256 + 0x06
/-- dev_class (R411). -/
def P.devClass : Nat := 0x1000 * 256 + 0x01
/-- dev_stepping (R411). -/
def P.devStepping : Nat := 0x1000 * 256 + 0x02
/-- dev_serial (R411). -/
def P.devSerial : Nat := 0x1000 * 256 + 0x03
/-- fw_version (R411). -/
def P.fwVersion : Nat := 0x1000 * 256 + 0x04
/-- fw_svn (R411). -/
def P.fwSvn : Nat := 0x1000 * 256 + 0x05
/-- fw_svn_floor (R411). -/
def P.fwSvnFloor : Nat := 0x1000 * 256 + 0x06
/-- boot_phase (R411). -/
def P.bootPhase : Nat := 0x1010 * 256 + 0x01
/-- boot_status (R411). -/
def P.bootStatus : Nat := 0x1010 * 256 + 0x02
/-- boot_time_ms (R411). -/
def P.bootTimeMs : Nat := 0x1010 * 256 + 0x03
/-- fw_stage (R411). -/
def P.fwStage : Nat := 0x1020 * 256 + 0x01
/-- fw_commit (R411). -/
def P.fwCommit : Nat := 0x1020 * 256 + 0x02
/-- fw_update_state (R411). -/
def P.fwUpdateState : Nat := 0x1020 * 256 + 0x03
/-- fw_update_bytes (R411). -/
def P.fwUpdateBytes : Nat := 0x1020 * 256 + 0x04
/-- key_state (R411). -/
def P.keyState (n : Nat) : Nat := (0x1100 + n / 64) * 256 + (n % 64) * 4 + 0x1
/-- key_kcv (R411). -/
def P.keyKcv (n : Nat) : Nat := (0x1100 + n / 64) * 256 + (n % 64) * 4 + 0x2
/-- key_erase (R411). -/
def P.keyErase (n : Nat) : Nat := (0x1100 + n / 64) * 256 + (n % 64) * 4 + 0x3
/-- dom_select (R415). -/
def P.domSelect : Nat := 0x1400 * 256 + 0x01
/-- dom_offset (R415). -/
def P.domOffset : Nat := 0x1400 * 256 + 0x02
/-- dom_length (R415). -/
def P.domLength : Nat := 0x1400 * 256 + 0x03
/-- dom_data (R415). -/
def P.domData (i : Nat) : Nat := 0x1410 * 256 + 0x00 + i
/-- glody_enable (R428). -/
def P.glodyEnable : Nat := 0x1300 * 256 + 0x01
/-- glody_udp_port (R428). -/
def P.glodyUdpPort : Nat := 0x1300 * 256 + 0x02
/-- glody_plca_id (R428). -/
def P.glodyPlcaId : Nat := 0x1300 * 256 + 0x03
/-- glody_plca_coord (R428). -/
def P.glodyPlcaCoord : Nat := 0x1300 * 256 + 0x04
/-- glody_plca_count (R428). -/
def P.glodyPlcaCount : Nat := 0x1300 * 256 + 0x05
/-- glody_notify_hi (R428). -/
def P.glodyNotifyHi : Nat := 0x1300 * 256 + 0x06
/-- glody_notify_lo (R428). -/
def P.glodyNotifyLo : Nat := 0x1300 * 256 + 0x07
/-- glody_announce_s (R428). -/
def P.glodyAnnounceS : Nat := 0x1300 * 256 + 0x08
/-- glody_session_idle_ms (R428). -/
def P.glodySessionIdleMs : Nat := 0x1300 * 256 + 0x09
/-- glody_sessions (R428). -/
def P.glodySessions : Nat := 0x1300 * 256 + 0x0A
/-- glody_notice_seq (R428). -/
def P.glodyNoticeSeq : Nat := 0x1300 * 256 + 0x0B
/-- glody_notice_drop (R428). -/
def P.glodyNoticeDrop : Nat := 0x1300 * 256 + 0x0C
/-- glody_auth_fail (R428). -/
def P.glodyAuthFail : Nat := 0x1300 * 256 + 0x0D
/-- glody_replay_drop (R428). -/
def P.glodyReplayDrop : Nat := 0x1300 * 256 + 0x0E
/-- glody_read_open (R428). -/
def P.glodyReadOpen : Nat := 0x1300 * 256 + 0x0F
/-- glody_repeat_ms (R428). -/
def P.glodyRepeatMs : Nat := 0x1300 * 256 + 0x10
/-- glody_notice_store (R428). -/
def P.glodyNoticeStore : Nat := 0xB000 * 256 + 0x01
/-- qe_total (R430). -/
def P.qeTotal : Nat := 0x2500 * 256 + 0x01
/-- qe_free (R430). -/
def P.qeFree : Nat := 0x2500 * 256 + 0x02
/-- qe_started (R430). -/
def P.qeStarted : Nat := 0x2500 * 256 + 0x03
/-- qe_held (R430). -/
def P.qeHeld : Nat := 0x2500 * 256 + 0x04
/-- qe_audit_pass (R430). -/
def P.qeAuditPass : Nat := 0x2500 * 256 + 0x05
/-- qe_audit_fail (R430). -/
def P.qeAuditFail : Nat := 0x2500 * 256 + 0x06
/-- det_audit_pass (R430). -/
def P.detAuditPass : Nat := 0x2600 * 256 + 0x01
/-- det_audit_fail (R430). -/
def P.detAuditFail : Nat := 0x2600 * 256 + 0x02
/-- diag_map_dpa (R431). -/
def P.diagMapDpa : Nat := 0xC000 * 256 + 0x01
/-- diag_map_copy (R431). -/
def P.diagMapCopy : Nat := 0xC000 * 256 + 0x02
/-- diag_map_latch (R431). -/
def P.diagMapLatch : Nat := 0xC000 * 256 + 0x03
/-- diag_map_lo (R431). -/
def P.diagMapLo : Nat := 0xC000 * 256 + 0x04
/-- diag_map_hi (R431). -/
def P.diagMapHi : Nat := 0xC000 * 256 + 0x05
/-- diag_map_check (R431). -/
def P.diagMapCheck : Nat := 0xC000 * 256 + 0x06
/-- dma_status (R431). -/
def P.dmaStatus (n : Nat) : Nat := (0xC010 + n) * 256 + 0x01
/-- dma_fault_addr (R431). -/
def P.dmaFaultAddr (n : Nat) : Nat := (0xC010 + n) * 256 + 0x02
/-- own_word (R61). -/
def P.ownWord (e w : Nat) : Nat := (0x5100 + e / 16) * 256 + (e % 16) * 16 + w
/-- wp_word (R118). -/
def P.wpWord (e w : Nat) : Nat := (0x4600 + e / 32) * 256 + (e % 32) * 8 + w
/-- port_credit_audit_pass (R251). -/
def P.portCreditAuditPass : Nat := 0x3000 * 256 + 0x01
/-- port_credit_audit_fail (R251). -/
def P.portCreditAuditFail : Nat := 0x3000 * 256 + 0x02

end Sys2Proof.Machine
end

