-- ==== Sys2Proof/Machine/Sha.lean ====
section
/-! DEFINITION. SHA-512 and the verification of ECDSA signatures on P-521 (R402), by the standards that R402 names (FIPS 180-4,
FIPS 186-5), and the identity of the device (R406). -/
namespace Sys2Proof.Machine

/-! SHA-512. -/

/-- The round constants. -/
def shaK : List Nat := [
   0x428A2F98D728AE22, 0x7137449123EF65CD, 0xB5C0FBCFEC4D3B2F, 0xE9B5DBA58189DBBC, 0x3956C25BF348B538,
   0x59F111F1B605D019, 0x923F82A4AF194F9B, 0xAB1C5ED5DA6D8118, 0xD807AA98A3030242, 0x12835B0145706FBE,
   0x243185BE4EE4B28C, 0x550C7DC3D5FFB4E2, 0x72BE5D74F27B896F, 0x80DEB1FE3B1696B1, 0x9BDC06A725C71235,
   0xC19BF174CF692694, 0xE49B69C19EF14AD2, 0xEFBE4786384F25E3, 0x0FC19DC68B8CD5B5, 0x240CA1CC77AC9C65] ++ [
   0x2DE92C6F592B0275, 0x4A7484AA6EA6E483, 0x5CB0A9DCBD41FBD4, 0x76F988DA831153B5, 0x983E5152EE66DFAB,
   0xA831C66D2DB43210, 0xB00327C898FB213F, 0xBF597FC7BEEF0EE4, 0xC6E00BF33DA88FC2, 0xD5A79147930AA725,
   0x06CA6351E003826F, 0x142929670A0E6E70, 0x27B70A8546D22FFC, 0x2E1B21385C26C926, 0x4D2C6DFC5AC42AED,
   0x53380D139D95B3DF, 0x650A73548BAF63DE, 0x766A0ABB3C77B2A8, 0x81C2C92E47EDAEE6, 0x92722C851482353B] ++ [
   0xA2BFE8A14CF10364, 0xA81A664BBC423001, 0xC24B8B70D0F89791, 0xC76C51A30654BE30, 0xD192E819D6EF5218,
   0xD69906245565A910, 0xF40E35855771202A, 0x106AA07032BBD1B8, 0x19A4C116B8D2D0C8, 0x1E376C085141AB53,
   0x2748774CDF8EEB99, 0x34B0BCB5E19B48A8, 0x391C0CB3C5C95A63, 0x4ED8AA4AE3418ACB, 0x5B9CCA4F7763E373,
   0x682E6FF3D6B2B8A3, 0x748F82EE5DEFB2FC, 0x78A5636F43172F60, 0x84C87814A1F0AB72, 0x8CC702081A6439EC] ++ [
   0x90BEFFFA23631E28, 0xA4506CEBDE82BDE9, 0xBEF9A3F7B2C67915, 0xC67178F2E372532B, 0xCA273ECEEA26619C,
   0xD186B8C721C0C207, 0xEADA7DD6CDE0EB1E, 0xF57D4F7FEE6ED178, 0x06F067AA72176FBA, 0x0A637DC5A2C898A6,
   0x113F9804BEF90DAE, 0x1B710B35131C471B, 0x28DB77F523047D84, 0x32CAAB7B40C72493, 0x3C9EBE0A15C9BEBC,
   0x431D67C49C100D4C, 0x4CC5D4BECB3E42B6, 0x597F299CFC657E2A, 0x5FCB6FAB3AD6FAEC, 0x6C44198C4A475817]

/-- The initial hash value. -/
def shaInit : List Nat := [0x6A09E667F3BCC908, 0xBB67AE8584CAA73B, 0x3C6EF372FE94F82B, 0xA54FF53A5F1D36F1
  , 0x510E527FADE682D1, 0x9B05688C2B3E6C1F, 0x1F83D9ABFB41BD6B, 0x5BE0CD19137E2179]

/-- Rotate a 64-bit word right. -/
def ror64 (n x : Nat) : Nat := (x >>> n) ||| (x <<< (64 - n)) % 2 ^ 64

/-- The message schedule after its first 16 words, newest first. -/
def shaSched : Nat → List Nat → List Nat
  | 0, w => w
  | n + 1, w =>
    let x := w.getD 14 0
    let y := w.getD 1 0
    let s0 := ror64 1 x ^^^ ror64 8 x ^^^ (x >>> 7)
    let s1 := ror64 19 y ^^^ ror64 61 y ^^^ (y >>> 6)
    shaSched n ((w.getD 15 0 + s0 + w.getD 6 0 + s1) % 2 ^ 64 :: w)

/-- One round: the eight working variables, a constant and a word of the schedule. -/
def shaRound (v : List Nat) (kw : Nat × Nat) : List Nat :=
  match v with
  | [a, b, c, d, e, f, g, h] =>
    let t1 := h + (ror64 14 e ^^^ ror64 18 e ^^^ ror64 41 e) + ((e &&& f) ^^^ ((2 ^ 64 - 1 - e) &&& g)) + kw.1 + kw.2
    let t2 := (ror64 28 a ^^^ ror64 34 a ^^^ ror64 39 a) + ((a &&& b) ^^^ (a &&& c) ^^^ (b &&& c))
    [(t1 + t2) % 2 ^ 64, a, b, c, (d + t1) % 2 ^ 64, e, f, g]
  | _ => v

/-- One 128-byte block. -/
def shaBlock (h : List Nat) (blk : List Byte) : List Nat :=
  let w := (shaSched 64 ((chunks 8 16 blk).map (fun c => ofLe c.reverse)).reverse).reverse
  List.zipWith (fun x y => (x + y) % 2 ^ 64) h ((shaK.zip w).foldl shaRound h)

/-- SHA-512: 64 bytes. -/
def sha512 (m : List Byte) : List Byte :=
  let padded := m ++ [0x80#8] ++ zeros ((239 - m.length % 128) % 128) ++ beBytes 16 (8 * m.length)
  ((chunks 128 (padded.length / 128) padded).foldl shaBlock shaInit).flatMap (beBytes 8)

/-! P-521. -/

/-- The field prime, the order of the base point, the constant b, the base point. -/
def p521 : Nat := 2 ^ 521 - 1
def n521 : Nat := 2 ^ 521 - 0x5AE79787C40D069948033FEB708F65A2FC44A36477663B851449048E16EC79BF7
def b521 : Nat := 0x0051953EB9618E1C9A1F929A21A0B68540EEA2DA725B99B315F3B8B489918EF109E156193951EC7E937B1652C0BD3BB1BF073573DF883D2C34F1EF451FD46B503F00
def g521x : Nat := 0x00C6858E06B70404E9CD9E3ECB662395B4429C648139053FB521F828AF606B4D3DBAA14B5E77EFE75928FE1DC127A2FFA8DE3348B3C1856A429BF97E7E31C2E5BD66
def g521y : Nat := 0x011839296A789A3BC0045C8A5FB42C7D1BD998F54449579B446817AFBD17273E662C97EE72995EF42640C550B9013FAD0761353C7086A272C24088BE94769FD16650

/-- x^e modulo m, over the `n` low bits of e, the highest first. -/
def powMod (x e m : Nat) : Nat → Nat
  | 0 => 1
  | n + 1 =>
    let r := powMod x (e / 2) m n
    if e % 2 = 1 then r * r % m * x % m else r * r % m

/-- Subtraction in the field. -/
def fsub (a b : Nat) : Nat := (a + p521 - b % p521) % p521

/-- A point in Jacobian coordinates; z 0 is the point at infinity. -/
structure Pt where
  x : Nat
  y : Nat
  z : Nat
  deriving DecidableEq, Repr

/-- Twice a point. -/
def Pt.dbl (a : Pt) : Pt :=
  let y2 := a.y * a.y % p521
  let s := 4 * a.x * y2 % p521
  let z2 := a.z * a.z % p521
  let m := 3 * fsub a.x z2 * (a.x + z2) % p521
  let x := fsub (m * m) (2 * s)
  { x := x, y := fsub (m * fsub s x) (8 * y2 * y2), z := 2 * a.y * a.z % p521 }

/-- The sum of two points. -/
def Pt.add (a b : Pt) : Pt :=
  if a.z = 0 then b
  else if b.z = 0 then a
  else
    let z1 := a.z * a.z % p521
    let z2 := b.z * b.z % p521
    let u1 := a.x * z2 % p521
    let s1 := a.y * b.z * z2 % p521
    let h := fsub (b.x * z1) u1
    let r := fsub (b.y * a.z * z1) s1
    if h = 0 then (if r = 0 then a.dbl else { x := 1, y := 1, z := 0 })
    else
      let h2 := h * h % p521
      let h3 := h * h2 % p521
      let x := fsub (r * r) (h3 + 2 * u1 * h2)
      { x := x, y := fsub (r * fsub (u1 * h2) x) (s1 * h3), z := h * a.z * b.z % p521 }

/-- k times a point, over the `n` low bits of k. -/
def Pt.mul (a : Pt) (k : Nat) : Nat → Pt
  | 0 => { x := 1, y := 1, z := 0 }
  | n + 1 =>
    let r := (a.mul (k / 2) n).dbl
    if k % 2 = 1 then r.add a else r

/-- The signature r, s (66 B each, big-endian) holds for the message under the 133 B uncompressed public key (R402). -/
def ecdsaOk (key msg sig : List Byte) : Bool :=
  let num := fun (off : Nat) (l : List Byte) => ofLe (cut off 66 l).reverse
  let qx := num 1 key
  let qy := num 67 key
  let r := num 0 sig
  let t := num 66 sig
  let w := powMod t (n521 - 2) n521 521
  let e := ofLe (sha512 msg).reverse
  let g : Pt := { x := g521x, y := g521y, z := 1 }
  let q : Pt := { x := qx, y := qy, z := 1 }
  let v := (g.mul (e * w % n521) 521).add (q.mul (r * w % n521) 521)
  let i := powMod v.z (p521 - 2) p521 521
  key.length == 133 && key.headD 0 == 4#8 && sig.length == 132 && decide (qx < p521 ∧ qy < p521) &&
  (qy * qy) % p521 == (qx * qx % p521 * qx + (p521 - 3) * qx + b521) % p521 &&
  decide (1 ≤ r ∧ r < n521 ∧ 1 ≤ t ∧ t < n521) && v.z != 0 && (v.x * i % p521 * i) % p521 % n521 == r

/-! Identity (R406). -/

/-- dev_id as 8 bytes: the first of the SHA-512 of the DeviceID public key. -/
def devIdBytes : List Byte := (sha512 Config.deviceKey).take 8

/-- dev_id as a number, its first byte the highest. -/
def devId : Nat := ofLe devIdBytes.reverse

end Sys2Proof.Machine
end

