-- ==== Sys2Proof/Machine/Arith.lean ====
section
/-! DEFINITION. Number formats, the one rounder, residuals, vector operations and the superaccumulator (R124-R144). -/
namespace Sys2Proof.Machine

/-- A format of R125. -/
structure Fmt where
  bytes : Nat
  eBits : Nat
  mBits : Nat
  bias : Int
  emin : Int
  deriving DecidableEq, Repr

/-- The formats by out_format code (R125). -/
def fmtOf (code : Nat) : Fmt :=
  match code with
  | 0 => ⟨8, 11, 52, 1023, -1022⟩
  | 1 => ⟨4, 8, 23, 127, -126⟩
  | 2 => ⟨2, 8, 7, 127, -126⟩
  | 3 => ⟨2, 5, 10, 15, -14⟩
  | 4 => ⟨1, 4, 3, 7, -6⟩
  | _ => ⟨1, 5, 2, 15, -14⟩

def fp64 : Fmt := fmtOf 0
def fp32 : Fmt := fmtOf 1
def bf16 : Fmt := fmtOf 2

/-- E4M3 has no infinity and one NaN fraction (R125). -/
def Fmt.isE4M3 (f : Fmt) : Bool := f.eBits == 4

def Fmt.signBit (f : Fmt) : Nat := 2 ^ (8 * f.bytes - 1)

/-- The pattern of the largest finite magnitude (R125). -/
def Fmt.maxFinite (f : Fmt) : Nat :=
  if f.isE4M3 then 0x7E else (2 ^ f.eBits - 2) * 2 ^ f.mBits + (2 ^ f.mBits - 1)

/-- Infinity's magnitude pattern; E4M3 has its NaN there (R132, R139). -/
def Fmt.infPat (f : Fmt) : Nat := if f.isE4M3 then 0x7F else (2 ^ f.eBits - 1) * 2 ^ f.mBits

/-- The canonical NaN of R139; E5M2 and E4M3 take 0x7F. -/
def Fmt.nanPat (f : Fmt) : Nat :=
  if f.bytes = 1 then 0x7F else (2 ^ f.eBits - 1) * 2 ^ f.mBits + 2 ^ (f.mBits - 1)

/-- A floating-point value: NaN, an infinity, or sign, integer significand and exponent of its last place. -/
inductive FVal where
  | nan
  | inf (s : Bool)
  | fin (s : Bool) (m : Nat) (e : Int)
  deriving DecidableEq, Repr

/-- The value of a pattern (R125). -/
def Fmt.value (f : Fmt) (x : Nat) : FVal :=
  let s := decide (f.signBit ≤ x % (2 * f.signBit))
  let ex := fld x (f.mBits + f.eBits - 1) f.mBits
  let fr := x % 2 ^ f.mBits
  let last : Int := f.emin - f.mBits
  if ex = 2 ^ f.eBits - 1 ∧ (¬ f.isE4M3 ∨ fr = 7) then
    if f.isE4M3 ∨ fr ≠ 0 then .nan else .inf s
  else if ex = 0 then .fin s fr last
  else .fin s (2 ^ f.mBits + fr) (last + (ex - 1))

def Fmt.withSign (f : Fmt) (s : Bool) (mag : Nat) : Nat := if s then f.signBit + mag else mag

/-- A rounding that overflows (R132): policy false saturates, true gives infinity. -/
def Fmt.overflow (f : Fmt) (pol s : Bool) : Nat := f.withSign s (if pol then f.infPat else f.maxFinite)

/-- m × 2^sh to the nearest integer, ties to even. -/
def rne (m : Nat) (sh : Int) : Nat :=
  if 0 ≤ sh then m * 2 ^ sh.toNat
  else
    let k := (-sh).toNat
    let q := m / 2 ^ k
    let r := m % 2 ^ k
    if 2 ^ k < 2 * r ∨ (2 * r = 2 ^ k ∧ q % 2 = 1) then q + 1 else q

/-- The single rounding of ±a × 2^e, a > 0 (R130); the Bool says that the overflow branch delivered it. -/
def Fmt.round (f : Fmt) (pol s : Bool) (a : Nat) (e : Int) : Nat × Bool :=
  let lead : Int := bitlen a - 1 + e
  let qe : Int := max lead f.emin - f.mBits
  let m := rne a (e - qe)
  let (m, qe) := if m = 2 ^ (f.mBits + 1) then (m / 2, qe + 1) else (m, qe)
  let mag := if m < 2 ^ f.mBits then m
    else (qe + f.mBits + f.bias).toNat * 2 ^ f.mBits + (m - 2 ^ f.mBits)
  if f.maxFinite < mag then (f.overflow pol s, true) else (f.withSign s mag, false)

/-- The rounding of the exact value X × 2^e; exactly zero gives +0 (R130, R131). -/
def Fmt.roundInt (f : Fmt) (pol : Bool) (x : Int) (e : Int) : Nat × Bool :=
  if x = 0 then (0, false) else f.round pol (decide (x < 0)) x.natAbs e

/-- A value delivered in a format, overflow to infinity, NaN canonical (R139). An infinity in E4M3, which has none, gives the NaN with the
infinity's sign. DESIGN CHOICE (log 119). -/
def Fmt.pack (f : Fmt) : FVal → Nat
  | .nan => f.nanPat
  | .inf s => f.withSign s f.infPat
  | .fin s m e => if m = 0 then f.withSign s 0 else (f.round true s m e).1

/-- Conversion between formats (R139). -/
def fconv (src dst : Fmt) (x : Nat) : Nat := dst.pack (src.value x)

/-- The ordered-integer map (R135). -/
def ordOf (wb x : Nat) : Int :=
  let s := signed wb x
  if 0 ≤ s then s else signed wb ((x % 2 ^ wb) ^^^ (2 ^ (wb - 1) - 1))

/-- The inverse of the ordered-integer map, after wrapping modulo 2^wb (R135). -/
def unordOf (wb : Nat) (o : Int) : Nat :=
  let u := unsigned wb o
  if u < 2 ^ (wb - 1) then u else u ^^^ (2 ^ (wb - 1) - 1)

/-- The exact product sum S over the first `r` columns (R126). -/
def dotSum (u v : List Int) (r : Nat) : Int := ((List.zipWith (· * ·) u v).take r).sum

/-- The accumulator check of R128: bits [47:40] all equal bit 47. -/
def accCheckOk (s : Int) : Bool := decide (-(2 : Int) ^ 40 ≤ s ∧ s < 2 ^ 40)

/-- Align two integers to the lower exponent and add. -/
def addExact (x : Int) (e : Int) (y : Int) (g : Int) : Int × Int :=
  let m := min e g
  (x * 2 ^ (e - m).toNat + y * 2 ^ (g - m).toNat, m)

/-- The delivered element of R134: S, its exponent, tile_code, tile_eps_exp and the residual pattern. -/
def deliver (f : Fmt) (pol : Bool) (s e : Int) (code : Nat) (eps : Int) (d : Nat) : Nat × Bool :=
  let wb := 8 * f.bytes
  if code = 0 then (unordOf wb (ordOf wb (f.roundInt pol s e).1 + signed wb d), false)
  else if code = 1 then
    let (x, g) := addExact s e (signed wb d) eps
    f.roundInt pol x g
  else f.roundInt pol s e

/-- The EXACT residual of an original pattern (R135). -/
def exactResidual (f : Fmt) (pol : Bool) (s e : Int) (x : Nat) : Nat :=
  let wb := 8 * f.bytes
  unsigned wb (ordOf wb x - ordOf wb (f.roundInt pol s e).1)

/-- An exact quotient by 2^eps to the nearest integer, ties to even, sign kept. -/
def rneInt (x : Int) (sh : Int) : Int := if x < 0 then -(rne x.natAbs sh : Int) else rne x.natAbs sh

/-- The BOUNDED residual of a finite original; none when it is not finite or does not fit (R136). -/
def boundedResidual (f : Fmt) (s e : Int) (eps : Int) (x : Nat) : Option Nat :=
  let wb := 8 * f.bytes
  match f.value x with
  | .fin sg m g =>
    let (d, h) := addExact (if sg then -(m : Int) else m) g (-s) e
    let n := rneInt d (h - eps)
    if -(2 : Int) ^ (wb - 1) ≤ n ∧ n < 2 ^ (wb - 1) then some (unsigned wb n) else none
  | _ => none

/-- |z − x| ≤ 2^eps for two finite patterns (R137, R138). -/
def withinEps (f : Fmt) (eps : Int) (z x : Nat) : Bool :=
  match f.value z, f.value x with
  | .fin a m e, .fin b n g =>
    let (d, h) := addExact (if a then -(m : Int) else m) e (if b then (n : Int) else -n) g
    let (t, _) := addExact d.natAbs h (-1) eps
    decide (t ≤ 0)
  | _, _ => false

/-- Sum of two finite values with IEEE zero signs. -/
def faddV : FVal → FVal → FVal
  | .nan, _ => .nan
  | _, .nan => .nan
  | .inf s, .inf t => if s = t then .inf s else .nan
  | .inf s, _ => .inf s
  | _, .inf t => .inf t
  | .fin s m e, .fin t n g =>
    let (x, h) := addExact (if s then -(m : Int) else m) e (if t then -(n : Int) else n) g
    if x = 0 then .fin (s && t) 0 h else .fin (decide (x < 0)) x.natAbs h

def fmulV : FVal → FVal → FVal
  | .nan, _ => .nan
  | _, .nan => .nan
  | .inf s, .inf t => .inf (s != t)
  | .inf s, .fin t n _ => if n = 0 then .nan else .inf (s != t)
  | .fin s m _, .inf t => if m = 0 then .nan else .inf (s != t)
  | .fin s m e, .fin t n g => .fin (s != t) (m * n) (e + g)

def fnegV : FVal → FVal
  | .nan => .nan
  | .inf s => .inf (!s)
  | .fin s m e => .fin (!s) m e

/-- Quotient with 128 bits below the leading one and a sticky bit, so that one rounding of it is correct. -/
def fdivV : FVal → FVal → FVal
  | .nan, _ => .nan
  | _, .nan => .nan
  | .inf _, .inf _ => .nan
  | .inf s, .fin t _ _ => .inf (s != t)
  | .fin s _ e, .inf t => .fin (s != t) 0 e
  | .fin s m e, .fin t n g =>
    if n = 0 then (if m = 0 then .nan else .inf (s != t))
    else
      let k := 128 + bitlen n
      let q := (m * 2 ^ k) / n
      let st := if (m * 2 ^ k) % n = 0 then 0 else 1
      if m = 0 then .fin (s != t) 0 0 else .fin (s != t) (2 * q + st) (e - g - k - 1)

/-- Integer square root, one bit a step from bit `n`. -/
def isqrtN : Nat → Nat → Nat → Nat
  | 0, _, r => r
  | n + 1, x, r => isqrtN n x (if (r + 2 ^ n) * (r + 2 ^ n) ≤ x then r + 2 ^ n else r)

def isqrt (x : Nat) : Nat := isqrtN (bitlen x / 2 + 1) x 0

def fsqrtV : FVal → FVal
  | .nan => .nan
  | .inf s => if s then .nan else .inf false
  | .fin s m e =>
    if m = 0 then .fin s 0 e else if s then .nan else
      let k : Nat := 256 + (if e % 2 = 0 then 0 else 1)
      let x := m * 2 ^ k
      let r := isqrt x
      .fin false (2 * r + if r * r = x then 0 else 1) ((e - (k : Int)) / 2 - 1)

/-- Correctly rounded vector operations (R139). -/
def Fmt.add (f : Fmt) (a b : Nat) : Nat := f.pack (faddV (f.value a) (f.value b))
def Fmt.mul (f : Fmt) (a b : Nat) : Nat := f.pack (fmulV (f.value a) (f.value b))
def Fmt.sub (f : Fmt) (a b : Nat) : Nat := f.pack (faddV (f.value a) (fnegV (f.value b)))
def Fmt.fma (f : Fmt) (a b c : Nat) : Nat := f.pack (faddV (fmulV (f.value a) (f.value b)) (f.value c))
def Fmt.div (f : Fmt) (a b : Nat) : Nat := f.pack (fdivV (f.value a) (f.value b))
def Fmt.sqrt (f : Fmt) (a : Nat) : Nat := f.pack (fsqrtV (f.value a))

/-- The BF16 fused multiply-add into FP32 (R139). -/
def bf16Fma (a b c : Nat) : Nat := fp32.pack (faddV (fmulV (bf16.value a) (bf16.value b)) (fp32.value c))

/-- An element's superaccumulator (R140). -/
structure SupAcc where
  nan : Bool
  posInf : Bool
  negInf : Bool
  posOver : Bool
  negOver : Bool
  inexact : Bool
  notNegZero : Bool
  count : Nat
  acc : Int
  deriving DecidableEq, Repr, Inhabited

/-- One contribution (R141): input format, anchor a, pattern. -/
def SupAcc.add (f : Fmt) (a : Int) (x : Nat) (s : SupAcc) : SupAcc :=
  let s := { s with count := s.count + 1 }
  match f.value x with
  | .nan => { s with nan := true, notNegZero := true }
  | .inf false => { s with posInf := true, notNegZero := true }
  | .inf true => { s with negInf := true, notNegZero := true }
  | .fin sg m e =>
    let s := { s with notNegZero := s.notNegZero || !(sg && m == 0) }
    let r := rne m (e - a)
    let inex := decide (e < a) && decide (m % 2 ^ (a - e).toNat ≠ 0)
    let s := { s with inexact := s.inexact || inex }
    if f.bytes = 8 ∧ 2 ^ 277 ≤ r then
      if sg then { s with negOver := true } else { s with posOver := true }
    else { s with acc := signed 294 (unsigned 294 (s.acc + if sg then -(r : Int) else r)) }

/-- The final rounding (R143): the pattern, and whether an over or overflow row delivered it. -/
def SupAcc.final (f : Fmt) (pol : Bool) (a : Int) (s : SupAcc) : Nat × Bool :=
  if s.nan || (s.posInf && s.negInf) || (s.posOver && s.negOver) then (f.nanPat, false)
  else if s.posInf || s.negInf then (f.withSign s.negInf f.infPat, false)
  else if s.posOver || s.negOver then (f.overflow pol s.negOver, true)
  else if s.acc = 0 then (f.withSign (decide (1 ≤ s.count) && !s.notNegZero) 0, false)
  else f.roundInt pol s.acc a

/-- The 40 B of a superaccumulator (R140). -/
def SupAcc.bytes (s : SupAcc) : List Byte :=
  let b := fun (x : Bool) (i : Nat) => if x then 2 ^ i else 0
  leBytes 40 (b s.nan 319 + b s.posInf 318 + b s.negInf 317 + b s.posOver 316 + b s.negOver 315 + b s.inexact 314
    + b s.notNegZero 313 + (s.count % 2 ^ 17) * 2 ^ 296 + unsigned 294 s.acc)

end Sys2Proof.Machine
end

