-- ==== Sys2Proof/Machine/State.lean ====
section
/-! DEFINITION. The state: everything the spec gives the machine, as plain data, and the state after reset. -/
namespace Sys2Proof.Machine

/-- A Glody datagram waiting in the transmit queue (R417, R423). -/
structure Datagram where
  /-- 3 bit | 19 R423 | 0 | priority: 0 recovery notice, 1 record, 2 reply, 3 event notice, 4 announcement. -/
  prio : Nat
  /-- 8 bit | 19 R417 | 0 | type of R418. -/
  type : Nat
  /-- 8 bit | 19 R417 | 0 | operation or notice schema. -/
  op : Nat
  /-- 8 bit | 19 R417 | 0 | [0] protected, [1] signed, [2] repeat. -/
  flags : Nat
  /-- 8 bit | 19 R422 | 0 | status. -/
  status : Nat
  /-- 32 bit | 19 R417 | 0 | SPDM session. -/
  session : Nat
  /-- 32 bit | 19 R417 | 0 | sequence. -/
  seq : Nat
  /-- up to 1,420 B | 19 R417 | none | payload. -/
  payload : List Byte
  /-- 160 bit | 19 R416 | 0 | 0: the notice address; otherwise 1 + the source of the request it answers. -/
  dest : Nat := 0
  deriving DecidableEq, Repr, Inhabited

/-- A Glody session (R419). -/
structure GSession where
  /-- 32 bit | 19 R419 | 0 | SPDM session it rests on. -/
  id : Nat
  /-- 32 bit | 19 R419 | 0 | last accepted sequence number. -/
  last : Nat
  /-- a datagram | 19 R419 | none | the cached reply. -/
  reply : Datagram
  /-- tick | 19 R419 | 0 | when the last request arrived. -/
  used : Nat
  deriving DecidableEq, Repr, Inhabited

/-- The loader's transfer (R427). -/
structure Loader where
  /-- 1 bit | 19 R427 | false | a transfer is held. -/
  busy : Bool
  /-- 160 bit | 19 R427 | 0 | source address and port of its BEGIN. -/
  source : Nat
  /-- 2 bit | 19 R427 | 0 | object 1-3. -/
  object : Nat
  /-- 32 bit | 19 R427 | 0 | length announced. -/
  length : Nat
  /-- 32 bit | 19 R427 | 0 | next expected offset. -/
  next : Nat
  /-- 32 bit | 19 R427 | 0 | previous offset programmed + 1. -/
  prev : Nat
  /-- tick | 19 R427 | 0 | when the last datagram arrived. -/
  used : Nat
  deriving DecidableEq, Repr, Inhabited

/-- The management network (R416-R428, R441). -/
structure Glody where
  /-- 64 datagrams | 19 R423 | empty | transmit queue, oldest first. -/
  txq : List Datagram
  /-- notices | 19 R423 | empty | notices to send again: due tick and datagram. -/
  again : List (Nat × Datagram)
  /-- 256 x 1,536 B | 19 R423 | empty | glody_notice_store, by slot. -/
  store : Tab (List Byte)
  /-- 4 | 19 R419 | none | sessions. -/
  sessions : List GSession
  /-- 1 | 19 R427 | none | loader transfer. -/
  loader : Loader
  /-- 8 bit | 19 R426 | none | endpoint ID. -/
  eid : Option Nat
  /-- tick, 4 bit | 19 R421 | 0 | start of the second and unprotected error replies sent in it. -/
  errStart : Nat
  errSent : Nat
  /-- 1 bit | 19 R416 | false | the coordinator's beacon is present. -/
  beacon : Bool
  /-- tick | 19 R425 | 0 | when the last ANNOUNCE was sent. -/
  announced : Nat
  /-- 7 bit | 20 R441 | none | dynamic I3C address. -/
  i3cAddr : Option Nat
  /-- 3 bit | 20 R440 | DESIGN CHOICE 0 (log 3) | slot number of the sense lines. -/
  slot : Nat
  /-- 8,192 x 512 B | 15 R364 | empty | integ_sig_store, by sequence modulo 8,192. -/
  sigStore : Tab (List Byte)
  /-- 64 | 15 R364 | empty | records of action 5 or 6 kept in the flash, newest first. -/
  flashRecs : List (List Byte)
  /-- records | 10 R265 | none | HID + 1 named by each stored record, by sequence modulo 8,192. -/
  sigHid : Tab Nat
  deriving DecidableEq, Repr, Inhabited

/-- What leaves the device: the model's own trace of its outputs, newest first in State.out. A `port` is link * 16 + LD (R63). -/
inductive Output where
  /-- A CXL.mem read's data, or poison, with its DevLoad (R30, R31, R260). -/
  | memData (port dpa load : Nat) (poison : Bool) (data : List Byte)
  /-- A CXL.mem write's completion with its DevLoad (R33, R260). -/
  | memDone (port dpa load : Nat)
  /-- A back-invalidation of a line (R210). -/
  | biSnp (port line : Nat) (inv : Bool)
  /-- The acknowledgment of a BIConflict (R210). -/
  | biAck (port line : Nat)
  /-- An answer of a logical device's function: a configuration request (0), a mailbox command (1), a DOE read (2), a read of a doorbell slot (3)
  (R224, R254, R264). -/
  | ldReply (port kind status : Nat) (payload : List Byte)
  /-- An answer of the service function: a configuration request (0), a BAR0 read (1), an MCTP packet (2), a read of a
  doorbell slot (3) (R224). -/
  | svcReply (kind status : Nat) (payload : List Byte)
  /-- A message on the service link: 0 PM_PME, 1 LTR, 2 ERR_COR, 3 ERR_NONFATAL, 4 ERR_FATAL (R285, R288, R290). -/
  | svcMsg (kind value : Nat)
  /-- An MSI-X message: of the service function (`none`) or of an LD (R238), with its vector's address + 2^64 * data. -/
  | msix (port : Option Nat) (vector msg : Nat)
  /-- A posted write to host memory: path 0 the service link, otherwise port + 1; `bad` lists its poisoned 64-byte lines, counted
  from the first (R220, R229, R276). `cls` is the class its command's queue gives it (R237); `attr` its attributes: 1 Relaxed Ordering,
  2 No Snoop (R278). -/
  | hostWrite (path addr : Nat) (data : List Byte) (bad : List Nat) (cls attr : Nat)
  /-- A read of host memory (R220, R237, R276, R278). -/
  | hostRead (path tag addr len cls attr : Nat)
  /-- A datagram on the management network with its signature where it is signed (R417). -/
  | glody (dest : Nat) (d : Datagram) (sig : List Byte)
  /-- An SPDM or MCTP answer (R407, R426). -/
  | spdm (session code : Nat) (payload : List Byte)
  /-- The PLCA BEACON, a neighbor advertisement or another frame below the datagrams (R416). -/
  | frame (kind value : Nat)
  /-- An I3C answer (R441). -/
  | i3c (payload : List Byte)
  deriving DecidableEq, Repr

/-- A CXL.mem request held before it is served: at its tollgate (R297), or at the home hub while a region, stack or journal is not ready (R320, R370, R379, R394). -/
structure HeldReq where
  /-- 9 bit | 12 R297 | 0 | link * 16 + LD. -/
  port : Nat
  /-- 42 bit | 12 R297 | 0 | DPA of the line. -/
  dpa : Nat
  /-- 1 bit | 12 R297 | false | a write. -/
  write : Bool
  /-- 512 bit, 64 bit | 10 R255 | none | data and byte enables of a write. -/
  data : List Byte
  mask : Nat
  /-- 1 bit | 10 R255 | false | the data arrived poisoned. -/
  bad : Bool
  /-- 1 bit | 01 R32 | false | the data met a parity mismatch at a boundary on its way in. -/
  parity : Bool := false
  /-- 2 bit | 08 R210 | 0 | coherence asked for: 0 none, 1 S, 2 E. -/
  want : Nat
  /-- 1 bit | 10 R260 | false | its tollgate held it. -/
  gated : Bool
  /-- tick | 13 R309 | 0 | when it arrived. -/
  since : Nat
  /-- 1 bit | 13 R309, R314 | false | promoted. -/
  promoted : Bool
  /-- 1 bit | 10 R264 | false | a mailbox command's write: no completion at the port. -/
  quiet : Bool := false
  /-- 1 bit | 02 R54 | false | accepted at its port before the withdraw of its window was written. -/
  early : Bool := false
  deriving DecidableEq, Repr, Inhabited

/-- A frame's record (R146): state code, live-sector mask of its 16 sectors, partition + 1 (0: none), and whether it holds a waypoint copy, which counts in no partition's frames (R153). -/
structure FrameRec where
  /-- 3 bit | 06 R146 | 0 FREE (R328) | state code 0-4. -/
  st : Nat
  /-- 16 bit | 06 R146 | 0 (R328) | live sectors; their number is the table's [7:3]. -/
  mask : Nat
  /-- 7 bit | 02 R74, 06 R151 | 0 none | partition + 1. -/
  part : Nat
  /-- 1 bit | 06 R153 | false | a T1 waypoint copy. -/
  copy : Bool
  deriving DecidableEq, Repr, Inhabited

/-- A write as the port carried it, for what its discard reports (R157). -/
structure WriteSrc where
  /-- 10 bit | 10 R256 | 0 | link * 16 + LD. -/
  port : Nat
  /-- 8 bit | 10 R256 | 0 | HID. -/
  hid : Nat
  /-- 1 bit | 06 R157 | false | accepted after the partition's fence took effect. -/
  fenced : Bool
  deriving DecidableEq, Repr, Inhabited

/-- A gather buffer: the lines of one block accepted at the home hub and not yet stored (R33). -/
structure Gather where
  /-- tick | 01 R33 | 0 | when the first line was accepted. -/
  first : Nat
  /-- 64 x 512 bit | 01 R33 | none | the lines, by line number. -/
  lines : Tab (List Byte)
  /-- 64 x 64 bit | 14 R325 | 0 whole line | byte enables of lines written in part, by line number. -/
  masks : Tab Nat
  /-- 64 bit | 10 R255 | none | line numbers that arrived poisoned. -/
  bad : List Nat
  /-- 8 bit | 01 R33 | 0 | HID of the first line. -/
  hid : Nat
  /-- 10 bit | 02 R51 | 0 | the window written through. -/
  win : Nat
  /-- 9 bit | 10 R256 | 0 | link * 16 + LD of the first line. -/
  port : Nat
  /-- 1 bit | 06 R157 | false | a line was accepted after the partition's fence took effect. -/
  fenced : Bool
  /-- 64 | 06 R157 | none | the writes that carried the lines, oldest first. -/
  src : List WriteSrc := []
  deriving DecidableEq, Repr, Inhabited

/-- A newly encoded block waiting for the checker (R90), or a block written to a detour slot waiting for the flushing read (R164). -/
structure PackJob where
  /-- 4,096 B | 03 R90 | none | the original held in the gather buffer. -/
  orig : List Byte
  /-- 4 bit | 03 R70 | 0 | codec tried. -/
  codec : Nat
  /-- up to 3,840 B | 03 R75 | none | the encoder's result. -/
  coded : List Byte
  /-- 3 bit | 03 R68 | 0 | state to commit: PACKED or FACTOR. -/
  state : Nat
  /-- 10 bit | 15 R349 | 0 | encoding lane: region * 256 + block * 16 + lane. -/
  lane : Nat
  /-- 10 bit | 02 R51 | 0 | the window written through. -/
  win : Nat
  /-- 1 bit | 06 R157 | false | a line was accepted after the partition's fence took effect. -/
  fenced : Bool
  /-- 10 bit | 10 R256 | 512 none | link * 16 + LD of the first line, or 512. -/
  port : Nat
  /-- 8 bit | 01 R33 | 0 | HID of the first line. -/
  hid : Nat
  /-- 64 | 06 R157 | none | the writes that carried the lines, oldest first. -/
  src : List WriteSrc := []
  /-- 27 bit | 06 R164 | 0 none | the detour slot + 1 whose flushing read it waits for. -/
  slot : Nat := 0
  deriving DecidableEq, Repr, Inhabited

/-- A read of a detour slot under way over the service link (R165). -/
structure DetRead where
  /-- 30 bit | 06 R165 | 0 | block. -/
  blk : Nat
  /-- 42 bit | 06 R165 | 0 | DPA of the line asked for. -/
  dpa : Nat
  /-- 9 bit | 06 R165 | 0 | link * 16 + LD. -/
  port : Nat
  /-- 8 bit | 06 R165 | 0 | HID. -/
  hid : Nat
  /-- 1 bit | 10 R260 | false | its tollgate held it. -/
  gated : Bool := false
  /-- tick | 10 R267 | 0 | when it arrived. -/
  since : Nat := 0
  /-- 1 bit | 06 R164 | false | the flushing read of the block's slot. -/
  flush : Bool := false
  deriving DecidableEq, Repr, Inhabited

/-- Stored data: block map, frames, HBM contents, staging (R25-R35, R66-R91, R146-R171, R324-R329). -/
structure Mem where
  /-- 2^30 x 128 bit | 03 R66 | 0 UNWRITTEN (R328) | block map, primary copy. -/
  mapPri : Tab MapWord
  /-- 2^30 x 128 bit | 14 R329 | 0 UNWRITTEN (R328) | block map, mirror copy. -/
  mapMir : Tab MapWord
  /-- 2^30 x 36 bit | 02 R47 | none | under MIRROR, sector address of the partner copy + 1, by the home copy's sector address. -/
  partner : Tab Nat
  /-- 1,152 GiB | 01 R38, 14 R328 | 0 (R328) | contents of the data frames as stored, enciphered where the partition encrypts; address = stack * 72 GiB + sector * 256 + byte. -/
  hbm : List Host.Cell
  /-- 1 bit a line | 14 R324 | unmarked | lines stored with the poison mark, by HBM byte address div 64. -/
  marks : Tab Bool
  /-- 301,989,888 x 8 bit | 06 R146 | FREE | frame state table, by stack * 2^25 + frame. -/
  frames : Tab FrameRec
  /-- 64 x 16 x 25 bit | 06 R151 | none | open frame + 1 of partition n on stack s, by n * 16 + s. -/
  openFrame : Tab Nat
  /-- 2^30 x 128 bit | 02 R51, R55 | 0 UNWRITTEN | entries of the storage that a range's committed windows do not show: that of its
  explicit-T1 windows while others stand there, and of the others while an explicit-T1 window stands there. -/
  aside : Tab MapWord
  /-- 2^21 x 1 bit | 02 R51 | false | the 2 MiB extent's block map holds the storage of its explicit-T1 windows. -/
  tierOne : Tab Bool
  /-- 64 x 4 x 2 bit | 02 R46 | 0 | rotation pointer of partition n in region q, by n * 4 + q. -/
  rot : Tab Nat
  /-- 64 x 4 | 06 R153 | 0 | frames USED or SHADOW held by partition n in region q, by n * 4 + q. -/
  held : Tab Nat
  /-- blocks | 06 R161 | none | blocks promoted to T1: the frames counted against cap_promo_reserve, by block. -/
  promoted : Tab Nat
  /-- 2^26 x 8 bit | 06 R160 | 0 | parcel counters. -/
  parcels : Tab Nat
  /-- staging | 02 R51, R55 | 0 (R55) | bytes of explicit-T0 windows, by DPA. -/
  t0 : List Host.Cell
  /-- staging | 14 R327 | unmarked | poisoned lines of explicit-T0 windows, by DPA div 64. -/
  t0marks : Tab Bool
  /-- staging | 01 R33 | none | gather buffers, by block + 2^30 * owner; owner 0 the block map, h + 1 the open version of HID h. -/
  gather : Tab Gather
  /-- 36 x 8 | 03 R90 | none | blocks waiting for the checker, by block + 2^30 * owner. -/
  packJobs : Tab PackJob
  /-- staging | 06 R162 | none | blocks with a T0 cache copy. -/
  t0cache : Tab Bool
  /-- 4 x 64 | 06 R161 | empty | promotion candidates, oldest first, by region. -/
  promoQ : Tab (List Nat)
  /-- 4,096 B each | 01 R35, 06 R161 | none | recompressions under way: the FLAT forms of a block that the mover read, each with its entry. -/
  mover : Tab (List (MapWord × List Byte))
  /-- count | 01 R35 | 0 | mover transfers that a write abandoned; the spec names no register for the count. -/
  abandoned : Nat
  /-- 2^26 x 62 bit | 06 R164 | none | detour slot directory: 2^62 + block number * 2^32 + CRC-32 for a slot that holds a block, by slot. -/
  slotDir : Tab Nat
  /-- service link | 06 R165 | none | detour reads under way, oldest first. -/
  detReads : List DetRead
  deriving DecidableEq, Repr, Inhabited

/-- A partition beyond its parameters (R44, R153). -/
structure PartRec where
  /-- 1 bit | 02 R44 | false | committed and not released. -/
  inForce : Bool
  /-- 1 bit | 02 R44 | false | released, its content being given up. -/
  releasing : Bool
  /-- 42 bit | 02 R44 | 0 | base and size of the range being given up. -/
  relBase : Nat
  relSize : Nat
  deriving DecidableEq, Repr, Inhabited

/-- Ownership and windows beyond their parameters (R54, R62). -/
structure Own where
  /-- 4,096 x 5 x 64 bit | 02 R62 | DESIGN CHOICE 0 (log 3) | shadow copies of words 2-6, by entry * 8 + word. -/
  shadow : Tab Nat
  /-- 64 | 02 R44 | not in force | partitions. -/
  parts : Tab PartRec
  /-- windows | 02 R54 | none | windows whose withdraw waits for requests accepted before it. -/
  leaving : List Nat
  /-- 256 x tick | 02 R56 | 0 | tick + 1 of the last notice of a HID. -/
  notice : Tab Nat
  deriving DecidableEq, Repr, Inhabited

/-- A read waiting in a factor pipeline (R114). -/
structure PipeRead where
  /-- 30 bit | 04 R114 | 0 | tensor-view block. -/
  blk : Nat
  /-- 42 bit | 04 R114 | 0 | DPA of the line asked for. -/
  dpa : Nat
  /-- 9 bit | 04 R114 | 0 | link * 16 + LD. -/
  port : Nat
  /-- 8 bit | 04 R114 | 0 | HID. -/
  hid : Nat
  /-- 34 bit | 08 R202, R207 | 0 | the view it was accepted under: 0 the block map, 1 its HID's open version, 2 + v version v. -/
  view : Nat := 0
  /-- 1 bit | 10 R260 | false | its tollgate held it. -/
  gated : Bool := false
  /-- tick | 10 R267 | 0 | when it arrived. -/
  since : Nat := 0
  deriving DecidableEq, Repr, Inhabited

/-- A write to a component area waiting for invalidation (R108). -/
structure CompWrite where
  /-- 42 bit | 04 R108 | 0 | DPA of the line. -/
  dpa : Nat
  /-- 512 bit | 04 R108 | none | the line. -/
  data : List Byte
  /-- 64 bit | 14 R325 | 0 whole line | byte enables. -/
  mask : Nat
  /-- 1 bit | 10 R255 | false | arrived poisoned. -/
  bad : Bool
  /-- 9 bit | 04 R108 | 0 | link * 16 + LD. -/
  port : Nat
  /-- 8 bit | 04 R108 | 0 | HID. -/
  hid : Nat
  /-- tick | 10 R267 | 0 | when it arrived. -/
  since : Nat
  /-- 1 bit | 10 R260 | false | its tollgate held it. -/
  gated : Bool := false
  deriving DecidableEq, Repr, Inhabited

/-- A FACTOR under way on a descriptor (R109-R113). -/
structure FactorRun where
  /-- 1 bit | 04 R109 | false | running. -/
  on : Bool
  /-- 1 bit | 04 R109 | false | mode RESIDUAL_ONLY. -/
  resOnly : Bool
  /-- 28 bit | 04 R113 | 0 | next tile to switch. -/
  next : Nat
  /-- 31 bit | 09 R229 | 0 | the command: queue * 65,536 + ring index. -/
  cmd : Nat
  /-- blocks | 04 R113 | none | tensor-view blocks written since FACTOR read them. -/
  dirty : Tab Bool
  /-- 28 bit | 09 R233 | 0 | tiles switched. -/
  switched : Nat
  /-- work tiles | 04 R110 | 0 | work tiles not yet retired. -/
  tiles : Nat
  /-- work tiles | 04 R110 | 0 | next work tile to dispatch. -/
  disp : Nat
  deriving DecidableEq, Repr, Inhabited

/-- A reconstructed tensor-view block (R114). -/
structure Built where
  /-- 4,096 B | 04 R114 | none | its elements. -/
  data : List Byte
  /-- 64 bit | 04 R122 | none | the lines that read poison. -/
  bad : List Nat
  /-- 64 x 10 bit | 05 R133 | none | elements of each line from the overflow branch. -/
  ovf : List Nat
  deriving DecidableEq, Repr, Inhabited

/-- The factor units (R92-R123). -/
structure Fac where
  /-- 36 x 32 | 04 R114 | empty | pipeline queues, by region * 16 + block. -/
  pipes : Tab (List PipeRead)
  /-- hub | 04 R114 | empty | requests the hubs hold while a pipeline queue is full. -/
  held : List PipeRead
  /-- 36 x 64 blocks | 04 R114 | empty | reconstruction buffers: tensor-view blocks, newest first, by region * 16 + block. -/
  recon : Tab (List (Nat × Built))
  /-- 36 x fac_panel_cache | 04 R114 | empty | component blocks a panel cache holds, used most recently first, by region * 16 + block. -/
  panels : Tab (List Nat)
  /-- 36 x 3 x 5 bit | 04 R115 | 16 free | credits in use of product, residual and output buffers, by (region * 16 + block) * 4 + buffer. -/
  credits : Tab Nat
  /-- 36 x 3 x 5 bit | 04 R115 | 0 | lines in product, residual and output buffers, by (region * 16 + block) * 4 + buffer. -/
  lines : Tab Nat
  /-- hub | 04 R108 | empty | component writes waiting for invalidation. -/
  compWait : List CompWrite
  /-- 512 x 2^28 x 1 bit | 04 R119 | none | tiles resident under waypoint u, by u * 2^28 + tile. -/
  resident : Tab Bool
  /-- 512 | 04 R119 | none | frame keys + 1 of T1 copies, by (u * 2^28 + tile). -/
  t1frames : Tab (List Nat)
  /-- staging | 04 R119 | none | T0 copies: the reconstructed blocks of a tile, by u * 2^28 + tile. -/
  t0tiles : Tab (List Built)
  /-- hub | 04 R120 | empty | reads waiting for a tile being staged: waypoint and read. -/
  wpWait : List (Nat × PipeRead)
  /-- arms | 16 R373 | none | waypoint arms that wait for the end of a reset: the waypoint, its STAGE command + 1 or 0. -/
  armWait : List (Nat × Nat)
  /-- 2,048 | 04 R109 | none | FACTOR commands under way, by descriptor. -/
  runs : Tab FactorRun
  /-- 2,048 x tick | 05 R133 | 0 | tick + 1 of the last overflow notice of a descriptor. -/
  notice : Tab Nat
  /-- tiles | 06 R167 | none | tiles the mover does not try to lower again, by descriptor * 2^28 + tile. -/
  noLower : Tab Bool
  deriving DecidableEq, Repr, Inhabited

/-- An OPT_STEP accepted for a job's open milestone (R174, R183). -/
structure StepRec where
  /-- 31 bit | 07 R174 | 0 | the command: queue * 65,536 + ring index. -/
  cmd : Nat
  /-- work tiles | 07 R183 | 0 | work tiles not yet retired. -/
  tiles : Nat
  /-- 1 bit | 07 R185 | false | remaining work reads a HOST gradient source. -/
  host : Bool
  /-- 9 bit | 07 R180 | 0 | reduction + 1 that feeds it. -/
  red : Nat
  /-- work tiles | 07 R183 | 0 | next work tile to dispatch. -/
  disp : Nat
  /-- work tiles | 07 R183 | 0 | all its work tiles. -/
  all : Nat
  /-- row tiles | 07 R183 | 0 | work tiles of one 64-column group in phase 1; 0: a step without phases. -/
  rt : Nat
  /-- tiles | 07 R180 | none | gradient tiles taken from a reduction and kept in retained frames, by reduce tile. -/
  grad : Tab (List Byte)
  /-- 64 B | 07 R179, R180 | none | the retained copy of the hyperparameter record. -/
  hyper : List Byte
  /-- bytes | 07 R180, R182 | none | the retained copy of P. -/
  proj : List Byte
  /-- frames | 07 R182 | none | SHADOW frames of R and U, held while the step runs: frame key + 1. -/
  scratch : List Nat
  /-- 1 bit | 07 R174 | false | its completion has been given; replays may still run. -/
  done : Bool
  deriving DecidableEq, Repr, Inhabited

/-- A checkpoint drain under way (R196). -/
structure Drain where
  /-- 31 bit | 07 R194 | 0 | its command: queue * 65,536 + ring index, + 1; 0: none runs. -/
  cmd : Nat
  /-- 64 bit | 07 R196 | 0 | blocks written. -/
  pos : Nat
  /-- 64 bit | 07 R196 | 0 | blocks written as zero. -/
  poison : Nat
  /-- 64 bit | 07 R196 | 0 | index of the first such block, when there is one. -/
  first : Nat
  /-- bytes | 07 R196 | none | the plain block bytes so far, which the trailer's CRC-32 covers. -/
  plain : List Byte
  deriving DecidableEq, Repr, Inhabited

/-- A checkpoint freeze (R194-R196). -/
structure Freeze where
  /-- 1 bit | 07 R194 | false | held. -/
  on : Bool
  /-- 64 x 128 bit | 07 R194 | empty | the listed ranges, base and length. -/
  ranges : List (Nat × Nat)
  /-- 16 bit | 07 R194 | 0 | drain key slot, or 0xFFFF. -/
  keySlot : Nat
  /-- 64 bit | 07 R194 | 0 | milestone of the image. -/
  image : Nat
  /-- 1 bit | 07 R195 | false | a host write broke the image. -/
  broken : Bool
  /-- blocks | 07 R195 | none | replaced entries whose sectors are kept, by block. -/
  kept : Tab MapWord
  /-- 1 | 07 R196 | none | drain under way. -/
  drain : Drain
  deriving DecidableEq, Repr, Inhabited

/-- A job beyond its parameters (R172-R177). -/
structure JobRec where
  /-- blocks | 07 R175 | none | shadow entries of the open milestone, by block. -/
  shadow : Tab MapWord
  /-- frames | 07 R180 | none | retained-input frames, frame key + 1. -/
  retained : List Nat
  /-- steps | 07 R174 | none | OPT_STEPs accepted for the open milestone. -/
  steps : List StepRec
  /-- commands | 07 R174 | none | PREPAREs waiting for the outcome. -/
  prepares : List Nat
  /-- 1 | 07 R194 | not held | checkpoint freeze. -/
  freeze : Freeze
  deriving DecidableEq, Repr, Inhabited

/-- An open reduce tile (R188, R189). -/
structure RedTile where
  /-- 65,536 x 320 bit | 05 R140 | reset values | superaccumulators, by element of the tile. -/
  acc : Tab SupAcc
  /-- 256 x 4,096 bit | 07 R188 | none | lines contributed, by HID * 8,192 + line of the tile. -/
  lines : Tab Bool
  /-- 256 x 9 bit | 07 R188 | 0 | whole-tile contributions, by HID. -/
  counts : Tab Nat
  deriving DecidableEq, Repr, Inhabited

/-- A contribution waiting under R189. -/
structure RedWait where
  /-- tick | 07 R189 | 0 | since when. -/
  since : Nat
  /-- 24 bit | 07 R189 | 0 | tile. -/
  tile : Nat
  /-- 8 bit | 07 R188 | 0 | HID. -/
  hid : Nat
  /-- 1 bit | 07 R189 | false | a CONTRIB rather than a WINDOW write. -/
  contrib : Bool
  /-- 31 bit | 07 R189 | 0 | the CONTRIB's command. -/
  cmd : Nat
  /-- bytes | 07 R188 | 0 | byte of the tile the data begins at. -/
  off : Nat
  /-- 64 bit | 07 R188 | 0 whole line | byte enables of a WINDOW write. -/
  mask : Nat
  /-- 24 bit | 07 R233 | 0 | tiles a CONTRIB has added. -/
  added : Nat
  /-- 25 bit | 07 R188 | 0 | tiles a CONTRIB still adds. -/
  left : Nat
  /-- bytes | 07 R188 | none | the data. -/
  data : List Byte
  /-- 9 bit | 07 R188 | 0 | link * 16 + LD of a WINDOW write. -/
  port : Nat
  /-- 42 bit | 07 R188 | 0 | DPA of a WINDOW write. -/
  dpa : Nat
  /-- 1 bit | 10 R260 | false | its tollgate held it. -/
  gated : Bool := false
  deriving DecidableEq, Repr, Inhabited

/-- A reduction context beyond its parameters (R187). -/
structure RedRec where
  /-- 11 bit | 07 R187 | 0 | source: 0 DESCRIPTORS, window + 1 for WINDOW. -/
  src : Nat
  /-- 3 bit each | 07 R187 | 0 | in_format and out_format. -/
  inFmt : Nat
  outFmt : Nat
  /-- 1 bit | 07 R187 | false | overflow_policy. -/
  pol : Bool
  /-- 12 bit | 07 R187 | 0 | fp64_anchor, or -149. -/
  anchor : Int
  /-- 41 bit | 07 R187 | 0 | element count E. -/
  count : Nat
  /-- 256 bit | 07 R187 | 0 | contributor bitmap. -/
  bitmap : Nat
  /-- 9 bit | 07 R187 | 0 | per_hid. -/
  perHid : Nat
  /-- 6 bit | 07 R187 | 0 | front depth L. -/
  depth : Nat
  /-- 43 bit | 07 R187 | 0 | destination DPA + 1; 0: CONSUMED. -/
  dest : Nat
  /-- 31 bit | 07 R187 | 0 | the OPEN's command. -/
  cmd : Nat
  /-- 8 bit | 07 R191 | 0 | HID of the opening queue. -/
  hid : Nat
  /-- 32 x 2.5 MiB | 07 R189 | none | open tiles. -/
  tiles : Tab RedTile
  /-- tiles | 07 R189 | none | tiles complete and rounded. -/
  rounded : Tab Bool
  /-- tiles | 07 R189 | none | rounded tiles waiting to be taken (CONSUMED). -/
  results : Tab (List Byte)
  /-- tiles | 07 R189 | 0 | tiles an OPT_STEP has taken. -/
  taken : Nat
  /-- 64 bit each | 07 R187 | 0 | elements with inexact, over, and overflow delivery. -/
  inexact : Nat
  overs : Nat
  overflow : Nat
  /-- tick | 07 R190 | 0 | when the front last advanced. -/
  advanced : Nat
  /-- waits | 07 R189 | none | contributions waiting, oldest first. -/
  waits : List RedWait
  deriving DecidableEq, Repr, Inhabited

/-- A published version of a VERSIONED shared region (R200, R201). -/
structure Version where
  /-- 32 bit | 08 R200 | 0 | number. -/
  num : Nat
  /-- blocks | 08 R206, 06 R150 | all UNWRITTEN (R199) | the entries every block of the region resolves to. -/
  map : Tab MapWord
  deriving DecidableEq, Repr, Inhabited

/-- An open version (R201, R205). -/
structure OpenVer where
  /-- 8 bit | 08 R203 | 0 | HID that holds it. -/
  hid : Nat
  /-- 32 bit | 08 R203 | 0 | number of its base. -/
  base : Nat
  /-- blocks | 08 R205 | none | entries that belong to it alone. -/
  own : Tab MapWord
  /-- 1 bit | 08 R205 | false | BROKEN. -/
  broken : Bool
  deriving DecidableEq, Repr, Inhabited

/-- A directory entry of a COHERENT line (R210). -/
structure DirEnt where
  /-- 36 bit | 08 R210 | 0 | line, DPA div 64. -/
  line : Nat
  /-- 1 bit | 08 R210 | false | state E; otherwise S. -/
  excl : Bool
  /-- 4 x 8 bit | 08 R210 | none | holders, exact up to 4. -/
  holders : List Nat
  /-- 1 bit | 08 R210 | false | overflow mark. -/
  overs : Bool
  deriving DecidableEq, Repr, Inhabited

/-- A BISnp that waits for its response, and the request that waits for the line (R210, R211). -/
structure Snoop where
  /-- 36 bit | 08 R210 | 0 | line. -/
  line : Nat
  /-- 8 bit | 08 R210 | 0 | HID snooped. -/
  hid : Nat
  /-- tick | 08 R211 | 0 | when it was issued. -/
  since : Nat
  /-- 1 bit | 08 R211 | false | issued a second time. -/
  again : Bool
  /-- 1 bit | 08 R210 | false | BISnpInv rather than BISnpData. -/
  inv : Bool
  deriving DecidableEq, Repr, Inhabited

/-- A shared region beyond its parameters (R197-R217). -/
structure SrRec where
  /-- 1 bit | 08 R199 | false | committed. -/
  on : Bool
  /-- versions | 08 R201 | none | live published versions, oldest first. -/
  versions : List Version
  /-- 256 | 08 R201 | none | open versions. -/
  opens : List OpenVer
  /-- 256 x 33 bit | 08 R202 | none | READ bindings, version number by HID. -/
  reads : Tab Nat
  /-- 256 x tick | 08 R214 | none | leases: expiry tick + 1, by HID. -/
  leases : Tab Nat
  deriving DecidableEq, Repr, Inhabited

/-- Shared regions as a whole (R197-R217). -/
structure Shared where
  /-- 256 | 08 R197 | none committed | shared regions. -/
  regions : Tab SrRec
  /-- 4 x 524,288 | 08 R210 | empty | directories, granted longest ago first, by region die. -/
  dir : Tab (List DirEnt)
  /-- snoops | 08 R210 | none | BISnps without response, oldest first. -/
  snoops : List Snoop
  /-- requests | 08 R210 | none | requests waiting for snoops, oldest first. -/
  waits : List HeldReq
  /-- tick | 08 R214 | 0 | last lease check. -/
  checked : Nat
  /-- 1 bit | 08 R200 | false | version number 0xFFFF_FFFF has been taken. -/
  exhausted : Bool
  /-- 256 x tick | 08 R213 | 0 | tick + 1 since when every LD of a HID is down, by HID. -/
  downSince : Tab Nat
  deriving DecidableEq, Repr, Inhabited

/-- A submission entry fetched and not yet completed (R226, R235, R236). -/
structure Cmd where
  /-- 16 bit | 09 R226 | 0 | ring index. -/
  idx : Nat
  /-- 64 B | 09 R226 | none | the entry as fetched. -/
  entry : List Byte
  /-- 2 bit | 09 R236 | 0 | 0 waiting on FENCE, 1 started, 2 accepted by its engine, 3 finished. -/
  phase : Nat
  /-- 8 bit | 09 R234 | 0 | status, when finished. -/
  status : Nat
  /-- 64 bit | 09 R233 | 0 | result, when finished. -/
  result : Nat
  /-- 4 bit | 09 R232 | 0 | completion flags [126:123]. -/
  flags : Nat
  deriving DecidableEq, Repr, Inhabited

/-- A queue beyond its parameters (R221-R241). -/
structure QRec where
  /-- 16 bit | 09 R224 | 0 | sq_tail doorbell. -/
  tail : Nat
  /-- 16 bit | 09 R225 | 0 | completion slots before it are free: the last cq_head that freed only slots written. -/
  head : Nat
  /-- 32 bit | 09 R224 | 0 | cq_head doorbell as written. -/
  cqDb : Nat
  /-- 1 bit | 09 R232 | false (set by ENABLE) | completion phase. -/
  phase : Bool
  /-- 32 | 09 R235 | none | commands fetched and not completed, oldest first. -/
  cmds : List Cmd
  /-- 32 | 09 R240 | none | held completions, oldest first. -/
  held : List Cmd
  /-- 16 bit | 09 R235 | 0 | outstanding entries. -/
  outstanding : Nat
  /-- 16 bit | 09 R239 | 0 | unsignalled completions. -/
  unsig : Nat
  /-- tick | 09 R239 | 0 | tick of the first unsignalled completion. -/
  unsigAt : Nat
  /-- 1 bit | 09 R240 | false | DISABLE written, started commands still run. -/
  disabling : Bool
  /-- 1 bit | 09 R241 | false | its rings lay in host memory across a function reset. -/
  needBme : Bool
  deriving DecidableEq, Repr, Inhabited

/-- The queues as a whole (R219-R242). -/
structure Queues where
  /-- 32,768 | 09 R221 | DISABLED | queues. -/
  q : Tab QRec
  /-- 9 bit | 09 R235, 01 R19 | 0 | pointer over the 512 groups. -/
  groupPtr : Nat
  /-- 512 x 6 bit | 09 R235, 01 R19 | 0 | pointer within each group. -/
  queuePtr : Tab Nat
  deriving DecidableEq, Repr, Inhabited

/-- An event record of an LD's log (R256-R259). -/
structure EventRec where
  /-- 2 bit | 10 R259 | 0 | log: 0 Informational, 1 Warning, 2 Failure, 3 Fatal. -/
  log : Nat
  /-- 1 bit | 10 R258 | false | a DRAM record rather than General Media. -/
  dram : Bool
  /-- 8 bit | 10 R256 | 0 | Memory Event Type: 0 ECC Error, 1 Invalid Address, 2 Data Path Error. -/
  kind : Nat
  /-- 8 bit | 10 R256 | 0 | Transaction Type: 0 internal, 1 host read, 2 host write, 3 scrub. -/
  trans : Nat
  /-- 43 bit | 10 R256 | 0 | DPA + 1, or 0 when not valid. -/
  dpa : Nat
  /-- 31 bit | 10 R258 | 0 | of a DRAM record, the row's address: pseudo-channel * 2^25 + column * 2^21 + bank * 2^15 + row. -/
  place : Nat
  /-- 16 B | 10 R257 | 0 | Component Identifier. -/
  comp : List Byte
  /-- 64 bit | 10 R264 | 0 | the LD's timestamp. -/
  time : Nat
  /-- 16 bit | 10 R259 | 0 | record handle. -/
  handle : Nat
  deriving DecidableEq, Repr, Inhabited

/-- An HDM decoder (R245). -/
structure HdmDec where
  /-- 64 bit | 10 R245 | 0 | host base. -/
  base : Nat
  /-- 64 bit | 10 R245 | 0 | size. -/
  size : Nat
  /-- 5 bit | 10 R245 | 0 | interleave ways. -/
  ways : Nat
  /-- 15 bit | 10 R245 | 0 | interleave granularity in bytes. -/
  gran : Nat
  /-- 42 bit | 10 R245 | 0 | first DPA (DPA skip applied). -/
  dpa : Nat
  /-- 1 bit | 10 R245 | false | committed. -/
  on : Bool
  /-- 1 bit | 10 R245 | false | locked. -/
  lock : Bool
  deriving DecidableEq, Repr, Inhabited

/-- A logical device's own registers (R245-R266). -/
structure LdRec where
  /-- 4 x HDM decoder | 10 R245 | not committed | by number. -/
  hdm : Tab HdmDec
  /-- 4 x 64 records | 10 R259 | empty | event logs, oldest first. -/
  log : List EventRec
  /-- 4 x 16 bit | 10 R259 | 0 | records lost to overflow, by log. -/
  lost : Tab Nat
  /-- 4 x 64 bit | 10 R259 | 0 | times of the first and the last record lost, by log. -/
  lostFirst : Tab Nat
  lostLast : Tab Nat
  /-- 16 bit | 10 R259 | 0 | next record handle. -/
  nextHandle : Nat
  /-- 4 x 8 bit | 10 R259 | 0 no interrupt | Event Interrupt Policy, by log: bits [1:0] mode, [7:4] vector. -/
  policy : Tab Nat
  /-- 64 bit, tick | 10 R264 | 0 | timestamp written by Set Timestamp and the tick of the write. -/
  stamp : Nat
  stampAt : Nat
  /-- 64 bit | 14 R336 | 0 | alert configuration: bytes as Set Alert Configuration wrote them. -/
  alert : List Byte
  /-- 1,024 x 21 bit | 10 R261 | none | accepted dynamic capacity extents, of 2 MiB each (00): DPA div 2 MiB. -/
  extents : Tab Bool
  /-- extents | 10 R261 | none | extents offered and not answered. -/
  offered : Tab Bool
  /-- 32 bit | 10 R261 | 0 | changes of the accepted extents: the generation number of Get DC Extent List. -/
  dcGen : Nat
  /-- 32 bit | 10 R253, R268 | 0 | CXL RAS uncorrectable error status. -/
  ras : Nat
  /-- 4 KiB | 10 R246, R266 | standard reset | configuration registers written, by byte offset div 4. -/
  cfg : Tab Nat
  /-- 1 bit | 10 R266 | DESIGN CHOICE false (log 3) | Bus Master Enable of its function. -/
  bme : Bool
  /-- 128 x 2 bit | 09 R238 | masked, not pending | MSI-X bits, by vector: 1 its mask bit is clear, 2 pending. -/
  msix : Tab Nat
  /-- 128 x 96 bit | 09 R238 | 0 | MSI-X message address + 2^64 * data, by vector. -/
  msixMsg : Tab Nat
  /-- tags x tick | 10 R266 | none | quarantined tags: tag and release tick. -/
  tags : Tab Nat
  /-- tags | 10 R266 | none | CXL.io reads outstanding: tag and the command that owns it + 1. -/
  reads : Tab Nat
  deriving DecidableEq, Repr, Inhabited

/-- A link (R243-R268), numbered port * 2 + half. -/
structure LinkRec where
  /-- 8 bit | 10 R248 | 0 OFF | state of port_status [7:0]. -/
  st : Nat
  /-- 4 bit each | 10 R249 | 0 | rate, width, LDs, IDE mode of the trained link. -/
  rate : Nat
  width : Nat
  lds : Nat
  ide : Nat
  /-- 1 bit each | 10 R249 | false | features in use: HDM-DB, DC, QoS, MLD, LD-path queues. -/
  hdmDb : Bool
  dc : Bool
  qos : Bool
  mld : Bool
  ldq : Bool
  /-- 4 bit | 10 R248 | none (0xF) | rate cap + 1; 0: none. -/
  cap : Nat
  /-- 8 bit | 10 R248 | 0 | reason of the last fall from UP. -/
  reason : Nat
  /-- tick | 10 R248 | 0 | end of the BACKOFF delay. -/
  backoff : Nat
  /-- ticks | 10 R248 | none | failures within 60 s, newest first, for the doubling delay. -/
  fails : List Nat
  /-- tick | 10 R267 | 0 | when the link last came UP: a request accepted before is not answered. -/
  upAt : Nat
  /-- 5 x tick | 10 R248 | none | ticks of falls from UP within 60 s, newest first. -/
  falls : List Nat
  /-- 2 bit | 10 R262 | 0 none | IDE stream: 0 none, 1 active, 2 Insecure. -/
  stream : Nat
  /-- 512 bit | 10 R262 | none | IDE keys programmed. -/
  ideKey : List Byte
  /-- 6 x 10 bit | 10 R251 | 0 | entries occupied in the receive buffers, by channel: 0 M2S Req, 1 M2S RwD, 2 M2S BIRsp, 3-5 CXL.io posted,
  non-posted and completion headers. -/
  occ : Tab Nat
  /-- 6 x 10 bit | 10 R251 | 0 | credits granted to the partner and not consumed, by channel. -/
  granted : Tab Nat
  /-- 4 x 10 bit | 10 R250 | 0 | the partner's advertised transmit credits, by channel: 0 S2M NDR, 1 S2M DRS, 2 S2M BISnp, 3 CXL.io. -/
  adv : Tab Nat
  /-- 4 x 10 bit | 10 R251 | 0 | transmit credits held, by channel. -/
  tx : Tab Nat
  /-- 4 x 10 bit | 10 R251 | 0 | messages sent whose credits have not returned, by channel. -/
  sent : Tab Nat
  /-- 2 bit | 10 R251, R268 | 0 at once | when the partner returns a transmit credit: 0 at once, 1 with its next request, otherwise
  never. -/
  back : Nat
  /-- 256 lines | 10 R252 | empty | messages that wait for a transmit credit, each with its channel, oldest first: the first 256 fill the
  link's egress buffer. -/
  egress : List (Nat × Output)
  /-- tick | 10 R253 | 0 | since when traffic pends and no credit for it has returned. -/
  stallAt : Nat
  deriving DecidableEq, Repr, Inhabited

/-- The accelerator ports (R243-R270). -/
structure Ports where
  /-- 8 x 2 bit | 10 R243 | 0 | layout in force, by pair: port_bifurcation as last read. -/
  layout : Tab Nat
  /-- 32 | 10 R248 | OFF | links, by port * 2 + half. -/
  link : Tab LinkRec
  /-- 32 x 17 | 10 R246 | reset | logical devices, by link * 32 + LD; 16 is the FM-owned LD. -/
  ld : Tab LdRec
  /-- 4,096 | 10 R264 | none | blocks committed POISON, newest first. -/
  poisonLog : List Nat
  /-- 1 bit | 10 R264 | false | older POISON entries were dropped. -/
  poisonOver : Bool
  deriving DecidableEq, Repr, Inhabited

/-- A request of the device on the service link (R276-R281). -/
structure SvcReq where
  /-- 3 bit | 11 R276 | 0 | requester 0-4. -/
  who : Nat
  /-- 1 bit | 11 R279 | false | non-posted: a read. -/
  read : Bool
  /-- 64 bit | 11 R276 | 0 | host address. -/
  addr : Nat
  /-- 32 bit | 11 R276 | 0 | bytes. -/
  len : Nat
  /-- bytes | 11 R276 | none | data of a write. -/
  data : List Byte
  /-- lines | 09 R229 | none | poisoned 64-byte lines of the data, counted from the first. -/
  bad : List Nat
  /-- 32 bit | 11 R280 | 0 | what the request serves: its owner's handle. -/
  tok : Nat
  /-- tick | 11 R287 | 0 | when it was queued. -/
  since : Nat
  /-- 4 bit | 09 R237 | 0 | class of the command's queue. -/
  cls : Nat := 0
  deriving DecidableEq, Repr, Inhabited

/-- The service function (R271-R292). -/
structure Svc where
  /-- 4 KiB | 11 R272 | reset values of R271-R273 | configuration registers written, by byte offset div 4. -/
  cfg : Tab Nat
  /-- 1 bit | 11 R284 | false | Bus Master Enable. -/
  bme : Bool
  /-- 1 bit | 11 R274 | false | Memory Space Enable. -/
  mse : Bool
  /-- 2 bit | 11 R287 | 0 D0 | D-state: 0 D0, 1 D3hot, 2 D3cold. -/
  dstate : Nat
  /-- 1 bit | 11 R277 | false | the link is in DL_Active. -/
  dl : Bool
  /-- tick | 11 R287 | 0 | when D3hot was entered. -/
  d3At : Nat
  /-- tick | 11 R284 | 0 | tick + 1 of the link leaving DL_Active without D0 and BME since. -/
  downAt : Nat
  /-- 1 bit | 11 R284 | false | in reset: configuration requests answered Request Retry Status. -/
  inReset : Bool
  /-- 1 bit | 11 R284 | true | PERST# asserted. -/
  perstOff : Bool
  /-- 1 bit | 20 R444 | false | PERST# was deasserted before the input and REFCLK were good; the deassertion waits for both. -/
  perstWait : Bool
  /-- 1 bit | 11 R282 | false | an FLR runs. -/
  flr : Bool
  /-- 1 bit each | 11 R288 | false | PME_Status and WAKE# asserted. -/
  pme : Bool
  wake : Bool
  /-- requests | 11 R276 | empty | requests waiting for the egress scheduler, oldest first. -/
  egress : List SvcReq
  /-- 3 bit | 01 R18, R19 | 0 | egress pointer. -/
  ptr : Nat
  /-- 768 tags | 11 R281 | none | outstanding reads, by tag. -/
  tags : Tab SvcReq
  /-- 768 x tick | 11 R281 | none | quarantined tags: release tick + 1, by tag. -/
  quar : Tab Nat
  /-- 2,048 x 2 bit | 09 R238, 11 R284 | masked, not pending | MSI-X bits, by vector: 1 its mask bit is clear, 2 pending. -/
  msix : Tab Nat
  /-- 2,048 x 96 bit | 11 R274 | 0 | MSI-X message address + 2^64 * data, by vector. -/
  msixMsg : Tab Nat
  /-- 32 bit | 11 R285 | 0 | AER uncorrectable status. -/
  aerUnc : Nat
  /-- 32 bit | 11 R285 | 0 | AER correctable status. -/
  aerCor : Nat
  /-- 4 bit | 11 R273, R285 | 0 | Device Status: 1 correctable, 2 non-fatal, 4 fatal error, 8 Unsupported Request detected. -/
  devSta : Nat
  /-- 4 bit, 6 bit | 11 R273 | 0 | speed code and lanes on which the link trained. -/
  speed : Nat
  lanes : Nat
  /-- 128 bit, 5 bit | 11 R286 | 0 | header log and First Error Pointer. -/
  hdrLog : Nat
  firstErr : Nat
  /-- 1 bit | 11 R290 | false | the last LTR message stated a requirement. -/
  ltr : Bool
  /-- tick | 11 R285 | 0 | tick + 1 of the last Corrected Internal Error. -/
  corAt : Nat
  deriving DecidableEq, Repr, Inhabited

/-- A master's buckets beyond its contracts (R293, R296-R298). -/
structure MasterRec where
  /-- 16 | 12 R297 | empty | hold queue, oldest first; later entries stand in the link's Req buffer. -/
  hold : List HeldReq
  /-- 4 x 1/4,096 line | 12 R296 | 0 | shared buckets, by region. -/
  shared : Tab Nat
  /-- lines | 12 R297 | 0 | tokens spent since the last boundary. -/
  spent : Nat
  deriving DecidableEq, Repr, Inhabited

/-- A contract beyond its parameters (R295-R303). -/
structure ContractRec where
  /-- 6 words | 12 R295 | none | shadow copies of words 1-6 of a contract in force, value + 1 by word. -/
  shadow : Tab Nat
  /-- 6 words | 12 R300 | none | values a commit found good, taken into force at the next boundary, value + 1 by word. -/
  next : Tab Nat
  /-- 1 bit each | 12 R300 | false | a commit or a release takes effect at the next boundary. -/
  commitDue : Bool
  releaseDue : Bool
  /-- 1/4,096 line | 12 R296 | 0 | guaranteed bucket. -/
  bucket : Nat
  /-- lines | 12 R303 | 0 | lines served in the running window. -/
  served : Nat
  /-- lines | 12 R303 | 0 | guaranteed tokens added in the running window. -/
  added : Nat
  /-- 1 bit | 12 R303 | false | some boundary of the window found no request held or unanswered. -/
  quiet : Bool
  deriving DecidableEq, Repr, Inhabited

/-- Bandwidth regulation (R293-R306). -/
structure Regulation where
  /-- 528 | 12 R298 | empty | masters, by number. -/
  masters : Tab MasterRec
  /-- 1,024 | 12 R295 | RELEASED | contracts, by number. -/
  con : Tab ContractRec
  /-- 4 x 1/4,096 line | 12 R298 | 0 | carry of the shared pools, by region. -/
  carry : Tab Nat
  /-- 17 x 3 x 1/4,096 line | 12 R304 | 0 | tokens issued (0), spent (1) and expired (2) of tollgate t, by t * 4 + count; t is the port block, or 16 for the engine tollgates. -/
  counts : Tab Nat
  /-- 1 bit | 12 R302 | false | a floor or the contract set changed since the last boundary. -/
  changed : Bool
  /-- µs | 12 R296 | 0 | microsecond + 1 of the last boundary. -/
  boundary : Nat
  /-- boundaries | 12 R303 | 0 | boundaries of the running window so far. -/
  windowAt : Nat
  /-- 32 x MB/s | 12 R302 | empty | the links' floors at the last boundary, by link. -/
  links : List Nat
  /-- count | 12 R296, the model's own | 0 | HBM lines read or written for requests, by stack set * 4 + region: what engine masters pay. -/
  moved : Tab Nat
  deriving DecidableEq, Repr, Inhabited

/-- A bank (R309-R311). -/
structure BankRec where
  /-- 15 bit | 13 R310 | none | open row. -/
  row : Option Nat
  /-- tick | 13 R310 | 0 | last access to the open row. -/
  used : Nat
  /-- 11 bit | 13 R310 | 0 | mc_page_idle_ns as it stood at that access. -/
  idle : Nat
  /-- 4 bit | 13 R311 | 0 | refreshes owed. -/
  owed : Nat
  deriving DecidableEq, Repr, Inhabited

/-- A channel (R315, R316). -/
structure ChanRec where
  /-- 3 bit | 13 R316 | 0 | replays in a row that met an alert. -/
  alerts : Nat
  /-- 1 bit | 13 R315 | false | a replay runs. -/
  replaying : Bool
  deriving DecidableEq, Repr, Inhabited

/-- A stack beyond its parameters (R307-R321). -/
structure StackRec where
  /-- tick | 13 R312 | 0 | tick + 1 of entry into HOLD. -/
  holdAt : Nat
  /-- 1 bit | 13 R312 | false | this HOLD episode has sent the device to SAFE. -/
  holdSaid : Bool
  /-- 1 bit | 13 R316 | false | out of service: a channel is offline. -/
  offline : Bool
  /-- 1 bit | 14 R340 | false | a cause of the stack's death has arisen. -/
  dying : Bool
  /-- 1 bit | 14 R340 | false | the walk for this dead stack is over: every frame of it is RETIRED. -/
  retired : Bool
  /-- 64 x 48 banks | 13 R307 | closed, 0 owed | by pseudo-channel * 64 + bank. -/
  banks : Tab BankRec
  /-- 32 channels | 13 R307 | idle | by channel. -/
  chans : Tab ChanRec
  /-- 64 x 40 x 32 bit | 13 R317, R318 | DESIGN CHOICE 0 (log 3) | trained lane settings, by pseudo-channel * 64 + lane: trn_lane [31:8]. -/
  lanes : Tab Nat
  /-- 1 bit | 13 R318 | false | a helper run is under way. -/
  running : Bool
  /-- 1 bit | 13 R318 | false | self-refresh entry waits for the end of the run. -/
  returning : Bool
  deriving DecidableEq, Repr, Inhabited

/-- A row of the error table (R332). -/
structure RowRec where
  /-- 6 bit | 14 R332 | 0 | pseudo-channel. -/
  pc : Nat
  /-- 6 bit | 14 R332 | 0 | bank. -/
  bank : Nat
  /-- 15 bit | 14 R332 | 0 | row. -/
  row : Nat
  /-- ticks | 14 R332 | none | corrected errors within the window, newest first. -/
  times : List Nat
  deriving DecidableEq, Repr, Inhabited

/-- A scrub read whose writeback is not yet made (R331). -/
structure ScrubRead where
  /-- 31 bit | 14 R331 | 0 | line. -/
  line : Nat
  /-- 512 bit | 14 R331 | none | the corrected line. -/
  data : List Byte
  /-- 1 bit | 14 R331 | false | a write to the line was accepted since. -/
  cancelled : Bool
  deriving DecidableEq, Repr, Inhabited

/-- Protection of stored data (R322-R342). -/
structure Media where
  /-- 65,536 x 16 B | 14 R333 | empty | media log, by sequence modulo 65,536. -/
  log : Tab (List Byte)
  /-- 16 x 4,096 | 14 R332 | empty | row tables, newest error first, by stack. -/
  rows : Tab (List RowRec)
  /-- 1,024 x 64 bit | 14 R335 | of the flash | retirement list: mode * 2^64 + D1, newest first. -/
  retire : List Nat
  /-- 16 x 31 bit | 14 R330 | 0 | next line of the patrol scrub, by stack. -/
  scrub : Tab Nat
  /-- stacks | 14 R331 | none | scrub read awaiting its writeback, by stack. -/
  scrubRead : Tab ScrubRead
  /-- lines x 144 bit | 14 R337 | 0 | error that the flip mask left in codeword 0: data XOR + 2^128 * check XOR, by HBM byte address div 64. -/
  flips : Tab Nat
  /-- tick | 14 R338 | 0 | tick + 1 of the last instruction access fault. -/
  codeFault : Nat
  /-- 1 bit | 14 R338 | false | the cores are lost to a second fault, the watchdog left to expire. -/
  coresLost : Bool
  /-- stacks x tick | 14 R340 | none | walk under way for a dead stack: start tick, by stack. -/
  walks : Tab Nat
  deriving DecidableEq, Repr, Inhabited

/-- A flagged computation whose repeats run (R347). -/
structure FlagRec where
  /-- 6 bit | 15 R347 | 0 | block X, region * 16 + block. -/
  blk : Nat
  /-- 3 bit | 15 R363 | 0 | check that flagged, 1-7. -/
  check : Nat
  /-- work | 15 R348 | none | what the result belongs to. -/
  work : Work
  /-- bits | 15 R347 | 0 | the flagged result A1. -/
  a1 : Nat
  /-- 7 bit each | 15 R363 | 0 | predicted and found residue. -/
  predicted : Nat
  found : Nat
  /-- 1 bit | 07 R184, 15 R347 | false | its two repeats have been launched. -/
  ran : Bool
  deriving DecidableEq, Repr, Inhabited

/-- A dice round under way in a region (R352-R356). -/
structure DiceRun where
  /-- 6 bit | 15 R353 | 0 | block under test. -/
  blk : Nat
  /-- 6 bit | 15 R353 | 0 | partner. -/
  partner : Nat
  /-- 64 bit | 15 R352 | 0 | seed. -/
  seed : Nat
  /-- 31 bit | 15 R356 | none | TEST_ROUND's command: queue * 65,536 + ring index, + 1. -/
  cmd : Nat
  /-- tick | 15 R353 | 0 | start. -/
  start : Nat
  deriving DecidableEq, Repr, Inhabited

/-- A compute block beyond its parameters (R353-R358). -/
structure BlkRec where
  /-- ticks | 15 R357 | none | TRANSIENT outcomes within 10 minutes, newest first. -/
  transients : List Nat
  /-- count | 15 R353 | 0 | COMMITs the device had accepted when its last round started. -/
  commits : Nat
  /-- 1 bit | 15 R353 | false | a round is due. -/
  due : Bool
  /-- tick | 15 R354 | 0 | since when it is due. -/
  dueAt : Nat
  /-- 64 bit | 15 R356 | 0 | seed of the round that is due. -/
  seed : Nat
  /-- 1 bit | 15 R353 | false | the round fell due while its region slept and runs before the first work tile. -/
  woke : Bool
  /-- 31 bit | 15 R353 | 0 | TEST_ROUND command + 1 that made it due. -/
  cmd : Nat
  /-- 6 bit | 15 R353 | 0 device's choice | partner + 1 that TEST_ROUND names. -/
  partner : Nat
  /-- tick | 15 R353 | 0 | start of its last round. -/
  last : Nat
  /-- 6 bit | 15 R358 | 0 none | retired block + 1 that this spare replaces if its next round passes. -/
  promote : Nat
  /-- 8 bit | 15 R357 | 0 | consecutive clean rounds with no outcome but TRANSIENT_CHECK since it went OBSERVED. -/
  clear : Nat
  deriving DecidableEq, Repr, Inhabited

/-- Integrity of computation (R343-R365). -/
structure Integ where
  /-- 36 | 15 R353 | idle | compute blocks, by region * 16 + block. -/
  blk : Tab BlkRec
  /-- flags | 15 R347 | none | flagged computations, oldest first. -/
  flags : List FlagRec
  /-- 4 | 15 R353 | none | rounds under way, by region. -/
  dice : Tab DiceRun
  /-- count | 15 R353 | 0 | COMMITs the device has accepted. -/
  commits : Nat
  /-- 4 x 4 bit | 15 R353, 01 R18 | 0 | dice pointer, by region. -/
  ptr : Tab Nat
  deriving DecidableEq, Repr, Inhabited

/-- A task context of a compute block (R375, R376). -/
structure Ctx where
  /-- 2 bit | 16 R376 | 0 none | 1 command, 2 reconstruction, 3 integrity. -/
  kind : Nat
  /-- 8 bit | 16 R376 | 0 | opcode of R228. -/
  opcode : Nat
  /-- 16 bit | 16 R376 | 0 | queue, or 0xFFFF. -/
  queue : Nat
  /-- 16 bit | 16 R376 | 0 | command identifier. -/
  cid : Nat
  /-- 16 bit | 16 R376 | 0 | job or descriptor. -/
  object : Nat
  /-- 64 bit | 16 R376 | 0 | work tile. -/
  tile : Nat
  /-- 31 bit | 09 R226 | 0 | the command: queue * 65,536 + ring index. -/
  cmd : Nat
  deriving DecidableEq, Repr, Inhabited

/-- An engine reset under way, or the suspect search after it (R375, R377). -/
structure EngReset where
  /-- tick | 16 R375 | 0 | start. -/
  start : Nat
  /-- 2 bit | 16 R376 | 0 | 1 watchdog, 2 engine fault. -/
  trigger : Nat
  /-- 32 bit | 16 R376 | 0 | its hang record. -/
  hang : Nat
  /-- 32 bit | 16 R383 | 0 | the failure-signature record it sent. -/
  sig : Nat
  /-- 16 | 16 R377 | empty | suspects still to be replayed, ascending. -/
  suspects : List Nat
  /-- 1 bit | 16 R377 | false | the reset is complete and the search runs. -/
  searching : Bool
  /-- 6 bit | 16 R377 | 0 | replay block. -/
  replay : Nat
  deriving DecidableEq, Repr, Inhabited

/-- A journaled line (R370). -/
structure JLine where
  /-- 42 bit | 16 R370 | 0 | DPA. -/
  dpa : Nat
  /-- 8 bit | 16 R370 | 0 | HID. -/
  hid : Nat
  /-- 9 bit | 16 R370 | 0 | key slot + 1; 0: plain form. -/
  slot : Nat
  /-- 512 bit | 16 R370 | none | the line as journaled. -/
  data : List Byte
  /-- 64 bit | 16 R370, 14 R325 | 0 whole line | byte enables. -/
  mask : Nat
  /-- 9 bit | 16 R370, 08 R205 | 0 | 0 the block map, h + 1 the open version of HID h. -/
  owner : Nat
  /-- 1 bit | 10 R255 | false | the line is poisoned. -/
  bad : Bool
  /-- 10 bit | 02 R51 | 0 | the window it was written through. -/
  win : Nat
  /-- 9 bit | 10 R256 | 0 | link * 16 + LD. -/
  port : Nat
  deriving DecidableEq, Repr, Inhabited

/-- Recovery and reset (R366-R385). -/
structure Recov where
  /-- 36 x 14 | 16 R375 | none | contexts 0-13, by (region * 16 + block) * 16 + context. -/
  ctx : Tab Ctx
  /-- units | 16 R375 | none | engine resets and searches, by unit field of R362. -/
  eng : Tab EngReset
  /-- 4 x tick | 16 R379 | none | region reset under way: start tick, by region. -/
  region : Tab Nat
  /-- 4 | 01 R18, 16 R377 | 0 | replay pointer, by region. -/
  ptr : Tab Nat
  /-- tick | 16 R380 | 0 | start of the warm device reset. -/
  warmAt : Nat
  /-- tick | 16 R368 | 0 | when the hold of dev_safe_auto_ms began. -/
  safeAt : Nat
  /-- 1 bit | 16 R366 | false | the device was in SERVICE when the SAFE cause arose. -/
  wasService : Bool
  /-- ticks | 16 R372 | none | starts of engine resets, by unit, newest first. -/
  engTimes : Tab (List Nat)
  /-- ticks | 16 R372 | none | starts of region resets, by region, newest first. -/
  regTimes : Tab (List Nat)
  /-- 5 x 32 bit | 16 R383 | 0 | record that caused the reset of a region, by region. -/
  regSig : Tab Nat
  /-- jobs | 16 R383 | none | jobs that the DOWN notice of a reset listed, by region, 4 for the device. -/
  downJobs : Tab (List Nat)
  /-- ticks | 16 R372 | none | starts of counted warm device resets, newest first. -/
  warmTimes : List Nat
  /-- 4 x 65,536 lines | 16 R370 | empty | journals, in the order of acceptance, by region. -/
  journal : Tab (List JLine)
  /-- 64 x 4,480 B | 16 R376 | empty | hang_store, by sequence modulo 64. -/
  hangs : Tab (List Byte)
  /-- 256 | 16 R378 | empty | hung tiles: descriptor * 2^28 + tile, newest first. -/
  hung : List Nat
  /-- 16 x 1 bit | 16 R372 | false | port blocks whose links are FAILED until cold power-up. -/
  failed : Tab Bool
  /-- 4 bit | 16 R368 | 0 | cause of SAFE whose entry actions have not run. -/
  safeDue : Nat
  /-- 1 bit | 16 R366 | false | the entry ends in OUT_OF_SERVICE. -/
  oosDue : Bool
  /-- 4 x 1 bit | 16 R372 | false | regions whose reset is due. -/
  regionDue : Tab Bool
  /-- requests | 16 R379, 17 R394 | empty | CXL.mem requests held at a home hub, oldest first. -/
  held : List HeldReq
  deriving DecidableEq, Repr, Inhabited

/-- A wake that waits for tokens (R396). -/
structure Wake where
  /-- 5 bit | 17 R396 | 0 | cause: port 0-15, 16 service link, 17 internal. -/
  cause : Nat
  /-- 2 bit | 17 R396 | 0 | 0 hub clock, 1 region clock, 2 stack. -/
  kind : Nat
  /-- 4 bit | 17 R396 | 0 | region or stack. -/
  unit : Nat
  deriving DecidableEq, Repr, Inhabited

/-- Power, clocks and wake (R386-R398), and the module's inputs (R433-R448). -/
structure Power where
  /-- 4 x tick | 17 R392 | 0 | since when a region is idle, by region. -/
  idle : Tab Nat
  /-- tick | 17 R392 | 0 | since when every region is in power state S2. -/
  allS2 : Nat
  /-- 4 x 2 bit | 17 R391 | 0 | exit under way: 1 clock granted, 2 PLL locked, by region. -/
  exiting : Tab Nat
  /-- 1 bit | 17 R391 | false | the hub clock runs. -/
  hubOff : Bool
  /-- 1 bit | 17 R391 | false | the hub restore runs. -/
  hubBusy : Bool
  /-- wakes | 17 R396 | empty | queue of wakes, in order of service. -/
  queue : List Wake
  /-- tick | 17 R395 | 0 | last token tick. -/
  tokenAt : Nat
  /-- 16 x 1 bit | 17 R396 | false | stacks granted their tokens. -/
  granted : Tab Bool
  /-- 5 bit | 17 R388 | 16 | sixteenths of full issue the governor allows, minus 16 (0: full). -/
  throttle : Nat
  /-- 10,000 x W | 17 R388 | empty | input power samples of the last 100 ms, newest first. -/
  samples : List Nat
  /-- samples | 17 R388 | 0 | samples of the running excursion above pwr_limit_w. -/
  overs : Nat
  /-- 4 x periods | 17 R392 | 0 | tick at which a region entered S2, for the missed decay periods, by region. -/
  s2At : Tab Nat
  /-- 1 bit | 20 R444 | false | 36 V is applied with MATE tied. -/
  applied : Bool
  /-- 1 bit | 17 R386 | false | the input is out of range. -/
  inputBad : Bool
  /-- 1 bit | 17 R390 | false | the reference clock is lost; the on-die oscillator serves. -/
  refLost : Bool
  /-- 1 bit | 20 R444 | false | POWER_ON is held for REFCLK. -/
  refHold : Bool
  /-- tick | 20 R444 | 0 | since when the input stands within 30-40 V. -/
  appliedAt : Nat
  /-- 1 bit | 20 R448 | false | the hardware thermal trip acted. -/
  tripped : Bool
  deriving DecidableEq, Repr, Inhabited

/-- A copy of the device record in the flash (R401). -/
structure DevRecord where
  /-- 1 bit | 18 R401 | false | the copy verifies. -/
  good : Bool
  /-- 64 bit | 18 R401 | 0 | record sequence. -/
  seq : Nat
  /-- 36 x 1 bit | 01 R27, 15 R358 | none | saved repair map: blocks retired in the field, by region * 16 + block. -/
  unusable : Tab Bool
  /-- 324 x 8 bit | 01 R26, R27 | none | saved repair map: codec lanes replaced in the field (2), by block * 16 + lane. -/
  lanes : Tab Nat
  /-- cells | 01 R27, 15 R363 | none | saved repair map: defects that BIST found, cell type * 2^32 + cell index. -/
  cells : List Nat
  /-- 36 x 2 bit | 15 R358 | 0 | blk_permanent, by region * 16 + block. -/
  permanent : Tab Nat
  /-- 1,024 x 66 bit | 14 R335 | empty | retirement list, newest first. -/
  retire : List Nat
  /-- 16 bit | 18 R402 | 0 | fw_svn_floor. -/
  floor : Nat
  deriving DecidableEq, Repr, Inhabited

/-- An SPDM session (R407, R409). -/
structure Session where
  /-- 32 bit | 18 R407 | 0 | session ID. -/
  id : Nat
  /-- 1 bit | 18 R409 | false | the requester was authenticated by a certificate chaining to the owner key. -/
  mauth : Bool
  /-- 2 bit | 18 R407 | 0 | transport: 0 MCTP over PCIe VDM, 1 MCTP over the management network, 2 DOE. -/
  transport : Nat
  /-- tick | 18 R407 | 0 | heartbeat period; 0: none. -/
  beat : Nat
  /-- tick | 18 R407 | 0 | last heartbeat or request. -/
  seen : Nat
  deriving DecidableEq, Repr, Inhabited

/-- Boot, identity and firmware (R399-R411). -/
structure Boot where
  /-- tick | 18 R399 | 0 | when the times of R399 began. -/
  startAt : Nat
  /-- 4 KiB | 18 R401 | DESIGN CHOICE empty (log 3) | key block of the flash. -/
  keyBlock : List Byte
  /-- 60 KiB | 18 R401 | DESIGN CHOICE empty (log 3) | configuration record of the flash. -/
  config : List Byte
  /-- 128 KiB each | 18 R401 | DESIGN CHOICE not valid (log 3) | device records A and B. -/
  recA : DevRecord
  recB : DevRecord
  /-- 63 MiB | 18 R401 | DESIGN CHOICE empty (log 3) | firmware image of the flash. -/
  image : List Byte
  /-- 63 MiB | 18 R402 | empty | running image in the firmware working area. -/
  running : List Byte
  /-- 63 MiB | 18 R403 | empty | staged image. -/
  stage : List Byte
  /-- 256 x 64 B | 18 R409 | EMPTY | key slots, key 1 then key 2, by slot. -/
  keys : Tab (List Byte)
  /-- 4 | 18 R407 | none | SPDM sessions. -/
  sessions : List Session
  /-- 1 bit | 18 R405 | false | the mask-ROM loader runs. -/
  recovery : Bool
  /-- 1 bit | 18 R406 | false | the alias key exists. -/
  aliasKey : Bool
  /-- a device record | 01 R27 | none | the union of the fresh and the saved repair map, until it is saved. -/
  union : DevRecord
  deriving DecidableEq, Repr, Inhabited

/-- The whole machine. -/
structure State where
  /-- 16 bit x 8 bit x 64 bit | 19 R412 | the cards' defaults | object dictionary: value by index * 256 + subindex (R14). -/
  dict : Tab Nat
  /-- commands | the model's own | empty | commands waiting, first in, first out. -/
  pending : List Instr
  /-- outputs | the model's own | empty | what has left the device, newest first. -/
  out : List Output
  /-- tick | 17 R390 | 0 | always-on time in periods of 40 ns since power was first applied. -/
  now : Nat
  /-- count | the model's own | DESIGN CHOICE 0 (log 3) | the next free value's number. -/
  freeCtr : Nat
  /-- 5 bit, 3 bit, 1 bit | 01 R17, R18, R19 | 0 | arbiters' pointers: region arbiter q (key q), device arbiter (4), codec lane dispatch of
  region q (8 + q), work-tile dispatch (12), block arbiter of block region * 16 + block (64 + it), input of a codec lane
  region * 256 + block * 16 + lane (1024 + it). -/
  arb : Tab Nat
  own : Own
  mem : Mem
  fac : Fac
  /-- 65,536 | 07 R172 | IDLE | jobs, by number. -/
  jobs : Tab JobRec
  /-- 256 | 07 R187 | IDLE | reductions, by number. -/
  reds : Tab RedRec
  shared : Shared
  queues : Queues
  ports : Ports
  svc : Svc
  reg : Regulation
  /-- 16 | 13 R307 | UNTRAINED | stacks, by number. -/
  stackTab : Tab StackRec
  media : Media
  integ : Integ
  recov : Recov
  power : Power
  boot : Boot
  glody : Glody
  deriving DecidableEq, Repr

/-- Why the machine stops with a fault. -/
inductive Fault where
  /-- A DPA of 2^42 or more, which does not exist (R41). No command raises it: a request for one is refused with NO_WINDOW at its port (R56).
  Safe: nothing stops. -/
  | dpaRange
  deriving DecidableEq, Repr

/-- Why a command has no meaning. -/
inductive Refusal where
  /-- A command of the table without a meaning yet; no arm answers with it. Safe. -/
  | notModelled (mnemonic : String)
  deriving DecidableEq, Repr

/-- The state as cold power-up begins: every field at its reset value, nothing queued (R366, R399). -/
def State.reset : State :=
  { dict := [], pending := [], out := [], now := 0, freeCtr := 0, arb := [], own := default, mem := default, fac := default,
    jobs := [], reds := [], shared := default, queues := default, ports := default, svc := { (default : Svc) with perstOff := true },
    reg := default, stackTab := [], media := default, integ := default, recov := default, power := default,
    boot := default, glody := default }

end Sys2Proof.Machine
end

