-- ==== Sys2Proof/Machine/Tab.lean ====
section
/-! DEFINITION. Sparse tables in one canonical form: keys strictly rising, no value equal to the value an unlisted key holds. -/
namespace Sys2Proof.Machine

/-- The value listed under a key. -/
def Tab.find? {α : Type} (k : Nat) : Tab α → Option α
  | [] => none
  | (j, v) :: t => if j = k then some v else Tab.find? k t

/-- The value under a key, `d` when it is not listed. -/
def Tab.getD {α : Type} (d : α) (k : Nat) (t : Tab α) : α := (Tab.find? k t).getD d

/-- The value under a key; an unlisted key holds the type's default. -/
def Tab.get {α : Type} [Inhabited α] (k : Nat) (t : Tab α) : α := Tab.getD default k t

/-- The table without a key. -/
def Tab.erase {α : Type} (k : Nat) : Tab α → Tab α
  | [] => []
  | (j, v) :: t => if j = k then Tab.erase k t else (j, v) :: Tab.erase k t

/-- Insert before the first larger key. -/
def Tab.insert {α : Type} (k : Nat) (v : α) : Tab α → Tab α
  | [] => [(k, v)]
  | (j, w) :: t => if k < j then (k, v) :: (j, w) :: t else (j, w) :: Tab.insert k v t

/-- Write `v` under `k`, where an unlisted key holds `d`. -/
def Tab.setD {α : Type} [DecidableEq α] (d : α) (k : Nat) (v : α) (t : Tab α) : Tab α :=
  if v = d then Tab.erase k t else Tab.insert k v (Tab.erase k t)

/-- Write `v` under `k`, where an unlisted key holds the type's default. -/
def Tab.set {α : Type} [Inhabited α] [DecidableEq α] (k : Nat) (v : α) (t : Tab α) : Tab α :=
  Tab.setD default k v t

/-- Change the value under `k`. -/
def Tab.mod {α : Type} [Inhabited α] [DecidableEq α] (k : Nat) (f : α → α) (t : Tab α) : Tab α :=
  Tab.set k (f (Tab.get k t)) t

/-- `n` values from key `a` of a listing that begins at or above it. -/
def fillRun {α : Type} (d : α) : Nat → Nat → Tab α → List α
  | _, 0, _ => []
  | a, n + 1, [] => d :: fillRun d (a + 1) n []
  | a, n + 1, (k, v) :: t => if k = a then v :: fillRun d (a + 1) n t else d :: fillRun d (a + 1) n ((k, v) :: t)

/-- The values under the `n` keys from `a`, where an unlisted key holds `d`. -/
def Tab.readRun {α : Type} (d : α) (a n : Nat) (t : Tab α) : List α :=
  fillRun d a n (t.filter (fun p => decide (a ≤ p.1 ∧ p.1 < a + n)))

/-- Key and value pairs from key `a`. -/
def pairsFrom {α : Type} : Nat → List α → Tab α
  | _, [] => []
  | a, v :: vs => (a, v) :: pairsFrom (a + 1) vs

/-- Write values under the keys from `a`, where an unlisted key holds `d`. -/
def Tab.writeRun {α : Type} [DecidableEq α] (d : α) (a : Nat) (vs : List α) (t : Tab α) : Tab α :=
  t.filter (fun p => decide (p.1 < a)) ++ (pairsFrom a vs).filter (fun p => decide (p.2 ≠ d)) ++
    t.filter (fun p => decide (a + vs.length ≤ p.1))

/-- Write every pair of a list, where an unlisted key holds `d`. -/
def Tab.putAll {α : Type} [DecidableEq α] (d : α) (l : List (Nat × α)) (t : Tab α) : Tab α := l.foldl (fun t p => Tab.setD d p.1 p.2 t) t

/-- Keys listed, rising. -/
def Tab.keys {α : Type} (t : Tab α) : List Nat := t.map Prod.fst

/-- The canonical form, where an unlisted key `k` holds `d k`. -/
def Tab.wfBy {α : Type} [DecidableEq α] (d : Nat → α) : Tab α → Bool
  | [] => true
  | (k, v) :: t => v ≠ d k && t.all (fun p => decide (k < p.1)) && Tab.wfBy d t

/-- The canonical form for one default value. -/
def Tab.wf {α : Type} [DecidableEq α] (d : α) (t : Tab α) : Bool := Tab.wfBy (fun _ => d) t

end Sys2Proof.Machine
end

