-- ==== Sys2Proof/Machine/Ops.lean ====
section
/-! DEFINITION. The named operations every chapter uses: the dictionary's values, time, outputs, CBOR, notices, records,
interrupts, and raising SAFE. -/
namespace Sys2Proof.Machine

/-- The outcome of a command. -/
abbrev R := Host.Outcome State Fault Refusal

/-- The value of a dictionary entry (R412); an index and subindex without an entry read 0. -/
def State.par (s : State) (k : Nat) : Nat := Tab.getD (dictDefault k) k s.dict

/-- Set a dictionary value, whatever its access kind: the device's own writes. -/
def State.setPar (s : State) (k v : Nat) : State :=
  { s with dict := Tab.setD (dictDefault k) k (v % 2 ^ 64) s.dict }

/-- The width of an entry's type in bits. -/
def widthOf (k : Nat) : Nat := ((cardOf k).map Card.bits).getD 64

/-- Count up, modulo the width of the counter's type. -/
def State.count (s : State) (k n : Nat) : State := s.setPar k ((s.par k + n) % 2 ^ widthOf k)

/-- Count down, stopping at 0. -/
def State.uncount (s : State) (k n : Nat) : State := s.setPar k (s.par k - n)

/-- Something leaves the device. -/
def State.emit (s : State) (o : Output) : State := { s with out := o :: s.out }

/-- Always-on time in microseconds: 25 periods of the 25 MHz clock (R390). -/
def State.us (s : State) : Nat := s.now / 25

/-- Always-on time in milliseconds. -/
def State.ms (s : State) : Nat := s.now / 25000

/-- `n` milliseconds in ticks. -/
def msT (n : Nat) : Nat := n * 25000

/-- `n` microseconds in ticks. -/
def usT (n : Nat) : Nat := n * 25

/-- `n` nanoseconds in ticks, rounded up. -/
def nsT (n : Nat) : Nat := cdiv n 40

/-- A free value (R16): nothing constrains it. -/
def State.freeValue (s : State) : Nat := Config.free s.freeCtr

/-- The next free value's number. -/
def State.freeNext (s : State) : State := { s with freeCtr := s.freeCtr + 1 }

/-- Apply a step for each item of a list. -/
def forAll {α : Type} (f : α → State → State) : List α → State → State
  | [], s => s
  | x :: xs, s => forAll f xs (f x s)

/-- Device states (R366). -/
def dsInit : Nat := 0
def dsStandby : Nat := 1
def dsService : Nat := 2
def dsSafe : Nat := 3
def dsOut : Nat := 4

/-- The device state (R366). -/
def State.dev (s : State) : Nat := s.par P.devState

/-- The device is in SERVICE. -/
def State.serving (s : State) : Bool := s.dev == dsService

/-- A warm device reset runs (R367). -/
def State.warm (s : State) : Bool := s.par P.devResetPhase != 0

/-! CBOR, core deterministic encoding (R362). -/

/-- The head of a CBOR item: major type and argument, shortest form. -/
def cborHead (major n : Nat) : List Byte :=
  let b (x : Nat) : Byte := BitVec.ofNat 8 (major * 32 + x)
  if n < 24 then [b n]
  else if n < 2 ^ 8 then b 24 :: beBytes 1 n
  else if n < 2 ^ 16 then b 25 :: beBytes 2 n
  else if n < 2 ^ 32 then b 26 :: beBytes 4 n
  else b 27 :: beBytes 8 n

/-- An unsigned integer. -/
def cborUint (n : Nat) : List Byte := cborHead 0 n

/-- An integer. -/
def cborInt (i : Int) : List Byte := if 0 ≤ i then cborHead 0 i.toNat else cborHead 1 (-1 - i).toNat

/-- A byte string. -/
def cborBytes (bs : List Byte) : List Byte := cborHead 2 bs.length ++ bs

/-- An array. -/
def cborArr (xs : List (List Byte)) : List Byte := cborHead 4 xs.length ++ xs.flatten

/-- A map with unsigned keys, given in rising order. -/
def cborMap (xs : List (Nat × List Byte)) : List Byte :=
  cborHead 5 xs.length ++ (xs.map (fun p => cborUint p.1 ++ p.2)).flatten

/-- A map whose values are unsigned integers. -/
def cborNats (xs : List (Nat × Nat)) : List Byte := cborMap (xs.map (fun p => (p.1, cborUint p.2)))

/-! Datagrams (R417, R423). -/

/-- Drop the oldest datagram of priority `p` from a queue kept oldest first. -/
def dropOldest (p : Nat) : List Datagram → List Datagram
  | [] => []
  | d :: ds => if d.prio = p then ds else d :: dropOldest p ds

/-- The lowest priority present in a queue: the greatest number. -/
def lowestPrio (q : List Datagram) : Nat := (q.map Datagram.prio).foldl Nat.max 0

/-- Put a datagram into the transmit queue (R423). At a full queue the oldest datagram of the lowest priority present is
dropped and counted; a recovery notice is never dropped. -/
def State.enqueue (s : State) (d : Datagram) : State :=
  let q := s.glody.txq ++ [d]
  if q.length ≤ 64 then { s with glody := { s.glody with txq := q } }
  else
    let p := lowestPrio q
    if p = 0 then { s with glody := { s.glody with txq := q } }
    else ({ s with glody := { s.glody with txq := dropOldest p q } } : State).count P.glodyNoticeDrop 1

/-- Queue a notice and its repeat (R423): priority, schema, signed or not, sequence, payload. -/
def State.sendNotice (s : State) (prio op : Nat) (sign : Bool) (seq : Nat) (payload : List Byte) : State :=
  let d : Datagram := { prio := prio, type := 3, op := op, flags := if sign && s.boot.aliasKey then 2 else 0, status := 0,
                        session := 0, seq := seq, payload := payload }
  let s := s.enqueue d
  if s.par P.glodyRepeatMs = 0 then s
  else { s with glody := { s.glody with
    again := s.glody.again ++ [(s.now + msT (s.par P.glodyRepeatMs), { d with flags := d.flags + 4 })] } }

/-- Store a recovery or event notice in glody_notice_store (R423). -/
def State.storeNotice (s : State) (seq : Nat) (payload : List Byte) : State :=
  { s with glody := { s.glody with store := Tab.set (seq % 256) (leBytes 2 payload.length ++ payload) s.glody.store } }

/-- The next notice sequence (R423). -/
def State.noticeSeq (s : State) : Nat := (s.par P.glodyNoticeSeq + 1) % 2 ^ 32

/-- An event notice (R424): event and args. -/
def State.notice (s : State) (event : Nat) (args : List (Nat × List Byte)) : State :=
  let seq := s.noticeSeq
  let bytes := cborMap [(0, cborUint 1), (1, cborUint seq), (2, cborUint s.ms), (3, cborBytes devIdBytes),
                        (4, cborUint event), (5, cborMap args)]
  (((s.setPar P.glodyNoticeSeq seq).storeNotice seq bytes).sendNotice 3 3 true seq bytes)

/-- A recovery notice (R383): phase, further keys, and whether the management cores can sign it. -/
def State.recoveryNotice (s : State) (phase : Nat) (keys : List (Nat × List Byte)) (sign : Bool) : State :=
  let seq := s.noticeSeq
  let bytes := cborMap ([(0, cborUint 1), (1, cborUint seq), (2, cborUint s.ms), (3, cborBytes devIdBytes),
                         (4, cborUint phase)] ++ keys)
  (((s.setPar P.glodyNoticeSeq seq).storeNotice seq bytes).sendNotice 0 1 sign seq bytes)

/-! Interrupts of the service function (R238, R284, R291). -/

/-- MSI-X is enabled and not masked as a whole (R272: capability at 0x50). -/
def State.msixOn (s : State) : Bool :=
  let c := Tab.get (0x50 / 4) s.svc.cfg
  fld c 31 31 == 1 && fld c 30 30 == 0

/-- The service link carries the device's requests now (R277). -/
def State.svcOpen (s : State) : Bool := s.svc.bme && s.svc.dstate == 0 && s.svc.dl && !s.svc.inReset && !s.svc.flr

/-- Put a request into the service egress queues (R276). -/
def State.svcPut (s : State) (r : SvcReq) : State := { s with svc := { s.svc with egress := s.svc.egress ++ [{ r with since := s.now }] } }

/-- Raise an MSI-X vector of the service function (R238, R284): sent through the egress scheduler, or held as pending
while the vector is masked or Bus Master Enable is 0. -/
def State.msixSvc (s : State) (v : Nat) : State :=
  let m := Tab.get v s.svc.msix
  if s.svc.bme && s.msixOn && m % 2 = 1 then
    s.svcPut { who := 0, read := false, addr := 0, len := 0, data := [], bad := [], tok := 2 ^ 31 + v, since := 0 }
  else { s with svc := { s.svc with msix := Tab.set v (m % 2 + 2) s.svc.msix } }

/-- An enabled wake cause of the service function (R288): PME_Status, and PM_PME or WAKE#. -/
def State.wakeSvc (s : State) (bit : Nat) : State :=
  if s.svc.dstate = 0 || (s.par P.svcWakeMask).testBit bit == false then s
  else
    let s := { s with svc := { s.svc with pme := true } }
    if s.svc.dstate = 1 then
      if fld (Tab.get (0x44 / 4) s.svc.cfg) 8 8 = 1 then s.emit (.svcMsg 0 0) else s
    else if s.svc.perstOff then { s with svc := { s.svc with wake := true } } else s

/-- A device-level event (R291): 1 CAPACITY, 2 GUARANTEE_MISSED, 3 STATE_CHANGE, 4 SIGNATURE, 5 DETOUR_LOST, 6 JOB_DAMAGED. -/
def State.raise (s : State) (n : Nat) : State :=
  let s := s.setPar P.svcIrqStatus (s.par P.svcIrqStatus ||| 2 ^ (n - 1))
  let c := s.par (P.svcIrqCfg (n - 1))
  (if fld c 15 15 = 1 then s.msixSvc (fld c 10 0) else s).wakeSvc 2

/-! Failure-signature records (R362-R364). -/

/-- The unit field (R362): type and index. -/
def unitOf (type idx : Nat) : Nat := type * 4096 + idx

/-- The unit field of compute block b, given as region * 16 + block. -/
def unitBlk (b : Nat) : Nat := unitOf 3 b

/-- What a record carries beyond its own numbering. -/
structure RecArgs where
  kind : Nat
  unit : Nat
  cls : Nat
  ctx : List (Nat × Nat)
  detail : List (Nat × List Byte)
  flags : Nat
  action : Nat

/-- The flags of a record at the moment of the fault (R362). -/
def recFlags (s : State) (unit extra : Nat) : Nat :=
  (if s.par P.integChecks = 0 then 1 else 0) + (if s.par P.integDual ≠ 0 then 2 else 0) +
  (if unit / 4096 = 3 && s.par (P.blkState (unit % 4096 / 16) (unit % 16)) == 1 then 4 else 0) + extra

/-- The CBOR map of a record (R362). -/
def recBytes (s : State) (seq : Nat) (a : RecArgs) : List Byte :=
  let opt (k n : Nat) : List (Nat × List Byte) := if n = 0 then [] else [(k, cborUint n)]
  cborMap ([(0, cborUint 1), (1, cborUint seq), (2, cborUint s.ms), (3, cborBytes devIdBytes),
            (4, cborUint (s.par P.fwVersion)), (5, cborUint a.kind), (6, cborUint a.unit), (7, cborUint a.cls),
            (8, cborUint s.dev)]
    ++ (if a.ctx.isEmpty then [] else [(9, cborNats a.ctx)])
    ++ (if a.detail.isEmpty then [] else [(10, cborMap a.detail)])
    ++ opt 11 (recFlags s a.unit a.flags) ++ opt 12 a.action)

/-- The writable bits of a configuration dword at reset (R273, R285). PRESUMED: the PCI Express standard's reset values. -/
def svcDefault (i : Nat) : Nat :=
  if i = 0x68 / 4 then 0x2910
  else if i = 0x90 / 4 then 5
  else if i = 0x108 / 4 then 2 ^ 22
  else if i = 0x10C / 4 then 2 ^ 4 + 2 ^ 13 + 2 ^ 17 + 2 ^ 18 + 2 ^ 22
  else if i = 0x114 / 4 then 2 ^ 13 + 2 ^ 14
  else 0

/-- The writable bits of a configuration dword of the service function; `svc.cfg` holds what differs from reset (R272). -/
def State.svcReg (s : State) (i : Nat) : Nat := Tab.get i s.svc.cfg ^^^ svcDefault i

/-- A correctable error of the AER capability (R285): status, and ERR_COR where unmasked and enabled. -/
def State.aerCorr (s : State) (bit : Nat) : State :=
  let s := { s with svc := { s.svc with aerCor := s.svc.aerCor ||| 2 ^ bit, devSta := s.svc.devSta ||| 1 } }
  if (s.svcReg (0x114 / 4)).testBit bit == false && (s.svcReg (0x68 / 4)).testBit 0 then s.emit (.svcMsg 2 0) else s

/-- An uncorrectable error of the AER capability (R285, R286): status, the header of the first TLP error (the TLP is not the
model's: a free value), the First Error Pointer, and its message where unmasked and enabled; `advisory`: logged as Advisory
Non-Fatal where its severity is non-fatal. -/
def State.aerUncorr (s : State) (bit : Nat) (advisory : Bool) : State :=
  let first := !s.svc.aerUnc.testBit s.svc.firstErr
  let tlp := [12, 16, 18, 19, 20].contains bit && !s.svc.aerUnc.testBit bit
  let masked := (s.svcReg (0x108 / 4)).testBit bit
  let ctl := s.svcReg (0x68 / 4)
  let serr := (s.svcReg 1).testBit 8
  let fatal := (s.svcReg (0x10C / 4)).testBit bit
  let s := if first && tlp && !masked then { s.freeNext with svc := { s.svc with hdrLog := s.freeValue % 2 ^ 128 } } else s
  let s := { s with svc := { s.svc with aerUnc := s.svc.aerUnc ||| 2 ^ bit, firstErr := if first && !masked then bit else s.svc.firstErr } }
  let seen := (if advisory && !fatal then 1 else if fatal then 4 else 2) ||| (if bit = 20 then 8 else 0)
  let s := { s with svc := { s.svc with devSta := s.svc.devSta ||| seen } }
  if advisory && !fatal then (if masked then { s with svc := { s.svc with aerCor := s.svc.aerCor ||| 2 ^ 13 } } else s.aerCorr 13)
  else if masked then s
  else if fatal then (if ctl.testBit 2 || serr then s.emit (.svcMsg 4 0) else s)
  else if ctl.testBit 1 || serr then s.emit (.svcMsg 3 0) else s

/-- A Corrected Internal Error, at most one per second (R285). -/
def State.aerCorrected (s : State) : State :=
  if s.svc.corAt = 0 || s.svc.corAt + msT 1000 ≤ s.now + 1 then
    { s with svc := { s.svc with corAt := s.now + 1 } }.aerCorr 14
  else s

/-- Send a failure-signature record (R364): stored, sent as a notice, raised as SIGNATURE, and kept in the flash when its
action is SAFE or OUT_OF_SERVICE. -/
def State.record (s : State) (a : RecArgs) : State :=
  let seq := (s.par P.integSigSeq + 1) % 2 ^ 32
  let bytes := recBytes s seq a
  let hseq := s.noticeSeq
  let hid := match a.ctx.find? (fun p => p.1 == 4) with | some p => p.2 + 1 | none => 0
  let s := (s.setPar P.integSigSeq seq).setPar P.glodyNoticeSeq hseq
  let s := { s with glody := { s.glody with
    sigStore := Tab.set (seq % 8192) bytes s.glody.sigStore
    sigHid := Tab.set (seq % 8192) hid s.glody.sigHid
    flashRecs := if a.action = 5 || a.action = 6 then (bytes :: s.glody.flashRecs).take 64 else s.glody.flashRecs } }
  let s := s.sendNotice 1 2 true hseq bytes
  let s := if 1 ≤ a.cls && a.cls ≤ 5 && a.action < 5 then s.aerCorrected else s
  s.raise 4

/-! SAFE (R366-R369). -/

/-- A cause of SAFE arises (R368): the first to arrive decides, the entry actions follow (SAFE_ENTRY). -/
def State.raiseSafe (s : State) (cause : Nat) : State :=
  if (s.dev == dsStandby || s.dev == dsService) && s.recov.safeDue == 0 then
    { s.setPar P.devSafeCause (cause * 2 ^ 56 + s.par P.integSigSeq) with
      recov := { s.recov with safeDue := cause, wasService := s.dev == dsService } }
  else s

/-- A condition that ends in OUT_OF_SERVICE arises (R366): the SAFE entry actions, unless already done, then OUT_OF_SERVICE. -/
def State.raiseOut (s : State) (cause : Nat) : State :=
  if s.dev = dsOut then s
  else
    let s' := s.raiseSafe cause
    { s' with recov := { s'.recov with oosDue := true } }

/-- A change of dev_state (R366): the register, STATE_CHANGE and the STATE notice (R291, R424). -/
def State.setDev (s : State) (d : Nat) : State :=
  if s.dev = d then s
  else
    let old := s.dev
    ((s.setPar P.devState d).raise 3).notice 14
      [(0, cborUint old), (1, cborUint d), (2, cborUint (s.par P.devSafeCause / 2 ^ 56))]

/-- A failed conservation audit (R429): an AUDIT record naming the law and its counts, and SAFE. -/
def State.auditFail (s : State) (law unit : Nat) (counts : List Nat) : State :=
  (s.record { kind := 7, unit := unit, cls := 0, ctx := [], flags := 0, action := 5,
              detail := [(0, cborUint law), (1, cborArr (counts.map cborUint))] }).raiseSafe 1

/-! Regions, stacks and blocks (R4, R22). -/

/-- The active blocks of a region, by number (R5): states ACTIVE and OBSERVED. -/
def State.activeBlocks (s : State) (q : Nat) : List Nat :=
  (List.range 9).filter (fun c => s.par (P.blkState q c) ≤ 1)

/-- The rotating pointer's choice (R18): the first eligible number at or above `p`, wrapping. -/
def rotPick (n p : Nat) (ok : Nat → Bool) : Option Nat :=
  ((List.range n).map (fun i => (p + i) % n)).find? ok

/-- Ticks within `w` of now, from a list kept newest first. -/
def recent (now w : Nat) (l : List Nat) : List Nat := l.filter (fun t => decide (now ≤ t + w))

end Sys2Proof.Machine
end

