-- ==== Sys2Proof/Machine/Space.lean ====
section
/-! DEFINITION. The device physical address space: partitions, windows, ownership and host identities (R41-R65). -/
namespace Sys2Proof.Machine

/-- The first DPA that does not exist (R41). -/
def dpaEnd : Nat := 2 ^ 42

/-- The objects of a parameter family some entry of which is listed: `count` indices from `base`, `per` objects an index at
`stride`, the entry at subindex `sub`. -/
def State.objs (s : State) (base count per stride sub : Nat) : List Nat :=
  s.dict.filterMap (fun p =>
    let i := p.1 / 256
    let b := p.1 % 256
    if base ≤ i ∧ i < base + count ∧ b % stride = sub ∧ b / stride < per then some ((i - base) * per + b / stride) else none)

/-! Stack sets (R45, R46). -/

/-- The regions of a stack set, in list order (R45). -/
def setRegions : Nat → List Nat
  | 0 => [0, 1, 2, 3]
  | 1 => [0, 1]
  | 2 => [2, 3]
  | n => [n - 3]

/-- The number of regions of a set. -/
def setSize (n : Nat) : Nat := (setRegions n).length

/-- The partner region of a block homed in q, in a set of k regions (R47). -/
def partnerRegion (set q : Nat) : Nat :=
  if setSize set = 4 then q ^^^ 2 else (((setRegions set).filter (· ≠ q)).head?).getD q

/-- The stacks of a region (R4). -/
def regionStacks (q : Nat) : List Nat := [4 * q, 4 * q + 1, 4 * q + 2, 4 * q + 3]

/-! Partitions (R43, R44). -/

/-- The partitions in force, rising. -/
def State.partsOn (s : State) : List Nat := s.own.parts.filterMap (fun p => if p.2.inForce then some p.1 else none)

/-- A range [a, a+n) lies in [b, b+m). -/
def within (a n b m : Nat) : Bool := decide (b ≤ a ∧ a + n ≤ b + m)

/-- Two ranges share an address. -/
def overlaps (a n b m : Nat) : Bool := decide (a < b + m ∧ b < a + n)

/-- The partition in force that holds a DPA (R41). -/
def State.partAt (s : State) (dpa : Nat) : Option Nat :=
  s.partsOn.find? (fun n => within dpa 1 (s.par (P.partBase n)) (s.par (P.partSize n)))

/-- The home region of a DPA in partition n (R46). -/
def State.homeIn (s : State) (n dpa : Nat) : Nat :=
  let l := setRegions (s.par (P.partStackSet n))
  (l[((dpa - s.par (P.partBase n)) / 4096) % l.length]?).getD 0

/-- The home region of a DPA. -/
def State.home (s : State) (dpa : Nat) : Option Nat := (s.partAt dpa).map (fun n => s.homeIn n dpa)

/-- MIRROR partition (R47). -/
def State.mirrored (s : State) (n : Nat) : Bool := s.par (P.partRedundancy n) == 1

/-! Windows (R51-R54). -/

/-- Window kinds (R51). -/
def wTransparent : Nat := 1
def wFactor : Nat := 2
def wFactoring : Nat := 3
def wGradient : Nat := 4
def wT0 : Nat := 5
def wT1 : Nat := 6

/-- The COMMITTED windows, rising (R53). -/
def State.winsOn (s : State) : List Nat := (s.objs 0x4200 64 16 16 7).filter (fun w => s.par (P.winState w) == 1)

/-- Window w covers a DPA. -/
def State.winHas (s : State) (w dpa : Nat) : Bool := within dpa 1 (s.par (P.winBase w)) (s.par (P.winSize w))

/-- The COMMITTED window that holds a DPA (R41). -/
def State.winAt (s : State) (dpa : Nat) : Option Nat := s.winsOn.find? (fun w => s.winHas w dpa)

/-! Host identities (R63). -/

/-- The port block and the half of a link number k = port * 2 + half. -/
def linkPort (k : Nat) : Nat := k / 2

/-- The dictionary entry of port_ld_hid for a port operand link * 16 + LD (R63, R243). -/
def hidKey (port : Nat) : Nat :=
  let k := port / 16
  let l := port % 16
  P.portLdHid (k / 2) (if k % 2 = 1 then 8 + l % 8 else l)

/-- The HID of an LD; 255: not bound (R63). -/
def State.hidOf (s : State) (port : Nat) : Nat := s.par (hidKey port)

/-! Ownership (R60, R61, R65). -/

/-- Rights as the bits of an ownership entry's word 2 (R61). -/
def rR : Nat := 1
def rW : Nat := 2
def rP : Nat := 4
def rF : Nat := 8

/-- The valid ownership entries, rising. -/
def State.entriesOn (s : State) : List Nat :=
  (s.objs 0x5100 256 16 16 1).filter (fun e => fld (s.par (P.ownWord e 1)) 63 63 == 1)

/-- Entry e covers the extent of a DPA for a HID (R61). -/
def State.entryCovers (s : State) (e hid dpa : Nat) : Bool :=
  let w := s.par (P.ownWord e 1)
  decide (fld w 20 0 ≤ dpa / 2 ^ 21 ∧ dpa / 2 ^ 21 ≤ fld w 41 21) && (s.par (P.ownWord e (3 + hid / 64))).testBit (hid % 64)

/-- The result of an ownership check. -/
inductive Grant where
  /-- Granted: class tag. -/
  | ok (cls : Nat)
  /-- No entry covers the extent for the HID. -/
  | noEntry
  /-- An entry covers it without the rights. -/
  | rights
  deriving DecidableEq, Repr

/-- The ownership check of R61 for a HID, a DPA and rights; with fm_trust_mode 1, R and W are granted on every committed
window with class tag 0, and P and F never (R65). -/
def State.grant (s : State) (hid dpa need : Nat) : Grant :=
  if s.par P.fmTrustMode = 1 then
    if need &&& (rP + rF) = 0 then .ok 0 else .rights
  else if 255 < hid then .noEntry
  else
    let es := s.entriesOn.filter (fun e => s.entryCovers e hid dpa)
    match es.find? (fun e => s.par (P.ownWord e 2) &&& need == need) with
    | some e => .ok (fld (s.par (P.ownWord e 2)) 7 4)
    | none => if es.isEmpty then .noEntry else .rights

/-- The ownership check of a CXL.mem request from an LD: one that is not bound is granted nothing (R63). -/
def State.portGrant (s : State) (port dpa need : Nat) : Grant :=
  if s.hidOf port = 255 then .noEntry else s.grant (s.hidOf port) dpa need

/-- Every extent of [a, a+n) is granted to a HID. -/
def State.grantRange (s : State) (hid a n need : Nat) : Bool :=
  (List.range ((a + n - 1) / 2 ^ 21 + 1 - a / 2 ^ 21)).all (fun i =>
    match s.grant hid ((a / 2 ^ 21 + i) * 2 ^ 21) need with | .ok _ => true | _ => false)

/-- The class tag of a grant. -/
def Grant.cls : Grant → Nat
  | .ok c => c
  | _ => 0

/-! Links (R243, R248). -/

/-- The configured width of link k under its pair's layout, 0 when the layout forms no such link (R243). -/
def State.cfgWidth (s : State) (k : Nat) : Nat :=
  let p := k / 2
  let h := k % 2
  match Tab.get (p / 2) s.ports.layout with
  | 0 => if h = 0 then 8 else 0
  | 1 => if h = 0 ∧ p % 2 = 0 then 16 else 0
  | 2 => 4
  | _ => if p % 2 = 0 then (if h = 0 then 8 else 0) else 4

/-- Payload of a lane in MB/s by rate code (R244). -/
def laneRate : Nat → Nat
  | 0 => 3750
  | 1 => 7500
  | _ => 15000

/-- Link k is UP. -/
def State.linkUp (s : State) (k : Nat) : Bool := (Tab.get k s.ports.link).st == 3

/-- An LD is bound on a link that is UP (R247). -/
def State.ldUp (s : State) (port : Nat) : Bool := s.linkUp (port / 16) && decide (port % 16 < (Tab.get (port / 16) s.ports.link).lds)

/-- The links that are listed. -/
def State.links (s : State) : List Nat := Tab.keys s.ports.link

/-- A link's floor in MB/s (R300): payload at the trained width and rate, or as configured when it is not UP. -/
def State.linkFloor (s : State) (k : Nat) : Nat :=
  if s.linkUp k then (Tab.get k s.ports.link).width * laneRate (Tab.get k s.ports.link).rate
  else s.cfgWidth k * laneRate (s.par (P.portMaxRate (k / 2)))

/-- Change a link. -/
def State.modLink (s : State) (k : Nat) (f : LinkRec → LinkRec) : State :=
  { s with ports := { s.ports with link := Tab.mod k f s.ports.link } }

/-- Link states (R248, R372). -/
def lkOff : Nat := 0
def lkDetect : Nat := 1
def lkTraining : Nat := 2
def lkUp : Nat := 3
def lkIncompatible : Nat := 4
def lkBackoff : Nat := 5
def lkAbsorbed : Nat := 6
def lkFailed : Nat := 7

/-- A link's record. -/
def State.link (s : State) (k : Nat) : LinkRec := Tab.get k s.ports.link

/-- Depth of a receive channel of a link of `w` lanes (R250): 0 M2S Req, 1 M2S RwD, 2 M2S BIRsp, 3-5 CXL.io. -/
def linkDepth (w ch : Nat) : Nat := w / 4 * (match ch with | 0 => 128 | 1 => 64 | _ => 32)

/-- The link's egress buffer is full (R252). -/
def LinkRec.full (l : LinkRec) : Bool := decide (256 ≤ l.egress.length)

/-- Requests in the M2S Req buffer (channel 0) or the M2S RwD buffer (1) of link k: those beyond the 16 of a master's hold queue, and
those at the hubs that the link's full egress buffer keeps from their grant (R251, R252, R297). -/
def State.inBuffer (s : State) (k ch : Nat) : Nat :=
  let mine := fun (r : HeldReq) => r.write == (ch == 1)
  ((List.range 16).map (fun l => (((Tab.get (k * 16 + l) s.reg.masters).hold.drop 16).filter mine).length)).sum +
    (if (Tab.get k s.ports.link).full then (s.recov.held.filter (fun r => r.port / 16 == k && mine r)).length else 0)

/-- Keep the counts of the request channels (R251): an entry not occupied has its credit granted. -/
def State.syncReq (s : State) (k : Nat) : State :=
  let n := s.inBuffer k
  let free := fun (l : LinkRec) (ch : Nat) => if l.st = lkUp then linkDepth (s.cfgWidth k) ch - n ch else 0
  s.modLink k (fun l => { l with
    occ := Tab.set 1 (n 1) (Tab.set 0 (n 0) l.occ), granted := Tab.set 1 (free l 1) (Tab.set 0 (free l 0) l.granted) })

/-! Transmission (R250-R253). -/

/-- The link has a transmit credit of the channel. An advertisement of 0 is one without limit. PRESUMED: as in the PCI Express standard
(log 110). -/
def LinkRec.mayTx (l : LinkRec) (ch : Nat) : Bool := Tab.get ch l.adv == 0 || Tab.get ch l.tx != 0

/-- A message goes out on its channel: its credit is spent, and held again where the partner returns it at once. -/
def State.transmit (s : State) (k ch : Nat) (o : Output) : State :=
  (s.modLink k (fun l => if l.back = 0 ∨ Tab.get ch l.adv = 0 then l
    else { l with tx := Tab.mod ch (· - 1) l.tx, sent := Tab.mod ch (· + 1) l.sent })).emit o

/-- A message leaves on link k, or waits for a credit behind the earlier messages of its channel (R250, R252). -/
def State.send (s : State) (k ch : Nat) (o : Output) : State :=
  let l := s.link k
  if l.mayTx ch && !l.egress.any (fun m => m.1 == ch) then s.transmit k ch o
  else s.modLink k (fun l => { l with egress := l.egress ++ [(ch, o)], stallAt := if l.egress.isEmpty then s.now else l.stallAt })

/-- The partner returns every credit it owes, and what waited goes out as far as they reach. -/
def State.creditsBack (s : State) (k : Nat) : State :=
  let l := s.link k
  let tx := l.sent.foldl (fun t p => Tab.mod p.1 (· + p.2) t) l.tx
  forAll (fun m s => s.send k m.1 m.2) l.egress (s.modLink k (fun l => { l with tx := tx, sent := [], egress := [], stallAt := s.now }))

/-- The key of a logical device: link * 32 + LD, 16 the FM-owned LD. -/
def ldKey (port : Nat) : Nat := port / 16 * 32 + port % 16

/-- Change a logical device. -/
def State.modLd (s : State) (key : Nat) (f : LdRec → LdRec) : State :=
  { s with ports := { s.ports with ld := Tab.mod key f s.ports.ld } }

/-- A logical device. -/
def State.ld (s : State) (key : Nat) : LdRec := Tab.get key s.ports.ld

end Sys2Proof.Machine
end

