-- ==== Sys2Proof/Machine/Dict.lean ====
section
/-! DEFINITION. Writes to the object dictionary: the checks of R11, R13, R275, R413, R414 and the owners' rules, and the
refusals that BAR0 records. -/
namespace Sys2Proof.Machine

/-- Reasons of svc_bar_status (R292), statuses of R422. -/
def rsAccess : Nat := 1
def rsSize : Nat := 2
def rsReserved : Nat := 3
def rsRange : Nat := 4
def rsNoEntry : Nat := 5

/-- A queue's state field: 0 DISABLED, 1 RUNNING, 2 HALTED (R221). -/
def State.qMode (s : State) (q : Nat) : Nat := fld (s.par (P.qState q)) 7 0

/-- A job's state: 0 IDLE, 1 OPEN, 2 PREPARING, 3 PREPARED, 4 DAMAGED (R177). -/
def State.jobMode (s : State) (j : Nat) : Nat := fld (s.par (P.jobStatus j)) 7 0

/-- The jobs whose status is listed. -/
def State.jobsOn (s : State) : List Nat := s.objs 0x8400 2048 32 8 3

/-- The reductions whose state is listed. -/
def State.redsOn (s : State) : List Nat := s.objs 0x8C00 256 1 256 1

/-- Descriptor d is committed (R94). -/
def State.descOn (s : State) (d : Nat) : Bool := s.par (P.descState d) % 2 == 1

/-- Shared region n is committed (R199). -/
def State.srOn (s : State) (n : Nat) : Bool := (Tab.get n s.shared.regions).on

/-- The committed shared regions. -/
def State.srsOn (s : State) : List Nat := s.shared.regions.filterMap (fun p => if p.2.on then some p.1 else none)

/-- Shared region n is VERSIONED (R197): by the partition that holds it. -/
def State.srVersioned (s : State) (n : Nat) : Bool :=
  match s.partAt (s.par (P.srBase n)) with
  | some p => s.par (P.partShareMode p) == 1
  | none => false

/-- A key slot that a committed partition with encryption, a valid ownership entry with encryption, or the drain key of a
held freeze names (R410). -/
def State.keyInUse (s : State) (k : Nat) : Bool :=
  s.partsOn.any (fun n => s.par (P.partEncrypt n) == 1 && s.par (P.partKeySlot n) == k) ||
  s.entriesOn.any (fun e => fld (s.par (P.ownWord e 2)) 16 16 == 1 && fld (s.par (P.ownWord e 2)) 15 8 == k) ||
  s.jobs.any (fun p => p.2.freeze.on && p.2.freeze.keySlot == k) ||
  s.recov.journal.any (fun p => p.2.any (fun l => l.slot == k + 1))

/-- The device is quiet for ENTER_STANDBY (R366). -/
def State.quiet (s : State) : Bool :=
  s.par P.qRunning == 0 && s.jobsOn.all (fun j => s.jobMode j != 1 && s.jobMode j != 2) &&
  s.redsOn.all (fun n => s.par (P.redState n) != 1)

/-- dev_request values that R366, R367 and R403 allow now. -/
def State.requestOk (s : State) (v : Nat) : Bool :=
  match v with
  | 1 => s.dev == dsStandby && s.par P.fwUpdateState != 2
  | 2 => s.dev == dsService && s.quiet
  | 3 => s.dev == dsSafe && s.par P.devSafeCause / 2 ^ 56 != 6 && !s.warm
  | 4 => s.dev == dsStandby || s.dev == dsService
  | _ => false

/-- A write that a rule on the device state refuses (R11, R414). -/
def State.stateRefuse (s : State) (c : Card) (k v : Nat) : Bool :=
  (c.acc == .ro || c.acc == .const) || c.dom ||
  (if c.acc == .rws || c.states = 1 then s.dev != dsStandby
   else if c.states = 2 then s.dev != dsStandby && s.dev != dsService
   else false) ||
  (k == P.devRequest && !s.requestOk v)

/-- A write that a rule on an object's own state refuses (R11, R414). -/
def State.objRefuse (s : State) (k v : Nat) : Bool :=
  let i := k / 256
  let b := k % 256
  if 0x4100 ≤ i ∧ i < 0x4140 then b ≤ 0x0A && (Tab.get (i - 0x4100) s.own.parts).inForce
  else if 0x4200 ≤ i ∧ i < 0x4240 then b % 16 ≤ 6 && s.par (P.winState ((i - 0x4200) * 16 + b / 16)) == 1
  else if 0x4400 ≤ i ∧ i < 0x4500 then b ≤ 2 && s.srOn (i - 0x4400)
  else if 0x4600 ≤ i ∧ i < 0x4610 then
    let u := (i - 0x4600) * 32 + b / 8
    fld (s.par (P.wpWord u 3)) 47 47 == 1 && (b % 8 != 3 || fld v 47 47 == 1)
  else if 0x4800 ≤ i ∧ i < 0x5000 then b ≤ 7 && s.descOn (i - 0x4800)
  else if 0x3010 ≤ i ∧ i < 0x3020 then b == 1 && Tab.get (i - 0x3010) s.recov.failed
  else if 0x8000 ≤ i ∧ i < 0x8400 then
    let q := (i - 0x8000) * 32 + b / 8
    if b % 8 ≤ 3 then s.qMode q != 0 else b % 8 == 4 && v == 1 && s.qMode q != 0
  else if 0x8400 ≤ i ∧ i < 0x8C00 then s.jobMode ((i - 0x8400) * 32 + b / 8) != 0
  else if 0x1100 ≤ i ∧ i < 0x1104 then b % 4 == 3 && s.keyInUse ((i - 0x1100) * 64 + b / 4)
  else if i = 0x7200 then 6 ≤ b && b ≤ 0x0A && fld (s.par P.flipTarget) 15 15 == 1
  else if 0xC100 ≤ i ∧ i < 0xC110 then b ≤ 2 && s.par (P.mcSrState (i - 0xC100)) != 1
  else if k = P.fwCommit then s.par P.fwUpdateState != 1
  else if k = P.shareVersionReset then s.srsOn.any s.srVersioned
  else false

/-- Reserved bits of a write (R13); the entries whose owner checks the whole word are exempt. -/
def resvOf (c : Card) (k : Nat) : Nat :=
  let i := k / 256
  let b := k % 256
  if (0x4800 ≤ i ∧ i < 0x5000 ∧ b ≤ 7) ∨ (0x8000 ≤ i ∧ i < 0x8400 ∧ b % 8 = 3) ∨ (0x6100 ≤ i ∧ i < 0x6140 ∧ b % 16 = 1)
  then 0 else c.resv

/-- Owner's rules that tie several entries together (R161, R171, R220, R428), over the values `g` would hold after the write
of entry k. -/
def tieOk (g : Nat → Nat) (k : Nat) : Bool :=
  if k = P.capDemoteT2 ∨ k = P.capPromoteT1 ∨ k = P.capPromoteT0 ∨ k = P.capDemoteT0 then
    decide (g P.capDemoteT2 < g P.capPromoteT1 ∧ g P.capPromoteT1 ≤ g P.capPromoteT0 ∧ g P.capDemoteT0 < g P.capPromoteT0)
  else if k = P.capLowWater ∨ k = P.capEmergencyPool then decide (g P.capEmergencyPool < g P.capLowWater)
  else if k = P.glodyPlcaId ∨ k = P.glodyPlcaCoord then (g P.glodyPlcaId == 0) == (g P.glodyPlcaCoord == 1)
  else if 0x8E00 ≤ k / 256 ∧ k / 256 < 0x9000 then
    let n := k / 256 - 0x8E00
    !(g (P.grpPriv n) == 1 && g (P.grpPath n) == 1)
  else true

/-- The fields of a start of trn_ctl lie in their ranges (R318). -/
def trnOk (v : Nat) : Bool :=
  decide (fld v 62 61 ≤ 2 ∧ fld v 54 52 ≤ 4 ∧ 1 ≤ fld v 47 32 ∧ (2 < fld v 54 52 ∨ fld v 31 0 ≠ 0))

/-- The key is a trn_ctl. -/
def isTrnCtl (k : Nat) : Bool := decide (0xC100 ≤ k / 256) && decide (k / 256 < 0xC110) && k % 256 == 1

/-- A value outside an entry's range (R275), by its type, its card and the owner's rules on values. -/
def State.rangeRefuse (s : State) (c : Card) (k v : Nat) : Bool :=
  decide (2 ^ c.bits ≤ v) ||
  !(c.ranges.isEmpty || c.ranges.any (fun r => decide (r.1 ≤ v ∧ v ≤ r.2))) || decide (v % c.step ≠ 0) ||
  (if k = P.glodyNotifyHi then !(fld v 63 54 == 0x3FA || fld v 63 48 == 0xFF02)
   else if k = P.flipTarget then
     !(match fld v 13 12 with | 0 => decide (fld v 7 0 < 16) | 1 => decide (fld v 7 0 < 4) | 2 => decide (fld v 7 4 < 4 ∧ fld v 3 0 < 9) | _ => false)
   else if isTrnCtl k then fld v 63 63 == 1 && !trnOk v
   else if k = P.shareDeclareDead ∨ k = P.shareRevive then !s.srOn (v / 256)
   else false)

/-- The checks of one write but for the rules that tie entries together: the reason of a refusal, in the order access kind
and state, reserved bits, range (R420). -/
def State.checkWrite (s : State) (k v : Nat) : Option Nat :=
  match cardOf k with
  | none => some rsNoEntry
  | some c =>
    if s.stateRefuse c k v || s.objRefuse k v then some rsAccess
    else if v &&& resvOf c k ≠ 0 then some rsReserved
    else if s.rangeRefuse c k v then some rsRange
    else if k = P.domSelect then
      (match cardOf v with | some d => if d.dom then none else some rsNoEntry | none => some rsNoEntry)
    else none

/-- All checks of a write to one entry alone. -/
def State.checkOne (s : State) (k v : Nat) : Option Nat :=
  match s.checkWrite k v with
  | some r => some r
  | none => if tieOk (fun j => if j = k then v else s.par j) k then none else some rsRange

/-- A start of a training run refused for a field reads BAD_FIELD in trn_status (R318). -/
def State.badStart (s : State) (k reason : Nat) : State :=
  if isTrnCtl k && reason == rsRange then s.setPar (P.trnStatus (k / 256 - 0xC100)) 3 else s

/-- A BAR0 write that the dictionary refuses (R275). -/
def State.barRefuse (s : State) (k reason : Nat) : State :=
  ((s.badStart k reason).count P.svcBarRefused 1).setPar P.svcBarStatus (reason * 2 ^ 56 + k % 2 ^ 24)

/-- The service function decodes BAR accesses (R274, R284). -/
def State.barOn (s : State) : Bool := s.svc.mse && s.svc.dstate == 0 && !s.svc.inReset && !s.svc.flr

/-- The phases of a warm device reset in which the dictionary is shut but for index 0x2000 (R284, R413). -/
def State.warmShut (s : State) : Bool := decide (1 ≤ s.par P.devResetPhase ∧ s.par P.devResetPhase ≤ 7)

/-- The dictionary exists (R413): from the end of VERIFY, outside warm device reset and RECOVERY. -/
def State.dictOn (s : State) : Bool :=
  (decide (3 ≤ s.par P.bootPhase) || s.dev == dsOut) && !s.boot.recovery && !s.warmShut

/-- An Unsupported Request on the service link (R285). -/
def State.aerUr (s : State) : State := s.aerUncorr 20 false

/-- A BAR0 write of a whole entry, with the effect `f` of an accepted write (R275, R412): unsupported while the BAR is not
decoded, discarded while the dictionary does not exist, refused with its reason, or applied. -/
def State.barWrite (s : State) (k v : Nat) (f : State → State) : State :=
  if !s.barOn then s.aerUr
  else if !s.dictOn then s
  else
    match s.checkOne k v with
    | some r => s.barRefuse k r
    | none => f s

/-- The plain effect of an accepted write: RW1C clears the bits written 1, WO keeps nothing, everything else stores the value;
the fields that R118 makes read-only inside a waypoint's word 3 stay. -/
def State.storeWrite (s : State) (k v : Nat) : State :=
  match cardOf k with
  | none => s
  | some c =>
    match c.acc with
    | .rw1c => s.setPar k (s.par k &&& (2 ^ 64 - 1 - v))
    | .wo => s
    | _ =>
      if 0x4600 ≤ k / 256 ∧ k / 256 < 0x4610 ∧ k % 8 = 3 then
        s.setPar k (setFld (setFld v 46 44 (fld (s.par k) 46 44)) 43 40 (fld (s.par k) 43 40))
      else s.setPar k v

end Sys2Proof.Machine
end

