-- ==== Sys2Proof/Machine/Regulation.lean ====
section
/-! DEFINITION. Bandwidth regulation: masters, contracts, tokens, admission and derating (R293-R306). -/
namespace Sys2Proof.Machine

/-- Change a master. -/
def State.modMaster (s : State) (m : Nat) (f : MasterRec → MasterRec) : State :=
  { s with reg := { s.reg with masters := Tab.mod m f s.reg.masters } }

/-- Change a contract. -/
def State.modCon (s : State) (c : Nat) (f : ContractRec → ContractRec) : State :=
  { s with reg := { s.reg with con := Tab.mod c f s.reg.con } }

/-- The master number that rc_master names (R295, R298). -/
def masterOf (w : Nat) : Nat := if fld w 14 14 = 1 then 512 + fld w 3 0 else fld w 8 0

/-- The tollgate of a master: its port block, or 16 for the engine tollgates. -/
def tollgateOf (m : Nat) : Nat := if m < 512 then m / 32 else 16

/-- The contracts that are ACTIVE or SCALED, rising (R295). -/
def State.consOn (s : State) : List Nat := (s.objs 0x6100 64 16 16 7).filter (fun c => s.par (P.rcState c) != 0)

/-- The word of a contract in force (R295): 1 master, 2 stack set, 3 min, 4 ceiling, 5 weight, 6 burst. -/
def rcKey (c w : Nat) : Nat := P.rcMaster c + (w - 1)

/-- The word that a commit of contract c would take: the shadow copy, or the value in force. -/
def State.rcWord (s : State) (c w : Nat) : Nat :=
  match Tab.get w (Tab.get c s.reg.con).shadow with | 0 => s.par (rcKey c w) | v + 1 => v

/-- The word that contract c holds or has been admitted to hold at the next boundary. -/
def State.rcDue (s : State) (c w : Nat) : Nat :=
  if (Tab.get c s.reg.con).commitDue then Tab.get w (Tab.get c s.reg.con).next - 1 else s.par (rcKey c w)

/-- The contracts in force or admitted, without those a release takes out of force. -/
def State.consDue (s : State) : List Nat :=
  (s.consOn ++ ((Tab.keys s.reg.con).filter (fun c => (Tab.get c s.reg.con).commitDue && !s.consOn.contains c))).filter
    (fun c => !(Tab.get c s.reg.con).releaseDue)

/-- The contract that governs a master's traffic to a stack set (R294). -/
def State.conFor (s : State) (m set : Nat) : Option Nat :=
  s.consOn.find? (fun c => masterOf (s.par (P.rcMaster c)) == m && s.par (P.rcStackSet c) == set)

/-- The charge of rc_min on each region of a set in MB/s (R300). -/
def chargeOf (min set : Nat) : Nat := min * 64 / setSize set

/-- The mover's charge in MB/s (R300): cap_mover_rate is in GB/s. -/
def State.moverRate (s : State) : Nat := s.par P.capMoverRate * 1000

/-! Floors (R301). -/

/-- A stack's floor in MB/s (R301). -/
def State.stackFloor (s : State) (k : Nat) : Nat :=
  if s.par (P.stackHealth k) = 2 || (Tab.get k s.stackTab).offline || (s.serving && s.par (P.mcSrState k) != 2) then 0
  else match s.par (P.mcCond k) with
    | 0 => 1500000
    | 1 => 1350000
    | 2 => 750000
    | _ => 0

/-- floor_now of a region (R301). -/
def State.floorNow (s : State) (q : Nat) : Nat := ((regionStacks q).map s.stackFloor).sum

/-- The certified floor of a region (R300). -/
def State.floorCert (s : State) (q : Nat) : Nat :=
  ((regionStacks q).filter (fun k => s.par (P.stackHealth k) != 2)).length * 1500000

/-! Admission (R300). -/

/-- The contract's words lie in their ranges (R295, CONTRACT_FIELD). -/
def rcFieldsOk (g : Nat → Nat) : Bool :=
  decide (fld (g 1) 13 9 = 0 ∧ (fld (g 1) 15 15 = 0 ∨ fld (g 1) 14 14 = 0) ∧ g 2 ≤ 6 ∧ g 3 ≤ 375000 ∧
    (g 4 = 0 ∨ (g 3 ≤ g 4 ∧ g 4 ≤ 375000)) ∧ 1 ≤ g 5 ∧ g 5 ≤ 255 ∧ 16 ≤ g 6 ∧ g 6 ≤ 4096)

/-- The result of a commit of contract c (R300): the first failing code, or 0. -/
def State.rcCheck (s : State) (c : Nat) : Nat :=
  let g := s.rcWord c
  let others := s.consDue.filter (· != c)
  let m := masterOf (g 1)
  let regs := setRegions (g 2)
  let on (q o : Nat) : Bool := (setRegions (s.rcDue o 2)).contains q
  let sumOn (q : Nat) (p : Nat → Bool) : Nat :=
    ((others.filter (fun o => on q o && p o)).map (fun o => chargeOf (s.rcDue o 3) (s.rcDue o 2))).sum
  let rt (o : Nat) : Bool := fld (s.rcDue o 1) 15 15 == 1
  let own := chargeOf (g 3) (g 2)
  let linkSum := ((others.filter (fun o => masterOf (s.rcDue o 1) / 16 == m / 16 && fld (s.rcDue o 1) 14 14 == 0)).map
    (fun o => s.rcDue o 3)).sum
  if !rcFieldsOk g then 0x26
  else if others.any (fun o => masterOf (s.rcDue o 1) == m && s.rcDue o 2 == g 2) then 0x25
  else if fld (g 1) 15 15 = 1 &&
      regs.any (fun q => decide (s.par P.regRtLimitPct * s.floorCert q < (sumOn q rt + own) * 100)) then 0x24
  else if m < 512 && decide (s.linkFloor (m / 16) < (linkSum + g 3) * 64) then 0x23
  else if regs.any (fun q => decide (s.floorCert q < sumOn q (fun _ => true) + own + s.moverRate)) then 0x22
  else 0

/-- A write of 1 to rc_commit (R300): admission; a contract that passes takes effect at the next boundary. -/
def State.rcCommit (s : State) (c : Nat) : State :=
  let code := s.rcCheck c
  let s' := s.setPar (P.rcStatus c) code
  if code ≠ 0 then s'
  else
    s'.modCon c (fun r => { r with next := [1, 2, 3, 4, 5, 6].map (fun w => (w, s.rcWord c w + 1)), commitDue := true, releaseDue := false })

/-- A write of 2 to rc_commit (R300). -/
def State.rcRelease (s : State) (c : Nat) : State :=
  if s.par (P.rcState c) = 0 then s.setPar (P.rcStatus c) 0x20
  else (s.setPar (P.rcStatus c) 0).modCon c (fun r => { r with releaseDue := true, commitDue := false })

/-- A write to word w of a contract (R295): to the shadow copy while the contract is in force. -/
def State.rcWrite (s : State) (k v : Nat) : State :=
  let c := (k / 256 - 0x6100) * 16 + k % 256 / 16
  let w := k % 16
  if s.par (P.rcState c) = 0 then s.setPar k v
  else s.modCon c (fun r => { r with shadow := Tab.set w (v + 1) r.shadow })

/-! Tokens (R296-R298, R304). -/

/-- Count tokens of a tollgate: 0 issued, 1 spent, 2 expired, in 1/4,096 line. -/
def State.tgCount (s : State) (t which n : Nat) : State :=
  { s with reg := { s.reg with counts := Tab.mod (t * 4 + which) (· + n) s.reg.counts } }

/-- The contract that sets a master's burst and weight on region q: its first in force that covers q, if any. -/
def State.conOn (s : State) (m q : Nat) : Option Nat :=
  s.consOn.find? (fun c => masterOf (s.par (P.rcMaster c)) == m && (setRegions (s.par (P.rcStackSet c))).contains q)

/-- The weight of a master on region q (R294, R298). -/
def State.weightOf (s : State) (m q : Nat) : Nat :=
  match s.conOn m q with | some c => s.par (P.rcWeight c) | none => s.par P.regDefaultWeight

/-- The burst depth of a master's shared bucket on region q (R294, R296). -/
def State.burstOf (s : State) (m q : Nat) : Nat :=
  match s.conOn m q with | some c => s.par (P.rcBurst c) | none => s.par P.regDefaultBurst

/-- A master's shared bucket of region q. -/
def State.sharedOf (s : State) (m q : Nat) : Nat := Tab.get q (Tab.get m s.reg.masters).shared

/-- Expire what a bucket holds beyond its depth. -/
def State.cutBucket (s : State) (c : Nat) : State :=
  let b := (Tab.get c s.reg.con).bucket
  let cap := s.par (P.rcBurst c) * 4096
  if b ≤ cap then s
  else (s.modCon c (fun r => { r with bucket := cap })).tgCount (tollgateOf (masterOf (s.par (P.rcMaster c)))) 2 (b - cap)

/-- Clear a contract's bucket, its tokens expired (R296). -/
def State.clearBucket (s : State) (c : Nat) : State :=
  let b := (Tab.get c s.reg.con).bucket
  (s.modCon c (fun r => { r with bucket := 0 })).tgCount (tollgateOf (masterOf (s.par (P.rcMaster c)))) 2 b

/-- Clear a master's shared buckets, their tokens expired. -/
def State.clearShared (s : State) (m : Nat) : State :=
  let b := ((Tab.get m s.reg.masters).shared.map Prod.snd).sum
  (s.modMaster m (fun r => { r with shared := [] })).tgCount (tollgateOf m) 2 b

/-- The window's counts restart (R303, R305). -/
def State.restartWindow (s : State) : State :=
  let s := forAll (fun c s => s.modCon c (fun r => { r with served := 0, added := 0, quiet := false })) (Tab.keys s.reg.con) s
  { s with reg := { s.reg with windowAt := 0 } }

/-- Every bucket cleared, tokens expired (R305): SAFE and warm device reset. -/
def State.clearTokens (s : State) : State :=
  let s := forAll (fun c s => s.clearBucket c) (Tab.keys s.reg.con) s
  let s := forAll (fun m s => s.clearShared m) (Tab.keys s.reg.masters) s
  s.restartWindow

/-- Traffic of a real-time contract: class 15 through a contract with the realtime flag (R299). -/
def State.isRt (s : State) (con : Option Nat) (cls : Nat) : Bool :=
  match con with | some c => cls == 15 && fld (s.par (P.rcMaster c)) 15 15 == 1 | none => false

/-- A request of master m to region q through a contract is eligible (R297, R299). -/
def State.tokenOk (s : State) (m q : Nat) (con : Option Nat) (cls : Nat) : Bool :=
  let ceil := match con with | some c => s.par (P.rcCeiling c) | none => 0
  let g := match con with | some c => decide (4096 ≤ (Tab.get c s.reg.con).bucket) | none => false
  (g || (!s.isRt con cls && decide (4096 ≤ s.sharedOf m q))) &&
    (ceil == 0 || decide ((Tab.get m s.reg.masters).spent < ceil))

/-- Spend a token, the guaranteed bucket drawn first (R297). -/
def State.spend (s : State) (m q : Nat) (con : Option Nat) : State :=
  let g := match con with | some c => decide (4096 ≤ (Tab.get c s.reg.con).bucket) | none => false
  let s := match con with
    | some c => s.modCon c (fun r => { r with bucket := if g then r.bucket - 4096 else r.bucket, served := r.served + 1 })
    | none => s
  let s := s.modMaster m (fun r => { r with
    spent := r.spent + 1
    shared := if g then r.shared else Tab.set q (Tab.get q r.shared - 4096) r.shared })
  s.tgCount (tollgateOf m) 1 4096

/-- Spend up to n tokens of an engine master as its buckets allow (R296): the lines a command moved in region q. The wait for
tokens is time, which the model leaves out. -/
def State.spendEngine (s : State) (cls set q : Nat) : Nat → State
  | 0 => s
  | n + 1 =>
    let con := s.conFor (512 + cls) set
    if s.tokenOk (512 + cls) q con 0 then (s.spend (512 + cls) q con).spendEngine cls set q n else s

/-- What a command of a class moved since `before` is paid by its engine master (R237, R294, R296); class 15 has no real-time contract
there and counts as carried as 14 (R299). -/
def State.payEngine (s : State) (cls : Nat) (before : Tab Nat) : State :=
  forAll (fun (p : Nat × Nat) s =>
    let n := p.2 - Tab.get p.1 before
    if n = 0 then s else (if cls = 15 then s.count P.regRtDemote n else s).spendEngine cls (p.1 / 4) (p.1 % 4) n) s.reg.moved s

/-- A request waits at a tollgate: in its master's hold queue (R297). -/
def State.holdAtGate (s : State) (m : Nat) (r : HeldReq) : State :=
  (s.modMaster m (fun x => { x with hold := x.hold ++ [r] })).syncReq (m / 16)

/-- Master m is backlogged for region q (R298). -/
def State.backlogged (s : State) (m q : Nat) : Bool :=
  (Tab.get m s.reg.masters).hold.any (fun r => s.home r.dpa == some q)

/-- The shared pool of region q at this boundary in 1/4,096 line, without the carry (R298). -/
def State.poolOf (s : State) (q : Nat) : Nat :=
  let scaled := ((s.consOn.filter (fun c => (setRegions (s.par (P.rcStackSet c))).contains q)).map
    (fun c => chargeOf (s.par (P.rcMin c) * s.par (P.rcScale c) / 4096) (s.par (P.rcStackSet c)))).sum
  s.floorNow q - s.moverRate - scaled

/-- Deal region q's shared pool in ascending master number (R298). -/
def State.dealShared (s : State) (q : Nat) : State :=
  let ms := (Tab.keys s.reg.masters).filter (fun m => s.backlogged m q)
  let pool := Tab.get q s.reg.carry + 4096 * s.poolOf q / 64
  let w := (ms.map (fun m => s.weightOf m q)).sum
  let given := (ms.map (fun m => pool * s.weightOf m q / w)).sum
  let s := s.setPar (P.regShared q) (s.poolOf q)
  let s := forAll (fun m s' =>
    let give := pool * s.weightOf m q / w
    (s'.modMaster m (fun r => { r with shared := Tab.set q (Tab.get q r.shared + give) r.shared })).tgCount (tollgateOf m) 0 give) ms s
  let s := { s with reg := { s.reg with carry := Tab.set q (if w = 0 then 0 else pool - given) s.reg.carry } }
  forAll (fun m s' =>
    let cap := s'.burstOf m q * 4096
    let b := s'.sharedOf m q
    if b ≤ cap then s'
    else (s'.modMaster m (fun r => { r with shared := Tab.set q cap r.shared })).tgCount (tollgateOf m) 2 (b - cap)) (Tab.keys s.reg.masters) s

/-- Fill a contract's guaranteed bucket (R296). -/
def State.fillBucket (s : State) (c : Nat) : State :=
  let n := s.par (P.rcMin c) * s.par (P.rcScale c) / 4096
  (s.modCon c (fun r => { r with bucket := r.bucket + n * 4096, added := r.added + n })).tgCount
    (tollgateOf (masterOf (s.par (P.rcMaster c)))) 0 (n * 4096)

/-- Admitted commits and accepted releases take effect (R300). -/
def State.rcApply (s : State) (c : Nat) : State :=
  let r := Tab.get c s.reg.con
  if r.releaseDue then
    let s := (((s.clearBucket c).setPar (P.rcState c) 0).setPar (P.rcScale c) 4096).modCon c (fun _ => default)
    { s with reg := { s.reg with changed := true } }
  else if r.commitDue then
    let s := forAll (fun p s => s.setPar (rcKey c p.1) (p.2 - 1)) r.next s
    let s := if s.par (P.rcState c) = 0 then (s.setPar (P.rcState c) 1).setPar (P.rcScale c) 4096 else s
    let s := s.modCon c (fun r => { r with shadow := [], next := [], commitDue := false })
    { s with reg := { s.reg with changed := true } }
  else s

/-- The charge of every contract in force on region q (R300). -/
def State.chargedOn (s : State) (q : Nat) : Nat :=
  ((s.consOn.filter (fun c => (setRegions (s.par (P.rcStackSet c))).contains q)).map
    (fun c => chargeOf (s.par (P.rcMin c)) (s.par (P.rcStackSet c)))).sum

/-- The scale of contract c (R302): the least factor of its regions and, for a port master, of its link, times 4,096. -/
def State.scaleOf (s : State) (c : Nat) : Nat :=
  let f (n d : Nat) : Nat := if d = 0 then 4096 else Nat.min 4096 (4096 * n / d)
  let regs := (setRegions (s.par (P.rcStackSet c))).map (fun q => f (s.floorNow q - s.moverRate) (s.chargedOn q))
  let m := masterOf (s.par (P.rcMaster c))
  let link := if 512 ≤ m then 4096
    else f (s.linkFloor (m / 16))
      (((s.consOn.filter (fun o => masterOf (s.par (P.rcMaster o)) / 16 == m / 16)).map (fun o => s.par (P.rcMin o))).sum * 64)
  (link :: regs).foldl Nat.min 4096

/-- SCALE_RECOMPUTE for one contract (R302): state, and GUARANTEE_MISSED at a fall. -/
def State.rescale (s : State) (c : Nat) : State :=
  let old := s.par (P.rcScale c)
  let new := s.scaleOf c
  let s := (s.setPar (P.rcScale c) new).setPar (P.rcState c) (if new < 4096 then 2 else 1)
  if new < old then ((s.raise 2).count (P.rcMissed c) 1).notice 11 [(0, cborUint c), (1, cborUint new)]
  else if old < new ∧ new = 4096 then s.notice 11 [(0, cborUint c), (1, cborUint new)]
  else s

/-- The floors as the registers show them (R306), and whether a region's or a link's has changed (R302). -/
def State.setFloors (s : State) : State :=
  let links := (List.range 32).map s.linkFloor
  let s := { s with reg := { s.reg with changed := s.reg.changed || links != s.reg.links, links := links } }
  forAll (fun q s =>
    let now := s.floorNow q
    let s := { s with reg := { s.reg with changed := s.reg.changed || now != s.par (P.regFloorNow q) } }
    (s.setPar (P.regFloorNow q) now).setPar (P.regFloorCert q) (s.floorCert q)) [0, 1, 2, 3] s

/-- A master's requests that stand at its tollgate or wait unanswered behind it (R303). -/
def State.waiting (s : State) (m set : Nat) : Bool :=
  (Tab.get m s.reg.masters).hold.any (fun r =>
    match s.partAt r.dpa with | some n => s.par (P.partStackSet n) == set | none => false) ||
  s.mem.detReads.any (fun r => r.port == m) || s.fac.compWait.any (fun r => r.port == m) || s.fac.wpWait.any (fun r => r.2.port == m) || s.fac.held.any (fun r => r.port == m) ||
  s.fac.pipes.any (fun p => p.2.any (fun r => r.port == m)) || s.shared.waits.any (fun r => r.port == m) ||
  s.recov.held.any (fun r => r.port == m)

/-- One boundary (R296, R302, R305): commits and releases, the scale, the buckets, the cut, and the window's count. -/
def State.boundary (s : State) : State :=
  let s := { s with reg := { s.reg with boundary := s.us + 1 } }
  let s := forAll (fun c s => s.rcApply c) (Tab.keys s.reg.con) s
  let s := s.setFloors
  let s := if s.reg.changed then forAll (fun c s => s.rescale c) s.consOn s else s
  let s := { s with reg := { s.reg with changed := false } }
  let s := forAll (fun q s => s.setPar (P.regCharged q) (s.chargedOn q + s.moverRate)) [0, 1, 2, 3] s
  let s := forAll (fun c s => s.fillBucket c) s.consOn s
  let s := forAll (fun q s => s.dealShared q) [0, 1, 2, 3] s
  let s := forAll (fun c s => s.cutBucket c) s.consOn s
  let s := forAll (fun m s => s.modMaster m (fun r => { r with spent := 0 })) (Tab.keys s.reg.masters) s
  if !s.serving then s.restartWindow
  else
    let s := forAll (fun c s' => s'.modCon c (fun r =>
      { r with quiet := r.quiet || !s.waiting (masterOf (s.par (P.rcMaster c))) (s.par (P.rcStackSet c)) })) s.consOn s
    { s with reg := { s.reg with windowAt := s.reg.windowAt + 1 } }

/-- The end of a window for one contract (R303). -/
def State.windowEnd (s : State) (c : Nat) : State :=
  let r := Tab.get c s.reg.con
  let missed := !r.quiet && decide (r.served * 100 < s.par P.regMissPct * r.added)
  let s := (s.setPar (P.rcServed c) r.served).modCon c (fun r => { r with served := 0, added := 0, quiet := false })
  if missed then
    ((((s.count (P.rcMissed c) 1).count P.regMissCount 1).setPar P.regMissLast (c * 2 ^ 32 + r.served % 2 ^ 32)).raise 2)
  else s

/-- The tokens a tollgate holds in its buckets (R304). -/
def State.tgHeld (s : State) (t : Nat) : Nat :=
  ((s.reg.con.filter (fun p => tollgateOf (masterOf (s.par (P.rcMaster p.1))) == t)).map (fun p => p.2.bucket)).sum +
  ((s.reg.masters.filter (fun p => tollgateOf p.1 == t)).map (fun p => (p.2.shared.map Prod.snd).sum)).sum

/-- The token law at one tollgate: issued = held + spent + expired (R304). -/
def State.tgLaw (s : State) (t : Nat) : Bool :=
  Tab.get (t * 4) s.reg.counts == s.tgHeld t + Tab.get (t * 4 + 1) s.reg.counts + Tab.get (t * 4 + 2) s.reg.counts

/-- The token law over every tollgate (R304). -/
def State.tokenLaw (s : State) : Bool := (List.range 17).all s.tgLaw

/-- RC_COMMIT (R300). -/
def execRcCommit (contract : Fin 1024) (s : State) : R :=
  .next (s.barWrite (P.rcCommit contract) 1 (fun s => s.rcCommit contract))

/-- RC_RELEASE (R300). -/
def execRcRelease (contract : Fin 1024) (s : State) : R :=
  .next (s.barWrite (P.rcCommit contract) 2 (fun s => s.rcRelease contract))

/-- TOKEN_BOUNDARY (R296): once for each microsecond, from STANDBY onward. -/
def execTokenBoundary (s : State) : R :=
  .next (if s.us + 1 ≤ s.reg.boundary || s.dev == dsInit || s.warm then s else s.boundary)

/-- GUARANTEE_WINDOW_END (R303): after 100 boundaries in SERVICE. -/
def execGuaranteeWindowEnd (s : State) : R :=
  .next (if s.reg.windowAt < 100 || !s.serving then s
    else
      let s := forAll (fun c s => s.windowEnd c) s.consOn s
      { s with reg := { s.reg with windowAt := 0 } })

end Sys2Proof.Machine
end

