-- ==== Sys2Proof/Machine/Power.lean ====
section
/-! DEFINITION. Power states, wake tokens, the governor and the module's inputs (R386-R398, R443-R448). -/
namespace Sys2Proof.Machine

/-- Change the power record. -/
def State.pw (s : State) (f : Power → Power) : State := { s with power := f s.power }

/-! Wakes (R394-R396). -/

/-- The place of a wake in the queue's order (R396): by cause, then the hub, then each region's clock and stacks. -/
def wakeOrder (w : Wake) : Nat :=
  w.cause * 1000 + (match w.kind with | 0 => 0 | 1 => 10 + w.unit * 10 | _ => 11 + w.unit / 4 * 10 + w.unit % 4)

/-- Insert a wake in order. -/
def insertWake (w : Wake) : List Wake → List Wake
  | [] => [w]
  | x :: xs => if wakeOrder w < wakeOrder x then w :: x :: xs else x :: insertWake w xs

/-- Tokens a wake costs (R395). -/
def wakeCost (w : Wake) : Nat := if w.kind = 2 then 4 else 6

/-- Keep wk_queue (R396, R398). -/
def State.countWakes (s : State) : State := s.setPar P.wkQueue s.power.queue.length

/-- Queue a wake; one already queued adds nothing (R396). -/
def State.queueWake (s : State) (w : Wake) : State :=
  if s.power.queue.any (fun x => x.kind == w.kind && x.unit == w.unit) then s
  else (s.pw (fun p => { p with queue := insertWake w p.queue })).countWakes

/-- Stack k is to be brought out of self-refresh: live, in self-refresh, not in HOLD, without tokens yet (R312, R320). -/
def State.wantsExit (s : State) (k : Nat) : Bool :=
  s.par (P.stackHealth k) != 2 && (s.par (P.mcSrState k) == 3 || s.par (P.mcSrState k) == 4) && s.par (P.mcCond k) != 3 &&
  !Tab.get k s.power.granted

/-- The hub's clock is stopped: its wake (R391, R394). -/
def State.wakeHub (s : State) (cause : Nat) : State :=
  if s.power.hubOff && !s.power.hubBusy then s.queueWake ⟨cause, 0, 0⟩ else s

/-- pwr_state (R391). -/
def State.setPwrState (s : State) : State :=
  s.setPar P.pwrState (if s.power.hubOff then 3
    else [0, 1, 2, 3].foldl (fun m q => Nat.min m (s.par (P.pwrRegionState q))) 3)

/-- Region q has just been used (R392). -/
def State.busy (s : State) (q : Nat) : State := s.pw (fun p => { p with idle := Tab.set q s.now p.idle })

/-- A wake cause meets region q's entry to power state S2 before its clock stops, a stack still entering self-refresh: the entry is
abandoned, no tokens spent (R320, R394). -/
def State.abandonS2 (s : State) (q : Nat) : State :=
  let entering := (regionStacks q).filter (fun k => s.par (P.mcSrState k) == 4 && s.par (P.mcCond k) != 3)
  if s.par (P.pwrRegionState q) ≠ 2 || Tab.get q s.power.exiting ≠ 0 || s.power.hubOff || entering.isEmpty then s
  else
    let s := forAll (fun k s => s.setPar (P.mcSrState k) 2) entering s
    ((s.setPar (P.pwrRegionState q) 0).pw (fun p => { p with s2At := Tab.erase q p.s2At })).setPwrState.busy q

/-- Queue the wakes that region q needs (R394): the hub, its clock, its stacks. -/
def State.wakeRegion (s : State) (cause q : Nat) : State :=
  let s := (s.wakeHub cause).abandonS2 q
  let st := s.par (P.pwrRegionState q)
  let s := if st ≠ 0 && Tab.get q s.power.exiting == 0 then s.queueWake ⟨cause, 1, q⟩ else s
  if st = 1 then s
  else forAll (fun k s => if s.wantsExit k then s.queueWake ⟨cause, 2, k⟩ else s) (regionStacks q) s

/-- Parcel p belongs to region q: its first block is homed there. -/
def State.parcelIn (s : State) (q p : Nat) : Bool := s.home (p * 65536) == some q

/-- The counters of region q's parcels halved k times (R160). -/
def State.decay (s : State) (q k : Nat) : State :=
  { s with mem := { s.mem with parcels := (s.mem.parcels.map (fun p => (p.1, if s.parcelIn q p.1 then p.2 / 2 ^ k else p.2))).filter (fun p => p.2 != 0) } }

/-- Region q serves requests (R391, R394). -/
def State.regionAwake (s : State) (q : Nat) : Bool :=
  s.par (P.pwrRegionState q) == 0 && Tab.get q s.power.exiting == 0 && !s.power.hubOff && !(Tab.find? q s.recov.region).isSome

/-- Region q is in power state S0 again (R391): the count of exits, and up to 8 decay periods missed in S2 made up (R392). -/
def State.regionUp (s : State) (q : Nat) : State :=
  let s := match Tab.find? q s.power.s2At with
    | some t => (s.decay q (Nat.min 8 ((s.now - t) / msT (s.par P.capDecayMs)))).pw (fun p => { p with s2At := Tab.erase q p.s2At })
    | none => s
  let s := ((s.setPar (P.pwrRegionState q) 0).count (P.pwrRegionExits q) 1).pw
    (fun p => { p with exiting := Tab.set q 0 p.exiting })
  s.setPwrState.busy q

/-! Latency tolerance (R393). -/

/-- The host's tolerance on the service link in ns (R290): the lower of Max No-Snoop Latency and svc_lat_tol_ns, 0 stating
nothing. The register at 0x1F4 [31:16] holds a value [9:0] and a scale [12:10] of 2^5 each. -/
def State.svcTol (s : State) : Nat :=
  let r := fld (Tab.get (0x1F4 / 4) s.svc.cfg) 31 16
  let a := fld r 9 0 * 32 ^ fld r 12 10
  let b := s.par P.svcLatTolNs
  if a = 0 then b else if b = 0 then a else Nat.min a b

/-- T (R393). -/
def State.tolerance (s : State) : Nat :=
  let l := (s.svcTol :: (s.links.filter s.linkUp).map (fun k => s.par (P.portLatTolNs (k / 2)))).filter (· ≠ 0)
  match l with
  | [] => s.par P.pwrDefaultTolNs
  | x :: xs => xs.foldl Nat.min x

/-- Keep pwr_tol_ns (R398). -/
def State.setTol (s : State) : State := s.setPar P.pwrTolNs s.tolerance

/-- Tokens needed to wake every region in S1 or S2 at once, region q taken as in state `st` (R393). -/
def State.wakeTokens (s : State) (q st : Nat) : Nat :=
  ([0, 1, 2, 3].map (fun r =>
    match (if r = q then st else s.par (P.pwrRegionState r)) with
    | 0 => 0
    | 1 => 6
    | _ => 6 + 4 * ((regionStacks r).filter (fun k => s.par (P.stackHealth k) != 2)).length)).sum

/-- The tolerance admits region q into power state `st` (R393). -/
def State.tolFits (s : State) (q st : Nat) : Bool :=
  let t := s.tolerance
  decide (st ≤ s.par P.pwrMaxState) &&
  (match st with
   | 0 => true
   | 1 => decide (200 ≤ t)
   | _ => decide (30000 ≤ t) && (decide (2000000 ≤ t) || decide (s.wakeTokens q 2 ≤ 40)))

/-- Regions whose power state no longer fits begin to exit (R393). -/
def State.tolExits (s : State) : State :=
  let s := s.setTol
  let s := if s.power.hubOff && (decide (s.tolerance < 2000000) || decide (s.par P.pwrMaxState < 3)) then s.wakeHub 17 else s
  forAll (fun q s => if s.par (P.pwrRegionState q) ≠ 0 && !s.tolFits q (s.par (P.pwrRegionState q)) then s.wakeRegion 17 q else s)
    [0, 1, 2, 3] s

/-! Idleness (R392). -/

/-- Work of region q holds it awake (R392): gather buffers, packing, mover transfers, work tiles, waiting reads, scrubs, dice rounds. -/
def State.regionBusy (s : State) (q : Nat) : Bool :=
  s.mem.gather.any (fun p => s.home (p.1 % 2 ^ 30 * 4096) == some q) || s.mem.packJobs.any (fun p => s.home (p.1 % 2 ^ 30 * 4096) == some q) ||
  s.mem.detReads.any (fun r => s.home r.dpa == some q) || s.recov.ctx.any (fun p => p.1 / 256 == q && p.2.kind != 0) ||
  s.media.scrubRead.any (fun p => p.1 / 4 == q) ||
  s.mem.mover.any (fun p => s.home (p.1 * 4096) == some q) || s.fac.pipes.any (fun p => p.1 / 16 == q) ||
  (Tab.find? q s.integ.dice).isSome || s.recov.held.any (fun r => s.home r.dpa == some q)

/-- A waypoint in STAGING or MISSED keeps region q out of power state S2 (R392): a factor window of its descriptor lies on a stack set with
q, whose blocks, and so its tiles', are homed there in turn (R46). -/
def State.wpHolds (s : State) (q u : Nat) : Bool :=
  let w3 := s.par (P.wpWord u 3)
  (fld w3 46 44 == 2 || fld w3 46 44 == 4) && s.winsOn.any (fun w =>
    (s.par (P.winKind w) == wFactor || s.par (P.winKind w) == wFactoring) && s.par (P.winDescriptor w) == fld w3 37 27 &&
    (match s.partAt (s.par (P.winBase w)) with | some n => (setRegions (s.par (P.partStackSet n))).contains q | none => false))

/-- The conditions of R392 that keep region q out of power state S2. -/
def State.s2Held (s : State) (q : Nat) : Bool :=
  s.reds.any (fun p => p.2.tiles.any (fun t => s.home (p.2.dest - 1 + t.1 * 65536) == some q)) ||
  s.jobs.any (fun p => (s.jobMode p.1 == 1 || s.jobMode p.1 == 2) && p.2.shadow.any (fun b => s.home (b.1 * 4096) == some q)) ||
  (List.range 512).any (s.wpHolds q) ||
  s.par (P.capPressure q) != 0 ||
  (regionStacks q).any (fun k => s.par (P.mcChannelOffline k) != 0) ||
  s.integ.blk.any (fun p => p.1 / 16 == q && p.2.due)

/-- The device may change a power state (R373): no reset runs. -/
def State.pwrFree (s : State) : Bool :=
  (s.dev == dsStandby || s.dev == dsService) && !s.warm && s.recov.region.isEmpty && s.recov.eng.isEmpty

/-- Region q may enter S1 now (R392, R393). -/
def State.s1Ready (s : State) (q : Nat) : Bool :=
  s.pwrFree && s.par (P.pwrRegionState q) == 0 && Tab.get q s.power.exiting == 0 && !s.regionBusy q &&
  decide (Tab.get q s.power.idle + nsT (s.par P.pwrS1IdleNs) ≤ s.now) && s.tolFits q 1

/-- Region q may enter S2 now (R392, R393). -/
def State.s2Ready (s : State) (q : Nat) : Bool :=
  s.pwrFree && s.par (P.pwrRegionState q) == 1 && !s.regionBusy q && !s.s2Held q &&
  decide (Tab.get q s.power.idle + usT (s.par P.pwrS2IdleUs) ≤ s.now) && s.tolFits q 2

/-! The commands. -/

/-- POWER_S1_ENTRY (R392). -/
def execPowerS1Entry (region : Fin 4) (s : State) : R :=
  .next (if s.s1Ready region then ((s.setPar (P.pwrRegionState region) 1).busy region).setPwrState else s)

/-- POWER_S2_ENTRY (R392, R393): of two regions eligible, the one idle longer enters, then the lower number. -/
def execPowerS2Entry (region : Fin 4) (s : State) : R :=
  let before (r : Nat) : Bool := r != region.val && s.s2Ready r &&
    (decide (Tab.get r s.power.idle < Tab.get region.val s.power.idle) ||
     (Tab.get r s.power.idle == Tab.get region.val s.power.idle && decide (r < region.val)))
  .next (if s.s2Ready region && !([0, 1, 2, 3].any before) then
    let s := s.setPar (P.pwrRegionState region) 2
    let s := forAll (fun k s => if s.par (P.mcSrState k) = 2 then s.setPar (P.mcSrState k) 4 else s) (regionStacks region) s
    let s := s.pw (fun p => { p with s2At := Tab.set region.val s.now p.s2At, allS2 := s.now })
    s.setPwrState
  else s)

/-- POWER_S3_ENTRY (R392, R393): `linksIdle`, every UP accelerator link in L1 or L2; `svcIdle`, the service link in L1 or deeper. -/
def execPowerS3Entry (linksIdle svcIdle : Bool) (s : State) : R :=
  .next (if s.pwrFree && !s.power.hubOff && [0, 1, 2, 3].all (fun q => s.par (P.pwrRegionState q) == 2) &&
      decide (s.power.allS2 + msT (s.par P.pwrS3IdleMs) ≤ s.now) && linksIdle && svcIdle && s.glody.sessions.isEmpty &&
      decide (3 ≤ s.par P.pwrMaxState) && decide (2000000 ≤ s.tolerance) then
    (s.pw (fun p => { p with hubOff := true })).setPwrState
  else s)

/-- WAKE_CAUSE (R394, R396): cause 0-15 a port, 16 the service link, 17 internal; for work in a region, or a Glody, BAR0 or mailbox
access, which starts the hub alone. -/
def execWakeCause (cause : Fin 18) (region : Option (Fin 4)) (s : State) : R :=
  .next (match region with | some q => s.wakeRegion cause q | none => s.wakeHub cause)

/-- WAKE_TOKEN_TICK (R395): every 25 µs the bucket gains a token, or the token expires at a full bucket. -/
def execWakeTokenTick (s : State) : R :=
  .next (if s.now < s.power.tokenAt + usT 25 then s
  else
    let s := (s.pw (fun p => { p with tokenAt := s.now })).count P.wkIssued 1
    if s.par P.wkHeld < 40 then s.count P.wkHeld 1 else s.count P.wkExpired 1)

/-- Spend the tokens of a granted wake (R395). -/
def State.spendWake (s : State) (n : Nat) : State := (s.uncount P.wkHeld n).count P.wkSpent n

/-- The wake-token law (R397): the 40 tokens of the full bucket at its reset are not counted as issued. -/
def State.wakeLaw (s : State) : Bool :=
  s.par P.wkIssued + 40 == s.par P.wkHeld + s.par P.wkSpent + s.par P.wkExpired

/-- LATENCY_TOLERANCE_WRITE (R393): entry 0-15 port_lat_tol_ns of that port block, 16 svc_lat_tol_ns, 17 pwr_default_tol_ns. -/
def execLatencyToleranceWrite (entry : Fin 18) (value : Nat) (s : State) : R :=
  let k := if entry.val < 16 then P.portLatTolNs entry else if entry.val = 16 then P.svcLatTolNs else P.pwrDefaultTolNs
  .next (s.barWrite k value (fun s => (s.setPar k value).tolExits))

/-! The governor (R388). -/

/-- The sum of the first n samples. -/
def sumOf (n : Nat) (l : List Nat) : Nat := (l.take n).sum

/-- One sample of the governor: averages, excursion, throttle up or down by one sixteenth, and the time throttled. -/
def State.govern (s : State) (watts : Nat) : State :=
  let l := (watts :: s.power.samples).take 10000
  let lim := s.par P.pwrLimitW
  let overs := if lim < watts then s.power.overs + 1 else 0
  let hot := decide (1650 * 10 < sumOf 10 l ∨ lim * l.length < l.sum ∨ 2000 ≤ overs)
  let th := if hot then Nat.min 15 (s.power.throttle + 1) else s.power.throttle - 1
  let s := s.pw (fun p => { p with samples := l, overs := overs, throttle := th })
  let s := s.setPar P.pwrInputW (sumOf 10 l / Nat.min 10 l.length)
  if th = 0 then s else s.count P.pwrThrottleUs 10

/-- GOVERNOR_SAMPLE (R388): every 10 µs, the input power in watts. -/
def execGovernorSample (watts : Nat) (s : State) : R := .next (s.govern watts)

/-! The module's inputs (R386, R390, R444-R448). -/

/-- INPUT_OUT_OF_RANGE (R386): the input in mV has stayed below 29.0 V or above 40.5 V for 200 µs. -/
def execInputOutOfRange (millivolts : Nat) (s : State) : R :=
  .next (if s.power.applied && decide (millivolts < 29000 ∨ 40500 < millivolts) then
    let s := (s.setPar P.pwrInputMv millivolts).pw (fun p => { p with inputBad := true })
    s.raiseSafe 9
  else s)

/-- INPUT_RESTORED (R386): the input has stayed within 30-40 V for 100 ms. -/
def execInputRestored (millivolts : Nat) (s : State) : R :=
  .next (if s.power.inputBad && decide (30000 ≤ millivolts ∧ millivolts ≤ 40000) then
    let s := (s.setPar P.pwrInputMv millivolts).pw (fun p => { p with inputBad := false, appliedAt := s.now - msT 100 })
    { s with recov := { s.recov with safeAt := if s.par P.devSafeCause / 2 ^ 56 = 9 then s.now else s.recov.safeAt } }
  else s)

/-- PWR_ALERT# (R437): asserted while the governor throttles (R388). -/
def State.pwrAlert (s : State) : Bool := s.power.throttle != 0

/-- REFCLK_LOST (R390): the on-die oscillator takes over and SAFE is entered with cause CLOCK. -/
def execRefclkLost (s : State) : R :=
  .next (if s.power.refLost then s else (s.pw (fun p => { p with refLost := true })).raiseSafe 10)

/-- REFCLK_RESTORED (R390): the reference has been stable for 10 ms. -/
def execRefclkRestored (s : State) : R :=
  .next (if s.power.refLost then
    let s := s.pw (fun p => { p with refLost := false })
    { s with recov := { s.recov with safeAt := if s.par P.devSafeCause / 2 ^ 56 = 10 then s.now else s.recov.safeAt } }
  else s)

/-- REFCLK_STABLE (R444): a POWER_ON held for REFCLK may end; the times of R399 are counted from now. -/
def execRefclkStable (s : State) : R :=
  .next (if s.power.refHold then
    { s.pw (fun p => { p with refHold := false }) with boot := { s.boot with startAt := s.now } }
  else s)

/-- What a loss of power leaves (R445): the flash, and nothing else; an image being programmed is lost (R404). -/
def State.unpowered (s : State) : State :=
  { State.reset with
    pending := s.pending, out := s.out, freeCtr := s.freeCtr
    boot := { State.reset.boot with
      keyBlock := s.boot.keyBlock, config := s.boot.config, recA := s.boot.recA, recB := s.boot.recB
      image := if s.par P.fwUpdateState = 2 then [] else s.boot.image }
    glody := { State.reset.glody with flashRecs := s.glody.flashRecs, slot := s.glody.slot } }

/-- INPUT_COLLAPSE (R445, R446): below 26.0 V for 10 µs, or MATE breaks: every rail is dropped. A trip lasts until the input has been
away for 1 s (R448). -/
def execInputCollapse (s : State) : R := .next (s.unpowered.pw (fun p => { p with tripped := s.power.tripped }))

/-- POWER_INPUT_APPLIED (R444): the input reaches 30 V with MATE tied; a cold power-up begins. `slot` is on the slot-ID lines,
`refStable` tells whether REFCLK is stable. After a trip the module stays off where the input was away for less than 1 s (R448). -/
def execPowerInputApplied (millivolts : Nat) (slot : Fin 8) (refStable : Bool) (s : State) : R :=
  .next (if s.power.applied || decide (millivolts < 30000) then s
  else if s.power.tripped && decide (s.now < msT 1000) then s.pw (fun p => { p with applied := true })
  else
    let s := s.unpowered
    let s := s.pw (fun p => { p with applied := true, refHold := !refStable, appliedAt := s.now })
    { (s.setPar P.bootPhase 1).setPar P.pwrInputMv millivolts with
      glody := { s.glody with slot := slot }, boot := { s.boot with startAt := s.now } })

/-- THERMAL_TRIP (R448): every rail but the always-on domain's is off; a THERMAL record with action OUT_OF_SERVICE goes to
the flash. `unit` is the unit field of the hot die or stack. -/
def execThermalTrip (unit : Nat) (celsius : Int) (s : State) : R :=
  .next (if !s.power.applied || s.power.tripped then s
  else
    let r := s.record { kind := 8, unit := unit, cls := 0, ctx := [], detail := [(0, cborInt celsius)], flags := 0, action := 6 }
    let off := s.unpowered
    (({ off with now := s.now, glody := { off.glody with flashRecs := r.glody.flashRecs } }).setPar P.devState dsOut).pw
      (fun p => { p with applied := true, tripped := true }))

end Sys2Proof.Machine
end

