-- ==== Sys2Proof/Machine/Stacks.lean ====
section
/-! DEFINITION. The stack controllers: line placement, rows, refresh, temperature, panic, replay, training and self-refresh
(R307-R321). -/
namespace Sys2Proof.Machine

/-- Change a stack. -/
def State.modStack (s : State) (k : Nat) (f : StackRec → StackRec) : State := { s with stackTab := Tab.mod k f s.stackTab }

/-- A stack's record. -/
def State.stack (s : State) (k : Nat) : StackRec := Tab.get k s.stackTab

/-- The place of a line in its stack (R308). -/
structure Place where
  pc : Nat
  bank : Nat
  row : Nat
  col : Nat
  deriving DecidableEq, Repr

/-- Placement of line L (R308). -/
def placeOf (line : Nat) : Place :=
  let q1 := line >>> 6
  let q2 := q1 >>> 4
  { pc := (line % 64) ^^^ (q1 % 64), col := q1 % 16, bank := q2 % 48, row := q2 / 48 }

/-- The line at a place (R308, inverted). -/
def lineAt (p : Place) : Nat :=
  let q1 := (p.row * 48 + p.bank) * 16 + p.col
  q1 * 64 + (p.pc ^^^ (q1 % 64))

/-- mc_sr_state codes (R321). -/
def srUntrained : Nat := 0
def srIdle : Nat := 1
def srActive : Nat := 2
def srSelf : Nat := 3
def srEntering : Nat := 4
def srExiting : Nat := 5

/-- Bank b of pseudo-channel pc. -/
def bankKey (pc b : Nat) : Nat := pc * 64 + b

/-- Change a bank of stack k. -/
def State.modBank (s : State) (k key : Nat) (f : BankRec → BankRec) : State :=
  s.modStack k (fun r => { r with banks := Tab.mod key f r.banks })

/-- An access opens the line's row, or leaves it closed with mc_page_idle_ns 0 (R310). -/
def State.openRow (s : State) (k line : Nat) : State :=
  let p := placeOf line
  s.modBank k (bankKey p.pc p.bank) (fun b => { b with row := if s.par P.mcPageIdleNs = 0 then none else some p.row, used := s.now, idle := s.par P.mcPageIdleNs })

/-- Every bank closed and nothing owed (R319). -/
def closeBanks (r : StackRec) : StackRec := { r with banks := [] }

/-- Begin self-refresh entry (R319): at once, or once a helper run has ended (R318). -/
def State.enterSelf (s : State) (k : Nat) : State :=
  if (s.stack k).running then s.modStack k (fun r => { r with returning := true })
  else if s.par (P.mcSrState k) = srActive ∨ s.par (P.mcSrState k) = srIdle then s.setPar (P.mcSrState k) srEntering
  else s

/-- Self-refresh entry completes (R319): owed refreshes paid, banks precharged. HOLD reached during an exit enters after it. -/
def State.inSelf (s : State) (k : Nat) : State :=
  ((s.setPar (P.mcSrState k) srSelf).modStack k closeBanks).pw (fun p => { p with granted := Tab.set k false p.granted })

/-- The condition after a temperature, given the condition before it (R312). -/
def condAfter (c : Nat) (t : Int) : Nat :=
  if 95 ≤ t then 3
  else if 92 ≤ t then (if c = 3 then 3 else 2)
  else if 90 ≤ t then (if 2 ≤ c then c else 1)
  else if 85 < t then 1
  else if 83 ≤ t then (if 1 ≤ c then 1 else 0)
  else 0

/-- A temperature in I16 form. -/
def i16 (t : Int) : Nat := unsigned 16 t

/-- A temperature sample (R312): the register, the condition, its notice, entry into HOLD and leaving it. -/
def State.sampleTemp (s : State) (k : Nat) (t : Int) : State :=
  let c := s.par (P.mcCond k)
  let c' := condAfter c t
  let s := s.setPar (P.mcTempC k) (i16 t)
  if c' = c then s
  else
    let s := (s.setPar (P.mcCond k) c').notice 12 [(0, cborUint k), (1, cborUint c'), (2, cborInt t)]
    if c' = 3 then (s.modStack k (fun r => { r with holdAt := s.now + 1, holdSaid := false })).enterSelf k
    else if c = 3 then
      let s := s.modStack k (fun r => { r with holdAt := 0, holdSaid := false })
      let cool := s.par P.devSafeCause / 2 ^ 56 == 2 && (List.range 16).all (fun j => s.par (P.mcCond j) != 3)
      let s := { s with recov := { s.recov with safeAt := (if cool then s.now else s.recov.safeAt) } }
      if s.serving && s.par (P.pwrRegionState (k / 4)) == 0 then s.queueWake ⟨17, 2, k⟩ else s
    else s

/-- STACK_TEMP_SAMPLE (R312). -/
def execStackTempSample (stack : Fin 16) (celsius : Int) (s : State) : R := .next (s.sampleTemp stack celsius)

/-- THERMAL_HOLD_EXPIRY (R312): once for each HOLD episode. -/
def execThermalHoldExpiry (stack : Fin 16) (s : State) : R :=
  let r := s.stack stack
  .next (if r.holdAt = 0 || r.holdSaid || decide (s.now + 1 < r.holdAt + msT (s.par P.mcThermalHoldMs)) then s
  else
    let s := s.modStack stack (fun r => { r with holdSaid := true })
    (s.record { kind := 8, unit := unitOf 2 stack, cls := 0, ctx := [], flags := 0, action := 5,
                detail := [(0, cborInt (signed 16 (s.par (P.mcTempC stack))))] }).raiseSafe 2)

/-- A bank's refresh falls due (R311): `waiting`, the bank has a request to serve; `promoted`, its candidate is promoted. -/
def State.refreshDue (s : State) (k pc b : Nat) (waiting promoted : Bool) : State :=
  if s.par (P.mcSrState k) ≠ srActive ∧ s.par (P.mcSrState k) ≠ srIdle then s
  else
    let key := bankKey pc b
    let o := Nat.min 8 ((Tab.get key (s.stack k).banks).owed + 1)
    let s := s.setPar (P.mcRefreshOwedMax k) (Nat.max (s.par (P.mcRefreshOwedMax k)) o)
    if !waiting then s.modBank k key (fun x => { x with owed := 0, row := none })
    else if o ≤ 3 || (o ≤ 7 && promoted) then s.modBank k key (fun x => { x with owed := o })
    else s.modBank k key (fun x => { x with owed := o - 1, row := none })

/-- REFRESH_DUE (R311). -/
def execRefreshDue (stack : Fin 16) (pc : Fin 64) (bank : Fin 48) (waiting promoted : Bool) (s : State) : R :=
  .next (s.refreshDue stack pc bank waiting promoted)

/-- PAGE_IDLE_EXPIRY (R310): the open row is precharged. -/
def execPageIdleExpiry (stack : Fin 16) (pc : Fin 64) (bank : Fin 48) (s : State) : R :=
  let key := bankKey pc bank
  let b := Tab.get key (s.stack stack).banks
  .next (if b.row.isSome && decide (b.used + nsT b.idle ≤ s.now) then
    s.modBank stack key (fun x => { x with row := none })
  else s)

/-- REQUEST_STARVE_PROMOTE (R309): a waiting request, by its place in the hubs' queue, is promoted by age. -/
def execRequestStarvePromote (place : Nat) (s : State) : R :=
  .next (match s.recov.held[place]? with
    | some r => if r.since + nsT (s.par P.mcStarveNs) ≤ s.now then
        { s with recov := { s.recov with held := s.recov.held.set place { r with promoted := true } } }
      else s
    | none => s)

/-! Command parity (R315, R316). -/

/-- Change a channel. -/
def State.modChan (s : State) (k c : Nat) (f : ChanRec → ChanRec) : State :=
  s.modStack k (fun r => { r with chans := Tab.mod c f r.chans })

/-- Precharge every bank of a channel's two pseudo-channels. -/
def prechargeChan (c : Nat) (r : StackRec) : StackRec :=
  { r with banks := r.banks.filterMap (fun p =>
      if p.1 / 128 = c then (if p.2.owed = 0 then none else some (p.1, { p.2 with row := none, used := 0, idle := 0 })) else some p) }

/-- The number of bits set below n. -/
def popcount (n v : Nat) : Nat := ((List.range n).filter (fun i => v.testBit i)).length

/-- CHANNEL_OFFLINE (R316, R340): the channel goes offline for retraining, the stack out of service; more than 8 channels offline
at once are a cause of the stack's death. -/
def State.chanOffline (s : State) (k c : Nat) : State :=
  let off := s.par (P.mcChannelOffline k) ||| 2 ^ c
  let s := s.setPar (P.mcChannelOffline k) off
  let s := if s.par (P.stackHealth k) = 0 then s.setPar (P.stackHealth k) 1 else s
  (s.modStack k (fun r => { r with offline := true, dying := r.dying || decide (8 < popcount 32 off) })).modChan k c
    (fun x => { x with alerts := 0, replaying := false })

/-- A command parity alert (R315): stop, precharge, replay; the fourth replay in a row to meet one takes the channel offline. -/
def State.parityAlert (s : State) (k c : Nat) : State :=
  if (s.par (P.mcChannelOffline k)).testBit c then s
  else
    let x := Tab.get c (s.stack k).chans
    let s := (s.count (P.mcParityAlerts k) 1).modStack k (prechargeChan c)
    let n := if x.replaying then x.alerts + 1 else 0
    if 4 ≤ n then s.chanOffline k c else s.modChan k c (fun x => { x with alerts := n, replaying := true })

/-- COMMAND_PARITY_ALERT (R315). -/
def execCommandParityAlert (stack : Fin 16) (channel : Fin 32) (s : State) : R := .next (s.parityAlert stack channel)

/-- REPLAY_COMPLETE (R315). -/
def execReplayComplete (stack : Fin 16) (channel : Fin 32) (s : State) : R :=
  .next (if (Tab.get channel.val (s.stack stack).chans).replaying then
    (s.modChan stack channel (fun x => { x with alerts := 0, replaying := false })).count (P.mcReplays stack) 1
  else s)

/-- CHANNEL_RETRAIN_COMPLETE (R316): success brings the channel back, failure is a cause of the stack's death. -/
def execChannelRetrainComplete (stack : Fin 16) (channel : Fin 32) (ok : Bool) (s : State) : R :=
  .next (if !(s.par (P.mcChannelOffline stack)).testBit channel then s
  else if !ok then s.modStack stack (fun r => { r with dying := true })
  else
    let off := s.par (P.mcChannelOffline stack) - 2 ^ channel.val
    let s := s.setPar (P.mcChannelOffline stack) off
    if off = 0 then
      (if s.par (P.stackHealth stack) = 1 then s.setPar (P.stackHealth stack) 0 else s).modStack stack (fun r => { r with offline := false })
    else s)

/-! Panic (R313, R314). -/

/-- Master m has a real-time contract in force (R299). -/
def State.rtMaster (s : State) (m : Nat) : Bool :=
  s.consOn.any (fun c => masterOf (s.par (P.rcMaster c)) == m && fld (s.par (P.rcMaster c)) 15 15 == 1)

/-- Master m is in panic. -/
def State.panicking (s : State) (m : Nat) : Bool := (s.par (P.mcPanicState (m / 64))).testBit (m % 64)

/-- PANIC_ASSERT (R313, R314): `fill` lines in the master's read-return buffer, `reads` accepted and not returned. -/
def execPanicAssert (master : Fin 512) (fill reads : Nat) (s : State) : R :=
  .next (if s.rtMaster master && !s.panicking master && decide (fill < 16 ∧ 0 < reads) then
    let s := s.setPar (P.mcPanicState (master / 64)) (s.par (P.mcPanicState (master / 64)) ||| 2 ^ (master.val % 64))
    let s := forAll (fun k s => s.count (P.mcPanicCount k) 1) (List.range 16) s
    { s with recov := { s.recov with held := s.recov.held.map (fun r => if r.port = master.val then { r with promoted := true } else r) } }
  else s)

/-- PANIC_DEASSERT (R313, R314): its requests stay promoted only by their age (R309). -/
def execPanicDeassert (master : Fin 512) (fill reads : Nat) (s : State) : R :=
  .next (if s.panicking master && decide (32 ≤ fill ∨ reads = 0) then
    let s := s.setPar (P.mcPanicState (master / 64)) (s.par (P.mcPanicState (master / 64)) - 2 ^ (master.val % 64))
    { s with recov := { s.recov with held := s.recov.held.map (fun r =>
      if r.port = master.val then { r with promoted := decide (r.since + nsT (s.par P.mcStarveNs) ≤ s.now) } else r) } }
  else s)

/-! Training (R317, R318). -/

/-- An accepted write of trn_hold (R318). -/
def State.trnHoldWrite (s : State) (k v : Nat) : State :=
  let s := s.setPar (P.trnHold k) v
  if v = 1 then (if s.wantsExit k then s.queueWake ⟨17, 2, k⟩ else s) else s.enterSelf k

/-- TRN_HOLD_WRITE (R318). -/
def execTrnHoldWrite (stack : Fin 16) (value : Nat) (s : State) : R :=
  .next (s.barWrite (P.trnHold stack) value (fun s => s.trnHoldWrite stack value))

/-- An accepted write of trn_ctl (R318): with start set it begins a run. -/
def State.trnCtlWrite (s : State) (k v : Nat) : State :=
  if fld v 63 63 = 0 then s.setPar (P.trnCtl k) v
  else ((s.setPar (P.trnCtl k) (setFld v 63 63 0)).setPar (P.trnStatus k) 1).modStack k (fun r => { r with running := true })

/-- TRN_CTL_START (R318): a write of trn_ctl; one with start set and a field outside its range reads BAD_FIELD and is refused. -/
def execTrnCtlStart (stack : Fin 16) (value : Nat) (s : State) : R :=
  .next (s.barWrite (P.trnCtl stack) value (fun s => s.trnCtlWrite stack value))

/-- A write of trn_lane (R318): the setting of one lane of the selected pseudo-channel. -/
def State.trnLaneWrite (s : State) (k v : Nat) : State :=
  let ctl := s.par (P.trnCtl k)
  (s.setPar (P.trnLane k) v).modStack k (fun r => { r with
    lanes := Tab.set ((fld ctl 60 56 * 2 + fld ctl 55 55) * 64 + fld v 5 0) (fld v 31 8) r.lanes })

/-- TRN_RUN_COMPLETE (R318). -/
def execTrnRunComplete (stack : Fin 16) (mismatch errors : Nat) (s : State) : R :=
  .next (if !(s.stack stack).running then s
  else
    let s := ((s.setPar (P.trnMismatch stack) (mismatch % 2 ^ 40)).setPar (P.trnErrors stack) (Nat.min errors (2 ^ 32 - 1))).setPar
      (P.trnStatus stack) 2
    let back := (s.stack stack).returning
    let s := s.modStack stack (fun r => { r with running := false, returning := false })
    if back then s.enterSelf stack else s)

/-- SELF_REFRESH_ENTRY (R319): the entry of a stack that is entering completes. -/
def execSelfRefreshEntry (stack : Fin 16) (s : State) : R :=
  .next (if s.par (P.mcSrState stack) = srEntering then s.inSelf stack else s)

/-- A stack's exit completes (R320): ACTIVE, or TRAINED_IDLE under trn_hold; an entry that a cause asked for meanwhile follows. -/
def State.outOfSelf (s : State) (k : Nat) : State :=
  let s := s.pw (fun p => { p with granted := Tab.set k false p.granted })
  if s.dev = dsStandby && s.par (P.trnHold k) == 1 then s.setPar (P.mcSrState k) srIdle
  else
    let s := s.setPar (P.mcSrState k) srActive
    if s.par (P.mcCond k) = 3 || s.dev != dsService then s.enterSelf k else s

end Sys2Proof.Machine
end

