-- ==== Sys2Proof/Machine/Events.lean ====
section
/-! DEFINITION. Event records of the logical devices, their interrupts, and the media log (R256-R259, R332, R333). -/
namespace Sys2Proof.Machine

/-- A logical device's MSI-X is enabled and not masked as a whole (R246). PRESUMED: the capability's layout is that of the PCI Express
standard (log 112). -/
def LdRec.msixOn (l : LdRec) : Bool := let c := Tab.get Config.ldMsixCap l.cfg; c.testBit 31 && !c.testBit 30

/-- Raise MSI-X vector v of a logical device (R238, R246, R266). -/
def State.msixLd (s : State) (port v : Nat) : State :=
  let l := s.ld (ldKey port)
  let m := Tab.get v l.msix
  if l.bme && l.msixOn && m % 2 == 1 then s.send (port / 16) 3 (.msix (some port) v (Tab.get v l.msixMsg))
  else s.modLd (ldKey port) (fun l => { l with msix := Tab.set v (m % 2 + 2) l.msix })

/-- The Component Identifier (R257). -/
def compId (cause detail region stack hid flags object extra : Nat) : List Byte :=
  leBytes 1 cause ++ leBytes 1 detail ++ leBytes 1 region ++ leBytes 1 stack ++ leBytes 1 hid ++ leBytes 1 flags ++
    leBytes 2 object ++ leBytes 8 extra

/-- An LD's timestamp (R264): the value set, in nanoseconds, and the time since. -/
def State.ldTime (s : State) (key : Nat) : Nat := (s.ld key).stamp + (s.now - (s.ld key).stampAt) * 40

/-- Add an event record to an LD's log (R259): 64 records a log, the oldest kept, a record beyond them counted as lost; and the
interrupt of the LD's policy. -/
def State.addEvent (s : State) (port log : Nat) (dram : Bool) (kind trans dpa place : Nat) (comp : List Byte) : State :=
  let key := ldKey port
  let l := s.ld key
  if 64 ≤ (l.log.filter (fun r => r.log == log)).length then
    let t := s.ldTime key
    s.modLd key (fun l => { l with
      lostFirst := if Tab.get log l.lost = 0 then Tab.set log t l.lostFirst else l.lostFirst
      lostLast := Tab.set log t l.lostLast
      lost := Tab.mod log (fun n => Nat.min (n + 1) 65535) l.lost })
  else
    let h := l.nextHandle % 65535 + 1
    let s := s.modLd key (fun l => { l with nextHandle := h, log := l.log ++
      [{ log := log, dram := dram, kind := kind, trans := trans, dpa := dpa, place := place, comp := comp, time := s.ldTime key, handle := h }] })
    let p := Tab.get log l.policy
    if fld p 1 0 = 1 then s.msixLd port (fld p 7 4) else s

/-- A General Media record's constants by cause (R256): log, memory event type. -/
def eventKind : Nat → Nat × Nat
  | 1 => (2, 2)
  | 2 => (2, 2)
  | 3 => (2, 0)
  | 4 => (1, 1)
  | 5 => (1, 1)
  | 6 => (1, 1)
  | 7 => (2, 2)
  | 8 => (0, 2)
  | 9 => (1, 2)
  | _ => (2, 2)

/-- What a General Media record carries. -/
structure EventArgs where
  cause : Nat
  detail : Nat := 0
  /-- Transaction Type: 0 internal, 1 host read, 2 host write, 3 scrub. -/
  trans : Nat
  region : Nat
  stack : Nat := 0xFF
  hid : Nat := 0xFF
  corrected : Bool := false
  lossy : Bool := false
  object : Nat := 0xFFFF
  extra : Nat := 0
  /-- DPA + 1; 0: not valid. -/
  dpa : Nat

/-- A General Media record on one LD: the request that caused it came through it (R256). -/
def State.event (s : State) (port : Nat) (a : EventArgs) : State :=
  let k := eventKind a.cause
  s.addEvent port (if a.corrected then 0 else k.1) false k.2 a.trans a.dpa 0
    (compId a.cause a.detail a.region a.stack a.hid ((if a.corrected then 1 else 0) + (if a.lossy then 2 else 0)) a.object a.extra)

/-- A committed HDM decoder of an LD reaches a DPA (R65, R245). -/
def State.hdmReaches (s : State) (port dpa : Nat) : Bool :=
  (s.ld (ldKey port)).hdm.any (fun p => p.2.on && decide (0 < p.2.ways ∧ p.2.dpa ≤ dpa ∧ dpa < p.2.dpa + p.2.size / p.2.ways))

/-- The bound LDs of the links that are UP. -/
def State.ldsUp (s : State) : List Nat :=
  ((s.links.filter s.linkUp).map (fun k => (List.range (Tab.get k s.ports.link).lds).map (fun l => k * 16 + l))).flatten.filter
    (fun p => s.hidOf p != 255)

/-- The LDs that a record about a DPA with no request behind it goes to (R256). -/
def State.eventPorts (s : State) (dpa : Nat) : List Nat :=
  s.ldsUp.filter (fun p =>
    if s.par P.fmTrustMode = 1 then s.hdmReaches p dpa
    else s.entriesOn.any (fun e => s.entryCovers e (s.hidOf p) dpa))

/-- A record with no request behind it. -/
def State.eventAll (s : State) (dpa : Nat) (a : EventArgs) : State := forAll (fun p s => s.event p a) (s.eventPorts dpa) s

/-- A record caused by a request, or by none when `port` is none. -/
def State.eventOn (s : State) (port : Option Nat) (dpa : Nat) (a : EventArgs) : State :=
  match port with
  | some p => s.event p a
  | none => s.eventAll dpa a

/-! The media log (R333). -/

/-- Append an entry to the media log. -/
def State.logMedia (s : State) (kind unit pc symbol bank col row : Nat) : State :=
  let seq := (s.par P.mediaLogSeq + 1) % 2 ^ 32
  let b := leBytes 4 seq ++ leBytes 4 s.ms ++ leBytes 1 kind ++ leBytes 1 unit ++ leBytes 1 pc ++ leBytes 1 symbol ++
    leBytes 1 bank ++ leBytes 1 col ++ leBytes 2 row
  { s.setPar P.mediaLogSeq seq with media := { s.media with log := Tab.set (seq % 65536) b s.media.log } }

/-- An entry about a line of a stack. -/
def State.logLine (s : State) (kind k line symbol : Nat) : State :=
  let p := placeOf line
  s.logMedia kind k p.pc symbol p.bank p.col p.row

/-- An entry about a whole unit. -/
def State.logUnit (s : State) (kind unit : Nat) : State := s.logMedia kind unit 0xFF 0xFF 0xFF 0xFF 0xFFFF

/-- An entry about SRAM (R327, R333). -/
def State.logSram (s : State) (kind unit symbol : Nat) : State := s.logMedia kind unit 0xFF symbol 0xFF 0xFF 0xFFFF

end Sys2Proof.Machine
end

