-- ==== Sys2Proof/Machine/Frames.lean ====
section
/-! DEFINITION. Frames: their states, counts and law, headroom and pressure, the fence, allocation and release (R46, R49,
R146-R158). -/
namespace Sys2Proof.Machine

/-- Change stored data's record. -/
def State.modMem (s : State) (f : Mem → Mem) : State := { s with mem := f s.mem }

/-- An arbiter's grant (R18): the pointer goes to one past the granted requester; a region arbiter's is use of its region (R392). -/
def State.arbGrant (s : State) (a n r : Nat) : State :=
  let s := { s with arb := Tab.set a ((r + 1) % n) s.arb }
  if a < 4 then s.busy a else s

/-- The number of the requester of region arbiter q through which a port block's requests come (R20): the port's own, or the UCIe
ingress from its region. -/
def portRequester (q port : Nat) : Nat := if port / 4 = q then port % 4 else if port / 4 < q then 15 + port / 4 else 14 + port / 4

/-- Grants to a request of a port block at its home region q: of a slot on its region's UCIe link, where that is another, and at q
(R18, R20, R24). A lone requester's grant moves the pointer as any other. DEDUCED (log 86). -/
def State.hubGrant (s : State) (q port : Nat) : State :=
  (if port / 4 = q then s else s.arbGrant (port / 4) 19 (port % 4)).arbGrant q 19 (portRequester q port)

/-- A grant of region arbiter q to a compute block (R20). -/
def State.blkGrant (s : State) (blk : Nat) : State := s.arbGrant (blk / 16) 19 (4 + blk % 16)

/-- Grants of region arbiter q to its tier mover, its patrol scrub, the hub link (R20). -/
def State.moverGrant (s : State) (q : Nat) : State := s.arbGrant q 19 13
def State.scrubGrant (s : State) (q : Nat) : State := s.arbGrant q 19 14
def State.linkGrant (s : State) (q : Nat) : State := s.arbGrant q 19 18

/-- A grant of the device arbiter (R21): 0-3 the regions, 4 the management cores, 5 service link ingress. -/
def State.devGrant (s : State) (r : Nat) : State := s.arbGrant 4 6 r

/-- Data frames of a stack: 18,219,008 (R334), the frames of a region's 278 GiB by four. -/
def framesPer : Nat := 18219008

/-- The key of frame F of stack k. -/
def frameKey (k f : Nat) : Nat := k * 2 ^ 25 + f

/-- Stack and index of a frame key. -/
def frameStack (key : Nat) : Nat := key / 2 ^ 25
def frameIdx (key : Nat) : Nat := key % 2 ^ 25

/-- The frame that holds a sector address (R66, R74). -/
def frameOf (addr : Nat) : Nat := frameKey (addr / 2 ^ 32) (addr % 2 ^ 32 / 16)

/-- The sector address of a frame's first sector. -/
def frameAddr (key : Nat) : Nat := frameStack key * 2 ^ 32 + frameIdx key * 16

/-- HBM byte address of a sector address. -/
def byteOf (addr : Nat) : Nat := addr / 2 ^ 32 * 77309411328 + addr % 2 ^ 32 * 256

/-- Frame states (R146). -/
def fFree : Nat := 0
def fUsed : Nat := 1
def fShadow : Nat := 2
def fRetired : Nat := 3
def fQuar : Nat := 4

/-- A frame; every frame of a stack whose walk is over is RETIRED (R340). -/
def State.frame (s : State) (key : Nat) : FrameRec :=
  if (s.stack (frameStack key)).retired then { st := fRetired, mask := 0, part := 0, copy := false } else Tab.get key s.mem.frames

/-- Frames of region q on stacks whose walk is over (R340). -/
def State.deadFrames (s : State) (q : Nat) : Nat := framesPer * ((regionStacks q).filter (fun k => (s.stack k).retired)).length

/-- The count of a region that a frame state counts in (R149). -/
def capKey (q st : Nat) : Nat :=
  match st with
  | 0 => P.capFree q
  | 1 => P.capUsed q
  | 2 => P.capShadow q
  | 3 => P.capRetired q
  | _ => P.capQuarantined q

/-- A frame held by its partition, in state USED or SHADOW and no copy (R153). -/
def FrameRec.isHeld (r : FrameRec) : Bool := (r.st == fUsed || r.st == fShadow) && !r.copy && r.part != 0

/-- Frames partition n holds in region q: h (R153). -/
def State.heldIn (s : State) (n q : Nat) : Nat := Tab.get (n * 4 + q) s.mem.held

/-- The partition's frames change by one. -/
def State.addHeld (s : State) (n q : Nat) (up : Bool) : State :=
  let s := s.modMem (fun m => { m with held := Tab.mod (n * 4 + q) (fun h => if up then h + 1 else h - 1) m.held })
  if up then s.count (P.partHeld n) 1 else s.uncount (P.partHeld n) 1

/-- Write a frame's record: one step that moves it from one count to another (R147) and from one partition's holding to
another's (R153). -/
def State.putFrame (s : State) (key : Nat) (r : FrameRec) : State :=
  let o := s.frame key
  let q := frameStack key / 4
  let s := s.modMem (fun m => { m with frames := Tab.set key r m.frames })
  let s := if o.st = r.st then s else (s.uncount (capKey q o.st) 1).count (capKey q r.st) 1
  let s := if o.isHeld && !(r.isHeld && r.part == o.part) then s.addHeld (o.part - 1) q false else s
  if r.isHeld && !(o.isHeld && r.part == o.part) then s.addHeld (r.part - 1) q true else s

/-! Charges (R49) and headroom (R153). -/

/-- A partition's reservation in bytes (R49). -/
def State.reservation (s : State) (n : Nat) : Nat :=
  let size := s.par (P.partSize n)
  let b := if s.par (P.partKind n) = 2 then cdiv (cdiv size 4) (2 ^ 21) * 2 ^ 21 else size
  if s.mirrored n then 2 * b else b

/-- The charge on each region of its set, in frames: c of R153. -/
def State.chargeFrames (s : State) (n : Nat) : Nat := s.reservation n / setSize (s.par (P.partStackSet n)) / 4096

/-- The partition's stack set includes region q. -/
def State.usesRegion (s : State) (n q : Nat) : Bool := (setRegions (s.par (P.partStackSet n))).contains q

/-- Owed frames O of region q (R153). -/
def State.owed (s : State) (q : Nat) : Nat :=
  ((s.partsOn.filter (fun n => s.usesRegion n q)).map (fun n => s.chargeFrames n - s.heldIn n q)).sum

/-- Headroom H of region q (R153). -/
def State.headroom (s : State) (q : Nat) : Int := (s.par (P.capFree q) : Int) - (s.owed q : Int)

/-- cap_low_water and cap_emergency_pool in frames (R171). -/
def State.lowWater (s : State) : Nat := s.par P.capLowWater * 256
def State.pool (s : State) : Nat := s.par P.capEmergencyPool * 256

/-- The pressure state that H gives (R154). -/
def State.pressureOf (s : State) (q : Nat) : Nat :=
  let h := s.headroom q
  if h < 0 then 3 else if h < s.pool then 2 else if h < s.lowWater then 1 else 0

/-- A capacity fault or the end of a fence (R156, R158): interrupt and notice; `fault` counts it. -/
def State.capNotice (s : State) (n q : Nat) (fault : Bool) : State :=
  let s := if fault then s.count P.capFaultCount 1 else s
  (s.raise 1).notice 4 [(0, cborUint n), (1, cborUint (if fault then 1 else 0)), (2, cborUint q)]

/-- Fence partition n, for want of frames in region q (R157). -/
def State.fence (s : State) (n q : Nat) : State :=
  if s.par (P.partFence n) = 1 then s
  else ((s.setPar (P.partFence n) 1).count (P.partFenceCount n) 1).capNotice n q true

/-- Elastic partition n holds its charge of region q or more (R154). -/
def State.elasticFull (s : State) (n q : Nat) : Bool :=
  s.par (P.partKind n) == 2 && s.usesRegion n q && decide (s.chargeFrames n ≤ s.heldIn n q)

/-- The figures and the pressure state of region q, after every transition (R153, R154). -/
def State.press (s : State) (q : Nat) : State :=
  let s := (s.setPar (P.capOwed q) (s.owed q)).setPar (P.capHeadroom q) (unsigned 32 (s.headroom q))
  let p := s.pressureOf q
  let s := if p = s.par (P.capPressure q) then s
    else (s.setPar (P.capPressure q) p).notice 3 [(0, cborUint q), (1, cborUint p), (2, cborInt (s.headroom q))]
  if p = 3 then forAll (fun n s => if s.elasticFull n q then s.fence n q else s) s.partsOn s else s

/-- A transition of R147: the record, then headroom and pressure. -/
def State.setFrame (s : State) (key : Nat) (r : FrameRec) : State := (s.putFrame key r).press (frameStack key / 4)

/-! Allocation (R46, R151). -/

/-- Non-FREE frames of stack k. -/
def State.takenOn (s : State) (k : Nat) : Nat := (s.mem.frames.filter (fun p => frameStack p.1 == k)).length

/-- Stack k is live: not dead and not out of service for placement (R46, R340). -/
def State.placeable (s : State) (k : Nat) : Bool := s.par (P.stackHealth k) != 2 && !(s.stack k).dying

/-- The first FREE frame of stack k from frame `f`, wrapping; the fuel exceeds the frames taken. -/
def State.freeFrom (s : State) (k f : Nat) : Nat → Nat
  | 0 => f % framesPer
  | n + 1 => if (s.frame (frameKey k (f % framesPer))).st = 0 then f % framesPer else s.freeFrom k (f + 1) n

/-- The live stack of region q with a FREE frame that partition n's rotation pointer finds first (R46). -/
def State.rotStack (s : State) (n q : Nat) : Option Nat :=
  (rotPick 4 (Tab.get (n * 4 + q) s.mem.rot) (fun i => s.placeable (4 * q + i) && decide (s.takenOn (4 * q + i) < framesPer))).map
    (fun i => 4 * q + i)

/-- Region q has a FREE frame that can be taken. -/
def State.anyFree (s : State) (n q : Nat) : Bool := (s.rotStack n q).isSome

/-- Forget what a range of HBM held: contents, marks and flipped bits. -/
def State.clearHbm (s : State) (base n : Nat) : State := s.modMem (fun m => { m with
  hbm := m.hbm.filter (fun c => decide (c.1 < base ∨ base + n ≤ c.1))
  marks := m.marks.filter (fun c => decide (c.1 < base / 64 ∨ (base + n) / 64 ≤ c.1)) })

/-- Take a new frame for partition n in region q (R46): the allocator's choice on the stack the pointer names, its sectors
zero (R328), in state `st` with `mask` live. -/
def State.newFrame (s : State) (n q st mask : Nat) (copy : Bool) : Option (Nat × State) :=
  match s.rotStack n q with
  | none => none
  | some k =>
    let f := s.freeFrom k (Config.frameChoice s.freeCtr) (s.takenOn k + 1)
    let key := frameKey k f
    let s := (s.modMem (fun m => { m with rot := Tab.set (n * 4 + q) ((k % 4 + 1) % 4) m.rot })).freeNext
    let s := s.clearHbm (byteOf (frameAddr key)) 4096
    let s := { s with media := { s.media with flips := s.media.flips.filter (fun p =>
      decide (p.1 < byteOf (frameAddr key) / 64 ∨ byteOf (frameAddr key) / 64 + 64 ≤ p.1)) } }
    some (key, s.setFrame key { st := st, mask := mask, part := n + 1, copy := copy })

/-- The mask of `len` sectors from position `i`. -/
def sectorMask (i len : Nat) : Nat := (2 ^ len - 1) * 2 ^ i

/-- The first position in a frame with `len` free sectors. -/
def fitIn (mask len : Nat) : Option Nat := (List.range (17 - len)).find? (fun i => mask &&& sectorMask i len == 0)

/-- The open frames of partition n in region q, in the order of R151. -/
def State.openFrames (s : State) (n q : Nat) : List Nat :=
  let p := Tab.get (n * 4 + q) s.mem.rot
  [0, 1, 2, 3].filterMap (fun i =>
    let k := 4 * q + (p + i) % 4
    let f := Tab.get (n * 16 + k) s.mem.openFrame
    if f = 0 || !s.placeable k then none else some (f - 1))

/-- An open frame of state `st` with room for `len` sectors, and the position (R151). -/
def State.openFit (s : State) (n q st len : Nat) : Option (Nat × Nat) :=
  (s.openFrames n q).findSome? (fun key =>
    let r := s.frame key
    if r.st = st then (fitIn r.mask len).map (fun i => (key, i)) else none)

/-- Storing `len` sectors for partition n in region q takes a frame from FREE (R157). -/
def State.needsFrame (s : State) (n q st len : Nat) : Bool := (s.openFit n q st len).isNone

/-- Allocate `len` sectors (1-16) for partition n in region q: first-fit in the open frames, otherwise a new frame, which
becomes the open frame of its stack, whole blocks' too (R151). -/
def State.alloc (s : State) (n q st len : Nat) : Option (Nat × State) :=
  match s.openFit n q st len with
  | some (key, i) =>
    let r := s.frame key
    some (frameAddr key + i, s.setFrame key { r with mask := r.mask ||| sectorMask i len })
  | none =>
    match s.newFrame n q st (sectorMask 0 len) false with
    | none => none
    | some (key, s) =>
      some (frameAddr key, s.modMem (fun m => { m with openFrame := Tab.set (n * 16 + frameStack key) (key + 1) m.openFrame }))

/-- Leave `len` sectors at an address: the last live sector gone frees a USED or SHADOW frame; a QUARANTINED frame stays
(R147). With `quar`, the frame becomes QUARANTINED. -/
def State.freeSectors (s : State) (addr len : Nat) (quar : Bool) : State :=
  let key := frameOf addr
  let r := s.frame key
  let gone := sectorMask (addr % 16) len
  let mask := r.mask - (r.mask &&& gone)
  let shut := fun (s : State) => s.modMem (fun m => { m with openFrame := m.openFrame.filter (fun p => p.2 != key + 1) })
  if r.st = fUsed ∨ r.st = fShadow then
    if quar then shut (s.setFrame key { r with st := fQuar, mask := mask })
    else if mask = 0 then shut (s.setFrame key default)
    else s.setFrame key { r with mask := mask }
  else if r.st = fQuar then s.setFrame key { r with mask := mask }
  else s

/-- A frame that SHADOW sectors were committed in becomes USED (R147): the whole frame at the first commit, also where it holds sectors of
another job or version. DESIGN CHOICE (log 101). -/
def State.useFrame (s : State) (addr : Nat) : State :=
  let key := frameOf addr
  let r := s.frame key
  if r.st = fShadow then s.setFrame key { r with st := fUsed } else s

/-- Retire a frame that is FREE, or QUARANTINED with no live sector (R147). -/
def State.retireFrame (s : State) (key : Nat) : State :=
  let r := s.frame key
  if r.st = fFree ∨ (r.st = fQuar ∧ r.mask = 0) then s.setFrame key { st := fRetired, mask := 0, part := 0, copy := false } else s

/-! Audits (R148). -/

/-- Tally of a frame state in region q, from the table. -/
def State.tally (s : State) (q st : Nat) : Nat := (s.mem.frames.filter (fun p => frameStack p.1 / 4 == q && p.2.st == st)).length +
  (if st = fRetired then s.deadFrames q else 0)

/-- The five counts of region q. -/
def State.capCounts (s : State) (q : Nat) : List Nat := [0, 1, 2, 3, 4].map (fun st => s.par (capKey q st))

/-- A frame's byte lies within R146: its live sectors fit its state. -/
def FrameRec.ok (r : FrameRec) : Bool :=
  let n := popcount 16 r.mask
  match r.st with
  | 0 => n == 0
  | 1 => decide (1 ≤ n)
  | 2 => decide (1 ≤ n)
  | 3 => n == 0
  | 4 => true
  | _ => false

/-- The one-second audit of region q (R148). -/
def State.capAudit (s : State) (q : Nat) : State :=
  if (s.capCounts q).sum = s.par (P.capTotal q) then s.count (P.capAuditPass q) 1
  else (s.count (P.capAuditFail q) 1).auditFail 1 (unitOf 1 q) (s.capCounts q)

/-- The walker's pass over region q (R148). -/
def State.capWalk (s : State) (q : Nat) : State :=
  let fr := s.mem.frames.filter (fun p => frameStack p.1 / 4 == q)
  if fr.all (fun p => p.2.ok) && [1, 2, 3, 4].all (fun st => s.tally q st == s.par (capKey q st)) &&
      s.par (P.capTotal q) - fr.length - s.deadFrames q == s.par (P.capFree q) then s.count (P.capWalkPass q) 1
  else (s.count (P.capAuditFail q) 1).auditFail 1 (unitOf 1 q) (s.capCounts q)

/-- CAPACITY_AUDIT (R148): once per second, each region hub's five counts against the total. -/
def execCapacityAudit (s : State) : R :=
  .next (if s.dev = dsInit || s.warm then s else forAll (fun q s => s.capAudit q) [0, 1, 2, 3] s)

/-- FRAME_WALK_PASS (R148): the walker completes a pass. -/
def execFrameWalkPass (region : Fin 4) (s : State) : R := .next (s.capWalk region)

/-- FENCE_LIFT (R158): every region of the stack set has H at or above cap_low_water. -/
def execFenceLift (partition : Fin 64) (s : State) : R :=
  let n := partition.val
  let rs := setRegions (s.par (P.partStackSet n))
  .next (if s.par (P.partFence n) = 1 ∧ rs.all (fun q => decide ((s.lowWater : Int) ≤ s.headroom q)) then
    (s.setPar (P.partFence n) 0).capNotice n (rs.headD 0) false else s)

end Sys2Proof.Machine
end

