-- ==== Sys2Proof/Machine/Tensor.lean ====
section
/-! DEFINITION. Tensors as every view of them needs: descriptors and their areas, what a block bears on, the copies built from it
(R92-R98, R108, R118-R123, R378). -/
namespace Sys2Proof.Machine

/-- Change the factor units. -/
def State.modFac (s : State) (f : Fac → Fac) : State := { s with fac := f s.fac }

/-- A descriptor's fields (R95). -/
structure TDesc where
  fidelity : Nat
  fmt : Nat
  int8 : Bool
  pol : Bool
  lowerMode : Nat
  rankMax : Nat
  eps : Int
  lowerEps : Int
  shift : Int
  rows : Nat
  cols : Nat
  uExp : Nat
  uMan : Nat
  vExp : Nat
  vMan : Nat
  tab : Nat
  res : Nat
  rankFloor : Nat
  oversample : Nat
  seed : Nat
  deriving DecidableEq, Repr

/-- Word w (1-7) of descriptor d. -/
def State.dWord (s : State) (d w : Nat) : Nat := s.par (P.descWord d (w - 1))

/-- The fields of descriptor d (R95). -/
def State.desc (s : State) (d : Nat) : TDesc :=
  let a := s.dWord d 1
  let b := s.dWord d 2
  { fidelity := fld a 63 62, fmt := fld a 61 59, int8 := fld a 58 58 == 1, pol := fld a 57 57 == 1, lowerMode := fld a 56 55
    rankMax := fld a 53 44, eps := signed 12 (fld a 43 32), lowerEps := signed 12 (fld a 31 20)
    shift := signed 16 (fld b 63 48), rows := fld b 46 32, cols := fld b 14 0
    uExp := fld (s.dWord d 3) 61 32, uMan := fld (s.dWord d 3) 29 0, vExp := fld (s.dWord d 4) 61 32, vMan := fld (s.dWord d 4) 29 0
    tab := fld (s.dWord d 5) 61 32, res := fld (s.dWord d 5) 29 0
    rankFloor := fld (s.dWord d 6) 25 16, oversample := fld (s.dWord d 6) 15 8, seed := s.dWord d 7 }

/-- Output element width W and mantissa width w in bytes (R92, R98). -/
def TDesc.wOut (t : TDesc) : Nat := (fmtOf t.fmt).bytes
def TDesc.wMan (t : TDesc) : Nat := if t.int8 then 1 else 2

/-- Rows, columns and tiles (R92). -/
def TDesc.m (t : TDesc) : Nat := 64 * t.rows
def TDesc.n (t : TDesc) : Nat := 64 * t.cols
def TDesc.tiles (t : TDesc) : Nat := t.rows * t.cols

/-- Areas (R98): 0 tensor view, 1 U exponents, 2 U mantissas, 3 V exponents, 4 V mantissas, 5 tile table, 6 residual; each
with its offset and size in 4 KiB units. -/
def TDesc.areas (t : TDesc) : List (Nat × Nat × Nat) :=
  let u := fun n => cdiv n 4096
  [(0, 0, u (t.m * t.n * t.wOut)), (1, t.uExp, u t.m), (2, t.uMan, u (t.m * t.rankMax * t.wMan)), (3, t.vExp, u t.n),
   (4, t.vMan, u (t.n * t.rankMax * t.wMan)), (5, t.tab, u (8 * t.tiles))] ++
    (if t.fidelity = 2 then [] else [(6, t.res, u (t.m * t.n * t.wOut))])

/-- The area that holds block i of the window, 7 a gap, and the block within it (R98). -/
def TDesc.areaAt (t : TDesc) (i : Nat) : Nat × Nat :=
  match t.areas.find? (fun a => decide (a.2.1 ≤ i ∧ i < a.2.1 + a.2.2)) with
  | some a => (a.1, i - a.2.1)
  | none => (7, i)

/-- The end of the last area in 4 KiB units. -/
def TDesc.extent (t : TDesc) : Nat := (t.areas.map (fun a => a.2.1 + a.2.2)).foldl Nat.max 0

/-- Set or clear a bit of desc_state (R94). -/
def State.descBit (s : State) (d bit : Nat) (on : Bool) : State := s.setPar (P.descState d) (setFld (s.par (P.descState d)) bit bit (if on then 1 else 0))

/-- Tiles leave the hung-tile list, each given as descriptor * 2^28 + tile (R378). -/
def State.unhang (s : State) (gone : Nat → Bool) : State :=
  if s.recov.hung.any gone then
    let l := s.recov.hung.filter (fun x => !gone x)
    ({ s with recov := { s.recov with hung := l } } : State).setPar P.hungTiles l.length
  else s

/-- The descriptor of a factor or factoring window. -/
def State.winDesc (s : State) (w : Nat) : TDesc := s.desc (s.par (P.winDescriptor w))

/-- Factor or factoring window. -/
def State.factorWin (s : State) (w : Nat) : Bool := s.par (P.winKind w) == wFactor || s.par (P.winKind w) == wFactoring

/-- The area and the block within it of block b of window w; area 0 of an ordinary window. -/
def State.areaOf (s : State) (w b : Nat) : Nat × Nat :=
  if s.factorWin w then (s.winDesc w).areaAt (b - s.par (P.winBase w) / 4096) else (0, b - s.par (P.winBase w) / 4096)

/-! Reach and invalidation (R108, R120, R122). -/

/-- Block b of an area bears on tile i (R122). -/
def TDesc.reaches (t : TDesc) (area b i : Nat) : Bool :=
  let g := i / t.cols
  let h := i % t.cols
  let band := fun (x : Nat) => decide ((4096 * b) / (t.rankMax * t.wMan) / 64 ≤ x ∧ x ≤ (4096 * b + 4095) / (t.rankMax * t.wMan) / 64)
  match area with
  | 0 => i == b / t.wOut
  | 6 => i == b / t.wOut
  | 1 => g / 64 == b
  | 2 => band g
  | 3 => h / 64 == b
  | 4 => band h
  | 5 => i / 512 == b
  | _ => false

/-- Tiles resident under waypoint u. -/
def State.residentOf (s : State) (u : Nat) : List Nat := s.fac.resident.filterMap (fun p => if p.1 / 2 ^ 28 = u then some (p.1 % 2 ^ 28) else none)

/-- Waypoint fields (R118). -/
def State.wpState (s : State) (u : Nat) : Nat := fld (s.par (P.wpWord u 3)) 46 44
def State.wpJob (s : State) (u : Nat) : Nat := fld (s.par (P.wpWord u 3)) 63 48
def State.wpDesc (s : State) (u : Nat) : Nat := fld (s.par (P.wpWord u 3)) 37 27
def State.wpTier (s : State) (u : Nat) : Nat := fld (s.par (P.wpWord u 3)) 39 38
def State.wpFirst (s : State) (u : Nat) : Nat := fld (s.par (P.wpWord u 4)) 27 0
def State.wpCount (s : State) (u : Nat) : Nat := fld (s.par (P.wpWord u 4)) 60 32
def State.wpArmed (s : State) (u : Nat) : Bool := fld (s.par (P.wpWord u 3)) 47 47 == 1
def State.setWp (s : State) (u st reason : Nat) : State :=
  s.setPar (P.wpWord u 3) (setFld (setFld (s.par (P.wpWord u 3)) 46 44 st) 43 40 reason)

/-- The armed waypoints. -/
def State.wpsOn (s : State) : List Nat := (s.objs 0x4600 16 32 8 3).filter s.wpArmed

/-- Drop the copy of a tile under waypoint u, its T1 frames freed. -/
def State.dropTile (s : State) (u i : Nat) : State :=
  let key := u * 2 ^ 28 + i
  let fr := Tab.get key s.fac.t1frames
  let s := s.modFac (fun f => { f with resident := Tab.set key false f.resident, t1frames := Tab.set key [] f.t1frames, t0tiles := Tab.set key [] f.t0tiles })
  let s := forAll (fun k s => s.setFrame (k - 1) default) fr s
  s.uncount P.capPromoFrames fr.length

/-- The copy of a tile is lost: a READY waypoint stages it again. DEDUCED (log 93). -/
def State.loseTile (s : State) (u i : Nat) : State :=
  let s := s.dropTile u i
  if s.wpState u = 3 then s.setWp u 2 0 else s

/-- Copies of a waypoint released. -/
def State.dropCopies (s : State) (u : Nat) : State := forAll (fun i s => s.dropTile u i) (s.residentOf u) s

/-- The copies built from block b of an area of window `win` are dropped (R108, R120, R123): reconstruction buffers, panels,
waypoint copies; a READY waypoint that loses a tile returns to STAGING. -/
def State.dropBuilt (s : State) (win area b : Nat) : State :=
  let d := s.par (P.winDescriptor win)
  let t := s.desc d
  let b0 := s.par (P.winBase win) / 4096
  let off := ((t.areas.find? (fun a => a.1 == area)).map (fun a => a.2.1)).getD 0
  let hit := fun (i : Nat) => t.reaches area b i
  let s := s.modFac (fun f => { f with
    recon := (f.recon.map (fun (p : Nat × List (Nat × Built)) => (p.1, p.2.filter (fun x =>
      !(decide (b0 ≤ x.1 ∧ x.1 < b0 + t.tiles * t.wOut) && hit ((x.1 - b0) / t.wOut)))))).filter (fun p => !p.2.isEmpty)
    panels := (f.panels.map (fun (p : Nat × List Nat) => (p.1, p.2.filter (· ≠ b0 + off + b)))).filter (fun p => !p.2.isEmpty) })
  forAll (fun u s =>
    if s.wpDesc u ≠ d then s
    else
      let gone := (s.residentOf u).filter hit
      if gone.isEmpty then s
      else
        let s := forAll (fun i s => s.dropTile u i) gone s
        if s.wpState u = 3 then s.setWp u 2 0 else s) s.wpsOn s

/-- A write changes block b of an area: every copy built from it goes, and its tiles leave the hung-tile list (R108, R378). -/
def State.invalidate (s : State) (win area b : Nat) : State :=
  let d := s.par (P.winDescriptor win)
  let t := s.desc d
  (s.unhang (fun x => x / 2 ^ 28 == d && t.reaches area b (x % 2 ^ 28))).dropBuilt win area b

/-- A block of a factored tensor has been committed POISON (R94, R123): the copies built from it go; a component block sets
desc_state bit 4; a tensor-view block of a factoring window that leaves FACTOR counts in desc_dense_blocks. -/
def State.compPoisoned (s : State) (b : Nat) (wasFactor : Bool) : State :=
  match s.winAt (b * 4096) with
  | none => s
  | some w =>
    if !s.factorWin w then s
    else
      let (area, i) := s.areaOf w b
      let d := s.par (P.winDescriptor w)
      let s := s.dropBuilt w area i
      let s := if area = 0 && wasFactor && s.par (P.winKind w) == wFactoring then s.count (P.descDenseBlocks d) 1 else s
      if 1 ≤ area ∧ area ≤ 5 then s.descBit d 4 true else s

/-! Tile records (R100, R101). -/

/-- A tile record's fields. -/
structure TileRec where
  eps : Int
  code : Nat
  rank : Nat
  /-- The record breaks R100 or R101. -/
  bad : Bool
  /-- Its code is lower than the descriptor's fidelity. -/
  low : Bool
  deriving DecidableEq, Repr

/-- The record's meaning under a descriptor (R100, R101). -/
def TDesc.record (t : TDesc) (v : Nat) : TileRec :=
  let eps := signed 12 (fld v 27 16)
  let code := fld v 11 10
  let rank := fld v 9 0
  if v = 0 then { eps := 0, code := if t.fidelity = 2 then 2 else 0, rank := 0, bad := false, low := false }
  else
    let field := fld v 63 28 == 0 && fld v 15 12 == 0 && decide (rank ≤ t.rankMax) && code != 3 && (code == 1 || eps == 0)
    let lowEps := t.lowerMode == 1 && eps == t.lowerEps
    let (ok, low) : Bool × Bool := match t.fidelity, code with
      | 0, 0 => (true, false)
      | 0, 1 => (lowEps, true)
      | 0, 2 => (t.lowerMode == 2, true)
      | 1, 0 => (true, false)
      | 1, 1 => (eps == t.eps || lowEps, eps != t.eps)
      | 1, 2 => (t.lowerMode == 2, true)
      | 2, 2 => (true, false)
      | _, _ => (false, false)
    { eps := eps, code := code, rank := rank, bad := !(field && ok), low := field && ok && low }

/-- A record's word. -/
def recordWord (eps : Int) (code rank : Nat) : Nat := unsigned 12 eps * 2 ^ 16 + code * 2 ^ 10 + rank

/-- Elements of `w` bytes. -/
def elems (w n : Nat) (d : List Byte) : List Nat := (chunks w n d).map ofLe

end Sys2Proof.Machine
end

