-- ==== Sys2Proof/Machine/Store.lean ====
section
/-! DEFINITION. Stored blocks: the map entries of every view, fetching and checking stored lines, poison, commits, encoding
choice and the policies (R25, R31, R47, R66-R90, R147-R157, R322-R332). -/
namespace Sys2Proof.Machine

/-- Whose map entries a request uses (R25, R202): the block map, a published version, an open version, a job's shadow. -/
inductive View where
  | main
  | ver (n num : Nat)
  | opened (n hid : Nat)
  | shadow (job : Nat)
  deriving DecidableEq, Repr

/-- Change a shared region, a job. -/
def State.modSr (s : State) (n : Nat) (f : SrRec → SrRec) : State :=
  { s with shared := { s.shared with regions := Tab.mod n f s.shared.regions } }
def State.modJob (s : State) (j : Nat) (f : JobRec → JobRec) : State := { s with jobs := Tab.mod j f s.jobs }
def State.sr (s : State) (n : Nat) : SrRec := Tab.get n s.shared.regions
def State.job (s : State) (j : Nat) : JobRec := Tab.get j s.jobs

/-- The map of a live published version; all UNWRITTEN when there is none. -/
def verMap (r : SrRec) (num : Nat) : Tab MapWord := ((r.versions.find? (fun v => v.num == num)).map Version.map).getD []

/-- The open version of a HID (R201). -/
def openOf (r : SrRec) (hid : Nat) : Option OpenVer := r.opens.find? (fun o => o.hid == hid)

/-- The entry a view resolves a block to. -/
def State.wordIn (s : State) (v : View) (b : Nat) : MapWord :=
  match v with
  | .main => Tab.getD 0 b s.mem.mapPri
  | .ver n num => Tab.getD 0 b (verMap (s.sr n) num)
  | .opened n hid =>
    match openOf (s.sr n) hid with
    | none => 0
    | some o => match Tab.find? b o.own with | some w => w | none => Tab.getD 0 b (verMap (s.sr n) o.base)
  | .shadow j => Tab.getD 0 b (s.job j).shadow

/-- The entry that belongs to the view alone: an open version's entries of its base do not (R205). -/
def State.ownWord (s : State) (v : View) (b : Nat) : MapWord :=
  match v with
  | .opened n hid => match openOf (s.sr n) hid with | none => 0 | some o => Tab.getD 0 b o.own
  | _ => s.wordIn v b

/-- The owner code of a view in the keys of gather buffers and checker queues. -/
def View.owner : View → Nat
  | .opened _ h => h + 1
  | _ => 0

/-- The key of a block's gather buffer. -/
def gatherKey (v : View) (b : Nat) : Nat := b + 2 ^ 30 * v.owner

/-- A block, by the key of its view, counts no longer against cap_promo_reserve (R161). -/
def State.unpromote (s : State) (b : Nat) : State :=
  let n := Tab.get b s.mem.promoted
  if n = 0 then s else (s.modMem (fun m => { m with promoted := Tab.erase b m.promoted })).uncount P.capPromoFrames n

/-- Write a view's entry; a block whose block map entry changes is no promoted block any more; the block map writes both copies (R329). -/
def State.setWord (s : State) (v : View) (b : Nat) (w : MapWord) : State :=
  match v with
  | .main => (s.modMem (fun m => { m with mapPri := Tab.setD 0 b w m.mapPri, mapMir := Tab.setD 0 b w m.mapMir })).unpromote b
  | .ver n num => s.modSr n (fun r => { r with versions := r.versions.map (fun x =>
      if x.num = num then { x with map := Tab.setD 0 b w x.map } else x) })
  | .opened n hid => (s.modSr n (fun r => { r with opens := r.opens.map (fun o =>
      if o.hid = hid then { o with own := Tab.setD 0 b w o.own } else o) })).unpromote (gatherKey v b)
  | .shadow j => s.modJob j (fun r => { r with shadow := Tab.setD 0 b w r.shadow })

/-- Replace one word of block b by another in a table. -/
def swapIn (b : Nat) (old new : MapWord) (t : Tab MapWord) : Tab MapWord :=
  if Tab.getD 0 b t = old then Tab.setD 0 b new t else t

/-- Replace block b's entry in every view that holds it: what the stored sectors mean is one for all of them. -/
def State.swapWord (s : State) (b : Nat) (old new : MapWord) : State :=
  if old = 0 then s
  else
    let sw := swapIn b old new
    { s with
      mem := { s.mem with mapPri := sw s.mem.mapPri, mapMir := sw s.mem.mapMir, aside := sw s.mem.aside }
      jobs := s.jobs.map (fun p => (p.1, { p.2 with shadow := sw p.2.shadow, freeze := { p.2.freeze with kept := sw p.2.freeze.kept } }))
      shared := { s.shared with regions := s.shared.regions.map (fun p => (p.1, { p.2 with
        versions := p.2.versions.map (fun x => { x with map := sw x.map })
        opens := p.2.opens.map (fun o => { o with own := sw o.own }) })) } }

/-- Some view or a checkpoint freeze holds the word for block b. -/
def State.wordHeld (s : State) (b : Nat) (w : MapWord) : Bool :=
  Tab.getD 0 b s.mem.mapPri == w || Tab.getD 0 b s.mem.aside == w ||
  s.jobs.any (fun p => Tab.getD 0 b p.2.shadow == w || Tab.getD 0 b p.2.freeze.kept == w) ||
  s.shared.regions.any (fun p => p.2.versions.any (fun x => Tab.getD 0 b x.map == w) || p.2.opens.any (fun o => Tab.getD 0 b o.own == w))

/-- Every block and word that some view holds, with the view. -/
def State.allWords (s : State) : List (Nat × MapWord) :=
  s.mem.mapPri ++ s.mem.aside ++ (s.jobs.map (fun p => p.2.shadow ++ p.2.freeze.kept)).flatten ++
    (s.shared.regions.map (fun p => (p.2.versions.map Version.map).flatten ++ (p.2.opens.map OpenVer.own).flatten)).flatten

/-- No committed entry holds the word: only shadow state and versions not yet published (R146). -/
def State.uncommitted (s : State) (b : Nat) (w : MapWord) : Bool :=
  !(Tab.getD 0 b s.mem.mapPri == w || Tab.getD 0 b s.mem.aside == w || s.jobs.any (fun p => Tab.getD 0 b p.2.freeze.kept == w) ||
    s.shared.regions.any (fun p => p.2.versions.any (fun x => Tab.getD 0 b x.map == w)))

/-- An entry whose sectors live in HBM. -/
def MapEntry.inHbm (e : MapEntry) : Bool := (e.state == stFlat || e.state == stPacked || e.state == stFactor) && 1 ≤ e.len

/-! Release (R69, R147). -/

/-- The partner copy of a home address, if any (R47). -/
def State.partnerOf (s : State) (addr : Nat) : Option Nat :=
  let p := Tab.get addr s.mem.partner
  if p = 0 then none else some (p - 1)

/-- Release the sectors of an entry, both copies. -/
def State.freeEntry (s : State) (e : MapEntry) (quar : Bool) : State :=
  let s := s.freeSectors e.addr e.len quar
  match s.partnerOf e.addr with
  | some a => (s.freeSectors a e.len quar).modMem (fun m => { m with partner := Tab.set e.addr 0 m.partner })
  | none => s

/-- Free a detour slot (R163). -/
def State.freeSlot (s : State) (slot : Nat) : State :=
  if Tab.get slot s.mem.slotDir = 0 then s
  else ((s.modMem (fun m => { m with slotDir := Tab.set slot 0 m.slotDir })).uncount P.detUsed 1).count P.detFree 1

/-- Release what an old word of block b held, unless some view still holds it. -/
def State.release (s : State) (b : Nat) (w : MapWord) : State :=
  if w = 0 || s.wordHeld b w then s
  else
    let e := entryOf w
    if e.inHbm then s.freeEntry e false
    else if e.state = stDetour then
      match s.partAt (b * 4096) with
      | some n => (s.freeSlot e.addr).uncount (P.partDetourBlocks n) 1
      | none => s.freeSlot e.addr
    else s

/-! Fetching lines (R84, R322-R325). -/

/-- HBM line numbers of a stored block. -/
def linesOf (addr len : Nat) : List Nat := (List.range (4 * len)).map (fun i => byteOf addr / 64 + i)

/-- Lines a stack has; the stack of an HBM line and the line within it (R308). -/
def stackLines : Nat := 1207959552
def lineStack (l : Nat) : Nat := l / stackLines
def lineIn (l : Nat) : Nat := l % stackLines

/-- The symbols of codeword 0 that a flip left in error (R322, R337). -/
def flipSymbols (f : Nat) : List Nat :=
  (List.range 36).filter (fun sy =>
    if sy < 32 then (List.range 4).any (fun t => f.testBit (t * 32 + sy)) else (List.range 4).any (fun t => f.testBit (128 + t * 4 + (sy - 32))))

/-- What a read of an HBM line meets (R323): 0 clean, 1 corrected with its symbol, 2 the poison mark, 3 uncorrectable. -/
def State.lineState (s : State) (ph : Phys) (l : Nat) : Nat × Nat :=
  let f := flipSymbols (Tab.get l s.media.flips)
  let off := (s.par (P.mcChannelOffline (lineStack l))).testBit ((placeOf (lineIn l)).pc / 2)
  if ph.ue.contains l || s.par (P.stackHealth (lineStack l)) == 2 || off || 2 ≤ f.length then (3, 0xFF)
  else
    match ph.ce.find? (fun p => p.1 == l), Tab.get l s.mem.marks, f with
    | some _, true, _ => (3, 0xFF)
    | _, true, [] => (2, 0xFF)
    | _, true, _ => (3, 0xFF)
    | some p, _, _ => (1, p.2)
    | none, _, x :: _ => (1, x)
    | none, _, [] => (0, 0xFF)

/-- Blocks with a line in a row of a pseudo-channel of stack k. -/
def State.rowBlocks (s : State) (k : Nat) (p : Place) : List Nat :=
  s.allWords.filterMap (fun x =>
    let e := entryOf x.2
    if e.inHbm && e.addr / 2 ^ 32 == k && (linesOf e.addr e.len).any (fun l =>
      let o := placeOf (lineIn l)
      o.pc == p.pc && o.bank == p.bank && o.row == p.row) then some x.1 else none)

/-- Count a corrected error of a row (R332), with what follows at the threshold: the DPA of an LD's record is that of the first block with
sectors in the row that the record goes to it for (R256, R258). DESIGN CHOICE (log 113). -/
def State.rowError (s : State) (k line : Nat) : State :=
  let p := placeOf line
  let t := Tab.get k s.media.rows
  let same := fun (r : RowRec) => r.pc == p.pc && r.bank == p.bank && r.row == p.row
  let old := ((t.find? same).map RowRec.times).getD []
  let times := s.now :: recent s.now (msT (s.par P.ceRowWindowH * 3600000)) old
  let hit := decide (s.par P.ceRowThreshold ≤ times.length)
  let t := ({ pc := p.pc, bank := p.bank, row := p.row, times := if hit then [] else times } :: t.filter (fun r => !same r)).take 4096
  let s := { s with media := { s.media with rows := Tab.set k t s.media.rows } }
  if !hit then s
  else
    let place := p.pc * 2 ^ 25 + p.col * 2 ^ 21 + p.bank * 2 ^ 15 + p.row
    let blocks := (s.rowBlocks k p).map (fun b => (b, s.eventPorts (b * 4096)))
    let s := forAll (fun x s => match blocks.find? (fun b => b.2.contains x) with
      | some b => s.addEvent x 0 true 0 0 (b.1 * 4096 + 1) place (compId 0x0B 0 (k / 4) k 0xFF 0 0xFFFF 0)
      | none => s) s.ldsUp s
    (s.logMedia 4 k p.pc 0xFF p.bank 0xFF p.row).notice 13
      [(0, cborUint k), (1, cborUint p.pc), (2, cborUint p.bank), (3, cborUint p.row)]

/-- Count and log what a read of a line met (R323, R330). -/
def State.noteLine (s : State) (l : Nat) (st : Nat × Nat) (scrub : Bool) : State :=
  let k := lineStack l
  match st.1 with
  | 0 => s
  | 1 => ((s.count (P.mediaCe k) 1).logLine (if scrub then 5 else 1) k (lineIn l) st.2).rowError k (lineIn l)
  | 2 => if scrub then s else s.count (P.mediaMarkReads k) 1
  | _ => (s.count (P.mediaUe k) 1).logLine (if scrub then 6 else 2) k (lineIn l) 0xFF

/-- Count n HBM lines from line l on for the stack set of the partition that holds their frame (R294, R296). -/
def State.meter (s : State) (l n : Nat) : State :=
  let k := lineStack l
  let p := (s.frame (frameKey k (lineIn l / 64))).part
  let set := if p = 0 then 0 else s.par (P.partStackSet (p - 1))
  { s with reg := { s.reg with moved := Tab.mod (set * 4 + k / 4) (· + n) s.reg.moved } }

/-- Note every line of a list; the worst state met. -/
def State.noteLines (s : State) (ph : Phys) (ls : List Nat) : State × Nat :=
  ls.foldl (fun acc l =>
    let st := acc.1.lineState ph l
    ((((acc.1.noteLine l st false).openRow (lineStack l) (lineIn l)).meter l 1), if st.1 = 3 then 3 else acc.2)) (s, 0)

/-- The bytes of a stored block as they lie in HBM. -/
def State.rawBytes (s : State) (addr n : Nat) : List Byte := Tab.readRun 0 (byteOf addr) n s.mem.hbm

/-- The key slot under which block b's partition encrypts (R48). -/
def State.encSlot (s : State) (b : Nat) : Option Nat :=
  match s.partAt (b * 4096) with
  | some n => if s.par (P.partEncrypt n) = 1 then some (s.par (P.partKeySlot n)) else none
  | none => none

/-- A key slot's key pair. -/
def State.keyOf (s : State) (slot : Nat) : List Byte := padTo 64 (Tab.get slot s.boot.keys)

/-- Encipher and decipher block b at a version (R85, R86). -/
def State.encBlock (s : State) (b ver : Nat) (d : List Byte) : List Byte :=
  match s.encSlot b with | some k => xtsEnc (s.keyOf k) (blockTweak b ver) d | none => d
def State.decBlock (s : State) (b ver : Nat) (d : List Byte) : List Byte :=
  match s.encSlot b with | some k => xtsDec (s.keyOf k) (blockTweak b ver) d | none => d

/-- The plain stored bytes of an entry's block at an address. -/
def State.plainAt (s : State) (b : Nat) (e : MapEntry) (addr : Nat) : List Byte :=
  s.decBlock b e.ver (s.rawBytes addr (256 * e.len))

/-- The hdr_crc that an entry's map_check covers (R67). -/
def State.hdrAt (s : State) (b : Nat) (e : MapEntry) : Nat := if e.headed then hdrCrcOf (s.plainAt b e e.addr) else 0

/-! Codec lanes (R18, R84, R359). -/

/-- Codec lane l of block c of region q works: an active block, the lane ACTIVE, or L8 in the place of another. -/
def State.laneOk (s : State) (q c l : Nat) : Bool :=
  (s.activeBlocks q).contains c && decide (l < 9) &&
    (if l = 8 then (List.range 8).any (fun i => fld (s.par (P.laneRec q c i)) 31 24 == 2) else fld (s.par (P.laneRec q c l)) 31 24 == 0)

/-- The pipeline of a block has work: its lowest-numbered working lane is the pipeline's expander and leaves the pool (R114). -/
def State.expander (s : State) (cb : Nat) : Option Nat :=
  if (Tab.get cb s.fac.pipes).isEmpty then none else (List.range 9).find? (fun l => s.laneOk (cb / 16) (cb % 16) l)

/-- The lane that the rotating pointer of region q gives a decoding or an encoding, and the state after the grants of the region's
dispatch and of the lane's input, 0 decode, 1 encode (R17, R18, R84). -/
def State.pickLane (s : State) (q input : Nat) : Option (Nat × State) :=
  (rotPick 81 (Tab.get (8 + q) s.arb) (fun i => s.laneOk q (i / 9) (i % 9) && s.expander (q * 16 + i / 9) != some (i % 9))).map
    (fun i =>
      let lane := q * 256 + i / 9 * 16 + i % 9
      (lane, (s.arbGrant (8 + q) 81 i).arbGrant (1024 + lane) 2 input))

/-- The grants of a read of block b under an entry whose block a lane decodes (R84). -/
def State.decodeLane (s : State) (b : Nat) (e : MapEntry) : State :=
  if e.headed then (match s.pickLane ((s.home (b * 4096)).getD 0) 0 with | some x => x.2 | none => s) else s

/-! Map entries (R66-R68, R87, R329). -/

/-- What the entry of a block may hold (R68, R102): 0 ordinary data, 1 the tensor view of a factor window, 2 that of a factoring
window, 3 and 4 U and V mantissas, 5 a block outside factor and factoring windows. -/
def State.placeKind (s : State) (b : Nat) : Nat :=
  match s.winAt (b * 4096) with
  | none => 5
  | some w =>
    if !s.factorWin w then 5
    else match (s.areaOf w b).1 with
      | 0 => if s.par (P.winKind w) = wFactor then 1 else 2
      | 2 => 3
      | 4 => 4
      | _ => 0

/-- The fields that R68 and R102 allow for the entry's state, by what the block may hold. A mantissa block never written is
UNWRITTEN. DEDUCED (log 88). -/
def MapEntry.fieldsOk (e : MapEntry) (k : Nat) : Bool :=
  let coded := fun (c : Nat) => e.codec == c && decide (1 ≤ e.len ∧ e.len ≤ 15)
  let raw := e.codec == cRaw && e.len == 16
  let zero := e.codec == cZero && e.len == 0 && e.addr == 0
  e.resv == 0 &&
  (match e.state with
   | 0 => e.codec == 0 && e.len == 0 && e.addr == 0
   | 1 => k != 1 && raw && e.addr % 16 == 0
   | 2 => (k == 0 || k == 2 || k == 5) && (zero || raw || (decide (2 ≤ e.codec ∧ e.codec ≤ 5) && decide (1 ≤ e.len ∧ e.len ≤ 16)))
   | 3 => match k with
     | 0 => false
     | 3 => coded cFactorU || raw
     | 4 => coded cFactorV || raw
     | 5 => zero || raw || coded cFactorU || coded cFactorV || coded cResidual
     | _ => zero || raw || coded cResidual
   | 4 => true
   | 5 => (k == 0 || k == 5) && raw
   | _ => false)

/-- SPAN (R87): the sectors lie in one frame of a stack of the home region, the slot within the area. -/
def State.spanOk (s : State) (b : Nat) (e : MapEntry) : Bool :=
  if e.inHbm then
    e.addr % 16 + e.len ≤ 16 && s.home (b * 4096) == some (e.addr / 2 ^ 32 / 4) && e.addr % 2 ^ 32 < 301989888
  else if e.state = stDetour then decide (e.addr < s.par P.detSlots)
  else true

/-- Remember a block committed POISON for Get Poison List (R264): the 4,096 newest. -/
def State.logPoison (s : State) (b : Nat) : State :=
  let l := b :: s.ports.poisonLog.filter (· ≠ b)
  { s with ports := { s.ports with poisonLog := l.take 4096, poisonOver := s.ports.poisonOver || decide (4096 < l.length) } }

/-- Count a validity failure (R77, R88). -/
def State.bicelFail (s : State) (b : Nat) (e : MapEntry) (code line : Nat) : State :=
  (s.count P.bicelFailCount 1).setPar P.bicelLastFail
    (code * 2 ^ 56 + (e.addr / 2 ^ 32) * 2 ^ 52 + (line / 8) * 2 ^ 48 + (line % 8) * 2 ^ 45 + b * 4096)

/-- The record of a failure (R256): cause BICEL with its code, or MEDIA. -/
def State.failEvent (s : State) (b line : Nat) (e : MapEntry) (code : Nat) (media corrected : Bool) (port : Option Nat) (hid : Nat) : State :=
  s.eventOn port (b * 4096)
    { cause := if media then 3 else 1, detail := if media then 0 else code, trans := if port.isSome then 1 else 0,
      region := (s.home (b * 4096)).getD 0, stack := if e.inHbm then e.addr / 2 ^ 32 else 0xFF, hid := hid,
      corrected := corrected, dpa := b * 4096 + line * 64 + 1 }

/-- Both copies of a block map entry fail (R87, R88, R329): a POISON entry with every other field 0, the failure MAP_CHECK counted and
reported, the record and the count; for a version table or a job record, SAFE. -/
def State.mapLost (s : State) (v : View) (b : Nat) (port : Option Nat) (hid : Nat) : State :=
  let q := (s.home (b * 4096)).getD 0
  let s := (s.count P.metaLost 1).logMedia 12 (4 * q) 0xFF 0xFF 0xFF 0xFF 0xFFFF
  let r : RecArgs := { kind := 9, unit := unitOf 1 q, cls := 0, ctx := [(5, b * 4096)], flags := 0, action := 0,
                       detail := [(0, cborUint 1), (1, cborUint (b * 4096))] }
  match v with
  | .main =>
    let e : MapEntry := { ver := 0, keySlot := 0, addr := 0, len := 0, codec := 0, state := stPoison, check := 0 }
    let s := (s.bicelFail b e fMapCheck 0).failEvent b 0 e fMapCheck false false port hid
    ((((s.record r).setWord .main b (entryWord (e.sealed 0))).logPoison b).compPoisoned b false)
  | _ => (s.record { r with action := 5 }).raiseSafe 3

/-- Read a view's entry (R329): the primary, then the mirror, which rewrites the primary. -/
def State.readEntry (s : State) (v : View) (b : Nat) (ph : Phys) (port : Option Nat) (hid : Nat) : MapWord × State :=
  let w := s.wordIn v b
  let ok := fun (x : MapWord) => mapCheckOk x (s.hdrAt b (entryOf x))
  match v with
  | .main =>
    if !ph.mapPri.contains b && ok w then (w, s)
    else
      let m := Tab.getD 0 b s.mem.mapMir
      if !ph.mapMir.contains b && ok m then (m, s.modMem (fun x => { x with mapPri := Tab.setD 0 b m x.mapPri }))
      else let s := s.mapLost .main b port hid; (s.wordIn .main b, s)
  | _ =>
    if ph.mapPri.contains b && ph.mapMir.contains b then (w, s.mapLost v b port hid) else (w, s)

/-! Decoding (R84, R87). -/

/-- Why a fetch fails: the code of R87, whether it is an uncorrectable FLAT or RAW line rather than a Bicel failure, and the line. -/
structure Fail where
  code : Nat
  media : Bool
  line : Nat
  deriving DecidableEq, Repr

/-- The lines `is` of a stored block, or the first failure in the order of R87 with its line: all 64 lines are checked together. -/
def decodeLinesOf (codec wb len : Nat) (d : List Byte) (is : List Nat) : Except (Nat × Nat) (List (List Byte)) :=
  let codeAt := fun (i : Nat) => match decodeBlockLine codec wb len d i with | .ok _ => none | .error c => some c
  let at_ := fun (c : Nat) => (c, (is.find? (fun i => codeAt i == some c)).getD 0)
  if is = List.range 64 then
    match decodeBlock codec wb len d with
    | .ok x => .ok (chunks 64 64 x)
    | .error c => .error (at_ c)
  else
    match firstFail (is.filterMap codeAt) with
    | some c => .error (at_ c)
    | none => .ok (is.map (fun i => match decodeBlockLine codec wb len d i with | .ok x => x | .error _ => zeros 64))

/-- Fetch lines `is` of a block stored at `addr` under entry e: their bytes and those that are marked (R31, R84, R325); `wb` is the
element width of a factor stream. A FLAT block's other lines are not fetched; any other form's sectors are fetched whole. -/
def State.fetchLines (s : State) (b : Nat) (e : MapEntry) (addr : Nat) (is : List Nat) (wb : Nat) (ph : Phys) :
    Except Fail (List (List Byte) × List Nat) × State :=
  if e.codec = cZero ∧ e.state ≠ stFlat then (.ok (is.map (fun _ => zeros 64), []), s)
  else
    let ls := if e.state = stFlat then is.map (fun i => byteOf addr / 64 + i) else linesOf addr e.len
    let (s', worst) := s.noteLines ph ls
    let raw := e.codec == cRaw
    match decodeLinesOf e.codec wb e.len (s.plainAt b e addr) is with
    | .error (c, i) => (.error { code := c, media := false, line := i }, s')
    | .ok ds =>
      if worst = 3 then (.error { code := fCheckBits, media := raw, line := is.headD 0 }, s')
      else if ls.any (fun l => ph.par.contains l) then (.error { code := fParity, media := false, line := is.headD 0 }, s')
      else (.ok (ds, if raw then is.filter (fun i => (s.lineState ph (byteOf addr / 64 + i)).1 == 2) else []), s')

/-! Writing sectors (R69, R85, R324, R337). -/

/-- The flip mask armed for stack k (R337): the line it names, or any, and the codeword's error. -/
def State.flipFor (s : State) (k : Nat) (ls : List Nat) : Option (Nat × Nat) :=
  let t := s.par P.flipTarget
  if fld t 15 15 = 1 ∧ fld t 13 12 = 0 ∧ fld t 7 0 = k then
    let fl := s.par P.flipLine
    let e := s.par P.flipDataLo + s.par P.flipDataHi * 2 ^ 64 + s.par P.flipCheck * 2 ^ 128
    match ls with
    | [] => none
    | l :: _ => if fl = 2 ^ 64 - 1 then some (l, e) else (ls.find? (fun x => lineIn x == fl)).map (fun x => (x, e))
  else none

/-- Store bytes at an HBM byte address with marks on some lines: whole lines, clean under the code but for an armed flip.
A line stored with the mark is logged (R324, R333). -/
def State.storeBytes (s : State) (base : Nat) (d : List Byte) (marks : List Nat) : State :=
  let n := cdiv d.length 64
  let ls := (List.range n).map (fun i => base / 64 + i)
  let k := lineStack (base / 64)
  let flip := s.flipFor k ls
  let s := (s.meter (base / 64) n).modMem (fun m => { m with
    hbm := Tab.writeRun 0 base d m.hbm
    marks := Tab.writeRun false (base / 64) ((List.range n).map (fun i => marks.contains i)) m.marks })
  let fl := s.media.flips.filter (fun p => decide (p.1 < base / 64 ∨ base / 64 + n ≤ p.1))
  let s := { s with media := { s.media with
    flips := match flip with | some (l, e) => Tab.set l e fl | none => fl
    scrubRead := s.media.scrubRead.map (fun p =>
      (p.1, if p.1 = k ∧ ls.contains (k * stackLines + p.2.line) then { p.2 with cancelled := true } else p.2)) } }
  let s := forAll (fun i s => s.logLine 3 k (lineIn (base / 64 + i)) 0xFF) (marks.filter (fun i => decide (i < n))) s
  match flip with
  | some _ => s.setPar P.flipTarget (setFld (s.par P.flipTarget) 15 15 0)
  | none => s

/-- What is stored for a block: state, codec and the plain stored bytes, 256 for each sector. -/
structure Form where
  state : Nat
  codec : Nat
  bytes : List Byte
  deriving DecidableEq, Repr

/-- Sectors of a form. -/
def Form.len (f : Form) : Nat := cdiv f.bytes.length 256

/-- A block of data FLAT, RAW and ZERO. -/
def flatForm (d : List Byte) : Form := { state := stFlat, codec := cRaw, bytes := padTo 4096 d }
def rawForm (d : List Byte) : Form := { state := stPacked, codec := cRaw, bytes := padTo 4096 d }
def zeroForm : Form := { state := stPacked, codec := cZero, bytes := [] }

/-- The frame state of a view's data (R146). -/
def View.frameState : View → Nat
  | .main => fUsed
  | .ver _ _ => fUsed
  | .opened _ _ => fShadow
  | .shadow _ => fShadow

/-- The version count a new entry of a view follows (R69). -/
def State.verBefore (s : State) (v : View) (b : Nat) : Nat :=
  match v with
  | .shadow j => (entryOf (if Tab.getD 0 b (s.job j).shadow = 0 then s.wordIn .main b else s.wordIn v b)).ver
  | _ => (entryOf (s.wordIn v b)).ver

/-- Allocate both copies of `len` sectors for block b (R47): home address and partner address + 1. -/
def State.allocCopies (s : State) (b n st len : Nat) : Option (Nat × Nat × State) :=
  let q := s.homeIn n (b * 4096)
  match s.alloc n q st len with
  | none => none
  | some (a, s') =>
    if s.mirrored n then
      match s'.alloc n (partnerRegion (s.par (P.partStackSet n)) q) st len with
      | none => none
      | some (a', s'') => some (a, a' + 1, s'')
    else some (a, 0, s')

/-- Commit a new entry for block b of a view with its content in new sectors, and release the old ones (R69); none when no
frame is FREE. Marked lines carry the mark in both copies. With `all`, every view that holds the old word gets the new one. -/
def State.commitForm (s : State) (v : View) (b : Nat) (f : Form) (marks : List Nat) (all : Bool) : Option State :=
  match s.partAt (b * 4096) with
  | none => none
  | some n =>
    let old := s.ownWord v b
    let ver := (s.verBefore v b + 1) % 2 ^ 20
    let key := (s.encSlot b).getD 0
    let st := if all then (if s.uncommitted b old then fShadow else fUsed) else v.frameState
    let enter := fun (s : State) (w : MapWord) =>
      if all && old != 0 then (let s := s.swapWord b old w; if f.state = stFlat then s else s.unpromote (gatherKey v b)) else s.setWord v b w
    if f.len = 0 then
      let e : MapEntry := { ver := ver, keySlot := key, addr := 0, len := 0, codec := f.codec, state := f.state, check := 0 }
      some ((enter s (entryWord (e.sealed 0))).release b old)
    else
      match s.allocCopies b n st f.len with
      | none => none
      | some (a, a', s) =>
        let plain := padTo (256 * f.len) f.bytes
        let bytes := s.encBlock b ver plain
        let s := s.storeBytes (byteOf a) bytes marks
        let s := if a' = 0 then s else (s.storeBytes (byteOf (a' - 1)) bytes marks).modMem (fun m => { m with partner := Tab.set a a' m.partner })
        let e : MapEntry := { ver := ver, keySlot := key, addr := a, len := f.len, codec := f.codec, state := f.state, check := 0 }
        some ((enter s (entryWord (e.sealed (hdrCrcOf plain)))).release b old)

/-! Poison (R68, R88, R147, R157). -/

/-- Commit a view's block POISON (R68, R88): version + 1, codec, length and address kept; the sectors leave its use, their
frames QUARANTINED unless no media fault is involved (R152). -/
def State.poison (s : State) (v : View) (b : Nat) (quar : Bool) : State :=
  let w := s.wordIn v b
  let e := entryOf w
  if e.state = stPoison then s
  else
    let new : MapEntry := { e with state := stPoison, ver := (e.ver + 1) % 2 ^ 20, check := 0, resv := 0 }
    let word := entryWord (new.sealed 0)
    let s := if w = 0 then s.setWord v b word else if quar then (s.swapWord b w word).unpromote b else (s.setWord v b word)
    let s :=
      if e.inHbm then (if s.wordHeld b w then s else s.freeEntry e quar)
      else s.release b w
    (s.logPoison b).compPoisoned b (e.state == stFactor)

/-- A failure with no good copy: counted, reported, the block committed POISON (R88). -/
def State.failBlock (s : State) (v : View) (b : Nat) (e : MapEntry) (x : Fail) (port : Option Nat) (hid : Nat) : State :=
  let s := if x.media then s else s.bicelFail b e x.code x.line
  (s.failEvent b x.line e x.code x.media false port hid).poison v b true

/-- Rewrite a MIRROR block from data read from its partner, in new sectors (R88, R152); left as it stands without a frame. -/
def State.rewrite (s : State) (v : View) (b : Nat) (e : MapEntry) (addr : Nat) : State :=
  let marks := if e.codec = cRaw then (List.range 64).filter (fun i => Tab.get (byteOf addr / 64 + i) s.mem.marks) else []
  (s.commitForm v b { state := e.state, codec := e.codec, bytes := s.plainAt b e addr } marks true).getD s

/-- Read lines `is` of block b under the entry that a view resolves it to, for a stored form other than DETOUR (R31, R47, R87, R88): their
bytes and those that are marked, or none when the block is POISON or has just become so. -/
def State.readLinesAt (s : State) (v : View) (b : Nat) (e : MapEntry) (is : List Nat) (wb : Nat) (ph : Phys) (port : Option Nat) (hid : Nat) :
    Option (List (List Byte) × List Nat) × State :=
  let line := is.headD 0
  if e.state = stPoison then (none, s)
  else if !e.fieldsOk (s.placeKind b) then (none, s.failBlock v b e ⟨fMapField, false, line⟩ port hid)
  else if e.state = stUnwritten then (some (is.map (fun _ => zeros 64), []), s)
  else if !s.spanOk b e then (none, s.failBlock v b e ⟨fSpan, false, line⟩ port hid)
  else if e.state = stDetour then (none, s)
  else
    match (s.decodeLane b e).fetchLines b e e.addr is wb ph with
    | (.ok d, s) => (some d, s)
    | (.error x, s) =>
      match s.partnerOf e.addr with
      | none => (none, s.failBlock v b e x port hid)
      | some a =>
        match s.fetchLines b e a is wb ph with
        | (.ok d, s) =>
          let s := if x.media then s else s.bicelFail b e x.code x.line
          (some d, (s.failEvent b x.line e x.code x.media true port hid).rewrite v b e a)
        | (.error _, s) => (none, s.failBlock v b e x port hid)

/-- Read line i under an entry: the line, or poison. -/
def State.readLineAt (s : State) (v : View) (b : Nat) (e : MapEntry) (i wb : Nat) (ph : Phys) (port : Option Nat) (hid : Nat) : Option (List Byte) × State :=
  match s.readLinesAt v b e [i] wb ph port hid with
  | (some (l, m), s) => (if m.isEmpty then l.head? else none, s)
  | (none, s) => (none, s)

/-- Read line i of block b through a view: the line, or poison. -/
def State.readLine (s : State) (v : View) (b i wb : Nat) (ph : Phys) (port : Option Nat) (hid : Nat) : Option (List Byte) × State :=
  let (w, s) := s.readEntry v b ph port hid
  s.readLineAt v b (entryOf w) i wb ph port hid

/-- Read the whole block through a view: its bytes and marked lines, or none when it is POISON or has just become so. -/
def State.readBlock (s : State) (v : View) (b wb : Nat) (ph : Phys) (port : Option Nat) (hid : Nat) : Option (List Byte × List Nat) × State :=
  let (w, s) := s.readEntry v b ph port hid
  match s.readLinesAt v b (entryOf w) (List.range 64) wb ph port hid with
  | (some (l, m), s) => (some (l.flatten, m), s)
  | (none, s) => (none, s)

/-- Write some lines of a block that is FLAT in HBM in place, in both copies (R151): version and tweak stay. `lines` gives
line numbers and their bytes; `bad` the lines to mark. -/
def State.writeFlat (s : State) (b : Nat) (e : MapEntry) (lines : Tab (List Byte)) (bad : List Nat) : State :=
  let plain := s.plainAt b e e.addr
  let new := lines.foldl (fun d p => splice (64 * p.1) (padTo 64 p.2) d) plain
  let enc := s.encBlock b e.ver new
  let put := fun (s : State) (a : Nat) => forAll (fun (p : Nat × List Byte) s =>
    s.storeBytes (byteOf a + 64 * p.1) (cut (64 * p.1) 64 enc) (if bad.contains p.1 then [0] else [])) lines s
  let s := put s e.addr
  match s.partnerOf e.addr with
  | some a => put s a
  | none => s

/-! The encoder's choice (R75, R76, R90). -/

/-- The codecs of R75 after ZERO, with their enable bits, in the order of ties. -/
def tryCodecs : List (Nat × Nat) := [(cPlane16, 1), (cPlane32, 2), (cPlane64, 3), (cByte, 4)]

/-- The packed form the encoder chooses for a block, if any meets bicel_min_saving (R75): codec and coded bytes. -/
def State.encodeChoice (s : State) (d : List Byte) : Option Form :=
  let en := s.par P.bicelCodecEnable
  if en.testBit 0 && allZero d then some zeroForm
  else
    let cands := tryCodecs.filterMap (fun p =>
      let c := Config.encode p.1 d
      let n := cdiv c.length 256
      if en.testBit p.2 && decide (1 ≤ n ∧ n + s.par P.bicelMinSaving ≤ 16 ∧ c.length = 256 * n) then
        some ({ state := stPacked, codec := p.1, bytes := c } : Form) else none)
    cands.foldl (fun best f => match best with | some g => if f.len < g.len then some f else best | none => some f) none

/-- A coded form decodes to the original under every rule (R90). -/
def Form.checks (f : Form) (wb : Nat) (d : List Byte) : Bool :=
  match decodeBlock f.codec wb f.len f.bytes with
  | .ok x => x == padTo 4096 d
  | .error _ => false

/-- Region and window kind choose FLAT or RAW for a block that does not compress (R76). -/
def State.pinned (s : State) (w : Nat) : Bool := s.par (P.winKind w) == wTransparent && s.par (P.winResidency w) == 1

/-! The detour area's slots (R163, R164). -/

/-- The first free slot from `i`; the fuel exceeds the slots in use. -/
def slotFrom (t : Tab Nat) (i : Nat) : Nat → Nat
  | 0 => i
  | n + 1 => if Tab.get i t = 0 then i else slotFrom t (i + 1) n

/-- The detour counts as ACTIVE for R156: not while the service function is in D3hot (R287). -/
def State.detActive (s : State) : Bool := s.par P.detState == 1 && s.svc.dstate == 0

/-- The detour area takes a new block. -/
def State.slotFree (s : State) : Bool := s.detActive && decide (1 ≤ s.par P.detFree)

/-- Host address of a slot (R163). -/
def State.slotAddr (s : State) (slot : Nat) : Nat := s.par P.detBase + 4096 * slot

/-- Write a block into a slot: posted writes, the directory entry, the flushing read of its last line (R164). -/
def State.writeSlot (s : State) (b ver slot : Nat) (d : List Byte) : State :=
  let enc := s.encBlock b ver d
  let req := fun (rd : Bool) (a n : Nat) (x : List Byte) =>
    ({ who := 2, read := rd, addr := a, len := n, data := x, bad := [], tok := slot, since := 0 } : SvcReq)
  let s := (s.svcPut (req false (s.slotAddr slot) 4096 enc)).svcPut (req true (s.slotAddr slot + 4032) 64 [])
  s.modMem (fun m => { m with slotDir := Tab.set slot (2 ^ 62 + b * 2 ^ 32 + Config.crc32 d % 2 ^ 32) m.slotDir })

/-- Block b's DETOUR entry commits (R164, R165): the slot counts as used, the old sectors are released. -/
def State.commitSlot (s : State) (b slot : Nat) : State :=
  let old := s.wordIn .main b
  let e := entryOf old
  let own := e.state == stDetour && e.addr == slot
  let s := if own then s else (match s.partAt (b * 4096) with | some n => s.count (P.partDetourBlocks n) 1 | none => s)
  let new : MapEntry := { ver := (e.ver + 1) % 2 ^ 20, keySlot := (s.encSlot b).getD 0, addr := slot, len := 16, codec := cRaw, state := stDetour, check := 0 }
  let s := s.setWord .main b (entryWord (new.sealed 0))
  if own then s else s.release b old

/-- Write block b of the block map to a detour slot, its own when it holds one, otherwise a free one: the slot, and the state (R164, R165). -/
def State.fillSlot (s : State) (b : Nat) (d : List Byte) : Nat × State :=
  let e := entryOf (s.wordIn .main b)
  let own := e.state == stDetour
  let slot := if own then e.addr else slotFrom s.mem.slotDir 0 (s.mem.slotDir.length + 1)
  let s := s.writeSlot b ((e.ver + 1) % 2 ^ 20) slot d
  (slot, if own then s else (s.uncount P.detFree 1).count P.detUsed 1)

/-- A lane number that no block has, for a block that waits for a flushing read. -/
def noLane : Nat := 2 ^ 20

/-- An accepted block goes to a detour slot; its entry commits once the flushing read returns (R156, R164, R165). -/
def State.toDetour (s : State) (w b : Nat) (d : List Byte) (src : List WriteSrc) : State :=
  let (slot, s) := s.fillSlot b d
  let j : PackJob := { orig := d, codec := cRaw, coded := d, state := stDetour, lane := noLane, win := w, fenced := src.any WriteSrc.fenced,
                       port := (src.head?.map WriteSrc.port).getD 512, hid := (src.head?.map WriteSrc.hid).getD 0xFF, src := src, slot := slot + 1 }
  s.modMem (fun m => { m with
    packJobs := Tab.set b j m.packJobs
    detReads := m.detReads ++ [{ blk := b, dpa := b * 4096, port := 512, hid := 0xFF, flush := true }] })

/-! Landing an accepted block (R155-R157). -/

/-- Regions that hold copies of block b. -/
def State.copyRegions (s : State) (n b : Nat) : List Nat :=
  let q := s.homeIn n (b * 4096)
  if s.mirrored n then [q, partnerRegion (s.par (P.partStackSet n)) q] else [q]

/-- Storing the form takes a frame from FREE (R157). -/
def State.formNeeds (s : State) (v : View) (n b : Nat) (f : Form) : Bool :=
  f.len != 0 && (s.copyRegions n b).any (fun q => s.needsFrame n q v.frameState f.len)

/-- Writes that a fence discards (R157): the block POISON, its sectors FREE; each write accepted after the fence took effect counted,
and reported on the port that carried it. -/
def State.discard (s : State) (v : View) (n b : Nat) (src : List WriteSrc) : State :=
  let late := src.filter WriteSrc.fenced
  let s := forAll (fun (x : WriteSrc) s =>
    s.eventOn (if x.port < 512 then some x.port else none) (b * 4096) { cause := 4, trans := 2, region := s.homeIn n (b * 4096), hid := x.hid, object := n, dpa := b * 4096 + 1 })
    late (s.count P.capDiscardCount late.length)
  s.poison v b false

/-- No frame is FREE in DEFICIT (R154): the block POISON, its frames quarantined as no fence is the cause (R152), and a CAPACITY record. -/
def State.noFrame (s : State) (v : View) (n b : Nat) : State :=
  let q := s.homeIn n (b * 4096)
  (s.poison v b true).record
    { kind := 14, unit := unitOf 1 q, cls := 0, ctx := [(5, b * 4096)], flags := 0, action := 0,
      detail := [(0, cborUint q), (1, cborUint n), (2, cborArr ((s.capCounts q).map cborUint))] }

/-- The first region of a block's copies in which its elastic partition must act by its policy (R154, R156). -/
def State.policyRegion (s : State) (n b : Nat) : Option Nat :=
  (s.copyRegions n b).find? (fun q => s.elasticFull n q && decide (2 ≤ s.par (P.capPressure q)))

/-- The content of block b of a view as it stands, without a fetch; `wb` is the element width of a factor stream. -/
def State.peekAt (s : State) (v : View) (b wb : Nat) : List Byte :=
  let e := entryOf (s.wordIn v b)
  if e.inHbm then (match decodeBlock e.codec wb e.len (s.plainAt b e e.addr) with | .ok d => d | .error _ => zeros 4096) else zeros 4096

/-- The same for a block of ordinary data. -/
def State.peek (s : State) (v : View) (b : Nat) : List Byte := s.peekAt v b 0

/-- The view in which a shared or private block's block map entries are counted: the latest version of a VERSIONED region. -/
def State.latestView (s : State) (b : Nat) : View :=
  match s.srsOn.find? (fun r => within (b * 4096) 4096 (s.par (P.srBase r)) (s.par (P.srSize r)) && s.srVersioned r) with
  | some r => .ver r (s.par (P.srLatest r))
  | none => .main

/-- Tile i of window w may be lowered (R167): lower_mode 1 or 2, its blocks coded, none POISON, not lowered and not given up. -/
def State.lowersTile (s : State) (w i : Nat) : Bool :=
  let d := s.par (P.winDescriptor w)
  let t := s.winDesc w
  let b0 := s.par (P.winBase w) / 4096
  let v := s.latestView b0
  let r := t.record ((elems 8 512 (s.peek v (b0 + t.tab + i / 512))).getD (i % 512) 0)
  (t.lowerMode == 1 || t.lowerMode == 2) && !Tab.get (d * 2 ^ 28 + i) s.fac.noLower && !r.bad && !r.low &&
    (List.range t.wOut).all (fun j =>
      let st := (entryOf (s.wordIn v (b0 + i * t.wOut + j))).state
      st == stFactor || (st == stUnwritten && s.par (P.winKind w) == wFactor))

/-- Some tile of a descriptor of partition n is still to be lowered (R156, R167). -/
def State.lowerable (s : State) (n : Nat) : Bool :=
  (s.winsOn.filter (fun w => s.par (P.winPartition w) == n && s.factorWin w)).any
    (fun w => (List.range (s.winDesc w).tiles).any (s.lowersTile w))

/-- Store a form, or poison the block where no frame is FREE (R154). -/
def State.putForm (s : State) (v : View) (n b : Nat) (f : Form) (marks : List Nat) : State := (s.commitForm v b f marks false).getD (s.noFrame v n b)

/-- Store an accepted block (R33, R155-R157), written through window w by the writes `src`. -/
def State.land (s : State) (v : View) (w b : Nat) (f : Form) (marks : List Nat) (src : List WriteSrc) : State :=
  match s.partAt (b * 4096) with
  | none => s
  | some n =>
    let put := fun (s : State) => s.putForm v n b f marks
    if !s.formNeeds v n b f then put s
    else if src.any WriteSrc.fenced && s.par (P.partFence n) == 1 then s.discard v n b src
    else
      match s.policyRegion n b with
      | none => put s
      | some q =>
        match s.par (P.partPolicy n) with
        | 1 =>
          if s.slotFree && v == .main && marks.isEmpty && (s.placeKind b == 0 || s.placeKind b == 5) && f.state != stFactor then
            match decodeBlock f.codec 0 f.len f.bytes with
            | .ok d => s.toDetour w b d src
            | .error _ => put (s.fence n q)
          else put (s.fence n q)
        | 2 =>
          let s := if decide (s.headroom q < (s.pool / 2 : Nat)) || !s.lowerable n then s.fence n q else s
          put s
        | _ => put (s.fence n q)

/-! What is accepted for a block and not yet stored (R25, R30, R33). -/

/-- Replace the bytes a mask enables; mask 0 enables all 64. -/
def maskBytes (mask : Nat) (new old : List Byte) : List Byte :=
  if mask = 0 then padTo 64 new
  else (List.range 64).map (fun i => if mask.testBit i then new.getD i 0 else old.getD i 0)

/-- A line's byte enables, 0 for the whole line. -/
def normMask (m : Nat) : Nat := if m % 2 ^ 64 = 2 ^ 64 - 1 then 0 else m % 2 ^ 64

/-- A line joins a gather buffer. A line written in part joins bytes already there; a poisoned line stays so until it is written
whole and clean (R325). -/
def Gather.put (g : Gather) (i mask : Nat) (d : List Byte) (bad : Bool) : Gather :=
  let old := Tab.find? i g.lines
  let om := Tab.get i g.masks
  let m := match old with
    | none => mask
    | some _ => if mask = 0 ∨ om = 0 then 0 else normMask (om ||| mask)
  { g with
    lines := Tab.insert i (maskBytes mask d (old.getD (zeros 64))) (Tab.erase i g.lines)
    masks := Tab.set i m g.masks
    bad := if bad then (if g.bad.contains i then g.bad else i :: g.bad) else if mask = 0 then g.bad.filter (· ≠ i) else g.bad }

/-- All 64 lines are there, whole (R33). -/
def Gather.full (g : Gather) : Bool := g.lines.length == 64 && g.masks.isEmpty

/-- The bytes and marks of a block with a gather buffer's lines merged over it (R33, R88, R325). -/
def Gather.merge (g : Gather) (d : List Byte) (marks : List Nat) : List Byte × List Nat :=
  (g.lines.foldl (fun acc p => splice (64 * p.1) (maskBytes (Tab.get p.1 g.masks) p.2 (cut (64 * p.1) 64 acc)) acc) (padTo 4096 d),
   (List.range 64).filter (fun i =>
    g.bad.contains i || (marks.contains i && !((Tab.find? i g.lines).isSome && Tab.get i g.masks == 0))))

/-- A block with what is pending for it: the checker's original, then gathered lines (R25, R30). -/
def State.withPending (s : State) (key : Nat) (c : List Byte × List Nat) : List Byte × List Nat :=
  let c := match Tab.find? key s.mem.packJobs with | some j => (j.orig, []) | none => c
  match Tab.find? key s.mem.gather with | some g => g.merge c.1 c.2 | none => c

/-! Detour blocks (R165). -/

/-- What a read of a detour slot returns: its plain block, `some none` on a CRC mismatch, none when it does not answer (R165). -/
def State.slotData (s : State) (b slot : Nat) (env : Env) : Option (Option (List Byte)) :=
  match env.slots.find? (fun p => p.1 == slot) with
  | some (_, .data x) =>
    let d := s.decBlock b (entryOf (s.wordIn .main b)).ver (padTo 4096 x)
    if Config.crc32 d % 2 ^ 32 = Tab.get slot s.mem.slotDir % 2 ^ 32 then some (some d) else some none
  | _ => none

/-- A DETOUR block becomes POISON and its slot is freed (R165, R166). -/
def State.slotPoison (s : State) (b : Nat) : State :=
  let e := entryOf (s.wordIn .main b)
  let s := match s.partAt (b * 4096) with | some n => s.uncount (P.partDetourBlocks n) 1 | none => s
  let new : MapEntry := { e with state := stPoison, ver := (e.ver + 1) % 2 ^ 20, check := 0, resv := 0 }
  (((s.freeSlot e.addr).setWord .main b (entryWord (new.sealed 0))).logPoison b).compPoisoned b false

/-- A detour block whose content fails its CRC (R165). -/
def State.detourBad (s : State) (b : Nat) (port : Option Nat) (hid : Nat) : State :=
  let s := s.count P.detCrcFail 1
  (s.eventOn port (b * 4096)
    { cause := 10, trans := if port.isSome then 1 else 0, region := (s.home (b * 4096)).getD 0, hid := hid, dpa := b * 4096 + 1 }).slotPoison b

end Sys2Proof.Machine
end

