-- ==== Sys2Proof/Machine/Desc.lean ====
section
/-! DEFINITION. Tensor descriptors: checks, commit and release (R92-R97). -/
namespace Sys2Proof.Machine

/-- Reserved bits of words 1-6 (R95). -/
def descResv (w : Nat) : Nat :=
  match w with
  | 1 => 2 ^ 54 + (2 ^ 20 - 1)
  | 2 => 2 ^ 47 + (2 ^ 17 - 1) * 2 ^ 15
  | 3 => 3 * 2 ^ 62 + 3 * 2 ^ 30
  | 4 => 3 * 2 ^ 62 + 3 * 2 ^ 30
  | 5 => 3 * 2 ^ 62 + 3 * 2 ^ 30
  | 6 => (2 ^ 38 - 1) * 2 ^ 26 + 255
  | _ => 0

/-- The checks of a descriptor's commit, in order (R96). -/
def State.descCheck (s : State) (d : Nat) : Nat :=
  let t := s.desc d
  let inE := fun (e : Int) => decide (-1074 ≤ e ∧ e ≤ 1023)
  let areas := t.areas
  let resvOk := [1, 2, 3, 4, 5, 6].all (fun w => s.dWord d w &&& descResv w == 0)
  let rangeOk := resvOk && decide (1 ≤ t.rankMax ∧ t.rankMax ≤ 512) && inE t.eps && inE t.lowerEps &&
    decide (-1100 ≤ t.shift ∧ t.shift ≤ 1100) && decide (1 ≤ t.rows ∧ t.rows ≤ 16384 ∧ 1 ≤ t.cols ∧ t.cols ≤ 16384) &&
    decide (t.rankFloor ≤ t.rankMax) && (t.oversample == 0 || decide (8 ≤ t.oversample ∧ t.oversample ≤ 64))
  let combOk := t.fidelity != 3 && decide (t.fmt ≤ 5) && t.lowerMode != 3 && (t.fidelity != 0 || t.eps == 0) &&
    (t.fidelity != 2 || t.lowerMode == 0) && !(t.lowerMode == 1 && t.fidelity == 1 && decide (t.lowerEps ≤ t.eps)) &&
    (t.lowerMode == 1 || t.lowerEps == 0)
  let viewEnd := ((areas.map (fun a => a.2.2)).headD 0)
  let comps := areas.drop 1
  let layoutOk := comps.all (fun a => decide (viewEnd ≤ a.2.1)) &&
    comps.all (fun a => comps.all (fun b => a.1 == b.1 || a.2.2 == 0 || b.2.2 == 0 || !overlaps a.2.1 a.2.2 b.2.1 b.2.2))
  if !rangeOk then 0x30 else if !combOk then 0x31 else if !layoutOk then 0x32 else 0

/-- The lossy bit: RANK-ONLY, or tiles lowered (R94). -/
def State.lossyOf (s : State) (d : Nat) : Bool := (s.desc d).fidelity == 2 || s.par (P.descLoweredTiles d) != 0

/-- Keep the lossy bit (R94). -/
def State.setLossy (s : State) (d : Nat) : State := s.descBit d 3 (s.lossyOf d)

/-- A write of 1 to desc_commit (R96). -/
def State.descCommit (s : State) (d : Nat) : State :=
  if s.descOn d then s.setPar (P.descStatus d) 0x20
  else
    let c := s.descCheck d
    let s := s.setPar (P.descStatus d) c
    if c = 0 then (s.descBit d 0 true).setLossy d else s

/-- A write of 2 to desc_commit (R96). -/
def State.descRelease (s : State) (d : Nat) : State :=
  if !s.descOn d || fld (s.par (P.descState d)) 1 1 = 1 then s.setPar (P.descStatus d) 0x20
  else ((s.setPar (P.descStatus d) 0).descBit d 0 false).unhang (fun x => x / 2 ^ 28 == d)

/-- DESC_COMMIT (R96). -/
def execDescCommit (descriptor : Fin 2048) (s : State) : R :=
  .next (s.barWrite (P.descCommit descriptor) 1 (fun s => s.descCommit descriptor))

/-- DESC_RELEASE (R96). -/
def execDescRelease (descriptor : Fin 2048) (s : State) : R :=
  .next (s.barWrite (P.descCommit descriptor) 2 (fun s => s.descRelease descriptor))

end Sys2Proof.Machine
end

