-- ==== Sys2Proof/Machine/Own.lean ====
section
/-! DEFINITION. Commits and releases of partitions, windows and ownership entries (R42-R62, R97, R199). -/
namespace Sys2Proof.Machine

/-- ALIGNMENT or DPA_RANGE of a range, or 0 (R42). -/
def rangeCode (base size : Nat) : Nat :=
  if base % 2 ^ 21 ≠ 0 ∨ size % 2 ^ 21 ≠ 0 ∨ size = 0 then 0x10 else if dpaEnd < base + size then 0x11 else 0

/-- The first code of a list of checks that fails. -/
def firstCode (l : List (Bool × Nat)) : Nat := ((l.find? Prod.fst).map Prod.snd).getD 0

/-! Partitions (R43, R44, R49, R50, R59). -/

/-- An entry's encryption disagrees with a partition it covers (R44, R62). -/
def keyConflict (enc slot : Nat) (word2 : Nat) : Bool := fld word2 16 16 != enc || (enc == 1 && fld word2 15 8 != slot)

/-- CAPACITY_EXCEEDED (R49): the charges on some region of partition n's set, with n among them, exceed its data frames. -/
def State.overCharged (s : State) (n : Nat) : Bool :=
  (setRegions (s.par (P.partStackSet n))).any (fun q =>
    decide (s.par (P.capTotal q) - s.par (P.capRetired q) <
      ((s.partsOn.filter (fun m => s.usesRegion m q)).map s.chargeFrames).sum + s.chargeFrames n))

/-- The checks of a partition's commit, in the order of R57: IN_USE for an overlap with a range still being given up comes last (R44).
Ownership entries count for KEY_CONFLICT with fm_trust_mode 1 too. DESIGN CHOICE (log 83). -/
def State.partCheck (s : State) (n : Nat) : Nat :=
  let base := s.par (P.partBase n)
  let size := s.par (P.partSize n)
  let kind := s.par (P.partKind n)
  let owner := s.par (P.partOwnerHid n)
  let mode := s.par (P.partShareMode n)
  let enc := s.par (P.partEncrypt n)
  let slot := s.par (P.partKeySlot n)
  if (Tab.get n s.own.parts).inForce then 0x20
  else if rangeCode base size ≠ 0 then rangeCode base size
  else firstCode [
    (s.partsOn.any (fun m => overlaps base size (s.par (P.partBase m)) (s.par (P.partSize m))), 0x12),
    (kind == 0 || (owner != 0xFFFF && mode != 0) || (owner == 0xFFFF && mode == 0), 0x14),
    (s.mirrored n && setSize (s.par (P.partStackSet n)) == 1, 0x18),
    (enc == 1 && (Tab.get slot s.boot.keys).isEmpty, 0x19),
    (s.entriesOn.any (fun e =>
      let w := s.par (P.ownWord e 1)
      overlaps base size (fld w 20 0 * 2 ^ 21) ((fld w 41 21 + 1 - fld w 20 0) * 2 ^ 21) && keyConflict enc slot (s.par (P.ownWord e 2))), 0x1A),
    (s.overCharged n, 0x1B),
    (kind == 1 && s.par (P.partPolicy n) != 0, 0x1C),
    (owner == 0xFFFF && enc == 0 && s.par (P.partPolicy n) == 1, 0x1D),
    (mode == 1 && s.par P.fmTrustMode == 1, 0x1E),
    (s.own.parts.any (fun p => p.2.releasing && overlaps base size p.2.relBase p.2.relSize), 0x20)]

/-- Change a partition's record. -/
def State.modPart (s : State) (n : Nat) (f : PartRec → PartRec) : State := { s with own := { s.own with parts := Tab.mod n f s.own.parts } }

/-- Headroom and pressure of every region of a stack set. -/
def State.pressSet (s : State) (set : Nat) : State := forAll (fun q s => s.press q) (setRegions set) s

/-- A write of 1 to part_commit (R44): the rotation pointers start at S(4q) (R46). -/
def State.partCommit (s : State) (n : Nat) : State :=
  let c := s.partCheck n
  let s := s.setPar (P.partStatus n) c
  if c ≠ 0 then s
  else
    let s := (s.modPart n (fun r => { r with inForce := true })).modMem (fun m => { m with
      rot := m.rot.filter (fun p => p.1 / 4 != n) })
    (((s.setPar (P.partFence n) 0).setPar (P.partFenceCount n) 0)).pressSet (s.par (P.partStackSet n))

/-- A release that R44 refuses. -/
def State.partBusy (s : State) (n : Nat) : Bool :=
  let base := s.par (P.partBase n)
  let size := s.par (P.partSize n)
  let isIn := fun (b : Nat) => within (b * 4096) 4096 base size
  !(Tab.get n s.own.parts).inForce || s.winsOn.any (fun w => s.par (P.winPartition w) == n) ||
  s.srsOn.any (fun r => overlaps base size (s.par (P.srBase r)) (s.par (P.srSize r))) ||
  s.jobs.any (fun p => p.2.shadow.any (fun b => isIn b.1) || (p.2.retained ++ (p.2.steps.map StepRec.scratch).flatten).any (fun k => (s.frame (k - 1)).part == n + 1) ||
    (p.2.freeze.on && p.2.freeze.ranges.any (fun r => overlaps base size r.1 r.2)))

/-- A write of 2 to part_commit (R44): the partition stops being in force, its content is given up within 1 s per TiB. -/
def State.partRelease (s : State) (n : Nat) : State :=
  if s.partBusy n then s.setPar (P.partStatus n) 0x20
  else
    let s := s.modPart n (fun r => { r with inForce := false, releasing := true, relBase := s.par (P.partBase n), relSize := s.par (P.partSize n) })
    s.pressSet (s.par (P.partStackSet n))

/-- The released content is given up (R44): sectors and slots freed, blocks UNWRITTEN; every frame the partition still holds FREE,
unless it is in force again. -/
def State.partEmpty (s : State) (n : Nat) : State :=
  let r := Tab.get n s.own.parts
  if !r.releasing then s
  else
    let gone := fun (b : Nat) => within (b * 4096) 4096 r.relBase r.relSize
    let words := (s.mem.mapPri ++ s.mem.aside).filter (fun p => gone p.1)
    let s := forAll (fun (p : Nat × MapWord) s =>
      let e := entryOf p.2
      if e.inHbm then s.freeEntry e false else if e.state = stDetour then s.freeSlot e.addr else s) words s
    let s := forAll (fun b s => if gone b then s.unpromote b else s) (Tab.keys s.mem.promoted) s
    let s := s.modMem (fun m => { m with
      mapPri := m.mapPri.filter (fun p => !gone p.1), mapMir := m.mapMir.filter (fun p => !gone p.1)
      aside := m.aside.filter (fun p => !gone p.1), tierOne := m.tierOne.filter (fun p => !gone (p.1 * 512))
      openFrame := if r.inForce then m.openFrame else m.openFrame.filter (fun p => p.1 / 16 != n)
      t0cache := m.t0cache.filter (fun p => !gone p.1), mover := m.mover.filter (fun p => !gone p.1) })
    let s := forAll (fun (p : Nat × FrameRec) s =>
      if p.2.part = n + 1 ∧ !r.inForce then
        (if p.2.st = fQuar then s.setFrame p.1 { p.2 with mask := 0 }
         else if p.2.st = fUsed ∨ p.2.st = fShadow then s.setFrame p.1 default else s)
      else s) s.mem.frames s
    ((s.setPar (P.partDetourBlocks n) 0).setPar (P.partStatus n) 0).modPart n (fun r => { (default : PartRec) with inForce := r.inForce })

/-- PART_COMMIT (R44). -/
def execPartCommit (partition : Fin 64) (s : State) : R :=
  .next (s.barWrite (P.partCommit partition) 1 (fun s => s.partCommit partition))

/-- PART_RELEASE (R44). -/
def execPartRelease (partition : Fin 64) (s : State) : R :=
  .next (s.barWrite (P.partCommit partition) 2 (fun s => s.partRelease partition))

/-- PART_RELEASE_COMPLETE (R44): the region hubs finish emptying the released range. -/
def execPartReleaseComplete (partition : Fin 64) (s : State) : R := .next (s.partEmpty partition)

/-! Windows (R51-R55, R57, R58, R97). -/

/-- Staging capacity of region q in MiB (R29, R365). -/
def State.stagingMib (s : State) (q : Nat) : Nat := fld (s.par P.integStagingMib) (8 * q + 7) (8 * q)

/-- Explicit-T0 bytes charged to region q (R55). -/
def State.t0Charge (s : State) (q : Nat) : Nat :=
  ((s.winsOn.filter (fun w => s.par (P.winKind w) == wT0 && s.usesRegion (s.par (P.winPartition w)) q)).map
    (fun w => s.par (P.winSize w) / setSize (s.par (P.partStackSet (s.par (P.winPartition w)))))).sum

/-- T0_LIMIT (R55). -/
def State.t0Over (s : State) (w : Nat) : Bool :=
  let set := s.par (P.partStackSet (s.par (P.winPartition w)))
  (setRegions set).any (fun q =>
    decide (Nat.min (32 * 2 ^ 20) (s.stagingMib q * 2 ^ 19) < s.t0Charge q + s.par (P.winSize w) / setSize set))

/-- The checks of a window's commit, in the order of R57. -/
def State.winCheck (s : State) (w : Nat) : Nat :=
  let base := s.par (P.winBase w)
  let size := s.par (P.winSize w)
  let kind := s.par (P.winKind w)
  let n := s.par (P.winPartition w)
  let d := s.par (P.winDescriptor w)
  let factors := kind == wFactor || kind == wFactoring
  let needs := factors || kind == wGradient
  let descOk := decide (d < 2048) && s.descOn d
  if s.par (P.winState w) = 1 then 0x20
  else if rangeCode base size ≠ 0 then rangeCode base size
  else firstCode [
    (s.winsOn.any (fun v => overlaps base size (s.par (P.winBase v)) (s.par (P.winSize v))), 0x12),
    (!(Tab.get n s.own.parts).inForce || !within base size (s.par (P.partBase n)) (s.par (P.partSize n)), 0x13),
    (kind == 0 || ((kind == wT0 || kind == wT1) && s.par (P.partKind n) == 2), 0x14),
    (s.par (P.partOwnerHid n) == 0xFFFF && !s.srsOn.any (fun r => within base size (s.par (P.srBase r)) (s.par (P.srSize r))), 0x21),
    (kind == wGradient && descOk && (s.desc d).fidelity == 2, 0x15),
    (needs && (!descOk || (factors && decide (size < (s.desc d).extent * 4096))), 0x16),
    ((!needs && d != 0xFFFF) || (s.par (P.winResidency w) == 1 && kind != wTransparent), 0x17),
    (s.par P.fmTrustMode == 1 && (factors || s.par (P.partShareMode n) == 1), 0x1E),
    (kind == wT0 && s.t0Over w, 0x1F),
    (factors && fld (s.par (P.descState d)) 1 1 == 1, 0x20)]

/-- The committed window bound to a descriptor (R97). -/
def State.winOfDesc (s : State) (d : Nat) : Option Nat :=
  s.winsOn.find? (fun w => (s.par (P.winKind w) == wFactor || s.par (P.winKind w) == wFactoring) && s.par (P.winDescriptor w) == d)

/-- The table of the entries that count for a tensor at block b0 (R94). -/
def State.countTab (s : State) (b0 : Nat) : Tab MapWord := match s.latestView b0 with | .ver r v => verMap (s.sr r) v | _ => s.mem.mapPri

/-- Tensor-view blocks of window w not in FACTOR state (R94). -/
def State.denseBlocks (s : State) (w : Nat) (t : TDesc) : Nat :=
  let b0 := s.par (P.winBase w) / 4096
  let n := t.tiles * t.wOut
  n - ((s.countTab b0).filter (fun p => decide (b0 ≤ p.1 ∧ p.1 < b0 + n) && (entryOf p.2).state == stFactor)).length

/-- Tiles of window w whose record is lower than the descriptor's fidelity (R94, R101). -/
def State.lowTiles (s : State) (w : Nat) : Nat :=
  let t := s.winDesc w
  let b0 := s.par (P.winBase w) / 4096
  let v := s.latestView b0
  let blocks := (Tab.keys (s.countTab b0)).filter (fun b => decide (b0 + t.tab ≤ b ∧ b < b0 + t.tab + cdiv (8 * t.tiles) 4096))
  (blocks.map (fun b => (((elems 8 512 (s.peek v b)).take (t.tiles - (b - b0 - t.tab) * 512)).filter (fun x => (t.record x).low)).length)).sum

/-- desc_state bit 4: some component block is POISON (R94, R123). -/
def State.descDamage (s : State) (w : Nat) : State :=
  if !s.factorWin w then s
  else
    let t := s.winDesc w
    let b0 := s.par (P.winBase w) / 4096
    s.descBit (s.par (P.winDescriptor w)) 4 ((s.countTab b0).any (fun p => decide (b0 ≤ p.1) && (entryOf p.2).state == stPoison &&
      [1, 2, 3, 4, 5].contains (t.areaAt (p.1 - b0)).1))

/-- The block map of a range shows the storage of its explicit-T1 windows, or that of the others: each is storage of its own, and
what the range showed before stays aside (R51, R55). In a VERSIONED region the versions hold one storage. DESIGN CHOICE (log 84). -/
def State.showStore (s : State) (t1 : Bool) (base size : Nat) : State :=
  let isIn := fun (b : Nat) => within (b * 4096) 4096 base size && Tab.get (b / 512) s.mem.tierOne != t1
  let back := s.mem.aside.filter (fun p => isIn p.1)
  let away := s.mem.mapPri.filter (fun p => isIn p.1)
  let s := forAll (fun b s => if isIn b then s.unpromote b else s) (Tab.keys s.mem.promoted) s
  s.modMem (fun m => { m with
    mapPri := Tab.putAll 0 back (m.mapPri.filter (fun p => !isIn p.1)), mapMir := Tab.putAll 0 back (m.mapMir.filter (fun p => !isIn p.1))
    aside := Tab.putAll 0 away (m.aside.filter (fun p => !isIn p.1))
    t0cache := m.t0cache.filter (fun p => !isIn p.1), mover := m.mover.filter (fun p => !isIn p.1)
    tierOne := if t1 then Tab.writeRun false (base / 2 ^ 21) (List.replicate (size / 2 ^ 21) true) m.tierOne
      else m.tierOne.filter (fun p => !within (p.1 * 2 ^ 21) 1 base size) })

/-- A write of 1 to win_commit (R54, R97, R328). -/
def State.winCommit (s : State) (w : Nat) : State :=
  let c := s.winCheck w
  let s := s.setPar (P.winStatus w) c
  if c ≠ 0 then s
  else
    let base := s.par (P.winBase w)
    let size := s.par (P.winSize w)
    let d := s.par (P.winDescriptor w)
    let s := s.setPar (P.winState w) 1
    let s := if s.par (P.winKind w) = wT0 ∨ s.par (P.winKind w) = wGradient then s else s.showStore (s.par (P.winKind w) == wT1) base size
    if s.par (P.winKind w) = wT0 then
      s.modMem (fun m => { m with t0 := m.t0.filter (fun p => !within p.1 1 base size), t0marks := m.t0marks.filter (fun p => !within (p.1 * 64) 1 base size) })
    else if s.par (P.winKind w) = wFactor ∨ s.par (P.winKind w) = wFactoring then
      let s := ((s.descBit d 1 true).setPar (P.descLoweredTiles d) (s.lowTiles w)).setLossy d
      (s.setPar (P.descDenseBlocks d) (if s.par (P.winKind w) = wFactoring then s.denseBlocks w (s.desc d) else 0)).descDamage w
    else s

/-- A window becomes WITHDRAWN (R54): its descriptor is unbound; its parameters stay. -/
def State.winDown (s : State) (w : Nat) : State :=
  let k := s.par (P.winKind w)
  let s := s.setPar (P.winState w) 0
  if k = wFactor ∨ k = wFactoring then s.descBit (s.par (P.winDescriptor w)) 1 false else s

/-! Ownership entries (R61, R62). -/

/-- The words 1-6 an entry would hold after a write of word 1. -/
def State.ownNext (s : State) (e w v : Nat) : Nat := if w = 1 then v else Tab.get (e * 8 + w) s.own.shadow

/-- The checks of an entry's commit, in the order of R57. -/
def State.ownCheck (s : State) (e v : Nat) : Nat :=
  let lo := fld v 20 0
  let hi := fld v 41 21
  if fld v 63 63 = 0 then 0
  else firstCode [
    (decide (hi < lo), 0x10),
    (s.entriesOn.any (fun x => x != e &&
      decide (fld (s.par (P.ownWord x 1)) 20 0 ≤ hi ∧ lo ≤ fld (s.par (P.ownWord x 1)) 41 21) &&
      [3, 4, 5, 6].any (fun w => s.par (P.ownWord x w) &&& s.ownNext e w v != 0)), 0x12),
    (s.partsOn.any (fun n => overlaps (lo * 2 ^ 21) ((hi + 1 - lo) * 2 ^ 21) (s.par (P.partBase n)) (s.par (P.partSize n)) &&
      keyConflict (s.par (P.partEncrypt n)) (s.par (P.partKeySlot n)) (s.ownNext e 2 v)), 0x1A)]

/-- A write of word 1 of entry e (R62): the word and the shadow copy committed in one step, or refused. -/
def State.ownCommit (s : State) (e v : Nat) : State :=
  let c := s.ownCheck e v
  let s := s.setPar P.ownStatus c
  if c ≠ 0 then s
  else
    let s := forAll (fun w s => s.setPar (P.ownWord e w) (s.ownNext e w v)) [1, 2, 3, 4, 5, 6] s
    s.setPar P.ownEntriesValid s.entriesOn.length

/-- A write of one of words 2-6 goes to the shadow copy (R62). -/
def State.ownShadow (s : State) (e w v : Nat) : State := { s with own := { s.own with shadow := Tab.set (e * 8 + w) v s.own.shadow } }

/-- OWNERSHIP_WORD1_WRITE (R62). -/
def execOwnershipWord1Write (entry : Fin 4096) (value : Nat) (s : State) : R :=
  .next (s.barWrite (P.ownWord entry 1) value (fun s => s.ownCommit entry value))

end Sys2Proof.Machine
end

