-- ==== Sys2Proof/Machine/Queue.lean ====
section
/-! DEFINITION. Command queues: enabling, doorbells, fetching, completing, interrupts and halting (R219-R241, R430). -/
namespace Sys2Proof.Machine

/-- Change a queue. -/
def State.modQ (s : State) (q : Nat) (f : QRec → QRec) : State := { s with queues := { s.queues with q := Tab.mod q f s.queues.q } }

/-- A queue's record. -/
def State.qr (s : State) (q : Nat) : QRec := Tab.get q s.queues.q

/-- The queues whose q_state is not that of a queue never used (R221). -/
def State.queuesOn (s : State) : List Nat := s.objs 0x8000 1024 32 8 5

/-- q_cfg fields (R221). -/
def State.qSize (s : State) (q : Nat) : Nat := fld (s.par (P.qCfg q)) 15 0 + 1
def State.qClass (s : State) (q : Nat) : Nat := fld (s.par (P.qCfg q)) 21 18

/-- The group's HID, path and privilege (R220). -/
def State.qHid (s : State) (q : Nat) : Nat := s.par (P.grpHid (q / 64))
def State.qPriv (s : State) (q : Nat) : Bool := s.par (P.grpPriv (q / 64)) == 1
def State.qLdPath (s : State) (q : Nat) : Bool := s.par (P.grpPath (q / 64)) == 1

/-- The port operand (link * 16 + LD) of LD l of port p: on a split port, LDs 8 and above stand on its upper half (R63). -/
def State.portOf (s : State) (p l : Nat) : Nat :=
  if s.cfgWidth (2 * p + 1) ≠ 0 ∧ 8 ≤ l then (2 * p + 1) * 16 + (l - 8) else 2 * p * 16 + l

/-- The LD that carries a queue's path. -/
def State.qPort (s : State) (q : Nat) : Nat := let v := s.par (P.grpPortLd (q / 64)); s.portOf (fld v 7 4) (fld v 3 0)

/-- Set a field of q_state (R221). -/
def State.setQ (s : State) (q hi lo v : Nat) : State := s.setPar (P.qState q) (setFld (s.par (P.qState q)) hi lo v)

/-- Ring positions. -/
def State.sqHead (s : State) (q : Nat) : Nat := fld (s.par (P.qState q)) 31 16
def State.cqTail (s : State) (q : Nat) : Nat := fld (s.par (P.qState q)) 47 32

/-- Keep the started and held counts of q_state (R221, R430). -/
def State.syncQ (s : State) (q : Nat) : State := (s.setQ q 55 48 (s.qr q).cmds.length).setQ q 63 56 (s.qr q).held.length

/-- Move slots between the device-wide sums (R430): keys of the sums a slot leaves and enters. -/
def State.moveSlots (s : State) (a b n : Nat) : State := (s.uncount a n).count b n

/-- Change of a queue's state, with q_running (R242). -/
def State.setQMode (s : State) (q mode reason : Nat) : State :=
  let old := s.qMode q
  let s := (s.setQ q 7 0 mode).setQ q 15 8 reason
  if old = 1 ∧ mode ≠ 1 then s.uncount P.qRunning 1 else if old ≠ 1 ∧ mode = 1 then s.count P.qRunning 1 else s

/-- Raise the queue's vector and clear its moderation (R238, R239). -/
def State.raiseQ (s : State) (q : Nat) : State :=
  let c := s.par (P.qCfg q)
  let s := s.modQ q (fun r => { r with unsig := 0, unsigAt := 0 })
  if fld c 43 43 = 0 then s
  else if s.qLdPath q then s.msixLd (s.qPort q) (fld c 42 32) else s.msixSvc (fld c 42 32)

/-- A completion of a command with its status, result and flags. -/
def Cmd.finish (c : Cmd) (status result flags : Nat) : Cmd := { c with phase := 3, status := status, result := result, flags := flags }

/-- A halt (R240, R241): fetching stops, commands not yet started are returned, finished ones are held, the vector is raised. -/
def State.haltQueue (s : State) (q reason : Nat) : State :=
  if s.qMode q ≠ 1 then s
  else
    let r := s.qr q
    let back := r.cmds.filter (fun c => c.phase == 0)
    let fin := r.cmds.filter (fun c => c.phase == 3)
    let s := ((s.setQMode q 2 reason).count P.qHaltCount 1).modQ q (fun r => { r with
      cmds := r.cmds.filter (fun c => c.phase == 1 || c.phase == 2), held := r.held ++ fin
      outstanding := r.outstanding - back.length })
    let s := match back with | c :: _ => s.setQ q 31 16 c.idx | [] => s
    let s := (s.moveSlots P.qeStarted P.qeFree back.length).moveSlots P.qeStarted P.qeHeld fin.length
    (s.syncQ q).raiseQ q

/-! Commands by handle: queue * 65,536 + ring index. -/

/-- The handle of a command. -/
def cmdKey (q idx : Nat) : Nat := q * 65536 + idx

/-- A command fetched and not completed. -/
def State.cmdAt (s : State) (h : Nat) : Option Cmd := (s.qr (h / 65536)).cmds.find? (fun c => c.idx == h % 65536)

/-- Change a command. -/
def State.modCmd (s : State) (h : Nat) (f : Cmd → Cmd) : State :=
  s.modQ (h / 65536) (fun r => { r with cmds := r.cmds.map (fun c => if c.idx = h % 65536 then f c else c) })

/-- Memory of the path of queue q can be reached: its function has Bus Master Enable and carries requests (R266, R277). -/
def State.qReach (s : State) (q : Nat) : Bool := if s.qLdPath q then (s.ld (ldKey (s.qPort q))).bme else s.svcOpen

/-- A command finishes (R232, R240): its completion waits for posting, is held while the queue is HALTED or its completion ring
unreachable, is discarded while the queue is being disabled. -/
def State.finish (s : State) (h status result flags : Nat) : State :=
  let q := h / 65536
  match s.cmdAt h with
  | none => s
  | some c =>
    if c.phase = 3 then s
    else
      let d := c.finish status result flags
      let gone := fun (s : State) => s.modQ q (fun r => { r with cmds := r.cmds.filter (fun c => c.idx != h % 65536) })
      if (s.qr q).disabling then ((gone s).moveSlots P.qeStarted P.qeFree 1).syncQ q
      else if s.qMode q = 2 ∨ (fld (s.par (P.qCfg q)) 17 17 = 0 ∧ s.qReach q = false) then
        (((gone s).modQ q (fun r => { r with held := r.held ++ [d] })).moveSlots P.qeStarted P.qeHeld 1).syncQ q
      else s.modCmd h (fun _ => d)

/-- Finish with a status and no result. -/
def State.fail (s : State) (h status : Nat) : State := s.finish h status 0 0

/-- A command its engine has accepted, which completes later. -/
def State.accept (s : State) (h : Nat) : State := s.modCmd h (fun c => { c with phase := 2 })

/-- Body word Dn of an entry (R226). -/
def Cmd.d (c : Cmd) (n : Nat) : Nat := ofLe (cut (8 * n) 8 c.entry)
def Cmd.op (c : Cmd) : Nat := ofLe (cut 0 1 c.entry)
def Cmd.flagBits (c : Cmd) : Nat := ofLe (cut 1 1 c.entry)
def Cmd.cid (c : Cmd) : Nat := ofLe (cut 2 2 c.entry)
def Cmd.mode (c : Cmd) : Nat := ofLe (cut 4 1 c.entry)

/-- Run a started command whose opcode and mode fit. -/
def State.runCmd (s : State) (q idx op mode : Nat) (f : Nat → Cmd → State → State) : State :=
  match s.cmdAt (cmdKey q idx) with
  | some c => if c.phase = 1 && c.op = op && c.mode = mode then f (cmdKey q idx) c s else s
  | none => s

/-- The engine traffic from state s0 on is paid under the class of queue q (R237, R296). -/
def State.paid (s was : State) (q : Nat) : State := s.payEngine (was.qClass q) was.reg.moved

/-- Run a started command that moves stored data. -/
def State.runMove (s : State) (q idx op mode : Nat) (f : Nat → Cmd → State → State) : State := (s.runCmd q idx op mode f).paid s q

/-! Checks of an entry (R227, R228). -/

/-- Modes of an opcode; none for an opcode not in R228. -/
def opModes (op : Nat) : Option Nat :=
  match op with
  | 0x01 => some 3 | 0x02 => some 1 | 0x03 => some 1 | 0x04 => some 1 | 0x08 => some 2 | 0x09 => some 2 | 0x10 => some 4
  | 0x11 => some 1 | 0x12 => some 1 | 0x13 => some 1 | 0x14 => some 3 | 0x18 => some 5 | 0x19 => some 2 | 0x1A => some 1
  | 0x1B => some 3 | 0x20 => some 2 | 0x21 => some 1 | 0x22 => some 1 | 0x28 => some 4 | 0x29 => some 1
  | _ => none

/-- Bits of D1-D7 that an opcode and mode use (R228, R230, R231). -/
def opMask (op mode : Nat) : List Nat :=
  let a := 2 ^ 64 - 1
  let w := fun n => 2 ^ n - 1
  let pair := (2 ^ 30 - 1) * 2 ^ 32 + (2 ^ 30 - 1)
  match op, mode with
  | 0x01, _ => [a, a, w 41, 0, 0, 0, 0]
  | 0x02, _ => [a, w 41, a, 0, 0, 0, 0]
  | 0x03, _ => [a, w 41, 0, 0, 0, 0, 0]
  | 0x04, _ => [a, w 41, 0, 0, 0, 0, 0]
  | 0x08, _ => [w 11, 0, 0, 0, 0, 0, 0]
  | 0x09, _ => [w 9, a, a, (2 ^ 16 - 1) * 2 ^ 48 + (2 ^ 21 - 1) * 2 ^ 19, (2 ^ 29 - 1) * 2 ^ 32 + w 28, 0, 0]
  | 0x10, _ => [a, w 58 - (w 29 - w 16), pair, pair, pair, a, w 58]
  | 0x11, _ => [a, w 16, 0, 0, 0, 0, 0]
  | 0x12, _ => [a, w 16, 0, 0, 0, 0, 0]
  | 0x13, _ => [a, w 16, 0, 0, 0, 0, 0]
  | 0x14, 0 => [w 54, w 41, a, a, 0, 0, 0]
  | 0x14, 1 => [w 9, w 49, a, 0, 0, 0, 0]
  | 0x14, _ => [w 8, 0, 0, 0, 0, 0, 0]
  | 0x18, _ => [w 8, w 32, 0, 0, 0, 0, 0]
  | 0x19, _ => [w 9, 0, 0, 0, 0, 0, 0]
  | 0x1A, _ => [w 16, 0, 0, 0, 0, 0, 0]
  | 0x1B, _ => [w 16, 0, 0, 0, 0, 0, 0]
  | 0x20, _ => [w 32, a, w 7, 0, 0, 0, 0]
  | 0x21, _ => [w 16, a, a, 0, 0, 0, 0]
  | 0x22, _ => [w 6, a, a, a, a, 0, 0]
  | 0x28, _ => [a, 0, 0, 0, 0, 0, 0]
  | 0x29, _ => [w 16, a, 0, 0, 0, 0, 0]
  | _, _ => [0, 0, 0, 0, 0, 0, 0]

/-- The first failure of R227 before the opcode's own checks, or 0. -/
def entryCheck (c : Cmd) (priv : Bool) : Nat :=
  match opModes c.op with
  | none => 0x01
  | some n =>
    let body := (List.zip (opMask c.op c.mode) [1, 2, 3, 4, 5, 6, 7]).all (fun p => c.d p.2 &&& p.1 == c.d p.2)
    if n ≤ c.mode || 4 ≤ c.flagBits || ofLe (cut 5 3 c.entry) ≠ 0 || !body then 0x02
    else if [0x20, 0x21, 0x28, 0x29].contains c.op && !priv then 0x04
    else 0

/-! DEVICE rings (R222): reads and writes of explicit windows. -/

/-- A stored line with what is gathered for it (R25, R30): its bytes, or poison. -/
def State.overLine (s : State) (key i : Nat) (x : Option (List Byte)) : Option (List Byte) :=
  match (Tab.find? key s.mem.gather).bind (fun g => (Tab.find? i g.lines).map (fun d => (d, Tab.get i g.masks, g.bad.contains i))) with
  | none => x
  | some (_, _, true) => none
  | some (d, m, false) => if m = 0 then some d else x.map (maskBytes m d)

/-- Read whole lines of an explicit window at a DPA, or none when some line is poisoned or the window is gone. -/
def State.ringRead (s : State) (dpa : Nat) (ph : Phys) (hid : Nat) : Nat → Option (List Byte) × State
  | 0 => (some [], s)
  | n + 1 =>
    match s.winAt dpa with
    | none => (none, s)
    | some w =>
      let one : Option (List Byte) × State :=
        if s.par (P.winKind w) = wT0 then
          (if Tab.get (dpa / 64) s.mem.t0marks then none else some (Tab.readRun 0 dpa 64 s.mem.t0), s)
        else if s.par (P.winKind w) = wT1 then
          let (x, s) := s.readLine .main (dpa / 4096) (dpa % 4096 / 64) 0 ph none hid
          (s.overLine (dpa / 4096) (dpa % 4096 / 64) x, s)
        else (none, s)
      match one with
      | (none, s) => (none, s)
      | (some l, s) =>
        match s.ringRead (dpa + 64) ph hid n with
        | (none, s) => (none, s)
        | (some ls, s) => (some (l ++ ls), s)

/-- Store bytes that lie in one line of an explicit window (R25, R51, R151): in staging, in the block's gather buffer, in place in the flat
frame, or into a new flat frame. False when it cannot be stored. -/
def State.ringWrite (s : State) (dpa : Nat) (d : List Byte) (ph : Phys) (hid : Nat) : Bool × State :=
  match s.winAt dpa with
  | none => (false, s)
  | some w =>
    if s.par (P.winKind w) = wT0 then (true, s.modMem (fun m => { m with t0 := Tab.writeRun 0 dpa d m.t0 }))
    else if s.par (P.winKind w) = wT1 then
      let b := dpa / 4096
      let i := dpa % 4096 / 64
      match Tab.find? b s.mem.gather with
      | some g =>
        let mask := ((List.range d.length).map (fun k => 2 ^ (dpa % 64 + k))).sum
        (true, s.modMem (fun m => { m with gather := Tab.set b (g.put i (normMask mask) (splice (dpa % 64) d (zeros 64)) false) m.gather }))
      | none =>
      match s.readBlock .main b 0 ph none hid with
      | (none, s) => (false, s)
      | (some (x, marks), s) =>
        let y := splice (dpa % 4096) d x
        let e := entryOf (s.wordIn .main b)
        if e.state = stFlat then
          (true, s.writeFlat b e [(i, cut (64 * i) 64 y)] (if marks.contains i then [i] else []))
        else (true, s.land .main w b (flatForm y) marks [])
    else (false, s)

/-- A DEVICE ring lies in one explicit window whose rights the HID holds (R222). -/
def State.ringOk (s : State) (base n hid need : Nat) : Bool :=
  match s.winAt base with
  | none => false
  | some w => (s.par (P.winKind w) == wT0 || s.par (P.winKind w) == wT1) &&
      within base n (s.par (P.winBase w)) (s.par (P.winSize w)) && s.grantRange hid base n need

/-! Enabling (R223). -/

/-- The first reason that ENABLE finds, or 0 (R223). -/
def State.qCheck (s : State) (q : Nat) : Nat :=
  let c := s.par (P.qCfg q)
  let n := s.qSize q
  let sq := s.par (P.qSqBase q)
  let cq := s.par (P.qCqBase q)
  let v := s.par (P.grpPortLd (q / 64))
  firstCode [
    (s.qHid q == 0xFFFF || (s.qLdPath q && s.hidOf (s.qPort q) != s.qHid q) || (s.qLdPath q && decide (256 ≤ v)), 0x01),
    (n == 1 || sq % 64 != 0 || cq % 64 != 0 || (fld c 16 16 == 1 && !s.ringOk sq (64 * n) (s.qHid q) rR) ||
      (fld c 17 17 == 1 && !s.ringOk cq (16 * n) (s.qHid q) rW), 0x02),
    (fld c 43 43 == 1 && s.qLdPath q && decide (128 ≤ fld c 42 32), 0x03),
    (fld c 47 44 != 0 || fld c 31 22 != 0, 0x04)]

/-- ENABLE of a DISABLED queue (R223, R240). -/
def State.qEnable (s : State) (q : Nat) : State :=
  match s.qCheck q with
  | 0 =>
    let s := s.setPar (P.qState q) 0
    (s.setQMode q 1 0).modQ q (fun _ => { (default : QRec) with phase := true })
  | r => s.setQ q 15 8 r

/-- A disabling queue whose started commands have all finished becomes DISABLED (R240). -/
def State.qDisabled (s : State) (q : Nat) : State :=
  if (s.qr q).disabling && (s.qr q).cmds.isEmpty then (s.setQMode q 0 0).modQ q (fun _ => default) else s

/-- DISABLE (R240): fetching stops, completions and held completions are discarded. -/
def State.qDisable (s : State) (q : Nat) : State :=
  if s.qMode q = 0 then s
  else
    let r := s.qr q
    let gone := (r.cmds.filter (fun c => c.phase == 0 || c.phase == 3)).length
    let s := s.modQ q (fun r => { r with disabling := true, held := [], cmds := r.cmds.filter (fun c => c.phase == 1 || c.phase == 2) })
    let s := (s.moveSlots P.qeStarted P.qeFree gone).moveSlots P.qeHeld P.qeFree r.held.length
    (s.syncQ q).qDisabled q

/-- The path function of a queue has Bus Master Enable. -/
def State.qBme (s : State) (q : Nat) : Bool := if s.qLdPath q then (s.ld (ldKey (s.qPort q))).bme else s.svc.bme

/-- Slots from one ring position up to another. -/
def ringDist (n a b : Nat) : Nat := (b + n - a % n) % n

/-- A cq_head that lies beyond the ring or frees slots the device has not written (R225). -/
def State.cqBad (s : State) (q v : Nat) : Bool :=
  let n := s.qSize q
  decide (n ≤ v) || decide (ringDist n (s.qr q).head (s.cqTail q) < ringDist n (s.qr q).head v)

/-- A doorbell of the queue holds a value that halts it (R225). -/
def State.dbBad (s : State) (q : Nat) : Bool := decide (s.qSize q ≤ (s.qr q).tail) || s.cqBad q (s.qr q).cqDb

/-- The cause of a halt persists (R240, R241). -/
def State.haltStays (s : State) (q : Nat) : Bool :=
  let c := s.par (P.qCfg q)
  match fld (s.par (P.qState q)) 15 8 with
  | 0x10 => !s.qBme q
  | 0x11 => (fld c 16 16 == 1 && !s.ringOk (s.par (P.qSqBase q)) (64 * s.qSize q) (s.qHid q) rR) ||
            (fld c 17 17 == 1 && !s.ringOk (s.par (P.qCqBase q)) (16 * s.qSize q) (s.qHid q) rW)
  | 0x12 => s.dbBad q
  | _ => !s.serving

/-- RESTART (R240); a queue that a doorbell value taken while HALTED would halt halts again with DOORBELL (R225). -/
def State.qRestart (s : State) (q : Nat) : State :=
  if s.qMode q ≠ 2 || (s.qr q).disabling || s.haltStays q || !s.serving || ((s.qr q).needBme && !s.qBme q) then s
  else
    let s := (s.setQMode q 1 0).modQ q (fun r => { r with needBme := false })
    if s.dbBad q then s.haltQueue q 0x12 else s

/-- The effect of a write of q_ctl. -/
def State.qCtl (s : State) (q v : Nat) : State :=
  match v with
  | 1 => s.qEnable q
  | 2 => s.qDisable q
  | 3 => s.qRestart q
  | _ => s

/-- Q_ENABLE (R223). -/
def execQEnable (queue : Fin 32768) (s : State) : R := .next (s.barWrite (P.qCtl queue) 1 (fun s => s.qCtl queue 1))

/-- Q_DISABLE (R240). -/
def execQDisable (queue : Fin 32768) (s : State) : R := .next (s.barWrite (P.qCtl queue) 2 (fun s => s.qCtl queue 2))

/-- Q_RESTART (R240). -/
def execQRestart (queue : Fin 32768) (s : State) : R := .next (s.barWrite (P.qCtl queue) 3 (fun s => s.qCtl queue 3))

/-- Q_DISABLE_COMPLETE (R240). -/
def execQDisableComplete (queue : Fin 32768) (s : State) : R := .next (s.qDisabled queue)

/-! Doorbells (R224, R225). -/

/-- A doorbell write reaches queue q's slot: through the service function, or through the LD its group names (R224). -/
def State.dbReaches (s : State) (via : Option Nat) (q : Nat) : Bool :=
  match via with
  | none => true
  | some p => s.qLdPath q && s.qPort q == p && (s.link (p / 16)).ldq

/-- A doorbell write with its effect on a queue that is not DISABLED (R225). -/
def State.doorbell (s : State) (via : Option Nat) (q : Nat) (f : State → State) : State :=
  if via.isNone && !s.barOn then s.aerUr
  else if s.warm || !s.dbReaches via q || s.qMode q = 0 then s.count P.qDbDrop 1
  else f s

/-- A new sq_tail (R225). -/
def State.sqTail (s : State) (q v : Nat) : State :=
  let s := s.modQ q (fun r => { r with tail := v })
  if s.qMode q = 1 && decide (s.qSize q ≤ v) then s.haltQueue q 0x12 else s

/-- A new cq_head (R225): it frees slots the device has written, no more. -/
def State.cqHead (s : State) (q v : Nat) : State :=
  let freed := ringDist (s.qSize q) (s.qr q).head v
  if s.cqBad q v then
    let s := s.modQ q (fun r => { r with cqDb := v })
    if s.qMode q = 1 then s.haltQueue q 0x12 else s
  else s.modQ q (fun r => { r with cqDb := v, head := v, outstanding := r.outstanding - freed })

/-- A read of queue q's doorbell slot returns the values held (R224): sq_tail in [15:0], cq_head in [47:32]. -/
def State.dbRead (s : State) (via : Option Nat) (q : Nat) : State :=
  let d := leBytes 4 ((s.qr q).tail % 65536) ++ leBytes 4 ((s.qr q).cqDb % 65536)
  match via with
  | none => if s.barOn then s.emit (.svcReply 3 0 d) else s.aerUr
  | some p => s.send (p / 16) 3 (.ldReply p 3 0 d)

/-- An access of queue q's doorbell slot (R224); `one` is the effect of a 4-byte write. -/
def State.dbAccess (s : State) (via : Option Nat) (q : Nat) (one : State → Nat → State) : DbAccess → State
  | .one v => s.doorbell via q (fun s => one s (v % 2 ^ 32))
  | .both t h => s.doorbell via q (fun s => (s.sqTail q (t % 2 ^ 32)).cqHead q (h % 2 ^ 32))
  | .read => s.dbRead via q

/-- SQ_TAIL_DOORBELL (R224, R225). -/
def execSqTailDoorbell (via : Option (Fin 512)) (queue : Fin 32768) (access : DbAccess) (s : State) : R :=
  .next (s.dbAccess (via.map Fin.val) queue (fun s v => s.sqTail queue v) access)

/-- CQ_HEAD_DOORBELL (R224, R225). -/
def execCqHeadDoorbell (via : Option (Fin 512)) (queue : Fin 32768) (access : DbAccess) (s : State) : R :=
  .next (s.dbAccess (via.map Fin.val) queue (fun s v => s.cqHead queue v) access)

/-! Fetching (R235, R236). -/

/-- A queue takes part in fetch arbitration (R235). -/
def State.qEligible (s : State) (q : Nat) : Bool :=
  let r := s.qr q
  s.serving && s.qMode q == 1 && !r.disabling && (fld (s.par (P.qCfg q)) 16 16 == 1 || s.qReach q) && s.sqHead q != r.tail && decide (r.cmds.length < 32) &&
    decide (r.outstanding < s.qSize q - 1) && r.held.isEmpty && !r.cmds.any (fun c => c.phase == 0)

/-- The queue the two-level arbiter grants (R235). -/
def State.grantQueue (s : State) : Option Nat :=
  let qs := s.queuesOn.filter s.qEligible
  match rotPick 512 s.queues.groupPtr (fun g => qs.any (fun q => q / 64 == g)) with
  | none => none
  | some g => (rotPick 64 (Tab.get g s.queues.queuePtr) (fun i => qs.contains (g * 64 + i))).map (fun i => g * 64 + i)

/-- Take fetched entries one by one: each is checked and started, waits on FENCE, or completes with its failure (R227, R236). -/
def State.takeEntries (s : State) (q : Nat) : List (List Byte) → State
  | [] => s
  | b :: bs =>
    let r := s.qr q
    if r.cmds.any (fun c => c.phase == 0) || decide (32 ≤ r.cmds.length) then s
    else
      let c : Cmd := { idx := s.sqHead q, entry := padTo 64 b, phase := 1, status := 0, result := 0, flags := 0 }
      let bad := entryCheck c (s.qPriv q)
      let c := if c.flagBits.testBit 1 && !r.cmds.isEmpty then { c with phase := 0 } else c
      let s := (s.modQ q (fun r => { r with cmds := r.cmds ++ [c], outstanding := r.outstanding + 1 })).setQ q 31 16 ((s.sqHead q + 1) % s.qSize q)
      let s := (s.moveSlots P.qeFree P.qeStarted 1).syncQ q
      let s := if bad ≠ 0 ∧ c.phase = 1 then s.fail (cmdKey q c.idx) bad else s
      s.takeEntries q bs

/-- The entries one grant may fetch from queue q (R235). -/
def State.fetchCount (s : State) (q : Nat) : Nat :=
  let r := s.qr q
  Nat.min (Nat.min 8 (ringDist (s.qSize q) (s.sqHead q) r.tail)) (Nat.min (32 - r.cmds.length) (s.qSize q - 1 - r.outstanding))

/-- The first tag of an LD function that is neither outstanding nor in quarantine (R266). -/
def State.ldTag (s : State) (key : Nat) : Nat :=
  let l := s.ld key
  ((List.range (l.reads.length + l.tags.length + 1)).find? (fun t => Tab.get t l.reads == 0 && decide (Tab.get t l.tags ≤ s.now))).getD 0

/-- A path's read of host memory leaves the device with the queue's class (R222, R237, R266, R276). -/
def State.hostRead (s : State) (q tok addr n : Nat) : State :=
  if s.qLdPath q then
    let key := ldKey (s.qPort q)
    let t := s.ldTag key
    if !(s.ld key).bme then s
    else (s.modLd key (fun l => { l with reads := Tab.set t (tok + 1) l.reads })).send (s.qPort q / 16) 3 (.hostRead (s.qPort q + 1) t addr n (s.qClass q) 0)
  else s.svcPut { who := 1, read := true, addr := addr, len := n, data := [], bad := [], tok := tok, since := 0, cls := s.qClass q }

/-- A path's posted write to host memory leaves the device, some of its lines poisoned (R237). -/
def State.hostWrite (s : State) (q who addr : Nat) (d : List Byte) (bad : List Nat) : State :=
  if s.qLdPath q then s.send (s.qPort q / 16) 3 (.hostWrite (s.qPort q + 1) addr d bad (s.qClass q) 0)
  else s.svcPut { who := who, read := false, addr := addr, len := d.length, data := d, bad := bad, tok := 0, since := 0, cls := s.qClass q }

/-- A fetch of queue q, with what the ring read returns. Entries do not wrap within a grant. -/
def State.fetchQueue (s : State) (q : Nat) (host : HostData) (ph : Phys) : State :=
  let h := s.sqHead q
  let n := Nat.min (s.fetchCount q) (s.qSize q - h)
  let at_ := s.par (P.qSqBase q) + 64 * h
  if fld (s.par (P.qCfg q)) 16 16 = 1 then
    if !s.ringOk (s.par (P.qSqBase q)) (64 * s.qSize q) (s.qHid q) rR then s.haltQueue q 0x11
    else
      match s.ringRead at_ ph (s.qHid q) n with
      | (some d, s) => s.takeEntries q (chunks 64 n d)
      | (none, s) => s.haltQueue q 0x11
  else
    let s := s.hostRead q q at_ (64 * n)
    match host with
    | .data d => s.takeEntries q (chunks 64 n (padTo (64 * n) d))
    | _ => s.haltQueue q 0x11

/-- QUEUE_FETCH (R235): one grant of the fetch arbiter. -/
def execQueueFetch (host : HostData) (ph : Phys) (s : State) : R :=
  .next (match s.grantQueue with
    | none => s
    | some q =>
      let s := { s with queues := { s.queues with groupPtr := (q / 64 + 1) % 512, queuePtr := Tab.set (q / 64) ((q % 64 + 1) % 64) s.queues.queuePtr } }
      s.fetchQueue q host ph)

/-- FENCE_START (R236): a command waiting on FENCE starts once every earlier command has completed. -/
def execFenceStart (queue : Fin 32768) (s : State) : R :=
  let q := queue.val
  .next (match (s.qr q).cmds with
    | c :: _ =>
      if c.phase = 0 then
        let s := s.modCmd (cmdKey q c.idx) (fun c => { c with phase := 1 })
        if entryCheck c (s.qPriv q) ≠ 0 then s.fail (cmdKey q c.idx) (entryCheck c (s.qPriv q)) else s
      else s
    | [] => s)

/-! Completing (R232, R239). -/

/-- The 16 B of a completion (R232). -/
def complBytes (phase : Bool) (q head : Nat) (c : Cmd) : List Byte :=
  leBytes 8 c.result ++ leBytes 8 ((if phase then 2 ^ 63 else 0) + c.flags * 2 ^ 59 + c.status * 2 ^ 48 + head * 2 ^ 32 + c.cid * 2 ^ 16 + q)

/-- Moderate the interrupt of a posted completion (R239). -/
def State.signal (s : State) (q : Nat) (c : Cmd) : State :=
  let n := (s.qr q).unsig + 1
  let s := s.modQ q (fun r => { r with unsig := n, unsigAt := if r.unsig = 0 then s.now else r.unsigAt })
  let cnt := fld (s.par (P.qCfg q)) 55 48
  if cnt ≤ n || (c.status != 0 && c.status != 0x08) || c.flagBits.testBit 0 then s.raiseQ q else s

/-- A free completion slot (R232). -/
def State.cqFree (s : State) (q : Nat) : Bool := decide (ringDist (s.qSize q) (s.qr q).head (s.cqTail q) < s.qSize q - 1)

/-- Post one completion: held ones first, then the oldest finished command (R232, R240). -/
def State.post (s : State) (q : Nat) (ph : Phys) : State :=
  let r := s.qr q
  let pick : Option (Cmd × Bool) := match r.held with
    | c :: _ => some (c, true)
    | [] => (r.cmds.find? (fun c => c.phase == 3)).map (fun c => (c, false))
  match pick with
  | none => s
  | some (c, wasHeld) =>
    if s.qMode q ≠ 1 || !s.cqFree q || (fld (s.par (P.qCfg q)) 17 17 == 0 && !s.qReach q) then s
    else
      let t := s.cqTail q
      let at_ := s.par (P.qCqBase q) + 16 * t
      let d := complBytes r.phase q (s.sqHead q) c
      let dev := fld (s.par (P.qCfg q)) 17 17 == 1
      let (ok, s) := if dev then
          (if s.ringOk (s.par (P.qCqBase q)) (16 * s.qSize q) (s.qHid q) rW then s.ringWrite at_ d ph (s.qHid q) else (false, s))
        else (true, s.hostWrite q 0 at_ d [])
      if !ok then s.haltQueue q 0x11
      else
        let s := s.modQ q (fun r => { r with
          cmds := if wasHeld then r.cmds else r.cmds.filter (fun x => x.idx != c.idx)
          held := if wasHeld then r.held.drop 1 else r.held
          phase := if t + 1 = s.qSize q then !r.phase else r.phase })
        let s := s.moveSlots (if wasHeld then P.qeHeld else P.qeStarted) P.qeFree 1
        ((s.setQ q 47 32 ((t + 1) % s.qSize q)).syncQ q).signal q c

/-- COMPLETION_POST (R232). -/
def execCompletionPost (queue : Fin 32768) (ph : Phys) (s : State) : R := .next (s.post queue ph)

/-- COALESCE_TIMEOUT (R239). -/
def execCoalesceTimeout (queue : Fin 32768) (s : State) : R :=
  let q := queue.val
  let t := fld (s.par (P.qCfg q)) 63 56
  .next (if (s.qr q).unsig ≠ 0 ∧ t ≠ 0 ∧ (s.qr q).unsigAt + usT t ≤ s.now then s.raiseQ q else s)

/-- The bits of a vector after a write of its mask bit: a pending bit stays while the vector is masked. -/
def msixBits (m : Nat) (mask : Bool) : Nat := if mask then m / 2 * 2 else 1

/-- MSIX_VECTOR_UNMASK (R238, R274): a write of an MSI-X vector's table entry, its message's address and data and its mask bit; when that
clears the mask bit, a message held as pending is sent. -/
def execMsixVectorUnmask (via : Option (Fin 512)) (entry : MsixEntry) (s : State) : R :=
  let v := entry.vector.val
  let mask := entry.mask
  let msg := entry.addr % 2 ^ 64 + 2 ^ 64 * (entry.data % 2 ^ 32)
  .next (match via with
    | none =>
      if !s.barOn then s.aerUr
      else
        let m := Tab.get v s.svc.msix
        let s := { s with svc := { s.svc with msix := Tab.set v (msixBits m mask) s.svc.msix, msixMsg := Tab.set v msg s.svc.msixMsg } }
        if m / 2 = 1 && !mask then s.msixSvc v else s
    | some p =>
      if 128 ≤ v then s
      else
        let k := ldKey p.val
        let m := Tab.get v (s.ld k).msix
        let s := s.modLd k (fun l => { l with msix := Tab.set v (msixBits m mask) l.msix, msixMsg := Tab.set v msg l.msixMsg })
        if m / 2 = 1 && !mask then s.msixLd p.val v else s)

end Sys2Proof.Machine
end

