-- ==== Sys2Proof/Machine/Factor.lean ====
section
/-! DEFINITION. Reading factored tensors: component fetches, exact multiply-out, failures, invalidation, waypoints (R92-R123,
R126-R134). -/
namespace Sys2Proof.Machine

/-- No physical error. -/
def noPhys : Phys := { ce := [], ue := [], mapPri := [], mapMir := [] }

/-- No error, no host. -/
def noEnv : Env := { ph := noPhys, host := .failed, slots := [] }

/-- Width in bits of the elements of an area's factor stream (R103). -/
def TDesc.areaWb (t : TDesc) (area : Nat) : Nat := if area = 2 ∨ area = 4 then 8 * t.wMan else 8 * t.wOut

/-- Compute block cb takes no reconstruction: in an engine reset or the search after it, on either side (R375, R377), or in a dice
round (R354). -/
def State.blkAway (s : State) (cb : Nat) : Bool :=
  s.recov.eng.any (fun p => p.1 == unitBlk cb || (p.2.searching && p.2.replay == cb)) || s.integ.dice.any (fun p => p.2.blk == cb || p.2.partner == cb)

/-- The compute block (region * 16 + block) that tile column h of region q selects (R114). -/
def State.pipeHome (s : State) (q h : Nat) : Nat :=
  let l := s.activeBlocks q
  q * 16 + (l[h % l.length]?).getD 0

/-- The compute block that reconstructs tile column h in region q: the one selected, or the next active one that is not away (R354, R375). -/
def State.pipeOf (s : State) (q h : Nat) : Nat :=
  let l := s.activeBlocks q
  let at_ := fun (i : Nat) => q * 16 + (l[(h + i) % l.length]?).getD 0
  match (List.range l.length).find? (fun i => !s.blkAway (at_ i)) with
  | some i => at_ i
  | none => s.pipeHome q h

/-! What a view is called in a queued read (R202, R207). -/

/-- The code of the view a read was accepted under: 0 the block map, 1 its HID's open version, 2 + v version v. -/
def View.code : View → Nat
  | .ver _ v => v + 2
  | .opened _ _ => 1
  | _ => 0

/-- The committed shared region that holds a DPA (R197). -/
def State.srAt (s : State) (dpa : Nat) : Option Nat :=
  s.srsOn.find? (fun n => within dpa 1 (s.par (P.srBase n)) (s.par (P.srSize n)))

/-- The view a HID's read was accepted under, from its code; the block map where its region is gone. -/
def State.viewOfCode (s : State) (hid dpa : Nat) : Nat → View
  | 0 => .main
  | 1 => match s.srAt dpa with | some n => .opened n hid | none => .main
  | v + 2 => match s.srAt dpa with | some n => .ver n v | none => .main

/-! Panel caches (R114). -/

/-- A compute block's panel cache gains a component block, least recently used first out. -/
def State.panelUse (s : State) (cb b : Nat) : State :=
  s.modFac (fun f => { f with panels := Tab.set cb ((b :: (Tab.get cb f.panels).filter (· ≠ b)).take (s.par P.facPanelCache / 4096)) f.panels })

/-- Lines of a block laid over zeros. -/
def layLines (is : List Nat) (ls : List (List Byte)) : List Byte := (is.zip ls).foldl (fun d p => splice (64 * p.1) p.2 d) (zeros 4096)

/-- Lines `is` of a component block as its home hub gives them to a reconstruction (R25, R31, R106, R108): with what is accepted for the
block and not yet stored; none where the block is POISON or fails, where its slot does not answer, or where one of the lines is marked. No
line is fetched where none is needed (R93). -/
def State.compBlock (s : State) (v : View) (b wb : Nat) (is : List Nat) (env : Env) : Option (List Byte) × State :=
  let key := gatherKey v b
  let done := fun (c : List Byte × List Nat) =>
    let (d, bad) := s.withPending key c
    if is.any bad.contains then none else some d
  if (Tab.find? key s.mem.packJobs).isSome then (done (zeros 4096, []), s)
  else
    let (w, s) := s.readEntry v b env.ph none 0xFF
    let e := entryOf w
    if e.state = stPoison then (none, s)
    else if is.isEmpty then (some (zeros 4096), s)
    else if e.state = stDetour ∧ e.fieldsOk (s.placeKind b) ∧ s.spanOk b e then
      match s.slotData b e.addr env with
      | none => (none, s.count P.detTimeout 1)
      | some none => (none, s.detourBad b none 0xFF)
      | some (some d) => (done (d, []), s)
    else
      match s.readLinesAt v b e is wb env.ph none 0xFF with
      | (some (ls, marks), s) => (done (layLines is ls, marks), s)
      | (none, s) => (none, s)

/-- The panel cache of compute block `cb` holds component block b of a view. -/
def State.panelHas (s : State) (v : View) (cb : Option Nat) (b : Nat) : Bool :=
  match cb with
  | some c => v == .main && (Tab.get c s.fac.panels).contains b
  | none => false

/-- Component blocks one after the other, each with the lines needed of it; those in the panel cache need no fetch. -/
def State.compRun (s : State) (v : View) (wb : Nat) (cb : Option Nat) (env : Env) : List (Nat × List Nat) → Option (List Byte) × State
  | [] => (some [], s)
  | (b, is) :: rest =>
    match (if s.panelHas v cb b then (some (s.withPending (gatherKey v b) (s.peekAt v b wb, [])).1, s) else s.compBlock v b wb is env) with
    | (none, s) => (none, s)
    | (some d, s) =>
      let keep := !is.isEmpty && v == .main && (entryOf (s.wordIn v b)).state != stDetour
      let s := match cb with | some c => if keep then s.panelUse c b else s | none => s
      match s.compRun v wb cb env rest with
      | (some ds, s) => (some (d ++ ds), s)
      | (none, s) => (none, s)

/-- A failure of R106 on a tile: counted, reported; no POISON commit on the tensor view. -/
def State.factorFail (s : State) (win d tile code b : Nat) (port : Option Nat) (hid : Nat) : State :=
  let s := (s.count P.bicelFailCount 1).setPar P.bicelLastFail (code * 2 ^ 56 + b * 4096)
  let base := s.par (P.winBase win)
  s.eventOn port (b * 4096)
    { cause := 2, detail := code, trans := 1, region := (s.home base).getD 0, hid := hid, lossy := s.lossyOf d,
      object := d, extra := tile, dpa := b * 4096 + 1 }

/-- Elements delivered from the overflow branch (R133): a notice at most once a second for each descriptor, the second counted from its
last notice. DESIGN CHOICE (log 118). -/
def State.noteOverflow (s : State) (d tile n : Nat) : State :=
  if n = 0 then s
  else
    let s := (s.count P.arOverflowCount n).setPar P.arOverflowLast (d * 2 ^ 32 + tile)
    if s.par P.arOverflowNotice = 1 ∧ (Tab.get d s.fac.notice = 0 ∨ Tab.get d s.fac.notice + msT 1000 ≤ s.now + 1) then
      (s.modFac (fun f => { f with notice := Tab.set d (s.now + 1) f.notice })).notice 2 [(0, cborUint d), (1, cborUint tile)]
    else s

/-- The factors a tensor-view block needs: mantissas and exponents of its rows and of its tile's columns. -/
structure Panel where
  u : List (List Int)
  v : List (List Int)
  eu : List Int
  ev : List Int
  deriving DecidableEq, Repr

/-- Signed mantissas of `rows` rows of `r` elements. -/
def mantissas (w r rows : Nat) (d : List Byte) : List (List Int) :=
  (chunks r rows ((elems w (r * rows) d).map (signed (8 * w))))

/-- Lines of block k of an area of rows of `r` elements of `w` bytes that hold one of the first `rank` elements of the rows from r0 to
r0 + 63 (R93). -/
def usedLines (w r rank r0 k : Nat) : List Nat :=
  (List.range 64).filter (fun i => (List.range (64 / w)).any (fun j =>
    let x := (4096 * k + 64 * i) / w + j
    decide (r0 ≤ x / r ∧ x / r < r0 + 64 ∧ x % r < rank)))

/-- The blocks from `b0` that hold the rows from r0 to r0 + 63 of such an area, each with its lines that are needed (R93, R122). -/
def usedBlocks (b0 w r rank r0 : Nat) : List (Nat × List Nat) :=
  let k := r0 * r * w / 4096
  (List.range (((r0 + 64) * r * w - 1) / 4096 + 1 - k)).map (fun i => (b0 + k + i, usedLines w r rank r0 (k + i)))

/-- The bytes of a tile's rows of U, columns of V and their exponents, at its rank (R93, R98, R108). Where a pipeline waits for a fetch of
one of them, its halt counts under PANEL (R121). -/
def State.panelBytes (s : State) (v : View) (b0 : Nat) (t : TDesc) (rank r0 c0 : Nat) (cb : Option Nat) (env : Env) :
    Option (List Byte × List Byte × List Byte × List Byte) × State :=
  let w := t.wMan
  let us := usedBlocks (b0 + t.uMan) w t.rankMax rank r0
  let vs := usedBlocks (b0 + t.vMan) w t.rankMax rank c0
  let ues := usedBlocks (b0 + t.uExp) 1 1 1 r0
  let ves := usedBlocks (b0 + t.vExp) 1 1 1 c0
  let n := 64 * t.rankMax * w
  let s := if cb.isSome && (us ++ vs ++ ues ++ ves).any (fun p => !p.2.isEmpty && !s.panelHas v cb p.1) then s.count P.facStallPanel 1 else s
  match s.compRun v (8 * w) cb env us with
  | (none, s) => (none, s)
  | (some um, s) =>
    match s.compRun v (8 * w) cb env vs with
    | (none, s) => (none, s)
    | (some vm, s) =>
      match s.compRun v 0 cb env ues with
      | (none, s) => (none, s)
      | (some ue, s) =>
        match s.compRun v 0 cb env ves with
        | (none, s) => (none, s)
        | (some ve, s) =>
          (some (cut (r0 * t.rankMax * w % 4096) n um, cut (c0 * t.rankMax * w % 4096) n vm, cut (r0 % 4096) 64 ue, cut (c0 % 4096) 64 ve), s)

/-- The panel that those bytes are. -/
def TDesc.panelOf (t : TDesc) (x : List Byte × List Byte × List Byte × List Byte) : Panel :=
  { u := mantissas t.wMan t.rankMax 64 x.1, v := mantissas t.wMan t.rankMax 64 x.2.1
    eu := x.2.2.1.map (fun y => signed 8 y.toNat), ev := x.2.2.2.map (fun y => signed 8 y.toNat) }

/-- The panel of a tile at its rank. -/
def State.panel (s : State) (v : View) (b0 : Nat) (t : TDesc) (rank r0 c0 : Nat) (cb : Option Nat) (env : Env) : Option Panel × State :=
  let (x, s) := s.panelBytes v b0 t rank r0 c0 cb env
  (x.map t.panelOf, s)

/-- A tile without factors to read. -/
def zeroPanel (nr nc : Nat) : Panel :=
  { u := List.replicate nr [], v := List.replicate nc [], eu := List.replicate nr 0, ev := List.replicate nc 0 }

/-- The product sums and exponents of a block's elements, row by row (R93, R126, R129). -/
def TDesc.products (t : TDesc) (p : Panel) (rank : Nat) : List (Int × Int) :=
  (List.zipWith (fun u eu => List.zipWith (fun v ev => (dotSum u v rank, eu + ev + t.shift)) p.v p.ev) p.u p.eu).flatten

/-- The delivered elements of a block from products and residuals (R134). -/
def TDesc.deliverAll (t : TDesc) (r : TileRec) (ps : List (Int × Int)) (ds : List Nat) : List (Nat × Bool) :=
  List.zipWith (fun p d => deliver (fmtOf t.fmt) t.pol p.1 p.2 r.code r.eps d) ps ds

/-- The tile record of tile i (R98). -/
def State.tileRecord (s : State) (v : View) (b0 : Nat) (t : TDesc) (i : Nat) (env : Env) : Option TileRec × State :=
  match s.compBlock v (b0 + t.tab + 8 * i / 4096) 0 [8 * i % 4096 / 64] env with
  | (some d, s) => (some (t.record (ofLe (cut (8 * i % 4096) 8 d))), s)
  | (none, s) => (none, s)

/-- The residual of tensor-view block i of window `win`, with what is accepted for it and not yet stored, and its poisoned lines; none
where the block is POISON (R99, R102, R105). -/
def State.residual (s : State) (v : View) (win i : Nat) (env : Env) (port : Option Nat) (hid : Nat) : Option (List Byte × List Nat) × State :=
  let t := s.winDesc win
  let b0 := s.par (P.winBase win) / 4096
  let key := gatherKey v (b0 + t.res + i)
  let own := t.fidelity != 2 && s.par (P.winKind win) == wFactor
  if own && (Tab.find? key s.mem.packJobs).isSome then (some (s.withPending key (zeros 4096, [])), s)
  else
    match s.readBlock v (b0 + i) (8 * t.wOut) env.ph port hid with
    | (some c, s) => (some (if own then s.withPending key c else c), s)
    | (none, s) => (none, s)

/-- The pipeline's matrix engine halts for a full product buffer while it reconstructs a block whose tile has record r (R115-R117, R121):
the products of a block come faster than its expander gives residuals, by more than the 16 lines of the buffer. DEDUCED (log 89). -/
def TDesc.expanderHalts (t : TDesc) (r : TileRec) (e : MapEntry) : Bool :=
  let mac := if r.rank = 0 then 64 * t.wOut else if t.int8 then cdiv r.rank 2 else r.rank
  let exp := if r.code = 2 ∨ e.codec = cZero ∨ e.state = stUnwritten then 64 else if e.codec = cRaw then 128 else Nat.max 128 (16 * e.len)
  decide (4 * mac < 3 * exp * t.wOut)

/-- Block i of a tile from its record, its panel and its residual (R93, R134). -/
def TDesc.built (t : TDesc) (r : TileRec) (p : Panel) (i : Nat) (res : List Byte) (marks : List Nat) : Built :=
  let rows := 64 / t.wOut
  let k := i % t.wOut * rows
  let out := t.deliverAll r (t.products { p with u := (p.u.drop k).take rows, eu := (p.eu.drop k).take rows } r.rank) (elems t.wOut (4096 / t.wOut) res)
  { data := (out.map (fun x => leBytes t.wOut x.1)).flatten, bad := marks
    ovf := (chunks (64 / t.wOut) 64 out).map (fun l => (l.filter Prod.snd).length) }

/-- Lines of a reconstructed block are delivered: their elements from the overflow branch count, but for a line that reads poison (R133). -/
def State.delivered (s : State) (win : Nat) (i : Nat) (x : Built) (lines : List Nat) : State :=
  s.noteOverflow (s.par (P.winDescriptor win)) (i / (s.winDesc win).wOut) (((lines.filter (fun l => !x.bad.contains l)).map (fun l => x.ovf.getD l 0)).sum)

/-- Line l of a reconstructed block, or poison. -/
def Built.line (x : Built) (l : Nat) : Option (List Byte) := if x.bad.contains l then none else some (cut (64 * l) 64 x.data)

/-- Reconstruct tensor-view block i of window `win` (R93, R102, R106, R114), or none when all of it reads poison. A source that its tile
needs and that fails, fails every block of the tile (R106, R122). -/
def State.reconBlock (s : State) (v : View) (win i : Nat) (env : Env) (cb : Option Nat) (port : Option Nat) (hid : Nat) : Option Built × State :=
  let d := s.par (P.winDescriptor win)
  let t := s.desc d
  let b0 := s.par (P.winBase win) / 4096
  let tile := i / t.wOut
  let es := (List.range t.wOut).map (fun j => entryOf (s.wordIn v (b0 + tile * t.wOut + j)))
  let fail := fun (s : State) (code : Nat) => ((none : Option Built), s.factorFail win d tile code (b0 + i) port hid)
  if s.recov.hung.contains (d * 2 ^ 28 + tile) then fail s fHungTile
  else
    match s.tileRecord v b0 t tile env with
    | (none, s) => fail s fFactorSource
    | (some r, s) =>
      if r.bad || (r.code == 2 && es.any (fun e => e.state == stFactor && e.codec != cZero)) then fail s fTileRecord
      else
        match (if r.rank = 0 then (some (zeroPanel 64 64), s) else s.panel v b0 t r.rank (64 * (tile / t.cols)) (64 * (tile % t.cols)) cb env) with
        | (none, s) => fail s fFactorSource
        | (some p, s) =>
          match s.residual v win i env port hid with
          | (none, s) => (none, s)
          | (some (res, marks), s) =>
            let s := if cb.isSome && t.expanderHalts r (es.getD (i % t.wOut) default) then s.count P.facStallExpander 1 else s
            (some (t.built r p i res marks), s)

/-! Waypoints (R118-R120). -/

/-- Blocks of [a, a+n) homed in position r of k (R46). -/
def homedCount (a n k r : Nat) : Nat := (a + n + k - 1 - r) / k - (a + k - 1 - r) / k

/-- Staging bytes an armed T0 waypoint charges to region q. -/
def State.wpCharge (s : State) (u q : Nat) : Nat :=
  match s.winOfDesc (s.wpDesc u) with
  | none => 0
  | some w =>
    let p := s.par (P.winPartition w)
    let rs := setRegions (s.par (P.partStackSet p))
    let wo := (s.desc (s.wpDesc u)).wOut
    let a := (s.par (P.winBase w) - s.par (P.partBase p)) / 4096 + s.wpFirst u * wo
    match rs.findIdx? (· == q) with
    | some r => 4096 * homedCount a (s.wpCount u * wo) rs.length r
    | none => 0

/-! The T0 cache's room (R162). -/

/-- The region whose staging holds tile z of reduction n (R187). -/
def redRegion (n z : Nat) : Nat := (n + z) % 4

/-- Slots in use in region q: open tiles, and rounded tiles that wait to be taken (R189). -/
def State.redUsed (s : State) (q : Nat) : Nat :=
  (s.reds.map (fun p => ((Tab.keys p.2.tiles ++ Tab.keys p.2.results).filter (fun z => redRegion p.1 z == q)).length)).sum

/-- The parcel counter of a DPA (R160). -/
def State.parcel (s : State) (dpa : Nat) : Nat := Tab.get (dpa / 65536) s.mem.parcels

/-- Staging bytes of region q left for the T0 cache (R162). -/
def State.t0Left (s : State) (q : Nat) : Nat :=
  let wps := ((s.wpsOn.filter (fun u => s.wpTier u == 0 && s.wpState u != 5 && s.wpState u != 6)).map (fun u => s.wpCharge u q)).sum
  s.stagingMib q * 2 ^ 20 - 8 * 2 ^ 20 - s.t0Charge q - wps - s.redUsed q * (2621440 + 131072)

/-- Blocks of region q with a T0 copy. -/
def State.t0Blocks (s : State) (q : Nat) : List Nat := (Tab.keys s.mem.t0cache).filter (fun b => s.home (b * 4096) == some q)

/-- The copy that makes room: of the parcel with the lowest counter, the lowest DPA first (R162). -/
def State.t0Victim (s : State) (q : Nat) : Option Nat :=
  (s.t0Blocks q).foldl (fun best b => match best with
    | none => some b
    | some x => if s.parcel (b * 4096) < s.parcel (x * 4096) then some b else some x) none

/-- Copies of region q are dropped until the others fit what its fixed uses leave (R162); the fuel is the copies held. -/
def State.t0Trim (s : State) (q : Nat) : Nat → State
  | 0 => s
  | n + 1 =>
    if decide ((s.t0Blocks q).length ≤ s.t0Left q / 4096) then s
    else match s.t0Victim q with
      | some x => (s.modMem (fun m => { m with t0cache := Tab.set x false m.t0cache })).t0Trim q n
      | none => s

/-- A fixed use of staging has grown: the T0 caches fit what is left. -/
def State.t0Fit (s : State) : State := forAll (fun q s => s.t0Trim q s.mem.t0cache.length) [0, 1, 2, 3] s

/-- A read joins the queue of the pipeline that its tile column selects, or is held at the hub while that is full (R114, R354). -/
def State.pipeJoin (s : State) (p : PipeRead) : State :=
  let w := (s.winAt (p.blk * 4096)).getD 0
  let t := s.desc (s.par (P.winDescriptor w))
  let h := (p.blk - s.par (P.winBase w) / 4096) / t.wOut % t.cols
  let q := (s.home (p.blk * 4096)).getD 0
  let cb := s.pipeOf q h
  let s := if cb = s.pipeHome q h then s else s.count P.facStallPreempt 1
  let l := Tab.get cb s.fac.pipes
  if l.any (fun x => x.blk == p.blk) || decide ((distinct (l.map PipeRead.blk)).length < 32) then
    s.modFac (fun f => { f with pipes := Tab.set cb (l ++ [p]) f.pipes })
  else s.modFac (fun f => { f with held := f.held ++ [p] })

/-- A read goes to its pipeline: one that the hub must hold counts once under QUEUE (R121). -/
def State.pipePush (s : State) (p : PipeRead) : State :=
  let s' := s.pipeJoin p
  if s'.fac.held.length = s.fac.held.length then s' else s'.count P.facStallQueue 1

/-- Reads that waited for tiles of waypoint u go to the pipelines: served from T2 (R119, R120). -/
def State.unwait (s : State) (u : Nat) (pick : PipeRead → Bool) : State :=
  let go := s.fac.wpWait.filter (fun p => p.1 == u && pick p.2)
  let s := s.modFac (fun f => { f with wpWait := f.wpWait.filter (fun p => !(p.1 == u && pick p.2)) })
  forAll (fun (p : Nat × PipeRead) s => s.pipePush p.2) go s

/-- The reason an arm is refused, or 0 (R118, R119). A reserved tier, lead 0 and tile_count 0 are refused with RANGE. DESIGN CHOICE
(log 90). -/
def State.wpRefuse (s : State) (u : Nat) : Nat :=
  match s.winOfDesc (s.wpDesc u) with
  | none => 2
  | some _ =>
    if decide (2 ≤ s.wpTier u) || fld (s.par (P.wpWord u 3)) 26 19 = 0 || s.wpCount u = 0 || decide ((s.desc (s.wpDesc u)).tiles < s.wpFirst u + s.wpCount u) then 3
    else if s.wpTier u = 0 && [0, 1, 2, 3].any (fun q =>
      s.wpCharge u q != 0 && decide (s.par P.facWpT0Limit <
        s.wpCharge u q + ((s.wpsOn.filter (fun x => x != u && s.wpTier x == 0 && s.wpState x != 5 && s.wpState x != 6)).map (fun x => s.wpCharge x q)).sum)) then 1
    else 0

/-- A waypoint's state for a committed milestone (R119): ARMED, or STAGING at or past wp_milestone − lead. -/
def State.wpDue (s : State) (u : Nat) : Bool :=
  decide (s.par (P.wpWord u 1) ≤ s.par (P.jobCommitted (s.wpJob u)) + fld (s.par (P.wpWord u 3)) 26 19)

/-- Arm a waypoint whose words are in place (R119). The arm bit reads 1 also where the arm is refused, and after RELEASED, until arm is
written 0. DESIGN CHOICE (log 91). -/
def State.wpArmNow (s : State) (u : Nat) : State :=
  let s := s.setPar (P.wpWord u 3) (setFld (s.par (P.wpWord u 3)) 47 47 1)
  let r := s.wpRefuse u
  if r ≠ 0 then s.setWp u 6 r else (if s.wpDue u then s.setWp u 2 0 else s.setWp u 1 0).t0Fit

/-- A reset runs (R373). -/
def State.resetRuns (s : State) : Bool := s.warm || !s.recov.region.isEmpty || !s.recov.eng.isEmpty

/-- Arm a waypoint, by STAGE command h - 1 or by a write; an arm that meets a reset waits for its end (R119, R373). -/
def State.wpArm (s : State) (u h : Nat) : State :=
  if s.resetRuns then (s.setPar (P.wpWord u 3) (setFld (s.par (P.wpWord u 3)) 47 47 1)).modFac (fun f => { f with armWait := f.armWait ++ [(u, h)] })
  else s.wpArmNow u

/-- Disarm a waypoint (R119): its copies released. -/
def State.wpDisarm (s : State) (u : Nat) : State :=
  (((s.setPar (P.wpWord u 3) (setFld (s.par (P.wpWord u 3)) 47 47 0)).setWp u 0 0).dropCopies u).unwait u (fun _ => true)

/-- A write of word 3 of a waypoint (R118): the arm bit arms or disarms, the state fields stay the device's. -/
def State.wpWrite (s : State) (u v : Nat) : State :=
  let was := s.wpArmed u
  let old := s.par (P.wpWord u 3)
  let v := setFld (setFld v 46 44 (fld old 46 44)) 43 40 (fld old 43 40)
  if fld v 47 47 = 1 then (if was then s else (s.setPar (P.wpWord u 3) v).wpArm u 0)
  else if was then s.wpDisarm u
  else s.setPar (P.wpWord u 3) v

/-- A WAYPOINT_MISSED record (R119, R256). -/
def State.wpMissed (s : State) (u : Nat) : State :=
  let d := s.wpDesc u
  match s.winOfDesc d with
  | none => s
  | some w =>
    let base := s.par (P.winBase w)
    s.eventAll base { cause := 8, trans := 0, region := (s.home base).getD 0, lossy := s.lossyOf d, object := d, extra := u, dpa := 0 }

/-- Job j commits milestone c, its job_committed being c (R119): its waypoints move. With lead 1 the commit of wp_milestone - 1 takes a
waypoint from ARMED through STAGING to MISSED. DESIGN CHOICE (log 92). -/
def State.wpCommit (s : State) (j c : Nat) : State :=
  forAll (fun u s =>
    if s.wpJob u ≠ j then s
    else
      let s := if s.wpState u = 1 && s.wpDue u then s.setWp u 2 0 else s
      let s := if s.wpState u = 2 && s.par (P.wpWord u 1) = c + 1 then (s.setWp u 4 0).wpMissed u else s
      if s.par (P.wpWord u 2) ≠ 0 && s.par (P.wpWord u 2) == c && [1, 2, 3, 4].contains (s.wpState u) then
        ((s.setWp u 5 0).dropCopies u).unwait u (fun _ => true)
      else s) s.wpsOn s

/-- Frames of a region counted against cap_promo_reserve (R161): T1 waypoint copies and promoted blocks. -/
def State.promoIn (s : State) (q : Nat) : Nat :=
  (s.mem.frames.filter (fun p => frameStack p.1 / 4 == q && p.2.copy)).length +
    (s.mem.promoted.filter (fun p => match s.partAt (p.1 % 2 ^ 30 * 4096) with | some n => (s.copyRegions n (p.1 % 2 ^ 30)).contains q | none => false)).length

/-- Region q admits n more frames against cap_promo_reserve (R154, R161). -/
def State.promoRoom (s : State) (q n : Nat) : Bool :=
  s.par (P.capPressure q) == 0 && decide (s.promoIn q + n ≤ s.par P.capPromoReserve * 256)

/-- Take n copy frames in region q for partition p: none when they run out. -/
def State.copyFrames (s : State) (p q : Nat) : Nat → Option (List Nat × State)
  | 0 => some ([], s)
  | n + 1 =>
    match s.newFrame p q fUsed (2 ^ 16 - 1) true with
    | none => none
    | some (k, s) => (s.copyFrames p q n).map (fun x => ((k + 1) :: x.1, x.2))

/-- Frames of a T1 copy of one tile: raw residuals and decoded mantissas (R119). -/
def TDesc.t1Frames (t : TDesc) : Nat := t.wOut + cdiv (128 * t.rankMax * t.wMan) 4096

/-- What a T0 copy of tile i holds (R119): its reconstructed blocks; nothing where one of them reads poison. -/
def State.tileBlocks (s : State) (v : View) (w : Nat) (env : Env) : List Nat → Option (List Built) × State
  | [] => (some [], s)
  | i :: is =>
    match s.reconBlock v w i env none none 0xFF with
    | (none, s) => (none, s)
    | (some x, s) =>
      match s.tileBlocks v w env is with
      | (some l, s) => (some (x :: l), s)
      | (none, s) => (none, s)

/-- The residuals of a tile, block by block. -/
def State.residuals (s : State) (v : View) (w : Nat) (env : Env) : List Nat → Option (List (List Byte × List Nat)) × State
  | [] => (some [], s)
  | i :: is =>
    match s.residual v w i env none 0xFF with
    | (none, s) => (none, s)
    | (some x, s) =>
      match s.residuals v w env is with
      | (some l, s) => (some (x :: l), s)
      | (none, s) => (none, s)

/-- What the frames of a T1 copy of tile i hold, with the lines to mark (R119): its raw residuals, then its decoded mantissas; none where
T2 does not give them. -/
def State.tileParts (s : State) (v : View) (w i : Nat) (env : Env) : Option (List (List Byte × List Nat)) × State :=
  let t := s.winDesc w
  let b0 := s.par (P.winBase w) / 4096
  match s.tileRecord v b0 t i env with
  | (none, s) => (none, s)
  | (some r, s) =>
    match s.residuals v w env ((List.range t.wOut).map (fun j => i * t.wOut + j)) with
    | (none, s) => (none, s)
    | (some ds, s) =>
      match (if r.rank = 0 then (some ([], [], [], []), s) else s.panelBytes v b0 t r.rank (64 * (i / t.cols)) (64 * (i % t.cols)) none env) with
      | (none, s) => (none, s)
      | (some x, s) =>
        let n := 64 * t.rankMax * t.wMan
        (some (ds ++ (chunks 4096 (cdiv (2 * n) 4096) (padTo n x.1 ++ padTo n x.2.1)).map (fun d => (d, []))), s)

/-- Store a copy's parts in its frames, given as frame key + 1, enciphered as blocks b, b + 1, ... at version 0 where the partition
encrypts. DESIGN CHOICE (log 93). -/
def State.putParts (s : State) (b : Nat) : List (Nat × List Byte × List Nat) → State
  | (k, p) :: l => (s.storeBytes (byteOf (frameAddr (k - 1))) (s.encBlock b 0 (padTo 4096 p.1)) p.2).putParts (b + 1) l
  | [] => s

/-- Stage tile i under waypoint u (R119, R120): false when there is no room. A tile that T2 does not give in full is resident without a
copy, and its reads are served from T2. DESIGN CHOICE (log 93). -/
def State.stageTile (s : State) (u i : Nat) (env : Env) : Bool × State :=
  match s.winOfDesc (s.wpDesc u) with
  | none => (false, s)
  | some w =>
    let key := u * 2 ^ 28 + i
    let t := s.desc (s.wpDesc u)
    let b := s.par (P.winBase w) / 4096 + i * t.wOut
    let v := s.latestView b
    let q := (s.home (b * 4096)).getD 0
    let mark := fun (s : State) (bs : List Built) (fr : List Nat) =>
      let s := s.modFac (fun f => { f with
        resident := Tab.set key true f.resident, t0tiles := Tab.set key bs f.t0tiles, t1frames := Tab.set key fr f.t1frames })
      let s := s.count P.capPromoFrames fr.length
      if (s.residentOf u).length = s.wpCount u then s.setWp u 3 0 else s
    if s.wpTier u = 0 then
      let (x, s) := s.tileBlocks v w env ((List.range t.wOut).map (fun j => i * t.wOut + j))
      (true, mark s (x.getD []) [])
    else if s.promoRoom q t.t1Frames then
      match s.tileParts v w i env with
      | (none, s) => (true, mark s [] [])
      | (some ps, s) =>
        match s.copyFrames (s.par (P.winPartition w)) q t.t1Frames with
        | some (fr, s) => (true, (mark s [] fr).putParts b (fr.zip ps))
        | none => (false, s)
    else (false, s)

/-- The exponents of the 64 rows from r0 of an exponent area. -/
def State.expBytesAt (s : State) (v : View) (b0 r0 : Nat) (env : Env) : Option (List Byte) × State :=
  let (x, s) := s.compRun v 0 none env (usedBlocks b0 1 1 1 r0)
  (x.map (cut (r0 % 4096) 64), s)

/-- The number by which a Phys names the staging line of a DPA as uncorrectable: above every HBM line (R120, R327). -/
def stagingLine (dpa : Nat) : Nat := 16 * stackLines + dpa / 64

/-- Tensor-view block i from the copy that waypoint u holds of its tile; none where the copy gives no answer for the line: it is dropped
when it meets an uncorrectable error (R119, R120). A READY waypoint that loses a copy so is STAGING again. DEDUCED (log 93). -/
def State.stagedBuilt (s : State) (u w i dpa : Nat) (env : Env) : Option Built × State :=
  let t := s.winDesc w
  let tile := i / t.wOut
  let key := u * 2 ^ 28 + tile
  let b0 := s.par (P.winBase w) / 4096
  let v := s.latestView b0
  let drop := fun (s : State) => s.loseTile u tile
  let fr := Tab.get key s.fac.t1frames
  match Tab.get key s.fac.t0tiles, fr with
  | [], [] => (none, s)
  | bs@(_ :: _), _ => if env.ph.ue.contains (stagingLine dpa) then (none, drop s) else (bs[i % t.wOut]?, s)
  | [], _ :: _ =>
    let at_ := fun (j : Nat) => byteOf (frameAddr (fr.getD j 1 - 1))
    let used := i % t.wOut :: (List.range (fr.length - t.wOut)).map (· + t.wOut)
    let (s, worst) := s.noteLines env.ph ((used.map (fun j => (List.range 64).map (fun l => at_ j / 64 + l))).flatten)
    if worst = 3 then (none, drop s)
    else
      let part := fun (j : Nat) => s.decBlock (b0 + tile * t.wOut + j) 0 (Tab.readRun 0 (at_ j) 4096 s.mem.hbm)
      let mans := ((List.range (fr.length - t.wOut)).map (fun j => part (j + t.wOut))).flatten
      let n := 64 * t.rankMax * t.wMan
      match s.tileRecord v b0 t tile env with
      | (none, s) => (none, s)
      | (some r, s) =>
        match (if r.rank = 0 then (some (zeroPanel 64 64), s) else
            match s.expBytesAt v (b0 + t.uExp) (64 * (tile / t.cols)) env with
            | (none, s) => (none, s)
            | (some ue, s) =>
              let (ve, s) := s.expBytesAt v (b0 + t.vExp) (64 * (tile % t.cols)) env
              (ve.map (fun ve => t.panelOf (cut 0 n mans, cut n n mans, ue, ve)), s)) with
        | (none, s) => (none, s)
        | (some p, s) =>
          let marks := (List.range 64).filter (fun l => Tab.get (at_ (i % t.wOut) / 64 + l) s.mem.marks)
          (some (t.built r p i (part (i % t.wOut)) marks), s)

/-- The waypoint whose range holds tile i of descriptor d, armed and not released or refused. -/
def State.wpOver (s : State) (d i : Nat) : Option Nat :=
  s.wpsOn.find? (fun u => s.wpDesc u == d && [2, 3, 4].contains (s.wpState u) && decide (s.wpFirst u ≤ i ∧ i < s.wpFirst u + s.wpCount u))

/-- The next tile to stage: the one a read waits for, otherwise the lowest not resident (R119, R120). -/
def State.nextTile (s : State) (u : Nat) : Option Nat :=
  let t := s.desc (s.wpDesc u)
  match s.winOfDesc (s.wpDesc u) with
  | none => none
  | some w =>
    let b0 := s.par (P.winBase w) / 4096
    match s.fac.wpWait.find? (fun p => p.1 == u) with
    | some p => some ((p.2.blk - b0) / t.wOut)
    | none =>
      let l := s.residentOf u
      let i := (List.range (l.length + 1)).find? (fun i => !l.contains (s.wpFirst u + i))
      match i with
      | some i => if i < s.wpCount u then some (s.wpFirst u + i) else none
      | none => none

/-- WAYPOINT_ARM_WRITE (R118). -/
def execWaypointArmWrite (waypoint : Fin 512) (value : Nat) (s : State) : R :=
  .next (s.barWrite (P.wpWord waypoint 3) value (fun s => s.wpWrite waypoint value))

/-- STAGE ARM completes (R233, R234). -/
def State.stageEnd (s : State) (u h : Nat) : State :=
  if s.wpState u = 6 then s.finish h 0x22 (fld (s.par (P.wpWord u 3)) 43 40) 0 else s.finish h 0 (s.wpState u) 0

/-- STAGE mode ARM (R118, R119): words from the command, then the arm. -/
def State.stageArm (s : State) (h : Nat) (c : Cmd) : State :=
  let u := c.d 1
  let w3 := c.d 4
  let count := fld (c.d 5) 60 32
  if s.wpArmed u then s.fail h 0x07
  else if fld w3 39 38 ≥ 2 ∨ fld w3 26 19 = 0 ∨ count = 0 ∨ 2 ^ 28 < count then s.fail h 0x02
  else
    let s := (((s.setPar (P.wpWord u 1) (c.d 2)).setPar (P.wpWord u 2) (c.d 3)).setPar (P.wpWord u 4) (c.d 5)).setPar (P.wpWord u 3) w3
    if s.resetRuns then (s.accept h).wpArm u (h + 1) else (s.wpArm u 0).stageEnd u h

/-- The arms that waited for the end of a reset are made (R373). -/
def State.armsGo (s : State) : State :=
  if s.resetRuns then s
  else
    forAll (fun (p : Nat × Nat) s =>
      let s := if s.wpArmed p.1 then s.wpArmNow p.1 else s
      if p.2 = 0 then s else s.stageEnd p.1 (p.2 - 1)) s.fac.armWait (s.modFac (fun f => { f with armWait := [] }))

/-- STAGE_ARM (R119). -/
def execStageArm (queue : Fin 32768) (idx : Fin 65536) (s : State) : R :=
  .next (s.runCmd queue idx 0x09 0 (fun h c s => s.stageArm h c))

/-- STAGE_DISARM (R119). -/
def execStageDisarm (queue : Fin 32768) (idx : Fin 65536) (s : State) : R :=
  .next (s.runCmd queue idx 0x09 1 (fun h c s => (s.wpDisarm (c.d 1)).finish h 0 0 0))

end Sys2Proof.Machine
end

