-- ==== Sys2Proof/Machine/Damage.lean ====
section
/-! DEFINITION. Jobs as others touch them: status fields, shadow frames, damage by a host write, broken checkpoint images
(R172-R177, R185, R195). -/
namespace Sys2Proof.Machine

/-- Set a field of job_status (R177). -/
def State.jobField (s : State) (j hi lo v : Nat) : State := s.setPar (P.jobStatus j) (setFld (s.par (P.jobStatus j)) hi lo v)

/-- The frames job j holds in SHADOW (R177): those of its shadow entries and its retained frames. -/
def State.jobFrames (s : State) (j : Nat) : State :=
  let r := s.job j
  let fr := r.shadow.foldl (fun acc p =>
    let e := entryOf p.2
    if e.inHbm then
      let a := frameOf e.addr :: acc
      match s.partnerOf e.addr with | some x => frameOf x :: a | none => a
    else acc) []
  s.setPar (P.jobShadowFrames j) ((distinct fr).length + r.retained.length + (r.steps.map (fun x => x.scratch.length)).sum)

/-- Release frames held whole, given as frame key + 1 (R147). -/
def State.freeHeld (s : State) (ks : List Nat) : State := forAll (fun k s => s.setFrame (k - 1) default) ks s

/-- Release what the open step of job j holds: shadow, retained and scratch frames (R147, R174). -/
def State.dropShadow (s : State) (j : Nat) : State :=
  let r := s.job j
  let s := s.modJob j (fun r => { r with shadow := [], retained := [], steps := r.steps.map (fun x => { x with scratch := [] }) })
  let s := forAll (fun (p : Nat × MapWord) s => s.release p.1 p.2) r.shadow s
  let s := s.freeHeld (r.retained ++ (r.steps.map StepRec.scratch).flatten)
  s.setPar (P.jobShadowFrames j) 0

/-- Statuses of R234 that several chapters use. -/
def stReset : Nat := 0x0A
def stStepFault : Nat := 0x29
def stCapacity : Nat := 0x06

/-- The result of a PREPARE (R233): the damage reason and the non-finite count. -/
def State.prepResult (s : State) (j : Nat) : Nat :=
  let w := s.par (P.jobStatus j)
  fld w 23 20 * 2 ^ 32 + fld w 63 32

/-- The flags of a PREPARE's completion (R232). -/
def State.prepFlags (s : State) (j : Nat) (intact : Bool) : Nat :=
  (if intact then 2 else 0) + (if fld (s.par (P.jobStatus j)) 63 32 = 2 ^ 32 - 1 then 1 else 0)

/-- Job j, with a step open, becomes DAMAGED (R173): its frames are released, its unfinished steps complete with `status`, its
waiting PREPAREs with STEP_FAULT. `dpa` is given for HOST_WRITE. -/
def State.jobDamage (s : State) (j reason status : Nat) (dpa : Option Nat) : State :=
  let m := s.jobMode j
  if m ≠ 1 ∧ m ≠ 2 ∧ !(m == 3 && reason == 3) then s
  else
    let r := s.job j
    let s := ((s.jobField j 7 0 4).jobField j 23 20 reason).jobField j 17 17 0
    let s := forAll (fun (x : StepRec) s => if x.done then s else s.fail x.cmd status) r.steps s
    let s := forAll (fun h s => s.finish h stStepFault (s.prepResult j) (s.prepFlags j false)) r.prepares s
    let s := (s.dropShadow j).modJob j (fun r => { r with steps := [], prepares := [] })
    let args := [(0, cborUint j), (1, cborUint reason)] ++ (match dpa with | some a => [(2, cborUint a)] | none => [])
    (s.raise 6).notice 6 args

/-- A job's freeze holds block b in its image (R194). -/
def Freeze.holds (f : Freeze) (b : Nat) : Bool := f.on && f.ranges.any (fun r => within (b * 4096) 4096 r.1 r.2)

/-- A write from outside the job's step is accepted for a line of block b (R176, R195): an open step with a shadow entry of
the block is damaged, a freeze whose image holds the block is broken. -/
def State.hostTouch (s : State) (b dpa : Nat) : State :=
  let js := s.jobs.filterMap (fun p => if Tab.getD 0 b p.2.shadow ≠ 0 then some p.1 else none)
  let s := forAll (fun j s => s.jobDamage j 3 stStepFault (some dpa)) js s
  { s with jobs := s.jobs.map (fun p => (p.1, if p.2.freeze.holds b then { p.2 with freeze := { p.2.freeze with broken := true } } else p.2)) }

end Sys2Proof.Machine
end

