-- ==== Sys2Proof/Machine/Reduce.lean ====
section
/-! DEFINITION. Reduction contexts: tiles, slots, contributions, the front and faults (R187-R192, R140-R142). -/
namespace Sys2Proof.Machine

/-- Change a reduction context; a context; an open tile. -/
def State.modRed (s : State) (n : Nat) (f : RedRec → RedRec) : State := { s with reds := Tab.mod n f s.reds }
def State.red (s : State) (n : Nat) : RedRec := Tab.get n s.reds
def State.redOpen (s : State) (n : Nat) : Bool := s.par (P.redState n) == 1

/-- Input element width in bytes; tiles; elements and lines of tile z (R187). -/
def RedRec.wIn (r : RedRec) : Nat := (fmtOf r.inFmt).bytes
def RedRec.wOut (r : RedRec) : Nat := (fmtOf r.outFmt).bytes
def RedRec.tileCount (r : RedRec) : Nat := cdiv r.count 65536
def RedRec.elems (r : RedRec) (z : Nat) : Nat := Nat.min 65536 (r.count - 65536 * z)
def RedRec.tileLines (r : RedRec) (z : Nat) : Nat := cdiv (r.elems z * r.wIn) 64
def RedRec.tileAt (r : RedRec) (z : Nat) : RedTile := Tab.get z r.tiles

/-- The contributing HIDs. -/
def RedRec.hids (r : RedRec) : List Nat := (List.range 256).filter (fun h => r.bitmap.testBit h)

/-- Lines HID h has contributed to an open tile. -/
def RedTile.linesOf (t : RedTile) (h : Nat) : Nat := (t.lines.filter (fun p => decide (p.1 / 8192 = h))).length

/-- HID h has completed tile z (R188). -/
def RedRec.hidDone (r : RedRec) (z h : Nat) : Bool :=
  Tab.get z r.rounded ||
  (if r.src = 0 then decide (r.perHid ≤ Tab.get h (r.tileAt z).counts) else decide (r.tileLines z ≤ (r.tileAt z).linesOf h))

/-- Tile z is complete (R188). -/
def RedRec.complete (r : RedRec) (z : Nat) : Bool := r.hids.all (r.hidDone z)

/-- Slots reserved in region q (R193). -/
def State.redSlotsIn (s : State) (q : Nat) : Nat := fld (s.par P.redSlotsActual) (8 * q + 7) (8 * q)

/-- The words of red_missing (R193): HIDs that have not completed the front tile. -/
def State.redMissing (s : State) (n : Nat) : State :=
  let r := s.red n
  let z := s.par (P.redFront n)
  let m := if r.tileCount ≤ z then 0 else (r.hids.filter (fun h => !r.hidDone z h)).foldl (fun acc h => acc + 2 ^ h) 0
  forAll (fun i s => s.setPar (P.redMissing n i) (m / 2 ^ (64 * i) % 2 ^ 64)) [0, 1, 2, 3] s

/-- The front advances past complete tiles (R189); the fuel exceeds the tiles open or rounded. -/
def State.frontFrom (s : State) (n : Nat) : Nat → State
  | 0 => s
  | k + 1 =>
    let z := s.par (P.redFront n)
    let r := s.red n
    if decide (z < r.tileCount) && r.complete z then
      ((s.setPar (P.redFront n) (z + 1)).modRed n (fun r => { r with advanced := s.now })).frontFrom n k
    else s
def State.redAdvance (s : State) (n : Nat) : State :=
  (s.frontFrom n ((s.red n).tiles.length + (s.red n).rounded.length + 1)).redMissing n

/-- Tile z is open, or opens now: within the front, with a free slot in its region (R189). -/
def State.redTileOpen (s : State) (n z : Nat) : Option State :=
  let r := s.red n
  if (Tab.find? z r.tiles).isSome then some s
  else
    let f := s.par (P.redFront n)
    let q := redRegion n z
    if f ≤ z ∧ z < f + r.depth ∧ s.redUsed q < s.redSlotsIn q then
      some (s.modRed n (fun r => { r with tiles := Tab.insert z default r.tiles })).t0Fit
    else none

/-- Some element of tile z holds 65,536 contributions: a further one is refused whole (R142). -/
def RedRec.atLimit (r : RedRec) (z : Nat) : Bool := (r.tileAt z).acc.any (fun p => decide (65536 ≤ p.2.count))

/-- Add patterns to the elements of a tile from position `i`, those whose bytes are all enabled (R141). -/
def addAll (f : Fmt) (a : Int) : Nat → List (Nat × Bool) → Tab SupAcc → Tab SupAcc
  | _, [], t => t
  | i, (x, on) :: xs, t => addAll f a (i + 1) xs (if on then Tab.mod i (SupAcc.add f a x) t else t)

/-- Change an open tile. -/
def State.modTile (s : State) (n z : Nat) (f : RedTile → RedTile) : State :=
  s.modRed n (fun r => { r with tiles := r.tiles.map (fun p => (p.1, if p.1 = z then f p.2 else p.2)) })

/-- A refused contribution (R188). -/
def State.redReject (s : State) (n : Nat) : State := s.count (P.redRejectCount n) 1

/-- The rights a request needs at a DPA (R60): R, or W, with F in a factor or factoring window. -/
def State.needAt (s : State) (dpa : Nat) (write : Bool) : Nat :=
  if write then (if (s.winAt dpa).any s.factorWin then rW + rF else rW) else rR

/-- The class tag of a port's requests at a DPA: that of the entry that grants them (R61). -/
def State.clsOf (s : State) (port dpa : Nat) (write : Bool) : Nat := (s.portGrant port dpa (s.needAt dpa write)).cls

/-- The class a request is carried as (R299): class 15 without a real-time contract goes as class 14. -/
def State.carriedAs (s : State) (port dpa : Nat) (write : Bool) : Nat :=
  let c := s.clsOf port dpa write
  let set := match s.partAt dpa with | some n => s.par (P.partStackSet n) | none => 0
  if c = 15 && !s.isRt (s.conFor port set) 15 then 14 else c

/-- The DevLoad of a response (R260): from the occupancy of the class's queue at the home hub, or Severe where the tollgate held
the request; 0 where QoS telemetry is off. -/
def State.devLoad (s : State) (port dpa : Nat) (write gated : Bool) : Nat :=
  if !(Tab.get (port / 16) s.ports.link).qos then 0
  else if gated then 3
  else
    let c := s.carriedAs port dpa write
    let n := (s.recov.held.filter (fun r => s.home r.dpa == s.home dpa && s.carriedAs r.port r.dpa r.write == c)).length * 100
    if n < 25 * Config.hubDepth then 0 else if n < 50 * Config.hubDepth then 1 else if n < 85 * Config.hubDepth then 2 else 3

/-- A request's answer: for a read its line or poison, for a write its completion; none once the link has fallen (R267). -/
def State.reply (s : State) (r : HeldReq) (d : Option (List Byte)) : State :=
  let l := s.devLoad r.port r.dpa r.write r.gated
  if r.quiet || !s.linkUp (r.port / 16) || decide (r.since < (s.link (r.port / 16)).upAt) then s
  else if r.write then s.send (r.port / 16) 0 (.memDone r.port r.dpa l)
  else match d with
    | some x => s.send (r.port / 16) 1 (.memData r.port r.dpa l false x)
    | none => s.send (r.port / 16) 1 (.memData r.port r.dpa l true (zeros 64))

/-- The CXL.mem write of a gradient window completes at its port; a write of the device's own has none. -/
def State.gradDone (s : State) (port dpa : Nat) (gated : Bool) : State :=
  if 512 ≤ port || !s.linkUp (port / 16) then s else s.send (port / 16) 0 (.memDone port dpa (s.devLoad port dpa true gated))

/-! Faults (R190). -/

/-- A count saturated at 2^21 − 1 (R233). -/
def sat21 (n : Nat) : Nat := Nat.min n (2 ^ 21 - 1)

/-- The OPEN's result and its SATURATED flag (R232, R233). -/
def RedRec.result (r : RedRec) : Nat × Nat :=
  (sat21 r.overflow * 2 ^ 42 + sat21 r.overs * 2 ^ 21 + sat21 r.inexact,
   if 2 ^ 21 - 1 < r.overflow ∨ 2 ^ 21 - 1 < r.overs ∨ 2 ^ 21 - 1 < r.inexact then 1 else 0)

/-- The time a contribution has waited, in ns (R192). -/
def State.waited (s : State) (w : RedWait) : Nat := (s.now - w.since) * 40

/-- Contributions that wait end: WINDOW writes complete with their data discarded, CONTRIBs with the status; their waits count (R192). -/
def State.endWaits (s : State) (status : Nat) : List RedWait → State
  | [] => s
  | w :: ws =>
    let s := s.count P.redWaitNs (s.waited w)
    (if w.contrib then s.finish w.cmd status w.added 0 else s.gradDone w.port w.dpa w.gated).endWaits status ws

/-- A CONTRIB stops with a status; the tiles it had added stay added, and one that waits leaves its reduction (R190, R233). -/
def State.contribStop (s : State) (h status : Nat) : State :=
  match s.reds.findSome? (fun p => (p.2.waits.find? (fun w => w.contrib && w.cmd == h)).map (fun w => (p.1, w))) with
  | some (n, w) => (s.modRed n (fun r => { r with waits := r.waits.filter (fun x => !(x.contrib && x.cmd == h)) })).endWaits status [w]
  | none => s.fail h status

/-- A job whose open step a reduction feeds (R180). -/
def State.redJobs (s : State) (n : Nat) : List Nat :=
  s.jobs.filterMap (fun p => if p.2.steps.any (fun x => x.red == n + 1 && !x.done) then some p.1 else none)

/-- A reduction faults (R190): every open tile is dropped, OPEN completes with the status, the fed job is damaged unless a
reset is the cause. `why` adds to the notice. -/
def State.redFaultBy (s : State) (n status : Nat) (why : List (Nat × List Byte)) : State :=
  if !s.redOpen n then s
  else
    let r := s.red n
    let s := s.redMissing n
    let miss := (([0, 1, 2, 3].map (fun i => leBytes 8 (s.par (P.redMissing n i)))).flatten)
    let s := s.modRed n (fun r => { r with tiles := [], results := [], waits := [] })
    let s := s.endWaits status r.waits
    let s := s.setPar (P.redState n) (if status = stReset then 2 else 0)
    let s := s.finish r.cmd status r.result.1 r.result.2
    let s := s.notice 7 ([(0, cborUint n), (1, cborUint status), (2, cborBytes miss)] ++ why)
    if status = stReset then s else forAll (fun j s => s.jobDamage j 8 stStepFault none) (s.redJobs n) s

/-- A fault whose notice names nothing more. -/
def State.redFault (s : State) (n status : Nat) : State := s.redFaultBy n status []

/-- A fault whose notice names, as R191 asks and the notice's own table does not place, the window withdrawn (key 3) or the DPA of the
block that failed its check (key 4). DESIGN CHOICE (log 94). -/
def State.redDestLost (s : State) (n : Nat) (window dpa : Option Nat) : State :=
  s.redFaultBy n 0x36 ((window.map (fun w => (3, cborUint w))).toList ++ (dpa.map (fun a => (4, cborUint a))).toList)

/-! Contributions (R188). -/

/-- The open reduction that a gradient window feeds. -/
def State.redOf (s : State) (w : Nat) : Option Nat := s.redsOn.find? (fun n => s.redOpen n && (s.red n).src == w + 1)

/-- Elements of a line with their byte enables; mask 0 enables the whole line. -/
def lineElems (wb mask : Nat) (d : List Byte) : List (Nat × Bool) :=
  let on := fun (i : Nat) => mask == 0 || (List.range wb).all (fun k => mask.testBit (i * wb + k))
  (elems wb (64 / wb) d).zip ((List.range (64 / wb)).map on)

/-- A line is added to an open tile and marked as contributed (R188). -/
def State.addLine (s : State) (n z line hid mask : Nat) (d : List Byte) : State :=
  let r := s.red n
  let per := 64 / r.wIn
  let xs := (lineElems r.wIn mask d).take (r.elems z - line * per)
  (s.modTile n z (fun t => { t with acc := addAll (fmtOf r.inFmt) r.anchor (line * per) xs t.acc,
                                    lines := Tab.set (hid * 8192 + line) true t.lines })).redAdvance n

/-- A write to a gradient window (R188, R189): byte `off` of the window, one line. `held` says that it waited already. The
write's completion at its port is part of the answer, but for one that waits. -/
def State.gradWrite (s : State) (w off hid mask : Nat) (d : List Byte) (bad : Bool) (port dpa since : Nat) (gated : Bool) : State :=
  match s.redOf w with
  | none => (s.count P.redOrphanCount 1).gradDone port dpa gated
  | some n =>
    let r := s.red n
    if bad then (s.redFault n 0x32).gradDone port dpa gated
    else if r.count * r.wIn ≤ off then (s.count P.facDropCount 1).gradDone port dpa gated
    else
      let z := off / r.wIn / 65536
      let line := off / 64 - z * (1024 * r.wIn)
      if !r.bitmap.testBit hid || Tab.get z r.rounded || Tab.get (hid * 8192 + line) (r.tileAt z).lines then
        (s.redReject n).gradDone port dpa gated
      else if r.atLimit z then ((s.redReject n).count P.arReduceLimit 1).gradDone port dpa gated
      else
        match s.redTileOpen n z with
        | some s => (s.addLine n z line hid mask d).gradDone port dpa gated
        | none => s.modRed n (fun r => { r with waits := r.waits ++
            [{ since := since, tile := z, hid := hid, contrib := false, cmd := 0, off := off, mask := mask, added := 0, left := 0,
               data := d, port := port, dpa := dpa, gated := gated }] })

/-- A whole-tile contribution is added (R188). -/
def State.addTile (s : State) (n z hid : Nat) (d : List Byte) : State :=
  let r := s.red n
  let xs := (elems r.wIn (r.elems z) d).map (fun x => (x, true))
  (s.modTile n z (fun t => { t with acc := addAll (fmtOf r.inFmt) r.anchor 0 xs t.acc,
                                    counts := Tab.mod hid (· + 1) t.counts })).redAdvance n

/-- A CONTRIB adds its tiles in order until one must wait (R189); the fuel is the number of tiles left. -/
def State.contribRun (s : State) (n : Nat) (w : RedWait) : Nat → State
  | 0 => s.finish w.cmd 0 w.added 0
  | k + 1 =>
    let r := s.red n
    let len := r.elems w.tile * r.wIn
    if r.hidDone w.tile w.hid then (s.redReject n).finish w.cmd 0x31 w.added 0
    else if r.atLimit w.tile then ((s.redReject n).count P.arReduceLimit 1).finish w.cmd 0x35 w.added 0
    else
      match s.redTileOpen n w.tile with
      | some s => (s.addTile n w.tile w.hid (w.data.take len)).contribRun n
          { w with tile := w.tile + 1, added := w.added + 1, left := k, data := w.data.drop len } k
      | none => s.modRed n (fun r => { r with waits := r.waits ++ [w] })

/-- Try again what waits in context n, oldest first. -/
def State.retryWaits (s : State) (n : Nat) : List RedWait → State
  | [] => s
  | w :: ws =>
    let s := if w.contrib then s.contribRun n w w.left
      else s.gradWrite ((s.red n).src - 1) w.off w.hid w.mask w.data false w.port w.dpa w.since w.gated
    s.retryWaits n ws

/-- Slots or fronts have moved: contributions that waited are tried again, in every context (R189). -/
def State.redRetry (s : State) : State :=
  forAll (fun n s =>
    let ws := (s.red n).waits
    if ws.isEmpty then s
    else
      let s' := (s.modRed n (fun r => { r with waits := [] })).retryWaits n ws
      let left := (s'.red n).waits
      s'.count P.redWaitNs (((ws.filter (fun w => !left.contains w)).map s.waited).sum)) s.redsOn s

/-! Rounding (R143). -/

/-- The rounded elements of an open tile, each with its delivery from the over or overflow rows and its flags. -/
def RedRec.roundTile (r : RedRec) (z : Nat) : List (Nat × Bool) :=
  (List.range (r.elems z)).map (fun i => SupAcc.final (fmtOf r.outFmt) r.pol r.anchor (Tab.get i (r.tileAt z).acc))

/-- Tile z is rounded (R143): counted, and its slot emptied. -/
def State.redRound (s : State) (n z : Nat) : List Byte × State :=
  let r := s.red n
  let out := r.roundTile z
  let accs := (r.tileAt z).acc
  let ov := (out.filter Prod.snd).length
  let inex := (accs.filter (fun p => p.2.inexact)).length
  let overs := (accs.filter (fun p => p.2.posOver || p.2.negOver)).length
  let s := ((s.count P.arOverflowCount ov).count P.arReduceInexact inex).count P.arReduceOver overs
  let s := if ov = 0 then s else s.setPar P.arOverflowLast (2 ^ 43 + n * 2 ^ 32 + z)
  ((out.map (fun x => leBytes r.wOut x.1)).flatten,
   s.modRed n (fun r => { r with tiles := Tab.erase z r.tiles, rounded := Tab.set z true r.rounded,
                                 inexact := r.inexact + inex, overs := r.overs + overs, overflow := r.overflow + ov }))

/-- The next tile to round: the lowest that is complete and open (R189). -/
def State.redNext (s : State) (n : Nat) : Option Nat := (Tab.keys (s.red n).tiles).find? (fun z => (s.red n).complete z)

/-- A reduction whose last tile has been rounded and written, or taken, ends (R187). -/
def State.redClose (s : State) (n : Nat) : State :=
  let r := s.red n
  if s.redOpen n && decide (r.tileCount ≤ r.rounded.length) && (r.dest != 0 || decide (r.tileCount ≤ r.taken)) then
    (s.setPar (P.redState n) 0).finish r.cmd 0 r.result.1 r.result.2
  else s

end Sys2Proof.Machine
end

