-- ==== Sys2Proof/Machine/Accept.lean ====
section
/-! DEFINITION. Writes at the home hub: gather buffers, the form a gathered block takes, packing and the checker, component
writes, versions that break, detour blocks (R25, R33-R35, R88-R90, R99, R102-R108, R151, R157, R165, R205, R324, R325). -/
namespace Sys2Proof.Machine

/-! Views (R202). -/

/-- HID h is declared dead in shared region n (R213). -/
def State.isDead (s : State) (n h : Nat) : Bool := (s.par (P.srDead n (h / 64))).testBit (h % 64)

/-- The view of a HID's request at a DPA (R202), or the reason it is refused: 4 NO_VERSION, 5 DEAD. Explicit-T0 and gradient
windows bypass versions (R205). -/
def State.viewFor (s : State) (hid dpa : Nat) (write : Bool) : Except Nat View :=
  match s.srAt dpa with
  | none => .ok .main
  | some n =>
    let k := match s.winAt dpa with | some w => s.par (P.winKind w) | none => 0
    if s.isDead n hid then .error 5
    else if !s.srVersioned n || k == wT0 || k == wGradient then .ok .main
    else
      match openOf (s.sr n) hid with
      | some _ => .ok (.opened n hid)
      | none =>
        if write then .error 4
        else
          let v := Tab.get hid (s.sr n).reads
          .ok (.ver n (if v = 0 then s.par (P.srLatest n) else v))

/-- The view behind a key. -/
def State.viewOfKey (s : State) (key : Nat) : View :=
  let o := key / 2 ^ 30
  if o = 0 then .main
  else match s.srAt (key % 2 ^ 30 * 4096) with | some n => .opened n (o - 1) | none => .main

/-! What a block of a window holds (R51, R98, R99). -/

/-- How a block of a window is stored. -/
inductive Store where
  /-- Ordinary data, packed where it compresses. -/
  | data
  /-- Explicit-T1: always FLAT. -/
  | flat
  /-- A mantissa block: codec and element width in bits. -/
  | man (codec wb : Nat)
  /-- A residual block: the tensor-view block whose entry it is, and the element width in bits. -/
  | resid (target wb : Nat)
  deriving DecidableEq, Repr

/-- How block b of window w is stored. -/
def State.storeOf (s : State) (w b : Nat) : Store :=
  if s.par (P.winKind w) = wT1 then .flat
  else if s.factorWin w then
    let t := s.winDesc w
    match (s.areaOf w b).1 with
    | 2 => .man cFactorU (8 * t.wMan)
    | 4 => .man cFactorV (8 * t.wMan)
    | 6 => .resid (s.par (P.winBase w) / 4096 + (s.areaOf w b).2) (8 * t.wOut)
    | _ => .data
  else .data

/-! Checkers (R34, R90). -/

/-- Blocks waiting for the checker of the compute block of a lane (R90): queues of 8. -/
def State.checkerBusy (s : State) (lane : Nat) : Bool :=
  decide (8 ≤ (s.mem.packJobs.filter (fun p => p.2.lane / 16 == lane / 16)).length)

/-- The element width of block b's factor stream in window w, or 0. -/
def State.streamWb (s : State) (w b : Nat) : Nat :=
  match s.storeOf w b with
  | .man _ wb => wb
  | .resid _ wb => wb
  | _ => if s.factorWin w then 8 * (s.winDesc w).wOut else 0

/-- The block whose entry a stored block commits. -/
def State.targetOf (s : State) (w b : Nat) : Nat := match s.storeOf w b with | .resid t _ => t | _ => b

/-! Committing (R33, R90, R102, R105). -/

/-- Blocks still dense in a factoring window (R94). -/
def State.redense (s : State) (w : Nat) : State :=
  if s.par (P.winKind w) = wFactoring then s.setPar (P.descDenseBlocks (s.par (P.winDescriptor w))) (s.denseBlocks w (s.winDesc w)) else s

/-- The port and HID of the first of a block's writes, for its records. -/
def srcPort (src : List WriteSrc) : Option Nat := (src.head?.map WriteSrc.port).bind (fun p => if p < 512 then some p else none)
def srcHid (src : List WriteSrc) : Nat := (src.head?.map WriteSrc.hid).getD 0xFF

/-- An open version becomes BROKEN (R205): the writes of the block are discarded, each recorded on the port that carried it. -/
def State.breakVersion (s : State) (n hid b : Nat) (src : List WriteSrc) : State :=
  let s := s.modSr n (fun r => { r with opens := r.opens.map (fun o => if o.hid = hid then { o with broken := true } else o) })
  forAll (fun (x : WriteSrc) s =>
    s.eventOn (if x.port < 512 then some x.port else none) (b * 4096)
      { cause := 5, trans := 2, region := (s.home (b * 4096)).getD 0, hid := hid, object := n, dpa := b * 4096 + 1 }) src s

/-- Storing a form takes a frame that would take H below cap_emergency_pool (R153, R155). -/
def State.tight (s : State) (v : View) (b : Nat) (f : Form) : Bool :=
  match s.partAt (b * 4096) with
  | some n => f.len != 0 && (s.copyRegions n b).any (fun q => s.needsFrame n q v.frameState f.len &&
      decide (s.chargeFrames n ≤ s.heldIn n q) && decide (s.headroom q ≤ (s.pool : Int)))
  | none => true

/-- The version tables of the metadata reserve hold no further entry (R150, R205). The spec gives their bytes and no size of an entry:
their number is the configuration's (log 99). -/
def State.versionsFull (s : State) : Bool :=
  decide (Config.versionEntries ≤ (s.shared.regions.map (fun p =>
    (p.2.versions.map (fun x => x.map.length)).sum + (p.2.opens.map (fun o => o.own.length)).sum)).sum)

/-- The write of an open version cannot be stored (R155, R205): for want of frames, or of an entry in the version tables. -/
def State.verShort (s : State) (v : View) (b : Nat) (f : Form) : Bool :=
  match v with
  | .opened _ _ => s.tight v b f || (s.ownWord v b == 0 && s.versionsFull)
  | _ => false

/-- desc_lowered_tiles and the lossy bit follow a write of the tile table (R94). -/
def State.relower (s : State) (w b : Nat) : State :=
  if s.factorWin w && (s.areaOf w b).1 == 5 then
    let d := s.par (P.winDescriptor w)
    (s.setPar (P.descLoweredTiles d) (s.lowTiles w)).setLossy d
  else s

/-- The open version is BROKEN. -/
def State.isBroken (s : State) (v : View) : Bool :=
  match v with
  | .opened n h => match openOf (s.sr n) h with | some o => o.broken | none => true
  | _ => false

/-- What follows a block's entry or its content: the descriptor's counts and bits (R94). -/
def State.recount (s : State) (w b : Nat) : State := ((s.redense w).descDamage w).relower w b

/-- A block in its form reaches its entry: stored, or kept out by a fence, a broken version or a detour slot that takes it
(R155-R157, R165, R205). -/
def State.settle (s : State) (v : View) (w b : Nat) (f : Form) (d : List Byte) (marks : List Nat) (src : List WriteSrc) : State :=
  let t := s.targetOf w b
  let e := entryOf (s.wordIn v t)
  let s' :=
    if s.isBroken v then s
    else if s.verShort v t f then
      match v with | .opened n h => s.breakVersion n h t src | _ => s
    else if e.state = stDetour ∧ v = .main ∧ marks.isEmpty then
      match s.partAt (t * 4096) with
      | none => s
      | some n =>
        if s.formNeeds v n t f && (s.par (P.partFence n) == 1 || (s.policyRegion n t).isSome) && s.detActive
        then s.toDetour w t d src else s.land v w t f marks src
    else s.land v w t f marks src
  s'.recount w b

/-- Block data that could not be packed: FLAT, or RAW for PINNED windows and factor streams (R76, R102, R105). -/
def State.unpacked (s : State) (w b : Nat) (d : List Byte) : Form :=
  match s.storeOf w b with
  | .data => flatForm d
  | .flat => flatForm d
  | _ => { rawForm d with state := stFactor }

/-- The coded form the encoder gives a whole block without marks, its checker still ahead; none when it does not compress. -/
def State.coded (s : State) (w b : Nat) (d : List Byte) : Option Form :=
  match s.storeOf w b with
  | .data => s.encodeChoice d
  | .flat => none
  | .man c wb =>
    let x := riceBlock c wb d
    let n := cdiv x.length 256
    if 1 ≤ n ∧ n + s.par P.bicelMinSaving ≤ 16 then some { state := stFactor, codec := c, bytes := padTo (256 * n) x } else none
  | .resid _ wb =>
    if allZero d then some { state := stFactor, codec := cZero, bytes := [] }
    else
      let x := riceBlock cResidual wb d
      let n := cdiv x.length 256
      if 1 ≤ n ∧ n + s.par P.bicelMinSaving ≤ 16 then some { state := stFactor, codec := cResidual, bytes := padTo (256 * n) x } else none

/-- What the checker finds in a coded form (R90): nothing, a failure of R87 with its code, or another block (0). -/
def Form.fault (f : Form) (wb : Nat) (d : List Byte) : Option Nat :=
  match decodeBlock f.codec wb f.len f.bytes with
  | .ok x => if x = padTo 4096 d then none else some 0
  | .error c => some c

/-- A checker's failure counts, against the encoding lane too (R34, R88, R90). No sectors and no read belong to it: bicel_last_fail names
stack 0, and no event record is raised. DESIGN CHOICE (log 95). -/
def State.checkFail (s : State) (b lane code : Nat) : State :=
  let k := P.laneRec (lane / 256) (lane / 16 % 16) (lane % 16)
  let r := s.par k
  let s := (s.count P.bicelCheckerMismatch 1).setPar k (setFld r 15 0 (Nat.min (fld r 15 0 + 1) 65535))
  if code = 0 then s else s.bicelFail b { ver := 0, keySlot := 0, addr := 0, len := 0, codec := 0, state := 0, check := 0 } code 0

/-- A packed form passes a codec lane of its home region and the checker of that lane's block at once, as the engines and the movers store
(R18, R34, R84, R90): the form where it checks. Where no lane works it is not packed, and counts as for a full checker queue. DESIGN CHOICE
(log 96). -/
def State.laneForm (s : State) (w b : Nat) (f : Form) (d : List Byte) : Option Form × State :=
  if f.len = 0 || f.codec = cRaw then (some f, s)
  else
    match s.pickLane ((s.home (b * 4096)).getD 0) 1 with
    | none => (none, s.count P.bicelCheckerBusy 1)
    | some (lane, s) =>
      if s.checkerBusy lane then (none, s.count P.bicelCheckerBusy 1)
      else
        match f.fault (s.streamWb w b) d with
        | none => (some f, s)
        | some c => (none, s.checkFail b lane c)

/-- A block without marks in the form it takes in HBM: packed where it compresses and checks, otherwise FLAT or RAW (R76, R102). -/
def State.homeForm (s : State) (w b : Nat) (d : List Byte) : Form × State :=
  match s.coded w b d with
  | some f => let (x, s) := s.laneForm w b f d; (x.getD (s.unpacked w b d), s)
  | none => (if s.storeOf w b = .data ∧ s.pinned w then rawForm d else s.unpacked w b d, s)

/-- A count that a commit brings, where block t of the view has a new entry of the state (R77). -/
def State.countStored (old s : State) (v : View) (t st key : Nat) : State :=
  if s.wordIn v t ≠ old.wordIn v t ∧ (entryOf (s.wordIn v t)).state = st then s.count key 1 else s

/-- A whole block is stored (R33, R75, R76, R90, R105, R151): zero at once, packed through a lane and its checker, or unpacked. An all-zero
block commits ZERO (R151) also while bicel_codec_enable[0] is 0. DESIGN CHOICE (log 97). Without a working lane it is stored unpacked and
counted as for a full checker queue. DESIGN CHOICE (log 96). -/
def State.storeFull (s : State) (v : View) (w b : Nat) (d : List Byte) (marks : List Nat) (src : List WriteSrc) : State :=
  let plain := s.unpacked w b d
  let busy := fun (s : State) =>
    let t := s.settle v w b plain d [] src
    State.countStored s t v (s.targetOf w b) plain.state P.bicelCheckerBusy
  if !marks.isEmpty then s.settle v w b plain d marks src
  else if s.storeOf w b = .flat then s.settle v w b plain d [] src
  else if allZero d && s.storeOf w b == .data then s.settle v w b zeroForm d [] src
  else
    match s.coded w b d with
    | none =>
      if s.storeOf w b = .data then
        if s.pinned w then State.countStored s (s.settle v w b (rawForm d) d [] src) v b stPacked P.bicelRawCount
        else State.countStored s (s.settle v w b plain d [] src) v b stFlat P.bicelFlatNocompress
      else s.settle v w b plain d [] src
    | some f =>
      if f.len = 0 then s.settle v w b f d [] src
      else
        match s.pickLane ((s.home (b * 4096)).getD 0) 1 with
        | none => busy s
        | some (lane, s) =>
          if s.checkerBusy lane then busy s
          else
            let j : PackJob := { orig := d, codec := f.codec, coded := f.bytes, state := f.state, lane := lane, win := w,
                                 fenced := src.any WriteSrc.fenced, port := (srcPort src).getD 512, hid := srcHid src, src := src }
            s.modMem (fun m => { m with packJobs := Tab.set (gatherKey v b) j m.packJobs })

/-- The checker's verdict on a packed block (R34, R90): committed on a match, otherwise stored unpacked and counted against the
checker and the encoding lane. A block that waits for a flushing read is none of the checker's. -/
def State.packEnd (s : State) (key : Nat) (ok : Bool) : State :=
  match Tab.find? key s.mem.packJobs with
  | none => s
  | some j =>
    if j.slot ≠ 0 then s
    else
      let s := s.modMem (fun m => { m with packJobs := Tab.erase key m.packJobs })
      let b := key % 2 ^ 30
      let v := s.viewOfKey key
      let f : Form := { state := j.state, codec := j.codec, bytes := j.coded }
      match (if ok then f.fault (s.streamWb j.win b) j.orig else some 0) with
      | none => s.settle v j.win b f j.orig [] j.src
      | some c => (s.checkFail b j.lane c).settle v j.win b (s.unpacked j.win b j.orig) j.orig [] j.src

/-! Gathering (R33). -/

/-- The stored content of a block through a view, a DETOUR block fetched: `none` when the slot does not answer, otherwise bytes
and marked lines, all marked for POISON. -/
def State.content (s : State) (v : View) (w b : Nat) (env : Env) (port : Option Nat) (hid : Nat) : Option (List Byte × List Nat) × State :=
  let t := s.targetOf w b
  let e := entryOf (s.wordIn v t)
  let all : List Byte × List Nat := (zeros 4096, List.range 64)
  if e.state = stDetour then
    match s.slotData t e.addr env with
    | none => (none, s.count P.detTimeout 1)
    | some none => (some all, s.detourBad t port hid)
    | some (some d) => (some (d, []), s)
  else if e.state = stFactor ∧ s.storeOf w b = .data then
    match s.reconBlock v w (t - s.par (P.winBase w) / 4096) env none port hid with
    | (some x, s) => (some (x.data, x.bad), s)
    | (none, s) => (some all, s)
  else
    match s.readBlock v t (s.streamWb w b) env.ph port hid with
    | (some x, s) => (some x, s)
    | (none, s) => (some all, s)

/-- A gather buffer is stored (R33). `late` says that its lines did not arrive in time. Its content stays gathered when the
detour slot it merges over does not answer, and while the block waits for a flushing read (R165). -/
def State.resolve (s : State) (key : Nat) (env : Env) (late : Bool) : State :=
  match Tab.find? key s.mem.gather with
  | none => s
  | some g =>
    let b := key % 2 ^ 30
    let v := s.viewOfKey key
    let w := g.win
    let drop := fun (s : State) => s.modMem (fun m => { m with gather := Tab.erase key m.gather })
    let t := s.targetOf w b
    let e := entryOf (s.wordIn v t)
    let resid := match s.storeOf w b with | .resid _ _ => true | _ => false
    if (Tab.find? key s.mem.packJobs).any (fun j => j.slot != 0) then s
    else if g.full && !late then
      let (d, marks) := g.merge [] []
      (drop s).storeFull v w b d marks g.src
    else if resid && e.state == stPoison && !g.full then (drop s).count P.facDropCount g.src.length
    else if e.state = stFlat ∧ (entryOf (s.ownWord v t)).state = stFlat ∧ !s.isBroken v then
      let old := s.plainAt t e e.addr
      let marks := (List.range 64).filter (fun i => Tab.get (byteOf e.addr / 64 + i) s.mem.marks)
      let (d, bad) := g.merge old marks
      ((drop s).writeFlat t e (g.lines.map (fun p => (p.1, cut (64 * p.1) 64 d))) bad).recount w b
    else
      match s.content v w b env (srcPort g.src) g.hid with
      | (none, s) => s
      | (some (old, marks), s) =>
        let (d, bad) := g.merge old marks
        if resid then (drop s).storeFull v w b d bad g.src
        else (drop s).settle v w b (flatForm d) d bad g.src

/-- The flushing read of block b's slot returns (R164, R165): its DETOUR entry commits, and lines gathered meanwhile are stored. Where the
read fails, or the area is lost, the slot is given up and the block stored as under REFUSE (R156). DESIGN CHOICE (log 98). -/
def State.flushDone (s : State) (b : Nat) (ok : Bool) (env : Env) : State :=
  match Tab.find? b s.mem.packJobs with
  | none => s
  | some j =>
    if j.slot = 0 then s
    else
      let e := entryOf (s.wordIn .main b)
      let s := s.modMem (fun m => { m with packJobs := Tab.erase b m.packJobs })
      let s :=
        if ok then s.commitSlot b (j.slot - 1)
        else
          let s := if e.state = stDetour ∧ e.addr = j.slot - 1 then s else s.freeSlot (j.slot - 1)
          match s.partAt (b * 4096) with
          | some n => (s.fence n (s.homeIn n (b * 4096))).putForm .main n b (s.unpacked j.win b j.orig) []
          | none => s
      let s := s.recount j.win b
      match Tab.find? b s.mem.gather with
      | some g => if g.full || decide (g.first + usT 4 ≤ s.now) then s.resolve b env (!g.full) else s
      | none => s

/-- A block that waits for a flushing read is given up: its new slot is free again. -/
def State.dropFlush (s : State) (key : Nat) : State :=
  match Tab.find? key s.mem.packJobs with
  | none => s
  | some j =>
    if j.slot = 0 then s
    else
      let e := entryOf (s.wordIn .main key)
      let s := s.modMem (fun m => { m with
        packJobs := Tab.erase key m.packJobs, detReads := m.detReads.filter (fun d => !(d.flush && d.blk == key)) })
      if e.state = stDetour ∧ e.addr = j.slot - 1 then s else s.freeSlot (j.slot - 1)

/-- A write reaches block b while a packed result of it waits: the checker finishes it first (R25). -/
def State.settlePack (s : State) (key : Nat) : State :=
  match Tab.find? key s.mem.packJobs with
  | none => s
  | some _ => s.packEnd key true

/-- What a write to block b undoes: a mover's recompression, a FACTOR's switch of it, marks not to try it again (R35, R113, R167). -/
def State.writeSeen (s : State) (w b : Nat) : State :=
  let s := s.modMem (fun m => { m with mover := Tab.erase b m.mover, abandoned := (if (Tab.find? b m.mover).isSome then m.abandoned + 1 else m.abandoned) })
  if s.factorWin w then
    let d := s.par (P.winDescriptor w)
    let t := s.winDesc w
    let (area, i) := s.areaOf w b
    s.modFac (fun f => { f with
      runs := f.runs.map (fun p => (p.1, if p.1 = d then { p.2 with dirty := Tab.set b (p.2.on && area == 0) p.2.dirty } else p.2))
      noLower := f.noLower.filter (fun p => !(decide (p.1 / 2 ^ 28 = d) && t.reaches area i (p.1 % 2 ^ 28))) })
  else s

/-! The SRAM code (R326) and the flip mask on staging (R337). -/

/-- Parity of the low 13 bits. -/
def parity13 (v : Nat) : Bool := popcount 13 v % 2 == 1

/-- Byte bit 0-12 (data 0-7, check 8-12) at a Hamming position (R326). -/
def hamBit : Nat → Nat
  | 0 => 12
  | 1 => 8
  | 2 => 9
  | 3 => 0
  | 4 => 10
  | 5 => 1
  | 6 => 2
  | 7 => 3
  | 8 => 11
  | n => n - 5

/-- The part h of the syndrome of an error `e`: data bits [7:0], check bits [12:8] (R326). -/
def sramH (e : Nat) : Nat :=
  let b := fun (m : Nat) => if parity13 (e &&& m) then 1 else 0
  b 0x15B + 2 * b 0x26D + 4 * b 0x48E + 8 * b 0x8F0

/-- What the decoder makes of an error (R326): 0 clean, 1 corrected with its bit, 2 uncorrectable; and the data error that stays.
DEDUCED: h 13-15 with p = 1 names no bit of the byte: uncorrectable (log 40). -/
def sramDecode (e : Nat) : Nat × Nat × Nat :=
  let h := sramH e
  if parity13 e then (if h ≤ 12 then (1, hamBit h, (e ^^^ 2 ^ hamBit h) % 256) else (2, 0xFF, e % 256))
  else if h = 0 then (0, 0xFF, e % 256)
  else (2, 0xFF, e % 256)

/-- A corrected or uncorrectable SRAM byte counts and is logged (R327): `unit` as R333 gives it. -/
def State.noteSram (s : State) (q unit out symbol : Nat) : State :=
  match out with
  | 0 => s
  | 1 => (s.count (P.sramCe q) 1).logSram 9 unit symbol
  | _ => (s.count (P.sramUe q) 1).logSram 10 unit 0xFF

/-- The flip mask is armed for a unit: 1 staging region, 2 scratchpad block (R337). -/
def State.flipSram (s : State) (kind unit : Nat) : Bool :=
  let t := s.par P.flipTarget
  fld t 15 15 == 1 && fld t 13 12 == kind && fld t 7 0 == unit

/-- The error that the flip mask stores in byte 0 (R337). -/
def State.flipByte (s : State) : Nat := s.par P.flipDataLo % 256 + s.par P.flipCheck % 32 * 256

/-- The flip has been applied. -/
def State.disarm (s : State) : State := s.setPar P.flipTarget (setFld (s.par P.flipTarget) 15 15 0)

/-- A line written in the staging of region q: its bytes, and its poison, under an armed flip (R327, R337). DESIGN CHOICE: the
flipped line is decoded at once, as a scrub of it would (log 39). -/
def State.stage (s : State) (q mask : Nat) (d : List Byte) (bad : Bool) : List Byte × Bool × State :=
  if s.flipSram 1 q && decide (mask = 0 ∨ mask % 2 = 1) then
    let (o, sym, e) := sramDecode s.flipByte
    let s := s.disarm.noteSram q (q * 16) o sym
    (splice 0 [(d.headD 0) ^^^ BitVec.ofNat 8 e] d, bad || o == 2, s)
  else (d, bad, s)

/-- A line is accepted at its home hub for gathering (R33): the write's place in the order of R25. -/
def State.gatherLine (s : State) (v : View) (w dpa mask : Nat) (d : List Byte) (bad : Bool) (port hid : Nat) : State :=
  let b := dpa / 4096
  let key := gatherKey v b
  let s := (s.settlePack key).writeSeen w b
  let (d, bad, s) := s.stage ((s.home dpa).getD 0) mask d bad
  let fenced := match s.partAt dpa with | some n => s.par (P.partFence n) == 1 | none => false
  let g0 : Gather := { first := s.now, lines := [], masks := [], bad := [], hid := hid, win := w, port := port, fenced := false }
  let g := ((Tab.find? key s.mem.gather).getD g0).put (dpa % 4096 / 64) mask d bad
  let g := { g with fenced := g.fenced || fenced, src := g.src ++ [{ port := port, hid := hid, fenced := fenced }] }
  let s := s.modMem (fun m => { m with gather := Tab.insert key g (Tab.erase key m.gather) })
  if g.full && decide (s.now ≤ g.first + usT 4) then s.resolve key noEnv false else s

/-- A line of an explicit-T0 window is written in staging (R51, R327). -/
def State.writeT0 (s : State) (dpa mask : Nat) (d : List Byte) (bad : Bool) : State :=
  let (d, bad, s) := s.stage ((s.home dpa).getD 0) mask d bad
  let old := Tab.readRun 0 dpa 64 s.mem.t0
  s.modMem (fun m => { m with
    t0 := Tab.writeRun 0 dpa (maskBytes mask d old) m.t0
    t0marks := if bad then Tab.set (dpa / 64) true m.t0marks else if mask = 0 then Tab.set (dpa / 64) false m.t0marks else m.t0marks })

/-! Whole reads at the hub, for the engines. -/

/-- The 4,096 bytes and the poisoned lines that a HID reads at block b (R31, R51, R99, R202); `all poisoned` where it reads
poison, and none where the request itself is refused. -/
def State.blockAtHub (s : State) (hid b : Nat) (env : Env) : Option (List Byte × List Nat) × State :=
  let zero : List Byte × List Nat := (zeros 4096, [])
  let all : List Byte × List Nat := (zeros 4096, List.range 64)
  match s.winAt (b * 4096), s.viewFor hid (b * 4096) false with
  | none, _ => (none, s)
  | _, .error _ => (none, s)
  | some w, .ok v =>
    let k := s.par (P.winKind w)
    if k = wT0 then
      (some (Tab.readRun 0 (b * 4096) 4096 s.mem.t0, (List.range 64).filter (fun i => Tab.get (b * 64 + i) s.mem.t0marks)), s)
    else if k = wGradient then (some zero, s)
    else if s.factorWin w then
      let (area, i) := s.areaOf w b
      let e := entryOf (s.wordIn v (s.targetOf w b))
      if area = 7 then (some zero, s)
      else if area = 6 then
        if e.state = stFactor ∨ e.state = stPoison then
          match s.content v w b env none hid with
          | (some c, s) => (some (s.withPending (gatherKey v b) c), s)
          | (none, s) => (some all, s)
        else (some (s.withPending (gatherKey v b) zero), s)
      else if area = 0 ∧ (k = wFactor ∨ e.state = stFactor) then
        match s.reconBlock v w i env none none hid with
        | (some x, s) => let s := s.delivered w i x (List.range 64); (some (s.withPending (gatherKey v b) (x.data, x.bad)), s)
        | (none, s) => (some all, s)
      else
        match s.content v w b env none hid with
        | (some c, s) => (some (s.withPending (gatherKey v b) c), s)
        | (none, s) => (some all, s)
    else
      match s.content v w b env none hid with
      | (some c, s) => (some (s.withPending (gatherKey v b) c), s)
      | (none, s) => (some (s.withPending (gatherKey v b) all), s)

/-- Read `n` blocks from block b: bytes, and the poisoned lines numbered from the first; a refused block reads all poison. -/
def State.blocksAtHub (s : State) (hid b : Nat) (env : Env) : Nat → (List Byte × List Nat) × State
  | 0 => (([], []), s)
  | n + 1 =>
    let (r, s) := s.blockAtHub hid b env
    let c := r.getD (zeros 4096, List.range 64)
    let (rest, s) := s.blocksAtHub hid (b + 1) env n
    ((c.1 ++ rest.1, c.2 ++ rest.2.map (· + 64)), s)

/-- Read `n` bytes at a 64-byte multiple: bytes, and the poisoned lines numbered from the first of the range. -/
def State.rangeAtHub (s : State) (hid dpa n : Nat) (env : Env) : (List Byte × List Nat) × State :=
  if n = 0 then (([], []), s)
  else
    let (c, s) := s.blocksAtHub hid (dpa / 4096) env ((dpa + n - 1) / 4096 + 1 - dpa / 4096)
    let k := dpa % 4096 / 64
    ((cut (dpa % 4096) n c.1, (c.2.filter (fun i => decide (k ≤ i ∧ i < k + cdiv n 64))).map (· - k)), s)

end Sys2Proof.Machine
end

