-- ==== Sys2Proof/Machine/Share.lean ====
section
/-! DEFINITION. Shared regions: versions and their references, bindings, leases, the directory, snoops, the death of a host
(R197-R217), and extents given up (R261). -/
namespace Sys2Proof.Machine

/-! Versions (R200, R201, R217). -/

/-- The sr_keep most recently published versions other than the latest (R201). -/
def State.keptVers (s : State) (n : Nat) : List Nat :=
  (((s.sr n).versions.map Version.num).reverse.drop 1).take (s.par (P.srKeep n))

/-- Version v of shared region n is live (R201). -/
def State.liveVer (s : State) (n v : Nat) : Bool :=
  v == s.par (P.srLatest n) || (s.keptVers n).contains v || (s.sr n).reads.any (fun p => p.2 == v) || (s.sr n).opens.any (fun o => o.base == v)

/-- The range of shared region n holds a DPA. -/
def State.srHas (s : State) (n dpa : Nat) : Bool := within dpa 1 (s.par (P.srBase n)) (s.par (P.srSize n))

/-- A pipeline's read as the request it answers. -/
def PipeRead.req (p : PipeRead) : HeldReq :=
  { port := p.port, dpa := p.dpa, write := false, data := [], mask := 0, bad := false, want := 0, gated := p.gated, since := p.since,
    promoted := false }

/-- A read that waits in a pipeline, at its hub or for a tile is answered through the view it was accepted under. -/
def State.answerRead (s : State) (p : PipeRead) : State :=
  match s.winAt p.dpa with
  | none => s.reply p.req none
  | some w =>
    let i := p.blk - s.par (P.winBase w) / 4096
    match s.reconBlock (s.viewOfCode p.hid p.dpa p.view) w i noEnv none (some p.port) p.hid with
    | (none, s) => s.reply p.req none
    | (some x, s) => (s.delivered w i x [p.dpa % 4096 / 64]).reply p.req (x.line (p.dpa % 4096 / 64))

/-- Reads of shared region n that wait under a view that ends are answered first (R202, R207): they were accepted before it ended.
DEDUCED (log 100). -/
def State.finishReads (s : State) (n : Nat) (pick : PipeRead → Bool) : State :=
  let mine := fun (p : PipeRead) => s.srHas n p.dpa && pick p
  let l := ((s.fac.pipes.map Prod.snd).flatten ++ s.fac.held ++ s.fac.wpWait.map Prod.snd).filter mine
  if l.isEmpty then s
  else
    let s := s.modFac (fun f => { f with
      pipes := (f.pipes.map (fun p => (p.1, p.2.filter (fun x => !mine x)))).filter (fun p => !p.2.isEmpty)
      held := f.held.filter (fun x => !mine x), wpWait := f.wpWait.filter (fun x => !mine x.2) })
    forAll (fun p s => s.answerRead p) l s

/-- Versions that are not live are reclaimed, until none is left (R201). -/
def State.reclaim (s : State) (n : Nat) : State :=
  let old := (s.sr n).versions.filter (fun v => !s.liveVer n v.num)
  let s := s.finishReads n (fun p => old.any (fun v => p.view == v.num + 2))
  let gone := (s.sr n).versions.filter (fun v => !s.liveVer n v.num)
  let s := s.modSr n (fun r => { r with versions := r.versions.filter (fun v => !gone.any (fun g => g.num == v.num)) })
  let s := forAll (fun (v : Version) s => forAll (fun (p : Nat × MapWord) s => s.release p.1 p.2) v.map s) gone s
  s.setPar (P.srLive n) ((s.sr n).versions.length + (s.sr n).opens.length)

/-- References of shared region n: reader, writer, pinned (R217). -/
def State.refCounts (s : State) (n : Nat) : Nat × Nat × Nat :=
  if !s.srOn n then (0, 0, 0)
  else
    let r := s.sr n
    (r.reads.length, r.opens.length, if r.versions.isEmpty then 0 else 1 + Nat.min (s.par (P.srKeep n)) (r.versions.length - 1))

/-- A change of shared region n, with the reclaim it brings and the references it moves (R201, R217). -/
def State.withRefs (s : State) (n : Nat) (f : State → State) : State :=
  let a := s.refCounts n
  let s := (f s).reclaim n
  let b := s.refCounts n
  let mv := fun (s : State) (k x y : Nat) => (s.uncount k x).count k y
  let s := mv (mv (mv s P.vrefReader a.1 b.1) P.vrefWriter a.2.1 b.2.1) P.vrefPinned a.2.2 b.2.2
  (s.count P.vrefFree (a.1 + a.2.1 + a.2.2)).uncount P.vrefFree (b.1 + b.2.1 + b.2.2)

/-- A HID's open version is discarded whole (R208): its frames FREE, its pending writes gone. -/
def State.dropOpen (s : State) (n h : Nat) : State :=
  match openOf (s.sr n) h with
  | none => s
  | some o =>
    let mine := fun (k : Nat) => k / 2 ^ 30 == h + 1 && s.srHas n (k % 2 ^ 30 * 4096)
    let s := s.finishReads n (fun p => p.view == 1 && p.hid == h)
    let s := s.modMem (fun m => { m with gather := m.gather.filter (fun p => !mine p.1), packJobs := m.packJobs.filter (fun p => !mine p.1) })
    let s := forAll (fun k s => if mine k then s.unpromote k else s) (Tab.keys s.mem.promoted) s
    let s := s.modSr n (fun r => { r with opens := r.opens.filter (fun x => x.hid != h) })
    forAll (fun (p : Nat × MapWord) s => s.release p.1 p.2) o.own s

/-- The number of a version is taken (R200). -/
def State.takeVersion (s : State) : Nat × State :=
  let v := s.par P.shareVersionNext
  let s := if v = 2 ^ 32 - 1 then { s with shared := { s.shared with exhausted := true } } else s.setPar P.shareVersionNext (v + 1)
  (v, if v = 0xF0000000 then s.notice 8 [(0, cborUint (s.par P.shareVersionNext))] else s)

/-- A table laid over another. -/
def overlay (own base : Tab MapWord) : Tab MapWord := own.foldl (fun t p => Tab.setD 0 p.1 p.2 t) base

/-- What HID h has written into its open version reaches the version (R207): pending lines and blocks at the checker. -/
def State.settleOpen (s : State) (n h : Nat) : State :=
  let mine := fun (k : Nat) => k / 2 ^ 30 == h + 1 && s.srHas n (k % 2 ^ 30 * 4096)
  let gathers := (Tab.keys s.mem.gather).filter mine
  let s := forAll (fun k s => (s.settlePack k).resolve k noEnv true) gathers s
  let packs := (Tab.keys s.mem.packJobs).filter mine
  forAll (fun k s => s.packEnd k true) packs s

/-- An open version becomes the latest published version (R206): its frames pass from SHADOW to USED. -/
def State.publish (s : State) (n h : Nat) : Nat × State :=
  match openOf (s.sr n) h with
  | none => (0, s)
  | some o =>
    let (v, s) := s.takeVersion
    let s := s.finishReads n (fun p => p.view == 1 && p.hid == h)
    let map := overlay o.own (verMap (s.sr n) o.base)
    let s := s.modSr n (fun r => { r with
      versions := r.versions ++ [{ num := v, map := map }], opens := r.opens.filter (fun x => x.hid != h) })
    let s := forAll (fun (p : Nat × MapWord) s =>
      let e := entryOf p.2
      if e.inHbm then (match s.partnerOf e.addr with | some a => (s.useFrame e.addr).useFrame a | none => s.useFrame e.addr) else s) o.own s
    let s := forAll (fun k s => if k / 2 ^ 30 == h + 1 && s.srHas n (k % 2 ^ 30 * 4096) then s.unpromote k else s) (Tab.keys s.mem.promoted) s
    (v, s.setPar (P.srLatest n) v)

/-! Leases (R214). -/

/-- A HID's lease on n ends a period from now; one more than the tick. -/
def State.leaseFull (s : State) (n h : Nat) : State :=
  s.modSr n (fun r => { r with leases := Tab.set h (s.now + msT (s.par (P.srLeaseMs n)) + 1) r.leases })

/-- A first request or command of a HID that holds no lease acquires one (R214). -/
def State.leaseTouch (s : State) (n h : Nat) : State :=
  if s.par (P.srLeaseEnable n) = 1 ∧ Tab.get h (s.sr n).leases = 0 ∧ !s.isDead n h then s.leaseFull n h else s

/-! The directory (R210). -/

/-- The directory of a region die; the home region of a line. -/
def State.dirOf (s : State) (q : Nat) : List DirEnt := Tab.get q s.shared.dir
def State.lineHome (s : State) (line : Nat) : Nat := (s.home (line * 64)).getD 0

/-- The entry of a line. -/
def State.dirEnt (s : State) (line : Nat) : Option DirEnt := (s.dirOf (s.lineHome line)).find? (fun e => e.line == line)

/-- Replace or remove the entry of a line, its place kept. -/
def State.setDir (s : State) (line : Nat) (e : Option DirEnt) : State :=
  let q := s.lineHome line
  { s with shared := { s.shared with dir := Tab.mod q (fun l => l.filterMap (fun x => if x.line = line then e else some x)) s.shared.dir } }

/-- A grant goes to the end of the directory: granted last. -/
def State.grantDir (s : State) (e : DirEnt) : State :=
  let q := s.lineHome e.line
  { s with shared := { s.shared with dir := Tab.mod q (fun l => l.filter (fun x => x.line != e.line) ++ [e]) s.shared.dir } }

/-- Entries of a directory that lie in shared region n, of every region die. -/
def State.dirIn (s : State) (n : Nat) : List DirEnt := ((s.shared.dir.map Prod.snd).flatten).filter (fun e => s.srHas n (e.line * 64))

/-- The live HIDs, of those that some LD carries, with right R on a line's extent (R210). -/
def State.snoopers (s : State) (n line : Nat) : List Nat :=
  (distinct ((List.range 512).map s.hidOf)).filter (fun h => h != 255 && !s.isDead n h && (match s.grant h (line * 64) rR with | .ok _ => true | _ => false))

/-- The LD a HID is snooped through: the lowest that is UP. -/
def State.portOfHid (s : State) (h : Nat) : Option Nat := (s.ldsUp.filter (fun p => s.hidOf p == h)).min?

/-- Issue a BISnp to a HID for a line, unless one waits already (R210). -/
def State.snoop (s : State) (line h : Nat) (inv : Bool) : State :=
  if s.shared.snoops.any (fun x => x.line == line && x.hid == h) then s
  else
    let x : Snoop := { line := line, hid := h, since := s.now, again := false, inv := inv }
    let s := { s with shared := { s.shared with snoops := s.shared.snoops ++ [x] } }
    match s.portOfHid h with | some p => s.send (p / 16) 2 (.biSnp p line inv) | none => s

/-- The HIDs a snoop of a directory entry goes to: its holders, or under the overflow mark every live HID that may read the line (R210). -/
def State.snoopees (s : State) (e : DirEnt) : List Nat :=
  if e.overs then (match s.srAt (e.line * 64) with | some n => s.snoopers n e.line | none => e.holders) else e.holders

/-- Snoop all of them. -/
def State.snoopAll (s : State) (e : DirEnt) (inv : Bool) : State := forAll (fun h s => s.snoop e.line h inv) (s.snoopees e) s

/-- HIDs to snoop before HID h reads a line wanting `want` (0 none, 1 S, 2 E), and whether they are invalidated. -/
def State.snoopsFor (s : State) (line h want : Nat) : List Nat × Bool :=
  match s.dirEnt line with
  | none => ([], true)
  | some e =>
    let others := (s.snoopees e).filter (· ≠ h)
    if want = 2 then (others, true) else if e.excl then (others, false) else ([], false)

/-- What HID h may be granted: E only with right W (R210). -/
def State.wantFor (s : State) (h line want : Nat) : Nat :=
  if want = 2 then (match s.grant h (line * 64) rW with | .ok _ => 2 | _ => 1) else want

/-- HID h is granted a line in S or E (R210). -/
def State.cohGrant (s : State) (line h want : Nat) : State :=
  if want = 0 then s
  else
    match s.dirEnt line with
    | some e =>
      if want = 2 then s.grantDir { e with excl := true, holders := [h], overs := false }
      else if e.excl || e.holders.contains h then s.grantDir { e with excl := false }
      else if e.holders.length < 4 then s.grantDir { e with holders := e.holders ++ [h] }
      else s.grantDir { e with overs := true }
    | none => s.grantDir { line := line, excl := want == 2, holders := [h], overs := false }

/-- A holder's answer (R210): it keeps the line in S, or gives it up. -/
def State.snoopAnswer (s : State) (line h : Nat) (keeps : Bool) : State :=
  let s := { s with shared := { s.shared with snoops := s.shared.snoops.filter (fun x => !(x.line == line && x.hid == h)) } }
  match s.dirEnt line with
  | none => s
  | some e =>
    if keeps then s.setDir line (some { e with excl := false })
    else
      let hs := e.holders.filter (· ≠ h)
      let waiting := s.shared.snoops.any (fun x => x.line == line)
      s.setDir line (if hs.isEmpty && (!e.overs || !waiting) then none else some { e with excl := false, holders := hs })

/-- A writeback's effect on the directory: what its sender keeps (R212). -/
def State.cohWriteback (s : State) (line h keep : Nat) : State :=
  match s.dirEnt line with
  | none => s
  | some e => if keep = 2 then s else if keep = 1 then s.setDir line (some { e with excl := false })
    else s.setDir line (if (e.holders.filter (· ≠ h)).isEmpty then none else some { e with excl := false, holders := e.holders.filter (· ≠ h) })

/-- HID h holds a line in E. -/
def State.holdsE (s : State) (line h : Nat) : Bool :=
  match s.dirEnt line with | some e => e.excl && e.holders.contains h | none => false

/-- COHERENT region that holds a DPA in a window its directory covers (R210). -/
def State.cohAt (s : State) (dpa : Nat) : Option Nat :=
  match s.srAt dpa with
  | some n => if s.srVersioned n then none else some n
  | none => none

/-- Holders of lines of a range are back-invalidated before an engine uses it: none left to wait for, or the snoops issued. -/
def State.cohReady (s : State) (dpa len : Nat) (write : Bool) : Bool × State :=
  if s.shared.dir.isEmpty then (true, s)
  else
    let hit := ((s.shared.dir.map Prod.snd).flatten).filter (fun e => overlaps (e.line * 64) 64 dpa len && (write || e.excl))
    (hit.isEmpty, forAll (fun (e : DirEnt) s =>
      match s.cohAt (e.line * 64) with
      | some _ => s.snoopAll e write
      | none => s) hit s)

/-! Poisoned lines (R215, R324). -/

/-- A line is marked poisoned, its value kept (R215, R324). -/
def State.poisonLine (s : State) (dpa : Nat) : State :=
  match s.winAt dpa with
  | none => s
  | some w =>
    if s.par (P.winKind w) = wT0 then s.writeT0 dpa (2 ^ 64) [] true
    else s.gatherLine .main w dpa (2 ^ 64) [] true 512 0xFF

/-- A COHERENT line in E is lost with its holder, or at SAFE or a reset (R215, R216): cause 1 DEATH, 2 RESET, 3 SAFE. -/
def State.loseLine (s : State) (n line h cause : Nat) : State :=
  let s := (s.poisonLine (line * 64)).count (P.srPoisonCount n) 1
  let s := s.setPar (P.srLastPoison n) (cause * 2 ^ 56 + h * 2 ^ 48 + line * 64)
  s.eventAll (line * 64) { cause := 7, trans := 0, region := s.lineHome line, hid := h, object := n, dpa := line * 64 + 1 }

/-! Extents given up (R158, R215, R261). -/

/-- Blocks [b, b+n) become UNWRITTEN in every view, their sectors released (R261). -/
def State.blankRange (s : State) (b n : Nat) : State :=
  let inR := fun (k : Nat) => decide (b ≤ k % 2 ^ 30 ∧ k % 2 ^ 30 < b + n)
  let ws := (s.allWords.filter (fun p => inR p.1)).eraseDups
  let s := forAll (fun b s => if inR b then (s.dropFlush b).unpromote b else s) (Tab.keys s.mem.promoted ++ Tab.keys s.mem.packJobs) s
  let cut := fun (t : Tab MapWord) => t.filter (fun p => !inR p.1)
  let s := s.modMem (fun m => { m with t0 := m.t0.filter (fun c => !inR (c.1 / 4096)) })
  let s := { s with
    mem := { s.mem with
      mapPri := cut s.mem.mapPri, mapMir := cut s.mem.mapMir, aside := cut s.mem.aside
      t0marks := s.mem.t0marks.filter (fun c => !inR (c.1 / 64))
      gather := s.mem.gather.filter (fun p => !inR p.1), packJobs := s.mem.packJobs.filter (fun p => !inR p.1)
      t0cache := s.mem.t0cache.filter (fun p => !inR p.1), mover := s.mem.mover.filter (fun p => !inR p.1) }
    jobs := s.jobs.map (fun p => (p.1, { p.2 with shadow := cut p.2.shadow }))
    shared := { s.shared with regions := s.shared.regions.map (fun p => (p.1, { p.2 with
      versions := p.2.versions.map (fun x => { x with map := cut x.map })
      opens := p.2.opens.map (fun o => { o with own := cut o.own }) })) } }
  forAll (fun (p : Nat × MapWord) s => s.release p.1 p.2) ws s

/-- An extent no LD holds any more is emptied (R261). -/
def State.extentFreed (s : State) (x : Nat) : State :=
  if s.ports.ld.any (fun p => Tab.get x p.2.extents) then s else s.blankRange (x * 512) 512

/-- An LD gives an extent up. -/
def State.dropExtent (s : State) (key x : Nat) : State :=
  (s.modLd key (fun l => { l with extents := Tab.set x false l.extents, dcGen := (l.dcGen + 1) % 2 ^ 32 })).extentFreed x

/-- The LDs that carry a HID, whatever their link's state. -/
def State.ldsOf (s : State) (h : Nat) : List Nat := (Tab.keys s.ports.ld).filter (fun k => k % 32 < 16 && s.hidOf (k / 32 * 16 + k % 32) == h)

/-! The death of a host (R213, R215). -/

/-- HID h dies in shared region n (R215). -/
def State.hidDeath (s : State) (n h : Nat) : State :=
  let bit := s.par (P.srDead n (h / 64)) ||| 2 ^ (h % 64)
  let s := s.setPar (P.srDead n (h / 64)) bit
  let s := s.withRefs n (fun s => (s.dropOpen n h).modSr n (fun r => { r with reads := Tab.set h 0 r.reads, leases := Tab.set h 0 r.leases }))
  let lost := (s.dirIn n).filter (fun e => e.excl && e.holders.contains h)
  let s := { s with shared := { s.shared with
    dir := s.shared.dir.map (fun p => (p.1, p.2.filterMap (fun e =>
      if s.srHas n (e.line * 64) && e.holders.contains h then
        (let hs := e.holders.filter (· ≠ h); if hs.isEmpty && !e.overs then none else some { e with holders := hs, excl := false })
      else some e)))
    snoops := s.shared.snoops.filter (fun x => !(x.hid == h && s.srHas n (x.line * 64))) } }
  let s := forAll (fun (e : DirEnt) s => s.loseLine n e.line h 1) lost s
  let s := forAll (fun k s => forAll (fun x s => if s.srHas n (x * 2 ^ 21) then s.dropExtent k x else s) (Tab.keys (s.ld k).extents) s) (s.ldsOf h) s
  s.notice 9 [(0, cborUint n), (1, cborUint h), (2, cborUint lost.length)]

/-- HID h rejoins shared region n (R214). -/
def State.rejoin (s : State) (n h : Nat) : State :=
  if !s.isDead n h then s
  else
    let s := s.setPar (P.srDead n (h / 64)) (s.par (P.srDead n (h / 64)) ^^^ 2 ^ (h % 64))
    if s.par (P.srLeaseEnable n) = 1 then s.leaseFull n h else s

/-- SAFE, or a warm device reset, acts on every shared region (R216): cause 3 SAFE, 2 RESET. -/
def State.shareDrop (s : State) (cause : Nat) : State :=
  let s := forAll (fun n s =>
    let lost := (s.dirIn n).filter (fun e => e.excl)
    let s := forAll (fun (e : DirEnt) s => s.loseLine n e.line (e.holders.headD 0xFF) cause) lost s
    s.withRefs n (fun s => forAll (fun (o : OpenVer) s => s.dropOpen n o.hid) (s.sr n).opens s)) s.srsOn s
  { s with shared := { s.shared with dir := [], snoops := [] } }

/-! Committing shared regions (R199). -/

/-- The checks of sr_commit (R199). -/
def State.srCheck (s : State) (n : Nat) : Nat :=
  let base := s.par (P.srBase n)
  let size := s.par (P.srSize n)
  let part := s.partsOn.find? (fun p => within base size (s.par (P.partBase p)) (s.par (P.partSize p)) && s.par (P.partShareMode p) != 0)
  if s.srOn n then 0x20
  else if rangeCode base size ≠ 0 then rangeCode base size
  else firstCode [
    (s.srsOn.any (fun m => overlaps base size (s.par (P.srBase m)) (s.par (P.srSize m))), 0x12),
    (part.isNone, 0x13),
    ((match part with | some p => s.par (P.partShareMode p) == 1 | none => false) && s.shared.exhausted, 0x27)]

/-- A write of 1 to sr_commit (R199). -/
def State.srCommit (s : State) (n : Nat) : State :=
  let c := s.srCheck n
  let s := s.setPar (P.srStatus n) c
  if c ≠ 0 then s
  else
    let s := s.modSr n (fun _ => { (default : SrRec) with on := true })
    let s := forAll (fun i s => s.setPar (P.srDead n i) 0) [0, 1, 2, 3] s
    if s.srVersioned n then
      s.withRefs n (fun s =>
        let (v, s) := s.takeVersion
        (s.modSr n (fun r => { r with versions := [{ num := v, map := [] }] })).setPar (P.srLatest n) v)
    else (s.setPar (P.srLatest n) 0).setPar (P.srLive n) 0

/-- A write of 2 to sr_commit (R199): refused while not committed or while a window lies in the region; its versions go. -/
def State.srRelease (s : State) (n : Nat) : State :=
  let base := s.par (P.srBase n)
  let size := s.par (P.srSize n)
  if !s.srOn n || s.winsOn.any (fun w => overlaps base size (s.par (P.winBase w)) (s.par (P.winSize w))) then s.setPar (P.srStatus n) 0x20
  else
    let a := s.refCounts n
    let ws := ((((s.sr n).versions.map Version.map).flatten) ++ ((s.sr n).opens.map OpenVer.own).flatten).eraseDups
    let s := { s with shared := { s.shared with regions := Tab.set n default s.shared.regions } }
    let s := forAll (fun (p : Nat × MapWord) s => s.release p.1 p.2) ws s
    let s := ((s.uncount P.vrefReader a.1).uncount P.vrefWriter a.2.1).uncount P.vrefPinned a.2.2
    let s := s.count P.vrefFree (a.1 + a.2.1 + a.2.2)
    ((s.setPar (P.srStatus n) 0).setPar (P.srLatest n) 0).setPar (P.srLive n) 0

/-- SR_COMMIT (R199). -/
def execSrCommit (region : Fin 256) (s : State) : R := .next (s.barWrite (P.srCommit region) 1 (fun s => s.srCommit region))

/-- SR_RELEASE (R199). -/
def execSrRelease (region : Fin 256) (s : State) : R := .next (s.barWrite (P.srCommit region) 2 (fun s => s.srRelease region))

/-- SHARE_VERSION_RESET (R200). -/
def State.versionReset (s : State) : State := { s.setPar P.shareVersionNext 1 with shared := { s.shared with exhausted := false } }
def execShareVersionReset (s : State) : R := .next (s.barWrite P.shareVersionReset 1 State.versionReset)

/-- A write of sr_lease_enable (R214). -/
def State.leaseEnable (s : State) (n v : Nat) : State :=
  let was := s.par (P.srLeaseEnable n)
  let s := s.setPar (P.srLeaseEnable n) v
  if v = 0 then s.modSr n (fun r => { r with leases := [] })
  else if was = 1 then s
  else
    let hs := distinct (Tab.keys (s.sr n).reads ++ (s.sr n).opens.map OpenVer.hid ++ ((s.dirIn n).map DirEnt.holders).flatten)
    forAll (fun h s => s.leaseFull n h) hs s

/-- LEASE_ENABLE_WRITE (R214). -/
def execLeaseEnableWrite (region : Fin 256) (value : Nat) (s : State) : R :=
  .next (s.barWrite (P.srLeaseEnable region) value (fun s => s.leaseEnable region value))

/-- The audits of version references (R217): the counts, and each live version against its references. -/
def State.vrefOk (s : State) : Bool :=
  s.par P.vrefFree + s.par P.vrefReader + s.par P.vrefWriter + s.par P.vrefPinned == s.par P.vrefTotal
def State.vrefWalkOk (s : State) : Bool :=
  s.srsOn.all (fun n => !s.srVersioned n || ((s.sr n).versions.all (fun v => s.liveVer n v.num) &&
    (s.sr n).reads.all (fun p => (s.sr n).versions.any (fun v => v.num == p.2)) &&
    (s.sr n).opens.all (fun o => (s.sr n).versions.any (fun v => v.num == o.base)))) &&
  (s.srsOn.map (fun n => (s.refCounts n).1)).sum == s.par P.vrefReader &&
  (s.srsOn.map (fun n => (s.refCounts n).2.1)).sum == s.par P.vrefWriter &&
  (s.srsOn.map (fun n => (s.refCounts n).2.2)).sum == s.par P.vrefPinned
def State.vrefFail (s : State) : State :=
  (s.count P.vrefAuditFail 1).auditFail 3 (unitOf 0 0) [s.par P.vrefFree, s.par P.vrefReader, s.par P.vrefWriter, s.par P.vrefPinned]

/-- VERSION_TABLE_WALK_PASS (R217). -/
def execVersionTableWalkPass (s : State) : R := .next (if s.vrefWalkOk then s.count P.vrefWalkPass 1 else s.vrefFail)

end Sys2Proof.Machine
end

