-- ==== Sys2Proof/Machine/Mem.lean ====
section
/-! DEFINITION. CXL.mem requests from the port to the home hub and back: decoders, tollgate, access checks, holds, the read and
write paths, parcels and caches, gathering, the checker, component writes (R30-R35, R56, R99, R108, R114, R160-R165, R202, R210,
R254-R262, R294, R297). -/
namespace Sys2Proof.Machine

/-! Answers. -/

/-- A request that fails an access check (R56): reasons 1 NO_WINDOW, 2 NO_ENTRY, 3 RIGHTS, 4 NO_VERSION, 5 DEAD. -/
def State.accessFail (s : State) (r : HeldReq) (reason : Nat) : State :=
  let h := s.hidOf r.port
  let s := (s.count P.ownFailCount 1).setPar P.ownLastFail (reason * 2 ^ 56 + h * 2 ^ 48 + r.dpa % 2 ^ 42)
  let last := Tab.get h s.own.notice
  let s := if last = 0 ∨ last + msT 1000 ≤ s.now + 1 then
      { s with own := { s.own with notice := Tab.set h (s.now + 1) s.own.notice } }.notice 1 [(0, cborUint h), (1, cborUint reason), (2, cborUint r.dpa)]
    else s
  s.reply r none

/-! Parcels, promotion, the T0 cache (R160-R162). -/

/-- Transparent window with residency FLOAT. -/
def State.floatWin (s : State) (w : Nat) : Bool := s.par (P.winKind w) == wTransparent && s.par (P.winResidency w) == 0

/-- A decoded copy of block b goes into the T0 cache (R161, R162). -/
def State.t0Put (s : State) (b : Nat) : State :=
  let q := (s.home (b * 4096)).getD 0
  let room := s.t0Left q / 4096
  if Tab.get b s.mem.t0cache || room = 0 then s
  else
    let s := if (s.t0Blocks q).length < room then s
      else match s.t0Victim q with | some x => s.modMem (fun m => { m with t0cache := Tab.set x false m.t0cache }) | none => s
    s.modMem (fun m => { m with t0cache := Tab.set b true m.t0cache })

/-- A CXL.mem access accepted at the home hub: its parcel counts, its block may become a promotion candidate or gain a T0 copy
(R160, R161). -/
def State.access (s : State) (w dpa : Nat) : State :=
  let b := dpa / 4096
  let q := (s.home dpa).getD 0
  let s := (s.modMem (fun m => { m with parcels := Tab.mod (dpa / 65536) (fun c => Nat.min 255 (c + 1)) m.parcels })).busy q
  if !s.floatWin w then s
  else
    let c := s.parcel dpa
    let e := entryOf (s.wordIn .main b)
    let queue := Tab.get q s.mem.promoQ
    let s :=
      if e.state = stPacked && decide (s.par P.capPromoteT1 ≤ c) && s.promoRoom q 1 && !queue.contains b then
        (if queue.length < 64 then s.modMem (fun m => { m with promoQ := Tab.set q (queue ++ [b]) m.promoQ }) else s.count P.capPromoDrop 1)
      else s
    if decide (s.par P.capPromoteT0 ≤ c) && (e.state == stPacked || e.state == stFlat) then s.t0Put b else s

/-! Reads (R30, R31). -/

/-- What is pending in staging for a line (R30): its bytes, or poison; `none` when the stored line is needed too. -/
inductive Pending where
  | no
  | line (d : Option (List Byte))
  | part
  deriving DecidableEq, Repr

/-- The pending write of line i under a key. -/
def State.pendingLine (s : State) (key i : Nat) : Pending :=
  match Tab.find? key s.mem.gather with
  | some g =>
    match Tab.find? i g.lines with
    | some d => if g.bad.contains i then .line none else if Tab.get i g.masks = 0 then .line (some d) else .part
    | none => match Tab.find? key s.mem.packJobs with | some j => .line (some (cut (64 * i) 64 j.orig)) | none => .no
  | none => match Tab.find? key s.mem.packJobs with | some j => .line (some (cut (64 * i) 64 j.orig)) | none => .no

/-- A request waits at the hub (R18, R30), promoted while its master is in panic (R314). -/
def State.hubWait (s : State) (r : HeldReq) : State :=
  { s with recov := { s.recov with held := s.recov.held ++ [{ r with promoted := r.promoted || s.panicking r.port }] } }

/-- A read of a detour slot leaves for the host (R165), by a grant of the device arbiter to its region (R21). -/
def State.detourRead (s : State) (r : HeldReq) (slot : Nat) : State :=
  let d : DetRead := { blk := r.dpa / 4096, dpa := r.dpa, port := r.port, hid := s.hidOf r.port, gated := r.gated, since := r.since }
  (s.svcPut { who := 2, read := true, addr := s.slotAddr slot, len := 4096, data := [], bad := [], tok := slot, since := 0 }).modMem
    (fun m => { m with detReads := m.detReads ++ [d] })

/-- Serve a stored line (R31); a DETOUR entry that passes its checks is read over the service link (R87, R165). -/
def State.serveStored (s : State) (r : HeldReq) (v : View) (b wb : Nat) (ph : Phys) : State :=
  let (x, s) := s.readEntry v b ph (some r.port) (s.hidOf r.port)
  let e := entryOf x
  if e.state = stDetour && e.fieldsOk (s.placeKind b) && s.spanOk b e then
    if s.par P.detState = 2 ∨ s.par P.detState = 0 then s.reply r none else s.detourRead r e.addr
  else
    let (d, s) := s.readLineAt v b e (r.dpa % 4096 / 64) wb ph (some r.port) (s.hidOf r.port)
    s.reply r d

/-- Serve a line that a pending write covers in part: the stored line with the written bytes over it. -/
def State.servePart (s : State) (r : HeldReq) (v : View) (key : Nat) (ph : Phys) : State :=
  let i := r.dpa % 4096 / 64
  match (Tab.find? key s.mem.gather).bind (fun g => (Tab.find? i g.lines).map (fun d => (d, Tab.get i g.masks))) with
  | none => s.reply r none
  | some (d, m) =>
    match Tab.find? key s.mem.packJobs with
    | some j => s.reply r (some (maskBytes m d (cut (64 * i) 64 j.orig)))
    | none =>
    if (entryOf (s.wordIn v (r.dpa / 4096))).state = stDetour then s.hubWait r
    else
      let (x, s) := s.readLine v (r.dpa / 4096) i 0 ph (some r.port) (s.hidOf r.port)
      s.reply r (x.map (maskBytes m d))

/-- A tensor-view read that needs reconstruction (R114, R119, R120): from a buffer or a resident tile's copy, waiting for a tile being
staged, or in the queue of its pipeline, as is a read that a copy gives no answer. -/
def State.serveFactor (s : State) (r : HeldReq) (v : View) (w i : Nat) (ph : Phys) : State :=
  let d := s.par (P.winDescriptor w)
  let t := s.winDesc w
  let tile := i / t.wOut
  let b := r.dpa / 4096
  let q := (s.home r.dpa).getD 0
  let cb := s.pipeOf q (tile % t.cols)
  let hid := s.hidOf r.port
  let line := r.dpa % 4096 / 64
  let p : PipeRead := { blk := b, dpa := r.dpa, port := r.port, hid := hid, view := v.code, gated := r.gated, since := r.since }
  match (Tab.get cb s.fac.recon).find? (fun x => x.1 == b && v == .main) with
  | some x => (s.delivered w i x.2 [line]).reply r (x.2.line line)
  | none =>
    match s.wpOver d tile with
    | none => s.pipePush p
    | some u =>
      if (s.residentOf u).contains tile && v == s.latestView b then
        match s.stagedBuilt u w i r.dpa { ph := ph, host := .failed, slots := [] } with
        | (some x, s) => if x.bad.contains line then s.pipePush p else (s.delivered w i x [line]).reply r (x.line line)
        | (none, s) => s.pipePush p
      else if s.wpState u = 2 ∨ s.wpState u = 4 then
        (s.modFac (fun f => { f with wpWait := f.wpWait ++ [(u, p)] })).count P.facStallWaypoint 1
      else s.pipePush p

/-- A read of a factor or factoring window waits at its hub while a write is pending for what its answer is built from (R30, R99,
R108): its own block, and for a reconstructed block its residual and the component blocks its tile reads. -/
def State.facPends (s : State) (r : HeldReq) (v : View) (w : Nat) : Bool :=
  s.factorWin w &&
  (let b := r.dpa / 4096
   let b0 := s.par (P.winBase w) / 4096
   let t := s.winDesc w
   let (area, i) := s.areaOf w b
   let built := area == 0 && (s.par (P.winKind w) == wFactor || (entryOf (s.wordIn v b)).state == stFactor)
   let feeds := fun (x : Nat) =>
     x == b || (built && (x == b + t.res || (decide (b0 ≤ x) && (let a := t.areaAt (x - b0); 1 ≤ a.1 && a.1 ≤ 5 && t.reaches a.1 a.2 (i / t.wOut)))))
   s.mem.gather.any (fun p => decide (p.1 / 2 ^ 30 = v.owner) && feeds (p.1 % 2 ^ 30)) ||
   s.mem.packJobs.any (fun p => decide (p.1 / 2 ^ 30 = v.owner) && feeds (p.1 % 2 ^ 30)) ||
   s.fac.compWait.any (fun x => x.dpa / 4096 == b))

/-- Serve a read at its home hub (R30, R31, R51, R99). -/
def State.serveRead (s : State) (r : HeldReq) (v : View) (w : Nat) (ph : Phys) : State :=
  let b := r.dpa / 4096
  let line := r.dpa % 4096 / 64
  let k := s.par (P.winKind w)
  if k = wT0 then s.reply r (if Tab.get (r.dpa / 64) s.mem.t0marks then none else some (Tab.readRun 0 (r.dpa / 64 * 64) 64 s.mem.t0))
  else if k = wGradient then (s.count P.redGradReads 1).reply r (some (zeros 64))
  else if s.factorWin w then
    let (area, i) := s.areaOf w b
    let t := s.targetOf w b
    let e := entryOf (s.wordIn v t)
    match area with
    | 7 => s.reply r (some (zeros 64))
    | 0 => if k = wFactor ∨ e.state = stFactor then s.serveFactor r v w i ph else s.serveStored r v b 0 ph
    | 6 =>
      if e.state = stPoison then s.reply r none
      else if e.state = stFactor then s.serveStored r v t (s.streamWb w b) ph
      else s.reply r (some (zeros 64))
    | _ => s.serveStored r v b (s.streamWb w b) ph
  else
    match s.pendingLine (gatherKey v b) line with
    | .line d => s.reply r d
    | .part => s.servePart r v (gatherKey v b) ph
    | .no =>
      let hit := Tab.get b s.mem.t0cache && v == .main && !s.pinned w
      s.serveStored r v b 0 (if hit then noPhys else ph)

/-! Writes (R33, R99). -/

/-- A poisoned write is recorded on its LD (R255). -/
def State.poisonSeen (s : State) (r : HeldReq) : State :=
  if r.bad then s.event r.port { cause := 9, trans := 2, region := (s.home r.dpa).getD 0, hid := s.hidOf r.port, dpa := r.dpa + 1 } else s

/-- A write that R99 discards. -/
def State.facDrop (s : State) (r : HeldReq) : State := (s.count P.facDropCount 1).reply r none

/-- The data of a write carries poison onward: it arrived with it, or met a parity mismatch (R32, R255). -/
def HeldReq.poisoned (r : HeldReq) : Bool := r.bad || r.parity

/-- Serve a write at its home hub (R33, R51, R99, R176, R188, R195, R205). -/
def State.serveWrite (s : State) (r : HeldReq) (v : View) (w : Nat) : State :=
  let b := r.dpa / 4096
  let hid := s.hidOf r.port
  let k := s.par (P.winKind w)
  let mask := normMask r.mask
  let touch := fun (s : State) => if v = .main then s.hostTouch b r.dpa else s
  if k = wGradient then (s.poisonSeen r).gradWrite w (r.dpa - s.par (P.winBase w)) hid mask r.data r.poisoned r.port r.dpa s.now r.gated
  else if k = wT0 then ((s.poisonSeen r).writeT0 (r.dpa / 64 * 64) mask r.data r.poisoned).reply r none
  else if s.isBroken v then
    let n := (s.srAt r.dpa).getD 0
    (s.event r.port { cause := 5, trans := 2, region := (s.home r.dpa).getD 0, hid := hid, object := n, dpa := r.dpa + 1 }).reply r none
  else if s.factorWin w then
    let (area, i) := s.areaOf w b
    if k = wFactoring then
      if area = 0 then ((touch ((s.poisonSeen r).invalidate w 0 i)).gatherLine v w r.dpa mask r.data r.poisoned r.port hid).reply r none
      else s.facDrop r
    else if area = 0 ∨ area = 7 then s.facDrop r
    else
      let x : CompWrite := { dpa := r.dpa, data := r.data, mask := mask, bad := r.poisoned, port := r.port, hid := hid, since := r.since, gated := r.gated }
      ((s.poisonSeen r).modFac (fun f => { f with compWait := f.compWait ++ [x] })).count P.facStallComponent 1
  else ((touch (s.poisonSeen r)).gatherLine v w r.dpa mask r.data r.poisoned r.port hid).reply r none

/-! The hub (R25, R30, R202, R210). -/

/-- The stack that holds the sectors of block b as the view sees it does not take requests (R320). -/
def State.stackShut (s : State) (v : View) (b : Nat) : Bool :=
  let e := entryOf (s.wordIn v b)
  e.inHbm && s.par (P.stackHealth (e.addr / 2 ^ 32)) != 2 && s.par (P.mcSrState (e.addr / 2 ^ 32)) != srActive

/-- A writeback of a line its sender does not hold in E (R212). -/
def State.stray (s : State) (r : HeldReq) : State :=
  let h := s.hidOf r.port
  let s := (s.count P.shareStrayWb 1).event r.port { cause := 6, trans := 2, region := (s.home r.dpa).getD 0, hid := h, dpa := r.dpa + 1 }
  (s.notice 10 [(0, cborUint h), (1, cborUint r.dpa)]).reply r none

/-- A read's block lies in a stack that does not take requests (R320). -/
def State.readShut (s : State) (r : HeldReq) (v : View) (w : Nat) : Bool := !r.write && s.stackShut v (s.targetOf w (r.dpa / 4096))

/-- The request is eligible at its home hub (R18, R252): the region serves, its stack takes the read, no pending write keeps it waiting,
its link's egress buffer takes the answer. -/
def State.hubReady (s : State) (r : HeldReq) (v : View) (w : Nat) : Bool :=
  !(s.link (r.port / 16)).full && s.regionAwake ((s.home r.dpa).getD 0) && !s.readShut r v w && (r.write || !s.facPends r v w)

/-- A request that its checks have passed is granted and served, or held while the region sleeps or resets, its stack is shut, a
write pends for its block or holders of its line are snooped (R18, R30, R210, R212, R320, R379, R394). -/
def State.atHub (s : State) (r : HeldReq) (v : View) (w : Nat) (ph : Phys) : State :=
  let q := (s.home r.dpa).getD 0
  let hid := s.hidOf r.port
  let line := r.dpa / 64
  if !s.hubReady r v w then
    let s := if !s.regionAwake q || s.readShut r v w then (s.hubWait r).wakeRegion (r.port / 32) q else s.hubWait r
    if (s.link (r.port / 16)).full then s.syncReq (r.port / 16) else s
  else
    let s := s.hubGrant q (r.port / 32)
    match s.cohAt r.dpa with
    | none => if r.write then s.serveWrite r v w else s.serveRead r v w ph
    | some _ =>
      if r.write then
        if s.holdsE line hid then (s.serveWrite r v w).cohWriteback line hid r.want else s.stray r
      else
        let want := s.wantFor hid line r.want
        let (hs, inv) := s.snoopsFor line hid want
        let full := want ≠ 0 && (s.dirEnt line).isNone && decide (524288 ≤ (s.dirOf q).length)
        if !hs.isEmpty then
          let s := forAll (fun h s => s.snoop line h inv) hs s
          { s with shared := { s.shared with waits := s.shared.waits ++ [r] } }
        else if full then
          let s := match s.dirOf q with
            | e :: _ => s.snoopAll e true
            | [] => s
          { s with shared := { s.shared with waits := s.shared.waits ++ [r] } }
        else (s.cohGrant line hid want).serveRead r v w ph

/-- The port's IDE policy turns a request away (R262): IDE required, its stream not active. -/
def State.ideRefuses (s : State) (r : HeldReq) : Bool :=
  s.par (P.portIde (r.port / 32)) == 2 && (s.link (r.port / 16)).stream != 1

/-- The access checks between tollgate and hub, in order (R56, R61, R202, R247, R261): the reason of the first that fails, or the
request's window and view. -/
def State.checks (s : State) (r : HeldReq) : Except Nat (Nat × View) :=
  let hid := s.hidOf r.port
  let lk := s.link (r.port / 16)
  match s.winAt r.dpa with
  | none => .error 1
  | some w =>
    if s.own.leaving.contains w && !r.early then .error 1
    else
      let need := if r.write then (if s.factorWin w then rW + rF else rW) else rR
      if (s.cohAt r.dpa).isSome && !lk.hdmDb then .error 3
      else if lk.dc && !Tab.get (r.dpa / 2 ^ 21) (s.ld (ldKey r.port)).extents then .error 2
      else
        match s.portGrant r.port r.dpa need with
        | .noEntry => .error 2
        | .rights => .error 3
        | .ok _ => (s.viewFor hid r.dpa r.write).map (fun v => (w, v))

/-- A request that passes its checks is accepted at its hub: its HID's lease is renewed, its parcel counts, an entry of its region to power
state S2 is abandoned (R160, R214, R394). -/
def State.accepted (s : State) (r : HeldReq) (w : Nat) : State :=
  let s := match s.srAt r.dpa with | some n => s.leaseTouch n (s.hidOf r.port) | none => s
  (s.access w r.dpa).abandonS2 ((s.home r.dpa).getD 0)

/-- The checks, then the hub. -/
def State.letIn (s : State) (r : HeldReq) (ph : Phys) : State :=
  match s.checks r with
  | .error c => s.accessFail r c
  | .ok (w, v) => (s.accepted r w).atHub r v w ph

/-- A request held at a hub is tried again: its checks were passed when it arrived. -/
def State.again (s : State) (r : HeldReq) (ph : Phys) : State :=
  match s.winAt r.dpa, s.viewFor (s.hidOf r.port) r.dpa r.write with
  | some w, .ok v => s.atHub r v w ph
  | none, _ => s.accessFail r 1
  | _, .error c => s.accessFail r c

/-- A held request can be served, or refused, now. -/
def State.canServe (s : State) (r : HeldReq) : Bool :=
  match s.winAt r.dpa, s.viewFor (s.hidOf r.port) r.dpa r.write with
  | some w, .ok v => s.hubReady r v w
  | _, _ => true

/-- The held request that region q's arbiter grants next (R18, R20, R299, R309): promoted requests alone while one is eligible; of the first
requester, from the pointer on, that has an eligible one, the oldest of class 15 with a real-time contract, else the oldest. -/
def State.nextHeld (s : State) (q : Nat) (rs : List HeldReq) : Option HeldReq :=
  let able := rs.filter (fun r => (s.home r.dpa).getD 0 == q && s.canServe r)
  let mine := if able.any HeldReq.promoted then able.filter HeldReq.promoted else able
  (rotPick 19 (Tab.get q s.arb) (fun i => mine.any (fun r => portRequester q (r.port / 32) == i))).bind
    (fun i =>
      let own := mine.filter (fun r => portRequester q (r.port / 32) == i)
      (own.find? (fun r => s.carriedAs r.port r.dpa r.write == 15)).orElse (fun _ => own.head?))

/-- Held requests are granted and served until none is eligible; the others stay held in their order. -/
def State.serveHeld (ph : Phys) : Nat → List HeldReq → State → State
  | 0, rs, s => { s with recov := { s.recov with held := s.recov.held ++ rs } }
  | n + 1, rs, s =>
    match [0, 1, 2, 3].findSome? (fun q => s.nextHeld q rs) with
    | some r => State.serveHeld ph n (rs.erase r) (s.again r ph)
    | none => { s with recov := { s.recov with held := s.recov.held ++ rs } }

/-- Requests held at the hubs are tried again, as the region arbiters grant them. -/
def State.retryHub (s : State) (ph : Phys) : State :=
  State.serveHeld ph s.recov.held.length s.recov.held { s with recov := { s.recov with held := [] } }

/-- Requests waiting for snoops are tried again, oldest first (R210). -/
def State.retryCoh (s : State) (ph : Phys) : State :=
  let rs := s.shared.waits
  forAll (fun r s => s.again r ph) rs { s with shared := { s.shared with waits := [] } }

/-! The tollgate (R294, R297). -/

/-- A request's home region, contract and class at its tollgate. -/
def State.gateOf (s : State) (r : HeldReq) : Nat × Option Nat × Nat :=
  let q := (s.home r.dpa).getD 0
  let set := match s.partAt r.dpa with | some n => s.par (P.partStackSet n) | none => 0
  (q, s.conFor r.port set, s.clsOf r.port r.dpa r.write)

/-- The request may pass its tollgate now. -/
def State.gateOk (s : State) (r : HeldReq) : Bool := let g := s.gateOf r; s.tokenOk r.port g.1 g.2.1 g.2.2

/-- The request passes its tollgate: a token is spent (R296). -/
def State.gateSpend (s : State) (r : HeldReq) : State :=
  let g := s.gateOf r
  let s := s.spend r.port g.1 g.2.1
  if g.2.2 = 15 && !s.isRt g.2.1 g.2.2 then s.count P.regRtDemote 1 else s

/-- It passes and meets its checks; a write may end what reads held at the hub wait for (R99). -/
def State.gatePass (s : State) (r : HeldReq) (ph : Phys) : State :=
  let s := (s.gateSpend r).letIn r ph
  if r.write then s.retryHub ph else s

/-- A request that its port answers itself: refused by its IDE policy, or outside SERVICE (R254, R262). -/
def State.portRefuses (s : State) (r : HeldReq) : Option State :=
  if s.ideRefuses r then some ((s.count (P.portIdeRefused (r.port / 32)) 1).accessFail r 1)
  else if !s.serving then some (s.reply r none)
  else none

/-- Every credit of a request's channel is consumed (R250). -/
def LinkRec.noCredit (l : LinkRec) (r : HeldReq) : Bool :=
  let ch := if r.write then 1 else 0
  Tab.get ch l.occ != 0 && Tab.get ch l.granted == 0

/-- Credits that the partner of link k returns with its next request come back (R251), and what they let go at the hubs goes. -/
def State.backWith (s : State) (k : Nat) (ph : Phys) : State :=
  if (s.link k).back = 1 then
    (if (s.link k).full then ((s.creditsBack k).retryHub ph).syncReq k else s.creditsBack k)
  else s

/-- A request arrives at its port (R30, R254, R297). -/
def State.arrive (s : State) (r : HeldReq) (ph : Phys) : State :=
  if !s.ldUp r.port then s
  else
    match s.portRefuses r with
    | some s => s
    | none =>
      if (Tab.get r.port s.reg.masters).hold.isEmpty && s.gateOk r then s.gatePass r ph
      else s.holdAtGate r.port { r with gated := true }

/-- The DPA a host address decodes to under an LD's committed HDM decoders (R245). -/
def State.decodeHdm (s : State) (port addr : Nat) : Option Nat :=
  ((s.ld (ldKey port)).hdm.filter (fun p => p.2.on)).findSome? (fun p =>
    let d := p.2
    if d.base ≤ addr ∧ addr < d.base + d.size ∧ 0 < d.gran ∧ 0 < d.ways then
      let off := addr - d.base
      some (d.dpa + off / (d.gran * d.ways) * d.gran + off % d.gran)
    else none)

/-- A request that reaches no DPA at its port: no decoder takes its host address, or the DPA does not exist. It is refused with
NO_WINDOW (R41, R56); its DPA is recorded as the address modulo 2^42. DESIGN CHOICE (log 87). -/
def State.noDpa (s : State) (r : HeldReq) : State :=
  if !s.ldUp r.port then s else match s.portRefuses r with | some s => s | none => s.accessFail r 1

/-- A read, a write as it arrives at its port. -/
def State.readReq (s : State) (port want dpa : Nat) : HeldReq :=
  { port := port, dpa := dpa, write := false, data := [], mask := 0, bad := false, want := want, gated := false, since := s.now, promoted := false }
def State.writeReq (s : State) (port : Nat) (data : List Byte) (mask : Nat) (poison parity : Bool) (keep dpa : Nat) : HeldReq :=
  { port := port, dpa := dpa, write := true, data := padTo 64 data, mask := mask, bad := poison, parity := parity, want := keep, gated := false,
    since := s.now, promoted := false }

/-- TOLLGATE_RELEASE (R297): the oldest held request of a master becomes eligible. -/
def execTollgateRelease (port : Fin 512) (ph : Phys) (s : State) : R :=
  .next (match (Tab.get port.val s.reg.masters).hold with
    | [] => s
    | r :: rs => if s.gateOk r then ((s.modMaster port (fun m => { m with hold := rs })).syncReq (port / 16)).gatePass r ph else s)

/-! Events at the hub. -/

/-- GATHER_TIMEOUT (R33): owner 0 is the block map, h + 1 the open version of HID h. -/
def execGatherTimeout (block : Fin 1073741824) (owner : Fin 257) (env : Env) (s : State) : R :=
  let key := block.val + 2 ^ 30 * owner.val
  .next (match Tab.find? key s.mem.gather with
    | some g => if g.first + usT 4 ≤ s.now then ((s.settlePack key).resolve key env true).retryHub env.ph else s
    | none => s)

/-- The oldest waiting component write as a request. -/
def CompWrite.req (x : CompWrite) : HeldReq :=
  { port := x.port, dpa := x.dpa, write := true, data := x.data, mask := x.mask, bad := x.bad, want := 0, gated := x.gated, since := x.since,
    promoted := false }

/-- Every copy built from block i of an area of window w is gone: panel cache, waypoint tiles, lines in the hosts' caches (R108). -/
def State.loseCopies (s : State) (w area i : Nat) : State :=
  let s := s.invalidate w area i
  let t := s.winDesc w
  let b0 := s.par (P.winBase w) / 4096
  let lines := (((s.shared.dir.map Prod.snd).flatten).filter (fun e =>
    decide (b0 ≤ e.line / 64 ∧ e.line / 64 < b0 + t.tiles * t.wOut) && t.reaches area i ((e.line / 64 - b0) / t.wOut)))
  forAll (fun (e : DirEnt) s => s.snoopAll e true) lines s

/-- A component write is accepted: its copies are gone, its line is gathered. -/
def State.compAccept (s : State) (x : CompWrite) (w : Nat) (v : View) : State :=
  let b := x.dpa / 4096
  let s := s.loseCopies w (s.areaOf w b).1 (s.areaOf w b).2
  let s := if v = .main then s.hostTouch b x.dpa else s
  (s.gatherLine v w x.dpa x.mask x.data x.bad x.port x.hid).reply x.req none

/-- COMPONENT_INVALIDATE (R108): the oldest waiting component write is accepted once every copy built from its block is gone. -/
def execComponentInvalidate (ph : Phys) (s : State) : R :=
  .next (match s.fac.compWait with
    | [] => s
    | x :: xs =>
      let s := s.modFac (fun f => { f with compWait := xs })
      match s.winAt x.dpa, s.viewFor x.hid x.dpa true with
      | some w, .ok v => (s.compAccept x w v).retryHub ph
      | _, _ => s.reply x.req none)

/-- The oldest detour read returns: a block's read (R165), or the flushing read of its slot (R164). -/
def State.detourDone (s : State) (host : HostData) : State :=
  match s.mem.detReads with
  | [] => s
  | d :: ds =>
    let s := ((s.modMem (fun m => { m with detReads := ds })).devGrant 5).linkGrant ((s.home (d.blk * 4096)).getD 0)
    let e := entryOf (s.wordIn .main d.blk)
    let env : Env := { ph := noPhys, host := .failed, slots := if e.state = stDetour then [(e.addr, host)] else [] }
    if d.flush then (s.flushDone d.blk (match host with | .data _ => true | _ => false) env).retryHub noPhys
    else
      let r := { s.readReq d.port 0 d.dpa with gated := d.gated, since := d.since }
      if e.state ≠ stDetour then
        (if e.state = stPoison then s.reply r none else s.serveStored r .main d.blk 0 noPhys)
      else
        match s.slotData d.blk e.addr env with
        | none => (s.count P.detTimeout 1).reply r none
        | some none => (s.detourBad d.blk (some d.port) d.hid).reply r none
        | some (some x) => s.reply r (some (cut (d.dpa % 4096 / 64 * 64) 64 x))

/-- DETOUR_READ_COMPLETE (R165). -/
def execDetourReadComplete (host : HostData) (s : State) : R := .next (s.detourDone host)

end Sys2Proof.Machine
end

