-- ==== Sys2Proof/Machine/Engine.lean ====
section
/-! DEFINITION. Compute blocks at work: the device record, task contexts and the dispatch of work tiles, retirement of blocks,
hang records and the start of an engine reset (R18, R183, R358, R371-R377, R401). -/
namespace Sys2Proof.Machine

/-- Change recovery's record; integrity's record. -/
def State.modRecov (s : State) (f : Recov → Recov) : State := { s with recov := f s.recov }
def State.modInteg (s : State) (f : Integ → Integ) : State := { s with integ := f s.integ }

/-! The device record in the flash (R401). -/

/-- Copy A is the current one: the higher sequence among the copies that verify. -/
def Boot.useA (b : Boot) : Bool := b.recA.good && (!b.recB.good || decide (b.recB.seq ≤ b.recA.seq))

/-- The device record that is read (R401). -/
def Boot.record (b : Boot) : DevRecord := if b.useA then b.recA else if b.recB.good then b.recB else default

/-- A new device record is written over the other copy (R401). It raises fw_svn_floor to the svn of an image that has reached
STANDBY (R402). -/
def State.saveRec (s : State) (f : DevRecord → DevRecord) : State :=
  let r := s.boot.record
  let s := if s.dev ≠ dsInit then s.setPar P.fwSvnFloor (Nat.max (s.par P.fwSvnFloor) (s.par P.fwSvn)) else s
  let n := { f r with good := true, seq := r.seq + 1, floor := s.par P.fwSvnFloor }
  { s with boot := if s.boot.useA then { s.boot with recB := n } else { s.boot with recA := n } }

/-! Task contexts (R375) and dispatch (R18, R183). -/

/-- The key of context i of compute block cb, given as region * 16 + block. -/
def ctxKey (cb i : Nat) : Nat := cb * 16 + i

/-- A context; a context is set or cleared. -/
def State.ctxAt (s : State) (k : Nat) : Ctx := Tab.get k s.recov.ctx
def State.setCtx (s : State) (k : Nat) (c : Ctx) : State := s.modRecov (fun r => { r with ctx := Tab.set k c r.ctx })

/-- The contexts that run a command. -/
def State.ctxsOf (s : State) (h : Nat) : List Nat := s.recov.ctx.filterMap (fun p => if p.2.kind == 1 && p.2.cmd == h then some p.1 else none)

/-- A command's contexts are cleared. -/
def State.clearCtxs (s : State) (h : Nat) : State :=
  s.modRecov (fun r => { r with ctx := r.ctx.filter (fun p => !(p.2.kind == 1 && p.2.cmd == h)) })

/-- A free context among 0-13 of block cb. -/
def State.freeCtx (s : State) (cb : Nat) : Option Nat := (List.range 14).find? (fun i => (s.ctxAt (ctxKey cb i)).kind == 0)

/-- Compute blocks of regions `qs` that take work, from the work-tile pointer on (R18). -/
def State.workBlocks (s : State) (qs : List Nat) : List Nat :=
  let l := (qs.map (fun q => (s.activeBlocks q).map (fun c => q * 16 + c))).flatten.filter (fun cb => (Tab.find? (unitBlk cb) s.recov.eng).isNone)
  let p := Tab.get 12 s.arb
  l.filter (fun cb => decide (p ≤ cb)) ++ l.filter (fun cb => decide (cb < p))

/-- Which work tiles of a command may start: `can`; the one to dispatch after a tile; the one that the same context runs after a tile. -/
structure TilePlan where
  can : Nat → Bool
  adv : Nat → Nat
  follow : Nat → Option Nat

/-- The 64-column groups of a step with phases, and its tiles of phase 1 (R183). -/
def StepRec.groups (x : StepRec) : Nat := x.all / (2 * x.rt + 1)
def StepRec.p1 (x : StepRec) : Nat := x.rt * x.groups

/-- The plan of a step (R182, R183): in phase 1 each 64-column group runs through its rows in one context; phases 2 and 3 start when the phase
before is complete. Tiles are numbered by phase, in phase 1 by group. -/
def StepRec.plan (x : StepRec) : TilePlan :=
  { can := fun t => decide (t < x.all) && (x.rt == 0 || decide (t < x.p1) || (decide (t < x.p1 + x.groups) && decide (x.tiles ≤ x.all - x.p1)) ||
      decide (x.tiles ≤ x.p1))
    adv := fun t => if t < x.p1 then t + x.rt else t + 1
    follow := fun t => if t < x.p1 ∧ (t + 1) % x.rt ≠ 0 then some (t + 1) else none }

/-- The plan of a FACTOR of n tiles. -/
def factorPlan (n : Nat) : TilePlan := { can := fun t => decide (t < n), adv := fun t => t + 1, follow := fun _ => none }

/-- Give further tiles of a command to blocks that do not yet run it, from tile `next` on. -/
def State.placeOn (s : State) (c : Ctx) (p : TilePlan) : List Nat → Nat → State × Nat
  | [], next => (s, next)
  | cb :: cbs, next =>
    if !p.can next || (s.ctxsOf c.cmd).any (fun k => k / 16 == cb) then s.placeOn c p cbs next
    else
      match s.freeCtx cb with
      | some i => ((((s.setCtx (ctxKey cb i) { c with tile := next }).arbGrant 12 64 cb).arbGrant (64 + cb) 16 i).blkGrant cb).placeOn c p cbs (p.adv next)
      | none => s.placeOn c p cbs next

/-- The context of a command's work. -/
def State.ctxFor (s : State) (h object : Nat) : Ctx :=
  let c := (s.cmdAt h).getD { idx := 0, entry := [], phase := 0, status := 0, result := 0, flags := 0 }
  { kind := 1, opcode := c.op, queue := h / 65536, cid := c.cid, object := object, tile := 0, cmd := h }

/-- The regions of a DPA's stack set. -/
def State.regionsOf (s : State) (dpa : Nat) : List Nat :=
  match s.partAt dpa with | some n => setRegions (s.par (P.partStackSet n)) | none => []

/-- The regions an OPT_STEP runs in: those of the stack set of w (R183, R228). -/
def State.stepRegions (s : State) (h : Nat) : List Nat :=
  match s.cmdAt h with | some c => s.regionsOf (fld (c.d 3) 61 32 * 4096) | none => []

/-- Dispatch the work tiles of one OPT_STEP, of one FACTOR. -/
def State.dispatchStep (s : State) (j : Nat) (x : StepRec) : State :=
  if x.done || x.tiles = 0 then s
  else
    let (s, d) := s.placeOn (s.ctxFor x.cmd j) x.plan (s.workBlocks (s.stepRegions x.cmd)) x.disp
    s.modJob j (fun r => { r with steps := r.steps.map (fun y => if y.cmd = x.cmd then { y with disp := d } else y) })
def State.dispatchFactor (s : State) (d : Nat) (x : FactorRun) : State :=
  if !x.on || x.tiles = 0 then s
  else
    let qs := match s.winOfDesc d with | some w => s.regionsOf (s.par (P.winBase w)) | none => []
    let (s, n) := s.placeOn (s.ctxFor x.cmd d) (factorPlan (s.desc d).tiles) (s.workBlocks qs) x.disp
    s.modFac (fun f => { f with runs := Tab.mod d (fun y => { y with disp := n }) f.runs })

/-- Every work tile that can start does (R183). -/
def State.dispatchAll (s : State) : State :=
  let s := forAll (fun (p : Nat × JobRec) s => forAll (fun x s => s.dispatchStep p.1 x) p.2.steps s) s.jobs s
  forAll (fun (p : Nat × FactorRun) s => s.dispatchFactor p.1 p.2) s.fac.runs s

/-- A work tile of an OPT_STEP runs again elsewhere or anew: counted as a replay (R184, R185). -/
def State.countReplay (s : State) (c : Ctx) : State :=
  if c.kind = 1 ∧ c.opcode = 0x10 then (s.count (P.jobReplays c.object) 1).count P.optReplayCount 1 else s

/-- Contexts on block cb move, with their tiles, to other active blocks that have room, and are replayed there (R184, R358). -/
def State.moveCtxs (s : State) (cb : Nat) : State :=
  forAll (fun i s =>
    let c := s.ctxAt (ctxKey cb i)
    if c.kind ≠ 1 then s
    else
      match ((s.workBlocks [cb / 16, 0, 1, 2, 3]).filter (· ≠ cb)).findSome? (fun x => (s.freeCtx x).map (fun i => ctxKey x i)) with
      | some k => ((s.countReplay c).setCtx (ctxKey cb i) default).setCtx k c
      | none => s) (List.range 14) s

/-! Observation and retirement (R5, R357, R358, R359). -/

/-- integ_active (R365). -/
def State.setActive (s : State) : State :=
  s.setPar P.integActive (([0, 1, 2, 3].map (fun q => ((s.activeBlocks q).map (fun c => 2 ^ (9 * q + c))).sum)).sum)

/-- Change a block's record. -/
def State.modBlk (s : State) (cb : Nat) (f : BlkRec → BlkRec) : State := s.modInteg (fun i => { i with blk := Tab.mod cb f i.blk })
def State.blk (s : State) (cb : Nat) : BlkRec := Tab.get cb s.integ.blk

/-- blk_state of block cb. -/
def State.blkSt (s : State) (cb : Nat) : Nat := s.par (P.blkState (cb / 16) (cb % 16))

/-- A block goes OBSERVED (R357). -/
def State.observe (s : State) (cb : Nat) : State :=
  let s := s.modBlk cb (fun b => { b with clear := 0 })
  if s.blkSt cb = 0 then s.setPar (P.blkState (cb / 16) (cb % 16)) 1 else s

/-- A BLOCK_RETIRED record (R363): the replacement's unit or 0xFFFF. -/
def State.retiredRecord (s : State) (cb repl : Nat) : State :=
  let q := cb / 16
  s.record { kind := 4, unit := unitBlk cb, cls := 3, ctx := [], flags := 0, action := 3,
             detail := [(0, cborUint repl), (1, cborUint (s.par (P.blkPermanent q (cb % 16)))), (2, cborUint (s.activeBlocks q).length)] }

/-- The spare C8 of region q may replace a block: SPARE, its last round passed (R358). -/
def State.spareReady (s : State) (q : Nat) : Bool := s.par (P.blkState q 8) == 2 && decide (1 ≤ s.par (P.blkCleanRounds q 8))

/-- The reads queued at block cb's pipeline go to the next active block's (R114, R354). -/
def State.movePipe (s : State) (cb : Nat) : State :=
  forAll (fun p s => s.pipePush p) (Tab.get cb s.fac.pipes) (s.modFac (fun f => { f with pipes := Tab.set cb [] f.pipes }))

/-- A block is retired (R358): its work moves, the saved repair map takes it, C8 is tried in its place, and a region with fewer
than 6 active blocks takes the device out of service. -/
def State.retireBlock (s : State) (cb : Nat) : State :=
  let q := cb / 16
  if 2 ≤ s.blkSt cb ∧ cb % 16 ≠ 8 ∨ 3 ≤ s.blkSt cb then s
  else
    let s := (s.setPar (P.blkState q (cb % 16)) 3).setActive
    let s := ((s.saveRec (fun r => { r with unusable := Tab.set cb true r.unusable })).moveCtxs cb).movePipe cb
    let tryC8 := cb % 16 ≠ 8 && s.spareReady q
    let s := if tryC8 then s.modBlk (q * 16 + 8) (fun b => { b with promote := cb + 1, due := true, dueAt := s.now })
      else s.retiredRecord cb 0xFFFF
    let s := s.dispatchAll
    if (s.activeBlocks q).length < 6 then s.raiseOut 6 else s

/-- A confirmed permanent fault (R347, R356, R358): kept in the flash; the second retires the block. -/
def State.permanent (s : State) (cb : Nat) : State :=
  let k := P.blkPermanent (cb / 16) (cb % 16)
  let n := Nat.min 2 (s.par k + 1)
  let s := (s.setPar k n).saveRec (fun r => { r with permanent := Tab.set cb n r.permanent })
  let s := s.observe cb
  if 2 ≤ n then s.retireBlock cb else s

/-- Codec lane l of block cb is replaced by L8 (R26, R359); a second replacement makes the block unusable. A faulty L8 that replaces none
is no spare any more. -/
def State.replaceLane (s : State) (cb l : Nat) : State :=
  let key := fun (i : Nat) => P.laneRec (cb / 16) (cb % 16) i
  if fld (s.par (key l)) 31 24 = 2 then s
  else
    let used := (List.range 8).any (fun i => fld (s.par (key i)) 31 24 == 2) || fld (s.par (key 8)) 31 24 == 2
    let s := s.setPar (key l) (setFld (s.par (key l)) 31 24 2)
    if used then s.retireBlock cb
    else if l = 8 then s.saveRec (fun r => { r with lanes := Tab.set (cb * 16 + 8) 2 r.lanes })
    else
      let s := s.setPar (key 8) (setFld (s.par (key 8)) 31 24 0)
      let s := s.saveRec (fun r => { r with lanes := Tab.set (cb * 16 + l) 2 r.lanes })
      s.record { kind := 5, unit := unitOf 4 (cb / 16 * 256 + cb % 16 * 16 + l), cls := 3, ctx := [], flags := 0, action := 4,
                 detail := [(0, cborUint (unitOf 4 (cb / 16 * 256 + cb % 16 * 16 + 8)))] }

/-- A confirmed fault of a codec lane (R349, R359). -/
def State.laneFault (s : State) (cb l : Nat) : State :=
  let k := P.laneRec (cb / 16) (cb % 16) l
  let n := Nat.min 255 (fld (s.par k) 23 16 + 1)
  let s := s.setPar k (setFld (s.par k) 23 16 n)
  if 2 ≤ n then s.replaceLane cb l else s

/-! Hang records (R376). -/

/-- The compute block of a unit field, if it is one. -/
def unitIsBlk (unit : Nat) : Bool := unit / 4096 == 3
def blkOfUnit (unit : Nat) : Nat := unit % 4096

/-- Context i of block cb as a hang record shows it: 14 is the reconstruction pipeline, 15 the dice round. -/
def State.ctxShown (s : State) (cb i : Nat) : Ctx :=
  if i < 14 then s.ctxAt (ctxKey cb i)
  else if i = 14 then
    match Tab.get cb s.fac.pipes with
    | [] => default
    | p :: _ =>
      let w := (s.winAt (p.blk * 4096)).getD 0
      { kind := 2, opcode := 0, queue := 0xFFFF, cid := 0, object := s.par (P.winDescriptor w),
        tile := (p.blk - s.par (P.winBase w) / 4096) / (s.desc (s.par (P.winDescriptor w))).wOut, cmd := 0 }
  else if s.integ.dice.any (fun p => p.2.blk == cb || p.2.partner == cb) then
    { kind := 3, opcode := 0, queue := 0xFFFF, cid := 0, object := 0xFFFF, tile := 0, cmd := 0 }
  else default

/-- The 16 bytes of a context entry. -/
def Ctx.bytes (c : Ctx) : List Byte :=
  leBytes 1 c.kind ++ leBytes 1 c.opcode ++ leBytes 2 c.queue ++ leBytes 2 c.cid ++ leBytes 2 c.object ++ leBytes 8 c.tile

/-- The suspects of a hung compute block: its contexts of kind 1 or 2, ascending (R377). -/
def State.suspectsOf (s : State) (cb : Nat) : List Nat :=
  (List.range 15).filter (fun i => (s.ctxShown cb i).kind == 1 || (s.ctxShown cb i).kind == 2)

/-- A set of small numbers as a bitmap. -/
def bitmap (l : List Nat) : Nat := (l.map (fun i => 2 ^ i)).sum

/-- The bytes of a hang record from 0x040 on (R376). What no register of the device shows (sequencer, busy units, scratchpad
sample) is a free value. -/
def State.hangBody (s : State) (unit waiting : Nat) : List Byte :=
  let f := fun (n i : Nat) => leBytes n (Config.free (s.freeCtr + i))
  if unitIsBlk unit then
    let cb := blkOfUnit unit
    let cr := fun (b : Nat) => leBytes 1 (16 - Tab.get (cb * 4 + b) s.fac.credits)
    let tile := match s.suspectsOf cb with | i :: _ => (s.ctxShown cb i).tile | [] => 0
    f 4 0 ++ f 1 1 ++ cr 0 ++ cr 1 ++ cr 2 ++ leBytes 8 tile ++ f 8 2 ++ f 2 3 ++ f 1 4 ++ f 1 5 ++ f 4 6 ++ zeros 32 ++
      ((List.range 16).map (fun i => (s.ctxShown cb i).bytes)).flatten ++ f 4096 7
  else leBytes 8 waiting ++ f 8 0 ++ zeros 4336

/-- Set a byte of a stored hang record. -/
def State.hangByte (s : State) (seq pos v : Nat) : State :=
  s.modRecov (fun r => { r with hangs := Tab.mod (seq % 64) (fun b => if b.isEmpty then b else splice pos [BitVec.ofNat 8 v] b) r.hangs })

/-- Outcomes of a hang record (R376). -/
def hgGuilty : Nat := 1
def hgUnattributed : Nat := 2
def hgRetired : Nat := 3
def hgEscalated : Nat := 4
def hgResumed : Nat := 5

/-- A hang record is saved and a HANG record sent (R376). -/
def State.hangSave (s : State) (unit trigger n waiting : Nat) : State :=
  let seq := (s.par P.hangSeq + 1) % 2 ^ 32
  let sus := if trigger = 1 && unitIsBlk unit then bitmap (s.suspectsOf (blkOfUnit unit)) else 0
  let b := leBytes 4 seq ++ leBytes 4 s.ms ++ leBytes 2 unit ++ leBytes 1 trigger ++ leBytes 1 0 ++ leBytes 2 sus ++ leBytes 1 0xFF ++
    leBytes 1 n ++ zeros 48 ++ s.hangBody unit waiting
  let s := (s.setPar P.hangSeq seq).modRecov (fun r => { r with hangs := Tab.set (seq % 64) b r.hangs })
  { s with freeCtr := s.freeCtr + 8 }.record
    { kind := 11, unit := unit, cls := 0, ctx := [], flags := 0, action := 0, detail := [(0, cborUint seq), (1, cborUint sus)] }

/-! The start of an engine reset (R371, R372, R375). -/

/-- Engine resets of a unit within 10 minutes, the new one included. -/
def State.engCount (s : State) (unit : Nat) : Nat := (recent s.now (msT 600000) (Tab.get unit s.recov.engTimes)).length + 1

/-- A dice round that involves block cb is abandoned, nothing counted; it is due again at once (R355). -/
def State.diceAbandon (s : State) (cb : Nat) (again : Bool) : State :=
  let hit := s.integ.dice.filter (fun p => p.2.blk == cb || p.2.partner == cb)
  let s := s.modInteg (fun i => { i with dice := i.dice.filter (fun p => !(p.2.blk == cb || p.2.partner == cb)) })
  forAll (fun (p : Nat × DiceRun) s => if again then
    s.modBlk p.2.blk (fun b => { b with due := true, dueAt := s.now, seed := p.2.seed, cmd := p.2.cmd }) else s) hit s

/-- The region of a unit that an engine reset acts on: block, stack controller, port block or hub (R4, R20). -/
def unitRegion (unit : Nat) : Nat :=
  match unit / 4096 with
  | 1 => unit % 4096
  | 5 => unit % 4096 / 8
  | _ => unit % 4096 / 16

/-- The scratchpad of a compute block is reset (R114, R115, R371): its panels, its reconstruction buffer, the credits of its pipeline. -/
def State.dropPad (s : State) (cb : Nat) : State :=
  s.modFac (fun f => { f with
    recon := Tab.erase cb f.recon, panels := Tab.erase cb f.panels
    credits := f.credits.filter (fun p => p.1 / 4 != cb), lines := f.lines.filter (fun p => p.1 / 4 != cb) })

/-- An engine reset of a unit starts (R375): the block stops, the hang record is saved, the reset is counted. -/
def State.engStart (s : State) (unit trigger waiting : Nat) : State :=
  if (Tab.find? unit s.recov.eng).isSome || (Tab.find? (unitRegion unit) s.recov.region).isSome then s
  else
    let n := s.engCount unit
    let sus := if trigger = 1 && unitIsBlk unit then s.suspectsOf (blkOfUnit unit) else []
    let s := (s.count P.devEngineResets 1).hangSave unit trigger n waiting
    let e : EngReset := { start := s.now, trigger := trigger, hang := s.par P.hangSeq, sig := s.par P.integSigSeq, suspects := sus, searching := false, replay := 0 }
    let s := s.modRecov (fun r => { r with
      eng := Tab.insert unit e (Tab.erase unit r.eng)
      engTimes := Tab.set unit (s.now :: recent s.now (msT 600000) (Tab.get unit r.engTimes)) r.engTimes })
    if unitIsBlk unit then (s.diceAbandon (blkOfUnit unit) true).dropPad (blkOfUnit unit) else s

end Sys2Proof.Machine
end

