-- ==== Sys2Proof/Machine/Recon.lean ====
section
/-! DEFINITION. Factor pipelines, waypoint staging, and the withdrawal of windows (R54, R97, R114-R120, R191, R241). -/
namespace Sys2Proof.Machine

/-! Factor pipelines (R114-R116). -/

/-- One read of tensor-view block i of window w, answered from its reconstruction through the view it was accepted under (R114, R202). -/
def State.reconAnswer (s : State) (w i cb : Nat) (env : Env) (p : PipeRead) : State :=
  let r := p.req
  let line := p.dpa % 4096 / 64
  let v := s.viewOfCode p.hid p.dpa p.view
  let s := if (s.link (p.port / 16)).full then s.count P.facStallEgress 1 else s
  match (Tab.get cb s.fac.recon).find? (fun x => x.1 == p.blk && v == .main) with
  | some x => (s.delivered w i x.2 [line]).reply r (x.2.line line)
  | none =>
    match s.reconBlock v w i env (some cb) (some p.port) p.hid with
    | (none, s) => s.reply r none
    | (some x, s) =>
      let s := if v = .main ∧ x.bad.isEmpty then
          s.modFac (fun f => { f with recon := Tab.set cb (((p.blk, x) :: Tab.get cb f.recon).take 64) f.recon })
        else s
      (s.delivered w i x [line]).reply r (x.line line)

/-- Requests the hubs hold for a pipeline queue are tried again, oldest first (R114). -/
def State.retryPipes (s : State) : State :=
  let l := s.fac.held
  forAll (fun p s => s.pipeJoin p) l (s.modFac (fun f => { f with held := [] }))

/-! Credits (R115, R116). -/

/-- The buffers of a pipeline: 0 product, 1 residual, 2 output; each of 16 lines. -/
def bufKey (cb i : Nat) : Nat := cb * 4 + i

/-- The credit law of R115: the free credits of each buffer and its occupied lines are 16. -/
def State.creditsOk (s : State) (cb : Nat) : Bool :=
  [0, 1, 2].all (fun i => 16 - Tab.get (bufKey cb i) s.fac.credits + Tab.get (bufKey cb i) s.fac.lines == 16)

/-- A producer takes a credit and fills a line of its buffer; the line leaves it and the credit returns (R115). -/
def State.takeLine (s : State) (k : Nat) : State :=
  s.modFac (fun f => { f with credits := Tab.mod k (· + 1) f.credits, lines := Tab.mod k (· + 1) f.lines })
def State.passLine (s : State) (k : Nat) : State :=
  s.modFac (fun f => { f with credits := Tab.mod k (· - 1) f.credits, lines := Tab.mod k (· - 1) f.lines })

/-- A line of a pipeline passes its buffers (R115): product and residual, the adder, output, the port's transmit queue. -/
def State.passThrough (s : State) (cb : Nat) : State :=
  let s := (s.takeLine (bufKey cb 0)).takeLine (bufKey cb 1)
  (((s.passLine (bufKey cb 0)).passLine (bufKey cb 1)).takeLine (bufKey cb 2)).passLine (bufKey cb 2)

/-- A credit of a pipeline's product buffer is lost, so that the check of R116 fails. -/
def State.loseCredit (s : State) (cb : Nat) : State := s.modFac (fun f => { f with credits := Tab.mod (bufKey cb 0) (· + 1) f.credits })

/-- The head block of a pipeline is reconstructed and every read of it answered (R114). -/
def State.reconHead (s : State) (cb : Nat) (env : Env) : State :=
  match Tab.get cb s.fac.pipes with
  | [] => s
  | p :: ps =>
    let mine := (p :: ps).filter (fun x => x.blk == p.blk)
    let s := s.modFac (fun f => { f with pipes := Tab.set cb (ps.filter (fun x => x.blk != p.blk)) f.pipes })
    let s := match s.winAt (p.blk * 4096) with
      | none => forAll (fun (x : PipeRead) s => s.accessFail x.req 1) mine s
      | some w => forAll (fun x s => (s.passThrough cb).reconAnswer w (p.blk - s.par (P.winBase w) / 4096) cb env x) mine ((s.arbGrant (64 + cb) 16 14).blkGrant cb)
    s.retryPipes

/-- A pipeline works on its head block; a failed credit check is an engine fault, its line recomputed after the reset (R114, R116).
`creditFault` says that a credit has been lost. -/
def State.reconstruct (s : State) (cb : Nat) (env : Env) (creditFault : Bool) : State :=
  match Tab.get cb s.fac.pipes with
  | [] => s
  | p :: _ =>
    if s.blkAway cb || s.integ.flags.any (fun f => f.work == .recon p.blk) then s
    else
      let s := if creditFault then s.loseCredit cb else s
      if !s.creditsOk cb then (s.count P.facCreditFault 1).engStart (unitBlk cb) 2 0 else s.reconHead cb env

/-- FACTOR_RECONSTRUCT (R114): compute block `block` of `region`; what its fetches meet; whether the credit check fails. -/
def execFactorReconstruct (region : Fin 4) (block : Fin 9) (env : Env) (creditFault : Bool) (s : State) : R :=
  .next (s.reconstruct (region * 16 + block) env creditFault)

/-! Waypoints (R119, R120). -/

/-- A read that waited for a staged tile of window w is answered from the tier, or goes to its pipeline where the copy gives no answer. -/
def State.stagedRead (s : State) (u w : Nat) (env : Env) (p : PipeRead) : State :=
  let i := p.blk - s.par (P.winBase w) / 4096
  let line := p.dpa % 4096 / 64
  if s.viewOfCode p.hid p.dpa p.view != s.latestView p.blk then s.pipePush p
  else
    match s.stagedBuilt u w i p.dpa env with
    | (none, s) => s.pipePush p
    | (some x, s) => if x.bad.contains line then s.pipePush p else (s.delivered w i x [line]).reply p.req (x.line line)

/-- Read p waits under waypoint u for tile i. -/
def State.waitsTile (s : State) (u w i : Nat) (p : Nat × PipeRead) : Bool :=
  p.1 == u && (p.2.blk - s.par (P.winBase w) / 4096) / (s.desc (s.wpDesc u)).wOut == i

/-- A tile of waypoint u is staged, and the reads that waited for it are answered from the tier, or go to the pipelines where
there is no room. -/
def State.wpStage (s : State) (u : Nat) (env : Env) : State :=
  if s.wpState u ≠ 2 ∧ s.wpState u ≠ 4 then s
  else
    match s.nextTile u, s.winOfDesc (s.wpDesc u) with
    | some i, some w =>
      let mine := s.waitsTile u w i
      let (ok, s) := s.stageTile u i env
      if !ok then s.unwait u (fun p => mine (u, p))
      else
        let go := s.fac.wpWait.filter mine
        let s := s.modFac (fun f => { f with wpWait := f.wpWait.filter (fun p => !mine p) })
        forAll (fun (p : Nat × PipeRead) s => s.stagedRead u w env p.2) go s
    | _, _ => s

/-- WAYPOINT_TILE_STAGED (R120). -/
def execWaypointTileStaged (waypoint : Fin 512) (env : Env) (s : State) : R := .next (s.wpStage waypoint env)

/-! Withdrawal of windows (R54, R97, R191, R241). -/

/-- A request accepted for window w, or a block gathered through it, is not yet done (R54). -/
def State.winBusy (s : State) (w : Nat) : Bool :=
  let isIn := fun (dpa : Nat) => s.winHas w dpa
  s.reg.masters.any (fun p => p.2.hold.any (fun r => r.early && isIn r.dpa)) || s.recov.held.any (fun r => isIn r.dpa) || s.shared.waits.any (fun r => isIn r.dpa) ||
  s.fac.pipes.any (fun p => p.2.any (fun x => isIn x.dpa)) || s.fac.held.any (fun x => isIn x.dpa) ||
  s.fac.wpWait.any (fun x => isIn x.2.dpa) || s.fac.compWait.any (fun x => isIn x.dpa) || s.mem.detReads.any (fun x => isIn x.dpa) ||
  s.mem.gather.any (fun p => p.2.win == w) || s.mem.packJobs.any (fun p => p.2.win == w) ||
  (s.factorWin w && (Tab.get (s.par (P.winDescriptor w)) s.fac.runs).on)

/-- Window w holds part of reduction n's destination. -/
def State.redInto (s : State) (n w : Nat) : Bool :=
  let r := s.red n
  r.dest != 0 && overlaps (r.dest - 1) (r.count * r.wOut) (s.par (P.winBase w)) (s.par (P.winSize w))

/-- The withdraw of window w takes effect: reductions that need it fault (R191), queues with a ring in it halt (R241). -/
def State.winGone (s : State) (w : Nat) : State :=
  let s := { s with own := { s.own with leaving := s.own.leaving.filter (· ≠ w) } }
  let reds := s.redsOn.filter (fun n => s.redOpen n && ((s.red n).src == w + 1 || s.redInto n w))
  let s := forAll (fun n s => s.redDestLost n (some w) none) reds (s.winDown w)
  forAll (fun q s =>
    let c := s.par (P.qCfg q)
    let inW := fun (base : Nat) => s.winHas w base
    if (fld c 16 16 = 1 && inW (s.par (P.qSqBase q))) || (fld c 17 17 = 1 && inW (s.par (P.qCqBase q))) then s.haltQueue q 0x11 else s)
    s.queuesOn s

/-- Withdraws whose accepted requests are all done take effect (R54). -/
def State.winSettle (s : State) : State := forAll (fun w s => if s.winBusy w then s else s.winGone w) s.own.leaving s

/-- The requests that the tollgates hold for window w were accepted at their ports before its withdraw (R54). -/
def State.markEarly (s : State) (w : Nat) : State :=
  { s with reg := { s.reg with masters := s.reg.masters.map (fun p => (p.1, { p.2 with
      hold := p.2.hold.map (fun r => { r with early := r.early || s.winHas w r.dpa }) })) } }

/-- A write of 2 to win_commit (R54). A second withdraw while the first waits is refused with IN_USE. DESIGN CHOICE (log 85). -/
def State.winWithdraw (s : State) (w : Nat) : State :=
  if s.par (P.winState w) ≠ 1 then s.setPar (P.winStatus w) 0x20
  else if s.own.leaving.contains w then s.setPar (P.winStatus w) 0x20
  else (({ s.setPar (P.winStatus w) 0 with own := { s.own with leaving := s.own.leaving ++ [w] } } : State).markEarly w).winSettle

/-- WIN_COMMIT (R54): the T0 caches fit what an explicit-T0 window leaves them (R162). -/
def execWinCommit (window : Fin 1024) (s : State) : R :=
  .next (s.barWrite (P.winCommit window) 1 (fun s => (s.winCommit window).t0Fit))

/-- WIN_WITHDRAW (R54). -/
def execWinWithdraw (window : Fin 1024) (s : State) : R :=
  .next (s.barWrite (P.winCommit window) 2 (fun s => s.winWithdraw window))

end Sys2Proof.Machine
end

