-- ==== Sys2Proof/Machine/Copy.lean ====
section
/-! DEFINITION. Commands that move data: the checks of their ranges, writing for an engine, COPY, FILL, PACK, UNPACK, FIT_ESTIMATE
(R56, R60, R157, R168-R170, R202, R229). -/
namespace Sys2Proof.Machine

/-! Ranges (R56, R60, R202). -/

/-- The COMMITTED windows that cover [a, e) one after another; none when some byte lies in no window. -/
def State.winsOver (s : State) (a e : Nat) : Nat → Option (List Nat)
  | 0 => if e ≤ a then some [] else none
  | n + 1 =>
    if e ≤ a then some []
    else
      match s.winsOn.find? (fun w => s.winHas w a && !s.own.leaving.contains w) with
      | none => none
      | some w => (s.winsOver (s.par (P.winBase w) + s.par (P.winSize w)) e n).map (fun l => w :: l)

/-- The windows of a range of a command. -/
def State.rangeWins (s : State) (a n : Nat) : Option (List Nat) := s.winsOver a (a + n) (s.winsOn.length + 1)

/-- The status that a command gets for a range it reads or writes, or 0 (R56, R60, R202, R205, R213). -/
def State.rangeStatus (s : State) (hid a n : Nat) (write : Bool) : Nat :=
  match s.rangeWins a n with
  | none => 0x03
  | some ws =>
    let need := fun (w : Nat) => if write then (if s.factorWin w then rW + rF else rW) else rR
    let clip := fun (w : Nat) =>
      let lo := Nat.max a (s.par (P.winBase w))
      (lo, Nat.min (a + n) (s.par (P.winBase w) + s.par (P.winSize w)) - lo)
    if dpaEnd < a + n || !ws.all (fun w => s.grantRange hid (clip w).1 (clip w).2 (need w)) then 0x03
    else
      let points := a :: ((ws.map (fun w => (clip w).1)) ++ (s.srsOn.map (fun r => s.par (P.srBase r))).filter (fun x => decide (a ≤ x ∧ x < a + n)))
      match (points.map (fun x => match s.viewFor hid x write with
          | .error c => c
          | .ok v => if write && s.isBroken v then 1 else 0)).find? (· ≠ 0) with
      | some 5 => 0x3E
      | some 1 => stCapacity
      | some _ => 0x39
      | none => 0

/-- A command of a HID is accepted on a range: a HID without a lease acquires one on each shared region it touches (R214). -/
def State.leaseRange (s : State) (hid a n : Nat) : State :=
  forAll (fun r s => if overlaps a n (s.par (P.srBase r)) (s.par (P.srSize r)) then s.leaseTouch r hid else s) s.srsOn s

/-! Writing for an engine (R33, R51, R157). -/

/-- A piece of a block: line number, bytes, byte enables (0: all), poisoned. -/
abbrev Piece := Nat × List Byte × Nat × Bool

/-- Lines of block b written for a command of a HID, stored at once: none when that needs a frame or a detour slot in a fenced
partition, or what its open version cannot be given, nothing changed (R155, R157, R205). -/
def State.engineBlock (s : State) (hid b : Nat) (ls : List Piece) (env : Env) : Option State :=
  match s.winAt (b * 4096), s.viewFor hid (b * 4096) true with
  | some w, .ok v =>
    let dpa := fun (p : Piece) => b * 4096 + p.1 * 64
    let k := s.par (P.winKind w)
    if k = wGradient then some (forAll (fun (p : Piece) s =>
      s.gradWrite w (dpa p - s.par (P.winBase w)) hid p.2.2.1 (padTo 64 p.2.1) p.2.2.2 512 (dpa p) s.now false) ls s)
    else if k = wT0 then some (forAll (fun (p : Piece) s => s.writeT0 (dpa p) p.2.2.1 p.2.1 p.2.2.2) ls s)
    else if s.isBroken v then none
    else
      let (area, i) := s.areaOf w b
      if s.factorWin w && ((k == wFactor && (area == 0 || area == 7)) || (k == wFactoring && area != 0)) then
        some (s.count P.facDropCount ls.length)
      else
        let s1 := if s.factorWin w then s.invalidate w area i else s
        let s1 := if v = .main then s1.hostTouch b (b * 4096 + (ls.map Prod.fst).headD 0 * 64) else s1
        let key := gatherKey v b
        let s1 := forAll (fun (p : Piece) s => s.gatherLine v w (dpa p) p.2.2.1 p.2.1 p.2.2.2 512 hid) ls s1
        let s1 := s1.resolve key env false
        let s1 := if (Tab.find? key s1.mem.gather).isSome then s1.resolve key env true else s1
        let s1 := s1.settlePack key
        if s1.par P.capDiscardCount = s.par P.capDiscardCount && !s1.isBroken v then some s1 else none
  | _, _ => some s

/-- The pieces of block b that bytes at a DPA cover, with the poisoned lines of the data counted from its first byte. -/
def piecesOf (b dpa : Nat) (d : List Byte) (bad : List Nat) : List Piece :=
  (List.range 64).filterMap (fun i =>
    let l := b * 4096 + i * 64
    let lo := Nat.max l dpa
    let hi := Nat.min (l + 64) (dpa + d.length)
    if lo < hi then
      let bytes := zeros (lo - l) ++ cut (lo - dpa) (hi - lo) d
      let mask := if hi - lo = 64 then 0 else (2 ^ (hi - lo) - 1) * 2 ^ (lo - l)
      some (i, padTo 64 bytes, mask, bad.contains ((lo - dpa) / 64))
    else none)

/-- Write bytes at a DPA, block by block: the lines stored, whether it had to stop, and the state. -/
def State.engineWrite (s : State) (hid dpa : Nat) (d : List Byte) (bad : List Nat) (env : Env) : Nat → Nat × Bool × State
  | 0 => (0, true, s)
  | n + 1 =>
    let b := (dpa + d.length - 1) / 4096 - n
    let ls := piecesOf b dpa d bad
    match s.engineBlock hid b ls env with
    | none => (0, false, s)
    | some s =>
      let (k, ok, s) := s.engineWrite hid dpa d bad env n
      (ls.length + k, ok, s)

/-- Blocks that [dpa, dpa + n) touches. -/
def blocksIn (dpa n : Nat) : Nat := if n = 0 then 0 else (dpa + n - 1) / 4096 + 1 - dpa / 4096

/-! COPY and FILL (R229). -/

/-- The field checks of a COPY's or FILL's length and addresses. -/
def lenOk (n : Nat) : Bool := decide (64 ≤ n ∧ n ≤ 2 ^ 40 - 64) && n % 64 == 0

/-- End of a COPY or FILL: lines written with poison, or lines stored before it stopped. -/
def State.copyEnd (s : State) (h lines bad : Nat) (ok : Bool) : State :=
  if !ok then s.finish h stCapacity lines 0 else if bad = 0 then s.finish h 0 0 0 else s.finish h 0x08 bad 0

/-- COPY mode DEVICE. -/
def State.copyDevice (s : State) (h : Nat) (c : Cmd) (env : Env) : State :=
  let hid := s.qHid (h / 65536)
  let a := c.d 1
  let z := c.d 2
  let n := c.d 3
  if !lenOk n || a % 64 ≠ 0 || z % 64 ≠ 0 || decide (dpaEnd < a + n ∨ dpaEnd < z + n) || overlaps a n z n then s.fail h 0x02
  else if s.rangeStatus hid a n false ≠ 0 then s.fail h (s.rangeStatus hid a n false)
  else if s.rangeStatus hid z n true ≠ 0 then s.fail h (s.rangeStatus hid z n true)
  else
    let (r1, s) := s.cohReady a n false
    let (r2, s) := s.cohReady z n true
    if !(r1 && r2) then s
    else
      let s := (s.leaseRange hid a n).leaseRange hid z n
      let ((d, bad), s) := s.rangeAtHub hid a n env
      let (k, ok, s) := s.engineWrite hid z d bad env (blocksIn z n)
      s.copyEnd h k bad.length ok

/-- COPY mode FROM_HOST. -/
def State.copyFromHost (s : State) (h : Nat) (c : Cmd) (env : Env) : State :=
  let q := h / 65536
  let hid := s.qHid q
  let z := c.d 2
  let n := c.d 3
  if !lenOk n || c.d 1 % 64 ≠ 0 || z % 64 ≠ 0 || decide (dpaEnd < z + n) then s.fail h 0x02
  else if s.rangeStatus hid z n true ≠ 0 then s.fail h (s.rangeStatus hid z n true)
  else
    let (r, s) := s.cohReady z n true
    if !r then s
    else
      let s := (s.leaseRange hid z n).hostRead q h (c.d 1) n
      let (d, bad) := match env.host with
        | .data x => (padTo n x, [])
        | .part x l => (padTo n x, l.filter (fun i => decide (i < n / 64)))
        | _ => (zeros n, List.range (n / 64))
      let (k, ok, s) := s.engineWrite hid z d bad env (blocksIn z n)
      s.copyEnd h k bad.length ok

/-- COPY mode TO_HOST. -/
def State.copyToHost (s : State) (h : Nat) (c : Cmd) (env : Env) : State :=
  let q := h / 65536
  let hid := s.qHid q
  let a := c.d 1
  let n := c.d 3
  if !lenOk n || c.d 2 % 64 ≠ 0 || a % 64 ≠ 0 || decide (dpaEnd < a + n) then s.fail h 0x02
  else if s.rangeStatus hid a n false ≠ 0 then s.fail h (s.rangeStatus hid a n false)
  else
    let (r, s) := s.cohReady a n false
    if !r then s
    else
      let ((d, bad), s) := (s.leaseRange hid a n).rangeAtHub hid a n env
      (s.hostWrite q 1 (c.d 2) d bad).copyEnd h 0 bad.length true

/-- COPY_DEVICE, COPY_FROM_HOST, COPY_TO_HOST (R229): by queue and ring index of the started command, with what the environment gives. -/
def execCopyDevice (queue : Fin 32768) (idx : Fin 65536) (env : Env) (s : State) : R :=
  .next (s.runMove queue idx 0x01 0 (fun h c s => s.copyDevice h c env))
def execCopyFromHost (queue : Fin 32768) (idx : Fin 65536) (env : Env) (s : State) : R :=
  .next (s.runMove queue idx 0x01 1 (fun h c s => s.copyFromHost h c env))
def execCopyToHost (queue : Fin 32768) (idx : Fin 65536) (env : Env) (s : State) : R :=
  .next (s.runMove queue idx 0x01 2 (fun h c s => s.copyToHost h c env))

/-- `n` repetitions of a pattern of 8 bytes. -/
def pattern (p n : Nat) : List Byte := (List.replicate n (leBytes 8 p)).flatten

/-- FILL (R229). -/
def State.fillRange (s : State) (h : Nat) (c : Cmd) (env : Env) : State :=
  let hid := s.qHid (h / 65536)
  let z := c.d 1
  let n := c.d 2
  if !lenOk n || z % 64 ≠ 0 || decide (dpaEnd < z + n) then s.fail h 0x02
  else if s.rangeStatus hid z n true ≠ 0 then s.fail h (s.rangeStatus hid z n true)
  else
    let (r, s) := s.cohReady z n true
    if !r then s
    else
      let (k, ok, s) := (s.leaseRange hid z n).engineWrite hid z (pattern (c.d 3) (n / 8)) [] env (blocksIn z n)
      s.copyEnd h k 0 ok

/-- FILL (R229). -/
def execFill (queue : Fin 32768) (idx : Fin 65536) (env : Env) (s : State) : R :=
  .next (s.runMove queue idx 0x02 0 (fun h c s => s.fillRange h c env))

/-! PACK and UNPACK (R229). -/

/-- Commit a form of a block as an internal move: none when a fence or the want of a frame forbids it. -/
def State.moveForm (s : State) (v : View) (b : Nat) (f : Form) : Option State :=
  match s.partAt (b * 4096) with
  | none => none
  | some n => if s.formNeeds v n b f && s.par (P.partFence n) == 1 then none else s.commitForm v b f [] false

/-- Marked lines of a FLAT block. -/
def State.marksOf (s : State) (e : MapEntry) : List Nat :=
  (List.range 64).filter (fun i => Tab.get (byteOf e.addr / 64 + i) s.mem.marks)

/-- PACK of one block: the new state, and whether it changed; none when it stops. -/
def State.packBlock (s : State) (v : View) (b : Nat) (ph : Phys) : Option (Bool × State) :=
  let e := entryOf (s.wordIn v b)
  if e.state ≠ stFlat || !(s.marksOf e).isEmpty then some (false, s)
  else
    match s.readBlock v b 0 ph none 0xFF with
    | (none, s) => some (false, s)
    | (some (d, _), s) =>
      match s.encodeChoice d with
      | some f =>
        match s.laneForm ((s.winAt (b * 4096)).getD 0) b f d with
        | (some f, s) => (s.moveForm v b f).map (fun s => (true, s))
        | (none, s) => some (false, s)
      | none =>
        match s.winAt (b * 4096) with
        | some w =>
          if s.pinned w then (s.moveForm v b (rawForm d)).map (fun s => (true, s.count P.bicelRawCount 1)) else some (false, s)
        | none => some (false, s)

/-- UNPACK of one block. -/
def State.unpackBlock (s : State) (v : View) (b : Nat) (ph : Phys) : Option (Bool × State) :=
  let e := entryOf (s.wordIn v b)
  if e.state ≠ stPacked then some (false, s)
  else
    match s.partAt (b * 4096) with
    | none => some (false, s)
    | some n =>
      let rs := s.copyRegions n b
      if !rs.all (fun q => s.promoRoom q 1) then none
      else
        match s.readBlock v b 0 ph none 0xFF with
        | (none, s) => some (false, s)
        | (some (d, _), s) =>
          (s.moveForm v b (flatForm d)).map (fun s =>
            (true, (s.modMem (fun m => { m with promoted := Tab.set (gatherKey v b) rs.length m.promoted })).count P.capPromoFrames rs.length))

/-- Blocks from b up, one after another: blocks changed, whether it stopped. -/
def State.eachBlock (s : State) (f : State → Nat → Option (Bool × State)) (b : Nat) : Nat → Nat × Bool × State
  | 0 => (0, true, s)
  | n + 1 =>
    match f s b with
    | none => (0, false, s)
    | some (ch, s) =>
      let (k, ok, s) := s.eachBlock f (b + 1) n
      ((if ch then 1 else 0) + k, ok, s)

/-- PACK and UNPACK: the checks, then each block of the range (R229). -/
def State.packRange (s : State) (h : Nat) (c : Cmd) (unpack : Bool) (ph : Phys) : State :=
  let hid := s.qHid (h / 65536)
  let a := c.d 1
  let n := c.d 2
  if n = 0 ∨ n % 4096 ≠ 0 ∨ a % 4096 ≠ 0 ∨ dpaEnd < a + n then s.fail h 0x02
  else if s.rangeStatus hid a n true ≠ 0 then s.fail h (s.rangeStatus hid a n true)
  else if !(((s.rangeWins a n).getD []).all (fun w => s.par (P.winKind w) == wTransparent && (!unpack || s.par (P.winResidency w) == 0))) then
    s.fail h 0x05
  else
    let one := fun (s : State) (b : Nat) =>
      match s.viewFor hid (b * 4096) true with
      | .ok v => if unpack then s.unpackBlock v b ph else s.packBlock v b ph
      | .error _ => some (false, s)
    let (k, ok, s) := (s.leaseRange hid a n).eachBlock one (a / 4096) (n / 4096)
    s.finish h (if ok then 0 else stCapacity) k 0

/-- PACK, UNPACK (R229). -/
def execPack (queue : Fin 32768) (idx : Fin 65536) (ph : Phys) (s : State) : R :=
  .next (s.runMove queue idx 0x03 0 (fun h c s => s.packRange h c false ph))
def execUnpack (queue : Fin 32768) (idx : Fin 65536) (ph : Phys) (s : State) : R :=
  .next (s.runMove queue idx 0x04 0 (fun h c s => s.packRange h c true ph))

/-! FIT_ESTIMATE (R168-R170). -/

/-- First-fit of one block's sectors into trial frames, by their free sectors. -/
def trialFit (len : Nat) : List Nat → List Nat
  | [] => [16 - len]
  | f :: fs => if len ≤ f then (f - len) :: fs else f :: trialFit len fs

/-- What a sample's blocks add up to: trial frames, counted blocks, sectors of lowerable residuals in half sectors. -/
structure Sample where
  frames : List Nat
  counted : Nat
  low : Nat

/-- The half sectors that lowering a FACTOR block of window w may free: 2 a sector under lower_mode 2, 1 under lower_mode 1. -/
def State.lowWeight (s : State) (b : Nat) (e : MapEntry) : Nat :=
  match s.winAt (b * 4096) with
  | none => 0
  | some w =>
    if s.factorWin w && e.state == stFactor && (s.areaOf w b).1 == 0 then
      match (s.winDesc w).lowerMode with | 2 => 2 * e.len | 1 => e.len | _ => 0
    else 0

/-- One sample block. -/
def State.sampleBlock (s : State) (hid b : Nat) (env : Env) (a : Sample) : Sample × State :=
  match s.viewFor hid (b * 4096) false with
  | .error _ => (a, s)
  | .ok v =>
    let e := entryOf (s.wordIn v b)
    let add := fun (len : Nat) => ({ frames := if len = 0 then a.frames else trialFit len a.frames, counted := a.counted + 1,
                                     low := a.low + s.lowWeight b e } : Sample)
    if e.state = stPacked ∨ e.state = stFactor then (add e.len, s)
    else if e.state = stFlat ∨ e.state = stDetour then
      match s.content v ((s.winAt (b * 4096)).getD 0) b env none hid with
      | (some (d, []), s) => (add (match s.encodeChoice d with | some f => f.len | none => 16), s)
      | (_, s) => (add 16, s)
    else (a, s)

/-- The sample's blocks in DPA order. -/
def State.sampleAll (s : State) (hid b : Nat) (env : Env) (a : Sample) : Nat → Sample × State
  | 0 => (a, s)
  | n + 1 => let (a, s) := s.sampleBlock hid b env a; s.sampleAll hid (b + 1) env a n

/-- max(0, x) of an integer. -/
def posPart (x : Int) : Nat := x.toNat

/-- FIT_ESTIMATE. -/
def State.fitEstimate (s : State) (h : Nat) (c : Cmd) (env : Env) : State :=
  let hid := s.qHid (h / 65536)
  let n := c.d 1
  let p := c.d 2
  if p % 2 ^ 21 ≠ 0 || c.d 3 % 4096 ≠ 0 || c.d 4 % 4096 ≠ 0 || decide (c.d 4 < 4096 ∨ 2 ^ 30 < c.d 4) || c.d 5 % 128 ≠ 0 ||
      decide (dpaEnd < c.d 3 + c.d 4 ∨ dpaEnd < c.d 5 + 128) || !(Tab.get n s.own.parts).inForce then s.fail h 0x02
  else if s.rangeStatus hid (c.d 3) (c.d 4) false ≠ 0 then s.fail h (s.rangeStatus hid (c.d 3) (c.d 4) false)
  else if s.rangeStatus hid (c.d 5) 128 true ≠ 0 then s.fail h (s.rangeStatus hid (c.d 5) 128 true)
  else
    let (r, s) := s.cohReady (c.d 5) 128 true
    if !r then s
    else
    let (a, s) := ((s.leaseRange hid (c.d 3) (c.d 4)).leaseRange hid (c.d 5) 128).sampleAll hid (c.d 3 / 4096) env { frames := [], counted := 0, low := 0 } (c.d 4 / 4096)
    if a.counted = 0 then s.fail h 0x02
    else
      let rs := setRegions (s.par (P.partStackSet n))
      let k := rs.length
      let t := a.frames.length
      let blocks := p / 4096
      let need := cdiv (blocks * t) (k * a.counted)
      let own := fun (q : Nat) => s.chargeFrames n - s.heldIn n q
      let avail := fun (q : Nat) => own q + posPart (s.headroom q - (s.pool : Nat))
      let availLow := fun (q : Nat) => own q + posPart (s.headroom q - (s.lowWater : Nat))
      let short := (rs.map (fun q => need - avail q)).sum
      let shortLow := (rs.map (fun q => need - availLow q)).sum
      let slots := if t = 0 then 0 else (rs.map (fun q => cdiv ((need - availLow q) * a.counted) t)).sum
      let free := if s.detActive then s.par P.detFree else 0
      let held := (s.mem.mapPri.filter (fun x => s.partAt (x.1 * 4096) == some n)).map (fun x => s.lowWeight x.1 (entryOf x.2))
      let low := blocks * a.low / (32 * a.counted) + held.sum / 32
      let pol := s.par (P.partPolicy n)
      let verdict :=
        if s.par (P.partKind n) = 1 then (if p ≤ s.par (P.partSize n) then 0 else 4)
        else if shortLow = 0 then 0
        else if short = 0 then 1
        else if pol = 1 ∧ s.detActive = true ∧ slots ≤ free then 2
        else if pol = 2 ∧ shortLow ≤ low then 3
        else 4
      let per := fun (f : Nat → Nat) => ((List.range 4).map (fun q => leBytes 8 (if rs.contains q then f q else 0))).flatten
      let rec_ := leBytes 1 verdict ++ leBytes 1 pol ++ leBytes 2 (16 * t * 256 / a.counted) ++ leBytes 4 a.counted ++ leBytes 8 blocks ++
        per (fun _ => need) ++ per avail ++ leBytes 8 short ++ leBytes 8 slots ++ leBytes 8 free ++ leBytes 8 low ++ zeros 16
      let (_, ok, s) := s.engineWrite hid (c.d 5) rec_ [] env 1
      if ok then s.finish h 0 (short * 256 + verdict) 0 else s.fail h stCapacity

/-- FIT_ESTIMATE (R168). -/
def execFitEstimate (queue : Fin 32768) (idx : Fin 65536) (env : Env) (s : State) : R :=
  .next (s.runMove queue idx 0x22 0 (fun h c s => s.fitEstimate h c env))

end Sys2Proof.Machine
end

