-- ==== Sys2Proof/Machine/ReduceCmd.lean ====
section
/-! DEFINITION. REDUCE commands: opening, contributing, cancelling, and the timers of the front (R187-R192, R231). -/
namespace Sys2Proof.Machine

/-- Fields of a REDUCE OPEN (R228, R231). -/
structure RedOpen where
  n : Nat
  window : Option Nat
  inFmt : Nat
  outFmt : Nat
  pol : Bool
  anchor : Int
  perHid : Nat
  depth : Nat
  consumed : Bool
  count : Nat
  bitmap : Nat
  dest : Nat

/-- The control word and body of a REDUCE OPEN. -/
def Cmd.redOpen (c : Cmd) : RedOpen :=
  let w := c.d 1
  { n := fld w 7 0, window := if fld w 8 8 = 0 then some (fld w 18 9) else none, inFmt := fld w 21 19, outFmt := fld w 24 22
    pol := fld w 25 25 == 1, anchor := signed 12 (fld w 37 26), perHid := fld w 46 38, depth := fld w 52 47
    consumed := fld w 53 53 == 1, count := c.d 2, bitmap := c.d 3, dest := c.d 4 }

/-- Bytes of the destination. -/
def RedOpen.destBytes (o : RedOpen) : Nat := o.count * (fmtOf o.outFmt).bytes

/-- A destination lies in windows that take one: transparent, explicit, or the tensor view of a factoring window (R187). -/
def State.destOk (s : State) (a n : Nat) : Bool :=
  match s.rangeWins a n with
  | none => true
  | some ws => ws.all (fun w =>
      let k := s.par (P.winKind w)
      k == wTransparent || k == wT0 || k == wT1 ||
      (k == wFactoring && decide (a + n ≤ s.par (P.winBase w) + (s.winDesc w).m * (s.winDesc w).n * (s.winDesc w).wOut)))

/-- The fields of a REDUCE OPEN are in range (R187). -/
def State.redFields (s : State) (o : RedOpen) : Bool :=
  decide (o.inFmt ≤ 5 ∧ o.outFmt ≤ 5 ∧ 1 ≤ o.perHid ∧ o.perHid ≤ 256 ∧ 1 ≤ o.count ∧ o.count ≤ 2 ^ 40 ∧ 1 ≤ o.depth ∧ o.depth ≤ 32) &&
  decide (o.bitmap % 32 = 0 ∧ o.bitmap + 32 ≤ dpaEnd) &&
  (if o.consumed then o.dest == 0 else decide (o.dest % 4096 = 0 ∧ o.dest + o.destBytes ≤ dpaEnd) && s.destOk o.dest o.destBytes) &&
  (match o.window with
   | none => true
   | some w => s.par (P.winState w) == 1 && s.par (P.winKind w) == wGradient && o.perHid == 1 &&
       (let t := s.desc (s.par (P.winDescriptor w)); o.inFmt == t.fmt && o.count == t.m * t.n)) &&
  decide (-1074 ≤ o.anchor ∧ o.anchor ≤ 747)

/-- The context of a REDUCE OPEN with its contributor bitmap. -/
def RedOpen.fresh (o : RedOpen) (bits h hid now : Nat) : RedRec :=
  { (default : RedRec) with
    src := match o.window with | some w => w + 1 | none => 0
    inFmt := o.inFmt, outFmt := o.outFmt, pol := o.pol, anchor := if o.inFmt = 0 then o.anchor else -149
    count := o.count, bitmap := bits, perHid := o.perHid, depth := o.depth
    dest := if o.consumed then 0 else o.dest + 1, cmd := h, hid := hid, advanced := now }

/-- REDUCE mode OPEN (R187): refused in the order of its table, the empty bitmap with the fields. What a HID without the right to read the
bitmap could learn is that it is empty. -/
def State.reduceOpen (s : State) (h : Nat) (c : Cmd) (env : Env) : State :=
  let o := c.redOpen
  let hid := s.qHid (h / 65536)
  let line := o.bitmap / 64 * 64
  let onDest := if o.consumed then 0 else s.rangeStatus hid o.dest o.destBytes true
  let onMap := s.rangeStatus hid o.bitmap 32 false
  if s.redOpen o.n then s.fail h 0x30
  else if !s.redFields o then s.fail h 0x02
  else
    let (ready, s) := if onMap ≠ 0 then (true, s) else s.cohReady line 64 false
    if !ready then s
    else
      let ((d, bad), s1) := s.rangeAtHub hid line 64 env
      let bits := ofLe (cut (o.bitmap % 64) 32 d)
      if bad.isEmpty && bits == 0 then s.fail h 0x02
      else if onDest ≠ 0 then s.fail h onDest
      else if onMap ≠ 0 then s.fail h onMap
      else if (match o.window with | some w => (s.redOf w).isSome | none => false) then s.fail h 0x30
      else if !bad.isEmpty then s1.fail h 0x32
      else
        let r := o.fresh bits h hid s.now
        let s := (s1.modRed o.n (fun _ => r)).setPar (P.redState o.n) 1
        let s := ((s.setPar (P.redFront o.n) 0).setPar (P.redTiles o.n) r.tileCount).setPar (P.redRejectCount o.n) 0
        (s.redMissing o.n).accept h

/-- REDUCE_OPEN (R187). -/
def execReduceOpen (queue : Fin 32768) (idx : Fin 65536) (env : Env) (s : State) : R :=
  .next (s.runMove queue idx 0x14 0 (fun h c s => s.reduceOpen h c env))

/-- Add the tiles of a CONTRIB that were read before a failed line, while none must wait: the tiles added (R188). -/
def State.contribSome (s : State) (n : Nat) (w : RedWait) : Nat → Nat × State
  | 0 => (w.added, s)
  | k + 1 =>
    let r := s.red n
    let len := r.elems w.tile * r.wIn
    match s.redTileOpen n w.tile with
    | some s => (s.addTile n w.tile w.hid (w.data.take len)).contribSome n
        { w with tile := w.tile + 1, added := w.added + 1, left := k, data := w.data.drop len } k
    | none => (w.added, s)

/-- REDUCE mode CONTRIB (R188). -/
def State.reduceContrib (s : State) (h : Nat) (c : Cmd) (env : Env) : State :=
  let q := h / 65536
  let hid := s.qHid q
  let n := fld (c.d 1) 7 0
  let host := fld (c.d 1) 8 8 == 1
  let first := fld (c.d 2) 23 0
  let cnt := fld (c.d 2) 48 24
  let a := c.d 3
  let r := s.red n
  let bytes := (Nat.min r.count (65536 * (first + cnt)) - 65536 * first) * r.wIn
  if !s.redOpen n then (s.redReject n).fail h 0x30
  else if r.src ≠ 0 then (s.redReject n).fail h 0x02
  else if cnt = 0 ∨ r.tileCount < first + cnt ∨ a % 64 ≠ 0 ∨ (host = false ∧ dpaEnd < a + bytes) then s.fail h 0x02
  else if !host && s.rangeStatus hid a bytes false ≠ 0 then s.fail h (s.rangeStatus hid a bytes false)
  else if !r.bitmap.testBit hid || (Tab.keys r.tiles ++ Tab.keys r.rounded).any (fun z => decide (first ≤ z ∧ z < first + cnt) && r.hidDone z hid) then
    (s.redReject n).fail h 0x31
  else
    let (ready, s) := if host then (true, s) else s.cohReady a bytes false
    if !ready then s
    else
      let (d, bad, s) : List Byte × List Nat × State :=
        if host then
          let s := s.hostRead q h a bytes
          (match env.host with | .data x => (padTo bytes x, [], s) | _ => (zeros bytes, [0], s))
        else
          let ((d, bad), s) := s.rangeAtHub hid a bytes env
          (d, bad, s)
      let w : RedWait := { since := s.now, tile := first, hid := hid, contrib := true, cmd := h, off := 0, mask := 0, added := 0, left := cnt,
                           data := d, port := 512, dpa := 0 }
      match bad with
      | [] => (s.accept h).contribRun n w cnt
      | b :: _ =>
        let (k, s) := s.contribSome n w (b * 64 / (65536 * r.wIn))
        (s.redFault n 0x32).finish h 0x32 k 0

/-- REDUCE_CONTRIB (R188). -/
def execReduceContrib (queue : Fin 32768) (idx : Fin 65536) (env : Env) (s : State) : R :=
  .next (s.runMove queue idx 0x14 1 (fun h c s => s.reduceContrib h c env))

/-- REDUCE mode CANCEL (R190, R231). -/
def State.reduceCancel (s : State) (h : Nat) (c : Cmd) : State :=
  let n := fld (c.d 1) 7 0
  if !s.redOpen n then s.fail h 0x30
  else if (s.red n).hid ≠ s.qHid (h / 65536) ∧ !s.qPriv (h / 65536) then s.fail h 0x03
  else (s.redFault n 0x0C).finish h 0 0 0

/-- REDUCE_CANCEL (R190). -/
def execReduceCancel (queue : Fin 32768) (idx : Fin 65536) (s : State) : R :=
  .next (s.runCmd queue idx 0x14 2 (fun h c s => s.reduceCancel h c))

/-- REDUCE_TILE_OPEN (R189): contributions that wait are tried again, oldest first. -/
def execReduceTileOpen (s : State) : R := .next s.redRetry

/-- REDUCE_FRONT_TIMEOUT (R189): a gradient-window write has waited 2 ms. -/
def execReduceFrontTimeout (reduction : Fin 256) (s : State) : R :=
  .next (if s.redOpen reduction && (s.red reduction).waits.any (fun w => !w.contrib && decide (w.since + usT 2000 ≤ s.now)) then
    s.redFault reduction 0x34 else s)

/-- REDUCE_TIMEOUT (R190): the front has not advanced for red_timeout_ms. -/
def execReduceTimeout (reduction : Fin 256) (s : State) : R :=
  .next (if s.redOpen reduction && decide ((s.red reduction).advanced + msT (s.par P.redTimeoutMs) ≤ s.now) then
    s.redFault reduction 0x33 else s)

end Sys2Proof.Machine
end

