-- ==== Sys2Proof/Machine/ShareCmd.lean ====
section
/-! DEFINITION. Commands and events of shared regions: bindings, publishing, closing, leases, deaths, snoop answers (R202-R215). -/
namespace Sys2Proof.Machine

/-! Rights (R60, R214). -/

/-- A HID holds rights over the whole of shared region n. -/
def State.srGrant (s : State) (n h need : Nat) : Bool := s.grantRange h (s.par (P.srBase n)) (s.par (P.srSize n)) need

/-- A HID holds right R over some extent of shared region n (R214). -/
def State.srSome (s : State) (n h : Nat) : Bool :=
  let a := s.par (P.srBase n) / 2 ^ 21
  let e := (s.par (P.srBase n) + s.par (P.srSize n) - 1) / 2 ^ 21
  if s.par P.fmTrustMode = 1 then h != 255
  else s.entriesOn.any (fun x =>
    let w := s.par (P.ownWord x 1)
    (s.par (P.ownWord x 2)).testBit 0 && (s.par (P.ownWord x (3 + h / 64))).testBit (h % 64) && decide (h < 256) &&
      decide (fld w 20 0 ≤ e ∧ a ≤ fld w 41 21))

/-! Bindings (R202, R203). -/

/-- A HID's READ binding; 0: none. -/
def State.bindRead (s : State) (n h v : Nat) : State := s.modSr n (fun r => { r with reads := Tab.set h v r.reads })

/-- A HID's open version on a base. -/
def State.bindWrite (s : State) (n h v : Nat) : State :=
  s.modSr n (fun r => { r with reads := Tab.set h 0 r.reads, opens := r.opens ++ [{ hid := h, base := v, own := [], broken := false }] })

/-- What every OPEN_VERSION checks first, or 0 (R203). -/
def State.openCheck (s : State) (n h : Nat) : Nat :=
  firstCode [
    (!s.srOn n || !s.srVersioned n, 0x38),
    (!s.srGrant n h rR, 0x03),
    (s.isDead n h, 0x3E),
    ((openOf (s.sr n) h).isSome, 0x3D)]

/-- OPEN_VERSION to read a version, or the latest (R203). -/
def State.openRead (s : State) (hd : Nat) (c : Cmd) (latest : Bool) : State :=
  let h := s.qHid (hd / 65536)
  let n := fld (c.d 1) 7 0
  let v := if latest then s.par (P.srLatest n) else fld (c.d 2) 31 0
  let k := s.openCheck n h
  if k ≠ 0 then s.fail hd k
  else if !s.liveVer n v then s.fail hd 0x39
  else ((s.leaseTouch n h).withRefs n (fun s => s.bindRead n h v)).finish hd 0 v 0

/-- OPEN_VERSION to write on a base, or on the latest (R203). -/
def State.openWrite (s : State) (hd : Nat) (c : Cmd) (latest : Bool) : State :=
  let h := s.qHid (hd / 65536)
  let n := fld (c.d 1) 7 0
  let v := if latest then s.par (P.srLatest n) else fld (c.d 2) 31 0
  let k := s.openCheck n h
  if k ≠ 0 then s.fail hd k
  else if !s.liveVer n v then s.fail hd 0x39
  else if 16 ≤ s.par (P.srLive n) then s.fail hd 0x3A
  else ((s.leaseTouch n h).withRefs n (fun s => s.bindWrite n h v)).finish hd 0 v 0

/-- OPEN_VERSION mode UNBIND (R203). -/
def State.unbind (s : State) (hd : Nat) (c : Cmd) : State :=
  let h := s.qHid (hd / 65536)
  let n := fld (c.d 1) 7 0
  let k := s.openCheck n h
  if k ≠ 0 then s.fail hd k
  else ((s.leaseTouch n h).withRefs n (fun s => s.bindRead n h 0)).finish hd 0 0 0

/-- OPEN_VERSION_READ, _READ_LATEST, _WRITE, _WRITE_LATEST, _UNBIND (R203). -/
def execOpenVersionRead (queue : Fin 32768) (idx : Fin 65536) (s : State) : R :=
  .next (s.runCmd queue idx 0x18 0 (fun h c s => s.openRead h c false))
def execOpenVersionReadLatest (queue : Fin 32768) (idx : Fin 65536) (s : State) : R :=
  .next (s.runCmd queue idx 0x18 1 (fun h c s => s.openRead h c true))
def execOpenVersionWrite (queue : Fin 32768) (idx : Fin 65536) (s : State) : R :=
  .next (s.runCmd queue idx 0x18 2 (fun h c s => s.openWrite h c false))
def execOpenVersionWriteLatest (queue : Fin 32768) (idx : Fin 65536) (s : State) : R :=
  .next (s.runCmd queue idx 0x18 3 (fun h c s => s.openWrite h c true))
def execOpenVersionUnbind (queue : Fin 32768) (idx : Fin 65536) (s : State) : R :=
  .next (s.runCmd queue idx 0x18 4 (fun h c s => s.unbind h c))

/-! Publishing and closing (R206-R208). -/

/-- What every PUBLISH checks, or 0 (R200, R206). -/
def State.publishCheck (s : State) (n h : Nat) : Nat :=
  firstCode [
    (!s.srOn n || !s.srVersioned n, 0x38),
    (!s.srGrant n h rP, 0x03),
    (s.isDead n h, 0x3E),
    (s.shared.exhausted, 0x3C),
    ((openOf (s.sr n) h).isNone, 0x39),
    (s.isBroken (.opened n h), 0x06)]

/-- The binding after a publish of version v (R206): READ of it, or under CONTINUE a new open version on it while a slot is
free; whether CONTINUE was refused. -/
def State.bindAfter (s : State) (n h v : Nat) (cont : Bool) : Bool × State :=
  if !cont then (false, s)
  else if 16 ≤ s.par (P.srLive n) then (true, s)
  else (false, s.withRefs n (fun s => s.bindWrite n h v))

/-- PUBLISH (R206, R207). -/
def State.publishCmd (s : State) (hd : Nat) (c : Cmd) (cas : Bool) : State :=
  let h := s.qHid (hd / 65536)
  let n := fld (c.d 1) 7 0
  let cont := fld (c.d 1) 8 8 == 1
  let k := s.publishCheck n h
  if k ≠ 0 then s.fail hd k
  else
    let s := (s.leaseTouch n h).settleOpen n h
    let base := match openOf (s.sr n) h with | some o => o.base | none => 0
    if s.isBroken (.opened n h) then s.fail hd 0x06
    else if cas && base != s.par (P.srLatest n) then s.finish hd 0x3B (s.par (P.srLatest n)) 0
    else
      let v := (s.publish n h).1
      let s := s.withRefs n (fun s => (s.publish n h).2.bindRead n h v)
      let (refused, s) := s.bindAfter n h v cont
      s.finish hd 0 v (if refused then 4 else 0)

/-- PUBLISH_PLAIN, PUBLISH_CAS (R206). -/
def execPublishPlain (queue : Fin 32768) (idx : Fin 65536) (s : State) : R :=
  .next (s.runCmd queue idx 0x19 0 (fun h c s => s.publishCmd h c false))
def execPublishCas (queue : Fin 32768) (idx : Fin 65536) (s : State) : R :=
  .next (s.runCmd queue idx 0x19 1 (fun h c s => s.publishCmd h c true))

/-- CLOSE_VERSION (R208): the named HID's open version; its binding becomes none. -/
def State.closeVersion (s : State) (hd : Nat) (c : Cmd) : State :=
  let q := hd / 65536
  let n := fld (c.d 1) 7 0
  let t := fld (c.d 1) 15 8
  let k := firstCode [
    (t != s.qHid q && !s.qPriv q, 0x04),
    (!s.srOn n || !s.srVersioned n, 0x38),
    (!s.srGrant n (s.qHid q) rP, 0x03),
    (s.isDead n (s.qHid q), 0x3E),
    ((openOf (s.sr n) t).isNone, 0x39)]
  if k ≠ 0 then s.fail hd k
  else ((s.leaseTouch n (s.qHid q)).withRefs n (fun s => s.dropOpen n t)).finish hd 0 0 0

/-- CLOSE_VERSION (R208). -/
def execCloseVersion (queue : Fin 32768) (idx : Fin 65536) (s : State) : R :=
  .next (s.runCmd queue idx 0x1A 0 (fun h c s => s.closeVersion h c))

/-! Leases (R214). -/

/-- The checks of LEASE_RENEW on a single shared region, or 0. -/
def State.leaseCheck (s : State) (r h : Nat) : Nat :=
  firstCode [(decide (256 ≤ r), 0x02), (!s.srOn r, 0x38), (!s.srSome r h, 0x03)]

/-- LEASE_RENEW mode RENEW (R214). -/
def State.leaseRenew (s : State) (hd : Nat) (c : Cmd) : State :=
  let h := s.qHid (hd / 65536)
  let r := fld (c.d 1) 15 0
  if r = 0xFFFF then
    let rs := s.srsOn.filter (fun n => s.par (P.srLeaseEnable n) == 1 && !s.isDead n h && s.srSome n h)
    match (rs.map (fun n => s.par (P.srLeaseMs n))).min? with
    | none => s.fail hd 0x3F
    | some ms => (forAll (fun n s => s.leaseFull n h) rs s).finish hd 0 ms 0
  else
    let k := s.leaseCheck r h
    if k ≠ 0 then s.fail hd k
    else if s.isDead r h then s.fail hd 0x3E
    else if s.par (P.srLeaseEnable r) = 0 then s.fail hd 0x3F
    else (s.leaseFull r h).finish hd 0 (s.par (P.srLeaseMs r)) 0

/-- LEASE_RENEW (R214). -/
def execLeaseRenew (queue : Fin 32768) (idx : Fin 65536) (s : State) : R :=
  .next (s.runCmd queue idx 0x1B 0 (fun h c s => s.leaseRenew h c))

/-- LEASE_RENEW mode RELEASE (R214): the command waits until the HID's lines are back. -/
def State.leaseRelease (s : State) (hd : Nat) (c : Cmd) : State :=
  let h := s.qHid (hd / 65536)
  let r := fld (c.d 1) 15 0
  let k := s.leaseCheck r h
  if k ≠ 0 then s.fail hd k
  else if s.isDead r h then s.fail hd 0x3E
  else if (openOf (s.sr r) h).isSome then s.fail hd 0x3D
  else
    let held := (s.dirIn r).filter (fun e => e.holders.contains h)
    if !held.isEmpty then forAll (fun (e : DirEnt) s => s.snoop e.line h true) held s
    else ((s.withRefs r (fun s => s.bindRead r h 0)).modSr r (fun x => { x with leases := Tab.set h 0 x.leases })).finish hd 0 0 0

/-- LEASE_RELEASE (R214). -/
def execLeaseRelease (queue : Fin 32768) (idx : Fin 65536) (s : State) : R :=
  .next (s.runCmd queue idx 0x1B 1 (fun h c s => s.leaseRelease h c))

/-- LEASE_RENEW mode REJOIN (R214). -/
def State.rejoinCmd (s : State) (hd : Nat) (c : Cmd) : State :=
  let h := s.qHid (hd / 65536)
  let r := fld (c.d 1) 15 0
  let k := s.leaseCheck r h
  if k ≠ 0 then s.fail hd k else (s.rejoin r h).finish hd 0 0 0

/-- REJOIN (R214). -/
def execRejoin (queue : Fin 32768) (idx : Fin 65536) (s : State) : R :=
  .next (s.runCmd queue idx 0x1B 2 (fun h c s => s.rejoinCmd h c))

/-! Deaths (R211, R213). -/

/-- HID h is declared dead in shared region n, unless it is already (R213). -/
def State.declareDead (s : State) (n h : Nat) : State := if s.isDead n h then s else s.hidDeath n h

/-- LEASE_EXPIRY_CHECK (R214): every 1 ms, while the device is in SERVICE (R216). -/
def execLeaseExpiryCheck (ph : Phys) (s : State) : R :=
  .next (if !s.serving ∨ s.now < s.shared.checked + msT 1 then s
    else
      let s := { s with shared := { s.shared with checked := s.now } }
      (forAll (fun n s =>
        let hs := ((s.sr n).leases.filter (fun p => decide (0 < p.2 ∧ p.2 ≤ s.now + 1))).map Prod.fst
        forAll (fun h s => s.declareDead n h) hs s) s.srsOn s).retryCoh ph)

/-- SHARE_DECLARE_DEAD, SHARE_REVIVE (R213, R214): writes of share_declare_dead and share_revive. -/
def execShareDeclareDead (value : Nat) (ph : Phys) (s : State) : R :=
  .next (s.barWrite P.shareDeclareDead value (fun s => (s.declareDead (value / 256) (value % 256)).retryCoh ph))
def execShareRevive (value : Nat) (s : State) : R :=
  .next (s.barWrite P.shareRevive value (fun s => s.rejoin (value / 256) (value % 256)))

/-- A HID holds something in shared region n (R213). -/
def State.holdsIn (s : State) (n h : Nat) : Bool :=
  let r := s.sr n
  Tab.get h r.reads != 0 || (openOf r h).isSome || Tab.get h r.leases != 0 || (s.dirIn n).any (fun e => e.holders.contains h)

/-- Since when every LD bound to a HID is down, + 1 (R213): since the last one fell, or since power-up when none has been up; 0 while one
is up, or when none is bound. -/
def State.hidDown (s : State) (h : Nat) : Nat :=
  if (s.ldsUp.map s.hidOf).contains h || !(List.range 512).any (fun p => s.hidOf p == h) then 0
  else match Tab.get h s.shared.downSince with | 0 => s.boot.startAt + 1 | d => d

/-- LINK_GRACE_EXPIRY (R213): every LD of the HID has been down longer than share_link_grace_ms. -/
def execLinkGraceExpiry (hid : Fin 256) (ph : Phys) (s : State) : R :=
  let d := s.hidDown hid
  let g := s.par P.shareLinkGraceMs
  .next (if g = 0 ∨ d = 0 ∨ s.now + 1 ≤ d + msT g then s
    else (forAll (fun n s => if s.holdsIn n hid then s.declareDead n hid else s) s.srsOn s).retryCoh ph)

/-! Answers to back-invalidations (R210, R211). -/

/-- BISNP_RESPONSE (R210): the HID of the port answers for a line, keeping it in S or giving it up. -/
def execBisnpResponse (port : Fin 512) (line : Nat) (shared : Bool) (ph : Phys) (s : State) : R :=
  let h := s.hidOf port
  .next (match s.shared.snoops.find? (fun x => x.line == line && x.hid == h) with
    | none => s
    | some x => (s.snoopAnswer line h (shared && !x.inv)).retryCoh ph)

/-- BISNP_TIMEOUT (R211): issued once more; after the second time the holder is declared dead. -/
def execBisnpTimeout (line : Nat) (hid : Fin 256) (ph : Phys) (s : State) : R :=
  .next (match s.shared.snoops.find? (fun x => x.line == line && x.hid == hid.val) with
    | none => s
    | some x =>
      if s.now < x.since + usT (s.par P.shareBiTimeoutUs) then s
      else if !x.again then
        let s := { s with shared := { s.shared with snoops := s.shared.snoops.map (fun (y : Snoop) =>
          if y.line = line ∧ y.hid = hid.val then { y with again := true, since := s.now } else y) } }
        match s.portOfHid hid with | some p => s.send (p / 16) 2 (.biSnp p line x.inv) | none => s
      else
        let s := match s.cohAt (line * 64) with | some n => s.declareDead n hid | none => s
        let s := { s with shared := { s.shared with snoops := s.shared.snoops.filter (fun (y : Snoop) => !(y.line == line && y.hid == hid.val)) } }
        s.retryCoh ph)

/-- BICONFLICT (R210): the conflict is acknowledged; the host answers the snoop once its own request is resolved. -/
def execBiconflict (port : Fin 512) (line : Nat) (s : State) : R :=
  .next (if s.linkUp (port / 16) then s.send (port / 16) 0 (.biAck port line) else s)

end Sys2Proof.Machine
end

