-- ==== Sys2Proof/Machine/Mover.lean ====
section
/-! DEFINITION. The checker's verdict and the tier mover: sweep, promotion, recompression, relocation, rewriting of MIRROR
homes, spills and recalls, the loss of the detour area (R34, R35, R52, R88, R90, R152, R160-R166, R349). -/
namespace Sys2Proof.Machine

/-! The checker (R34, R90, R349). -/

/-- The block of the same active rank as block cb in region q XOR x, or the lowest-numbered active one (R347). -/
def State.partnerBlk (s : State) (cb x : Nat) : Nat :=
  let rank := ((s.activeBlocks (cb / 16)).findIdx? (· == cb % 16)).getD 16
  let r := (cb / 16) ^^^ x
  let l := s.activeBlocks r
  r * 16 + (l[rank]?).getD (l.headD 0)

/-- A checker mismatch is settled (R349): what the block's own checker and the partner's make of the block encoded again.
`code` is the failure code of R87, or 0. -/
def State.settleMismatch (s : State) (j : PackJob) (code : Nat) (own partner : Bool) : State :=
  let cb := j.lane / 16
  let other := s.partnerBlk cb 2
  let rec_ := fun (s : State) (unit cls act : Nat) =>
    s.record { kind := 3, unit := unit, cls := cls, ctx := [], flags := 0, action := act,
               detail := [(0, cborUint j.codec), (1, cborUint code), (2, cborUint (unitBlk other))] }
  match own, partner with
  | true, true => s
  | false, false =>
    let key := P.laneRec (cb / 16) (cb % 16) (j.lane % 16)
    let was := fld (s.par key) 31 24
    let s := s.laneFault cb (j.lane % 16)
    rec_ s (unitOf 4 j.lane) 3 (if fld (s.par key) 31 24 ≠ was then 4 else 1)
  | false, true => rec_ (s.observe cb) (unitBlk cb) 4 2
  | true, false => rec_ (s.observe other) (unitBlk other) 5 2

/-- The checker decoder finishes with a packed block (R90). `flag`, its comparison fails; then `code`, `own` and `partner` give
what R349 finds. -/
def State.checkEnd (s : State) (key : Nat) (flag : Bool) (code : Nat) (own partner : Bool) (ph : Phys) : State :=
  match Tab.find? key s.mem.packJobs with
  | none => s
  | some j =>
    let f : Form := { state := j.state, codec := j.codec, bytes := j.coded }
    let good := !flag && f.checks (s.streamWb j.win (key % 2 ^ 30)) j.orig
    let s := s.packEnd key good
    (if good then s else s.settleMismatch j code own partner).retryHub ph

/-- CHECKER_ROUND_TRIP (R90): owner 0 is the block map, h + 1 the open version of HID h. -/
def execCheckerRoundTrip (block : Fin 1073741824) (owner : Fin 257) (flag : Bool) (code : Fin 32) (own partner : Bool) (ph : Phys) (s : State) : R :=
  .next (s.checkEnd (block.val + 2 ^ 30 * owner.val) flag code own partner ph)

/-! Internal moves (R152). -/

/-- A view that holds a word of block b. -/
def State.viewOf (s : State) (b : Nat) (w : MapWord) : Option View :=
  if s.wordIn .main b = w then some .main
  else
    let inSr := s.srsOn.findSome? (fun n =>
      match (s.sr n).versions.find? (fun v => Tab.getD 0 b v.map == w) with
      | some v => some (View.ver n v.num)
      | none => ((s.sr n).opens.find? (fun o => Tab.getD 0 b o.own == w)).map (fun o => View.opened n o.hid))
    match inSr with
    | some v => some v
    | none => (s.jobs.find? (fun p => Tab.getD 0 b p.2.shadow == w)).map (fun p => View.shadow p.1)

/-- The words that views and freezes hold for block b. -/
def State.wordsOf (s : State) (b : Nat) : List MapWord := ((s.allWords.filter (fun p => p.1 == b)).map Prod.snd).eraseDups

/-- The mover's own commit of a form in a view: in the block map alone, or in every version that resolves to the same sectors. -/
def State.moverCommit (s : State) (v : View) (b : Nat) (f : Form) : Option State := s.commitForm v b f [] (v != .main)

/-- Move the stored block of a word to new sectors (R152): deciphered, enciphered with block_version + 1, the same word replaced
wherever it is held; none when no frame is FREE. A stored block that cannot be read becomes POISON, as on any read of it. -/
def State.relocate (s : State) (b : Nat) (w : MapWord) (ph : Phys) : Option State :=
  let e := entryOf w
  match s.partAt (b * 4096) with
  | none => none
  | some n =>
    let (s, bad) := s.noteLines ph (linesOf e.addr e.len)
    let (src, s) : Option Nat × State :=
      if bad ≠ 3 then (some e.addr, s)
      else match s.partnerOf e.addr with
        | none => (none, s)
        | some a => let (s, bad) := s.noteLines ph (linesOf a e.len); (if bad = 3 then none else some a, s)
    match src with
    | none => (s.viewOf b w).map (fun v => s.failBlock v b e ⟨fCheckBits, e.codec == cRaw, 0⟩ none 0xFF)
    | some a0 =>
      let marks := if e.codec = cRaw then (List.range 64).filter (fun i => Tab.get (byteOf a0 / 64 + i) s.mem.marks) else []
      let plain := s.plainAt b e a0
      let st := if s.uncommitted b w then fShadow else fUsed
      match s.allocCopies b n st e.len with
      | none => none
      | some (a, a', s) =>
        let ver := (e.ver + 1) % 2 ^ 20
        let bytes := s.encBlock b ver plain
        let s := s.storeBytes (byteOf a) bytes marks
        let s := if a' = 0 then s else (s.storeBytes (byteOf (a' - 1)) bytes marks).modMem (fun m => { m with partner := Tab.set a a' m.partner })
        let new : MapEntry := { e with ver := ver, keySlot := (s.encSlot b).getD 0, addr := a, check := 0 }
        some ((s.swapWord b w (entryWord (new.sealed (if e.headed then hdrCrcOf plain else 0)))).release b w)

/-- A frame the mover empties (R152): QUARANTINED, or USED with few live sectors. -/
def State.vacate (s : State) (key : Nat) : Bool :=
  let r := s.frame key
  r.st == fQuar || (r.st == fUsed && decide (popcount 16 r.mask ≤ (if s.par (P.capPressure (frameStack key / 4)) = 0 then s.par P.capCompactLive else 12)))

/-- The frames of an entry's copies. -/
def State.framesOf (s : State) (e : MapEntry) : List Nat :=
  frameOf e.addr :: (match s.partnerOf e.addr with | some a => [frameOf a] | none => [])

/-- A frame takes no more blocks. -/
def State.shutFrame (s : State) (key : Nat) : State := s.modMem (fun m => { m with openFrame := m.openFrame.filter (fun p => p.2 != key + 1) })

/-! The order of the mover's work (R152, R161, R162, R164). -/

/-- A word of block b is one whose sectors lie, in one copy or the other, in a frame of region q with the property. -/
def State.liesIn (s : State) (q : Nat) (p : Nat → Bool) (w : MapWord) : Bool :=
  (entryOf w).inHbm && (s.framesOf (entryOf w)).any (fun k => frameStack k / 4 == q && p k)

/-- Some block can leave a QUARANTINED frame of region q: its partition finds a FREE frame. -/
def State.quarWork (s : State) (q : Nat) : Bool :=
  s.allWords.any (fun p => s.liesIn q (fun k => (s.frame k).st == fQuar) p.2 &&
    (match s.partAt (p.1 * 4096) with | some n => (s.copyRegions n p.1).all (s.anyFree n) | none => false))

/-- Region q is LOW, EXHAUSTED or worse. -/
def State.pressed (s : State) (q : Nat) : Bool := s.par (P.capPressure q) != 0

/-- A promoted block, by the key of its view, cools: its parcel's counter lies below cap_promote_t1 and no line of it is marked (R161). -/
def State.coolPromo (s : State) (key : Nat) : Bool :=
  let b := key % 2 ^ 30
  let e := entryOf (s.wordIn (s.viewOfKey key) b)
  e.state == stFlat && (s.marksOf e).isEmpty && decide (s.parcel (b * 4096) < s.par P.capPromoteT1)

/-- Some promoted block of region q is to be re-encoded. -/
def State.promoWork (s : State) (q : Nat) : Bool :=
  s.mem.promoted.any (fun p => s.home (p.1 % 2 ^ 30 * 4096) == some q && s.coolPromo p.1)

/-- Compaction of region q gains something: a block of a frame with few live sectors fits in another open frame of its partition. DEDUCED
(log 102). -/
def State.sparseWork (s : State) (q : Nat) : Bool :=
  s.allWords.any (fun p =>
    let e := entryOf p.2
    s.liesIn q (fun k => (s.frame k).st == fUsed && s.vacate k) p.2 &&
      (match s.partAt (p.1 * 4096) with
       | some n => (s.openFrames n q).any (fun k => !(s.framesOf e).contains k && (s.frame k).st == fUsed && (fitIn (s.frame k).mask e.len).isSome)
       | none => false))

/-- The detour area takes spills of block b now: a DETOUR partition, the region under pressure, the parcel cold, nothing of the block
marked or not yet stored. -/
def State.spills (s : State) (b : Nat) : Bool :=
  let e := entryOf (s.wordIn .main b)
  match s.winAt (b * 4096), s.partAt (b * 4096) with
  | some w, some n =>
    (e.state == stPacked || e.state == stFlat) && s.floatWin w && s.par (P.partKind n) == 2 && s.par (P.partPolicy n) == 1 &&
      s.pressed (s.homeIn n (b * 4096)) && decide (s.parcel (b * 4096) ≤ s.par P.capDemoteT2) && s.slotFree && (s.marksOf e).isEmpty &&
      (Tab.find? b s.mem.gather).isNone && (Tab.find? b s.mem.packJobs).isNone
  | _, _ => false

/-- The next block of region q to spill, in the order of the sweep: ascending DPA (R160, R164). -/
def State.spillNext (s : State) (q : Nat) : Option Nat := (Tab.keys s.mem.mapPri).find? (fun b => s.home (b * 4096) == some q && s.spills b)

/-- The mover of region q may take up work of step k of R162, nothing of an earlier step waiting: 1 QUARANTINED frames, ahead of all in
every state of the region; 2 promoted blocks; 3 compaction; 4 spills; 5 lowering. -/
def State.moverMay (s : State) (q k : Nat) : Bool :=
  k == 1 || (!s.quarWork q && (k == 2 || !s.pressed q ||
    (!s.promoWork q && (k == 3 || (!s.sparseWork q && (k == 4 || (s.spillNext q).isNone))))))

/-- The word of block b that relocation takes: one in a QUARANTINED frame first, then one in a frame with few live sectors, while that is
the mover's turn. -/
def State.toRelocate (s : State) (q b : Nat) : Option MapWord :=
  let pick := fun (p : Nat → Bool) => (s.wordsOf b).find? (fun w => (entryOf w).inHbm && (s.framesOf (entryOf w)).any p)
  match pick (fun k => (s.frame k).st == fQuar) with
  | some w => some w
  | none => if s.moverMay q 3 then pick s.vacate else none

/-- RELOCATE_BLOCK (R152): a stored copy of a block that lies in a frame to be emptied. -/
def execRelocateBlock (block : Fin 1073741824) (ph : Phys) (s : State) : R :=
  let b := block.val
  let q := (s.home (b * 4096)).getD 0
  .next (match s.toRelocate q b with
    | none => s
    | some w => ((forAll (fun k s => s.shutFrame k) (s.framesOf (entryOf w)) (s.moverGrant q)).relocate b w ph).getD s)

/-- MIRROR_HOME_REWRITE (R88): home copies that fail are written anew from the partner. -/
def execMirrorHomeRewrite (block : Fin 1073741824) (ph : Phys) (s : State) : R :=
  let b := block.val
  let q := (s.home (b * 4096)).getD 0
  let wb := match s.winAt (b * 4096) with | some w => s.streamWb w b | none => 0
  let all := List.range 64
  .next (if !s.moverMay q 2 then s
    else forAll (fun w s =>
      let e := entryOf w
      match s.partnerOf e.addr, s.viewOf b w with
      | some a, some v =>
        if !e.inHbm then s
        else
          match (s.moverGrant q).fetchLines b e e.addr all wb ph with
          | (.ok _, s) => s
          | (.error x, s) =>
            match s.fetchLines b e a all wb ph with
            | (.ok _, s) => s.rewrite v b e a
            | (.error _, s) => s.failBlock v b e x none 0xFF
      | _, _ => s) (s.wordsOf b) s)

/-! The sweep (R52, R102, R160, R161). -/

/-- The sweep takes a FLAT block of window w for recompression. -/
def State.demotes (s : State) (w b : Nat) : Bool :=
  let k := s.par (P.winKind w)
  let c := s.parcel (b * 4096)
  if k = wTransparent then
    s.pinned w || decide (c ≤ s.par P.capDemoteT2) ||
      (s.mem.promoted.any (fun p => p.1 % 2 ^ 30 == b) && decide (c < s.par P.capPromoteT1) && s.pressed ((s.home (b * 4096)).getD 0))
  else match s.storeOf w b with | .man _ _ => true | _ => false

/-- The FLAT blocks of region q. -/
def State.flatIn (s : State) (q : Nat) : List Nat :=
  distinct ((s.allWords.filter (fun p => (entryOf p.2).state == stFlat && s.home (p.1 * 4096) == some q)).map Prod.fst)

/-- The mover reads the FLAT forms of a block that its committed and open versions hold, to recompress them (R35, R52): not while a line of
one is marked or a write to it is pending. -/
def State.moverRead (s : State) (b : Nat) (ph : Phys) : State :=
  match s.winAt (b * 4096) with
  | none => s
  | some w =>
    if !s.demotes w b then s
    else forAll (fun x s =>
      let e := entryOf x
      match s.viewOf b x with
      | none => s
      | some (.shadow _) => s
      | some v =>
        if e.state ≠ stFlat || !(s.marksOf e).isEmpty || (Tab.find? (gatherKey v b) s.mem.gather).isSome then s
        else
          match (s.moverGrant ((s.home (b * 4096)).getD 0)).readBlock v b 0 ph none 0xFF with
          | (some (d, []), s) => s.modMem (fun m => { m with mover := Tab.set b ((x, d) :: (Tab.get b m.mover).filter (fun y => y.1 != x)) m.mover })
          | (_, s) => s) (s.wordsOf b) s

/-- MOVER_SWEEP (R160): every parcel of a region is visited: its counter halves, T0 copies of cool parcels are dropped, FLAT
blocks of cold ones are read for recompression. The sweep pauses in power states S2 and S3 (R392). -/
def execMoverSweep (region : Fin 4) (ph : Phys) (s : State) : R :=
  let q := region.val
  .next (if 2 ≤ s.par (P.pwrRegionState q) || s.power.hubOff then s
    else
      let s := s.decay q 1
      let cool := (s.t0Blocks q).filter (fun b => decide (s.parcel (b * 4096) < s.par P.capDemoteT0))
      let s := s.modMem (fun m => { m with t0cache := m.t0cache.filter (fun p => !cool.contains p.1) })
      forAll (fun b s => s.moverRead b ph) (s.flatIn q) s)

/-- One FLAT form that the mover read, `d`, is packed (R35, R76, R90, R102): RAW where no codec shrinks it enough; left FLAT where it has
changed since, where the result fails its checker or finds no room there, and while the order of R162 lets other work go first. -/
def State.recompress (s : State) (w b : Nat) (x : MapWord) (d : List Byte) : State :=
  let e := entryOf x
  match s.viewOf b x with
  | none => s
  | some v =>
    let first := if (Tab.find? (gatherKey v b) s.mem.promoted).isSome then 2 else 3
    if e.state ≠ stFlat || !(s.marksOf e).isEmpty || s.plainAt b e e.addr != d || !s.moverMay ((s.home (b * 4096)).getD 0) first then s
    else
      match s.coded w b d with
      | some f =>
        match (s.moverGrant ((s.home (b * 4096)).getD 0)).laneForm w b f d with
        | (some f, s) => (s.moverCommit v b f).getD s
        | (none, s) => s
      | none =>
        match s.moverCommit v b (if s.storeOf w b = .data then rawForm d else s.unpacked w b d) with
        | some t => if s.storeOf w b = .data then t.count P.bicelRawCount 1 else t
        | none => s

/-- MOVER_RECOMPRESS (R35, R76, R102): the forms of the block that the mover read are packed. -/
def execMoverRecompress (block : Fin 1073741824) (s : State) : R :=
  let b := block.val
  let l := Tab.get b s.mem.mover
  .next (match s.winAt (b * 4096) with
    | none => s.modMem (fun m => { m with mover := Tab.set b [] m.mover })
    | some w => forAll (fun (x : MapWord × List Byte) s => s.recompress w b x.1 x.2) l (s.modMem (fun m => { m with mover := Tab.set b [] m.mover })))

/-- MOVER_PROMOTE (R161): the region's oldest candidate is decoded and committed FLAT in a new frame, while its conditions hold. -/
def execMoverPromote (region : Fin 4) (ph : Phys) (s : State) : R :=
  let q := region.val
  .next (match Tab.get q s.mem.promoQ with
    | [] => s
    | b :: bs =>
      let s := s.modMem (fun m => { m with promoQ := Tab.set q bs m.promoQ })
      match s.winAt (b * 4096), s.partAt (b * 4096) with
      | some w, some n =>
        let rs := s.copyRegions n b
        if (entryOf (s.wordIn .main b)).state ≠ stPacked || !s.floatWin w || decide (s.parcel (b * 4096) < s.par P.capPromoteT1) ||
            !rs.all (fun q => s.promoRoom q 1) || !s.moverMay q 2 then s
        else
          match (s.moverGrant q).readBlock .main b 0 ph none 0xFF with
          | (none, s) => s
          | (some (d, marks), s) =>
            if !marks.isEmpty then s
            else
              match s.moverCommit .main b (flatForm d) with
              | none => s
              | some s => (s.modMem (fun m => { m with promoted := Tab.set b rs.length m.promoted })).count P.capPromoFrames rs.length
      | _, _ => s)

/-! The detour area (R164-R166). -/

/-- DETOUR_SPILL (R164): of the next block in the order of the sweep. `flushed` says that the read of the slot's last line completed;
otherwise the spill is given up and its slot is free again. -/
def execDetourSpill (block : Fin 1073741824) (flushed : Bool) (ph : Phys) (s : State) : R :=
  let b := block.val
  let q := (s.home (b * 4096)).getD 0
  .next (if s.spillNext q ≠ some b || !s.moverMay q 4 then s
    else
      match (s.moverGrant q).readBlock .main b 0 ph none 0xFF with
      | (some (d, []), s) =>
        let (slot, s) := s.fillSlot b d
        if flushed then s.commitSlot b slot else s.freeSlot slot
      | (_, s) => s)

/-- DETOUR_RECALL (R164): a hot DETOUR block comes back to HBM while H is at or above cap_low_water, its slot freed. -/
def execDetourRecall (block : Fin 1073741824) (host : HostData) (s : State) : R :=
  let b := block.val
  let e := entryOf (s.wordIn .main b)
  .next (match s.winAt (b * 4096), s.home (b * 4096) with
    | some w, some q =>
      if e.state ≠ stDetour || s.par P.detState != 1 || decide (s.parcel (b * 4096) < s.par P.capPromoteT1) ||
          decide (s.headroom q < (s.lowWater : Int)) || !s.moverMay q 2 || (Tab.find? b s.mem.packJobs).isSome then s
      else
        let s := (s.moverGrant q).svcPut { who := 2, read := true, addr := s.slotAddr e.addr, len := 4096, data := [], bad := [], tok := e.addr, since := 0 }
        match s.slotData b e.addr { ph := noPhys, host := .failed, slots := [(e.addr, host)] } with
        | none => s.count P.detTimeout 1
        | some none => s.detourBad b none 0xFF
        | some (some d) =>
          let (f, s) := s.homeForm w b d
          (s.commitForm .main b f [] false).getD s
    | _, _ => s)

/-- The detour area is lost (R166): every DETOUR entry is committed POISON through the slot directory, reads of its blocks
return poison, DETOUR_LOST is raised (R291). -/
def State.detourLost (s : State) : State :=
  if s.par P.detState ≠ 1 then s
  else
    let bs := (s.mem.mapPri.filter (fun p => (entryOf p.2).state == stDetour)).map Prod.fst
    let s := forAll (fun b s => s.slotPoison b) bs (s.setPar P.detState 2)
    let ds := s.mem.detReads
    let s := s.modMem (fun m => { m with detReads := [] })
    let s := forAll (fun (d : DetRead) s =>
      if d.flush then s.flushDone d.blk false noEnv
      else s.reply { s.readReq d.port 0 d.dpa with gated := d.gated, since := d.since } none) ds s
    s.raise 5

/-- The slots of the area follow det_size while it is not ACTIVE; a size written in ACTIVE takes effect once it is not. DESIGN CHOICE
(log 103). -/
def State.detSizes (s : State) : State :=
  if s.par P.detState = 1 then s
  else (s.setPar P.detSlots (s.par P.detSize / 4096)).setPar P.detFree (s.par P.detSize / 4096 - s.par P.detUsed)

/-- The detour area serves again after its loss (R166): no slot in use, the link up, Bus Master Enable set, the area configured. -/
def State.detourBack (s : State) : State :=
  let s := s.detSizes
  if s.serving && s.par P.detSize != 0 && s.svc.bme && s.svc.dl && s.par P.detState == 2 && s.par P.detUsed == 0 then
    s.setPar P.detState 1
  else s

/-- Entry into SERVICE (R163): an area that is OFF becomes ACTIVE where it is configured and Bus Master Enable is set. -/
def State.detourOn (s : State) : State :=
  let s := s.detourBack
  if s.par P.detState == 0 && s.par P.detSize != 0 && s.svc.bme then s.setPar P.detState 1 else s

/-- DETOUR_LOST (R166): a function reset, Bus Master Enable cleared, D3cold, or the link down for 100 ms. -/
def execDetourLost (s : State) : R :=
  .next (if s.svc.flr || (!s.svc.bme && s.svc.downAt == 0) || s.svc.dstate == 2 || (s.svc.downAt != 0 && decide (s.svc.downAt + msT 100 ≤ s.now + 1)) then s.detourLost else s)

end Sys2Proof.Machine
end

