-- ==== Sys2Proof/Machine/Dice.lean ====
section
/-! DEFINITION. When dice rounds start: due blocks, boundaries and preemption (R353-R355). -/
namespace Sys2Proof.Machine

/-- A compute block is idle: no started context, no queued reconstruction (R354). -/
def State.blkIdle (s : State) (cb : Nat) : Bool :=
  (List.range 14).all (fun i => (s.ctxAt (ctxKey cb i)).kind == 0) && (Tab.get cb s.fac.pipes).isEmpty

/-- The partner of block cb's next round: the one TEST_ROUND names, or that of R347. -/
def State.dicePartner (s : State) (cb : Nat) : Nat :=
  if (s.blk cb).partner ≠ 0 then (s.blk cb).partner - 1 else s.partnerBlk cb 2

/-- Rounds run in region q now (R353, R355): SERVICE, power state S0 or S1, no reset. -/
def State.diceRegion (s : State) (q : Nat) : Bool :=
  s.serving && !s.warm && decide (s.par (P.pwrRegionState q) ≤ 1) && (Tab.find? q s.recov.region).isNone

/-- A due block of region q whose round may start now: no round runs in the region, its partner is free (R353, R355). -/
def State.diceCan (s : State) (q cb : Nat) : Bool :=
  let p := s.dicePartner cb
  (s.blk cb).due && decide (s.blkSt cb ≤ 2) && (Tab.find? q s.integ.dice).isNone && !s.blkAway cb && decide (s.blkSt p ≤ 2) && !s.blkAway p &&
    s.diceRegion q && (Tab.find? (p / 16) s.recov.region).isNone

/-- The round of block cb starts (R353). -/
def State.diceStart (s : State) (q cb : Nat) : State :=
  let b := s.blk cb
  let r : DiceRun := { blk := cb, partner := s.dicePartner cb, seed := b.seed, cmd := b.cmd, start := s.now }
  let s := s.modInteg (fun i => { i with dice := Tab.insert q r (Tab.erase q i.dice), ptr := Tab.set q ((cb % 16 + 1) % 9) i.ptr })
  let s := s.modBlk cb (fun b => { b with due := false, woke := false, dueAt := 0, seed := 0, cmd := 0, partner := 0, last := s.now, commits := s.integ.commits })
  s.setPar (P.blkLastRoundMs q (cb % 16)) s.ms

/-- Start a round of region q on a due block that `ok` names or whose round goes before its first work tile, by the rotating pointer
(R18, R353). -/
def State.diceTry (s : State) (q : Nat) (ok : Nat → Bool) : State :=
  match rotPick 9 (Tab.get q s.integ.ptr) (fun c => s.diceCan q (q * 16 + c) && (ok (q * 16 + c) || (s.blk (q * 16 + c)).woke)) with
  | some c => s.diceStart q (q * 16 + c)
  | none => s

/-- A COMMIT is accepted (R353, R354): a boundary for every due block. -/
def State.diceCommit (s : State) : State :=
  let s := s.modInteg (fun i => { i with commits := i.commits + 1 })
  forAll (fun q s => s.diceTry q (fun _ => true)) [0, 1, 2, 3] s

/-- Block cb's next round falls due (R353): period, or COMMITs since its last round started. -/
def State.diceFalls (s : State) (cb : Nat) : Bool :=
  let b := s.blk cb
  let p := if s.blkSt cb = 1 then s.par P.integObsPeriodS else s.par P.integDicePeriodS
  let m := s.par P.integDiceMilestones
  decide (b.last + msT (1000 * p - 100) ≤ s.now) || (m != 0 && decide (b.commits + m ≤ s.integ.commits))

/-- Region q has woken from S2 or S3 (R353): the rounds that fell due meanwhile run before the blocks' first work tiles. -/
def State.diceWake (s : State) (q : Nat) : State :=
  let s := forAll (fun c s =>
    let cb := q * 16 + c
    if decide (s.blkSt cb ≤ 2) && !(s.blk cb).due && s.diceFalls cb then
      s.freeNext.modBlk cb (fun b => { b with due := true, woke := true, dueAt := s.now, seed := s.freeValue % 2 ^ 64, cmd := 0, partner := 0 })
    else s) (List.range 9) s
  s.diceTry q s.blkIdle

/-- DICE_ROUND_DUE (R353): its seed is the device's choice, a free value. -/
def execDiceRoundDue (region : Fin 4) (block : Fin 9) (s : State) : R :=
  let cb := region.val * 16 + block.val
  .next (if s.diceRegion region && decide (s.blkSt cb ≤ 2) && !(s.blk cb).due && s.diceFalls cb &&
        !s.integ.dice.any (fun p => p.2.blk == cb) then
      (s.freeNext.modBlk cb (fun b => { b with due := true, dueAt := s.now, seed := s.freeValue % 2 ^ 64, cmd := 0, partner := 0 })).diceTry region s.blkIdle
    else s)

/-- DICE_DEFER_EXPIRY (R354): a block that found no boundary within integ_defer_ms is preempted at a work-tile boundary. -/
def execDiceDeferExpiry (region : Fin 4) (s : State) : R :=
  .next (s.diceTry region (fun cb => decide ((s.blk cb).dueAt + msT (s.par P.integDeferMs) ≤ s.now)))

end Sys2Proof.Machine
end

