-- ==== Sys2Proof/Machine/FactorRun.lean ====
section
/-! DEFINITION. Device factoring: FACTOR, the switching of tiles, and lowering (R109-R113, R136, R138, R155, R167). -/
namespace Sys2Proof.Machine

/-! Storing for an engine whose shortage ends the command (R155, R157). -/

/-- Commit a form in a view; none when a fence or the want of a frame stops the engine. -/
def State.engineForm (s : State) (v : View) (b : Nat) (f : Form) : Option State :=
  match s.partAt (b * 4096) with
  | none => none
  | some n => if s.formNeeds v n b f && s.par (P.partFence n) == 1 || s.tight v b f then none else s.commitForm v b f [] false

/-- Blocks of bytes stored from block b on, each in the form its area takes, until one is stopped: false then. -/
def State.engineBlocks (s : State) (v : View) (w b : Nat) : List (List Byte) → Bool × State
  | [] => (true, s)
  | d :: ds =>
    let (f, s) := s.homeForm w b (padTo 4096 d)
    match s.engineForm v b f with
    | none => (false, s)
    | some s => (s.invalidate w (s.areaOf w b).1 (s.areaOf w b).2).engineBlocks v w (b + 1) ds

/-! Quantised factors (R111). -/

/-- The magnitude of an FP32 value as significand and exponent; a non-finite one counts as zero. -/
def magOf : FVal → Nat × Int
  | .fin _ m e => (m, e)
  | _ => (0, 0)

/-- The signed significand of an FP32 value. -/
def signedOf : FVal → Int × Int
  | .fin sg m e => (if sg then -(m : Int) else m, e)
  | _ => (0, 0)

/-- m × 2^e ≤ c × 2^x. -/
def leScaled (m : Nat) (e : Int) (c : Nat) (x : Int) : Bool :=
  if x ≤ e then decide (m * 2 ^ (e - x).toNat ≤ c) else decide (m ≤ c * 2 ^ (x - e).toNat)

/-- The shared exponent of a row: the smallest E with every magnitude at most (2^(b-1) - 1) × 2^E. -/
def rowExp (b : Nat) (row : List FVal) : Int :=
  let c := 2 ^ (b - 1) - 1
  (row.map (fun x =>
    let (m, e) := magOf x
    let lo : Int := (bitlen m : Int) + e - b
    if m = 0 then -100000
    else if leScaled m e c lo then lo else if leScaled m e c (lo + 1) then lo + 1 else lo + 2)).foldl max (-100000)

/-- A row quantised: its stored exponent, its mantissas, and whether it was clamped (R111). -/
def quantRow (b : Nat) (su : Int) (row : List FVal) : Int × List Int × Bool :=
  if row.all (fun x => (magOf x).1 == 0) then
    (if -128 ≤ -su ∧ -su ≤ 127 then (-su, row.map (fun _ => 0), false) else (0, row.map (fun _ => 0), true))
  else
    let e := rowExp b row
    let st := e - su
    if st < -128 ∨ 127 < st then (0, row.map (fun _ => 0), true)
    else (st, row.map (fun x => let (m, g) := signedOf x; rneInt m (g - e)), false)

/-- What FULL computes from (R110): the tensor's elements, row-major by block, as patterns; sketch_seed; rank_max + oversample; the run. -/
structure Sketch where
  xs : List Nat
  seed : Nat
  l : Nat
  run : Nat
  deriving DecidableEq, Repr

/-- The FP32 element of a factor, zero throughout for a tensor of zeros (R110). -/
def Sketch.factor (k : Sketch) (f : Fmt) (side i j : Nat) : FVal :=
  fp32.value (if k.xs.all (fun x => (magOf (f.value x)).1 == 0 && (match f.value x with | .fin _ _ _ => true | _ => false)) then 0
    else Config.factor k.xs k.seed k.l k.run side i j)

/-- The rows of one side: `n` rows of `r` elements. -/
def Sketch.rows (k : Sketch) (f : Fmt) (side b n r : Nat) (su : Int) : List (Int × List Int × Bool) :=
  (List.range n).map (fun i => quantRow b su ((List.range r).map (fun j => k.factor f side i j)))

/-- The bytes of a side's mantissa area and exponent area. -/
def manBytes (w : Nat) (rows : List (Int × List Int × Bool)) : List Byte :=
  (rows.map (fun x => (x.2.1.map (fun m => leBytes w (unsigned (8 * w) m))).flatten)).flatten
def expBytes (rows : List (Int × List Int × Bool)) : List Byte := rows.map (fun x => BitVec.ofInt 8 x.1)

/-- Bytes cut into blocks. -/
def blocksOf (d : List Byte) : List (List Byte) := chunks 4096 (cdiv d.length 4096) d

/-- FULL reads the dense tensor for a HID, and stores U, V and the exponents (R110, R111, R113): false when a frame is wanting, what was
stored before it staying stored. -/
def State.storeFactors (s : State) (hid : Nat) (v : View) (w : Nat) (t : TDesc) (env : Env) : Bool × State :=
  let b0 := s.par (P.winBase w) / 4096
  let (c, s) := s.blocksAtHub hid b0 env (t.tiles * t.wOut)
  let k : Sketch := { xs := elems t.wOut (t.m * t.n) c.1, seed := t.seed, l := t.rankMax + t.oversample, run := s.freeCtr }
  let b := 8 * t.wMan
  let su := t.shift / 2
  let us := k.rows (fmtOf t.fmt) 0 b t.m t.rankMax su
  let vs := k.rows (fmtOf t.fmt) 1 b t.n t.rankMax (t.shift - su)
  let clamped := ((us ++ vs).filter (fun x => x.2.2)).length
  let put := fun (o : Bool × State) (off : Nat) (d : List Byte) => if o.1 then o.2.engineBlocks v w (b0 + off) (blocksOf d) else o
  let (ok, s) := put (put (put (put (true, s.freeNext.count P.facExpClamp clamped) t.uMan (manBytes t.wMan us)) t.uExp (expBytes us))
    t.vMan (manBytes t.wMan vs)) t.vExp (expBytes vs)
  (ok, s.descDamage w)

/-! FACTOR (R109). -/

/-- Some tensor-view block of window w is in FACTOR state in a view. -/
def State.anyFactor (s : State) (v : View) (w : Nat) (t : TDesc) : Bool :=
  let b0 := s.par (P.winBase w) / 4096
  (List.range (t.tiles * t.wOut)).any (fun i => (entryOf (s.wordIn v (b0 + i))).state == stFactor)

/-- The view in which a HID's FACTOR writes (R202). -/
def State.factorView (s : State) (hid w : Nat) : View :=
  match s.viewFor hid (s.par (P.winBase w)) true with | .ok v => v | .error _ => .main

/-- FACTOR modes FULL and RESIDUAL_ONLY: the checks and the start. -/
def State.factorStart (s : State) (h : Nat) (c : Cmd) (resOnly : Bool) (env : Env) : State :=
  let hid := s.qHid (h / 65536)
  let d := fld (c.d 1) 10 0
  let t := s.desc d
  match s.winOfDesc d with
  | none => s.fail h 0x21
  | some w =>
    let st := s.rangeStatus hid (s.par (P.winBase w)) (s.par (P.winSize w)) true
    let v := s.factorView hid w
    if st ≠ 0 then s.fail h st
    else if s.isBroken v then s.fail h stCapacity
    else if s.par (P.winKind w) = wFactor || (Tab.get d s.fac.runs).on then s.fail h 0x21
    else if !resOnly && s.anyFactor v w t then s.fail h 0x20
    else if resOnly && s.par (P.descGen d) = 0 then s.fail h 0x21
    else
      match (if resOnly then (true, s) else s.storeFactors hid v w t env) with
      | (false, s) => s.finish h stCapacity 0 0
      | (true, s) =>
        let x : FactorRun := { on := true, resOnly := resOnly, next := 0, cmd := h, dirty := [], switched := 0, tiles := t.tiles, disp := 0 }
        (((s.accept h).modFac (fun f => { f with runs := Tab.set d x f.runs })).descBit d 2 true).dispatchAll

/-- FACTOR_FULL, FACTOR_RESIDUAL_ONLY (R109). -/
def execFactorFull (queue : Fin 32768) (start : FactorStart) (s : State) : R :=
  .next (s.runMove queue start.idx 0x08 0 (fun h c s => s.factorStart h c false start.env))
def execFactorResidualOnly (queue : Fin 32768) (idx : Fin 65536) (s : State) : R :=
  .next (s.runMove queue idx 0x08 1 (fun h c s => s.factorStart h c true noEnv))

/-- A FACTOR ends: its completion carries the tiles switched; a FULL that ran through counts in desc_gen (R94, R109). -/
def State.factorEnd (s : State) (d status : Nat) : State :=
  let x := Tab.get d s.fac.runs
  if !x.on then s
  else
    let s := (s.modFac (fun f => { f with runs := Tab.erase d f.runs })).descBit d 2 false
    let s := if status = 0 && !x.resOnly then s.count (P.descGen d) 1 else s
    (s.clearCtxs x.cmd).finish x.cmd status (if status = 0 ∨ status = stCapacity then x.switched else 0) 0

/-! Residuals of a tile (R112, R135, R136, R138). -/

/-- The bytes of a residual block. -/
def TDesc.residBytes (t : TDesc) (ds : List Nat) : List Byte := padTo 4096 ((ds.map (leBytes t.wOut)).flatten)

/-- A residual block RAW, and in the form it takes before its checker (R102, R105). -/
def TDesc.residRaw (t : TDesc) (ds : List Nat) : Form := { state := stFactor, codec := cRaw, bytes := t.residBytes ds }
def State.residForm (s : State) (t : TDesc) (ds : List Nat) : Form :=
  let d := t.residBytes ds
  if allZero d then { state := stFactor, codec := cZero, bytes := [] }
  else
    let x := riceBlock cResidual (8 * t.wOut) d
    let n := cdiv x.length 256
    if 1 ≤ n ∧ n + s.par P.bicelMinSaving ≤ 16 then { state := stFactor, codec := cResidual, bytes := padTo (256 * n) x } else t.residRaw ds

/-- The form that a lane and its checker give residual block b of window w: RAW where the packed one fails (R90, R113). -/
def State.residStore (s : State) (w b : Nat) (ds : List Nat) : Form × State :=
  let t := s.winDesc w
  let (f, s) := s.laneForm w b (s.residForm t ds) (t.residBytes ds)
  (f.getD (t.residRaw ds), s)

/-- The forms of several residual blocks. -/
def State.residStores (s : State) (w : Nat) : List (Nat × List Nat) → List (Nat × Form) × State
  | [] => ([], s)
  | (b, ds) :: l =>
    let (f, s) := s.residStore w b ds
    let (fs, s) := s.residStores w l
    ((b, f) :: fs, s)

/-- A tile coded at a rank: its code, its step, its residuals, and whether BOUNDED failed its verification. -/
structure TileCode where
  rank : Nat
  code : Nat
  eps : Int
  ds : List Nat
  failed : Bool
  deriving DecidableEq, Repr

/-- EXACT residuals of a tile's elements. -/
def TDesc.exactAll (t : TDesc) (ps : List (Int × Int)) (xs : List Nat) : List Nat :=
  List.zipWith (fun p x => exactResidual (fmtOf t.fmt) t.pol p.1 p.2 x) ps xs

/-- BOUNDED residuals; none when some element is not finite, does not fit, or (the Bool) fails its verification. -/
def TDesc.boundedAll (t : TDesc) (eps : Int) (ps : List (Int × Int)) (xs : List Nat) : Option (List Nat) × Bool :=
  let os := List.zipWith (fun p x => boundedResidual (fmtOf t.fmt) p.1 p.2 eps x) ps xs
  if os.all Option.isSome then
    let ds := os.map (fun o => o.getD 0)
    let zs := List.zipWith (fun (p : Int × Int) d => (deliver (fmtOf t.fmt) t.pol p.1 p.2 1 eps d).1) ps ds
    if (List.zipWith (fun z x => withinEps (fmtOf t.fmt) eps z x) zs xs).all id then (some ds, false) else (none, true)
  else (none, false)

/-- A tile coded under a code and step: BOUNDED falls back to EXACT (R112, R138). -/
def TDesc.codeTile (t : TDesc) (p : Panel) (rank code : Nat) (eps : Int) (xs : List Nat) : TileCode :=
  let ps := t.products p rank
  if code = 1 then
    match t.boundedAll eps ps xs with
    | (some ds, _) => { rank := rank, code := 1, eps := eps, ds := ds, failed := false }
    | (none, f) => { rank := rank, code := 0, eps := 0, ds := t.exactAll ps xs, failed := f }
  else if code = 0 then { rank := rank, code := 0, eps := 0, ds := t.exactAll ps xs, failed := false }
  else { rank := rank, code := 2, eps := 0, ds := xs.map (fun _ => 0), failed := false }

/-- Sectors of a coded tile over its W blocks. -/
def State.tileSectors (s : State) (t : TDesc) (c : TileCode) : Nat :=
  ((chunks (4096 / t.wOut) t.wOut c.ds).map (fun d => (s.residForm t d).len)).sum

/-- The candidate ranks in rising order (R112). -/
def TDesc.candidates (t : TDesc) : List Nat :=
  t.rankFloor :: ((List.range (t.rankMax / 8 + 1)).map (· * 8)).filter (fun r => decide (t.rankFloor < r ∧ r < t.rankMax)) ++
    (if t.rankMax = t.rankFloor then [] else [t.rankMax])

/-- Every element of the rounded product lies within 2^eps_exp of its original (R112). -/
def TDesc.rankMeets (t : TDesc) (p : Panel) (rank : Nat) (xs : List Nat) : Bool :=
  (List.zipWith (fun (q : Int × Int) x => withinEps (fmtOf t.fmt) t.eps ((fmtOf t.fmt).roundInt t.pol q.1 q.2).1 x) (t.products p rank) xs).all id

/-- A tile's rank and code (R112): the coded tile, and whether a RANK-ONLY target was missed. -/
def State.selectTile (s : State) (t : TDesc) (p : Panel) (xs : List Nat) : TileCode × Bool :=
  let none_ := fun (r : Nat) => ({ rank := r, code := 2, eps := 0, ds := xs.map (fun _ => 0), failed := false } : TileCode)
  if t.fidelity = 2 then
    match t.candidates.find? (fun r => t.rankMeets p r xs) with
    | some r => (none_ r, false)
    | none => (none_ t.rankMax, true)
  else
    let cs := t.candidates.map (fun r => let c := t.codeTile p r (if t.fidelity = 1 then 1 else 0) t.eps xs; (c, s.tileSectors t c))
    let best := cs.foldl (fun (b : Option (TileCode × Nat)) c => match b with | some x => if c.2 < x.2 then some c else b | none => some c) none
    ((best.map Prod.fst).getD (none_ 0), false)

/-! Switching (R113). -/

/-- Write the record of tile i into the tile table (R100, R113). -/
def State.putRecord (s : State) (v : View) (w i rec_ : Nat) : Option State :=
  let b := s.par (P.winBase w) / 4096 + (s.winDesc w).tab + i / 512
  let d := splice (8 * (i % 512)) (leBytes 8 rec_) (s.peek v b)
  if s.peek v b = d then some s
  else
    let (f, s) := s.homeForm w b d
    (s.engineForm v b f).map (fun s => (s.invalidate w 5 (i / 512)).recount w b)

/-- Commit tensor-view blocks FACTOR, one by one. -/
def State.commitBlocks (s : State) (v : View) (w : Nat) : List (Nat × Form) → Option State
  | [] => some s
  | (b, f) :: l =>
    match s.engineForm v b f with
    | none => none
    | some s => (s.invalidate w 0 (b - s.par (P.winBase w) / 4096)).commitBlocks v w l

/-- What FACTOR reads of tile i: each tensor-view block with its elements, dense or already factored; `ok` while it may switch. -/
structure TileBlock where
  b : Nat
  xs : List Nat
  dense : Bool
  ok : Bool
  deriving DecidableEq, Repr

/-- Read the blocks of a tile. -/
def State.readTile (s : State) (v : View) (hid : Nat) (dirty : Tab Bool) (t : TDesc) (env : Env) : List Nat → List TileBlock × State
  | [] => ([], s)
  | b :: bs =>
    let st := (entryOf (s.wordIn v b)).state
    let (r, s) := s.blockAtHub hid b env
    let (d, bad) := r.getD (zeros 4096, [0])
    let x : TileBlock := { b := b, xs := elems t.wOut (4096 / t.wOut) d, dense := st != stFactor, ok := bad.isEmpty && !Tab.get b dirty }
    let (l, s) := s.readTile v hid dirty t env bs
    (x :: l, s)

/-- Tile `i` of a running FACTOR switches in view v: the new state and whether blocks switched; none when a frame is wanting. A tile with a
poisoned dense block, or whose factors or record cannot be read, is passed over: its blocks stay dense, and FACTOR goes on. DESIGN CHOICE
(log 104). -/
def State.switchTile (s : State) (x : FactorRun) (v : View) (w i : Nat) (env : Env) : Option (Bool × State) :=
  let hid := s.qHid (x.cmd / 65536)
  let t := s.winDesc w
  let b0 := s.par (P.winBase w) / 4096
  let (bl, s) := s.readTile v hid x.dirty t env ((List.range t.wOut).map (fun j => b0 + i * t.wOut + j))
  let go := bl.filter (fun y => y.dense && y.ok)
  if go.isEmpty then some (false, s)
  else
    let xs := (bl.map TileBlock.xs).flatten
    let factors := fun (s : State) (rank : Nat) =>
      if rank = 0 then (some (zeroPanel 64 64), s) else s.panel v b0 t rank (64 * (i / t.cols)) (64 * (i % t.cols)) none env
    let put := fun (s : State) (c : TileCode) (l : List TileBlock) =>
      let s := if c.failed then s.count P.arBoundVerifyFail 1 else s
      let (fs, s) := s.residStores w ((List.zip bl (chunks (4096 / t.wOut) t.wOut c.ds)).filterMap (fun y => if l.contains y.1 then some (y.1.b, y.2) else none))
      match s.putRecord v w i (if c.code = 0 ∧ c.rank = 0 then 0 else recordWord c.eps c.code c.rank) with
      | none => none
      | some s => (s.commitBlocks v w fs).map (fun s => (true, s.redense w))
    if !x.resOnly then
      match factors s t.rankMax with
      | (none, s) => some (false, s)
      | (some p, s) =>
        let (c, miss) := s.selectTile t p xs
        put (if miss then s.count P.facRankOnlyMiss 1 else s) c go
    else
      match s.tileRecord v b0 t i env with
      | (none, s) => some (false, s)
      | (some r, s) =>
        if r.bad then some (false, s)
        else
          match factors s r.rank with
          | (none, s) => some (false, s)
          | (some p, s) =>
            let c := t.codeTile p r.rank r.code r.eps xs
            put s c (if c.code = r.code then go else bl.filter (fun y => !y.dense || y.ok))

/-- TILE_SWITCH (R113): the next tile of a descriptor's FACTOR whose work tile has retired. A FACTOR whose open version is gone or BROKEN
stops with the status that its first check would give (R202, R205). DEDUCED (log 105). -/
def State.tileSwitch (s : State) (d : Nat) (env : Env) : State :=
  let x := Tab.get d s.fac.runs
  match s.winOfDesc d with
  | none => s.factorEnd d 0x21
  | some w =>
    let n := (s.desc d).tiles
    if !x.on || n ≤ x.next || decide (n < x.next + 1 + x.tiles) then s
    else
      match s.viewFor (s.qHid (x.cmd / 65536)) (s.par (P.winBase w)) true with
      | .error c => s.factorEnd d (if c = 5 then 0x3E else 0x39)
      | .ok v =>
        match (if s.isBroken v then none else s.switchTile x v w x.next env) with
        | none => s.factorEnd d stCapacity
        | some (ch, s) =>
          let s := s.modFac (fun f => { f with runs := Tab.mod d (fun y => { y with next := x.next + 1, switched := y.switched + (if ch then 1 else 0) }) f.runs })
          if x.next + 1 = n then s.factorEnd d 0 else s

/-- TILE_SWITCH (R113). -/
def execTileSwitch (descriptor : Fin 2048) (env : Env) (s : State) : R :=
  .next ((s.tileSwitch descriptor env).paid s ((Tab.get descriptor.val s.fac.runs).cmd / 65536))

/-! Lowering (R167). -/

/-- An open version holds an entry of its own for a block of tile i of window w, or for its record. -/
def State.openHolds (s : State) (w i : Nat) : Bool :=
  let t := s.winDesc w
  let b0 := s.par (P.winBase w) / 4096
  match s.latestView b0 with
  | .ver n _ => (s.sr n).opens.any (fun o => o.own.any (fun p => p.1 == b0 + t.tab + i / 512 || (decide (b0 ≤ p.1) && (p.1 - b0) / t.wOut == i)))
  | _ => false

/-- The mover may lower tile i of window w, in region q: in a LOWER_FIDELITY partition whose region is under pressure, no write of the
window under way (R113, R167). -/
def State.lowers (s : State) (q w i : Nat) : Bool :=
  let d := s.par (P.winDescriptor w)
  let dpa := (s.par (P.winBase w) / 4096 + i * (s.winDesc w).wOut) * 4096
  match s.partAt dpa with
  | none => false
  | some n =>
    s.factorWin w && s.par (P.partKind n) == 2 && s.par (P.partPolicy n) == 2 && s.homeIn n dpa == q && s.pressed q && s.lowersTile w i &&
      !(Tab.get d s.fac.runs).on && !s.mem.gather.any (fun p => p.2.win == w) && !s.mem.packJobs.any (fun p => p.2.win == w) && !s.openHolds w i

/-- The next tile of region q to be lowered, as its window and number: in the parcel with the lowest counter, within a tensor the lowest
number (R167). -/
def State.lowerNext (s : State) (q : Nat) : Option (Nat × Nat) :=
  let at_ := fun (x : Nat × Nat) => s.parcel ((s.par (P.winBase x.1) / 4096 + x.2 * (s.winDesc x.1).wOut) * 4096)
  let all := (s.winsOn.map (fun w => ((List.range (s.winDesc w).tiles).filter (s.lowers q w)).map (fun i => (w, i)))).flatten
  all.foldl (fun (best : Option (Nat × Nat)) x => match best with
    | none => some x
    | some y => if at_ x < at_ y then some x else best) none

/-- Blocks of a tensor committed as internal moves, which no fence refuses. -/
def State.moveBlocks (s : State) (v : View) (w : Nat) : List (Nat × Form) → Option State
  | [] => some s
  | (b, f) :: l =>
    match s.commitForm v b f [] false with
    | none => none
    | some s => (s.invalidate w (s.areaOf w b).1 (s.areaOf w b).2).moveBlocks v w l

/-- The record and the blocks of a lowered tile commit in one step; the first lowered tile of a descriptor is noticed. -/
def State.lowerPut (s : State) (v : View) (w i rec_ : Nat) (l : List (Nat × Form)) : State :=
  let d := s.par (P.winDescriptor w)
  let b := s.par (P.winBase w) / 4096 + (s.winDesc w).tab + i / 512
  let (tab, s) := s.homeForm w b (splice (8 * (i % 512)) (leBytes 8 rec_) (s.peek v b))
  match s.moveBlocks v w ((b, tab) :: l) with
  | none => s
  | some s' =>
    let s' := s'.recount w b
    if s.par (P.descLoweredTiles d) = 0 then s'.notice 5 [(0, cborUint d)] else s'

/-- A tile that is not tried again until it is written (R167). -/
def State.passOver (s : State) (d i : Nat) : State := s.modFac (fun f => { f with noLower := Tab.set (d * 2 ^ 28 + i) true f.noLower })

/-- The residuals at lower_eps_exp of blocks of a tile, formed from the elements as they are delivered (R136, R167); none where one does not fit or
is poisoned. -/
def State.lowerResids (s : State) (v : View) (w : Nat) (env : Env) (ps : List (List (Int × Int))) : List Nat → Option (List (Nat × List Nat)) × State
  | [] => (some [], s)
  | b :: bs =>
    let t := s.winDesc w
    let i := b - s.par (P.winBase w) / 4096
    match s.reconBlock v w i env none none 0xFF with
    | (none, s) => (none, s)
    | (some x, s) =>
      match (if x.bad.isEmpty then (t.boundedAll t.lowerEps (ps.getD (i % t.wOut) []) (elems t.wOut (4096 / t.wOut) x.data)).1 else none) with
      | none => (none, s)
      | some ds =>
        match s.lowerResids v w env ps bs with
        | (none, s) => (none, s)
        | (some l, s) => (some ((b, ds) :: l), s)

/-- LOWER_TILE (R167), of the next tile: its blocks committed ZERO under code NONE, or BOUNDED at lower_eps_exp where that takes fewer
sectors. A tile that cannot be read is passed over too. DESIGN CHOICE (log 106). -/
def State.lowerTile (s : State) (w i : Nat) (env : Env) : State :=
  let d := s.par (P.winDescriptor w)
  let t := s.winDesc w
  let b0 := s.par (P.winBase w) / 4096
  let v := s.latestView b0
  let bs := (List.range t.wOut).map (fun j => b0 + i * t.wOut + j)
  match s.tileRecord v b0 t i env with
  | (none, s) => s.passOver d i
  | (some r, s) =>
    if r.bad || r.low then s.passOver d i
    else if t.lowerMode = 2 then
      s.lowerPut v w i (recordWord 0 2 r.rank) (bs.map (fun b => (b, { state := stFactor, codec := cZero, bytes := [] })))
    else
      let old := (bs.map (fun b => (entryOf (s.wordIn v b)).len)).sum
      match (if r.rank = 0 then (some (zeroPanel 64 64), s) else s.panel v b0 t r.rank (64 * (i / t.cols)) (64 * (i % t.cols)) none env) with
      | (none, s) => s.passOver d i
      | (some p, s) =>
        match s.lowerResids v w env (chunks (4096 / t.wOut) t.wOut (t.products p r.rank)) bs with
        | (none, s) => s.passOver d i
        | (some l, s) =>
          let (fs, s) := s.residStores w l
          if old ≤ (fs.map (fun x => x.2.len)).sum then s.passOver d i
          else s.lowerPut v w i (recordWord t.lowerEps 1 r.rank) fs

/-- LOWER_TILE (R167): tile `tile` of a descriptor, where it is the next one and the mover's turn has come to lowering. -/
def execLowerTile (descriptor : Fin 2048) (tile : Fin 268435456) (env : Env) (s : State) : R :=
  .next (match s.winOfDesc descriptor with
    | none => s
    | some w =>
      let q := (s.home ((s.par (P.winBase w) / 4096 + tile * (s.winDesc w).wOut) * 4096)).getD 0
      if s.lowerNext q ≠ some (w, tile.val) || !s.moverMay q 5 then s else (s.moverGrant q).lowerTile w tile env)

end Sys2Proof.Machine
end

