-- ==== Sys2Proof/Machine/Retire.lean ====
section
/-! DEFINITION. Retirement of frames (R334, R335). -/
namespace Sys2Proof.Machine

/-- The frame keys that a RETIRE names, its log place (pc, bank, row), or the status it is refused with (R334). -/
def retireRange (mode d : Nat) : Except Nat (List Nat × Nat × Nat × Nat) :=
  let k := d / 2 ^ 60
  let keys := fun (l : List Nat) => (l.filter (fun f => decide (f < framesPer))).map (frameKey k)
  let out := fun (l : List Nat) (pc bank row : Nat) => if (keys l).isEmpty then .error 0x44 else .ok (keys l, pc, bank, row)
  if mode = 0 ∨ mode = 3 then
    let f := d % 2 ^ 28
    if fld d 59 28 ≠ 0 then .error 0x02 else out [f] 0xFF (f / 16 % 48) (f / 16 / 48)
  else
    let pc := fld d 26 21
    let bank := fld d 20 15
    let row := fld d 14 0
    if fld d 59 27 ≠ 0 ∨ (mode = 2 ∧ row ≠ 0) then .error 0x02
    else if 48 ≤ bank ∨ 24576 ≤ row then .error 0x44
    else if mode = 1 then out ((List.range 16).map (fun i => 16 * (48 * row + bank) + i)) pc bank row
    else out ((List.range (framesPer / 768 + 1)).flatMap (fun r => (List.range 16).map (fun i => 16 * (48 * r + bank) + i))) pc bank 0xFFFF

/-- Blocks and words with a copy in a frame. -/
def State.wordsIn (s : State) (key : Nat) : List (Nat × MapWord) :=
  (s.allWords.filter (fun p => (entryOf p.2).inHbm && (s.framesOf (entryOf p.2)).contains key)).eraseDups

/-- The waypoint copy (waypoint * 2^28 + tile) that a frame holds part of. -/
def State.copyIn (s : State) (key : Nat) : Option Nat := (s.fac.t1frames.find? (fun p => p.2.contains (key + 1))).map Prod.fst

/-- A frame that holds no block but a waypoint copy or a step's retained inputs gives its place to a new frame, which takes its bytes (R152); a
copy that cannot be read is dropped (R120). -/
def State.moveHolder (s : State) (key : Nat) (ph : Phys) : Option State :=
  let r := s.frame key
  if (r.st ≠ fUsed ∧ r.st ≠ fShadow) ∨ r.part = 0 then some s
  else
    let base := byteOf (frameAddr key)
    let (s, worst) := s.noteLines ph ((List.range 64).map (fun i => base / 64 + i))
    match (if worst = 3 then s.copyIn key else none), s.newFrame (r.part - 1) (frameStack key / 4) r.st r.mask r.copy with
    | some c, _ => some (s.loseTile (c / 2 ^ 28) (c % 2 ^ 28))
    | none, none => none
    | none, some (new, s) =>
      let s := s.storeBytes (byteOf (frameAddr new)) (Tab.readRun 0 base 4096 s.mem.hbm) ((List.range 64).filter (fun i => Tab.get (base / 64 + i) s.mem.marks))
      let sw := fun (l : List Nat) => l.map (fun x => if x = key + 1 then new + 1 else x)
      let s := s.modFac (fun f => { f with t1frames := f.t1frames.map (fun (p : Nat × List Nat) => (p.1, sw p.2)) })
      let s := { s with jobs := s.jobs.map (fun (p : Nat × JobRec) =>
        (p.1, { p.2 with retained := sw p.2.retained, steps := p.2.steps.map (fun (x : StepRec) => { x with scratch := sw x.scratch }) })) }
      some (s.setFrame key default)

/-- Relocate the listed blocks one by one; none where no frame is left. -/
def State.relocateAll (s : State) (ph : Phys) : List (Nat × MapWord) → Bool × State
  | [] => (true, s)
  | (b, w) :: rest =>
    match s.relocate b w ph with
    | none => (false, s)
    | some s => s.relocateAll ph rest

/-- Empty one frame and retire it; false where no frame is left for a relocation. -/
def State.retireOne (s : State) (key : Nat) (ph : Phys) : Bool × State :=
  match s.relocateAll ph (s.wordsIn key) with
  | (false, s) => (false, s)
  | (true, s) =>
    match s.moveHolder key ph with
    | none => (false, s)
    | some s => (true, s.retireFrame key)

/-- Retire the frames in turn: whether all went, how many became RETIRED. -/
def State.retireAll (s : State) (ph : Phys) : List Nat → Nat → (Bool × Nat) × State
  | [], n => ((true, n), s)
  | key :: rest, n =>
    if (s.frame key).st = fRetired then s.retireAll ph rest n
    else
      match s.retireOne key ph with
      | (false, s) => ((false, n), s)
      | (true, s) => s.retireAll ph rest (if (s.frame key).st = fRetired then n + 1 else n)

/-- Retire a list of frames (R334): no new block goes to them, the empty ones first, then the live ones. -/
def State.retire (s : State) (keys : List Nat) (ph : Phys) : (Bool × Nat) × State :=
  let s := forAll (fun k s => s.shutFrame k) keys s
  let n0 := (keys.filter (fun k => (s.frame k).st == fRetired)).length
  let s := forAll (fun k s => s.retireFrame k) keys s
  let n1 := (keys.filter (fun k => (s.frame k).st == fRetired)).length
  s.retireAll ph keys (n1 - n0)

/-- RETIRE with a mode that retires (R334, R335). -/
def State.retireCmd (s : State) (h : Nat) (c : Cmd) (ph : Phys) : State :=
  match retireRange c.mode (c.d 1) with
  | .error st => s.fail h st
  | .ok (keys, pc, bank, row) =>
    if 1024 ≤ s.media.retire.length then s.fail h 0x44
    else
      let ((ok, n), s) := s.retire keys ph
      let s := if n = 0 then s else
        let l := (c.mode * 2 ^ 64 + c.d 1) :: s.media.retire
        let s := { s with media := { s.media with retire := l } }
        ((s.saveRec (fun r => { r with retire := l })).setPar P.retireListUsed l.length).logMedia 11 (c.d 1 / 2 ^ 60) pc 0xFF bank 0xFF row
      s.finish h (if ok then 0 else stCapacity) n 0

/-- RETIRE RELEASE (R334, R147). -/
def State.retireRelease (s : State) (h : Nat) (c : Cmd) : State :=
  match retireRange c.mode (c.d 1) with
  | .error st => s.fail h st
  | .ok (keys, _) =>
    let key := keys.headD 0
    let r := s.frame key
    if r.st = fQuar ∧ r.mask = 0 then (s.setFrame key default).finish h 0 1 0 else s.fail h 0x44

/-- RETIRE_FRAME (R334). -/
def execRetireFrame (queue : Fin 32768) (idx : Fin 65536) (ph : Phys) (s : State) : R :=
  .next (s.runCmd queue idx 0x28 0 (fun h c s => s.retireCmd h c ph))

/-- RETIRE_ROW (R334). -/
def execRetireRow (queue : Fin 32768) (idx : Fin 65536) (ph : Phys) (s : State) : R :=
  .next (s.runCmd queue idx 0x28 1 (fun h c s => s.retireCmd h c ph))

/-- RETIRE_BANK (R334). -/
def execRetireBank (queue : Fin 32768) (idx : Fin 65536) (ph : Phys) (s : State) : R :=
  .next (s.runCmd queue idx 0x28 2 (fun h c s => s.retireCmd h c ph))

/-- RETIRE_RELEASE (R334). -/
def execRetireRelease (queue : Fin 32768) (idx : Fin 65536) (s : State) : R :=
  .next (s.runCmd queue idx 0x28 3 (fun h c s => s.retireRelease h c))

end Sys2Proof.Machine
end

