-- ==== Sys2Proof/Machine/Kernels.lean ====
section
/-! DEFINITION. The optimizer kernels (R139, R179, R181, R182): pure functions from the step's inputs to its results. -/
namespace Sys2Proof.Machine

/-- The pattern of 1.0. -/
def Fmt.one (f : Fmt) : Nat := f.bias.toNat * 2 ^ f.mBits

/-- The pattern of the negated value. -/
def Fmt.neg (f : Fmt) (x : Nat) : Nat := f.pack (fnegV (f.value x))

/-- sgn of R181: ±1.0 by sign, +0 for a zero, NaN for NaN. -/
def Fmt.sgn (f : Fmt) (x : Nat) : Nat :=
  match f.value x with
  | .nan => f.nanPat
  | .inf s => f.withSign s f.one
  | .fin s m _ => if m = 0 then 0 else f.withSign s f.one

/-- A NaN or an infinity. -/
def Fmt.nonfinite (f : Fmt) (x : Nat) : Bool :=
  match f.value x with
  | .fin _ _ _ => false
  | _ => true

/-- The hyperparameters in the arithmetic format (R179). -/
structure Hyper where
  lr : Nat
  lam : Nat
  b1 : Nat
  omb1 : Nat
  b2 : Nat
  omb2 : Nat
  eps : Nat
  bc1 : Nat
  bc2 : Nat
  gscale : Nat
  alpha : Nat
  deriving DecidableEq, Repr

/-- The fields of a record, converted exactly (R179). -/
def hyperOf (a : Fmt) (d : List Byte) : Hyper :=
  let x := fun (i : Nat) => fconv fp32 a (ofLe (cut (4 * i) 4 d))
  { lr := x 0, lam := x 1, b1 := x 2, omb1 := x 3, b2 := x 4, omb2 := x 5, eps := x 6, bc1 := x 7, bc2 := x 8, gscale := x 9, alpha := x 10 }

/-- The formats of a step by their codes: arithmetic and w, moments, gradient, working copy (R178, R181). -/
structure StepFmts where
  a : Fmt
  m : Fmt
  v : Fmt
  g : Fmt
  deriving DecidableEq, Repr

/-- What one element's kernel gives, unrounded arithmetic values: whether its gradient is non-finite, w1, the new first and
second moments. -/
structure ElemOut where
  bad : Bool
  w : Nat
  m : Nat
  v : Nat
  deriving DecidableEq, Repr, Inhabited

/-- SGD_MOMENTUM (R181). -/
def sgdElem (f : StepFmts) (p : Hyper) (nesterov : Bool) (gin w m : Nat) : ElemOut :=
  let a := f.a
  let g := a.mul (fconv f.g a gin) p.gscale
  let b1n := a.fma p.b1 (fconv f.m a m) (a.mul p.omb1 g)
  let d := if nesterov then a.fma p.b1 b1n g else b1n
  let q := a.fma p.lam w d
  { bad := a.nonfinite g, w := a.fma (a.neg p.lr) q w, m := b1n, v := 0 }

/-- The ADAMW lines from g up to u: u, m1, v1 (R181). -/
def adamCore (f : StepFmts) (p : Hyper) (g m v : Nat) : Nat × Nat × Nat :=
  let a := f.a
  let m1 := a.fma p.b1 (fconv f.m a m) (a.mul p.omb1 g)
  let t2 := a.mul g g
  let v1 := a.fma p.b2 (fconv f.v a v) (a.mul p.omb2 t2)
  let dn := a.add (a.sqrt (a.mul v1 p.bc2)) p.eps
  (a.div (a.mul m1 p.bc1) dn, m1, v1)

/-- ADAMW (R181). -/
def adamElem (f : StepFmts) (p : Hyper) (gin w m v : Nat) : ElemOut :=
  let a := f.a
  let g := a.mul (fconv f.g a gin) p.gscale
  let (u, m1, v1) := adamCore f p g m v
  { bad := a.nonfinite g, w := a.fma (a.neg p.lr) (a.fma p.lam w u) w, m := m1, v := v1 }

/-- SIGN_MOMENTUM (R181). -/
def signElem (f : StepFmts) (p : Hyper) (gin w m : Nat) : ElemOut :=
  let a := f.a
  let g := a.mul (fconv f.g a gin) p.gscale
  let c := a.fma p.b1 (fconv f.m a m) (a.mul p.omb1 g)
  let q := a.fma p.lam w (a.sgn c)
  { bad := a.nonfinite g, w := a.fma (a.neg p.lr) q w, m := a.fma p.b2 (fconv f.m a m) (a.mul p.omb2 g), v := 0 }

/-- The element kernels by mode (R228). -/
def stepElem (f : StepFmts) (p : Hyper) (kern : Nat) (nesterov : Bool) (gin w m v : Nat) : ElemOut :=
  match kern with
  | 0 => sgdElem f p nesterov gin w m
  | 1 => adamElem f p gin w m v
  | _ => signElem f p gin w m

/-- The results of a step: non-finite gradient elements, w1, and the new moments, as arithmetic patterns. -/
structure StepOut where
  bad : Nat
  w : List Nat
  m : List Nat
  v : List Nat
  deriving DecidableEq, Repr

/-- An element kernel over all elements. -/
def elemStep (f : StepFmts) (p : Hyper) (kern : Nat) (nesterov : Bool) (gs ws ms vs : List Nat) : StepOut :=
  let os := (List.range ws.length).map (fun i => stepElem f p kern nesterov (gs.getD i 0) (ws.getD i 0) (ms.getD i 0) (vs.getD i 0))
  { bad := (os.filter ElemOut.bad).length, w := os.map ElemOut.w, m := os.map ElemOut.m, v := os.map ElemOut.v }

/-- The position of element (i, j) in the order of R178: row-major, or the tile-major order of R92. -/
def posOf (tiled : Bool) (n i j : Nat) : Nat :=
  if tiled then ((i / 64) * (n / 64) + j / 64) * 4096 + i % 64 * 64 + j % 64 else i * n + j

/-- PROJECTED_ADAMW (R182): P is M x r, the moments r x N. -/
def projStep (f : StepFmts) (p : Hyper) (tiled : Bool) (rows cols r : Nat) (gs ws ms vs ps : List Nat) : StepOut :=
  let a := f.a
  let gi := fun (i j : Nat) => a.mul (fconv f.g a (gs.getD (posOf tiled cols i j) 0)) p.gscale
  let pe := fun (i k : Nat) => ps.getD (i * r + k) 0
  let rk := fun (k j : Nat) => (List.range rows).foldl (fun acc i => a.fma (pe i k) (gi i j) acc) 0
  let sub := (List.range (r * cols)).map (fun x => adamCore f p (rk (x / cols) (x % cols)) (ms.getD x 0) (vs.getD x 0))
  let u := sub.map Prod.fst
  let wAt := fun (i j : Nat) =>
    let w := ws.getD (posOf tiled cols i j) 0
    let d := (List.range r).foldl (fun acc k => a.fma (pe i k) (u.getD (k * cols + j) 0) acc) 0
    a.fma (a.neg p.lr) (a.fma p.lam w (a.mul p.alpha d)) w
  let at_ := fun (x : Nat) => if tiled then (let t := x / 4096; (t / (cols / 64) * 64 + x % 4096 / 64, t % (cols / 64) * 64 + x % 64)) else (x / cols, x % cols)
  let idx := List.range (rows * cols)
  { bad := (idx.filter (fun x => a.nonfinite (gi (at_ x).1 (at_ x).2))).length
    w := idx.map (fun x => wAt (at_ x).1 (at_ x).2)
    m := sub.map (fun x => x.2.1), v := sub.map (fun x => x.2.2) }

/-- Arithmetic patterns stored in a format (R181). -/
def storeAll (a f : Fmt) (xs : List Nat) : List Byte := (xs.map (fun x => leBytes f.bytes (fconv a f x))).flatten

end Sys2Proof.Machine
end

