-- ==== Sys2Proof/Machine/OptStep.lean ====
section
/-! DEFINITION. OPT_STEP: its body, checks, retained inputs, shadow state, and the retirement and replay of work tiles (R36,
R155, R172-R174, R178-R184, R230). -/
namespace Sys2Proof.Machine

/-- The body of an OPT_STEP (R228, R230); ranges as block numbers. -/
structure StepCmd where
  kern : Nat
  milestone : Nat
  job : Nat
  nesterov : Bool
  tiled : Bool
  gsrc : Nat
  wFmt : Nat
  mFmt : Nat
  vFmt : Nat
  gFmt : Nat
  wcFmt : Nat
  rank : Nat
  w : Nat
  mom : Nat
  v : Nat
  p : Nat
  wc : Nat
  hyper : Nat
  grad : Nat
  rows : Nat
  n : Nat
  deriving DecidableEq, Repr

/-- The fields of an entry. -/
def Cmd.step (c : Cmd) : StepCmd :=
  let d := c.d 2
  { kern := c.mode, milestone := c.d 1, job := fld d 15 0, nesterov := fld d 29 29 == 1, tiled := fld d 30 30 == 1, gsrc := fld d 32 31
    wFmt := fld d 35 33, mFmt := fld d 38 36, vFmt := fld d 41 39, gFmt := fld d 44 42, wcFmt := fld d 47 45, rank := fld d 57 48
    w := fld (c.d 3) 61 32, mom := fld (c.d 3) 29 0, v := fld (c.d 4) 61 32, p := fld (c.d 4) 29 0, wc := fld (c.d 5) 61 32
    hyper := fld (c.d 5) 29 0, grad := c.d 6, rows := fld (c.d 7) 57 37, n := fld (c.d 7) 36 0 }

/-- Columns; elements of a moment range. -/
def StepCmd.cols (o : StepCmd) : Nat := o.n / o.rows
def StepCmd.moments (o : StepCmd) : Nat := if o.kern = 3 then o.rank * o.cols else o.n

/-- The second moment is used; a working copy is asked for. -/
def StepCmd.hasV (o : StepCmd) : Bool := o.kern == 1 || o.kern == 3
def StepCmd.hasWc (o : StepCmd) : Bool := o.wcFmt != 7

/-- Bytes of `n` elements in a format code. -/
def fmtBytes (code n : Nat) : Nat := n * (fmtOf code).bytes

/-- The state ranges: base and bytes of w, the first moment, the second moment. -/
def StepCmd.stateRanges (o : StepCmd) : List (Nat × Nat) :=
  [(o.w * 4096, fmtBytes o.wFmt o.n), (o.mom * 4096, fmtBytes o.mFmt o.moments)] ++
    (if o.hasV then [(o.v * 4096, fmtBytes o.vFmt o.moments)] else [])

/-- The working-copy range, if any. -/
def StepCmd.wcRanges (o : StepCmd) : List (Nat × Nat) := if o.hasWc then [(o.wc * 4096, fmtBytes o.wcFmt o.n)] else []

/-- The range of P, if any; bytes of the gradient. -/
def StepCmd.pRanges (o : StepCmd) : List (Nat × Nat) := if o.kern = 3 then [(o.p * 4096, fmtBytes o.wFmt (o.rows * o.rank))] else []
def StepCmd.gradBytes (o : StepCmd) : Nat := fmtBytes o.gFmt o.n

/-- The formats of the kernel. -/
def StepCmd.fmts (o : StepCmd) : StepFmts := { a := fmtOf o.wFmt, m := fmtOf o.mFmt, v := fmtOf o.vFmt, g := fmtOf o.gFmt }

/-- The shape fits (R178, R230). -/
def StepCmd.shapeOk (o : StepCmd) : Bool :=
  decide (1 ≤ o.n ∧ o.n ≤ 2 ^ 36) &&
  (if !o.tiled && o.kern != 3 then o.rows == 0
   else decide (1 ≤ o.rows ∧ o.rows ≤ 2 ^ 20 ∧ o.n % o.rows = 0 ∧ 1 ≤ o.cols ∧ o.cols ≤ 2 ^ 20) &&
     (!o.tiled || (o.rows % 64 == 0 && o.cols % 64 == 0)))

/-- The formats fit the master, and what the kernel does not use is 0 (R178, R230). -/
def StepCmd.fmtsOk (o : StepCmd) : Bool :=
  let moms := if o.wFmt = 1 then [1, 2] else [0, 1]
  let wide := if o.wFmt = 1 then [1, 2, 3, 4, 5] else [0, 1]
  decide (o.wFmt ≤ 1) && moms.contains o.mFmt && wide.contains o.gFmt && (!o.hasWc || wide.contains o.wcFmt) &&
  (if o.hasV then moms.contains o.vFmt else o.vFmt == 0 && o.v == 0) && (o.hasWc || o.wc == 0) &&
  (if o.kern = 3 then decide (1 ≤ o.rank ∧ o.rank ≤ 512) else o.rank == 0 && o.p == 0) && (o.kern == 0 || !o.nesterov)

/-- The gradient source fits (R180). -/
def State.gradOk (s : State) (o : StepCmd) : Bool :=
  match o.gsrc with
  | 0 => o.grad % 4096 == 0 && decide (o.grad + o.gradBytes ≤ dpaEnd)
  | 1 => o.grad % 4096 == 0
  | 2 => decide (o.grad < 256) && s.redOpen o.grad && (s.red o.grad).dest == 0 && (s.red o.grad).count == o.n && (s.red o.grad).outFmt == o.gFmt
  | _ => false

/-- Every field of the step is in range: INVALID_FIELD otherwise. -/
def State.stepFields (s : State) (o : StepCmd) : Bool :=
  o.shapeOk && o.fmtsOk && s.gradOk o && decide (o.hyper * 4096 + 64 ≤ dpaEnd) &&
    (o.stateRanges ++ o.wcRanges ++ o.pRanges).all (fun r => decide (r.1 + r.2 ≤ dpaEnd))

/-- A range lies in COMMITTED transparent or explicit-T1 windows of PRIVATE partitions; a working copy also in the tensor view of
a factoring window (R178). -/
def State.stepWin (s : State) (wc : Bool) (r : Nat × Nat) : Bool :=
  match s.rangeWins r.1 r.2 with
  | none => false
  | some ws => ws.all (fun w =>
      let k := s.par (P.winKind w)
      s.par (P.partShareMode (s.par (P.winPartition w))) == 0 &&
      (k == wTransparent || k == wT1 ||
        (wc && k == wFactoring && decide (r.1 + r.2 ≤ s.par (P.winBase w) + (s.winDesc w).m * (s.winDesc w).n * (s.winDesc w).wOut))))

/-- The first right the HID lacks, or 0 (R60, R178). -/
def State.stepRights (s : State) (hid : Nat) (o : StepCmd) : Nat :=
  let w := (o.stateRanges ++ o.wcRanges).map (fun r => s.rangeStatus hid r.1 r.2 true)
  let r := (o.pRanges ++ [(o.hyper * 4096, 64)] ++ (if o.gsrc = 0 then [(o.grad, o.gradBytes)] else [])).map
    (fun (r : Nat × Nat) => s.rangeStatus hid r.1 r.2 false)
  ((w ++ r).find? (· ≠ 0)).getD 0

/-- Two ranges share a 4 KiB block. -/
def blocksMeet (a b : Nat × Nat) : Bool := decide (a.1 / 4096 < cdiv (b.1 + b.2) 4096 ∧ b.1 / 4096 < cdiv (a.1 + a.2) 4096)

/-- A block of the step already carries a shadow entry, or a waiting step will give it one (R178). -/
def State.stepBusy (s : State) (o : StepCmd) : Bool :=
  let rs := o.stateRanges ++ o.wcRanges
  s.jobs.any (fun p =>
    p.2.shadow.any (fun x => rs.any (fun r => blocksMeet (x.1 * 4096, 4096) r)) ||
    p.2.steps.any (fun x => !x.done && x.tiles == 0 &&
      (match s.cmdAt x.cmd with | some c => (c.step.stateRanges ++ c.step.wcRanges).any (fun a => rs.any (blocksMeet a)) | none => false)))

/-! Frames held whole: retained inputs, R and U (R180, R182). -/

/-- Take `k` whole frames in SHADOW, charged to partition n, from the home of block b on: 1 for the check of R155, 2 for a fence. -/
def State.holdFrames (s : State) (n b : Nat) (fenced : Bool) : Nat → Except Nat (List Nat × State)
  | 0 => .ok ([], s)
  | k + 1 =>
    let q := s.homeIn n (b * 4096)
    if s.chargeFrames n ≤ s.heldIn n q ∧ s.headroom q ≤ (s.pool : Int) then .error 1
    else if fenced && s.par (P.partFence n) == 1 then .error 2
    else
      match s.newFrame n q fShadow (2 ^ 16 - 1) false with
      | none => .error 1
      | some (key, s) =>
        match s.holdFrames n (b + 1) fenced k with
        | .error e => .error e
        | .ok (l, s) => .ok ((key + 1) :: l, s)

/-- Blocks of state in shadow fit without the check of R155 failing, each in a frame of its own: what a step whose gradient is still to come
is checked for at its acceptance, before its results show their packed sizes. DESIGN CHOICE (log 107). -/
def State.roomFor (s : State) : List Nat → Bool
  | [] => true
  | b :: bs =>
    match s.partAt (b * 4096) with
    | none => false
    | some n =>
      match (s.copyRegions n b).foldl (fun (o : Option State) q => o.bind (fun s =>
          if s.chargeFrames n ≤ s.heldIn n q ∧ s.headroom q ≤ (s.pool : Int) then none
          else (s.newFrame n q fShadow (2 ^ 16 - 1) false).map Prod.snd)) (some s) with
      | some s => s.roomFor bs
      | none => false

/-- The blocks that a step gives shadow entries. -/
def StepCmd.shadowBlocks (o : StepCmd) : List Nat :=
  ((o.stateRanges ++ o.wcRanges).map (fun r => (List.range (cdiv r.2 4096)).map (· + r.1 / 4096))).flatten

/-- Frames of the retained inputs; frames of R and U. -/
def StepCmd.retainedFrames (o : StepCmd) : Nat :=
  cdiv o.gradBytes 4096 + 1 + (o.pRanges.map (fun r => cdiv r.2 4096)).sum
def StepCmd.scratchFrames (o : StepCmd) : Nat := if o.kern = 3 then 2 * cdiv (fmtBytes o.wFmt o.moments) 4096 else 0

/-! New state in shadow entries (R36). -/

/-- What was accepted for block b before the step is stored first (R25). -/
def State.settleBlock (s : State) (b : Nat) (env : Env) : State :=
  let s := (s.settlePack b).resolve b env false
  let s := if (Tab.find? b s.mem.gather).isSome then s.resolve b env true else s
  s.settlePack b

/-- The content that a partial write of a step merges with: of its own shadow entry, otherwise the committed block. -/
def State.shadowBase (s : State) (j hid b : Nat) (env : Env) : (List Byte × List Nat) × State :=
  if Tab.getD 0 b (s.job j).shadow ≠ 0 then
    let (r, s) := s.readBlock (.shadow j) b 0 env.ph none hid
    (r.getD (zeros 4096, List.range 64), s)
  else
    let (r, s) := s.blockAtHub hid b env
    (r.getD (zeros 4096, List.range 64), s)

/-- Give block b a shadow entry with the given content. -/
def State.shadowPut (s : State) (j b : Nat) (d : List Byte) (marks : List Nat) (fenced : Bool) : Except Nat State :=
  match s.winAt (b * 4096), s.partAt (b * 4096) with
  | some w, some n =>
    let (f, s) := if marks.isEmpty then s.homeForm w b d else (flatForm d, s)
    if s.tight (.shadow j) b f then .error 1
    else if fenced && s.formNeeds (.shadow j) n b f && s.par (P.partFence n) == 1 then .error 2
    else
      match s.commitForm (.shadow j) b f marks false with
      | some s => .ok s
      | none => .error 1
  | _, _ => .error 1

/-- Write bytes of a range, block by block from block b on, as shadow state; the fuel is the number of blocks. -/
def State.shadowRange (s : State) (j hid b : Nat) (d : List Byte) (fenced : Bool) (env : Env) : Nat → Except Nat State
  | 0 => .ok s
  | k + 1 =>
    let x := d.take 4096
    let ((old, marks), s) := if x.length = 4096 then ((x, []), s) else s.shadowBase j hid b env
    let keep := marks.filter (fun i => decide (cdiv x.length 64 ≤ i) || (decide (x.length < 64 * (i + 1)) && decide (64 * i < x.length)))
    match s.shadowPut j b (splice 0 x old) keep fenced with
    | .error e => .error e
    | .ok s => s.shadowRange j hid (b + 1) (d.drop 4096) fenced env k

/-- Write every range in turn. -/
def State.shadowAll (s : State) (j hid : Nat) (fenced : Bool) (env : Env) : List (Nat × List Byte) → Except Nat State
  | [] => .ok s
  | (a, d) :: l =>
    match s.shadowRange j hid (a / 4096) d fenced env (cdiv d.length 4096) with
    | .error e => .error e
    | .ok s => s.shadowAll j hid fenced env l

/-- The results of a step as bytes of its ranges. -/
def StepCmd.results (o : StepCmd) (r : StepOut) : List (Nat × List Byte) :=
  let f := o.fmts
  [(o.w * 4096, storeAll f.a f.a r.w), (o.mom * 4096, storeAll f.a f.m r.m)] ++
    (if o.hasV then [(o.v * 4096, storeAll f.a f.v r.v)] else []) ++
    (if o.hasWc then [(o.wc * 4096, storeAll f.a (fmtOf o.wcFmt) r.w)] else [])

/-- The kernel over the bytes of its inputs. -/
def StepCmd.run (o : StepCmd) (hyper grad w mom v p : List Byte) : StepOut :=
  let f := o.fmts
  let h := hyperOf f.a hyper
  let xs := fun (g : Fmt) (n : Nat) (d : List Byte) => elems g.bytes n d
  if o.kern = 3 then
    projStep f h o.tiled o.rows o.cols o.rank (xs f.g o.n grad) (xs f.a o.n w) (xs f.m o.moments mom) (xs f.v o.moments v)
      (xs f.a (o.rows * o.rank) p)
  else elemStep f h o.kern o.nesterov (xs f.g o.n grad) (xs f.a o.n w) (xs f.m o.n mom) (if o.hasV then xs f.v o.n v else [])

/-- Work tiles of a step (R183). -/
def StepCmd.workTiles (o : StepCmd) : Nat :=
  if o.kern = 3 then 2 * cdiv o.rows 64 * cdiv o.cols 64 + cdiv o.cols 64 else cdiv o.n 65536

/-- Read the state ranges; none when some line reads poison (R180). -/
def State.readState (s : State) (hid : Nat) (env : Env) : List (Nat × Nat) → Option (List (List Byte)) × State
  | [] => (some [], s)
  | (a, n) :: l =>
    let ((d, bad), s) := s.rangeAtHub hid a n env
    if !bad.isEmpty then (none, s)
    else
      match s.readState hid env l with
      | (some ds, s) => (some (d :: ds), s)
      | (none, s) => (none, s)

/-- The step's work on its inputs: the new state in shadow entries and its non-finite gradient elements. Errors: 1 the check of
R155, 2 a fence, 3 a state block reads poison. -/
def State.stepWork (s : State) (o : StepCmd) (hid : Nat) (hyper grad p : List Byte) (fenced : Bool) (env : Env) : Except Nat (Nat × State) :=
  let rs := o.stateRanges ++ o.wcRanges
  let s := forAll (fun (r : Nat × Nat) s => forAll (fun i s => s.settleBlock (r.1 / 4096 + i) env) (List.range (cdiv r.2 4096)) s) rs s
  match s.readState hid env o.stateRanges with
  | (none, _) => .error 3
  | (some ds, s) =>
    let r := o.run hyper grad (ds.getD 0 []) (ds.getD 1 []) (ds.getD 2 []) p
    match s.shadowAll o.job hid fenced env (o.results r) with
    | .error e => .error e
    | .ok s => .ok (r.bad, s)

/-- Non-finite gradient elements are counted (R177). -/
def State.addNonfinite (s : State) (j n : Nat) : State :=
  s.jobField j 63 32 (Nat.min (fld (s.par (P.jobStatus j)) 63 32 + n) (2 ^ 32 - 1))

/-- The job takes its owner, when it has none, and opens its step (R172, R173). -/
def State.claimJob (s : State) (j hid : Nat) : State :=
  if fld (s.par (P.jobStatus j)) 16 16 = 1 then s else (s.jobField j 16 16 1).jobField j 15 8 hid
def State.openJob (s : State) (j hid : Nat) : State :=
  ((s.claimJob j hid).jobField j 7 0 1).setPar (P.jobOpen j) (s.par (P.jobCommitted j) + 1)

/-- Set the fields of one step of a job. -/
def State.modStep (s : State) (j h : Nat) (f : StepRec → StepRec) : State :=
  s.modJob j (fun r => { r with steps := r.steps.map (fun x => if x.cmd = h then f x else x) })

/-- A step's work is done on its inputs, or the job is damaged (R173, R178, R180). -/
def State.stepRun (s : State) (h hid : Nat) (o : StepCmd) (hyper grad p : List Byte) (env : Env) : State :=
  match s.stepWork o hid hyper grad p true env with
  | .ok (n, s) => (((s.addNonfinite o.job n).modStep o.job h (fun x => { x with tiles := o.workTiles, all := o.workTiles, rt := if o.kern = 3 then cdiv o.rows 64 else 0 })).jobFrames o.job).dispatchAll
  | .error 3 => s.jobDamage o.job 4 stStepFault none
  | .error _ => s.jobDamage o.job 2 stCapacity none

/-- Tiles that wait in a CONSUMED reduction pass to the oldest step that names it; the last one starts its work (R180, R189). -/
def State.takeTiles (s : State) (n : Nat) (env : Env) : State :=
  let find := s.jobs.findSome? (fun p => (p.2.steps.find? (fun x => x.red == n + 1 && !x.done && x.tiles == 0)).map (fun x => (p.1, x)))
  match find with
  | none => s
  | some (j, x) =>
    let got := (s.red n).results
    let grad := got.foldl (fun t p => Tab.insert p.1 p.2 (Tab.erase p.1 t)) x.grad
    let s := (s.modRed n (fun r => { r with results := [], taken := r.taken + got.length })).modStep j x.cmd (fun y => { y with grad := grad })
    match s.cmdAt x.cmd with
    | none => s
    | some c =>
      let o := c.step
      if grad.length < cdiv o.n 65536 then s
      else (s.stepRun x.cmd (s.qHid (x.cmd / 65536)) o x.hyper ((grad.map Prod.snd).flatten) x.proj env).redClose n

/-- The checks of R172, R174 and R178 up to the reads, in order: the status, or 0. -/
def State.stepCheck (s : State) (h : Nat) (o : StepCmd) : Nat :=
  let q := h / 65536
  let hid := s.qHid q
  let st := s.par (P.jobStatus o.job)
  if fld st 16 16 = 1 ∧ fld st 15 8 ≠ hid ∧ !s.qPriv q then 0x03
  else if 1 < s.jobMode o.job ∨ o.milestone ≠ s.par (P.jobCommitted o.job) + 1 ∨ 2 ^ 64 - 1 ≤ s.par (P.jobCommitted o.job) then 0x28
  else if !s.stepFields o then 0x02
  else if !(o.stateRanges.all (s.stepWin false) && o.wcRanges.all (s.stepWin true)) then 0x05
  else s.stepRights hid o

/-- The reads that may wait for snoops are ready (R210). -/
def State.stepReady (s : State) (o : StepCmd) : Bool × State :=
  (o.pRanges ++ [(o.hyper * 4096, 64)] ++ (if o.gsrc = 0 then [(o.grad, o.gradBytes)] else [])).foldl
    (fun (acc : Bool × State) (r : Nat × Nat) => if acc.1 then acc.2.cohReady r.1 r.2 false else acc) (true, s)

/-- The gradient of a DPA or HOST source: the state after the reads, the bytes, and whether a line was poisoned or the read failed. -/
def State.readGrad (s : State) (q hid h : Nat) (o : StepCmd) (env : Env) : (List Byte × Bool) × State :=
  match o.gsrc with
  | 0 => let ((d, bad), s) := s.rangeAtHub hid o.grad o.gradBytes env; ((d, !bad.isEmpty), s)
  | 1 =>
    let s := s.hostRead q h o.grad o.gradBytes
    (match env.host with | .data x => ((padTo o.gradBytes x, false), s) | _ => (([], true), s))
  | _ => (([], false), s)

/-- The step is accepted: the job opens, the record of the step is kept, its inputs are retained (R172, R173, R180). -/
def State.stepAccept (s : State) (h hid : Nat) (o : StepCmd) (hyper p : List Byte) (ks sc : List Nat) : State :=
  let x : StepRec := { cmd := h, tiles := 0, host := o.gsrc == 1, red := if o.gsrc = 2 then o.grad + 1 else 0, disp := 0, all := 0, rt := 0, grad := [],
                       hyper := hyper, proj := p, scratch := sc, done := false }
  let s := (s.openJob o.job hid).accept h
  (s.modJob o.job (fun r => { r with steps := r.steps ++ [x], retained := r.retained ++ ks })).jobFrames o.job

/-- A checked step with its record: frames for what it retains and for R and U, its gradient and P, then its work (R174, R180-R182). -/
def State.stepStart (s : State) (h : Nat) (o : StepCmd) (rec_ : List Byte) (env : Env) : State :=
  let q := h / 65536
  let hid := s.qHid q
  let n := (s.partAt (o.w * 4096)).getD 0
  match s.holdFrames n o.w false o.retainedFrames with
  | .error _ => s.fail h stCapacity
  | .ok (ks, s1) =>
    match s1.holdFrames n o.w false o.scratchFrames with
    | .error _ => s.fail h stCapacity
    | .ok (sc, s1) =>
      if o.gsrc = 2 && !s1.roomFor o.shadowBlocks then s.fail h stCapacity
      else
        let fence := s.par (P.partFence n) == 1
        let ((g, gbad), s1) := s1.readGrad q hid h o env
        let (p, s1) := match s1.readState hid env o.pRanges with | (some ds, s) => (some (ds.getD 0 []), s) | (none, s) => (none, s)
        let s1 := s1.stepAccept h hid o (rec_.take 64) (p.getD []) ks sc
        if gbad || p.isNone then s1.jobDamage o.job 4 stStepFault none
        else if fence then s1.jobDamage o.job 2 stCapacity none
        else if o.gsrc = 2 then s1.takeTiles o.grad env
        else
          match s1.stepWork o hid rec_ g (p.getD []) false env with
          | .error 1 => s.fail h stCapacity
          | _ => s1.stepRun h hid o rec_ g (p.getD []) env

/-- OPT_STEP (R174, R178-R182). -/
def State.optStep (s : State) (h : Nat) (c : Cmd) (env : Env) : State :=
  let o := c.step
  let st := s.stepCheck h o
  if st ≠ 0 then s.fail h st
  else
    let (ready, s) := s.stepReady o
    if !ready then s
    else
      let ((rec_, bad), s) := s.rangeAtHub (s.qHid (h / 65536)) (o.hyper * 4096) 64 env
      if bad.isEmpty && !allZero (rec_.drop 0x2C) then s.fail h 0x02
      else if !bad.isEmpty then s.fail h 0x32
      else if s.stepBusy o then s.fail h 0x2A
      else s.stepStart h o rec_ env

/-- OPT_STEP_SGD_MOMENTUM (R181). -/
def execOptStepSgdMomentum (queue : Fin 32768) (idx : Fin 65536) (env : Env) (s : State) : R :=
  .next (s.runMove queue idx 0x10 0 (fun h c s => s.optStep h c env))

/-- OPT_STEP_ADAMW (R181). -/
def execOptStepAdamw (queue : Fin 32768) (idx : Fin 65536) (env : Env) (s : State) : R :=
  .next (s.runMove queue idx 0x10 1 (fun h c s => s.optStep h c env))

/-- OPT_STEP_SIGN_MOMENTUM (R181). -/
def execOptStepSignMomentum (queue : Fin 32768) (idx : Fin 65536) (env : Env) (s : State) : R :=
  .next (s.runMove queue idx 0x10 2 (fun h c s => s.optStep h c env))

/-- OPT_STEP_PROJECTED_ADAMW (R182). -/
def execOptStepProjectedAdamw (queue : Fin 32768) (idx : Fin 65536) (env : Env) (s : State) : R :=
  .next (s.runMove queue idx 0x10 3 (fun h c s => s.optStep h c env))

/-! Work tiles (R183). -/

/-- A step whose last work tile has retired completes; its R and U frames are released (R174, R182). -/
def State.stepEnd (s : State) (j h : Nat) : State :=
  match (s.job j).steps.find? (fun x => x.cmd == h) with
  | none => s
  | some x =>
    ((((s.clearCtxs h).modStep j h (fun y => { y with done := true, host := false, scratch := [] })).freeHeld x.scratch).jobFrames j).fail h 0

/-- Context k takes the work tile that follows its own, or its command's next one, or is free again; `next` is the next one to dispatch. -/
def State.tileNext (s : State) (k next : Nat) (p : TilePlan) : State × Nat :=
  let c := s.ctxAt k
  match p.follow c.tile with
  | some t => (s.setCtx k { c with tile := t }, next)
  | none => if p.can next then (s.setCtx k { c with tile := next }, p.adv next) else (s.setCtx k default, next)

/-- The work tile of context k retires (R110, R183). -/
def State.tileRetire (s : State) (k : Nat) : State :=
  let c := s.ctxAt k
  if c.kind ≠ 1 then s
  else if c.opcode = 0x10 then
    match (s.job c.object).steps.find? (fun x => x.cmd == c.cmd && !x.done) with
    | none => s.setCtx k default
    | some x =>
      let left := x.tiles - 1
      let (s, d) := s.tileNext k x.disp { x with tiles := left }.plan
      let s := s.modStep c.object c.cmd (fun y => { y with tiles := left, disp := d })
      (if left = 0 then s.stepEnd c.object c.cmd else s).dispatchAll
  else
    let x := Tab.get c.object s.fac.runs
    if !x.on || x.cmd ≠ c.cmd then s.setCtx k default
    else
      let left := x.tiles - 1
      let (s, d) := s.tileNext k x.disp (factorPlan (s.desc c.object).tiles)
      (s.modFac (fun f => { f with runs := Tab.mod c.object (fun y => { y with tiles := left, disp := d }) f.runs })).dispatchAll

/-- A block's compute units run: no engine reset of it, no reset of its region. -/
def State.blockRuns (s : State) (cb : Nat) : Bool :=
  (Tab.find? (unitBlk cb) s.recov.eng).isNone && (Tab.find? (cb / 16) s.recov.region).isNone && !s.warm

/-- WORK_TILE_RETIRE (R183): the work tile that a block's context runs finishes. -/
def execWorkTileRetire (region : Fin 4) (block : Fin 9) (context : Fin 14) (s : State) : R :=
  let cb := region.val * 16 + block.val
  .next (if s.blockRuns cb && !s.blkAway cb && !(s.blk cb).woke then (s.tileRetire (ctxKey cb context)).diceTry region s.blkIdle else s)

/-- The job whose work tile a flagged result is. -/
def workJob : Work → Option Nat
  | .step j _ => some j
  | _ => none

/-- Flags of a job's work tiles that are not decided. -/
def State.jobFlags (s : State) (j : Nat) : Bool := s.integ.flags.any (fun f => workJob f.work == some j)

/-- STEP_REPLAY (R184): the flagged work tile is replayed on its block and on one in another region. -/
def State.stepReplay (s : State) (i : Nat) : State :=
  match s.integ.flags[i]? with
  | none => s
  | some f =>
    match f.work with
    | .step j _ =>
      if f.ran then s
      else ((s.modInteg (fun x => { x with flags := x.flags.set i { f with ran := true } })).count (P.jobReplays j) 1).count P.optReplayCount 1
    | _ => s

/-- STEP_REPLAY (R184): by the number of the flag, oldest 0. -/
def execStepReplay (flag : Nat) (s : State) : R := .next (s.stepReplay flag)

end Sys2Proof.Machine
end

