-- ==== Sys2Proof/Machine/JobCmd.lean ====
section
/-! DEFINITION. Milestones: PREPARE, COMMIT, ABORT_MILESTONE, job_base and job_release; rounding of reduce tiles (R172-R177,
R189-R191). -/
namespace Sys2Proof.Machine

/-- A job command from another HID's queue is refused (R172). -/
def State.jobForeign (s : State) (h j : Nat) : Bool :=
  let q := h / 65536
  let st := s.par (P.jobStatus j)
  fld st 16 16 == 1 && fld st 15 8 != s.qHid q && !s.qPriv q

/-- PREPARE (R174). -/
def State.prepareCmd (s : State) (h : Nat) (c : Cmd) : State :=
  let j := fld (c.d 2) 15 0
  let m := s.jobMode j
  if s.jobForeign h j then s.fail h 0x03
  else if c.d 1 ≠ s.par (P.jobCommitted j) + 1 ∨ m = 0 then s.fail h 0x28
  else if m = 4 then s.finish h stStepFault (s.prepResult j) (s.prepFlags j false)
  else if m = 3 then s.finish h 0 (s.prepResult j) (s.prepFlags j true)
  else
    let s := ((s.claimJob j (s.qHid (h / 65536))).accept h).modJob j (fun r => { r with prepares := r.prepares ++ [h] })
    s.jobField j 7 0 2

/-- PREPARE (R174). -/
def execPrepare (queue : Fin 32768) (idx : Fin 65536) (s : State) : R :=
  .next (s.runCmd queue idx 0x11 0 (fun h c s => s.prepareCmd h c))

/-- PREPARE_COMPLETE (R174): a PREPARING job whose steps and replays have all finished is PREPARED. -/
def State.prepared (s : State) (j : Nat) : State :=
  let r := s.job j
  if s.jobMode j = 2 ∧ r.steps.all StepRec.done ∧ !s.jobFlags j then
    let s := (s.jobField j 7 0 3).jobField j 17 17 1
    let s := s.modJob j (fun r => { r with prepares := [] })
    forAll (fun h s => s.finish h 0 (s.prepResult j) (s.prepFlags j true)) r.prepares s
  else s

/-- PREPARE_COMPLETE (R174). -/
def execPrepareComplete (job : Fin 65536) (s : State) : R := .next (s.prepared job)

/-- The stored bytes of a shadow entry follow the version its commit gives it (R69, R86). -/
def State.reVersion (s : State) (b : Nat) (w : MapWord) (ver : Nat) : MapWord × State :=
  let e := entryOf w
  if e.ver = ver then (w, s)
  else if !e.inHbm then (entryWord ({ e with ver := ver, check := 0 }.sealed 0), s)
  else
    let plain := s.plainAt b e e.addr
    let bytes := s.encBlock b ver plain
    let put := fun (s : State) (a : Nat) =>
      s.storeBytes (byteOf a) bytes ((List.range (4 * e.len)).filter (fun i => Tab.get (byteOf a / 64 + i) s.mem.marks))
    let s := put s e.addr
    let s := match s.partnerOf e.addr with | some a => put s a | none => s
    let new : MapEntry := { e with ver := ver, check := 0 }
    (entryWord (new.sealed (if e.headed then hdrCrcOf plain else 0)), s)

/-- A freeze that holds block b keeps the entry a COMMIT replaces, once (R195). -/
def State.keepFrozen (s : State) (b : Nat) (old : MapWord) : State :=
  { s with jobs := s.jobs.map (fun p =>
      let f := p.2.freeze
      (p.1, if f.holds b && (Tab.find? b f.kept).isNone then { p.2 with freeze := { f with kept := Tab.insert b old f.kept } } else p.2)) }

/-- One block of a milestone switches (R175). -/
def State.commitBlock (s : State) (b : Nat) (w : MapWord) : State :=
  let old := s.wordIn .main b
  let (w, s) := s.reVersion b w (((entryOf old).ver + 1) % 2 ^ 20)
  let e := entryOf w
  let s := (s.keepFrozen b old).setWord .main b w
  let s := if e.inHbm then
      let s := s.useFrame e.addr
      match s.partnerOf e.addr with | some a => s.useFrame a | none => s
    else s
  let s := s.release b old
  match s.winAt (b * 4096) with
  | some x =>
    let s := s.writeSeen x b
    if s.factorWin x then ((s.invalidate x (s.areaOf x b).1 (s.areaOf x b).2).redense x).descDamage x else s
  | none => s

/-- The job's step is over: the record's fields of an open step read 0, the job is IDLE (R177). -/
def State.closeJob (s : State) (j : Nat) : State :=
  let s := s.modJob j (fun r => { r with steps := [], prepares := [] })
  let w := s.par (P.jobStatus j)
  let s := s.setPar (P.jobStatus j) (setFld (setFld (setFld (setFld w 63 32 0) 23 20 0) 17 17 0) 7 0 0)
  ((s.setPar (P.jobOpen j) 0).setPar (P.jobReplays j) 0).setPar (P.jobShadowFrames j) 0

/-- The milestone of a PREPARED job is committed (R175); its waypoints see the commit after the switch (R119). -/
def State.commitJob (s : State) (j : Nat) : State :=
  let r := s.job j
  let s := s.modJob j (fun r => { r with shadow := [], retained := [] })
  let s := forAll (fun (p : Nat × MapWord) s => s.commitBlock p.1 p.2) r.shadow s
  let s := s.freeHeld r.retained
  let c := s.par (P.jobCommitted j) + 1
  ((s.setPar (P.jobCommitted j) c).closeJob j).wpCommit j c

/-- COMMIT (R174). -/
def State.commitCmd (s : State) (h : Nat) (c : Cmd) : State :=
  let j := fld (c.d 2) 15 0
  let cm := s.par (P.jobCommitted j)
  if s.jobForeign h j then s.fail h 0x03
  else if c.d 1 = cm then s.finish h 0 cm 8
  else if c.d 1 = cm + 1 ∧ s.jobMode j = 3 then (s.commitJob j).finish h 0 (cm + 1) 0 |>.diceCommit
  else s.fail h 0x28

/-- COMMIT (R174, R175). -/
def execCommit (queue : Fin 32768) (idx : Fin 65536) (s : State) : R :=
  .next (s.runCmd queue idx 0x12 0 (fun h c s => s.commitCmd h c))

/-- ABORT_MILESTONE (R174): running work stops, shadow and retained frames are released. -/
def State.abortCmd (s : State) (h : Nat) (c : Cmd) : State :=
  let j := fld (c.d 2) 15 0
  if s.jobForeign h j then s.fail h 0x03
  else if c.d 1 ≠ s.par (P.jobCommitted j) + 1 ∨ s.jobMode j = 0 then s.fail h 0x28
  else
    let r := s.job j
    let s := s.dropShadow j
    let s := forAll (fun (x : StepRec) s => if x.done then s else s.fail x.cmd 0x28) r.steps s
    let s := forAll (fun p s => s.fail p 0x28) r.prepares s
    let s := s.modInteg (fun i => { i with flags := i.flags.filter (fun f => workJob f.work != some j) })
    (s.closeJob j).fail h 0

/-- ABORT_MILESTONE (R174). -/
def execAbortMilestone (queue : Fin 32768) (idx : Fin 65536) (s : State) : R :=
  .next (s.runCmd queue idx 0x13 0 (fun h c s => s.abortCmd h c))

/-- An accepted write of job_base, of job_release (R177). -/
def State.jobBase (s : State) (j v : Nat) : State := (s.setPar (P.jobBase j) v).setPar (P.jobCommitted j) v
def State.jobFree (s : State) (j : Nat) : State := (s.jobField j 16 16 0).jobField j 15 8 0

/-- JOB_BASE_WRITE (R177). -/
def execJobBaseWrite (job : Fin 65536) (value : Nat) (s : State) : R :=
  .next (s.barWrite (P.jobBase job) value (fun s => s.jobBase job value))

/-- JOB_RELEASE (R177). -/
def execJobRelease (job : Fin 65536) (value : Nat) (s : State) : R :=
  .next (s.barWrite (P.jobRelease job) value (fun s => s.jobFree job))

/-! Rounding of reduce tiles (R189-R191). -/

/-- The DPA of the first of `n` blocks from block b whose write for a HID fails its check (R191). -/
def State.failAt (s : State) (hid b n : Nat) : Option Nat :=
  (((List.range n).map (· + b)).find? (fun b => s.rangeStatus hid (b * 4096) 4096 true != 0)).map (· * 4096)

/-- A rounded tile goes to its destination: rights of the opening HID, then the write through R33; a fence or a lost right
faults the reduction and writes nothing. -/
def State.redWrite (s : State) (n z : Nat) (d : List Byte) (env : Env) : State :=
  let r := s.red n
  let a := r.dest - 1 + z * 65536 * r.wOut
  if s.rangeStatus r.hid a d.length true ≠ 0 then s.redDestLost n none (s.failAt r.hid (a / 4096) (blocksIn a d.length))
  else
    match s.engineWrite r.hid a d [] env (blocksIn a d.length) with
    | (_, true, s) => s
    | (_, false, _) => s.redFault n stCapacity

/-- REDUCE_TILE_ROUND (R189): the lowest complete open tile is rounded and written, or waits to be taken. -/
def State.tileRound (s : State) (n : Nat) (env : Env) : State :=
  match (if s.redOpen n then s.redNext n else none) with
  | none => s
  | some z =>
    let r := s.red n
    let (ready, s) := if r.dest = 0 then (true, s) else s.cohReady (r.dest - 1 + z * 65536 * r.wOut) (r.elems z * r.wOut) true
    if !ready then s
    else
      let (d, s) := s.redRound n z
      let s := if r.dest = 0 then (s.modRed n (fun r => { r with results := Tab.insert z d (Tab.erase z r.results) })).takeTiles n env
        else s.redWrite n z d env
      ((s.redAdvance n).redClose n).redRetry

/-- REDUCE_TILE_ROUND (R189). -/
def execReduceTileRound (reduction : Fin 256) (env : Env) (s : State) : R :=
  .next ((s.tileRound reduction env).paid s ((s.red reduction).cmd / 65536))

end Sys2Proof.Machine
end

