-- ==== Sys2Proof/Machine/Ckpt.lean ====
section
/-! DEFINITION. Checkpoint freeze and drain (R194-R196). -/
namespace Sys2Proof.Machine

/-- Change a job's freeze. -/
def State.modFreeze (s : State) (j : Nat) (f : Freeze → Freeze) : State := s.modJob j (fun r => { r with freeze := f r.freeze })

/-- The ranges of a range list: 16 bytes each, base then length (R194). -/
def rangesOf (n : Nat) (d : List Byte) : List (Nat × Nat) :=
  (List.range n).map (fun i => (ofLe (cut (16 * i) 8 d), ofLe (cut (16 * i + 8) 8 d)))

/-- The blocks of an image, in the order of its ranges. -/
def Freeze.blocks (f : Freeze) : Nat := (f.ranges.map (fun r => r.2 / 4096)).sum
def blockIn : List (Nat × Nat) → Nat → Nat
  | [], i => i
  | r :: rs, i => if i < r.2 / 4096 then r.1 / 4096 + i else blockIn rs (i - r.2 / 4096)

/-- CKPT_FREEZE, mode FREEZE (R194). -/
def State.ckptFreeze (s : State) (h : Nat) (c : Cmd) (env : Env) : State :=
  let j := fld (c.d 1) 15 0
  let slot := fld (c.d 1) 31 16
  let a := c.d 2
  let n := c.d 3
  if n = 0 ∨ 64 < n ∨ (256 ≤ slot ∧ slot ≠ 0xFFFF) ∨ a % 64 ≠ 0 ∨ dpaEnd < a + 16 * n then s.fail h 0x02
  else if (s.job j).freeze.on || s.jobMode j == 4 then s.fail h 0x07
  else
    let a0 := a / 64 * 64
    let ((d, bad), s) := s.rangeAtHub (s.qHid (h / 65536)) a0 (cdiv (a - a0 + 16 * n) 64 * 64) env
    let rs := rangesOf n (d.drop (a - a0))
    if !bad.isEmpty || !rs.all (fun r => r.1 % 4096 == 0 && r.2 % 4096 == 0 && decide (r.1 + r.2 ≤ dpaEnd)) then s.fail h 0x02
    else
      let cm := s.par (P.jobCommitted j)
      let f : Freeze := { (default : Freeze) with on := true, ranges := rs, keySlot := slot, image := cm }
      let s := forAll (fun i s => s.settleBlock (blockIn rs i) env) (List.range f.blocks) s
      ((s.modFreeze j (fun _ => f)).jobField j 19 19 1).finish h 0 cm 0

/-- CKPT_FREEZE (R194). -/
def execCkptFreeze (queue : Fin 32768) (idx : Fin 65536) (env : Env) (s : State) : R :=
  .next (s.runMove queue idx 0x20 0 (fun h c s => s.ckptFreeze h c env))

/-- A freeze ends: kept sectors are released (R194, R195). -/
def State.thaw (s : State) (j : Nat) : State :=
  let kept := (s.job j).freeze.kept
  let s := (s.modFreeze j (fun _ => default)).jobField j 19 19 0
  forAll (fun (p : Nat × MapWord) s => s.release p.1 p.2) kept s

/-- CKPT_FREEZE, mode RELEASE (R194): a drain under way ends with it. -/
def State.ckptRelease (s : State) (h : Nat) (c : Cmd) : State :=
  let j := fld (c.d 1) 15 0
  let f := (s.job j).freeze
  if !f.on then s.fail h 0x02
  else
    let s := if f.drain.cmd = 0 then s else s.fail (f.drain.cmd - 1) 0x02
    (s.thaw j).fail h 0

/-- CKPT_FREEZE_RELEASE (R194). -/
def execCkptFreezeRelease (queue : Fin 32768) (idx : Fin 65536) (s : State) : R :=
  .next (s.runCmd queue idx 0x20 1 (fun h c s => s.ckptRelease h c))

/-- The image's content of block b: the entry the freeze keeps, otherwise the committed block; none when it reads poison. -/
def State.imageBlock (s : State) (j hid b : Nat) (env : Env) : Option (List Byte) × State :=
  let ask := fun (s : State) =>
    let (r, s) := s.blockAtHub hid b env
    match r with | some (d, []) => (some d, s) | _ => (none, s)
  match Tab.find? b (s.job j).freeze.kept with
  | none => ask s
  | some w =>
    let cur := s.wordIn .main b
    let put := fun (s : State) (x : MapWord) =>
      s.modMem (fun m => { m with mapPri := Tab.setD 0 b x m.mapPri, mapMir := Tab.setD 0 b x m.mapMir })
    let (d, s) := ask (put s w)
    let new := s.wordIn .main b
    let s := put s cur
    (d, if new = w then s else s.modFreeze j (fun f => { f with kept := Tab.insert b new (Tab.erase b f.kept) }))

/-- The 64 B trailer (R196). -/
def trailer (j : Nat) (f : Freeze) : List Byte :=
  let d := f.drain
  leBytes 2 j ++ leBytes 2 f.ranges.length ++ leBytes 2 f.keySlot ++ zeros 2 ++ leBytes 8 f.image ++ leBytes 8 d.pos ++
    leBytes 8 d.poison ++ leBytes 8 (if d.poison = 0 then 2 ^ 64 - 1 else d.first) ++ leBytes 4 (Config.crc32 d.plain) ++ zeros 20

/-- A write of the drain over the service link (R276); `last`: the trailer (R278). -/
def State.drainPut (s : State) (addr cls : Nat) (d : List Byte) (last : Bool) : State :=
  s.svcPut { who := 3, read := false, addr := addr, len := d.length, data := d, bad := [], tok := if last then 1 else 0, since := 0, cls := cls }

/-- The drain's flushing read (R164, R196). -/
def State.drainFlush (s : State) (addr h : Nat) : State :=
  s.svcPut { who := 3, read := true, addr := addr, len := 64, data := [], bad := [], tok := h, since := 0, cls := s.qClass (h / 65536) }

/-- One block of the drain: enciphered under the drain key, zero where it reads poison (R196). -/
def State.drainBlock (s : State) (j hid base : Nat) (env : Env) : State :=
  let f := (s.job j).freeze
  let i := f.drain.pos
  let (r, s) := s.imageBlock j hid (blockIn f.ranges i) env
  let d := r.getD (zeros 4096)
  let out := if f.keySlot = 0xFFFF then d else xtsEnc (s.keyOf f.keySlot) (i * 2 ^ 20 + f.image % 2 ^ 20) d
  let s := (s.linkGrant ((s.home (blockIn f.ranges i * 4096)).getD 0)).drainPut (base + 4096 * i) (s.qClass ((f.drain.cmd - 1) / 65536)) out false
  s.modFreeze j (fun f => { f with drain := { f.drain with
    pos := i + 1, plain := f.drain.plain ++ d
    poison := f.drain.poison + (if r.isNone then 1 else 0)
    first := if r.isNone && f.drain.poison == 0 then i else f.drain.first } })

/-- Up to `k` blocks of the drain. -/
def State.drainRun (s : State) (j hid base : Nat) (env : Env) : Nat → State
  | 0 => s
  | k + 1 =>
    let f := (s.job j).freeze
    if f.blocks ≤ f.drain.pos then s else (s.drainBlock j hid base env).drainRun j hid base env k

/-- A drain stops; the freeze stays (R194, R195). -/
def State.drainStop (s : State) (j status : Nat) : State :=
  let d := (s.job j).freeze.drain
  if d.cmd = 0 then s
  else (s.modFreeze j (fun f => { f with drain := default })).fail (d.cmd - 1) status

/-- Every drain stops. -/
def State.drainsStop (s : State) (status : Nat) : State :=
  forAll (fun j s => s.drainStop j status) (s.jobs.map Prod.fst) s

/-- The image is written: the flushing read, tried again once when it fails, then the trailer, and the freeze is released (R194, R196);
after a second failure the drain stops with its freeze kept (R280). -/
def State.drainEnd (s : State) (j h base : Nat) (host : HostData) : State :=
  let f := (s.job j).freeze
  let at_ := base + 4096 * f.blocks - 64
  let s := if f.blocks = 0 then s else s.drainFlush at_ h
  match host, f.blocks with
  | .data _, _ | _, 0 =>
    let s := (s.drainPut (base + 4096 * f.blocks) (s.qClass (h / 65536)) (trailer j f) true).thaw j
    if f.drain.poison = 0 then s.finish h 0 f.drain.pos 0 else s.finish h 0x40 f.drain.poison 0
  | _, _ => (s.drainFlush at_ h).drainStop j 0x09

/-- CKPT_DRAIN (R194-R196, R287): the checks, then up to `count` further blocks, none while the function is in D3hot. -/
def State.ckptDrain (s : State) (h : Nat) (c : Cmd) (count : Nat) (env : Env) : State :=
  let j := fld (c.d 1) 15 0
  let base := c.d 2
  let f := (s.job j).freeze
  if f.drain.cmd ≠ 0 ∧ f.drain.cmd ≠ h + 1 then s.fail h 0x07
  else if !f.on || base % 2 ^ 21 ≠ 0 || decide (c.d 3 < 4096 * f.blocks + 4096) then s.fail h 0x02
  else if !s.svc.bme || !s.svc.dl then (s.modFreeze j (fun f => { f with drain := default })).fail h 0x09
  else if f.broken then (s.modFreeze j (fun f => { f with drain := default })).fail h 0x41
  else
    let s := s.modFreeze j (fun f => { f with drain := { f.drain with cmd := h + 1 } })
    if s.svc.dstate ≠ 0 then s
    else
      let s := s.drainRun j (s.qHid (h / 65536)) base env count
      let f := (s.job j).freeze
      if f.drain.pos < f.blocks then s else s.drainEnd j h base env.host

/-- CKPT_DRAIN (R194, R196): `count` is how many blocks the drain writes now; the row is sent again while blocks
remain; env.host is what the flushing read returns, `failed` when its retry fails too. -/
def execCkptDrain (queue : Fin 32768) (idx : Fin 65536) (count : Nat) (env : Env) (s : State) : R :=
  .next (s.runMove queue idx 0x21 0 (fun h c s => s.ckptDrain h c count env))

end Sys2Proof.Machine
end

