-- ==== Sys2Proof/Machine/Ports.lean ====
section
/-! DEFINITION. Links: layouts, states, negotiation, falls, credits, IDE, and the resets of their logical devices (R243-R253, R262,
R266-R268, R375). -/
namespace Sys2Proof.Machine

/-! Halts of a path's queues (R241, R266). -/

/-- A started command whose remaining work reads or writes memory of its queue's path (R241). -/
def Cmd.hostWork (c : Cmd) : Bool :=
  match c.op with
  | 0x01 => c.mode == 1 || c.mode == 2
  | 0x10 => c.phase == 1 && c.step.gsrc == 1
  | 0x14 => c.mode == 1 && fld (c.d 1) 8 8 == 1
  | _ => false

/-- Steps of job j whose HOST gradient is still to be read stop (R180, R241). -/
def State.stopHostSteps (s : State) (hit : Nat → Bool) (status : Nat) : State :=
  let js := s.jobs.filterMap (fun p =>
    if p.2.steps.any (fun x => x.host && !x.done && decide (x.disp < x.all) && hit (x.cmd / 65536)) then some p.1 else none)
  forAll (fun j s =>
    let xs := ((s.job j).steps.filter (fun x => x.host && !x.done && decide (x.disp < x.all) && hit (x.cmd / 65536))).map StepRec.cmd
    (forAll (fun h s => s.fail h status) xs s).jobDamage j 4 stStepFault none) js s

/-- The queues that `hit` names halt with FUNCTION_RESET (R241): commands whose remaining work is in the path's memory stop. -/
def State.haltPath (s : State) (hit : Nat → Bool) : State :=
  let qs := s.queuesOn.filter hit
  let s := forAll (fun q s =>
    let c := s.par (P.qCfg q)
    let s := (s.haltQueue q 0x10).modQ q (fun r => { r with needBme := r.needBme || fld c 16 16 == 0 || fld c 17 17 == 0 })
    let cs := (s.qr q).cmds.filter (fun c => (c.phase == 1 || c.phase == 2) && c.hostWork)
    forAll (fun (c : Cmd) s =>
      let s := s.contribStop (cmdKey q c.idx) 0x09
      if c.op = 0x10 then s.jobDamage c.step.job 4 stStepFault none else s) cs s) qs s
  s.stopHostSteps hit 0x09

/-- Queues of the SERVICE path. -/
def State.svcQueue (s : State) (q : Nat) : Bool := !s.qLdPath q

/-- Queues whose group path names an LD. -/
def State.ldQueue (s : State) (port q : Nat) : Bool := s.qLdPath q && s.qPort q == port

/-! Resets of an LD's function (R266). -/

/-- The completion timeout of an LD's reads in ticks (R266): the upper end of the range in Device Control 2, 50 ms at the default.
PRESUMED: the encodings are those of the PCI Express standard. -/
def cplTimeout (code : Nat) : Nat :=
  match code with
  | 1 => usT 100
  | 2 => msT 10
  | 5 => msT 55
  | 6 => msT 210
  | 9 => msT 900
  | 10 => msT 3500
  | 13 => msT 13000
  | 14 => msT 64000
  | _ => msT 50

/-- An LD's completion timeout. -/
def State.ldTimeout (s : State) (key : Nat) : Nat :=
  cplTimeout (Tab.get (Config.ldPcieCap / 4 + 10) (s.ld key).cfg % 16)

/-- No new request of the function (R266): outstanding tags are quarantined, its queues halt. -/
def State.ldSilence (s : State) (port : Nat) : State :=
  let key := ldKey port
  let till := s.now + 2 * s.ldTimeout key
  (s.modLd key (fun l => { l with bme := false, reads := [], tags := (Tab.keys l.reads).foldl (fun t k => Tab.set k till t) l.tags })).haltPath
    (s.ldQueue port)

/-- FLR of an LD's function (R266): its configuration and MSI-X registers and its doorbells are reset; traffic, decoders, extents, logs
are not. -/
def State.ldReset (s : State) (port : Nat) : State :=
  forAll (fun q s => s.modQ q (fun r => { r with tail := 0, cqDb := 0 })) ((Tab.keys s.queues.q).filter (s.ldQueue port))
    ((s.ldSilence port).modLd (ldKey port) (fun l => { l with cfg := [], msix := [], msixMsg := [] }))

/-- The FM-owned LD's function is reset. -/
def State.fmReset (s : State) (k : Nat) : State := s.modLd (k * 32 + 16) (fun l => { l with cfg := [], msix := [], msixMsg := [], bme := false })

/-! Status (R249). -/

/-- The word port_status of a link (R249). -/
def LinkRec.word (l : LinkRec) : Nat :=
  let b (x : Bool) (n : Nat) : Nat := if x then 2 ^ n else 0
  l.reason * 2 ^ 56 + (if l.cap = 0 then 15 else l.cap - 1) * 2 ^ 8 + l.st +
    (if l.st = lkUp then l.lds * 2 ^ 48 + l.width * 2 ^ 40 + l.rate * 2 ^ 36 + l.ide * 2 ^ 34 + b l.hdmDb 33 + b l.dc 32 + b l.qos 31 + b l.mld 30
     else 0)

/-- The parameter that shows a link. -/
def statusKey (k : Nat) : Nat := if k % 2 = 1 then P.portStatusB (k / 2) else P.portStatus (k / 2)

/-- Change a link, with its status word. -/
def State.setLink (s : State) (k : Nat) (f : LinkRec → LinkRec) : State :=
  let s := s.modLink k f
  s.setPar (statusKey k) (s.link k).word

/-- The HIDs that some UP LD carries. -/
def State.hidsUp (s : State) : List Nat := distinct (s.ldsUp.map s.hidOf)

/-- HIDs that lost their last UP LD begin their grace time, and those that have one again end it (R213). -/
def State.noteLinks (s : State) (before : List Nat) : State :=
  let after := s.hidsUp
  let d := (before.filter (fun h => !after.contains h)).foldl (fun t h => Tab.set h (s.now + 1) t) s.shared.downSince
  let d := after.foldl (fun t h => Tab.set h 0 t) d
  { s with shared := { s.shared with downSince := d } }

/-! Falls (R248, R267). -/

/-- Reads accepted from link k are completed internally, their data discarded (R267). -/
def State.dropReads (s : State) (k : Nat) : State :=
  let keep := fun (r : HeldReq) => r.write || r.port / 16 != k
  let mine := fun (r : PipeRead) => r.port / 16 != k
  { s with
    recov := { s.recov with held := s.recov.held.filter keep }
    shared := { s.shared with waits := s.shared.waits.filter keep }
    fac := { s.fac with
      held := s.fac.held.filter mine
      pipes := (s.fac.pipes.map (fun p => (p.1, p.2.filter mine))).filter (fun p => !p.2.isEmpty)
      wpWait := s.fac.wpWait.filter (fun p => mine p.2) }
    mem := { s.mem with detReads := s.mem.detReads.filter (fun r => r.port / 16 != k) } }

/-- Requests held at the tollgates of link k (R267, R305): reads are dropped, writes are stored, the masters' buckets cleared. -/
def State.dropGates (s : State) (k : Nat) : State :=
  let ms := (List.range 16).map (fun l => k * 16 + l)
  let ws := ((ms.map (fun m => (Tab.get m s.reg.masters).hold)).flatten).filter HeldReq.write
  let s := forAll (fun m s => s.modMaster m (fun x => { x with hold := [] })) (ms.filter (fun m => !(Tab.get m s.reg.masters).hold.isEmpty)) s
  let s := forAll (fun m s => forAll (fun c s => s.clearBucket c) (s.consOn.filter (fun c => masterOf (s.par (P.rcMaster c)) == m)) (s.clearShared m)) ms s
  if s.serving then forAll (fun r s => s.letIn r noPhys) ws s else s

/-- A link leaves UP (R267): its LD functions reset, pending reads are discarded, accepted writes are stored; what waited for a transmit
credit is lost with the link. -/
def State.linkLeave (s : State) (k reason dest : Nat) : State :=
  let before := s.hidsUp
  let n := (s.link k).lds
  let s := (s.count (P.portDownCount (k / 2)) 1).setLink k (fun l => { l with st := dest, reason := reason })
  let s := ((s.dropReads k).modLink k (fun l => { l with
    stream := if reason = 4 then 2 else 0, ide := 0, ideKey := [], occ := [], granted := [], adv := [], tx := [], sent := [], egress := [] })).dropGates k
  let s := s.retryHub noPhys
  let s := forAll (fun l s => s.ldReset (k * 16 + l)) (List.range n) (s.fmReset k)
  ((s.noteLinks before).setTol).tolExits

/-- A link that is not off is taken down (R248, R249): DISABLED when it was UP. -/
def State.linkOff (s : State) (k dest : Nat) : State :=
  if s.linkUp k then s.linkLeave k 6 dest else s.setLink k (fun l => { l with st := dest })

/-- Entry into BACKOFF or INCOMPATIBLE (R248): the delay doubles at each consecutive failure, up to 10 s. DEDUCED: a failure is
consecutive while it falls within 60 s of the one before (log 23). -/
def State.delayLink (s : State) (k : Nat) : State :=
  s.setLink k (fun l =>
    let fs := (s.now :: if (recent s.now (msT 60000) (l.fails.take 1)).isEmpty then [] else l.fails).take 8
    { l with fails := fs, backoff := s.now + Nat.min (msT 10000) (msT 100 * 2 ^ (Nat.min 7 (fs.length - 1))) })

/-- A link falls from UP into BACKOFF (R248): five falls within 60 s set a rate cap. -/
def State.linkFall (s : State) (k reason : Nat) : State :=
  if !s.linkUp k then s
  else
    let s := (s.linkLeave k reason lkBackoff).delayLink k
    s.setLink k (fun l =>
      let fs := (s.now :: recent s.now (msT 60000) l.falls).take 5
      { l with falls := fs, cap := if 5 ≤ fs.length then l.rate - 1 + 1 else l.cap })

/-- LINK_DOWN (R267): the partner is gone, or a hot reset arrives. -/
def execLinkDown (link : Fin 32) (hotReset : Bool) (s : State) : R := .next (s.linkFall link (if hotReset then 7 else 1))

/-- REPLAY_LIMIT_EXHAUSTED (R268). -/
def execReplayLimitExhausted (link : Fin 32) (s : State) : R := .next (s.linkFall link 5)

/-- A bit of the CXL RAS uncorrectable error status. PRESUMED from the CXL standard: 9 a reserved encoding, 11 Receiver_Overflow. -/
def State.setRas (s : State) (port bit : Nat) : State := s.modLd (ldKey port) (fun l => { l with ras := l.ras ||| 2 ^ bit })

/-- MALFORMED_MESSAGE (R268): the message is discarded. -/
def execMalformedMessage (port : Fin 512) (s : State) : R :=
  .next (if s.linkUp (port / 16) then (s.setRas port 9).linkFall (port / 16) 8 else s)

/-- A flit beyond its credits is discarded and counted (R253). -/
def State.overflow (s : State) (port : Nat) : State :=
  if s.linkUp (port / 16) then ((s.count (P.portRxOverflow (port / 32)) 1).setRas port 11).linkFall (port / 16) 3 else s

/-- RX_OVERFLOW (R253). -/
def execRxOverflow (port : Fin 512) (s : State) : R := .next (s.overflow port)

/-- CREDIT_STALL (R253): the link falls when traffic pends on it and no credit for it has returned for port_credit_stall_ms. -/
def execCreditStall (link : Fin 32) (s : State) : R :=
  let l := s.link link
  .next (if !l.egress.isEmpty && decide (l.stallAt + msT (s.par (P.portCreditStallMs (link / 2))) ≤ s.now) then s.linkFall link 2 else s)

/-- BACKOFF_EXPIRY (R248). -/
def execBackoffExpiry (link : Fin 32) (s : State) : R :=
  let l := s.link link
  .next (if (l.st = lkBackoff ∨ l.st = lkIncompatible) ∧ l.backoff ≤ s.now then s.setLink link (fun l => { l with st := lkDetect }) else s)

/-! CXL.mem requests (R30, R33, R250, R253). -/

/-- A CXL.mem request at a port: one beyond its channel's credits is discarded and the link falls, any other is decoded by its LD's HDM
decoders (R41, R245, R253). -/
def State.cxlMem (s : State) (port addr : Nat) (mk : Nat → HeldReq) (ph : Phys) : R :=
  let s := if s.ldUp port then s.backWith (port / 16) ph else s
  .next (if s.ldUp port && (s.link (port / 16)).noCredit (mk 0) then s.overflow port
    else match s.decodeHdm port addr with
      | none => s.noDpa (mk (addr % 2 ^ 42))
      | some dpa => if dpaEnd ≤ dpa then s.noDpa (mk (dpa % 2 ^ 42)) else s.arrive (mk (dpa / 64 * 64)) ph)

/-- CXL_MEM_READ (R30): `want` is the coherence state asked for. -/
def execCxlMemRead (port : Fin 512) (address : Nat) (want : Fin 3) (ph : Phys) (s : State) : R :=
  s.cxlMem port address (s.readReq port want) ph

/-- CXL_MEM_WRITE (R33): data with byte enables, poison, whether it meets a parity mismatch on its way in (R32), and the coherence state
the sender keeps. -/
def execCxlMemWrite (port : Fin 512) (address : Nat) (data : List Byte) (mask : Nat) (mark : WriteMark) (keep : Fin 3) (s : State) : R :=
  s.cxlMem port address (s.writeReq port data mask mark.poison mark.parity keep) noPhys

/-! Layouts and enabling (R243, R248, R249). -/

/-- The state a link of no layout rests in (R248): the odd member of a ×16 link is ABSORBED. -/
def State.restState (s : State) (k : Nat) : Nat :=
  if Tab.get (k / 4) s.ports.layout = 1 ∧ k % 4 = 2 then lkAbsorbed else lkOff

/-- Bring link k into line with port_enable and its pair's layout, `old` its configured width before (R243, R249). -/
def State.alignLink (s : State) (k old : Nat) : State :=
  let st := (s.link k).st
  let w := s.cfgWidth k
  let on := w ≠ 0 && (s.par (P.portEnable (k / 2))).testBit (k % 2)
  if st = lkFailed then s
  else if !on then (if st = s.restState k then s else s.linkOff k (s.restState k))
  else if st = lkOff ∨ st = lkAbsorbed then s.setLink k (fun l => { l with st := lkDetect })
  else if old ≠ w then (s.linkOff k lkDetect)
  else s

/-- The layout of pair j is read (R243). -/
def State.readLayout (s : State) (j : Nat) : State :=
  let ks := [4 * j, 4 * j + 1, 4 * j + 2, 4 * j + 3]
  let old := ks.map (fun k => (k, s.cfgWidth k))
  let s := { s with ports := { s.ports with layout := Tab.set j (s.par (P.portBifurcation j)) s.ports.layout } }
  forAll (fun (p : Nat × Nat) s => s.alignLink p.1 p.2) old s

/-- The layouts are read at entry into SERVICE (R243). -/
def State.readLayouts (s : State) : State := forAll (fun j s => s.readLayout j) (List.range 8) s

/-- The effect of a write of port_enable (R249): rate caps are cleared, the pair's layout is read. -/
def State.enablePort (s : State) (p : Nat) : State :=
  (forAll (fun k s => s.setLink k (fun l => { l with cap := 0, falls := [] })) [2 * p, 2 * p + 1] s).readLayout (p / 2)

/-- PORT_ENABLE_WRITE (R249); refused for a block that has FAILED (R372). -/
def execPortEnableWrite (block : Fin 16) (value : Nat) (s : State) : R :=
  .next (s.barWrite (P.portEnable block) value (fun s => (s.storeWrite (P.portEnable block) value).enablePort block))

/-! Detection and training (R247, R248, R254). -/

/-- Links may detect and train now (R254, R375): in STANDBY or SERVICE, with no reset of the device or of the link's region. -/
def State.mayTrain (s : State) (k : Nat) : Bool :=
  (s.dev == dsStandby || s.dev == dsService) && !s.warm && Tab.get (k / 8) s.recov.region == 0

/-- LINK_DETECT_TICK (R248): every 12 ms; `present`, a receiver is detected. -/
def execLinkDetectTick (link : Fin 32) (present : Bool) (s : State) : R :=
  .next (if (s.link link).st = lkDetect && present && s.mayTrain link then s.setLink link (fun l => { l with st := lkTraining }) else s)

/-- The trained width (R243, R247): the configured width, or the widest of ×2 and ×1; 0: none. -/
def trainWidth (cfg lanes : Nat) : Nat := if cfg ≤ lanes then cfg else if 2 ≤ lanes then 2 else lanes

/-- The trained rate (R247): the highest common rate up to `max`. -/
def trainRate (rates max : Nat) : Option Nat := [2, 1, 0].find? (fun r => decide (r ≤ max) && rates.testBit r)

/-- LINK_TRAINED (R247): every item is settled in order; without a common rate, width or protocol the link is INCOMPATIBLE. -/
def State.trained (s : State) (k : Nat) (p : Partner) : State :=
  let l := s.link k
  let b := k / 2
  let cfg := s.cfgWidth k
  let w := trainWidth cfg p.lanes
  let f := s.par (P.portFeatures b)
  match trainRate p.rates (if l.cap = 0 then s.par (P.portMaxRate b) else Nat.min (s.par (P.portMaxRate b)) (l.cap - 1)) with
  | none => (s.setLink k (fun l => { l with st := lkIncompatible })).delayLink k
  | some r =>
    if w = 0 || !p.cxl then (s.setLink k (fun l => { l with st := lkIncompatible })).delayLink k
    else
      let lds := if p.mld then Nat.min p.lds (Nat.min (s.par (P.portLdMax b)) (if cfg = 4 then 8 else 16)) else 1
      let before := s.hidsUp
      let depths := (List.range 6).foldl (fun t ch => Tab.set ch (linkDepth cfg ch) t) ([] : Tab Nat)
      let adv := (List.range 4).foldl (fun t ch => Tab.set ch ((p.credits[ch]?).getD 0) t) ([] : Tab Nat)
      let s := s.setLink k (fun l => { l with
        st := lkUp, rate := r, width := w, lds := lds, ide := 0, mld := p.mld, upAt := s.now
        hdmDb := p.backInv && f.testBit 0, dc := p.dcap && f.testBit 1, qos := p.qos && f.testBit 2, ldq := f.testBit 3
        occ := [], granted := depths, adv := adv, tx := adv, sent := [], back := p.back, egress := [] })
      ((s.noteLinks before).setTol).tolExits
def execLinkTrained (link : Fin 32) (partner : Partner) (s : State) : R :=
  .next (if (s.link link).st = lkTraining && s.mayTrain link then s.trained link partner else s)

/-! IDE (R262). -/

/-- IDE_KEY_PROGRAM (R262): the partner programs the link's keys, in skid or containment mode; the stream becomes active. -/
def execIdeKeyProgram (link : Fin 32) (keys : List Byte) (containment : Bool) (s : State) : R :=
  .next (if s.linkUp link && s.par (P.portIde (link / 2)) != 0 then
      s.setLink link (fun l => { l with stream := 1, ideKey := keys, ide := if containment then 2 else 1 })
    else s)

/-- IDE_INTEGRITY_FAIL (R262): the stream becomes Insecure and the link falls. -/
def execIdeIntegrityFail (link : Fin 32) (s : State) : R :=
  .next (if (s.link link).stream = 1 then s.linkFall link 4 else s)

/-! Resets of one LD and its reads (R266). -/

/-- LD_FLR (R266). -/
def execLdFlr (port : Fin 512) (s : State) : R := .next (if s.linkUp (port / 16) then s.ldReset port else s)

/-- LD_BME_CLEAR (R266): no register is reset. -/
def execLdBmeClear (port : Fin 512) (s : State) : R :=
  .next (if s.linkUp (port / 16) && (s.ld (ldKey port)).bme then s.ldSilence port else s)

/-- LD_CPL_TIMEOUT (R266): the read's tag is quarantined for twice the timeout. Its owner met the failure as HostData.failed. -/
def execLdCplTimeout (port : Fin 512) (tag : Nat) (s : State) : R :=
  let key := ldKey port
  .next (if Tab.get tag (s.ld key).reads = 0 then s
    else s.modLd key (fun l => { l with reads := Tab.set tag 0 l.reads, tags := Tab.set tag (s.now + 2 * s.ldTimeout key) l.tags }))

/-- LD_COMPLETION_ARRIVAL (R266): the tag is free again; a completion of a quarantined tag is discarded and counted. -/
def execLdCompletionArrival (port : Fin 512) (tag : Nat) (s : State) : R :=
  let key := ldKey port
  .next (if Tab.get tag (s.ld key).reads ≠ 0 then s.modLd key (fun l => { l with reads := Tab.set tag 0 l.reads })
    else if s.now < Tab.get tag (s.ld key).tags then s.count (P.portLateCpl (port / 32)) 1
    else s)

/-! Engine reset of a port block (R372, R375). -/

/-- The links of port block p fall with DEVICE_RESET; `failed`: for the fourth time in 10 minutes (R372, R375). -/
def State.resetPort (s : State) (p : Nat) (failed : Bool) : State :=
  let s := if failed then { s with recov := { s.recov with failed := Tab.set p true s.recov.failed } } else s
  forAll (fun k s =>
    let s := if s.linkUp k then s.linkFall k 9 else s
    if failed && s.cfgWidth k ≠ 0 then s.setLink k (fun l => { l with st := lkFailed }) else s) [2 * p, 2 * p + 1] s

/-- Every link falls with DEVICE_RESET (R379, R380) and waits in DETECT. -/
def State.resetLinks (s : State) (ks : List Nat) : State :=
  forAll (fun k s =>
    let st := (s.link k).st
    if st = lkOff ∨ st = lkAbsorbed ∨ st = lkFailed then s
    else if st = lkUp then s.linkLeave k 9 lkDetect
    else s.setLink k (fun l => { l with st := lkDetect })) ks s

end Sys2Proof.Machine
end

