-- ==== Sys2Proof/Machine/LdFn.lean ====
section
/-! DEFINITION. A logical device's function: configuration space, the port DVSEC, CDAT, HDM decoders, dynamic capacity (R245, R246,
R254, R261, R263, R266). -/
namespace Sys2Proof.Machine

/-- The port number an answer of a function carries: link * 16 + LD, 512 + link for the FM-owned LD. -/
def fnPort (link ld : Nat) : Nat := if ld = 16 then 512 + link else link * 16 + ld

/-- A function of link k answers (R254): 0 configuration, 1 mailbox, 2 DOE, 3 FM API, 4 HDM decoder. -/
def State.ldAnswer (s : State) (link ld kind status : Nat) (d : List Byte) : State := s.send link 3 (.ldReply (fnPort link ld) kind status d)

/-- Function `ld` of link k exists: a bound LD or the FM-owned LD, on a link that is UP. -/
def State.fnOn (s : State) (k ld : Nat) : Bool := s.linkUp k && (ld == 16 || decide (ld < (s.link k).lds))

/-! Configuration space (R246, R254, R263). -/

/-- A dword of the port DVSEC of LD `ld` of link k (R263), by its offset div 4. -/
def State.dvsec (s : State) (k ld i : Nat) : Nat :=
  let b (x : Bool) (n : Nat) : Nat := if x then 2 ^ n else 0
  let hid := if ld = 16 then 0xFF else s.hidOf (k * 16 + ld)
  match i with
  | 0 => Config.portDvsecNext % 2 ^ 12 * 2 ^ 20 + 2 ^ 16 + 0x0023
  | 1 => 0x040 * 2 ^ 20 + 1 * 2 ^ 16 + 0x1F6C
  | 2 => 0x0001
  | 3 => 0x1672
  | 4 => s.par P.fwVersion % 2 ^ 32
  | 5 => b (s.par P.fmTrustMode == 1) 8 + b (s.par (P.portMboxDict (k / 2)) == 1) 7 + b (s.link k).ldq 6 + 0x3F
  | 6 => b (hid != 0xFF) 17 + b (k % 2 == 1) 16 + k / 2 * 2 ^ 12 + Nat.min ld 15 * 2 ^ 8 + hid
  | 7 => 128 * 2 ^ 16 + (if ld = 16 then 0 else 2)
  | 8 => fld (s.par (statusKey k)) 39 8
  | _ => 0

/-- What the spec fixes of a configuration dword (R245, R246): the mask of the bits it fixes, their values, and those a write sets. BAR0
takes 1 MiB, BAR2 256 KiB; MSI-X has 128 vectors; CXL.cache, CXL Reset and Memory Clear read as absent. PRESUMED: the places of these
fields are those of the PCI Express and CXL standards (log 112). -/
def State.ldFixed (s : State) (k ld i : Nat) : Nat × Nat × Nat :=
  let all := 2 ^ 32 - 1
  if i = 1 then (2 ^ 2, if (s.ld (k * 32 + ld)).bme then 2 ^ 2 else 0, 2 ^ 2)
  else if i = 4 then (2 ^ 20 - 1, 0x4, all)
  else if i = 5 then (0, 0, all)
  else if ld ≠ 16 ∧ i = 6 then (2 ^ 18 - 1, 0x4, all)
  else if ld ≠ 16 ∧ i = 7 then (0, 0, all)
  else if 6 ≤ i ∧ i ≤ 9 then (all, 0, 0)
  else if i = Config.ldMsixCap then (0x3FFF00FF, 127 * 2 ^ 16 + 0x11, 2 ^ 31 + 2 ^ 30)
  else if i = Config.ldMsixCap + 1 ∨ i = Config.ldMsixCap + 2 then (7, 0, 0)
  else if i = Config.ldCxlDvsec + 2 then (0x2F870000, (if (s.link k).mld then 2 ^ 29 else 0) + 0x00060000, 0)
  else (0, 0, 0)

/-- A configuration dword right after the function's reset: the address registers and MSI-X's control bits are 0. -/
def ldFresh (ld i : Nat) : Nat := if (4 ≤ i ∧ i ≤ 9) ∨ i = Config.ldMsixCap then 0 else Config.ldConfig ld i % 2 ^ 32

/-- A configuration dword of LD `ld` of link k. -/
def State.ldCfg (s : State) (k ld i : Nat) : Nat :=
  if Config.portDvsec ≤ i ∧ i < Config.portDvsec + 16 then s.dvsec k ld (i - Config.portDvsec)
  else
    let x := s.ldFixed k ld i
    (((Tab.find? i (s.ld (k * 32 + ld)).cfg).getD (ldFresh ld i)) &&& (2 ^ 32 - 1 - x.1)) ||| x.2.1

/-- MSI-X messages of an LD that were held as pending and may go now (R238). -/
def State.ldPending (s : State) (k ld : Nat) : State :=
  let l := s.ld (k * 32 + ld)
  if ld = 16 || !l.bme || !l.msixOn then s
  else forAll (fun v s => if Tab.get v l.msix = 3 then (s.modLd (k * 32 + ld) (fun l => { l with msix := Tab.set v 1 l.msix })).msixLd (k * 16 + ld) v else s)
    (Tab.keys l.msix) s

/-- A write of a configuration dword: the bits the standard lets software write; the DVSEC is read-only. Bit 2 of the Command
register is Bus Master Enable (R266). -/
def State.ldCfgWrite (s : State) (k ld i v : Nat) : State :=
  if Config.portDvsec ≤ i ∧ i < Config.portDvsec + 16 then s
  else
    let x := s.ldFixed k ld i
    let m := (Config.ldCfgMask ld i &&& (2 ^ 32 - 1 - x.1)) ||| x.2.2
    let old := s.ldCfg k ld i
    let new := (v &&& m) ||| (old &&& (2 ^ 32 - 1 - m % 2 ^ 32))
    let s := s.modLd (k * 32 + ld) (fun l => { l with cfg := Tab.insert i (new % 2 ^ 32) (Tab.erase i l.cfg) })
    if i ≠ 1 ∨ ld = 16 then s.ldPending k ld
    else
      let on := v.testBit 2
      let l := s.ld (k * 32 + ld)
      if l.bme && !on then s.ldSilence (k * 16 + ld)
      else (s.modLd (k * 32 + ld) (fun l => { l with bme := on })).ldPending k ld

/-- CXL_CONFIG_REQUEST (R254): a read or write of dword `offset`, in every device state. -/
def execCxlConfigRequest (link : Fin 32) (ld : Fin 17) (write : Bool) (offset : Fin 1024) (value : Nat) (s : State) : R :=
  .next (if !s.fnOn link ld then s
    else if write then (s.ldCfgWrite link ld offset (value % 2 ^ 32)).ldAnswer link ld 0 0 []
    else s.ldAnswer link ld 0 0 (leBytes 4 (s.ldCfg link ld offset)))

/-! CDAT (R245). -/

/-- The LD reaches partition n: an ownership entry gives its HID an extent of it, or fm_trust_mode is 1 and the LD is bound. -/
def State.reaches (s : State) (hid n : Nat) : Bool :=
  if s.par P.fmTrustMode = 1 then hid != 0xFF
  else s.entriesOn.any (fun e =>
    let w := s.par (P.ownWord e 1)
    (s.par (P.ownWord e (3 + hid / 64))).testBit (hid % 64) &&
      overlaps (fld w 20 0 * 2 ^ 21) ((fld w 41 21 + 1 - fld w 20 0) * 2 ^ 21) (s.par (P.partBase n)) (s.par (P.partSize n)))

/-- A DSMAS entry. PRESUMED: the layout is that of the CDAT standard; the handle is the partition's number. -/
def State.dsmas (s : State) (n : Nat) : List Byte :=
  [0, 0] ++ leBytes 2 24 ++ leBytes 1 n ++ [0, 0, 0] ++ leBytes 8 (s.par (P.partBase n)) ++ leBytes 8 (s.par (P.partSize n))

/-- CDAT_READ (R245): one DSMAS entry for each committed partition that the LD reaches. -/
def execCdatRead (port : Fin 512) (s : State) : R :=
  let k := port.val / 16
  .next (if s.ldUp port then s.ldAnswer k (port % 16) 2 0 ((s.partsOn.filter (s.reaches (s.hidOf port))).flatMap s.dsmas) else s)

/-! HDM decoders (R245). -/

/-- Where the DPA range of decoder n begins: after the decoders before it, and `skip` bytes. -/
def hdmDpa (t : Tab HdmDec) (n skip : Nat) : Nat :=
  match n with
  | 0 => skip
  | m + 1 => let d := Tab.get m t; d.dpa + d.size / Nat.max 1 d.ways + skip

/-- A decoder's values can be committed (R245). PRESUMED from the CXL standard: base and size in multiples of 256 MiB, decoders
committed in order and rising. -/
def hdmOk (t : Tab HdmDec) (n base size ways gran skip : Nat) : Bool :=
  [1, 2, 4, 8, 16].contains ways && [256, 512, 1024, 2048, 4096, 8192, 16384].contains gran &&
  base % 2 ^ 28 == 0 && size % (2 ^ 28 * ways) == 0 && size != 0 && decide (base + size ≤ 2 ^ 64) && !(Tab.get n t).on &&
  (n == 0 || ((Tab.get (n - 1) t).on && decide ((Tab.get (n - 1) t).base + (Tab.get (n - 1) t).size ≤ base))) &&
  decide (hdmDpa t n skip + size / ways ≤ dpaEnd)

/-- HDM_DECODER_COMMIT (R245): commit of decoder n with the values programmed, or its uncommit; a locked decoder keeps its values.
The answer's status is 1 for a refusal. -/
def execHdmDecoderCommit (port : Fin 512) (decoder : Fin 4) (commit : Bool) (base size ways gran skip : Nat) (lock : Bool) (s : State) : R :=
  let k := port.val / 16
  let key := ldKey port
  let t := (s.ld key).hdm
  let d := Tab.get decoder.val t
  .next (if !s.ldUp port then s
    else if d.lock then s.ldAnswer k (port % 16) 4 1 []
    else if !commit then
      (if (Tab.get (decoder.val + 1) t).on then s.ldAnswer k (port % 16) 4 1 []
       else (s.modLd key (fun l => { l with hdm := Tab.set decoder.val default l.hdm })).ldAnswer k (port % 16) 4 0 [])
    else if hdmOk t decoder base size ways gran skip then
      let d : HdmDec := { base := base, size := size, ways := ways, gran := gran, dpa := hdmDpa t decoder skip, on := true, lock := lock }
      (s.modLd key (fun l => { l with hdm := Tab.set decoder.val d l.hdm })).ldAnswer k (port % 16) 4 0 []
    else s.ldAnswer k (port % 16) 4 1 [])

/-! Dynamic capacity (R261). -/

/-- The extents of a range, of 2 MiB each. -/
def blocksFrom (first n : Nat) : List Nat := (List.range n).map (first + ·)

/-- Each extent of a range lies wholly inside a committed partition. -/
def State.inPartition (s : State) (first n : Nat) : Bool :=
  n != 0 && (blocksFrom first n).all (fun b => match s.partAt (b * 2 ^ 21) with
    | some p => within (b * 2 ^ 21) (2 ^ 21) (s.par (P.partBase p)) (s.par (P.partSize p))
    | none => false)

/-- An add of `n` extents to an LD: offered, until the host accepts them. False: the standard's Invalid Extent List. -/
def State.dcAdd (s : State) (port first n : Nat) : Bool × State :=
  let key := ldKey port
  let l := s.ld key
  if (s.link (port / 16)).dc && decide (n ≤ 1024) && s.inPartition first n &&
      (blocksFrom first n).all (fun b => !Tab.get b l.extents && !Tab.get b l.offered) &&
      decide (l.extents.length + l.offered.length + n ≤ 1024) then
    (true, s.modLd key (fun l => { l with offered := (blocksFrom first n).foldl (fun t b => Tab.set b true t) l.offered }))
  else (false, s)

/-- A release of extents that an LD holds or was offered. -/
def State.dcRelease (s : State) (port first n : Nat) : Bool × State :=
  let key := ldKey port
  let l := s.ld key
  if n != 0 && decide (n ≤ 2048) && (blocksFrom first n).all (fun b => Tab.get b l.extents || Tab.get b l.offered) then
    (true, forAll (fun b s =>
      if Tab.get b l.extents then s.dropExtent key b
      else s.modLd key (fun l => { l with offered := Tab.set b false l.offered })) (blocksFrom first n) s)
  else (false, s)

/-- The FM API's answer: 0 Success, 0x1E Invalid Extent List. -/
def extStatus (ok : Bool) : Nat := if ok then 0 else 0x1E

/-- An FM API command through the FM-owned LD of a link that is UP. -/
def State.fmDc (s : State) (port : Nat) (r : Bool × State) : State :=
  if s.linkUp (port / 16) then r.2.ldAnswer (port / 16) 16 3 (extStatus r.1) [] else s

/-- DC_ADD_EXTENT (R261): through the FM-owned LD of the port's link; `count` extents from number `first`, DPA div 2 MiB. -/
def execDcAddExtent (port : Fin 512) (first count : Nat) (s : State) : R :=
  .next (s.fmDc port (s.dcAdd port first count))

/-- DC_RELEASE_EXTENT (R261). -/
def execDcReleaseExtent (port : Fin 512) (first count : Nat) (s : State) : R :=
  .next (s.fmDc port (s.dcRelease port first count))

end Sys2Proof.Machine
end

