-- ==== Sys2Proof/Machine/Content.lean ====
section
/-! DEFINITION. Reads of the object dictionary, and the contents of its DOMAIN entries (R11, R275, R333, R364, R376, R412, R415, R423). -/
namespace Sys2Proof.Machine

/-- Bytes off to off + n of a store of slots of `size` bytes. -/
def slotRun (size off : Nat) (t : Tab (List Byte)) (n : Nat) : List Byte :=
  if n = 0 then []
  else
    let a := off / size
    let k := (off + n - 1) / size + 1 - a
    cut (off % size) n ((List.range k).flatMap (fun i => padTo size (Tab.get (a + i) t)))

/-- Length in bytes of a DOMAIN entry's content (R275). A slot of integ_sig_store holds one record of at most 512 B. -/
def State.domLen (s : State) (k : Nat) : Nat :=
  if k = P.mediaLog then 65536 * 16
  else if k = P.integSigStore then 8192 * 512
  else if k = P.hangStore then 64 * 4480
  else if k = P.glodyNoticeStore then 256 * 1536
  else if k = P.fwStage then s.boot.stage.length
  else 0

/-- Bytes off to off + n of a DOMAIN entry's content; zero beyond it, and in the write-only fw_stage. -/
def State.domBytes (s : State) (k off n : Nat) : List Byte :=
  let m := Nat.min n (s.domLen k - off)
  padTo n (
    if k = P.mediaLog then slotRun 16 off s.media.log m
    else if k = P.integSigStore then slotRun 512 off s.glody.sigStore m
    else if k = P.hangStore then slotRun 4480 off s.recov.hangs m
    else if k = P.glodyNoticeStore then slotRun 1536 off s.glody.store m
    else [])

/-- The value a read of an entry returns (R11, R412): the length of a DOMAIN, 0 of a WO entry and of no entry, the constants of the
device, the window of R415, or the value stored. -/
def State.readPar (s : State) (k : Nat) : Nat :=
  match cardOf k with
  | none => 0
  | some c =>
    if c.dom then s.domLen k
    else if c.acc = .wo then 0
    else if k = P.devStepping then Config.stepping % 2 ^ 8
    else if k = P.devSerial then devId % 2 ^ 64
    else if k = P.domLength then s.domLen (s.par P.domSelect)
    else if 0x1410 * 256 ≤ k ∧ k < 0x1411 * 256 then ofLe (s.domBytes (s.par P.domSelect) (s.par P.domOffset + 8 * (k % 256)) 8)
    else s.par k

end Sys2Proof.Machine
end

