-- ==== Sys2Proof/Machine/Mailbox.lean ====
section
/-! DEFINITION. The mailbox of a logical device: standard and vendor commands (R259, R261, R264, R265, R336). PRESUMED: return codes and
payload layouts are those of the CXL 3.1 standard, which R3 and R264 name. -/
namespace Sys2Proof.Machine

/-! Return codes of the standard. -/
def mbOk : Nat := 0x00
def mbInvalidInput : Nat := 0x02
def mbUnsupported : Nat := 0x03
def mbInvalidHandle : Nat := 0x0E
def mbInvalidAddress : Nat := 0x0F
def mbInvalidLog : Nat := 0x17
def mbInvalidExtents : Nat := 0x1E

/-- A mailbox command of a bound LD is answered (R254, R264): return code, payload, effect. -/
def State.mbox (s : State) (port : Nat) (r : Nat × List Byte × State) : R :=
  .next (if s.ldUp port then r.2.2.ldAnswer (port / 16) (port % 16) 1 r.1 r.2.1 else s)

/-! Identity and logs (R264). -/

/-- The firmware revision field: fw_version, zero-filled. -/
def State.fwRev (s : State) : List Byte := padTo 16 (leBytes 4 (s.par P.fwVersion))

/-- IDENTIFY_MEMORY_DEVICE (R264): 4 TiB of volatile capacity, none of it static while dynamic capacity is in use (R261). -/
def execIdentifyMemoryDevice (port : Fin 512) (s : State) : R :=
  let cap := if (s.link (port / 16)).dc then 0 else 16384
  s.mbox port (mbOk, s.fwRev ++ leBytes 8 cap ++ leBytes 8 cap ++ zeros 16 ++ leBytes 2 64 ++ leBytes 2 64 ++ leBytes 2 64 ++ leBytes 2 64 ++
    zeros 4 ++ leBytes 3 4096 ++ zeros 2 ++ [0, 0] ++ zeros 2, s)

/-- The Command Effects Log (R264, R265): opcode and effect of every command. -/
def celEntries (dc : Bool) : List (Nat × Nat) :=
  [(0x0100, 0), (0x0101, 16), (0x0102, 0), (0x0103, 8), (0x0200, 0), (0x0300, 0), (0x0301, 8), (0x0400, 0), (0x0401, 0), (0x4000, 0),
   (0x4200, 0), (0x4201, 0), (0x4202, 8), (0x4300, 0), (0x4301, 4), (0x4302, 4)] ++
  (if dc then [(0x4800, 0), (0x4801, 0), (0x4802, 6), (0x4803, 6)] else []) ++
  [(0xC000, 0), (0xC001, 0), (0xC002, 0), (0xC003, 0), (0xC004, 0)]

/-- The log's bytes. -/
def celBytes (dc : Bool) : List Byte := (celEntries dc).flatMap (fun e => leBytes 2 e.1 ++ leBytes 2 e.2)

/-- Its identifier. -/
def celUuid : Nat := 0x0da9c0b5bf414b788f7996b1623b3f17

/-- GET_SUPPORTED_LOGS (R264): the Command Effects Log alone. -/
def execGetSupportedLogs (port : Fin 512) (s : State) : R :=
  s.mbox port (mbOk, leBytes 2 1 ++ zeros 6 ++ beBytes 16 celUuid ++ leBytes 4 (celBytes (s.link (port / 16)).dc).length, s)

/-- GET_LOG (R264). -/
def execGetLog (port : Fin 512) (uuid offset length : Nat) (s : State) : R :=
  let d := celBytes (s.link (port / 16)).dc
  s.mbox port (if uuid ≠ celUuid then (mbInvalidLog, [], s)
    else if d.length < offset + length then (mbInvalidInput, [], s)
    else (mbOk, cut offset length d, s))

/-! Event records (R256-R259). -/

/-- The standard's Transaction Type of a record's transaction. -/
def transCode : Nat → Nat
  | 0 => 6
  | 3 => 5
  | n => n

/-- An event record of the standard, 128 B. -/
def EventRec.bytes (r : EventRec) : List Byte :=
  let head := fun (uuid : Nat) => beBytes 16 uuid ++ leBytes 1 128 ++ leBytes 3 r.log ++ leBytes 2 r.handle ++ zeros 2 ++ leBytes 8 r.time ++ zeros 16
  padTo 128 (
    if r.dram then
      let pc := r.place / 2 ^ 25
      let bank := r.place / 2 ^ 15 % 64
      head 0x601dcbb39c064eabb8af4e9bfb5c9624 ++ leBytes 8 (r.dpa - 1) ++ leBytes 1 2 ++ leBytes 1 r.kind ++ leBytes 1 r.trans ++ leBytes 2 0x7B ++
        leBytes 1 (pc / 2) ++ leBytes 1 (pc % 2) ++ zeros 3 ++ leBytes 1 (bank % 16 / 4) ++ leBytes 1 (bank % 4) ++ leBytes 3 (r.place % 2 ^ 15) ++
        leBytes 2 (r.place / 2 ^ 21 % 16) ++ zeros 32 ++ r.comp
    else
      head 0xfbcd0a77c260417f85a9088b1621eba6 ++ leBytes 8 (r.dpa - 1) ++ leBytes 1 1 ++ leBytes 1 r.kind ++
        leBytes 1 (transCode r.trans) ++ leBytes 2 8 ++ zeros 5 ++ r.comp)

/-- The records of an LD's log, oldest first. -/
def State.logOf (s : State) (key log : Nat) : List EventRec := (s.ld key).log.filter (fun r => r.log == log)

/-- GET_EVENT_RECORDS (R259): every record of a log, with what overflowed. -/
def execGetEventRecords (port : Fin 512) (log : Nat) (s : State) : R :=
  let l := s.ld (ldKey port)
  let rs := s.logOf (ldKey port) log
  let lost := Tab.get log l.lost
  s.mbox port (if 4 ≤ log then (mbInvalidInput, [], s)
    else (mbOk, leBytes 1 (if lost = 0 then 0 else 1) ++ [0] ++ leBytes 2 lost ++ leBytes 8 (Tab.get log l.lostFirst) ++
      leBytes 8 (Tab.get log l.lostLast) ++ leBytes 2 rs.length ++ zeros 10 ++ rs.flatMap EventRec.bytes, s))

/-- CLEAR_EVENT_RECORDS (R259): records by handle, oldest first, or all of an overflowed log. -/
def execClearEventRecords (port : Fin 512) (log : Nat) (all : Bool) (handles : List Nat) (s : State) : R :=
  let key := ldKey port
  let rs := s.logOf key log
  let clear := fun (p : EventRec → Bool) => s.modLd key (fun l => { l with
    log := l.log.filter (fun r => !p r), lost := Tab.set log 0 l.lost, lostFirst := Tab.set log 0 l.lostFirst, lostLast := Tab.set log 0 l.lostLast })
  s.mbox port (if 4 ≤ log then (mbInvalidInput, [], s)
    else if all then (if Tab.get log (s.ld key).lost = 0 then (mbInvalidInput, [], s) else (mbOk, [], clear (fun r => r.log == log)))
    else if (rs.take handles.length).map EventRec.handle = handles then (mbOk, [], clear (fun r => r.log == log && handles.contains r.handle))
    else (mbInvalidHandle, [], s))

/-- GET_EVENT_INTERRUPT_POLICY (R259). -/
def execGetEventInterruptPolicy (port : Fin 512) (s : State) : R :=
  s.mbox port (mbOk, (List.range 4).flatMap (fun i => leBytes 1 (Tab.get i (s.ld (ldKey port)).policy)), s)

/-- SET_EVENT_INTERRUPT_POLICY (R259): one byte for each log: no interrupt or MSI-X, and the vector. -/
def execSetEventInterruptPolicy (port : Fin 512) (settings : List Byte) (s : State) : R :=
  let v := fun (i : Nat) => ((settings[i]?).getD 0).toNat
  s.mbox port (if settings.length ≠ 4 ∨ (List.range 4).any (fun i => decide (1 < v i % 4) || v i / 4 % 4 != 0) then (mbInvalidInput, [], s)
    else (mbOk, [], s.modLd (ldKey port) (fun l => { l with policy := (List.range 4).foldl (fun t i => Tab.set i (v i) t) l.policy })))

/-! Timestamp, health, firmware (R264, R336). -/

/-- GET_TIMESTAMP (R264). -/
def execGetTimestamp (port : Fin 512) (s : State) : R := s.mbox port (mbOk, leBytes 8 (s.ldTime (ldKey port)), s)

/-- SET_TIMESTAMP (R264). -/
def execSetTimestamp (port : Fin 512) (value : Nat) (s : State) : R :=
  s.mbox port (mbOk, [], s.modLd (ldKey port) (fun l => { l with stamp := value % 2 ^ 64, stampAt := s.now }))

/-- A sum over the stacks. -/
def State.stackSum (s : State) (f : Nat → Nat) : Nat := ((List.range 16).map (fun k => s.par (f k))).sum

/-- Life Used in percent (R336). -/
def State.lifeUsed (s : State) : Nat := Nat.min 100 (100 * ((List.range 4).map (fun q => s.par (P.capRetired q))).sum / 14575206)

/-- The highest mc_temp_c, as the 16 bits that show it (R312, R336). -/
def State.topTemp (s : State) : Nat :=
  (((List.range 16).map (fun k => signed 16 (s.par (P.mcTempC k)))).foldl max (-40) % 65536).toNat

/-- GET_HEALTH_INFO (R336): the uncorrectable count stands in the standard's last count. -/
def execGetHealthInfo (port : Fin 512) (s : State) : R :=
  s.mbox port (mbOk, [0, 0, 0] ++ leBytes 1 s.lifeUsed ++ leBytes 2 s.topTemp ++ zeros 4 ++ leBytes 4 (s.stackSum P.mediaCe) ++
    leBytes 4 (s.stackSum P.mediaUe), s)

/-- GET_ALERT_CONFIGURATION (R336): as Set Alert Configuration left it; alerts on life used and over-temperature can be programmed. -/
def execGetAlertConfiguration (port : Fin 512) (s : State) : R :=
  let a := (s.ld (ldKey port)).alert
  s.mbox port (mbOk, padTo 16 ((cut 1 1 (padTo 12 a)) ++ leBytes 1 3 ++ leBytes 1 100 ++ cut 2 1 (padTo 12 a) ++ zeros 4 ++ cut 4 4 (padTo 12 a)), s)

/-- SET_ALERT_CONFIGURATION (R336): valid actions, enables and thresholds; the alerts of life used and over-temperature. -/
def execSetAlertConfiguration (port : Fin 512) (settings : List Byte) (s : State) : R :=
  s.mbox port (if settings.length ≠ 12 ∨ 4 ≤ ((settings[0]?).getD 0).toNat ∨ 4 ≤ ((settings[1]?).getD 0).toNat then (mbInvalidInput, [], s)
    else (mbOk, [], s.modLd (ldKey port) (fun l =>
      let valid := ((settings[0]?).getD 0).toNat
      let old := padTo 12 l.alert
      let en := (((settings[1]?).getD 0).toNat &&& valid) ||| (((old[1]?).getD 0).toNat &&& (3 - valid))
      { l with alert := [0] ++ leBytes 1 en ++ (if valid.testBit 0 then cut 2 1 settings else cut 2 1 old) ++ [0] ++
          (if valid.testBit 1 then cut 4 2 settings else cut 4 2 old) ++ zeros 6 })))

/-- GET_FW_INFO (R264): one slot, active. -/
def execGetFwInfo (port : Fin 512) (s : State) : R :=
  s.mbox port (mbOk, leBytes 1 1 ++ leBytes 1 1 ++ zeros 14 ++ s.fwRev ++ zeros 48, s)

/-! Poison (R88, R264). -/

/-- Block b is POISON now, as HID `hid` reads it (R202). -/
def State.poisonNow (s : State) (hid b : Nat) : Bool :=
  match s.viewFor hid (b * 4096) false with
  | .ok v => (entryOf (s.wordIn v b)).state == stPoison
  | .error _ => false

/-- GET_POISON_LIST (R264): of the 4,096 most recent POISON blocks, those of the range that the LD's HID may read, newest first. -/
def execGetPoisonList (port : Fin 512) (dpa length : Nat) (s : State) : R :=
  let bs := s.ports.poisonLog.filter (fun b => within (b * 4096) 4096 dpa length && s.poisonNow (s.hidOf port) b &&
    (match s.grant (s.hidOf port) (b * 4096) rR with | .ok _ => true | _ => false))
  s.mbox port (mbOk, leBytes 1 (if s.ports.poisonOver then 2 else 0) ++ [0] ++ zeros 8 ++ leBytes 2 bs.length ++ zeros 20 ++
    bs.flatMap (fun b => leBytes 8 (b * 4096) ++ leBytes 4 64 ++ zeros 4), s)

/-- The window and view of a write by an LD to a DPA, if its checks pass (R56, R60). -/
def State.mayWrite (s : State) (port dpa : Nat) : Option (Nat × View) :=
  let hid := s.hidOf port
  match s.winAt dpa with
  | none => none
  | some w =>
    let need := if s.factorWin w then rW + rF else rW
    if s.own.leaving.contains w || ((s.link (port / 16)).dc && !Tab.get (dpa / 2 ^ 21) (s.ld (ldKey port)).extents) then none
    else
      match s.grant hid dpa need, s.viewFor hid dpa true with
      | .ok _, .ok v => some (w, v)
      | _, _ => none

/-- Commit the block of a DPA POISON (R88, R264), in every device state (R254); in an explicit-T0 window its lines are marked. -/
def State.injectPoison (s : State) (port dpa : Nat) : Nat × List Byte × State :=
  match s.mayWrite port dpa with
  | none => (mbInvalidAddress, [], s)
  | some (w, v) =>
    let b := dpa / 4096
    let k := s.par (P.winKind w)
    let (area, i) := s.areaOf w b
    if k = wGradient ∨ (s.factorWin w ∧ (area = 7 ∨ (area = 0 ∧ k = wFactor))) then (mbInvalidAddress, [], s)
    else if k = wT0 then
      (mbOk, [], s.modMem (fun m => { m with t0marks := (List.range 64).foldl (fun t j => Tab.set (64 * b + j) true t) m.t0marks }))
    else
      let s := if s.factorWin w then s.invalidate w area i else s
      let s := if v = .main then s.hostTouch b dpa else s
      (mbOk, [], s.poison v (s.targetOf w b) false)

/-- INJECT_POISON (R264). -/
def execInjectPoison (port : Fin 512) (dpa : Nat) (s : State) : R :=
  s.mbox port (if dpaEnd ≤ dpa ∨ dpa % 64 ≠ 0 then (mbInvalidInput, [], s) else s.injectPoison port dpa)

/-- CLEAR_POISON (R264): the supplied line is written as a CXL.mem write, its data discarded outside SERVICE (R254). -/
def execClearPoison (port : Fin 512) (dpa : Nat) (data : List Byte) (ph : Phys) (s : State) : R :=
  s.mbox port (if dpaEnd ≤ dpa ∨ dpa % 64 ≠ 0 then (mbInvalidInput, [], s)
    else
      match s.mayWrite port dpa with
      | none => (mbInvalidAddress, [], s)
      | some _ =>
        if !s.serving then (mbOk, [], s)
        else (mbOk, [], s.letIn { s.writeReq port data 0 false false 0 dpa with quiet := true } ph))

/-! Dynamic capacity (R261): unsupported while it is not in use on the link (R247). -/

/-- A command of dynamic capacity. -/
def State.dcMbox (s : State) (port : Nat) (r : Nat × List Byte × State) : R :=
  s.mbox port (if (s.link (port / 16)).dc then r else (mbUnsupported, [], s))

/-- GET_DC_CONFIGURATION (R261): one region, the whole DPA, of 2 MiB blocks. -/
def execGetDcConfiguration (port : Fin 512) (s : State) : R :=
  let n := (s.ld (ldKey port)).extents.length + (s.ld (ldKey port)).offered.length
  s.dcMbox port (mbOk, leBytes 1 1 ++ leBytes 1 1 ++ zeros 6 ++ leBytes 8 0 ++ leBytes 8 16384 ++ leBytes 8 dpaEnd ++ leBytes 8 (2 ^ 21) ++
    zeros 8 ++ leBytes 4 1024 ++ leBytes 4 (1024 - n) ++ zeros 8, s)

/-- GET_DC_EXTENT_LIST (R261): `count` of the accepted extents from number `start`. -/
def execGetDcExtentList (port : Fin 512) (count start : Nat) (s : State) : R :=
  let l := s.ld (ldKey port)
  let xs := ((Tab.keys l.extents).drop start).take count
  s.dcMbox port (if l.extents.length < start then (mbInvalidInput, [], s)
    else (mbOk, leBytes 4 xs.length ++ leBytes 4 l.extents.length ++ leBytes 4 l.dcGen ++ zeros 4 ++
      xs.flatMap (fun x => leBytes 8 (x * 2 ^ 21) ++ leBytes 8 (2 ^ 21) ++ zeros 24), s))

/-- The 2 MiB extents of a list of ranges given by first extent and count. -/
def rangeBlocks (l : List (Nat × Nat)) : List Nat := l.flatMap (fun p => blocksFrom p.1 p.2)

/-- ADD_DC_RESPONSE (R261): the host accepts extents among those offered; the others are no longer offered. -/
def execAddDcResponse (port : Fin 512) (accepted : List (Nat × Nat)) (s : State) : R :=
  let key := ldKey port
  let n := (accepted.map Prod.snd).sum
  s.dcMbox port (if 1024 < n then (mbInvalidInput, [], s)
    else
      let xs := rangeBlocks accepted
      if xs.any (fun x => Tab.get x (s.ld key).extents) || (distinct xs).length != xs.length then (mbInvalidExtents, [], s)
      else if xs.any (fun x => !Tab.get x (s.ld key).offered) then (mbInvalidAddress, [], s)
      else (mbOk, [], s.modLd key (fun l => { l with
        offered := [], extents := xs.foldl (fun t x => Tab.set x true t) l.extents
        dcGen := if xs.isEmpty then l.dcGen else (l.dcGen + 1) % 2 ^ 32 })))

/-- RELEASE_DC (R261). -/
def execReleaseDc (port : Fin 512) (released : List (Nat × Nat)) (s : State) : R :=
  let key := ldKey port
  s.dcMbox port (if 1024 < (released.map Prod.snd).sum then (mbInvalidInput, [], s)
    else
      let xs := rangeBlocks released
      if (distinct xs).length ≠ xs.length then (mbInvalidExtents, [], s)
      else if xs.any (fun x => !Tab.get x (s.ld key).extents) then (mbInvalidAddress, [], s)
      else (mbOk, [], forAll (fun x s => s.dropExtent key x) xs s))

/-- MAILBOX_UNSUPPORTED (R264). -/
def execMailboxUnsupported (port : Fin 512) (opcode : Fin 65536) (s : State) : R :=
  s.mbox port (mbUnsupported, leBytes 0 opcode, s)

/-! Vendor commands (R265): none writes device state. -/

/-- DICT_READ (R265, R413); `rest` is the input's last five bytes, which must be zero. -/
def execDictRead (port : Fin 512) (index : Fin 65536) (sub : DictSub) (s : State) : R :=
  s.mbox port (if s.par (P.portMboxDict (port / 32)) ≠ 1 ∨ s.dictOn = false then (mbUnsupported, [], s)
    else if sub.rest ≠ 0 then (mbInvalidInput, [], s)
    else (mbOk, leBytes 8 (s.readPar (index * 256 + sub.subindex)), s))

/-- Records from sequence `seq` on that name the HID or none, within `room` bytes: the bytes and the next sequence (R265). -/
def State.signatures (s : State) (hid last : Nat) : Nat → Nat → Nat → List Byte × Nat
  | 0, seq, _ => ([], seq)
  | n + 1, seq, room =>
    if last < seq then ([], seq)
    else
      let r := Tab.get (seq % 8192) s.glody.sigStore
      let h := Tab.get (seq % 8192) s.glody.sigHid
      if h ≠ 0 ∧ h ≠ hid + 1 then s.signatures hid last n (seq + 1) room
      else if room < r.length then ([], seq)
      else let (x, y) := s.signatures hid last n (seq + 1) (room - r.length); (r ++ x, y)

/-- GET_SIGNATURES (R265). -/
def execGetSignatures (port : Fin 512) (start : Nat) (s : State) : R :=
  let last := s.par P.integSigSeq
  let first := Nat.max 1 (Nat.max (start % 2 ^ 32) (last - 8191))
  let (d, next) := s.signatures (s.hidOf port) last (last + 1 - first) first 960
  s.mbox port (mbOk, d ++ leBytes 4 next, s)

/-- GET_PORT_MODE (R265). -/
def execGetPortMode (port : Fin 512) (s : State) : R :=
  s.mbox port (mbOk, leBytes 8 (s.par (statusKey (port / 16))) ++ leBytes 8 (s.par P.portCreditAuditPass), s)

/-- GET_BINDING (R265): the HID, its validity, and the queue groups whose path names this LD. -/
def execGetBinding (port : Fin 512) (s : State) : R :=
  let h := s.hidOf port
  let gs := ((List.range 512).filter (fun g => s.ldQueue port (g * 64))).foldl (fun a g => a + 2 ^ g) 0
  s.mbox port (mbOk, leBytes 1 h ++ leBytes 1 (if h = 0xFF then 0 else 1) ++ leBytes 64 gs, s)

/-- GET_OWN_FAIL (R265). -/
def execGetOwnFail (port : Fin 512) (s : State) : R :=
  let v := s.par P.ownLastFail
  s.mbox port (mbOk, leBytes 8 (if fld v 55 48 = s.hidOf port then v else 0), s)

end Sys2Proof.Machine
end

