-- ==== Sys2Proof/Machine/Svc.lean ====
section
/-! DEFINITION. The service function: configuration space, resets, D-states, egress, tags, BAR0 reads, LTR (R271-R292). -/
namespace Sys2Proof.Machine

/-- Change the service function's record. -/
def State.sv (s : State) (f : Svc → Svc) : State := { s with svc := f s.svc }

/-! Configuration space (R271-R273, R285, R289). -/

/-- The writable bits of a configuration dword (R272). PRESUMED: as the PCI Express standard gives for the features listed. -/
def svcMask (i : Nat) : Nat :=
  if i = 1 then 0x0546
  else if i = 3 then 0xFF
  else if i = 4 then 0xF8000000
  else if i = 6 then 0xFFFC0000
  else if i = 8 then 0xFFFF0000
  else if i = 5 ∨ i = 7 ∨ i = 9 then 0xFFFFFFFF
  else if i = 0x3C / 4 then 0xFF
  else if i = 0x44 / 4 then 0x103
  else if i = 0x50 / 4 then 0xC0000000
  else if i = 0x68 / 4 then 0x7FFF
  else if i = 0x70 / 4 then 0x02CB
  else if i = 0x88 / 4 then 0x140F
  else if i = 0x90 / 4 then 0xFFBF
  else if i = 0x108 / 4 ∨ i = 0x10C / 4 then 0x005FF010
  else if i = 0x114 / 4 then 0x000071C1
  else if i = 0x118 / 4 then 0x140
  else if i = 0x1F4 / 4 then 0x1FFF1FFF
  else if i = 0x200 / 4 then 0xE3FF000F
  else if i = 0x204 / 4 then 0xFB
  else 0

/-- The extended capabilities (R272): offset, ID, offset of the next. -/
def svcExtCaps : List (Nat × Nat × Nat) :=
  [(0x100, 0x0001, 0x148), (0x148, 0x0003, 0x158), (0x158, 0x0019, 0x178), (0x178, 0x0025, 0x184), (0x184, 0x0026, 0x1AC),
   (0x1AC, 0x0027, 0x1C4), (0x1C4, 0x002A, 0x1F0), (0x1F0, 0x0018, 0x1F8), (0x1F8, 0x001E, 0x208), (0x208, 0x0023, 0)]

/-- The header of the extended capability at an offset: its ID, version and next pointer. PRESUMED: version 2 of Advanced Error Reporting
and version 1 of the others, as the standard gives (log 114). -/
def svcExtHeader (off : Nat) : Option Nat :=
  (svcExtCaps.find? (fun c => c.1 == off)).map (fun c => c.2.2 * 2 ^ 20 + (if c.2.1 = 1 then 2 else 1) * 2 ^ 16 + c.2.1)

/-- The read-only part of a configuration dword (R271-R273, R289); what the spec leaves to the standard is open. -/
def State.svcFixed (s : State) (i : Nat) : Nat :=
  let aspm := s.par P.svcAspmSupport
  let b (n k : Nat) : Nat := if aspm.testBit n then 2 ^ k else 0
  if i = 0 then 0x16721F6C
  else if i = 1 then 0x00100000
  else if i = 2 then 0x05800000 + Config.stepping % 256
  else if i = 3 ∨ i = 5 ∨ i = 7 ∨ i = 9 ∨ i = 10 ∨ i = 12 ∨ i = 14 ∨ i = 15 then 0
  else if i = 4 ∨ i = 6 ∨ i = 8 then 4
  else if i = 0x2C / 4 then 0x00961F6C
  else if i = 0x34 / 4 then 0x40
  else if i = 0x40 / 4 then 0xC8035001
  else if i = 0x44 / 4 then 8 + (if s.svc.pme then 2 ^ 15 else 0) + s.svc.dstate % 2 * 3
  else if i = 0x50 / 4 then 2047 * 2 ^ 16 + 0x6011
  else if i = 0x54 / 4 then 4
  else if i = 0x58 / 4 then 0x8004
  else if i = 0x60 / 4 then 0x00020010
  else if i = 0x64 / 4 then 2 ^ 28 + 2 ^ 15 + 2 ^ 5 + 2
  else if i = 0x68 / 4 then (if s.svc.tags.isEmpty then 0 else 2 ^ 21) + s.svc.devSta * 2 ^ 16
  else if i = 0x6C / 4 then 2 * 2 ^ 15 + 5 * 2 ^ 12 + b 1 11 + b 0 10 + 4 * 2 ^ 4 + 5
  else if i = 0x70 / 4 then s.svc.lanes * 2 ^ 20 + s.svc.speed * 2 ^ 16
  else if 0x74 / 4 ≤ i ∧ i < 0x84 / 4 then 0
  else if i = 0x8C / 4 then 0x3E
  else if i = 0x90 / 4 then Config.svcConfig i % 2 ^ 32 / 2 ^ 16 * 2 ^ 16
  else if 0x94 / 4 ≤ i ∧ i < 0x100 / 4 then 0
  else if i = 0x17C / 4 then 2 ^ 31 + 1
  else if i = 0x188 / 4 ∨ i = 0x18C / 4 then 0
  else if i = 0x84 / 4 then 2 ^ 17 + 2 ^ 16 + 2 ^ 11 + 0xF
  else if i = 0x88 / 4 then 0
  else if i = 0x104 / 4 then s.svc.aerUnc
  else if i = 0x108 / 4 ∨ i = 0x10C / 4 ∨ i = 0x114 / 4 then 0
  else if i = 0x110 / 4 then s.svc.aerCor
  else if i = 0x118 / 4 then s.svc.firstErr + 2 ^ 5 + 2 ^ 7
  else if 0x11C / 4 ≤ i ∧ i < 0x12C / 4 then s.svc.hdrLog / 2 ^ (32 * (i - 0x11C / 4)) % 2 ^ 32
  else if i = 0x14C / 4 then devId % 2 ^ 32
  else if i = 0x150 / 4 then devId / 2 ^ 32 % 2 ^ 32
  else if i = 0x1F4 / 4 then 0
  else if i = 0x1FC / 4 then 7 * 2 ^ 19 + 2 ^ 16 + 30 * 2 ^ 8 + (if aspm / 4 = 0 then 0 else 2 ^ 4) + b 2 3 + b 3 2 + b 2 1 + b 3 0
  else if i = 0x200 / 4 ∨ i = 0x204 / 4 then 0
  else if i = 0x20C / 4 then 0x1F6C
  else if i = 0x210 / 4 then 2
  else if i = 0x214 / 4 then 0x1672
  else if i = 0x218 / 4 then s.par P.fwVersion % 2 ^ 32
  else if 0x21C / 4 ≤ i ∧ i < 0x248 / 4 then 0
  else (svcExtHeader (4 * i)).getD (Config.svcConfig i % 2 ^ 32)

/-- A configuration dword of the service function as it reads. -/
def State.svcCfgRead (s : State) (i : Nat) : Nat :=
  if i = 0x44 / 4 then (s.svcReg i &&& 0x100) ||| s.svcFixed i
  else if i = 1 then setFld (setFld (s.svcReg i) 1 1 (if s.svc.mse then 1 else 0)) 2 2 (if s.svc.bme then 1 else 0) ||| s.svcFixed i
  else s.svcReg i ||| s.svcFixed i

/-! Tags (R279, R281). -/

/-- The completion timeout in ticks (R279). -/
def State.svcTimeout (s : State) : Nat := cplTimeout (s.svcReg (0x88 / 4) % 16)

/-- Tags the function uses (R281). -/
def State.svcTagCount (s : State) : Nat := if (s.svcReg (0x88 / 4)).testBit 12 then 768 else 256

/-- Keep svc_tags_quarantined. -/
def State.syncTags (s : State) : State := s.setPar P.svcTagsQuarantined s.svc.quar.length

/-- A tag is quarantined for twice the completion timeout. -/
def State.quarTag (s : State) (tag wait : Nat) : State :=
  (s.sv (fun v => { v with tags := Tab.erase tag v.tags, quar := Tab.set tag (s.now + 2 * wait + 1) v.quar })).syncTags

/-! Resets (R282-R284). -/

/-- No new request (R282, R284): waiting requests are dropped, outstanding tags quarantined, SERVICE-path queues halt, the drain
stops. With `keep`, reads of the detour wait for the link (R284). -/
def State.svcSilence (s : State) (keep : Bool) : State :=
  let wait := s.svcTimeout
  let again := if keep then (s.svc.tags.filter (fun p => p.2.who == 2 && p.2.read)).map Prod.snd ++ s.svc.egress.filter (fun r => r.who == 2 && r.read)
    else []
  let s := forAll (fun t s => s.quarTag t wait) (Tab.keys s.svc.tags) s
  (((s.sv (fun v => { v with bme := false, egress := again })).haltPath s.svcQueue).drainsStop 0x09)

/-- The function's registers take their reset values (R282). -/
def State.svcRegsReset (s : State) : State :=
  (s.sv (fun v => { v with cfg := [], mse := false, msix := [], msixMsg := [], aerUnc := 0, aerCor := 0, devSta := 0, hdrLog := 0, firstErr := 0,
                           dstate := if v.dstate = 2 then 2 else 0, ltr := false })).setTol.tolExits

/-- The function takes configuration requests and memory requests: its link is up and it is not in D3cold. -/
def State.svcThere (s : State) : Bool := s.svc.dl && s.svc.dstate != 2

/-- An FLR of the service function (R282). -/
def State.svcFlr (s : State) : State :=
  if s.svcThere && !s.svc.inReset then
    ((((s.svcSilence false).sv (fun v => { v with flr := true })).detourLost).svcRegsReset)
  else s

/-- SVC_FLR (R282). -/
def execSvcFlr (s : State) : R := .next s.svcFlr

/-- SVC_FLR_COMPLETE (R282). -/
def execSvcFlrComplete (s : State) : R := .next (s.sv (fun v => { v with flr := false }))

/-- Bus Master Enable is cleared (R284): as an FLR for requests, no register is reset. -/
def State.bmeClear (s : State) : State := if s.svc.bme then (s.svcSilence false).detourLost else s

/-- Pending MSI-X messages that may go now are sent (R284). -/
def State.msixPending (s : State) : State :=
  if s.svc.bme && s.msixOn then
    forAll (fun v s => if Tab.get v s.svc.msix = 3 then (s.sv (fun x => { x with msix := Tab.set v 1 x.msix })).msixSvc v else s) (Tab.keys s.svc.msix) s
  else s

/-- The function is in D0 with Bus Master Enable on a link that is up: the grace time of R284 ends. -/
def State.svcBack (s : State) : State :=
  let s := if s.svcOpen then s.sv (fun v => { v with downAt := 0 }) else s
  s.detourBack

/-- Bus Master Enable is set (R284). -/
def State.bmeSet (s : State) : State :=
  if s.svcThere && !s.svc.inReset && !s.svc.flr then ((s.sv (fun v => { v with bme := true })).msixPending).svcBack else s

/-- SVC_BME_CLEAR (R284). -/
def execSvcBmeClear (s : State) : R := .next s.bmeClear

/-- SVC_BME_SET (R284). -/
def execSvcBmeSet (s : State) : R := .next s.bmeSet

/-- A conventional reset (R284): as an FLR, but the detour waits 100 ms for the function's return. -/
def State.svcReset (s : State) : State :=
  let s := (s.svcSilence true).svcRegsReset
  s.sv (fun v => { v with inReset := true, flr := false, dl := false, downAt := if v.downAt = 0 then s.now + 1 else v.downAt })

/-- PERST_ASSERT (R284): PERST# (0), a hot reset (1) or DL_Down (2). -/
def execPerstAssert (cause : Fin 3) (s : State) : R :=
  .next (s.svcReset.sv (fun v => { v with perstOff := v.perstOff || cause == 0, perstWait := v.perstWait && cause != 0 }))

/-- REFCLK is stable and the input has been within 30-40 V for 200 ms, so that a deassertion of PERST# is taken (R444). -/
def State.perstReady (s : State) : Bool :=
  s.power.applied && !s.power.refHold && !s.power.refLost && !s.power.inputBad && decide (s.power.appliedAt + msT 200 ≤ s.now)

/-- A deassertion of PERST# is taken (R284, R288): the function returns from D3cold in D0. -/
def State.perstUp (s : State) : State :=
  s.sv (fun v => { v with perstOff := false, perstWait := false, wake := false, dstate := 0, inReset := true })

/-- PERST_DEASSERT (R284, R288, R444): configuration requests are answered Request Retry Status until the function is ready; one that comes
too early is taken at the moment it may be. -/
def execPerstDeassert (s : State) : R :=
  .next (if !s.svc.perstOff then s else if s.perstReady then s.perstUp else s.sv (fun v => { v with perstWait := true }))

/-- SVC_LINK_UP (R273, R277, R284): the link reaches DL_Active and the function is ready. The speed, 2.5 to 32 GT/s, and the width,
×1, ×2 or ×4, on which it trained are free values (log 6). UNVERIFIED. -/
def execSvcLinkUp (s : State) : R :=
  .next (if s.svc.perstOff || s.svc.dstate == 2 then s
    else (s.freeNext.freeNext.sv (fun v => { v with
      dl := true, inReset := false, speed := 1 + s.freeValue % 5, lanes := 2 ^ (s.freeNext.freeValue % 3) })).svcBack)

/-- SVC_LINK_DOWN_GRACE_EXPIRY (R284): 100 ms without the function back in D0 with Bus Master Enable. -/
def execSvcLinkDownGraceExpiry (s : State) : R :=
  .next (if s.svc.downAt ≠ 0 ∧ s.svc.downAt + msT 100 ≤ s.now + 1 then
      (s.sv (fun v => { v with downAt := 0, egress := v.egress.filter (fun r => r.who != 2) })).detourLost
    else s)

/-! D-states (R287, R288). -/

/-- SVC_D3HOT_ENTRY (R287). -/
def State.d3hot (s : State) : State :=
  if s.svcThere && s.svc.dstate == 0 && !s.svc.inReset && !s.svc.flr then s.sv (fun v => { v with dstate := 1, d3At := s.now }) else s
def execSvcD3hotEntry (s : State) : R := .next s.d3hot

/-- SVC_D0_ENTRY (R287): the configuration is kept; what waited goes on. -/
def State.d0Entry (s : State) : State :=
  if s.svc.dstate = 1 then ((s.sv (fun v => { v with dstate := 0 })).msixPending).svcBack else s
def execSvcD0Entry (s : State) : R := .next s.d0Entry

/-- SVC_D3COLD_ENTRY (R287): PME_Turn_Off, the link to L2. -/
def execSvcD3coldEntry (s : State) : R :=
  .next (if s.svcThere then
      let s := (s.svcSilence false).sv (fun v => { v with dstate := 2, dl := false })
      s.detourLost
    else s)

/-- Without a loss, the oldest detour read returns poison (R165, R287); a flushing read fails. -/
def State.detourGiveUp (s : State) : State :=
  match s.mem.detReads with
  | [] => s
  | d :: ds =>
    let s := s.modMem (fun m => { m with detReads := ds })
    let s := s.sv (fun v => { v with egress := match v.egress.findIdx? (fun r => r.who == 2 && r.read) with | some i => v.egress.eraseIdx i | none => v.egress })
    if d.flush then s.flushDone d.blk false noEnv
    else s.reply { s.readReq d.port 0 d.dpa with gated := d.gated, since := d.since } none

/-- SVC_D3_WAIT_EXPIRY (R287): the oldest detour read that waits for the link in D3hot has waited svc_d3_wait_ms. -/
def execSvcD3WaitExpiry (s : State) : R :=
  .next (match s.svc.egress.find? (fun r => r.who == 2 && r.read) with
    | some r => if s.svc.dstate = 1 ∧ Nat.max r.since s.svc.d3At + msT (s.par P.svcD3WaitMs) ≤ s.now then s.detourGiveUp else s
    | none => s)

/-- WAKE_CAUSE_SIGNAL (R288): a wake cause that holds: 0 a held completion of a SERVICE-path queue with irq_enable, 1 a detour request
waits, 2 a device event is raised, 3 an MCTP response waits. -/
def execWakeCauseSignal (cause : Fin 4) (s : State) : R :=
  let holds : Bool := match cause.val with
    | 0 => s.queuesOn.any (fun q => s.svcQueue q && !(s.qr q).held.isEmpty && fld (s.par (P.qCfg q)) 43 43 == 1)
    | 1 => s.svc.egress.any (fun r => r.who == 2)
    | 2 => s.par P.svcIrqStatus != 0
    | _ => s.svc.egress.any (fun r => r.who == 4)
  .next (if holds then s.wakeSvc cause else s)

/-! Egress and completions (R276-R281). -/

/-- The attributes of a request (R278): No Snoop on detour and drain traffic, Relaxed Ordering on detour, drain and HOST data writes, each
when Device Control enables it; neither on the drain's trailer, Relaxed Ordering on no read. -/
def State.svcAttr (s : State) (r : SvcReq) : Nat :=
  let ctl := s.svcReg (0x68 / 4)
  (if ctl.testBit 4 && !r.read && (r.who == 1 || r.who == 2 || (r.who == 3 && r.tok == 0)) then 1 else 0) +
    (if ctl.testBit 11 && (r.who == 2 || r.who == 3) then 2 else 0)

/-- A request leaves on the service link: MSI-X messages, posted writes, reads with their tag, MCTP packets. -/
def State.svcIssue (s : State) (r : SvcReq) : State :=
  if r.read then
    match (List.range s.svcTagCount).find? (fun t => (Tab.find? t s.svc.tags).isNone && (Tab.find? t s.svc.quar).isNone) with
    | none => s
    | some t => (s.sv (fun v => { v with tags := Tab.insert t r (Tab.erase t v.tags) })).emit (.hostRead 0 t r.addr r.len r.cls (s.svcAttr r))
  else if r.who = 4 then s.emit (.svcReply 2 0 r.data)
  else if 2 ^ 31 ≤ r.tok then s.emit (.msix none (r.tok - 2 ^ 31) (Tab.get (r.tok - 2 ^ 31) s.svc.msixMsg))
  else s.emit (.hostWrite 0 r.addr r.data r.bad r.cls (s.svcAttr r))

/-- A tag is free (R281). -/
def State.svcTagFree (s : State) : Bool := decide (s.svc.tags.length + s.svc.quar.length < s.svcTagCount)

/-- The oldest waiting request of requester n, if it may go now: a read needs a tag, and a completion or a message passes no write of
data queued before it (R232, R278). -/
def State.svcHead (s : State) (n : Nat) : Option SvcReq :=
  match s.svc.egress.find? (fun r => r.who == n) with
  | some r =>
    if (r.read && !s.svcTagFree) || (n == 0 && (s.svc.egress.takeWhile (fun x => x.who != 0)).any (fun x => !x.read && x.who != 4)) then none
    else some r
  | none => none

/-- The requester of the device arbiter for a request that leaves on the service link (R21): the region of a detour slot's block, the
management cores for the rest. DEDUCED (log 86). -/
def State.svcRegion (s : State) (r : SvcReq) : Nat :=
  if r.who = 2 then (s.home (Tab.get ((r.addr - s.par P.detBase) / 4096) s.mem.slotDir / 2 ^ 32 % 2 ^ 30 * 4096)).getD 4 else 4

/-- SVC_EGRESS_GRANT (R21, R276, R277): the rotating pointer's requester sends its oldest request, which the device arbiter grants. -/
def execSvcEgressGrant (s : State) : R :=
  .next (if !s.svcOpen then s
    else
      match rotPick 5 s.svc.ptr (fun n => (s.svcHead n).isSome) with
      | none => s
      | some n =>
        match s.svc.egress.findIdx? (fun r => r.who == n), s.svcHead n with
        | some i, some r => ((s.devGrant (s.svcRegion r)).sv (fun v => { v with egress := v.egress.eraseIdx i, ptr := (n + 1) % 5 })).svcIssue r
        | _, _ => s)

/-- SVC_COMPLETION_ARRIVAL (R280, R281): the tag is free again; its requester takes what arrived with its own event. A completion of a
quarantined tag is discarded, counted and logged; so is one whose ECRC does not match while the device checks it (R273, R285). -/
def execSvcCompletionArrival (tag : Nat) (defect : CplDefect) (s : State) : R :=
  .next (if defect.badEcrc && (s.svcReg (0x118 / 4)).testBit 8 then s.aerUncorr 19 false
    else if (Tab.find? tag s.svc.tags).isSome then
      let s := s.sv (fun v => { v with tags := Tab.erase tag v.tags })
      if defect.poisoned then s.aerUncorr 12 true else s
    else if (Tab.find? tag s.svc.quar).isSome then (s.count P.svcLateCpl 1).aerUncorr 16 true
    else s.aerUncorr 16 true)

/-- SVC_COMPLETION_TIMEOUT (R279-R281): the tag is quarantined, the timeout logged; its requester takes the failure with its own event. -/
def execSvcCompletionTimeout (tag : Nat) (s : State) : R :=
  .next (if (Tab.find? tag s.svc.tags).isSome then (s.quarTag tag s.svcTimeout).aerUncorr 14 false else s)

/-- TAG_QUARANTINE_EXPIRY (R281). -/
def execTagQuarantineExpiry (tag : Nat) (s : State) : R :=
  .next (match Tab.find? tag s.svc.quar with
    | some t => if t ≤ s.now + 1 then (s.sv (fun v => { v with quar := Tab.erase tag v.quar })).syncTags else s
    | none => s)

/-! Configuration requests (R272, R284). -/

/-- A write of a configuration dword. -/
def State.svcCfgWrite (s : State) (i v : Nat) : State :=
  if i = 0x104 / 4 then s.sv (fun x => { x with aerUnc := x.aerUnc &&& (2 ^ 32 - 1 - v) })
  else if i = 0x110 / 4 then s.sv (fun x => { x with aerCor := x.aerCor &&& (2 ^ 32 - 1 - v) })
  else
    let new := (v &&& svcMask i) ||| (svcDefault i &&& (2 ^ 32 - 1 - svcMask i))
    let s := s.sv (fun x => { x with cfg := Tab.set i (new ^^^ svcDefault i) x.cfg })
    if i = 1 then
      let s := s.sv (fun x => { x with mse := v.testBit 1 })
      if v.testBit 2 && !s.svc.bme then s.bmeSet else if !v.testBit 2 && s.svc.bme then s.bmeClear else s
    else if i = 0x44 / 4 then
      let s := if v.testBit 15 then s.sv (fun x => { x with pme := false }) else s
      if v % 4 = 3 then s.d3hot else if v % 4 = 0 then s.d0Entry else s
    else if i = 0x50 / 4 then s.msixPending
    else if i = 0x68 / 4 then
      let s := s.sv (fun x => { x with devSta := x.devSta &&& (15 - fld v 19 16) })
      if v.testBit 15 then s.svcFlr else s
    else if i = 0x1F4 / 4 then s.setTol.tolExits
    else s

/-- SVC_CONFIG_REQUEST (R272, R284): dword `offset`; Request Retry Status (2) while the function resets. -/
def execSvcConfigRequest (write : Bool) (offset : Fin 1024) (value : Nat) (s : State) : R :=
  .next (if s.svc.dstate == 2 || s.svc.perstOff then s
    else if s.svc.inReset || s.svc.flr then s.emit (.svcReply 0 2 [])
    else if write then (s.svcCfgWrite offset (value % 2 ^ 32)).emit (.svcReply 0 0 [])
    else s.emit (.svcReply 0 0 (leBytes 4 (s.svcCfgRead offset))))

/-! BAR0 reads (R274, R275, R284, R413). -/

/-- What a BAR0 read of a slot returns: nothing but the entries of R413 while the dictionary does not exist. -/
def State.barSlot (s : State) (k : Nat) : Nat :=
  let i := k / 256
  if s.boot.recovery then (if i = 0x1000 ∨ i = 0x1010 ∨ i = 0x1020 then s.readPar k else 0)
  else if s.warmShut then (if i = 0x2000 ∧ 1 ≤ k % 256 ∧ k % 256 ≤ 0x0F then s.readPar k else 0)
  else if s.dictOn then s.readPar k
  else if k = P.devState then s.par k
  else 0

/-- What a read changes: mc_refresh_owed_max is cleared (R321). -/
def State.readClears (s : State) (k : Nat) : State :=
  if 0x7010 * 256 ≤ k ∧ k < 0x7020 * 256 ∧ k % 256 = P.mcRefreshOwedMax 0 % 256 then s.setPar k 0 else s

/-- BAR0_READ (R275): `size` bytes at a byte offset. -/
def execBar0Read (offset : Fin 134217728) (size : Nat) (s : State) : R :=
  let k := offset.val / 8
  .next (if !s.barOn || (size != 4 && size != 8) || offset.val % size != 0 then (s.aerUncorr 20 true).emit (.svcReply 1 1 [])
    else (s.emit (.svcReply 1 0 (cut (offset.val % 8) size (leBytes 8 (s.barSlot k))))).readClears k)

/-! LTR and ASPM (R289, R290). -/

/-- A latency register of the LTR capability in ns: value and scale. -/
def ltrNs (r : Nat) : Nat := fld r 9 0 * 32 ^ fld r 12 10

/-- The conditions of R290 under which the device states a latency. -/
def State.ltrNeeds (s : State) : Bool :=
  s.par P.detUsed != 0 || s.jobs.any (fun p => p.2.freeze.drain.cmd != 0) ||
  s.queuesOn.any (fun q => s.svcQueue q && s.qMode q == 1)

/-- LTR_SEND (R290): at each change; the snoop latency above the no-snoop latency, 2^32 ns apart, with both Requirement bits at 2^64;
0: both bits clear. -/
def execLtrSend (s : State) : R :=
  .next (if !(s.svcReg (0x88 / 4)).testBit 10 || !s.svcThere || s.svc.inReset || s.ltrNeeds == s.svc.ltr then s
    else
      let r := s.svcReg (0x1F4 / 4)
      let v := s.par P.svcLtrNs
      let on := s.ltrNeeds
      (s.sv (fun x => { x with ltr := on })).emit (.svcMsg 1
        (if on then 2 ^ 64 + Nat.min v (ltrNs (fld r 15 0)) * 2 ^ 32 + Nat.min v (ltrNs (fld r 31 16)) else 0)))

/-- ASPM_SUPPORT_WRITE (R289): the registers show it at once. -/
def execAspmSupportWrite (value : Nat) (s : State) : R :=
  .next (s.barWrite P.svcAspmSupport value (fun s => s.setPar P.svcAspmSupport value))

end Sys2Proof.Machine
end

