-- ==== Sys2Proof/Machine/Integ.lean ====
section
/-! DEFINITION. Flagged checks and their repeats, dice rounds and their outcomes (R343-R359). -/
namespace Sys2Proof.Machine

/-! Classes of an outcome (R347, R362). -/
def clTransientCheck : Nat := 1
def clTransient : Nat := 2
def clPermanent : Nat := 3
def clChecker : Nat := 4
def clPartner : Nat := 5
def clUnresolved : Nat := 6

/-- The outcome of repeats A2 on the block, B on its partner and, where the first table does not decide, C on a third block (R347). -/
def repeatClass (a1 : Nat) (a2 b c : Run) : Nat :=
  if a2.value = a1 ∧ b.value = a1 ∧ a2.clean = true ∧ b.clean = true then clTransientCheck
  else if a2.value = a1 ∧ b.value = a1 ∧ a2.clean = false ∧ b.clean = true then clChecker
  else if a2.value = b.value ∧ a2.value ≠ a1 ∧ a2.clean = true ∧ b.clean = true then clTransient
  else if c.value = b.value ∧ c.clean = true ∧ b.clean = true then clPermanent
  else if c.value = a2.value ∧ c.value ≠ b.value ∧ c.clean = true ∧ a2.clean = true then clPartner
  else clUnresolved

/-- The first table of R347 does not decide: a third run is made. -/
def needsThird (a1 : Nat) (a2 b : Run) : Bool := repeatClass a1 a2 b { value := b.value + 1, clean := false } == clUnresolved

/-- A block counts a TRANSIENT (R347, R357): three within 10 minutes make it OBSERVED. -/
def State.transient (s : State) (cb : Nat) : State :=
  let s := s.count (P.blkTransient (cb / 16) (cb % 16)) 1
  let l := s.now :: recent s.now (msT 600000) (s.blk cb).transients
  let s := s.modBlk cb (fun b => { b with transients := l, clear := 0 })
  if 3 ≤ l.length then s.observe cb else s

/-- The effect of an outcome on the units (R347). -/
def State.classEffect (s : State) (cls cb : Nat) : State :=
  let k := P.blkCheckerWrong (cb / 16) (cb % 16)
  if cls = clTransientCheck then s.count (P.blkTransient (cb / 16) (cb % 16)) 1
  else if cls = clTransient then s.transient cb
  else if cls = clChecker then (s.count k 1).observe cb
  else if cls = clPermanent then s.permanent cb
  else if cls = clPartner then s.permanent (s.partnerBlk cb 2)
  else (s.count P.integUnresolved 1).observe cb

/-- The context a record names for the work it concerns (R362). -/
def State.workCtx (s : State) : Work → List (Nat × Nat)
  | .step j t =>
    let h := match (s.job j).steps with | x :: _ => x.cmd | [] => 0
    [(0, j), (1, s.par (P.jobCommitted j) + 1), (3, h / 65536), (4, s.qHid (h / 65536)), (6, t)]
  | .factor d t => [(2, d), (6, t)]
  | .recon b => [(2, match s.winAt (b * 4096) with | some w => s.par (P.winDescriptor w) | none => 0), (5, b * 4096)]
  | .reduce _ => []

/-- The action a record of an outcome names (R362). -/
def classAction (cls : Nat) (retired : Bool) : Work → Nat
  | .step _ _ => if cls = clUnresolved then 7 else if retired then 3 else 2
  | _ => if cls = clUnresolved then 1 else if retired then 3 else 2

/-- The failed work of an UNRESOLVED outcome (R348). -/
def State.workFails (s : State) : Work → State
  | .step j t =>
    let s := (s.record { kind := 10, unit := unitOf 0 0, cls := clUnresolved, ctx := s.workCtx (.step j t), flags := 0, action := 7,
                         detail := [(0, cborUint t), (1, cborUint 3)] }).count P.optStepFaults 1
    s.jobDamage j 1 stStepFault none
  | .factor d _ =>
    let x := Tab.get d s.fac.runs
    if x.on then s.factorEnd d 0x0B else s
  | .recon b =>
    let hit := fun (p : PipeRead) => p.blk == b
    let rs := ((s.fac.pipes.map Prod.snd).flatten).filter hit
    let s := s.modFac (fun f => { f with pipes := (f.pipes.map (fun p => (p.1, p.2.filter (fun x => !hit x)))).filter (fun p => !p.2.isEmpty) })
    forAll (fun (p : PipeRead) s => s.reply p.req none) rs s
  | .reduce n => s.redFault n 0x32

/-- A check flags a result (R343-R347): counted; the result is discarded and repeated, but for a check during a dice round (R355) and
with integ_checks 0 (R346). -/
def State.checkFlag (s : State) (f : FlagRec) : State :=
  let s := if f.check = 6 then (s.count P.integFlags 1).count P.arAccCheckFail 1 else s.count P.integFlags 1
  if s.par P.integChecks = 0 || s.integ.dice.any (fun p => p.2.blk == f.blk || p.2.partner == f.blk) then s
  else s.modInteg (fun i => { i with flags := i.flags ++ [f] })

/-- The work is under way. -/
def State.workOn (s : State) : Work → Bool
  | .step j _ => (s.job j).steps.any (fun x => !x.done)
  | .factor d _ => (Tab.get d s.fac.runs).on
  | .recon b => s.fac.pipes.any (fun p => p.2.any (fun x => x.blk == b))
  | .reduce n => s.redOpen n

/-- The residue of a 48-bit accumulator (R343): its two's-complement pattern folded in 7-bit chunks, less 64 if bit 47 is set. -/
def residue48 (acc : Nat) : Nat := (acc % 2 ^ 48 + 127 - (if acc.testBit 47 then 64 else 0)) % 127

/-- The residue that a check finds: check 1 folds the accumulator, checks 2 and 7 have one of their own (R343, R344). -/
def foundResidue (check found : Nat) : Nat := if check = 1 then residue48 found else found % 127

/-- The check flags (R343-R345): a residue that differs from the predicted one; parity and the duplicated logic report no values. -/
def flags (check predicted found : Nat) : Bool :=
  if check = 1 ∨ check = 2 ∨ check = 7 then predicted % 127 != foundResidue check found else true

/-- CHECK_FLAG (R343-R347): on compute block `block` of `region`, check 1-7 of R363; `found` is the accumulator for check 1, else the
residue found. -/
def execCheckFlag (region : Fin 4) (block : Fin 9) (check : Fin 8) (work : Work) (result predicted found : Nat) (s : State) : R :=
  let step := match work with | .step _ _ => true | _ => false
  .next (if flags check predicted found && decide (s.blkSt (region * 16 + block) ≤ 2) && (s.workOn work || s.integ.dice.any (fun p => p.2.blk == region.val * 16 + block.val)) then
      s.checkFlag { blk := region * 16 + block, check := check, work := work, a1 := result, predicted := predicted,
                    found := foundResidue check found, ran := !step }
    else s)

/-- REPEAT_DECIDE (R347, R348): flag number `flag`, oldest 0, with the runs A2, B and C. -/
def State.repeatDecide (s : State) (flag : Nat) (a2 b c : Run) : State :=
  match s.integ.flags[flag]? with
  | none => s
  | some f =>
    if !f.ran then s
    else
      let cls := repeatClass f.a1 a2 b c
      let third := needsThird f.a1 a2 b
      let partner := s.partnerBlk f.blk 2
      let other := s.partnerBlk f.blk 3
      let ctx := s.workCtx f.work
      let lossy := match f.work with
        | .recon x => (match s.winAt (x * 4096) with | some w => if s.lossyOf (s.par (P.winDescriptor w)) then 8 else 0 | none => 0)
        | _ => 0
      let s := s.modInteg (fun i => { i with flags := i.flags.eraseIdx flag })
      let bad := if cls = clPartner then partner else f.blk
      let s := s.classEffect cls f.blk
      let s := if cls = clTransientCheck ∨ cls = clTransient then s
        else s.record { kind := 1, unit := unitBlk bad, cls := cls, ctx := ctx, flags := lossy, action := classAction cls (s.blkSt bad == 3) f.work,
                        detail := [(0, cborUint f.check), (1, cborUint (unitBlk partner))] ++
                          (if third then [(2, cborUint (unitBlk other))] else []) ++ [(3, cborUint f.predicted), (4, cborUint f.found)] }
      if cls = clUnresolved then s.workFails f.work else s
def execRepeatDecide (flag : Nat) (a2 b c : Run) (s : State) : R := .next (s.repeatDecide flag a2 b c)

/-! TEST_ROUND (R355, R356). -/

/-- A block can run a round. -/
def State.roundOk (s : State) (cb : Nat) : Bool := decide (cb / 16 < 4) && decide (cb % 16 < 9) && decide (s.blkSt cb ≤ 2)

/-- TEST_ROUND (R231, R353, R355): the named block's round is due now. -/
def State.testRound (s : State) (h : Nat) (c : Cmd) : State :=
  let cb := fld (c.d 1) 7 0
  let p := fld (c.d 1) 15 8
  if 64 ≤ cb ∨ 9 ≤ cb % 16 ∨ (p ≠ 0xFF ∧ (64 ≤ p ∨ 9 ≤ p % 16)) then s.fail h 0x02
  else if !s.roundOk cb || (p != 0xFF && (!s.roundOk p || p / 16 == cb / 16)) then s.fail h 0x44
  else if (s.blk cb).cmd ≠ 0 ∨ s.integ.dice.any (fun x => x.2.blk == cb && x.2.cmd != 0) then s.fail h 0x07
  else
    let s := (s.accept h).modBlk cb (fun b => { b with
      due := true, dueAt := s.now, seed := c.d 2, cmd := h + 1, partner := if p = 0xFF then 0 else p + 1 })
    s.diceTry (cb / 16) s.blkIdle
def execTestRound (queue : Fin 32768) (idx : Fin 65536) (s : State) : R := .next (s.runCmd queue idx 0x29 0 (fun h c s => s.testRound h c))

/-! The end of a round (R356-R359). -/

/-- A block passes a round: a clean round more; an OBSERVED block returns to ACTIVE after integ_obs_clear of them (R357). -/
def State.roundPass (s : State) (cb : Nat) : State :=
  let k := P.blkCleanRounds (cb / 16) (cb % 16)
  let s := s.setPar k (Nat.min 255 (s.par k + 1))
  let s := s.modBlk cb (fun b => { b with clear := if s.blkSt cb = 1 then Nat.min 255 (b.clear + 1) else 0 })
  if s.blkSt cb = 1 && decide (s.par P.integObsClear ≤ (s.blk cb).clear) then
    (s.setPar (P.blkState (cb / 16) (cb % 16)) 0).modBlk cb (fun b => { b with clear := 0 })
  else s

/-- A block fails a round: PERMANENT when its repeat reproduces its signature, TRANSIENT when not (R356). -/
def State.roundFail (s : State) (cb : Nat) (again : Bool) : State :=
  let s := s.setPar (P.blkCleanRounds (cb / 16) (cb % 16)) 0
  if again then s.permanent cb else s.transient cb

/-- The spare of region q that was tried in place of a retired block becomes ACTIVE, or the region runs with one block fewer
(R358). -/
def State.spareDecide (s : State) (q : Nat) (pass : Bool) : State :=
  let cb := q * 16 + 8
  let old := (s.blk cb).promote
  if old = 0 then s
  else
    let s := s.modBlk cb (fun b => { b with promote := 0 })
    if pass && s.blkSt cb == 2 then
      ((s.setPar (P.blkState q 8) 0).setActive.retiredRecord (old - 1) (unitBlk cb)).dispatchAll
    else s.retiredRecord (old - 1) 0xFFFF

/-- DICE_ROUND_COMPLETE (R356): the signatures of the block and its partner and, where they differ, of the third block and of the repeat
on the block found at fault; `lanes`, its codec lanes whose phase failed (R359). -/
def State.diceEnd (s : State) (q own partner third again : Nat) (lanes : List Nat) : State :=
  match Tab.find? q s.integ.dice with
  | none => s
  | some r =>
    let x := r.blk
    let p := r.partner
    let t := s.partnerBlk x 3
    let s := (s.modInteg (fun i => { i with dice := Tab.erase q i.dice })).count P.integDiceRounds 1
    let rec_ := fun (s : State) (unit cls act : Nat) (rep : Bool) =>
      s.record { kind := 2, unit := unitBlk unit, cls := cls, ctx := [], flags := 0, action := act,
                 detail := [(0, cborUint r.seed), (1, cborUint (unitBlk p)), (2, cborUint own), (3, cborUint partner),
                            (4, cborUint (unitBlk t)), (5, cborUint third), (6, cborUint (if rep then 1 else 0))] }
    let s :=
      if own = partner then
        (((s.roundPass x).roundPass p).modBlk p (fun b => { b with last := r.start, commits := (s.blk x).commits })).spareDecide q (x % 16 == 8)
      else if third = own ∨ third = partner then
        let bad := if third = partner then x else p
        let good := if third = partner then p else x
        let rep := again == (if third = partner then own else partner)
        let s := ((s.count P.integDiceFail 1).roundPass good).roundFail bad rep
        let s := forAll (fun l s => if l < 9 then s.replaceLane bad l else s) lanes s
        let s := rec_ s bad (if rep then clPermanent else clTransient) (if !rep then 0 else if s.blkSt bad = 3 then 3 else 2) rep
        s.spareDecide q (x % 16 == 8 && good == x)
      else
        let s := ((s.count P.integDiceFail 1).count P.integUnresolved 1)
        let s := forAll (fun b s => (s.setPar (P.blkCleanRounds (b / 16) (b % 16)) 0).observe b) [x, p, t] s
        (rec_ s x clUnresolved 2 (again == own)).spareDecide q false
    let s := if r.cmd = 0 then s else s.finish (r.cmd - 1) (if own = partner then 0 else 0x45) own 0
    forAll (fun q s => s.diceTry q s.blkIdle) [0, 1, 2, 3] s
def execDiceRoundComplete (region : Fin 4) (own partner third again : Nat) (lanes : List Nat) (s : State) : R :=
  .next (s.diceEnd region (own % 2 ^ 64) (partner % 2 ^ 64) (third % 2 ^ 64) (again % 2 ^ 64) lanes)

end Sys2Proof.Machine
end

