-- ==== Sys2Proof/Machine/Recov.lean ====
section
/-! DEFINITION. Hangs, engine resets, suspect searches, region resets and SAFE (R366-R379). -/
namespace Sys2Proof.Machine

/-! Units (R362, R371). -/

/-- The unit field of an engine: kind 0 compute block (region * 16 + block), 1 stack controller (stack), 2 port block, 3 region hub. -/
def engUnit (kind idx : Nat) : Nat :=
  match kind with
  | 0 => unitBlk idx
  | 1 => unitOf 7 (idx / 4 * 16 + idx % 4)
  | 2 => unitOf 5 (2 * idx)
  | _ => unitOf 1 idx

/-- The engine exists and has not failed. -/
def State.engLive (s : State) (kind idx : Nat) : Bool :=
  match kind with
  | 0 => decide (idx / 16 < 4) && decide (idx % 16 < 9) && decide (s.blkSt idx ≤ 2)
  | 1 => decide (idx < 16) && s.par (P.stackHealth idx) != 2
  | 2 => decide (idx < 16) && !Tab.get idx s.recov.failed
  | _ => decide (idx < 4)

/-- The engine holds work on which its watchdog can expire (R374). A dice round's time does not count (R355). -/
def State.engBusy (s : State) (kind idx : Nat) : Bool :=
  match kind with
  | 0 => !s.blkAway idx && !s.blkIdle idx
  | 1 => s.par (P.mcSrState idx) == srActive && s.par (P.mcCond idx) != 3
  | 2 => s.linkUp (2 * idx) || s.linkUp (2 * idx + 1)
  | _ => s.regionAwake idx

/-- Engine and region resets run in STANDBY and SERVICE, outside a warm device reset (R373). -/
def State.recovRuns (s : State) : Bool := (s.dev == dsStandby || s.dev == dsService) && !s.warm && s.recov.safeDue == 0

/-- Outcome of a hang record. -/
def State.hangOutcome (s : State) (e : EngReset) (v : Nat) : State := s.hangByte e.hang 0x0B v

/-- A region reset of q falls due, caused by failure-signature record `sig` (R371, R372). -/
def State.regionFalls (s : State) (q sig : Nat) : State :=
  if Tab.get q s.recov.regionDue || (Tab.find? q s.recov.region).isSome then s
  else s.modRecov (fun r => { r with regionDue := Tab.set q true r.regionDue, regSig := Tab.set q sig r.regSig })

/-- A hang or an engine fault of an engine (R371-R375): the reset starts, or what a fourth one in 10 minutes brings. -/
def State.engFault (s : State) (kind idx trigger waiting : Nat) : State :=
  let unit := engUnit kind idx
  if !s.recovRuns || !s.engLive kind idx || (Tab.find? unit s.recov.eng).isSome || (Tab.find? (unitRegion unit) s.recov.region).isSome then s
  else
    let n := s.engCount unit
    if kind = 3 ∧ 4 ≤ n then
      let s := (s.hangSave unit trigger n waiting)
      (s.hangByte (s.par P.hangSeq) 0x0B hgEscalated).regionFalls idx (s.par P.integSigSeq)
    else
      let s := s.engStart unit trigger waiting
      match kind with
      | 1 => if 4 ≤ n then s.modStack idx (fun r => { r with dying := true }) else s
      | 2 => s.resetPort idx (decide (4 ≤ n))
      | _ => s

/-- BLOCK_WATCHDOG_EXPIRY (R374, R375): no progress for 10 ms; `waiting`, the requests that wait there. -/
def execBlockWatchdogExpiry (kind : Fin 4) (index : Fin 64) (waiting : Nat) (s : State) : R :=
  .next (if s.engBusy kind index then s.engFault kind index 1 waiting else s)

/-- ENGINE_FAULT (R116, R327, R375). -/
def execEngineFault (kind : Fin 4) (index : Fin 64) (waiting : Nat) (s : State) : R := .next (s.engFault kind index 2 waiting)

/-! The end of an engine reset (R375-R377). -/

/-- A RESET record (R363): domain 1 engine, 2 region, 3 warm device, the causing record's kind, the start. -/
def State.resetRecord (s : State) (unit domain cause start : Nat) : State :=
  s.record { kind := 12, unit := unit, cls := 0, ctx := [], flags := 0, action := 0,
             detail := [(0, cborUint domain), (1, cborUint cause), (2, cborUint ((s.now - start) / 25))] }

/-- The checker queue of block cb is stored FLAT, as for a full queue (R90, R377). -/
def State.flatChecks (s : State) (cb : Nat) : State :=
  forAll (fun (p : Nat × PackJob) s =>
    let j := p.2
    let s := (s.modMem (fun m => { m with packJobs := Tab.erase p.1 m.packJobs })).count P.bicelCheckerBusy 1
    let b := p.1 % 2 ^ 30
    s.settle (s.viewOfKey p.1) j.win b (s.unpacked j.win b j.orig) j.orig [] j.src)
    (s.mem.packJobs.filter (fun p => p.2.lane / 16 == cb)) s

/-- The steps' work tiles of a block that an engine reset stopped are replayed on another block, where one has room (R185). -/
def State.replaySteps (s : State) (cb : Nat) : State :=
  forAll (fun i s =>
    let c := s.ctxAt (ctxKey cb i)
    if c.kind ≠ 1 ∨ c.opcode ≠ 0x10 then s
    else
      let s := s.countReplay c
      match ((s.workBlocks (s.stepRegions c.cmd)).filter (· ≠ cb)).findSome? (fun x => (s.freeCtx x).map (fun i => ctxKey x i)) with
      | some k => (s.setCtx (ctxKey cb i) default).setCtx k c
      | none => s) (List.range 14) s

/-- Block cb takes work again. -/
def State.blkBack (s : State) (cb : Nat) : State :=
  let s := s.modRecov (fun r => { r with eng := Tab.erase (unitBlk cb) r.eng })
  (s.dispatchAll.retryPipes).diceTry (cb / 16) s.blkIdle

/-- A search without a guilty context (R377). -/
def State.searchEnds (s : State) (cb : Nat) (e : EngReset) : State :=
  ((s.hangOutcome e hgUnattributed).count P.hangUnattributed 1).blkBack cb

/-- The replay block of a search in region q: the next active block by the rotating pointer that is not away (R18, R377). -/
def State.replayBlock (s : State) (cb : Nat) : Option Nat :=
  let q := cb / 16
  rotPick 9 (Tab.get q s.recov.ptr) (fun c => (s.activeBlocks q).contains c && q * 16 + c != cb && !s.blkAway (q * 16 + c))

/-- The reset of a compute block completes (R372, R375, R377). -/
def State.blkReset (s : State) (cb : Nat) (e : EngReset) : State :=
  let n := ((Tab.get (unitBlk cb) s.recov.engTimes).filter (fun t => decide (e.start ≤ t + msT 600000))).length
  let s := if e.trigger = 1 then s.flatChecks cb else s
  if 4 ≤ n then ((s.hangOutcome e hgRetired).modRecov (fun r => { r with eng := Tab.erase (unitBlk cb) r.eng })).retireBlock cb
  else if e.trigger = 2 then ((s.hangOutcome e hgResumed).replaySteps cb).blkBack cb
  else if e.suspects.isEmpty then s.searchEnds cb e
  else
    match s.replayBlock cb with
    | none => s.searchEnds cb e
    | some c => s.modRecov (fun r => { r with
        ptr := Tab.set (cb / 16) ((c + 1) % 9) r.ptr
        eng := Tab.insert (unitBlk cb) { e with searching := true, replay := cb / 16 * 16 + c } (Tab.erase (unitBlk cb) r.eng) })

/-- A stack controller's reset completes: unconfirmed commands are reissued, every bank is refreshed (R375). -/
def State.stackReset (s : State) (k : Nat) (ph : Phys) : State := (s.modStack k closeBanks).retryHub ph

/-- A region hub's reset completes: its pointer is 0 (R375). -/
def State.hubReset (s : State) (q : Nat) (ph : Phys) : State :=
  ({ s with arb := Tab.set q 0 s.arb } : State).retryHub ph

/-- An engine reset completes (R375). -/
def State.engDone (s : State) (kind idx : Nat) (ph : Phys) : State :=
  let unit := engUnit kind idx
  match Tab.find? unit s.recov.eng with
  | none => s
  | some e =>
    if e.searching then s
    else
      let s := s.resetRecord unit 1 11 e.start
      if kind = 0 then s.blkReset idx e
      else
        let s := (s.hangOutcome e hgResumed).modRecov (fun r => { r with eng := Tab.erase unit r.eng })
        match kind with
        | 1 => s.stackReset idx ph
        | 2 => s
        | _ => s.hubReset idx ph

/-- ENGINE_RESET_COMPLETE (R375). -/
def execEngineResetComplete (kind : Fin 4) (index : Fin 64) (ph : Phys) (s : State) : R := .next (s.engDone kind index ph).armsGo

/-- ENGINE_RESET_OVERRUN (R372): not complete 1 ms after its start; its region is reset. -/
def execEngineResetOverrun (kind : Fin 4) (index : Fin 64) (s : State) : R :=
  let unit := engUnit kind index
  .next (match Tab.find? unit s.recov.eng with
    | none => s
    | some e => if e.searching || decide (s.now < e.start + msT 1) then s
      else (s.hangOutcome e hgEscalated).regionFalls (unitRegion unit) e.sig)

/-! The suspect search (R377, R378). -/

/-- A guilty command (R378): it completes ENGINE_FAULT, its queue halts, its job is DAMAGED; tiles already switched stay. -/
def State.guiltyCmd (s : State) (c : Ctx) : State :=
  let s := if c.opcode = 0x10 then (s.fail c.cmd 0x0B).jobDamage c.object 7 stStepFault none else (s.factorEnd c.object 0x0B).fail c.cmd 0x0B
  (s.clearCtxs c.cmd).haltQueue (c.cmd / 65536) 0x13

/-- A guilty reconstruction (R378): its tile enters the hung-tile list, its waiting reads return poison. -/
def State.guiltyTile (s : State) (cb : Nat) : State :=
  match Tab.get cb s.fac.pipes with
  | [] => s
  | p :: _ =>
    match s.winAt (p.blk * 4096) with
    | none => s.reconHead cb noEnv
    | some w =>
      let d := s.par (P.winDescriptor w)
      let b0 := s.par (P.winBase w) / 4096
      let tile := (p.blk - b0) / (s.desc d).wOut
      let mine := fun (x : PipeRead) => s.winHas w x.dpa && (x.blk - b0) / (s.desc d).wOut == tile
      let rs := ((s.fac.pipes.map Prod.snd).flatten).filter mine
      let l := ((d * 2 ^ 28 + tile) :: s.recov.hung.filter (· ≠ d * 2 ^ 28 + tile)).take 256
      let s := (s.modRecov (fun r => { r with hung := l })).setPar P.hungTiles l.length
      let s := s.modFac (fun f => { f with pipes := (f.pipes.map (fun (q : Nat × List PipeRead) =>
        (q.1, q.2.filter (fun x => !mine x)))).filter (fun q => !q.2.isEmpty) })
      forAll (fun (x : PipeRead) s => (s.factorFail w d tile fHungTile x.blk (some x.port) x.hid).reply x.req none) rs s

/-- The replay block finishes or hangs on the first suspect's tile (R377). -/
def State.suspectResult (s : State) (cb : Nat) (hung : Bool) (env : Env) : State :=
  match Tab.find? (unitBlk cb) s.recov.eng with
  | none => s
  | some e =>
    match e.searching, e.suspects with
    | true, i :: rest =>
      if hung then
        let s := (((s.hangOutcome e hgGuilty).hangByte e.hang 0x0E i).count P.hangReplayResets 1).dropPad e.replay
        (if i = 14 then s.guiltyTile cb else s.guiltyCmd (s.ctxAt (ctxKey cb i))).blkBack cb
      else
        let s := if i = 14 then s.reconHead cb env else (s.countReplay (s.ctxAt (ctxKey cb i))).tileRetire (ctxKey cb i)
        if rest.isEmpty then s.searchEnds cb e
        else s.modRecov (fun r => { r with eng := Tab.insert (unitBlk cb) { e with suspects := rest } (Tab.erase (unitBlk cb) r.eng) })
    | _, _ => s

/-- SUSPECT_TILE_RESULT (R377, R378): of the search for compute block `block` of `region`. -/
def execSuspectTileResult (region : Fin 4) (block : Fin 9) (hung : Bool) (env : Env) (s : State) : R :=
  .next (s.suspectResult (region * 16 + block) hung env).armsGo

/-! The journal (R370). -/

/-- Insert a line after every one accepted no later. -/
def insertLine (t : Nat) (l : JLine) : List (Nat × JLine) → List (Nat × JLine)
  | [] => [(t, l)]
  | (u, x) :: r => if t < u then (t, l) :: (u, x) :: r else (u, x) :: insertLine t l r

/-- A line as journaled: enciphered where its partition encrypts. -/
def State.jline (s : State) (key i mask : Nat) (d : List Byte) (bad : Bool) (hid win port : Nat) : JLine :=
  let dpa := key % 2 ^ 30 * 4096 + 64 * i
  let slot := s.encSlot (key % 2 ^ 30)
  { dpa := dpa, hid := hid, slot := match slot with | some k => k + 1 | none => 0
    data := match slot with | some k => xtsEnc (s.keyOf k) (journalTweak dpa) (padTo 64 d) | none => padTo 64 d
    mask := mask, owner := key / 2 ^ 30, bad := bad, win := win, port := port }

/-- The accepted lines of region q that are not yet in HBM, in the order of acceptance. DEDUCED: by their buffer's first line (log 29). -/
def State.unstored (s : State) (q : Nat) : List JLine :=
  let isIn := fun (key : Nat) => s.home (key % 2 ^ 30 * 4096) == some q
  let packed := (s.mem.packJobs.filter (fun p => isIn p.1)).flatMap (fun p =>
    (List.range 64).map (fun i => s.jline p.1 i 0 (cut (64 * i) 64 p.2.orig) false p.2.hid p.2.win p.2.port))
  let open_ := (s.mem.gather.filter (fun p => isIn p.1)).flatMap (fun p => p.2.lines.map (fun (l : Nat × List Byte) =>
    (p.2.first, s.jline p.1 l.1 (Tab.get l.1 p.2.masks) l.2 (p.2.bad.contains l.1) p.2.hid p.2.win p.2.port)))
  packed ++ ((open_.foldl (fun acc x => insertLine x.1 x.2 acc) []).map Prod.snd)

/-- Region q's accepted lines go to the journal. -/
def State.journalOut (s : State) (q : Nat) : State :=
  let ls := s.unstored q
  let out := fun (key : Nat) => s.home (key % 2 ^ 30 * 4096) != some q
  let s := forAll (fun k s => if out k then s else s.dropFlush k) (Tab.keys s.mem.packJobs) s
  let s := s.modMem (fun m => { m with gather := m.gather.filter (fun p => out p.1), packJobs := m.packJobs.filter (fun p => out p.1) })
  if ls.isEmpty then s
  else (s.modRecov (fun r => { r with journal := Tab.set q (Tab.get q r.journal ++ ls) r.journal })).count P.devJournalLines ls.length

/-- One journaled line is written through the path of R33; `lost`, neither copy of it was good. A line of an open version that is
no more goes with it. -/
def State.replayLine (s : State) (l : JLine) (lost : Bool) : State :=
  let b := l.dpa / 4096
  let v := s.viewOfKey (b + 2 ^ 30 * l.owner)
  if s.isBroken v && l.owner != 0 then s
  else if lost then
    let s := (s.gatherLine v l.win l.dpa (2 ^ 64) [] true 512 0xFF).count P.devJournalLost 1
    s.eventAll l.dpa { cause := 3, trans := 0, region := (s.home l.dpa).getD 0, hid := l.hid, dpa := l.dpa + 1 }
  else
    let d := if l.slot = 0 then l.data else xtsDec (s.keyOf (l.slot - 1)) (journalTweak l.dpa) l.data
    s.gatherLine v l.win l.dpa l.mask d l.bad l.port l.hid

/-- Region q's journal is replayed and its lines stored; `lost` lists the DPAs of lines uncorrectable in both copies. -/
def State.journalIn (s : State) (q : Nat) (lost : List Nat) (env : Env) : State :=
  let ls := Tab.get q s.recov.journal
  let keys := distinct (ls.map (fun l => l.dpa / 4096 + 2 ^ 30 * l.owner))
  let s := s.modRecov (fun r => { r with journal := Tab.set q [] r.journal })
  let s := forAll (fun (l : JLine) s => s.replayLine l (lost.contains l.dpa)) ls s
  forAll (fun k s => ((s.settlePack k).resolve k env true).settlePack k) keys s

/-! Reads that will not be served (R369, R379). -/

/-- Every waiting read whose DPA `hit` names returns poison. -/
def State.poisonReads (s : State) (hit : Nat → Bool) : State :=
  let isR := fun (r : HeldReq) => !r.write && hit r.dpa
  let isP := fun (p : PipeRead) => hit p.dpa
  let rs := s.recov.held.filter isR ++ s.shared.waits.filter isR
  let ps := (s.fac.pipes.flatMap Prod.snd ++ s.fac.held ++ s.fac.wpWait.map Prod.snd).filter isP ++
    (s.mem.detReads.filter (fun d => hit d.dpa && !d.flush)).map (fun (d : DetRead) =>
      ({ blk := d.blk, dpa := d.dpa, port := d.port, hid := d.hid, gated := d.gated, since := d.since } : PipeRead))
  let s := { s with
    recov := { s.recov with held := s.recov.held.filter (fun r => !isR r) }
    shared := { s.shared with waits := s.shared.waits.filter (fun r => !isR r) }
    fac := { s.fac with
      held := s.fac.held.filter (fun p => !isP p)
      pipes := (s.fac.pipes.map (fun (p : Nat × List PipeRead) => (p.1, p.2.filter (fun x => !isP x)))).filter (fun p => !p.2.isEmpty)
      wpWait := s.fac.wpWait.filter (fun p => !isP p.2) }
    mem := { s.mem with detReads := s.mem.detReads.filter (fun d => d.flush || !hit d.dpa) } }
  forAll (fun (p : PipeRead) s => s.reply p.req none) ps (forAll (fun r s => s.reply r none) rs s)

/-! Notices of recovery (R383). -/

/-- A job as a recovery notice lists it: number, committed C, state, intact. -/
def State.jobShown (s : State) (j : Nat) : List Byte :=
  let w := s.par (P.jobStatus j)
  cborArr [cborUint j, cborUint (s.par (P.jobCommitted j)), cborUint (fld w 7 0), cborUint (fld w 17 17)]

/-- The notices of one phase: at most 64 jobs each; without keys 8 and 9 where the management cores cannot be asked. -/
def State.recoveryNotices (s : State) (phase domain region cause : Nat) (cores : Bool) (jobs : List Nat) : Nat → State
  | 0 => s
  | n + 1 =>
    let now := jobs.take 64
    let more := jobs.drop 64
    let keys := [(5, cborUint domain)] ++ (if domain = 2 then [(6, cborUint region)] else []) ++ [(7, cborUint cause)] ++
      (if cores then [(8, cborArr (now.map s.jobShown))] ++ (if more.isEmpty then [] else [(9, cborUint more.length)]) else [])
    let s := s.recoveryNotice phase keys cores
    if more.isEmpty then s else s.recoveryNotices phase domain region cause cores more n

/-- The jobs that are not IDLE. -/
def State.busyJobs (s : State) : List Nat := s.jobsOn.filter (fun j => s.jobMode j != 0)

/-! Region reset (R379). -/

/-- Contexts of region q that run a command. -/
def State.ctxsIn (s : State) (q : Nat) : List Ctx := s.recov.ctx.filterMap (fun p => if p.1 / 256 = q ∧ p.2.kind = 1 then some p.2 else none)

/-- Jobs OPEN or PREPARING with work tiles or unflushed shadow data in region q. -/
def State.jobsHit (s : State) (q : Nat) : List Nat :=
  s.jobsOn.filter (fun j =>
    (s.jobMode j == 1 && ((s.ctxsIn q).any (fun c => c.opcode == 0x10 && c.object == j) ||
      s.integ.flags.any (fun f => f.blk / 16 == q && (match f.work with | .step i _ => i == j | _ => false)))) ||
    (s.jobMode j == 2 && ((s.job j).shadow.any (fun p => s.home (p.1 * 4096) == some q) || (s.ctxsIn q).any (fun c => c.opcode == 0x10 && c.object == j))))

/-- Jobs with work or shadow data in region q, which its notices list. -/
def State.jobsIn (s : State) (q : Nat) : List Nat :=
  s.busyJobs.filter (fun j => (s.ctxsIn q).any (fun c => c.opcode == 0x10 && c.object == j) ||
    (s.job j).shadow.any (fun p => s.home (p.1 * 4096) == some q))

/-- Commands that execute on the blocks of region q complete RESET, jobs with work or data in it are DAMAGED. -/
def State.stopRegion (s : State) (q : Nat) : State :=
  let facs := distinct ((s.ctxsIn q).filterMap (fun c => if c.opcode = 0x10 then none else some c.object))
  let js := s.jobsHit q
  let s := forAll (fun j s => s.jobDamage j 5 stReset none) js s
  let s := forAll (fun d s => s.factorEnd d stReset) facs s
  s.modRecov (fun r => { r with ctx := r.ctx.filter (fun p =>
    p.1 / 256 != q && !(p.2.opcode == 0x10 && js.contains p.2.object)) })

/-- Copies of READY T0 waypoints with a block homed where `hit` says are dropped; those waypoints return to STAGING (R120). -/
def State.dropT0Waypoints (s : State) (hit : Nat → Bool) : State :=
  forAll (fun u s =>
    match s.winOfDesc (s.wpDesc u) with
    | none => s
    | some w =>
      let n := (s.desc (s.wpDesc u)).wOut
      let gone := (s.residentOf u).filter (fun i => (List.range n).any (fun x => hit (s.par (P.winBase w) + (i * n + x) * 4096)))
      if gone.isEmpty then s
      else
        let s := forAll (fun i s => s.dropTile u i) gone s
        if s.wpState u = 3 then s.setWp u 2 0 else s) (s.wpsOn.filter (fun u => s.wpTier u == 0)) s

/-- Explicit-T0 lines charged to region q are marked poisoned in SRAM (R326). -/
def State.markT0 (s : State) (q : Nat) : State :=
  forAll (fun w s => forAll (fun i s =>
    let b := s.par (P.winBase w) / 4096 + i
    if s.home (b * 4096) = some q then s.modMem (fun m => { m with t0marks := Tab.writeRun false (b * 64) (List.replicate 64 true) m.t0marks }) else s)
    (List.range (s.par (P.winSize w) / 4096)) s) (s.winsOn.filter (fun w => s.par (P.winKind w) == wT0)) s

/-- An arbiter of region q, of its blocks or of their lanes (R17, R19). -/
def arbIn (q k : Nat) : Bool :=
  k == q || k == 8 + q || decide (64 + 16 * q ≤ k ∧ k < 80 + 16 * q) || decide (1024 + 256 * q ≤ k ∧ k < 1280 + 256 * q)

/-- What staging and the blocks of region q hold beside accepted lines is dropped (R379). -/
def State.dropRegion (s : State) (q : Nat) : State :=
  let mine := fun (b : Nat) => s.home (b * 4096) == some q
  let s := s.modMem (fun m => { m with
    t0cache := m.t0cache.filter (fun p => !mine p.1), mover := m.mover.filter (fun p => !mine p.1), promoQ := Tab.set q [] m.promoQ })
  let s := { s with arb := s.arb.filter (fun p => !arbIn q p.1) }
  let s := s.modFac (fun f => { f with
    recon := f.recon.filter (fun p => p.1 / 16 != q), panels := f.panels.filter (fun p => p.1 / 16 != q)
    credits := f.credits.filter (fun p => p.1 / 64 != q), lines := f.lines.filter (fun p => p.1 / 64 != q) })
  let s := s.modInteg (fun i => { i with flags := i.flags.filter (fun f => f.blk / 16 != q), ptr := Tab.set q 0 i.ptr })
  let s := s.modRecov (fun r => { r with ptr := Tab.set q 0 r.ptr })
  ((s.dropT0Waypoints (fun a => s.home a == some q)).markT0 q)

/-- COHERENT lines in E homed in region q are poisoned with cause RESET (R215); the directory keeps its lines in S. -/
def State.loseRegionLines (s : State) (q : Nat) : State :=
  let lost := (s.dirOf q).filter (fun e => e.excl)
  let s := { s with shared := { s.shared with
    dir := Tab.set q ((s.dirOf q).filter (fun e => !e.excl)) s.shared.dir
    snoops := s.shared.snoops.filter (fun x => !lost.any (fun e => e.line == x.line)) } }
  forAll (fun (e : DirEnt) s =>
    match s.srsOn.find? (fun n => s.srHas n (e.line * 64)) with
    | some n => s.loseLine n e.line (e.holders.headD 0xFF) 2
    | none => s) lost s

/-- Reductions with open tiles in region q fault with RESET (R190). -/
def State.faultReds (s : State) (q : Nat) : State :=
  forAll (fun n s => if (s.red n).tiles.any (fun t => redRegion n t.1 == q) then s.redFault n stReset else s) s.redsOn s

/-- A region dies (R341): its record, SAFE and then OUT_OF_SERVICE. -/
def State.regionDies (s : State) (q : Nat) : State :=
  (s.record { kind := 9, unit := unitOf 1 q, cls := 0, ctx := [], flags := 0, action := 6,
              detail := [(0, cborUint 4), (1, cborUint q)] }).raiseOut 6

/-- Engine resets and rounds of region q are abandoned (R355, R373). -/
def State.abandonIn (s : State) (q : Nat) : State :=
  let es := s.recov.eng.filter (fun p => unitRegion p.1 == q)
  let s := forAll (fun (p : Nat × EngReset) s => s.hangOutcome p.2 hgEscalated) es s
  let s := s.modRecov (fun r => { r with eng := r.eng.filter (fun p => unitRegion p.1 != q), regionDue := Tab.set q false r.regionDue })
  forAll (fun c s => s.diceAbandon (q * 16 + c) true) (List.range 9) s

/-- The links of region q's port blocks. -/
def regionLinks (q : Nat) : List Nat := (List.range 8).map (fun i => 8 * q + i)

/-- A region reset starts (R372, R379): the third within 60 minutes kills the region instead. -/
def State.regionReset (s : State) (q : Nat) : State :=
  let past := recent s.now (msT 3600000) (Tab.get q s.recov.regTimes)
  let sig := if Tab.get q s.recov.regionDue then Tab.get q s.recov.regSig else 0
  if 2 ≤ past.length then (s.abandonIn q).regionDies q
  else
    let listed := s.jobsIn q
    let s := ((s.abandonIn q).count P.devRegionResets 1).modRecov (fun r => { r with
      regTimes := Tab.set q (s.now :: past) r.regTimes, regSig := Tab.set q sig r.regSig
      downJobs := Tab.set q listed r.downJobs })
    let s := (s.resetLinks (regionLinks q)).poisonReads (fun a => s.home a == some q)
    let s := (s.journalOut q).modRecov (fun r => { r with region := Tab.insert q s.now (Tab.erase q r.region) })
    let s := (((s.faultReds q).stopRegion q).dropRegion q).loseRegionLines q
    let s := s.recoveryNotices 1 2 q sig true listed 1025
    let s := forAll (fun k s => s.enterSelf k) (regionStacks q) s
    forAll (fun k s => if s.serving && s.wantsExit k then s.queueWake ⟨17, 2, k⟩ else s) (regionStacks q) (s.queueWake ⟨17, 1, q⟩)

/-- REGION_RESET (R371, R379): one that is due, or with `fatal`, on a fatal error of the region's links or hub. -/
def execRegionReset (region : Fin 4) (fatal : Bool) (s : State) : R :=
  .next (if s.recovRuns && (Tab.get region.val s.recov.regionDue || fatal) && (Tab.find? region.val s.recov.region).isNone then
      s.regionReset region else s)

/-- The stacks of region q that are to serve do. -/
def State.regionStacksUp (s : State) (q : Nat) : Bool :=
  s.dev == dsStandby || (regionStacks q).all (fun k => s.par (P.stackHealth k) == 2 || s.par (P.mcCond k) == 3 || s.par (P.mcSrState k) == srActive)

/-- A region reset ends (R379): the journal is replayed, held requests are served, BACK is sent. -/
def State.regionDone (s : State) (q : Nat) (lost : List Nat) (env : Env) : State :=
  match Tab.find? q s.recov.region with
  | none => s
  | some t =>
    if !s.regionStacksUp q || s.power.queue.any (fun w => w.kind == 1 && w.unit == q) then s
    else
      let jobs := Tab.get q s.recov.downJobs
      let cause := Tab.get q s.recov.regSig
      let s := s.modRecov (fun r => { r with region := Tab.erase q r.region, downJobs := Tab.set q [] r.downJobs })
      let s := (s.journalIn q lost env).resetRecord (unitOf 1 q) 2 (if cause = 0 then 0 else 11) t
      let s := s.recoveryNotices 2 2 q cause true jobs 1025
      (s.dispatchAll.retryHub env.ph).retryPipes

/-- REGION_RESET_COMPLETE (R379): `lost`, the DPAs of journaled lines uncorrectable in both copies. -/
def execRegionResetComplete (region : Fin 4) (lost : List Nat) (env : Env) (s : State) : R := .next (s.regionDone region lost env).armsGo

/-- REGION_RESET_OVERRUN (R372): not complete 5 ms after its start. -/
def execRegionResetOverrun (region : Fin 4) (s : State) : R :=
  .next (match Tab.find? region.val s.recov.region with
    | some t => if t + msT 5 ≤ s.now then s.raiseSafe 8 else s
    | none => s)

/-! SAFE (R366-R370). -/

/-- Every queue halts with reason `reason`, started commands complete RESET (R241). -/
def State.stopQueues (s : State) (reason : Nat) : State :=
  let qs := s.queuesOn
  let s := forAll (fun q s => if s.qMode q = 1 then s.haltQueue q reason else if s.qMode q = 2 then s.setQMode q 2 reason else s) qs s
  let s := forAll (fun n s => s.redFault n stReset) (s.redsOn.filter s.redOpen) s
  let s := forAll (fun (p : Nat × FactorRun) s => s.factorEnd p.1 stReset) s.fac.runs s
  let s := s.drainsStop stReset
  forAll (fun q s => forAll (fun (c : Cmd) s => if c.phase = 1 ∨ c.phase = 2 then s.fail (cmdKey q c.idx) stReset else s) (s.qr q).cmds s) qs s

/-- Requests that wait at ports and hubs end (R254, R369): reads with poison, writes not accepted with their data discarded. -/
def State.endRequests (s : State) : State :=
  let s := s.poisonReads (fun _ => true)
  let gated := s.reg.masters.flatMap (fun p => p.2.hold)
  let ws := s.recov.held ++ s.shared.waits ++ gated ++ s.fac.compWait.map (fun (x : CompWrite) =>
    ({ port := x.port, dpa := x.dpa, write := true, data := [], mask := 0, bad := false, want := 0, gated := false, since := x.since,
       promoted := false } : HeldReq))
  let ks := distinct (gated.map (fun r => r.port / 16))
  let s := { s with
    recov := { s.recov with held := [] }, shared := { s.shared with waits := [] }, fac := { s.fac with compWait := [] }
    reg := { s.reg with masters := (s.reg.masters.map (fun p => (p.1, { p.2 with hold := [] }))).filter (fun p => p.2 != default) } }
  forAll (fun k s => s.syncReq k) ks (forAll (fun r s => s.reply r none) ws s)

/-- The STATE record of a change to SAFE or OUT_OF_SERVICE (R363). -/
def State.stateRecord (s : State) (out : Bool) : State :=
  s.record { kind := 13, unit := unitOf 0 0, cls := 0, ctx := [], flags := 0, action := if out then 6 else 5,
             detail := [(0, cborUint s.dev), (1, cborUint (s.par P.devSafeCause % 2 ^ 32))] }

/-- The device goes OUT_OF_SERVICE (R366, R383). -/
def State.goOut (s : State) : State :=
  let s := (s.stateRecord true).modRecov (fun r => { r with oosDue := false })
  let s := (s.setDev dsOut).setPar P.devResetPhase 0
  (s.aerUncorr 22 false).recoveryNotices 3 3 0 (s.par P.devSafeCause % 2 ^ 32) (s.par P.devSafeCause / 2 ^ 56 != 4) s.busyJobs 1025

/-- A warm device reset begins (R372): a second counted cause within 24 h takes the device OUT_OF_SERVICE. -/
def State.warmStart (s : State) (counted : Bool) : State :=
  let past := recent s.now (msT 86400000) s.recov.warmTimes
  if s.warm then s
  else if counted && !past.isEmpty then s.goOut
  else
    let s := s.modRecov (fun r => { r with
      warmTimes := if counted then s.now :: past else r.warmTimes, warmAt := s.now
      downJobs := Tab.set 4 s.busyJobs r.downJobs })
    let s := { s.setPar P.glodySessions 0 with glody := { s.glody with sessions := [] } }
    (s.count P.devWarmResets 1).setPar P.devResetPhase 1

/-- The SAFE entry actions (R369), in order. -/
def State.safeEntry (s : State) : State :=
  let cause := s.recov.safeDue
  let s := s.stopQueues 0x14
  let s := s.endRequests
  let s := (s.modMem (fun m => { m with mover := [] })).shareDrop 3
  let s := forAll (fun q s => s.journalOut q) [0, 1, 2, 3] s
  let s := forAll (fun w s => s.winDown w) s.winsOn s
  let s := { s with own := { s.own with leaving := [] } }
  let s := forAll (fun j s => s.jobDamage j 6 stReset none) s.jobsOn s
  let s := forAll (fun (p : Nat × EngReset) s => s.hangOutcome p.2 hgEscalated) s.recov.eng s
  let s := (s.modRecov (fun r => { r with ctx := [], eng := [], region := [], regionDue := [], safeDue := 0, safeAt := s.now })).modInteg
    (fun i => { i with dice := [], flags := [] })
  let s := s.modFac (fun f => { f with armWait := f.armWait.map (fun p => (p.1, 0)) })
  let s := forAll (fun cb s => s.modBlk cb (fun b => { b with due := false, woke := false, dueAt := 0, seed := 0, cmd := 0, partner := 0 })) (Tab.keys s.integ.blk) s
  let s := s.clearTokens
  let s := forAll (fun k s => s.enterSelf k) (List.range 16) s
  let s := s.stateRecord false
  let s := s.setDev dsSafe
  let s := if !s.recov.oosDue && [1, 3, 4, 5, 6, 8].contains cause then s.aerUncorr 22 false else s
  if s.recov.oosDue then s.goOut
  else if cause = 4 ∨ cause = 8 then s.warmStart true
  else s

/-- SAFE_ENTRY (R369): a cause has arisen; or a condition that ends in OUT_OF_SERVICE has, with the entry actions already done or
nothing to enter from (R366). -/
def execSafeEntry (s : State) : R :=
  .next (if s.recov.safeDue ≠ 0 then s.safeEntry else if s.recov.oosDue && s.dev != dsOut then s.goOut else s)

/-- The hold before automatic recovery is over (R368, R386, R390). -/
def State.safeHeld (s : State) : Bool :=
  let c := s.par P.devSafeCause / 2 ^ 56
  let ms := s.par P.devSafeAutoMs
  !([1, 2, 3, 5, 9, 10].contains c) || ms == 0 || decide (s.now < s.recov.safeAt + msT ms) ||
  (c == 2 && (List.range 16).any (fun k => s.par (P.mcCond k) == 3)) || (c == 9 && s.power.inputBad) || (c == 10 && s.power.refLost)

/-- SAFE_AUTO_EXPIRY (R368). -/
def execSafeAutoExpiry (s : State) : R :=
  .next (if s.dev = dsSafe && !s.warm && !s.safeHeld then s.warmStart true else s)

/-- CORE_WATCHDOG_EXPIRY (R368): 100 ms without service, once the cores run. -/
def execCoreWatchdogExpiry (s : State) : R := .next (s.raiseSafe 4)

/-- LOCKSTEP_MISMATCH (R368). -/
def execLockstepMismatch (s : State) : R := .next (s.raiseSafe 4)

/-! dev_request (R366, R367). -/

/-- Stacks under trn_hold go back to self-refresh, every other live stack wakes (R318, R319, R320). -/
def State.wakeStacks (s : State) : State :=
  let s := forAll (fun k s => if s.par (P.mcSrState k) = srIdle then s.enterSelf k else s) (List.range 16) s
  forAll (fun q s => s.wakeRegion 17 q) [0, 1, 2, 3] s

/-- red_slots_actual (R189, R193): what staging holds beside 8 MiB of buffers and the explicit-T0 charge, at 2.5 MiB and 128 KiB a slot. -/
def State.slotsNow (s : State) : Nat :=
  ([0, 1, 2, 3].map (fun q =>
    Nat.min (s.par P.redSlots) ((s.stagingMib q * 2 ^ 20 - 8 * 2 ^ 20 - s.t0Charge q) / (2621440 + 131072)) * 2 ^ (8 * q))).sum

/-- Entry into SERVICE (R366): layouts are read, leases and due times restart, stacks wake, the detour area serves. -/
def State.enterService (s : State) : State :=
  let s := s.setDev dsService
  let s := s.readLayouts.setPar P.redSlotsActual s.slotsNow
  let s := forAll (fun n s => forAll (fun h s => s.leaseFull n h) (Tab.keys (s.sr n).leases) s) s.srsOn s
  let s := forAll (fun cb s => s.modBlk cb (fun b => { b with last := s.now })) ((List.range 64).filter (fun cb => decide (cb % 16 < 9))) s
  let s := forAll (fun q s => s.busy q) [0, 1, 2, 3] s
  s.wakeStacks.detourOn

/-- Entry into STANDBY (R366): stacks enter self-refresh. -/
def State.enterStandby (s : State) : State := s.setDev dsStandby

/-- What an accepted write of dev_request does (R367). -/
def State.devRequest (s : State) (v : Nat) : State :=
  match v with
  | 1 => s.enterService
  | 2 => s.enterStandby
  | 3 => s.warmStart (s.par P.devSafeCause / 2 ^ 56 != 7)
  | 4 => s.raiseSafe 7
  | _ => s

/-- ENTER_SERVICE, ENTER_STANDBY, RECOVER, ENTER_SAFE (R366, R367): writes of dev_request. -/
def execEnterService (s : State) : R := .next (s.barWrite P.devRequest 1 (fun s => s.devRequest 1))
def execEnterStandby (s : State) : R := .next (s.barWrite P.devRequest 2 (fun s => s.devRequest 2))
def execRecover (s : State) : R := .next (s.barWrite P.devRequest 3 (fun s => s.devRequest 3))
def execEnterSafe (s : State) : R := .next (s.barWrite P.devRequest 4 (fun s => s.devRequest 4))

end Sys2Proof.Machine
end

