-- ==== Sys2Proof/Machine/Media.lean ====
section
/-! DEFINITION. Patrol scrub, the flip mask, faults of firmware and internal transfers, the death of stacks and regions
(R330, R331, R337-R341). -/
namespace Sys2Proof.Machine

/-- Change the media record. -/
def State.modMedia (s : State) (f : Media → Media) : State := { s with media := f s.media }

/-! Patrol scrub of HBM (R330, R331). -/

/-- Lines of a stack's data frames; the metadata reserve's follow them (R150, R334). -/
def dataLines : Nat := framesPer * 64

/-- A frame that the scrub reads (R330). -/
def scrubs (r : FrameRec) : Bool := r.st == fUsed || r.st == fShadow || r.st == fQuar

/-- The next line of stack k in the scrub's scope from line p (R330). -/
def State.scrubNext (s : State) (k p : Nat) : Nat :=
  match s.mem.frames.find? (fun x => frameStack x.1 == k && scrubs x.2 && decide (p < (frameIdx x.1 + 1) * 64)) with
  | some x => Nat.max p (frameIdx x.1 * 64)
  | none => Nat.max p dataLines

/-- The blocks whose stored sectors hold HBM line l, with their words (R150). -/
def State.ownersOf (s : State) (l : Nat) : List (Nat × MapWord) :=
  (s.allWords.filter (fun p =>
    let e := entryOf p.2
    e.inHbm && ((linesOf e.addr e.len).contains l ||
      (match s.partnerOf e.addr with | some a => (linesOf a e.len).contains l | none => false)))).eraseDups

/-- A stored copy of block b on stack lines that are bad is replaced from the other copy, or the block is lost (R47, R88). `homeBad`
tells which copy; media_ue and the log stand already. -/
def State.repairBlock (s : State) (b i : Nat) (w : MapWord) (homeBad : Bool) (ph : Phys) : State :=
  let e := entryOf w
  let media := e.codec == cRaw
  match s.viewOf b w with
  | none => s
  | some v =>
    match s.partnerOf e.addr with
    | none => s.failBlock v b e ⟨fCheckBits, media, i⟩ none 0xFF
    | some a =>
      let good := if homeBad then a else e.addr
      let (s, worst) := s.noteLines ph (linesOf good e.len)
      if worst = 3 then s.failBlock v b e ⟨fCheckBits, media, i⟩ none 0xFF
      else
        let s := if media || !homeBad then s else s.bicelFail b e fCheckBits i
        (s.failEvent b i e fCheckBits media true none 0xFF).rewrite v b e good

/-- Every block with HBM line l is handled as a read of it would be (R330). -/
def State.repairLine (s : State) (l : Nat) (ph : Phys) : State :=
  forAll (fun (p : Nat × MapWord) s =>
    let e := entryOf p.2
    let home := (linesOf e.addr e.len).contains l
    s.repairBlock p.1 (if e.state = stFlat then l % 64 else 0) p.2 home ph) (s.ownersOf l) s

/-- Both copies of a metadata structure of region q fail (R329). -/
def State.metaFail (s : State) (q : Nat) (m : MetaPart) : State :=
  let r : RecArgs := { kind := 9, unit := unitOf 1 q, cls := 0, ctx := [], flags := 0, action := 0, detail := [(0, cborUint 1), (1, cborUint 0)] }
  let noted := (s.count P.metaLost 1).logMedia 12 (4 * q) 0xFF 0xFF 0xFF 0xFF 0xFFFF
  match m with
  | .block b => if s.home (b * 4096) = some q then s.mapLost .main b none 0xFF else s
  | .parcel p =>
    if s.home (p * 65536) = some q then
      (noted.record { r with ctx := [(5, p * 65536)], detail := [(0, cborUint 1), (1, cborUint (p * 65536))] }).modMem
        (fun m => { m with parcels := Tab.set p 0 m.parcels })
    else s
  | .slot i =>
    let b := Tab.get i s.mem.slotDir / 2 ^ 32 % 2 ^ 30
    let e := entryOf (s.wordIn .main b)
    if Tab.get i s.mem.slotDir = 0 then s
    else
      let s := noted.record { r with ctx := [(5, b * 4096)], detail := [(0, cborUint 1), (1, cborUint (b * 4096))] }
      if e.state = stDetour ∧ e.addr = i then s.slotPoison b else s.freeSlot i
  | .completion n =>
    if (s.qr n).held.isEmpty then s
    else
      (((((noted.record r).modQ n (fun x => { x with held := x.held.drop 1, outstanding := x.outstanding - 1 })).moveSlots
        P.qeHeld P.qeFree 1).syncQ n).haltQueue n 0x11)
  | .table => (noted.record { r with action := 5 }).raiseSafe 3

/-- The scrub reads its next line of stack k; at the end of the stack a pass is complete. `lost` is metadata of an uncorrectable
line of the reserve whose mirror fails too (R329). -/
def State.scrubRead (s : State) (k : Nat) (lost : Option MetaPart) (ph : Phys) : State :=
  if s.par (P.mcSrState k) ≠ srActive || s.par (P.stackHealth k) == 2 then s
  else
    let p := s.scrubNext k (Tab.get k s.media.scrub)
    let l := k * stackLines + p
    let st := s.lineState ph l
    let s := ((s.scrubGrant (k / 4)).noteLine l st true).openRow k p
    let last := decide (stackLines ≤ p + 1)
    let s := s.modMedia (fun m => { m with
      scrub := Tab.set k (if last then 0 else p + 1) m.scrub
      scrubRead := if st.1 = 1 then Tab.insert k { line := p, data := Tab.readRun 0 (64 * l) 64 s.mem.hbm, cancelled := false } (Tab.erase k m.scrubRead)
        else Tab.erase k m.scrubRead })
    let s := if last then s.count P.scrubPasses 1 else s
    if st.1 ≠ 3 then s
    else match lost with
      | some m => if dataLines ≤ p then s.metaFail (k / 4) m else s.repairLine l ph
      | none => s.repairLine l ph

/-- PATROL_SCRUB_READ (R330). -/
def execPatrolScrubRead (stack : Fin 16) (events : ScrubEvents) (s : State) : R :=
  .next (s.scrubRead stack events.lost events.ph)

/-- SCRUB_WRITEBACK (R331): the corrected line, unless a write came between; the error that a flip left is gone. It is a line
write to the stack, which an armed flip meets (R337). -/
def execScrubWriteback (stack : Fin 16) (s : State) : R :=
  .next (match Tab.find? stack.val s.media.scrubRead with
    | none => s
    | some r =>
      let l := stack.val * stackLines + r.line
      let gone := decide (r.line < dataLines) && !scrubs (s.frame (frameKey stack (r.line / 64)))
      let s := s.modMedia (fun m => { m with scrubRead := Tab.erase stack.val m.scrubRead })
      if r.cancelled || gone then s
      else (s.scrubGrant (stack.val / 4)).storeBytes (64 * l) r.data [])

/-! Scrub of SRAM (R327, R330). -/

/-- What an uncorrectable byte does to what the line held (R327): 0 block map cache, 1 T0 copy of block `at_`, 2 waypoint copy
(waypoint * 2^28 + tile), 3 panel cache, 4 reconstruction buffer (region * 16 + block), 5 gather-buffer line (key * 64 + line),
6 explicit-T0 line (DPA div 64), 7 open reduce tile (reduction), 8 scratchpad of a compute block. -/
def State.sramLost (s : State) (q kind at_ : Nat) : State :=
  match kind with
  | 1 => s.modMem (fun m => { m with t0cache := Tab.erase at_ m.t0cache })
  | 2 => if (s.residentOf (at_ / 2 ^ 28)).contains (at_ % 2 ^ 28) && s.wpTier (at_ / 2 ^ 28) == 0 then
      s.loseTile (at_ / 2 ^ 28) (at_ % 2 ^ 28)
    else s
  | 3 => s.modFac (fun f => { f with panels := Tab.erase (q * 16 + at_ % 16) f.panels })
  | 4 => s.modFac (fun f => { f with recon := Tab.erase (q * 16 + at_ % 16) f.recon })
  | 5 =>
    match Tab.find? (at_ / 64) s.mem.gather with
    | none => s
    | some g => if (g.lines.map Prod.fst).contains (at_ % 64) then
        s.modMem (fun m => { m with gather := Tab.insert (at_ / 64) { g with bad := at_ % 64 :: g.bad.filter (· ≠ at_ % 64) } (Tab.erase (at_ / 64) m.gather) })
      else s
  | 6 => if (match s.winAt (at_ * 64) with | some w => s.par (P.winKind w) == wT0 | none => false) then
      s.modMem (fun m => { m with t0marks := Tab.set at_ true m.t0marks }) else s
  | 7 => s.redFault at_ 0x32
  | 8 => s.engFault 0 (q * 16 + at_ % 16) 2 0
  | _ => s

/-- SRAM_SCRUB (R327, R330): a written line of a staging macro of `region`, or of compute block `scratch` of it, read with outcome
0 clean, 1-13 byte bit 0-12 corrected, 14 uncorrectable. An armed flip on the scratchpad gives its own outcome (R337). -/
def execSramScrub (region : Fin 4) (scratch : Option (Fin 9)) (outcome : Fin 15) (holding : Fin 9) (place : Nat) (s : State) : R :=
  let q := region.val
  .next (match scratch with
    | some c =>
      let cb := q * 16 + c.val
      let unit := 128 + cb
      let (o, sym, s) : Nat × Nat × State :=
        if s.flipSram 2 cb then let (o, sym, _) := sramDecode s.flipByte; (o, sym, s.disarm)
        else (if outcome = 0 then 0 else if outcome.val ≤ 13 then 1 else 2, outcome - 1, s)
      let s := s.noteSram q unit o sym
      if o = 2 then s.sramLost q 8 c else s
    | none =>
      let o := if outcome = 0 then 0 else if outcome.val ≤ 13 then 1 else 2
      let s := s.noteSram q (q * 16) o (outcome - 1)
      if o = 2 ∧ holding ≠ 8 then s.sramLost q holding place else s)

/-- FLIP_ARM (R337): a write of flip_target with the armed bit. -/
def execFlipArm (value : Nat) (s : State) : R :=
  .next (let v := setFld value 15 15 1; s.barWrite P.flipTarget v (fun s => s.storeWrite P.flipTarget v))

/-! Firmware and internal transfers (R338, R339). -/

/-- CODE_FETCH_UE (R338): the page is reloaded; a second fault within 1 s, or one inside the handler, leaves the watchdog to
expire. -/
def execCodeFetchUe (inHandler : Bool) (s : State) : R :=
  .next (if s.media.coresLost then s
  else
    let again := s.media.codeFault != 0 && decide (s.now + 1 ≤ s.media.codeFault + msT 1000)
    s.modMedia (fun m => { m with codeFault := s.now + 1, coresLost := again || inHandler }))

/-- DMA_SOURCE_UE (R339): the channel halts at `source`; `mirror`, a good copy for the one retry exists; `metadata`, the transfer is
a write of metadata. -/
def execDmaSourceUe (channel : Fin 8) (source : Nat) (mirror metadata : Bool) (s : State) : R :=
  let s := (s.setPar (P.dmaStatus channel) 2).setPar (P.dmaFaultAddr channel) (source % 2 ^ 64)
  .next (if mirror then s.setPar (P.dmaStatus channel) 0
  else
    let s := s.record { kind := 9, unit := unitOf 6 0, cls := 0, ctx := [], flags := 0, action := if metadata then 5 else 0,
                        detail := [(0, cborUint 2), (1, cborUint (source % 2 ^ 64))] }
    if metadata then s.raiseSafe 3 else s)

/-! The death of a stack (R340). -/

/-- Metadata bytes that lie on one copy alone (R340, R150): the share of 2.5 GiB of each dead stack whose counterpart in region
q XOR 1 lives. -/
def State.singleMeta (s : State) : Nat :=
  ((List.range 16).filter (fun k => s.par (P.stackHealth k) == 2 && s.par (P.stackHealth (k ^^^ 4)) != 2)).length * 2684354560

/-- STACK_DEATH (R340): a cause of death stands. -/
def State.stackDies (s : State) (k : Nat) : State :=
  if !(s.stack k).dying || s.par (P.stackHealth k) == 2 then s
  else
    let s := (s.setPar (P.stackHealth k) 2).logUnit 8 k
    let s := s.record { kind := 9, unit := unitOf 2 k, cls := 0, ctx := [], flags := 0, action := 0,
                        detail := [(0, cborUint 3), (1, cborUint k)] }
    let s := (s.pw (fun p => { p with queue := p.queue.filter (fun w => !(w.kind == 2 && w.unit == k)), granted := Tab.set k false p.granted })).countWakes
    let s := s.modMedia (fun m => { m with walks := Tab.insert k s.now (Tab.erase k m.walks), scrubRead := Tab.erase k m.scrubRead })
    let s := s.setPar P.metaSingle s.singleMeta
    if (regionStacks (k / 4)).all (fun j => s.par (P.stackHealth j) == 2) then s.regionDies (k / 4) else s

/-- STACK_DEATH (R340). -/
def execStackDeath (stack : Fin 16) (s : State) : R := .next (s.stackDies stack)

/-- The walk's work on one stored block with a copy on the dead stack (R340). -/
def State.walkBlock (s : State) (k : Nat) (p : Nat × MapWord) (ph : Phys) : State :=
  let e := entryOf p.2
  let lost := fun (a : Nat) => a / 2 ^ 32 == k
  match s.viewOf p.1 p.2 with
  | none => s
  | some v =>
    match s.partnerOf e.addr with
    | none => if lost e.addr then s.poison v p.1 true else s
    | some a =>
      if !lost e.addr && !lost a then s
      else
        let good := if lost e.addr then a else e.addr
        let (s, worst) := s.noteLines ph (linesOf good e.len)
        if worst = 3 then s.poison v p.1 true else s.rewrite v p.1 e good

/-- Copies of waypoints with a frame on stack k are dropped; their waypoints stage again (R120, R340). -/
def State.dropT1On (s : State) (k : Nat) : State :=
  forAll (fun (p : Nat × List Nat) s =>
    if p.2.any (fun f => f ≠ 0 && frameStack (f - 1) == k) then
      let s := s.dropTile (p.1 / 2 ^ 28) (p.1 % 2 ^ 28)
      if s.wpState (p.1 / 2 ^ 28) = 3 then s.setWp (p.1 / 2 ^ 28) 2 0 else s
    else s) s.fac.t1frames s

/-- Every frame of stack k goes to RETIRED by way of QUARANTINED (R147, R340). -/
def State.retireStack (s : State) (k : Nat) : State :=
  let q := k / 4
  let mine := s.mem.frames.filter (fun p => frameStack p.1 == k)
  let s := forAll (fun (p : Nat × FrameRec) s =>
    if p.2.st = fRetired then s
    else (s.setFrame p.1 { s.frame p.1 with st := fQuar, mask := 0 }).setFrame p.1 { st := fRetired, mask := 0, part := 0, copy := false }) mine s
  let listed := (s.mem.frames.filter (fun p => frameStack p.1 == k)).length
  let s := s.modMem (fun m => { m with
    frames := m.frames.filter (fun p => frameStack p.1 != k), openFrame := m.openFrame.filter (fun p => p.1 % 16 != k) })
  let s := s.modStack k (fun r => { r with retired := true })
  (s.moveSlots (P.capFree q) (P.capRetired q) (framesPer - listed)).press q

/-- STACK_DEATH_WALK_COMPLETE (R340): the walk of the region's block map is over. -/
def execStackDeathWalkComplete (stack : Fin 16) (ph : Phys) (s : State) : R :=
  let k := stack.val
  .next (match Tab.find? k s.media.walks with
    | none => s
    | some _ =>
      let hit := fun (p : Nat × MapWord) =>
        let e := entryOf p.2
        e.inHbm && (e.addr / 2 ^ 32 == k || (match s.partnerOf e.addr with | some a => a / 2 ^ 32 == k | none => false))
      let s := forAll (fun p s => s.walkBlock k p ph) ((s.allWords.filter hit).eraseDups) s
      let s := s.modMedia (fun m => { m with walks := Tab.erase k m.walks })
      ((s.dropT1On k).retireStack k))

/-- REGION_DEATH (R341): the region's die, its UCIe links or its hub link fail. -/
def execRegionDeath (region : Fin 4) (s : State) : R :=
  .next (if s.dev = dsOut || s.recov.oosDue then s else s.regionDies region)

end Sys2Proof.Machine
end

