-- ==== Sys2Proof/Machine/Wakes.lean ====
section
/-! DEFINITION. Wakes granted and the exits from power states and self-refresh (R320, R391, R394-R396). -/
namespace Sys2Proof.Machine

/-- A woken region whose clock runs and whose stacks that are to serve do is back in S0 (R391). -/
def State.regionCheck (s : State) (q : Nat) : State :=
  if Tab.get q s.power.exiting = 2 && (regionStacks q).all (fun k =>
      s.par (P.stackHealth k) == 2 || s.par (P.mcCond k) == 3 || s.par (P.mcSrState k) == srActive) then (s.regionUp q).diceWake q
  else s

/-- PLL_LOCK (R391): the region's PLL locks and its stacks that hold their tokens begin to exit. -/
def execPllLock (region : Fin 4) (ph : Phys) (s : State) : R :=
  .next (if Tab.get region.val s.power.exiting = 1 then
    let s := s.pw (fun p => { p with exiting := Tab.set region.val 2 p.exiting })
    let s := forAll (fun k s => if Tab.get k s.power.granted && s.par (P.mcSrState k) == srSelf then s.setPar (P.mcSrState k) srExiting else s)
      (regionStacks region) s
    (s.regionCheck region).retryHub ph
  else s)

/-- The wake still has something to do. -/
def State.wakeLive (s : State) (w : Wake) : Bool :=
  match w.kind with
  | 0 => s.power.hubOff && !s.power.hubBusy
  | 1 => (s.par (P.pwrRegionState w.unit) != 0 && Tab.get w.unit s.power.exiting == 0) || (Tab.find? w.unit s.recov.region).isSome
  | _ => s.wantsExit w.unit

/-- What a granted wake starts (R391, R320). -/
def State.wakeStarts (s : State) (w : Wake) : State :=
  match w.kind with
  | 0 => s.pw (fun p => { p with hubBusy := true })
  | 1 =>
    match s.par (P.pwrRegionState w.unit) with
    | 0 => s
    | 1 => s.regionUp w.unit
    | _ => s.pw (fun p => { p with exiting := Tab.set w.unit 1 p.exiting })
  | _ =>
    if s.par (P.pwrRegionState (w.unit / 4)) = 0 ∨ Tab.get (w.unit / 4) s.power.exiting = 2 then s.setPar (P.mcSrState w.unit) srExiting
    else s.pw (fun p => { p with granted := Tab.set w.unit true p.granted })

/-- WAKE_GRANT (R395, R396): the head of the queue, whole. A stack whose entry is not complete is waited for; a wake with nothing
left to do leaves the queue and spends nothing. -/
def execWakeGrant (ph : Phys) (s : State) : R :=
  .next (match s.power.queue with
    | [] => s
    | w :: ws =>
      let off := fun (s : State) => (s.pw (fun p => { p with queue := ws })).countWakes
      if !s.wakeLive w then off s
      else if w.kind = 2 ∧ s.par (P.mcSrState w.unit) = srEntering then s
      else if s.par P.wkHeld < wakeCost w then s
      else (((off s).spendWake (wakeCost w)).wakeStarts w).retryHub ph)

/-- SELF_REFRESH_EXIT (R320): the exit of a stack completes. -/
def execSelfRefreshExit (stack : Fin 16) (ph : Phys) (s : State) : R :=
  .next (if s.par (P.mcSrState stack) = srExiting then ((s.outOfSelf stack).regionCheck (stack / 4)).retryHub ph else s)

/-- HUB_RESTORE_COMPLETE (R391). -/
def execHubRestoreComplete (ph : Phys) (s : State) : R :=
  .next (if s.power.hubBusy then
    ((s.pw (fun p => { p with hubOff := false, hubBusy := false })).setPwrState).retryHub ph else s)

end Sys2Proof.Machine
end

