-- ==== Sys2Proof/Machine/Boot.lean ====
section
/-! DEFINITION. Boot, the flash, firmware update, key slots (R26-R29, R399-R411). -/
namespace Sys2Proof.Machine

/-- Change the boot record. -/
def State.modBoot (s : State) (f : Boot → Boot) : State := { s with boot := f s.boot }

/-! The checks of R402. -/

/-- The length field of an image header. -/
def imageLen (img : List Byte) : Nat := ofLe (cut 0x10 4 img)

/-- fw_version and svn of an image header. -/
def imageVersion (img : List Byte) : Nat := ofLe (cut 4 4 img)
def imageSvn (img : List Byte) : Nat := ofLe (cut 8 2 img)

/-- The header and body of an image. -/
def imageBytes (img : List Byte) : List Byte := img.take (512 + imageLen img)

/-- Check 4: magic, length, the owner's signature over header bytes 0x000-0x177. -/
def headerOk (owner img : List Byte) : Bool :=
  decide (512 ≤ img.length) && ofLe (cut 0 4 img) == 0x44564657 && decide (1 ≤ imageLen img ∧ imageLen img ≤ 66060288 - 512) &&
  ecdsaOk owner (cut 0 0x178 img) (cut 0x178 132 img)

/-- Check 5 but for the svn: the body's SHA-512 equals the header digest. -/
def bodyOk (img : List Byte) : Bool :=
  decide (512 + imageLen img ≤ img.length) && sha512 (cut 512 (imageLen img) img) == cut 0xD8 64 img

/-- The first order of R402 from 4 on that an image fails, or 0. -/
def imageFails (owner img : List Byte) (floor : Nat) : Nat :=
  if !headerOk owner img then 4 else if !bodyOk img || decide (imageSvn img < floor) then 5 else 0

/-- Check 1: the root public key's SHA-512 equals the ROM digest. -/
def Boot.rootOk (b : Boot) : Bool := sha512 (Config.keyRoot b.keyBlock) == Config.rootDigest

/-- Check 2: the owner certificate. -/
def Boot.ownerOk (b : Boot) : Bool := ecdsaOk (Config.keyRoot b.keyBlock) (Config.keyCert b.keyBlock) (Config.keySig b.keyBlock)

/-- Check 3: the configuration record. -/
def Boot.configOk (b : Boot) : Bool :=
  ecdsaOk (Config.keyRoot b.keyBlock) (Config.cfgBody b.config) (Config.cfgSig b.config) && Config.cfgClass b.config == 0x1672

/-- The owner public key. -/
def Boot.owner (b : Boot) : List Byte := Config.keyOwner b.keyBlock

/-- fw_svn_floor for the check of an image: the device record's, or the image's own svn when both copies fail (R400). -/
def Boot.floorFor (b : Boot) (img : List Byte) : Nat := if b.recA.good || b.recB.good then b.record.floor else imageSvn img

/-- The first order of R402 that the flash fails, or 0. -/
def Boot.fails (b : Boot) : Nat :=
  if !b.rootOk then 1 else if !b.ownerOk then 2 else if !b.configOk then 3 else imageFails b.owner b.image (b.floorFor b.image)

/-- The code of R400 for a failing order: a good body under the floor is code 4. -/
def Boot.failCode (b : Boot) : Nat :=
  match b.fails with
  | 0 => 0
  | 1 => 2
  | 5 => if bodyOk b.image then 4 else 3
  | _ => 3

/-! Failures of boot (R400, R405). -/

/-- The BOOT record (R363, R400). -/
def State.bootRecord (s : State) (code : Nat) : State :=
  s.record { kind := 15, unit := unitOf 0 0, cls := 0, ctx := [], flags := 0, action := 0,
             detail := [(0, cborUint code), (1, cborUint (s.par P.bootPhase))] }

/-- RECOVERY with a code of R400: the record goes before the first ANNOUNCE, unsigned. Without the flash there is no dev_id and no
record. -/
def State.recovery (s : State) (code : Nat) : State :=
  let s := s.modBoot (fun b => { b with recovery := true, aliasKey := false, sessions := [] })
  let s := forAll (fun k s => s.setPar (P.mcSrState k) srUntrained) (List.range 16) s
  let s := if code = 1 then s else s.bootRecord code
  let s := s.setPar P.bootStatus (code * 2 ^ 56 + s.par P.bootStatus % 2)
  { ((s.setPar P.bootPhase 8).setPar P.glodySessions 0) with glody := { s.glody with announced := s.now, loader := default, sessions := [], again := [] } }

/-- The image of `img` runs (R402): its versions, the alias key; the cores start. -/
def State.runImage (s : State) (img : List Byte) : State :=
  let s := s.modBoot (fun b => { b with running := imageBytes img, aliasKey := true })
  let s := ((s.setPar P.fwVersion (imageVersion img)).setPar P.fwSvn (imageSvn img)).setPar P.fwSvnFloor (s.boot.floorFor img)
  s.modMedia (fun m => { m with codeFault := 0, coresLost := false })

/-- The end of VERIFY. -/
def State.endVerify (s : State) (flashOk pufOk : Bool) : State :=
  if !flashOk then s.recovery 1
  else
    match s.boot.failCode with
    | 0 =>
      if !pufOk then ((s.setPar P.bootStatus (5 * 2 ^ 56)).setPar P.devState dsOut).raise 3
      else
        let s := s.runImage s.boot.image
        let lost := !s.boot.recA.good && !s.boot.recB.good
        let s := if lost then (s.setPar P.bootStatus (6 * 2 ^ 56 + 1)).bootRecord 6 else s
        s.setPar P.bootPhase 3
    | c => s.recovery c

/-! BIST (R26-R29). Cell types of R363: 1 MAC row, 2 MAC column, 3 codec lane, 4 SRAM subarray, 5 DQ lane. DESIGN CHOICE: the cell
index (log 47): block * 64 + row or column; block * 16 + lane; macro * 64 + subarray, the staging macros region * 64 + n first, the
scratchpads' 256 + block * 64 + n; (stack * 64 + pseudo-channel) * 64 + lane. -/

/-- Cells of a type among a repair map's, by index. -/
def cellsOf (type : Nat) (cells : List Nat) : List Nat := cells.filterMap (fun c => if c / 2 ^ 32 = type then some (c % 2 ^ 32) else none)

/-- The macro has more faulty subarrays than its 2 spares. -/
def macroBad (cells : List Nat) (m : Nat) : Bool := decide (2 < ((cellsOf 4 cells).filter (fun i => i / 64 == m)).length)

/-- Codec lanes of block cb that are faulty or replaced. -/
def DevRecord.badLanes (r : DevRecord) (cb : Nat) : List Nat :=
  (List.range 9).filter (fun l => (cellsOf 3 r.cells).contains (cb * 16 + l) || Tab.get (cb * 16 + l) r.lanes == 2)

/-- A compute block is unusable (R29). -/
def DevRecord.blkBad (r : DevRecord) (cb : Nat) : Bool :=
  decide (2 < ((cellsOf 1 r.cells).filter (fun i => i / 64 == cb)).length) || decide (2 < ((cellsOf 2 r.cells).filter (fun i => i / 64 == cb)).length) ||
  decide (1 < (r.badLanes cb).length) || (List.range 64).any (fun m => macroBad r.cells (256 + cb * 64 + m))

/-- blk_state of block cb after repair, C8 standing in for the blocks below it (R5, R29). -/
def DevRecord.blkState (r : DevRecord) (cb : Nat) : Nat :=
  let out := fun (x : Nat) => Tab.get x r.unusable || r.blkBad x
  if Tab.get cb r.unusable then 3
  else if r.blkBad cb then 4
  else if cb % 16 = 8 then (if (List.range 8).any (fun c => out (cb - 8 + c)) then 0 else 2)
  else 0

/-- The compute blocks. -/
def allBlocks : List Nat := [0, 1, 2, 3].flatMap (fun q => (List.range 9).map (fun c => q * 16 + c))

/-- The repair map `r` is applied (R27, R29). -/
def State.applyRepair (s : State) (r : DevRecord) : State :=
  let s := forAll (fun cb s =>
    let q := cb / 16
    let c := cb % 16
    let bad := r.badLanes cb
    let s := (s.setPar (P.blkState q c) (r.blkState cb)).setPar (P.blkPermanent q c) (Tab.get cb r.permanent)
    let s := forAll (fun l s => s.setPar (P.laneRec q c l) (setFld (s.par (P.laneRec q c l)) 31 24 2)) bad s
    if bad.isEmpty || bad == [8] then s else s.setPar (P.laneRec q c 8) (setFld (s.par (P.laneRec q c 8)) 31 24 0)) allBlocks s
  let mib := fun (q : Nat) => 64 - ((List.range 64).filter (fun m => macroBad r.cells (q * 64 + m))).length
  (s.setPar P.integStagingMib (([0, 1, 2, 3].map (fun q => mib q * 2 ^ (8 * q))).sum)).setActive

/-- A repair map with the factory repair of the configuration record (R28, R401). -/
def Boot.withFactory (b : Boot) (r : DevRecord) : DevRecord :=
  { r with cells := r.cells ++ (distinct (Config.cfgRepair b.config)).filter (fun c => !r.cells.contains c) }

/-- The end of BIST (R27, R28): `bist`, the fresh repair map's cells. The factory repair and the union of fresh and saved map apply, each new
entry is a new defect. -/
def State.endBist (s : State) (bist : List Nat) : State :=
  let kept := s.boot.record
  let old := s.boot.withFactory kept
  let new := (distinct bist).filter (fun c => !old.cells.contains c)
  let u := { old with cells := old.cells ++ new }
  let s := (s.modBoot (fun b => { b with union := { kept with cells := kept.cells ++ new } })).applyRepair u
  let defect := fun (c : Nat) => ({ kind := 6, unit := unitOf 0 0, cls := 0, ctx := [], flags := 0, action := 0,
                                    detail := [(0, cborUint (c / 2 ^ 32)), (1, cborUint (c % 2 ^ 32))] } : RecArgs)
  let s := forAll (fun c s => s.record (defect c)) new s
  let s := forAll (fun cb s => if u.blkBad cb && !old.blkBad cb then
    s.retiredRecord cb (if cb % 16 ≠ 8 ∧ u.blkState (cb / 16 * 16 + 8) = 0 then unitBlk (cb / 16 * 16 + 8) else 0xFFFF) else s) allBlocks s
  s.setPar P.bootPhase 4

/-- The end of TRAIN: `remaps`, lanes remapped as stack, pseudo-channel, symbol; `dead`, stacks with a lane no spare replaces. -/
def State.endTrain (s : State) (remaps : List (Nat × Nat × Nat)) (dead : List Nat) : State :=
  let s := forAll (fun (m : Nat × Nat × Nat) s =>
    if m.1 < 16 then (s.logMedia 7 m.1 m.2.1 m.2.2 0xFF 0xFF 0xFFFF).setPar (P.mcLaneRemaps m.1) (Nat.min 256 (s.par (P.mcLaneRemaps m.1) + 1))
    else s) remaps s
  let s := forAll (fun k s => s.setPar (P.mcSrState k) srIdle) ((List.range 16).filter (fun k => !dead.contains k)) s
  let s := forAll (fun k s => (s.modStack k (fun r => { r with dying := true })).stackDies k) ((List.range 16).filter dead.contains) s
  s.setPar P.bootPhase 5

/-- The retirement list is reapplied (R335). -/
def State.reapply (s : State) : State :=
  forAll (fun e s =>
    match retireRange (e / 2 ^ 64) (e % 2 ^ 64) with
    | .ok (keys, _) => forAll (fun k s => s.retireFrame k) keys s
    | .error _ => s) s.media.retire s

/-- The end of RECORD: the device record is written, the stacks enter self-refresh, STANDBY; a region with fewer than 6 usable
blocks, or a dead one, ends in OUT_OF_SERVICE instead (R29, R366). -/
def State.endRecord (s : State) : State :=
  let l := s.boot.union.retire
  let s := ((s.modMedia (fun m => { m with retire := l })).setPar P.retireListUsed l.length).reapply
  let u := s.boot.union
  let s := (s.saveRec (fun _ => { u with seq := s.boot.record.seq })).modBoot (fun b => { b with union := default })
  let s := forAll (fun k s => s.enterSelf k) (List.range 16) s
  let s := (s.setPar P.bootPhase 7).setPar P.bootTimeMs ((s.now - s.boot.startAt) / 25000)
  let few := [0, 1, 2, 3].any (fun q => decide ((s.activeBlocks q).length < 6))
  if few || s.recov.oosDue then s.goOut else s.setDev dsStandby

/-- BOOT_PHASE_END (R399): what the phase that ends found. `flashOk`, the flash reads; `pufOk`, the PUF seed was reconstructed within
3 attempts. -/
def execBootPhaseEnd (flashOk pufOk : Bool) (bist : List Nat) (remaps : List (Nat × Nat × Nat)) (dead : List Nat) (s : State) : R :=
  .next (if !s.power.applied || s.power.tripped || s.dev != dsInit || s.boot.recovery then s
  else
    match s.par P.bootPhase with
    | 1 => if s.power.refHold then s else (s.setPar P.bootPhase 2).setPar P.glodyPlcaId (1 + s.glody.slot)
    | 2 => s.endVerify flashOk pufOk
    | 3 => s.endBist bist
    | 4 => s.endTrain remaps dead
    | 5 => s.setPar P.bootPhase 6
    | 6 => s.endRecord
    | _ => s)

/-- A restart at POWER_ON without a power cycle (R405): the flash, the clock and the counts from cold power-up stay. -/
def State.restart (s : State) : State :=
  let t := s.unpowered
  let keep := fun (k : Nat) (t : State) => t.setPar k (s.par k)
  let t := keep P.pwrInputMv (keep P.glodyNoticeSeq (keep P.integSigSeq t))
  { (t.setPar P.bootPhase 1) with
    now := s.now, power := { t.power with applied := true }, boot := { t.boot with startAt := s.now }
    glody := { t.glody with slot := s.glody.slot, txq := s.glody.txq } }

/-! Firmware update (R403, R415). -/

/-- Stage bytes into fw_stage: the reason of a refusal, or the state with the bytes staged (R415). -/
def State.stageBytes (s : State) (off : Nat) (d : List Byte) : Except Nat State :=
  let n := s.boot.stage.length
  if s.par P.fwUpdateState = 2 then .error rsAccess
  else if (off ≠ 0 ∧ off ≠ n) ∨ 66060288 < off + d.length then .error rsRange
  else
    let st := if off = 0 then d else s.boot.stage ++ d
    let full := decide (512 ≤ st.length) && decide (512 + imageLen st ≤ st.length)
    let s := s.modBoot (fun b => { b with stage := st })
    .ok (if full then s.setPar P.fwUpdateState 1 else if off = 0 then s.setPar P.fwUpdateState 0 else s)

/-- What an accepted write of fw_commit does (R403): the checks of orders 4 and 5, then the image area is erased and programmed. -/
def State.fwCommit (s : State) : State :=
  if imageFails s.boot.owner s.boot.stage (s.par P.fwSvnFloor) ≠ 0 then s.setPar P.fwUpdateState 4
  else ((s.setPar P.fwUpdateState 2).setPar P.fwUpdateBytes 0).modBoot (fun b => { b with image := [] })

/-- FW_COMMIT (R403): a write of 1 to fw_commit. -/
def execFwCommit (s : State) : R := .next (s.barWrite P.fwCommit 1 State.fwCommit)

/-- FW_WRITE_COMPLETE (R403): programming and read-back are over; `good`, what was read back passes. -/
def execFwWriteComplete (good : Bool) (s : State) : R :=
  .next (if s.par P.fwUpdateState ≠ 2 then s
  else
    let img := imageBytes s.boot.stage
    let s := s.setPar P.fwUpdateBytes img.length
    if good then (s.modBoot (fun b => { b with image := img })).setPar P.fwUpdateState 3 else s.setPar P.fwUpdateState 4)

/-! Key slots (R409, R410). -/

/-- key_kcv: the first 3 B of the AES-256 encryption of a zero block under key 1. -/
def kcvOf (key1 : List Byte) : Nat := ofLe ((aesEnc (roundKeys key1) (zeros 16)).take 3)

/-- What an accepted write of key_erase does (R410). -/
def State.keyErase (s : State) (slot : Nat) : State :=
  ((s.modBoot (fun b => { b with keys := Tab.erase slot b.keys })).setPar (P.keyState slot) 0).setPar (P.keyKcv slot) 0

/-- KEY_ERASE (R410). -/
def execKeyErase (slot : Fin 256) (s : State) : R := .next (s.barWrite (P.keyErase slot) 1 (fun s => s.keyErase slot))

/-- An SPDM session by its ID. -/
def State.session (s : State) (id : Nat) : Option Session := s.boot.sessions.find? (fun x => x.id == id)

/-- The answers of KEY_LOAD, in an SPDM vendor-defined response (R409): 0 OK, 1 SLOT_FULL, 2 BAD_KEY, 3 ACCESS_DENIED. -/
def State.keyLoad (s : State) (id slot : Nat) (key1 key2 : List Byte) : Nat × State :=
  let k1 := padTo 32 key1
  let k2 := padTo 32 key2
  let auth := match s.session id with | some x => x.mauth | none => false
  if !auth || (s.dev != dsStandby && s.dev != dsService) || s.warm then (3, s)
  else if s.par (P.keyState slot) = 1 then (1, s)
  else if k1 = k2 then (2, s)
  else (0, ((s.modBoot (fun b => { b with keys := Tab.insert slot (k1 ++ k2) (Tab.erase slot b.keys) })).setPar (P.keyState slot) 1).setPar
    (P.keyKcv slot) (kcvOf k1))

/-- KEY_LOAD (R409). -/
def execKeyLoad (session : Nat) (slot : Fin 256) (key1 key2 : List Byte) (s : State) : R :=
  let (code, s) := s.keyLoad session slot key1 key2
  .next (s.emit (.spdm session 0x7E (leBytes 1 code)))

end Sys2Proof.Machine
end

