-- ==== Sys2Proof/Machine/Warm.lean ====
section
/-! DEFINITION. The phases of a warm device reset (R380-R382, R404). -/
namespace Sys2Proof.Machine

/-- Read-only entries not marked keep that a rule keeps all the same (R12): what R190 keeps of a faulted reduction, what R381
recounts, and those that show, by their own rule, a thing R382 keeps (frames, the repair map, stacks, references, the service
function and links' status) or the always-on domain, the present state, the identity. DESIGN CHOICE (log 33): which these are. -/
def shownStill (k : Nat) : Bool :=
  let i := k / 256
  let b := k % 256
  (decide (0x8C00 ≤ i) && decide (i < 0x8D00) && b != 3) || (decide (0x2100 ≤ i) && decide (i < 0x2104)) || (decide (0x4100 ≤ i) && decide (i < 0x4140) && decide (13 ≤ b ∧ b ≤ 15)) ||
  i == 0x4040 || i == 0x4030 || i == 0x2200 || i == 0x1200 || i == 0x1201 || (decide (0x3010 ≤ i) && decide (i < 0x3020)) ||
  (decide (0x6100 ≤ i) && decide (i < 0x6140) && (b % 16 == 7 || b % 16 == 10)) || (decide (0x6010 ≤ i) && decide (i < 0x6014) && b == 3) ||
  (decide (0x7010 ≤ i) && decide (i < 0x7020) && b != 8 && b != 2) || (i == 0x7200 && (b == 13 || b == 15)) || (i == 0x9000 && (b == 14 || b == 15)) ||
  (decide (0x9100 ≤ i) && decide (i < 0x9140) && b == 2) || (i == 0x2000 && (b == 1 || b == 6)) || i == 0xA000 ||
  (decide (0xA010 ≤ i) && decide (i < 0xA014)) || i == 0x2400 || i == 0x1000 || (i == 0x1010 && b == 1) ||
  (decide (0x1100 ≤ i) && decide (i < 0x1104)) || i == 0x2500 || k == P.qRunning

/-- The entry keeps its value (R12, R382). -/
def warmKeeps (k : Nat) : Bool :=
  match cardOf k with
  | none => false
  | some c => c.acc != .ro || c.keep || shownStill k

/-- LOGIC (R382): what the region dies and the hub hold is lost. -/
def State.warmLogic (s : State) : State :=
  let writing := s.par P.fwUpdateState == 2
  let s := s.dropT0Waypoints (fun _ => true)
  let s := s.modMem (fun m => { m with
    t0 := [], t0marks := [], t0cache := [], promoQ := [], mover := [], detReads := [], rot := [] })
  let s := { s with arb := [], svc := { s.svc with ptr := 0 } }
  let s := s.modFac (fun f => { f with pipes := [], held := [], recon := [], panels := [], credits := [], lines := [], t0tiles := [], compWait := [], wpWait := [], runs := [] })
  let s := { s with
    dict := s.dict.filter (fun p => warmKeeps p.1)
    reds := []
    queues := { s.queues with groupPtr := 0, queuePtr := [] }
    ports := { s.ports with ld := s.ports.ld.map (fun (p : Nat × LdRec) =>
      (p.1, { p.2 with log := [], lost := [], lostFirst := [], lostLast := [], offered := [] })) } }
  let s := s.modRecov (fun r => { r with ctx := [], hung := [], ptr := [] })
  let s := s.modInteg (fun i => { i with flags := [], dice := [], ptr := [] })
  let s := s.modMedia (fun m => { m with scrubRead := [] })
  let s := forAll (fun k s => s.modStack k (fun r => { r with running := false, returning := false })) (Tab.keys s.stackTab) s
  let s := forAll (fun q s => if s.qMode q = 2 then s.setQMode q 2 0x15 else s) s.queuesOn s
  let s := if writing then s.setPar P.fwUpdateState 4 else s
  s.clearTokens

/-- FIRMWARE (R380, R404): the image is verified from the flash as at boot; with a write abandoned, the running image. -/
def State.warmFirmware (s : State) : State :=
  if s.par P.fwUpdateState = 4 ∧ s.boot.image.isEmpty then
    (if imageFails s.boot.owner s.boot.running (s.boot.floorFor s.boot.running) = 0 then
      (s.modMedia (fun m => { m with codeFault := 0, coresLost := false })).setPar P.devResetPhase 6
    else (((s.setPar P.devResetPhase 0).setPar P.devState dsInit).recovery 3))
  else
    match s.boot.failCode with
    | 0 => (s.runImage s.boot.image).setPar P.devResetPhase 6
    | c => ((s.setPar P.devResetPhase 0).setPar P.devState dsInit).recovery c

/-- WAKE (R380, R397): the bucket is filled; the clocks and the stacks but those dead or in HOLD spend their tokens, which arrive as
they are needed. -/
def State.warmWake (s : State) : State :=
  let ks := (List.range 16).filter (fun k => s.par (P.stackHealth k) != 2 && s.par (P.mcCond k) != 3)
  let spent := 24 + 4 * ks.length
  let more := spent - 40
  let s := (s.count P.wkIssued (40 - s.par P.wkHeld + more)).setPar P.wkHeld (40 + more)
  let s := s.spendWake spent
  let s := s.pw (fun p => { p with queue := [], exiting := [], granted := [], hubOff := false, hubBusy := false, s2At := [] })
  let s := forAll (fun q s => s.setPar (P.pwrRegionState q) 0) [0, 1, 2, 3] s
  let s := forAll (fun k s => s.setPar (P.mcSrState k) srActive) ks s
  (s.countWakes.setPwrState).setPar P.devResetPhase 7

/-- The version references are recounted (R217, R381). -/
def State.recountRefs (s : State) : State :=
  let l := s.srsOn.map s.refCounts
  let r := (l.map (fun x => x.1)).sum
  let w := (l.map (fun x => x.2.1)).sum
  let p := (l.map (fun x => x.2.2)).sum
  (((s.setPar P.vrefReader r).setPar P.vrefWriter w).setPar P.vrefPinned p).setPar P.vrefFree (s.par P.vrefTotal - r - w - p)

/-- REVALIDATE (R381): the map entries on both copies, the recount; `tables`, a job or version table, a frame state or a count is
bad. -/
def State.warmRevalidate (s : State) (ph : Phys) (tables : Bool) : State :=
  if tables then s.goOut
  else
    let bs := distinct (Tab.keys s.mem.mapPri ++ Tab.keys s.mem.mapMir ++ ph.mapPri.filter ph.mapMir.contains)
    let s := forAll (fun b s =>
      let (w, s) := s.readEntry .main b ph none 0xFF
      if (entryOf w).fieldsOk (s.placeKind b) then s else s.mapLost .main b none 0xFF) bs s
    let s := forAll (fun q s =>
      let n := (s.mem.frames.filter (fun p => frameStack p.1 / 4 == q)).length
      let s := forAll (fun st s => s.setPar (capKey q st) (s.tally q st)) [1, 2, 3, 4] s
      (s.setPar (capKey q 0) (s.par (P.capTotal q) - n - s.deadFrames q)).press q) [0, 1, 2, 3] s
    s.recountRefs.setPar P.devResetPhase 8

/-- The kind of the record that caused a SAFE cause (R363, R368). -/
def causeKind (c : Nat) : Nat :=
  match c with
  | 1 => 7
  | 2 => 8
  | 3 => 9
  | 6 => 9
  | 8 => 11
  | _ => 0

/-- REPLAY (R370, R380, R383): the journal is replayed; STANDBY; BACK; SERVICE when R366 says so. -/
def State.warmReplay (s : State) (lost : List Nat) (env : Env) : State :=
  let s := forAll (fun q s => s.journalIn q lost env) [0, 1, 2, 3] s
  let cause := s.par P.devSafeCause / 2 ^ 56
  let s := (s.setPar P.devLastWarmUs (Nat.min (2 ^ 32 - 1) ((s.now - s.recov.warmAt) / 25))).setPar P.devResetPhase 0
  let s := s.setDev dsStandby
  let s := s.resetRecord (unitOf 0 0) 3 (causeKind cause) s.recov.warmAt
  let s := s.recoveryNotices 2 3 0 (s.par P.devSafeCause % 2 ^ 32) true (Tab.get 4 s.recov.downJobs) 1025
  let s := s.modRecov (fun r => { r with downJobs := Tab.set 4 [] r.downJobs })
  if s.par P.devAutoService = 1 && s.recov.wasService && s.requestOk 1 then s.enterService
  else forAll (fun k s => s.enterSelf k) (List.range 16) s

/-- DOWN (R380, R383). -/
def State.warmDown (s : State) : State :=
  let c := s.par P.devSafeCause / 2 ^ 56
  let s := s.recoveryNotices 1 3 0 (s.par P.devSafeCause % 2 ^ 32) (c != 4) (Tab.get 4 s.recov.downJobs) 1025
  let s := s.resetLinks s.links
  let s := forAll (fun k s => s.enterSelf k) (List.range 16) s
  forAll (fun k s => if s.par (P.mcSrState k) = srEntering then s.inSelf k else s) (List.range 16) s

/-- WARM_RESET_PHASE_END (R380): `tables`, revalidation finds a bad table or count; `lost`, the DPAs of journaled lines lost. -/
def execWarmResetPhaseEnd (env : Env) (tables : Bool) (lost : List Nat) (s : State) : R :=
  .next (match s.par P.devResetPhase with
    | 1 => s.setPar P.devResetPhase 2
    | 2 => s.setPar P.devResetPhase 3
    | 3 => s.warmDown.setPar P.devResetPhase 4
    | 4 => s.warmLogic.setPar P.devResetPhase 5
    | 5 => s.warmFirmware
    | 6 => s.warmWake
    | 7 => s.warmRevalidate env.ph tables
    | 8 => (s.warmReplay lost env).armsGo
    | _ => s)

/-- WARM_RESET_OVERRUN (R372): not in STANDBY 400 ms after its start. -/
def execWarmResetOverrun (s : State) : R :=
  .next (if s.warm && decide (s.recov.warmAt + msT 400 ≤ s.now) then s.goOut else s)

end Sys2Proof.Machine
end

