-- ==== Sys2Proof/Machine/Audit.lean ====
section
/-! DEFINITION. The conservation audits (R429, R430). -/
namespace Sys2Proof.Machine

/-- One audit of a law: its pass counter, or its fail counter, the record and SAFE. -/
def State.audit (s : State) (ok : Bool) (pass fail law unit : Nat) (counts : List Nat) : State :=
  if ok then s.count pass 1 else (s.count fail 1).auditFail law unit counts

/-- The detour slot law (R163). -/
def State.detLaw (s : State) : Bool := s.par P.detFree + s.par P.detUsed == s.par P.detSlots

/-- What the record of a tollgate's failed audit carries: issued, held, spent, expired (R304). -/
def State.tgCounts (s : State) (t : Nat) : List Nat :=
  [Tab.get (t * 4) s.reg.counts, s.tgHeld t, Tab.get (t * 4 + 1) s.reg.counts, Tab.get (t * 4 + 2) s.reg.counts]

/-- The credit laws of a link (R251): each receive channel, whose free credits are granted at once, then each transmit channel. -/
def State.creditLaw (s : State) (k : Nat) : Bool :=
  let l := s.link k
  l.st != lkUp || ((List.range 6).all (fun c => Tab.get c l.occ + Tab.get c l.granted == linkDepth (s.cfgWidth k) c) &&
    (List.range 4).all (fun c => Tab.get c l.tx + Tab.get c l.sent == Tab.get c l.adv))

/-- The counts a failed credit audit records (R251): of each receive channel occupied and granted, of each transmit channel held, sent
and advertised. -/
def LinkRec.creditCounts (l : LinkRec) : List Nat :=
  (List.range 6).flatMap (fun c => [Tab.get c l.occ, Tab.get c l.granted]) ++
    (List.range 4).flatMap (fun c => [Tab.get c l.tx, Tab.get c l.sent, Tab.get c l.adv])

/-- The queue-entry law: the device-wide sums (R430), and each queue's slots. -/
def State.slotLaw (s : State) : Bool :=
  s.par P.qeFree + s.par P.qeStarted + s.par P.qeHeld == s.par P.qeTotal &&
  s.queues.q.all (fun p => decide (p.2.cmds.length + p.2.held.length ≤ 32))

/-- The audits are made (R429): from STANDBY on, outside a warm device reset. -/
def State.audits (s : State) : Bool := s.dev != dsInit && !s.warm

/-- The audit of one law over its scope (R429). -/
def State.auditLaw (s : State) (law : Nat) : State :=
  match law with
  | 1 => forAll (fun q s => s.capAudit q) [0, 1, 2, 3] s
  | 2 => s.audit s.detLaw P.detAuditPass P.detAuditFail 2 (unitOf 0 0) [s.par P.detFree, s.par P.detUsed, s.par P.detSlots]
  | 3 => if s.vrefOk then s.count P.vrefAuditPass 1 else s.vrefFail
  | 4 => forAll (fun k s => s.audit (s.creditLaw k) P.portCreditAuditPass P.portCreditAuditFail 4 (unitOf 5 k)
      (s.link k).creditCounts) s.links s
  | 5 => match (List.range 17).find? (fun t => !s.tgLaw t) with
    | none => s.count P.tgAuditPass 1
    | some t => (s.count P.tgAuditFail 1).auditFail 5 (if t < 16 then unitOf 5 (2 * t) else unitOf 6 0) (s.tgCounts t)
  | 6 => s.audit s.slotLaw P.qeAuditPass P.qeAuditFail 6 (unitOf 0 0) [s.par P.qeFree, s.par P.qeStarted, s.par P.qeHeld]
  | 7 => s.audit s.wakeLaw P.wkAuditPass P.wkAuditFail 7 (unitOf 0 0)
      [s.par P.wkIssued, s.par P.wkHeld, s.par P.wkSpent, s.par P.wkExpired]
  | _ => s

/-- CONSERVATION_AUDIT (R429): one law, by its code 1-7, on the one-second boundary. -/
def execConservationAudit (law : Fin 8) (s : State) : R := .next (if s.audits then s.auditLaw law else s)

end Sys2Proof.Machine
end

