-- ==== Sys2Proof/Machine/DictWrite.lean ====
section
/-! DEFINITION. What an accepted write of a dictionary entry does, whoever makes it (R412), and the writes through BAR0 that have no
row of their own (R275, R415, R431). -/
namespace Sys2Proof.Machine

/-! The content window (R415). -/

/-- A write of dom_data i, or the reason of its refusal: only fw_stage is writable. -/
def State.domWrite (s : State) (i v : Nat) : Except Nat State :=
  if s.par P.domSelect ≠ P.fwStage then .error rsAccess
  else s.stageBytes (s.par P.domOffset + 8 * i) (leBytes 8 v)

/-! The block-map reader (R66, R431). -/

/-- Latch the selected entry; a copy that reads uncorrectable shows a free value. -/
def State.diagLatch (s : State) (ph : Phys) : State :=
  let b := s.par P.diagMapDpa / 4096
  let pri := s.par P.diagMapCopy == 0
  let ue := if pri then ph.mapPri.contains b else ph.mapMir.contains b
  let w := Tab.getD 0 b (if pri then s.mem.mapPri else s.mem.mapMir)
  let ok := mapCheckOk w (s.hdrAt b (entryOf w))
  let v := if ue then s.freeValue % 2 ^ 128 else w.toNat
  let s := if ue then s.freeNext else s
  ((s.setPar P.diagMapLo (v % 2 ^ 64)).setPar P.diagMapHi (v / 2 ^ 64)).setPar P.diagMapCheck (if ue then 2 else if ok then 0 else 1)

/-! One effect for every entry. -/

/-- An accepted write of an object's entry; `none` where the entry has no effect of its own. -/
def State.objWrite (s : State) (k v : Nat) (ph : Phys) : Option State :=
  let i := k / 256
  let b := k % 256
  if 0x5100 ≤ i ∧ i < 0x5200 then
    let e := (i - 0x5100) * 16 + b / 16
    some (if b % 16 = 1 then s.ownCommit e v else s.ownShadow e (b % 16) v)
  else if 0x4100 ≤ i ∧ i < 0x4140 then
    let n := i - 0x4100
    if k = P.partCommit n then some (if v = 1 then s.partCommit n else s.partRelease n) else none
  else if 0x4200 ≤ i ∧ i < 0x4240 then
    let w := (i - 0x4200) * 16 + b / 16
    if k = P.winCommit w then some (if v = 1 then s.winCommit w else s.winWithdraw w) else none
  else if 0x4400 ≤ i ∧ i < 0x4500 then
    let n := i - 0x4400
    if k = P.srCommit n then some (if v = 1 then s.srCommit n else s.srRelease n)
    else if k = P.srKeep n then some (s.withRefs n (fun s => s.setPar k v))
    else if k = P.srLeaseEnable n then some (s.leaseEnable n v)
    else none
  else if 0x4600 ≤ i ∧ i < 0x4610 then
    if b % 8 = 3 then some (s.wpWrite ((i - 0x4600) * 32 + b / 8) v) else none
  else if 0x4800 ≤ i ∧ i < 0x5000 then
    let d := i - 0x4800
    if k = P.descCommit d then some (if v = 1 then s.descCommit d else s.descRelease d) else none
  else if 0x6100 ≤ i ∧ i < 0x6140 then
    let c := (i - 0x6100) * 16 + b / 16
    if k = P.rcCommit c then some (if v = 1 then s.rcCommit c else s.rcRelease c)
    else if 1 ≤ b % 16 ∧ b % 16 ≤ 6 then some (s.rcWrite k v)
    else none
  else if 0x8000 ≤ i ∧ i < 0x8400 then
    let q := (i - 0x8000) * 32 + b / 8
    if k = P.qCtl q then some (s.qCtl q v) else none
  else if 0x8400 ≤ i ∧ i < 0x8C00 then
    let j := (i - 0x8400) * 32 + b / 8
    if k = P.jobBase j then some (s.jobBase j v) else if k = P.jobRelease j then some (s.jobFree j) else none
  else if 0xC100 ≤ i ∧ i < 0xC110 then
    let n := i - 0xC100
    some (if b = 1 then s.trnCtlWrite n v else if b = 2 then s.trnLaneWrite n v else s.trnHoldWrite n v)
  else if 0x1100 ≤ i ∧ i < 0x1104 then some (s.keyErase ((i - 0x1100) * 64 + b / 4))
  else if 0x3010 ≤ i ∧ i < 0x3020 then
    let p := i - 0x3010
    if k = P.portEnable p then some ((s.storeWrite k v).enablePort p)
    else if k = P.portLatTolNs p then some ((s.setPar k v).tolExits)
    else none
  else if i = 0xC000 then some ((s.storeWrite k v).diagLatch ph)
  else none

/-- An accepted write of an entry of the whole device; `none` where the entry has no effect of its own. -/
def State.devWrite (s : State) (k v : Nat) (ph : Phys) : Option State :=
  if k = P.devRequest then some (s.devRequest v)
  else if k = P.fwCommit then some s.fwCommit
  else if k = P.shareVersionReset then some s.versionReset
  else if k = P.shareDeclareDead then some ((s.declareDead (v / 256) (v % 256)).retryCoh ph)
  else if k = P.shareRevive then some (s.rejoin (v / 256) (v % 256))
  else if k = P.svcLatTolNs ∨ k = P.pwrDefaultTolNs ∨ k = P.pwrMaxState then some ((s.setPar k v).tolExits)
  else if k = P.detSize then some ((s.setPar k v).detSizes)
  else if k = P.capLowWater ∨ k = P.capEmergencyPool then some (forAll (fun q s => s.press q) [0, 1, 2, 3] (s.setPar k v))
  else none

/-- What an accepted write does (R412). -/
def State.writeEffect (s : State) (k v : Nat) (ph : Phys) : State :=
  match s.objWrite k v ph with
  | some t => t
  | none => (s.devWrite k v ph).getD (s.storeWrite k v)

/-- A checked write: applied, or the reason of its refusal. `tie` includes the rules that tie entries together. -/
def State.applyWrite (s : State) (k v : Nat) (ph : Phys) (tie : Bool) : Except Nat State :=
  match (if tie then s.checkOne k v else s.checkWrite k v) with
  | some r => .error r
  | none => if 0x1410 * 256 ≤ k ∧ k < 0x1411 * 256 then s.domWrite (k % 256) v else .ok (s.writeEffect k v ph)

/-! BAR0 (R275). -/

/-- The reason for which the size of an access to a slot refuses a write, if any: 4 B to the upper half, or to a wide entry. -/
def sizeRefuse (c : Card) (size off : Nat) : Bool := size == 4 && (off % 8 == 4 || decide (32 < c.bits))

/-- A BAR0 write of `size` bytes at a byte offset (R274, R275, R412, R413). -/
def State.barPut (s : State) (off size v : Nat) (ph : Phys) : State :=
  let k := off / 8
  if !s.barOn || (size != 4 && size != 8) || off % size != 0 then s.aerUr
  else if !s.dictOn then s
  else
    match cardOf k with
    | none => s.barRefuse k rsNoEntry
    | some c =>
      if c.dom then s.barRefuse k rsAccess
      else if sizeRefuse c size off then s.barRefuse k rsSize
      else
        match s.applyWrite k (v % 2 ^ (8 * size)) ph true with
        | .error r => s.barRefuse k r
        | .ok t => t

/-- DICT_WRITE (R275): `size` bytes at a byte offset of BAR0; a poisoned write is discarded and logged as Poisoned TLP Received (R285). -/
def execDictWrite (offset : Fin 134217728) (size : Nat) (data : DictData) (ph : Phys) (s : State) : R :=
  .next (if data.poisoned then s.aerUncorr 12 false else s.barPut offset size data.value ph)

/-- DOM_DATA_WRITE (R415): a write of `size` bytes to dom_data. -/
def execDomDataWrite (slot : Fin 256) (size value : Nat) (s : State) : R :=
  .next (s.barPut (P.domData slot * 8) size value default)

/-- DIAG_MAP_LATCH (R431): a write of diag_map_dpa (0), diag_map_copy (1) or diag_map_latch (2). -/
def execDiagMapLatch (entry : Fin 3) (value : Nat) (ph : Phys) (s : State) : R :=
  let k := if entry = 0 then P.diagMapDpa else if entry = 1 then P.diagMapCopy else P.diagMapLatch
  .next (s.barPut (k * 8) 8 value ph)

end Sys2Proof.Machine
end

