-- ==== Sys2Proof/Machine/Mgmt.lean ====
section
/-! DEFINITION. The management network: SPDM, MCTP, the loader, Glody requests, notices and announcements, I3C (R405-R408,
R416-R428, R441). -/
namespace Sys2Proof.Machine

/-- Change the management network's record. -/
def State.modGlody (s : State) (f : Glody → Glody) : State := { s with glody := f s.glody }

/-! SPDM (R407, R408). -/

/-- The SPDM responder runs: the alias key exists. -/
def State.spdmOn (s : State) : Bool := s.boot.aliasKey && !s.boot.recovery

/-- A Glody session closes (R419). -/
def State.gClose (s : State) (id : Nat) : State :=
  let l := s.glody.sessions.filter (fun x => x.id != id)
  (s.modGlody (fun g => { g with sessions := l })).setPar P.glodySessions l.length

/-- An SPDM session ends, with the Glody session that rests on it (R419). -/
def State.spdmEnd (s : State) (id : Nat) : State :=
  (s.modBoot (fun b => { b with sessions := b.sessions.filter (fun x => x.id != id) })).gClose id

/-- A request inside a session shows that it lives. -/
def State.spdmSeen (s : State) (id : Nat) : State :=
  s.modBoot (fun b => { b with sessions := b.sessions.map (fun x => if x.id = id then { x with seen := s.now } else x) })

/-- One measurement in DMTF format (R408): index, type with its raw-value bit, value. PRESUMED: DMTF types 0 ROM, 1 firmware, 3
firmware configuration, 7 version; 2 hardware configuration. -/
def measBlock (index type : Nat) (v : List Byte) : List Byte :=
  leBytes 1 index ++ leBytes 1 1 ++ leBytes 2 (v.length + 3) ++ leBytes 1 type ++ leBytes 2 v.length ++ v

/-- The numbers of a repair map and retirement list. -/
def DevRecord.numbers (r : DevRecord) : List Nat := Tab.keys r.unusable ++ Tab.keys r.lanes ++ r.cells ++ r.retire

/-- Measurement block i, 1-6 (R408). -/
def State.measure (s : State) (i : Nat) : List Byte :=
  match i with
  | 1 => measBlock 1 0 Config.romDigest
  | 2 => measBlock 2 1 (sha512 s.boot.running)
  | 3 => measBlock 3 3 (sha512 s.boot.config)
  | 4 => measBlock 4 (128 + 7) (leBytes 4 (s.par P.fwVersion) ++ leBytes 2 (s.par P.fwSvn) ++ leBytes 2 (s.par P.fwSvnFloor))
  | 5 => measBlock 5 2 (sha512 (Config.mapBytes s.boot.record.numbers))
  | _ => measBlock 6 (128 + 3) (leBytes 1 (s.par P.fmTrustMode) ++ leBytes 1 (s.par P.integChecks) ++ leBytes 1 (s.par P.integDual) ++
      (List.range 16).flatMap (fun p => leBytes 1 (s.par (P.portIde p))))

/-- SPDM_GET_MEASUREMENTS (R408): operation 0 asks for the number of blocks, 1-6 for one, 255 for all; signed on request. -/
def execSpdmGetMeasurements (session : Nat) (operation : Fin 256) (signed : Bool) (nonce : List Byte) (s : State) : R :=
  .next (if !s.spdmOn then s
  else
    let s := s.spdmSeen session
    let ok := operation.val ≤ 6 || operation == 255
    if !ok then s.emit (.spdm session 0x7F [0x01#8])
    else
      let ix := if operation = 0 then [] else if operation = 255 then [1, 2, 3, 4, 5, 6] else [operation.val]
      let body := leBytes 1 (if operation = 0 then 6 else ix.length) ++ ix.flatMap s.measure ++ padTo 32 nonce
      if signed then s.freeNext.emit (.spdm session 0x60 (body ++ Config.sign s.freeCtr body)) else s.emit (.spdm session 0x60 body))

/-- SPDM_KEY_EXCHANGE (R407): `id`, the session ID that the two sides form; `mauth`, the requester is mutually authenticated by a
chain that ends at the owner key; `heartbeat` in seconds, 0 without HBEAT. A fifth session receives Busy. -/
def execSpdmKeyExchange (id : Nat) (mauth : Bool) (transport : Fin 3) (heartbeat : Nat) (s : State) : R :=
  .next (if !s.spdmOn then s
  else if 4 ≤ s.boot.sessions.length ∨ (s.session id).isSome then s.emit (.spdm 0 0x7F [0x03#8])
  else
    let x : Session := { id := id, mauth := mauth, transport := transport, beat := msT (1000 * heartbeat), seen := s.now }
    (s.freeNext.modBoot (fun b => { b with sessions := b.sessions ++ [x] })).emit (.spdm id 0x64 (Config.spdm 0xE4 [] s.freeCtr)))

/-- The SPDM 1.3 requests that the capabilities of R407 name: GET_DIGESTS, GET_CERTIFICATE, CHALLENGE, GET_VERSION,
GET_MEASUREMENTS, GET_CAPABILITIES, NEGOTIATE_ALGORITHMS, KEY_EXCHANGE, FINISH, HEARTBEAT, END_SESSION. Every other one is absent (R3). -/
def spdmAbsent (code : Nat) : Bool := !(([0x81, 0x82, 0x83, 0x84, 0xE0, 0xE1, 0xE3, 0xE4, 0xE5, 0xE8, 0xEC] : List Nat).contains code)

/-- SPDM_REQUEST (R407): any other request; END_SESSION (0xEC) ends its session. An absent one gets UnsupportedRequest with its code
(R3). The answers' content is SPDM's: free values. -/
def execSpdmRequest (session : Nat) (code : Fin 256) (payload : List Byte) (s : State) : R :=
  .next (if !s.spdmOn then s
  else if spdmAbsent code then s.emit (.spdm session 0x7F [0x07#8, BitVec.ofNat 8 code])
  else
    let s := s.spdmSeen session
    let s := if code = 0xEC then s.spdmEnd session else s
    s.freeNext.emit (.spdm session (code.val % 128) (Config.spdm code payload s.freeCtr)))

/-- SPDM_HEARTBEAT_TIMEOUT (R407). -/
def execSpdmHeartbeatTimeout (session : Nat) (s : State) : R :=
  .next (match s.session session with
    | some x => if x.beat ≠ 0 && decide (x.seen + x.beat ≤ s.now) then s.spdmEnd session else s
    | none => s)

/-! MCTP (R426). -/

/-- MCTP_PACKET (R426): a packet of `length` bytes to endpoint `eid`, over PCIe VDM or Glody type 6. The hub is woken (R394); what the
message does, its own command says. -/
def execMctpPacket (glody : Bool) (eid length : Nat) (s : State) : R :=
  .next (if glody && (decide (length < 64) || decide (1024 < length)) then s
  else if (match s.glody.eid with | some e => eid == e || eid == 0 | none => true) then s.wakeHub 17 else s)

/-- SET_ENDPOINT_ID (R426). PRESUMED: MCTP's invalid IDs 0-7 and 255 are refused. -/
def execSetEndpointId (eid : Fin 256) (s : State) : R :=
  .next (if 8 ≤ eid.val ∧ eid.val ≤ 254 then (s.modGlody (fun g => { g with eid := some eid.val })).emit (.spdm 0 1 [0, BitVec.ofNat 8 eid])
  else s.emit (.spdm 0 1 [2]))

/-! Replies (R417, R421, R422). -/

def gOk : Nat := 0
def gAuth : Nat := 0x10
def gBusy : Nat := 0x11
def gUnavailable : Nat := 6
def gInvalidExtent : Nat := 7

/-- A reply waits in the transmit queue (R423). -/
def gReply (type op status session seq src : Nat) (payload : List Byte) : Datagram :=
  { prio := 2, type := type, op := op, flags := if session = 0 then 0 else 1, status := status, session := session, seq := seq,
    payload := payload, dest := src + 1 }

/-- An unprotected error reply: at most 10 in a second (R421). -/
def State.gError (s : State) (op status seq src : Nat) : State :=
  let fresh := decide (s.glody.errStart + msT 1000 ≤ s.now) || s.glody.errSent == 0
  let n := if fresh then 0 else s.glody.errSent
  if 10 ≤ n then s
  else (s.modGlody (fun g => { g with errStart := if fresh then s.now else g.errStart, errSent := n + 1 })).enqueue
    (gReply 2 op status 0 seq src [])

/-- The network takes requests: from the end of VERIFY, and with glody_enable (R413, R428). -/
def State.gOn (s : State) : Bool := s.power.applied && !s.power.tripped && (s.dictOn || s.warmShut) && s.par P.glodyEnable == 1

/-! The loader (R427). -/

/-- The bytes an object's area holds at most (R401). -/
def areaSize : Nat → Nat
  | 1 => 4096
  | 2 => 61440
  | _ => 66060288

/-- The object's content in the flash. -/
def Boot.area (b : Boot) : Nat → List Byte
  | 1 => b.keyBlock
  | 2 => b.config
  | _ => b.image
def Boot.setArea (b : Boot) (o : Nat) (d : List Byte) : Boot :=
  match o with
  | 1 => { b with keyBlock := d }
  | 2 => { b with config := d }
  | _ => { b with image := d }

/-- The first order of R402 that an object fails, or 0. -/
def Boot.objFails (b : Boot) (o : Nat) : Nat :=
  match o with
  | 1 => if !b.rootOk then 1 else if !b.ownerOk then 2 else 0
  | 2 => if b.configOk then 0 else 3
  | _ => imageFails b.owner b.image (b.floorFor b.image)

/-- A loader reply. -/
def State.lReply (s : State) (op status seq src : Nat) (payload : List Byte) : State := s.enqueue (gReply 5 op status 0 seq src payload)

/-- The transfer belongs to a source. -/
def State.loads (s : State) (src : Nat) : Bool := s.glody.loader.busy && s.glody.loader.source == src

/-- BEGIN (R427). -/
def execBegin (source seq object length : Nat) (s : State) : R :=
  .next (if !s.boot.recovery then s
  else if s.glody.loader.busy && s.glody.loader.source != source then s.lReply 1 gBusy seq source []
  else if object = 0 ∨ 3 < object then s.lReply 1 rsRange seq source []
  else if object ≠ 3 && s.boot.objFails object == 0 then s.lReply 1 0x13 seq source []
  else if areaSize object < length then s.lReply 1 rsSize seq source []
  else
    let l : Loader := { busy := true, source := source, object := object, length := length, next := 0, prev := 0, used := s.now }
    ((s.modBoot (fun b => b.setArea object [])).modGlody (fun g => { g with loader := l })).lReply 1 gOk seq source [])

/-- DATA (R427). -/
def execData (source seq offset : Nat) (bytes : List Byte) (s : State) : R :=
  .next (if !s.boot.recovery then s
  else
    let l := s.glody.loader
    if l.busy && l.source != source then s.lReply 2 gBusy seq source []
    else if !l.busy then s.lReply 2 rsRange seq source (leBytes 4 0)
    else
      let s := s.modGlody (fun g => { g with loader := { l with used := s.now } })
      if bytes.isEmpty ∨ 1024 < bytes.length then s.lReply 2 rsSize seq source (leBytes 4 l.next)
      else if offset = l.next ∧ offset + bytes.length ≤ l.length then
        let n := offset + bytes.length
        ((s.modBoot (fun b => b.setArea l.object (b.area l.object ++ bytes))).modGlody (fun g =>
          { g with loader := { l with next := n, prev := offset + 1, used := s.now } })).lReply 2 gOk seq source (leBytes 4 n)
      else if offset + 1 = l.prev then s.lReply 2 gOk seq source (leBytes 4 l.next)
      else s.lReply 2 rsRange seq source (leBytes 4 l.next))

/-- END (R427): the object is checked in the flash; when every check passes, the device restarts at POWER_ON (R405). -/
def execEnd (source seq : Nat) (s : State) : R :=
  .next (if !s.boot.recovery then s
  else if s.glody.loader.busy && s.glody.loader.source != source then s.lReply 3 gBusy seq source []
  else if !s.loads source then s.lReply 3 rsRange seq source []
  else
    let n := s.boot.objFails s.glody.loader.object
    let s := s.modGlody (fun g => { g with loader := default })
    let s := s.lReply 3 (if n = 0 then gOk else 0x14) seq source (leBytes 1 n)
    if s.boot.fails = 0 then s.restart else s)

/-- LOADER_TRANSFER_TIMEOUT (R427): no datagram for 10 s. -/
def execLoaderTransferTimeout (s : State) : R :=
  .next (if s.glody.loader.busy && decide (s.glody.loader.used + msT 10000 ≤ s.now) then s.modGlody (fun g => { g with loader := default }) else s)

/-! Requests (R419-R422). -/

/-- Where a request came from: its session (0: unprotected), its sequence, whether its tag holds, its source. -/
structure Req where
  session : Nat
  seq : Nat
  tagOk : Bool
  src : Nat

/-- A SPDM session on which a Glody session may rest (R419). -/
def State.qualifies (s : State) (id : Nat) : Bool := match s.session id with | some x => x.mauth && x.transport == 1 | none => false

/-- The outcome of a protected request's sequence check and, when it is new, of its execution (R419). -/
def State.protectedReq (s : State) (r : Req) (op : Nat) (f : State → Nat × List Byte × State) : State :=
  if !r.tagOk || !s.qualifies r.session then s.count P.glodyAuthFail 1
  else
    let old := s.glody.sessions.find? (fun x => x.id == r.session)
    let last := (old.map GSession.last).getD 0
    if r.seq < last ∨ (old.isNone ∧ r.seq = 0) then s.count P.glodyReplayDrop 1
    else
      let s := s.spdmSeen r.session
      let stamp := fun (s : State) (d : Datagram) =>
        let x : GSession := { id := r.session, last := r.seq, reply := d, used := s.now }
        let l := s.glody.sessions.filter (fun y => y.id != r.session) ++ [x]
        (s.modGlody (fun g => { g with sessions := l })).setPar P.glodySessions l.length
      match old with
      | some x => if r.seq = last then (stamp s x.reply).enqueue x.reply else
          let (st, p, s) := f s
          let d := gReply 2 op st r.session r.seq r.src p
          let s := (stamp s d).enqueue d
          if r.seq = 2 ^ 32 - 1 then s.gClose r.session else s
      | none =>
          let (st, p, s) := f s
          let d := gReply 2 op st r.session r.seq r.src p
          let s := (stamp s d).enqueue d
          if r.seq = 2 ^ 32 - 1 then s.gClose r.session else s

/-- A REQUEST (R413, R419, R421): `f` executes it and gives its status and reply payload; outside READ it completes UNAVAILABLE during a
warm device reset. -/
def State.request (s : State) (r : Req) (op : Nat) (f : State → Nat × List Byte × State) : State :=
  if s.boot.recovery then s.gError op gUnavailable r.seq r.src
  else if !s.gOn then s
  else
    let f := fun (s : State) => if s.warmShut && op != 1 then (gUnavailable, [], s) else f s
    let s := s.wakeHub 17
    if r.session ≠ 0 then s.protectedReq r op f
    else if op = 1 && s.par P.glodyReadOpen == 1 then
      let (st, p, s) := f s
      s.enqueue (gReply 2 op st 0 r.seq r.src p)
    else s.gError op gAuth r.seq r.src

/-- The value and status of a READ item (R413, R420). -/
def State.readItem (s : State) (k : Nat) : Nat × Nat :=
  if s.warmShut && k / 256 != 0x2000 then (0, gUnavailable)
  else if (cardOf k).isNone then (0, rsNoEntry)
  else (s.readPar k, gOk)

/-- READ (R420). -/
def State.gRead (s : State) (items : List Nat) : Nat × List Byte × State :=
  if items.isEmpty ∨ 64 < items.length then (rsSize, [], s)
  else
    let vs := items.map s.readItem
    (gOk, vs.flatMap (fun v => leBytes 8 v.1) ++ vs.flatMap (fun v => leBytes 1 v.2), forAll (fun k s => s.readClears k) items s)

/-- GLODY_READ (R420): items as index * 256 + subindex. -/
def execGlodyRead (session seq : Nat) (tagOk : Bool) (src : Nat) (items : List (Fin 16777216)) (s : State) : R :=
  .next (s.request ⟨session, seq, tagOk, src⟩ 1 (fun s => s.gRead (items.map Fin.val)))

/-- The items of a group in order: the state they would leave, or the failing item and its reason (R420). -/
def State.applyItems (s : State) (ph : Phys) : List (Nat × Nat) → Nat → Except (Nat × Nat) State
  | [], _ => .ok s
  | (k, v) :: rest, n =>
    match s.applyWrite k v ph false with
    | .error r => .error (n, r)
    | .ok t => t.applyItems ph rest (n + 1)

/-- The last item of a group that writes an entry whose tying rule fails (R420). -/
def State.tieFails (s : State) (items : List (Nat × Nat)) : Option Nat :=
  ((items.zip (List.range items.length)).filter (fun x => !tieOk s.par x.1.1)).getLast?.map Prod.snd

/-- WRITE (R420): the whole group, or nothing. -/
def State.gWrite (s : State) (items : List (Nat × Nat)) (ph : Phys) : Nat × List Byte × State :=
  let fail := fun (n r : Nat) => (r, leBytes 1 n ++ leBytes 1 r, s)
  if items.isEmpty ∨ 32 < items.length then (rsSize, [], s)
  else
    match s.applyItems ph items 0 with
    | .error (n, r) =>
      let k := ((items[n]?).map Prod.fst).getD 0
      let (st, p, s) := fail n r
      (st, p, s.badStart k r)
    | .ok t =>
      match t.tieFails items with
      | some n => fail n rsRange
      | none => (gOk, leBytes 1 0xFF ++ leBytes 1 gOk, t)

/-- GLODY_WRITE (R420). -/
def execGlodyWrite (session seq : Nat) (tagOk : Bool) (src : Nat) (items : List (Fin 16777216 × Nat)) (ph : Phys) (s : State) : R :=
  .next (s.request ⟨session, seq, tagOk, src⟩ 2 (fun s => s.gWrite (items.map (fun x => (x.1.val, x.2 % 2 ^ 64))) ph))

/-- The entry is a DOMAIN or VSTR. -/
def isDomain (k : Nat) : Bool := match cardOf k with | some c => c.dom | none => false

/-- READ_DOMAIN (R420). -/
def State.gReadDomain (s : State) (k off n : Nat) : Nat × List Byte × State :=
  if !isDomain k then (rsNoEntry, [], s)
  else if n = 0 ∨ 1024 < n then (rsSize, [], s)
  else
    let m := Nat.min n (s.domLen k - off)
    (gOk, leBytes 4 (s.domLen k) ++ leBytes 2 m ++ leBytes 2 0 ++ s.domBytes k off m, s)

/-- READ_DOMAIN (R420). -/
def execReadDomain (session seq : Nat) (tagOk : Bool) (src : Nat) (key : Fin 16777216) (offset length : Nat) (s : State) : R :=
  .next (s.request ⟨session, seq, tagOk, src⟩ 3 (fun s => s.gReadDomain key offset length))

/-- WRITE_DOMAIN (R415, R420). -/
def State.gWriteDomain (s : State) (k off : Nat) (d : List Byte) : Nat × List Byte × State :=
  if !isDomain k then (rsNoEntry, [], s)
  else if d.isEmpty ∨ 1024 < d.length then (rsSize, [], s)
  else if k ≠ P.fwStage then (rsAccess, [], s)
  else
    match s.stageBytes off d with
    | .error r => (r, [], s)
    | .ok t => (gOk, [], t)

/-- WRITE_DOMAIN (R420). -/
def execWriteDomain (session seq : Nat) (tagOk : Bool) (src : Nat) (key : Fin 16777216) (offset : Nat) (bytes : List Byte) (s : State) : R :=
  .next (s.request ⟨session, seq, tagOk, src⟩ 4 (fun s => s.gWriteDomain key offset bytes))

/-- DC_ADD and DC_RELEASE (R261, R420). -/
def State.gDc (s : State) (add : Bool) (port count dpa : Nat) : Nat × List Byte × State :=
  if count = 0 ∨ 1024 < count ∨ dpa % 2 ^ 21 ≠ 0 then (rsSize, [], s)
  else
    let (ok, t) := if add then s.dcAdd port (dpa / 2 ^ 21) count else s.dcRelease port (dpa / 2 ^ 21) count
    if ok then (gOk, [], t) else (gInvalidExtent, [], s)

/-- The LD named by port, half and number. -/
def ldOf (port half ld : Nat) : Nat := (2 * port + half) * 16 + ld

/-- DC_ADD (R420). -/
def execDcAdd (session seq : Nat) (tagOk : Bool) (src : Nat) (port : Fin 16) (half : Fin 2) (ld : Fin 16) (count dpa : Nat) (s : State) : R :=
  .next (s.request ⟨session, seq, tagOk, src⟩ 5 (fun s => s.gDc true (ldOf port half ld) count dpa))

/-- DC_RELEASE (R420). -/
def execDcRelease (session seq : Nat) (tagOk : Bool) (src : Nat) (port : Fin 16) (half : Fin 2) (ld : Fin 16) (count dpa : Nat) (s : State) : R :=
  .next (s.request ⟨session, seq, tagOk, src⟩ 6 (fun s => s.gDc false (ldOf port half ld) count dpa))

/-- KEEPALIVE (R420). -/
def execKeepalive (session seq : Nat) (tagOk : Bool) (src : Nat) (s : State) : R :=
  .next (s.request ⟨session, seq, tagOk, src⟩ 7 (fun s => (gOk, [], s)))

/-- CLOSE (R419): answered, then the session closes. -/
def execClose (session seq : Nat) (tagOk : Bool) (src : Nat) (s : State) : R :=
  let was := s.glody.sessions.find? (fun x => x.id == session)
  let t := s.request ⟨session, seq, tagOk, src⟩ 8 (fun s => (gOk, [], s))
  let fresh := tagOk && s.qualifies session && s.gOn && (match was with | some x => decide (x.last < seq) | none => decide (1 ≤ seq))
  .next (if session ≠ 0 && fresh && !s.boot.recovery && !s.warmShut then t.gClose session else t)

/-- GLODY_SESSION_IDLE_EXPIRY (R419). -/
def execGlodySessionIdleExpiry (session : Nat) (s : State) : R :=
  .next (match s.glody.sessions.find? (fun x => x.id == session) with
    | some x => if x.used + msT (s.par P.glodySessionIdleMs) ≤ s.now then s.gClose session else s
    | none => s)

/-- GLODY_DATAGRAM_DROP (R416, R417, R419, R421, R422): 0 malformed, misaddressed, or of a type the state does not take: dropped; 1 its
tag fails or its session does not qualify: counted; 2 an unprotected request that is no READ: AUTH; 3 an undefined op in a session:
UNKNOWN_OP. -/
def execGlodyDatagramDrop (kind : Fin 4) (session seq : Nat) (op : Fin 256) (src : Nat) (s : State) : R :=
  .next (match kind.val with
    | 1 => s.request ⟨session + 1, seq, false, src⟩ op (fun s => (gOk, [], s))
    | 2 => if op = 1 then s else s.request ⟨0, seq, false, src⟩ op (fun s => (gAuth, [], s))
    | 3 => if 1 ≤ op.val ∧ op.val ≤ 8 then s else s.request ⟨session, seq, true, src⟩ op (fun s => (0x12, [], s))
    | _ => s)

/-! Notices, announcements, the wire (R416, R423, R425). -/

/-- NOTICE_REPEAT (R423): the first notice whose repeat is due. -/
def execNoticeRepeat (s : State) : R :=
  .next (match s.glody.again with
    | (t, d) :: rest => if t ≤ s.now then (s.modGlody (fun g => { g with again := rest })).enqueue d else s
    | [] => s)

/-- The header of a datagram (R417). -/
def Datagram.header (d : Datagram) : List Byte :=
  leBytes 2 0x474C ++ leBytes 1 1 ++ leBytes 1 d.type ++ leBytes 1 d.flags ++ leBytes 1 d.op ++ leBytes 1 d.status ++ zeros 1 ++
    leBytes 4 d.session ++ leBytes 4 d.seq ++ leBytes 2 d.payload.length ++ zeros 2 ++ devIdBytes ++ zeros 4

/-- The oldest datagram of the highest priority (R423). -/
def headOfTx (q : List Datagram) : Option Datagram :=
  q.find? (fun d => q.all (fun e => decide (d.prio ≤ e.prio)))

/-- GLODY_TRANSMIT (R423). -/
def execGlodyTransmit (s : State) : R :=
  .next (match headOfTx s.glody.txq with
    | none => s
    | some d =>
      let s' := s.modGlody (fun g => { g with txq := dropOldest d.prio g.txq })
      if d.flags / 2 % 2 = 1 then s'.freeNext.emit (.glody d.dest d (Config.sign s.freeCtr (d.header ++ d.payload)))
      else s'.emit (.glody d.dest d []))

/-- The payload of ANNOUNCE (R425). -/
def State.announcement (s : State) : List Byte :=
  let flags := (if s.par P.integChecks = 0 then 1 else 0) + (if s.par P.integDual ≠ 0 then 2 else 0) + (if s.boot.recovery then 4 else 0) +
    (if s.glody.sessions.length = 4 then 8 else 0)
  cborMap ([(0, cborUint 1), (1, cborBytes devIdBytes), (2, cborUint s.dev), (3, cborUint (s.par P.bootPhase))] ++
    (if s.boot.recovery then [] else [(4, cborUint (s.par P.fwVersion))]) ++
    [(5, cborUint (s.par P.glodyPlcaId)), (6, cborUint flags), (7, cborUint (s.par P.pwrState))])

/-- The device has its identity on the network: from VERIFY on, and in RECOVERY with the flash readable (R400). -/
def State.named (s : State) : Bool := s.spdmOn || (s.boot.recovery && s.par P.bootStatus / 2 ^ 56 != 1)

/-- ANNOUNCE (R425). -/
def execAnnounce (s : State) : R :=
  let ms := if s.boot.recovery then 1000 else 1000 * s.par P.glodyAnnounceS
  .next (if s.named && decide (s.glody.announced + msT ms ≤ s.now) then
    (s.modGlody (fun g => { g with announced := s.now })).enqueue
      { prio := 4, type := 4, op := 0, flags := if s.boot.aliasKey then 2 else 0, status := 0, session := 0, seq := 0, payload := s.announcement }
  else s)

/-- PLCA_BEACON (R416). -/
def execPlcaBeacon (s : State) : R :=
  .next (if s.par P.glodyPlcaCoord = 1 && s.named then s.emit (.frame 0 (s.par P.glodyPlcaCount)) else s)

/-- PLCA_BEACON_STATUS_CHANGE (R416). -/
def execPlcaBeaconStatusChange (present : Bool) (s : State) : R :=
  .next (if s.par P.glodyPlcaCoord = 1 then s else s.modGlody (fun g => { g with beacon := present }))

/-- NEIGHBOR_SOLICITATION (R416): for fe80:: with the interface identifier `target`; answered with the device's MAC address. -/
def execNeighborSolicitation (target : Nat) (s : State) : R :=
  .next (if s.named && target == devId then s.emit (.frame 1 (0x02 * 2 ^ 40 + devId % 2 ^ 40)) else s)

/-- The presence block that a private read on the I3C bus returns (R441). -/
def State.presence (s : State) : List Byte :=
  let temp := if s.par P.bootPhase < 4 ∨ s.boot.recovery then 0x80 else s.topTemp
  leBytes 2 0x1672 ++ leBytes 1 s.dev ++ leBytes 1 (s.par P.bootPhase) ++ leBytes 1 temp ++ leBytes 1 (s.par P.pwrState) ++
    leBytes 2 (s.par P.pwrInputW)

/-- I3C_DYNAMIC_ADDRESS_ASSIGNMENT (R441): ENTDAA, from the end of POWER_ON on; the provisional ID answers. -/
def execI3cDynamicAddressAssignment (address : Fin 128) (s : State) : R :=
  .next (if !s.power.applied || decide (s.par P.bootPhase < 2) then s
  else
    let pid := Config.mipiId % 2 ^ 15 * 2 ^ 33 + 0x1672 * 2 ^ 16 + s.glody.slot % 16 * 2 ^ 12 + devId % 2 ^ 12
    (s.modGlody (fun g => { g with i3cAddr := some address.val })).emit (.i3c (beBytes 6 pid)))

end Sys2Proof.Machine
end

