-- ==== Sys2Proof/Machine/Dispatch.lean ====
section
/-! DEFINITION. One arm per command. -/
namespace Sys2Proof.Machine

/-- The effect of a command on everything but the queue. -/
def exec (i : Instr) (s : State) : Host.Outcome State Fault Refusal :=
  match i with
  | .cxlMemRead port address want ph => Sys2Proof.Machine.execCxlMemRead port address want ph s
  | .cxlMemWrite port address data mask mark keep => Sys2Proof.Machine.execCxlMemWrite port address data mask mark keep s
  | .tollgateRelease port ph => Sys2Proof.Machine.execTollgateRelease port ph s
  | .gatherTimeout block owner env => Sys2Proof.Machine.execGatherTimeout block owner env s
  | .checkerRoundTrip block owner flag code own partner ph => Sys2Proof.Machine.execCheckerRoundTrip block owner flag code own partner ph s
  | .mirrorHomeRewrite block ph => Sys2Proof.Machine.execMirrorHomeRewrite block ph s
  | .factorReconstruct region block env creditFault => Sys2Proof.Machine.execFactorReconstruct region block env creditFault s
  | .componentInvalidate ph => Sys2Proof.Machine.execComponentInvalidate ph s
  | .moverSweep region ph => Sys2Proof.Machine.execMoverSweep region ph s
  | .moverPromote region ph => Sys2Proof.Machine.execMoverPromote region ph s
  | .moverRecompress block => Sys2Proof.Machine.execMoverRecompress block s
  | .relocateBlock block ph => Sys2Proof.Machine.execRelocateBlock block ph s
  | .detourSpill block flushed ph => Sys2Proof.Machine.execDetourSpill block flushed ph s
  | .detourRecall block host => Sys2Proof.Machine.execDetourRecall block host s
  | .detourReadComplete host => Sys2Proof.Machine.execDetourReadComplete host s
  | .detourLost => Sys2Proof.Machine.execDetourLost s
  | .lowerTile descriptor tile env => Sys2Proof.Machine.execLowerTile descriptor tile env s
  | .fenceLift partition => Sys2Proof.Machine.execFenceLift partition s
  | .capacityAudit => Sys2Proof.Machine.execCapacityAudit s
  | .frameWalkPass region => Sys2Proof.Machine.execFrameWalkPass region s
  | .conservationAudit law => Sys2Proof.Machine.execConservationAudit law s
  | .partCommit partition => Sys2Proof.Machine.execPartCommit partition s
  | .partRelease partition => Sys2Proof.Machine.execPartRelease partition s
  | .partReleaseComplete partition => Sys2Proof.Machine.execPartReleaseComplete partition s
  | .winCommit window => Sys2Proof.Machine.execWinCommit window s
  | .winWithdraw window => Sys2Proof.Machine.execWinWithdraw window s
  | .ownershipWord1Write entry value => Sys2Proof.Machine.execOwnershipWord1Write entry value s
  | .descCommit descriptor => Sys2Proof.Machine.execDescCommit descriptor s
  | .descRelease descriptor => Sys2Proof.Machine.execDescRelease descriptor s
  | .srCommit region => Sys2Proof.Machine.execSrCommit region s
  | .srRelease region => Sys2Proof.Machine.execSrRelease region s
  | .rcCommit contract => Sys2Proof.Machine.execRcCommit contract s
  | .rcRelease contract => Sys2Proof.Machine.execRcRelease contract s
  | .tokenBoundary => Sys2Proof.Machine.execTokenBoundary s
  | .guaranteeWindowEnd => Sys2Proof.Machine.execGuaranteeWindowEnd s
  | .qEnable queue => Sys2Proof.Machine.execQEnable queue s
  | .qDisable queue => Sys2Proof.Machine.execQDisable queue s
  | .qRestart queue => Sys2Proof.Machine.execQRestart queue s
  | .qDisableComplete queue => Sys2Proof.Machine.execQDisableComplete queue s
  | .sqTailDoorbell via queue access => Sys2Proof.Machine.execSqTailDoorbell via queue access s
  | .cqHeadDoorbell via queue access => Sys2Proof.Machine.execCqHeadDoorbell via queue access s
  | .queueFetch host ph => Sys2Proof.Machine.execQueueFetch host ph s
  | .fenceStart queue => Sys2Proof.Machine.execFenceStart queue s
  | .completionPost queue ph => Sys2Proof.Machine.execCompletionPost queue ph s
  | .coalesceTimeout queue => Sys2Proof.Machine.execCoalesceTimeout queue s
  | .copyDevice queue idx env => Sys2Proof.Machine.execCopyDevice queue idx env s
  | .copyFromHost queue idx env => Sys2Proof.Machine.execCopyFromHost queue idx env s
  | .copyToHost queue idx env => Sys2Proof.Machine.execCopyToHost queue idx env s
  | .fill queue idx env => Sys2Proof.Machine.execFill queue idx env s
  | .pack queue idx ph => Sys2Proof.Machine.execPack queue idx ph s
  | .unpack queue idx ph => Sys2Proof.Machine.execUnpack queue idx ph s
  | .factorFull queue start => Sys2Proof.Machine.execFactorFull queue start s
  | .factorResidualOnly queue idx => Sys2Proof.Machine.execFactorResidualOnly queue idx s
  | .tileSwitch descriptor env => Sys2Proof.Machine.execTileSwitch descriptor env s
  | .stageArm queue idx => Sys2Proof.Machine.execStageArm queue idx s
  | .stageDisarm queue idx => Sys2Proof.Machine.execStageDisarm queue idx s
  | .waypointArmWrite waypoint value => Sys2Proof.Machine.execWaypointArmWrite waypoint value s
  | .waypointTileStaged waypoint env => Sys2Proof.Machine.execWaypointTileStaged waypoint env s
  | .optStepSgdMomentum queue idx env => Sys2Proof.Machine.execOptStepSgdMomentum queue idx env s
  | .optStepAdamw queue idx env => Sys2Proof.Machine.execOptStepAdamw queue idx env s
  | .optStepSignMomentum queue idx env => Sys2Proof.Machine.execOptStepSignMomentum queue idx env s
  | .optStepProjectedAdamw queue idx env => Sys2Proof.Machine.execOptStepProjectedAdamw queue idx env s
  | .workTileRetire region block context => Sys2Proof.Machine.execWorkTileRetire region block context s
  | .stepReplay flag => Sys2Proof.Machine.execStepReplay flag s
  | .prepare queue idx => Sys2Proof.Machine.execPrepare queue idx s
  | .prepareComplete job => Sys2Proof.Machine.execPrepareComplete job s
  | .commitStep queue idx => Sys2Proof.Machine.execCommit queue idx s
  | .abortMilestone queue idx => Sys2Proof.Machine.execAbortMilestone queue idx s
  | .jobBaseWrite job value => Sys2Proof.Machine.execJobBaseWrite job value s
  | .jobRelease job value => Sys2Proof.Machine.execJobRelease job value s
  | .reduceOpen queue idx env => Sys2Proof.Machine.execReduceOpen queue idx env s
  | .reduceContrib queue idx env => Sys2Proof.Machine.execReduceContrib queue idx env s
  | .reduceCancel queue idx => Sys2Proof.Machine.execReduceCancel queue idx s
  | .reduceTileOpen => Sys2Proof.Machine.execReduceTileOpen s
  | .reduceTileRound reduction env => Sys2Proof.Machine.execReduceTileRound reduction env s
  | .reduceFrontTimeout reduction => Sys2Proof.Machine.execReduceFrontTimeout reduction s
  | .reduceTimeout reduction => Sys2Proof.Machine.execReduceTimeout reduction s
  | .ckptFreeze queue idx env => Sys2Proof.Machine.execCkptFreeze queue idx env s
  | .ckptFreezeRelease queue idx => Sys2Proof.Machine.execCkptFreezeRelease queue idx s
  | .ckptDrain queue idx count env => Sys2Proof.Machine.execCkptDrain queue idx count env s
  | .fitEstimate queue idx env => Sys2Proof.Machine.execFitEstimate queue idx env s
  | .openVersionRead queue idx => Sys2Proof.Machine.execOpenVersionRead queue idx s
  | .openVersionReadLatest queue idx => Sys2Proof.Machine.execOpenVersionReadLatest queue idx s
  | .openVersionWrite queue idx => Sys2Proof.Machine.execOpenVersionWrite queue idx s
  | .openVersionWriteLatest queue idx => Sys2Proof.Machine.execOpenVersionWriteLatest queue idx s
  | .openVersionUnbind queue idx => Sys2Proof.Machine.execOpenVersionUnbind queue idx s
  | .publishPlain queue idx => Sys2Proof.Machine.execPublishPlain queue idx s
  | .publishCas queue idx => Sys2Proof.Machine.execPublishCas queue idx s
  | .closeVersion queue idx => Sys2Proof.Machine.execCloseVersion queue idx s
  | .leaseRenew queue idx => Sys2Proof.Machine.execLeaseRenew queue idx s
  | .leaseRelease queue idx => Sys2Proof.Machine.execLeaseRelease queue idx s
  | .rejoin queue idx => Sys2Proof.Machine.execRejoin queue idx s
  | .leaseExpiryCheck ph => Sys2Proof.Machine.execLeaseExpiryCheck ph s
  | .leaseEnableWrite region value => Sys2Proof.Machine.execLeaseEnableWrite region value s
  | .shareDeclareDead value ph => Sys2Proof.Machine.execShareDeclareDead value ph s
  | .shareRevive value => Sys2Proof.Machine.execShareRevive value s
  | .shareVersionReset => Sys2Proof.Machine.execShareVersionReset s
  | .linkGraceExpiry hid ph => Sys2Proof.Machine.execLinkGraceExpiry hid ph s
  | .bisnpResponse port line shared ph => Sys2Proof.Machine.execBisnpResponse port line shared ph s
  | .bisnpTimeout line hid ph => Sys2Proof.Machine.execBisnpTimeout line hid ph s
  | .biconflict port line => Sys2Proof.Machine.execBiconflict port line s
  | .retireFrame queue idx ph => Sys2Proof.Machine.execRetireFrame queue idx ph s
  | .retireRow queue idx ph => Sys2Proof.Machine.execRetireRow queue idx ph s
  | .retireBank queue idx ph => Sys2Proof.Machine.execRetireBank queue idx ph s
  | .retireRelease queue idx => Sys2Proof.Machine.execRetireRelease queue idx s
  | .testRound queue idx => Sys2Proof.Machine.execTestRound queue idx s
  | .diceRoundDue region block => Sys2Proof.Machine.execDiceRoundDue region block s
  | .diceRoundComplete region own partner third again lanes => Sys2Proof.Machine.execDiceRoundComplete region own partner third again lanes s
  | .diceDeferExpiry region => Sys2Proof.Machine.execDiceDeferExpiry region s
  | .checkFlag region block check work result predicted found => Sys2Proof.Machine.execCheckFlag region block check work result predicted found s
  | .repeatDecide flag a2 b c => Sys2Proof.Machine.execRepeatDecide flag a2 b c s
  | .blockWatchdogExpiry kind index waiting => Sys2Proof.Machine.execBlockWatchdogExpiry kind index waiting s
  | .engineFault kind index waiting => Sys2Proof.Machine.execEngineFault kind index waiting s
  | .engineResetComplete kind index ph => Sys2Proof.Machine.execEngineResetComplete kind index ph s
  | .engineResetOverrun kind index => Sys2Proof.Machine.execEngineResetOverrun kind index s
  | .suspectTileResult region block hung env => Sys2Proof.Machine.execSuspectTileResult region block hung env s
  | .regionReset region fatal => Sys2Proof.Machine.execRegionReset region fatal s
  | .regionResetComplete region lost env => Sys2Proof.Machine.execRegionResetComplete region lost env s
  | .regionResetOverrun region => Sys2Proof.Machine.execRegionResetOverrun region s
  | .warmResetPhaseEnd env tables lost => Sys2Proof.Machine.execWarmResetPhaseEnd env tables lost s
  | .warmResetOverrun => Sys2Proof.Machine.execWarmResetOverrun s
  | .safeEntry => Sys2Proof.Machine.execSafeEntry s
  | .safeAutoExpiry => Sys2Proof.Machine.execSafeAutoExpiry s
  | .coreWatchdogExpiry => Sys2Proof.Machine.execCoreWatchdogExpiry s
  | .lockstepMismatch => Sys2Proof.Machine.execLockstepMismatch s
  | .codeFetchUe inHandler => Sys2Proof.Machine.execCodeFetchUe inHandler s
  | .dmaSourceUe channel source mirror metadata => Sys2Proof.Machine.execDmaSourceUe channel source mirror metadata s
  | .enterService => Sys2Proof.Machine.execEnterService s
  | .enterStandby => Sys2Proof.Machine.execEnterStandby s
  | .recover => Sys2Proof.Machine.execRecover s
  | .enterSafe => Sys2Proof.Machine.execEnterSafe s
  | .patrolScrubRead stack events => Sys2Proof.Machine.execPatrolScrubRead stack events s
  | .scrubWriteback stack => Sys2Proof.Machine.execScrubWriteback stack s
  | .sramScrub region scratch outcome holding place => Sys2Proof.Machine.execSramScrub region scratch outcome holding place s
  | .stackDeath stack => Sys2Proof.Machine.execStackDeath stack s
  | .stackDeathWalkComplete stack ph => Sys2Proof.Machine.execStackDeathWalkComplete stack ph s
  | .regionDeath region => Sys2Proof.Machine.execRegionDeath region s
  | .flipArm value => Sys2Proof.Machine.execFlipArm value s
  | .stackTempSample stack celsius => Sys2Proof.Machine.execStackTempSample stack celsius s
  | .thermalHoldExpiry stack => Sys2Proof.Machine.execThermalHoldExpiry stack s
  | .refreshDue stack pc bank waiting promoted => Sys2Proof.Machine.execRefreshDue stack pc bank waiting promoted s
  | .pageIdleExpiry stack pc bank => Sys2Proof.Machine.execPageIdleExpiry stack pc bank s
  | .requestStarvePromote place => Sys2Proof.Machine.execRequestStarvePromote place s
  | .commandParityAlert stack channel => Sys2Proof.Machine.execCommandParityAlert stack channel s
  | .replayComplete stack channel => Sys2Proof.Machine.execReplayComplete stack channel s
  | .channelRetrainComplete stack channel ok => Sys2Proof.Machine.execChannelRetrainComplete stack channel ok s
  | .panicAssert master fill reads => Sys2Proof.Machine.execPanicAssert master fill reads s
  | .panicDeassert master fill reads => Sys2Proof.Machine.execPanicDeassert master fill reads s
  | .trnHoldWrite stack value => Sys2Proof.Machine.execTrnHoldWrite stack value s
  | .trnCtlStart stack value => Sys2Proof.Machine.execTrnCtlStart stack value s
  | .trnRunComplete stack mismatch errors => Sys2Proof.Machine.execTrnRunComplete stack mismatch errors s
  | .selfRefreshEntry stack => Sys2Proof.Machine.execSelfRefreshEntry stack s
  | .selfRefreshExit stack ph => Sys2Proof.Machine.execSelfRefreshExit stack ph s
  | .linkDetectTick link present => Sys2Proof.Machine.execLinkDetectTick link present s
  | .linkTrained link partner => Sys2Proof.Machine.execLinkTrained link partner s
  | .linkDown link hotReset => Sys2Proof.Machine.execLinkDown link hotReset s
  | .backoffExpiry link => Sys2Proof.Machine.execBackoffExpiry link s
  | .portEnableWrite block value => Sys2Proof.Machine.execPortEnableWrite block value s
  | .rxOverflow port => Sys2Proof.Machine.execRxOverflow port s
  | .creditStall link => Sys2Proof.Machine.execCreditStall link s
  | .replayLimitExhausted link => Sys2Proof.Machine.execReplayLimitExhausted link s
  | .malformedMessage port => Sys2Proof.Machine.execMalformedMessage port s
  | .ideKeyProgram link keys containment => Sys2Proof.Machine.execIdeKeyProgram link keys containment s
  | .ideIntegrityFail link => Sys2Proof.Machine.execIdeIntegrityFail link s
  | .ldFlr port => Sys2Proof.Machine.execLdFlr port s
  | .ldBmeClear port => Sys2Proof.Machine.execLdBmeClear port s
  | .ldCplTimeout port tag => Sys2Proof.Machine.execLdCplTimeout port tag s
  | .ldCompletionArrival port tag => Sys2Proof.Machine.execLdCompletionArrival port tag s
  | .cxlConfigRequest link ld write offset value => Sys2Proof.Machine.execCxlConfigRequest link ld write offset value s
  | .cdatRead port => Sys2Proof.Machine.execCdatRead port s
  | .dcAddExtent port first count => Sys2Proof.Machine.execDcAddExtent port first count s
  | .dcReleaseExtent port first count => Sys2Proof.Machine.execDcReleaseExtent port first count s
  | .identifyMemoryDevice port => Sys2Proof.Machine.execIdentifyMemoryDevice port s
  | .getSupportedLogs port => Sys2Proof.Machine.execGetSupportedLogs port s
  | .getLog port uuid offset length => Sys2Proof.Machine.execGetLog port uuid offset length s
  | .getEventRecords port log => Sys2Proof.Machine.execGetEventRecords port log s
  | .clearEventRecords port log all handles => Sys2Proof.Machine.execClearEventRecords port log all handles s
  | .getEventInterruptPolicy port => Sys2Proof.Machine.execGetEventInterruptPolicy port s
  | .setEventInterruptPolicy port settings => Sys2Proof.Machine.execSetEventInterruptPolicy port settings s
  | .getTimestamp port => Sys2Proof.Machine.execGetTimestamp port s
  | .setTimestamp port value => Sys2Proof.Machine.execSetTimestamp port value s
  | .getHealthInfo port => Sys2Proof.Machine.execGetHealthInfo port s
  | .getAlertConfiguration port => Sys2Proof.Machine.execGetAlertConfiguration port s
  | .setAlertConfiguration port settings => Sys2Proof.Machine.execSetAlertConfiguration port settings s
  | .getFwInfo port => Sys2Proof.Machine.execGetFwInfo port s
  | .getPoisonList port dpa length => Sys2Proof.Machine.execGetPoisonList port dpa length s
  | .injectPoison port dpa => Sys2Proof.Machine.execInjectPoison port dpa s
  | .clearPoison port dpa data ph => Sys2Proof.Machine.execClearPoison port dpa data ph s
  | .getDcConfiguration port => Sys2Proof.Machine.execGetDcConfiguration port s
  | .getDcExtentList port count start => Sys2Proof.Machine.execGetDcExtentList port count start s
  | .addDcResponse port accepted => Sys2Proof.Machine.execAddDcResponse port accepted s
  | .releaseDc port released => Sys2Proof.Machine.execReleaseDc port released s
  | .mailboxUnsupported port opcode => Sys2Proof.Machine.execMailboxUnsupported port opcode s
  | .dictRead port index sub => Sys2Proof.Machine.execDictRead port index sub s
  | .getSignatures port start => Sys2Proof.Machine.execGetSignatures port start s
  | .getPortMode port => Sys2Proof.Machine.execGetPortMode port s
  | .getBinding port => Sys2Proof.Machine.execGetBinding port s
  | .getOwnFail port => Sys2Proof.Machine.execGetOwnFail port s
  | .svcFlr => Sys2Proof.Machine.execSvcFlr s
  | .svcFlrComplete => Sys2Proof.Machine.execSvcFlrComplete s
  | .svcBmeClear => Sys2Proof.Machine.execSvcBmeClear s
  | .svcBmeSet => Sys2Proof.Machine.execSvcBmeSet s
  | .perstAssert cause => Sys2Proof.Machine.execPerstAssert cause s
  | .perstDeassert => Sys2Proof.Machine.execPerstDeassert s
  | .svcLinkDownGraceExpiry => Sys2Proof.Machine.execSvcLinkDownGraceExpiry s
  | .svcD3hotEntry => Sys2Proof.Machine.execSvcD3hotEntry s
  | .svcD0Entry => Sys2Proof.Machine.execSvcD0Entry s
  | .svcD3coldEntry => Sys2Proof.Machine.execSvcD3coldEntry s
  | .svcD3WaitExpiry => Sys2Proof.Machine.execSvcD3WaitExpiry s
  | .wakeCauseSignal cause => Sys2Proof.Machine.execWakeCauseSignal cause s
  | .svcCompletionArrival tag defect => Sys2Proof.Machine.execSvcCompletionArrival tag defect s
  | .svcCompletionTimeout tag => Sys2Proof.Machine.execSvcCompletionTimeout tag s
  | .tagQuarantineExpiry tag => Sys2Proof.Machine.execTagQuarantineExpiry tag s
  | .svcEgressGrant => Sys2Proof.Machine.execSvcEgressGrant s
  | .bar0Read offset size => Sys2Proof.Machine.execBar0Read offset size s
  | .dictWrite offset size data ph => Sys2Proof.Machine.execDictWrite offset size data ph s
  | .ltrSend => Sys2Proof.Machine.execLtrSend s
  | .aspmSupportWrite value => Sys2Proof.Machine.execAspmSupportWrite value s
  | .domDataWrite slot size value => Sys2Proof.Machine.execDomDataWrite slot size value s
  | .fwCommit => Sys2Proof.Machine.execFwCommit s
  | .fwWriteComplete good => Sys2Proof.Machine.execFwWriteComplete good s
  | .keyErase slot => Sys2Proof.Machine.execKeyErase slot s
  | .diagMapLatch entry value ph => Sys2Proof.Machine.execDiagMapLatch entry value ph s
  | .keyLoad session slot key1 key2 => Sys2Proof.Machine.execKeyLoad session slot key1 key2 s
  | .spdmGetMeasurements session operation signed nonce => Sys2Proof.Machine.execSpdmGetMeasurements session operation signed nonce s
  | .spdmKeyExchange id mauth transport heartbeat => Sys2Proof.Machine.execSpdmKeyExchange id mauth transport heartbeat s
  | .spdmRequest session code payload => Sys2Proof.Machine.execSpdmRequest session code payload s
  | .mctpPacket glody eid length => Sys2Proof.Machine.execMctpPacket glody eid length s
  | .setEndpointId eid => Sys2Proof.Machine.execSetEndpointId eid s
  | .glodyRead session seq tagOk src items => Sys2Proof.Machine.execGlodyRead session seq tagOk src items s
  | .glodyWrite session seq tagOk src items ph => Sys2Proof.Machine.execGlodyWrite session seq tagOk src items ph s
  | .readDomain session seq tagOk src key offset length => Sys2Proof.Machine.execReadDomain session seq tagOk src key offset length s
  | .writeDomain session seq tagOk src key offset bytes => Sys2Proof.Machine.execWriteDomain session seq tagOk src key offset bytes s
  | .dcAdd session seq tagOk src port half ld count dpa => Sys2Proof.Machine.execDcAdd session seq tagOk src port half ld count dpa s
  | .dcRelease session seq tagOk src port half ld count dpa => Sys2Proof.Machine.execDcRelease session seq tagOk src port half ld count dpa s
  | .keepalive session seq tagOk src => Sys2Proof.Machine.execKeepalive session seq tagOk src s
  | .closeSession session seq tagOk src => Sys2Proof.Machine.execClose session seq tagOk src s
  | .glodySessionIdleExpiry session => Sys2Proof.Machine.execGlodySessionIdleExpiry session s
  | .glodyDatagramDrop kind session seq op src => Sys2Proof.Machine.execGlodyDatagramDrop kind session seq op src s
  | .noticeRepeat => Sys2Proof.Machine.execNoticeRepeat s
  | .glodyTransmit => Sys2Proof.Machine.execGlodyTransmit s
  | .announce => Sys2Proof.Machine.execAnnounce s
  | .plcaBeacon => Sys2Proof.Machine.execPlcaBeacon s
  | .neighborSolicitation target => Sys2Proof.Machine.execNeighborSolicitation target s
  | .beginOp source seq object length => Sys2Proof.Machine.execBegin source seq object length s
  | .dataOp source seq offset bytes => Sys2Proof.Machine.execData source seq offset bytes s
  | .endOp source seq => Sys2Proof.Machine.execEnd source seq s
  | .loaderTransferTimeout => Sys2Proof.Machine.execLoaderTransferTimeout s
  | .bootPhaseEnd flashOk pufOk bist remaps dead => Sys2Proof.Machine.execBootPhaseEnd flashOk pufOk bist remaps dead s
  | .powerInputApplied millivolts slot refStable => Sys2Proof.Machine.execPowerInputApplied millivolts slot refStable s
  | .refclkStable => Sys2Proof.Machine.execRefclkStable s
  | .inputOutOfRange millivolts => Sys2Proof.Machine.execInputOutOfRange millivolts s
  | .inputRestored millivolts => Sys2Proof.Machine.execInputRestored millivolts s
  | .inputCollapse => Sys2Proof.Machine.execInputCollapse s
  | .refclkLost => Sys2Proof.Machine.execRefclkLost s
  | .refclkRestored => Sys2Proof.Machine.execRefclkRestored s
  | .thermalTrip unit celsius => Sys2Proof.Machine.execThermalTrip unit celsius s
  | .governorSample watts => Sys2Proof.Machine.execGovernorSample watts s
  | .powerS1Entry region => Sys2Proof.Machine.execPowerS1Entry region s
  | .powerS2Entry region => Sys2Proof.Machine.execPowerS2Entry region s
  | .powerS3Entry linksIdle svcIdle => Sys2Proof.Machine.execPowerS3Entry linksIdle svcIdle s
  | .wakeCause cause region => Sys2Proof.Machine.execWakeCause cause region s
  | .wakeTokenTick => Sys2Proof.Machine.execWakeTokenTick s
  | .wakeGrant ph => Sys2Proof.Machine.execWakeGrant ph s
  | .pllLock region ph => Sys2Proof.Machine.execPllLock region ph s
  | .hubRestoreComplete ph => Sys2Proof.Machine.execHubRestoreComplete ph s
  | .latencyToleranceWrite entry value => Sys2Proof.Machine.execLatencyToleranceWrite entry value s
  | .hdmDecoderCommit port decoder commit base size ways gran skip lock => Sys2Proof.Machine.execHdmDecoderCommit port decoder commit base size ways gran skip lock s
  | .versionTableWalkPass => Sys2Proof.Machine.execVersionTableWalkPass s
  | .spdmHeartbeatTimeout session => Sys2Proof.Machine.execSpdmHeartbeatTimeout session s
  | .i3cDynamicAddressAssignment address => Sys2Proof.Machine.execI3cDynamicAddressAssignment address s
  | .msixVectorUnmask via entry => Sys2Proof.Machine.execMsixVectorUnmask via entry s
  | .plcaBeaconStatusChange present => Sys2Proof.Machine.execPlcaBeaconStatusChange present s
  | .svcLinkUp => Sys2Proof.Machine.execSvcLinkUp s
  | .svcConfigRequest write offset value => Sys2Proof.Machine.execSvcConfigRequest write offset value s

end Sys2Proof.Machine
end

