-- ==== Sys2Proof/Machine/Idle.lean ====
section
/-! DEFINITION. The passage of time while no command waits. -/
namespace Sys2Proof.Machine

/-- One period of the always-on clock of 25 MHz (R390), after which the withdraws whose accepted requests are all done take effect
(R54), and a deassertion of PERST# that came too early once it may be (R444). What falls due at a time has a command of its own. DESIGN CHOICE. -/
def State.tick (s : State) : State :=
  let s := ({ s with now := s.now + 1 } : State).winSettle
  if s.svc.perstWait && s.perstReady then s.perstUp else s

end Sys2Proof.Machine
end

