-- ==== Sys2Proof/Safety.lean ====
section
/-! DEFINITION. What holds of a state whatever commands it has met: dictionary and memory in their one canonical form (R14, R41,
R412), and what a command leaves of them and of the queue. -/
namespace Sys2Proof.Machine

/-- Bytes of memory in their one canonical form: addresses strictly rising, no entry 0, which an unlisted address reads as (R328). -/
def Memory.wf (m : List Host.Cell) : Bool := Tab.wf 0 m

/-- The dictionary in its one canonical form, every value within the 64 bits of its widest type (R9, R412). -/
def State.dictWf (s : State) : Bool := Tab.wfBy dictDefault s.dict && s.dict.all (fun p => decide (p.2 < 2 ^ 64))

/-- Dictionary, HBM contents and staging windows are in canonical form. -/
structure State.Canonical (s : State) : Prop where
  dict : s.dictWf = true
  hbm : Memory.wf s.mem.hbm = true
  t0 : Memory.wf s.mem.t0 = true

/-- A part of the state that a command may leave alone. -/
inductive Part where
  /-- Every parameter of the object dictionary. -/
  | dict
  /-- Every byte of HBM. -/
  | hbm
  /-- Every byte of the T0 staging windows. -/
  | t0
  /-- The block map, frames, staging and queues of the capacity tier: all of `mem` but the two above. -/
  | mem
  /-- The pointers of the arbiters. -/
  | arb
  /-- What the block has sent. -/
  | out
  /-- The always-on clock. -/
  | now
  /-- The count of free values drawn. -/
  | freeCtr
  /-- Partitions in force and windows leaving. -/
  | own
  /-- Factored tensors and waypoints. -/
  | fac
  /-- Jobs. -/
  | jobs
  /-- Reductions. -/
  | reds
  /-- Shared regions and the directory. -/
  | shared
  /-- Command queues. -/
  | queues
  /-- Links, LDs and their requests. -/
  | ports
  /-- The service link. -/
  | svc
  /-- Bandwidth regulation. -/
  | reg
  /-- Stacks. -/
  | stackTab
  /-- Latches, scrub and flips. -/
  | media
  /-- Signatures and rounds. -/
  | integ
  /-- Watchdogs and resets. -/
  | recov
  /-- Power, clock and wake. -/
  | power
  /-- Firmware, keys and sessions. -/
  | boot
  /-- The management network. -/
  | glody
  deriving DecidableEq, Repr

/-- `t` holds in part `p` what `s` holds. -/
def Part.same : Part → State → State → Prop
  | .dict, s, t => t.dict = s.dict
  | .hbm, s, t => t.mem.hbm = s.mem.hbm
  | .t0, s, t => t.mem.t0 = s.mem.t0
  | .mem, s, t => { t.mem with hbm := [], t0 := [] } = { s.mem with hbm := [], t0 := [] }
  | .arb, s, t => t.arb = s.arb
  | .out, s, t => t.out = s.out
  | .now, s, t => t.now = s.now
  | .freeCtr, s, t => t.freeCtr = s.freeCtr
  | .own, s, t => t.own = s.own
  | .fac, s, t => t.fac = s.fac
  | .jobs, s, t => t.jobs = s.jobs
  | .reds, s, t => t.reds = s.reds
  | .shared, s, t => t.shared = s.shared
  | .queues, s, t => t.queues = s.queues
  | .ports, s, t => t.ports = s.ports
  | .svc, s, t => t.svc = s.svc
  | .reg, s, t => t.reg = s.reg
  | .stackTab, s, t => t.stackTab = s.stackTab
  | .media, s, t => t.media = s.media
  | .integ, s, t => t.integ = s.integ
  | .recov, s, t => t.recov = s.recov
  | .power, s, t => t.power = s.power
  | .boot, s, t => t.boot = s.boot
  | .glody, s, t => t.glody = s.glody

/-- The parts that a command may write; it leaves every other part as it was. -/
def touches : Instr → List Part
  | .loaderTransferTimeout .. | .plcaBeaconStatusChange .. => [.glody]
  | .codeFetchUe .. => [.media]
  | .plcaBeacon .. | .neighborSolicitation .. => [.out]
  | .ldCplTimeout .. => [.ports]
  | .engineResetOverrun .. | .requestStarvePromote .. => [.recov]
  | .pageIdleExpiry .. => [.stackTab]
  | .svcFlrComplete .. | .perstDeassert .. | .svcD3hotEntry .. => [.svc]
  | .fwWriteComplete .. => [.dict, .boot]
  | .glodySessionIdleExpiry .. | .noticeRepeat .. | .announce .. => [.dict, .glody]
  | .stepReplay .. | .diceDeferExpiry .. | .checkFlag .. => [.dict, .integ]
  | .linkDetectTick .. | .backoffExpiry .. | .ideKeyProgram .. | .ldCompletionArrival .. => [.dict, .ports]
  | .mctpPacket .. | .governorSample .. | .powerS1Entry .. | .powerS2Entry .. | .powerS3Entry .. | .wakeCause ..
  | .wakeTokenTick .. => [.dict, .power]
  | .qDisableComplete .. | .fenceStart .. => [.dict, .queues]
  | .regionResetOverrun .. | .coreWatchdogExpiry .. | .lockstepMismatch .. | .panicAssert .. | .panicDeassert ..
    => [.dict, .recov]
  | .refreshDue .. | .commandParityAlert .. | .replayComplete .. | .channelRetrainComplete .. | .trnRunComplete ..
    => [.dict, .stackTab]
  | .svcBmeSet .. | .svcD0Entry .. | .tagQuarantineExpiry .. => [.dict, .svc]
  | .setEndpointId .. | .i3cDynamicAddressAssignment .. => [.out, .glody]
  | .biconflict .. | .cdatRead .. | .dcAddExtent .. | .identifyMemoryDevice .. | .getSupportedLogs .. | .getLog ..
  | .getEventRecords .. | .clearEventRecords .. | .getEventInterruptPolicy .. | .setEventInterruptPolicy .. | .getTimestamp ..
  | .setTimestamp .. | .getHealthInfo .. | .getAlertConfiguration .. | .setAlertConfiguration .. | .getFwInfo ..
  | .getPoisonList .. | .getDcConfiguration .. | .getDcExtentList .. | .addDcResponse .. | .mailboxUnsupported .. | .dictRead ..
  | .getSignatures .. | .getPortMode .. | .getBinding .. | .getOwnFail .. | .hdmDecoderCommit .. => [.out, .ports]
  | .wakeCauseSignal .. | .ltrSend .. => [.out, .svc]
  | .refclkStable .. => [.power, .boot]
  | .refclkRestored .. => [.recov, .power]
  | .beginOp .. | .dataOp .. | .spdmHeartbeatTimeout .. => [.dict, .boot, .glody]
  | .diceRoundDue .. => [.dict, .freeCtr, .integ]
  | .svcLinkUp .. => [.dict, .freeCtr, .svc]
  | .prepare .. | .prepareComplete .. => [.dict, .jobs, .queues]
  | .keyLoad .. => [.dict, .out, .boot]
  | .testRound .. => [.dict, .queues, .integ]
  | .inputOutOfRange .. | .inputRestored .. | .refclkLost .. => [.dict, .recov, .power]
  | .leaseRenew .. | .rejoin .. => [.dict, .shared, .queues]
  | .selfRefreshEntry .. => [.dict, .stackTab, .power]
  | .spdmGetMeasurements .. | .spdmKeyExchange .. => [.out, .freeCtr, .boot]
  | .glodyTransmit .. => [.out, .freeCtr, .glody]
  | .svcEgressGrant .. => [.arb, .out, .svc, .power]
  | .stageArm .. => [.dict, .mem, .fac, .queues]
  | .ownershipWord1Write .. | .descCommit .. | .jobBaseWrite .. | .jobRelease .. | .flipArm .. | .svcCompletionArrival ..
  | .svcCompletionTimeout .. | .bar0Read .. | .aspmSupportWrite .. => [.dict, .out, .freeCtr, .svc]
  | .fenceLift .. => [.dict, .out, .svc, .glody]
  | .guaranteeWindowEnd .. => [.dict, .out, .svc, .reg]
  | .glodyRead .. | .readDomain .. | .writeDomain .. | .keepalive .. | .closeSession .. | .glodyDatagramDrop ..
    => [.dict, .power, .boot, .glody]
  | .linkTrained .. => [.dict, .shared, .ports, .power]
  | .msixVectorUnmask .. => [.out, .freeCtr, .ports, .svc]
  | .coalesceTimeout .. => [.out, .queues, .ports, .svc]
  | .spdmRequest .. => [.dict, .out, .freeCtr, .boot, .glody]
  | .leaseEnableWrite .. | .shareRevive .. | .shareVersionReset .. => [.dict, .out, .freeCtr, .shared, .svc]
  | .fwCommit .. | .keyErase .. => [.dict, .out, .freeCtr, .svc, .boot]
  | .latencyToleranceWrite .. => [.dict, .out, .freeCtr, .svc, .power]
  | .descRelease .. => [.dict, .out, .freeCtr, .svc, .recov]
  | .rcCommit .. | .rcRelease .. => [.dict, .out, .freeCtr, .svc, .reg]
  | .trnCtlStart .. => [.dict, .out, .freeCtr, .svc, .stackTab]
  | .capacityAudit .. | .frameWalkPass .. | .conservationAudit .. | .dmaSourceUe .. | .regionDeath .. | .versionTableWalkPass ..
    => [.dict, .out, .svc, .recov, .glody]
  | .tokenBoundary .. => [.dict, .out, .svc, .reg, .glody]
  | .stackTempSample .. => [.dict, .stackTab, .recov, .power, .glody]
  | .partReleaseComplete .. => [.dict, .mem, .out, .own, .svc, .glody]
  | .retireRelease .. => [.dict, .mem, .out, .queues, .svc, .glody]
  | .partRelease .. => [.dict, .out, .freeCtr, .own, .svc, .glody]
  | .qEnable .. | .qDisable .. | .qRestart .. | .sqTailDoorbell .. | .cqHeadDoorbell ..
    => [.dict, .out, .freeCtr, .queues, .ports, .svc]
  | .warmResetOverrun .. | .safeAutoExpiry .. => [.dict, .out, .freeCtr, .svc, .recov, .glody]
  | .trnHoldWrite .. => [.dict, .out, .freeCtr, .svc, .stackTab, .power]
  | .thermalHoldExpiry .. => [.dict, .out, .svc, .stackTab, .recov, .glody]
  | .winCommit .. => [.dict, .t0, .mem, .out, .freeCtr, .svc]
  | .scrubWriteback .. => [.dict, .hbm, .mem, .arb, .reg, .media, .power]
  | .stageDisarm .. => [.dict, .mem, .out, .fac, .queues, .svc, .glody]
  | .waypointArmWrite .. => [.dict, .mem, .out, .freeCtr, .fac, .svc, .glody]
  | .partCommit .. => [.dict, .mem, .out, .freeCtr, .own, .svc, .glody]
  | .srRelease .. => [.dict, .mem, .out, .freeCtr, .shared, .svc, .glody]
  | .ckptFreezeRelease .. => [.dict, .mem, .out, .jobs, .queues, .svc, .glody]
  | .stackDeath .. => [.dict, .out, .svc, .media, .recov, .power, .glody]
  | .abortMilestone .. => [.dict, .mem, .out, .jobs, .queues, .svc, .integ, .glody]
  | .reduceCancel .. | .reduceTileOpen .. | .reduceFrontTimeout .. | .reduceTimeout .. | .ldFlr .. | .ldBmeClear ..
  | .cxlConfigRequest .. => [.dict, .mem, .out, .jobs, .reds, .queues, .ports, .svc, .glody]
  | .dcReleaseExtent .. | .releaseDc .. => [.dict, .t0, .mem, .out, .jobs, .shared, .ports, .svc, .glody]
  | .perstAssert .. => [.dict, .mem, .out, .jobs, .reds, .queues, .ports, .svc, .power, .glody]
  | .injectPoison .. => [.dict, .mem, .out, .fac, .jobs, .shared, .queues, .ports, .svc, .recov, .glody]
  | .bootPhaseEnd .. => [.dict, .mem, .out, .freeCtr, .svc, .stackTab, .media, .recov, .power, .boot, .glody]
  | .dcAdd .. | .dcRelease .. => [.dict, .t0, .mem, .out, .jobs, .shared, .ports, .svc, .power, .boot, .glody]
  | .diceRoundComplete .. => [.dict, .arb, .out, .fac, .jobs, .queues, .svc, .integ, .recov, .power, .boot, .glody]
  | .workTileRetire .. => [.dict, .mem, .arb, .out, .fac, .jobs, .queues, .svc, .integ, .recov, .power, .glody]
  | .winWithdraw .. => [.dict, .mem, .out, .freeCtr, .own, .jobs, .reds, .queues, .ports, .svc, .reg, .glody]
  | .moverRecompress .. => [.dict, .hbm, .mem, .arb, .out, .freeCtr, .jobs, .shared, .svc, .reg, .media, .power, .glody]
  | .stackDeathWalkComplete ..
    => [.dict, .hbm, .mem, .out, .freeCtr, .fac, .jobs, .shared, .ports, .svc, .reg, .stackTab, .media, .glody]
  | .detourRecall ..
    => [.dict, .hbm, .mem, .arb, .out, .freeCtr, .fac, .jobs, .shared, .ports, .svc, .reg, .media, .power, .glody]
  | .commitStep .. => [.dict, .hbm, .mem, .out, .fac, .jobs, .shared, .queues, .ports, .svc, .reg, .media, .integ, .recov, .glody]
  | .repeatDecide ..
    => [.dict, .mem, .arb, .out, .fac, .jobs, .reds, .queues, .ports, .svc, .integ, .recov, .power, .boot, .glody]
  | .mirrorHomeRewrite .. | .relocateBlock ..
    => [.dict, .hbm, .mem, .arb, .out, .freeCtr, .fac, .jobs, .shared, .ports, .svc, .reg, .stackTab, .media, .power, .glody]
  | .retireFrame .. | .retireRow .. | .retireBank ..
    => [.dict, .hbm, .mem, .out, .freeCtr, .fac, .jobs, .shared, .queues, .ports, .svc, .reg, .stackTab, .media, .boot, .glody]
  | .moverSweep .. | .moverPromote .. | .detourSpill .. | .detourLost .. | .lowerTile .. | .srCommit .. | .waypointTileStaged ..
  | .svcLinkDownGraceExpiry .. | .svcD3WaitExpiry ..
    => [.dict, .hbm, .mem, .arb, .out, .freeCtr, .fac, .jobs, .shared, .ports, .svc, .reg, .stackTab, .media, .recov, .power, .glody]
  | .queueFetch .. | .copyToHost .. | .pack .. | .unpack .. | .factorFull .. | .factorResidualOnly .. | .tileSwitch ..
  | .ckptFreeze .. | .ckptDrain .. | .openVersionRead .. | .openVersionReadLatest .. | .openVersionWrite ..
  | .openVersionWriteLatest .. | .openVersionUnbind .. | .publishPlain .. | .publishCas .. | .closeVersion .. | .leaseRelease ..
  | .patrolScrubRead ..
    => [.dict, .hbm, .mem, .arb, .out, .freeCtr, .fac, .jobs, .shared, .queues, .ports, .svc, .reg, .stackTab, .media, .recov, .power, .glody]
  | .optStepSgdMomentum .. | .optStepAdamw .. | .optStepSignMomentum .. | .optStepProjectedAdamw .. | .reduceOpen ..
  | .reduceContrib .. | .svcFlr .. | .svcBmeClear .. | .svcD3coldEntry .. | .svcConfigRequest ..
    => [.dict, .hbm, .mem, .arb, .out, .freeCtr, .fac, .jobs, .reds, .shared, .queues, .ports, .svc, .reg, .stackTab, .media, .recov, .power, .glody]
  | .factorReconstruct ..
    => [.dict, .hbm, .mem, .arb, .out, .freeCtr, .own, .fac, .jobs, .shared, .ports, .svc, .reg, .stackTab, .media, .integ, .recov, .power, .glody]
  | .completionPost ..
    => [.dict, .hbm, .t0, .mem, .arb, .out, .freeCtr, .fac, .jobs, .shared, .queues, .ports, .svc, .reg, .stackTab, .media, .recov, .power, .glody]
  | .suspectTileResult ..
    => [.dict, .hbm, .mem, .arb, .out, .freeCtr, .own, .fac, .jobs, .shared, .queues, .ports, .svc, .reg, .stackTab, .media, .integ, .recov, .power, .glody]
  | .copyDevice .. | .copyFromHost .. | .fill .. | .reduceTileRound .. | .fitEstimate ..
    => [.dict, .hbm, .t0, .mem, .arb, .out, .freeCtr, .fac, .jobs, .reds, .shared, .queues, .ports, .svc, .reg, .stackTab, .media, .recov, .power, .glody]
  | .cxlMemRead .. | .cxlMemWrite .. | .tollgateRelease .. | .gatherTimeout .. | .componentInvalidate .. | .detourReadComplete ..
  | .leaseExpiryCheck .. | .shareDeclareDead .. | .linkGraceExpiry .. | .bisnpResponse .. | .bisnpTimeout ..
  | .regionResetComplete .. | .linkDown .. | .portEnableWrite .. | .rxOverflow .. | .creditStall .. | .replayLimitExhausted ..
  | .malformedMessage .. | .ideIntegrityFail .. | .clearPoison .. | .wakeGrant .. | .hubRestoreComplete ..
    => [.dict, .hbm, .t0, .mem, .arb, .out, .freeCtr, .own, .fac, .jobs, .reds, .shared, .queues, .ports, .svc, .reg, .stackTab, .media, .recov, .power, .glody]
  | .blockWatchdogExpiry .. | .engineFault .. | .regionReset .. | .safeEntry .. | .enterService .. | .enterStandby ..
  | .recover .. | .enterSafe .. | .sramScrub .. | .selfRefreshExit .. | .pllLock ..
    => [.dict, .hbm, .t0, .mem, .arb, .out, .freeCtr, .own, .fac, .jobs, .reds, .shared, .queues, .ports, .svc, .reg, .stackTab, .media, .integ, .recov, .power, .glody]
  | .checkerRoundTrip .. | .engineResetComplete .. | .warmResetPhaseEnd .. | .dictWrite .. | .domDataWrite .. | .diagMapLatch ..
  | .glodyWrite ..
    => [.dict, .hbm, .t0, .mem, .arb, .out, .freeCtr, .own, .fac, .jobs, .reds, .shared, .queues, .ports, .svc, .reg, .stackTab, .media, .integ, .recov, .power, .boot, .glody]
  | .endOp .. | .powerInputApplied .. | .inputCollapse .. | .thermalTrip ..
    => [.dict, .hbm, .t0, .mem, .arb, .out, .now, .freeCtr, .own, .fac, .jobs, .reds, .shared, .queues, .ports, .svc, .reg, .stackTab, .media, .integ, .recov, .power, .boot, .glody]

/-- `t` comes from `s` by effects that leave the queue of commands alone, keep the canonical form and write no part beside `F`. -/
structure State.Keeps (s : State) (F : List Part) (t : State) : Prop where
  queue : t.pending = s.pending
  canon : s.Canonical → t.Canonical
  frame : ∀ p, p ∈ F ∨ p.same s t

/-- A BAR0 write of `v` to the whole entry `k` is accepted (R275, R412): the BAR is decoded, the dictionary exists, every check passes. -/
def State.takes (s : State) (k v : Nat) : Bool := s.barOn && s.dictOn && (s.checkOne k v).isNone

/-- The started command `c` of queue `q` at ring index `idx` has opcode `op` and mode `mode` (R226). -/
def State.runs (s : State) (q idx op mode : Nat) (c : Cmd) : Bool :=
  decide (s.cmdAt (cmdKey q idx) = some c) && c.phase == 1 && c.op == op && c.mode == mode

/-- The outcome is a next state: neither a fault nor a refusal. -/
def Answers (r : Host.Outcome State Fault Refusal) : Prop := ∃ t, r = .next t

end Sys2Proof.Machine
end

