-- ==== Sys2Proof/Certificates/Slice0/Obligations.lean ====
section
/-! DEFINITION. What is claimed of the block, for every state and every operand that meets the premises. -/
open Sys2Proof Sys2Proof.Machine

/-- For every command c and state s whose queue is c followed by rest, step s is exec of c on s with the queue rest. -/
def Obligations.StepRunsFront : Prop :=
  ∀ (c : Instr) (rest : List Instr) (s : State),
    s.pending = c :: rest →
    step s = exec c { s with pending := rest }

/-- With nothing queued and no withdraw waiting, a step answers the same state one period of the always-on clock later; the
choice of log 2. -/
def Obligations.StepIdles : Prop :=
  ∀ (s : State),
    s.pending = [] → s.own.leaving = [] →
    step s = .next { s with now := s.now + 1 }

/-- At reset every parameter reads its card default, every block of the block map is UNWRITTEN, every frame FREE, every byte of
HBM 0, no key slot holds a key and nothing is queued; the values the cards do not give are those of log 3. -/
def Obligations.ResetLeaves : Prop :=
  (∀ k, State.reset.par k = dictDefault k) ∧ (∀ b, State.reset.mem.mapPri.find? (fun p => p.1 == b) = none) ∧ (∀ f,
    (State.reset.frame f).st = 0) ∧ (∀ a, Tab.getD 0 a State.reset.mem.hbm = 0) ∧ (∀ k, Tab.get k State.reset.boot.keys = []) ∧
    State.reset.dev = dsInit ∧ State.reset.pending = []

/-- Dictionary, HBM contents and staging windows are in their canonical form at reset. -/
def Obligations.ResetCanonical : Prop :=
  State.reset.Canonical

/-- From every state in canonical form, whatever the command, a step that answers a next state answers one in canonical form:
memory lists rising addresses and no byte 0, the dictionary rising keys, no default value and none beyond 64 bits. -/
def Obligations.StepKeepsCanonical : Prop :=
  ∀ (s t : State),
    s.Canonical → step s = .next t →
    t.Canonical

/-- Whatever the command does, the queue afterwards is the queue without its front: no command adds, drops or reorders commands
that wait. -/
def Obligations.StepTakesOne : Prop :=
  ∀ (c : Instr) (rest : List Instr) (s t : State),
    s.pending = c :: rest → step s = .next t →
    t.pending = rest

/-- Whatever the command, its operands and the state, exec answers a next state: no command of the table faults and none is
refused. Where the spec leaves points open the statement rests on the model's choices of log 17. -/
def Obligations.EveryCommandCompletes : Prop :=
  ∀ (c : Instr) (s : State),
    ∃ t, exec c s = .next t

/-- A commit or release of a partition or window whose checks pass puts it into force or gives it up and changes no stored byte
of HBM, a window's commit no map entry outside its range; the commit of a window reports status 0; PART_RELEASE_COMPLETE
empties a released partition and forgets what it held. Where the spec leaves points open the statement rests on the model's
choices of log 67, 83, 84 and 85. -/
def Obligations.PartitionsAndWindows : Prop :=
  (∀ (n : Fin 64) (s : State),
     s.takes (P.partCommit n) 1 = true → s.partCheck n = 0 →
     ∃ t, exec (.partCommit n) s = .next t ∧ t.own.parts = Tab.mod n.val (fun r => { r with inForce := true }) s.own.parts ∧
       t.mem.hbm = s.mem.hbm ∧ t.mem.mapPri = s.mem.mapPri ∧ t.queues = s.queues ∧ t.boot = s.boot) ∧
  (∀ (n : Fin 64) (s : State),
     s.takes (P.partCommit n) 2 = true → s.partBusy n = false →
     ∃ t, exec (.partRelease n) s = .next t ∧ t.own.parts = Tab.mod n.val (fun r =>
       { r with inForce := false, releasing := true, relBase := s.par (P.partBase n), relSize := s.par (P.partSize n) })
       s.own.parts ∧ t.mem = s.mem ∧ t.queues = s.queues ∧ t.boot = s.boot) ∧
  (∀ (n : Fin 64) (s : State),
     (Tab.get n.val s.own.parts).releasing = true →
     ∃ t, exec (.partReleaseComplete n) s = .next t ∧ Tab.get n.val t.own.parts =
       { (default : PartRec) with inForce := (Tab.get n.val s.own.parts).inForce } ∧ t.par (P.partStatus n) = 0 ∧ t.par
       (P.partDetourBlocks n) = 0 ∧ t.jobs = s.jobs ∧ t.boot = s.boot) ∧
  (∀ (w : Fin 1024) (s : State),
     s.takes (P.winCommit w) 1 = true → s.winCheck w = 0 →
     ∃ t, exec (.winCommit w) s = .next t ∧ t.par (P.winState w) = 1 ∧ t.par (P.winStatus w) = 0 ∧ t.mem.hbm = s.mem.hbm ∧ (∀
       b, within (b * 4096) 4096 (s.par (P.winBase w)) (s.par (P.winSize w)) = false → Tab.getD 0 b t.mem.mapPri = Tab.getD 0 b
       s.mem.mapPri) ∧ t.own = s.own) ∧
  (∀ (w : Fin 1024) (s : State),
     s.takes (P.winCommit w) 2 = true → s.par (P.winState w) = 1 → s.own.leaving.contains w.val = false →
     exec (.winWithdraw w) s = .next
       ((({ s.setPar (P.winStatus w) 0 with own := { s.own with leaving := s.own.leaving ++ [w.val] } } : State).markEarly
       w).winSettle))

/-- A write of word 1 of an ownership entry, or of desc_commit, whose check passes has its whole effect; nothing is stored in
memory. -/
def Obligations.OwnershipAndDescriptors : Prop :=
  (∀ (e : Fin 4096) (v : Nat) (s : State),
     s.takes (P.ownWord e 1) v = true → s.ownCheck e v = 0 →
     ∃ t, exec (.ownershipWord1Write e v) s = .next t ∧ t = (forAll (fun w s => s.setPar (P.ownWord e w) (s.ownNext e w v)) [1,
       2, 3, 4, 5, 6] (s.setPar P.ownStatus 0)).setPar P.ownEntriesValid (forAll (fun w s => s.setPar (P.ownWord e w)
       (s.ownNext e w v)) [1, 2, 3, 4, 5, 6] (s.setPar P.ownStatus 0)).entriesOn.length ∧ t.mem = s.mem ∧ t.own = s.own ∧
       t.queues = s.queues) ∧
  (∀ (d : Fin 2048) (s : State),
     s.takes (P.descCommit d) 1 = true → s.descOn d = false → s.descCheck d = 0 →
     ∃ t, exec (.descCommit d) s = .next t ∧ t = ((s.setPar (P.descStatus d) 0).descBit d 0 true).setLossy d ∧ t.mem = s.mem ∧
       t.fac = s.fac) ∧
  (∀ (d : Fin 2048) (s : State),
     s.takes (P.descCommit d) 2 = true → s.descOn d = true → fld (s.par (P.descState d)) 1 1 = 0 →
     ∃ t, exec (.descRelease d) s = .next t ∧ t = ((s.setPar (P.descStatus d) 0).descBit d 0 false).unhang (fun x => x / 2 ^ 28
       == d.val) ∧ t.mem = s.mem ∧ t.fac = s.fac)

/-- The one-second capacity audit visits every region; a frame walk whose counts agree counts a pass; a conservation audit checks
its law; a fence lifts once every region of the stack set is back above the low-water mark. -/
def Obligations.CapacityChecks : Prop :=
  (∀ (s : State),
     s.dev ≠ dsInit → s.warm = false →
     exec .capacityAudit s = .next (forAll (fun q s => s.capAudit q) [0, 1, 2, 3] s)) ∧
  (∀ (q : Fin 4) (s : State),
     s.mem.frames = [] → s.stackTab = [] → [1, 2, 3, 4].all (fun st => s.tally q st == s.par (capKey q st)) = true →
     s.par (P.capTotal q) - s.deadFrames q = s.par (P.capFree q) →
     exec (.frameWalkPass q) s = .next (s.count (P.capWalkPass q) 1)) ∧
  (∀ (law : Fin 8) (s : State),
     s.audits = true →
     exec (.conservationAudit law) s = .next (s.auditLaw law)) ∧
  (∀ (n : Fin 64) (s : State),
     s.par (P.partFence n) = 1 →
     (setRegions (s.par (P.partStackSet n))).all (fun q => decide ((s.lowWater : Int) ≤ s.headroom q)) = true →
     exec (.fenceLift n) s = .next ((s.setPar (P.partFence n) 0).capNotice n ((setRegions (s.par (P.partStackSet n))).headD 0)
       false))

/-- A read whose LD is up with a credit left, whose tollgate has a token, whose window and ownership checks pass and which its
home hub can serve spends one token, counts its parcel, takes a grant of the region arbiter and is served by serveRead; in
an explicit-T0 window its answer is the 64 bytes of the window at its line. Where the spec leaves points open the statement
rests on the model's choices of log 14, 17, 18 and 86. -/
def Obligations.CxlMemReadServed : Prop :=
  (∀ (port : Fin 512) (address dpa : Nat) (want : Fin 3) (ph : Phys) (w : Nat) (v : View) (s : State),
     let r := s.readReq port want (dpa / 64 * 64)
     let s0 := s.backWith (port / 16) ph
     let s1 := s0.gateSpend r
     let s2 := s1.accepted r w
     let s3 := s2.hubGrant ((s2.home r.dpa).getD 0) (r.port / 32)
     s.ldUp port = true → (s0.link (port / 16)).noCredit (s.readReq port want 0) = false → s0.ldUp port = true →
     s0.decodeHdm port address = some dpa → dpa < dpaEnd → s0.ideRefuses r = false → s0.serving = true →
     (Tab.get port.val s0.reg.masters).hold = [] → s0.gateOk r = true → (s1.checks r).toOption = some (w, v) →
     s2.hubReady r v w = true → s3.cohAt r.dpa = none →
     exec (.cxlMemRead port address want ph) s = .next (s3.serveRead r v w ph)) ∧
  (∀ (port : Fin 512) (address dpa : Nat) (want : Fin 3) (ph : Phys) (w : Nat) (v : View) (s : State),
     let r := s.readReq port want (dpa / 64 * 64)
     let s0 := s.backWith (port / 16) ph
     let s1 := s0.gateSpend r
     let s2 := s1.accepted r w
     let s3 := s2.hubGrant ((s2.home r.dpa).getD 0) (r.port / 32)
     s.ldUp port = true → (s0.link (port / 16)).noCredit (s.readReq port want 0) = false → s0.ldUp port = true →
     s0.decodeHdm port address = some dpa → dpa < dpaEnd → s0.ideRefuses r = false → s0.serving = true →
     (Tab.get port.val s0.reg.masters).hold = [] → s0.gateOk r = true → (s1.checks r).toOption = some (w, v) →
     s2.hubReady r v w = true → s3.cohAt r.dpa = none → s3.par (P.winKind w) = wT0 →
     Tab.get (r.dpa / 64) s3.mem.t0marks = false →
     exec (.cxlMemRead port address want ph) s = .next (s3.reply r (some (Tab.readRun 0 (r.dpa / 64 * 64) 64 s3.mem.t0))))

/-- A write whose LD is up with a credit left, whose tollgate has a token, whose checks pass and which its home hub can take is
accepted by serveWrite, after which the hub tries its held requests; in an explicit-T0 window its enabled bytes replace the
stored ones at its line as it is accepted, every other byte of staging and every byte of HBM reading as before. Where the
spec leaves points open the statement rests on the model's choices of log 17, 18 and 86. -/
def Obligations.CxlMemWriteAccepted : Prop :=
  (∀ (port : Fin 512) (address dpa : Nat) (data : List Byte) (mask : Nat) (mark : WriteMark) (keep : Fin 3) (w : Nat) (v :
     View) (s : State),
     let r := s.writeReq port data mask mark.poison mark.parity keep (dpa / 64 * 64)
     let s0 := s.backWith (port / 16) noPhys
     let s1 := s0.gateSpend r
     let s2 := s1.accepted r w
     let s3 := s2.hubGrant ((s2.home r.dpa).getD 0) (r.port / 32)
     s.ldUp port = true → (s0.link (port / 16)).noCredit (s.writeReq port data mask mark.poison mark.parity keep 0) = false →
     s0.ldUp port = true → s0.decodeHdm port address = some dpa → dpa < dpaEnd → s0.ideRefuses r = false → s0.serving = true →
     (Tab.get port.val s0.reg.masters).hold = [] → s0.gateOk r = true → (s1.checks r).toOption = some (w, v) →
     s2.hubReady r v w = true → s3.cohAt r.dpa = none →
     exec (.cxlMemWrite port address data mask mark keep) s = .next ((s3.serveWrite r v w).retryHub noPhys)) ∧
  (∀ (port : Fin 512) (address dpa : Nat) (data : List Byte) (mark : WriteMark) (keep : Fin 3) (w : Nat) (v : View) (s :
     State),
     let r := s.writeReq port data 0 mark.poison mark.parity keep (dpa / 64 * 64)
     let s0 := s.backWith (port / 16) noPhys
     let s1 := s0.gateSpend r
     let s2 := s1.accepted r w
     let s3 := s2.hubGrant ((s2.home r.dpa).getD 0) (r.port / 32)
     s.ldUp port = true → (s0.link (port / 16)).noCredit (s.writeReq port data 0 mark.poison mark.parity keep 0) = false →
     s0.ldUp port = true → s0.decodeHdm port address = some dpa → dpa < dpaEnd → s0.ideRefuses r = false → s0.serving = true →
     (Tab.get port.val s0.reg.masters).hold = [] → s0.gateOk r = true → (s1.checks r).toOption = some (w, v) →
     s2.hubReady r v w = true → s3.cohAt r.dpa = none → mark.poison = false → mark.parity = false →
     s3.par (P.winKind w) = wT0 → s3.flipSram 1 ((s3.home r.dpa).getD 0) = false →
     ∃ t : State, exec (.cxlMemWrite port address data 0 mark keep) s = .next (t.retryHub noPhys) ∧ t.mem.hbm = s3.mem.hbm ∧ ∀
       a, Tab.getD 0 a t.mem.t0 = if r.dpa / 64 * 64 ≤ a ∧ a < r.dpa / 64 * 64 + 64 then (padTo 64 data).getD (a - r.dpa / 64 *
       64) 0 else Tab.getD 0 a s3.mem.t0)

/-- CXL_MEM_READ and CXL_MEM_WRITE of a host address that no committed HDM decoder takes, or that one takes to a DPA outside the
42-bit address space, are refused with NO_WINDOW; a request that its channel has no credit for is discarded and its link
falls. Where the spec leaves points open the statement rests on the model's choices of log 17, 18 and 87. -/
def Obligations.CxlMemNoWindow : Prop :=
  (∀ (port : Fin 512) (address : Nat) (want : Fin 3) (ph : Phys) (s : State),
     let s0 := s.backWith (port / 16) ph
     let r := s.readReq port want ((s0.decodeHdm port address).elim (address % 2 ^ 42) (· % 2 ^ 42))
     s.ldUp port = true → (s0.link (port / 16)).noCredit (s.readReq port want 0) = false → s0.ldUp port = true →
     s0.ideRefuses r = false → s0.serving = true → (s0.decodeHdm port address).all (fun d => decide (dpaEnd ≤ d)) = true →
     exec (.cxlMemRead port address want ph) s = .next (s0.accessFail r 1)) ∧
  (∀ (port : Fin 512) (address : Nat) (data : List Byte) (mask : Nat) (mark : WriteMark) (keep : Fin 3) (s : State),
     let s0 := s.backWith (port / 16) noPhys
     let r := s.writeReq port data mask mark.poison mark.parity keep ((s0.decodeHdm port address).elim (address % 2 ^ 42) (· %
       2 ^ 42))
     s.ldUp port = true → (s0.link (port / 16)).noCredit (s.writeReq port data mask mark.poison mark.parity keep 0) = false →
     s0.ldUp port = true → s0.ideRefuses r = false → s0.serving = true →
     (s0.decodeHdm port address).all (fun d => decide (dpaEnd ≤ d)) = true →
     exec (.cxlMemWrite port address data mask mark keep) s = .next (s0.accessFail r 1)) ∧
  (∀ (port : Fin 512) (address : Nat) (want : Fin 3) (ph : Phys) (s : State),
     let s0 := s.backWith (port / 16) ph
     s.ldUp port = true → s0.ldUp port = true → (s0.link (port / 16)).noCredit (s.readReq port want 0) = true →
     exec (.cxlMemRead port address want ph) s = .next (s0.overflow port)) ∧
  (∀ (port : Fin 512) (address : Nat) (data : List Byte) (mask : Nat) (mark : WriteMark) (keep : Fin 3) (s : State),
     let s0 := s.backWith (port / 16) noPhys
     s.ldUp port = true → s0.ldUp port = true →
     (s0.link (port / 16)).noCredit (s.writeReq port data mask mark.poison mark.parity keep 0) = true →
     exec (.cxlMemWrite port address data mask mark keep) s = .next (s0.overflow port))

/-- The oldest request held at a tollgate passes once it is eligible; a block whose lines did not all come within 4 µs is stored
and the hub tries its held requests again; the oldest component write is accepted once every copy is gone; a detour read
returns its line. Where the spec leaves points open the statement rests on the model's choices of log 1 and 86. -/
def Obligations.HubEvents : Prop :=
  (∀ (port : Fin 512) (ph : Phys) (r : HeldReq) (rs : List HeldReq) (s : State),
     (Tab.get port.val s.reg.masters).hold = r :: rs → s.gateOk r = true →
     exec (.tollgateRelease port ph) s = .next (((s.modMaster port (fun m => { m with hold := rs })).syncReq (port /
       16)).gatePass r ph)) ∧
  (∀ (block : Fin 1073741824) (owner : Fin 257) (env : Env) (g : Gather) (s : State),
     Tab.find? (block.val + 2 ^ 30 * owner.val) s.mem.gather = some g → g.first + usT 4 ≤ s.now →
     exec (.gatherTimeout block owner env) s = .next (((s.settlePack (block.val + 2 ^ 30 * owner.val)).resolve (block.val + 2 ^
       30 * owner.val) env true).retryHub env.ph)) ∧
  (∀ (ph : Phys) (x : CompWrite) (xs : List CompWrite) (w : Nat) (v : View) (s : State),
     s.fac.compWait = x :: xs → (s.modFac (fun f => { f with compWait := xs })).winAt x.dpa = some w →
     ((s.modFac (fun f => { f with compWait := xs })).viewFor x.hid x.dpa true).toOption = some v →
     exec (.componentInvalidate ph) s = .next (((s.modFac (fun f => { f with compWait := xs })).compAccept x w v).retryHub ph)) ∧
  (∀ (host : HostData) (d : DetRead) (ds : List DetRead) (s : State),
     s.mem.detReads = d :: ds →
     exec (.detourReadComplete host) s = .next (s.detourDone host) ∧ (d.flush = false → (entryOf (s.wordIn .main d.blk)).state
       = stDetour → (s.detourDone host).mem.detReads = ds))

/-- A packed block whose checker decoder agrees is committed; a MIRROR home copy that fails is rewritten from its partner; a
sweep halves parcel counters, drops T0 copies of cool parcels and reads cold FLAT blocks; a promotion, a recompression and
a relocation that find frames commit; each as the named operation of the model gives it. Where the spec leaves points open
the statement rests on the model's choices of log 1, 71, 72 and 102. -/
def Obligations.CapacityMover : Prop :=
  (∀ (block : Fin 1073741824) (owner : Fin 257) (code : Fin 32) (own partner : Bool) (ph : Phys) (j : PackJob) (s : State),
     Tab.find? (block.val + 2 ^ 30 * owner.val) s.mem.packJobs = some j →
     Form.checks { state := j.state, codec := j.codec, bytes := j.coded } (s.streamWb j.win ((block.val + 2 ^ 30 * owner.val) %
       2 ^ 30)) j.orig = true →
     exec (.checkerRoundTrip block owner false code own partner ph) s = .next ((s.packEnd (block.val + 2 ^ 30 * owner.val)
       true).retryHub ph)) ∧
  (∀ (block : Fin 1073741824) (ph : Phys) (w : MapWord) (a : Nat) (v : View) (s : State),
     let wb := (s.winAt (block.val * 4096)).elim 0 (fun x => s.streamWb x block.val)
     let s1 := (s.moverGrant ((s.home (block.val * 4096)).getD 0)).fetchLines block.val (entryOf w) (entryOf w).addr
       (List.range 64) wb ph
     let s2 := s1.2.fetchLines block.val (entryOf w) a (List.range 64) wb ph
     s.moverMay ((s.home (block.val * 4096)).getD 0) 2 = true → s.wordsOf block.val = [w] →
     s.partnerOf (entryOf w).addr = some a → s.viewOf block.val w = some v → (entryOf w).inHbm = true → s1.1.toOption = none →
     s2.1.toOption.isSome = true →
     exec (.mirrorHomeRewrite block ph) s = .next (s2.2.rewrite v block.val (entryOf w) a)) ∧
  (∀ (region : Fin 4) (ph : Phys) (s : State),
     let s1 := s.decay region 1
     let s2 := s1.modMem (fun m =>
       { m with t0cache := m.t0cache.filter (fun p => !((s1.t0Blocks region).filter (fun b => decide (s1.parcel (b * 4096) < s1.par P.capDemoteT0))).contains p.1) })
     s.par (P.pwrRegionState region) < 2 → s.power.hubOff = false →
     exec (.moverSweep region ph) s = .next (forAll (fun b s => s.moverRead b ph) (s2.flatIn region) s2)) ∧
  (∀ (region : Fin 4) (ph : Phys) (b : Nat) (bs : List Nat) (w n : Nat) (d : List Byte) (s : State),
     let s1 := s.modMem (fun m => { m with promoQ := Tab.set region.val bs m.promoQ })
     let x := (s1.moverGrant region.val).readBlock .main b 0 ph none 0xFF
     let u := x.2.moverCommit .main b (flatForm d)
     Tab.get region.val s.mem.promoQ = b :: bs → s1.winAt (b * 4096) = some w → s1.partAt (b * 4096) = some n →
     (entryOf (s1.wordIn .main b)).state = stPacked → s1.floatWin w = true → s1.par P.capPromoteT1 ≤ s1.parcel (b * 4096) →
     (s1.copyRegions n b).all (fun q => s1.promoRoom q 1) = true → s1.moverMay region.val 2 = true → x.1 = some (d, []) →
     u.isSome = true →
     exec (.moverPromote region ph) s = .next (((u.getD s).modMem (fun m =>
       { m with promoted := Tab.set b (s1.copyRegions n b).length m.promoted })).count P.capPromoFrames (s1.copyRegions n
       b).length)) ∧
  (∀ (block : Fin 1073741824) (x : MapWord) (d : List Byte) (v : View) (w : Nat) (s : State),
     let s1 := s.modMem (fun m => { m with mover := Tab.set block.val [] m.mover })
     let q := (s1.home (block.val * 4096)).getD 0
     Tab.get block.val s.mem.mover = [(x, d)] → s.winAt (block.val * 4096) = some w → s1.viewOf block.val x = some v →
     (entryOf x).state = stFlat → s1.marksOf (entryOf x) = [] →
     s1.moverMay q (if (Tab.find? (gatherKey v block.val) s1.mem.promoted).isSome then 2 else 3) = true →
     s1.plainAt block.val (entryOf x) (entryOf x).addr = d →
     exec (.moverRecompress block) s = .next ((s1.coded w block.val d).elim ((s1.moverCommit v block.val (if s1.storeOf w
       block.val = .data then rawForm d else s1.unpacked w block.val d)).elim s1 (fun t => if s1.storeOf w block.val = .data
       then t.count P.bicelRawCount 1 else t)) (fun f => ((s1.moverGrant q).laneForm w block.val f d).1.elim ((s1.moverGrant
       q).laneForm w block.val f d).2 (fun g => (((s1.moverGrant q).laneForm w block.val f d).2.moverCommit v block.val g).getD
       ((s1.moverGrant q).laneForm w block.val f d).2)))) ∧
  (∀ (block : Fin 1073741824) (ph : Phys) (w : MapWord) (s : State),
     let q := (s.home (block.val * 4096)).getD 0
     let u := (forAll (fun k s => s.shutFrame k) (s.framesOf (entryOf w)) (s.moverGrant q)).relocate block.val w ph
     s.toRelocate q block.val = some w → u.isSome = true →
     exec (.relocateBlock block ph) s = .next (u.getD s))

/-- The first block of the sweep order that may spill does: once its flushing read completes its DETOUR entry is committed, and
when that read fails its slot is given back; a recall commits the block in HBM again; a lost detour area becomes LOST,
commits every DETOUR entry POISON and answers its waiting reads; one without stores that wait for a flushing read then has
no read left and writes nothing to HBM. Where the spec leaves points open the statement rests on the model's choices of log
10, 98 and 103. -/
def Obligations.DetourMoves : Prop :=
  (∀ (block : Fin 1073741824) (ph : Phys) (d : List Byte) (s : State),
     let q := (s.home (block.val * 4096)).getD 0
     let x := (s.moverGrant q).readBlock .main block.val 0 ph none 0xFF
     s.spillNext q = some block.val → s.moverMay q 4 = true → x.1 = some (d, []) →
     exec (.detourSpill block true ph) s = .next (((x.2.fillSlot block.val d).2).commitSlot block.val (x.2.fillSlot block.val
       d).1) ∧ exec (.detourSpill block false ph) s = .next (((x.2.fillSlot block.val d).2).freeSlot (x.2.fillSlot block.val
       d).1)) ∧
  (∀ (block : Fin 1073741824) (host : HostData) (w q : Nat) (d : List Byte) (s : State),
     let e := entryOf (s.wordIn .main block.val)
     let s1 := (s.moverGrant q).svcPut
       { who := 2, read := true, addr := (s.moverGrant q).slotAddr e.addr, len := 4096, data := [], bad := [], tok := e.addr, since := 0 }
     let u := (s1.homeForm w block.val d).2.commitForm .main block.val (s1.homeForm w block.val d).1 [] false
     s.winAt (block.val * 4096) = some w → s.home (block.val * 4096) = some q → e.state = stDetour → s.par P.detState = 1 →
     s.par P.capPromoteT1 ≤ s.parcel (block.val * 4096) → (s.lowWater : Int) ≤ s.headroom q → s.moverMay q 2 = true →
     (Tab.find? block.val s.mem.packJobs).isSome = false →
     s1.slotData block.val e.addr { ph := noPhys, host := .failed, slots := [(e.addr, host)] } = some (some d) →
     u.isSome = true →
     exec (.detourRecall block host) s = .next (u.getD s)) ∧
  (∀ (s : State),
     s.svc.flr = true ∨ (s.svc.bme = false ∧ s.svc.downAt = 0) ∨ s.svc.dstate = 2 ∨ (s.svc.downAt ≠ 0 ∧ s.svc.downAt + msT 100
       ≤ s.now + 1) →
     exec .detourLost s = .next s.detourLost) ∧
  (∀ (s : State),
     s.svc.flr = true ∨ (s.svc.bme = false ∧ s.svc.downAt = 0) ∨ s.svc.dstate = 2 ∨ (s.svc.downAt ≠ 0 ∧ s.svc.downAt + msT 100
       ≤ s.now + 1) →
     s.par P.detState = 1 → s.mem.detReads.all (fun d => !d.flush) = true →
     exec .detourLost s = .next s.detourLost ∧ s.detourLost.mem.detReads = [] ∧ s.detourLost.mem.hbm = s.mem.hbm)

/-- FACTOR starts on a dense committed window with its view and rights; a switched tile ends the command when it is the last; a
lowered tile is written ZERO in mode 2; a reconstruction serves the head of its pipeline; each as the named operation gives
it. Where the spec leaves points open the statement rests on the model's choices of log 12, 70, 74, 104, 105 and 106. -/
def Obligations.FactoredTensors : Prop :=
  (∀ (queue : Fin 32768) (start : FactorStart) (c : Cmd) (w : Nat) (s : State),
     let v := s.factorView (s.qHid (cmdKey queue.val start.idx.val / 65536)) w
     let x := s.storeFactors (s.qHid (cmdKey queue.val start.idx.val / 65536)) v w (s.desc (fld (c.d 1) 10 0)) start.env
     s.runs queue.val start.idx.val 0x08 0 c = true → s.winOfDesc (fld (c.d 1) 10 0) = some w →
     s.rangeStatus (s.qHid (cmdKey queue.val start.idx.val / 65536)) (s.par (P.winBase w)) (s.par (P.winSize w)) true = 0 →
     s.isBroken v = false → s.par (P.winKind w) ≠ wFactor → (Tab.get (fld (c.d 1) 10 0) s.fac.runs).on = false →
     s.anyFactor v w (s.desc (fld (c.d 1) 10 0)) = false →
     exec (.factorFull queue start) s = .next (State.paid (if x.1 = true then (((x.2.accept (cmdKey queue.val
       start.idx.val)).modFac (fun f =>
       { f with runs := Tab.set (fld (c.d 1) 10 0) { on := true, resOnly := false, next := 0, cmd := cmdKey queue.val start.idx.val, dirty := [], switched := 0, tiles := (s.desc (fld (c.d 1) 10 0)).tiles, disp := 0 } f.runs })).descBit
       (fld (c.d 1) 10 0) 2 true).dispatchAll else x.2.finish (cmdKey queue.val start.idx.val) stCapacity 0 0) s queue.val)) ∧
  (∀ (queue : Fin 32768) (idx : Fin 65536) (c : Cmd) (w : Nat) (s : State),
     let v := s.factorView (s.qHid (cmdKey queue.val idx.val / 65536)) w
     s.runs queue.val idx.val 0x08 1 c = true → s.winOfDesc (fld (c.d 1) 10 0) = some w →
     s.rangeStatus (s.qHid (cmdKey queue.val idx.val / 65536)) (s.par (P.winBase w)) (s.par (P.winSize w)) true = 0 →
     s.isBroken v = false → s.par (P.winKind w) ≠ wFactor → (Tab.get (fld (c.d 1) 10 0) s.fac.runs).on = false →
     s.par (P.descGen (fld (c.d 1) 10 0)) ≠ 0 →
     exec (.factorResidualOnly queue idx) s = .next (State.paid ((((s.accept (cmdKey queue.val idx.val)).modFac (fun f =>
       { f with runs := Tab.set (fld (c.d 1) 10 0) { on := true, resOnly := true, next := 0, cmd := cmdKey queue.val idx.val, dirty := [], switched := 0, tiles := (s.desc (fld (c.d 1) 10 0)).tiles, disp := 0 } f.runs })).descBit
       (fld (c.d 1) 10 0) 2 true).dispatchAll) s queue.val)) ∧
  (∀ (descriptor : Fin 2048) (env : Env) (w : Nat) (v : View) (s : State),
     let x := Tab.get descriptor.val s.fac.runs
     let n := (s.desc descriptor.val).tiles
     s.winOfDesc descriptor.val = some w → x.on = true → x.next < n → x.next + 1 + x.tiles ≤ n →
     (s.viewFor (s.qHid (x.cmd / 65536)) (s.par (P.winBase w)) true).toOption = some v → s.isBroken v = false →
     exec (.tileSwitch descriptor env) s = .next (State.paid ((s.switchTile x v w x.next env).elim (s.factorEnd descriptor.val
       stCapacity) (fun p => if x.next + 1 = n then (p.2.modFac (fun f =>
       { f with runs := Tab.mod descriptor.val (fun y => { y with next := x.next + 1, switched := y.switched + (if p.1 then 1 else 0) }) f.runs })).factorEnd
       descriptor.val 0 else p.2.modFac (fun f =>
       { f with runs := Tab.mod descriptor.val (fun y => { y with next := x.next + 1, switched := y.switched + (if p.1 then 1 else 0) }) f.runs })))
       s (x.cmd / 65536))) ∧
  (∀ (descriptor : Fin 2048) (tile : Fin 268435456) (env : Env) (w : Nat) (r : TileRec) (s : State),
     let q := (s.home ((s.par (P.winBase w) / 4096 + tile.val * (s.winDesc w).wOut) * 4096)).getD 0
     let s0 := s.moverGrant q
     let b0 := s0.par (P.winBase w) / 4096
     let x := s0.tileRecord (s0.latestView b0) b0 (s0.winDesc w) tile.val env
     s.winOfDesc descriptor.val = some w → s.lowerNext q = some (w, tile.val) → s.moverMay q 5 = true → x.1 = some r →
     r.bad = false → r.low = false → (s0.winDesc w).lowerMode = 2 →
     exec (.lowerTile descriptor tile env) s = .next (x.2.lowerPut (s0.latestView b0) w tile.val (recordWord 0 2 r.rank)
       (((List.range (s0.winDesc w).wOut).map (fun j => b0 + tile.val * (s0.winDesc w).wOut + j)).map (fun b => (b,
       { state := stFactor, codec := cZero, bytes := [] }))))) ∧
  (∀ (region : Fin 4) (block : Fin 9) (env : Env) (p : PipeRead) (ps : List PipeRead) (s : State),
     Tab.get (region.val * 16 + block.val) s.fac.pipes = p :: ps → s.blkAway (region.val * 16 + block.val) = false →
     s.integ.flags.any (fun f => f.work == .recon p.blk) = false → s.creditsOk (region.val * 16 + block.val) = true →
     exec (.factorReconstruct region block env false) s = .next (s.reconHead (region.val * 16 + block.val) env))

/-- A commit whose checks pass puts the region into force: VERSIONED publishes an empty initial version, COHERENT holds none; a
release gives up every version; a version reset restarts the numbers at 1; a lease-enable write of 0 cancels every lease,
of 1 gives each bound HID one. Where the spec leaves points open the statement rests on the model's choices of log 68. -/
def Obligations.SharedRegionObjects : Prop :=
  (∀ (region : Fin 256) (s : State),
     let s1 := (s.setPar (P.srStatus region) 0).modSr region (fun _ => { (default : SrRec) with on := true })
     let s2 := forAll (fun i s => s.setPar (P.srDead region i) 0) [0, 1, 2, 3] s1
     s.takes (P.srCommit region) 1 = true → s.srCheck region = 0 →
     exec (.srCommit region) s = .next (if s2.srVersioned region then s2.withRefs region (fun s => (s.takeVersion.2.modSr
       region (fun r => { r with versions := [{ num := s.takeVersion.1, map := [] }] })).setPar (P.srLatest region)
       s.takeVersion.1) else (s2.setPar (P.srLatest region) 0).setPar (P.srLive region) 0)) ∧
  (∀ (region : Fin 256) (s : State),
     s.takes (P.srCommit region) 2 = true → s.srOn region = true →
     s.winsOn.any (fun w => overlaps (s.par (P.srBase region)) (s.par (P.srSize region)) (s.par (P.winBase w)) (s.par
       (P.winSize w))) = false →
     ∃ t, exec (.srRelease region) s = .next t ∧ (t.sr region) = default ∧ t.par (P.srStatus region) = 0 ∧ t.par (P.srLatest
       region) = 0 ∧ t.par (P.srLive region) = 0 ∧ t.mem.hbm = s.mem.hbm ∧ t.jobs = s.jobs) ∧
  (∀ (s : State),
     s.takes P.shareVersionReset 1 = true →
     exec .shareVersionReset s = .next { s.setPar P.shareVersionNext 1 with shared := { s.shared with exhausted := false } }) ∧
  (∀ (region : Fin 256) (s : State),
     s.takes (P.srLeaseEnable region) 0 = true →
     exec (.leaseEnableWrite region 0) s = .next ((s.setPar (P.srLeaseEnable region) 0).modSr region (fun r =>
       { r with leases := [] }))) ∧
  (∀ (region : Fin 256) (s : State),
     let s1 := s.setPar (P.srLeaseEnable region) 1
     s.takes (P.srLeaseEnable region) 1 = true → s.par (P.srLeaseEnable region) = 0 →
     exec (.leaseEnableWrite region 1) s = .next (forAll (fun h s => s.leaseFull region h) (distinct (Tab.keys (s1.sr
       region).reads ++ (s1.sr region).opens.map OpenVer.hid ++ ((s1.dirIn region).map DirEnt.holders).flatten)) s1)) ∧
  (∀ (s : State),
     s.vrefWalkOk = true →
     exec .versionTableWalkPass s = .next (s.count P.vrefWalkPass 1))

/-- A contract that passes admission takes effect at the next boundary and gives its words to the next set; a release is due at
the next boundary; a boundary runs once for each microsecond; a window of 100 boundaries measures every contract. -/
def Obligations.BandwidthContracts : Prop :=
  (∀ (contract : Fin 1024) (s : State),
     s.takes (P.rcCommit contract) 1 = true → s.rcCheck contract = 0 →
     exec (.rcCommit contract) s = .next ((s.setPar (P.rcStatus contract) 0).modCon contract (fun r =>
       { r with next := [1, 2, 3, 4, 5, 6].map (fun w => (w, s.rcWord contract w + 1)), commitDue := true, releaseDue := false }))) ∧
  (∀ (contract : Fin 1024) (s : State),
     s.takes (P.rcCommit contract) 2 = true → s.par (P.rcState contract) ≠ 0 →
     exec (.rcRelease contract) s = .next ((s.setPar (P.rcStatus contract) 0).modCon contract (fun r =>
       { r with releaseDue := true, commitDue := false }))) ∧
  (∀ (s : State),
     s.reg.boundary < s.us + 1 → s.dev ≠ dsInit → s.warm = false →
     exec .tokenBoundary s = .next s.boundary) ∧
  (∀ (s : State),
     100 ≤ s.reg.windowAt → s.serving = true →
     exec .guaranteeWindowEnd s = .next
       { forAll (fun c s => s.windowEnd c) s.consOn s with reg := { (forAll (fun c s => s.windowEnd c) s.consOn s).reg with windowAt := 0 } })

/-- A token boundary in SERVICE leaves the guaranteed bucket of every contract in force within rc_burst lines: what exceeds the
depth expires. -/
def Obligations.BucketsStayWithinBurst : Prop :=
  ∀ (c : Nat) (s : State),
    s.reg.boundary < s.us + 1 → s.serving = true → s.warm = false → c ∈ s.boundary.consOn →
    ∃ t, exec .tokenBoundary s = .next t ∧ (Tab.get c t.reg.con).bucket ≤ t.par (P.rcBurst c) * 4096

/-- ENABLE of a queue whose checks pass makes it RUNNING with a fresh record; DISABLE stops fetching and gives up completions;
RESTART resumes a HALTED queue; a doorbell in range moves the tail or frees the slots up to the head, one 8-byte write does
both, and a read returns both doorbells. Where the spec leaves points open the statement rests on the model's choices of
log 111. -/
def Obligations.QueueControl : Prop :=
  (∀ (queue : Fin 32768) (s : State),
     s.takes (P.qCtl queue) 1 = true → s.qCheck queue = 0 →
     exec (.qEnable queue) s = .next (((s.setPar (P.qState queue) 0).setQMode queue 1 0).modQ queue (fun _ =>
       { (default : QRec) with phase := true }))) ∧
  (∀ (queue : Fin 32768) (s : State),
     s.takes (P.qCtl queue) 2 = true → s.qMode queue ≠ 0 →
     exec (.qDisable queue) s = .next ((((((s.modQ queue (fun r =>
       { r with disabling := true, held := [], cmds := r.cmds.filter (fun c => c.phase == 1 || c.phase == 2) })).moveSlots
       P.qeStarted P.qeFree ((s.qr queue).cmds.filter (fun c => c.phase == 0 || c.phase == 3)).length).moveSlots P.qeHeld
       P.qeFree (s.qr queue).held.length).syncQ queue)).qDisabled queue)) ∧
  (∀ (queue : Fin 32768) (s : State),
     let u := (s.setQMode queue 1 0).modQ queue (fun r => { r with needBme := false })
     s.takes (P.qCtl queue) 3 = true → s.qMode queue = 2 → (s.qr queue).disabling = false → s.haltStays queue = false →
     s.serving = true → (s.qr queue).needBme = false ∨ s.qBme queue = true →
     exec (.qRestart queue) s = .next (if u.dbBad queue then u.haltQueue queue 0x12 else u)) ∧
  (∀ (queue : Fin 32768) (s : State),
     (s.qr queue).disabling = true → (s.qr queue).cmds = [] →
     exec (.qDisableComplete queue) s = .next ((s.setQMode queue 0 0).modQ queue (fun _ => default))) ∧
  (∀ (via : Option (Fin 512)) (queue : Fin 32768) (value : Nat) (s : State),
     via ≠ none ∨ s.barOn = true → s.warm = false → s.dbReaches (via.map Fin.val) queue = true → s.qMode queue ≠ 0 →
     value < s.qSize queue →
     exec (.sqTailDoorbell via queue (.one value)) s = .next (s.modQ queue (fun r => { r with tail := value % 2 ^ 32 }))) ∧
  (∀ (via : Option (Fin 512)) (queue : Fin 32768) (value : Nat) (s : State),
     via ≠ none ∨ s.barOn = true → s.warm = false → s.dbReaches (via.map Fin.val) queue = true → s.qMode queue ≠ 0 →
     value < s.qSize queue →
     ringDist (s.qSize queue) (s.qr queue).head (value % 2 ^ 32) ≤ ringDist (s.qSize queue) (s.qr queue).head (s.cqTail queue) →
     exec (.cqHeadDoorbell via queue (.one value)) s = .next (s.modQ queue (fun r =>
       { r with cqDb := value % 2 ^ 32, head := value % 2 ^ 32, outstanding := r.outstanding - ringDist (s.qSize queue) (s.qr queue).head (value % 2 ^ 32) }))) ∧
  (∀ (via : Option (Fin 512)) (queue : Fin 32768) (tail head : Nat) (s : State),
     via ≠ none ∨ s.barOn = true → s.warm = false → s.dbReaches (via.map Fin.val) queue = true → s.qMode queue ≠ 0 →
     exec (.sqTailDoorbell via queue (.both tail head)) s = .next ((s.sqTail queue (tail % 2 ^ 32)).cqHead queue (head % 2 ^
       32)) ∧ exec (.cqHeadDoorbell via queue (.both tail head)) s = .next ((s.sqTail queue (tail % 2 ^ 32)).cqHead queue (head
       % 2 ^ 32))) ∧
  (∀ (via : Option (Fin 512)) (queue : Fin 32768) (s : State),
     exec (.sqTailDoorbell via queue .read) s = .next (s.dbRead (via.map Fin.val) queue) ∧ exec (.cqHeadDoorbell via queue
       .read) s = .next (s.dbRead (via.map Fin.val) queue))

/-- A grant moves the arbiter on and fetches from the granted ring in host memory or in the device; a waiting fence starts its
command; a finished command is posted to host memory with the phase and its slot freed; a coalescing delay raises the
vector that waits, and a write of a table entry sets its message and its mask bit and sends a message held pending when
that bit becomes clear. Where the spec leaves points open the statement rests on the model's choices of log 1 and 25. -/
def Obligations.QueueFlow : Prop :=
  (∀ (host : HostData) (ph : Phys) (q : Nat) (d : List Byte) (s : State),
     let s1 :=
       { s with queues := { s.queues with groupPtr := (q / 64 + 1) % 512, queuePtr := Tab.set (q / 64) ((q % 64 + 1) % 64) s.queues.queuePtr } }
     let n := Nat.min (s1.fetchCount q) (s1.qSize q - s1.sqHead q)
     s.grantQueue = some q → fld (s.par (P.qCfg q)) 16 16 = 0 → host = .data d →
     exec (.queueFetch host ph) s = .next ((s1.hostRead q q (s1.par (P.qSqBase q) + 64 * s1.sqHead q) (64 * n)).takeEntries q
       (chunks 64 n (padTo (64 * n) d)))) ∧
  (∀ (host : HostData) (ph : Phys) (q : Nat) (d : List Byte) (s : State),
     let s1 :=
       { s with queues := { s.queues with groupPtr := (q / 64 + 1) % 512, queuePtr := Tab.set (q / 64) ((q % 64 + 1) % 64) s.queues.queuePtr } }
     let n := Nat.min (s1.fetchCount q) (s1.qSize q - s1.sqHead q)
     s.grantQueue = some q → fld (s.par (P.qCfg q)) 16 16 = 1 →
     s1.ringOk (s1.par (P.qSqBase q)) (64 * s1.qSize q) (s1.qHid q) rR = true →
     (s1.ringRead (s1.par (P.qSqBase q) + 64 * s1.sqHead q) ph (s1.qHid q) n).1 = some d →
     exec (.queueFetch host ph) s = .next ((s1.ringRead (s1.par (P.qSqBase q) + 64 * s1.sqHead q) ph (s1.qHid q)
       n).2.takeEntries q (chunks 64 n d))) ∧
  (∀ (queue : Fin 32768) (c : Cmd) (cs : List Cmd) (s : State),
     (s.qr queue).cmds = c :: cs → c.phase = 0 →
     entryCheck { c with phase := 1 } (s.qPriv queue) = 0 ∨ entryCheck c (s.qPriv queue) = 0 →
     exec (.fenceStart queue) s = .next (s.modCmd (cmdKey queue c.idx) (fun c => { c with phase := 1 }))) ∧
  (∀ (queue : Fin 32768) (ph : Phys) (c : Cmd) (s : State),
     let u := s.hostWrite queue 0 (s.par (P.qCqBase queue) + 16 * s.cqTail queue) (complBytes (s.qr queue).phase queue
       (s.sqHead queue) c) []
     (s.qr queue).held = [] → (s.qr queue).cmds.find? (fun c => c.phase == 3) = some c → s.qMode queue = 1 →
     s.cqFree queue = true → fld (s.par (P.qCfg queue)) 17 17 = 0 → s.qReach queue = true →
     exec (.completionPost queue ph) s = .next (((((u.modQ queue (fun r =>
       { r with cmds := r.cmds.filter (fun x => x.idx != c.idx), held := r.held, phase := if s.cqTail queue + 1 = u.qSize queue then !r.phase else r.phase })).moveSlots
       P.qeStarted P.qeFree 1).setQ queue 47 32 ((s.cqTail queue + 1) % (u.qSize queue))).syncQ queue).signal queue c)) ∧
  (∀ (queue : Fin 32768) (s : State),
     (s.qr queue).unsig ≠ 0 → fld (s.par (P.qCfg queue)) 63 56 ≠ 0 →
     (s.qr queue).unsigAt + usT (fld (s.par (P.qCfg queue)) 63 56) ≤ s.now →
     exec (.coalesceTimeout queue) s = .next (s.raiseQ queue)) ∧
  (∀ (entry : MsixEntry) (s : State),
     let u : State :=
       { s with svc := { s.svc with msix := Tab.set entry.vector.val (msixBits (Tab.get entry.vector.val s.svc.msix) entry.mask) s.svc.msix, msixMsg := Tab.set entry.vector.val (entry.addr % 2 ^ 64 + 2 ^ 64 * (entry.data % 2 ^ 32)) s.svc.msixMsg } }
     s.barOn = true →
     exec (.msixVectorUnmask none entry) s = .next (if entry.mask = false ∧ Tab.get entry.vector.val s.svc.msix / 2 = 1 then
       u.msixSvc entry.vector else u)) ∧
  (∀ (port : Fin 512) (entry : MsixEntry) (s : State),
     let u := s.modLd (ldKey port) (fun l =>
       { l with msix := Tab.set entry.vector.val (msixBits (Tab.get entry.vector.val (s.ld (ldKey port)).msix) entry.mask) l.msix, msixMsg := Tab.set entry.vector.val (entry.addr % 2 ^ 64 + 2 ^ 64 * (entry.data % 2 ^ 32)) l.msixMsg })
     entry.vector.val < 128 →
     exec (.msixVectorUnmask (some port) entry) s = .next (if entry.mask = false ∧ Tab.get entry.vector.val (s.ld (ldKey
       port)).msix / 2 = 1 then u.msixLd port entry.vector else u))

/-- A started COPY or FILL whose length, addresses and rights pass moves its bytes through engineWrite or the service link and
completes by copyEnd; PACK and UNPACK of transparent windows treat each block of the range in DPA order and complete with
the number changed; FIT_ESTIMATE of a partition in force completes with a verdict or, when its sample counts no block,
INVALID_FIELD. -/
def Obligations.DataMovers : Prop :=
  (∀ (queue : Fin 32768) (idx : Fin 65536) (env : Env) (c : Cmd) (s : State),
     let k := cmdKey queue.val idx.val
     let hid := s.qHid (cmdKey queue.val idx.val / 65536)
     let a := c.d 1
     let z := c.d 2
     let n := c.d 3
     let r1 := s.cohReady a n false
     let r2 := r1.2.cohReady z n true
     let x := ((r2.2.leaseRange hid a n).leaseRange hid z n).rangeAtHub hid a n env
     let y := x.2.engineWrite hid z x.1.1 x.1.2 env (blocksIn z n)
     s.runs queue.val idx.val 0x01 0 c = true → lenOk n = true → a % 64 = 0 → z % 64 = 0 → a + n ≤ dpaEnd → z + n ≤ dpaEnd →
     overlaps a n z n = false → s.rangeStatus hid a n false = 0 → s.rangeStatus hid z n true = 0 → r1.1 = true → r2.1 = true →
     exec (.copyDevice queue idx env) s = .next (State.paid (y.2.2.copyEnd k y.1 x.1.2.length y.2.1) s queue.val)) ∧
  (∀ (queue : Fin 32768) (idx : Fin 65536) (d : List Byte) (ph : Phys) (slots : List (Nat × HostData)) (c : Cmd) (s : State),
     let k := cmdKey queue.val idx.val
     let hid := s.qHid (cmdKey queue.val idx.val / 65536)
     let z := c.d 2
     let n := c.d 3
     let r := s.cohReady z n true
     let y := ((r.2.leaseRange hid z n).hostRead (k / 65536) k (c.d 1) n).engineWrite hid z (padTo n d) []
       { ph := ph, host := .data d, slots := slots } (blocksIn z n)
     s.runs queue.val idx.val 0x01 1 c = true → lenOk n = true → c.d 1 % 64 = 0 → z % 64 = 0 → z + n ≤ dpaEnd →
     s.rangeStatus hid z n true = 0 → r.1 = true →
     exec (.copyFromHost queue idx { ph := ph, host := .data d, slots := slots }) s = .next (State.paid (y.2.2.copyEnd k y.1 0
       y.2.1) s queue.val)) ∧
  (∀ (queue : Fin 32768) (idx : Fin 65536) (env : Env) (c : Cmd) (s : State),
     let k := cmdKey queue.val idx.val
     let hid := s.qHid (cmdKey queue.val idx.val / 65536)
     let a := c.d 1
     let n := c.d 3
     let r := s.cohReady a n false
     let x := (r.2.leaseRange hid a n).rangeAtHub hid a n env
     s.runs queue.val idx.val 0x01 2 c = true → lenOk n = true → c.d 2 % 64 = 0 → a % 64 = 0 → a + n ≤ dpaEnd →
     s.rangeStatus hid a n false = 0 → r.1 = true →
     exec (.copyToHost queue idx env) s = .next (State.paid ((x.2.hostWrite (k / 65536) 1 (c.d 2) x.1.1 x.1.2).copyEnd k 0
       x.1.2.length true) s queue.val)) ∧
  (∀ (queue : Fin 32768) (idx : Fin 65536) (env : Env) (c : Cmd) (s : State),
     let k := cmdKey queue.val idx.val
     let hid := s.qHid (cmdKey queue.val idx.val / 65536)
     let z := c.d 1
     let n := c.d 2
     let r := s.cohReady z n true
     let y := (r.2.leaseRange hid z n).engineWrite hid z (pattern (c.d 3) (n / 8)) [] env (blocksIn z n)
     s.runs queue.val idx.val 0x02 0 c = true → lenOk n = true → z % 64 = 0 → z + n ≤ dpaEnd → s.rangeStatus hid z n true = 0 →
     r.1 = true →
     exec (.fill queue idx env) s = .next (State.paid (y.2.2.copyEnd k y.1 0 y.2.1) s queue.val)) ∧
  (∀ (queue : Fin 32768) (idx : Fin 65536) (ph : Phys) (c : Cmd) (ws : List Nat) (s : State),
     let k := cmdKey queue.val idx.val
     let hid := s.qHid (cmdKey queue.val idx.val / 65536)
     let a := c.d 1
     let n := c.d 2
     let y := (s.leaseRange hid a n).eachBlock (fun s b => if (s.viewFor hid (b * 4096) true).toOption.isSome then s.packBlock
       ((s.viewFor hid (b * 4096) true).toOption.getD .main) b ph else some (false, s)) (a / 4096) (n / 4096)
     s.runs queue.val idx.val 0x03 0 c = true → n ≠ 0 → n % 4096 = 0 → a % 4096 = 0 → a + n ≤ dpaEnd →
     s.rangeStatus hid a n true = 0 → s.rangeWins a n = some ws →
     ws.all (fun w => s.par (P.winKind w) == wTransparent) = true →
     exec (.pack queue idx ph) s = .next (State.paid (y.2.2.finish k (if y.2.1 then 0 else stCapacity) y.1 0) s queue.val)) ∧
  (∀ (queue : Fin 32768) (idx : Fin 65536) (ph : Phys) (c : Cmd) (ws : List Nat) (s : State),
     let k := cmdKey queue.val idx.val
     let hid := s.qHid (cmdKey queue.val idx.val / 65536)
     let a := c.d 1
     let n := c.d 2
     let y := (s.leaseRange hid a n).eachBlock (fun s b => if (s.viewFor hid (b * 4096) true).toOption.isSome then
       s.unpackBlock ((s.viewFor hid (b * 4096) true).toOption.getD .main) b ph else some (false, s)) (a / 4096) (n / 4096)
     s.runs queue.val idx.val 0x04 0 c = true → n ≠ 0 → n % 4096 = 0 → a % 4096 = 0 → a + n ≤ dpaEnd →
     s.rangeStatus hid a n true = 0 → s.rangeWins a n = some ws →
     ws.all (fun w => s.par (P.winKind w) == wTransparent && s.par (P.winResidency w) == 0) = true →
     exec (.unpack queue idx ph) s = .next (State.paid (y.2.2.finish k (if y.2.1 then 0 else stCapacity) y.1 0) s queue.val)) ∧
  (∀ (queue : Fin 32768) (idx : Fin 65536) (env : Env) (c : Cmd) (s : State),
     let k := cmdKey queue.val idx.val
     let hid := s.qHid (cmdKey queue.val idx.val / 65536)
     let r := s.cohReady (c.d 5) 128 true
     let x := ((r.2.leaseRange hid (c.d 3) (c.d 4)).leaseRange hid (c.d 5) 128).sampleAll hid (c.d 3 / 4096) env
       { frames := [], counted := 0, low := 0 } (c.d 4 / 4096)
     s.runs queue.val idx.val 0x22 0 c = true → c.d 2 % 2 ^ 21 = 0 → c.d 3 % 4096 = 0 → c.d 4 % 4096 = 0 → 4096 ≤ c.d 4 →
     c.d 4 ≤ 2 ^ 30 → c.d 5 % 128 = 0 → c.d 3 + c.d 4 ≤ dpaEnd → c.d 5 + 128 ≤ dpaEnd →
     (Tab.get (c.d 1) s.own.parts).inForce = true → s.rangeStatus hid (c.d 3) (c.d 4) false = 0 →
     s.rangeStatus hid (c.d 5) 128 true = 0 → r.1 = true →
     (x.1.counted = 0 → exec (.fitEstimate queue idx env) s = .next (State.paid (x.2.fail k 0x02) s queue.val)) ∧ (x.1.counted
       ≠ 0 → ∃ (v : Nat) (d : List Byte), exec (.fitEstimate queue idx env) s = .next (State.paid (if (x.2.engineWrite hid (c.d
       5) d [] env 1).2.1 then (x.2.engineWrite hid (c.d 5) d [] env 1).2.2.finish k 0 v 0 else (x.2.engineWrite hid (c.d 5) d
       [] env 1).2.2.fail k stCapacity) s queue.val)))

/-- A started OPT_STEP of each kernel whose checks pass, whose hyperparameter record reads clean with its reserved bytes 0 and
whose blocks carry no shadow entry starts by stepStart; a work tile that retires on a running block gives its context the
next tile; a flagged work tile is launched again and counted. Where the spec leaves points open the statement rests on the
model's choices of log 63, 64 and 107. -/
def Obligations.OptSteps : Prop :=
  (∀ (queue : Fin 32768) (idx : Fin 65536) (env : Env) (c : Cmd) (s : State),
     let k := cmdKey queue.val idx.val
     let r := s.stepReady c.step
     let x := r.2.rangeAtHub (r.2.qHid (k / 65536)) (c.step.hyper * 4096) 64 env
     s.runs queue.val idx.val 0x10 0 c = true → s.stepCheck k c.step = 0 → r.1 = true → x.1.2 = [] →
     allZero (x.1.1.drop 0x2C) = true → x.2.stepBusy c.step = false →
     exec (.optStepSgdMomentum queue idx env) s = .next (State.paid (x.2.stepStart k c.step x.1.1 env) s queue.val)) ∧
  (∀ (queue : Fin 32768) (idx : Fin 65536) (env : Env) (c : Cmd) (s : State),
     let k := cmdKey queue.val idx.val
     let r := s.stepReady c.step
     let x := r.2.rangeAtHub (r.2.qHid (k / 65536)) (c.step.hyper * 4096) 64 env
     s.runs queue.val idx.val 0x10 1 c = true → s.stepCheck k c.step = 0 → r.1 = true → x.1.2 = [] →
     allZero (x.1.1.drop 0x2C) = true → x.2.stepBusy c.step = false →
     exec (.optStepAdamw queue idx env) s = .next (State.paid (x.2.stepStart k c.step x.1.1 env) s queue.val)) ∧
  (∀ (queue : Fin 32768) (idx : Fin 65536) (env : Env) (c : Cmd) (s : State),
     let k := cmdKey queue.val idx.val
     let r := s.stepReady c.step
     let x := r.2.rangeAtHub (r.2.qHid (k / 65536)) (c.step.hyper * 4096) 64 env
     s.runs queue.val idx.val 0x10 2 c = true → s.stepCheck k c.step = 0 → r.1 = true → x.1.2 = [] →
     allZero (x.1.1.drop 0x2C) = true → x.2.stepBusy c.step = false →
     exec (.optStepSignMomentum queue idx env) s = .next (State.paid (x.2.stepStart k c.step x.1.1 env) s queue.val)) ∧
  (∀ (queue : Fin 32768) (idx : Fin 65536) (env : Env) (c : Cmd) (s : State),
     let k := cmdKey queue.val idx.val
     let r := s.stepReady c.step
     let x := r.2.rangeAtHub (r.2.qHid (k / 65536)) (c.step.hyper * 4096) 64 env
     s.runs queue.val idx.val 0x10 3 c = true → s.stepCheck k c.step = 0 → r.1 = true → x.1.2 = [] →
     allZero (x.1.1.drop 0x2C) = true → x.2.stepBusy c.step = false →
     exec (.optStepProjectedAdamw queue idx env) s = .next (State.paid (x.2.stepStart k c.step x.1.1 env) s queue.val)) ∧
  (∀ (region : Fin 4) (block : Fin 9) (context : Fin 14) (s : State),
     s.blockRuns (region.val * 16 + block.val) = true → s.blkAway (region.val * 16 + block.val) = false →
     (s.blk (region.val * 16 + block.val)).woke = false →
     exec (.workTileRetire region block context) s = .next ((s.tileRetire (ctxKey (region.val * 16 + block.val)
       context)).diceTry region s.blkIdle)) ∧
  (∀ (flag : Nat) (f : FlagRec) (j tile : Nat) (s : State),
     s.integ.flags[flag]? = some f → f.work = .step j tile → f.ran = false →
     exec (.stepReplay flag) s = .next (((s.modInteg (fun x =>
       { x with flags := x.flags.set flag { f with ran := true } })).count (P.jobReplays j) 1).count P.optReplayCount 1))

/-- A PREPARE of an open step makes the job PREPARING; once every step and replay has finished it is PREPARED and every PREPARE
completes OK; a COMMIT of a PREPARED job commits its milestone and completes with its number; an ABORT_MILESTONE ends the
step, its waiting commands completing MILESTONE_STATE; job_base sets the committed milestone, job_release gives the job up.
Where the spec leaves points open the statement rests on the model's choices of log 64. -/
def Obligations.Milestones : Prop :=
  (∀ (queue : Fin 32768) (idx : Fin 65536) (c : Cmd) (s : State),
     let k := cmdKey queue.val idx.val
     let j := fld (c.d 2) 15 0
     s.runs queue.val idx.val 0x11 0 c = true → s.jobForeign k j = false → c.d 1 = s.par (P.jobCommitted j) + 1 →
     s.jobMode j = 1 ∨ s.jobMode j = 2 →
     exec (.prepare queue idx) s = .next ((((s.claimJob j (s.qHid (k / 65536))).accept k).modJob j (fun r =>
       { r with prepares := r.prepares ++ [k] })).jobField j 7 0 2)) ∧
  (∀ (job : Fin 65536) (s : State),
     s.jobMode job = 2 → (s.job job).steps.all StepRec.done = true → s.jobFlags job = false →
     exec (.prepareComplete job) s = .next (forAll (fun h s => s.finish h 0 (s.prepResult job) (s.prepFlags job true)) (s.job
       job).prepares (((s.jobField job 7 0 3).jobField job 17 17 1).modJob job (fun r => { r with prepares := [] })))) ∧
  (∀ (queue : Fin 32768) (idx : Fin 65536) (c : Cmd) (s : State),
     let k := cmdKey queue.val idx.val
     let j := fld (c.d 2) 15 0
     s.runs queue.val idx.val 0x12 0 c = true → s.jobForeign k j = false → c.d 1 = s.par (P.jobCommitted j) + 1 →
     s.jobMode j = 3 →
     exec (.commitStep queue idx) s = .next (((s.commitJob j).finish k 0 (s.par (P.jobCommitted j) + 1) 0).diceCommit)) ∧
  (∀ (queue : Fin 32768) (idx : Fin 65536) (c : Cmd) (s : State),
     let k := cmdKey queue.val idx.val
     let j := fld (c.d 2) 15 0
     s.runs queue.val idx.val 0x12 0 c = true → s.jobForeign k j = false → c.d 1 = s.par (P.jobCommitted j) →
     exec (.commitStep queue idx) s = .next (s.finish k 0 (s.par (P.jobCommitted j)) 8)) ∧
  (∀ (queue : Fin 32768) (idx : Fin 65536) (c : Cmd) (s : State),
     let k := cmdKey queue.val idx.val
     let j := fld (c.d 2) 15 0
     let s1 := forAll (fun x s => if x.done then s else s.fail x.cmd 0x28) (s.job j).steps (s.dropShadow j)
     let s2 := forAll (fun p s => s.fail p 0x28) (s.job j).prepares s1
     s.runs queue.val idx.val 0x13 0 c = true → s.jobForeign k j = false → c.d 1 = s.par (P.jobCommitted j) + 1 →
     s.jobMode j ≠ 0 →
     exec (.abortMilestone queue idx) s = .next (((s2.modInteg (fun i =>
       { i with flags := i.flags.filter (fun f => workJob f.work != some j) })).closeJob j).fail k 0)) ∧
  (∀ (job : Fin 65536) (value : Nat) (s : State),
     s.takes (P.jobBase job) value = true →
     exec (.jobBaseWrite job value) s = .next ((s.setPar (P.jobBase job) value).setPar (P.jobCommitted job) value)) ∧
  (∀ (job : Fin 65536) (value : Nat) (s : State),
     s.takes (P.jobRelease job) value = true →
     exec (.jobRelease job value) s = .next ((s.jobField job 16 16 0).jobField job 15 8 0))

/-- An OPEN with sound fields, rights and a bitmap that names a HID makes the context OPEN with no tile rounded; a CONTRIB of a
host or device source adds its tiles from the first on; a CANCEL ends the context CANCELLED; waiting contributions are
tried again; the next complete tile is rounded and written or kept for its step; a front that waits 2 ms, or does not
advance for red_timeout_ms, faults the reduction. Where the spec leaves points open the statement rests on the model's
choices of log 66 and 94. -/
def Obligations.Reductions : Prop :=
  (∀ (queue : Fin 32768) (idx : Fin 65536) (env : Env) (c : Cmd) (s : State),
     let k := cmdKey queue.val idx.val
     let hid := s.qHid (cmdKey queue.val idx.val / 65536)
     let o := c.redOpen
     let r := s.cohReady (o.bitmap / 64 * 64) 64 false
     let x := r.2.rangeAtHub hid (o.bitmap / 64 * 64) 64 env
     s.runs queue.val idx.val 0x14 0 c = true → s.redOpen o.n = false → s.redFields o = true →
     o.consumed = true ∨ s.rangeStatus hid o.dest o.destBytes true = 0 → s.rangeStatus hid o.bitmap 32 false = 0 →
     o.window = none → r.1 = true → x.1.2 = [] → ofLe (cut (o.bitmap % 64) 32 x.1.1) ≠ 0 →
     ∃ t rec, exec (.reduceOpen queue idx env) s = .next (State.paid (t.accept k) s queue.val) ∧ t = (((((x.2.modRed o.n (fun _
       => rec)).setPar (P.redState o.n) 1).setPar (P.redFront o.n) 0).setPar (P.redTiles o.n) rec.tileCount).setPar
       (P.redRejectCount o.n) 0).redMissing o.n ∧ rec.bitmap = ofLe (cut (o.bitmap % 64) 32 x.1.1) ∧ rec.count = o.count ∧
       rec.perHid = o.perHid ∧ rec.depth = o.depth ∧ rec.tiles = [] ∧ rec.rounded = [] ∧ rec.cmd = k ∧ rec.hid = hid) ∧
  (∀ (queue : Fin 32768) (idx : Fin 65536) (d : List Byte) (ph : Phys) (slots : List (Nat × HostData)) (c : Cmd) (s : State),
     let k := cmdKey queue.val idx.val
     let hid := s.qHid (cmdKey queue.val idx.val / 65536)
     let n := fld (c.d 1) 7 0
     let bytes := (Nat.min (s.red n).count (65536 * (fld (c.d 2) 23 0 + fld (c.d 2) 48 24)) - 65536 * fld (c.d 2) 23 0) *
       (s.red n).wIn
     s.runs queue.val idx.val 0x14 1 c = true → s.redOpen n = true → (s.red n).src = 0 → fld (c.d 2) 48 24 ≠ 0 →
     fld (c.d 2) 23 0 + fld (c.d 2) 48 24 ≤ (s.red n).tileCount → c.d 3 % 64 = 0 → (s.red n).bitmap.testBit hid = true →
     (Tab.keys (s.red n).tiles ++ Tab.keys (s.red n).rounded).any (fun z => decide (fld (c.d 2) 23 0 ≤ z ∧ z < fld (c.d 2) 23 0
       + fld (c.d 2) 48 24) && (s.red n).hidDone z hid) = false →
     fld (c.d 1) 8 8 = 1 →
     exec (.reduceContrib queue idx { ph := ph, host := .data d, slots := slots }) s = .next (State.paid (((s.hostRead (k /
       65536) k (c.d 3) bytes).accept k).contribRun n
       { since := s.now, tile := fld (c.d 2) 23 0, hid := hid, contrib := true, cmd := k, off := 0, mask := 0, added := 0, left := fld (c.d 2) 48 24, data := padTo bytes d, port := 512, dpa := 0 }
       (fld (c.d 2) 48 24)) s queue.val)) ∧
  (∀ (queue : Fin 32768) (idx : Fin 65536) (env : Env) (c : Cmd) (s : State),
     let k := cmdKey queue.val idx.val
     let hid := s.qHid (cmdKey queue.val idx.val / 65536)
     let n := fld (c.d 1) 7 0
     let bytes := (Nat.min (s.red n).count (65536 * (fld (c.d 2) 23 0 + fld (c.d 2) 48 24)) - 65536 * fld (c.d 2) 23 0) *
       (s.red n).wIn
     let r := s.cohReady (c.d 3) bytes false
     let x := r.2.rangeAtHub hid (c.d 3) bytes env
     s.runs queue.val idx.val 0x14 1 c = true → s.redOpen n = true → (s.red n).src = 0 → fld (c.d 2) 48 24 ≠ 0 →
     fld (c.d 2) 23 0 + fld (c.d 2) 48 24 ≤ (s.red n).tileCount → c.d 3 % 64 = 0 → (s.red n).bitmap.testBit hid = true →
     (Tab.keys (s.red n).tiles ++ Tab.keys (s.red n).rounded).any (fun z => decide (fld (c.d 2) 23 0 ≤ z ∧ z < fld (c.d 2) 23 0
       + fld (c.d 2) 48 24) && (s.red n).hidDone z hid) = false →
     fld (c.d 1) 8 8 = 0 → c.d 3 + bytes ≤ dpaEnd → s.rangeStatus hid (c.d 3) bytes false = 0 → r.1 = true → x.1.2 = [] →
     exec (.reduceContrib queue idx env) s = .next (State.paid ((x.2.accept k).contribRun n
       { since := r.2.now, tile := fld (c.d 2) 23 0, hid := hid, contrib := true, cmd := k, off := 0, mask := 0, added := 0, left := fld (c.d 2) 48 24, data := x.1.1, port := 512, dpa := 0 }
       (fld (c.d 2) 48 24)) s queue.val)) ∧
  (∀ (queue : Fin 32768) (idx : Fin 65536) (c : Cmd) (s : State),
     let k := cmdKey queue.val idx.val
     let n := fld (c.d 1) 7 0
     s.runs queue.val idx.val 0x14 2 c = true → s.redOpen n = true →
     (s.red n).hid = s.qHid (k / 65536) ∨ s.qPriv (k / 65536) = true →
     exec (.reduceCancel queue idx) s = .next ((s.redFault n 0x0C).finish k 0 0 0)) ∧
  (∀ (s : State),
     exec .reduceTileOpen s = .next s.redRetry) ∧
  (∀ (reduction : Fin 256) (env : Env) (z : Nat) (s : State),
     let x := s.redRound reduction z
     s.redOpen reduction = true → s.redNext reduction = some z → (s.red reduction).dest = 0 →
     exec (.reduceTileRound reduction env) s = .next (State.paid (((((x.2.modRed reduction (fun r =>
       { r with results := Tab.insert z x.1 (Tab.erase z r.results) })).takeTiles reduction env).redAdvance reduction).redClose
       reduction).redRetry) s ((s.red reduction).cmd / 65536))) ∧
  (∀ (reduction : Fin 256) (env : Env) (z : Nat) (s : State),
     let y := s.cohReady ((s.red reduction).dest - 1 + z * 65536 * (s.red reduction).wOut) ((s.red reduction).elems z * (s.red
       reduction).wOut) true
     let x := y.2.redRound reduction z
     s.redOpen reduction = true → s.redNext reduction = some z → (s.red reduction).dest ≠ 0 → y.1 = true →
     exec (.reduceTileRound reduction env) s = .next (State.paid ((((x.2.redWrite reduction z x.1 env).redAdvance
       reduction).redClose reduction).redRetry) s ((s.red reduction).cmd / 65536))) ∧
  (∀ (reduction : Fin 256) (s : State),
     s.redOpen reduction = true →
     (s.red reduction).waits.any (fun w => !w.contrib && decide (w.since + usT 2000 ≤ s.now)) = true →
     exec (.reduceFrontTimeout reduction) s = .next (s.redFault reduction 0x34)) ∧
  (∀ (reduction : Fin 256) (s : State),
     s.redOpen reduction = true → (s.red reduction).advanced + msT (s.par P.redTimeoutMs) ≤ s.now →
     exec (.reduceTimeout reduction) s = .next (s.redFault reduction 0x33))

/-- A FREEZE whose range list reads clean and aligned settles its blocks, holds the image of the committed milestone and
completes with its number; a RELEASE ends the freeze; a DRAIN with the service link up writes its next blocks, and after
the last one the trailer, and completes with the blocks written or the number read as poison. Where the spec leaves points
open the statement rests on the model's choices of log 65. -/
def Obligations.Checkpoints : Prop :=
  (∀ (queue : Fin 32768) (idx : Fin 65536) (env : Env) (c : Cmd) (s : State),
     let k := cmdKey queue.val idx.val
     let hid := s.qHid (cmdKey queue.val idx.val / 65536)
     let j := fld (c.d 1) 15 0
     let a := c.d 2 / 64 * 64
     let x := s.rangeAtHub hid a (cdiv (c.d 2 - a + 16 * c.d 3) 64 * 64) env
     let rs := rangesOf (c.d 3) (x.1.1.drop (c.d 2 - a))
     let fz :=
       { (default : Freeze) with on := true, ranges := rs, keySlot := fld (c.d 1) 31 16, image := x.2.par (P.jobCommitted j) }
     s.runs queue.val idx.val 0x20 0 c = true → 1 ≤ c.d 3 → c.d 3 ≤ 64 → fld (c.d 1) 31 16 < 256 ∨ fld (c.d 1) 31 16 = 0xFFFF →
     c.d 2 % 64 = 0 → c.d 2 + 16 * c.d 3 ≤ dpaEnd → (s.job j).freeze.on = false → s.jobMode j ≠ 4 → x.1.2 = [] →
     rs.all (fun r => r.1 % 4096 == 0 && r.2 % 4096 == 0 && decide (r.1 + r.2 ≤ dpaEnd)) = true →
     exec (.ckptFreeze queue idx env) s = .next (State.paid ((((forAll (fun i s => s.settleBlock (blockIn rs i) env)
       (List.range fz.blocks) x.2).modFreeze j (fun _ => fz)).jobField j 19 19 1).finish k 0 (x.2.par (P.jobCommitted j)) 0) s
       queue.val)) ∧
  (∀ (queue : Fin 32768) (idx : Fin 65536) (c : Cmd) (s : State),
     let k := cmdKey queue.val idx.val
     let j := fld (c.d 1) 15 0
     s.runs queue.val idx.val 0x20 1 c = true → (s.job j).freeze.on = true →
     exec (.ckptFreezeRelease queue idx) s = .next (((if (s.job j).freeze.drain.cmd = 0 then s else s.fail ((s.job
       j).freeze.drain.cmd - 1) 0x02).thaw j).fail k 0)) ∧
  (∀ (queue : Fin 32768) (idx : Fin 65536) (count : Nat) (env : Env) (c : Cmd) (s : State),
     let k := cmdKey queue.val idx.val
     let hid := s.qHid (cmdKey queue.val idx.val / 65536)
     let j := fld (c.d 1) 15 0
     let fz := (s.job j).freeze
     let u := (s.modFreeze j (fun f => { f with drain := { f.drain with cmd := k + 1 } })).drainRun j hid (c.d 2) env count
     s.runs queue.val idx.val 0x21 0 c = true → fz.drain.cmd = 0 ∨ fz.drain.cmd = k + 1 → fz.on = true → c.d 2 % 2 ^ 21 = 0 →
     4096 * fz.blocks + 4096 ≤ c.d 3 → s.svc.bme = true → s.svc.dl = true → s.svc.dstate = 0 → fz.broken = false →
     (u.job j).freeze.drain.pos < (u.job j).freeze.blocks →
     exec (.ckptDrain queue idx count env) s = .next (State.paid u s queue.val)) ∧
  (∀ (queue : Fin 32768) (idx : Fin 65536) (count : Nat) (ph : Phys) (d : List Byte) (slots : List (Nat × HostData)) (c : Cmd)
     (s : State),
     let k := cmdKey queue.val idx.val
     let hid := s.qHid (cmdKey queue.val idx.val / 65536)
     let j := fld (c.d 1) 15 0
     let fz := (s.job j).freeze
     let u := (s.modFreeze j (fun f => { f with drain := { f.drain with cmd := k + 1 } })).drainRun j hid (c.d 2) ⟨ph, .data d,
       slots⟩ count
     let g := (u.job j).freeze
     let y := (u.drainFlush (c.d 2 + 4096 * g.blocks - 64) k).drainPut (c.d 2 + 4096 * g.blocks) ((u.drainFlush (c.d 2 + 4096 *
       g.blocks - 64) k).qClass (k / 65536)) (trailer j g) true
     s.runs queue.val idx.val 0x21 0 c = true → fz.drain.cmd = 0 ∨ fz.drain.cmd = k + 1 → fz.on = true → c.d 2 % 2 ^ 21 = 0 →
     4096 * fz.blocks + 4096 ≤ c.d 3 → s.svc.bme = true → s.svc.dl = true → s.svc.dstate = 0 → fz.broken = false →
     g.blocks ≤ g.drain.pos → g.blocks ≠ 0 →
     exec (.ckptDrain queue idx count ⟨ph, .data d, slots⟩) s = .next (State.paid (if g.drain.poison = 0 then (y.thaw j).finish
       k 0 g.drain.pos 0 else (y.thaw j).finish k 0x40 g.drain.poison 0) s queue.val))

/-- A STAGE ARM of a waypoint that is not armed, with a tier, lead and count in range, writes its words, arms it and completes
with its state, or WAYPOINT_REFUSED with the reason; a DISARM releases its copies; a write of word 3 arms or disarms; a
tile of a STAGING waypoint is staged, and the reads that waited for it go on. Where the spec leaves points open the
statement rests on the model's choices of log 90, 91, 92 and 93. -/
def Obligations.Waypoints : Prop :=
  (∀ (queue : Fin 32768) (idx : Fin 65536) (c : Cmd) (s : State),
     let k := cmdKey queue.val idx.val
     let u := ((((s.setPar (P.wpWord (c.d 1) 1) (c.d 2)).setPar (P.wpWord (c.d 1) 2) (c.d 3)).setPar (P.wpWord (c.d 1) 4) (c.d
       5)).setPar (P.wpWord (c.d 1) 3) (c.d 4)).wpArmNow (c.d 1)
     s.runs queue.val idx.val 0x09 0 c = true → s.resetRuns = false → s.wpArmed (c.d 1) = false → fld (c.d 4) 39 38 < 2 →
     fld (c.d 4) 26 19 ≠ 0 → fld (c.d 5) 60 32 ≠ 0 → fld (c.d 5) 60 32 ≤ 2 ^ 28 →
     exec (.stageArm queue idx) s = .next (if u.wpState (c.d 1) = 6 then u.finish k 0x22 (fld (u.par (P.wpWord (c.d 1) 3)) 43
       40) 0 else u.finish k 0 (u.wpState (c.d 1)) 0)) ∧
  (∀ (queue : Fin 32768) (idx : Fin 65536) (c : Cmd) (s : State),
     let k := cmdKey queue.val idx.val
     s.runs queue.val idx.val 0x09 1 c = true →
     exec (.stageDisarm queue idx) s = .next ((s.wpDisarm (c.d 1)).finish k 0 0 0)) ∧
  (∀ (waypoint : Fin 512) (value : Nat) (s : State),
     let v := setFld (setFld value 46 44 (fld (s.par (P.wpWord waypoint 3)) 46 44)) 43 40 (fld (s.par (P.wpWord waypoint 3)) 43
       40)
     s.takes (P.wpWord waypoint 3) value = true → fld v 47 47 = 1 → s.wpArmed waypoint = false →
     exec (.waypointArmWrite waypoint value) s = .next ((s.setPar (P.wpWord waypoint 3) v).wpArm waypoint 0)) ∧
  (∀ (waypoint : Fin 512) (value : Nat) (s : State),
     s.takes (P.wpWord waypoint 3) value = true → fld value 47 47 = 0 → s.wpArmed waypoint = true →
     exec (.waypointArmWrite waypoint value) s = .next (s.wpDisarm waypoint)) ∧
  (∀ (waypoint : Fin 512) (env : Env) (i w : Nat) (s : State),
     let s1 := s.stageTile waypoint i env
     s.wpState waypoint = 2 ∨ s.wpState waypoint = 4 → s.nextTile waypoint = some i →
     s.winOfDesc (s.wpDesc waypoint) = some w → s1.1 = true →
     exec (.waypointTileStaged waypoint env) s = .next (forAll (fun p s => s.stagedRead waypoint w env p.2)
       (s1.2.fac.wpWait.filter (s.waitsTile waypoint w i)) (s1.2.modFac (fun f =>
       { f with wpWait := f.wpWait.filter (fun p => !s.waitsTile waypoint w i p) }))))

/-- An OPEN_VERSION whose checks pass renews the lease where one runs, binds the HID to the named or the latest live version, for
reading or for writing, or to none, and completes with the version; a PUBLISH whose checks pass numbers the open version,
makes it the latest and binds the HID to it, CAS only while its base is still the latest; CLOSE_VERSION drops the open
version. Where the spec leaves points open the statement rests on the model's choices of log 68. -/
def Obligations.Versions : Prop :=
  (∀ (queue : Fin 32768) (idx : Fin 65536) (c : Cmd) (s : State),
     let k := cmdKey queue.val idx.val
     let h := s.qHid (cmdKey queue.val idx.val / 65536)
     let n := fld (c.d 1) 7 0
     let v := fld (c.d 2) 31 0
     s.runs queue.val idx.val 0x18 0 c = true → s.openCheck n h = 0 → s.liveVer n v = true →
     exec (.openVersionRead queue idx) s = .next (((s.leaseTouch n h).withRefs n (fun s => s.bindRead n h v)).finish k 0 v 0)) ∧
  (∀ (queue : Fin 32768) (idx : Fin 65536) (c : Cmd) (s : State),
     let k := cmdKey queue.val idx.val
     let h := s.qHid (cmdKey queue.val idx.val / 65536)
     let n := fld (c.d 1) 7 0
     let v := s.par (P.srLatest n)
     s.runs queue.val idx.val 0x18 1 c = true → s.openCheck n h = 0 → s.liveVer n v = true →
     exec (.openVersionReadLatest queue idx) s = .next (((s.leaseTouch n h).withRefs n (fun s => s.bindRead n h v)).finish k 0
       v 0)) ∧
  (∀ (queue : Fin 32768) (idx : Fin 65536) (c : Cmd) (s : State),
     let k := cmdKey queue.val idx.val
     let h := s.qHid (cmdKey queue.val idx.val / 65536)
     let n := fld (c.d 1) 7 0
     let v := fld (c.d 2) 31 0
     s.runs queue.val idx.val 0x18 2 c = true → s.openCheck n h = 0 → s.liveVer n v = true → s.par (P.srLive n) < 16 →
     exec (.openVersionWrite queue idx) s = .next (((s.leaseTouch n h).withRefs n (fun s => s.bindWrite n h v)).finish k 0 v 0)) ∧
  (∀ (queue : Fin 32768) (idx : Fin 65536) (c : Cmd) (s : State),
     let k := cmdKey queue.val idx.val
     let h := s.qHid (cmdKey queue.val idx.val / 65536)
     let n := fld (c.d 1) 7 0
     let v := s.par (P.srLatest n)
     s.runs queue.val idx.val 0x18 3 c = true → s.openCheck n h = 0 → s.liveVer n v = true → s.par (P.srLive n) < 16 →
     exec (.openVersionWriteLatest queue idx) s = .next (((s.leaseTouch n h).withRefs n (fun s => s.bindWrite n h v)).finish k
       0 v 0)) ∧
  (∀ (queue : Fin 32768) (idx : Fin 65536) (c : Cmd) (s : State),
     let k := cmdKey queue.val idx.val
     let h := s.qHid (cmdKey queue.val idx.val / 65536)
     let n := fld (c.d 1) 7 0
     s.runs queue.val idx.val 0x18 4 c = true → s.openCheck n h = 0 →
     exec (.openVersionUnbind queue idx) s = .next (((s.leaseTouch n h).withRefs n (fun s => s.bindRead n h 0)).finish k 0 0 0)) ∧
  (∀ (queue : Fin 32768) (idx : Fin 65536) (c : Cmd) (o : OpenVer) (s : State),
     let k := cmdKey queue.val idx.val
     let h := s.qHid (cmdKey queue.val idx.val / 65536)
     let n := fld (c.d 1) 7 0
     let u := (s.leaseTouch n h).settleOpen n h
     let v := (u.publish n h).1
     let t := (u.withRefs n (fun s => (s.publish n h).2.bindRead n h v)).bindAfter n h v (fld (c.d 1) 8 8 == 1)
     s.runs queue.val idx.val 0x19 0 c = true → s.publishCheck n h = 0 → u.isBroken (.opened n h) = false →
     openOf (u.sr n) h = some o →
     exec (.publishPlain queue idx) s = .next (t.2.finish k 0 v (if t.1 then 4 else 0))) ∧
  (∀ (queue : Fin 32768) (idx : Fin 65536) (c : Cmd) (o : OpenVer) (s : State),
     let k := cmdKey queue.val idx.val
     let h := s.qHid (cmdKey queue.val idx.val / 65536)
     let n := fld (c.d 1) 7 0
     let u := (s.leaseTouch n h).settleOpen n h
     let v := (u.publish n h).1
     let t := (u.withRefs n (fun s => (s.publish n h).2.bindRead n h v)).bindAfter n h v (fld (c.d 1) 8 8 == 1)
     s.runs queue.val idx.val 0x19 1 c = true → s.publishCheck n h = 0 → u.isBroken (.opened n h) = false →
     openOf (u.sr n) h = some o → o.base = u.par (P.srLatest n) →
     exec (.publishCas queue idx) s = .next (t.2.finish k 0 v (if t.1 then 4 else 0))) ∧
  (∀ (queue : Fin 32768) (idx : Fin 65536) (c : Cmd) (s : State),
     let k := cmdKey queue.val idx.val
     let h := s.qHid (cmdKey queue.val idx.val / 65536)
     let n := fld (c.d 1) 7 0
     s.runs queue.val idx.val 0x1A 0 c = true → fld (c.d 1) 15 8 = h ∨ s.qPriv (k / 65536) = true → s.srOn n = true →
     s.srVersioned n = true → s.srGrant n h rP = true → s.isDead n h = false →
     (openOf (s.sr n) (fld (c.d 1) 15 8)).isSome = true →
     exec (.closeVersion queue idx) s = .next (((s.leaseTouch n h).withRefs n (fun s => s.dropOpen n (fld (c.d 1) 15
       8))).finish k 0 0 0))

/-- LEASE_RENEW gives the HID a full lease in one shared region, or with 0xFFFF in each with leases on where it is not dead, and
completes with the shortest time; RELEASE waits for snoops of held lines and then gives up binding and lease; REJOIN and
share_revive end the dead state; the check every 1 ms declares the HIDs dead whose lease ended; a HID whose links stay down
longer than the grace time is declared dead where it holds something. Where the spec leaves points open the statement rests
on the model's choices of log 20 and 68. -/
def Obligations.LeasesAndDeaths : Prop :=
  (∀ (queue : Fin 32768) (idx : Fin 65536) (c : Cmd) (s : State),
     let k := cmdKey queue.val idx.val
     let h := s.qHid (cmdKey queue.val idx.val / 65536)
     let r := fld (c.d 1) 15 0
     s.runs queue.val idx.val 0x1B 0 c = true → r ≠ 0xFFFF → s.leaseCheck r h = 0 → s.isDead r h = false →
     s.par (P.srLeaseEnable r) ≠ 0 →
     exec (.leaseRenew queue idx) s = .next ((s.leaseFull r h).finish k 0 (s.par (P.srLeaseMs r)) 0)) ∧
  (∀ (queue : Fin 32768) (idx : Fin 65536) (c : Cmd) (ms : Nat) (s : State),
     let k := cmdKey queue.val idx.val
     let h := s.qHid (cmdKey queue.val idx.val / 65536)
     let r := fld (c.d 1) 15 0
     let rs := s.srsOn.filter (fun n => s.par (P.srLeaseEnable n) == 1 && !s.isDead n h && s.srSome n h)
     s.runs queue.val idx.val 0x1B 0 c = true → r = 0xFFFF → (rs.map (fun n => s.par (P.srLeaseMs n))).min? = some ms →
     exec (.leaseRenew queue idx) s = .next ((forAll (fun n s => s.leaseFull n h) rs s).finish k 0 ms 0)) ∧
  (∀ (queue : Fin 32768) (idx : Fin 65536) (c : Cmd) (s : State),
     let k := cmdKey queue.val idx.val
     let h := s.qHid (cmdKey queue.val idx.val / 65536)
     let r := fld (c.d 1) 15 0
     s.runs queue.val idx.val 0x1B 1 c = true → s.leaseCheck r h = 0 → s.isDead r h = false → openOf (s.sr r) h = none →
     (s.dirIn r).any (fun e => e.holders.contains h) = false →
     exec (.leaseRelease queue idx) s = .next (((s.withRefs r (fun s => s.bindRead r h 0)).modSr r (fun x =>
       { x with leases := Tab.set h 0 x.leases })).finish k 0 0 0)) ∧
  (∀ (queue : Fin 32768) (idx : Fin 65536) (c : Cmd) (s : State),
     let k := cmdKey queue.val idx.val
     let h := s.qHid (cmdKey queue.val idx.val / 65536)
     let r := fld (c.d 1) 15 0
     s.runs queue.val idx.val 0x1B 2 c = true → s.leaseCheck r h = 0 →
     exec (.rejoin queue idx) s = .next ((s.rejoin r h).finish k 0 0 0)) ∧
  (∀ (ph : Phys) (s : State),
     let u := { s with shared := { s.shared with checked := s.now } }
     s.serving = true → s.shared.checked + msT 1 ≤ s.now →
     exec (.leaseExpiryCheck ph) s = .next ((forAll (fun n s => forAll (fun h s => s.declareDead n h) (((s.sr n).leases.filter
       (fun p => decide (0 < p.2 ∧ p.2 ≤ s.now + 1))).map Prod.fst) s) u.srsOn u).retryCoh ph)) ∧
  (∀ (value : Nat) (ph : Phys) (s : State),
     s.takes P.shareDeclareDead value = true →
     exec (.shareDeclareDead value ph) s = .next ((s.declareDead (value / 256) (value % 256)).retryCoh ph)) ∧
  (∀ (value : Nat) (s : State),
     s.takes P.shareRevive value = true →
     exec (.shareRevive value) s = .next (s.rejoin (value / 256) (value % 256))) ∧
  (∀ (hid : Fin 256) (ph : Phys) (s : State),
     s.par P.shareLinkGraceMs ≠ 0 → s.hidDown hid ≠ 0 → s.hidDown hid + msT (s.par P.shareLinkGraceMs) < s.now + 1 →
     exec (.linkGraceExpiry hid ph) s = .next ((forAll (fun n s => if s.holdsIn n hid then s.declareDead n hid else s) s.srsOn
       s).retryCoh ph))

/-- An answer to an outstanding snoop ends it, keeping the line in S only where the snoop allows it; a snoop that times out is
sent again, the second time its holder is declared dead and it ends; a conflict on a live link is acknowledged and changes
nothing else. Where the spec leaves points open the statement rests on the model's choices of log 20 and 75. -/
def Obligations.Snoops : Prop :=
  (∀ (port : Fin 512) (line : Nat) (keep : Bool) (ph : Phys) (x : Snoop) (s : State),
     s.shared.snoops.find? (fun x => x.line == line && x.hid == s.hidOf port) = some x →
     exec (.bisnpResponse port line keep ph) s = .next ((s.snoopAnswer line (s.hidOf port) (keep && !x.inv)).retryCoh ph)) ∧
  (∀ (line : Nat) (hid : Fin 256) (ph : Phys) (x : Snoop) (p : Nat) (s : State),
     s.shared.snoops.find? (fun x => x.line == line && x.hid == hid.val) = some x →
     x.since + usT (s.par P.shareBiTimeoutUs) ≤ s.now → x.again = false → s.portOfHid hid = some p →
     ∃ u : State, exec (.bisnpTimeout line hid ph) s = .next (u.send (p / 16) 2 (.biSnp p line x.inv)) ∧ u.ports = s.ports ∧
       u.out = s.out ∧ u.shared.dir = s.shared.dir ∧ ∀ y ∈ u.shared.snoops, y.line = line ∧ y.hid = hid.val → y.again = true ∧
       y.since = s.now) ∧
  (∀ (line : Nat) (hid : Fin 256) (ph : Phys) (x : Snoop) (n : Nat) (s : State),
     let u := s.declareDead n hid
     s.shared.snoops.find? (fun x => x.line == line && x.hid == hid.val) = some x →
     x.since + usT (s.par P.shareBiTimeoutUs) ≤ s.now → x.again = true → s.cohAt (line * 64) = some n →
     exec (.bisnpTimeout line hid ph) s = .next (State.retryCoh
       { u with shared := { u.shared with snoops := u.shared.snoops.filter (fun y => !(y.line == line && y.hid == hid.val)) } }
       ph)) ∧
  (∀ (port : Fin 512) (line : Nat) (s : State),
     s.linkUp (port / 16) = true →
     exec (.biconflict port line) s = .next (s.send (port / 16) 0 (.biAck port line)))

/-- A RETIRE that names frames of the part, while the list has room, empties and retires them, appends to the retirement list and
the media log when one became RETIRED, and completes with their number; RELEASE of an empty quarantined frame makes it
FREE. Where the spec leaves points open the statement rests on the model's choices of log 62. -/
def Obligations.Retirement : Prop :=
  (∀ (queue : Fin 32768) (idx : Fin 65536) (ph : Phys) (c : Cmd) (s : State),
     let k := cmdKey queue.val idx.val
     let g := (retireRange 0 (c.d 1)).toOption.getD ([], 0, 0, 0)
     let x := s.retire g.1 ph
     let ls := (0 * 2 ^ 64 + c.d 1) :: x.2.media.retire
     s.runs queue.val idx.val 0x28 0 c = true → (retireRange 0 (c.d 1)).toOption.isSome = true → s.media.retire.length < 1024 →
     exec (.retireFrame queue idx ph) s = .next (State.finish (if x.1.2 = 0 then x.2 else
       ((({ x.2 with media := { x.2.media with retire := ls } } : State).saveRec (fun r => { r with retire := ls })).setPar
       P.retireListUsed ls.length).logMedia 11 (c.d 1 / 2 ^ 60) g.2.1 0xFF g.2.2.1 0xFF g.2.2.2) k (if x.1.1 then 0 else
       stCapacity) x.1.2 0)) ∧
  (∀ (queue : Fin 32768) (idx : Fin 65536) (ph : Phys) (c : Cmd) (s : State),
     let k := cmdKey queue.val idx.val
     let g := (retireRange 1 (c.d 1)).toOption.getD ([], 0, 0, 0)
     let x := s.retire g.1 ph
     let ls := (1 * 2 ^ 64 + c.d 1) :: x.2.media.retire
     s.runs queue.val idx.val 0x28 1 c = true → (retireRange 1 (c.d 1)).toOption.isSome = true → s.media.retire.length < 1024 →
     exec (.retireRow queue idx ph) s = .next (State.finish (if x.1.2 = 0 then x.2 else
       ((({ x.2 with media := { x.2.media with retire := ls } } : State).saveRec (fun r => { r with retire := ls })).setPar
       P.retireListUsed ls.length).logMedia 11 (c.d 1 / 2 ^ 60) g.2.1 0xFF g.2.2.1 0xFF g.2.2.2) k (if x.1.1 then 0 else
       stCapacity) x.1.2 0)) ∧
  (∀ (queue : Fin 32768) (idx : Fin 65536) (ph : Phys) (c : Cmd) (s : State),
     let k := cmdKey queue.val idx.val
     let g := (retireRange 2 (c.d 1)).toOption.getD ([], 0, 0, 0)
     let x := s.retire g.1 ph
     let ls := (2 * 2 ^ 64 + c.d 1) :: x.2.media.retire
     s.runs queue.val idx.val 0x28 2 c = true → (retireRange 2 (c.d 1)).toOption.isSome = true → s.media.retire.length < 1024 →
     exec (.retireBank queue idx ph) s = .next (State.finish (if x.1.2 = 0 then x.2 else
       ((({ x.2 with media := { x.2.media with retire := ls } } : State).saveRec (fun r => { r with retire := ls })).setPar
       P.retireListUsed ls.length).logMedia 11 (c.d 1 / 2 ^ 60) g.2.1 0xFF g.2.2.1 0xFF g.2.2.2) k (if x.1.1 then 0 else
       stCapacity) x.1.2 0)) ∧
  (∀ (queue : Fin 32768) (idx : Fin 65536) (c : Cmd) (g : List Nat × Nat × Nat × Nat) (s : State),
     let k := cmdKey queue.val idx.val
     s.runs queue.val idx.val 0x28 3 c = true → (retireRange 3 (c.d 1)).toOption = some g →
     (s.frame (g.1.headD 0)).st = fQuar → (s.frame (g.1.headD 0)).mask = 0 →
     exec (.retireRelease queue idx) s = .next ((s.setFrame (g.1.headD 0) default).finish k 0 1 0))

/-- A check that flags a result of work under way counts and keeps the result for its repeats; repeats that class a result
TRANSIENT count it on its block; repeats that agree on no class end the work: an OPT_STEP job is DAMAGED, a FACTOR ends, a
reconstruction returns poison, a reduction faults. Where the spec leaves points open the statement rests on the model's
choices of log 36 and 77. -/
def Obligations.FlaggedChecks : Prop :=
  (∀ (region : Fin 4) (block : Fin 9) (check : Fin 8) (work : Work) (result predicted found : Nat) (s : State),
     let cb := region.val * 16 + block.val
     flags check predicted found = true → s.blkSt cb ≤ 2 → s.workOn work = true → check ≠ 6 → s.par P.integChecks ≠ 0 →
     s.integ.dice = [] →
     ∃ t, exec (.checkFlag region block check work result predicted found) s = .next t ∧ t.integ.flags.length =
       s.integ.flags.length + 1 ∧ t.par P.integFlags = (s.par P.integFlags + 1) % 2 ^ widthOf P.integFlags ∧ t.mem = s.mem ∧
       t.jobs = s.jobs) ∧
  (∀ (region : Fin 4) (block : Fin 9) (check : Fin 8) (work : Work) (result predicted found : Nat) (s : State),
     flags check predicted found = false →
     exec (.checkFlag region block check work result predicted found) s = .next s) ∧
  (∀ (flag : Nat) (a2 b c : Run) (f : FlagRec) (s : State),
     s.integ.flags[flag]? = some f → f.ran = true → repeatClass f.a1 a2 b c = clTransient →
     exec (.repeatDecide flag a2 b c) s = .next ((s.modInteg (fun i => { i with flags := i.flags.eraseIdx flag })).transient
       f.blk)) ∧
  (∀ (flag : Nat) (a2 b c : Run) (f : FlagRec) (s : State),
     s.integ.flags[flag]? = some f → f.ran = true → repeatClass f.a1 a2 b c = clUnresolved →
     ∃ u : RecArgs, exec (.repeatDecide flag a2 b c) s = .next ((((s.modInteg (fun i =>
       { i with flags := i.flags.eraseIdx flag })).classEffect clUnresolved f.blk).record u).workFails f.work))

/-- A TEST_ROUND of a block that can run a round makes it due with the seed given; a block whose period is over is due with a
seed of the device; deferred rounds start by preemption; signatures that agree are a pass for block and partner and
complete a waiting TEST_ROUND with the signature. Where the spec leaves points open the statement rests on the model's
choices of log 6, 37 and 78. -/
def Obligations.DiceRounds : Prop :=
  (∀ (queue : Fin 32768) (idx : Fin 65536) (c : Cmd) (s : State),
     let k := cmdKey queue.val idx.val
     let cb := fld (c.d 1) 7 0
     let pb := fld (c.d 1) 15 8
     let u := (s.accept k).modBlk cb (fun b =>
       { b with due := true, dueAt := (s.accept k).now, seed := c.d 2, cmd := k + 1, partner := if pb = 0xFF then 0 else pb + 1 })
     s.runs queue.val idx.val 0x29 0 c = true → cb < 64 → cb % 16 < 9 →
     pb = 0xFF ∨ (pb < 64 ∧ pb % 16 < 9 ∧ pb / 16 ≠ cb / 16 ∧ s.roundOk pb = true) → s.roundOk cb = true → (s.blk cb).cmd = 0 →
     s.integ.dice.any (fun x => x.2.blk == cb && x.2.cmd != 0) = false →
     exec (.testRound queue idx) s = .next (u.diceTry (cb / 16) u.blkIdle)) ∧
  (∀ (region : Fin 4) (block : Fin 9) (s : State),
     let cb := region.val * 16 + block.val
     s.diceRegion region = true → s.blkSt cb ≤ 2 → (s.blk cb).due = false → s.diceFalls cb = true →
     s.integ.dice.any (fun p => p.2.blk == cb) = false →
     exec (.diceRoundDue region block) s = .next ((s.freeNext.modBlk cb (fun b =>
       { b with due := true, dueAt := s.now, seed := s.freeValue % 2 ^ 64, cmd := 0, partner := 0 })).diceTry region s.blkIdle)) ∧
  (∀ (region : Fin 4) (s : State),
     exec (.diceDeferExpiry region) s = .next (s.diceTry region (fun cb => decide ((s.blk cb).dueAt + msT (s.par
       P.integDeferMs) ≤ s.now)))) ∧
  (∀ (region : Fin 4) (own third again : Nat) (lanes : List Nat) (r : DiceRun) (s : State),
     let u := (s.modInteg (fun i => { i with dice := Tab.erase region.val i.dice })).count P.integDiceRounds 1
     Tab.find? region.val s.integ.dice = some r → r.cmd = 0 →
     exec (.diceRoundComplete region own own third again lanes) s = .next (forAll (fun q s => s.diceTry q s.blkIdle) [0, 1, 2,
       3] (((((u.roundPass r.blk).roundPass r.partner).modBlk r.partner (fun b =>
       { b with last := r.start, commits := (u.blk r.blk).commits })).spareDecide region (r.blk % 16 == 8)))))

/-- A watchdog that expires on a busy compute block starts its reset with a hang record; an engine fault of a port block or hub
below its fourth in ten minutes starts its reset; a completed reset of a block, stack or hub sends its record and the unit
works again; a reset not complete after 1 ms makes its region fall due; a suspect that hangs again is guilty and ends its
work, one that does not leaves the list, and the last one to leave it ends the search; waypoint arms that waited for the
reset go on. Where the spec leaves points open the statement rests on the model's choices of log 31 and 38. -/
def Obligations.EngineResets : Prop :=
  (∀ (index : Fin 64) (waiting : Nat) (s : State),
     s.engBusy 0 index = true → s.recovRuns = true → s.engLive 0 index = true → Tab.find? (unitBlk index) s.recov.eng = none →
     Tab.find? (unitRegion (unitBlk index)) s.recov.region = none →
     exec (.blockWatchdogExpiry 0 index waiting) s = .next (s.engStart (unitBlk index) 1 waiting)) ∧
  (∀ (index : Fin 64) (waiting : Nat) (s : State),
     s.recovRuns = true → s.engLive 3 index = true → Tab.find? (unitOf 1 index) s.recov.eng = none →
     Tab.find? (unitRegion (unitOf 1 index)) s.recov.region = none → s.engCount (unitOf 1 index) < 4 →
     exec (.engineFault 3 index waiting) s = .next (s.engStart (unitOf 1 index) 2 waiting)) ∧
  (∀ (index : Fin 64) (waiting : Nat) (s : State),
     s.recovRuns = true → s.engLive 2 index = true → Tab.find? (unitOf 5 (2 * index)) s.recov.eng = none →
     Tab.find? (unitRegion (unitOf 5 (2 * index))) s.recov.region = none →
     exec (.engineFault 2 index waiting) s = .next ((s.engStart (unitOf 5 (2 * index)) 2 waiting).resetPort index (decide (4 ≤
       s.engCount (unitOf 5 (2 * index)))))) ∧
  (∀ (index : Fin 64) (ph : Phys) (e : EngReset) (s : State),
     Tab.find? (unitBlk index) s.recov.eng = some e → e.searching = false →
     exec (.engineResetComplete 0 index ph) s = .next ((s.resetRecord (unitBlk index) 1 11 e.start).blkReset index e).armsGo) ∧
  (∀ (index : Fin 64) (ph : Phys) (e : EngReset) (s : State),
     Tab.find? (unitOf 1 index) s.recov.eng = some e → e.searching = false →
     exec (.engineResetComplete 3 index ph) s = .next ((((s.resetRecord (unitOf 1 index) 1 11 e.start).hangOutcome e
       hgResumed).modRecov (fun r => { r with eng := Tab.erase (unitOf 1 index) r.eng })).hubReset index ph).armsGo) ∧
  (∀ (kind : Fin 4) (index : Fin 64) (e : EngReset) (s : State),
     Tab.find? (engUnit kind index) s.recov.eng = some e → e.searching = false → e.start + msT 1 ≤ s.now →
     exec (.engineResetOverrun kind index) s = .next ((s.hangOutcome e hgEscalated).regionFalls (unitRegion (engUnit kind
       index)) e.sig)) ∧
  (∀ (index : Fin 64) (ph : Phys) (e : EngReset) (s : State),
     Tab.find? (engUnit 1 index) s.recov.eng = some e → e.searching = false →
     exec (.engineResetComplete 1 index ph) s = .next ((((s.resetRecord (engUnit 1 index) 1 11 e.start).hangOutcome e
       hgResumed).modRecov (fun r => { r with eng := Tab.erase (engUnit 1 index) r.eng })).stackReset index ph).armsGo) ∧
  (∀ (region : Fin 4) (block : Fin 9) (env : Env) (e : EngReset) (i : Nat) (rest : List Nat) (s : State),
     let cb := region.val * 16 + block.val
     let u := (((s.hangOutcome e hgGuilty).hangByte e.hang 0x0E i).count P.hangReplayResets 1).dropPad e.replay
     Tab.find? (unitBlk cb) s.recov.eng = some e → e.searching = true → e.suspects = i :: rest →
     exec (.suspectTileResult region block true env) s = .next ((if i = 14 then u.guiltyTile cb else u.guiltyCmd (u.ctxAt
       (ctxKey cb i))).blkBack cb).armsGo) ∧
  (∀ (region : Fin 4) (block : Fin 9) (env : Env) (e : EngReset) (i j : Nat) (rest : List Nat) (s : State),
     let cb := region.val * 16 + block.val
     Tab.find? (unitBlk cb) s.recov.eng = some e → e.searching = true → e.suspects = i :: j :: rest →
     exec (.suspectTileResult region block false env) s = .next ((if i = 14 then s.reconHead cb env else (s.countReplay
       (s.ctxAt (ctxKey cb i))).tileRetire (ctxKey cb i)).modRecov (fun r =>
       { r with eng := Tab.insert (unitBlk cb) { e with suspects := j :: rest } (Tab.erase (unitBlk cb) r.eng) })).armsGo) ∧
  (∀ (region : Fin 4) (block : Fin 9) (env : Env) (e : EngReset) (i : Nat) (s : State),
     let cb := region.val * 16 + block.val
     Tab.find? (unitBlk cb) s.recov.eng = some e → e.searching = true → e.suspects = [i] →
     exec (.suspectTileResult region block false env) s = .next ((if i = 14 then s.reconHead cb env else (s.countReplay
       (s.ctxAt (ctxKey cb i))).tileRetire (ctxKey cb i)).searchEnds cb e).armsGo)

/-- A region reset that is due starts, ends with its journal replayed, and one not over after 5 ms raises SAFE; each phase of a
warm device reset does its work and is followed by the next; one not over after 400 ms ends OUT_OF_SERVICE; SAFE is entered
when a cause stands and left automatically after its hold; dev_request asks for SERVICE, STANDBY, recovery or SAFE; a core
watchdog or a lockstep mismatch raises SAFE with cause CORE. Where the spec leaves points open the statement rests on the
model's choices of log 30, 31, 32 and 34. -/
def Obligations.DeviceStates : Prop :=
  (∀ (region : Fin 4) (fatal : Bool) (s : State),
     s.recovRuns = true → Tab.get region.val s.recov.regionDue = true ∨ fatal = true →
     Tab.find? region.val s.recov.region = none →
     exec (.regionReset region fatal) s = .next (s.regionReset region)) ∧
  (∀ (region : Fin 4) (lost : List Nat) (env : Env) (t : Nat) (s : State),
     let u := s.modRecov (fun r =>
       { r with region := Tab.erase region.val r.region, downJobs := Tab.set region.val [] r.downJobs })
     Tab.find? region.val s.recov.region = some t → s.regionStacksUp region = true →
     s.power.queue.any (fun w => w.kind == 1 && w.unit == region.val) = false →
     exec (.regionResetComplete region lost env) s = .next ((((((u.journalIn region lost env).resetRecord (unitOf 1 region) 2
       (if Tab.get region.val s.recov.regSig = 0 then 0 else 11) t).recoveryNotices 2 2 region (Tab.get region.val
       s.recov.regSig) true (Tab.get region.val s.recov.downJobs) 1025).dispatchAll).retryHub env.ph).retryPipes).armsGo) ∧
  (∀ (region : Fin 4) (t : Nat) (s : State),
     Tab.find? region.val s.recov.region = some t → t + msT 5 ≤ s.now →
     exec (.regionResetOverrun region) s = .next (s.raiseSafe 8)) ∧
  (∀ (env : Env) (tables : Bool) (lost : List Nat) (s : State),
     s.par P.devResetPhase = 1 →
     exec (.warmResetPhaseEnd env tables lost) s = .next (s.setPar P.devResetPhase 2)) ∧
  (∀ (env : Env) (tables : Bool) (lost : List Nat) (s : State),
     s.par P.devResetPhase = 2 →
     exec (.warmResetPhaseEnd env tables lost) s = .next (s.setPar P.devResetPhase 3)) ∧
  (∀ (env : Env) (tables : Bool) (lost : List Nat) (s : State),
     s.par P.devResetPhase = 3 →
     exec (.warmResetPhaseEnd env tables lost) s = .next (s.warmDown.setPar P.devResetPhase 4)) ∧
  (∀ (env : Env) (tables : Bool) (lost : List Nat) (s : State),
     s.par P.devResetPhase = 4 →
     exec (.warmResetPhaseEnd env tables lost) s = .next (s.warmLogic.setPar P.devResetPhase 5)) ∧
  (∀ (env : Env) (tables : Bool) (lost : List Nat) (s : State),
     s.par P.devResetPhase = 5 →
     exec (.warmResetPhaseEnd env tables lost) s = .next (s.warmFirmware)) ∧
  (∀ (env : Env) (tables : Bool) (lost : List Nat) (s : State),
     s.par P.devResetPhase = 6 →
     exec (.warmResetPhaseEnd env tables lost) s = .next (s.warmWake)) ∧
  (∀ (env : Env) (tables : Bool) (lost : List Nat) (s : State),
     s.par P.devResetPhase = 7 →
     exec (.warmResetPhaseEnd env tables lost) s = .next (s.warmRevalidate env.ph tables)) ∧
  (∀ (env : Env) (tables : Bool) (lost : List Nat) (s : State),
     s.par P.devResetPhase = 8 →
     exec (.warmResetPhaseEnd env tables lost) s = .next ((s.warmReplay lost env).armsGo)) ∧
  (∀ (s : State),
     s.warm = true → s.recov.warmAt + msT 400 ≤ s.now →
     exec .warmResetOverrun s = .next s.goOut) ∧
  (∀ (s : State),
     s.recov.safeDue ≠ 0 →
     exec .safeEntry s = .next s.safeEntry) ∧
  (∀ (s : State),
     s.dev = dsSafe → s.warm = false → s.safeHeld = false →
     exec .safeAutoExpiry s = .next (s.warmStart true)) ∧
  (∀ (s : State),
     s.takes P.devRequest 1 = true →
     exec .enterService s = .next s.enterService) ∧
  (∀ (s : State),
     s.takes P.devRequest 2 = true →
     exec .enterStandby s = .next (s.setDev dsStandby)) ∧
  (∀ (s : State),
     s.takes P.devRequest 3 = true →
     exec .recover s = .next (s.warmStart (s.par P.devSafeCause / 2 ^ 56 != 7))) ∧
  (∀ (s : State),
     s.takes P.devRequest 4 = true →
     exec .enterSafe s = .next (s.raiseSafe 7)) ∧
  (∀ (s : State),
     exec .coreWatchdogExpiry s = .next (s.raiseSafe 4) ∧ exec .lockstepMismatch s = .next (s.raiseSafe 4))

/-- The patrol scrub reads the next line in scope and repairs the blocks of an uncorrectable one, or meets the loss of the
metadata that both copies fail to give; an SRAM line read clean or corrected is only noted; arming a flip stores the
target; an uncorrectable code page reloads once in 1 s; a transfer with no good copy is recorded and one of metadata raises
SAFE; a dying stack dies, its walk moves or poisons every block with a copy there and retires its frames; a region that
dies ends in OUT_OF_SERVICE. Where the spec leaves points open the statement rests on the model's choices of log 39, 41, 43
and 44. -/
def Obligations.MediaFaults : Prop :=
  (∀ (stack : Fin 16) (events : ScrubEvents) (s : State),
     let q := s.scrubNext stack (Tab.get stack.val s.media.scrub)
     let l := stack.val * stackLines + q
     let t := ((s.scrubGrant (stack / 4)).noteLine l (s.lineState events.ph l) true).openRow stack q
     let u := t.modMedia (fun m =>
       { m with scrub := Tab.set stack.val (if stackLines ≤ q + 1 then 0 else q + 1) m.scrub, scrubRead := if (s.lineState events.ph l).1 = 1 then Tab.insert stack.val { line := q, data := Tab.readRun 0 (64 * l) 64 t.mem.hbm, cancelled := false } (Tab.erase stack.val m.scrubRead) else Tab.erase stack.val m.scrubRead })
     let x := if stackLines ≤ q + 1 then u.count P.scrubPasses 1 else u
     s.par (P.mcSrState stack) = srActive → s.par (P.stackHealth stack) ≠ 2 →
     exec (.patrolScrubRead stack events) s = .next (if (s.lineState events.ph l).1 ≠ 3 then x else if dataLines ≤ q then
       events.lost.elim (x.repairLine l events.ph) (x.metaFail (stack / 4)) else x.repairLine l events.ph)) ∧
  (∀ (region : Fin 4) (outcome : Fin 15) (holding : Fin 9) (place : Nat) (s : State),
     outcome ≠ 14 →
     exec (.sramScrub region none outcome holding place) s = .next (s.noteSram region (region * 16) (if outcome = 0 then 0 else
       1) (outcome - 1))) ∧
  (∀ (region : Fin 4) (block : Fin 9) (holding : Fin 9) (place : Nat) (s : State),
     s.flipSram 2 (region.val * 16 + block.val) = false →
     exec (.sramScrub region (some block) 14 holding place) s = .next ((s.noteSram region (128 + (region.val * 16 + block.val))
       2 13).sramLost region 8 block)) ∧
  (∀ (value : Nat) (s : State),
     s.takes P.flipTarget (setFld value 15 15 1) = true →
     exec (.flipArm value) s = .next (s.storeWrite P.flipTarget (setFld value 15 15 1))) ∧
  (∀ (s : State),
     s.media.coresLost = false → s.media.codeFault = 0 →
     exec (.codeFetchUe false) s = .next (s.modMedia (fun m => { m with codeFault := s.now + 1 }))) ∧
  (∀ (channel : Fin 8) (source : Nat) (metadata : Bool) (s : State),
     ∃ t, exec (.dmaSourceUe channel source true metadata) s = .next t ∧ t.par (P.dmaFaultAddr channel) = source % 2 ^ 64 ∧
       t.par (P.dmaStatus channel) = 0 ∧ t.mem = s.mem) ∧
  (∀ (stack : Fin 16) (s : State),
     (s.stack stack).dying = true → s.par (P.stackHealth stack) ≠ 2 →
     ∃ t, exec (.stackDeath stack) s = .next t ∧ t = s.stackDies stack ∧ (Tab.find? stack.val t.media.walks).isSome = true) ∧
  (∀ (stack : Fin 16) (ph : Phys) (t : Nat) (s : State),
     Tab.find? stack.val s.media.walks = some t →
     exec (.stackDeathWalkComplete stack ph) s = .next ((((forAll (fun p s => s.walkBlock stack p ph) ((s.allWords.filter (fun
       p => (entryOf p.2).inHbm && ((entryOf p.2).addr / 2 ^ 32 == stack.val || ((s.partnerOf (entryOf p.2).addr).map (· / 2 ^
       32) == some stack.val)))).eraseDups) s).modMedia (fun m => { m with walks := Tab.erase stack.val m.walks })).dropT1On
       stack).retireStack stack)) ∧
  (∀ (region : Fin 4) (s : State),
     s.dev ≠ dsOut → s.recov.oosDue = false →
     exec (.regionDeath region) s = .next (s.regionDies region))

/-- A temperature sample is shown and sets the condition of R312; HOLD that lasts mc_thermal_hold_ms raises SAFE once; a refresh
due on an idle bank closes it with nothing owed; an idle row is precharged; a starved request is promoted; a parity alert
stops and replays, its end counts; a channel comes back or kills its stack; a master with a real-time contract panics and
recovers; training starts, ends and puts the stack back; self-refresh is entered and left. Where the spec leaves points
open the statement rests on the model's choices of log 20 and 80. -/
def Obligations.StackControllers : Prop :=
  (∀ (stack : Fin 16) (celsius : Int) (s : State),
     condAfter (s.par (P.mcCond stack)) celsius = s.par (P.mcCond stack) →
     exec (.stackTempSample stack celsius) s = .next (s.setPar (P.mcTempC stack) (i16 celsius))) ∧
  (∀ (stack : Fin 16) (s : State),
     (s.stack stack).holdAt ≠ 0 → (s.stack stack).holdSaid = false →
     (s.stack stack).holdAt + msT (s.par P.mcThermalHoldMs) ≤ s.now + 1 →
     ∃ u : RecArgs, exec (.thermalHoldExpiry stack) s = .next (((s.modStack stack (fun r =>
       { r with holdSaid := true })).record u).raiseSafe 2)) ∧
  (∀ (stack : Fin 16) (pc : Fin 64) (bank : Fin 48) (promoted : Bool) (s : State),
     s.par (P.mcSrState stack) = srActive ∨ s.par (P.mcSrState stack) = srIdle →
     ∃ t, exec (.refreshDue stack pc bank false promoted) s = .next t ∧ (Tab.get (bankKey pc bank) (t.stack stack).banks).owed
       = 0 ∧ (Tab.get (bankKey pc bank) (t.stack stack).banks).row = none ∧ t.mem = s.mem) ∧
  (∀ (stack : Fin 16) (pc : Fin 64) (bank : Fin 48) (s : State),
     let b := Tab.get (bankKey pc bank) (s.stack stack).banks
     b.row.isSome = true → b.used + nsT b.idle ≤ s.now →
     exec (.pageIdleExpiry stack pc bank) s = .next (s.modBank stack (bankKey pc bank) (fun x => { x with row := none }))) ∧
  (∀ (place : Nat) (r : HeldReq) (s : State),
     s.recov.held[place]? = some r → r.since + nsT (s.par P.mcStarveNs) ≤ s.now →
     exec (.requestStarvePromote place) s = .next
       { s with recov := { s.recov with held := s.recov.held.set place { r with promoted := true } } }) ∧
  (∀ (stack : Fin 16) (channel : Fin 32) (s : State),
     let x := Tab.get channel.val (s.stack stack).chans
     (s.par (P.mcChannelOffline stack)).testBit channel = false →
     (Tab.get channel.val (s.stack stack).chans).alerts < 3 ∨ (Tab.get channel.val (s.stack stack).chans).replaying = false →
     exec (.commandParityAlert stack channel) s = .next (((s.count (P.mcParityAlerts stack) 1).modStack stack (prechargeChan
       channel)).modChan stack channel (fun y =>
       { y with alerts := if x.replaying then x.alerts + 1 else 0, replaying := true }))) ∧
  (∀ (stack : Fin 16) (channel : Fin 32) (s : State),
     (Tab.get channel.val (s.stack stack).chans).replaying = true →
     exec (.replayComplete stack channel) s = .next ((s.modChan stack channel (fun x =>
       { x with alerts := 0, replaying := false })).count (P.mcReplays stack) 1)) ∧
  (∀ (stack : Fin 16) (channel : Fin 32) (s : State),
     (s.par (P.mcChannelOffline stack)).testBit channel = true → s.par (P.mcChannelOffline stack) = 2 ^ channel.val →
     s.par (P.stackHealth stack) = 1 →
     exec (.channelRetrainComplete stack channel true) s = .next (((s.setPar (P.mcChannelOffline stack) 0).setPar
       (P.stackHealth stack) 0).modStack stack (fun r => { r with offline := false }))) ∧
  (∀ (master : Fin 512) (fill reads : Nat) (s : State),
     s.rtMaster master = true → s.panicking master = false → fill < 16 → 0 < reads →
     ∃ t, exec (.panicAssert master fill reads) s = .next t ∧ t.panicking master = true ∧ t.mem = s.mem ∧ ∀ r ∈ t.recov.held,
       r.port = master.val → r.promoted = true) ∧
  (∀ (master : Fin 512) (fill reads : Nat) (s : State),
     s.panicking master = true → 32 ≤ fill ∨ reads = 0 →
     ∃ t, exec (.panicDeassert master fill reads) s = .next t ∧ t.panicking master = false ∧ t.mem = s.mem) ∧
  (∀ (stack : Fin 16) (value : Nat) (s : State),
     s.takes (P.trnHold stack) value = true →
     exec (.trnHoldWrite stack value) s = .next (s.trnHoldWrite stack value)) ∧
  (∀ (stack : Fin 16) (value : Nat) (s : State),
     s.takes (P.trnCtl stack) value = true → fld value 63 63 = 1 →
     exec (.trnCtlStart stack value) s = .next (((s.setPar (P.trnCtl stack) (setFld value 63 63 0)).setPar (P.trnStatus stack)
       1).modStack stack (fun r => { r with running := true }))) ∧
  (∀ (stack : Fin 16) (mismatch errors : Nat) (s : State),
     (s.stack stack).running = true → (s.stack stack).returning = false →
     exec (.trnRunComplete stack mismatch errors) s = .next ((((s.setPar (P.trnMismatch stack) (mismatch % 2 ^ 40)).setPar
       (P.trnErrors stack) (Nat.min errors (2 ^ 32 - 1))).setPar (P.trnStatus stack) 2).modStack stack (fun r =>
       { r with running := false, returning := false }))) ∧
  (∀ (stack : Fin 16) (s : State),
     s.par (P.mcSrState stack) = srEntering →
     ∃ t, exec (.selfRefreshEntry stack) s = .next t ∧ t.par (P.mcSrState stack) = srSelf ∧ (t.stack stack).banks = [] ∧ t.mem
       = s.mem) ∧
  (∀ (stack : Fin 16) (ph : Phys) (s : State),
     s.par (P.mcSrState stack) = srExiting →
     exec (.selfRefreshExit stack ph) s = .next (((s.outOfSelf stack).regionCheck (stack / 4)).retryHub ph))

/-- When the corrected line of a stack is not cancelled and still in scope, SCRUB_WRITEBACK stores its 64 bytes at their line of
HBM and no other byte of HBM changes; the line then holds the error of a flip armed for it and no other, and without such a
flip no parameter changes. When it was cancelled, all of HBM, its flips and the parameters read as before. The held line is
gone in either case. -/
def Obligations.ScrubWriteback : Prop :=
  (∀ (stack : Fin 16) (r : ScrubRead) (s : State),
     let l := stack.val * stackLines + r.line
     Tab.find? stack.val s.media.scrubRead = some r → r.cancelled = false → r.data.length = 64 →
     r.line < dataLines → scrubs (s.frame (frameKey stack (r.line / 64))) = true →
     ∃ t, exec (.scrubWriteback stack) s = .next t ∧ (s.flipFor (lineStack l) [l] = none → t.dict = s.dict) ∧ Tab.find?
       stack.val t.media.scrubRead = none ∧ Tab.get l t.media.flips = (s.flipFor (lineStack l) [l]).elim 0 Prod.snd ∧ ∀ a,
       Tab.getD 0 a t.mem.hbm = if 64 * l ≤ a ∧ a < 64 * l + 64 then r.data.getD (a - 64 * l) 0 else Tab.getD 0 a s.mem.hbm) ∧
  (∀ (stack : Fin 16) (r : ScrubRead) (s : State),
     Tab.find? stack.val s.media.scrubRead = some r → r.cancelled = true →
     ∃ t, exec (.scrubWriteback stack) s = .next t ∧ t.dict = s.dict ∧ Tab.find? stack.val t.media.scrubRead = none ∧ t.mem =
       s.mem ∧ t.media.flips = s.media.flips)

/-- A detected partner starts training; a trained link without a common rate, width or protocol is INCOMPATIBLE for its delay and
otherwise UP with the settled rate; an UP link falls to BACKOFF on a lost partner or hot reset, an overflow, a stall, an
exhausted replay, a malformed message or an integrity failure, and waits in DETECT once its delay is over; a port is
enabled; IDE keys start the stream. Where the spec leaves points open the statement rests on the model's choices of log 21,
23, 24 and 110. -/
def Obligations.LinkStates : Prop :=
  (∀ (link : Fin 32) (s : State),
     (s.link link).st = lkDetect → s.mayTrain link = true →
     exec (.linkDetectTick link true) s = .next (s.setLink link (fun l => { l with st := lkTraining }))) ∧
  (∀ (link : Fin 32) (partner : Partner) (r : Nat) (s : State),
     (s.link link).st = lkTraining → s.mayTrain link = true →
     trainRate partner.rates (if (s.link link).cap = 0 then s.par (P.portMaxRate (link / 2)) else Nat.min (s.par (P.portMaxRate
       (link / 2))) ((s.link link).cap - 1)) = some r →
     trainWidth (s.cfgWidth link) partner.lanes ≠ 0 → partner.cxl = true →
     ∃ t, exec (.linkTrained link partner) s = .next t ∧ t = s.trained link partner ∧ (t.link link).st = lkUp ∧ (t.link
       link).rate = r ∧ (t.link link).width = trainWidth (s.cfgWidth link) partner.lanes ∧ t.mem = s.mem) ∧
  (∀ (link : Fin 32) (partner : Partner) (s : State),
     (s.link link).st = lkTraining → s.mayTrain link = true → trainWidth (s.cfgWidth link) partner.lanes ≠ 0 →
     partner.cxl = false →
     exec (.linkTrained link partner) s = .next ((s.setLink link (fun l => { l with st := lkIncompatible })).delayLink link)) ∧
  (∀ (link : Fin 32) (hotReset : Bool) (s : State),
     s.linkUp link = true →
     exec (.linkDown link hotReset) s = .next (s.linkFall link (if hotReset then 7 else 1)) ∧ exec (.replayLimitExhausted link)
       s = .next (s.linkFall link 5)) ∧
  (∀ (link : Fin 32) (s : State),
     (s.link link).egress ≠ [] → (s.link link).stallAt + msT (s.par (P.portCreditStallMs (link / 2))) ≤ s.now →
     exec (.creditStall link) s = .next (s.linkFall link 2)) ∧
  (∀ (link : Fin 32) (s : State),
     (s.link link).st = lkBackoff ∨ (s.link link).st = lkIncompatible → (s.link link).backoff ≤ s.now →
     exec (.backoffExpiry link) s = .next (s.setLink link (fun l => { l with st := lkDetect }))) ∧
  (∀ (block : Fin 16) (value : Nat) (s : State),
     s.takes (P.portEnable block) value = true →
     exec (.portEnableWrite block value) s = .next ((s.storeWrite (P.portEnable block) value).enablePort block)) ∧
  (∀ (port : Fin 512) (s : State),
     s.linkUp (port / 16) = true →
     exec (.rxOverflow port) s = .next (((s.count (P.portRxOverflow (port / 32)) 1).setRas port 11).linkFall (port / 16) 3) ∧
       exec (.malformedMessage port) s = .next ((s.setRas port 9).linkFall (port / 16) 8)) ∧
  (∀ (link : Fin 32) (keys : List Byte) (containment : Bool) (s : State),
     s.linkUp link = true → s.par (P.portIde (link / 2)) ≠ 0 →
     exec (.ideKeyProgram link keys containment) s = .next (s.setLink link (fun l =>
       { l with stream := 1, ideKey := keys, ide := if containment then 2 else 1 }))) ∧
  (∀ (link : Fin 32) (s : State),
     (s.link link).stream = 1 →
     exec (.ideIntegrityFail link) s = .next (s.linkFall link 4))

/-- An FLR of an LD resets its function; a cleared Bus Master Enable silences it; a timed-out read quarantines its tag, a
completion frees it; a configuration read answers the dword; CDAT lists the committed partitions the LD reaches; an HDM
decoder with sound values commits; extents added are offered and extents released are dropped. Where the spec leaves points
open the statement rests on the model's choices of log 15, 18, 21, 25, 26 and 112. -/
def Obligations.LogicalDevices : Prop :=
  (∀ (port : Fin 512) (s : State),
     s.linkUp (port / 16) = true →
     exec (.ldFlr port) s = .next (forAll (fun q s => s.modQ q (fun r => { r with tail := 0, cqDb := 0 })) ((Tab.keys
       s.queues.q).filter (s.ldQueue port)) ((s.ldSilence port).modLd (ldKey port) (fun l =>
       { l with cfg := [], msix := [], msixMsg := [] })))) ∧
  (∀ (port : Fin 512) (s : State),
     s.linkUp (port / 16) = true → (s.ld (ldKey port)).bme = true →
     exec (.ldBmeClear port) s = .next (s.ldSilence port)) ∧
  (∀ (port : Fin 512) (tag : Nat) (s : State),
     Tab.get tag (s.ld (ldKey port)).reads ≠ 0 →
     exec (.ldCplTimeout port tag) s = .next (s.modLd (ldKey port) (fun l =>
       { l with reads := Tab.set tag 0 l.reads, tags := Tab.set tag (s.now + 2 * s.ldTimeout (ldKey port)) l.tags })) ∧ exec
       (.ldCompletionArrival port tag) s = .next (s.modLd (ldKey port) (fun l => { l with reads := Tab.set tag 0 l.reads }))) ∧
  (∀ (port : Fin 512) (tag : Nat) (s : State),
     Tab.get tag (s.ld (ldKey port)).reads = 0 → s.now < Tab.get tag (s.ld (ldKey port)).tags →
     exec (.ldCompletionArrival port tag) s = .next (s.count (P.portLateCpl (port / 32)) 1)) ∧
  (∀ (link : Fin 32) (ld : Fin 17) (offset : Fin 1024) (value : Nat) (s : State),
     s.fnOn link ld = true →
     exec (.cxlConfigRequest link ld false offset value) s = .next (s.ldAnswer link ld 0 0 (leBytes 4 (s.ldCfg link ld
       offset))) ∧ exec (.cxlConfigRequest link ld true offset value) s = .next ((s.ldCfgWrite link ld offset (value % 2 ^
       32)).ldAnswer link ld 0 0 [])) ∧
  (∀ (port : Fin 512) (s : State),
     s.ldUp port = true →
     exec (.cdatRead port) s = .next (s.ldAnswer (port / 16) (port % 16) 2 0 ((s.partsOn.filter (s.reaches (s.hidOf
       port))).flatMap s.dsmas))) ∧
  (∀ (port : Fin 512) (decoder : Fin 4) (base size ways gran skip : Nat) (lock : Bool) (s : State),
     s.ldUp port = true → (Tab.get decoder.val (s.ld (ldKey port)).hdm).lock = false →
     hdmOk (s.ld (ldKey port)).hdm decoder base size ways gran skip = true →
     exec (.hdmDecoderCommit port decoder true base size ways gran skip lock) s = .next ((s.modLd (ldKey port) (fun l =>
       { l with hdm := Tab.set decoder.val { base := base, size := size, ways := ways, gran := gran, dpa := hdmDpa (s.ld (ldKey port)).hdm decoder skip, on := true, lock := lock } l.hdm })).ldAnswer
       (port / 16) (port % 16) 4 0 [])) ∧
  (∀ (port : Fin 512) (first count : Nat) (s : State),
     s.linkUp (port / 16) = true →
     exec (.dcAddExtent port first count) s = .next ((s.dcAdd port first count).2.ldAnswer (port / 16) 16 3 (extStatus (s.dcAdd
       port first count).1) []) ∧ exec (.dcReleaseExtent port first count) s = .next ((s.dcRelease port first count).2.ldAnswer
       (port / 16) 16 3 (extStatus (s.dcRelease port first count).1) [])) ∧
  (∀ (port : Fin 512) (first count : Nat) (s : State),
     s.linkUp (port / 16) = true → (s.link (port / 16)).dc = true → s.inPartition first count = true →
     (blocksFrom first count).all (fun b => !Tab.get b (s.ld (ldKey port)).extents && !Tab.get b (s.ld (ldKey port)).offered) =
       true →
     (s.ld (ldKey port)).extents.length + (s.ld (ldKey port)).offered.length + count ≤ 1024 →
     ∃ t, exec (.dcAddExtent port first count) s = .next t ∧ (∀ b, first ≤ b ∧ b < first + count → Tab.get b (t.ld (ldKey
       port)).offered = true) ∧ (t.ld (ldKey port)).extents = (s.ld (ldKey port)).extents ∧ t.mem = s.mem ∧ t.dict = s.dict)

/-- On a bound LD of an UP link the mailbox answers Identify, the supported logs, the event interrupt policy, the timestamp,
health, alert configuration, firmware, the poison list, the signatures, port mode, binding and the own-fail word with
Success and changes nothing else; a log, records, the dynamic-capacity configuration and extents and a dictionary entry too
where their input is sound, DICT_READ answering Invalid Input where a zero byte of its payload is not; an opcode outside
the list is answered Unsupported. Where the spec leaves points open the statement rests on the model's choices of log 22. -/
def Obligations.MailboxReads : Prop :=
  (∀ (port : Fin 512) (opcode : Fin 65536) (s : State),
     s.ldUp port = true →
     exec (.identifyMemoryDevice port) s = .next (State.ldAnswer s (port / 16) (port % 16) 1 mbOk (s.fwRev ++ leBytes 8 (if
       (s.link (port / 16)).dc then 0 else 16384) ++ leBytes 8 (if (s.link (port / 16)).dc then 0 else 16384) ++ zeros 16 ++
       leBytes 2 64 ++ leBytes 2 64 ++ leBytes 2 64 ++ leBytes 2 64 ++ zeros 4 ++ leBytes 3 4096 ++ zeros 2 ++ [0, 0] ++ zeros
       2)) ∧ exec (.getSupportedLogs port) s = .next (State.ldAnswer s (port / 16) (port % 16) 1 mbOk (leBytes 2 1 ++ zeros 6
       ++ beBytes 16 celUuid ++ leBytes 4 (celBytes (s.link (port / 16)).dc).length)) ∧ exec (.getEventInterruptPolicy port) s
       = .next (State.ldAnswer s (port / 16) (port % 16) 1 mbOk ((List.range 4).flatMap (fun i => leBytes 1 (Tab.get i (s.ld
       (ldKey port)).policy)))) ∧ exec (.getTimestamp port) s = .next (State.ldAnswer s (port / 16) (port % 16) 1 mbOk (leBytes
       8 (s.ldTime (ldKey port)))) ∧ exec (.getHealthInfo port) s = .next (State.ldAnswer s (port / 16) (port % 16) 1 mbOk ([0,
       0, 0] ++ leBytes 1 s.lifeUsed ++ leBytes 2 s.topTemp ++ zeros 4 ++ leBytes 4 (s.stackSum P.mediaCe) ++ leBytes 4
       (s.stackSum P.mediaUe))) ∧ exec (.getFwInfo port) s = .next (State.ldAnswer s (port / 16) (port % 16) 1 mbOk (leBytes 1
       1 ++ leBytes 1 1 ++ zeros 14 ++ s.fwRev ++ zeros 48)) ∧ exec (.getPortMode port) s = .next (State.ldAnswer s (port / 16)
       (port % 16) 1 mbOk (leBytes 8 (s.par (statusKey (port / 16))) ++ leBytes 8 (s.par P.portCreditAuditPass))) ∧ exec
       (.getOwnFail port) s = .next (State.ldAnswer s (port / 16) (port % 16) 1 mbOk (leBytes 8 (if fld (s.par P.ownLastFail)
       55 48 = s.hidOf port then s.par P.ownLastFail else 0))) ∧ exec (.mailboxUnsupported port opcode) s = .next
       (State.ldAnswer s (port / 16) (port % 16) 1 mbUnsupported ([]))) ∧
  (∀ (port : Fin 512) (dpa length start : Nat) (s : State),
     s.ldUp port = true →
     (∃ d, exec (.getAlertConfiguration port) s = .next (State.ldAnswer s (port / 16) (port % 16) 1 mbOk (d)) ∧ d.length = 16)
       ∧ (∃ d, exec (.getPoisonList port dpa length) s = .next (State.ldAnswer s (port / 16) (port % 16) 1 mbOk (d))) ∧ (∃ d,
       exec (.getSignatures port start) s = .next (State.ldAnswer s (port / 16) (port % 16) 1 mbOk (d))) ∧ ∃ d, exec
       (.getBinding port) s = .next (State.ldAnswer s (port / 16) (port % 16) 1 mbOk (d)) ∧ d.length = 66) ∧
  (∀ (port : Fin 512) (offset length : Nat) (s : State),
     s.ldUp port = true → offset + length ≤ (celBytes (s.link (port / 16)).dc).length →
     exec (.getLog port celUuid offset length) s = .next (State.ldAnswer s (port / 16) (port % 16) 1 mbOk (cut offset length
       (celBytes (s.link (port / 16)).dc)))) ∧
  (∀ (port : Fin 512) (log : Nat) (s : State),
     s.ldUp port = true → log < 4 →
     ∃ d, exec (.getEventRecords port log) s = .next (State.ldAnswer s (port / 16) (port % 16) 1 mbOk (leBytes 1 (if Tab.get
       log (s.ld (ldKey port)).lost = 0 then 0 else 1) ++ d)) ∧ d.length = 31 + 128 * (s.logOf (ldKey port) log).length) ∧
  (∀ (port : Fin 512) (count start : Nat) (s : State),
     s.ldUp port = true → (s.link (port / 16)).dc = true → start ≤ (s.ld (ldKey port)).extents.length →
     (∃ d, exec (.getDcConfiguration port) s = .next (State.ldAnswer s (port / 16) (port % 16) 1 mbOk (d))) ∧ ∃ d, exec
       (.getDcExtentList port count start) s = .next (State.ldAnswer s (port / 16) (port % 16) 1 mbOk (d))) ∧
  (∀ (port : Fin 512) (index : Fin 65536) (sub : DictSub) (s : State),
     s.ldUp port = true → sub.rest = 0 → s.par (P.portMboxDict (port / 32)) = 1 → s.dictOn = true →
     exec (.dictRead port index sub) s = .next (State.ldAnswer s (port / 16) (port % 16) 1 mbOk (leBytes 8 (s.readPar (index *
       256 + sub.subindex))))) ∧
  (∀ (port : Fin 512) (index : Fin 65536) (sub : DictSub) (s : State),
     s.ldUp port = true → sub.rest ≠ 0 → s.par (P.portMboxDict (port / 32)) = 1 → s.dictOn = true →
     exec (.dictRead port index sub) s = .next (State.ldAnswer s (port / 16) (port % 16) 1 mbInvalidInput ([])))

/-- Event records are cleared by handle, oldest first, or all of an overflowed log; the interrupt policy, the timestamp and the
alert configuration are set; poison is injected into and cleared from a block the LD may write; offered extents are
accepted and held extents released. Where the spec leaves points open the statement rests on the model's choices of log 22. -/
def Obligations.MailboxWrites : Prop :=
  (∀ (port : Fin 512) (log : Nat) (handles : List Nat) (s : State),
     s.ldUp port = true → log < 4 → ((s.logOf (ldKey port) log).take handles.length).map EventRec.handle = handles →
     exec (.clearEventRecords port log false handles) s = .next (State.ldAnswer (s.modLd (ldKey port) (fun l =>
       { l with log := l.log.filter (fun r => !(r.log == log && handles.contains r.handle)), lost := Tab.set log 0 l.lost, lostFirst := Tab.set log 0 l.lostFirst, lostLast := Tab.set log 0 l.lostLast }))
       (port / 16) (port % 16) 1 mbOk ([]))) ∧
  (∀ (port : Fin 512) (a b c d : Byte) (s : State),
     s.ldUp port = true → a.toNat % 16 ≤ 1 → b.toNat % 16 ≤ 1 → c.toNat % 16 ≤ 1 → d.toNat % 16 ≤ 1 →
     ∃ t, exec (.setEventInterruptPolicy port [a, b, c, d]) s = .next t ∧ (List.range 4).map (fun i => Tab.get i (t.ld (ldKey
       port)).policy) = [a.toNat, b.toNat, c.toNat, d.toNat] ∧ t.mem = s.mem ∧ t.dict = s.dict) ∧
  (∀ (port : Fin 512) (value : Nat) (s : State),
     s.ldUp port = true →
     exec (.setTimestamp port value) s = .next (State.ldAnswer (s.modLd (ldKey port) (fun l =>
       { l with stamp := value % 2 ^ 64, stampAt := s.now })) (port / 16) (port % 16) 1 mbOk ([]))) ∧
  (∀ (port : Fin 512) (settings : List Byte) (s : State),
     s.ldUp port = true → settings.length = 12 → ((settings[0]?).getD 0).toNat < 4 → ((settings[1]?).getD 0).toNat < 4 →
     ∃ t, exec (.setAlertConfiguration port settings) s = .next t ∧ (t.ld (ldKey port)).alert.length = 12 ∧
       (((settings[0]?).getD 0).toNat = 3 → ((t.ld (ldKey port)).alert[1]?).getD 0 = (settings[1]?).getD 0) ∧ t.mem = s.mem ∧
       t.dict = s.dict) ∧
  (∀ (port : Fin 512) (dpa w : Nat) (v : View) (s : State),
     s.ldUp port = true → dpa < dpaEnd → dpa % 64 = 0 → s.serving = true → s.mayWrite port dpa = some (w, v) →
     s.par (P.winKind w) = wT0 →
     ∃ t, exec (.injectPoison port dpa) s = .next t ∧ (∀ j, j < 64 → Tab.get (64 * (dpa / 4096) + j) t.mem.t0marks = true) ∧
       t.mem.hbm = s.mem.hbm ∧ t.mem.t0 = s.mem.t0) ∧
  (∀ (port : Fin 512) (dpa : Nat) (data : List Byte) (ph : Phys) (s : State),
     s.ldUp port = true → dpa < dpaEnd → dpa % 64 = 0 → s.serving = true → (s.mayWrite port dpa).isSome = true →
     exec (.clearPoison port dpa data ph) s = .next (State.ldAnswer (s.letIn
       { port := port, dpa := dpa, write := true, data := padTo 64 data, mask := 0, bad := false, want := 0, gated := false, since := s.now, promoted := false, quiet := true }
       ph) (port / 16) (port % 16) 1 mbOk ([]))) ∧
  (∀ (port : Fin 512) (accepted : List (Nat × Nat)) (s : State),
     s.ldUp port = true → (s.link (port / 16)).dc = true → (accepted.map Prod.snd).sum ≤ 1024 →
     (rangeBlocks accepted).any (fun x => Tab.get x (s.ld (ldKey port)).extents) = false →
     (rangeBlocks accepted).any (fun x => !Tab.get x (s.ld (ldKey port)).offered) = false →
     (distinct (rangeBlocks accepted)).length = (rangeBlocks accepted).length →
     ∃ t, exec (.addDcResponse port accepted) s = .next t ∧ (t.ld (ldKey port)).offered = [] ∧ (∀ x ∈ rangeBlocks accepted,
       Tab.get x (t.ld (ldKey port)).extents = true) ∧ t.mem = s.mem ∧ t.dict = s.dict) ∧
  (∀ (port : Fin 512) (released : List (Nat × Nat)) (s : State),
     s.ldUp port = true → (s.link (port / 16)).dc = true → (released.map Prod.snd).sum ≤ 1024 →
     (rangeBlocks released).any (fun x => !Tab.get x (s.ld (ldKey port)).extents) = false →
     (distinct (rangeBlocks released)).length = (rangeBlocks released).length →
     exec (.releaseDc port released) s = .next (State.ldAnswer (forAll (fun x s => s.dropExtent (ldKey port) x) (rangeBlocks
       released) s) (port / 16) (port % 16) 1 mbOk ([])))

/-- A function-level reset silences the function, loses the detour area and resets its registers; its end takes requests again; a
cleared Bus Master Enable silences it and loses the detour area, a set one sends what waits; a conventional reset silences
it and starts the 100 ms of grace, whose end loses the detour area; PERST# released and the link up end the reset; D3hot,
D0 and D3cold are entered. Where the spec leaves points open the statement rests on the model's choices of log 21 and 27. -/
def Obligations.ServiceResets : Prop :=
  (∀ (s : State),
     s.svcThere = true → s.svc.inReset = false →
     exec .svcFlr s = .next ((((s.svcSilence false).sv (fun v => { v with flr := true })).detourLost).svcRegsReset)) ∧
  (∀ (s : State),
     exec .svcFlrComplete s = .next (s.sv (fun v => { v with flr := false }))) ∧
  (∀ (s : State),
     s.svc.bme = true →
     exec .svcBmeClear s = .next (s.svcSilence false).detourLost) ∧
  (∀ (s : State),
     s.svcThere = true → s.svc.inReset = false → s.svc.flr = false →
     exec .svcBmeSet s = .next (((s.sv (fun v => { v with bme := true })).msixPending).svcBack)) ∧
  (∀ (cause : Fin 3) (s : State),
     exec (.perstAssert cause) s = .next (s.svcReset.sv (fun v =>
       { v with perstOff := v.perstOff || cause == 0, perstWait := v.perstWait && cause != 0 }))) ∧
  (∀ (s : State),
     s.svc.perstOff = true → s.perstReady = true →
     exec .perstDeassert s = .next (s.sv (fun v =>
       { v with perstOff := false, perstWait := false, wake := false, dstate := 0, inReset := true }))) ∧
  (∀ (s : State),
     s.svc.perstOff = true → s.perstReady = false →
     exec .perstDeassert s = .next (s.sv (fun v => { v with perstWait := true }))) ∧
  (∀ (s : State),
     s.svc.perstOff = false → s.svc.dstate ≠ 2 →
     exec .svcLinkUp s = .next ((s.freeNext.freeNext.sv (fun v =>
       { v with dl := true, inReset := false, speed := 1 + s.freeValue % 5, lanes := 2 ^ (s.freeNext.freeValue % 3) })).svcBack)) ∧
  (∀ (s : State),
     s.svc.downAt ≠ 0 → s.svc.downAt + msT 100 ≤ s.now + 1 →
     exec .svcLinkDownGraceExpiry s = .next (s.sv (fun v =>
       { v with downAt := 0, egress := v.egress.filter (fun r => r.who != 2) })).detourLost) ∧
  (∀ (s : State),
     s.svcThere = true → s.svc.dstate = 0 → s.svc.inReset = false → s.svc.flr = false →
     exec .svcD3hotEntry s = .next (s.sv (fun v => { v with dstate := 1, d3At := s.now }))) ∧
  (∀ (s : State),
     s.svc.dstate = 1 →
     exec .svcD0Entry s = .next (((s.sv (fun v => { v with dstate := 0 })).msixPending).svcBack)) ∧
  (∀ (s : State),
     s.svcThere = true →
     exec .svcD3coldEntry s = .next ((s.svcSilence false).sv (fun v => { v with dstate := 2, dl := false })).detourLost) ∧
  (∀ (r : SvcReq) (s : State),
     s.svc.egress.find? (fun r => r.who == 2 && r.read) = some r → s.svc.dstate = 1 →
     Nat.max r.since s.svc.d3At + msT (s.par P.svcD3WaitMs) ≤ s.now →
     exec .svcD3WaitExpiry s = .next s.detourGiveUp) ∧
  (∀ (s : State),
     s.par P.svcIrqStatus ≠ 0 →
     exec (.wakeCauseSignal 2) s = .next (s.wakeSvc 2))

/-- A grant sends the oldest request of the requester the pointer finds; a completion frees its tag, a poisoned one is logged, an
unexpected one too; a timeout quarantines the tag, and the quarantine ends; configuration requests are answered; a BAR0
read answers the slot; a write of 8 bytes of an entry without an effect of its own stores it; LTR is sent when the need
changes; ASPM support is shown at once. Where the spec leaves points open the statement rests on the model's choices of log
15, 21, 27, 59, 86 and 114. -/
def Obligations.ServiceRequests : Prop :=
  (∀ (n i : Nat) (r : SvcReq) (s : State),
     s.svcOpen = true → rotPick 5 s.svc.ptr (fun n => (s.svcHead n).isSome) = some n →
     s.svc.egress.findIdx? (fun r => r.who == n) = some i → s.svcHead n = some r →
     exec .svcEgressGrant s = .next (((s.devGrant (s.svcRegion r)).sv (fun v =>
       { v with egress := v.egress.eraseIdx i, ptr := (n + 1) % 5 })).svcIssue r)) ∧
  (∀ (tag : Nat) (defect : CplDefect) (s : State),
     defect.badEcrc = false ∨ (s.svcReg (0x118 / 4)).testBit 8 = false → (Tab.find? tag s.svc.tags).isSome = true →
     exec (.svcCompletionArrival tag defect) s = .next (if defect.poisoned = true then (s.sv (fun v =>
       { v with tags := Tab.erase tag v.tags })).aerUncorr 12 true else s.sv (fun v =>
       { v with tags := Tab.erase tag v.tags })) ∧ exec (.svcCompletionTimeout tag) s = .next ((s.quarTag tag
       s.svcTimeout).aerUncorr 14 false)) ∧
  (∀ (tag t : Nat) (s : State),
     Tab.find? tag s.svc.quar = some t → t ≤ s.now + 1 →
     exec (.tagQuarantineExpiry tag) s = .next (s.sv (fun v => { v with quar := Tab.erase tag v.quar })).syncTags) ∧
  (∀ (offset : Fin 1024) (value : Nat) (s : State),
     s.svc.dstate ≠ 2 → s.svc.perstOff = false → s.svc.inReset = false → s.svc.flr = false →
     exec (.svcConfigRequest false offset value) s = .next (s.emit (.svcReply 0 0 (leBytes 4 (s.svcCfgRead offset)))) ∧ exec
       (.svcConfigRequest true offset value) s = .next ((s.svcCfgWrite offset (value % 2 ^ 32)).emit (.svcReply 0 0 []))) ∧
  (∀ (offset : Fin 134217728) (s : State),
     s.barOn = true → offset.val % 8 = 0 →
     exec (.bar0Read offset 8) s = .next ((s.emit (.svcReply 1 0 (cut 0 8 (leBytes 8 (s.barSlot (offset.val /
       8)))))).readClears (offset.val / 8))) ∧
  (∀ (offset : Fin 134217728) (data : DictData) (ph : Phys) (s : State),
     data.poisoned = false → s.barOn = true → s.dictOn = true → offset.val % 8 = 0 →
     (cardOf (offset.val / 8)).any (fun c => !c.dom) = true → s.checkOne (offset.val / 8) (data.value % 2 ^ 64) = none →
     offset.val / 8 / 256 ≠ 0x1410 → s.objWrite (offset.val / 8) (data.value % 2 ^ 64) ph = none →
     s.devWrite (offset.val / 8) (data.value % 2 ^ 64) ph = none →
     exec (.dictWrite offset 8 data ph) s = .next (s.storeWrite (offset.val / 8) (data.value % 2 ^ 64))) ∧
  (∀ (s : State),
     (s.svcReg (0x88 / 4)).testBit 10 = true → s.svcThere = true → s.svc.inReset = false → s.ltrNeeds = true →
     s.svc.ltr = false →
     exec .ltrSend s = .next ((s.sv (fun x => { x with ltr := true })).emit (.svcMsg 1 (2 ^ 64 + Nat.min (s.par P.svcLtrNs)
       (ltrNs (fld (s.svcReg (0x1F4 / 4)) 15 0)) * 2 ^ 32 + Nat.min (s.par P.svcLtrNs) (ltrNs (fld (s.svcReg (0x1F4 / 4)) 31
       16)))))) ∧
  (∀ (value : Nat) (s : State),
     s.takes P.svcAspmSupport value = true →
     exec (.aspmSupportWrite value) s = .next (s.setPar P.svcAspmSupport value))

/-- A powered device that has its reference leaves POWER_ON; VERIFY, BIST, TRAIN and RECORD end with their work; an image that
passes its checks starts to be programmed and is current once read back good; a key slot is erased, and loaded by an
authenticated session with two different keys; fw_stage takes the next bytes through the content window; diag_map_latch
shows the selected entry. Where the spec leaves points open the statement rests on the model's choices of log 9, 48, 49,
50, 51, 57 and 115. -/
def Obligations.BootAndFirmware : Prop :=
  (∀ (flashOk pufOk : Bool) (bist : List Nat) (remaps : List (Nat × Nat × Nat)) (dead : List Nat) (s : State),
     s.power.applied = true → s.power.tripped = false → s.dev = dsInit → s.boot.recovery = false → s.par P.bootPhase = 1 →
     s.power.refHold = false →
     exec (.bootPhaseEnd flashOk pufOk bist remaps dead) s = .next ((s.setPar P.bootPhase 2).setPar P.glodyPlcaId (1 +
       s.glody.slot))) ∧
  (∀ (flashOk pufOk : Bool) (bist : List Nat) (remaps : List (Nat × Nat × Nat)) (dead : List Nat) (s : State),
     s.power.applied = true → s.power.tripped = false → s.dev = dsInit → s.boot.recovery = false → s.par P.bootPhase = 2 →
     exec (.bootPhaseEnd flashOk pufOk bist remaps dead) s = .next (s.endVerify flashOk pufOk)) ∧
  (∀ (flashOk pufOk : Bool) (bist : List Nat) (remaps : List (Nat × Nat × Nat)) (dead : List Nat) (s : State),
     s.power.applied = true → s.power.tripped = false → s.dev = dsInit → s.boot.recovery = false → s.par P.bootPhase = 3 →
     exec (.bootPhaseEnd flashOk pufOk bist remaps dead) s = .next (s.endBist bist)) ∧
  (∀ (flashOk pufOk : Bool) (bist : List Nat) (remaps : List (Nat × Nat × Nat)) (dead : List Nat) (s : State),
     s.power.applied = true → s.power.tripped = false → s.dev = dsInit → s.boot.recovery = false → s.par P.bootPhase = 4 →
     exec (.bootPhaseEnd flashOk pufOk bist remaps dead) s = .next (s.endTrain remaps dead)) ∧
  (∀ (flashOk pufOk : Bool) (bist : List Nat) (remaps : List (Nat × Nat × Nat)) (dead : List Nat) (s : State),
     s.power.applied = true → s.power.tripped = false → s.dev = dsInit → s.boot.recovery = false → s.par P.bootPhase = 5 →
     exec (.bootPhaseEnd flashOk pufOk bist remaps dead) s = .next (s.setPar P.bootPhase 6)) ∧
  (∀ (flashOk pufOk : Bool) (bist : List Nat) (remaps : List (Nat × Nat × Nat)) (dead : List Nat) (s : State),
     s.power.applied = true → s.power.tripped = false → s.dev = dsInit → s.boot.recovery = false → s.par P.bootPhase = 6 →
     exec (.bootPhaseEnd flashOk pufOk bist remaps dead) s = .next (s.endRecord)) ∧
  (∀ (s : State),
     s.takes P.fwCommit 1 = true →
     (imageFails s.boot.owner s.boot.stage (s.par P.fwSvnFloor) = 0 → exec .fwCommit s = .next (((s.setPar P.fwUpdateState
       2).setPar P.fwUpdateBytes 0).modBoot (fun b => { b with image := [] }))) ∧ (imageFails s.boot.owner s.boot.stage (s.par
       P.fwSvnFloor) ≠ 0 → exec .fwCommit s = .next (s.setPar P.fwUpdateState 4))) ∧
  (∀ (s : State),
     s.par P.fwUpdateState = 2 →
     exec (.fwWriteComplete true) s = .next (((s.setPar P.fwUpdateBytes (imageBytes s.boot.stage).length).modBoot (fun b =>
       { b with image := imageBytes s.boot.stage })).setPar P.fwUpdateState 3)) ∧
  (∀ (slot : Fin 256) (s : State),
     s.takes (P.keyErase slot) 1 = true →
     exec (.keyErase slot) s = .next (((s.modBoot (fun b => { b with keys := Tab.erase slot.val b.keys })).setPar (P.keyState
       slot) 0).setPar (P.keyKcv slot) 0)) ∧
  (∀ (session : Nat) (slot : Fin 256) (key1 key2 : List Byte) (x : Session) (s : State),
     s.session session = some x → x.mauth = true → s.dev = dsStandby ∨ s.dev = dsService → s.warm = false →
     s.par (P.keyState slot) ≠ 1 → padTo 32 key1 ≠ padTo 32 key2 →
     exec (.keyLoad session slot key1 key2) s = .next ((((s.modBoot (fun b =>
       { b with keys := Tab.insert slot.val (padTo 32 key1 ++ padTo 32 key2) (Tab.erase slot.val b.keys) })).setPar (P.keyState
       slot) 1).setPar (P.keyKcv slot) (kcvOf (padTo 32 key1))).emit (.spdm session 0x7E [0]))) ∧
  (∀ (value : Nat) (slot : Fin 256) (s : State),
     s.barOn = true → s.dictOn = true → s.par P.domSelect = P.fwStage → s.par P.fwUpdateState ≠ 2 →
     s.par P.domOffset + 8 * slot.val = s.boot.stage.length → s.par P.domOffset + 8 * slot.val ≠ 0 →
     s.boot.stage.length + 8 ≤ 66060288 → (s.checkOne (P.domData slot) (value % 2 ^ 64)) = none →
     ∃ u, exec (.domDataWrite slot 8 value) s = .next u ∧ u.boot.stage = s.boot.stage ++ leBytes 8 (value % 2 ^ 64) ∧ u.mem =
       s.mem) ∧
  (∀ (value : Nat) (ph : Phys) (s : State),
     s.takes P.diagMapLatch (value % 2 ^ 64) = true → ph.mapPri = [] → ph.mapMir = [] →
     ∃ t, exec (.diagMapLatch 2 value ph) s = .next t ∧ (s.par P.diagMapCopy = 0 → s.par P.diagMapDpa < 2 ^ 42 → t.par
       P.diagMapLo + 2 ^ 64 * t.par P.diagMapHi = (Tab.getD 0 (s.par P.diagMapDpa / 4096) s.mem.mapPri).toNat) ∧ t.mem = s.mem)

/-- A new request in a session whose tag holds and whose sequence is higher than the last is executed, becomes the session's last
with its reply and is answered: READ, WRITE, READ_DOMAIN, WRITE_DOMAIN, DC_ADD, DC_RELEASE, KEEPALIVE; CLOSE closes the
session after its answer; an idle session closes; an unprotected request that is no READ is answered AUTH. Where the spec
leaves points open the statement rests on the model's choices of log 52 and 56. -/
def Obligations.GlodyRequests : Prop :=
  (∀ (session seq src : Nat) (x : GSession) (items : List (Fin 16777216)) (s : State),
     let s1 := s.wakeHub 17
     let r := (s1.spdmSeen session).gRead (items.map Fin.val)
     let ans := gReply 2 1 r.1 session seq src r.2.1
     let all := r.2.2.glody.sessions.filter (fun (y : GSession) => y.id != session) ++ [⟨session, seq, ans, r.2.2.now⟩]
     s.boot.recovery = false → s.gOn = true → s.warmShut = false → session ≠ 0 → s1.qualifies session = true →
     s1.glody.sessions.find? (fun x => x.id == session) = some x → x.last < seq → seq < 2 ^ 32 - 1 →
     exec (.glodyRead session seq true src items) s = .next (State.enqueue (State.setPar (r.2.2.modGlody (fun g =>
       { g with sessions := all })) P.glodySessions all.length) ans)) ∧
  (∀ (session seq src : Nat) (x : GSession) (items : List (Fin 16777216 × Nat)) (ph : Phys) (s : State),
     let s1 := s.wakeHub 17
     let r := (s1.spdmSeen session).gWrite (items.map (fun i => (i.1.val, i.2 % 2 ^ 64))) ph
     let ans := gReply 2 2 r.1 session seq src r.2.1
     let all := r.2.2.glody.sessions.filter (fun (y : GSession) => y.id != session) ++ [⟨session, seq, ans, r.2.2.now⟩]
     s.boot.recovery = false → s.gOn = true → s.warmShut = false → session ≠ 0 → s1.qualifies session = true →
     s1.glody.sessions.find? (fun x => x.id == session) = some x → x.last < seq → seq < 2 ^ 32 - 1 →
     exec (.glodyWrite session seq true src items ph) s = .next (State.enqueue (State.setPar (r.2.2.modGlody (fun g =>
       { g with sessions := all })) P.glodySessions all.length) ans)) ∧
  (∀ (session seq src : Nat) (x : GSession) (key : Fin 16777216) (offset length : Nat) (s : State),
     let s1 := s.wakeHub 17
     let r := (s1.spdmSeen session).gReadDomain key offset length
     let ans := gReply 2 3 r.1 session seq src r.2.1
     let all := r.2.2.glody.sessions.filter (fun (y : GSession) => y.id != session) ++ [⟨session, seq, ans, r.2.2.now⟩]
     s.boot.recovery = false → s.gOn = true → s.warmShut = false → session ≠ 0 → s1.qualifies session = true →
     s1.glody.sessions.find? (fun x => x.id == session) = some x → x.last < seq → seq < 2 ^ 32 - 1 →
     exec (.readDomain session seq true src key offset length) s = .next (State.enqueue (State.setPar (r.2.2.modGlody (fun g =>
       { g with sessions := all })) P.glodySessions all.length) ans)) ∧
  (∀ (session seq src : Nat) (x : GSession) (key : Fin 16777216) (offset : Nat) (bytes : List Byte) (s : State),
     let s1 := s.wakeHub 17
     let r := (s1.spdmSeen session).gWriteDomain key offset bytes
     let ans := gReply 2 4 r.1 session seq src r.2.1
     let all := r.2.2.glody.sessions.filter (fun (y : GSession) => y.id != session) ++ [⟨session, seq, ans, r.2.2.now⟩]
     s.boot.recovery = false → s.gOn = true → s.warmShut = false → session ≠ 0 → s1.qualifies session = true →
     s1.glody.sessions.find? (fun x => x.id == session) = some x → x.last < seq → seq < 2 ^ 32 - 1 →
     exec (.writeDomain session seq true src key offset bytes) s = .next (State.enqueue (State.setPar (r.2.2.modGlody (fun g =>
       { g with sessions := all })) P.glodySessions all.length) ans)) ∧
  (∀ (session seq src : Nat) (x : GSession) (port : Fin 16) (half : Fin 2) (ld : Fin 16) (count dpa : Nat) (s : State),
     let s1 := s.wakeHub 17
     let r := (s1.spdmSeen session).gDc true (ldOf port half ld) count dpa
     let ans := gReply 2 5 r.1 session seq src r.2.1
     let all := r.2.2.glody.sessions.filter (fun (y : GSession) => y.id != session) ++ [⟨session, seq, ans, r.2.2.now⟩]
     s.boot.recovery = false → s.gOn = true → s.warmShut = false → session ≠ 0 → s1.qualifies session = true →
     s1.glody.sessions.find? (fun x => x.id == session) = some x → x.last < seq → seq < 2 ^ 32 - 1 →
     exec (.dcAdd session seq true src port half ld count dpa) s = .next (State.enqueue (State.setPar (r.2.2.modGlody (fun g =>
       { g with sessions := all })) P.glodySessions all.length) ans)) ∧
  (∀ (session seq src : Nat) (x : GSession) (port : Fin 16) (half : Fin 2) (ld : Fin 16) (count dpa : Nat) (s : State),
     let s1 := s.wakeHub 17
     let r := (s1.spdmSeen session).gDc false (ldOf port half ld) count dpa
     let ans := gReply 2 6 r.1 session seq src r.2.1
     let all := r.2.2.glody.sessions.filter (fun (y : GSession) => y.id != session) ++ [⟨session, seq, ans, r.2.2.now⟩]
     s.boot.recovery = false → s.gOn = true → s.warmShut = false → session ≠ 0 → s1.qualifies session = true →
     s1.glody.sessions.find? (fun x => x.id == session) = some x → x.last < seq → seq < 2 ^ 32 - 1 →
     exec (.dcRelease session seq true src port half ld count dpa) s = .next (State.enqueue (State.setPar (r.2.2.modGlody (fun
       g => { g with sessions := all })) P.glodySessions all.length) ans)) ∧
  (∀ (session seq src : Nat) (x : GSession) (s : State),
     let s1 := s.wakeHub 17
     s.boot.recovery = false → s.gOn = true → s.warmShut = false → session ≠ 0 → s1.qualifies session = true →
     s1.glody.sessions.find? (fun x => x.id == session) = some x → x.last < seq → seq < 2 ^ 32 - 1 →
     ∃ t, exec (.keepalive session seq true src) s = .next t ∧ (t.glody.sessions.find? (fun y => y.id == session)).map
       GSession.last = some seq ∧ t.mem = s.mem) ∧
  (∀ (session seq src : Nat) (x : GSession) (s : State),
     let s1 := s.wakeHub 17
     s.boot.recovery = false → s.gOn = true → s.warmShut = false → session ≠ 0 → s1.qualifies session = true →
     s1.glody.sessions.find? (fun x => x.id == session) = some x → x.last < seq → seq < 2 ^ 32 - 1 →
     ∃ t, exec (.closeSession session seq true src) s = .next t ∧ t.glody.sessions.find? (fun y => y.id == session) = none ∧
       t.mem = s.mem) ∧
  (∀ (session : Nat) (x : GSession) (s : State),
     s.glody.sessions.find? (fun x => x.id == session) = some x → x.used + msT (s.par P.glodySessionIdleMs) ≤ s.now →
     exec (.glodySessionIdleExpiry session) s = .next (s.gClose session)) ∧
  (∀ (session seq : Nat) (op : Fin 256) (src : Nat) (s : State),
     s.boot.recovery = false → s.gOn = true → op ≠ 1 →
     exec (.glodyDatagramDrop 2 session seq op src) s = .next ((s.wakeHub 17).gError op gAuth seq src))

/-- SPDM requests are answered; MCTP packets to this endpoint wake the hub; an endpoint ID in range is taken; in RECOVERY a
loader transfer begins, takes its next bytes, ends with its checks and times out; a due repeat, an announcement and the
head of the transmit queue are sent; beacon, neighbor solicitation and ENTDAA are answered. Where the spec leaves points
open the statement rests on the model's choices of log 16, 52, 53, 54, 55 and 56. -/
def Obligations.ManagementTraffic : Prop :=
  (∀ (session : Nat) (nonce : List Byte) (s : State),
     s.spdmOn = true →
     exec (.spdmGetMeasurements session 0 false nonce) s = .next ((s.spdmSeen session).emit (.spdm session 0x60 (leBytes 1 6 ++
       padTo 32 nonce)))) ∧
  (∀ (id : Nat) (mauth : Bool) (transport : Fin 3) (heartbeat : Nat) (s : State),
     s.spdmOn = true → s.boot.sessions.length < 4 → s.session id = none →
     ∃ t, exec (.spdmKeyExchange id mauth transport heartbeat) s = .next t ∧ t.boot.sessions = s.boot.sessions ++
       [{ id := id, mauth := mauth, transport := transport, beat := msT (1000 * heartbeat), seen := s.now }] ∧ t.dict = s.dict
       ∧ t.mem = s.mem) ∧
  (∀ (session : Nat) (code : Fin 256) (payload : List Byte) (s : State),
     s.spdmOn = true → spdmAbsent code = false → 0x81 ≤ code.val → code ≠ 0xEC →
     ∃ d, exec (.spdmRequest session code payload) s = .next ((s.spdmSeen session).freeNext.emit (.spdm session (code.val %
       128) d))) ∧
  (∀ (session : Nat) (x : Session) (s : State),
     s.session session = some x → x.beat ≠ 0 → x.seen + x.beat ≤ s.now →
     exec (.spdmHeartbeatTimeout session) s = .next (s.spdmEnd session)) ∧
  (∀ (eid length : Nat) (s : State),
     s.glody.eid = none ∨ s.glody.eid = some eid ∨ eid = 0 →
     exec (.mctpPacket false eid length) s = .next (s.wakeHub 17)) ∧
  (∀ (eid : Fin 256) (s : State),
     8 ≤ eid.val → eid.val ≤ 254 →
     exec (.setEndpointId eid) s = .next ((s.modGlody (fun g => { g with eid := some eid.val })).emit (.spdm 0 1 [0,
       BitVec.ofNat 8 eid]))) ∧
  (∀ (source seq length : Nat) (s : State),
     s.boot.recovery = true → s.glody.loader.busy = false → length ≤ areaSize 3 →
     exec (.beginOp source seq 3 length) s = .next (((s.modBoot (fun b => b.setArea 3 [])).modGlody (fun g =>
       { g with loader := { busy := true, source := source, object := 3, length := length, next := 0, prev := 0, used := s.now } })).lReply
       1 gOk seq source [])) ∧
  (∀ (source seq offset : Nat) (bytes : List Byte) (s : State),
     s.boot.recovery = true → s.loads source = true → bytes ≠ [] → bytes.length ≤ 1024 → offset = s.glody.loader.next →
     offset + bytes.length ≤ s.glody.loader.length →
     ∃ t, exec (.dataOp source seq offset bytes) s = .next t ∧ t.boot.area s.glody.loader.object = s.boot.area
       s.glody.loader.object ++ bytes ∧ t.glody.loader.next = offset + bytes.length ∧ t.mem = s.mem) ∧
  (∀ (source seq : Nat) (s : State),
     let u := (s.modGlody (fun g => { g with loader := default })).lReply 3 (if s.boot.objFails s.glody.loader.object = 0 then
       gOk else 0x14) seq source (leBytes 1 (s.boot.objFails s.glody.loader.object))
     s.boot.recovery = true → s.loads source = true →
     exec (.endOp source seq) s = .next (if u.boot.fails = 0 then u.restart else u)) ∧
  (∀ (s : State),
     s.glody.loader.busy = true → s.glody.loader.used + msT 10000 ≤ s.now →
     exec .loaderTransferTimeout s = .next (s.modGlody (fun g => { g with loader := default }))) ∧
  (∀ (t : Nat) (d : Datagram) (rest : List (Nat × Datagram)) (s : State),
     s.glody.again = (t, d) :: rest → t ≤ s.now →
     exec .noticeRepeat s = .next ((s.modGlody (fun g => { g with again := rest })).enqueue d)) ∧
  (∀ (d : Datagram) (s : State),
     headOfTx s.glody.txq = some d → d.flags / 2 % 2 = 0 →
     exec .glodyTransmit s = .next ((s.modGlody (fun g => { g with txq := dropOldest d.prio g.txq })).emit (.glody d.dest d
       []))) ∧
  (∀ (s : State),
     s.named = true → s.boot.recovery = false → s.glody.announced + msT (1000 * s.par P.glodyAnnounceS) ≤ s.now →
     exec .announce s = .next ((s.modGlody (fun g => { g with announced := s.now })).enqueue
       { prio := 4, type := 4, op := 0, flags := if s.boot.aliasKey then 2 else 0, status := 0, session := 0, seq := 0, payload := s.announcement })) ∧
  (∀ (s : State),
     s.par P.glodyPlcaCoord = 1 → s.named = true →
     exec .plcaBeacon s = .next (s.emit (.frame 0 (s.par P.glodyPlcaCount)))) ∧
  (∀ (present : Bool) (s : State),
     s.par P.glodyPlcaCoord ≠ 1 →
     exec (.plcaBeaconStatusChange present) s = .next (s.modGlody (fun g => { g with beacon := present }))) ∧
  (∀ (s : State),
     s.named = true →
     exec (.neighborSolicitation devId) s = .next (s.emit (.frame 1 (0x02 * 2 ^ 40 + devId % 2 ^ 40)))) ∧
  (∀ (address : Fin 128) (s : State),
     s.power.applied = true → 2 ≤ s.par P.bootPhase →
     ∃ d, exec (.i3cDynamicAddressAssignment address) s = .next ((s.modGlody (fun g =>
       { g with i3cAddr := some address.val })).emit (.i3c d)) ∧ d.length = 6)

/-- An idle region that may enters S1, then S2 with its stacks in self-refresh, the device S3; a wake cause queues the wakes a
region needs; a granted wake spends its tokens and starts; a PLL that locks and a restored hub go on; a tolerance is stored
and ends states that no longer fit; the governor takes a sample; an input out of range raises SAFE and a good one ends the
cause; a lost clock raises SAFE; a cold power-up begins at POWER_ON with the flash alone kept; a collapse leaves the flash;
a thermal trip switches the device off. Where the spec leaves points open the statement rests on the model's choices of log
3, 45, 58 and 116. -/
def Obligations.PowerAndInputs : Prop :=
  (∀ (region : Fin 4) (s : State),
     s.s1Ready region = true →
     exec (.powerS1Entry region) s = .next (((s.setPar (P.pwrRegionState region) 1).busy region).setPwrState)) ∧
  (∀ (region : Fin 4) (s : State),
     s.s2Ready region = true → [0, 1, 2, 3].all (fun r => r == region.val || !s.s2Ready r) = true →
     exec (.powerS2Entry region) s = .next (((forAll (fun k s => if s.par (P.mcSrState k) = 2 then s.setPar (P.mcSrState k) 4
       else s) (regionStacks region) (s.setPar (P.pwrRegionState region) 2)).pw (fun p =>
       { p with s2At := Tab.set region.val s.now p.s2At, allS2 := s.now })).setPwrState)) ∧
  (∀ (s : State),
     s.pwrFree = true → s.power.hubOff = false → [0, 1, 2, 3].all (fun q => s.par (P.pwrRegionState q) == 2) = true →
     s.power.allS2 + msT (s.par P.pwrS3IdleMs) ≤ s.now → s.glody.sessions = [] → 3 ≤ s.par P.pwrMaxState →
     2000000 ≤ s.tolerance →
     exec (.powerS3Entry true true) s = .next (s.pw (fun p => { p with hubOff := true })).setPwrState) ∧
  (∀ (cause : Fin 18) (region : Fin 4) (s : State),
     exec (.wakeCause cause region) s = .next (s.wakeRegion cause region)) ∧
  (∀ (ph : Phys) (w : Wake) (ws : List Wake) (s : State),
     s.power.queue = w :: ws → s.wakeLive w = true → w.kind ≠ 2 → wakeCost w ≤ s.par P.wkHeld →
     exec (.wakeGrant ph) s = .next (((((s.pw (fun p => { p with queue := ws })).countWakes).spendWake (wakeCost w)).wakeStarts
       w).retryHub ph)) ∧
  (∀ (region : Fin 4) (ph : Phys) (s : State),
     Tab.get region.val s.power.exiting = 1 →
     exec (.pllLock region ph) s = .next (((forAll (fun k s => if Tab.get k s.power.granted && s.par (P.mcSrState k) == srSelf
       then s.setPar (P.mcSrState k) srExiting else s) (regionStacks region) (s.pw (fun p =>
       { p with exiting := Tab.set region.val 2 p.exiting }))).regionCheck region).retryHub ph)) ∧
  (∀ (ph : Phys) (s : State),
     s.power.hubBusy = true →
     exec (.hubRestoreComplete ph) s = .next (((s.pw (fun p =>
       { p with hubOff := false, hubBusy := false })).setPwrState).retryHub ph)) ∧
  (∀ (value : Nat) (s : State),
     s.takes P.pwrDefaultTolNs value = true →
     exec (.latencyToleranceWrite 17 value) s = .next ((s.setPar P.pwrDefaultTolNs value).tolExits)) ∧
  (∀ (port : Fin 16) (value : Nat) (s : State),
     s.takes (P.portLatTolNs port) value = true →
     exec (.latencyToleranceWrite ⟨port.val, Nat.lt_trans port.isLt (by decide)⟩ value) s = .next ((s.setPar (P.portLatTolNs
       port) value).tolExits)) ∧
  (∀ (watts : Nat) (s : State),
     exec (.governorSample watts) s = .next (s.govern watts) ∧ (s.govern watts).power.throttle ≤ Nat.max 15 s.power.throttle) ∧
  (∀ (millivolts : Nat) (s : State),
     s.power.applied = true → millivolts < 29000 ∨ 40500 < millivolts →
     exec (.inputOutOfRange millivolts) s = .next (((s.setPar P.pwrInputMv millivolts).pw (fun p =>
       { p with inputBad := true })).raiseSafe 9)) ∧
  (∀ (millivolts : Nat) (s : State),
     s.power.inputBad = true → 30000 ≤ millivolts → millivolts ≤ 40000 →
     ∃ t, exec (.inputRestored millivolts) s = .next t ∧ t.power.inputBad = false ∧ t.par P.pwrInputMv = millivolts ∧ t.mem =
       s.mem) ∧
  (∀ (s : State),
     s.power.refLost = false →
     exec .refclkLost s = .next ((s.pw (fun p => { p with refLost := true })).raiseSafe 10)) ∧
  (∀ (s : State),
     s.power.refLost = true →
     ∃ t, exec .refclkRestored s = .next t ∧ t.power.refLost = false ∧ t.dict = s.dict ∧ t.mem = s.mem) ∧
  (∀ (s : State),
     s.power.refHold = true →
     ∃ t, exec .refclkStable s = .next t ∧ t.power.refHold = false ∧ t.boot.startAt = s.now ∧ t.dict = s.dict ∧ t.mem = s.mem) ∧
  (∀ (s : State),
     ∃ t, exec .inputCollapse s = .next t ∧ t.boot.keyBlock = s.boot.keyBlock ∧ t.boot.config = s.boot.config ∧ t.boot.recA =
       s.boot.recA ∧ t.boot.recB = s.boot.recB ∧ t.boot.keys = [] ∧ t.mem = State.reset.mem ∧ t.dict = State.reset.dict ∧
       t.power = { State.reset.power with tripped := s.power.tripped }) ∧
  (∀ (millivolts : Nat) (slot : Fin 8) (refStable : Bool) (s : State),
     s.power.applied = false → s.power.tripped = false → 30000 ≤ millivolts → millivolts < 65536 →
     ∃ t, exec (.powerInputApplied millivolts slot refStable) s = .next t ∧ t.power.applied = true ∧ t.par P.bootPhase = 1 ∧
       t.par P.pwrInputMv = millivolts ∧ t.mem = State.reset.mem ∧ t.boot.recA = s.boot.recA) ∧
  (∀ (unit : Nat) (celsius : Int) (s : State),
     s.power.applied = true → s.power.tripped = false →
     ∃ t, exec (.thermalTrip unit celsius) s = .next t ∧ t.power.tripped = true ∧ t.dev = dsOut ∧ t.mem = State.reset.mem ∧
       t.now = s.now)

/-- For every command c, whenever exec answers a next state, every part of the state that touches c does not name holds what it
held before: the dictionary, every byte of HBM, every byte of the T0 staging windows, and each other part of the machine. -/
def Obligations.Frames : Prop :=
  ∀ (c : Instr) (p : Part) (s t : State),
    exec c s = .next t → p ∉ touches c →
    p.same s t

/-- Due after 25 µs, WAKE_TOKEN_TICK issues one token, into the bucket while it holds fewer than 40 and as expired at 40, and
writes no other parameter; before that it changes nothing. A clock start of a region or of the hub costs 6 tokens and the
self-refresh exit of a stack 4. With the 40 tokens of the cold bucket counted as held from the start, the reading of log
46, tokens issued + 40 = held + spent + expired survives the tick and the spending of a granted wake while no count wraps. -/
def Obligations.WakeTokens : Prop :=
  (∀ (s : State),
     s.power.tokenAt + usT 25 ≤ s.now → s.par P.wkHeld < 40 →
     exec .wakeTokenTick s = .next (((s.pw (fun p => { p with tokenAt := s.now })).count P.wkIssued 1).count P.wkHeld 1)) ∧
  (∀ (s : State),
     s.power.tokenAt + usT 25 ≤ s.now → 40 ≤ s.par P.wkHeld →
     exec .wakeTokenTick s = .next (((s.pw (fun p => { p with tokenAt := s.now })).count P.wkIssued 1).count P.wkExpired 1)) ∧
  (∀ (s : State),
     s.now < s.power.tokenAt + usT 25 →
     exec .wakeTokenTick s = .next s) ∧
  (∀ (s : State),
     s.Canonical → s.par P.wkIssued + 1 < 2 ^ 64 → s.par P.wkExpired + 1 < 2 ^ 64 → s.par P.wkHeld ≤ 40 →
     s.par P.wkIssued + 40 = s.par P.wkHeld + s.par P.wkSpent + s.par P.wkExpired →
     ∃ t, exec .wakeTokenTick s = .next t ∧ t.par P.wkIssued + 40 = t.par P.wkHeld + t.par P.wkSpent + t.par P.wkExpired ∧
       t.par P.wkHeld ≤ 40 ∧ ∀ k, k ≠ P.wkIssued → k ≠ P.wkHeld → k ≠ P.wkExpired → t.par k = s.par k) ∧
  (∀ (s : State) (n : Nat),
     s.Canonical → n ≤ s.par P.wkHeld → s.par P.wkSpent + n < 2 ^ 64 → s.par P.wkHeld ≤ 40 →
     s.par P.wkIssued + 40 = s.par P.wkHeld + s.par P.wkSpent + s.par P.wkExpired →
     (s.spendWake n).par P.wkIssued + 40 = (s.spendWake n).par P.wkHeld + (s.spendWake n).par P.wkSpent + (s.spendWake n).par
       P.wkExpired ∧ (s.spendWake n).par P.wkHeld = s.par P.wkHeld - n ∧ (s.spendWake n).par P.wkSpent = s.par P.wkSpent + n) ∧
  (∀ (w : Wake),
     w.kind ≤ 2 →
     wakeCost w = if w.kind = 0 then 6 else if w.kind = 1 then 6 else 4)

/-- For every width the ordered-integer map is a bijection between the patterns and the signed integers of that width: +0 maps to
0 and −0 to −1, positive patterns rise from 0, negative ones fall from −1. For each of the six formats, either policy, any
product sum and exponent and any original pattern, the element delivered with the EXACT residual d = ord(x) − ord(rnd(P)),
modulo 2^Wb, is the original pattern. -/
def Obligations.ExactResidualRestores : Prop :=
  (∀ (wb p : Nat),
     1 ≤ wb → p < 2 ^ wb →
     ordOf wb p = (if p < 2 ^ (wb - 1) then (p : Int) else (2 ^ (wb - 1) : Int) - 1 - p) ∧ unordOf wb (ordOf wb p) = p) ∧
  (∀ (wb : Nat) (o : Int),
     1 ≤ wb → -(2 ^ (wb - 1) : Int) ≤ o → o < 2 ^ (wb - 1) →
     ordOf wb (unordOf wb o) = o ∧ unordOf wb o < 2 ^ wb) ∧
  (∀ (wb p q : Nat),
     1 ≤ wb → p < q → q < 2 ^ wb →
     (q < 2 ^ (wb - 1) → ordOf wb p < ordOf wb q) ∧ (2 ^ (wb - 1) ≤ p → ordOf wb q < ordOf wb p) ∧ ordOf wb 0 = 0 ∧ ordOf wb (2
       ^ (wb - 1)) = -1) ∧
  (∀ (code x : Nat) (pol : Bool) (sum e eps : Int),
     code < 6 → x < 2 ^ (8 * (fmtOf code).bytes) →
     (exactResidual (fmtOf code) pol sum e x : Int) = (ordOf (8 * (fmtOf code).bytes) x - ordOf (8 * (fmtOf code).bytes)
       ((fmtOf code).roundInt pol sum e).1) % 2 ^ (8 * (fmtOf code).bytes) ∧ deliver (fmtOf code) pol sum e 0 eps
       (exactResidual (fmtOf code) pol sum e x) = (x, false))

/-- Every contribution raises count by 1 and sets not_neg_zero unless it is −0. A NaN sets nan and an infinity its flag, and
neither touches acc. A finite contribution in a format other than FP64 adds its exact multiple of 2^−149. An FP64
contribution is rounded to a multiple of 2^a, inexact where bits lay below it, and at 2^277 such multiples or more sets its
over flag and leaves acc. Two contributions have one effect in either order. -/
def Obligations.ContributionEffect : Prop :=
  (∀ (f : Fmt) (a : Int) (x : Nat) (u : SupAcc),
     f.value x = .nan →
     SupAcc.add f a x u = { u with count := u.count + 1, notNegZero := true, nan := true }) ∧
  (∀ (f : Fmt) (a : Int) (x : Nat) (sg : Bool) (u : SupAcc),
     f.value x = .inf sg →
     SupAcc.add f a x u =
       { u with count := u.count + 1, notNegZero := true, posInf := u.posInf || !sg, negInf := u.negInf || sg }) ∧
  (∀ (code x m : Nat) (e : Int) (sg : Bool) (u : SupAcc),
     1 ≤ code → code < 6 → (fmtOf code).value x = .fin sg m e →
     -(2 ^ 293 : Int) ≤ u.acc + (if sg then -1 else 1) * (m * 2 ^ (e + 149).toNat) →
     u.acc + (if sg then -1 else 1) * (m * 2 ^ (e + 149).toNat) < (2 ^ 293 : Int) →
     -149 ≤ e ∧ SupAcc.add (fmtOf code) (-149) x u =
       { u with count := u.count + 1, notNegZero := u.notNegZero || !(sg && m == 0), acc := u.acc + (if sg then -1 else 1) * (m * 2 ^ (e + 149).toNat) }) ∧
  (∀ (a : Int) (x m : Nat) (e : Int) (sg : Bool) (u : SupAcc),
     fp64.value x = .fin sg m e → rne m (e - a) < 2 ^ 277 → -(2 ^ 293 : Int) ≤ u.acc + (if sg then -1 else 1) * rne m (e - a) →
     u.acc + (if sg then -1 else 1) * rne m (e - a) < (2 ^ 293 : Int) →
     SupAcc.add fp64 a x u =
       { u with count := u.count + 1, notNegZero := u.notNegZero || !(sg && m == 0), inexact := u.inexact || decide (e < a ∧ ¬ 2 ^ (a - e).toNat ∣ m), acc := u.acc + (if sg then -1 else 1) * rne m (e - a) }) ∧
  (∀ (a : Int) (x m : Nat) (e : Int) (sg : Bool) (u : SupAcc),
     fp64.value x = .fin sg m e → 2 ^ 277 ≤ rne m (e - a) →
     SupAcc.add fp64 a x u =
       { u with count := u.count + 1, notNegZero := u.notNegZero || !(sg && m == 0), inexact := u.inexact || decide (e < a ∧ ¬ 2 ^ (a - e).toNat ∣ m), posOver := u.posOver || !sg, negOver := u.negOver || sg }) ∧
  (∀ (m : Nat) (k : Nat),
     2 * (rne m (-(k : Int)) * 2 ^ k) ≤ 2 * m + 2 ^ k ∧ 2 * m ≤ 2 * (rne m (-(k : Int)) * 2 ^ k) + 2 ^ k ∧ (2 * (m % 2 ^ k) = 2
       ^ k → rne m (-(k : Int)) % 2 = 0)) ∧
  (∀ (f : Fmt) (a : Int) (x y : Nat) (u : SupAcc),
     SupAcc.add f a x (SupAcc.add f a y u) = SupAcc.add f a y (SupAcc.add f a x u))

/-- Whatever the format and anchor, from any superaccumulator, two orders of one multiset of contributions leave the same
superaccumulator and so round to the same pattern; and two lists added to the elements of a tile from any positions leave
every element with the same superaccumulator in either order. -/
def Obligations.ReductionOrderFree : Prop :=
  (∀ (f g : Fmt) (pol : Bool) (a : Int) (xs ys : List Nat) (u : SupAcc),
     xs.Perm ys →
     xs.foldl (fun v x => SupAcc.add f a x v) u = ys.foldl (fun v x => SupAcc.add f a x v) u ∧ SupAcc.final g pol a (xs.foldl
       (fun v x => SupAcc.add f a x v) u) = SupAcc.final g pol a (ys.foldl (fun v x => SupAcc.add f a x v) u)) ∧
  (∀ (f : Fmt) (a : Int) (i j k : Nat) (xs ys : List (Nat × Bool)) (t : Tab SupAcc),
     Tab.get k (addAll f a i xs (addAll f a j ys t)) = Tab.get k (addAll f a j ys (addAll f a i xs t)))

/-- For each of the six formats, a nonzero y = X × 2^e at or beyond the format's threshold of R130 (beyond it for E4M3) rounds to
overflow: ±max finite under policy 0 and ±infinity under policy 1, for E4M3 ±448 and the NaN with the sign of y, counted;
any other y rounds, uncounted and under either policy alike, to a pattern of finite magnitude with the sign of y. -/
def Obligations.OverflowResult : Prop :=
  (∀ (code : Nat) (pol : Bool) (x e : Int),
     let th : Nat := (if code = 0 then 2 ^ 1024 - 2 ^ 970 else if code = 1 then 2 ^ 128 - 2 ^ 103 else if code = 2 then 2 ^ 128
       - 2 ^ 119 else if code = 3 then 65520 else if code = 4 then 464 else 61440)
     let pt : Nat × Nat := (if code = 0 then (0x7FEFFFFFFFFFFFFF, 0x7FF0000000000000) else if code = 1 then (0x7F7FFFFF,
       0x7F800000) else if code = 2 then (0x7F7F, 0x7F80) else if code = 3 then (0x7BFF, 0x7C00) else if code = 4 then (0x7E,
       0x7F) else (0x7B, 0x7C))
     code < 6 → x ≠ 0 →
     if code = 4 then th * 2 ^ (-e).toNat < x.natAbs * 2 ^ e.toNat else th * 2 ^ (-e).toNat ≤ x.natAbs * 2 ^ e.toNat →
     (fmtOf code).roundInt pol x e = ((if x < 0 then 2 ^ (8 * (fmtOf code).bytes - 1) else 0) + (if pol then pt.2 else pt.1),
       true)) ∧
  (∀ (code : Nat) (x e : Int),
     let th : Nat := (if code = 0 then 2 ^ 1024 - 2 ^ 970 else if code = 1 then 2 ^ 128 - 2 ^ 103 else if code = 2 then 2 ^ 128
       - 2 ^ 119 else if code = 3 then 65520 else if code = 4 then 464 else 61440)
     let pt : Nat × Nat := (if code = 0 then (0x7FEFFFFFFFFFFFFF, 0x7FF0000000000000) else if code = 1 then (0x7F7FFFFF,
       0x7F800000) else if code = 2 then (0x7F7F, 0x7F80) else if code = 3 then (0x7BFF, 0x7C00) else if code = 4 then (0x7E,
       0x7F) else (0x7B, 0x7C))
     code < 6 → x ≠ 0 →
     if code = 4 then x.natAbs * 2 ^ e.toNat ≤ th * 2 ^ (-e).toNat else x.natAbs * 2 ^ e.toNat < th * 2 ^ (-e).toNat →
     ∃ n, n ≤ pt.1 ∧ ∀ pol, (fmtOf code).roundInt pol x e = ((if x < 0 then 2 ^ (8 * (fmtOf code).bytes - 1) else 0) + n,
       false))

/-- The tweak of a block is its 30-bit block number shifted up by 20, with the version below; bits 127 to 50 are zero; it enters
the cipher as a 16-byte little-endian integer. No two pairs of block and version share a tweak, and after n commits of one
block its tweak is the same exactly where 1,048,576 divides n. -/
def Obligations.BlockTweak : Prop :=
  (∀ (dpa ver : Nat),
     dpa < 2 ^ 42 → ver < 2 ^ 20 →
     blockTweak (dpa / 2 ^ 12) ver = ((dpa / 2 ^ 12) <<< 20) ||| ver ∧ blockTweak (dpa / 2 ^ 12) ver < 2 ^ 50 ∧ dpa / 2 ^ 12 <
       2 ^ 30) ∧
  (∀ (b c v w : Nat),
     v < 2 ^ 20 → w < 2 ^ 20 → blockTweak b v = blockTweak c w →
     b = c ∧ v = w) ∧
  (∀ (b v n : Nat),
     v < 2 ^ 20 →
     blockTweak b ((v + n) % 2 ^ 20) = blockTweak b v ↔ 1048576 ∣ n) ∧
  (∀ (b v k : Nat) (d : List Byte) (s : State),
     s.encSlot b = some k →
     s.encBlock b v d = xtsUnits (aesEnc (roundKeys ((s.keyOf k).take 32))) (d.length / 16) (aesEnc (roundKeys ((s.keyOf
       k).drop 32)) (leBytes 16 (blockTweak b v))) d)

/-- The one CRC-16 has polynomial 0x1021, initial value 0xFFFF, no reflection and no final XOR, each byte entering most
significant bit first, and gives 0x29B1 for the nine ASCII digits. map_check covers bytes 2 to 15 of the entry and, for an
entry whose block carries a header, the two bytes of its hdr_crc, lower first; a header holds the same CRC of its bytes 0
to 13. An all-zero entry is exempt. An entry of legal fields reads back from its word, with the check it was sealed with. -/
def Obligations.MapCheck : Prop :=
  (∀ (bs : List Byte),
     crc16 bs = (bs.flatMap (fun b => (List.range 8).map b.getMsbD)).foldl (fun (c : BitVec 16) b => if c.msb ^^ b then (c <<<
       1) ^^^ 0x1021#16 else c <<< 1) 0xFFFF#16) ∧
  (crc16 [0x31, 0x32, 0x33, 0x34, 0x35, 0x36, 0x37, 0x38, 0x39] = 0x29B1#16) ∧
  (∀ (w : MapWord) (h : Nat),
     mapCheckOk w h = (w == 0 || fld w.toNat 15 0 == (crc16 ((leBytes 16 w.toNat).drop 2 ++ if (fld w.toNat 18 16 = 2 ∨ fld
       w.toNat 18 16 = 3) ∧ 2 ≤ fld w.toNat 22 19 then leBytes 2 h else [])).toNat)) ∧
  (∀ (codec len : Nat) (b : List Byte) (subs : List Nat),
     headerFail codec len b subs = some fHdrCrc ↔ hdrCrcOf b ≠ (crc16 (b.take 14)).toNat) ∧
  (∀ (e : MapEntry) (h : Nat),
     e.resv < 2 ^ 36 → e.ver < 2 ^ 20 → e.keySlot < 2 ^ 8 → e.addr < 2 ^ 36 → e.len < 2 ^ 5 → e.codec < 2 ^ 4 →
     e.state < 2 ^ 3 →
     entryOf (entryWord (e.sealed h)) = e.sealed h ∧ mapCheckOk (entryWord (e.sealed h)) h = true)

/-- Without a session a READ is executed and answered while glody_read_open is 1, in a normal state and while no warm reset runs;
a READ while it is 0 and every other request has no effect but an unprotected reply with status AUTH. Once 10 unprotected
error replies have been sent in a second, a further one is dropped. -/
def Obligations.UnprotectedRequests : Prop :=
  (∀ (seq : Nat) (tagOk : Bool) (src : Nat) (items : List (Fin 16777216)) (s : State),
     let r := (s.wakeHub 17).gRead (items.map Fin.val)
     s.boot.recovery = false → s.gOn = true → s.warmShut = false → (s.wakeHub 17).par P.glodyReadOpen = 1 →
     exec (.glodyRead 0 seq tagOk src items) s = .next (r.2.2.enqueue (gReply 2 1 r.1 0 seq src r.2.1))) ∧
  (∀ (seq : Nat) (tagOk : Bool) (src : Nat) (items : List (Fin 16777216)) (s : State),
     s.boot.recovery = false → s.gOn = true → (s.wakeHub 17).par P.glodyReadOpen ≠ 1 →
     exec (.glodyRead 0 seq tagOk src items) s = .next ((s.wakeHub 17).gError 1 0x10 seq src)) ∧
  (∀ (seq : Nat) (tagOk : Bool) (src : Nat) (items : List (Fin 16777216 × Nat)) (ph : Phys) (s : State),
     s.boot.recovery = false → s.gOn = true →
     exec (.glodyWrite 0 seq tagOk src items ph) s = .next ((s.wakeHub 17).gError 2 0x10 seq src)) ∧
  (∀ (seq : Nat) (tagOk : Bool) (src : Nat) (key : Fin 16777216) (offset length : Nat) (s : State),
     s.boot.recovery = false → s.gOn = true →
     exec (.readDomain 0 seq tagOk src key offset length) s = .next ((s.wakeHub 17).gError 3 0x10 seq src)) ∧
  (∀ (seq : Nat) (tagOk : Bool) (src : Nat) (key : Fin 16777216) (offset : Nat) (bytes : List Byte) (s : State),
     s.boot.recovery = false → s.gOn = true →
     exec (.writeDomain 0 seq tagOk src key offset bytes) s = .next ((s.wakeHub 17).gError 4 0x10 seq src)) ∧
  (∀ (seq : Nat) (tagOk : Bool) (src : Nat) (port : Fin 16) (half : Fin 2) (ld : Fin 16) (count dpa : Nat) (s : State),
     s.boot.recovery = false → s.gOn = true →
     exec (.dcAdd 0 seq tagOk src port half ld count dpa) s = .next ((s.wakeHub 17).gError 5 0x10 seq src)) ∧
  (∀ (seq : Nat) (tagOk : Bool) (src : Nat) (port : Fin 16) (half : Fin 2) (ld : Fin 16) (count dpa : Nat) (s : State),
     s.boot.recovery = false → s.gOn = true →
     exec (.dcRelease 0 seq tagOk src port half ld count dpa) s = .next ((s.wakeHub 17).gError 6 0x10 seq src)) ∧
  (∀ (seq : Nat) (tagOk : Bool) (src : Nat) (s : State),
     s.boot.recovery = false → s.gOn = true →
     exec (.keepalive 0 seq tagOk src) s = .next ((s.wakeHub 17).gError 7 0x10 seq src)) ∧
  (∀ (seq : Nat) (tagOk : Bool) (src : Nat) (s : State),
     s.boot.recovery = false → s.gOn = true →
     exec (.closeSession 0 seq tagOk src) s = .next ((s.wakeHub 17).gError 8 0x10 seq src)) ∧
  (∀ (op seq src : Nat) (s : State),
     let fr := decide (s.glody.errStart + msT 1000 ≤ s.now ∨ s.glody.errSent = 0)
     s.glody.errStart + msT 1000 ≤ s.now ∨ s.glody.errSent < 10 →
     (s.gError op 0x10 seq src) = ((s.modGlody (fun g =>
       { g with errStart := if fr then s.now else s.glody.errStart, errSent := (if fr then 0 else s.glody.errSent) + 1 })).enqueue
       { prio := 2, type := 2, op := op, flags := 0, status := 0x10, session := 0, seq := seq, payload := [], dest := src + 1 })) ∧
  (∀ (op seq src : Nat) (s : State),
     s.now < s.glody.errStart + msT 1000 → 10 ≤ s.glody.errSent →
     (s.gError op 0x10 seq src) = s)

/-- In a COHERENT shared region, a CXL.mem write that passes its checks and that the directory does not show its HID to hold in E
stores nothing: no memory, no map entry and no directory entry changes beyond what acceptance itself did; share_stray_wb
counts one, a General Media record and a Glody notice naming the HID go out, and the write completes at its port while its
link is still the one it came on, at once while a credit for the completion is held; after it the hub tries its held
requests. -/
def Obligations.StrayWriteback : Prop :=
  ∀ (port : Fin 512) (address dpa : Nat) (data : List Byte) (mask : Nat) (mark : WriteMark) (keep : Fin 3) (w : Nat) (v : View)
    (n : Nat) (s : State),
    let r := s.writeReq port data mask mark.poison mark.parity keep (dpa / 64 * 64)
    let s0 := s.backWith (port / 16) noPhys
    let s1 := s0.gateSpend r
    let s2 := s1.accepted r w
    let s3 := s2.hubGrant ((s2.home r.dpa).getD 0) (r.port / 32)
    s.ldUp port = true → (s0.link (port / 16)).noCredit (s.writeReq port data mask mark.poison mark.parity keep 0) = false →
    s0.ldUp port = true → s0.decodeHdm port address = some dpa → dpa < dpaEnd → s0.ideRefuses r = false → s0.serving = true →
    (Tab.get port.val s0.reg.masters).hold = [] → s0.gateOk r = true → (s1.checks r).toOption = some (w, v) →
    s2.hubReady r v w = true → s3.cohAt r.dpa = some n → s3.holdsE (r.dpa / 64) (s3.hidOf r.port) = false →
    ∃ t : State, exec (.cxlMemWrite port address data mask mark keep) s = .next (t.retryHub noPhys) ∧ t = (((s3.count
      P.shareStrayWb 1).event r.port
      { cause := 6, trans := 2, region := (s3.home r.dpa).getD 0, hid := s3.hidOf r.port, dpa := r.dpa + 1 }).notice 10 [(0,
      cborUint (s3.hidOf r.port)), (1, cborUint r.dpa)]).reply r none ∧ t.mem = s3.mem ∧ t.shared.dir = s3.shared.dir ∧ t.par
      P.shareStrayWb = (s3.par P.shareStrayWb + 1) % 2 ^ 64 ∧ (s3.linkUp (port / 16) = true → (s3.link (port / 16)).upAt ≤
      r.since → (s3.link (port / 16)).egress = [] → Tab.get 0 (s3.link (port / 16)).adv = 0 → ∃ load, t.out.head? = some
      (.memDone port r.dpa load))

/-- A write of ENABLE to a DISABLED queue checks GROUP, RING, VECTOR and CONFIG in that order. When none holds the queue becomes
RUNNING with sq_head, cq_tail and both doorbells 0 and phase 1; at the first that holds it stays DISABLED with that reason.
On a queue that is not DISABLED the write is refused and q_state keeps its value. -/
def Obligations.EnableValidation : Prop :=
  (∀ (queue : Fin 32768) (s : State),
     s.takes (P.qCtl queue) 1 = true → s.Canonical → s.par (P.grpPortLd (queue / 64)) < 256 →
     s.par (P.grpPath (queue / 64)) < 2 →
     ∃ t, exec (.qEnable queue) s = .next t ∧ (if (s.par (P.grpHid (queue / 64)) = 0xFFFF ∨ (s.par (P.grpPath (queue / 64)) = 1
       ∧ s.par (hidKey (s.qPort queue)) ≠ s.par (P.grpHid (queue / 64)))) then t.qMode queue = 0 ∧ fld (t.par (P.qState queue))
       15 8 = 1 else if (s.qSize queue = 1 ∨ s.par (P.qSqBase queue) % 64 ≠ 0 ∨ s.par (P.qCqBase queue) % 64 ≠ 0 ∨ (fld (s.par
       (P.qCfg queue)) 16 16 = 1 ∧ s.ringOk (s.par (P.qSqBase queue)) (64 * s.qSize queue) (s.qHid queue) rR = false) ∨ (fld
       (s.par (P.qCfg queue)) 17 17 = 1 ∧ s.ringOk (s.par (P.qCqBase queue)) (16 * s.qSize queue) (s.qHid queue) rW = false))
       then t.qMode queue = 0 ∧ fld (t.par (P.qState queue)) 15 8 = 2 else if (fld (s.par (P.qCfg queue)) 43 43 = 1 ∧ (if s.par
       (P.grpPath (queue / 64)) = 1 then 128 else 2048) ≤ fld (s.par (P.qCfg queue)) 42 32) then t.qMode queue = 0 ∧ fld (t.par
       (P.qState queue)) 15 8 = 3 else if (fld (s.par (P.qCfg queue)) 47 44 ≠ 0 ∨ fld (s.par (P.qCfg queue)) 31 22 ≠ 0) then
       t.qMode queue = 0 ∧ fld (t.par (P.qState queue)) 15 8 = 4 else t.par (P.qState queue) = 1 ∧ (t.qr queue).tail = 0 ∧
       (t.qr queue).head = 0 ∧ (t.qr queue).phase = true ∧ (t.qr queue).cmds = [])) ∧
  (∀ (queue : Fin 32768) (s : State),
     s.qMode queue ≠ 0 → s.barOn = true → s.dictOn = true →
     ∃ t, exec (.qEnable queue) s = .next t ∧ t.par (P.qState queue) = s.par (P.qState queue) ∧ t.qr queue = s.qr queue ∧ t.mem
       = s.mem)
end

