-- ==== Sys2Proof/Laws/Tab.lean ====
section
/-! SUPPORT. What every operation on a sparse table does: what it reads afterwards, and that it keeps the canonical form. -/
namespace Sys2Proof.Machine

variable {α : Type}

@[simp] theorem Tab.find_nil (k : Nat) : Tab.find? k ([] : Tab α) = none := rfl

theorem Tab.find_cons (k j : Nat) (v : α) (t : Tab α) :
    Tab.find? k ((j, v) :: t) = if j = k then some v else Tab.find? k t := rfl

theorem Tab.find_erase_same (k : Nat) (t : Tab α) : Tab.find? k (Tab.erase k t) = none := by
  induction t with
  | nil => rfl
  | cons p t ih =>
    obtain ⟨j, v⟩ := p
    by_cases h : j = k <;> simp [Tab.erase, Tab.find_cons, h, ih]

theorem Tab.find_erase_other {j k : Nat} (h : j ≠ k) (t : Tab α) : Tab.find? j (Tab.erase k t) = Tab.find? j t := by
  induction t with
  | nil => rfl
  | cons p t ih =>
    obtain ⟨i, v⟩ := p
    by_cases hi : i = k
    · subst hi
      simp [Tab.erase, Tab.find_cons, Ne.symm h, ih]
    · simp [Tab.erase, Tab.find_cons, hi, ih]

theorem Tab.find_insert (j k : Nat) (v : α) (t : Tab α) (hn : Tab.find? k t = none) :
    Tab.find? j (Tab.insert k v t) = if j = k then some v else Tab.find? j t := by
  induction t with
  | nil => simp [Tab.insert, Tab.find_cons, eq_comm]
  | cons p t ih =>
    obtain ⟨i, w⟩ := p
    rw [Tab.find_cons] at hn
    have hik : i ≠ k := by intro h; simp [h] at hn
    rw [if_neg hik] at hn
    unfold Tab.insert
    split
    · simp [Tab.find_cons, eq_comm]
    · rw [Tab.find_cons, Tab.find_cons, ih hn]
      by_cases hij : i = j
      · subst hij; simp [hik]
      · simp [hij]

/-- A written key reads as written. -/
theorem Tab.getD_setD_same [DecidableEq α] (d : α) (k : Nat) (v : α) (t : Tab α) : Tab.getD d k (Tab.setD d k v t) = v := by
  unfold Tab.setD Tab.getD
  split
  · next h => simp [Tab.find_erase_same, h]
  · rw [Tab.find_insert _ _ _ _ (Tab.find_erase_same k t)]; simp

/-- A key that is not written reads as before. -/
theorem Tab.getD_setD_other [DecidableEq α] (d e : α) {j k : Nat} (h : j ≠ k) (v : α) (t : Tab α) :
    Tab.getD e j (Tab.setD d k v t) = Tab.getD e j t := by
  unfold Tab.setD Tab.getD
  split
  · rw [Tab.find_erase_other h]
  · rw [Tab.find_insert _ _ _ _ (Tab.find_erase_same k t), if_neg h, Tab.find_erase_other h]

@[simp] theorem Tab.get_set_same [Inhabited α] [DecidableEq α] (k : Nat) (v : α) (t : Tab α) : Tab.get k (Tab.set k v t) = v :=
  Tab.getD_setD_same _ _ _ _

theorem Tab.get_set_other [Inhabited α] [DecidableEq α] {j k : Nat} (h : j ≠ k) (v : α) (t : Tab α) :
    Tab.get j (Tab.set k v t) = Tab.get j t := Tab.getD_setD_other _ _ h _ _

@[simp] theorem Tab.get_mod_same [Inhabited α] [DecidableEq α] (k : Nat) (f : α → α) (t : Tab α) :
    Tab.get k (Tab.mod k f t) = f (Tab.get k t) := Tab.get_set_same _ _ _

theorem Tab.get_mod_other [Inhabited α] [DecidableEq α] {j k : Nat} (h : j ≠ k) (f : α → α) (t : Tab α) :
    Tab.get j (Tab.mod k f t) = Tab.get j t := Tab.get_set_other h _ _

/-! The canonical form. -/

theorem Tab.wfBy_cons [DecidableEq α] (d : Nat → α) (k : Nat) (v : α) (t : Tab α) :
    Tab.wfBy d ((k, v) :: t) = true ↔ v ≠ d k ∧ (∀ p ∈ t, k < p.1) ∧ Tab.wfBy d t = true := by
  simp [Tab.wfBy, and_assoc]

/-- Leaving out entries keeps the canonical form. -/
theorem Tab.wfBy_filter [DecidableEq α] (d : Nat → α) (f : Nat × α → Bool) {t : Tab α} (h : Tab.wfBy d t = true) :
    Tab.wfBy d (t.filter f) = true := by
  induction t with
  | nil => rfl
  | cons p t ih =>
    obtain ⟨k, v⟩ := p
    rw [Tab.wfBy_cons] at h
    rw [List.filter_cons]
    split
    · rw [Tab.wfBy_cons]
      exact ⟨h.1, fun p hp => h.2.1 p (List.mem_filter.1 hp).1, ih h.2.2⟩
    · exact ih h.2.2

theorem Tab.erase_eq (k : Nat) (t : Tab α) : Tab.erase k t = t.filter (fun p => p.1 != k) := by
  induction t with
  | nil => rfl
  | cons p t ih =>
    obtain ⟨j, v⟩ := p
    by_cases h : j = k <;> simp [Tab.erase, h, ih]

theorem Tab.mem_insert {k : Nat} {v : α} {t : Tab α} {p : Nat × α} (h : p ∈ Tab.insert k v t) : p = (k, v) ∨ p ∈ t := by
  induction t with
  | nil => simpa [Tab.insert] using h
  | cons q t ih =>
    unfold Tab.insert at h
    split at h
    · simpa using h
    · rcases List.mem_cons.1 h with h | h
      · exact .inr (h ▸ List.mem_cons_self)
      · rcases ih h with h | h
        · exact .inl h
        · exact .inr (List.mem_cons_of_mem _ h)

theorem Tab.wfBy_insert [DecidableEq α] (d : Nat → α) {k : Nat} {v : α} (hv : v ≠ d k) {t : Tab α}
    (hk : ∀ p ∈ t, p.1 ≠ k) (h : Tab.wfBy d t = true) : Tab.wfBy d (Tab.insert k v t) = true := by
  induction t with
  | nil => simp [Tab.insert, Tab.wfBy, hv]
  | cons q t ih =>
    obtain ⟨j, w⟩ := q
    have h' := (Tab.wfBy_cons d j w t).1 h
    unfold Tab.insert
    split
    · next hlt =>
      rw [Tab.wfBy_cons]
      refine ⟨hv, fun p hp => ?_, h⟩
      rcases List.mem_cons.1 hp with rfl | hp
      · exact hlt
      · exact Nat.lt_trans hlt (h'.2.1 p hp)
    · next hge =>
      rw [Tab.wfBy_cons]
      refine ⟨h'.1, fun p hp => ?_, ih (fun p hp => hk p (List.mem_cons_of_mem _ hp)) h'.2.2⟩
      rcases Tab.mem_insert hp with rfl | hp
      · exact Nat.lt_of_le_of_ne (Nat.not_lt.1 hge) (hk (j, w) List.mem_cons_self)
      · exact h'.2.1 p hp

/-- A write of one key keeps the canonical form. -/
theorem Tab.wfBy_setD [DecidableEq α] (d : Nat → α) (k : Nat) (v : α) {t : Tab α} (h : Tab.wfBy d t = true) :
    Tab.wfBy d (Tab.setD (d k) k v t) = true := by
  have he : Tab.wfBy d (Tab.erase k t) = true := by rw [Tab.erase_eq]; exact Tab.wfBy_filter d _ h
  unfold Tab.setD
  split
  · exact he
  · next hv =>
    refine Tab.wfBy_insert d hv (fun p hp => ?_) he
    rw [Tab.erase_eq] at hp
    simpa using (List.mem_filter.1 hp).2

theorem Tab.mem_pairsFrom {a : Nat} {vs : List α} {p : Nat × α} (h : p ∈ pairsFrom a vs) : a ≤ p.1 ∧ p.1 < a + vs.length := by
  induction vs generalizing a with
  | nil => simp [pairsFrom] at h
  | cons v vs ih =>
    rcases List.mem_cons.1 h with rfl | h
    · simp
    · have := ih h
      simp only [List.length_cons]
      omega

theorem Tab.wfBy_pairsFrom [DecidableEq α] (d : α) (a : Nat) (vs : List α) :
    Tab.wf d ((pairsFrom a vs).filter (fun p => decide (p.2 ≠ d))) = true := by
  induction vs generalizing a with
  | nil => rfl
  | cons v vs ih =>
    rw [pairsFrom, List.filter_cons]
    split
    · next hv =>
      refine (Tab.wfBy_cons _ _ _ _).2 ⟨by simpa using hv, fun p hp => ?_, ih (a + 1)⟩
      have := (Tab.mem_pairsFrom (List.mem_filter.1 hp).1).1
      omega
    · exact ih (a + 1)

theorem Tab.wfBy_append [DecidableEq α] (d : Nat → α) {s t : Tab α} (hs : Tab.wfBy d s = true) (ht : Tab.wfBy d t = true)
    (h : ∀ p ∈ s, ∀ q ∈ t, p.1 < q.1) : Tab.wfBy d (s ++ t) = true := by
  induction s with
  | nil => exact ht
  | cons p s ih =>
    obtain ⟨k, v⟩ := p
    have hs' := (Tab.wfBy_cons d k v s).1 hs
    rw [List.cons_append, Tab.wfBy_cons]
    refine ⟨hs'.1, fun q hq => ?_, ih hs'.2.2 (fun p hp => h p (List.mem_cons_of_mem _ hp))⟩
    rcases List.mem_append.1 hq with hq | hq
    · exact hs'.2.1 q hq
    · exact h (k, v) List.mem_cons_self q hq

/-- A write of a run of values keeps the canonical form. -/
theorem Tab.wf_writeRun [DecidableEq α] (d : α) (a : Nat) (vs : List α) {t : Tab α} (h : Tab.wf d t = true) :
    Tab.wf d (Tab.writeRun d a vs t) = true := by
  unfold Tab.writeRun
  refine Tab.wfBy_append _ (Tab.wfBy_append _ (Tab.wfBy_filter _ _ h) (Tab.wfBy_pairsFrom d a vs) ?_) (Tab.wfBy_filter _ _ h) ?_
  · intro p hp q hq
    have h1 := (List.mem_filter.1 hp).2
    have h2 := Tab.mem_pairsFrom (List.mem_filter.1 hq).1
    simp only [decide_eq_true_eq] at h1
    omega
  · intro p hp q hq
    have h2 := (List.mem_filter.1 hq).2
    simp only [decide_eq_true_eq] at h2
    rcases List.mem_append.1 hp with hp | hp
    · have h1 := (List.mem_filter.1 hp).2
      simp only [decide_eq_true_eq] at h1
      omega
    · have h1 := Tab.mem_pairsFrom (List.mem_filter.1 hp).1
      omega

theorem Tab.find_append (k : Nat) (s t : Tab α) : Tab.find? k (s ++ t) = (Tab.find? k s).or (Tab.find? k t) := by
  induction s with
  | nil => simp
  | cons p s ih =>
    obtain ⟨j, v⟩ := p
    by_cases h : j = k <;> simp [Tab.find_cons, h, ih]

theorem Tab.find_filter_key (k : Nat) (f : Nat → Bool) (t : Tab α) :
    Tab.find? k (t.filter (fun p => f p.1)) = if f k then Tab.find? k t else none := by
  induction t with
  | nil => simp
  | cons p t ih =>
    obtain ⟨j, v⟩ := p
    rw [List.filter_cons]
    by_cases hj : j = k
    · subst hj
      by_cases hf : f j <;> simp [hf, Tab.find_cons, ih]
    · by_cases hf : f j <;> simp [hf, Tab.find_cons, hj, ih]

theorem Tab.find_none {k : Nat} {t : Tab α} (h : ∀ p ∈ t, p.1 ≠ k) : Tab.find? k t = none := by
  induction t with
  | nil => rfl
  | cons p t ih =>
    obtain ⟨j, v⟩ := p
    have hj : j ≠ k := h (j, v) List.mem_cons_self
    rw [Tab.find_cons, if_neg hj]
    exact ih (fun p hp => h p (List.mem_cons_of_mem _ hp))

/-- A write of a run of values leaves every key outside it as it was. -/
theorem Tab.getD_writeRun_outside [DecidableEq α] (d : α) (a : Nat) (vs : List α) (t : Tab α) {k : Nat}
    (h : k < a ∨ a + vs.length ≤ k) : Tab.getD d k (Tab.writeRun d a vs t) = Tab.getD d k t := by
  have hm : Tab.find? k ((pairsFrom a vs).filter (fun p => decide (p.2 ≠ d))) = none := by
    refine Tab.find_none (fun p hp => ?_)
    have := Tab.mem_pairsFrom (List.mem_filter.1 hp).1
    omega
  have h1 := Tab.find_filter_key k (fun x => decide (x < a)) t
  have h2 := Tab.find_filter_key k (fun x => decide (a + vs.length ≤ x)) t
  unfold Tab.getD Tab.writeRun
  rw [Tab.find_append, Tab.find_append, hm, h1, h2]
  rcases h with h | h
  · rw [if_pos (by simpa using h), if_neg (by simp; omega)]
    cases Tab.find? k t <;> rfl
  · rw [if_neg (by simp; omega), if_pos (by simpa using h)]
    cases Tab.find? k t <;> rfl

theorem Tab.find_pairsFrom (a i : Nat) (vs : List α) : Tab.find? (a + i) (pairsFrom a vs) = vs[i]? := by
  induction vs generalizing a i with
  | nil => rfl
  | cons v vs ih =>
    rw [pairsFrom, Tab.find_cons]
    cases i with
    | zero => simp
    | succ i =>
      rw [if_neg (by omega), List.getElem?_cons_succ, ← ih (a + 1) i]
      congr 1; omega

theorem Tab.getD_pairsFrom [DecidableEq α] (d : α) (a i : Nat) (vs : List α) :
    Tab.getD d (a + i) ((pairsFrom a vs).filter (fun p => decide (p.2 ≠ d))) = (vs[i]?).getD d := by
  induction vs generalizing a i with
  | nil => rfl
  | cons v vs ih =>
    rw [pairsFrom, List.filter_cons]
    cases i with
    | zero =>
      by_cases hv : v = d
      · rw [if_neg (by simp [hv])]
        unfold Tab.getD
        rw [Tab.find_none (fun p hp => by have := Tab.mem_pairsFrom (List.mem_filter.1 hp).1; omega)]
        simp [hv]
      · rw [if_pos (by simp [hv])]
        simp [Tab.getD, Tab.find_cons]
    | succ i =>
      have h := ih (a + 1) i
      rw [show a + 1 + i = a + (i + 1) by omega] at h
      rw [List.getElem?_cons_succ, ← h]
      split
      · unfold Tab.getD
        rw [Tab.find_cons, if_neg (by omega)]
      · rfl

/-- A key inside a written run reads as written. -/
theorem Tab.getD_writeRun_inside [DecidableEq α] (d : α) (a i : Nat) (vs : List α) (t : Tab α) (h : i < vs.length) :
    Tab.getD d (a + i) (Tab.writeRun d a vs t) = vs[i] := by
  have h1 := Tab.find_filter_key (a + i) (fun x => decide (x < a)) t
  have h2 := Tab.find_filter_key (a + i) (fun x => decide (a + vs.length ≤ x)) t
  have h3 := Tab.getD_pairsFrom d a i vs
  unfold Tab.getD Tab.writeRun at *
  rw [Tab.find_append, Tab.find_append, h1, h2, if_neg (by simp), if_neg (by simp; omega)]
  simp only [Option.none_or, Option.or_none]
  rw [h3]
  simp [h]

end Sys2Proof.Machine
end

