-- ==== Sys2Proof/Laws/State.lean ====
section
/-! SUPPORT. What each update of one part of the state leaves of every other part. -/
namespace Sys2Proof.Machine

@[simp] theorem State.setPar_dict (s : State) (k v : Nat) : (s.setPar k v).dict = Tab.setD (dictDefault k) k (v % 2 ^ 64) s.dict := rfl
@[simp] theorem State.setPar_pending (s : State) (k v : Nat) : (s.setPar k v).pending = s.pending := rfl
@[simp] theorem State.setPar_out (s : State) (k v : Nat) : (s.setPar k v).out = s.out := rfl
@[simp] theorem State.setPar_now (s : State) (k v : Nat) : (s.setPar k v).now = s.now := rfl
@[simp] theorem State.setPar_freeCtr (s : State) (k v : Nat) : (s.setPar k v).freeCtr = s.freeCtr := rfl
@[simp] theorem State.setPar_arb (s : State) (k v : Nat) : (s.setPar k v).arb = s.arb := rfl
@[simp] theorem State.setPar_own (s : State) (k v : Nat) : (s.setPar k v).own = s.own := rfl
@[simp] theorem State.setPar_mem (s : State) (k v : Nat) : (s.setPar k v).mem = s.mem := rfl
@[simp] theorem State.setPar_fac (s : State) (k v : Nat) : (s.setPar k v).fac = s.fac := rfl
@[simp] theorem State.setPar_jobs (s : State) (k v : Nat) : (s.setPar k v).jobs = s.jobs := rfl
@[simp] theorem State.setPar_reds (s : State) (k v : Nat) : (s.setPar k v).reds = s.reds := rfl
@[simp] theorem State.setPar_shared (s : State) (k v : Nat) : (s.setPar k v).shared = s.shared := rfl
@[simp] theorem State.setPar_queues (s : State) (k v : Nat) : (s.setPar k v).queues = s.queues := rfl
@[simp] theorem State.setPar_ports (s : State) (k v : Nat) : (s.setPar k v).ports = s.ports := rfl
@[simp] theorem State.setPar_svc (s : State) (k v : Nat) : (s.setPar k v).svc = s.svc := rfl
@[simp] theorem State.setPar_reg (s : State) (k v : Nat) : (s.setPar k v).reg = s.reg := rfl
@[simp] theorem State.setPar_stackTab (s : State) (k v : Nat) : (s.setPar k v).stackTab = s.stackTab := rfl
@[simp] theorem State.setPar_media (s : State) (k v : Nat) : (s.setPar k v).media = s.media := rfl
@[simp] theorem State.setPar_integ (s : State) (k v : Nat) : (s.setPar k v).integ = s.integ := rfl
@[simp] theorem State.setPar_recov (s : State) (k v : Nat) : (s.setPar k v).recov = s.recov := rfl
@[simp] theorem State.setPar_power (s : State) (k v : Nat) : (s.setPar k v).power = s.power := rfl
@[simp] theorem State.setPar_boot (s : State) (k v : Nat) : (s.setPar k v).boot = s.boot := rfl
@[simp] theorem State.setPar_glody (s : State) (k v : Nat) : (s.setPar k v).glody = s.glody := rfl

@[simp] theorem State.emit_dict (s : State) (o : Output) : (s.emit o).dict = s.dict := rfl
@[simp] theorem State.emit_pending (s : State) (o : Output) : (s.emit o).pending = s.pending := rfl
@[simp] theorem State.emit_out (s : State) (o : Output) : (s.emit o).out = o :: s.out := rfl
@[simp] theorem State.emit_now (s : State) (o : Output) : (s.emit o).now = s.now := rfl
@[simp] theorem State.emit_freeCtr (s : State) (o : Output) : (s.emit o).freeCtr = s.freeCtr := rfl
@[simp] theorem State.emit_arb (s : State) (o : Output) : (s.emit o).arb = s.arb := rfl
@[simp] theorem State.emit_own (s : State) (o : Output) : (s.emit o).own = s.own := rfl
@[simp] theorem State.emit_mem (s : State) (o : Output) : (s.emit o).mem = s.mem := rfl
@[simp] theorem State.emit_fac (s : State) (o : Output) : (s.emit o).fac = s.fac := rfl
@[simp] theorem State.emit_jobs (s : State) (o : Output) : (s.emit o).jobs = s.jobs := rfl
@[simp] theorem State.emit_reds (s : State) (o : Output) : (s.emit o).reds = s.reds := rfl
@[simp] theorem State.emit_shared (s : State) (o : Output) : (s.emit o).shared = s.shared := rfl
@[simp] theorem State.emit_queues (s : State) (o : Output) : (s.emit o).queues = s.queues := rfl
@[simp] theorem State.emit_ports (s : State) (o : Output) : (s.emit o).ports = s.ports := rfl
@[simp] theorem State.emit_svc (s : State) (o : Output) : (s.emit o).svc = s.svc := rfl
@[simp] theorem State.emit_reg (s : State) (o : Output) : (s.emit o).reg = s.reg := rfl
@[simp] theorem State.emit_stackTab (s : State) (o : Output) : (s.emit o).stackTab = s.stackTab := rfl
@[simp] theorem State.emit_media (s : State) (o : Output) : (s.emit o).media = s.media := rfl
@[simp] theorem State.emit_integ (s : State) (o : Output) : (s.emit o).integ = s.integ := rfl
@[simp] theorem State.emit_recov (s : State) (o : Output) : (s.emit o).recov = s.recov := rfl
@[simp] theorem State.emit_power (s : State) (o : Output) : (s.emit o).power = s.power := rfl
@[simp] theorem State.emit_boot (s : State) (o : Output) : (s.emit o).boot = s.boot := rfl
@[simp] theorem State.emit_glody (s : State) (o : Output) : (s.emit o).glody = s.glody := rfl
@[simp] theorem State.emit_par (s : State) (o : Output) (k' : Nat) : (s.emit o).par k' = s.par k' := rfl

@[simp] theorem State.freeNext_dict (s : State) : (s.freeNext).dict = s.dict := rfl
@[simp] theorem State.freeNext_pending (s : State) : (s.freeNext).pending = s.pending := rfl
@[simp] theorem State.freeNext_out (s : State) : (s.freeNext).out = s.out := rfl
@[simp] theorem State.freeNext_now (s : State) : (s.freeNext).now = s.now := rfl
@[simp] theorem State.freeNext_freeCtr (s : State) : (s.freeNext).freeCtr = s.freeCtr + 1 := rfl
@[simp] theorem State.freeNext_arb (s : State) : (s.freeNext).arb = s.arb := rfl
@[simp] theorem State.freeNext_own (s : State) : (s.freeNext).own = s.own := rfl
@[simp] theorem State.freeNext_mem (s : State) : (s.freeNext).mem = s.mem := rfl
@[simp] theorem State.freeNext_fac (s : State) : (s.freeNext).fac = s.fac := rfl
@[simp] theorem State.freeNext_jobs (s : State) : (s.freeNext).jobs = s.jobs := rfl
@[simp] theorem State.freeNext_reds (s : State) : (s.freeNext).reds = s.reds := rfl
@[simp] theorem State.freeNext_shared (s : State) : (s.freeNext).shared = s.shared := rfl
@[simp] theorem State.freeNext_queues (s : State) : (s.freeNext).queues = s.queues := rfl
@[simp] theorem State.freeNext_ports (s : State) : (s.freeNext).ports = s.ports := rfl
@[simp] theorem State.freeNext_svc (s : State) : (s.freeNext).svc = s.svc := rfl
@[simp] theorem State.freeNext_reg (s : State) : (s.freeNext).reg = s.reg := rfl
@[simp] theorem State.freeNext_stackTab (s : State) : (s.freeNext).stackTab = s.stackTab := rfl
@[simp] theorem State.freeNext_media (s : State) : (s.freeNext).media = s.media := rfl
@[simp] theorem State.freeNext_integ (s : State) : (s.freeNext).integ = s.integ := rfl
@[simp] theorem State.freeNext_recov (s : State) : (s.freeNext).recov = s.recov := rfl
@[simp] theorem State.freeNext_power (s : State) : (s.freeNext).power = s.power := rfl
@[simp] theorem State.freeNext_boot (s : State) : (s.freeNext).boot = s.boot := rfl
@[simp] theorem State.freeNext_glody (s : State) : (s.freeNext).glody = s.glody := rfl
@[simp] theorem State.freeNext_par (s : State) (k' : Nat) : (s.freeNext).par k' = s.par k' := rfl

@[simp] theorem State.modPart_dict (s : State) (n : Nat) (f : PartRec → PartRec) : (s.modPart n f).dict = s.dict := rfl
@[simp] theorem State.modPart_pending (s : State) (n : Nat) (f : PartRec → PartRec) : (s.modPart n f).pending = s.pending := rfl
@[simp] theorem State.modPart_out (s : State) (n : Nat) (f : PartRec → PartRec) : (s.modPart n f).out = s.out := rfl
@[simp] theorem State.modPart_now (s : State) (n : Nat) (f : PartRec → PartRec) : (s.modPart n f).now = s.now := rfl
@[simp] theorem State.modPart_freeCtr (s : State) (n : Nat) (f : PartRec → PartRec) : (s.modPart n f).freeCtr = s.freeCtr := rfl
@[simp] theorem State.modPart_arb (s : State) (n : Nat) (f : PartRec → PartRec) : (s.modPart n f).arb = s.arb := rfl
@[simp] theorem State.modPart_mem (s : State) (n : Nat) (f : PartRec → PartRec) : (s.modPart n f).mem = s.mem := rfl
@[simp] theorem State.modPart_fac (s : State) (n : Nat) (f : PartRec → PartRec) : (s.modPart n f).fac = s.fac := rfl
@[simp] theorem State.modPart_jobs (s : State) (n : Nat) (f : PartRec → PartRec) : (s.modPart n f).jobs = s.jobs := rfl
@[simp] theorem State.modPart_reds (s : State) (n : Nat) (f : PartRec → PartRec) : (s.modPart n f).reds = s.reds := rfl
@[simp] theorem State.modPart_shared (s : State) (n : Nat) (f : PartRec → PartRec) : (s.modPart n f).shared = s.shared := rfl
@[simp] theorem State.modPart_queues (s : State) (n : Nat) (f : PartRec → PartRec) : (s.modPart n f).queues = s.queues := rfl
@[simp] theorem State.modPart_ports (s : State) (n : Nat) (f : PartRec → PartRec) : (s.modPart n f).ports = s.ports := rfl
@[simp] theorem State.modPart_svc (s : State) (n : Nat) (f : PartRec → PartRec) : (s.modPart n f).svc = s.svc := rfl
@[simp] theorem State.modPart_reg (s : State) (n : Nat) (f : PartRec → PartRec) : (s.modPart n f).reg = s.reg := rfl
@[simp] theorem State.modPart_stackTab (s : State) (n : Nat) (f : PartRec → PartRec) : (s.modPart n f).stackTab = s.stackTab := rfl
@[simp] theorem State.modPart_media (s : State) (n : Nat) (f : PartRec → PartRec) : (s.modPart n f).media = s.media := rfl
@[simp] theorem State.modPart_integ (s : State) (n : Nat) (f : PartRec → PartRec) : (s.modPart n f).integ = s.integ := rfl
@[simp] theorem State.modPart_recov (s : State) (n : Nat) (f : PartRec → PartRec) : (s.modPart n f).recov = s.recov := rfl
@[simp] theorem State.modPart_power (s : State) (n : Nat) (f : PartRec → PartRec) : (s.modPart n f).power = s.power := rfl
@[simp] theorem State.modPart_boot (s : State) (n : Nat) (f : PartRec → PartRec) : (s.modPart n f).boot = s.boot := rfl
@[simp] theorem State.modPart_glody (s : State) (n : Nat) (f : PartRec → PartRec) : (s.modPart n f).glody = s.glody := rfl
@[simp] theorem State.modPart_par (s : State) (n : Nat) (f : PartRec → PartRec) (k' : Nat) : (s.modPart n f).par k' = s.par k' := rfl

@[simp] theorem State.ownShadow_dict (s : State) (e w v : Nat) : (s.ownShadow e w v).dict = s.dict := rfl
@[simp] theorem State.ownShadow_pending (s : State) (e w v : Nat) : (s.ownShadow e w v).pending = s.pending := rfl
@[simp] theorem State.ownShadow_out (s : State) (e w v : Nat) : (s.ownShadow e w v).out = s.out := rfl
@[simp] theorem State.ownShadow_now (s : State) (e w v : Nat) : (s.ownShadow e w v).now = s.now := rfl
@[simp] theorem State.ownShadow_freeCtr (s : State) (e w v : Nat) : (s.ownShadow e w v).freeCtr = s.freeCtr := rfl
@[simp] theorem State.ownShadow_arb (s : State) (e w v : Nat) : (s.ownShadow e w v).arb = s.arb := rfl
@[simp] theorem State.ownShadow_mem (s : State) (e w v : Nat) : (s.ownShadow e w v).mem = s.mem := rfl
@[simp] theorem State.ownShadow_fac (s : State) (e w v : Nat) : (s.ownShadow e w v).fac = s.fac := rfl
@[simp] theorem State.ownShadow_jobs (s : State) (e w v : Nat) : (s.ownShadow e w v).jobs = s.jobs := rfl
@[simp] theorem State.ownShadow_reds (s : State) (e w v : Nat) : (s.ownShadow e w v).reds = s.reds := rfl
@[simp] theorem State.ownShadow_shared (s : State) (e w v : Nat) : (s.ownShadow e w v).shared = s.shared := rfl
@[simp] theorem State.ownShadow_queues (s : State) (e w v : Nat) : (s.ownShadow e w v).queues = s.queues := rfl
@[simp] theorem State.ownShadow_ports (s : State) (e w v : Nat) : (s.ownShadow e w v).ports = s.ports := rfl
@[simp] theorem State.ownShadow_svc (s : State) (e w v : Nat) : (s.ownShadow e w v).svc = s.svc := rfl
@[simp] theorem State.ownShadow_reg (s : State) (e w v : Nat) : (s.ownShadow e w v).reg = s.reg := rfl
@[simp] theorem State.ownShadow_stackTab (s : State) (e w v : Nat) : (s.ownShadow e w v).stackTab = s.stackTab := rfl
@[simp] theorem State.ownShadow_media (s : State) (e w v : Nat) : (s.ownShadow e w v).media = s.media := rfl
@[simp] theorem State.ownShadow_integ (s : State) (e w v : Nat) : (s.ownShadow e w v).integ = s.integ := rfl
@[simp] theorem State.ownShadow_recov (s : State) (e w v : Nat) : (s.ownShadow e w v).recov = s.recov := rfl
@[simp] theorem State.ownShadow_power (s : State) (e w v : Nat) : (s.ownShadow e w v).power = s.power := rfl
@[simp] theorem State.ownShadow_boot (s : State) (e w v : Nat) : (s.ownShadow e w v).boot = s.boot := rfl
@[simp] theorem State.ownShadow_glody (s : State) (e w v : Nat) : (s.ownShadow e w v).glody = s.glody := rfl
@[simp] theorem State.ownShadow_par (s : State) (e w v : Nat) (k' : Nat) : (s.ownShadow e w v).par k' = s.par k' := rfl

@[simp] theorem State.modMem_dict (s : State) (f : Mem → Mem) : (s.modMem f).dict = s.dict := rfl
@[simp] theorem State.modMem_pending (s : State) (f : Mem → Mem) : (s.modMem f).pending = s.pending := rfl
@[simp] theorem State.modMem_out (s : State) (f : Mem → Mem) : (s.modMem f).out = s.out := rfl
@[simp] theorem State.modMem_now (s : State) (f : Mem → Mem) : (s.modMem f).now = s.now := rfl
@[simp] theorem State.modMem_freeCtr (s : State) (f : Mem → Mem) : (s.modMem f).freeCtr = s.freeCtr := rfl
@[simp] theorem State.modMem_arb (s : State) (f : Mem → Mem) : (s.modMem f).arb = s.arb := rfl
@[simp] theorem State.modMem_own (s : State) (f : Mem → Mem) : (s.modMem f).own = s.own := rfl
@[simp] theorem State.modMem_mem (s : State) (f : Mem → Mem) : (s.modMem f).mem = f s.mem := rfl
@[simp] theorem State.modMem_fac (s : State) (f : Mem → Mem) : (s.modMem f).fac = s.fac := rfl
@[simp] theorem State.modMem_jobs (s : State) (f : Mem → Mem) : (s.modMem f).jobs = s.jobs := rfl
@[simp] theorem State.modMem_reds (s : State) (f : Mem → Mem) : (s.modMem f).reds = s.reds := rfl
@[simp] theorem State.modMem_shared (s : State) (f : Mem → Mem) : (s.modMem f).shared = s.shared := rfl
@[simp] theorem State.modMem_queues (s : State) (f : Mem → Mem) : (s.modMem f).queues = s.queues := rfl
@[simp] theorem State.modMem_ports (s : State) (f : Mem → Mem) : (s.modMem f).ports = s.ports := rfl
@[simp] theorem State.modMem_svc (s : State) (f : Mem → Mem) : (s.modMem f).svc = s.svc := rfl
@[simp] theorem State.modMem_reg (s : State) (f : Mem → Mem) : (s.modMem f).reg = s.reg := rfl
@[simp] theorem State.modMem_stackTab (s : State) (f : Mem → Mem) : (s.modMem f).stackTab = s.stackTab := rfl
@[simp] theorem State.modMem_media (s : State) (f : Mem → Mem) : (s.modMem f).media = s.media := rfl
@[simp] theorem State.modMem_integ (s : State) (f : Mem → Mem) : (s.modMem f).integ = s.integ := rfl
@[simp] theorem State.modMem_recov (s : State) (f : Mem → Mem) : (s.modMem f).recov = s.recov := rfl
@[simp] theorem State.modMem_power (s : State) (f : Mem → Mem) : (s.modMem f).power = s.power := rfl
@[simp] theorem State.modMem_boot (s : State) (f : Mem → Mem) : (s.modMem f).boot = s.boot := rfl
@[simp] theorem State.modMem_glody (s : State) (f : Mem → Mem) : (s.modMem f).glody = s.glody := rfl
@[simp] theorem State.modMem_par (s : State) (f : Mem → Mem) (k' : Nat) : (s.modMem f).par k' = s.par k' := rfl

@[simp] theorem State.modFac_dict (s : State) (f : Fac → Fac) : (s.modFac f).dict = s.dict := rfl
@[simp] theorem State.modFac_pending (s : State) (f : Fac → Fac) : (s.modFac f).pending = s.pending := rfl
@[simp] theorem State.modFac_out (s : State) (f : Fac → Fac) : (s.modFac f).out = s.out := rfl
@[simp] theorem State.modFac_now (s : State) (f : Fac → Fac) : (s.modFac f).now = s.now := rfl
@[simp] theorem State.modFac_freeCtr (s : State) (f : Fac → Fac) : (s.modFac f).freeCtr = s.freeCtr := rfl
@[simp] theorem State.modFac_arb (s : State) (f : Fac → Fac) : (s.modFac f).arb = s.arb := rfl
@[simp] theorem State.modFac_own (s : State) (f : Fac → Fac) : (s.modFac f).own = s.own := rfl
@[simp] theorem State.modFac_mem (s : State) (f : Fac → Fac) : (s.modFac f).mem = s.mem := rfl
@[simp] theorem State.modFac_fac (s : State) (f : Fac → Fac) : (s.modFac f).fac = f s.fac := rfl
@[simp] theorem State.modFac_jobs (s : State) (f : Fac → Fac) : (s.modFac f).jobs = s.jobs := rfl
@[simp] theorem State.modFac_reds (s : State) (f : Fac → Fac) : (s.modFac f).reds = s.reds := rfl
@[simp] theorem State.modFac_shared (s : State) (f : Fac → Fac) : (s.modFac f).shared = s.shared := rfl
@[simp] theorem State.modFac_queues (s : State) (f : Fac → Fac) : (s.modFac f).queues = s.queues := rfl
@[simp] theorem State.modFac_ports (s : State) (f : Fac → Fac) : (s.modFac f).ports = s.ports := rfl
@[simp] theorem State.modFac_svc (s : State) (f : Fac → Fac) : (s.modFac f).svc = s.svc := rfl
@[simp] theorem State.modFac_reg (s : State) (f : Fac → Fac) : (s.modFac f).reg = s.reg := rfl
@[simp] theorem State.modFac_stackTab (s : State) (f : Fac → Fac) : (s.modFac f).stackTab = s.stackTab := rfl
@[simp] theorem State.modFac_media (s : State) (f : Fac → Fac) : (s.modFac f).media = s.media := rfl
@[simp] theorem State.modFac_integ (s : State) (f : Fac → Fac) : (s.modFac f).integ = s.integ := rfl
@[simp] theorem State.modFac_recov (s : State) (f : Fac → Fac) : (s.modFac f).recov = s.recov := rfl
@[simp] theorem State.modFac_power (s : State) (f : Fac → Fac) : (s.modFac f).power = s.power := rfl
@[simp] theorem State.modFac_boot (s : State) (f : Fac → Fac) : (s.modFac f).boot = s.boot := rfl
@[simp] theorem State.modFac_glody (s : State) (f : Fac → Fac) : (s.modFac f).glody = s.glody := rfl
@[simp] theorem State.modFac_par (s : State) (f : Fac → Fac) (k' : Nat) : (s.modFac f).par k' = s.par k' := rfl

@[simp] theorem State.modJob_dict (s : State) (j : Nat) (f : JobRec → JobRec) : (s.modJob j f).dict = s.dict := rfl
@[simp] theorem State.modJob_pending (s : State) (j : Nat) (f : JobRec → JobRec) : (s.modJob j f).pending = s.pending := rfl
@[simp] theorem State.modJob_out (s : State) (j : Nat) (f : JobRec → JobRec) : (s.modJob j f).out = s.out := rfl
@[simp] theorem State.modJob_now (s : State) (j : Nat) (f : JobRec → JobRec) : (s.modJob j f).now = s.now := rfl
@[simp] theorem State.modJob_freeCtr (s : State) (j : Nat) (f : JobRec → JobRec) : (s.modJob j f).freeCtr = s.freeCtr := rfl
@[simp] theorem State.modJob_arb (s : State) (j : Nat) (f : JobRec → JobRec) : (s.modJob j f).arb = s.arb := rfl
@[simp] theorem State.modJob_own (s : State) (j : Nat) (f : JobRec → JobRec) : (s.modJob j f).own = s.own := rfl
@[simp] theorem State.modJob_mem (s : State) (j : Nat) (f : JobRec → JobRec) : (s.modJob j f).mem = s.mem := rfl
@[simp] theorem State.modJob_fac (s : State) (j : Nat) (f : JobRec → JobRec) : (s.modJob j f).fac = s.fac := rfl
@[simp] theorem State.modJob_jobs (s : State) (j : Nat) (f : JobRec → JobRec) : (s.modJob j f).jobs = Tab.mod j f s.jobs := rfl
@[simp] theorem State.modJob_reds (s : State) (j : Nat) (f : JobRec → JobRec) : (s.modJob j f).reds = s.reds := rfl
@[simp] theorem State.modJob_shared (s : State) (j : Nat) (f : JobRec → JobRec) : (s.modJob j f).shared = s.shared := rfl
@[simp] theorem State.modJob_queues (s : State) (j : Nat) (f : JobRec → JobRec) : (s.modJob j f).queues = s.queues := rfl
@[simp] theorem State.modJob_ports (s : State) (j : Nat) (f : JobRec → JobRec) : (s.modJob j f).ports = s.ports := rfl
@[simp] theorem State.modJob_svc (s : State) (j : Nat) (f : JobRec → JobRec) : (s.modJob j f).svc = s.svc := rfl
@[simp] theorem State.modJob_reg (s : State) (j : Nat) (f : JobRec → JobRec) : (s.modJob j f).reg = s.reg := rfl
@[simp] theorem State.modJob_stackTab (s : State) (j : Nat) (f : JobRec → JobRec) : (s.modJob j f).stackTab = s.stackTab := rfl
@[simp] theorem State.modJob_media (s : State) (j : Nat) (f : JobRec → JobRec) : (s.modJob j f).media = s.media := rfl
@[simp] theorem State.modJob_integ (s : State) (j : Nat) (f : JobRec → JobRec) : (s.modJob j f).integ = s.integ := rfl
@[simp] theorem State.modJob_recov (s : State) (j : Nat) (f : JobRec → JobRec) : (s.modJob j f).recov = s.recov := rfl
@[simp] theorem State.modJob_power (s : State) (j : Nat) (f : JobRec → JobRec) : (s.modJob j f).power = s.power := rfl
@[simp] theorem State.modJob_boot (s : State) (j : Nat) (f : JobRec → JobRec) : (s.modJob j f).boot = s.boot := rfl
@[simp] theorem State.modJob_glody (s : State) (j : Nat) (f : JobRec → JobRec) : (s.modJob j f).glody = s.glody := rfl
@[simp] theorem State.modJob_par (s : State) (j : Nat) (f : JobRec → JobRec) (k' : Nat) : (s.modJob j f).par k' = s.par k' := rfl

@[simp] theorem State.modRed_dict (s : State) (n : Nat) (f : RedRec → RedRec) : (s.modRed n f).dict = s.dict := rfl
@[simp] theorem State.modRed_pending (s : State) (n : Nat) (f : RedRec → RedRec) : (s.modRed n f).pending = s.pending := rfl
@[simp] theorem State.modRed_out (s : State) (n : Nat) (f : RedRec → RedRec) : (s.modRed n f).out = s.out := rfl
@[simp] theorem State.modRed_now (s : State) (n : Nat) (f : RedRec → RedRec) : (s.modRed n f).now = s.now := rfl
@[simp] theorem State.modRed_freeCtr (s : State) (n : Nat) (f : RedRec → RedRec) : (s.modRed n f).freeCtr = s.freeCtr := rfl
@[simp] theorem State.modRed_arb (s : State) (n : Nat) (f : RedRec → RedRec) : (s.modRed n f).arb = s.arb := rfl
@[simp] theorem State.modRed_own (s : State) (n : Nat) (f : RedRec → RedRec) : (s.modRed n f).own = s.own := rfl
@[simp] theorem State.modRed_mem (s : State) (n : Nat) (f : RedRec → RedRec) : (s.modRed n f).mem = s.mem := rfl
@[simp] theorem State.modRed_fac (s : State) (n : Nat) (f : RedRec → RedRec) : (s.modRed n f).fac = s.fac := rfl
@[simp] theorem State.modRed_jobs (s : State) (n : Nat) (f : RedRec → RedRec) : (s.modRed n f).jobs = s.jobs := rfl
@[simp] theorem State.modRed_reds (s : State) (n : Nat) (f : RedRec → RedRec) : (s.modRed n f).reds = Tab.mod n f s.reds := rfl
@[simp] theorem State.modRed_shared (s : State) (n : Nat) (f : RedRec → RedRec) : (s.modRed n f).shared = s.shared := rfl
@[simp] theorem State.modRed_queues (s : State) (n : Nat) (f : RedRec → RedRec) : (s.modRed n f).queues = s.queues := rfl
@[simp] theorem State.modRed_ports (s : State) (n : Nat) (f : RedRec → RedRec) : (s.modRed n f).ports = s.ports := rfl
@[simp] theorem State.modRed_svc (s : State) (n : Nat) (f : RedRec → RedRec) : (s.modRed n f).svc = s.svc := rfl
@[simp] theorem State.modRed_reg (s : State) (n : Nat) (f : RedRec → RedRec) : (s.modRed n f).reg = s.reg := rfl
@[simp] theorem State.modRed_stackTab (s : State) (n : Nat) (f : RedRec → RedRec) : (s.modRed n f).stackTab = s.stackTab := rfl
@[simp] theorem State.modRed_media (s : State) (n : Nat) (f : RedRec → RedRec) : (s.modRed n f).media = s.media := rfl
@[simp] theorem State.modRed_integ (s : State) (n : Nat) (f : RedRec → RedRec) : (s.modRed n f).integ = s.integ := rfl
@[simp] theorem State.modRed_recov (s : State) (n : Nat) (f : RedRec → RedRec) : (s.modRed n f).recov = s.recov := rfl
@[simp] theorem State.modRed_power (s : State) (n : Nat) (f : RedRec → RedRec) : (s.modRed n f).power = s.power := rfl
@[simp] theorem State.modRed_boot (s : State) (n : Nat) (f : RedRec → RedRec) : (s.modRed n f).boot = s.boot := rfl
@[simp] theorem State.modRed_glody (s : State) (n : Nat) (f : RedRec → RedRec) : (s.modRed n f).glody = s.glody := rfl
@[simp] theorem State.modRed_par (s : State) (n : Nat) (f : RedRec → RedRec) (k' : Nat) : (s.modRed n f).par k' = s.par k' := rfl

@[simp] theorem State.modSr_dict (s : State) (n : Nat) (f : SrRec → SrRec) : (s.modSr n f).dict = s.dict := rfl
@[simp] theorem State.modSr_pending (s : State) (n : Nat) (f : SrRec → SrRec) : (s.modSr n f).pending = s.pending := rfl
@[simp] theorem State.modSr_out (s : State) (n : Nat) (f : SrRec → SrRec) : (s.modSr n f).out = s.out := rfl
@[simp] theorem State.modSr_now (s : State) (n : Nat) (f : SrRec → SrRec) : (s.modSr n f).now = s.now := rfl
@[simp] theorem State.modSr_freeCtr (s : State) (n : Nat) (f : SrRec → SrRec) : (s.modSr n f).freeCtr = s.freeCtr := rfl
@[simp] theorem State.modSr_arb (s : State) (n : Nat) (f : SrRec → SrRec) : (s.modSr n f).arb = s.arb := rfl
@[simp] theorem State.modSr_own (s : State) (n : Nat) (f : SrRec → SrRec) : (s.modSr n f).own = s.own := rfl
@[simp] theorem State.modSr_mem (s : State) (n : Nat) (f : SrRec → SrRec) : (s.modSr n f).mem = s.mem := rfl
@[simp] theorem State.modSr_fac (s : State) (n : Nat) (f : SrRec → SrRec) : (s.modSr n f).fac = s.fac := rfl
@[simp] theorem State.modSr_jobs (s : State) (n : Nat) (f : SrRec → SrRec) : (s.modSr n f).jobs = s.jobs := rfl
@[simp] theorem State.modSr_reds (s : State) (n : Nat) (f : SrRec → SrRec) : (s.modSr n f).reds = s.reds := rfl
@[simp] theorem State.modSr_queues (s : State) (n : Nat) (f : SrRec → SrRec) : (s.modSr n f).queues = s.queues := rfl
@[simp] theorem State.modSr_ports (s : State) (n : Nat) (f : SrRec → SrRec) : (s.modSr n f).ports = s.ports := rfl
@[simp] theorem State.modSr_svc (s : State) (n : Nat) (f : SrRec → SrRec) : (s.modSr n f).svc = s.svc := rfl
@[simp] theorem State.modSr_reg (s : State) (n : Nat) (f : SrRec → SrRec) : (s.modSr n f).reg = s.reg := rfl
@[simp] theorem State.modSr_stackTab (s : State) (n : Nat) (f : SrRec → SrRec) : (s.modSr n f).stackTab = s.stackTab := rfl
@[simp] theorem State.modSr_media (s : State) (n : Nat) (f : SrRec → SrRec) : (s.modSr n f).media = s.media := rfl
@[simp] theorem State.modSr_integ (s : State) (n : Nat) (f : SrRec → SrRec) : (s.modSr n f).integ = s.integ := rfl
@[simp] theorem State.modSr_recov (s : State) (n : Nat) (f : SrRec → SrRec) : (s.modSr n f).recov = s.recov := rfl
@[simp] theorem State.modSr_power (s : State) (n : Nat) (f : SrRec → SrRec) : (s.modSr n f).power = s.power := rfl
@[simp] theorem State.modSr_boot (s : State) (n : Nat) (f : SrRec → SrRec) : (s.modSr n f).boot = s.boot := rfl
@[simp] theorem State.modSr_glody (s : State) (n : Nat) (f : SrRec → SrRec) : (s.modSr n f).glody = s.glody := rfl
@[simp] theorem State.modSr_par (s : State) (n : Nat) (f : SrRec → SrRec) (k' : Nat) : (s.modSr n f).par k' = s.par k' := rfl

@[simp] theorem State.modQ_dict (s : State) (q : Nat) (f : QRec → QRec) : (s.modQ q f).dict = s.dict := rfl
@[simp] theorem State.modQ_pending (s : State) (q : Nat) (f : QRec → QRec) : (s.modQ q f).pending = s.pending := rfl
@[simp] theorem State.modQ_out (s : State) (q : Nat) (f : QRec → QRec) : (s.modQ q f).out = s.out := rfl
@[simp] theorem State.modQ_now (s : State) (q : Nat) (f : QRec → QRec) : (s.modQ q f).now = s.now := rfl
@[simp] theorem State.modQ_freeCtr (s : State) (q : Nat) (f : QRec → QRec) : (s.modQ q f).freeCtr = s.freeCtr := rfl
@[simp] theorem State.modQ_arb (s : State) (q : Nat) (f : QRec → QRec) : (s.modQ q f).arb = s.arb := rfl
@[simp] theorem State.modQ_own (s : State) (q : Nat) (f : QRec → QRec) : (s.modQ q f).own = s.own := rfl
@[simp] theorem State.modQ_mem (s : State) (q : Nat) (f : QRec → QRec) : (s.modQ q f).mem = s.mem := rfl
@[simp] theorem State.modQ_fac (s : State) (q : Nat) (f : QRec → QRec) : (s.modQ q f).fac = s.fac := rfl
@[simp] theorem State.modQ_jobs (s : State) (q : Nat) (f : QRec → QRec) : (s.modQ q f).jobs = s.jobs := rfl
@[simp] theorem State.modQ_reds (s : State) (q : Nat) (f : QRec → QRec) : (s.modQ q f).reds = s.reds := rfl
@[simp] theorem State.modQ_shared (s : State) (q : Nat) (f : QRec → QRec) : (s.modQ q f).shared = s.shared := rfl
@[simp] theorem State.modQ_ports (s : State) (q : Nat) (f : QRec → QRec) : (s.modQ q f).ports = s.ports := rfl
@[simp] theorem State.modQ_svc (s : State) (q : Nat) (f : QRec → QRec) : (s.modQ q f).svc = s.svc := rfl
@[simp] theorem State.modQ_reg (s : State) (q : Nat) (f : QRec → QRec) : (s.modQ q f).reg = s.reg := rfl
@[simp] theorem State.modQ_stackTab (s : State) (q : Nat) (f : QRec → QRec) : (s.modQ q f).stackTab = s.stackTab := rfl
@[simp] theorem State.modQ_media (s : State) (q : Nat) (f : QRec → QRec) : (s.modQ q f).media = s.media := rfl
@[simp] theorem State.modQ_integ (s : State) (q : Nat) (f : QRec → QRec) : (s.modQ q f).integ = s.integ := rfl
@[simp] theorem State.modQ_recov (s : State) (q : Nat) (f : QRec → QRec) : (s.modQ q f).recov = s.recov := rfl
@[simp] theorem State.modQ_power (s : State) (q : Nat) (f : QRec → QRec) : (s.modQ q f).power = s.power := rfl
@[simp] theorem State.modQ_boot (s : State) (q : Nat) (f : QRec → QRec) : (s.modQ q f).boot = s.boot := rfl
@[simp] theorem State.modQ_glody (s : State) (q : Nat) (f : QRec → QRec) : (s.modQ q f).glody = s.glody := rfl
@[simp] theorem State.modQ_par (s : State) (q : Nat) (f : QRec → QRec) (k' : Nat) : (s.modQ q f).par k' = s.par k' := rfl

@[simp] theorem State.modLink_dict (s : State) (k : Nat) (f : LinkRec → LinkRec) : (s.modLink k f).dict = s.dict := rfl
@[simp] theorem State.modLink_pending (s : State) (k : Nat) (f : LinkRec → LinkRec) : (s.modLink k f).pending = s.pending := rfl
@[simp] theorem State.modLink_out (s : State) (k : Nat) (f : LinkRec → LinkRec) : (s.modLink k f).out = s.out := rfl
@[simp] theorem State.modLink_now (s : State) (k : Nat) (f : LinkRec → LinkRec) : (s.modLink k f).now = s.now := rfl
@[simp] theorem State.modLink_freeCtr (s : State) (k : Nat) (f : LinkRec → LinkRec) : (s.modLink k f).freeCtr = s.freeCtr := rfl
@[simp] theorem State.modLink_arb (s : State) (k : Nat) (f : LinkRec → LinkRec) : (s.modLink k f).arb = s.arb := rfl
@[simp] theorem State.modLink_own (s : State) (k : Nat) (f : LinkRec → LinkRec) : (s.modLink k f).own = s.own := rfl
@[simp] theorem State.modLink_mem (s : State) (k : Nat) (f : LinkRec → LinkRec) : (s.modLink k f).mem = s.mem := rfl
@[simp] theorem State.modLink_fac (s : State) (k : Nat) (f : LinkRec → LinkRec) : (s.modLink k f).fac = s.fac := rfl
@[simp] theorem State.modLink_jobs (s : State) (k : Nat) (f : LinkRec → LinkRec) : (s.modLink k f).jobs = s.jobs := rfl
@[simp] theorem State.modLink_reds (s : State) (k : Nat) (f : LinkRec → LinkRec) : (s.modLink k f).reds = s.reds := rfl
@[simp] theorem State.modLink_shared (s : State) (k : Nat) (f : LinkRec → LinkRec) : (s.modLink k f).shared = s.shared := rfl
@[simp] theorem State.modLink_queues (s : State) (k : Nat) (f : LinkRec → LinkRec) : (s.modLink k f).queues = s.queues := rfl
@[simp] theorem State.modLink_svc (s : State) (k : Nat) (f : LinkRec → LinkRec) : (s.modLink k f).svc = s.svc := rfl
@[simp] theorem State.modLink_reg (s : State) (k : Nat) (f : LinkRec → LinkRec) : (s.modLink k f).reg = s.reg := rfl
@[simp] theorem State.modLink_stackTab (s : State) (k : Nat) (f : LinkRec → LinkRec) : (s.modLink k f).stackTab = s.stackTab := rfl
@[simp] theorem State.modLink_media (s : State) (k : Nat) (f : LinkRec → LinkRec) : (s.modLink k f).media = s.media := rfl
@[simp] theorem State.modLink_integ (s : State) (k : Nat) (f : LinkRec → LinkRec) : (s.modLink k f).integ = s.integ := rfl
@[simp] theorem State.modLink_recov (s : State) (k : Nat) (f : LinkRec → LinkRec) : (s.modLink k f).recov = s.recov := rfl
@[simp] theorem State.modLink_power (s : State) (k : Nat) (f : LinkRec → LinkRec) : (s.modLink k f).power = s.power := rfl
@[simp] theorem State.modLink_boot (s : State) (k : Nat) (f : LinkRec → LinkRec) : (s.modLink k f).boot = s.boot := rfl
@[simp] theorem State.modLink_glody (s : State) (k : Nat) (f : LinkRec → LinkRec) : (s.modLink k f).glody = s.glody := rfl
@[simp] theorem State.modLink_par (s : State) (k : Nat) (f : LinkRec → LinkRec) (k' : Nat) : (s.modLink k f).par k' = s.par k' := rfl

@[simp] theorem State.modLd_dict (s : State) (key : Nat) (f : LdRec → LdRec) : (s.modLd key f).dict = s.dict := rfl
@[simp] theorem State.modLd_pending (s : State) (key : Nat) (f : LdRec → LdRec) : (s.modLd key f).pending = s.pending := rfl
@[simp] theorem State.modLd_out (s : State) (key : Nat) (f : LdRec → LdRec) : (s.modLd key f).out = s.out := rfl
@[simp] theorem State.modLd_now (s : State) (key : Nat) (f : LdRec → LdRec) : (s.modLd key f).now = s.now := rfl
@[simp] theorem State.modLd_freeCtr (s : State) (key : Nat) (f : LdRec → LdRec) : (s.modLd key f).freeCtr = s.freeCtr := rfl
@[simp] theorem State.modLd_arb (s : State) (key : Nat) (f : LdRec → LdRec) : (s.modLd key f).arb = s.arb := rfl
@[simp] theorem State.modLd_own (s : State) (key : Nat) (f : LdRec → LdRec) : (s.modLd key f).own = s.own := rfl
@[simp] theorem State.modLd_mem (s : State) (key : Nat) (f : LdRec → LdRec) : (s.modLd key f).mem = s.mem := rfl
@[simp] theorem State.modLd_fac (s : State) (key : Nat) (f : LdRec → LdRec) : (s.modLd key f).fac = s.fac := rfl
@[simp] theorem State.modLd_jobs (s : State) (key : Nat) (f : LdRec → LdRec) : (s.modLd key f).jobs = s.jobs := rfl
@[simp] theorem State.modLd_reds (s : State) (key : Nat) (f : LdRec → LdRec) : (s.modLd key f).reds = s.reds := rfl
@[simp] theorem State.modLd_shared (s : State) (key : Nat) (f : LdRec → LdRec) : (s.modLd key f).shared = s.shared := rfl
@[simp] theorem State.modLd_queues (s : State) (key : Nat) (f : LdRec → LdRec) : (s.modLd key f).queues = s.queues := rfl
@[simp] theorem State.modLd_svc (s : State) (key : Nat) (f : LdRec → LdRec) : (s.modLd key f).svc = s.svc := rfl
@[simp] theorem State.modLd_reg (s : State) (key : Nat) (f : LdRec → LdRec) : (s.modLd key f).reg = s.reg := rfl
@[simp] theorem State.modLd_stackTab (s : State) (key : Nat) (f : LdRec → LdRec) : (s.modLd key f).stackTab = s.stackTab := rfl
@[simp] theorem State.modLd_media (s : State) (key : Nat) (f : LdRec → LdRec) : (s.modLd key f).media = s.media := rfl
@[simp] theorem State.modLd_integ (s : State) (key : Nat) (f : LdRec → LdRec) : (s.modLd key f).integ = s.integ := rfl
@[simp] theorem State.modLd_recov (s : State) (key : Nat) (f : LdRec → LdRec) : (s.modLd key f).recov = s.recov := rfl
@[simp] theorem State.modLd_power (s : State) (key : Nat) (f : LdRec → LdRec) : (s.modLd key f).power = s.power := rfl
@[simp] theorem State.modLd_boot (s : State) (key : Nat) (f : LdRec → LdRec) : (s.modLd key f).boot = s.boot := rfl
@[simp] theorem State.modLd_glody (s : State) (key : Nat) (f : LdRec → LdRec) : (s.modLd key f).glody = s.glody := rfl
@[simp] theorem State.modLd_par (s : State) (key : Nat) (f : LdRec → LdRec) (k' : Nat) : (s.modLd key f).par k' = s.par k' := rfl

@[simp] theorem State.sv_dict (s : State) (f : Svc → Svc) : (s.sv f).dict = s.dict := rfl
@[simp] theorem State.sv_pending (s : State) (f : Svc → Svc) : (s.sv f).pending = s.pending := rfl
@[simp] theorem State.sv_out (s : State) (f : Svc → Svc) : (s.sv f).out = s.out := rfl
@[simp] theorem State.sv_now (s : State) (f : Svc → Svc) : (s.sv f).now = s.now := rfl
@[simp] theorem State.sv_freeCtr (s : State) (f : Svc → Svc) : (s.sv f).freeCtr = s.freeCtr := rfl
@[simp] theorem State.sv_arb (s : State) (f : Svc → Svc) : (s.sv f).arb = s.arb := rfl
@[simp] theorem State.sv_own (s : State) (f : Svc → Svc) : (s.sv f).own = s.own := rfl
@[simp] theorem State.sv_mem (s : State) (f : Svc → Svc) : (s.sv f).mem = s.mem := rfl
@[simp] theorem State.sv_fac (s : State) (f : Svc → Svc) : (s.sv f).fac = s.fac := rfl
@[simp] theorem State.sv_jobs (s : State) (f : Svc → Svc) : (s.sv f).jobs = s.jobs := rfl
@[simp] theorem State.sv_reds (s : State) (f : Svc → Svc) : (s.sv f).reds = s.reds := rfl
@[simp] theorem State.sv_shared (s : State) (f : Svc → Svc) : (s.sv f).shared = s.shared := rfl
@[simp] theorem State.sv_queues (s : State) (f : Svc → Svc) : (s.sv f).queues = s.queues := rfl
@[simp] theorem State.sv_ports (s : State) (f : Svc → Svc) : (s.sv f).ports = s.ports := rfl
@[simp] theorem State.sv_svc (s : State) (f : Svc → Svc) : (s.sv f).svc = f s.svc := rfl
@[simp] theorem State.sv_reg (s : State) (f : Svc → Svc) : (s.sv f).reg = s.reg := rfl
@[simp] theorem State.sv_stackTab (s : State) (f : Svc → Svc) : (s.sv f).stackTab = s.stackTab := rfl
@[simp] theorem State.sv_media (s : State) (f : Svc → Svc) : (s.sv f).media = s.media := rfl
@[simp] theorem State.sv_integ (s : State) (f : Svc → Svc) : (s.sv f).integ = s.integ := rfl
@[simp] theorem State.sv_recov (s : State) (f : Svc → Svc) : (s.sv f).recov = s.recov := rfl
@[simp] theorem State.sv_power (s : State) (f : Svc → Svc) : (s.sv f).power = s.power := rfl
@[simp] theorem State.sv_boot (s : State) (f : Svc → Svc) : (s.sv f).boot = s.boot := rfl
@[simp] theorem State.sv_glody (s : State) (f : Svc → Svc) : (s.sv f).glody = s.glody := rfl
@[simp] theorem State.sv_par (s : State) (f : Svc → Svc) (k' : Nat) : (s.sv f).par k' = s.par k' := rfl

@[simp] theorem State.svcPut_dict (s : State) (r : SvcReq) : (s.svcPut r).dict = s.dict := rfl
@[simp] theorem State.svcPut_pending (s : State) (r : SvcReq) : (s.svcPut r).pending = s.pending := rfl
@[simp] theorem State.svcPut_out (s : State) (r : SvcReq) : (s.svcPut r).out = s.out := rfl
@[simp] theorem State.svcPut_now (s : State) (r : SvcReq) : (s.svcPut r).now = s.now := rfl
@[simp] theorem State.svcPut_freeCtr (s : State) (r : SvcReq) : (s.svcPut r).freeCtr = s.freeCtr := rfl
@[simp] theorem State.svcPut_arb (s : State) (r : SvcReq) : (s.svcPut r).arb = s.arb := rfl
@[simp] theorem State.svcPut_own (s : State) (r : SvcReq) : (s.svcPut r).own = s.own := rfl
@[simp] theorem State.svcPut_mem (s : State) (r : SvcReq) : (s.svcPut r).mem = s.mem := rfl
@[simp] theorem State.svcPut_fac (s : State) (r : SvcReq) : (s.svcPut r).fac = s.fac := rfl
@[simp] theorem State.svcPut_jobs (s : State) (r : SvcReq) : (s.svcPut r).jobs = s.jobs := rfl
@[simp] theorem State.svcPut_reds (s : State) (r : SvcReq) : (s.svcPut r).reds = s.reds := rfl
@[simp] theorem State.svcPut_shared (s : State) (r : SvcReq) : (s.svcPut r).shared = s.shared := rfl
@[simp] theorem State.svcPut_queues (s : State) (r : SvcReq) : (s.svcPut r).queues = s.queues := rfl
@[simp] theorem State.svcPut_ports (s : State) (r : SvcReq) : (s.svcPut r).ports = s.ports := rfl
@[simp] theorem State.svcPut_reg (s : State) (r : SvcReq) : (s.svcPut r).reg = s.reg := rfl
@[simp] theorem State.svcPut_stackTab (s : State) (r : SvcReq) : (s.svcPut r).stackTab = s.stackTab := rfl
@[simp] theorem State.svcPut_media (s : State) (r : SvcReq) : (s.svcPut r).media = s.media := rfl
@[simp] theorem State.svcPut_integ (s : State) (r : SvcReq) : (s.svcPut r).integ = s.integ := rfl
@[simp] theorem State.svcPut_recov (s : State) (r : SvcReq) : (s.svcPut r).recov = s.recov := rfl
@[simp] theorem State.svcPut_power (s : State) (r : SvcReq) : (s.svcPut r).power = s.power := rfl
@[simp] theorem State.svcPut_boot (s : State) (r : SvcReq) : (s.svcPut r).boot = s.boot := rfl
@[simp] theorem State.svcPut_glody (s : State) (r : SvcReq) : (s.svcPut r).glody = s.glody := rfl
@[simp] theorem State.svcPut_par (s : State) (r : SvcReq) (k' : Nat) : (s.svcPut r).par k' = s.par k' := rfl

@[simp] theorem State.modMaster_dict (s : State) (m : Nat) (f : MasterRec → MasterRec) : (s.modMaster m f).dict = s.dict := rfl
@[simp] theorem State.modMaster_pending (s : State) (m : Nat) (f : MasterRec → MasterRec) : (s.modMaster m f).pending = s.pending := rfl
@[simp] theorem State.modMaster_out (s : State) (m : Nat) (f : MasterRec → MasterRec) : (s.modMaster m f).out = s.out := rfl
@[simp] theorem State.modMaster_now (s : State) (m : Nat) (f : MasterRec → MasterRec) : (s.modMaster m f).now = s.now := rfl
@[simp] theorem State.modMaster_freeCtr (s : State) (m : Nat) (f : MasterRec → MasterRec) : (s.modMaster m f).freeCtr = s.freeCtr := rfl
@[simp] theorem State.modMaster_arb (s : State) (m : Nat) (f : MasterRec → MasterRec) : (s.modMaster m f).arb = s.arb := rfl
@[simp] theorem State.modMaster_own (s : State) (m : Nat) (f : MasterRec → MasterRec) : (s.modMaster m f).own = s.own := rfl
@[simp] theorem State.modMaster_mem (s : State) (m : Nat) (f : MasterRec → MasterRec) : (s.modMaster m f).mem = s.mem := rfl
@[simp] theorem State.modMaster_fac (s : State) (m : Nat) (f : MasterRec → MasterRec) : (s.modMaster m f).fac = s.fac := rfl
@[simp] theorem State.modMaster_jobs (s : State) (m : Nat) (f : MasterRec → MasterRec) : (s.modMaster m f).jobs = s.jobs := rfl
@[simp] theorem State.modMaster_reds (s : State) (m : Nat) (f : MasterRec → MasterRec) : (s.modMaster m f).reds = s.reds := rfl
@[simp] theorem State.modMaster_shared (s : State) (m : Nat) (f : MasterRec → MasterRec) : (s.modMaster m f).shared = s.shared := rfl
@[simp] theorem State.modMaster_queues (s : State) (m : Nat) (f : MasterRec → MasterRec) : (s.modMaster m f).queues = s.queues := rfl
@[simp] theorem State.modMaster_ports (s : State) (m : Nat) (f : MasterRec → MasterRec) : (s.modMaster m f).ports = s.ports := rfl
@[simp] theorem State.modMaster_svc (s : State) (m : Nat) (f : MasterRec → MasterRec) : (s.modMaster m f).svc = s.svc := rfl
@[simp] theorem State.modMaster_stackTab (s : State) (m : Nat) (f : MasterRec → MasterRec) : (s.modMaster m f).stackTab = s.stackTab := rfl
@[simp] theorem State.modMaster_media (s : State) (m : Nat) (f : MasterRec → MasterRec) : (s.modMaster m f).media = s.media := rfl
@[simp] theorem State.modMaster_integ (s : State) (m : Nat) (f : MasterRec → MasterRec) : (s.modMaster m f).integ = s.integ := rfl
@[simp] theorem State.modMaster_recov (s : State) (m : Nat) (f : MasterRec → MasterRec) : (s.modMaster m f).recov = s.recov := rfl
@[simp] theorem State.modMaster_power (s : State) (m : Nat) (f : MasterRec → MasterRec) : (s.modMaster m f).power = s.power := rfl
@[simp] theorem State.modMaster_boot (s : State) (m : Nat) (f : MasterRec → MasterRec) : (s.modMaster m f).boot = s.boot := rfl
@[simp] theorem State.modMaster_glody (s : State) (m : Nat) (f : MasterRec → MasterRec) : (s.modMaster m f).glody = s.glody := rfl
@[simp] theorem State.modMaster_par (s : State) (m : Nat) (f : MasterRec → MasterRec) (k' : Nat) : (s.modMaster m f).par k' = s.par k' := rfl

@[simp] theorem State.modCon_dict (s : State) (c : Nat) (f : ContractRec → ContractRec) : (s.modCon c f).dict = s.dict := rfl
@[simp] theorem State.modCon_pending (s : State) (c : Nat) (f : ContractRec → ContractRec) : (s.modCon c f).pending = s.pending := rfl
@[simp] theorem State.modCon_out (s : State) (c : Nat) (f : ContractRec → ContractRec) : (s.modCon c f).out = s.out := rfl
@[simp] theorem State.modCon_now (s : State) (c : Nat) (f : ContractRec → ContractRec) : (s.modCon c f).now = s.now := rfl
@[simp] theorem State.modCon_freeCtr (s : State) (c : Nat) (f : ContractRec → ContractRec) : (s.modCon c f).freeCtr = s.freeCtr := rfl
@[simp] theorem State.modCon_arb (s : State) (c : Nat) (f : ContractRec → ContractRec) : (s.modCon c f).arb = s.arb := rfl
@[simp] theorem State.modCon_own (s : State) (c : Nat) (f : ContractRec → ContractRec) : (s.modCon c f).own = s.own := rfl
@[simp] theorem State.modCon_mem (s : State) (c : Nat) (f : ContractRec → ContractRec) : (s.modCon c f).mem = s.mem := rfl
@[simp] theorem State.modCon_fac (s : State) (c : Nat) (f : ContractRec → ContractRec) : (s.modCon c f).fac = s.fac := rfl
@[simp] theorem State.modCon_jobs (s : State) (c : Nat) (f : ContractRec → ContractRec) : (s.modCon c f).jobs = s.jobs := rfl
@[simp] theorem State.modCon_reds (s : State) (c : Nat) (f : ContractRec → ContractRec) : (s.modCon c f).reds = s.reds := rfl
@[simp] theorem State.modCon_shared (s : State) (c : Nat) (f : ContractRec → ContractRec) : (s.modCon c f).shared = s.shared := rfl
@[simp] theorem State.modCon_queues (s : State) (c : Nat) (f : ContractRec → ContractRec) : (s.modCon c f).queues = s.queues := rfl
@[simp] theorem State.modCon_ports (s : State) (c : Nat) (f : ContractRec → ContractRec) : (s.modCon c f).ports = s.ports := rfl
@[simp] theorem State.modCon_svc (s : State) (c : Nat) (f : ContractRec → ContractRec) : (s.modCon c f).svc = s.svc := rfl
@[simp] theorem State.modCon_stackTab (s : State) (c : Nat) (f : ContractRec → ContractRec) : (s.modCon c f).stackTab = s.stackTab := rfl
@[simp] theorem State.modCon_media (s : State) (c : Nat) (f : ContractRec → ContractRec) : (s.modCon c f).media = s.media := rfl
@[simp] theorem State.modCon_integ (s : State) (c : Nat) (f : ContractRec → ContractRec) : (s.modCon c f).integ = s.integ := rfl
@[simp] theorem State.modCon_recov (s : State) (c : Nat) (f : ContractRec → ContractRec) : (s.modCon c f).recov = s.recov := rfl
@[simp] theorem State.modCon_power (s : State) (c : Nat) (f : ContractRec → ContractRec) : (s.modCon c f).power = s.power := rfl
@[simp] theorem State.modCon_boot (s : State) (c : Nat) (f : ContractRec → ContractRec) : (s.modCon c f).boot = s.boot := rfl
@[simp] theorem State.modCon_glody (s : State) (c : Nat) (f : ContractRec → ContractRec) : (s.modCon c f).glody = s.glody := rfl
@[simp] theorem State.modCon_par (s : State) (c : Nat) (f : ContractRec → ContractRec) (k' : Nat) : (s.modCon c f).par k' = s.par k' := rfl

@[simp] theorem State.modStack_dict (s : State) (k : Nat) (f : StackRec → StackRec) : (s.modStack k f).dict = s.dict := rfl
@[simp] theorem State.modStack_pending (s : State) (k : Nat) (f : StackRec → StackRec) : (s.modStack k f).pending = s.pending := rfl
@[simp] theorem State.modStack_out (s : State) (k : Nat) (f : StackRec → StackRec) : (s.modStack k f).out = s.out := rfl
@[simp] theorem State.modStack_now (s : State) (k : Nat) (f : StackRec → StackRec) : (s.modStack k f).now = s.now := rfl
@[simp] theorem State.modStack_freeCtr (s : State) (k : Nat) (f : StackRec → StackRec) : (s.modStack k f).freeCtr = s.freeCtr := rfl
@[simp] theorem State.modStack_arb (s : State) (k : Nat) (f : StackRec → StackRec) : (s.modStack k f).arb = s.arb := rfl
@[simp] theorem State.modStack_own (s : State) (k : Nat) (f : StackRec → StackRec) : (s.modStack k f).own = s.own := rfl
@[simp] theorem State.modStack_mem (s : State) (k : Nat) (f : StackRec → StackRec) : (s.modStack k f).mem = s.mem := rfl
@[simp] theorem State.modStack_fac (s : State) (k : Nat) (f : StackRec → StackRec) : (s.modStack k f).fac = s.fac := rfl
@[simp] theorem State.modStack_jobs (s : State) (k : Nat) (f : StackRec → StackRec) : (s.modStack k f).jobs = s.jobs := rfl
@[simp] theorem State.modStack_reds (s : State) (k : Nat) (f : StackRec → StackRec) : (s.modStack k f).reds = s.reds := rfl
@[simp] theorem State.modStack_shared (s : State) (k : Nat) (f : StackRec → StackRec) : (s.modStack k f).shared = s.shared := rfl
@[simp] theorem State.modStack_queues (s : State) (k : Nat) (f : StackRec → StackRec) : (s.modStack k f).queues = s.queues := rfl
@[simp] theorem State.modStack_ports (s : State) (k : Nat) (f : StackRec → StackRec) : (s.modStack k f).ports = s.ports := rfl
@[simp] theorem State.modStack_svc (s : State) (k : Nat) (f : StackRec → StackRec) : (s.modStack k f).svc = s.svc := rfl
@[simp] theorem State.modStack_reg (s : State) (k : Nat) (f : StackRec → StackRec) : (s.modStack k f).reg = s.reg := rfl
@[simp] theorem State.modStack_stackTab (s : State) (k : Nat) (f : StackRec → StackRec) : (s.modStack k f).stackTab = Tab.mod k f s.stackTab := rfl
@[simp] theorem State.modStack_media (s : State) (k : Nat) (f : StackRec → StackRec) : (s.modStack k f).media = s.media := rfl
@[simp] theorem State.modStack_integ (s : State) (k : Nat) (f : StackRec → StackRec) : (s.modStack k f).integ = s.integ := rfl
@[simp] theorem State.modStack_recov (s : State) (k : Nat) (f : StackRec → StackRec) : (s.modStack k f).recov = s.recov := rfl
@[simp] theorem State.modStack_power (s : State) (k : Nat) (f : StackRec → StackRec) : (s.modStack k f).power = s.power := rfl
@[simp] theorem State.modStack_boot (s : State) (k : Nat) (f : StackRec → StackRec) : (s.modStack k f).boot = s.boot := rfl
@[simp] theorem State.modStack_glody (s : State) (k : Nat) (f : StackRec → StackRec) : (s.modStack k f).glody = s.glody := rfl
@[simp] theorem State.modStack_par (s : State) (k : Nat) (f : StackRec → StackRec) (k' : Nat) : (s.modStack k f).par k' = s.par k' := rfl

@[simp] theorem State.modMedia_dict (s : State) (f : Media → Media) : (s.modMedia f).dict = s.dict := rfl
@[simp] theorem State.modMedia_pending (s : State) (f : Media → Media) : (s.modMedia f).pending = s.pending := rfl
@[simp] theorem State.modMedia_out (s : State) (f : Media → Media) : (s.modMedia f).out = s.out := rfl
@[simp] theorem State.modMedia_now (s : State) (f : Media → Media) : (s.modMedia f).now = s.now := rfl
@[simp] theorem State.modMedia_freeCtr (s : State) (f : Media → Media) : (s.modMedia f).freeCtr = s.freeCtr := rfl
@[simp] theorem State.modMedia_arb (s : State) (f : Media → Media) : (s.modMedia f).arb = s.arb := rfl
@[simp] theorem State.modMedia_own (s : State) (f : Media → Media) : (s.modMedia f).own = s.own := rfl
@[simp] theorem State.modMedia_mem (s : State) (f : Media → Media) : (s.modMedia f).mem = s.mem := rfl
@[simp] theorem State.modMedia_fac (s : State) (f : Media → Media) : (s.modMedia f).fac = s.fac := rfl
@[simp] theorem State.modMedia_jobs (s : State) (f : Media → Media) : (s.modMedia f).jobs = s.jobs := rfl
@[simp] theorem State.modMedia_reds (s : State) (f : Media → Media) : (s.modMedia f).reds = s.reds := rfl
@[simp] theorem State.modMedia_shared (s : State) (f : Media → Media) : (s.modMedia f).shared = s.shared := rfl
@[simp] theorem State.modMedia_queues (s : State) (f : Media → Media) : (s.modMedia f).queues = s.queues := rfl
@[simp] theorem State.modMedia_ports (s : State) (f : Media → Media) : (s.modMedia f).ports = s.ports := rfl
@[simp] theorem State.modMedia_svc (s : State) (f : Media → Media) : (s.modMedia f).svc = s.svc := rfl
@[simp] theorem State.modMedia_reg (s : State) (f : Media → Media) : (s.modMedia f).reg = s.reg := rfl
@[simp] theorem State.modMedia_stackTab (s : State) (f : Media → Media) : (s.modMedia f).stackTab = s.stackTab := rfl
@[simp] theorem State.modMedia_media (s : State) (f : Media → Media) : (s.modMedia f).media = f s.media := rfl
@[simp] theorem State.modMedia_integ (s : State) (f : Media → Media) : (s.modMedia f).integ = s.integ := rfl
@[simp] theorem State.modMedia_recov (s : State) (f : Media → Media) : (s.modMedia f).recov = s.recov := rfl
@[simp] theorem State.modMedia_power (s : State) (f : Media → Media) : (s.modMedia f).power = s.power := rfl
@[simp] theorem State.modMedia_boot (s : State) (f : Media → Media) : (s.modMedia f).boot = s.boot := rfl
@[simp] theorem State.modMedia_glody (s : State) (f : Media → Media) : (s.modMedia f).glody = s.glody := rfl
@[simp] theorem State.modMedia_par (s : State) (f : Media → Media) (k' : Nat) : (s.modMedia f).par k' = s.par k' := rfl

@[simp] theorem State.modInteg_dict (s : State) (f : Integ → Integ) : (s.modInteg f).dict = s.dict := rfl
@[simp] theorem State.modInteg_pending (s : State) (f : Integ → Integ) : (s.modInteg f).pending = s.pending := rfl
@[simp] theorem State.modInteg_out (s : State) (f : Integ → Integ) : (s.modInteg f).out = s.out := rfl
@[simp] theorem State.modInteg_now (s : State) (f : Integ → Integ) : (s.modInteg f).now = s.now := rfl
@[simp] theorem State.modInteg_freeCtr (s : State) (f : Integ → Integ) : (s.modInteg f).freeCtr = s.freeCtr := rfl
@[simp] theorem State.modInteg_arb (s : State) (f : Integ → Integ) : (s.modInteg f).arb = s.arb := rfl
@[simp] theorem State.modInteg_own (s : State) (f : Integ → Integ) : (s.modInteg f).own = s.own := rfl
@[simp] theorem State.modInteg_mem (s : State) (f : Integ → Integ) : (s.modInteg f).mem = s.mem := rfl
@[simp] theorem State.modInteg_fac (s : State) (f : Integ → Integ) : (s.modInteg f).fac = s.fac := rfl
@[simp] theorem State.modInteg_jobs (s : State) (f : Integ → Integ) : (s.modInteg f).jobs = s.jobs := rfl
@[simp] theorem State.modInteg_reds (s : State) (f : Integ → Integ) : (s.modInteg f).reds = s.reds := rfl
@[simp] theorem State.modInteg_shared (s : State) (f : Integ → Integ) : (s.modInteg f).shared = s.shared := rfl
@[simp] theorem State.modInteg_queues (s : State) (f : Integ → Integ) : (s.modInteg f).queues = s.queues := rfl
@[simp] theorem State.modInteg_ports (s : State) (f : Integ → Integ) : (s.modInteg f).ports = s.ports := rfl
@[simp] theorem State.modInteg_svc (s : State) (f : Integ → Integ) : (s.modInteg f).svc = s.svc := rfl
@[simp] theorem State.modInteg_reg (s : State) (f : Integ → Integ) : (s.modInteg f).reg = s.reg := rfl
@[simp] theorem State.modInteg_stackTab (s : State) (f : Integ → Integ) : (s.modInteg f).stackTab = s.stackTab := rfl
@[simp] theorem State.modInteg_media (s : State) (f : Integ → Integ) : (s.modInteg f).media = s.media := rfl
@[simp] theorem State.modInteg_integ (s : State) (f : Integ → Integ) : (s.modInteg f).integ = f s.integ := rfl
@[simp] theorem State.modInteg_recov (s : State) (f : Integ → Integ) : (s.modInteg f).recov = s.recov := rfl
@[simp] theorem State.modInteg_power (s : State) (f : Integ → Integ) : (s.modInteg f).power = s.power := rfl
@[simp] theorem State.modInteg_boot (s : State) (f : Integ → Integ) : (s.modInteg f).boot = s.boot := rfl
@[simp] theorem State.modInteg_glody (s : State) (f : Integ → Integ) : (s.modInteg f).glody = s.glody := rfl
@[simp] theorem State.modInteg_par (s : State) (f : Integ → Integ) (k' : Nat) : (s.modInteg f).par k' = s.par k' := rfl

@[simp] theorem State.modRecov_dict (s : State) (f : Recov → Recov) : (s.modRecov f).dict = s.dict := rfl
@[simp] theorem State.modRecov_pending (s : State) (f : Recov → Recov) : (s.modRecov f).pending = s.pending := rfl
@[simp] theorem State.modRecov_out (s : State) (f : Recov → Recov) : (s.modRecov f).out = s.out := rfl
@[simp] theorem State.modRecov_now (s : State) (f : Recov → Recov) : (s.modRecov f).now = s.now := rfl
@[simp] theorem State.modRecov_freeCtr (s : State) (f : Recov → Recov) : (s.modRecov f).freeCtr = s.freeCtr := rfl
@[simp] theorem State.modRecov_arb (s : State) (f : Recov → Recov) : (s.modRecov f).arb = s.arb := rfl
@[simp] theorem State.modRecov_own (s : State) (f : Recov → Recov) : (s.modRecov f).own = s.own := rfl
@[simp] theorem State.modRecov_mem (s : State) (f : Recov → Recov) : (s.modRecov f).mem = s.mem := rfl
@[simp] theorem State.modRecov_fac (s : State) (f : Recov → Recov) : (s.modRecov f).fac = s.fac := rfl
@[simp] theorem State.modRecov_jobs (s : State) (f : Recov → Recov) : (s.modRecov f).jobs = s.jobs := rfl
@[simp] theorem State.modRecov_reds (s : State) (f : Recov → Recov) : (s.modRecov f).reds = s.reds := rfl
@[simp] theorem State.modRecov_shared (s : State) (f : Recov → Recov) : (s.modRecov f).shared = s.shared := rfl
@[simp] theorem State.modRecov_queues (s : State) (f : Recov → Recov) : (s.modRecov f).queues = s.queues := rfl
@[simp] theorem State.modRecov_ports (s : State) (f : Recov → Recov) : (s.modRecov f).ports = s.ports := rfl
@[simp] theorem State.modRecov_svc (s : State) (f : Recov → Recov) : (s.modRecov f).svc = s.svc := rfl
@[simp] theorem State.modRecov_reg (s : State) (f : Recov → Recov) : (s.modRecov f).reg = s.reg := rfl
@[simp] theorem State.modRecov_stackTab (s : State) (f : Recov → Recov) : (s.modRecov f).stackTab = s.stackTab := rfl
@[simp] theorem State.modRecov_media (s : State) (f : Recov → Recov) : (s.modRecov f).media = s.media := rfl
@[simp] theorem State.modRecov_integ (s : State) (f : Recov → Recov) : (s.modRecov f).integ = s.integ := rfl
@[simp] theorem State.modRecov_recov (s : State) (f : Recov → Recov) : (s.modRecov f).recov = f s.recov := rfl
@[simp] theorem State.modRecov_power (s : State) (f : Recov → Recov) : (s.modRecov f).power = s.power := rfl
@[simp] theorem State.modRecov_boot (s : State) (f : Recov → Recov) : (s.modRecov f).boot = s.boot := rfl
@[simp] theorem State.modRecov_glody (s : State) (f : Recov → Recov) : (s.modRecov f).glody = s.glody := rfl
@[simp] theorem State.modRecov_par (s : State) (f : Recov → Recov) (k' : Nat) : (s.modRecov f).par k' = s.par k' := rfl

@[simp] theorem State.hubWait_dict (s : State) (r : HeldReq) : (s.hubWait r).dict = s.dict := rfl
@[simp] theorem State.hubWait_pending (s : State) (r : HeldReq) : (s.hubWait r).pending = s.pending := rfl
@[simp] theorem State.hubWait_out (s : State) (r : HeldReq) : (s.hubWait r).out = s.out := rfl
@[simp] theorem State.hubWait_now (s : State) (r : HeldReq) : (s.hubWait r).now = s.now := rfl
@[simp] theorem State.hubWait_freeCtr (s : State) (r : HeldReq) : (s.hubWait r).freeCtr = s.freeCtr := rfl
@[simp] theorem State.hubWait_arb (s : State) (r : HeldReq) : (s.hubWait r).arb = s.arb := rfl
@[simp] theorem State.hubWait_own (s : State) (r : HeldReq) : (s.hubWait r).own = s.own := rfl
@[simp] theorem State.hubWait_mem (s : State) (r : HeldReq) : (s.hubWait r).mem = s.mem := rfl
@[simp] theorem State.hubWait_fac (s : State) (r : HeldReq) : (s.hubWait r).fac = s.fac := rfl
@[simp] theorem State.hubWait_jobs (s : State) (r : HeldReq) : (s.hubWait r).jobs = s.jobs := rfl
@[simp] theorem State.hubWait_reds (s : State) (r : HeldReq) : (s.hubWait r).reds = s.reds := rfl
@[simp] theorem State.hubWait_shared (s : State) (r : HeldReq) : (s.hubWait r).shared = s.shared := rfl
@[simp] theorem State.hubWait_queues (s : State) (r : HeldReq) : (s.hubWait r).queues = s.queues := rfl
@[simp] theorem State.hubWait_ports (s : State) (r : HeldReq) : (s.hubWait r).ports = s.ports := rfl
@[simp] theorem State.hubWait_svc (s : State) (r : HeldReq) : (s.hubWait r).svc = s.svc := rfl
@[simp] theorem State.hubWait_reg (s : State) (r : HeldReq) : (s.hubWait r).reg = s.reg := rfl
@[simp] theorem State.hubWait_stackTab (s : State) (r : HeldReq) : (s.hubWait r).stackTab = s.stackTab := rfl
@[simp] theorem State.hubWait_media (s : State) (r : HeldReq) : (s.hubWait r).media = s.media := rfl
@[simp] theorem State.hubWait_integ (s : State) (r : HeldReq) : (s.hubWait r).integ = s.integ := rfl
@[simp] theorem State.hubWait_power (s : State) (r : HeldReq) : (s.hubWait r).power = s.power := rfl
@[simp] theorem State.hubWait_boot (s : State) (r : HeldReq) : (s.hubWait r).boot = s.boot := rfl
@[simp] theorem State.hubWait_glody (s : State) (r : HeldReq) : (s.hubWait r).glody = s.glody := rfl
@[simp] theorem State.hubWait_par (s : State) (r : HeldReq) (k' : Nat) : (s.hubWait r).par k' = s.par k' := rfl

@[simp] theorem State.pw_dict (s : State) (f : Power → Power) : (s.pw f).dict = s.dict := rfl
@[simp] theorem State.pw_pending (s : State) (f : Power → Power) : (s.pw f).pending = s.pending := rfl
@[simp] theorem State.pw_out (s : State) (f : Power → Power) : (s.pw f).out = s.out := rfl
@[simp] theorem State.pw_now (s : State) (f : Power → Power) : (s.pw f).now = s.now := rfl
@[simp] theorem State.pw_freeCtr (s : State) (f : Power → Power) : (s.pw f).freeCtr = s.freeCtr := rfl
@[simp] theorem State.pw_arb (s : State) (f : Power → Power) : (s.pw f).arb = s.arb := rfl
@[simp] theorem State.pw_own (s : State) (f : Power → Power) : (s.pw f).own = s.own := rfl
@[simp] theorem State.pw_mem (s : State) (f : Power → Power) : (s.pw f).mem = s.mem := rfl
@[simp] theorem State.pw_fac (s : State) (f : Power → Power) : (s.pw f).fac = s.fac := rfl
@[simp] theorem State.pw_jobs (s : State) (f : Power → Power) : (s.pw f).jobs = s.jobs := rfl
@[simp] theorem State.pw_reds (s : State) (f : Power → Power) : (s.pw f).reds = s.reds := rfl
@[simp] theorem State.pw_shared (s : State) (f : Power → Power) : (s.pw f).shared = s.shared := rfl
@[simp] theorem State.pw_queues (s : State) (f : Power → Power) : (s.pw f).queues = s.queues := rfl
@[simp] theorem State.pw_ports (s : State) (f : Power → Power) : (s.pw f).ports = s.ports := rfl
@[simp] theorem State.pw_svc (s : State) (f : Power → Power) : (s.pw f).svc = s.svc := rfl
@[simp] theorem State.pw_reg (s : State) (f : Power → Power) : (s.pw f).reg = s.reg := rfl
@[simp] theorem State.pw_stackTab (s : State) (f : Power → Power) : (s.pw f).stackTab = s.stackTab := rfl
@[simp] theorem State.pw_media (s : State) (f : Power → Power) : (s.pw f).media = s.media := rfl
@[simp] theorem State.pw_integ (s : State) (f : Power → Power) : (s.pw f).integ = s.integ := rfl
@[simp] theorem State.pw_recov (s : State) (f : Power → Power) : (s.pw f).recov = s.recov := rfl
@[simp] theorem State.pw_power (s : State) (f : Power → Power) : (s.pw f).power = f s.power := rfl
@[simp] theorem State.pw_boot (s : State) (f : Power → Power) : (s.pw f).boot = s.boot := rfl
@[simp] theorem State.pw_glody (s : State) (f : Power → Power) : (s.pw f).glody = s.glody := rfl
@[simp] theorem State.pw_par (s : State) (f : Power → Power) (k' : Nat) : (s.pw f).par k' = s.par k' := rfl

@[simp] theorem State.modBoot_dict (s : State) (f : Boot → Boot) : (s.modBoot f).dict = s.dict := rfl
@[simp] theorem State.modBoot_pending (s : State) (f : Boot → Boot) : (s.modBoot f).pending = s.pending := rfl
@[simp] theorem State.modBoot_out (s : State) (f : Boot → Boot) : (s.modBoot f).out = s.out := rfl
@[simp] theorem State.modBoot_now (s : State) (f : Boot → Boot) : (s.modBoot f).now = s.now := rfl
@[simp] theorem State.modBoot_freeCtr (s : State) (f : Boot → Boot) : (s.modBoot f).freeCtr = s.freeCtr := rfl
@[simp] theorem State.modBoot_arb (s : State) (f : Boot → Boot) : (s.modBoot f).arb = s.arb := rfl
@[simp] theorem State.modBoot_own (s : State) (f : Boot → Boot) : (s.modBoot f).own = s.own := rfl
@[simp] theorem State.modBoot_mem (s : State) (f : Boot → Boot) : (s.modBoot f).mem = s.mem := rfl
@[simp] theorem State.modBoot_fac (s : State) (f : Boot → Boot) : (s.modBoot f).fac = s.fac := rfl
@[simp] theorem State.modBoot_jobs (s : State) (f : Boot → Boot) : (s.modBoot f).jobs = s.jobs := rfl
@[simp] theorem State.modBoot_reds (s : State) (f : Boot → Boot) : (s.modBoot f).reds = s.reds := rfl
@[simp] theorem State.modBoot_shared (s : State) (f : Boot → Boot) : (s.modBoot f).shared = s.shared := rfl
@[simp] theorem State.modBoot_queues (s : State) (f : Boot → Boot) : (s.modBoot f).queues = s.queues := rfl
@[simp] theorem State.modBoot_ports (s : State) (f : Boot → Boot) : (s.modBoot f).ports = s.ports := rfl
@[simp] theorem State.modBoot_svc (s : State) (f : Boot → Boot) : (s.modBoot f).svc = s.svc := rfl
@[simp] theorem State.modBoot_reg (s : State) (f : Boot → Boot) : (s.modBoot f).reg = s.reg := rfl
@[simp] theorem State.modBoot_stackTab (s : State) (f : Boot → Boot) : (s.modBoot f).stackTab = s.stackTab := rfl
@[simp] theorem State.modBoot_media (s : State) (f : Boot → Boot) : (s.modBoot f).media = s.media := rfl
@[simp] theorem State.modBoot_integ (s : State) (f : Boot → Boot) : (s.modBoot f).integ = s.integ := rfl
@[simp] theorem State.modBoot_recov (s : State) (f : Boot → Boot) : (s.modBoot f).recov = s.recov := rfl
@[simp] theorem State.modBoot_power (s : State) (f : Boot → Boot) : (s.modBoot f).power = s.power := rfl
@[simp] theorem State.modBoot_boot (s : State) (f : Boot → Boot) : (s.modBoot f).boot = f s.boot := rfl
@[simp] theorem State.modBoot_glody (s : State) (f : Boot → Boot) : (s.modBoot f).glody = s.glody := rfl
@[simp] theorem State.modBoot_par (s : State) (f : Boot → Boot) (k' : Nat) : (s.modBoot f).par k' = s.par k' := rfl

@[simp] theorem State.modGlody_dict (s : State) (f : Glody → Glody) : (s.modGlody f).dict = s.dict := rfl
@[simp] theorem State.modGlody_pending (s : State) (f : Glody → Glody) : (s.modGlody f).pending = s.pending := rfl
@[simp] theorem State.modGlody_out (s : State) (f : Glody → Glody) : (s.modGlody f).out = s.out := rfl
@[simp] theorem State.modGlody_now (s : State) (f : Glody → Glody) : (s.modGlody f).now = s.now := rfl
@[simp] theorem State.modGlody_freeCtr (s : State) (f : Glody → Glody) : (s.modGlody f).freeCtr = s.freeCtr := rfl
@[simp] theorem State.modGlody_arb (s : State) (f : Glody → Glody) : (s.modGlody f).arb = s.arb := rfl
@[simp] theorem State.modGlody_own (s : State) (f : Glody → Glody) : (s.modGlody f).own = s.own := rfl
@[simp] theorem State.modGlody_mem (s : State) (f : Glody → Glody) : (s.modGlody f).mem = s.mem := rfl
@[simp] theorem State.modGlody_fac (s : State) (f : Glody → Glody) : (s.modGlody f).fac = s.fac := rfl
@[simp] theorem State.modGlody_jobs (s : State) (f : Glody → Glody) : (s.modGlody f).jobs = s.jobs := rfl
@[simp] theorem State.modGlody_reds (s : State) (f : Glody → Glody) : (s.modGlody f).reds = s.reds := rfl
@[simp] theorem State.modGlody_shared (s : State) (f : Glody → Glody) : (s.modGlody f).shared = s.shared := rfl
@[simp] theorem State.modGlody_queues (s : State) (f : Glody → Glody) : (s.modGlody f).queues = s.queues := rfl
@[simp] theorem State.modGlody_ports (s : State) (f : Glody → Glody) : (s.modGlody f).ports = s.ports := rfl
@[simp] theorem State.modGlody_svc (s : State) (f : Glody → Glody) : (s.modGlody f).svc = s.svc := rfl
@[simp] theorem State.modGlody_reg (s : State) (f : Glody → Glody) : (s.modGlody f).reg = s.reg := rfl
@[simp] theorem State.modGlody_stackTab (s : State) (f : Glody → Glody) : (s.modGlody f).stackTab = s.stackTab := rfl
@[simp] theorem State.modGlody_media (s : State) (f : Glody → Glody) : (s.modGlody f).media = s.media := rfl
@[simp] theorem State.modGlody_integ (s : State) (f : Glody → Glody) : (s.modGlody f).integ = s.integ := rfl
@[simp] theorem State.modGlody_recov (s : State) (f : Glody → Glody) : (s.modGlody f).recov = s.recov := rfl
@[simp] theorem State.modGlody_power (s : State) (f : Glody → Glody) : (s.modGlody f).power = s.power := rfl
@[simp] theorem State.modGlody_boot (s : State) (f : Glody → Glody) : (s.modGlody f).boot = s.boot := rfl
@[simp] theorem State.modGlody_glody (s : State) (f : Glody → Glody) : (s.modGlody f).glody = f s.glody := rfl
@[simp] theorem State.modGlody_par (s : State) (f : Glody → Glody) (k' : Nat) : (s.modGlody f).par k' = s.par k' := rfl

/-- A parameter reads as the device wrote it (R412). -/
theorem State.par_setPar_same (s : State) (k v : Nat) : (s.setPar k v).par k = v % 2 ^ 64 := Tab.getD_setD_same _ _ _ _

/-- A write of one parameter leaves every other (R412). -/
theorem State.par_setPar_other (s : State) {j k : Nat} (h : j ≠ k) (v : Nat) : (s.setPar k v).par j = s.par j :=
  Tab.getD_setD_other _ _ h _ _

end Sys2Proof.Machine
end

