-- ==== Sys2Proof/Laws/Keeps.lean ====
section
/-! SUPPORT. The ways in which an effect that leaves the queue alone, keeps the canonical form and writes only named parts is built from smaller ones. -/
namespace Sys2Proof.Machine

/-- `P` of the state in an option, in the second part of a pair, in the first, in a result, in a next state. -/
def Opt {α : Type} (P : α → Prop) (o : Option α) : Prop := ∀ a, o = some a → P a
def Snd {α β : Type} (P : β → Prop) (p : α × β) : Prop := P p.2
def Fst {α β : Type} (P : α → Prop) (p : α × β) : Prop := P p.1
def Exc {α ε : Type} (P : α → Prop) (e : Except ε α) : Prop := ∀ a, e = .ok a → P a
def Nxt (P : State → Prop) (r : R) : Prop := ∀ t, r = .next t → P t

section
variable {α β γ ε : Type} {P : α → Prop} {Q : β → Prop}

theorem Opt.none : Opt P none := fun _ h => nomatch h
theorem Opt.some {a : α} (h : P a) : Opt P (some a) := fun _ e => Option.some.inj e ▸ h
theorem Opt.of_eq {o : Option α} {a : α} (h : Opt P o) (e : o = .some a) : P a := h a e
theorem Snd.mk {a : α} {b : β} (h : Q b) : Snd Q (a, b) := h
theorem Snd.of_eq {p : α × β} {a : α} {b : β} (h : Snd Q p) (e : p = (a, b)) : Q b := by subst e; exact h
theorem Snd.of_eq₂ {p : γ × α × β} {c : γ} {a : α} {b : β} (h : Snd (Snd Q) p) (e : p = (c, a, b)) : Q b := by subst e; exact h
theorem Snd.of_eq₃ {δ : Type} {p : δ × γ × α × β} {e : δ} {c : γ} {a : α} {b : β} (h : Snd (Snd (Snd Q)) p) (q : p = (e, c, a, b)) : Q b := by
  subst q; exact h
theorem Snd.get₂ {p : γ × α × β} (h : Snd (Snd Q) p) : Q p.2.2 := h
theorem Opt.snd_of_eq {o : Option (α × β)} {a : α} {b : β} (h : Opt (Snd Q) o) (e : o = Option.some (a, b)) : Q b := h (a, b) e
theorem Opt.snd_of_eq₂ {o : Option (γ × α × β)} {c : γ} {a : α} {b : β} (h : Opt (Snd (Snd Q)) o) (e : o = Option.some (c, a, b)) : Q b := h (c, a, b) e
theorem Opt.fst_of_eq {o : Option (α × β)} {a : α} {b : β} (h : Opt (Fst P) o) (e : o = Option.some (a, b)) : P a := h (a, b) e
theorem Opt.getD {o : Option α} {d : α} (h : Opt P o) (hd : P d) : P (o.getD d) := by cases o with | none => exact hd | some a => exact h a rfl
theorem Opt.map {o : Option α} {f : α → β} (h : ∀ a, Q (f a)) : Opt Q (o.map f) := by
  cases o with | none => exact Opt.none | some a => exact Opt.some (h a)
theorem Opt.bind {o : Option α} {f : α → Option β} (h : ∀ a, Opt Q (f a)) : Opt Q (o.bind f) := by
  cases o with | none => exact Opt.none | some a => exact h a
theorem Opt.mapK {o : Option α} {f : α → β} (ho : Opt P o) (h : ∀ a, P a → Q (f a)) : Opt Q (o.map f) := by
  cases o with | none => exact Opt.none | some a => exact Opt.some (h a (ho a rfl))
theorem Opt.bindK {o : Option α} {f : α → Option β} (ho : Opt P o) (h : ∀ a, P a → Opt Q (f a)) : Opt Q (o.bind f) := by
  cases o with | none => exact Opt.none | some a => exact h a (ho a rfl)
theorem Opt.ite {c : Prop} [Decidable c] {a b : Option α} (ha : Opt P a) (hb : Opt P b) : Opt P (if c then a else b) := by
  split <;> assumption
theorem Exc.snd_of_eq {o : Except ε (α × β)} {a : α} {b : β} (h : Exc (Snd Q) o) (e : o = .ok (a, b)) : Q b := h (a, b) e
theorem Exc.snd_of_eq₂ {o : Except ε (γ × α × β)} {c : γ} {a : α} {b : β} (h : Exc (Snd (Snd Q)) o) (e : o = .ok (c, a, b)) : Q b := h (c, a, b) e
theorem Snd.get {p : α × β} (h : Snd Q p) : Q p.2 := h
theorem Fst.mk {a : α} {b : β} (h : P a) : Fst P (a, b) := h
theorem Fst.of_eq {p : α × β} {a : α} {b : β} (h : Fst P p) (e : p = (a, b)) : P a := by subst e; exact h
theorem Fst.get {p : α × β} (h : Fst P p) : P p.1 := h
theorem Exc.error {x : ε} : Exc P (Except.error x) := fun _ h => nomatch h
theorem Exc.ok {a : α} (h : P a) : Exc P (Except.ok a : Except ε α) := fun _ e => Except.ok.inj e ▸ h
theorem Exc.of_eq {e : Except ε α} {a : α} (h : Exc P e) (q : e = .ok a) : P a := h a q
theorem Nxt.next {P : State → Prop} {t : State} (h : P t) : Nxt P (.next t) := fun _ e => Host.Outcome.next.inj e ▸ h
theorem Nxt.of_eq {P : State → Prop} {r : R} {t : State} (h : Nxt P r) (e : r = .next t) : P t := h t e
theorem Nxt.fault {P : State → Prop} {f : Fault} : Nxt P (.fault f) := fun _ h => nomatch h
theorem Nxt.refused {P : State → Prop} {f : Refusal} : Nxt P (.refused f) := fun _ h => nomatch h
end

/-- Every part of `a` is one of `b`. -/
def Within (a b : List Part) : Prop := ∀ p ∈ a, p ∈ b

theorem Within.le {a b F : List Part} (h : Within b F) (e : a.all (fun p => b.contains p) = true) : Within a F := by
  intro p hp
  have := List.all_eq_true.1 e p hp
  exact h p (by simpa using this)

theorem Part.same_refl (p : Part) (s : State) : p.same s s := by cases p <;> rfl

theorem Part.same_trans {p : Part} {s t u : State} (h : p.same s t) (h' : p.same t u) : p.same s u := by
  cases p <;> exact Eq.trans h' h

variable {s0 s : State} {F D : List Part}

theorem State.Keeps.rfl : s0.Keeps F s0 := ⟨Eq.refl _, id, fun p => .inr (p.same_refl s0)⟩

/-- The parts written by two effects, one after the other. -/
theorem frame_trans {t : State} (hD : Within D F) (h : ∀ p, p ∈ F ∨ p.same s0 s) (h' : ∀ p, p ∈ D ∨ p.same s t) (p : Part) :
    p ∈ F ∨ p.same s0 t := by
  rcases h p with h | h
  · exact .inl h
  · rcases h' p with h' | h'
    · exact .inl (hD p h')
    · exact .inr (Part.same_trans h h')

/-- An effect that writes neither the queue, nor the dictionary, nor memory. -/
theorem State.Keeps.congr {t : State} (hF : Within D F) (h : s0.Keeps F s) (hq : t.pending = s.pending) (hd : t.dict = s.dict)
    (hm : t.mem.hbm = s.mem.hbm) (ht : t.mem.t0 = s.mem.t0) (hp : ∀ p, p ∈ D ∨ p.same s t) : s0.Keeps F t := by
  refine ⟨hq.trans h.queue, fun c => ?_, frame_trans hF h.frame hp⟩
  obtain ⟨h1, h2, h3⟩ := h.canon c
  exact ⟨by unfold State.dictWf at *; rw [hd]; exact h1, by rw [hm]; exact h2, by rw [ht]; exact h3⟩

/-- An effect that leaves out entries of the dictionary and writes neither the queue nor memory. -/
theorem State.Keeps.filter {t : State} (hF : Within D F) (h : s0.Keeps F s) (f : Nat × Nat → Bool) (hq : t.pending = s.pending)
    (hd : t.dict = s.dict.filter f) (hm : t.mem.hbm = s.mem.hbm) (ht : t.mem.t0 = s.mem.t0) (hp : ∀ p, p ∈ D ∨ p.same s t) :
    s0.Keeps F t := by
  refine ⟨hq.trans h.queue, fun c => ?_, frame_trans hF h.frame hp⟩
  obtain ⟨h1, h2, h3⟩ := h.canon c
  refine ⟨?_, by rw [hm]; exact h2, by rw [ht]; exact h3⟩
  unfold State.dictWf at *
  rw [Bool.and_eq_true] at *
  rw [hd]
  refine ⟨Tab.wfBy_filter _ _ h1.1, ?_⟩
  rw [List.all_eq_true] at *
  exact fun p hp => h1.2 p (List.mem_filter.1 hp).1

/-- An effect on memory that writes neither of its listings of bytes. -/
theorem State.modMem_keeps {f : Mem → Mem} (hF : Within [.mem] F) (h : s0.Keeps F s) (h1 : ∀ m : Mem, (f m).hbm = m.hbm)
    (h2 : ∀ m : Mem, (f m).t0 = m.t0) : s0.Keeps F (s.modMem f) :=
  .congr hF h rfl rfl (h1 _) (h2 _) (by rintro ⟨⟩ <;> simp [Part.same, h1, h2])

/-- An effect on HBM and the rest of memory that keeps the bytes canonical. -/
theorem State.modMem_hbm_keeps {f : Mem → Mem} (hF : Within [.hbm, .mem] F) (h : s0.Keeps F s) (h2 : ∀ m : Mem, (f m).t0 = m.t0)
    (h1 : ∀ m : Mem, Memory.wf m.hbm = true → Memory.wf (f m).hbm = true) : s0.Keeps F (s.modMem f) :=
  ⟨h.queue, fun c => let k := h.canon c; ⟨k.dict, h1 _ k.hbm, by rw [State.modMem_mem, h2]; exact k.t0⟩,
   frame_trans hF h.frame (by rintro ⟨⟩ <;> simp [Part.same, h2])⟩

/-- An effect on the T0 windows and the rest of memory that keeps the bytes canonical. -/
theorem State.modMem_t0_keeps {f : Mem → Mem} (hF : Within [.t0, .mem] F) (h : s0.Keeps F s) (h1 : ∀ m : Mem, (f m).hbm = m.hbm)
    (h2 : ∀ m : Mem, Memory.wf m.t0 = true → Memory.wf (f m).t0 = true) : s0.Keeps F (s.modMem f) :=
  ⟨h.queue, fun c => let k := h.canon c; ⟨k.dict, by rw [State.modMem_mem, h1]; exact k.hbm, h2 _ k.t0⟩,
   frame_trans hF h.frame (by rintro ⟨⟩ <;> simp [Part.same, h1])⟩

/-- A write of a parameter keeps the dictionary canonical. -/
theorem State.setPar_keeps {k v : Nat} (hF : Within [.dict] F) (h : s0.Keeps F s) : s0.Keeps F (s.setPar k v) := by
  refine ⟨h.queue, fun c => ?_, frame_trans hF h.frame (by rintro ⟨⟩ <;> simp [Part.same])⟩
  obtain ⟨h1, h2, h3⟩ := h.canon c
  refine ⟨?_, h2, h3⟩
  unfold State.dictWf at *
  rw [Bool.and_eq_true] at *
  refine ⟨Tab.wfBy_setD dictDefault k _ h1.1, ?_⟩
  rw [List.all_eq_true] at *
  intro p hp
  simp only [decide_eq_true_eq] at *
  have he : ∀ p ∈ Tab.erase k s.dict, p.2 < 2 ^ 64 := fun p hp => h1.2 p (by rw [Tab.erase_eq] at hp; exact (List.mem_filter.1 hp).1)
  simp only [State.setPar, Tab.setD] at hp
  split at hp
  · exact he p hp
  · rcases Tab.mem_insert hp with rfl | hp
    · exact Nat.mod_lt _ (by decide)
    · exact he p hp

/-- One effect after another for the items of a list. -/
theorem forAll_keeps {α : Type} {f : α → State → State} {l : List α} (hf : ∀ a s, s0.Keeps F s → s0.Keeps F (f a s)) (h : s0.Keeps F s) :
    s0.Keeps F (forAll f l s) := by
  induction l generalizing s with
  | nil => exact h
  | cons a l ih => exact ih (hf a s h)

/-- A fold whose step is such an effect. -/
theorem foldl_keeps {α : Type} {f : State → α → State} {l : List α} (hf : ∀ s a, s0.Keeps F s → s0.Keeps F (f s a)) (h : s0.Keeps F s) :
    s0.Keeps F (l.foldl f s) := by
  induction l generalizing s with
  | nil => exact h
  | cons a l ih => exact ih (hf s a h)

theorem foldl_snd_keeps {α β : Type} {f : β × State → α → β × State} {l : List α} {p : β × State}
    (hf : ∀ p a, Snd (s0.Keeps F) p → Snd (s0.Keeps F) (f p a)) (h : Snd (s0.Keeps F) p) : Snd (s0.Keeps F) (l.foldl f p) := by
  induction l generalizing p with
  | nil => exact h
  | cons a l ih => exact ih (hf p a h)

theorem foldl_fst_keeps {α β : Type} {f : State × β → α → State × β} {l : List α} {p : State × β}
    (hf : ∀ p a, Fst (s0.Keeps F) p → Fst (s0.Keeps F) (f p a)) (h : Fst (s0.Keeps F) p) : Fst (s0.Keeps F) (l.foldl f p) := by
  induction l generalizing p with
  | nil => exact h
  | cons a l ih => exact ih (hf p a h)

theorem foldl_opt_keeps {α : Type} {f : Option State → α → Option State} {l : List α} {p : Option State}
    (hf : ∀ p a, Opt (s0.Keeps F) p → Opt (s0.Keeps F) (f p a)) (h : Opt (s0.Keeps F) p) : Opt (s0.Keeps F) (l.foldl f p) := by
  induction l generalizing p with
  | nil => exact h
  | cons a l ih => exact ih (hf p a h)

end Sys2Proof.Machine
end

