-- ==== Sys2Proof/Laws/KeepsOps.lean ====
section
/-! SUPPORT. Every effect of Machine/Ops.lean leaves the queue alone, keeps the canonical form and writes only the parts named. -/
namespace Sys2Proof.Machine

theorem State.count_keeps {s0 s : State} {F : List Part} (hF : Within [.dict] F) {k n : Nat} (h_s : s0.Keeps F s) :
    s0.Keeps F (State.count s k n) := by
  unfold State.count
  apply State.setPar_keeps (hF.le rfl)
  exact h_s

theorem State.uncount_keeps {s0 s : State} {F : List Part} (hF : Within [.dict] F) {k n : Nat} (h_s : s0.Keeps F s) :
    s0.Keeps F (State.uncount s k n) := by
  unfold State.uncount
  apply State.setPar_keeps (hF.le rfl)
  exact h_s

theorem State.emit_keeps {s0 s : State} {F : List Part} (hF : Within [.out] F) {o : Output} (h_s : s0.Keeps F s) :
    s0.Keeps F (State.emit s o) := by
  unfold State.emit
  refine State.Keeps.congr (s := s) (D := [.out]) (hF.le rfl) ?_ rfl rfl rfl rfl (by rintro ⟨⟩ <;> (first | exact .inr rfl | simp))
  exact h_s

theorem State.freeNext_keeps {s0 s : State} {F : List Part} (hF : Within [.freeCtr] F) (h_s : s0.Keeps F s) :
    s0.Keeps F (State.freeNext s) := by
  unfold State.freeNext
  refine State.Keeps.congr (s := s) (D := [.freeCtr]) (hF.le rfl) ?_ rfl rfl rfl rfl (by rintro ⟨⟩ <;> (first | exact .inr rfl | simp))
  exact h_s

theorem State.enqueue_keeps {s0 s : State} {F : List Part} (hF : Within [.dict, .glody] F) {d : Datagram} (h_s : s0.Keeps F s) :
    s0.Keeps F (State.enqueue s d) := by
  unfold State.enqueue
  extract_lets +onlyGivenNames x1
  clear_value x1
  split
  · refine State.Keeps.congr (s := s) (D := [.glody]) (hF.le rfl) ?_ rfl rfl rfl rfl (by rintro ⟨⟩ <;> (first | exact .inr rfl | simp))
    exact h_s
  · extract_lets +onlyGivenNames x4
    clear_value x4
    split
    · refine State.Keeps.congr (s := s) (D := [.glody]) (hF.le rfl) ?_ rfl rfl rfl rfl (by rintro ⟨⟩ <;> (first | exact .inr rfl | simp))
      exact h_s
    · apply State.count_keeps (hF.le rfl)
      refine State.Keeps.congr (s := s) (D := [.glody]) (hF.le rfl) ?_ rfl rfl rfl rfl (by rintro ⟨⟩ <;> (first | exact .inr rfl | simp))
      exact h_s

theorem State.sendNotice_keeps {s0 s : State} {F : List Part} (hF : Within [.dict, .glody] F) {prio op : Nat} {sign : Bool} {seq : Nat} {payload : List Byte} (h_s : s0.Keeps F s) :
    s0.Keeps F (State.sendNotice s prio op sign seq payload) := by
  unfold State.sendNotice
  extract_lets +onlyGivenNames x1
  clear_value x1
  extract_lets +onlyGivenNames x2
  have h2 : s0.Keeps F x2 := by
    unfold x2
    apply State.enqueue_keeps (hF.le rfl)
    exact h_s
  clear_value x2
  split
  · exact h2
  · refine State.Keeps.congr (s := x2) (D := [.glody]) (hF.le rfl) ?_ rfl rfl rfl rfl (by rintro ⟨⟩ <;> (first | exact .inr rfl | simp))
    exact h2

theorem State.storeNotice_keeps {s0 s : State} {F : List Part} (hF : Within [.glody] F) {seq : Nat} {payload : List Byte} (h_s : s0.Keeps F s) :
    s0.Keeps F (State.storeNotice s seq payload) := by
  unfold State.storeNotice
  refine State.Keeps.congr (s := s) (D := [.glody]) (hF.le rfl) ?_ rfl rfl rfl rfl (by rintro ⟨⟩ <;> (first | exact .inr rfl | simp))
  exact h_s

theorem State.notice_keeps {s0 s : State} {F : List Part} (hF : Within [.dict, .glody] F) {event : Nat} {args : List (Nat × List Byte)} (h_s : s0.Keeps F s) :
    s0.Keeps F (State.notice s event args) := by
  unfold State.notice
  extract_lets +onlyGivenNames x1 x2
  clear_value x1 x2
  apply State.sendNotice_keeps (hF.le rfl)
  apply State.storeNotice_keeps (hF.le rfl)
  apply State.setPar_keeps (hF.le rfl)
  exact h_s

theorem State.recoveryNotice_keeps {s0 s : State} {F : List Part} (hF : Within [.dict, .glody] F) {phase : Nat} {keys : List (Nat × List Byte)} {sign : Bool} (h_s : s0.Keeps F s) :
    s0.Keeps F (State.recoveryNotice s phase keys sign) := by
  unfold State.recoveryNotice
  extract_lets +onlyGivenNames x1 x2
  clear_value x1 x2
  apply State.sendNotice_keeps (hF.le rfl)
  apply State.storeNotice_keeps (hF.le rfl)
  apply State.setPar_keeps (hF.le rfl)
  exact h_s

theorem State.svcPut_keeps {s0 s : State} {F : List Part} (hF : Within [.svc] F) {r : SvcReq} (h_s : s0.Keeps F s) :
    s0.Keeps F (State.svcPut s r) := by
  unfold State.svcPut
  refine State.Keeps.congr (s := s) (D := [.svc]) (hF.le rfl) ?_ rfl rfl rfl rfl (by rintro ⟨⟩ <;> (first | exact .inr rfl | simp))
  exact h_s

theorem State.msixSvc_keeps {s0 s : State} {F : List Part} (hF : Within [.svc] F) {v : Nat} (h_s : s0.Keeps F s) :
    s0.Keeps F (State.msixSvc s v) := by
  unfold State.msixSvc
  extract_lets +onlyGivenNames x1
  clear_value x1
  split
  · apply State.svcPut_keeps (hF.le rfl)
    exact h_s
  · refine State.Keeps.congr (s := s) (D := [.svc]) (hF.le rfl) ?_ rfl rfl rfl rfl (by rintro ⟨⟩ <;> (first | exact .inr rfl | simp))
    exact h_s

theorem State.wakeSvc_keeps {s0 s : State} {F : List Part} (hF : Within [.out, .svc] F) {bit : Nat} (h_s : s0.Keeps F s) :
    s0.Keeps F (State.wakeSvc s bit) := by
  unfold State.wakeSvc
  split
  · exact h_s
  · extract_lets +onlyGivenNames x3
    extract_lets +onlyGivenNames x4
    have h4 : s0.Keeps F x4 := by
      unfold x4
      refine State.Keeps.congr (s := s) (D := [.svc]) (hF.le rfl) ?_ rfl rfl rfl rfl (by rintro ⟨⟩ <;> (first | exact .inr rfl | simp))
      exact h_s
    split
    · split
      · apply State.emit_keeps (hF.le rfl)
        exact h4
      · exact h4
    · split
      · refine State.Keeps.congr (s := x4) (D := [.svc]) (hF.le rfl) ?_ rfl rfl rfl rfl (by rintro ⟨⟩ <;> (first | exact .inr rfl | simp))
        exact h4
      · exact h4

theorem State.raise_keeps {s0 s : State} {F : List Part} (hF : Within [.dict, .out, .svc] F) {n : Nat} (h_s : s0.Keeps F s) :
    s0.Keeps F (State.raise s n) := by
  unfold State.raise
  extract_lets +onlyGivenNames x1
  have h1 : s0.Keeps F x1 := by
    unfold x1
    apply State.setPar_keeps (hF.le rfl)
    exact h_s
  clear_value x1
  extract_lets +onlyGivenNames x2
  clear_value x2
  apply State.wakeSvc_keeps (hF.le rfl)
  split
  · apply State.msixSvc_keeps (hF.le rfl)
    exact h1
  · exact h1

theorem State.aerCorr_keeps {s0 s : State} {F : List Part} (hF : Within [.out, .svc] F) {bit : Nat} (h_s : s0.Keeps F s) :
    s0.Keeps F (State.aerCorr s bit) := by
  unfold State.aerCorr
  extract_lets +onlyGivenNames x1
  clear_value x1
  extract_lets +onlyGivenNames x2
  have h2 : s0.Keeps F x2 := by
    unfold x2
    refine State.Keeps.congr (s := s) (D := [.svc]) (hF.le rfl) ?_ rfl rfl rfl rfl (by rintro ⟨⟩ <;> (first | exact .inr rfl | simp))
    exact h_s
  clear_value x2
  split
  · apply State.emit_keeps (hF.le rfl)
    exact h2
  · exact h2

theorem State.aerUncorr_keeps {s0 s : State} {F : List Part} (hF : Within [.out, .freeCtr, .svc] F) {bit : Nat} {advisory : Bool} (h_s : s0.Keeps F s) :
    s0.Keeps F (State.aerUncorr s bit advisory) := by
  unfold State.aerUncorr
  extract_lets +onlyGivenNames x1 x2 x3 x4 x5 x6
  clear_value x1 x2 x3 x4 x5 x6
  extract_lets +onlyGivenNames x7
  have h7 : s0.Keeps F x7 := by
    unfold x7
    apply State.freeNext_keeps (hF.le rfl)
    exact h_s
  clear_value x7
  extract_lets +onlyGivenNames x8
  clear_value x8
  extract_lets +onlyGivenNames x9
  have h9 : s0.Keeps F x9 := by
    unfold x9
    split
    · refine State.Keeps.congr (s := x7) (D := [.svc]) (hF.le rfl) ?_ rfl rfl rfl rfl (by rintro ⟨⟩ <;> (first | exact .inr rfl | simp))
      exact h7
    · exact h_s
  clear_value x9
  extract_lets +onlyGivenNames x12
  clear_value x12
  extract_lets +onlyGivenNames x13
  have h13 : s0.Keeps F x13 := by
    unfold x13
    refine State.Keeps.congr (s := x9) (D := [.svc]) (hF.le rfl) ?_ rfl rfl rfl rfl (by rintro ⟨⟩ <;> (first | exact .inr rfl | simp))
    exact h9
  clear_value x13
  extract_lets +onlyGivenNames x14 x15
  clear_value x14 x15
  extract_lets +onlyGivenNames x16
  have h16 : s0.Keeps F x16 := by
    unfold x16
    refine State.Keeps.congr (s := x13) (D := [.svc]) (hF.le rfl) ?_ rfl rfl rfl rfl (by rintro ⟨⟩ <;> (first | exact .inr rfl | simp))
    exact h13
  clear_value x16
  split
  · split
    · refine State.Keeps.congr (s := x16) (D := [.svc]) (hF.le rfl) ?_ rfl rfl rfl rfl (by rintro ⟨⟩ <;> (first | exact .inr rfl | simp))
      exact h16
    · apply State.aerCorr_keeps (hF.le rfl)
      exact h16
  · split
    · exact h16
    · split
      · split
        · apply State.emit_keeps (hF.le rfl)
          exact h16
        · exact h16
      · split
        · apply State.emit_keeps (hF.le rfl)
          exact h16
        · exact h16

theorem State.aerCorrected_keeps {s0 s : State} {F : List Part} (hF : Within [.out, .svc] F) (h_s : s0.Keeps F s) :
    s0.Keeps F (State.aerCorrected s) := by
  unfold State.aerCorrected
  split
  · apply State.aerCorr_keeps (hF.le rfl)
    refine State.Keeps.congr (s := s) (D := [.svc]) (hF.le rfl) ?_ rfl rfl rfl rfl (by rintro ⟨⟩ <;> (first | exact .inr rfl | simp))
    exact h_s
  · exact h_s

theorem State.record_keeps {s0 s : State} {F : List Part} (hF : Within [.dict, .out, .svc, .glody] F) {a : RecArgs} (h_s : s0.Keeps F s) :
    s0.Keeps F (State.record s a) := by
  unfold State.record
  extract_lets +onlyGivenNames x1 x2 x3 x4
  clear_value x1 x2 x3 x4
  extract_lets +onlyGivenNames x5
  have h5 : s0.Keeps F x5 := by
    unfold x5
    apply State.setPar_keeps (hF.le rfl)
    apply State.setPar_keeps (hF.le rfl)
    exact h_s
  clear_value x5
  extract_lets +onlyGivenNames x6
  clear_value x6
  extract_lets +onlyGivenNames x7
  have h7 : s0.Keeps F x7 := by
    unfold x7
    refine State.Keeps.congr (s := x5) (D := [.glody]) (hF.le rfl) ?_ rfl rfl rfl rfl (by rintro ⟨⟩ <;> (first | exact .inr rfl | simp))
    exact h5
  clear_value x7
  extract_lets +onlyGivenNames x8
  have h8 : s0.Keeps F x8 := by
    unfold x8
    apply State.sendNotice_keeps (hF.le rfl)
    exact h7
  clear_value x8
  extract_lets +onlyGivenNames x9
  have h9 : s0.Keeps F x9 := by
    unfold x9
    split
    · apply State.aerCorrected_keeps (hF.le rfl)
      exact h8
    · exact h8
  clear_value x9
  apply State.raise_keeps (hF.le rfl)
  exact h9

theorem State.raiseSafe_keeps {s0 s : State} {F : List Part} (hF : Within [.dict, .recov] F) {cause : Nat} (h_s : s0.Keeps F s) :
    s0.Keeps F (State.raiseSafe s cause) := by
  unfold State.raiseSafe
  split
  · extract_lets +onlyGivenNames x2
    have h2 : s0.Keeps F x2 := by
      unfold x2
      apply State.setPar_keeps (hF.le rfl)
      exact h_s
    clear_value x2
    refine State.Keeps.congr (s := x2) (D := [.recov]) (hF.le rfl) ?_ rfl rfl rfl rfl (by rintro ⟨⟩ <;> (first | exact .inr rfl | simp))
    exact h2
  · exact h_s

theorem State.raiseOut_keeps {s0 s : State} {F : List Part} (hF : Within [.dict, .recov] F) {cause : Nat} (h_s : s0.Keeps F s) :
    s0.Keeps F (State.raiseOut s cause) := by
  unfold State.raiseOut
  split
  · exact h_s
  · extract_lets +onlyGivenNames x3
    have h3 : s0.Keeps F x3 := by
      unfold x3
      apply State.raiseSafe_keeps (hF.le rfl)
      exact h_s
    clear_value x3
    refine State.Keeps.congr (s := x3) (D := [.recov]) (hF.le rfl) ?_ rfl rfl rfl rfl (by rintro ⟨⟩ <;> (first | exact .inr rfl | simp))
    exact h3

theorem State.setDev_keeps {s0 s : State} {F : List Part} (hF : Within [.dict, .out, .svc, .glody] F) {d : Nat} (h_s : s0.Keeps F s) :
    s0.Keeps F (State.setDev s d) := by
  unfold State.setDev
  split
  · exact h_s
  · extract_lets +onlyGivenNames x3
    clear_value x3
    apply State.notice_keeps (hF.le rfl)
    apply State.raise_keeps (hF.le rfl)
    apply State.setPar_keeps (hF.le rfl)
    exact h_s

theorem State.auditFail_keeps {s0 s : State} {F : List Part} (hF : Within [.dict, .out, .svc, .recov, .glody] F) {law unit : Nat} {counts : List Nat} (h_s : s0.Keeps F s) :
    s0.Keeps F (State.auditFail s law unit counts) := by
  unfold State.auditFail
  apply State.raiseSafe_keeps (hF.le rfl)
  apply State.record_keeps (hF.le rfl)
  exact h_s

end Sys2Proof.Machine
end

