-- ==== Sys2Proof/Laws/KeepsSpace.lean ====
section
/-! SUPPORT. Every effect of Machine/Space.lean leaves the queue alone, keeps the canonical form and writes only the parts named. -/
namespace Sys2Proof.Machine

theorem State.modLink_keeps {s0 s : State} {F : List Part} (hF : Within [.ports] F) {k : Nat} {f : LinkRec → LinkRec} (h_s : s0.Keeps F s) :
    s0.Keeps F (State.modLink s k f) := by
  unfold State.modLink
  refine State.Keeps.congr (s := s) (D := [.ports]) (hF.le rfl) ?_ rfl rfl rfl rfl (by rintro ⟨⟩ <;> (first | exact .inr rfl | simp))
  exact h_s

theorem State.syncReq_keeps {s0 s : State} {F : List Part} (hF : Within [.ports] F) {k : Nat} (h_s : s0.Keeps F s) :
    s0.Keeps F (State.syncReq s k) := by
  unfold State.syncReq
  extract_lets +onlyGivenNames x1 x2
  clear_value x1 x2
  apply State.modLink_keeps (hF.le rfl)
  exact h_s

theorem State.transmit_keeps {s0 s : State} {F : List Part} (hF : Within [.out, .ports] F) {k ch : Nat} {o : Output} (h_s : s0.Keeps F s) :
    s0.Keeps F (State.transmit s k ch o) := by
  unfold State.transmit
  apply State.emit_keeps (hF.le rfl)
  apply State.modLink_keeps (hF.le rfl)
  exact h_s

theorem State.send_keeps {s0 s : State} {F : List Part} (hF : Within [.out, .ports] F) {k ch : Nat} {o : Output} (h_s : s0.Keeps F s) :
    s0.Keeps F (State.send s k ch o) := by
  unfold State.send
  extract_lets +onlyGivenNames x1
  clear_value x1
  split
  · apply State.transmit_keeps (hF.le rfl)
    exact h_s
  · apply State.modLink_keeps (hF.le rfl)
    exact h_s

theorem State.creditsBack_keeps {s0 s : State} {F : List Part} (hF : Within [.out, .ports] F) {k : Nat} (h_s : s0.Keeps F s) :
    s0.Keeps F (State.creditsBack s k) := by
  unfold State.creditsBack
  extract_lets +onlyGivenNames x1 x2
  clear_value x1 x2
  apply forAll_keeps
  · intro v3 v4 h5
    apply State.send_keeps (hF.le rfl)
    exact h5
  · apply State.modLink_keeps (hF.le rfl)
    exact h_s

theorem State.modLd_keeps {s0 s : State} {F : List Part} (hF : Within [.ports] F) {key : Nat} {f : LdRec → LdRec} (h_s : s0.Keeps F s) :
    s0.Keeps F (State.modLd s key f) := by
  unfold State.modLd
  refine State.Keeps.congr (s := s) (D := [.ports]) (hF.le rfl) ?_ rfl rfl rfl rfl (by rintro ⟨⟩ <;> (first | exact .inr rfl | simp))
  exact h_s

end Sys2Proof.Machine
end

