-- ==== Sys2Proof/Laws/KeepsDict.lean ====
section
/-! SUPPORT. Every effect of Machine/Dict.lean leaves the queue alone, keeps the canonical form and writes only the parts named. -/
namespace Sys2Proof.Machine

theorem State.badStart_keeps {s0 s : State} {F : List Part} (hF : Within [.dict] F) {k reason : Nat} (h_s : s0.Keeps F s) :
    s0.Keeps F (State.badStart s k reason) := by
  unfold State.badStart
  split
  · apply State.setPar_keeps (hF.le rfl)
    exact h_s
  · exact h_s

theorem State.barRefuse_keeps {s0 s : State} {F : List Part} (hF : Within [.dict] F) {k reason : Nat} (h_s : s0.Keeps F s) :
    s0.Keeps F (State.barRefuse s k reason) := by
  unfold State.barRefuse
  apply State.setPar_keeps (hF.le rfl)
  apply State.count_keeps (hF.le rfl)
  apply State.badStart_keeps (hF.le rfl)
  exact h_s

theorem State.aerUr_keeps {s0 s : State} {F : List Part} (hF : Within [.out, .freeCtr, .svc] F) (h_s : s0.Keeps F s) :
    s0.Keeps F (State.aerUr s) := by
  unfold State.aerUr
  apply State.aerUncorr_keeps (hF.le rfl)
  exact h_s

theorem State.barWrite_keeps {s0 s : State} {F : List Part} (hF : Within [.dict, .out, .freeCtr, .svc] F) {k v : Nat} {f : State → State} (h_s : s0.Keeps F s) (h_f : ∀ a0, s0.Keeps F a0 → s0.Keeps F (f a0)) :
    s0.Keeps F (State.barWrite s k v f) := by
  unfold State.barWrite
  split
  · apply State.aerUr_keeps (hF.le rfl)
    exact h_s
  · split
    · exact h_s
    · split
      · apply State.barRefuse_keeps (hF.le rfl)
        exact h_s
      · apply h_f
        exact h_s

theorem State.storeWrite_keeps {s0 s : State} {F : List Part} (hF : Within [.dict] F) {k v : Nat} (h_s : s0.Keeps F s) :
    s0.Keeps F (State.storeWrite s k v) := by
  unfold State.storeWrite
  split
  · exact h_s
  · split
    · apply State.setPar_keeps (hF.le rfl)
      exact h_s
    · exact h_s
    · split
      · apply State.setPar_keeps (hF.le rfl)
        exact h_s
      · apply State.setPar_keeps (hF.le rfl)
        exact h_s

end Sys2Proof.Machine
end

