-- ==== Sys2Proof/Laws/KeepsRegulation.lean ====
section
/-! SUPPORT. Every effect of Machine/Regulation.lean leaves the queue alone, keeps the canonical form and writes only the parts named. -/
namespace Sys2Proof.Machine

theorem State.modMaster_keeps {s0 s : State} {F : List Part} (hF : Within [.reg] F) {m : Nat} {f : MasterRec → MasterRec} (h_s : s0.Keeps F s) :
    s0.Keeps F (State.modMaster s m f) := by
  unfold State.modMaster
  refine State.Keeps.congr (s := s) (D := [.reg]) (hF.le rfl) ?_ rfl rfl rfl rfl (by rintro ⟨⟩ <;> (first | exact .inr rfl | simp))
  exact h_s

theorem State.modCon_keeps {s0 s : State} {F : List Part} (hF : Within [.reg] F) {c : Nat} {f : ContractRec → ContractRec} (h_s : s0.Keeps F s) :
    s0.Keeps F (State.modCon s c f) := by
  unfold State.modCon
  refine State.Keeps.congr (s := s) (D := [.reg]) (hF.le rfl) ?_ rfl rfl rfl rfl (by rintro ⟨⟩ <;> (first | exact .inr rfl | simp))
  exact h_s

theorem State.rcCommit_keeps {s0 s : State} {F : List Part} (hF : Within [.dict, .reg] F) {c : Nat} (h_s : s0.Keeps F s) :
    s0.Keeps F (State.rcCommit s c) := by
  unfold State.rcCommit
  extract_lets +onlyGivenNames x1
  clear_value x1
  extract_lets +onlyGivenNames x2
  have h2 : s0.Keeps F x2 := by
    unfold x2
    apply State.setPar_keeps (hF.le rfl)
    exact h_s
  clear_value x2
  split
  · exact h2
  · apply State.modCon_keeps (hF.le rfl)
    exact h2

theorem State.rcRelease_keeps {s0 s : State} {F : List Part} (hF : Within [.dict, .reg] F) {c : Nat} (h_s : s0.Keeps F s) :
    s0.Keeps F (State.rcRelease s c) := by
  unfold State.rcRelease
  split
  · apply State.setPar_keeps (hF.le rfl)
    exact h_s
  · apply State.modCon_keeps (hF.le rfl)
    apply State.setPar_keeps (hF.le rfl)
    exact h_s

theorem State.rcWrite_keeps {s0 s : State} {F : List Part} (hF : Within [.dict, .reg] F) {k v : Nat} (h_s : s0.Keeps F s) :
    s0.Keeps F (State.rcWrite s k v) := by
  unfold State.rcWrite
  extract_lets +onlyGivenNames x1 x2
  clear_value x1 x2
  split
  · apply State.setPar_keeps (hF.le rfl)
    exact h_s
  · apply State.modCon_keeps (hF.le rfl)
    exact h_s

theorem State.tgCount_keeps {s0 s : State} {F : List Part} (hF : Within [.reg] F) {t which n : Nat} (h_s : s0.Keeps F s) :
    s0.Keeps F (State.tgCount s t which n) := by
  unfold State.tgCount
  refine State.Keeps.congr (s := s) (D := [.reg]) (hF.le rfl) ?_ rfl rfl rfl rfl (by rintro ⟨⟩ <;> (first | exact .inr rfl | simp))
  exact h_s

theorem State.cutBucket_keeps {s0 s : State} {F : List Part} (hF : Within [.reg] F) {c : Nat} (h_s : s0.Keeps F s) :
    s0.Keeps F (State.cutBucket s c) := by
  unfold State.cutBucket
  extract_lets +onlyGivenNames x1 x2
  clear_value x1 x2
  split
  · exact h_s
  · apply State.tgCount_keeps (hF.le rfl)
    apply State.modCon_keeps (hF.le rfl)
    exact h_s

theorem State.clearBucket_keeps {s0 s : State} {F : List Part} (hF : Within [.reg] F) {c : Nat} (h_s : s0.Keeps F s) :
    s0.Keeps F (State.clearBucket s c) := by
  unfold State.clearBucket
  extract_lets +onlyGivenNames x1
  clear_value x1
  apply State.tgCount_keeps (hF.le rfl)
  apply State.modCon_keeps (hF.le rfl)
  exact h_s

theorem State.clearShared_keeps {s0 s : State} {F : List Part} (hF : Within [.reg] F) {m : Nat} (h_s : s0.Keeps F s) :
    s0.Keeps F (State.clearShared s m) := by
  unfold State.clearShared
  extract_lets +onlyGivenNames x1
  clear_value x1
  apply State.tgCount_keeps (hF.le rfl)
  apply State.modMaster_keeps (hF.le rfl)
  exact h_s

theorem State.restartWindow_keeps {s0 s : State} {F : List Part} (hF : Within [.reg] F) (h_s : s0.Keeps F s) :
    s0.Keeps F (State.restartWindow s) := by
  unfold State.restartWindow
  extract_lets +onlyGivenNames x1
  have h1 : s0.Keeps F x1 := by
    unfold x1
    apply forAll_keeps
    · intro v2 v3 h4
      apply State.modCon_keeps (hF.le rfl)
      exact h4
    · exact h_s
  clear_value x1
  refine State.Keeps.congr (s := x1) (D := [.reg]) (hF.le rfl) ?_ rfl rfl rfl rfl (by rintro ⟨⟩ <;> (first | exact .inr rfl | simp))
  exact h1

theorem State.clearTokens_keeps {s0 s : State} {F : List Part} (hF : Within [.reg] F) (h_s : s0.Keeps F s) :
    s0.Keeps F (State.clearTokens s) := by
  unfold State.clearTokens
  extract_lets +onlyGivenNames x1
  have h1 : s0.Keeps F x1 := by
    unfold x1
    apply forAll_keeps
    · intro v2 v3 h4
      apply State.clearBucket_keeps (hF.le rfl)
      exact h4
    · exact h_s
  clear_value x1
  extract_lets +onlyGivenNames x5
  have h5 : s0.Keeps F x5 := by
    unfold x5
    apply forAll_keeps
    · intro v6 v7 h8
      apply State.clearShared_keeps (hF.le rfl)
      exact h8
    · exact h1
  clear_value x5
  apply State.restartWindow_keeps (hF.le rfl)
  exact h5

theorem State.spend_keeps {s0 s : State} {F : List Part} (hF : Within [.reg] F) {m q : Nat} {con : Option Nat} (h_s : s0.Keeps F s) :
    s0.Keeps F (State.spend s m q con) := by
  unfold State.spend
  extract_lets +onlyGivenNames x1
  clear_value x1
  extract_lets +onlyGivenNames x2
  have h2 : s0.Keeps F x2 := by
    unfold x2
    split
    · apply State.modCon_keeps (hF.le rfl)
      exact h_s
    · exact h_s
  clear_value x2
  extract_lets +onlyGivenNames x6
  have h6 : s0.Keeps F x6 := by
    unfold x6
    apply State.modMaster_keeps (hF.le rfl)
    exact h2
  clear_value x6
  apply State.tgCount_keeps (hF.le rfl)
  exact h6

theorem State.spendEngine_keeps {s0 s : State} {F : List Part} (hF : Within [.reg] F) {cls set q x0 : Nat} (h_s : s0.Keeps F s) :
    s0.Keeps F (State.spendEngine s cls set q x0) := by
  induction x0 generalizing s cls set q with
  | zero =>
    unfold State.spendEngine
    exact h_s
  | succ m ih =>
    unfold State.spendEngine
    extract_lets +onlyGivenNames x1
    clear_value x1
    split
    · apply ih
      apply State.spend_keeps (hF.le rfl)
      exact h_s
    · exact h_s

theorem State.payEngine_keeps {s0 s : State} {F : List Part} (hF : Within [.dict, .reg] F) {cls : Nat} {before : Tab Nat} (h_s : s0.Keeps F s) :
    s0.Keeps F (State.payEngine s cls before) := by
  unfold State.payEngine
  apply forAll_keeps
  · intro v1 v2 h3
    extract_lets +onlyGivenNames x4
    clear_value x4
    split
    · exact h3
    · apply State.spendEngine_keeps (hF.le rfl)
      split
      · apply State.count_keeps (hF.le rfl)
        exact h3
      · exact h3
  · exact h_s

theorem State.holdAtGate_keeps {s0 s : State} {F : List Part} (hF : Within [.ports, .reg] F) {m : Nat} {r : HeldReq} (h_s : s0.Keeps F s) :
    s0.Keeps F (State.holdAtGate s m r) := by
  unfold State.holdAtGate
  apply State.syncReq_keeps (hF.le rfl)
  apply State.modMaster_keeps (hF.le rfl)
  exact h_s

theorem State.dealShared_keeps {s0 s : State} {F : List Part} (hF : Within [.dict, .reg] F) {q : Nat} (h_s : s0.Keeps F s) :
    s0.Keeps F (State.dealShared s q) := by
  unfold State.dealShared
  extract_lets +onlyGivenNames x1 x2 x3 x4
  clear_value x1 x2 x3 x4
  extract_lets +onlyGivenNames x5
  have h5 : s0.Keeps F x5 := by
    unfold x5
    apply State.setPar_keeps (hF.le rfl)
    exact h_s
  clear_value x5
  extract_lets +onlyGivenNames x6
  have h6 : s0.Keeps F x6 := by
    unfold x6
    apply forAll_keeps
    · intro v7 v8 h9
      extract_lets +onlyGivenNames x10
      clear_value x10
      apply State.tgCount_keeps (hF.le rfl)
      apply State.modMaster_keeps (hF.le rfl)
      exact h9
    · exact h5
  clear_value x6
  extract_lets +onlyGivenNames x11
  clear_value x11
  extract_lets +onlyGivenNames x12
  have h12 : s0.Keeps F x12 := by
    unfold x12
    refine State.Keeps.congr (s := x6) (D := [.reg]) (hF.le rfl) ?_ rfl rfl rfl rfl (by rintro ⟨⟩ <;> (first | exact .inr rfl | simp))
    exact h6
  clear_value x12
  apply forAll_keeps
  · intro v13 v14 h15
    extract_lets +onlyGivenNames x16 x17
    clear_value x16 x17
    split
    · exact h15
    · apply State.tgCount_keeps (hF.le rfl)
      apply State.modMaster_keeps (hF.le rfl)
      exact h15
  · exact h12

theorem State.fillBucket_keeps {s0 s : State} {F : List Part} (hF : Within [.reg] F) {c : Nat} (h_s : s0.Keeps F s) :
    s0.Keeps F (State.fillBucket s c) := by
  unfold State.fillBucket
  extract_lets +onlyGivenNames x1
  clear_value x1
  apply State.tgCount_keeps (hF.le rfl)
  apply State.modCon_keeps (hF.le rfl)
  exact h_s

theorem State.rcApply_keeps {s0 s : State} {F : List Part} (hF : Within [.dict, .reg] F) {c : Nat} (h_s : s0.Keeps F s) :
    s0.Keeps F (State.rcApply s c) := by
  unfold State.rcApply
  extract_lets +onlyGivenNames x1
  clear_value x1
  split
  · extract_lets +onlyGivenNames x3
    have h3 : s0.Keeps F x3 := by
      unfold x3
      apply State.modCon_keeps (hF.le rfl)
      apply State.setPar_keeps (hF.le rfl)
      apply State.setPar_keeps (hF.le rfl)
      apply State.clearBucket_keeps (hF.le rfl)
      exact h_s
    clear_value x3
    refine State.Keeps.congr (s := x3) (D := [.reg]) (hF.le rfl) ?_ rfl rfl rfl rfl (by rintro ⟨⟩ <;> (first | exact .inr rfl | simp))
    exact h3
  · split
    · extract_lets +onlyGivenNames x6
      have h6 : s0.Keeps F x6 := by
        unfold x6
        apply forAll_keeps
        · intro v7 v8 h9
          apply State.setPar_keeps (hF.le rfl)
          exact h9
        · exact h_s
      clear_value x6
      extract_lets +onlyGivenNames x10
      have h10 : s0.Keeps F x10 := by
        unfold x10
        split
        · apply State.setPar_keeps (hF.le rfl)
          apply State.setPar_keeps (hF.le rfl)
          exact h6
        · exact h6
      clear_value x10
      extract_lets +onlyGivenNames x13
      have h13 : s0.Keeps F x13 := by
        unfold x13
        apply State.modCon_keeps (hF.le rfl)
        exact h10
      clear_value x13
      refine State.Keeps.congr (s := x13) (D := [.reg]) (hF.le rfl) ?_ rfl rfl rfl rfl (by rintro ⟨⟩ <;> (first | exact .inr rfl | simp))
      exact h13
    · exact h_s

theorem State.rescale_keeps {s0 s : State} {F : List Part} (hF : Within [.dict, .out, .svc, .glody] F) {c : Nat} (h_s : s0.Keeps F s) :
    s0.Keeps F (State.rescale s c) := by
  unfold State.rescale
  extract_lets +onlyGivenNames x1 x2
  clear_value x1 x2
  extract_lets +onlyGivenNames x3
  have h3 : s0.Keeps F x3 := by
    unfold x3
    apply State.setPar_keeps (hF.le rfl)
    apply State.setPar_keeps (hF.le rfl)
    exact h_s
  clear_value x3
  split
  · apply State.notice_keeps (hF.le rfl)
    apply State.count_keeps (hF.le rfl)
    apply State.raise_keeps (hF.le rfl)
    exact h3
  · split
    · apply State.notice_keeps (hF.le rfl)
      exact h3
    · exact h3

theorem State.setFloors_keeps {s0 s : State} {F : List Part} (hF : Within [.dict, .reg] F) (h_s : s0.Keeps F s) :
    s0.Keeps F (State.setFloors s) := by
  unfold State.setFloors
  extract_lets +onlyGivenNames x1 x2
  clear_value x1 x2
  extract_lets +onlyGivenNames x3
  have h3 : s0.Keeps F x3 := by
    unfold x3
    refine State.Keeps.congr (s := s) (D := [.reg]) (hF.le rfl) ?_ rfl rfl rfl rfl (by rintro ⟨⟩ <;> (first | exact .inr rfl | simp))
    exact h_s
  clear_value x3
  apply forAll_keeps
  · intro v4 v5 h6
    extract_lets +onlyGivenNames x7 x8
    clear_value x7 x8
    extract_lets +onlyGivenNames x9
    have h9 : s0.Keeps F x9 := by
      unfold x9
      refine State.Keeps.congr (s := v5) (D := [.reg]) (hF.le rfl) ?_ rfl rfl rfl rfl (by rintro ⟨⟩ <;> (first | exact .inr rfl | simp))
      exact h6
    clear_value x9
    apply State.setPar_keeps (hF.le rfl)
    apply State.setPar_keeps (hF.le rfl)
    exact h9
  · exact h3

theorem State.boundary_keeps {s0 s : State} {F : List Part} (hF : Within [.dict, .out, .svc, .reg, .glody] F) (h_s : s0.Keeps F s) :
    s0.Keeps F (State.boundary s) := by
  unfold State.boundary
  extract_lets +onlyGivenNames x1
  clear_value x1
  extract_lets +onlyGivenNames x2
  have h2 : s0.Keeps F x2 := by
    unfold x2
    refine State.Keeps.congr (s := s) (D := [.reg]) (hF.le rfl) ?_ rfl rfl rfl rfl (by rintro ⟨⟩ <;> (first | exact .inr rfl | simp))
    exact h_s
  clear_value x2
  extract_lets +onlyGivenNames x3
  have h3 : s0.Keeps F x3 := by
    unfold x3
    apply forAll_keeps
    · intro v4 v5 h6
      apply State.rcApply_keeps (hF.le rfl)
      exact h6
    · exact h2
  clear_value x3
  extract_lets +onlyGivenNames x7
  have h7 : s0.Keeps F x7 := by
    unfold x7
    apply State.setFloors_keeps (hF.le rfl)
    exact h3
  clear_value x7
  extract_lets +onlyGivenNames x8
  have h8 : s0.Keeps F x8 := by
    unfold x8
    split
    · apply forAll_keeps
      · intro v10 v11 h12
        apply State.rescale_keeps (hF.le rfl)
        exact h12
      · exact h7
    · exact h7
  clear_value x8
  extract_lets +onlyGivenNames x14
  clear_value x14
  extract_lets +onlyGivenNames x15
  have h15 : s0.Keeps F x15 := by
    unfold x15
    refine State.Keeps.congr (s := x8) (D := [.reg]) (hF.le rfl) ?_ rfl rfl rfl rfl (by rintro ⟨⟩ <;> (first | exact .inr rfl | simp))
    exact h8
  clear_value x15
  extract_lets +onlyGivenNames x16
  have h16 : s0.Keeps F x16 := by
    unfold x16
    apply forAll_keeps
    · intro v17 v18 h19
      apply State.setPar_keeps (hF.le rfl)
      exact h19
    · exact h15
  clear_value x16
  extract_lets +onlyGivenNames x20
  have h20 : s0.Keeps F x20 := by
    unfold x20
    apply forAll_keeps
    · intro v21 v22 h23
      apply State.fillBucket_keeps (hF.le rfl)
      exact h23
    · exact h16
  clear_value x20
  extract_lets +onlyGivenNames x24
  have h24 : s0.Keeps F x24 := by
    unfold x24
    apply forAll_keeps
    · intro v25 v26 h27
      apply State.dealShared_keeps (hF.le rfl)
      exact h27
    · exact h20
  clear_value x24
  extract_lets +onlyGivenNames x28
  have h28 : s0.Keeps F x28 := by
    unfold x28
    apply forAll_keeps
    · intro v29 v30 h31
      apply State.cutBucket_keeps (hF.le rfl)
      exact h31
    · exact h24
  clear_value x28
  extract_lets +onlyGivenNames x32
  have h32 : s0.Keeps F x32 := by
    unfold x32
    apply forAll_keeps
    · intro v33 v34 h35
      apply State.modMaster_keeps (hF.le rfl)
      exact h35
    · exact h28
  clear_value x32
  split
  · apply State.restartWindow_keeps (hF.le rfl)
    exact h32
  · extract_lets +onlyGivenNames x38
    have h38 : s0.Keeps F x38 := by
      unfold x38
      apply forAll_keeps
      · intro v39 v40 h41
        apply State.modCon_keeps (hF.le rfl)
        exact h41
      · exact h32
    clear_value x38
    refine State.Keeps.congr (s := x38) (D := [.reg]) (hF.le rfl) ?_ rfl rfl rfl rfl (by rintro ⟨⟩ <;> (first | exact .inr rfl | simp))
    exact h38

theorem State.windowEnd_keeps {s0 s : State} {F : List Part} (hF : Within [.dict, .out, .svc, .reg] F) {c : Nat} (h_s : s0.Keeps F s) :
    s0.Keeps F (State.windowEnd s c) := by
  unfold State.windowEnd
  extract_lets +onlyGivenNames x1 x2
  clear_value x1 x2
  extract_lets +onlyGivenNames x3
  have h3 : s0.Keeps F x3 := by
    unfold x3
    apply State.modCon_keeps (hF.le rfl)
    apply State.setPar_keeps (hF.le rfl)
    exact h_s
  clear_value x3
  split
  · apply State.raise_keeps (hF.le rfl)
    apply State.setPar_keeps (hF.le rfl)
    apply State.count_keeps (hF.le rfl)
    apply State.count_keeps (hF.le rfl)
    exact h3
  · exact h3

theorem execRcCommit_keeps {s0 : State} {F : List Part} (hF : Within [.dict, .out, .freeCtr, .svc, .reg] F) {contract : Fin 1024} {s : State} (h_s : s0.Keeps F s) :
    (Nxt (s0.Keeps F)) (execRcCommit contract s) := by
  unfold execRcCommit
  apply Nxt.next
  apply State.barWrite_keeps (hF.le rfl)
  · exact h_s
  · intro v1 h2
    apply State.rcCommit_keeps (hF.le rfl)
    exact h2

theorem execRcRelease_keeps {s0 : State} {F : List Part} (hF : Within [.dict, .out, .freeCtr, .svc, .reg] F) {contract : Fin 1024} {s : State} (h_s : s0.Keeps F s) :
    (Nxt (s0.Keeps F)) (execRcRelease contract s) := by
  unfold execRcRelease
  apply Nxt.next
  apply State.barWrite_keeps (hF.le rfl)
  · exact h_s
  · intro v1 h2
    apply State.rcRelease_keeps (hF.le rfl)
    exact h2

theorem execTokenBoundary_keeps {s0 s : State} {F : List Part} (hF : Within [.dict, .out, .svc, .reg, .glody] F) (h_s : s0.Keeps F s) :
    (Nxt (s0.Keeps F)) (execTokenBoundary s) := by
  unfold execTokenBoundary
  apply Nxt.next
  split
  · exact h_s
  · apply State.boundary_keeps (hF.le rfl)
    exact h_s

theorem execGuaranteeWindowEnd_keeps {s0 s : State} {F : List Part} (hF : Within [.dict, .out, .svc, .reg] F) (h_s : s0.Keeps F s) :
    (Nxt (s0.Keeps F)) (execGuaranteeWindowEnd s) := by
  unfold execGuaranteeWindowEnd
  apply Nxt.next
  split
  · exact h_s
  · extract_lets +onlyGivenNames x3
    have h3 : s0.Keeps F x3 := by
      unfold x3
      apply forAll_keeps
      · intro v4 v5 h6
        apply State.windowEnd_keeps (hF.le rfl)
        exact h6
      · exact h_s
    clear_value x3
    refine State.Keeps.congr (s := x3) (D := [.reg]) (hF.le rfl) ?_ rfl rfl rfl rfl (by rintro ⟨⟩ <;> (first | exact .inr rfl | simp))
    exact h3

end Sys2Proof.Machine
end

