-- ==== Sys2Proof/Laws/KeepsPower.lean ====
section
/-! SUPPORT. Every effect of Machine/Power.lean leaves the queue alone, keeps the canonical form and writes only the parts named. -/
namespace Sys2Proof.Machine

theorem State.pw_keeps {s0 s : State} {F : List Part} (hF : Within [.power] F) {f : Power → Power} (h_s : s0.Keeps F s) :
    s0.Keeps F (State.pw s f) := by
  unfold State.pw
  refine State.Keeps.congr (s := s) (D := [.power]) (hF.le rfl) ?_ rfl rfl rfl rfl (by rintro ⟨⟩ <;> (first | exact .inr rfl | simp))
  exact h_s

theorem State.countWakes_keeps {s0 s : State} {F : List Part} (hF : Within [.dict] F) (h_s : s0.Keeps F s) :
    s0.Keeps F (State.countWakes s) := by
  unfold State.countWakes
  apply State.setPar_keeps (hF.le rfl)
  exact h_s

theorem State.queueWake_keeps {s0 s : State} {F : List Part} (hF : Within [.dict, .power] F) {w : Wake} (h_s : s0.Keeps F s) :
    s0.Keeps F (State.queueWake s w) := by
  unfold State.queueWake
  split
  · exact h_s
  · apply State.countWakes_keeps (hF.le rfl)
    apply State.pw_keeps (hF.le rfl)
    exact h_s

theorem State.wakeHub_keeps {s0 s : State} {F : List Part} (hF : Within [.dict, .power] F) {cause : Nat} (h_s : s0.Keeps F s) :
    s0.Keeps F (State.wakeHub s cause) := by
  unfold State.wakeHub
  split
  · apply State.queueWake_keeps (hF.le rfl)
    exact h_s
  · exact h_s

theorem State.setPwrState_keeps {s0 s : State} {F : List Part} (hF : Within [.dict] F) (h_s : s0.Keeps F s) :
    s0.Keeps F (State.setPwrState s) := by
  unfold State.setPwrState
  apply State.setPar_keeps (hF.le rfl)
  exact h_s

theorem State.busy_keeps {s0 s : State} {F : List Part} (hF : Within [.power] F) {q : Nat} (h_s : s0.Keeps F s) :
    s0.Keeps F (State.busy s q) := by
  unfold State.busy
  apply State.pw_keeps (hF.le rfl)
  exact h_s

theorem State.abandonS2_keeps {s0 s : State} {F : List Part} (hF : Within [.dict, .power] F) {q : Nat} (h_s : s0.Keeps F s) :
    s0.Keeps F (State.abandonS2 s q) := by
  unfold State.abandonS2
  extract_lets +onlyGivenNames x1
  clear_value x1
  split
  · exact h_s
  · extract_lets +onlyGivenNames x4
    have h4 : s0.Keeps F x4 := by
      unfold x4
      apply forAll_keeps
      · intro v5 v6 h7
        apply State.setPar_keeps (hF.le rfl)
        exact h7
      · exact h_s
    clear_value x4
    apply State.busy_keeps (hF.le rfl)
    apply State.setPwrState_keeps (hF.le rfl)
    apply State.pw_keeps (hF.le rfl)
    apply State.setPar_keeps (hF.le rfl)
    exact h4

theorem State.wakeRegion_keeps {s0 s : State} {F : List Part} (hF : Within [.dict, .power] F) {cause q : Nat} (h_s : s0.Keeps F s) :
    s0.Keeps F (State.wakeRegion s cause q) := by
  unfold State.wakeRegion
  extract_lets +onlyGivenNames x1
  have h1 : s0.Keeps F x1 := by
    unfold x1
    apply State.abandonS2_keeps (hF.le rfl)
    apply State.wakeHub_keeps (hF.le rfl)
    exact h_s
  clear_value x1
  extract_lets +onlyGivenNames x2
  clear_value x2
  extract_lets +onlyGivenNames x3
  have h3 : s0.Keeps F x3 := by
    unfold x3
    split
    · apply State.queueWake_keeps (hF.le rfl)
      exact h1
    · exact h1
  clear_value x3
  split
  · exact h3
  · apply forAll_keeps
    · intro v8 v9 h10
      split
      · apply State.queueWake_keeps (hF.le rfl)
        exact h10
      · exact h10
    · exact h3

theorem State.decay_keeps {s0 s : State} {F : List Part} (hF : Within [.mem] F) {q k : Nat} (h_s : s0.Keeps F s) :
    s0.Keeps F (State.decay s q k) := by
  unfold State.decay
  refine State.Keeps.congr (s := s) (D := [.mem]) (hF.le rfl) ?_ rfl rfl rfl rfl (by rintro ⟨⟩ <;> (first | exact .inr rfl | simp))
  exact h_s

theorem State.regionUp_keeps {s0 s : State} {F : List Part} (hF : Within [.dict, .mem, .power] F) {q : Nat} (h_s : s0.Keeps F s) :
    s0.Keeps F (State.regionUp s q) := by
  unfold State.regionUp
  extract_lets +onlyGivenNames x1
  have h1 : s0.Keeps F x1 := by
    unfold x1
    split
    · apply State.pw_keeps (hF.le rfl)
      apply State.decay_keeps (hF.le rfl)
      exact h_s
    · exact h_s
  clear_value x1
  extract_lets +onlyGivenNames x7
  have h7 : s0.Keeps F x7 := by
    unfold x7
    apply State.pw_keeps (hF.le rfl)
    apply State.count_keeps (hF.le rfl)
    apply State.setPar_keeps (hF.le rfl)
    exact h1
  clear_value x7
  apply State.busy_keeps (hF.le rfl)
  apply State.setPwrState_keeps (hF.le rfl)
  exact h7

theorem State.setTol_keeps {s0 s : State} {F : List Part} (hF : Within [.dict] F) (h_s : s0.Keeps F s) :
    s0.Keeps F (State.setTol s) := by
  unfold State.setTol
  apply State.setPar_keeps (hF.le rfl)
  exact h_s

theorem State.tolExits_keeps {s0 s : State} {F : List Part} (hF : Within [.dict, .power] F) (h_s : s0.Keeps F s) :
    s0.Keeps F (State.tolExits s) := by
  unfold State.tolExits
  extract_lets +onlyGivenNames x1
  have h1 : s0.Keeps F x1 := by
    unfold x1
    apply State.setTol_keeps (hF.le rfl)
    exact h_s
  clear_value x1
  extract_lets +onlyGivenNames x2
  have h2 : s0.Keeps F x2 := by
    unfold x2
    split
    · apply State.wakeHub_keeps (hF.le rfl)
      exact h1
    · exact h1
  clear_value x2
  apply forAll_keeps
  · intro v5 v6 h7
    split
    · apply State.wakeRegion_keeps (hF.le rfl)
      exact h7
    · exact h7
  · exact h2

theorem execPowerS1Entry_keeps {s0 : State} {F : List Part} (hF : Within [.dict, .power] F) {region : Fin 4} {s : State} (h_s : s0.Keeps F s) :
    (Nxt (s0.Keeps F)) (execPowerS1Entry region s) := by
  unfold execPowerS1Entry
  apply Nxt.next
  split
  · apply State.setPwrState_keeps (hF.le rfl)
    apply State.busy_keeps (hF.le rfl)
    apply State.setPar_keeps (hF.le rfl)
    exact h_s
  · exact h_s

theorem execPowerS2Entry_keeps {s0 : State} {F : List Part} (hF : Within [.dict, .power] F) {region : Fin 4} {s : State} (h_s : s0.Keeps F s) :
    (Nxt (s0.Keeps F)) (execPowerS2Entry region s) := by
  unfold execPowerS2Entry
  extract_lets +onlyGivenNames x1
  clear_value x1
  apply Nxt.next
  split
  · extract_lets +onlyGivenNames x3
    have h3 : s0.Keeps F x3 := by
      unfold x3
      apply State.setPar_keeps (hF.le rfl)
      exact h_s
    clear_value x3
    extract_lets +onlyGivenNames x4
    have h4 : s0.Keeps F x4 := by
      unfold x4
      apply forAll_keeps
      · intro v5 v6 h7
        split
        · apply State.setPar_keeps (hF.le rfl)
          exact h7
        · exact h7
      · exact h3
    clear_value x4
    extract_lets +onlyGivenNames x10
    have h10 : s0.Keeps F x10 := by
      unfold x10
      apply State.pw_keeps (hF.le rfl)
      exact h4
    clear_value x10
    apply State.setPwrState_keeps (hF.le rfl)
    exact h10
  · exact h_s

theorem execPowerS3Entry_keeps {s0 : State} {F : List Part} (hF : Within [.dict, .power] F) {linksIdle svcIdle : Bool} {s : State} (h_s : s0.Keeps F s) :
    (Nxt (s0.Keeps F)) (execPowerS3Entry linksIdle svcIdle s) := by
  unfold execPowerS3Entry
  apply Nxt.next
  split
  · apply State.setPwrState_keeps (hF.le rfl)
    apply State.pw_keeps (hF.le rfl)
    exact h_s
  · exact h_s

theorem execWakeCause_keeps {s0 : State} {F : List Part} (hF : Within [.dict, .power] F) {cause : Fin 18} {region : Option (Fin 4)} {s : State} (h_s : s0.Keeps F s) :
    (Nxt (s0.Keeps F)) (execWakeCause cause region s) := by
  unfold execWakeCause
  apply Nxt.next
  split
  · apply State.wakeRegion_keeps (hF.le rfl)
    exact h_s
  · apply State.wakeHub_keeps (hF.le rfl)
    exact h_s

theorem execWakeTokenTick_keeps {s0 s : State} {F : List Part} (hF : Within [.dict, .power] F) (h_s : s0.Keeps F s) :
    (Nxt (s0.Keeps F)) (execWakeTokenTick s) := by
  unfold execWakeTokenTick
  apply Nxt.next
  split
  · exact h_s
  · extract_lets +onlyGivenNames x3
    have h3 : s0.Keeps F x3 := by
      unfold x3
      apply State.count_keeps (hF.le rfl)
      apply State.pw_keeps (hF.le rfl)
      exact h_s
    clear_value x3
    split
    · apply State.count_keeps (hF.le rfl)
      exact h3
    · apply State.count_keeps (hF.le rfl)
      exact h3

theorem State.spendWake_keeps {s0 s : State} {F : List Part} (hF : Within [.dict] F) {n : Nat} (h_s : s0.Keeps F s) :
    s0.Keeps F (State.spendWake s n) := by
  unfold State.spendWake
  apply State.count_keeps (hF.le rfl)
  apply State.uncount_keeps (hF.le rfl)
  exact h_s

theorem execLatencyToleranceWrite_keeps {s0 : State} {F : List Part} (hF : Within [.dict, .out, .freeCtr, .svc, .power] F) {entry : Fin 18} {value : Nat} {s : State} (h_s : s0.Keeps F s) :
    (Nxt (s0.Keeps F)) (execLatencyToleranceWrite entry value s) := by
  unfold execLatencyToleranceWrite
  extract_lets +onlyGivenNames x1
  clear_value x1
  apply Nxt.next
  apply State.barWrite_keeps (hF.le rfl)
  · exact h_s
  · intro v2 h3
    apply State.tolExits_keeps (hF.le rfl)
    apply State.setPar_keeps (hF.le rfl)
    exact h3

theorem State.govern_keeps {s0 s : State} {F : List Part} (hF : Within [.dict, .power] F) {watts : Nat} (h_s : s0.Keeps F s) :
    s0.Keeps F (State.govern s watts) := by
  unfold State.govern
  extract_lets +onlyGivenNames x1 x2 x3 x4 x5
  clear_value x1 x2 x3 x4 x5
  extract_lets +onlyGivenNames x6
  have h6 : s0.Keeps F x6 := by
    unfold x6
    apply State.pw_keeps (hF.le rfl)
    exact h_s
  clear_value x6
  extract_lets +onlyGivenNames x7
  have h7 : s0.Keeps F x7 := by
    unfold x7
    apply State.setPar_keeps (hF.le rfl)
    exact h6
  clear_value x7
  split
  · exact h7
  · apply State.count_keeps (hF.le rfl)
    exact h7

theorem execGovernorSample_keeps {s0 : State} {F : List Part} (hF : Within [.dict, .power] F) {watts : Nat} {s : State} (h_s : s0.Keeps F s) :
    (Nxt (s0.Keeps F)) (execGovernorSample watts s) := by
  unfold execGovernorSample
  apply Nxt.next
  apply State.govern_keeps (hF.le rfl)
  exact h_s

theorem execInputOutOfRange_keeps {s0 : State} {F : List Part} (hF : Within [.dict, .recov, .power] F) {millivolts : Nat} {s : State} (h_s : s0.Keeps F s) :
    (Nxt (s0.Keeps F)) (execInputOutOfRange millivolts s) := by
  unfold execInputOutOfRange
  apply Nxt.next
  split
  · extract_lets +onlyGivenNames x2
    have h2 : s0.Keeps F x2 := by
      unfold x2
      apply State.pw_keeps (hF.le rfl)
      apply State.setPar_keeps (hF.le rfl)
      exact h_s
    clear_value x2
    apply State.raiseSafe_keeps (hF.le rfl)
    exact h2
  · exact h_s

theorem execInputRestored_keeps {s0 : State} {F : List Part} (hF : Within [.dict, .recov, .power] F) {millivolts : Nat} {s : State} (h_s : s0.Keeps F s) :
    (Nxt (s0.Keeps F)) (execInputRestored millivolts s) := by
  unfold execInputRestored
  apply Nxt.next
  split
  · extract_lets +onlyGivenNames x2
    have h2 : s0.Keeps F x2 := by
      unfold x2
      apply State.pw_keeps (hF.le rfl)
      apply State.setPar_keeps (hF.le rfl)
      exact h_s
    clear_value x2
    refine State.Keeps.congr (s := x2) (D := [.recov]) (hF.le rfl) ?_ rfl rfl rfl rfl (by rintro ⟨⟩ <;> (first | exact .inr rfl | simp))
    exact h2
  · exact h_s

theorem execRefclkLost_keeps {s0 s : State} {F : List Part} (hF : Within [.dict, .recov, .power] F) (h_s : s0.Keeps F s) :
    (Nxt (s0.Keeps F)) (execRefclkLost s) := by
  unfold execRefclkLost
  apply Nxt.next
  split
  · exact h_s
  · apply State.raiseSafe_keeps (hF.le rfl)
    apply State.pw_keeps (hF.le rfl)
    exact h_s

theorem execRefclkRestored_keeps {s0 s : State} {F : List Part} (hF : Within [.recov, .power] F) (h_s : s0.Keeps F s) :
    (Nxt (s0.Keeps F)) (execRefclkRestored s) := by
  unfold execRefclkRestored
  apply Nxt.next
  split
  · extract_lets +onlyGivenNames x2
    have h2 : s0.Keeps F x2 := by
      unfold x2
      apply State.pw_keeps (hF.le rfl)
      exact h_s
    clear_value x2
    refine State.Keeps.congr (s := x2) (D := [.recov]) (hF.le rfl) ?_ rfl rfl rfl rfl (by rintro ⟨⟩ <;> (first | exact .inr rfl | simp))
    exact h2
  · exact h_s

theorem execRefclkStable_keeps {s0 s : State} {F : List Part} (hF : Within [.power, .boot] F) (h_s : s0.Keeps F s) :
    (Nxt (s0.Keeps F)) (execRefclkStable s) := by
  unfold execRefclkStable
  apply Nxt.next
  split
  · extract_lets +onlyGivenNames x2
    have h2 : s0.Keeps F x2 := by
      unfold x2
      apply State.pw_keeps (hF.le rfl)
      exact h_s
    clear_value x2
    refine State.Keeps.congr (s := x2) (D := [.boot]) (hF.le rfl) ?_ rfl rfl rfl rfl (by rintro ⟨⟩ <;> (first | exact .inr rfl | simp))
    exact h2
  · exact h_s

theorem State.unpowered_keeps {s0 s : State} {F : List Part} (hF : Within [.dict, .hbm, .t0, .mem, .arb, .out, .now, .freeCtr, .own, .fac, .jobs, .reds, .shared, .queues, .ports, .svc, .reg, .stackTab, .media, .integ, .recov, .power, .boot, .glody] F) (h_s : s0.Keeps F s) :
    s0.Keeps F (State.unpowered s) := by 
  refine ⟨h_s.queue, fun _ => ?_, fun p => .inl (hF p (by cases p <;> decide))⟩
  unfold State.unpowered
  exact ⟨rfl, rfl, rfl⟩

theorem execInputCollapse_keeps {s0 s : State} {F : List Part} (hF : Within [.dict, .hbm, .t0, .mem, .arb, .out, .now, .freeCtr, .own, .fac, .jobs, .reds, .shared, .queues, .ports, .svc, .reg, .stackTab, .media, .integ, .recov, .power, .boot, .glody] F) (h_s : s0.Keeps F s) :
    (Nxt (s0.Keeps F)) (execInputCollapse s) := by
  unfold execInputCollapse
  apply Nxt.next
  apply State.pw_keeps (hF.le rfl)
  apply State.unpowered_keeps (hF.le rfl)
  exact h_s

theorem execPowerInputApplied_keeps {s0 : State} {F : List Part} (hF : Within [.dict, .hbm, .t0, .mem, .arb, .out, .now, .freeCtr, .own, .fac, .jobs, .reds, .shared, .queues, .ports, .svc, .reg, .stackTab, .media, .integ, .recov, .power, .boot, .glody] F) {millivolts : Nat} {slot : Fin 8} {refStable : Bool} {s : State} (h_s : s0.Keeps F s) :
    (Nxt (s0.Keeps F)) (execPowerInputApplied millivolts slot refStable s) := by
  unfold execPowerInputApplied
  apply Nxt.next
  split
  · exact h_s
  · split
    · apply State.pw_keeps (hF.le rfl)
      exact h_s
    · extract_lets +onlyGivenNames x5
      have h5 : s0.Keeps F x5 := by
        unfold x5
        apply State.unpowered_keeps (hF.le rfl)
        exact h_s
      clear_value x5
      extract_lets +onlyGivenNames x6
      have h6 : s0.Keeps F x6 := by
        unfold x6
        apply State.pw_keeps (hF.le rfl)
        exact h5
      clear_value x6
      extract_lets +onlyGivenNames x7
      have h7 : s0.Keeps F x7 := by
        unfold x7
        apply State.setPar_keeps (hF.le rfl)
        apply State.setPar_keeps (hF.le rfl)
        exact h6
      clear_value x7
      refine State.Keeps.congr (s := x7) (D := [.boot, .glody]) (hF.le rfl) ?_ rfl rfl rfl rfl (by rintro ⟨⟩ <;> (first | exact .inr rfl | simp))
      exact h7

theorem execThermalTrip_keeps {s0 : State} {F : List Part} (hF : Within [.dict, .hbm, .t0, .mem, .arb, .out, .now, .freeCtr, .own, .fac, .jobs, .reds, .shared, .queues, .ports, .svc, .reg, .stackTab, .media, .integ, .recov, .power, .boot, .glody] F) {unit : Nat} {celsius : Int} {s : State} (h_s : s0.Keeps F s) :
    (Nxt (s0.Keeps F)) (execThermalTrip unit celsius s) := by
  unfold execThermalTrip
  apply Nxt.next
  split
  · exact h_s
  · extract_lets +onlyGivenNames x3
    have h3 : s0.Keeps F x3 := by
      unfold x3
      apply State.record_keeps (hF.le rfl)
      exact h_s
    clear_value x3
    extract_lets +onlyGivenNames x4
    have h4 : s0.Keeps F x4 := by
      unfold x4
      apply State.unpowered_keeps (hF.le rfl)
      exact h_s
    clear_value x4
    apply State.pw_keeps (hF.le rfl)
    apply State.setPar_keeps (hF.le rfl)
    refine State.Keeps.congr (s := x4) (D := [.now, .glody]) (hF.le rfl) ?_ rfl rfl rfl rfl (by rintro ⟨⟩ <;> (first | exact .inr rfl | simp))
    exact h4

end Sys2Proof.Machine
end

