-- ==== Sys2Proof/Laws/KeepsStacks.lean ====
section
/-! SUPPORT. Every effect of Machine/Stacks.lean leaves the queue alone, keeps the canonical form and writes only the parts named. -/
namespace Sys2Proof.Machine

theorem State.modStack_keeps {s0 s : State} {F : List Part} (hF : Within [.stackTab] F) {k : Nat} {f : StackRec → StackRec} (h_s : s0.Keeps F s) :
    s0.Keeps F (State.modStack s k f) := by
  unfold State.modStack
  refine State.Keeps.congr (s := s) (D := [.stackTab]) (hF.le rfl) ?_ rfl rfl rfl rfl (by rintro ⟨⟩ <;> (first | exact .inr rfl | simp))
  exact h_s

theorem State.modBank_keeps {s0 s : State} {F : List Part} (hF : Within [.stackTab] F) {k key : Nat} {f : BankRec → BankRec} (h_s : s0.Keeps F s) :
    s0.Keeps F (State.modBank s k key f) := by
  unfold State.modBank
  apply State.modStack_keeps (hF.le rfl)
  exact h_s

theorem State.openRow_keeps {s0 s : State} {F : List Part} (hF : Within [.stackTab] F) {k line : Nat} (h_s : s0.Keeps F s) :
    s0.Keeps F (State.openRow s k line) := by
  unfold State.openRow
  extract_lets +onlyGivenNames x1
  clear_value x1
  apply State.modBank_keeps (hF.le rfl)
  exact h_s

theorem State.enterSelf_keeps {s0 s : State} {F : List Part} (hF : Within [.dict, .stackTab] F) {k : Nat} (h_s : s0.Keeps F s) :
    s0.Keeps F (State.enterSelf s k) := by
  unfold State.enterSelf
  split
  · apply State.modStack_keeps (hF.le rfl)
    exact h_s
  · split
    · apply State.setPar_keeps (hF.le rfl)
      exact h_s
    · exact h_s

theorem State.inSelf_keeps {s0 s : State} {F : List Part} (hF : Within [.dict, .stackTab, .power] F) {k : Nat} (h_s : s0.Keeps F s) :
    s0.Keeps F (State.inSelf s k) := by
  unfold State.inSelf
  apply State.pw_keeps (hF.le rfl)
  apply State.modStack_keeps (hF.le rfl)
  apply State.setPar_keeps (hF.le rfl)
  exact h_s

theorem State.sampleTemp_keeps {s0 s : State} {F : List Part} (hF : Within [.dict, .stackTab, .recov, .power, .glody] F) {k : Nat} {t : Int} (h_s : s0.Keeps F s) :
    s0.Keeps F (State.sampleTemp s k t) := by
  unfold State.sampleTemp
  extract_lets +onlyGivenNames x1 x2
  clear_value x1 x2
  extract_lets +onlyGivenNames x3
  have h3 : s0.Keeps F x3 := by
    unfold x3
    apply State.setPar_keeps (hF.le rfl)
    exact h_s
  clear_value x3
  split
  · exact h3
  · extract_lets +onlyGivenNames x6
    have h6 : s0.Keeps F x6 := by
      unfold x6
      apply State.notice_keeps (hF.le rfl)
      apply State.setPar_keeps (hF.le rfl)
      exact h3
    clear_value x6
    split
    · apply State.enterSelf_keeps (hF.le rfl)
      apply State.modStack_keeps (hF.le rfl)
      exact h6
    · split
      · extract_lets +onlyGivenNames x10
        have h10 : s0.Keeps F x10 := by
          unfold x10
          apply State.modStack_keeps (hF.le rfl)
          exact h6
        clear_value x10
        extract_lets +onlyGivenNames x11 x12
        clear_value x11 x12
        extract_lets +onlyGivenNames x13
        have h13 : s0.Keeps F x13 := by
          unfold x13
          refine State.Keeps.congr (s := x10) (D := [.recov]) (hF.le rfl) ?_ rfl rfl rfl rfl (by rintro ⟨⟩ <;> (first | exact .inr rfl | simp))
          exact h10
        clear_value x13
        split
        · apply State.queueWake_keeps (hF.le rfl)
          exact h13
        · exact h13
      · exact h6

theorem execStackTempSample_keeps {s0 : State} {F : List Part} (hF : Within [.dict, .stackTab, .recov, .power, .glody] F) {stack : Fin 16} {celsius : Int} {s : State} (h_s : s0.Keeps F s) :
    (Nxt (s0.Keeps F)) (execStackTempSample stack celsius s) := by
  unfold execStackTempSample
  apply Nxt.next
  apply State.sampleTemp_keeps (hF.le rfl)
  exact h_s

theorem execThermalHoldExpiry_keeps {s0 : State} {F : List Part} (hF : Within [.dict, .out, .svc, .stackTab, .recov, .glody] F) {stack : Fin 16} {s : State} (h_s : s0.Keeps F s) :
    (Nxt (s0.Keeps F)) (execThermalHoldExpiry stack s) := by
  unfold execThermalHoldExpiry
  extract_lets +onlyGivenNames x1
  clear_value x1
  apply Nxt.next
  split
  · exact h_s
  · extract_lets +onlyGivenNames x4
    have h4 : s0.Keeps F x4 := by
      unfold x4
      apply State.modStack_keeps (hF.le rfl)
      exact h_s
    clear_value x4
    apply State.raiseSafe_keeps (hF.le rfl)
    apply State.record_keeps (hF.le rfl)
    exact h4

theorem State.refreshDue_keeps {s0 s : State} {F : List Part} (hF : Within [.dict, .stackTab] F) {k pc b : Nat} {waiting promoted : Bool} (h_s : s0.Keeps F s) :
    s0.Keeps F (State.refreshDue s k pc b waiting promoted) := by
  unfold State.refreshDue
  split
  · exact h_s
  · extract_lets +onlyGivenNames x3 x4
    clear_value x3 x4
    extract_lets +onlyGivenNames x5
    have h5 : s0.Keeps F x5 := by
      unfold x5
      apply State.setPar_keeps (hF.le rfl)
      exact h_s
    clear_value x5
    split
    · apply State.modBank_keeps (hF.le rfl)
      exact h5
    · split
      · apply State.modBank_keeps (hF.le rfl)
        exact h5
      · apply State.modBank_keeps (hF.le rfl)
        exact h5

theorem execRefreshDue_keeps {s0 : State} {F : List Part} (hF : Within [.dict, .stackTab] F) {stack : Fin 16} {pc : Fin 64} {bank : Fin 48} {waiting promoted : Bool} {s : State} (h_s : s0.Keeps F s) :
    (Nxt (s0.Keeps F)) (execRefreshDue stack pc bank waiting promoted s) := by
  unfold execRefreshDue
  apply Nxt.next
  apply State.refreshDue_keeps (hF.le rfl)
  exact h_s

theorem execPageIdleExpiry_keeps {s0 : State} {F : List Part} (hF : Within [.stackTab] F) {stack : Fin 16} {pc : Fin 64} {bank : Fin 48} {s : State} (h_s : s0.Keeps F s) :
    (Nxt (s0.Keeps F)) (execPageIdleExpiry stack pc bank s) := by
  unfold execPageIdleExpiry
  extract_lets +onlyGivenNames x1 x2
  clear_value x1 x2
  apply Nxt.next
  split
  · apply State.modBank_keeps (hF.le rfl)
    exact h_s
  · exact h_s

theorem execRequestStarvePromote_keeps {s0 : State} {F : List Part} (hF : Within [.recov] F) {place : Nat} {s : State} (h_s : s0.Keeps F s) :
    (Nxt (s0.Keeps F)) (execRequestStarvePromote place s) := by
  unfold execRequestStarvePromote
  apply Nxt.next
  split
  · split
    · refine State.Keeps.congr (s := s) (D := [.recov]) (hF.le rfl) ?_ rfl rfl rfl rfl (by rintro ⟨⟩ <;> (first | exact .inr rfl | simp))
      exact h_s
    · exact h_s
  · exact h_s

theorem State.modChan_keeps {s0 s : State} {F : List Part} (hF : Within [.stackTab] F) {k c : Nat} {f : ChanRec → ChanRec} (h_s : s0.Keeps F s) :
    s0.Keeps F (State.modChan s k c f) := by
  unfold State.modChan
  apply State.modStack_keeps (hF.le rfl)
  exact h_s

theorem State.chanOffline_keeps {s0 s : State} {F : List Part} (hF : Within [.dict, .stackTab] F) {k c : Nat} (h_s : s0.Keeps F s) :
    s0.Keeps F (State.chanOffline s k c) := by
  unfold State.chanOffline
  extract_lets +onlyGivenNames x1
  clear_value x1
  extract_lets +onlyGivenNames x2
  have h2 : s0.Keeps F x2 := by
    unfold x2
    apply State.setPar_keeps (hF.le rfl)
    exact h_s
  clear_value x2
  extract_lets +onlyGivenNames x3
  have h3 : s0.Keeps F x3 := by
    unfold x3
    split
    · apply State.setPar_keeps (hF.le rfl)
      exact h2
    · exact h2
  clear_value x3
  apply State.modChan_keeps (hF.le rfl)
  apply State.modStack_keeps (hF.le rfl)
  exact h3

theorem State.parityAlert_keeps {s0 s : State} {F : List Part} (hF : Within [.dict, .stackTab] F) {k c : Nat} (h_s : s0.Keeps F s) :
    s0.Keeps F (State.parityAlert s k c) := by
  unfold State.parityAlert
  split
  · exact h_s
  · extract_lets +onlyGivenNames x3
    clear_value x3
    extract_lets +onlyGivenNames x4
    have h4 : s0.Keeps F x4 := by
      unfold x4
      apply State.modStack_keeps (hF.le rfl)
      apply State.count_keeps (hF.le rfl)
      exact h_s
    clear_value x4
    extract_lets +onlyGivenNames x5
    clear_value x5
    split
    · apply State.chanOffline_keeps (hF.le rfl)
      exact h4
    · apply State.modChan_keeps (hF.le rfl)
      exact h4

theorem execCommandParityAlert_keeps {s0 : State} {F : List Part} (hF : Within [.dict, .stackTab] F) {stack : Fin 16} {channel : Fin 32} {s : State} (h_s : s0.Keeps F s) :
    (Nxt (s0.Keeps F)) (execCommandParityAlert stack channel s) := by
  unfold execCommandParityAlert
  apply Nxt.next
  apply State.parityAlert_keeps (hF.le rfl)
  exact h_s

theorem execReplayComplete_keeps {s0 : State} {F : List Part} (hF : Within [.dict, .stackTab] F) {stack : Fin 16} {channel : Fin 32} {s : State} (h_s : s0.Keeps F s) :
    (Nxt (s0.Keeps F)) (execReplayComplete stack channel s) := by
  unfold execReplayComplete
  apply Nxt.next
  split
  · apply State.count_keeps (hF.le rfl)
    apply State.modChan_keeps (hF.le rfl)
    exact h_s
  · exact h_s

theorem execChannelRetrainComplete_keeps {s0 : State} {F : List Part} (hF : Within [.dict, .stackTab] F) {stack : Fin 16} {channel : Fin 32} {ok : Bool} {s : State} (h_s : s0.Keeps F s) :
    (Nxt (s0.Keeps F)) (execChannelRetrainComplete stack channel ok s) := by
  unfold execChannelRetrainComplete
  apply Nxt.next
  split
  · exact h_s
  · split
    · apply State.modStack_keeps (hF.le rfl)
      exact h_s
    · extract_lets +onlyGivenNames x5
      clear_value x5
      extract_lets +onlyGivenNames x6
      have h6 : s0.Keeps F x6 := by
        unfold x6
        apply State.setPar_keeps (hF.le rfl)
        exact h_s
      clear_value x6
      split
      · apply State.modStack_keeps (hF.le rfl)
        split
        · apply State.setPar_keeps (hF.le rfl)
          exact h6
        · exact h6
      · exact h6

theorem execPanicAssert_keeps {s0 : State} {F : List Part} (hF : Within [.dict, .recov] F) {master : Fin 512} {fill reads : Nat} {s : State} (h_s : s0.Keeps F s) :
    (Nxt (s0.Keeps F)) (execPanicAssert master fill reads s) := by
  unfold execPanicAssert
  apply Nxt.next
  split
  · extract_lets +onlyGivenNames x2
    have h2 : s0.Keeps F x2 := by
      unfold x2
      apply State.setPar_keeps (hF.le rfl)
      exact h_s
    clear_value x2
    extract_lets +onlyGivenNames x3
    have h3 : s0.Keeps F x3 := by
      unfold x3
      apply forAll_keeps
      · intro v4 v5 h6
        apply State.count_keeps (hF.le rfl)
        exact h6
      · exact h2
    clear_value x3
    refine State.Keeps.congr (s := x3) (D := [.recov]) (hF.le rfl) ?_ rfl rfl rfl rfl (by rintro ⟨⟩ <;> (first | exact .inr rfl | simp))
    exact h3
  · exact h_s

theorem execPanicDeassert_keeps {s0 : State} {F : List Part} (hF : Within [.dict, .recov] F) {master : Fin 512} {fill reads : Nat} {s : State} (h_s : s0.Keeps F s) :
    (Nxt (s0.Keeps F)) (execPanicDeassert master fill reads s) := by
  unfold execPanicDeassert
  apply Nxt.next
  split
  · extract_lets +onlyGivenNames x2
    have h2 : s0.Keeps F x2 := by
      unfold x2
      apply State.setPar_keeps (hF.le rfl)
      exact h_s
    clear_value x2
    refine State.Keeps.congr (s := x2) (D := [.recov]) (hF.le rfl) ?_ rfl rfl rfl rfl (by rintro ⟨⟩ <;> (first | exact .inr rfl | simp))
    exact h2
  · exact h_s

theorem State.trnHoldWrite_keeps {s0 s : State} {F : List Part} (hF : Within [.dict, .stackTab, .power] F) {k v : Nat} (h_s : s0.Keeps F s) :
    s0.Keeps F (State.trnHoldWrite s k v) := by
  unfold State.trnHoldWrite
  extract_lets +onlyGivenNames x1
  have h1 : s0.Keeps F x1 := by
    unfold x1
    apply State.setPar_keeps (hF.le rfl)
    exact h_s
  clear_value x1
  split
  · split
    · apply State.queueWake_keeps (hF.le rfl)
      exact h1
    · exact h1
  · apply State.enterSelf_keeps (hF.le rfl)
    exact h1

theorem execTrnHoldWrite_keeps {s0 : State} {F : List Part} (hF : Within [.dict, .out, .freeCtr, .svc, .stackTab, .power] F) {stack : Fin 16} {value : Nat} {s : State} (h_s : s0.Keeps F s) :
    (Nxt (s0.Keeps F)) (execTrnHoldWrite stack value s) := by
  unfold execTrnHoldWrite
  apply Nxt.next
  apply State.barWrite_keeps (hF.le rfl)
  · exact h_s
  · intro v1 h2
    apply State.trnHoldWrite_keeps (hF.le rfl)
    exact h2

theorem State.trnCtlWrite_keeps {s0 s : State} {F : List Part} (hF : Within [.dict, .stackTab] F) {k v : Nat} (h_s : s0.Keeps F s) :
    s0.Keeps F (State.trnCtlWrite s k v) := by
  unfold State.trnCtlWrite
  split
  · apply State.setPar_keeps (hF.le rfl)
    exact h_s
  · apply State.modStack_keeps (hF.le rfl)
    apply State.setPar_keeps (hF.le rfl)
    apply State.setPar_keeps (hF.le rfl)
    exact h_s

theorem execTrnCtlStart_keeps {s0 : State} {F : List Part} (hF : Within [.dict, .out, .freeCtr, .svc, .stackTab] F) {stack : Fin 16} {value : Nat} {s : State} (h_s : s0.Keeps F s) :
    (Nxt (s0.Keeps F)) (execTrnCtlStart stack value s) := by
  unfold execTrnCtlStart
  apply Nxt.next
  apply State.barWrite_keeps (hF.le rfl)
  · exact h_s
  · intro v1 h2
    apply State.trnCtlWrite_keeps (hF.le rfl)
    exact h2

theorem State.trnLaneWrite_keeps {s0 s : State} {F : List Part} (hF : Within [.dict, .stackTab] F) {k v : Nat} (h_s : s0.Keeps F s) :
    s0.Keeps F (State.trnLaneWrite s k v) := by
  unfold State.trnLaneWrite
  extract_lets +onlyGivenNames x1
  clear_value x1
  apply State.modStack_keeps (hF.le rfl)
  apply State.setPar_keeps (hF.le rfl)
  exact h_s

theorem execTrnRunComplete_keeps {s0 : State} {F : List Part} (hF : Within [.dict, .stackTab] F) {stack : Fin 16} {mismatch errors : Nat} {s : State} (h_s : s0.Keeps F s) :
    (Nxt (s0.Keeps F)) (execTrnRunComplete stack mismatch errors s) := by
  unfold execTrnRunComplete
  apply Nxt.next
  split
  · exact h_s
  · extract_lets +onlyGivenNames x3
    have h3 : s0.Keeps F x3 := by
      unfold x3
      apply State.setPar_keeps (hF.le rfl)
      apply State.setPar_keeps (hF.le rfl)
      apply State.setPar_keeps (hF.le rfl)
      exact h_s
    clear_value x3
    extract_lets +onlyGivenNames x4
    clear_value x4
    extract_lets +onlyGivenNames x5
    have h5 : s0.Keeps F x5 := by
      unfold x5
      apply State.modStack_keeps (hF.le rfl)
      exact h3
    clear_value x5
    split
    · apply State.enterSelf_keeps (hF.le rfl)
      exact h5
    · exact h5

theorem execSelfRefreshEntry_keeps {s0 : State} {F : List Part} (hF : Within [.dict, .stackTab, .power] F) {stack : Fin 16} {s : State} (h_s : s0.Keeps F s) :
    (Nxt (s0.Keeps F)) (execSelfRefreshEntry stack s) := by
  unfold execSelfRefreshEntry
  apply Nxt.next
  split
  · apply State.inSelf_keeps (hF.le rfl)
    exact h_s
  · exact h_s

theorem State.outOfSelf_keeps {s0 s : State} {F : List Part} (hF : Within [.dict, .stackTab, .power] F) {k : Nat} (h_s : s0.Keeps F s) :
    s0.Keeps F (State.outOfSelf s k) := by
  unfold State.outOfSelf
  extract_lets +onlyGivenNames x1
  have h1 : s0.Keeps F x1 := by
    unfold x1
    apply State.pw_keeps (hF.le rfl)
    exact h_s
  clear_value x1
  split
  · apply State.setPar_keeps (hF.le rfl)
    exact h1
  · extract_lets +onlyGivenNames x4
    have h4 : s0.Keeps F x4 := by
      unfold x4
      apply State.setPar_keeps (hF.le rfl)
      exact h1
    clear_value x4
    split
    · apply State.enterSelf_keeps (hF.le rfl)
      exact h4
    · exact h4

end Sys2Proof.Machine
end

