-- ==== Sys2Proof/Laws/KeepsEvents.lean ====
section
/-! SUPPORT. Every effect of Machine/Events.lean leaves the queue alone, keeps the canonical form and writes only the parts named. -/
namespace Sys2Proof.Machine

theorem State.msixLd_keeps {s0 s : State} {F : List Part} (hF : Within [.out, .ports] F) {port v : Nat} (h_s : s0.Keeps F s) :
    s0.Keeps F (State.msixLd s port v) := by
  unfold State.msixLd
  extract_lets +onlyGivenNames x1 x2
  clear_value x1 x2
  split
  · apply State.send_keeps (hF.le rfl)
    exact h_s
  · apply State.modLd_keeps (hF.le rfl)
    exact h_s

theorem State.addEvent_keeps {s0 s : State} {F : List Part} (hF : Within [.out, .ports] F) {port log : Nat} {dram : Bool} {kind trans dpa place : Nat} {comp : List Byte} (h_s : s0.Keeps F s) :
    s0.Keeps F (State.addEvent s port log dram kind trans dpa place comp) := by
  unfold State.addEvent
  extract_lets +onlyGivenNames x1 x2
  clear_value x1 x2
  split
  · extract_lets +onlyGivenNames x4
    clear_value x4
    apply State.modLd_keeps (hF.le rfl)
    exact h_s
  · extract_lets +onlyGivenNames x6
    clear_value x6
    extract_lets +onlyGivenNames x7
    have h7 : s0.Keeps F x7 := by
      unfold x7
      apply State.modLd_keeps (hF.le rfl)
      exact h_s
    clear_value x7
    extract_lets +onlyGivenNames x8
    clear_value x8
    split
    · apply State.msixLd_keeps (hF.le rfl)
      exact h7
    · exact h7

theorem State.event_keeps {s0 s : State} {F : List Part} (hF : Within [.out, .ports] F) {port : Nat} {a : EventArgs} (h_s : s0.Keeps F s) :
    s0.Keeps F (State.event s port a) := by
  unfold State.event
  extract_lets +onlyGivenNames x1
  clear_value x1
  apply State.addEvent_keeps (hF.le rfl)
  exact h_s

theorem State.eventAll_keeps {s0 s : State} {F : List Part} (hF : Within [.out, .ports] F) {dpa : Nat} {a : EventArgs} (h_s : s0.Keeps F s) :
    s0.Keeps F (State.eventAll s dpa a) := by
  unfold State.eventAll
  apply forAll_keeps
  · intro v1 v2 h3
    apply State.event_keeps (hF.le rfl)
    exact h3
  · exact h_s

theorem State.eventOn_keeps {s0 s : State} {F : List Part} (hF : Within [.out, .ports] F) {port : Option Nat} {dpa : Nat} {a : EventArgs} (h_s : s0.Keeps F s) :
    s0.Keeps F (State.eventOn s port dpa a) := by
  unfold State.eventOn
  split
  · apply State.event_keeps (hF.le rfl)
    exact h_s
  · apply State.eventAll_keeps (hF.le rfl)
    exact h_s

theorem State.logMedia_keeps {s0 s : State} {F : List Part} (hF : Within [.dict, .media] F) {kind unit pc symbol bank col row : Nat} (h_s : s0.Keeps F s) :
    s0.Keeps F (State.logMedia s kind unit pc symbol bank col row) := by
  unfold State.logMedia
  extract_lets +onlyGivenNames x1 x2
  clear_value x1 x2
  extract_lets +onlyGivenNames x3
  have h3 : s0.Keeps F x3 := by
    unfold x3
    apply State.setPar_keeps (hF.le rfl)
    exact h_s
  clear_value x3
  refine State.Keeps.congr (s := x3) (D := [.media]) (hF.le rfl) ?_ rfl rfl rfl rfl (by rintro ⟨⟩ <;> (first | exact .inr rfl | simp))
  exact h3

theorem State.logLine_keeps {s0 s : State} {F : List Part} (hF : Within [.dict, .media] F) {kind k line symbol : Nat} (h_s : s0.Keeps F s) :
    s0.Keeps F (State.logLine s kind k line symbol) := by
  unfold State.logLine
  extract_lets +onlyGivenNames x1
  clear_value x1
  apply State.logMedia_keeps (hF.le rfl)
  exact h_s

theorem State.logUnit_keeps {s0 s : State} {F : List Part} (hF : Within [.dict, .media] F) {kind unit : Nat} (h_s : s0.Keeps F s) :
    s0.Keeps F (State.logUnit s kind unit) := by
  unfold State.logUnit
  apply State.logMedia_keeps (hF.le rfl)
  exact h_s

theorem State.logSram_keeps {s0 s : State} {F : List Part} (hF : Within [.dict, .media] F) {kind unit symbol : Nat} (h_s : s0.Keeps F s) :
    s0.Keeps F (State.logSram s kind unit symbol) := by
  unfold State.logSram
  apply State.logMedia_keeps (hF.le rfl)
  exact h_s

end Sys2Proof.Machine
end

