-- ==== Sys2Proof/Laws/KeepsFrames.lean ====
section
/-! SUPPORT. Every effect of Machine/Frames.lean leaves the queue alone, keeps the canonical form and writes only the parts named. -/
namespace Sys2Proof.Machine

theorem State.arbGrant_keeps {s0 s : State} {F : List Part} (hF : Within [.arb, .power] F) {a n r : Nat} (h_s : s0.Keeps F s) :
    s0.Keeps F (State.arbGrant s a n r) := by
  unfold State.arbGrant
  extract_lets +onlyGivenNames x1
  have h1 : s0.Keeps F x1 := by
    unfold x1
    refine State.Keeps.congr (s := s) (D := [.arb]) (hF.le rfl) ?_ rfl rfl rfl rfl (by rintro ⟨⟩ <;> (first | exact .inr rfl | simp))
    exact h_s
  clear_value x1
  split
  · apply State.busy_keeps (hF.le rfl)
    exact h1
  · exact h1

theorem State.hubGrant_keeps {s0 s : State} {F : List Part} (hF : Within [.arb, .power] F) {q port : Nat} (h_s : s0.Keeps F s) :
    s0.Keeps F (State.hubGrant s q port) := by
  unfold State.hubGrant
  apply State.arbGrant_keeps (hF.le rfl)
  split
  · exact h_s
  · apply State.arbGrant_keeps (hF.le rfl)
    exact h_s

theorem State.blkGrant_keeps {s0 s : State} {F : List Part} (hF : Within [.arb, .power] F) {blk : Nat} (h_s : s0.Keeps F s) :
    s0.Keeps F (State.blkGrant s blk) := by
  unfold State.blkGrant
  apply State.arbGrant_keeps (hF.le rfl)
  exact h_s

theorem State.moverGrant_keeps {s0 s : State} {F : List Part} (hF : Within [.arb, .power] F) {q : Nat} (h_s : s0.Keeps F s) :
    s0.Keeps F (State.moverGrant s q) := by
  unfold State.moverGrant
  apply State.arbGrant_keeps (hF.le rfl)
  exact h_s

theorem State.scrubGrant_keeps {s0 s : State} {F : List Part} (hF : Within [.arb, .power] F) {q : Nat} (h_s : s0.Keeps F s) :
    s0.Keeps F (State.scrubGrant s q) := by
  unfold State.scrubGrant
  apply State.arbGrant_keeps (hF.le rfl)
  exact h_s

theorem State.linkGrant_keeps {s0 s : State} {F : List Part} (hF : Within [.arb, .power] F) {q : Nat} (h_s : s0.Keeps F s) :
    s0.Keeps F (State.linkGrant s q) := by
  unfold State.linkGrant
  apply State.arbGrant_keeps (hF.le rfl)
  exact h_s

theorem State.devGrant_keeps {s0 s : State} {F : List Part} (hF : Within [.arb, .power] F) {r : Nat} (h_s : s0.Keeps F s) :
    s0.Keeps F (State.devGrant s r) := by
  unfold State.devGrant
  apply State.arbGrant_keeps (hF.le rfl)
  exact h_s

theorem State.addHeld_keeps {s0 s : State} {F : List Part} (hF : Within [.dict, .mem] F) {n q : Nat} {up : Bool} (h_s : s0.Keeps F s) :
    s0.Keeps F (State.addHeld s n q up) := by
  unfold State.addHeld
  extract_lets +onlyGivenNames x1
  have h1 : s0.Keeps F x1 := by
    unfold x1
    refine State.modMem_keeps (hF.le rfl) ?_ (fun _ => rfl) (fun _ => rfl)
    exact h_s
  clear_value x1
  split
  · apply State.count_keeps (hF.le rfl)
    exact h1
  · apply State.uncount_keeps (hF.le rfl)
    exact h1

theorem State.putFrame_keeps {s0 s : State} {F : List Part} (hF : Within [.dict, .mem] F) {key : Nat} {r : FrameRec} (h_s : s0.Keeps F s) :
    s0.Keeps F (State.putFrame s key r) := by
  unfold State.putFrame
  extract_lets +onlyGivenNames x1 x2
  clear_value x1 x2
  extract_lets +onlyGivenNames x3
  have h3 : s0.Keeps F x3 := by
    unfold x3
    refine State.modMem_keeps (hF.le rfl) ?_ (fun _ => rfl) (fun _ => rfl)
    exact h_s
  clear_value x3
  extract_lets +onlyGivenNames x4
  have h4 : s0.Keeps F x4 := by
    unfold x4
    split
    · exact h3
    · apply State.count_keeps (hF.le rfl)
      apply State.uncount_keeps (hF.le rfl)
      exact h3
  clear_value x4
  extract_lets +onlyGivenNames x7
  have h7 : s0.Keeps F x7 := by
    unfold x7
    split
    · apply State.addHeld_keeps (hF.le rfl)
      exact h4
    · exact h4
  clear_value x7
  split
  · apply State.addHeld_keeps (hF.le rfl)
    exact h7
  · exact h7

theorem State.capNotice_keeps {s0 s : State} {F : List Part} (hF : Within [.dict, .out, .svc, .glody] F) {n q : Nat} {fault : Bool} (h_s : s0.Keeps F s) :
    s0.Keeps F (State.capNotice s n q fault) := by
  unfold State.capNotice
  extract_lets +onlyGivenNames x1
  have h1 : s0.Keeps F x1 := by
    unfold x1
    split
    · apply State.count_keeps (hF.le rfl)
      exact h_s
    · exact h_s
  clear_value x1
  apply State.notice_keeps (hF.le rfl)
  apply State.raise_keeps (hF.le rfl)
  exact h1

theorem State.fence_keeps {s0 s : State} {F : List Part} (hF : Within [.dict, .out, .svc, .glody] F) {n q : Nat} (h_s : s0.Keeps F s) :
    s0.Keeps F (State.fence s n q) := by
  unfold State.fence
  split
  · exact h_s
  · apply State.capNotice_keeps (hF.le rfl)
    apply State.count_keeps (hF.le rfl)
    apply State.setPar_keeps (hF.le rfl)
    exact h_s

theorem State.press_keeps {s0 s : State} {F : List Part} (hF : Within [.dict, .out, .svc, .glody] F) {q : Nat} (h_s : s0.Keeps F s) :
    s0.Keeps F (State.press s q) := by
  unfold State.press
  extract_lets +onlyGivenNames x1
  have h1 : s0.Keeps F x1 := by
    unfold x1
    apply State.setPar_keeps (hF.le rfl)
    apply State.setPar_keeps (hF.le rfl)
    exact h_s
  clear_value x1
  extract_lets +onlyGivenNames x2
  clear_value x2
  extract_lets +onlyGivenNames x3
  have h3 : s0.Keeps F x3 := by
    unfold x3
    split
    · exact h1
    · apply State.notice_keeps (hF.le rfl)
      apply State.setPar_keeps (hF.le rfl)
      exact h1
  clear_value x3
  split
  · apply forAll_keeps
    · intro v7 v8 h9
      split
      · apply State.fence_keeps (hF.le rfl)
        exact h9
      · exact h9
    · exact h3
  · exact h3

theorem State.setFrame_keeps {s0 s : State} {F : List Part} (hF : Within [.dict, .mem, .out, .svc, .glody] F) {key : Nat} {r : FrameRec} (h_s : s0.Keeps F s) :
    s0.Keeps F (State.setFrame s key r) := by
  unfold State.setFrame
  apply State.press_keeps (hF.le rfl)
  apply State.putFrame_keeps (hF.le rfl)
  exact h_s

theorem State.clearHbm_keeps {s0 s : State} {F : List Part} (hF : Within [.hbm, .mem] F) {base n : Nat} (h_s : s0.Keeps F s) :
    s0.Keeps F (State.clearHbm s base n) := by
  unfold State.clearHbm
  refine State.modMem_hbm_keeps (hF.le rfl) ?_ (fun _ => rfl) ?_
  · exact h_s
  · intro v1 h2
    exact Tab.wfBy_filter _ _ (by assumption)

theorem State.newFrame_keeps {s0 s : State} {F : List Part} (hF : Within [.dict, .hbm, .mem, .out, .freeCtr, .svc, .media, .glody] F) {n q st mask : Nat} {copy : Bool} (h_s : s0.Keeps F s) :
    (Opt (Snd (s0.Keeps F))) (State.newFrame s n q st mask copy) := by
  unfold State.newFrame
  split
  · apply Opt.none
  · extract_lets +onlyGivenNames x6 x7
    clear_value x6 x7
    extract_lets +onlyGivenNames x8
    have h8 : s0.Keeps F x8 := by
      unfold x8
      apply State.freeNext_keeps (hF.le rfl)
      refine State.modMem_keeps (hF.le rfl) ?_ (fun _ => rfl) (fun _ => rfl)
      exact h_s
    clear_value x8
    extract_lets +onlyGivenNames x9
    have h9 : s0.Keeps F x9 := by
      unfold x9
      apply State.clearHbm_keeps (hF.le rfl)
      exact h8
    clear_value x9
    extract_lets +onlyGivenNames x10
    clear_value x10
    extract_lets +onlyGivenNames x11
    have h11 : s0.Keeps F x11 := by
      unfold x11
      refine State.Keeps.congr (s := x9) (D := [.media]) (hF.le rfl) ?_ rfl rfl rfl rfl (by rintro ⟨⟩ <;> (first | exact .inr rfl | simp))
      exact h9
    clear_value x11
    apply Opt.some
    apply Snd.mk
    apply State.setFrame_keeps (hF.le rfl)
    exact h11

theorem State.alloc_keeps {s0 s : State} {F : List Part} (hF : Within [.dict, .hbm, .mem, .out, .freeCtr, .svc, .media, .glody] F) {n q st len : Nat} (h_s : s0.Keeps F s) :
    (Opt (Snd (s0.Keeps F))) (State.alloc s n q st len) := by
  unfold State.alloc
  split
  · extract_lets +onlyGivenNames x5
    clear_value x5
    apply Opt.some
    apply Snd.mk
    apply State.setFrame_keeps (hF.le rfl)
    exact h_s
  · split
    · apply Opt.none
    · apply Opt.some
      apply Snd.mk
      refine State.modMem_keeps (hF.le rfl) ?_ (fun _ => rfl) (fun _ => rfl)
      refine Opt.snd_of_eq ?_ (by assumption)
      apply State.newFrame_keeps (hF.le rfl)
      exact h_s

theorem State.freeSectors_keeps {s0 s : State} {F : List Part} (hF : Within [.dict, .mem, .out, .svc, .glody] F) {addr len : Nat} {quar : Bool} (h_s : s0.Keeps F s) :
    s0.Keeps F (State.freeSectors s addr len quar) := by
  unfold State.freeSectors
  extract_lets +onlyGivenNames x1 x2 x3 x4
  clear_value x1 x2 x3 x4
  extract_lets +onlyGivenNames x5
  have h5 : ∀ a0, s0.Keeps F a0 → s0.Keeps F (x5 a0) := by
    unfold x5
    intro v6 h7
    refine State.modMem_keeps (hF.le rfl) ?_ (fun _ => rfl) (fun _ => rfl)
    exact h7
  clear_value x5
  split
  · split
    · apply h5
      apply State.setFrame_keeps (hF.le rfl)
      exact h_s
    · split
      · apply h5
        apply State.setFrame_keeps (hF.le rfl)
        exact h_s
      · apply State.setFrame_keeps (hF.le rfl)
        exact h_s
  · split
    · apply State.setFrame_keeps (hF.le rfl)
      exact h_s
    · exact h_s

theorem State.useFrame_keeps {s0 s : State} {F : List Part} (hF : Within [.dict, .mem, .out, .svc, .glody] F) {addr : Nat} (h_s : s0.Keeps F s) :
    s0.Keeps F (State.useFrame s addr) := by
  unfold State.useFrame
  extract_lets +onlyGivenNames x1 x2
  clear_value x1 x2
  split
  · apply State.setFrame_keeps (hF.le rfl)
    exact h_s
  · exact h_s

theorem State.retireFrame_keeps {s0 s : State} {F : List Part} (hF : Within [.dict, .mem, .out, .svc, .glody] F) {key : Nat} (h_s : s0.Keeps F s) :
    s0.Keeps F (State.retireFrame s key) := by
  unfold State.retireFrame
  extract_lets +onlyGivenNames x1
  clear_value x1
  split
  · apply State.setFrame_keeps (hF.le rfl)
    exact h_s
  · exact h_s

theorem State.capAudit_keeps {s0 s : State} {F : List Part} (hF : Within [.dict, .out, .svc, .recov, .glody] F) {q : Nat} (h_s : s0.Keeps F s) :
    s0.Keeps F (State.capAudit s q) := by
  unfold State.capAudit
  split
  · apply State.count_keeps (hF.le rfl)
    exact h_s
  · apply State.auditFail_keeps (hF.le rfl)
    apply State.count_keeps (hF.le rfl)
    exact h_s

theorem State.capWalk_keeps {s0 s : State} {F : List Part} (hF : Within [.dict, .out, .svc, .recov, .glody] F) {q : Nat} (h_s : s0.Keeps F s) :
    s0.Keeps F (State.capWalk s q) := by
  unfold State.capWalk
  extract_lets +onlyGivenNames x1
  clear_value x1
  split
  · apply State.count_keeps (hF.le rfl)
    exact h_s
  · apply State.auditFail_keeps (hF.le rfl)
    apply State.count_keeps (hF.le rfl)
    exact h_s

theorem execCapacityAudit_keeps {s0 s : State} {F : List Part} (hF : Within [.dict, .out, .svc, .recov, .glody] F) (h_s : s0.Keeps F s) :
    (Nxt (s0.Keeps F)) (execCapacityAudit s) := by
  unfold execCapacityAudit
  apply Nxt.next
  split
  · exact h_s
  · apply forAll_keeps
    · intro v3 v4 h5
      apply State.capAudit_keeps (hF.le rfl)
      exact h5
    · exact h_s

theorem execFrameWalkPass_keeps {s0 : State} {F : List Part} (hF : Within [.dict, .out, .svc, .recov, .glody] F) {region : Fin 4} {s : State} (h_s : s0.Keeps F s) :
    (Nxt (s0.Keeps F)) (execFrameWalkPass region s) := by
  unfold execFrameWalkPass
  apply Nxt.next
  apply State.capWalk_keeps (hF.le rfl)
  exact h_s

theorem execFenceLift_keeps {s0 : State} {F : List Part} (hF : Within [.dict, .out, .svc, .glody] F) {partition : Fin 64} {s : State} (h_s : s0.Keeps F s) :
    (Nxt (s0.Keeps F)) (execFenceLift partition s) := by
  unfold execFenceLift
  extract_lets +onlyGivenNames x1 x2
  clear_value x1 x2
  apply Nxt.next
  split
  · apply State.capNotice_keeps (hF.le rfl)
    apply State.setPar_keeps (hF.le rfl)
    exact h_s
  · exact h_s

end Sys2Proof.Machine
end

