-- ==== Sys2Proof/Laws/KeepsTensor.lean ====
section
/-! SUPPORT. Every effect of Machine/Tensor.lean leaves the queue alone, keeps the canonical form and writes only the parts named. -/
namespace Sys2Proof.Machine

theorem State.modFac_keeps {s0 s : State} {F : List Part} (hF : Within [.fac] F) {f : Fac → Fac} (h_s : s0.Keeps F s) :
    s0.Keeps F (State.modFac s f) := by
  unfold State.modFac
  refine State.Keeps.congr (s := s) (D := [.fac]) (hF.le rfl) ?_ rfl rfl rfl rfl (by rintro ⟨⟩ <;> (first | exact .inr rfl | simp))
  exact h_s

theorem State.descBit_keeps {s0 s : State} {F : List Part} (hF : Within [.dict] F) {d bit : Nat} {on : Bool} (h_s : s0.Keeps F s) :
    s0.Keeps F (State.descBit s d bit on) := by
  unfold State.descBit
  apply State.setPar_keeps (hF.le rfl)
  exact h_s

theorem State.unhang_keeps {s0 s : State} {F : List Part} (hF : Within [.dict, .recov] F) {gone : Nat → Bool} (h_s : s0.Keeps F s) :
    s0.Keeps F (State.unhang s gone) := by
  unfold State.unhang
  split
  · extract_lets +onlyGivenNames x2
    clear_value x2
    apply State.setPar_keeps (hF.le rfl)
    refine State.Keeps.congr (s := s) (D := [.recov]) (hF.le rfl) ?_ rfl rfl rfl rfl (by rintro ⟨⟩ <;> (first | exact .inr rfl | simp))
    exact h_s
  · exact h_s

theorem State.setWp_keeps {s0 s : State} {F : List Part} (hF : Within [.dict] F) {u st reason : Nat} (h_s : s0.Keeps F s) :
    s0.Keeps F (State.setWp s u st reason) := by
  unfold State.setWp
  apply State.setPar_keeps (hF.le rfl)
  exact h_s

theorem State.dropTile_keeps {s0 s : State} {F : List Part} (hF : Within [.dict, .mem, .out, .fac, .svc, .glody] F) {u i : Nat} (h_s : s0.Keeps F s) :
    s0.Keeps F (State.dropTile s u i) := by
  unfold State.dropTile
  extract_lets +onlyGivenNames x1 x2
  clear_value x1 x2
  extract_lets +onlyGivenNames x3
  have h3 : s0.Keeps F x3 := by
    unfold x3
    apply State.modFac_keeps (hF.le rfl)
    exact h_s
  clear_value x3
  extract_lets +onlyGivenNames x4
  have h4 : s0.Keeps F x4 := by
    unfold x4
    apply forAll_keeps
    · intro v5 v6 h7
      apply State.setFrame_keeps (hF.le rfl)
      exact h7
    · exact h3
  clear_value x4
  apply State.uncount_keeps (hF.le rfl)
  exact h4

theorem State.loseTile_keeps {s0 s : State} {F : List Part} (hF : Within [.dict, .mem, .out, .fac, .svc, .glody] F) {u i : Nat} (h_s : s0.Keeps F s) :
    s0.Keeps F (State.loseTile s u i) := by
  unfold State.loseTile
  extract_lets +onlyGivenNames x1
  have h1 : s0.Keeps F x1 := by
    unfold x1
    apply State.dropTile_keeps (hF.le rfl)
    exact h_s
  clear_value x1
  split
  · apply State.setWp_keeps (hF.le rfl)
    exact h1
  · exact h1

theorem State.dropCopies_keeps {s0 s : State} {F : List Part} (hF : Within [.dict, .mem, .out, .fac, .svc, .glody] F) {u : Nat} (h_s : s0.Keeps F s) :
    s0.Keeps F (State.dropCopies s u) := by
  unfold State.dropCopies
  apply forAll_keeps
  · intro v1 v2 h3
    apply State.dropTile_keeps (hF.le rfl)
    exact h3
  · exact h_s

theorem State.dropBuilt_keeps {s0 s : State} {F : List Part} (hF : Within [.dict, .mem, .out, .fac, .svc, .glody] F) {win area b : Nat} (h_s : s0.Keeps F s) :
    s0.Keeps F (State.dropBuilt s win area b) := by
  unfold State.dropBuilt
  extract_lets +onlyGivenNames x1 x2 x3 x4 x5
  clear_value x1 x2 x3 x4 x5
  extract_lets +onlyGivenNames x6
  have h6 : s0.Keeps F x6 := by
    unfold x6
    apply State.modFac_keeps (hF.le rfl)
    exact h_s
  clear_value x6
  apply forAll_keeps
  · intro v7 v8 h9
    split
    · exact h9
    · extract_lets +onlyGivenNames x12
      clear_value x12
      split
      · exact h9
      · extract_lets +onlyGivenNames x15
        have h15 : s0.Keeps F x15 := by
          unfold x15
          apply forAll_keeps
          · intro v16 v17 h18
            apply State.dropTile_keeps (hF.le rfl)
            exact h18
          · exact h9
        clear_value x15
        split
        · apply State.setWp_keeps (hF.le rfl)
          exact h15
        · exact h15
  · exact h6

theorem State.invalidate_keeps {s0 s : State} {F : List Part} (hF : Within [.dict, .mem, .out, .fac, .svc, .recov, .glody] F) {win area b : Nat} (h_s : s0.Keeps F s) :
    s0.Keeps F (State.invalidate s win area b) := by
  unfold State.invalidate
  extract_lets +onlyGivenNames x1 x2
  clear_value x1 x2
  apply State.dropBuilt_keeps (hF.le rfl)
  apply State.unhang_keeps (hF.le rfl)
  exact h_s

theorem State.compPoisoned_keeps {s0 s : State} {F : List Part} (hF : Within [.dict, .mem, .out, .fac, .svc, .glody] F) {b : Nat} {wasFactor : Bool} (h_s : s0.Keeps F s) :
    s0.Keeps F (State.compPoisoned s b wasFactor) := by
  unfold State.compPoisoned
  split
  · exact h_s
  · split
    · exact h_s
    · split
      extract_lets +onlyGivenNames x12
      clear_value x12
      extract_lets +onlyGivenNames x13
      have h13 : s0.Keeps F x13 := by
        unfold x13
        apply State.dropBuilt_keeps (hF.le rfl)
        exact h_s
      clear_value x13
      extract_lets +onlyGivenNames x14
      have h14 : s0.Keeps F x14 := by
        unfold x14
        split
        · apply State.count_keeps (hF.le rfl)
          exact h13
        · exact h13
      clear_value x14
      split
      · apply State.descBit_keeps (hF.le rfl)
        exact h14
      · exact h14

end Sys2Proof.Machine
end

