-- ==== Sys2Proof/Laws/KeepsStore.lean ====
section
/-! SUPPORT. Every effect of Machine/Store.lean leaves the queue alone, keeps the canonical form and writes only the parts named. -/
namespace Sys2Proof.Machine

theorem State.modSr_keeps {s0 s : State} {F : List Part} (hF : Within [.shared] F) {n : Nat} {f : SrRec → SrRec} (h_s : s0.Keeps F s) :
    s0.Keeps F (State.modSr s n f) := by
  unfold State.modSr
  refine State.Keeps.congr (s := s) (D := [.shared]) (hF.le rfl) ?_ rfl rfl rfl rfl (by rintro ⟨⟩ <;> (first | exact .inr rfl | simp))
  exact h_s

theorem State.modJob_keeps {s0 s : State} {F : List Part} (hF : Within [.jobs] F) {j : Nat} {f : JobRec → JobRec} (h_s : s0.Keeps F s) :
    s0.Keeps F (State.modJob s j f) := by
  unfold State.modJob
  refine State.Keeps.congr (s := s) (D := [.jobs]) (hF.le rfl) ?_ rfl rfl rfl rfl (by rintro ⟨⟩ <;> (first | exact .inr rfl | simp))
  exact h_s

theorem State.unpromote_keeps {s0 s : State} {F : List Part} (hF : Within [.dict, .mem] F) {b : Nat} (h_s : s0.Keeps F s) :
    s0.Keeps F (State.unpromote s b) := by
  unfold State.unpromote
  extract_lets +onlyGivenNames x1
  clear_value x1
  split
  · exact h_s
  · apply State.uncount_keeps (hF.le rfl)
    refine State.modMem_keeps (hF.le rfl) ?_ (fun _ => rfl) (fun _ => rfl)
    exact h_s

theorem State.setWord_keeps {s0 s : State} {F : List Part} (hF : Within [.dict, .mem, .jobs, .shared] F) {v : View} {b : Nat} {w : MapWord} (h_s : s0.Keeps F s) :
    s0.Keeps F (State.setWord s v b w) := by
  unfold State.setWord
  split
  · apply State.unpromote_keeps (hF.le rfl)
    refine State.modMem_keeps (hF.le rfl) ?_ (fun _ => rfl) (fun _ => rfl)
    exact h_s
  · apply State.modSr_keeps (hF.le rfl)
    exact h_s
  · apply State.unpromote_keeps (hF.le rfl)
    apply State.modSr_keeps (hF.le rfl)
    exact h_s
  · apply State.modJob_keeps (hF.le rfl)
    exact h_s

theorem State.swapWord_keeps {s0 s : State} {F : List Part} (hF : Within [.mem, .jobs, .shared] F) {b : Nat} {old new : MapWord} (h_s : s0.Keeps F s) :
    s0.Keeps F (State.swapWord s b old new) := by
  unfold State.swapWord
  split
  · exact h_s
  · extract_lets +onlyGivenNames x3
    clear_value x3
    refine State.Keeps.congr (s := s) (D := [.mem, .jobs, .shared]) (hF.le rfl) ?_ rfl rfl rfl rfl (by rintro ⟨⟩ <;> (first | exact .inr rfl | simp))
    exact h_s

theorem State.freeEntry_keeps {s0 s : State} {F : List Part} (hF : Within [.dict, .mem, .out, .svc, .glody] F) {e : MapEntry} {quar : Bool} (h_s : s0.Keeps F s) :
    s0.Keeps F (State.freeEntry s e quar) := by
  unfold State.freeEntry
  extract_lets +onlyGivenNames x1
  have h1 : s0.Keeps F x1 := by
    unfold x1
    apply State.freeSectors_keeps (hF.le rfl)
    exact h_s
  clear_value x1
  split
  · refine State.modMem_keeps (hF.le rfl) ?_ (fun _ => rfl) (fun _ => rfl)
    apply State.freeSectors_keeps (hF.le rfl)
    exact h1
  · exact h1

theorem State.freeSlot_keeps {s0 s : State} {F : List Part} (hF : Within [.dict, .mem] F) {slot : Nat} (h_s : s0.Keeps F s) :
    s0.Keeps F (State.freeSlot s slot) := by
  unfold State.freeSlot
  split
  · exact h_s
  · apply State.count_keeps (hF.le rfl)
    apply State.uncount_keeps (hF.le rfl)
    refine State.modMem_keeps (hF.le rfl) ?_ (fun _ => rfl) (fun _ => rfl)
    exact h_s

theorem State.release_keeps {s0 s : State} {F : List Part} (hF : Within [.dict, .mem, .out, .svc, .glody] F) {b : Nat} {w : MapWord} (h_s : s0.Keeps F s) :
    s0.Keeps F (State.release s b w) := by
  unfold State.release
  split
  · exact h_s
  · extract_lets +onlyGivenNames x3
    clear_value x3
    split
    · apply State.freeEntry_keeps (hF.le rfl)
      exact h_s
    · split
      · split
        · apply State.uncount_keeps (hF.le rfl)
          apply State.freeSlot_keeps (hF.le rfl)
          exact h_s
        · apply State.freeSlot_keeps (hF.le rfl)
          exact h_s
      · exact h_s

theorem State.rowError_keeps {s0 s : State} {F : List Part} (hF : Within [.dict, .out, .ports, .media, .glody] F) {k line : Nat} (h_s : s0.Keeps F s) :
    s0.Keeps F (State.rowError s k line) := by
  unfold State.rowError
  extract_lets +onlyGivenNames x1 x2 x3 x4 x5 x6 x7 x8
  clear_value x1 x2 x3 x4 x5 x6 x7 x8
  extract_lets +onlyGivenNames x9
  have h9 : s0.Keeps F x9 := by
    unfold x9
    refine State.Keeps.congr (s := s) (D := [.media]) (hF.le rfl) ?_ rfl rfl rfl rfl (by rintro ⟨⟩ <;> (first | exact .inr rfl | simp))
    exact h_s
  clear_value x9
  split
  · exact h9
  · extract_lets +onlyGivenNames x12 x13
    clear_value x12 x13
    extract_lets +onlyGivenNames x14
    have h14 : s0.Keeps F x14 := by
      unfold x14
      apply forAll_keeps
      · intro v15 v16 h17
        split
        · apply State.addEvent_keeps (hF.le rfl)
          exact h17
        · exact h17
      · exact h9
    clear_value x14
    apply State.notice_keeps (hF.le rfl)
    apply State.logMedia_keeps (hF.le rfl)
    exact h14

theorem State.noteLine_keeps {s0 s : State} {F : List Part} (hF : Within [.dict, .out, .ports, .media, .glody] F) {l : Nat} {st : Nat × Nat} {scrub : Bool} (h_s : s0.Keeps F s) :
    s0.Keeps F (State.noteLine s l st scrub) := by
  unfold State.noteLine
  extract_lets +onlyGivenNames x1
  clear_value x1
  split
  · exact h_s
  · apply State.rowError_keeps (hF.le rfl)
    apply State.logLine_keeps (hF.le rfl)
    apply State.count_keeps (hF.le rfl)
    exact h_s
  · split
    · exact h_s
    · apply State.count_keeps (hF.le rfl)
      exact h_s
  · apply State.logLine_keeps (hF.le rfl)
    apply State.count_keeps (hF.le rfl)
    exact h_s

theorem State.meter_keeps {s0 s : State} {F : List Part} (hF : Within [.reg] F) {l n : Nat} (h_s : s0.Keeps F s) :
    s0.Keeps F (State.meter s l n) := by
  unfold State.meter
  extract_lets +onlyGivenNames x1 x2 x3
  clear_value x1 x2 x3
  refine State.Keeps.congr (s := s) (D := [.reg]) (hF.le rfl) ?_ rfl rfl rfl rfl (by rintro ⟨⟩ <;> (first | exact .inr rfl | simp))
  exact h_s

theorem State.noteLines_keeps {s0 s : State} {F : List Part} (hF : Within [.dict, .out, .ports, .reg, .stackTab, .media, .glody] F) {ph : Phys} {ls : List Nat} (h_s : s0.Keeps F s) :
    (Fst (s0.Keeps F)) (State.noteLines s ph ls) := by
  unfold State.noteLines
  apply foldl_fst_keeps
  · intro v1 v2 h3
    extract_lets +onlyGivenNames x4
    clear_value x4
    apply Fst.mk
    apply State.meter_keeps (hF.le rfl)
    apply State.openRow_keeps (hF.le rfl)
    apply State.noteLine_keeps (hF.le rfl)
    exact h3
  · apply Fst.mk
    exact h_s

theorem State.pickLane_keeps {s0 s : State} {F : List Part} (hF : Within [.arb, .power] F) {q input : Nat} (h_s : s0.Keeps F s) :
    (Opt (Snd (s0.Keeps F))) (State.pickLane s q input) := by
  unfold State.pickLane
  apply Opt.map
  intro v1
  extract_lets +onlyGivenNames x2
  clear_value x2
  apply Snd.mk
  apply State.arbGrant_keeps (hF.le rfl)
  apply State.arbGrant_keeps (hF.le rfl)
  exact h_s

theorem State.decodeLane_keeps {s0 s : State} {F : List Part} (hF : Within [.arb, .power] F) {b : Nat} {e : MapEntry} (h_s : s0.Keeps F s) :
    s0.Keeps F (State.decodeLane s b e) := by
  unfold State.decodeLane
  split
  · split
    · apply Snd.get
      refine Opt.of_eq ?_ (by assumption)
      apply State.pickLane_keeps (hF.le rfl)
      exact h_s
    · exact h_s
  · exact h_s

theorem State.logPoison_keeps {s0 s : State} {F : List Part} (hF : Within [.ports] F) {b : Nat} (h_s : s0.Keeps F s) :
    s0.Keeps F (State.logPoison s b) := by
  unfold State.logPoison
  extract_lets +onlyGivenNames x1
  clear_value x1
  refine State.Keeps.congr (s := s) (D := [.ports]) (hF.le rfl) ?_ rfl rfl rfl rfl (by rintro ⟨⟩ <;> (first | exact .inr rfl | simp))
  exact h_s

theorem State.bicelFail_keeps {s0 s : State} {F : List Part} (hF : Within [.dict] F) {b : Nat} {e : MapEntry} {code line : Nat} (h_s : s0.Keeps F s) :
    s0.Keeps F (State.bicelFail s b e code line) := by
  unfold State.bicelFail
  apply State.setPar_keeps (hF.le rfl)
  apply State.count_keeps (hF.le rfl)
  exact h_s

theorem State.failEvent_keeps {s0 s : State} {F : List Part} (hF : Within [.out, .ports] F) {b line : Nat} {e : MapEntry} {code : Nat} {media corrected : Bool} {port : Option Nat} {hid : Nat} (h_s : s0.Keeps F s) :
    s0.Keeps F (State.failEvent s b line e code media corrected port hid) := by
  unfold State.failEvent
  apply State.eventOn_keeps (hF.le rfl)
  exact h_s

theorem State.mapLost_keeps {s0 s : State} {F : List Part} (hF : Within [.dict, .mem, .out, .fac, .jobs, .shared, .ports, .svc, .media, .recov, .glody] F) {v : View} {b : Nat} {port : Option Nat} {hid : Nat} (h_s : s0.Keeps F s) :
    s0.Keeps F (State.mapLost s v b port hid) := by
  unfold State.mapLost
  extract_lets +onlyGivenNames x1
  clear_value x1
  extract_lets +onlyGivenNames x2
  have h2 : s0.Keeps F x2 := by
    unfold x2
    apply State.logMedia_keeps (hF.le rfl)
    apply State.count_keeps (hF.le rfl)
    exact h_s
  clear_value x2
  extract_lets +onlyGivenNames x3
  clear_value x3
  split
  · extract_lets +onlyGivenNames x5
    clear_value x5
    extract_lets +onlyGivenNames x6
    have h6 : s0.Keeps F x6 := by
      unfold x6
      apply State.failEvent_keeps (hF.le rfl)
      apply State.bicelFail_keeps (hF.le rfl)
      exact h2
    clear_value x6
    apply State.compPoisoned_keeps (hF.le rfl)
    apply State.logPoison_keeps (hF.le rfl)
    apply State.setWord_keeps (hF.le rfl)
    apply State.record_keeps (hF.le rfl)
    exact h6
  · apply State.raiseSafe_keeps (hF.le rfl)
    apply State.record_keeps (hF.le rfl)
    exact h2

theorem State.readEntry_keeps {s0 s : State} {F : List Part} (hF : Within [.dict, .mem, .out, .fac, .jobs, .shared, .ports, .svc, .media, .recov, .glody] F) {v : View} {b : Nat} {ph : Phys} {port : Option Nat} {hid : Nat} (h_s : s0.Keeps F s) :
    (Snd (s0.Keeps F)) (State.readEntry s v b ph port hid) := by
  unfold State.readEntry
  extract_lets +onlyGivenNames x1 x2
  clear_value x1 x2
  split
  · split
    · apply Snd.mk
      exact h_s
    · extract_lets +onlyGivenNames x6
      clear_value x6
      split
      · apply Snd.mk
        refine State.modMem_keeps (hF.le rfl) ?_ (fun _ => rfl) (fun _ => rfl)
        exact h_s
      · extract_lets +onlyGivenNames x9
        have h9 : s0.Keeps F x9 := by
          unfold x9
          apply State.mapLost_keeps (hF.le rfl)
          exact h_s
        clear_value x9
        apply Snd.mk
        exact h9
  · split
    · apply Snd.mk
      apply State.mapLost_keeps (hF.le rfl)
      exact h_s
    · apply Snd.mk
      exact h_s

theorem State.fetchLines_keeps {s0 s : State} {F : List Part} (hF : Within [.dict, .out, .ports, .reg, .stackTab, .media, .glody] F) {b : Nat} {e : MapEntry} {addr : Nat} {is : List Nat} {wb : Nat} {ph : Phys} (h_s : s0.Keeps F s) :
    (Snd (s0.Keeps F)) (State.fetchLines s b e addr is wb ph) := by
  unfold State.fetchLines
  split
  · apply Snd.mk
    exact h_s
  · extract_lets +onlyGivenNames x3
    clear_value x3
    split
    extract_lets +onlyGivenNames x8
    clear_value x8
    split
    · apply Snd.mk
      refine Fst.of_eq ?_ (by assumption)
      apply State.noteLines_keeps (hF.le rfl)
      exact h_s
    · split
      · apply Snd.mk
        refine Fst.of_eq ?_ (by assumption)
        apply State.noteLines_keeps (hF.le rfl)
        exact h_s
      · split
        · apply Snd.mk
          refine Fst.of_eq ?_ (by assumption)
          apply State.noteLines_keeps (hF.le rfl)
          exact h_s
        · apply Snd.mk
          refine Fst.of_eq ?_ (by assumption)
          apply State.noteLines_keeps (hF.le rfl)
          exact h_s

theorem State.storeBytes_keeps {s0 s : State} {F : List Part} (hF : Within [.dict, .hbm, .mem, .reg, .media] F) {base : Nat} {d : List Byte} {marks : List Nat} (h_s : s0.Keeps F s) :
    s0.Keeps F (State.storeBytes s base d marks) := by
  unfold State.storeBytes
  extract_lets +onlyGivenNames x1 x2 x3 x4
  clear_value x1 x2 x3 x4
  extract_lets +onlyGivenNames x5
  have h5 : s0.Keeps F x5 := by
    unfold x5
    refine State.modMem_hbm_keeps (hF.le rfl) ?_ (fun _ => rfl) ?_
    · apply State.meter_keeps (hF.le rfl)
      exact h_s
    · intro v6 h7
      exact Tab.wf_writeRun _ _ _ (by assumption)
  clear_value x5
  extract_lets +onlyGivenNames x8 x9
  clear_value x8 x9
  extract_lets +onlyGivenNames x10
  have h10 : s0.Keeps F x10 := by
    unfold x10
    refine State.Keeps.congr (s := x5) (D := [.media]) (hF.le rfl) ?_ rfl rfl rfl rfl (by rintro ⟨⟩ <;> (first | exact .inr rfl | simp))
    exact h5
  clear_value x10
  extract_lets +onlyGivenNames x11
  have h11 : s0.Keeps F x11 := by
    unfold x11
    apply forAll_keeps
    · intro v12 v13 h14
      apply State.logLine_keeps (hF.le rfl)
      exact h14
    · exact h10
  clear_value x11
  split
  · apply State.setPar_keeps (hF.le rfl)
    exact h11
  · exact h11

theorem State.allocCopies_keeps {s0 s : State} {F : List Part} (hF : Within [.dict, .hbm, .mem, .out, .freeCtr, .svc, .media, .glody] F) {b n st len : Nat} (h_s : s0.Keeps F s) :
    (Opt (Snd (Snd (s0.Keeps F)))) (State.allocCopies s b n st len) := by
  unfold State.allocCopies
  extract_lets +onlyGivenNames x1
  clear_value x1
  split
  · apply Opt.none
  · split
    · split
      · apply Opt.none
      · apply Opt.some
        apply Snd.mk
        apply Snd.mk
        refine Opt.snd_of_eq ?_ (by assumption)
        apply State.alloc_keeps (hF.le rfl)
        refine Opt.snd_of_eq ?_ (by assumption)
        apply State.alloc_keeps (hF.le rfl)
        exact h_s
    · apply Opt.some
      apply Snd.mk
      apply Snd.mk
      refine Opt.snd_of_eq ?_ (by assumption)
      apply State.alloc_keeps (hF.le rfl)
      exact h_s

theorem State.commitForm_keeps {s0 s : State} {F : List Part} (hF : Within [.dict, .hbm, .mem, .out, .freeCtr, .jobs, .shared, .svc, .reg, .media, .glody] F) {v : View} {b : Nat} {f : Form} {marks : List Nat} {all : Bool} (h_s : s0.Keeps F s) :
    (Opt (s0.Keeps F)) (State.commitForm s v b f marks all) := by
  unfold State.commitForm
  split
  · apply Opt.none
  · extract_lets +onlyGivenNames x6 x7 x8 x9
    clear_value x6 x7 x8 x9
    extract_lets +onlyGivenNames x10
    have h10 : ∀ a0 a1, s0.Keeps F a0 → s0.Keeps F (x10 a0 a1) := by
      unfold x10
      intro v11 v12 h13
      split
      · extract_lets +onlyGivenNames x15
        have h15 : s0.Keeps F x15 := by
          unfold x15
          apply State.swapWord_keeps (hF.le rfl)
          exact h13
        clear_value x15
        split
        · exact h15
        · apply State.unpromote_keeps (hF.le rfl)
          exact h15
      · apply State.setWord_keeps (hF.le rfl)
        exact h13
    clear_value x10
    split
    · extract_lets +onlyGivenNames x20
      clear_value x20
      apply Opt.some
      apply State.release_keeps (hF.le rfl)
      apply h10
      exact h_s
    · split
      · apply Opt.none
      · extract_lets +onlyGivenNames x29 x30
        clear_value x29 x30
        extract_lets +onlyGivenNames x31
        have h31 : s0.Keeps F x31 := by
          unfold x31
          apply State.storeBytes_keeps (hF.le rfl)
          refine Opt.snd_of_eq₂ ?_ (by assumption)
          apply State.allocCopies_keeps (hF.le rfl)
          exact h_s
        clear_value x31
        extract_lets +onlyGivenNames x32
        have h32 : s0.Keeps F x32 := by
          unfold x32
          split
          · exact h31
          · refine State.modMem_keeps (hF.le rfl) ?_ (fun _ => rfl) (fun _ => rfl)
            apply State.storeBytes_keeps (hF.le rfl)
            exact h31
        clear_value x32
        extract_lets +onlyGivenNames x35
        clear_value x35
        apply Opt.some
        apply State.release_keeps (hF.le rfl)
        apply h10
        exact h32

theorem State.poison_keeps {s0 s : State} {F : List Part} (hF : Within [.dict, .mem, .out, .fac, .jobs, .shared, .ports, .svc, .glody] F) {v : View} {b : Nat} {quar : Bool} (h_s : s0.Keeps F s) :
    s0.Keeps F (State.poison s v b quar) := by
  unfold State.poison
  extract_lets +onlyGivenNames x1 x2
  clear_value x1 x2
  split
  · exact h_s
  · extract_lets +onlyGivenNames x5 x6
    clear_value x5 x6
    extract_lets +onlyGivenNames x7
    have h7 : s0.Keeps F x7 := by
      unfold x7
      split
      · apply State.setWord_keeps (hF.le rfl)
        exact h_s
      · split
        · apply State.unpromote_keeps (hF.le rfl)
          apply State.swapWord_keeps (hF.le rfl)
          exact h_s
        · apply State.setWord_keeps (hF.le rfl)
          exact h_s
    clear_value x7
    extract_lets +onlyGivenNames x12
    have h12 : s0.Keeps F x12 := by
      unfold x12
      split
      · split
        · exact h7
        · apply State.freeEntry_keeps (hF.le rfl)
          exact h7
      · apply State.release_keeps (hF.le rfl)
        exact h7
    clear_value x12
    apply State.compPoisoned_keeps (hF.le rfl)
    apply State.logPoison_keeps (hF.le rfl)
    exact h12

theorem State.failBlock_keeps {s0 s : State} {F : List Part} (hF : Within [.dict, .mem, .out, .fac, .jobs, .shared, .ports, .svc, .glody] F) {v : View} {b : Nat} {e : MapEntry} {x : Fail} {port : Option Nat} {hid : Nat} (h_s : s0.Keeps F s) :
    s0.Keeps F (State.failBlock s v b e x port hid) := by
  unfold State.failBlock
  extract_lets +onlyGivenNames x1
  have h1 : s0.Keeps F x1 := by
    unfold x1
    split
    · exact h_s
    · apply State.bicelFail_keeps (hF.le rfl)
      exact h_s
  clear_value x1
  apply State.poison_keeps (hF.le rfl)
  apply State.failEvent_keeps (hF.le rfl)
  exact h1

theorem State.rewrite_keeps {s0 s : State} {F : List Part} (hF : Within [.dict, .hbm, .mem, .out, .freeCtr, .jobs, .shared, .svc, .reg, .media, .glody] F) {v : View} {b : Nat} {e : MapEntry} {addr : Nat} (h_s : s0.Keeps F s) :
    s0.Keeps F (State.rewrite s v b e addr) := by
  unfold State.rewrite
  extract_lets +onlyGivenNames x1
  clear_value x1
  apply Opt.getD
  · apply State.commitForm_keeps (hF.le rfl)
    exact h_s
  · exact h_s

theorem State.readLinesAt_keeps {s0 s : State} {F : List Part} (hF : Within [.dict, .hbm, .mem, .arb, .out, .freeCtr, .fac, .jobs, .shared, .ports, .svc, .reg, .stackTab, .media, .power, .glody] F) {v : View} {b : Nat} {e : MapEntry} {is : List Nat} {wb : Nat} {ph : Phys} {port : Option Nat} {hid : Nat} (h_s : s0.Keeps F s) :
    (Snd (s0.Keeps F)) (State.readLinesAt s v b e is wb ph port hid) := by
  unfold State.readLinesAt
  extract_lets +onlyGivenNames x1
  clear_value x1
  split
  · apply Snd.mk
    exact h_s
  · split
    · apply Snd.mk
      apply State.failBlock_keeps (hF.le rfl)
      exact h_s
    · split
      · apply Snd.mk
        exact h_s
      · split
        · apply Snd.mk
          apply State.failBlock_keeps (hF.le rfl)
          exact h_s
        · split
          · apply Snd.mk
            exact h_s
          · split
            · apply Snd.mk
              refine Snd.of_eq ?_ (by assumption)
              apply State.fetchLines_keeps (hF.le rfl)
              apply State.decodeLane_keeps (hF.le rfl)
              exact h_s
            · split
              · apply Snd.mk
                apply State.failBlock_keeps (hF.le rfl)
                refine Snd.of_eq ?_ (by assumption)
                apply State.fetchLines_keeps (hF.le rfl)
                apply State.decodeLane_keeps (hF.le rfl)
                exact h_s
              · split
                · extract_lets +onlyGivenNames x29
                  have h29 : s0.Keeps F x29 := by
                    unfold x29
                    split
                    · refine Snd.of_eq ?_ (by assumption)
                      apply State.fetchLines_keeps (hF.le rfl)
                      refine Snd.of_eq ?_ (by assumption)
                      apply State.fetchLines_keeps (hF.le rfl)
                      apply State.decodeLane_keeps (hF.le rfl)
                      exact h_s
                    · apply State.bicelFail_keeps (hF.le rfl)
                      refine Snd.of_eq ?_ (by assumption)
                      apply State.fetchLines_keeps (hF.le rfl)
                      refine Snd.of_eq ?_ (by assumption)
                      apply State.fetchLines_keeps (hF.le rfl)
                      apply State.decodeLane_keeps (hF.le rfl)
                      exact h_s
                  clear_value x29
                  apply Snd.mk
                  apply State.rewrite_keeps (hF.le rfl)
                  apply State.failEvent_keeps (hF.le rfl)
                  exact h29
                · apply Snd.mk
                  apply State.failBlock_keeps (hF.le rfl)
                  refine Snd.of_eq ?_ (by assumption)
                  apply State.fetchLines_keeps (hF.le rfl)
                  refine Snd.of_eq ?_ (by assumption)
                  apply State.fetchLines_keeps (hF.le rfl)
                  apply State.decodeLane_keeps (hF.le rfl)
                  exact h_s

theorem State.readLineAt_keeps {s0 s : State} {F : List Part} (hF : Within [.dict, .hbm, .mem, .arb, .out, .freeCtr, .fac, .jobs, .shared, .ports, .svc, .reg, .stackTab, .media, .power, .glody] F) {v : View} {b : Nat} {e : MapEntry} {i wb : Nat} {ph : Phys} {port : Option Nat} {hid : Nat} (h_s : s0.Keeps F s) :
    (Snd (s0.Keeps F)) (State.readLineAt s v b e i wb ph port hid) := by
  unfold State.readLineAt
  split
  · apply Snd.mk
    refine Snd.of_eq ?_ (by assumption)
    apply State.readLinesAt_keeps (hF.le rfl)
    exact h_s
  · apply Snd.mk
    refine Snd.of_eq ?_ (by assumption)
    apply State.readLinesAt_keeps (hF.le rfl)
    exact h_s

theorem State.readLine_keeps {s0 s : State} {F : List Part} (hF : Within [.dict, .hbm, .mem, .arb, .out, .freeCtr, .fac, .jobs, .shared, .ports, .svc, .reg, .stackTab, .media, .recov, .power, .glody] F) {v : View} {b i wb : Nat} {ph : Phys} {port : Option Nat} {hid : Nat} (h_s : s0.Keeps F s) :
    (Snd (s0.Keeps F)) (State.readLine s v b i wb ph port hid) := by
  unfold State.readLine
  split
  apply State.readLineAt_keeps (hF.le rfl)
  refine Snd.of_eq ?_ (by assumption)
  apply State.readEntry_keeps (hF.le rfl)
  exact h_s

theorem State.readBlock_keeps {s0 s : State} {F : List Part} (hF : Within [.dict, .hbm, .mem, .arb, .out, .freeCtr, .fac, .jobs, .shared, .ports, .svc, .reg, .stackTab, .media, .recov, .power, .glody] F) {v : View} {b wb : Nat} {ph : Phys} {port : Option Nat} {hid : Nat} (h_s : s0.Keeps F s) :
    (Snd (s0.Keeps F)) (State.readBlock s v b wb ph port hid) := by
  unfold State.readBlock
  split
  split
  · apply Snd.mk
    refine Snd.of_eq ?_ (by assumption)
    apply State.readLinesAt_keeps (hF.le rfl)
    refine Snd.of_eq ?_ (by assumption)
    apply State.readEntry_keeps (hF.le rfl)
    exact h_s
  · apply Snd.mk
    refine Snd.of_eq ?_ (by assumption)
    apply State.readLinesAt_keeps (hF.le rfl)
    refine Snd.of_eq ?_ (by assumption)
    apply State.readEntry_keeps (hF.le rfl)
    exact h_s

theorem State.writeFlat_keeps {s0 s : State} {F : List Part} (hF : Within [.dict, .hbm, .mem, .reg, .media] F) {b : Nat} {e : MapEntry} {lines : Tab (List Byte)} {bad : List Nat} (h_s : s0.Keeps F s) :
    s0.Keeps F (State.writeFlat s b e lines bad) := by
  unfold State.writeFlat
  extract_lets +onlyGivenNames x1 x2 x3
  clear_value x1 x2 x3
  extract_lets +onlyGivenNames x4
  have h4 : ∀ a0 a1, s0.Keeps F a0 → s0.Keeps F (x4 a0 a1) := by
    unfold x4
    intro v5 v6 h7
    apply forAll_keeps
    · intro v8 v9 h10
      apply State.storeBytes_keeps (hF.le rfl)
      exact h10
    · exact h7
  clear_value x4
  extract_lets +onlyGivenNames x11
  have h11 : s0.Keeps F x11 := by
    unfold x11
    apply h4
    exact h_s
  clear_value x11
  split
  · apply h4
    exact h11
  · exact h11

theorem State.writeSlot_keeps {s0 s : State} {F : List Part} (hF : Within [.mem, .svc] F) {b ver slot : Nat} {d : List Byte} (h_s : s0.Keeps F s) :
    s0.Keeps F (State.writeSlot s b ver slot d) := by
  unfold State.writeSlot
  extract_lets +onlyGivenNames x1 x2
  clear_value x1 x2
  extract_lets +onlyGivenNames x3
  have h3 : s0.Keeps F x3 := by
    unfold x3
    apply State.svcPut_keeps (hF.le rfl)
    apply State.svcPut_keeps (hF.le rfl)
    exact h_s
  clear_value x3
  refine State.modMem_keeps (hF.le rfl) ?_ (fun _ => rfl) (fun _ => rfl)
  exact h3

theorem State.commitSlot_keeps {s0 s : State} {F : List Part} (hF : Within [.dict, .mem, .out, .jobs, .shared, .svc, .glody] F) {b slot : Nat} (h_s : s0.Keeps F s) :
    s0.Keeps F (State.commitSlot s b slot) := by
  unfold State.commitSlot
  extract_lets +onlyGivenNames x1 x2 x3
  clear_value x1 x2 x3
  extract_lets +onlyGivenNames x4
  have h4 : s0.Keeps F x4 := by
    unfold x4
    split
    · exact h_s
    · split
      · apply State.count_keeps (hF.le rfl)
        exact h_s
      · exact h_s
  clear_value x4
  extract_lets +onlyGivenNames x12
  clear_value x12
  extract_lets +onlyGivenNames x13
  have h13 : s0.Keeps F x13 := by
    unfold x13
    apply State.setWord_keeps (hF.le rfl)
    exact h4
  clear_value x13
  split
  · exact h13
  · apply State.release_keeps (hF.le rfl)
    exact h13

theorem State.fillSlot_keeps {s0 s : State} {F : List Part} (hF : Within [.dict, .mem, .svc] F) {b : Nat} {d : List Byte} (h_s : s0.Keeps F s) :
    (Snd (s0.Keeps F)) (State.fillSlot s b d) := by
  unfold State.fillSlot
  extract_lets +onlyGivenNames x1 x2 x3
  clear_value x1 x2 x3
  extract_lets +onlyGivenNames x4
  have h4 : s0.Keeps F x4 := by
    unfold x4
    apply State.writeSlot_keeps (hF.le rfl)
    exact h_s
  clear_value x4
  apply Snd.mk
  split
  · exact h4
  · apply State.count_keeps (hF.le rfl)
    apply State.uncount_keeps (hF.le rfl)
    exact h4

theorem State.toDetour_keeps {s0 s : State} {F : List Part} (hF : Within [.dict, .mem, .svc] F) {w b : Nat} {d : List Byte} {src : List WriteSrc} (h_s : s0.Keeps F s) :
    s0.Keeps F (State.toDetour s w b d src) := by
  unfold State.toDetour
  split
  extract_lets +onlyGivenNames x5
  clear_value x5
  refine State.modMem_keeps (hF.le rfl) ?_ (fun _ => rfl) (fun _ => rfl)
  refine Snd.of_eq ?_ (by assumption)
  apply State.fillSlot_keeps (hF.le rfl)
  exact h_s

theorem State.discard_keeps {s0 s : State} {F : List Part} (hF : Within [.dict, .mem, .out, .fac, .jobs, .shared, .ports, .svc, .glody] F) {v : View} {n b : Nat} {src : List WriteSrc} (h_s : s0.Keeps F s) :
    s0.Keeps F (State.discard s v n b src) := by
  unfold State.discard
  extract_lets +onlyGivenNames x1
  clear_value x1
  extract_lets +onlyGivenNames x2
  have h2 : s0.Keeps F x2 := by
    unfold x2
    apply forAll_keeps
    · intro v3 v4 h5
      apply State.eventOn_keeps (hF.le rfl)
      exact h5
    · apply State.count_keeps (hF.le rfl)
      exact h_s
  clear_value x2
  apply State.poison_keeps (hF.le rfl)
  exact h2

theorem State.noFrame_keeps {s0 s : State} {F : List Part} (hF : Within [.dict, .mem, .out, .fac, .jobs, .shared, .ports, .svc, .glody] F) {v : View} {n b : Nat} (h_s : s0.Keeps F s) :
    s0.Keeps F (State.noFrame s v n b) := by
  unfold State.noFrame
  extract_lets +onlyGivenNames x1
  clear_value x1
  apply State.record_keeps (hF.le rfl)
  apply State.poison_keeps (hF.le rfl)
  exact h_s

theorem State.putForm_keeps {s0 s : State} {F : List Part} (hF : Within [.dict, .hbm, .mem, .out, .freeCtr, .fac, .jobs, .shared, .ports, .svc, .reg, .media, .glody] F) {v : View} {n b : Nat} {f : Form} {marks : List Nat} (h_s : s0.Keeps F s) :
    s0.Keeps F (State.putForm s v n b f marks) := by
  unfold State.putForm
  apply Opt.getD
  · apply State.commitForm_keeps (hF.le rfl)
    exact h_s
  · apply State.noFrame_keeps (hF.le rfl)
    exact h_s

theorem State.land_keeps {s0 s : State} {F : List Part} (hF : Within [.dict, .hbm, .mem, .out, .freeCtr, .fac, .jobs, .shared, .ports, .svc, .reg, .media, .glody] F) {v : View} {w b : Nat} {f : Form} {marks : List Nat} {src : List WriteSrc} (h_s : s0.Keeps F s) :
    s0.Keeps F (State.land s v w b f marks src) := by
  unfold State.land
  split
  · exact h_s
  · extract_lets +onlyGivenNames x6
    have h6 : ∀ a0, s0.Keeps F a0 → s0.Keeps F (x6 a0) := by
      unfold x6
      intro v7 h8
      apply State.putForm_keeps (hF.le rfl)
      exact h8
    clear_value x6
    split
    · apply h6
      exact h_s
    · split
      · apply State.discard_keeps (hF.le rfl)
        exact h_s
      · split
        · apply h6
          exact h_s
        · split
          · split
            · split
              · apply State.toDetour_keeps (hF.le rfl)
                exact h_s
              · apply h6
                apply State.fence_keeps (hF.le rfl)
                exact h_s
            · apply h6
              apply State.fence_keeps (hF.le rfl)
              exact h_s
          · extract_lets +onlyGivenNames x30
            have h30 : s0.Keeps F x30 := by
              unfold x30
              split
              · apply State.fence_keeps (hF.le rfl)
                exact h_s
              · exact h_s
            clear_value x30
            apply h6
            exact h30
          · apply h6
            apply State.fence_keeps (hF.le rfl)
            exact h_s

theorem State.slotPoison_keeps {s0 s : State} {F : List Part} (hF : Within [.dict, .mem, .out, .fac, .jobs, .shared, .ports, .svc, .glody] F) {b : Nat} (h_s : s0.Keeps F s) :
    s0.Keeps F (State.slotPoison s b) := by
  unfold State.slotPoison
  extract_lets +onlyGivenNames x1
  clear_value x1
  extract_lets +onlyGivenNames x2
  have h2 : s0.Keeps F x2 := by
    unfold x2
    split
    · apply State.uncount_keeps (hF.le rfl)
      exact h_s
    · exact h_s
  clear_value x2
  extract_lets +onlyGivenNames x8
  clear_value x8
  apply State.compPoisoned_keeps (hF.le rfl)
  apply State.logPoison_keeps (hF.le rfl)
  apply State.setWord_keeps (hF.le rfl)
  apply State.freeSlot_keeps (hF.le rfl)
  exact h2

theorem State.detourBad_keeps {s0 s : State} {F : List Part} (hF : Within [.dict, .mem, .out, .fac, .jobs, .shared, .ports, .svc, .glody] F) {b : Nat} {port : Option Nat} {hid : Nat} (h_s : s0.Keeps F s) :
    s0.Keeps F (State.detourBad s b port hid) := by
  unfold State.detourBad
  extract_lets +onlyGivenNames x1
  have h1 : s0.Keeps F x1 := by
    unfold x1
    apply State.count_keeps (hF.le rfl)
    exact h_s
  clear_value x1
  apply State.slotPoison_keeps (hF.le rfl)
  apply State.eventOn_keeps (hF.le rfl)
  exact h1

end Sys2Proof.Machine
end

