-- ==== Sys2Proof/Laws/KeepsDesc.lean ====
section
/-! SUPPORT. Every effect of Machine/Desc.lean leaves the queue alone, keeps the canonical form and writes only the parts named. -/
namespace Sys2Proof.Machine

theorem State.setLossy_keeps {s0 s : State} {F : List Part} (hF : Within [.dict] F) {d : Nat} (h_s : s0.Keeps F s) :
    s0.Keeps F (State.setLossy s d) := by
  unfold State.setLossy
  apply State.descBit_keeps (hF.le rfl)
  exact h_s

theorem State.descCommit_keeps {s0 s : State} {F : List Part} (hF : Within [.dict] F) {d : Nat} (h_s : s0.Keeps F s) :
    s0.Keeps F (State.descCommit s d) := by
  unfold State.descCommit
  split
  · apply State.setPar_keeps (hF.le rfl)
    exact h_s
  · extract_lets +onlyGivenNames x3
    clear_value x3
    extract_lets +onlyGivenNames x4
    have h4 : s0.Keeps F x4 := by
      unfold x4
      apply State.setPar_keeps (hF.le rfl)
      exact h_s
    clear_value x4
    split
    · apply State.setLossy_keeps (hF.le rfl)
      apply State.descBit_keeps (hF.le rfl)
      exact h4
    · exact h4

theorem State.descRelease_keeps {s0 s : State} {F : List Part} (hF : Within [.dict, .recov] F) {d : Nat} (h_s : s0.Keeps F s) :
    s0.Keeps F (State.descRelease s d) := by
  unfold State.descRelease
  split
  · apply State.setPar_keeps (hF.le rfl)
    exact h_s
  · apply State.unhang_keeps (hF.le rfl)
    apply State.descBit_keeps (hF.le rfl)
    apply State.setPar_keeps (hF.le rfl)
    exact h_s

theorem execDescCommit_keeps {s0 : State} {F : List Part} (hF : Within [.dict, .out, .freeCtr, .svc] F) {descriptor : Fin 2048} {s : State} (h_s : s0.Keeps F s) :
    (Nxt (s0.Keeps F)) (execDescCommit descriptor s) := by
  unfold execDescCommit
  apply Nxt.next
  apply State.barWrite_keeps (hF.le rfl)
  · exact h_s
  · intro v1 h2
    apply State.descCommit_keeps (hF.le rfl)
    exact h2

theorem execDescRelease_keeps {s0 : State} {F : List Part} (hF : Within [.dict, .out, .freeCtr, .svc, .recov] F) {descriptor : Fin 2048} {s : State} (h_s : s0.Keeps F s) :
    (Nxt (s0.Keeps F)) (execDescRelease descriptor s) := by
  unfold execDescRelease
  apply Nxt.next
  apply State.barWrite_keeps (hF.le rfl)
  · exact h_s
  · intro v1 h2
    apply State.descRelease_keeps (hF.le rfl)
    exact h2

end Sys2Proof.Machine
end

