-- ==== Sys2Proof/Laws/KeepsOwn.lean ====
section
/-! SUPPORT. Every effect of Machine/Own.lean leaves the queue alone, keeps the canonical form and writes only the parts named. -/
namespace Sys2Proof.Machine

theorem State.modPart_keeps {s0 s : State} {F : List Part} (hF : Within [.own] F) {n : Nat} {f : PartRec → PartRec} (h_s : s0.Keeps F s) :
    s0.Keeps F (State.modPart s n f) := by
  unfold State.modPart
  refine State.Keeps.congr (s := s) (D := [.own]) (hF.le rfl) ?_ rfl rfl rfl rfl (by rintro ⟨⟩ <;> (first | exact .inr rfl | simp))
  exact h_s

theorem State.pressSet_keeps {s0 s : State} {F : List Part} (hF : Within [.dict, .out, .svc, .glody] F) {set : Nat} (h_s : s0.Keeps F s) :
    s0.Keeps F (State.pressSet s set) := by
  unfold State.pressSet
  apply forAll_keeps
  · intro v1 v2 h3
    apply State.press_keeps (hF.le rfl)
    exact h3
  · exact h_s

theorem State.partCommit_keeps {s0 s : State} {F : List Part} (hF : Within [.dict, .mem, .out, .own, .svc, .glody] F) {n : Nat} (h_s : s0.Keeps F s) :
    s0.Keeps F (State.partCommit s n) := by
  unfold State.partCommit
  extract_lets +onlyGivenNames x1
  clear_value x1
  extract_lets +onlyGivenNames x2
  have h2 : s0.Keeps F x2 := by
    unfold x2
    apply State.setPar_keeps (hF.le rfl)
    exact h_s
  clear_value x2
  split
  · exact h2
  · extract_lets +onlyGivenNames x5
    have h5 : s0.Keeps F x5 := by
      unfold x5
      refine State.modMem_keeps (hF.le rfl) ?_ (fun _ => rfl) (fun _ => rfl)
      apply State.modPart_keeps (hF.le rfl)
      exact h2
    clear_value x5
    apply State.pressSet_keeps (hF.le rfl)
    apply State.setPar_keeps (hF.le rfl)
    apply State.setPar_keeps (hF.le rfl)
    exact h5

theorem State.partRelease_keeps {s0 s : State} {F : List Part} (hF : Within [.dict, .out, .own, .svc, .glody] F) {n : Nat} (h_s : s0.Keeps F s) :
    s0.Keeps F (State.partRelease s n) := by
  unfold State.partRelease
  split
  · apply State.setPar_keeps (hF.le rfl)
    exact h_s
  · extract_lets +onlyGivenNames x3
    have h3 : s0.Keeps F x3 := by
      unfold x3
      apply State.modPart_keeps (hF.le rfl)
      exact h_s
    clear_value x3
    apply State.pressSet_keeps (hF.le rfl)
    exact h3

theorem State.partEmpty_keeps {s0 s : State} {F : List Part} (hF : Within [.dict, .mem, .out, .own, .svc, .glody] F) {n : Nat} (h_s : s0.Keeps F s) :
    s0.Keeps F (State.partEmpty s n) := by
  unfold State.partEmpty
  extract_lets +onlyGivenNames x1
  clear_value x1
  split
  · exact h_s
  · extract_lets +onlyGivenNames x4 x5
    clear_value x4 x5
    extract_lets +onlyGivenNames x6
    have h6 : s0.Keeps F x6 := by
      unfold x6
      apply forAll_keeps
      · intro v7 v8 h9
        extract_lets +onlyGivenNames x10
        clear_value x10
        split
        · apply State.freeEntry_keeps (hF.le rfl)
          exact h9
        · split
          · apply State.freeSlot_keeps (hF.le rfl)
            exact h9
          · exact h9
      · exact h_s
    clear_value x6
    extract_lets +onlyGivenNames x15
    have h15 : s0.Keeps F x15 := by
      unfold x15
      apply forAll_keeps
      · intro v16 v17 h18
        split
        · apply State.unpromote_keeps (hF.le rfl)
          exact h18
        · exact h18
      · exact h6
    clear_value x15
    extract_lets +onlyGivenNames x21
    have h21 : s0.Keeps F x21 := by
      unfold x21
      refine State.modMem_keeps (hF.le rfl) ?_ (fun _ => rfl) (fun _ => rfl)
      exact h15
    clear_value x21
    extract_lets +onlyGivenNames x22
    have h22 : s0.Keeps F x22 := by
      unfold x22
      apply forAll_keeps
      · intro v23 v24 h25
        split
        · split
          · apply State.setFrame_keeps (hF.le rfl)
            exact h25
          · split
            · apply State.setFrame_keeps (hF.le rfl)
              exact h25
            · exact h25
        · exact h25
      · exact h21
    clear_value x22
    apply State.modPart_keeps (hF.le rfl)
    apply State.setPar_keeps (hF.le rfl)
    apply State.setPar_keeps (hF.le rfl)
    exact h22

theorem execPartCommit_keeps {s0 : State} {F : List Part} (hF : Within [.dict, .mem, .out, .freeCtr, .own, .svc, .glody] F) {partition : Fin 64} {s : State} (h_s : s0.Keeps F s) :
    (Nxt (s0.Keeps F)) (execPartCommit partition s) := by
  unfold execPartCommit
  apply Nxt.next
  apply State.barWrite_keeps (hF.le rfl)
  · exact h_s
  · intro v1 h2
    apply State.partCommit_keeps (hF.le rfl)
    exact h2

theorem execPartRelease_keeps {s0 : State} {F : List Part} (hF : Within [.dict, .out, .freeCtr, .own, .svc, .glody] F) {partition : Fin 64} {s : State} (h_s : s0.Keeps F s) :
    (Nxt (s0.Keeps F)) (execPartRelease partition s) := by
  unfold execPartRelease
  apply Nxt.next
  apply State.barWrite_keeps (hF.le rfl)
  · exact h_s
  · intro v1 h2
    apply State.partRelease_keeps (hF.le rfl)
    exact h2

theorem execPartReleaseComplete_keeps {s0 : State} {F : List Part} (hF : Within [.dict, .mem, .out, .own, .svc, .glody] F) {partition : Fin 64} {s : State} (h_s : s0.Keeps F s) :
    (Nxt (s0.Keeps F)) (execPartReleaseComplete partition s) := by
  unfold execPartReleaseComplete
  apply Nxt.next
  apply State.partEmpty_keeps (hF.le rfl)
  exact h_s

theorem State.descDamage_keeps {s0 s : State} {F : List Part} (hF : Within [.dict] F) {w : Nat} (h_s : s0.Keeps F s) :
    s0.Keeps F (State.descDamage s w) := by
  unfold State.descDamage
  split
  · exact h_s
  · extract_lets +onlyGivenNames x3 x4
    clear_value x3 x4
    apply State.descBit_keeps (hF.le rfl)
    exact h_s

theorem State.showStore_keeps {s0 s : State} {F : List Part} (hF : Within [.dict, .mem] F) {t1 : Bool} {base size : Nat} (h_s : s0.Keeps F s) :
    s0.Keeps F (State.showStore s t1 base size) := by
  unfold State.showStore
  extract_lets +onlyGivenNames x1 x2 x3
  clear_value x1 x2 x3
  extract_lets +onlyGivenNames x4
  have h4 : s0.Keeps F x4 := by
    unfold x4
    apply forAll_keeps
    · intro v5 v6 h7
      split
      · apply State.unpromote_keeps (hF.le rfl)
        exact h7
      · exact h7
    · exact h_s
  clear_value x4
  refine State.modMem_keeps (hF.le rfl) ?_ (fun _ => rfl) (fun _ => rfl)
  exact h4

theorem State.winCommit_keeps {s0 s : State} {F : List Part} (hF : Within [.dict, .t0, .mem] F) {w : Nat} (h_s : s0.Keeps F s) :
    s0.Keeps F (State.winCommit s w) := by
  unfold State.winCommit
  extract_lets +onlyGivenNames x1
  clear_value x1
  extract_lets +onlyGivenNames x2
  have h2 : s0.Keeps F x2 := by
    unfold x2
    apply State.setPar_keeps (hF.le rfl)
    exact h_s
  clear_value x2
  split
  · exact h2
  · extract_lets +onlyGivenNames x5 x6 x7
    clear_value x5 x6 x7
    extract_lets +onlyGivenNames x8
    have h8 : s0.Keeps F x8 := by
      unfold x8
      apply State.setPar_keeps (hF.le rfl)
      exact h2
    clear_value x8
    extract_lets +onlyGivenNames x9
    have h9 : s0.Keeps F x9 := by
      unfold x9
      split
      · exact h8
      · apply State.showStore_keeps (hF.le rfl)
        exact h8
    clear_value x9
    split
    · refine State.modMem_t0_keeps (hF.le rfl) ?_ (fun _ => rfl) ?_
      · exact h9
      · intro v13 h14
        exact Tab.wfBy_filter _ _ (by assumption)
    · split
      · extract_lets +onlyGivenNames x17
        have h17 : s0.Keeps F x17 := by
          unfold x17
          apply State.setLossy_keeps (hF.le rfl)
          apply State.setPar_keeps (hF.le rfl)
          apply State.descBit_keeps (hF.le rfl)
          exact h9
        clear_value x17
        apply State.descDamage_keeps (hF.le rfl)
        apply State.setPar_keeps (hF.le rfl)
        exact h17
      · exact h9

theorem State.winDown_keeps {s0 s : State} {F : List Part} (hF : Within [.dict] F) {w : Nat} (h_s : s0.Keeps F s) :
    s0.Keeps F (State.winDown s w) := by
  unfold State.winDown
  extract_lets +onlyGivenNames x1
  clear_value x1
  extract_lets +onlyGivenNames x2
  have h2 : s0.Keeps F x2 := by
    unfold x2
    apply State.setPar_keeps (hF.le rfl)
    exact h_s
  clear_value x2
  split
  · apply State.descBit_keeps (hF.le rfl)
    exact h2
  · exact h2

theorem State.ownCommit_keeps {s0 s : State} {F : List Part} (hF : Within [.dict] F) {e v : Nat} (h_s : s0.Keeps F s) :
    s0.Keeps F (State.ownCommit s e v) := by
  unfold State.ownCommit
  extract_lets +onlyGivenNames x1
  clear_value x1
  extract_lets +onlyGivenNames x2
  have h2 : s0.Keeps F x2 := by
    unfold x2
    apply State.setPar_keeps (hF.le rfl)
    exact h_s
  clear_value x2
  split
  · exact h2
  · extract_lets +onlyGivenNames x5
    have h5 : s0.Keeps F x5 := by
      unfold x5
      apply forAll_keeps
      · intro v6 v7 h8
        apply State.setPar_keeps (hF.le rfl)
        exact h8
      · exact h2
    clear_value x5
    apply State.setPar_keeps (hF.le rfl)
    exact h5

theorem State.ownShadow_keeps {s0 s : State} {F : List Part} (hF : Within [.own] F) {e w v : Nat} (h_s : s0.Keeps F s) :
    s0.Keeps F (State.ownShadow s e w v) := by
  unfold State.ownShadow
  refine State.Keeps.congr (s := s) (D := [.own]) (hF.le rfl) ?_ rfl rfl rfl rfl (by rintro ⟨⟩ <;> (first | exact .inr rfl | simp))
  exact h_s

theorem execOwnershipWord1Write_keeps {s0 : State} {F : List Part} (hF : Within [.dict, .out, .freeCtr, .svc] F) {entry : Fin 4096} {value : Nat} {s : State} (h_s : s0.Keeps F s) :
    (Nxt (s0.Keeps F)) (execOwnershipWord1Write entry value s) := by
  unfold execOwnershipWord1Write
  apply Nxt.next
  apply State.barWrite_keeps (hF.le rfl)
  · exact h_s
  · intro v1 h2
    apply State.ownCommit_keeps (hF.le rfl)
    exact h2

end Sys2Proof.Machine
end

