-- ==== Sys2Proof/Laws/KeepsQueue.lean ====
section
/-! SUPPORT. Every effect of Machine/Queue.lean leaves the queue alone, keeps the canonical form and writes only the parts named. -/
namespace Sys2Proof.Machine

theorem State.modQ_keeps {s0 s : State} {F : List Part} (hF : Within [.queues] F) {q : Nat} {f : QRec → QRec} (h_s : s0.Keeps F s) :
    s0.Keeps F (State.modQ s q f) := by
  unfold State.modQ
  refine State.Keeps.congr (s := s) (D := [.queues]) (hF.le rfl) ?_ rfl rfl rfl rfl (by rintro ⟨⟩ <;> (first | exact .inr rfl | simp))
  exact h_s

theorem State.setQ_keeps {s0 s : State} {F : List Part} (hF : Within [.dict] F) {q hi lo v : Nat} (h_s : s0.Keeps F s) :
    s0.Keeps F (State.setQ s q hi lo v) := by
  unfold State.setQ
  apply State.setPar_keeps (hF.le rfl)
  exact h_s

theorem State.syncQ_keeps {s0 s : State} {F : List Part} (hF : Within [.dict] F) {q : Nat} (h_s : s0.Keeps F s) :
    s0.Keeps F (State.syncQ s q) := by
  unfold State.syncQ
  apply State.setQ_keeps (hF.le rfl)
  apply State.setQ_keeps (hF.le rfl)
  exact h_s

theorem State.moveSlots_keeps {s0 s : State} {F : List Part} (hF : Within [.dict] F) {a b n : Nat} (h_s : s0.Keeps F s) :
    s0.Keeps F (State.moveSlots s a b n) := by
  unfold State.moveSlots
  apply State.count_keeps (hF.le rfl)
  apply State.uncount_keeps (hF.le rfl)
  exact h_s

theorem State.setQMode_keeps {s0 s : State} {F : List Part} (hF : Within [.dict] F) {q mode reason : Nat} (h_s : s0.Keeps F s) :
    s0.Keeps F (State.setQMode s q mode reason) := by
  unfold State.setQMode
  extract_lets +onlyGivenNames x1
  clear_value x1
  extract_lets +onlyGivenNames x2
  have h2 : s0.Keeps F x2 := by
    unfold x2
    apply State.setQ_keeps (hF.le rfl)
    apply State.setQ_keeps (hF.le rfl)
    exact h_s
  clear_value x2
  split
  · apply State.uncount_keeps (hF.le rfl)
    exact h2
  · split
    · apply State.count_keeps (hF.le rfl)
      exact h2
    · exact h2

theorem State.raiseQ_keeps {s0 s : State} {F : List Part} (hF : Within [.out, .queues, .ports, .svc] F) {q : Nat} (h_s : s0.Keeps F s) :
    s0.Keeps F (State.raiseQ s q) := by
  unfold State.raiseQ
  extract_lets +onlyGivenNames x1
  clear_value x1
  extract_lets +onlyGivenNames x2
  have h2 : s0.Keeps F x2 := by
    unfold x2
    apply State.modQ_keeps (hF.le rfl)
    exact h_s
  clear_value x2
  split
  · exact h2
  · split
    · apply State.msixLd_keeps (hF.le rfl)
      exact h2
    · apply State.msixSvc_keeps (hF.le rfl)
      exact h2

theorem State.haltQueue_keeps {s0 s : State} {F : List Part} (hF : Within [.dict, .out, .queues, .ports, .svc] F) {q reason : Nat} (h_s : s0.Keeps F s) :
    s0.Keeps F (State.haltQueue s q reason) := by
  unfold State.haltQueue
  split
  · exact h_s
  · extract_lets +onlyGivenNames x3 x4 x5
    clear_value x3 x4 x5
    extract_lets +onlyGivenNames x6
    have h6 : s0.Keeps F x6 := by
      unfold x6
      apply State.modQ_keeps (hF.le rfl)
      apply State.count_keeps (hF.le rfl)
      apply State.setQMode_keeps (hF.le rfl)
      exact h_s
    clear_value x6
    extract_lets +onlyGivenNames x7
    have h7 : s0.Keeps F x7 := by
      unfold x7
      split
      · apply State.setQ_keeps (hF.le rfl)
        exact h6
      · exact h6
    clear_value x7
    extract_lets +onlyGivenNames x12
    have h12 : s0.Keeps F x12 := by
      unfold x12
      apply State.moveSlots_keeps (hF.le rfl)
      apply State.moveSlots_keeps (hF.le rfl)
      exact h7
    clear_value x12
    apply State.raiseQ_keeps (hF.le rfl)
    apply State.syncQ_keeps (hF.le rfl)
    exact h12

theorem State.modCmd_keeps {s0 s : State} {F : List Part} (hF : Within [.queues] F) {h : Nat} {f : Cmd → Cmd} (h_s : s0.Keeps F s) :
    s0.Keeps F (State.modCmd s h f) := by
  unfold State.modCmd
  apply State.modQ_keeps (hF.le rfl)
  exact h_s

theorem State.finish_keeps {s0 s : State} {F : List Part} (hF : Within [.dict, .queues] F) {h status result flags : Nat} (h_s : s0.Keeps F s) :
    s0.Keeps F (State.finish s h status result flags) := by
  unfold State.finish
  extract_lets +onlyGivenNames x1
  clear_value x1
  split
  · exact h_s
  · split
    · exact h_s
    · extract_lets +onlyGivenNames x9
      clear_value x9
      extract_lets +onlyGivenNames x10
      have h10 : ∀ a0, s0.Keeps F a0 → s0.Keeps F (x10 a0) := by
        unfold x10
        intro v11 h12
        apply State.modQ_keeps (hF.le rfl)
        exact h12
      clear_value x10
      split
      · apply State.syncQ_keeps (hF.le rfl)
        apply State.moveSlots_keeps (hF.le rfl)
        apply h10
        exact h_s
      · split
        · apply State.syncQ_keeps (hF.le rfl)
          apply State.moveSlots_keeps (hF.le rfl)
          apply State.modQ_keeps (hF.le rfl)
          apply h10
          exact h_s
        · apply State.modCmd_keeps (hF.le rfl)
          exact h_s

theorem State.fail_keeps {s0 s : State} {F : List Part} (hF : Within [.dict, .queues] F) {h status : Nat} (h_s : s0.Keeps F s) :
    s0.Keeps F (State.fail s h status) := by
  unfold State.fail
  apply State.finish_keeps (hF.le rfl)
  exact h_s

theorem State.accept_keeps {s0 s : State} {F : List Part} (hF : Within [.queues] F) {h : Nat} (h_s : s0.Keeps F s) :
    s0.Keeps F (State.accept s h) := by
  unfold State.accept
  apply State.modCmd_keeps (hF.le rfl)
  exact h_s

theorem State.runCmd_keeps {s0 s : State} {F : List Part} (hF : Within [] F) {q idx op mode : Nat} {f : Nat → Cmd → State → State} (h_s : s0.Keeps F s) (h_f : ∀ a0 a1 a2, s0.Keeps F a2 → s0.Keeps F (f a0 a1 a2)) :
    s0.Keeps F (State.runCmd s q idx op mode f) := by
  unfold State.runCmd
  split
  · split
    · apply h_f
      exact h_s
    · exact h_s
  · exact h_s

theorem State.paid_keeps {s0 s was : State} {F : List Part} (hF : Within [.dict, .reg] F) {q : Nat} (h_s : s0.Keeps F s) (h_was : s0.Keeps F was) :
    s0.Keeps F (State.paid s was q) := by
  unfold State.paid
  apply State.payEngine_keeps (hF.le rfl)
  exact h_s

theorem State.runMove_keeps {s0 s : State} {F : List Part} (hF : Within [.dict, .reg] F) {q idx op mode : Nat} {f : Nat → Cmd → State → State} (h_s : s0.Keeps F s) (h_f : ∀ a0 a1 a2, s0.Keeps F a2 → s0.Keeps F (f a0 a1 a2)) :
    s0.Keeps F (State.runMove s q idx op mode f) := by
  unfold State.runMove
  apply State.paid_keeps (hF.le rfl)
  · apply State.runCmd_keeps (hF.le rfl)
    · exact h_s
    · intro v1 v2 v3 h4
      apply h_f
      exact h4
  · exact h_s

theorem State.ringRead_keeps {s0 s : State} {F : List Part} (hF : Within [.dict, .hbm, .mem, .arb, .out, .freeCtr, .fac, .jobs, .shared, .ports, .svc, .reg, .stackTab, .media, .recov, .power, .glody] F) {dpa : Nat} {ph : Phys} {hid x0 : Nat} (h_s : s0.Keeps F s) :
    (Snd (s0.Keeps F)) (State.ringRead s dpa ph hid x0) := by
  induction x0 generalizing s dpa ph hid with
  | zero =>
    unfold State.ringRead
    apply Snd.mk
    exact h_s
  | succ m ih =>
    unfold State.ringRead
    split
    · apply Snd.mk
      exact h_s
    · extract_lets +onlyGivenNames x6
      have h6 : (Snd (s0.Keeps F)) x6 := by
        unfold x6
        split
        · apply Snd.mk
          exact h_s
        · split
          · split
            apply Snd.mk
            refine Snd.of_eq ?_ (by assumption)
            apply State.readLine_keeps (hF.le rfl)
            exact h_s
          · apply Snd.mk
            exact h_s
      clear_value x6
      split
      · apply Snd.mk
        exact h6
      · split
        · apply Snd.mk
          refine Snd.of_eq ?_ (by assumption)
          apply ih
          exact h6
        · apply Snd.mk
          refine Snd.of_eq ?_ (by assumption)
          apply ih
          exact h6

theorem State.ringWrite_keeps {s0 s : State} {F : List Part} (hF : Within [.dict, .hbm, .t0, .mem, .arb, .out, .freeCtr, .fac, .jobs, .shared, .ports, .svc, .reg, .stackTab, .media, .recov, .power, .glody] F) {dpa : Nat} {d : List Byte} {ph : Phys} {hid : Nat} (h_s : s0.Keeps F s) :
    (Snd (s0.Keeps F)) (State.ringWrite s dpa d ph hid) := by
  unfold State.ringWrite
  split
  · apply Snd.mk
    exact h_s
  · split
    · apply Snd.mk
      refine State.modMem_t0_keeps (hF.le rfl) ?_ (fun _ => rfl) ?_
      · exact h_s
      · intro v7 h8
        exact Tab.wf_writeRun _ _ _ (by assumption)
    · split
      · extract_lets +onlyGivenNames x11 x12
        clear_value x11 x12
        split
        · extract_lets +onlyGivenNames x16
          clear_value x16
          apply Snd.mk
          refine State.modMem_keeps (hF.le rfl) ?_ (fun _ => rfl) (fun _ => rfl)
          exact h_s
        · split
          · apply Snd.mk
            refine Snd.of_eq ?_ (by assumption)
            apply State.readBlock_keeps (hF.le rfl)
            exact h_s
          · extract_lets +onlyGivenNames x27 x28
            clear_value x27 x28
            split
            · apply Snd.mk
              apply State.writeFlat_keeps (hF.le rfl)
              refine Snd.of_eq ?_ (by assumption)
              apply State.readBlock_keeps (hF.le rfl)
              exact h_s
            · apply Snd.mk
              apply State.land_keeps (hF.le rfl)
              refine Snd.of_eq ?_ (by assumption)
              apply State.readBlock_keeps (hF.le rfl)
              exact h_s
      · apply Snd.mk
        exact h_s

theorem State.qEnable_keeps {s0 s : State} {F : List Part} (hF : Within [.dict, .queues] F) {q : Nat} (h_s : s0.Keeps F s) :
    s0.Keeps F (State.qEnable s q) := by
  unfold State.qEnable
  split
  · extract_lets +onlyGivenNames x3
    have h3 : s0.Keeps F x3 := by
      unfold x3
      apply State.setPar_keeps (hF.le rfl)
      exact h_s
    clear_value x3
    apply State.modQ_keeps (hF.le rfl)
    apply State.setQMode_keeps (hF.le rfl)
    exact h3
  · apply State.setQ_keeps (hF.le rfl)
    exact h_s

theorem State.qDisabled_keeps {s0 s : State} {F : List Part} (hF : Within [.dict, .queues] F) {q : Nat} (h_s : s0.Keeps F s) :
    s0.Keeps F (State.qDisabled s q) := by
  unfold State.qDisabled
  split
  · apply State.modQ_keeps (hF.le rfl)
    apply State.setQMode_keeps (hF.le rfl)
    exact h_s
  · exact h_s

theorem State.qDisable_keeps {s0 s : State} {F : List Part} (hF : Within [.dict, .queues] F) {q : Nat} (h_s : s0.Keeps F s) :
    s0.Keeps F (State.qDisable s q) := by
  unfold State.qDisable
  split
  · exact h_s
  · extract_lets +onlyGivenNames x3 x4
    clear_value x3 x4
    extract_lets +onlyGivenNames x5
    have h5 : s0.Keeps F x5 := by
      unfold x5
      apply State.modQ_keeps (hF.le rfl)
      exact h_s
    clear_value x5
    extract_lets +onlyGivenNames x6
    have h6 : s0.Keeps F x6 := by
      unfold x6
      apply State.moveSlots_keeps (hF.le rfl)
      apply State.moveSlots_keeps (hF.le rfl)
      exact h5
    clear_value x6
    apply State.qDisabled_keeps (hF.le rfl)
    apply State.syncQ_keeps (hF.le rfl)
    exact h6

theorem State.qRestart_keeps {s0 s : State} {F : List Part} (hF : Within [.dict, .out, .queues, .ports, .svc] F) {q : Nat} (h_s : s0.Keeps F s) :
    s0.Keeps F (State.qRestart s q) := by
  unfold State.qRestart
  split
  · exact h_s
  · extract_lets +onlyGivenNames x3
    have h3 : s0.Keeps F x3 := by
      unfold x3
      apply State.modQ_keeps (hF.le rfl)
      apply State.setQMode_keeps (hF.le rfl)
      exact h_s
    clear_value x3
    split
    · apply State.haltQueue_keeps (hF.le rfl)
      exact h3
    · exact h3

theorem State.qCtl_keeps {s0 s : State} {F : List Part} (hF : Within [.dict, .out, .queues, .ports, .svc] F) {q v : Nat} (h_s : s0.Keeps F s) :
    s0.Keeps F (State.qCtl s q v) := by
  unfold State.qCtl
  split
  · apply State.qEnable_keeps (hF.le rfl)
    exact h_s
  · apply State.qDisable_keeps (hF.le rfl)
    exact h_s
  · apply State.qRestart_keeps (hF.le rfl)
    exact h_s
  · exact h_s

theorem execQEnable_keeps {s0 : State} {F : List Part} (hF : Within [.dict, .out, .freeCtr, .queues, .ports, .svc] F) {queue : Fin 32768} {s : State} (h_s : s0.Keeps F s) :
    (Nxt (s0.Keeps F)) (execQEnable queue s) := by
  unfold execQEnable
  apply Nxt.next
  apply State.barWrite_keeps (hF.le rfl)
  · exact h_s
  · intro v1 h2
    apply State.qCtl_keeps (hF.le rfl)
    exact h2

theorem execQDisable_keeps {s0 : State} {F : List Part} (hF : Within [.dict, .out, .freeCtr, .queues, .ports, .svc] F) {queue : Fin 32768} {s : State} (h_s : s0.Keeps F s) :
    (Nxt (s0.Keeps F)) (execQDisable queue s) := by
  unfold execQDisable
  apply Nxt.next
  apply State.barWrite_keeps (hF.le rfl)
  · exact h_s
  · intro v1 h2
    apply State.qCtl_keeps (hF.le rfl)
    exact h2

theorem execQRestart_keeps {s0 : State} {F : List Part} (hF : Within [.dict, .out, .freeCtr, .queues, .ports, .svc] F) {queue : Fin 32768} {s : State} (h_s : s0.Keeps F s) :
    (Nxt (s0.Keeps F)) (execQRestart queue s) := by
  unfold execQRestart
  apply Nxt.next
  apply State.barWrite_keeps (hF.le rfl)
  · exact h_s
  · intro v1 h2
    apply State.qCtl_keeps (hF.le rfl)
    exact h2

theorem execQDisableComplete_keeps {s0 : State} {F : List Part} (hF : Within [.dict, .queues] F) {queue : Fin 32768} {s : State} (h_s : s0.Keeps F s) :
    (Nxt (s0.Keeps F)) (execQDisableComplete queue s) := by
  unfold execQDisableComplete
  apply Nxt.next
  apply State.qDisabled_keeps (hF.le rfl)
  exact h_s

theorem State.doorbell_keeps {s0 s : State} {F : List Part} (hF : Within [.dict, .out, .freeCtr, .svc] F) {via : Option Nat} {q : Nat} {f : State → State} (h_s : s0.Keeps F s) (h_f : ∀ a0, s0.Keeps F a0 → s0.Keeps F (f a0)) :
    s0.Keeps F (State.doorbell s via q f) := by
  unfold State.doorbell
  split
  · apply State.aerUr_keeps (hF.le rfl)
    exact h_s
  · split
    · apply State.count_keeps (hF.le rfl)
      exact h_s
    · apply h_f
      exact h_s

theorem State.sqTail_keeps {s0 s : State} {F : List Part} (hF : Within [.dict, .out, .queues, .ports, .svc] F) {q v : Nat} (h_s : s0.Keeps F s) :
    s0.Keeps F (State.sqTail s q v) := by
  unfold State.sqTail
  extract_lets +onlyGivenNames x1
  have h1 : s0.Keeps F x1 := by
    unfold x1
    apply State.modQ_keeps (hF.le rfl)
    exact h_s
  clear_value x1
  split
  · apply State.haltQueue_keeps (hF.le rfl)
    exact h1
  · exact h1

theorem State.cqHead_keeps {s0 s : State} {F : List Part} (hF : Within [.dict, .out, .queues, .ports, .svc] F) {q v : Nat} (h_s : s0.Keeps F s) :
    s0.Keeps F (State.cqHead s q v) := by
  unfold State.cqHead
  extract_lets +onlyGivenNames x1
  clear_value x1
  split
  · extract_lets +onlyGivenNames x3
    have h3 : s0.Keeps F x3 := by
      unfold x3
      apply State.modQ_keeps (hF.le rfl)
      exact h_s
    clear_value x3
    split
    · apply State.haltQueue_keeps (hF.le rfl)
      exact h3
    · exact h3
  · apply State.modQ_keeps (hF.le rfl)
    exact h_s

theorem State.dbRead_keeps {s0 s : State} {F : List Part} (hF : Within [.out, .freeCtr, .ports, .svc] F) {via : Option Nat} {q : Nat} (h_s : s0.Keeps F s) :
    s0.Keeps F (State.dbRead s via q) := by
  unfold State.dbRead
  extract_lets +onlyGivenNames x1
  clear_value x1
  split
  · split
    · apply State.emit_keeps (hF.le rfl)
      exact h_s
    · apply State.aerUr_keeps (hF.le rfl)
      exact h_s
  · apply State.send_keeps (hF.le rfl)
    exact h_s

theorem State.dbAccess_keeps {s0 s : State} {F : List Part} (hF : Within [.dict, .out, .freeCtr, .queues, .ports, .svc] F) {via : Option Nat} {q : Nat} {one : State → Nat → State} {x0 : DbAccess} (h_s : s0.Keeps F s) (h_one : ∀ a0 a1, s0.Keeps F a0 → s0.Keeps F (one a0 a1)) :
    s0.Keeps F (State.dbAccess s via q one x0) := by
  unfold State.dbAccess
  split
  · apply State.doorbell_keeps (hF.le rfl)
    · exact h_s
    · intro v3 h4
      apply h_one
      exact h4
  · apply State.doorbell_keeps (hF.le rfl)
    · exact h_s
    · intro v8 h9
      apply State.cqHead_keeps (hF.le rfl)
      apply State.sqTail_keeps (hF.le rfl)
      exact h9
  · apply State.dbRead_keeps (hF.le rfl)
    exact h_s

theorem execSqTailDoorbell_keeps {s0 : State} {F : List Part} (hF : Within [.dict, .out, .freeCtr, .queues, .ports, .svc] F) {via : Option (Fin 512)} {queue : Fin 32768} {access : DbAccess} {s : State} (h_s : s0.Keeps F s) :
    (Nxt (s0.Keeps F)) (execSqTailDoorbell via queue access s) := by
  unfold execSqTailDoorbell
  apply Nxt.next
  apply State.dbAccess_keeps (hF.le rfl)
  · exact h_s
  · intro v1 v2 h3
    apply State.sqTail_keeps (hF.le rfl)
    exact h3

theorem execCqHeadDoorbell_keeps {s0 : State} {F : List Part} (hF : Within [.dict, .out, .freeCtr, .queues, .ports, .svc] F) {via : Option (Fin 512)} {queue : Fin 32768} {access : DbAccess} {s : State} (h_s : s0.Keeps F s) :
    (Nxt (s0.Keeps F)) (execCqHeadDoorbell via queue access s) := by
  unfold execCqHeadDoorbell
  apply Nxt.next
  apply State.dbAccess_keeps (hF.le rfl)
  · exact h_s
  · intro v1 v2 h3
    apply State.cqHead_keeps (hF.le rfl)
    exact h3

theorem State.takeEntries_keeps {s0 s : State} {F : List Part} (hF : Within [.dict, .queues] F) {q : Nat} {x0 : List (List Byte)} (h_s : s0.Keeps F s) :
    s0.Keeps F (State.takeEntries s q x0) := by
  induction x0 generalizing s q with
  | nil =>
    unfold State.takeEntries
    exact h_s
  | cons w l ih =>
    unfold State.takeEntries
    extract_lets +onlyGivenNames x1
    clear_value x1
    split
    · exact h_s
    · extract_lets +onlyGivenNames x4 x5 x6
      clear_value x4 x5 x6
      extract_lets +onlyGivenNames x7
      have h7 : s0.Keeps F x7 := by
        unfold x7
        apply State.setQ_keeps (hF.le rfl)
        apply State.modQ_keeps (hF.le rfl)
        exact h_s
      clear_value x7
      extract_lets +onlyGivenNames x8
      have h8 : s0.Keeps F x8 := by
        unfold x8
        apply State.syncQ_keeps (hF.le rfl)
        apply State.moveSlots_keeps (hF.le rfl)
        exact h7
      clear_value x8
      extract_lets +onlyGivenNames x9
      have h9 : s0.Keeps F x9 := by
        unfold x9
        split
        · apply State.fail_keeps (hF.le rfl)
          exact h8
        · exact h8
      clear_value x9
      apply ih
      exact h9

theorem State.hostRead_keeps {s0 s : State} {F : List Part} (hF : Within [.out, .ports, .svc] F) {q tok addr n : Nat} (h_s : s0.Keeps F s) :
    s0.Keeps F (State.hostRead s q tok addr n) := by
  unfold State.hostRead
  split
  · extract_lets +onlyGivenNames x2 x3
    clear_value x2 x3
    split
    · exact h_s
    · apply State.send_keeps (hF.le rfl)
      apply State.modLd_keeps (hF.le rfl)
      exact h_s
  · apply State.svcPut_keeps (hF.le rfl)
    exact h_s

theorem State.hostWrite_keeps {s0 s : State} {F : List Part} (hF : Within [.out, .ports, .svc] F) {q who addr : Nat} {d : List Byte} {bad : List Nat} (h_s : s0.Keeps F s) :
    s0.Keeps F (State.hostWrite s q who addr d bad) := by
  unfold State.hostWrite
  split
  · apply State.send_keeps (hF.le rfl)
    exact h_s
  · apply State.svcPut_keeps (hF.le rfl)
    exact h_s

theorem State.fetchQueue_keeps {s0 s : State} {F : List Part} (hF : Within [.dict, .hbm, .mem, .arb, .out, .freeCtr, .fac, .jobs, .shared, .queues, .ports, .svc, .reg, .stackTab, .media, .recov, .power, .glody] F) {q : Nat} {host : HostData} {ph : Phys} (h_s : s0.Keeps F s) :
    s0.Keeps F (State.fetchQueue s q host ph) := by
  unfold State.fetchQueue
  extract_lets +onlyGivenNames x1 x2 x3
  clear_value x1 x2 x3
  split
  · split
    · apply State.haltQueue_keeps (hF.le rfl)
      exact h_s
    · split
      · apply State.takeEntries_keeps (hF.le rfl)
        refine Snd.of_eq ?_ (by assumption)
        apply State.ringRead_keeps (hF.le rfl)
        exact h_s
      · apply State.haltQueue_keeps (hF.le rfl)
        refine Snd.of_eq ?_ (by assumption)
        apply State.ringRead_keeps (hF.le rfl)
        exact h_s
  · extract_lets +onlyGivenNames x15
    have h15 : s0.Keeps F x15 := by
      unfold x15
      apply State.hostRead_keeps (hF.le rfl)
      exact h_s
    clear_value x15
    split
    · apply State.takeEntries_keeps (hF.le rfl)
      exact h15
    · apply State.haltQueue_keeps (hF.le rfl)
      exact h15

theorem execQueueFetch_keeps {s0 : State} {F : List Part} (hF : Within [.dict, .hbm, .mem, .arb, .out, .freeCtr, .fac, .jobs, .shared, .queues, .ports, .svc, .reg, .stackTab, .media, .recov, .power, .glody] F) {host : HostData} {ph : Phys} {s : State} (h_s : s0.Keeps F s) :
    (Nxt (s0.Keeps F)) (execQueueFetch host ph s) := by
  unfold execQueueFetch
  apply Nxt.next
  split
  · exact h_s
  · extract_lets +onlyGivenNames x6
    clear_value x6
    extract_lets +onlyGivenNames x7
    have h7 : s0.Keeps F x7 := by
      unfold x7
      refine State.Keeps.congr (s := s) (D := [.queues]) (hF.le rfl) ?_ rfl rfl rfl rfl (by rintro ⟨⟩ <;> (first | exact .inr rfl | simp))
      exact h_s
    clear_value x7
    apply State.fetchQueue_keeps (hF.le rfl)
    exact h7

theorem execFenceStart_keeps {s0 : State} {F : List Part} (hF : Within [.dict, .queues] F) {queue : Fin 32768} {s : State} (h_s : s0.Keeps F s) :
    (Nxt (s0.Keeps F)) (execFenceStart queue s) := by
  unfold execFenceStart
  extract_lets +onlyGivenNames x1
  clear_value x1
  apply Nxt.next
  split
  · split
    · extract_lets +onlyGivenNames x7
      have h7 : s0.Keeps F x7 := by
        unfold x7
        apply State.modCmd_keeps (hF.le rfl)
        exact h_s
      clear_value x7
      split
      · apply State.fail_keeps (hF.le rfl)
        exact h7
      · exact h7
    · exact h_s
  · exact h_s

theorem State.signal_keeps {s0 s : State} {F : List Part} (hF : Within [.out, .queues, .ports, .svc] F) {q : Nat} {c : Cmd} (h_s : s0.Keeps F s) :
    s0.Keeps F (State.signal s q c) := by
  unfold State.signal
  extract_lets +onlyGivenNames x1
  clear_value x1
  extract_lets +onlyGivenNames x2
  have h2 : s0.Keeps F x2 := by
    unfold x2
    apply State.modQ_keeps (hF.le rfl)
    exact h_s
  clear_value x2
  extract_lets +onlyGivenNames x3
  clear_value x3
  split
  · apply State.raiseQ_keeps (hF.le rfl)
    exact h2
  · exact h2

theorem State.post_keeps {s0 s : State} {F : List Part} (hF : Within [.dict, .hbm, .t0, .mem, .arb, .out, .freeCtr, .fac, .jobs, .shared, .queues, .ports, .svc, .reg, .stackTab, .media, .recov, .power, .glody] F) {q : Nat} {ph : Phys} (h_s : s0.Keeps F s) :
    s0.Keeps F (State.post s q ph) := by
  unfold State.post
  extract_lets +onlyGivenNames x1 x2
  clear_value x1 x2
  split
  · exact h_s
  · split
    · exact h_s
    · extract_lets +onlyGivenNames x9 x10 x11 x12
      clear_value x9 x10 x11 x12
      split
      split
      · apply State.haltQueue_keeps (hF.le rfl)
        refine Snd.of_eq ?_ (by assumption)
        split
        · split
          · apply State.ringWrite_keeps (hF.le rfl)
            exact h_s
          · apply Snd.mk
            exact h_s
        · apply Snd.mk
          apply State.hostWrite_keeps (hF.le rfl)
          exact h_s
      · extract_lets +onlyGivenNames x23
        have h23 : s0.Keeps F x23 := by
          unfold x23
          apply State.modQ_keeps (hF.le rfl)
          refine Snd.of_eq ?_ (by assumption)
          split
          · split
            · apply State.ringWrite_keeps (hF.le rfl)
              exact h_s
            · apply Snd.mk
              exact h_s
          · apply Snd.mk
            apply State.hostWrite_keeps (hF.le rfl)
            exact h_s
        clear_value x23
        extract_lets +onlyGivenNames x28
        have h28 : s0.Keeps F x28 := by
          unfold x28
          apply State.moveSlots_keeps (hF.le rfl)
          exact h23
        clear_value x28
        apply State.signal_keeps (hF.le rfl)
        apply State.syncQ_keeps (hF.le rfl)
        apply State.setQ_keeps (hF.le rfl)
        exact h28

theorem execCompletionPost_keeps {s0 : State} {F : List Part} (hF : Within [.dict, .hbm, .t0, .mem, .arb, .out, .freeCtr, .fac, .jobs, .shared, .queues, .ports, .svc, .reg, .stackTab, .media, .recov, .power, .glody] F) {queue : Fin 32768} {ph : Phys} {s : State} (h_s : s0.Keeps F s) :
    (Nxt (s0.Keeps F)) (execCompletionPost queue ph s) := by
  unfold execCompletionPost
  apply Nxt.next
  apply State.post_keeps (hF.le rfl)
  exact h_s

theorem execCoalesceTimeout_keeps {s0 : State} {F : List Part} (hF : Within [.out, .queues, .ports, .svc] F) {queue : Fin 32768} {s : State} (h_s : s0.Keeps F s) :
    (Nxt (s0.Keeps F)) (execCoalesceTimeout queue s) := by
  unfold execCoalesceTimeout
  extract_lets +onlyGivenNames x1 x2
  clear_value x1 x2
  apply Nxt.next
  split
  · apply State.raiseQ_keeps (hF.le rfl)
    exact h_s
  · exact h_s

theorem execMsixVectorUnmask_keeps {s0 : State} {F : List Part} (hF : Within [.out, .freeCtr, .ports, .svc] F) {via : Option (Fin 512)} {entry : MsixEntry} {s : State} (h_s : s0.Keeps F s) :
    (Nxt (s0.Keeps F)) (execMsixVectorUnmask via entry s) := by
  unfold execMsixVectorUnmask
  extract_lets +onlyGivenNames x1 x2 x3
  clear_value x1 x2 x3
  apply Nxt.next
  split
  · split
    · apply State.aerUr_keeps (hF.le rfl)
      exact h_s
    · extract_lets +onlyGivenNames x7 x8
      clear_value x7 x8
      extract_lets +onlyGivenNames x9
      have h9 : s0.Keeps F x9 := by
        unfold x9
        refine State.Keeps.congr (s := s) (D := [.svc]) (hF.le rfl) ?_ rfl rfl rfl rfl (by rintro ⟨⟩ <;> (first | exact .inr rfl | simp))
        exact h_s
      clear_value x9
      split
      · apply State.msixSvc_keeps (hF.le rfl)
        exact h9
      · exact h9
  · split
    · exact h_s
    · extract_lets +onlyGivenNames x16 x17
      clear_value x16 x17
      extract_lets +onlyGivenNames x18
      have h18 : s0.Keeps F x18 := by
        unfold x18
        apply State.modLd_keeps (hF.le rfl)
        exact h_s
      clear_value x18
      split
      · apply State.msixLd_keeps (hF.le rfl)
        exact h18
      · exact h18

end Sys2Proof.Machine
end

