-- ==== Sys2Proof/Laws/KeepsFactor.lean ====
section
/-! SUPPORT. Every effect of Machine/Factor.lean leaves the queue alone, keeps the canonical form and writes only the parts named. -/
namespace Sys2Proof.Machine

theorem State.panelUse_keeps {s0 s : State} {F : List Part} (hF : Within [.fac] F) {cb b : Nat} (h_s : s0.Keeps F s) :
    s0.Keeps F (State.panelUse s cb b) := by
  unfold State.panelUse
  apply State.modFac_keeps (hF.le rfl)
  exact h_s

theorem State.compBlock_keeps {s0 s : State} {F : List Part} (hF : Within [.dict, .hbm, .mem, .arb, .out, .freeCtr, .fac, .jobs, .shared, .ports, .svc, .reg, .stackTab, .media, .recov, .power, .glody] F) {v : View} {b wb : Nat} {is : List Nat} {env : Env} (h_s : s0.Keeps F s) :
    (Snd (s0.Keeps F)) (State.compBlock s v b wb is env) := by
  unfold State.compBlock
  extract_lets +onlyGivenNames x1 x2
  clear_value x1 x2
  split
  · apply Snd.mk
    exact h_s
  · split
    extract_lets +onlyGivenNames x9
    clear_value x9
    split
    · apply Snd.mk
      refine Snd.of_eq ?_ (by assumption)
      apply State.readEntry_keeps (hF.le rfl)
      exact h_s
    · split
      · apply Snd.mk
        refine Snd.of_eq ?_ (by assumption)
        apply State.readEntry_keeps (hF.le rfl)
        exact h_s
      · split
        · split
          · apply Snd.mk
            apply State.count_keeps (hF.le rfl)
            refine Snd.of_eq ?_ (by assumption)
            apply State.readEntry_keeps (hF.le rfl)
            exact h_s
          · apply Snd.mk
            apply State.detourBad_keeps (hF.le rfl)
            refine Snd.of_eq ?_ (by assumption)
            apply State.readEntry_keeps (hF.le rfl)
            exact h_s
          · apply Snd.mk
            refine Snd.of_eq ?_ (by assumption)
            apply State.readEntry_keeps (hF.le rfl)
            exact h_s
        · split
          · apply Snd.mk
            refine Snd.of_eq ?_ (by assumption)
            apply State.readLinesAt_keeps (hF.le rfl)
            refine Snd.of_eq ?_ (by assumption)
            apply State.readEntry_keeps (hF.le rfl)
            exact h_s
          · apply Snd.mk
            refine Snd.of_eq ?_ (by assumption)
            apply State.readLinesAt_keeps (hF.le rfl)
            refine Snd.of_eq ?_ (by assumption)
            apply State.readEntry_keeps (hF.le rfl)
            exact h_s

theorem State.compRun_keeps {s0 s : State} {F : List Part} (hF : Within [.dict, .hbm, .mem, .arb, .out, .freeCtr, .fac, .jobs, .shared, .ports, .svc, .reg, .stackTab, .media, .recov, .power, .glody] F) {v : View} {wb : Nat} {cb : Option Nat} {env : Env} {x0 : List (Nat × List Nat)} (h_s : s0.Keeps F s) :
    (Snd (s0.Keeps F)) (State.compRun s v wb cb env x0) := by
  induction x0 generalizing s v wb cb env with
  | nil =>
    unfold State.compRun
    apply Snd.mk
    exact h_s
  | cons w l ih =>
    unfold State.compRun
    split
    · apply Snd.mk
      refine Snd.of_eq ?_ (by assumption)
      split
      · apply Snd.mk
        exact h_s
      · apply State.compBlock_keeps (hF.le rfl)
        exact h_s
    · extract_lets +onlyGivenNames x10
      clear_value x10
      extract_lets +onlyGivenNames x11
      have h11 : s0.Keeps F x11 := by
        unfold x11
        split
        · split
          · apply State.panelUse_keeps (hF.le rfl)
            refine Snd.of_eq ?_ (by assumption)
            split
            · apply Snd.mk
              exact h_s
            · apply State.compBlock_keeps (hF.le rfl)
              exact h_s
          · refine Snd.of_eq ?_ (by assumption)
            split
            · apply Snd.mk
              exact h_s
            · apply State.compBlock_keeps (hF.le rfl)
              exact h_s
        · refine Snd.of_eq ?_ (by assumption)
          split
          · apply Snd.mk
            exact h_s
          · apply State.compBlock_keeps (hF.le rfl)
            exact h_s
      clear_value x11
      split
      · apply Snd.mk
        refine Snd.of_eq ?_ (by assumption)
        apply ih
        exact h11
      · apply Snd.mk
        refine Snd.of_eq ?_ (by assumption)
        apply ih
        exact h11

theorem State.factorFail_keeps {s0 s : State} {F : List Part} (hF : Within [.dict, .out, .ports] F) {win d tile code b : Nat} {port : Option Nat} {hid : Nat} (h_s : s0.Keeps F s) :
    s0.Keeps F (State.factorFail s win d tile code b port hid) := by
  unfold State.factorFail
  extract_lets +onlyGivenNames x1
  have h1 : s0.Keeps F x1 := by
    unfold x1
    apply State.setPar_keeps (hF.le rfl)
    apply State.count_keeps (hF.le rfl)
    exact h_s
  clear_value x1
  extract_lets +onlyGivenNames x2
  clear_value x2
  apply State.eventOn_keeps (hF.le rfl)
  exact h1

theorem State.noteOverflow_keeps {s0 s : State} {F : List Part} (hF : Within [.dict, .fac, .glody] F) {d tile n : Nat} (h_s : s0.Keeps F s) :
    s0.Keeps F (State.noteOverflow s d tile n) := by
  unfold State.noteOverflow
  split
  · exact h_s
  · extract_lets +onlyGivenNames x3
    have h3 : s0.Keeps F x3 := by
      unfold x3
      apply State.setPar_keeps (hF.le rfl)
      apply State.count_keeps (hF.le rfl)
      exact h_s
    clear_value x3
    split
    · apply State.notice_keeps (hF.le rfl)
      apply State.modFac_keeps (hF.le rfl)
      exact h3
    · exact h3

theorem State.panelBytes_keeps {s0 s : State} {F : List Part} (hF : Within [.dict, .hbm, .mem, .arb, .out, .freeCtr, .fac, .jobs, .shared, .ports, .svc, .reg, .stackTab, .media, .recov, .power, .glody] F) {v : View} {b0 : Nat} {t : TDesc} {rank r0 c0 : Nat} {cb : Option Nat} {env : Env} (h_s : s0.Keeps F s) :
    (Snd (s0.Keeps F)) (State.panelBytes s v b0 t rank r0 c0 cb env) := by
  unfold State.panelBytes
  extract_lets +onlyGivenNames x1 x2 x3 x4 x5 x6
  clear_value x1 x2 x3 x4 x5 x6
  extract_lets +onlyGivenNames x7
  have h7 : s0.Keeps F x7 := by
    unfold x7
    split
    · apply State.count_keeps (hF.le rfl)
      exact h_s
    · exact h_s
  clear_value x7
  split
  · apply Snd.mk
    refine Snd.of_eq ?_ (by assumption)
    apply State.compRun_keeps (hF.le rfl)
    exact h7
  · split
    · apply Snd.mk
      refine Snd.of_eq ?_ (by assumption)
      apply State.compRun_keeps (hF.le rfl)
      refine Snd.of_eq ?_ (by assumption)
      apply State.compRun_keeps (hF.le rfl)
      exact h7
    · split
      · apply Snd.mk
        refine Snd.of_eq ?_ (by assumption)
        apply State.compRun_keeps (hF.le rfl)
        refine Snd.of_eq ?_ (by assumption)
        apply State.compRun_keeps (hF.le rfl)
        refine Snd.of_eq ?_ (by assumption)
        apply State.compRun_keeps (hF.le rfl)
        exact h7
      · split
        · apply Snd.mk
          refine Snd.of_eq ?_ (by assumption)
          apply State.compRun_keeps (hF.le rfl)
          refine Snd.of_eq ?_ (by assumption)
          apply State.compRun_keeps (hF.le rfl)
          refine Snd.of_eq ?_ (by assumption)
          apply State.compRun_keeps (hF.le rfl)
          refine Snd.of_eq ?_ (by assumption)
          apply State.compRun_keeps (hF.le rfl)
          exact h7
        · apply Snd.mk
          refine Snd.of_eq ?_ (by assumption)
          apply State.compRun_keeps (hF.le rfl)
          refine Snd.of_eq ?_ (by assumption)
          apply State.compRun_keeps (hF.le rfl)
          refine Snd.of_eq ?_ (by assumption)
          apply State.compRun_keeps (hF.le rfl)
          refine Snd.of_eq ?_ (by assumption)
          apply State.compRun_keeps (hF.le rfl)
          exact h7

theorem State.panel_keeps {s0 s : State} {F : List Part} (hF : Within [.dict, .hbm, .mem, .arb, .out, .freeCtr, .fac, .jobs, .shared, .ports, .svc, .reg, .stackTab, .media, .recov, .power, .glody] F) {v : View} {b0 : Nat} {t : TDesc} {rank r0 c0 : Nat} {cb : Option Nat} {env : Env} (h_s : s0.Keeps F s) :
    (Snd (s0.Keeps F)) (State.panel s v b0 t rank r0 c0 cb env) := by
  unfold State.panel
  split
  apply Snd.mk
  refine Snd.of_eq ?_ (by assumption)
  apply State.panelBytes_keeps (hF.le rfl)
  exact h_s

theorem State.tileRecord_keeps {s0 s : State} {F : List Part} (hF : Within [.dict, .hbm, .mem, .arb, .out, .freeCtr, .fac, .jobs, .shared, .ports, .svc, .reg, .stackTab, .media, .recov, .power, .glody] F) {v : View} {b0 : Nat} {t : TDesc} {i : Nat} {env : Env} (h_s : s0.Keeps F s) :
    (Snd (s0.Keeps F)) (State.tileRecord s v b0 t i env) := by
  unfold State.tileRecord
  split
  · apply Snd.mk
    refine Snd.of_eq ?_ (by assumption)
    apply State.compBlock_keeps (hF.le rfl)
    exact h_s
  · apply Snd.mk
    refine Snd.of_eq ?_ (by assumption)
    apply State.compBlock_keeps (hF.le rfl)
    exact h_s

theorem State.residual_keeps {s0 s : State} {F : List Part} (hF : Within [.dict, .hbm, .mem, .arb, .out, .freeCtr, .fac, .jobs, .shared, .ports, .svc, .reg, .stackTab, .media, .recov, .power, .glody] F) {v : View} {win i : Nat} {env : Env} {port : Option Nat} {hid : Nat} (h_s : s0.Keeps F s) :
    (Snd (s0.Keeps F)) (State.residual s v win i env port hid) := by
  unfold State.residual
  extract_lets +onlyGivenNames x1 x2 x3 x4
  clear_value x1 x2 x3 x4
  split
  · apply Snd.mk
    exact h_s
  · split
    · apply Snd.mk
      refine Snd.of_eq ?_ (by assumption)
      apply State.readBlock_keeps (hF.le rfl)
      exact h_s
    · apply Snd.mk
      refine Snd.of_eq ?_ (by assumption)
      apply State.readBlock_keeps (hF.le rfl)
      exact h_s

theorem State.delivered_keeps {s0 s : State} {F : List Part} (hF : Within [.dict, .fac, .glody] F) {win i : Nat} {x : Built} {lines : List Nat} (h_s : s0.Keeps F s) :
    s0.Keeps F (State.delivered s win i x lines) := by
  unfold State.delivered
  apply State.noteOverflow_keeps (hF.le rfl)
  exact h_s

theorem State.reconBlock_keeps {s0 s : State} {F : List Part} (hF : Within [.dict, .hbm, .mem, .arb, .out, .freeCtr, .fac, .jobs, .shared, .ports, .svc, .reg, .stackTab, .media, .recov, .power, .glody] F) {v : View} {win i : Nat} {env : Env} {cb port : Option Nat} {hid : Nat} (h_s : s0.Keeps F s) :
    (Snd (s0.Keeps F)) (State.reconBlock s v win i env cb port hid) := by
  unfold State.reconBlock
  extract_lets +onlyGivenNames x1 x2 x3 x4 x5
  clear_value x1 x2 x3 x4 x5
  extract_lets +onlyGivenNames x6
  have h6 : ∀ a0 a1, s0.Keeps F a0 → (Snd (s0.Keeps F)) (x6 a0 a1) := by
    unfold x6
    intro v7 v8 h9
    apply Snd.mk
    apply State.factorFail_keeps (hF.le rfl)
    exact h9
  clear_value x6
  split
  · apply h6
    exact h_s
  · split
    · apply h6
      refine Snd.of_eq ?_ (by assumption)
      apply State.tileRecord_keeps (hF.le rfl)
      exact h_s
    · split
      · apply h6
        refine Snd.of_eq ?_ (by assumption)
        apply State.tileRecord_keeps (hF.le rfl)
        exact h_s
      · split
        · apply h6
          refine Snd.of_eq ?_ (by assumption)
          split
          · apply Snd.mk
            refine Snd.of_eq ?_ (by assumption)
            apply State.tileRecord_keeps (hF.le rfl)
            exact h_s
          · apply State.panel_keeps (hF.le rfl)
            refine Snd.of_eq ?_ (by assumption)
            apply State.tileRecord_keeps (hF.le rfl)
            exact h_s
        · split
          · apply Snd.mk
            refine Snd.of_eq ?_ (by assumption)
            apply State.residual_keeps (hF.le rfl)
            refine Snd.of_eq ?_ (by assumption)
            split
            · apply Snd.mk
              refine Snd.of_eq ?_ (by assumption)
              apply State.tileRecord_keeps (hF.le rfl)
              exact h_s
            · apply State.panel_keeps (hF.le rfl)
              refine Snd.of_eq ?_ (by assumption)
              apply State.tileRecord_keeps (hF.le rfl)
              exact h_s
          · extract_lets +onlyGivenNames x40
            have h40 : s0.Keeps F x40 := by
              unfold x40
              split
              · apply State.count_keeps (hF.le rfl)
                refine Snd.of_eq ?_ (by assumption)
                apply State.residual_keeps (hF.le rfl)
                refine Snd.of_eq ?_ (by assumption)
                split
                · apply Snd.mk
                  refine Snd.of_eq ?_ (by assumption)
                  apply State.tileRecord_keeps (hF.le rfl)
                  exact h_s
                · apply State.panel_keeps (hF.le rfl)
                  refine Snd.of_eq ?_ (by assumption)
                  apply State.tileRecord_keeps (hF.le rfl)
                  exact h_s
              · refine Snd.of_eq ?_ (by assumption)
                apply State.residual_keeps (hF.le rfl)
                refine Snd.of_eq ?_ (by assumption)
                split
                · apply Snd.mk
                  refine Snd.of_eq ?_ (by assumption)
                  apply State.tileRecord_keeps (hF.le rfl)
                  exact h_s
                · apply State.panel_keeps (hF.le rfl)
                  refine Snd.of_eq ?_ (by assumption)
                  apply State.tileRecord_keeps (hF.le rfl)
                  exact h_s
            clear_value x40
            apply Snd.mk
            exact h40

theorem State.t0Trim_keeps {s0 s : State} {F : List Part} (hF : Within [.mem] F) {q x0 : Nat} (h_s : s0.Keeps F s) :
    s0.Keeps F (State.t0Trim s q x0) := by
  induction x0 generalizing s q with
  | zero =>
    unfold State.t0Trim
    exact h_s
  | succ m ih =>
    unfold State.t0Trim
    split
    · exact h_s
    · split
      · apply ih
        refine State.modMem_keeps (hF.le rfl) ?_ (fun _ => rfl) (fun _ => rfl)
        exact h_s
      · exact h_s

theorem State.t0Fit_keeps {s0 s : State} {F : List Part} (hF : Within [.mem] F) (h_s : s0.Keeps F s) :
    s0.Keeps F (State.t0Fit s) := by
  unfold State.t0Fit
  apply forAll_keeps
  · intro v1 v2 h3
    apply State.t0Trim_keeps (hF.le rfl)
    exact h3
  · exact h_s

theorem State.pipeJoin_keeps {s0 s : State} {F : List Part} (hF : Within [.dict, .fac] F) {p : PipeRead} (h_s : s0.Keeps F s) :
    s0.Keeps F (State.pipeJoin s p) := by
  unfold State.pipeJoin
  extract_lets +onlyGivenNames x1 x2 x3 x4 x5
  clear_value x1 x2 x3 x4 x5
  extract_lets +onlyGivenNames x6
  have h6 : s0.Keeps F x6 := by
    unfold x6
    split
    · exact h_s
    · apply State.count_keeps (hF.le rfl)
      exact h_s
  clear_value x6
  extract_lets +onlyGivenNames x9
  clear_value x9
  split
  · apply State.modFac_keeps (hF.le rfl)
    exact h6
  · apply State.modFac_keeps (hF.le rfl)
    exact h6

theorem State.pipePush_keeps {s0 s : State} {F : List Part} (hF : Within [.dict, .fac] F) {p : PipeRead} (h_s : s0.Keeps F s) :
    s0.Keeps F (State.pipePush s p) := by
  unfold State.pipePush
  extract_lets +onlyGivenNames x1
  have h1 : s0.Keeps F x1 := by
    unfold x1
    apply State.pipeJoin_keeps (hF.le rfl)
    exact h_s
  clear_value x1
  split
  · exact h1
  · apply State.count_keeps (hF.le rfl)
    exact h1

theorem State.unwait_keeps {s0 s : State} {F : List Part} (hF : Within [.dict, .fac] F) {u : Nat} {pick : PipeRead → Bool} (h_s : s0.Keeps F s) :
    s0.Keeps F (State.unwait s u pick) := by
  unfold State.unwait
  extract_lets +onlyGivenNames x1
  clear_value x1
  extract_lets +onlyGivenNames x2
  have h2 : s0.Keeps F x2 := by
    unfold x2
    apply State.modFac_keeps (hF.le rfl)
    exact h_s
  clear_value x2
  apply forAll_keeps
  · intro v3 v4 h5
    apply State.pipePush_keeps (hF.le rfl)
    exact h5
  · exact h2

theorem State.wpArmNow_keeps {s0 s : State} {F : List Part} (hF : Within [.dict, .mem] F) {u : Nat} (h_s : s0.Keeps F s) :
    s0.Keeps F (State.wpArmNow s u) := by
  unfold State.wpArmNow
  extract_lets +onlyGivenNames x1
  have h1 : s0.Keeps F x1 := by
    unfold x1
    apply State.setPar_keeps (hF.le rfl)
    exact h_s
  clear_value x1
  extract_lets +onlyGivenNames x2
  clear_value x2
  split
  · apply State.setWp_keeps (hF.le rfl)
    exact h1
  · apply State.t0Fit_keeps (hF.le rfl)
    split
    · apply State.setWp_keeps (hF.le rfl)
      exact h1
    · apply State.setWp_keeps (hF.le rfl)
      exact h1

theorem State.wpArm_keeps {s0 s : State} {F : List Part} (hF : Within [.dict, .mem, .fac] F) {u h : Nat} (h_s : s0.Keeps F s) :
    s0.Keeps F (State.wpArm s u h) := by
  unfold State.wpArm
  split
  · apply State.modFac_keeps (hF.le rfl)
    apply State.setPar_keeps (hF.le rfl)
    exact h_s
  · apply State.wpArmNow_keeps (hF.le rfl)
    exact h_s

theorem State.wpDisarm_keeps {s0 s : State} {F : List Part} (hF : Within [.dict, .mem, .out, .fac, .svc, .glody] F) {u : Nat} (h_s : s0.Keeps F s) :
    s0.Keeps F (State.wpDisarm s u) := by
  unfold State.wpDisarm
  apply State.unwait_keeps (hF.le rfl)
  apply State.dropCopies_keeps (hF.le rfl)
  apply State.setWp_keeps (hF.le rfl)
  apply State.setPar_keeps (hF.le rfl)
  exact h_s

theorem State.wpWrite_keeps {s0 s : State} {F : List Part} (hF : Within [.dict, .mem, .out, .fac, .svc, .glody] F) {u v : Nat} (h_s : s0.Keeps F s) :
    s0.Keeps F (State.wpWrite s u v) := by
  unfold State.wpWrite
  extract_lets +onlyGivenNames x1 x2 x3
  clear_value x1 x2 x3
  split
  · split
    · exact h_s
    · apply State.wpArm_keeps (hF.le rfl)
      apply State.setPar_keeps (hF.le rfl)
      exact h_s
  · split
    · apply State.wpDisarm_keeps (hF.le rfl)
      exact h_s
    · apply State.setPar_keeps (hF.le rfl)
      exact h_s

theorem State.wpMissed_keeps {s0 s : State} {F : List Part} (hF : Within [.out, .ports] F) {u : Nat} (h_s : s0.Keeps F s) :
    s0.Keeps F (State.wpMissed s u) := by
  unfold State.wpMissed
  extract_lets +onlyGivenNames x1
  clear_value x1
  split
  · exact h_s
  · extract_lets +onlyGivenNames x7
    clear_value x7
    apply State.eventAll_keeps (hF.le rfl)
    exact h_s

theorem State.wpCommit_keeps {s0 s : State} {F : List Part} (hF : Within [.dict, .mem, .out, .fac, .ports, .svc, .glody] F) {j c : Nat} (h_s : s0.Keeps F s) :
    s0.Keeps F (State.wpCommit s j c) := by
  unfold State.wpCommit
  apply forAll_keeps
  · intro v1 v2 h3
    split
    · exact h3
    · extract_lets +onlyGivenNames x6
      have h6 : s0.Keeps F x6 := by
        unfold x6
        split
        · apply State.setWp_keeps (hF.le rfl)
          exact h3
        · exact h3
      clear_value x6
      extract_lets +onlyGivenNames x9
      have h9 : s0.Keeps F x9 := by
        unfold x9
        split
        · apply State.wpMissed_keeps (hF.le rfl)
          apply State.setWp_keeps (hF.le rfl)
          exact h6
        · exact h6
      clear_value x9
      split
      · apply State.unwait_keeps (hF.le rfl)
        apply State.dropCopies_keeps (hF.le rfl)
        apply State.setWp_keeps (hF.le rfl)
        exact h9
      · exact h9
  · exact h_s

theorem State.copyFrames_keeps {s0 s : State} {F : List Part} (hF : Within [.dict, .hbm, .mem, .out, .freeCtr, .svc, .media, .glody] F) {p q x0 : Nat} (h_s : s0.Keeps F s) :
    (Opt (Snd (s0.Keeps F))) (State.copyFrames s p q x0) := by
  induction x0 generalizing s p q with
  | zero =>
    unfold State.copyFrames
    apply Opt.some
    apply Snd.mk
    exact h_s
  | succ m ih =>
    unfold State.copyFrames
    split
    · apply Opt.none
    · refine Opt.mapK (P := (Snd (s0.Keeps F))) ?_ ?_
      · apply ih
        refine Opt.snd_of_eq ?_ (by assumption)
        apply State.newFrame_keeps (hF.le rfl)
        exact h_s
      · intro v7 h8
        apply Snd.mk
        exact h8

theorem State.tileBlocks_keeps {s0 s : State} {F : List Part} (hF : Within [.dict, .hbm, .mem, .arb, .out, .freeCtr, .fac, .jobs, .shared, .ports, .svc, .reg, .stackTab, .media, .recov, .power, .glody] F) {v : View} {w : Nat} {env : Env} {x0 : List Nat} (h_s : s0.Keeps F s) :
    (Snd (s0.Keeps F)) (State.tileBlocks s v w env x0) := by
  induction x0 generalizing s v w env with
  | nil =>
    unfold State.tileBlocks
    apply Snd.mk
    exact h_s
  | cons w l ih =>
    unfold State.tileBlocks
    split
    · apply Snd.mk
      refine Snd.of_eq ?_ (by assumption)
      apply State.reconBlock_keeps (hF.le rfl)
      exact h_s
    · split
      · apply Snd.mk
        refine Snd.of_eq ?_ (by assumption)
        apply ih
        refine Snd.of_eq ?_ (by assumption)
        apply State.reconBlock_keeps (hF.le rfl)
        exact h_s
      · apply Snd.mk
        refine Snd.of_eq ?_ (by assumption)
        apply ih
        refine Snd.of_eq ?_ (by assumption)
        apply State.reconBlock_keeps (hF.le rfl)
        exact h_s

theorem State.residuals_keeps {s0 s : State} {F : List Part} (hF : Within [.dict, .hbm, .mem, .arb, .out, .freeCtr, .fac, .jobs, .shared, .ports, .svc, .reg, .stackTab, .media, .recov, .power, .glody] F) {v : View} {w : Nat} {env : Env} {x0 : List Nat} (h_s : s0.Keeps F s) :
    (Snd (s0.Keeps F)) (State.residuals s v w env x0) := by
  induction x0 generalizing s v w env with
  | nil =>
    unfold State.residuals
    apply Snd.mk
    exact h_s
  | cons w l ih =>
    unfold State.residuals
    split
    · apply Snd.mk
      refine Snd.of_eq ?_ (by assumption)
      apply State.residual_keeps (hF.le rfl)
      exact h_s
    · split
      · apply Snd.mk
        refine Snd.of_eq ?_ (by assumption)
        apply ih
        refine Snd.of_eq ?_ (by assumption)
        apply State.residual_keeps (hF.le rfl)
        exact h_s
      · apply Snd.mk
        refine Snd.of_eq ?_ (by assumption)
        apply ih
        refine Snd.of_eq ?_ (by assumption)
        apply State.residual_keeps (hF.le rfl)
        exact h_s

theorem State.tileParts_keeps {s0 s : State} {F : List Part} (hF : Within [.dict, .hbm, .mem, .arb, .out, .freeCtr, .fac, .jobs, .shared, .ports, .svc, .reg, .stackTab, .media, .recov, .power, .glody] F) {v : View} {w i : Nat} {env : Env} (h_s : s0.Keeps F s) :
    (Snd (s0.Keeps F)) (State.tileParts s v w i env) := by
  unfold State.tileParts
  extract_lets +onlyGivenNames x1 x2
  clear_value x1 x2
  split
  · apply Snd.mk
    refine Snd.of_eq ?_ (by assumption)
    apply State.tileRecord_keeps (hF.le rfl)
    exact h_s
  · split
    · apply Snd.mk
      refine Snd.of_eq ?_ (by assumption)
      apply State.residuals_keeps (hF.le rfl)
      refine Snd.of_eq ?_ (by assumption)
      apply State.tileRecord_keeps (hF.le rfl)
      exact h_s
    · split
      · apply Snd.mk
        refine Snd.of_eq ?_ (by assumption)
        split
        · apply Snd.mk
          refine Snd.of_eq ?_ (by assumption)
          apply State.residuals_keeps (hF.le rfl)
          refine Snd.of_eq ?_ (by assumption)
          apply State.tileRecord_keeps (hF.le rfl)
          exact h_s
        · apply State.panelBytes_keeps (hF.le rfl)
          refine Snd.of_eq ?_ (by assumption)
          apply State.residuals_keeps (hF.le rfl)
          refine Snd.of_eq ?_ (by assumption)
          apply State.tileRecord_keeps (hF.le rfl)
          exact h_s
      · extract_lets +onlyGivenNames x26
        clear_value x26
        apply Snd.mk
        refine Snd.of_eq ?_ (by assumption)
        split
        · apply Snd.mk
          refine Snd.of_eq ?_ (by assumption)
          apply State.residuals_keeps (hF.le rfl)
          refine Snd.of_eq ?_ (by assumption)
          apply State.tileRecord_keeps (hF.le rfl)
          exact h_s
        · apply State.panelBytes_keeps (hF.le rfl)
          refine Snd.of_eq ?_ (by assumption)
          apply State.residuals_keeps (hF.le rfl)
          refine Snd.of_eq ?_ (by assumption)
          apply State.tileRecord_keeps (hF.le rfl)
          exact h_s

theorem State.putParts_keeps {s0 s : State} {F : List Part} (hF : Within [.dict, .hbm, .mem, .reg, .media] F) {b : Nat} {x0 : List (Nat × List Byte × List Nat)} (h_s : s0.Keeps F s) :
    s0.Keeps F (State.putParts s b x0) := by
  induction x0 generalizing s b with
  | nil =>
    unfold State.putParts
    exact h_s
  | cons w l ih =>
    unfold State.putParts
    apply ih
    apply State.storeBytes_keeps (hF.le rfl)
    exact h_s

theorem State.stageTile_keeps {s0 s : State} {F : List Part} (hF : Within [.dict, .hbm, .mem, .arb, .out, .freeCtr, .fac, .jobs, .shared, .ports, .svc, .reg, .stackTab, .media, .recov, .power, .glody] F) {u i : Nat} {env : Env} (h_s : s0.Keeps F s) :
    (Snd (s0.Keeps F)) (State.stageTile s u i env) := by
  unfold State.stageTile
  split
  · apply Snd.mk
    exact h_s
  · extract_lets +onlyGivenNames x6 x7 x8 x9 x10
    clear_value x6 x7 x8 x9 x10
    extract_lets +onlyGivenNames x11
    have h11 : ∀ a0 a1 a2, s0.Keeps F a0 → s0.Keeps F (x11 a0 a1 a2) := by
      unfold x11
      intro v12 v13 v14 h15
      extract_lets +onlyGivenNames x16
      have h16 : s0.Keeps F x16 := by
        unfold x16
        apply State.modFac_keeps (hF.le rfl)
        exact h15
      clear_value x16
      extract_lets +onlyGivenNames x17
      have h17 : s0.Keeps F x17 := by
        unfold x17
        apply State.count_keeps (hF.le rfl)
        exact h16
      clear_value x17
      split
      · apply State.setWp_keeps (hF.le rfl)
        exact h17
      · exact h17
    clear_value x11
    split
    · split
      apply Snd.mk
      apply h11
      refine Snd.of_eq ?_ (by assumption)
      apply State.tileBlocks_keeps (hF.le rfl)
      exact h_s
    · split
      · split
        · apply Snd.mk
          apply h11
          refine Snd.of_eq ?_ (by assumption)
          apply State.tileParts_keeps (hF.le rfl)
          exact h_s
        · split
          · apply Snd.mk
            apply State.putParts_keeps (hF.le rfl)
            apply h11
            refine Opt.snd_of_eq ?_ (by assumption)
            apply State.copyFrames_keeps (hF.le rfl)
            refine Snd.of_eq ?_ (by assumption)
            apply State.tileParts_keeps (hF.le rfl)
            exact h_s
          · apply Snd.mk
            refine Snd.of_eq ?_ (by assumption)
            apply State.tileParts_keeps (hF.le rfl)
            exact h_s
      · apply Snd.mk
        exact h_s

theorem State.expBytesAt_keeps {s0 s : State} {F : List Part} (hF : Within [.dict, .hbm, .mem, .arb, .out, .freeCtr, .fac, .jobs, .shared, .ports, .svc, .reg, .stackTab, .media, .recov, .power, .glody] F) {v : View} {b0 r0 : Nat} {env : Env} (h_s : s0.Keeps F s) :
    (Snd (s0.Keeps F)) (State.expBytesAt s v b0 r0 env) := by
  unfold State.expBytesAt
  split
  apply Snd.mk
  refine Snd.of_eq ?_ (by assumption)
  apply State.compRun_keeps (hF.le rfl)
  exact h_s

theorem State.stagedBuilt_keeps {s0 s : State} {F : List Part} (hF : Within [.dict, .hbm, .mem, .arb, .out, .freeCtr, .fac, .jobs, .shared, .ports, .svc, .reg, .stackTab, .media, .recov, .power, .glody] F) {u w i dpa : Nat} {env : Env} (h_s : s0.Keeps F s) :
    (Snd (s0.Keeps F)) (State.stagedBuilt s u w i dpa env) := by
  unfold State.stagedBuilt
  extract_lets +onlyGivenNames x1 x2 x3 x4 x5
  clear_value x1 x2 x3 x4 x5
  extract_lets +onlyGivenNames x6
  have h6 : ∀ a0, s0.Keeps F a0 → s0.Keeps F (x6 a0) := by
    unfold x6
    intro v7 h8
    apply State.loseTile_keeps (hF.le rfl)
    exact h8
  clear_value x6
  extract_lets +onlyGivenNames x9
  clear_value x9
  split
  · apply Snd.mk
    exact h_s
  · split
    · apply Snd.mk
      apply h6
      exact h_s
    · apply Snd.mk
      exact h_s
  · extract_lets +onlyGivenNames x26 x27
    clear_value x26 x27
    split
    split
    · apply Snd.mk
      apply h6
      refine Fst.of_eq ?_ (by assumption)
      apply State.noteLines_keeps (hF.le rfl)
      exact h_s
    · extract_lets +onlyGivenNames x34 x35 x36
      clear_value x34 x35 x36
      split
      · apply Snd.mk
        refine Snd.of_eq ?_ (by assumption)
        apply State.tileRecord_keeps (hF.le rfl)
        refine Fst.of_eq ?_ (by assumption)
        apply State.noteLines_keeps (hF.le rfl)
        exact h_s
      · split
        · apply Snd.mk
          refine Snd.of_eq ?_ (by assumption)
          split
          · apply Snd.mk
            refine Snd.of_eq ?_ (by assumption)
            apply State.tileRecord_keeps (hF.le rfl)
            refine Fst.of_eq ?_ (by assumption)
            apply State.noteLines_keeps (hF.le rfl)
            exact h_s
          · split
            · apply Snd.mk
              refine Snd.of_eq ?_ (by assumption)
              apply State.expBytesAt_keeps (hF.le rfl)
              refine Snd.of_eq ?_ (by assumption)
              apply State.tileRecord_keeps (hF.le rfl)
              refine Fst.of_eq ?_ (by assumption)
              apply State.noteLines_keeps (hF.le rfl)
              exact h_s
            · split
              apply Snd.mk
              refine Snd.of_eq ?_ (by assumption)
              apply State.expBytesAt_keeps (hF.le rfl)
              refine Snd.of_eq ?_ (by assumption)
              apply State.expBytesAt_keeps (hF.le rfl)
              refine Snd.of_eq ?_ (by assumption)
              apply State.tileRecord_keeps (hF.le rfl)
              refine Fst.of_eq ?_ (by assumption)
              apply State.noteLines_keeps (hF.le rfl)
              exact h_s
        · extract_lets +onlyGivenNames x64
          clear_value x64
          apply Snd.mk
          refine Snd.of_eq ?_ (by assumption)
          split
          · apply Snd.mk
            refine Snd.of_eq ?_ (by assumption)
            apply State.tileRecord_keeps (hF.le rfl)
            refine Fst.of_eq ?_ (by assumption)
            apply State.noteLines_keeps (hF.le rfl)
            exact h_s
          · split
            · apply Snd.mk
              refine Snd.of_eq ?_ (by assumption)
              apply State.expBytesAt_keeps (hF.le rfl)
              refine Snd.of_eq ?_ (by assumption)
              apply State.tileRecord_keeps (hF.le rfl)
              refine Fst.of_eq ?_ (by assumption)
              apply State.noteLines_keeps (hF.le rfl)
              exact h_s
            · split
              apply Snd.mk
              refine Snd.of_eq ?_ (by assumption)
              apply State.expBytesAt_keeps (hF.le rfl)
              refine Snd.of_eq ?_ (by assumption)
              apply State.expBytesAt_keeps (hF.le rfl)
              refine Snd.of_eq ?_ (by assumption)
              apply State.tileRecord_keeps (hF.le rfl)
              refine Fst.of_eq ?_ (by assumption)
              apply State.noteLines_keeps (hF.le rfl)
              exact h_s

theorem execWaypointArmWrite_keeps {s0 : State} {F : List Part} (hF : Within [.dict, .mem, .out, .freeCtr, .fac, .svc, .glody] F) {waypoint : Fin 512} {value : Nat} {s : State} (h_s : s0.Keeps F s) :
    (Nxt (s0.Keeps F)) (execWaypointArmWrite waypoint value s) := by
  unfold execWaypointArmWrite
  apply Nxt.next
  apply State.barWrite_keeps (hF.le rfl)
  · exact h_s
  · intro v1 h2
    apply State.wpWrite_keeps (hF.le rfl)
    exact h2

theorem State.stageEnd_keeps {s0 s : State} {F : List Part} (hF : Within [.dict, .queues] F) {u h : Nat} (h_s : s0.Keeps F s) :
    s0.Keeps F (State.stageEnd s u h) := by
  unfold State.stageEnd
  split
  · apply State.finish_keeps (hF.le rfl)
    exact h_s
  · apply State.finish_keeps (hF.le rfl)
    exact h_s

theorem State.stageArm_keeps {s0 s : State} {F : List Part} (hF : Within [.dict, .mem, .fac, .queues] F) {h : Nat} {c : Cmd} (h_s : s0.Keeps F s) :
    s0.Keeps F (State.stageArm s h c) := by
  unfold State.stageArm
  extract_lets +onlyGivenNames x1 x2 x3
  clear_value x1 x2 x3
  split
  · apply State.fail_keeps (hF.le rfl)
    exact h_s
  · split
    · apply State.fail_keeps (hF.le rfl)
      exact h_s
    · extract_lets +onlyGivenNames x8
      have h8 : s0.Keeps F x8 := by
        unfold x8
        apply State.setPar_keeps (hF.le rfl)
        apply State.setPar_keeps (hF.le rfl)
        apply State.setPar_keeps (hF.le rfl)
        apply State.setPar_keeps (hF.le rfl)
        exact h_s
      clear_value x8
      split
      · apply State.wpArm_keeps (hF.le rfl)
        apply State.accept_keeps (hF.le rfl)
        exact h8
      · apply State.stageEnd_keeps (hF.le rfl)
        apply State.wpArm_keeps (hF.le rfl)
        exact h8

theorem State.armsGo_keeps {s0 s : State} {F : List Part} (hF : Within [.dict, .mem, .fac, .queues] F) (h_s : s0.Keeps F s) :
    s0.Keeps F (State.armsGo s) := by
  unfold State.armsGo
  split
  · exact h_s
  · apply forAll_keeps
    · intro v3 v4 h5
      extract_lets +onlyGivenNames x6
      have h6 : s0.Keeps F x6 := by
        unfold x6
        split
        · apply State.wpArmNow_keeps (hF.le rfl)
          exact h5
        · exact h5
      clear_value x6
      split
      · exact h6
      · apply State.stageEnd_keeps (hF.le rfl)
        exact h6
    · apply State.modFac_keeps (hF.le rfl)
      exact h_s

theorem execStageArm_keeps {s0 : State} {F : List Part} (hF : Within [.dict, .mem, .fac, .queues] F) {queue : Fin 32768} {idx : Fin 65536} {s : State} (h_s : s0.Keeps F s) :
    (Nxt (s0.Keeps F)) (execStageArm queue idx s) := by
  unfold execStageArm
  apply Nxt.next
  apply State.runCmd_keeps (hF.le rfl)
  · exact h_s
  · intro v1 v2 v3 h4
    apply State.stageArm_keeps (hF.le rfl)
    exact h4

theorem execStageDisarm_keeps {s0 : State} {F : List Part} (hF : Within [.dict, .mem, .out, .fac, .queues, .svc, .glody] F) {queue : Fin 32768} {idx : Fin 65536} {s : State} (h_s : s0.Keeps F s) :
    (Nxt (s0.Keeps F)) (execStageDisarm queue idx s) := by
  unfold execStageDisarm
  apply Nxt.next
  apply State.runCmd_keeps (hF.le rfl)
  · exact h_s
  · intro v1 v2 v3 h4
    apply State.finish_keeps (hF.le rfl)
    apply State.wpDisarm_keeps (hF.le rfl)
    exact h4

end Sys2Proof.Machine
end

