-- ==== Sys2Proof/Laws/KeepsDamage.lean ====
section
/-! SUPPORT. Every effect of Machine/Damage.lean leaves the queue alone, keeps the canonical form and writes only the parts named. -/
namespace Sys2Proof.Machine

theorem State.jobField_keeps {s0 s : State} {F : List Part} (hF : Within [.dict] F) {j hi lo v : Nat} (h_s : s0.Keeps F s) :
    s0.Keeps F (State.jobField s j hi lo v) := by
  unfold State.jobField
  apply State.setPar_keeps (hF.le rfl)
  exact h_s

theorem State.jobFrames_keeps {s0 s : State} {F : List Part} (hF : Within [.dict] F) {j : Nat} (h_s : s0.Keeps F s) :
    s0.Keeps F (State.jobFrames s j) := by
  unfold State.jobFrames
  extract_lets +onlyGivenNames x1 x2
  clear_value x1 x2
  apply State.setPar_keeps (hF.le rfl)
  exact h_s

theorem State.freeHeld_keeps {s0 s : State} {F : List Part} (hF : Within [.dict, .mem, .out, .svc, .glody] F) {ks : List Nat} (h_s : s0.Keeps F s) :
    s0.Keeps F (State.freeHeld s ks) := by
  unfold State.freeHeld
  apply forAll_keeps
  · intro v1 v2 h3
    apply State.setFrame_keeps (hF.le rfl)
    exact h3
  · exact h_s

theorem State.dropShadow_keeps {s0 s : State} {F : List Part} (hF : Within [.dict, .mem, .out, .jobs, .svc, .glody] F) {j : Nat} (h_s : s0.Keeps F s) :
    s0.Keeps F (State.dropShadow s j) := by
  unfold State.dropShadow
  extract_lets +onlyGivenNames x1
  clear_value x1
  extract_lets +onlyGivenNames x2
  have h2 : s0.Keeps F x2 := by
    unfold x2
    apply State.modJob_keeps (hF.le rfl)
    exact h_s
  clear_value x2
  extract_lets +onlyGivenNames x3
  have h3 : s0.Keeps F x3 := by
    unfold x3
    apply forAll_keeps
    · intro v4 v5 h6
      apply State.release_keeps (hF.le rfl)
      exact h6
    · exact h2
  clear_value x3
  extract_lets +onlyGivenNames x7
  have h7 : s0.Keeps F x7 := by
    unfold x7
    apply State.freeHeld_keeps (hF.le rfl)
    exact h3
  clear_value x7
  apply State.setPar_keeps (hF.le rfl)
  exact h7

theorem State.jobDamage_keeps {s0 s : State} {F : List Part} (hF : Within [.dict, .mem, .out, .jobs, .queues, .svc, .glody] F) {j reason status : Nat} {dpa : Option Nat} (h_s : s0.Keeps F s) :
    s0.Keeps F (State.jobDamage s j reason status dpa) := by
  unfold State.jobDamage
  extract_lets +onlyGivenNames x1
  clear_value x1
  split
  · exact h_s
  · extract_lets +onlyGivenNames x4
    clear_value x4
    extract_lets +onlyGivenNames x5
    have h5 : s0.Keeps F x5 := by
      unfold x5
      apply State.jobField_keeps (hF.le rfl)
      apply State.jobField_keeps (hF.le rfl)
      apply State.jobField_keeps (hF.le rfl)
      exact h_s
    clear_value x5
    extract_lets +onlyGivenNames x6
    have h6 : s0.Keeps F x6 := by
      unfold x6
      apply forAll_keeps
      · intro v7 v8 h9
        split
        · exact h9
        · apply State.fail_keeps (hF.le rfl)
          exact h9
      · exact h5
    clear_value x6
    extract_lets +onlyGivenNames x12
    have h12 : s0.Keeps F x12 := by
      unfold x12
      apply forAll_keeps
      · intro v13 v14 h15
        apply State.finish_keeps (hF.le rfl)
        exact h15
      · exact h6
    clear_value x12
    extract_lets +onlyGivenNames x16
    have h16 : s0.Keeps F x16 := by
      unfold x16
      apply State.modJob_keeps (hF.le rfl)
      apply State.dropShadow_keeps (hF.le rfl)
      exact h12
    clear_value x16
    extract_lets +onlyGivenNames x17
    clear_value x17
    apply State.notice_keeps (hF.le rfl)
    apply State.raise_keeps (hF.le rfl)
    exact h16

theorem State.hostTouch_keeps {s0 s : State} {F : List Part} (hF : Within [.dict, .mem, .out, .jobs, .queues, .svc, .glody] F) {b dpa : Nat} (h_s : s0.Keeps F s) :
    s0.Keeps F (State.hostTouch s b dpa) := by
  unfold State.hostTouch
  extract_lets +onlyGivenNames x1
  clear_value x1
  extract_lets +onlyGivenNames x2
  have h2 : s0.Keeps F x2 := by
    unfold x2
    apply forAll_keeps
    · intro v3 v4 h5
      apply State.jobDamage_keeps (hF.le rfl)
      exact h5
    · exact h_s
  clear_value x2
  refine State.Keeps.congr (s := x2) (D := [.jobs]) (hF.le rfl) ?_ rfl rfl rfl rfl (by rintro ⟨⟩ <;> (first | exact .inr rfl | simp))
  exact h2

end Sys2Proof.Machine
end

