-- ==== Sys2Proof/Laws/KeepsReduce.lean ====
section
/-! SUPPORT. Every effect of Machine/Reduce.lean leaves the queue alone, keeps the canonical form and writes only the parts named. -/
namespace Sys2Proof.Machine

theorem State.modRed_keeps {s0 s : State} {F : List Part} (hF : Within [.reds] F) {n : Nat} {f : RedRec → RedRec} (h_s : s0.Keeps F s) :
    s0.Keeps F (State.modRed s n f) := by
  unfold State.modRed
  refine State.Keeps.congr (s := s) (D := [.reds]) (hF.le rfl) ?_ rfl rfl rfl rfl (by rintro ⟨⟩ <;> (first | exact .inr rfl | simp))
  exact h_s

theorem State.redMissing_keeps {s0 s : State} {F : List Part} (hF : Within [.dict] F) {n : Nat} (h_s : s0.Keeps F s) :
    s0.Keeps F (State.redMissing s n) := by
  unfold State.redMissing
  extract_lets +onlyGivenNames x1 x2 x3
  clear_value x1 x2 x3
  apply forAll_keeps
  · intro v4 v5 h6
    apply State.setPar_keeps (hF.le rfl)
    exact h6
  · exact h_s

theorem State.frontFrom_keeps {s0 s : State} {F : List Part} (hF : Within [.dict, .reds] F) {n x0 : Nat} (h_s : s0.Keeps F s) :
    s0.Keeps F (State.frontFrom s n x0) := by
  induction x0 generalizing s n with
  | zero =>
    unfold State.frontFrom
    exact h_s
  | succ m ih =>
    unfold State.frontFrom
    extract_lets +onlyGivenNames x1 x2
    clear_value x1 x2
    split
    · apply ih
      apply State.modRed_keeps (hF.le rfl)
      apply State.setPar_keeps (hF.le rfl)
      exact h_s
    · exact h_s

theorem State.redAdvance_keeps {s0 s : State} {F : List Part} (hF : Within [.dict, .reds] F) {n : Nat} (h_s : s0.Keeps F s) :
    s0.Keeps F (State.redAdvance s n) := by
  unfold State.redAdvance
  apply State.redMissing_keeps (hF.le rfl)
  apply State.frontFrom_keeps (hF.le rfl)
  exact h_s

theorem State.redTileOpen_keeps {s0 s : State} {F : List Part} (hF : Within [.mem, .reds] F) {n z : Nat} (h_s : s0.Keeps F s) :
    (Opt (s0.Keeps F)) (State.redTileOpen s n z) := by
  unfold State.redTileOpen
  extract_lets +onlyGivenNames x1
  clear_value x1
  split
  · apply Opt.some
    exact h_s
  · extract_lets +onlyGivenNames x4 x5
    clear_value x4 x5
    split
    · apply Opt.some
      apply State.t0Fit_keeps (hF.le rfl)
      apply State.modRed_keeps (hF.le rfl)
      exact h_s
    · apply Opt.none

theorem State.modTile_keeps {s0 s : State} {F : List Part} (hF : Within [.reds] F) {n z : Nat} {f : RedTile → RedTile} (h_s : s0.Keeps F s) :
    s0.Keeps F (State.modTile s n z f) := by
  unfold State.modTile
  apply State.modRed_keeps (hF.le rfl)
  exact h_s

theorem State.redReject_keeps {s0 s : State} {F : List Part} (hF : Within [.dict] F) {n : Nat} (h_s : s0.Keeps F s) :
    s0.Keeps F (State.redReject s n) := by
  unfold State.redReject
  apply State.count_keeps (hF.le rfl)
  exact h_s

theorem State.reply_keeps {s0 s : State} {F : List Part} (hF : Within [.out, .ports] F) {r : HeldReq} {d : Option (List Byte)} (h_s : s0.Keeps F s) :
    s0.Keeps F (State.reply s r d) := by
  unfold State.reply
  extract_lets +onlyGivenNames x1
  clear_value x1
  split
  · exact h_s
  · split
    · apply State.send_keeps (hF.le rfl)
      exact h_s
    · split
      · apply State.send_keeps (hF.le rfl)
        exact h_s
      · apply State.send_keeps (hF.le rfl)
        exact h_s

theorem State.gradDone_keeps {s0 s : State} {F : List Part} (hF : Within [.out, .ports] F) {port dpa : Nat} {gated : Bool} (h_s : s0.Keeps F s) :
    s0.Keeps F (State.gradDone s port dpa gated) := by
  unfold State.gradDone
  split
  · exact h_s
  · apply State.send_keeps (hF.le rfl)
    exact h_s

theorem State.endWaits_keeps {s0 s : State} {F : List Part} (hF : Within [.dict, .out, .queues, .ports] F) {status : Nat} {x0 : List RedWait} (h_s : s0.Keeps F s) :
    s0.Keeps F (State.endWaits s status x0) := by
  induction x0 generalizing s status with
  | nil =>
    unfold State.endWaits
    exact h_s
  | cons w l ih =>
    unfold State.endWaits
    extract_lets +onlyGivenNames x1
    have h1 : s0.Keeps F x1 := by
      unfold x1
      apply State.count_keeps (hF.le rfl)
      exact h_s
    clear_value x1
    apply ih
    split
    · apply State.finish_keeps (hF.le rfl)
      exact h1
    · apply State.gradDone_keeps (hF.le rfl)
      exact h1

theorem State.contribStop_keeps {s0 s : State} {F : List Part} (hF : Within [.dict, .out, .reds, .queues, .ports] F) {h status : Nat} (h_s : s0.Keeps F s) :
    s0.Keeps F (State.contribStop s h status) := by
  unfold State.contribStop
  split
  · apply State.endWaits_keeps (hF.le rfl)
    apply State.modRed_keeps (hF.le rfl)
    exact h_s
  · apply State.fail_keeps (hF.le rfl)
    exact h_s

theorem State.redFaultBy_keeps {s0 s : State} {F : List Part} (hF : Within [.dict, .mem, .out, .jobs, .reds, .queues, .ports, .svc, .glody] F) {n status : Nat} {why : List (Nat × List Byte)} (h_s : s0.Keeps F s) :
    s0.Keeps F (State.redFaultBy s n status why) := by
  unfold State.redFaultBy
  split
  · exact h_s
  · extract_lets +onlyGivenNames x3
    clear_value x3
    extract_lets +onlyGivenNames x4
    have h4 : s0.Keeps F x4 := by
      unfold x4
      apply State.redMissing_keeps (hF.le rfl)
      exact h_s
    clear_value x4
    extract_lets +onlyGivenNames x5
    clear_value x5
    extract_lets +onlyGivenNames x6
    have h6 : s0.Keeps F x6 := by
      unfold x6
      apply State.modRed_keeps (hF.le rfl)
      exact h4
    clear_value x6
    extract_lets +onlyGivenNames x7
    have h7 : s0.Keeps F x7 := by
      unfold x7
      apply State.endWaits_keeps (hF.le rfl)
      exact h6
    clear_value x7
    extract_lets +onlyGivenNames x8
    have h8 : s0.Keeps F x8 := by
      unfold x8
      apply State.setPar_keeps (hF.le rfl)
      exact h7
    clear_value x8
    extract_lets +onlyGivenNames x9
    have h9 : s0.Keeps F x9 := by
      unfold x9
      apply State.finish_keeps (hF.le rfl)
      exact h8
    clear_value x9
    extract_lets +onlyGivenNames x10
    have h10 : s0.Keeps F x10 := by
      unfold x10
      apply State.notice_keeps (hF.le rfl)
      exact h9
    clear_value x10
    split
    · exact h10
    · apply forAll_keeps
      · intro v13 v14 h15
        apply State.jobDamage_keeps (hF.le rfl)
        exact h15
      · exact h10

theorem State.redFault_keeps {s0 s : State} {F : List Part} (hF : Within [.dict, .mem, .out, .jobs, .reds, .queues, .ports, .svc, .glody] F) {n status : Nat} (h_s : s0.Keeps F s) :
    s0.Keeps F (State.redFault s n status) := by
  unfold State.redFault
  apply State.redFaultBy_keeps (hF.le rfl)
  exact h_s

theorem State.redDestLost_keeps {s0 s : State} {F : List Part} (hF : Within [.dict, .mem, .out, .jobs, .reds, .queues, .ports, .svc, .glody] F) {n : Nat} {window dpa : Option Nat} (h_s : s0.Keeps F s) :
    s0.Keeps F (State.redDestLost s n window dpa) := by
  unfold State.redDestLost
  apply State.redFaultBy_keeps (hF.le rfl)
  exact h_s

theorem State.addLine_keeps {s0 s : State} {F : List Part} (hF : Within [.dict, .reds] F) {n z line hid mask : Nat} {d : List Byte} (h_s : s0.Keeps F s) :
    s0.Keeps F (State.addLine s n z line hid mask d) := by
  unfold State.addLine
  extract_lets +onlyGivenNames x1 x2 x3
  clear_value x1 x2 x3
  apply State.redAdvance_keeps (hF.le rfl)
  apply State.modTile_keeps (hF.le rfl)
  exact h_s

theorem State.gradWrite_keeps {s0 s : State} {F : List Part} (hF : Within [.dict, .mem, .out, .jobs, .reds, .queues, .ports, .svc, .glody] F) {w off hid mask : Nat} {d : List Byte} {bad : Bool} {port dpa since : Nat} {gated : Bool} (h_s : s0.Keeps F s) :
    s0.Keeps F (State.gradWrite s w off hid mask d bad port dpa since gated) := by
  unfold State.gradWrite
  split
  · apply State.gradDone_keeps (hF.le rfl)
    apply State.count_keeps (hF.le rfl)
    exact h_s
  · extract_lets +onlyGivenNames x6
    clear_value x6
    split
    · apply State.gradDone_keeps (hF.le rfl)
      apply State.redFault_keeps (hF.le rfl)
      exact h_s
    · split
      · apply State.gradDone_keeps (hF.le rfl)
        apply State.count_keeps (hF.le rfl)
        exact h_s
      · extract_lets +onlyGivenNames x11 x12
        clear_value x11 x12
        split
        · apply State.gradDone_keeps (hF.le rfl)
          apply State.redReject_keeps (hF.le rfl)
          exact h_s
        · split
          · apply State.gradDone_keeps (hF.le rfl)
            apply State.count_keeps (hF.le rfl)
            apply State.redReject_keeps (hF.le rfl)
            exact h_s
          · split
            · apply State.gradDone_keeps (hF.le rfl)
              apply State.addLine_keeps (hF.le rfl)
              refine Opt.of_eq ?_ (by assumption)
              apply State.redTileOpen_keeps (hF.le rfl)
              exact h_s
            · apply State.modRed_keeps (hF.le rfl)
              exact h_s

theorem State.addTile_keeps {s0 s : State} {F : List Part} (hF : Within [.dict, .reds] F) {n z hid : Nat} {d : List Byte} (h_s : s0.Keeps F s) :
    s0.Keeps F (State.addTile s n z hid d) := by
  unfold State.addTile
  extract_lets +onlyGivenNames x1 x2
  clear_value x1 x2
  apply State.redAdvance_keeps (hF.le rfl)
  apply State.modTile_keeps (hF.le rfl)
  exact h_s

theorem State.contribRun_keeps {s0 s : State} {F : List Part} (hF : Within [.dict, .mem, .reds, .queues] F) {n : Nat} {w : RedWait} {x0 : Nat} (h_s : s0.Keeps F s) :
    s0.Keeps F (State.contribRun s n w x0) := by
  induction x0 generalizing s n w with
  | zero =>
    unfold State.contribRun
    apply State.finish_keeps (hF.le rfl)
    exact h_s
  | succ m ih =>
    unfold State.contribRun
    extract_lets +onlyGivenNames x1 x2
    clear_value x1 x2
    split
    · apply State.finish_keeps (hF.le rfl)
      apply State.redReject_keeps (hF.le rfl)
      exact h_s
    · split
      · apply State.finish_keeps (hF.le rfl)
        apply State.count_keeps (hF.le rfl)
        apply State.redReject_keeps (hF.le rfl)
        exact h_s
      · split
        · apply ih
          apply State.addTile_keeps (hF.le rfl)
          refine Opt.of_eq ?_ (by assumption)
          apply State.redTileOpen_keeps (hF.le rfl)
          exact h_s
        · apply State.modRed_keeps (hF.le rfl)
          exact h_s

theorem State.retryWaits_keeps {s0 s : State} {F : List Part} (hF : Within [.dict, .mem, .out, .jobs, .reds, .queues, .ports, .svc, .glody] F) {n : Nat} {x0 : List RedWait} (h_s : s0.Keeps F s) :
    s0.Keeps F (State.retryWaits s n x0) := by
  induction x0 generalizing s n with
  | nil =>
    unfold State.retryWaits
    exact h_s
  | cons w l ih =>
    unfold State.retryWaits
    extract_lets +onlyGivenNames x1
    have h1 : s0.Keeps F x1 := by
      unfold x1
      split
      · apply State.contribRun_keeps (hF.le rfl)
        exact h_s
      · apply State.gradWrite_keeps (hF.le rfl)
        exact h_s
    clear_value x1
    apply ih
    exact h1

theorem State.redRetry_keeps {s0 s : State} {F : List Part} (hF : Within [.dict, .mem, .out, .jobs, .reds, .queues, .ports, .svc, .glody] F) (h_s : s0.Keeps F s) :
    s0.Keeps F (State.redRetry s) := by
  unfold State.redRetry
  apply forAll_keeps
  · intro v1 v2 h3
    extract_lets +onlyGivenNames x4
    clear_value x4
    split
    · exact h3
    · extract_lets +onlyGivenNames x7
      have h7 : s0.Keeps F x7 := by
        unfold x7
        apply State.retryWaits_keeps (hF.le rfl)
        apply State.modRed_keeps (hF.le rfl)
        exact h3
      clear_value x7
      extract_lets +onlyGivenNames x8
      clear_value x8
      apply State.count_keeps (hF.le rfl)
      exact h7
  · exact h_s

theorem State.redRound_keeps {s0 s : State} {F : List Part} (hF : Within [.dict, .reds] F) {n z : Nat} (h_s : s0.Keeps F s) :
    (Snd (s0.Keeps F)) (State.redRound s n z) := by
  unfold State.redRound
  extract_lets +onlyGivenNames x1 x2 x3 x4 x5 x6
  clear_value x1 x2 x3 x4 x5 x6
  extract_lets +onlyGivenNames x7
  have h7 : s0.Keeps F x7 := by
    unfold x7
    apply State.count_keeps (hF.le rfl)
    apply State.count_keeps (hF.le rfl)
    apply State.count_keeps (hF.le rfl)
    exact h_s
  clear_value x7
  extract_lets +onlyGivenNames x8
  have h8 : s0.Keeps F x8 := by
    unfold x8
    split
    · exact h7
    · apply State.setPar_keeps (hF.le rfl)
      exact h7
  clear_value x8
  apply Snd.mk
  apply State.modRed_keeps (hF.le rfl)
  exact h8

theorem State.redClose_keeps {s0 s : State} {F : List Part} (hF : Within [.dict, .queues] F) {n : Nat} (h_s : s0.Keeps F s) :
    s0.Keeps F (State.redClose s n) := by
  unfold State.redClose
  extract_lets +onlyGivenNames x1
  clear_value x1
  split
  · apply State.finish_keeps (hF.le rfl)
    apply State.setPar_keeps (hF.le rfl)
    exact h_s
  · exact h_s

end Sys2Proof.Machine
end

