-- ==== Sys2Proof/Laws/KeepsAccept.lean ====
section
/-! SUPPORT. Every effect of Machine/Accept.lean leaves the queue alone, keeps the canonical form and writes only the parts named. -/
namespace Sys2Proof.Machine

theorem State.redense_keeps {s0 s : State} {F : List Part} (hF : Within [.dict] F) {w : Nat} (h_s : s0.Keeps F s) :
    s0.Keeps F (State.redense s w) := by
  unfold State.redense
  split
  · apply State.setPar_keeps (hF.le rfl)
    exact h_s
  · exact h_s

theorem State.breakVersion_keeps {s0 s : State} {F : List Part} (hF : Within [.out, .shared, .ports] F) {n hid b : Nat} {src : List WriteSrc} (h_s : s0.Keeps F s) :
    s0.Keeps F (State.breakVersion s n hid b src) := by
  unfold State.breakVersion
  extract_lets +onlyGivenNames x1
  have h1 : s0.Keeps F x1 := by
    unfold x1
    apply State.modSr_keeps (hF.le rfl)
    exact h_s
  clear_value x1
  apply forAll_keeps
  · intro v2 v3 h4
    apply State.eventOn_keeps (hF.le rfl)
    exact h4
  · exact h1

theorem State.relower_keeps {s0 s : State} {F : List Part} (hF : Within [.dict] F) {w b : Nat} (h_s : s0.Keeps F s) :
    s0.Keeps F (State.relower s w b) := by
  unfold State.relower
  split
  · extract_lets +onlyGivenNames x2
    clear_value x2
    apply State.setLossy_keeps (hF.le rfl)
    apply State.setPar_keeps (hF.le rfl)
    exact h_s
  · exact h_s

theorem State.recount_keeps {s0 s : State} {F : List Part} (hF : Within [.dict] F) {w b : Nat} (h_s : s0.Keeps F s) :
    s0.Keeps F (State.recount s w b) := by
  unfold State.recount
  apply State.relower_keeps (hF.le rfl)
  apply State.descDamage_keeps (hF.le rfl)
  apply State.redense_keeps (hF.le rfl)
  exact h_s

theorem State.settle_keeps {s0 s : State} {F : List Part} (hF : Within [.dict, .hbm, .mem, .out, .freeCtr, .fac, .jobs, .shared, .ports, .svc, .reg, .media, .glody] F) {v : View} {w b : Nat} {f : Form} {d : List Byte} {marks : List Nat} {src : List WriteSrc} (h_s : s0.Keeps F s) :
    s0.Keeps F (State.settle s v w b f d marks src) := by
  unfold State.settle
  extract_lets +onlyGivenNames x1 x2
  clear_value x1 x2
  extract_lets +onlyGivenNames x3
  have h3 : s0.Keeps F x3 := by
    unfold x3
    split
    · exact h_s
    · split
      · split
        · apply State.breakVersion_keeps (hF.le rfl)
          exact h_s
        · exact h_s
      · split
        · split
          · exact h_s
          · split
            · apply State.toDetour_keeps (hF.le rfl)
              exact h_s
            · apply State.land_keeps (hF.le rfl)
              exact h_s
        · apply State.land_keeps (hF.le rfl)
          exact h_s
  clear_value x3
  apply State.recount_keeps (hF.le rfl)
  exact h3

theorem State.checkFail_keeps {s0 s : State} {F : List Part} (hF : Within [.dict] F) {b lane code : Nat} (h_s : s0.Keeps F s) :
    s0.Keeps F (State.checkFail s b lane code) := by
  unfold State.checkFail
  extract_lets +onlyGivenNames x1 x2
  clear_value x1 x2
  extract_lets +onlyGivenNames x3
  have h3 : s0.Keeps F x3 := by
    unfold x3
    apply State.setPar_keeps (hF.le rfl)
    apply State.count_keeps (hF.le rfl)
    exact h_s
  clear_value x3
  split
  · exact h3
  · apply State.bicelFail_keeps (hF.le rfl)
    exact h3

theorem State.laneForm_keeps {s0 s : State} {F : List Part} (hF : Within [.dict, .arb, .power] F) {w b : Nat} {f : Form} {d : List Byte} (h_s : s0.Keeps F s) :
    (Snd (s0.Keeps F)) (State.laneForm s w b f d) := by
  unfold State.laneForm
  split
  · apply Snd.mk
    exact h_s
  · split
    · apply Snd.mk
      apply State.count_keeps (hF.le rfl)
      exact h_s
    · split
      · apply Snd.mk
        apply State.count_keeps (hF.le rfl)
        refine Opt.snd_of_eq ?_ (by assumption)
        apply State.pickLane_keeps (hF.le rfl)
        exact h_s
      · split
        · apply Snd.mk
          refine Opt.snd_of_eq ?_ (by assumption)
          apply State.pickLane_keeps (hF.le rfl)
          exact h_s
        · apply Snd.mk
          apply State.checkFail_keeps (hF.le rfl)
          refine Opt.snd_of_eq ?_ (by assumption)
          apply State.pickLane_keeps (hF.le rfl)
          exact h_s

theorem State.homeForm_keeps {s0 s : State} {F : List Part} (hF : Within [.dict, .arb, .power] F) {w b : Nat} {d : List Byte} (h_s : s0.Keeps F s) :
    (Snd (s0.Keeps F)) (State.homeForm s w b d) := by
  unfold State.homeForm
  split
  · split
    apply Snd.mk
    refine Snd.of_eq ?_ (by assumption)
    apply State.laneForm_keeps (hF.le rfl)
    exact h_s
  · apply Snd.mk
    exact h_s

theorem State.countStored_keeps {s0 old s : State} {F : List Part} (hF : Within [.dict] F) {v : View} {t st key : Nat} (h_old : s0.Keeps F old) (h_s : s0.Keeps F s) :
    s0.Keeps F (State.countStored old s v t st key) := by
  unfold State.countStored
  split
  · apply State.count_keeps (hF.le rfl)
    exact h_s
  · exact h_s

theorem State.storeFull_keeps {s0 s : State} {F : List Part} (hF : Within [.dict, .hbm, .mem, .arb, .out, .freeCtr, .fac, .jobs, .shared, .ports, .svc, .reg, .media, .power, .glody] F) {v : View} {w b : Nat} {d : List Byte} {marks : List Nat} {src : List WriteSrc} (h_s : s0.Keeps F s) :
    s0.Keeps F (State.storeFull s v w b d marks src) := by
  unfold State.storeFull
  extract_lets +onlyGivenNames x1
  clear_value x1
  extract_lets +onlyGivenNames x2
  have h2 : ∀ a0, s0.Keeps F a0 → s0.Keeps F (x2 a0) := by
    unfold x2
    intro v3 h4
    extract_lets +onlyGivenNames x5
    have h5 : s0.Keeps F x5 := by
      unfold x5
      apply State.settle_keeps (hF.le rfl)
      exact h4
    clear_value x5
    apply State.countStored_keeps (hF.le rfl)
    · exact h4
    · exact h5
  clear_value x2
  split
  · apply State.settle_keeps (hF.le rfl)
    exact h_s
  · split
    · apply State.settle_keeps (hF.le rfl)
      exact h_s
    · split
      · apply State.settle_keeps (hF.le rfl)
        exact h_s
      · split
        · split
          · split
            · apply State.countStored_keeps (hF.le rfl)
              · exact h_s
              · apply State.settle_keeps (hF.le rfl)
                exact h_s
            · apply State.countStored_keeps (hF.le rfl)
              · exact h_s
              · apply State.settle_keeps (hF.le rfl)
                exact h_s
          · apply State.settle_keeps (hF.le rfl)
            exact h_s
        · split
          · apply State.settle_keeps (hF.le rfl)
            exact h_s
          · split
            · apply h2
              exact h_s
            · split
              · apply h2
                refine Opt.snd_of_eq ?_ (by assumption)
                apply State.pickLane_keeps (hF.le rfl)
                exact h_s
              · extract_lets +onlyGivenNames x31
                clear_value x31
                refine State.modMem_keeps (hF.le rfl) ?_ (fun _ => rfl) (fun _ => rfl)
                refine Opt.snd_of_eq ?_ (by assumption)
                apply State.pickLane_keeps (hF.le rfl)
                exact h_s

theorem State.packEnd_keeps {s0 s : State} {F : List Part} (hF : Within [.dict, .hbm, .mem, .out, .freeCtr, .fac, .jobs, .shared, .ports, .svc, .reg, .media, .glody] F) {key : Nat} {ok : Bool} (h_s : s0.Keeps F s) :
    s0.Keeps F (State.packEnd s key ok) := by
  unfold State.packEnd
  split
  · exact h_s
  · split
    · exact h_s
    · extract_lets +onlyGivenNames x8
      have h8 : s0.Keeps F x8 := by
        unfold x8
        refine State.modMem_keeps (hF.le rfl) ?_ (fun _ => rfl) (fun _ => rfl)
        exact h_s
      clear_value x8
      extract_lets +onlyGivenNames x9 x10 x11
      clear_value x9 x10 x11
      split
      · apply State.settle_keeps (hF.le rfl)
        exact h8
      · apply State.settle_keeps (hF.le rfl)
        apply State.checkFail_keeps (hF.le rfl)
        exact h8

theorem State.content_keeps {s0 s : State} {F : List Part} (hF : Within [.dict, .hbm, .mem, .arb, .out, .freeCtr, .fac, .jobs, .shared, .ports, .svc, .reg, .stackTab, .media, .recov, .power, .glody] F) {v : View} {w b : Nat} {env : Env} {port : Option Nat} {hid : Nat} (h_s : s0.Keeps F s) :
    (Snd (s0.Keeps F)) (State.content s v w b env port hid) := by
  unfold State.content
  extract_lets +onlyGivenNames x1 x2 x3
  clear_value x1 x2 x3
  split
  · split
    · apply Snd.mk
      apply State.count_keeps (hF.le rfl)
      exact h_s
    · apply Snd.mk
      apply State.detourBad_keeps (hF.le rfl)
      exact h_s
    · apply Snd.mk
      exact h_s
  · split
    · split
      · apply Snd.mk
        refine Snd.of_eq ?_ (by assumption)
        apply State.reconBlock_keeps (hF.le rfl)
        exact h_s
      · apply Snd.mk
        refine Snd.of_eq ?_ (by assumption)
        apply State.reconBlock_keeps (hF.le rfl)
        exact h_s
    · split
      · apply Snd.mk
        refine Snd.of_eq ?_ (by assumption)
        apply State.readBlock_keeps (hF.le rfl)
        exact h_s
      · apply Snd.mk
        refine Snd.of_eq ?_ (by assumption)
        apply State.readBlock_keeps (hF.le rfl)
        exact h_s

theorem State.resolve_keeps {s0 s : State} {F : List Part} (hF : Within [.dict, .hbm, .mem, .arb, .out, .freeCtr, .fac, .jobs, .shared, .ports, .svc, .reg, .stackTab, .media, .recov, .power, .glody] F) {key : Nat} {env : Env} {late : Bool} (h_s : s0.Keeps F s) :
    s0.Keeps F (State.resolve s key env late) := by
  unfold State.resolve
  split
  · exact h_s
  · extract_lets +onlyGivenNames x6 x7 x8
    clear_value x6 x7 x8
    extract_lets +onlyGivenNames x9
    have h9 : ∀ a0, s0.Keeps F a0 → s0.Keeps F (x9 a0) := by
      unfold x9
      intro v10 h11
      refine State.modMem_keeps (hF.le rfl) ?_ (fun _ => rfl) (fun _ => rfl)
      exact h11
    clear_value x9
    extract_lets +onlyGivenNames x12 x13 x14
    clear_value x12 x13 x14
    split
    · exact h_s
    · split
      · split
        apply State.storeFull_keeps (hF.le rfl)
        apply h9
        exact h_s
      · split
        · apply State.count_keeps (hF.le rfl)
          apply h9
          exact h_s
        · split
          · extract_lets +onlyGivenNames x26 x27
            clear_value x26 x27
            split
            apply State.recount_keeps (hF.le rfl)
            apply State.writeFlat_keeps (hF.le rfl)
            apply h9
            exact h_s
          · split
            · refine Snd.of_eq ?_ (by assumption)
              apply State.content_keeps (hF.le rfl)
              exact h_s
            · split
              split
              · apply State.storeFull_keeps (hF.le rfl)
                apply h9
                refine Snd.of_eq ?_ (by assumption)
                apply State.content_keeps (hF.le rfl)
                exact h_s
              · apply State.settle_keeps (hF.le rfl)
                apply h9
                refine Snd.of_eq ?_ (by assumption)
                apply State.content_keeps (hF.le rfl)
                exact h_s

theorem State.flushDone_keeps {s0 s : State} {F : List Part} (hF : Within [.dict, .hbm, .mem, .arb, .out, .freeCtr, .fac, .jobs, .shared, .ports, .svc, .reg, .stackTab, .media, .recov, .power, .glody] F) {b : Nat} {ok : Bool} {env : Env} (h_s : s0.Keeps F s) :
    s0.Keeps F (State.flushDone s b ok env) := by
  unfold State.flushDone
  split
  · exact h_s
  · split
    · exact h_s
    · extract_lets +onlyGivenNames x8
      clear_value x8
      extract_lets +onlyGivenNames x9
      have h9 : s0.Keeps F x9 := by
        unfold x9
        refine State.modMem_keeps (hF.le rfl) ?_ (fun _ => rfl) (fun _ => rfl)
        exact h_s
      clear_value x9
      extract_lets +onlyGivenNames x10
      have h10 : s0.Keeps F x10 := by
        unfold x10
        split
        · exact h9
        · apply State.freeSlot_keeps (hF.le rfl)
          exact h9
      clear_value x10
      extract_lets +onlyGivenNames x13
      have h13 : s0.Keeps F x13 := by
        unfold x13
        split
        · apply State.commitSlot_keeps (hF.le rfl)
          exact h9
        · split
          · apply State.putForm_keeps (hF.le rfl)
            apply State.fence_keeps (hF.le rfl)
            exact h10
          · exact h10
      clear_value x13
      extract_lets +onlyGivenNames x21
      have h21 : s0.Keeps F x21 := by
        unfold x21
        apply State.recount_keeps (hF.le rfl)
        exact h13
      clear_value x21
      split
      · split
        · apply State.resolve_keeps (hF.le rfl)
          exact h21
        · exact h21
      · exact h21

theorem State.dropFlush_keeps {s0 s : State} {F : List Part} (hF : Within [.dict, .mem] F) {key : Nat} (h_s : s0.Keeps F s) :
    s0.Keeps F (State.dropFlush s key) := by
  unfold State.dropFlush
  split
  · exact h_s
  · split
    · exact h_s
    · extract_lets +onlyGivenNames x8
      clear_value x8
      extract_lets +onlyGivenNames x9
      have h9 : s0.Keeps F x9 := by
        unfold x9
        refine State.modMem_keeps (hF.le rfl) ?_ (fun _ => rfl) (fun _ => rfl)
        exact h_s
      clear_value x9
      split
      · exact h9
      · apply State.freeSlot_keeps (hF.le rfl)
        exact h9

theorem State.settlePack_keeps {s0 s : State} {F : List Part} (hF : Within [.dict, .hbm, .mem, .out, .freeCtr, .fac, .jobs, .shared, .ports, .svc, .reg, .media, .glody] F) {key : Nat} (h_s : s0.Keeps F s) :
    s0.Keeps F (State.settlePack s key) := by
  unfold State.settlePack
  split
  · exact h_s
  · apply State.packEnd_keeps (hF.le rfl)
    exact h_s

theorem State.writeSeen_keeps {s0 s : State} {F : List Part} (hF : Within [.mem, .fac] F) {w b : Nat} (h_s : s0.Keeps F s) :
    s0.Keeps F (State.writeSeen s w b) := by
  unfold State.writeSeen
  extract_lets +onlyGivenNames x1
  have h1 : s0.Keeps F x1 := by
    unfold x1
    refine State.modMem_keeps (hF.le rfl) ?_ (fun _ => rfl) (fun _ => rfl)
    exact h_s
  clear_value x1
  split
  · extract_lets +onlyGivenNames x3 x4
    clear_value x3 x4
    split
    apply State.modFac_keeps (hF.le rfl)
    exact h1
  · exact h1

theorem State.noteSram_keeps {s0 s : State} {F : List Part} (hF : Within [.dict, .media] F) {q unit out symbol : Nat} (h_s : s0.Keeps F s) :
    s0.Keeps F (State.noteSram s q unit out symbol) := by
  unfold State.noteSram
  split
  · exact h_s
  · apply State.logSram_keeps (hF.le rfl)
    apply State.count_keeps (hF.le rfl)
    exact h_s
  · apply State.logSram_keeps (hF.le rfl)
    apply State.count_keeps (hF.le rfl)
    exact h_s

theorem State.disarm_keeps {s0 s : State} {F : List Part} (hF : Within [.dict] F) (h_s : s0.Keeps F s) :
    s0.Keeps F (State.disarm s) := by
  unfold State.disarm
  apply State.setPar_keeps (hF.le rfl)
  exact h_s

theorem State.stage_keeps {s0 s : State} {F : List Part} (hF : Within [.dict, .media] F) {q mask : Nat} {d : List Byte} {bad : Bool} (h_s : s0.Keeps F s) :
    (Snd (Snd (s0.Keeps F))) (State.stage s q mask d bad) := by
  unfold State.stage
  split
  · split
    extract_lets +onlyGivenNames x7
    have h7 : s0.Keeps F x7 := by
      unfold x7
      apply State.noteSram_keeps (hF.le rfl)
      apply State.disarm_keeps (hF.le rfl)
      exact h_s
    clear_value x7
    apply Snd.mk
    apply Snd.mk
    exact h7
  · apply Snd.mk
    apply Snd.mk
    exact h_s

theorem State.gatherLine_keeps {s0 s : State} {F : List Part} (hF : Within [.dict, .hbm, .mem, .arb, .out, .freeCtr, .fac, .jobs, .shared, .ports, .svc, .reg, .stackTab, .media, .recov, .power, .glody] F) {v : View} {w dpa mask : Nat} {d : List Byte} {bad : Bool} {port hid : Nat} (h_s : s0.Keeps F s) :
    s0.Keeps F (State.gatherLine s v w dpa mask d bad port hid) := by
  unfold State.gatherLine
  extract_lets +onlyGivenNames x1 x2
  clear_value x1 x2
  extract_lets +onlyGivenNames x3
  have h3 : s0.Keeps F x3 := by
    unfold x3
    apply State.writeSeen_keeps (hF.le rfl)
    apply State.settlePack_keeps (hF.le rfl)
    exact h_s
  clear_value x3
  split
  extract_lets +onlyGivenNames x9 x10 x11 x12
  clear_value x9 x10 x11 x12
  extract_lets +onlyGivenNames x13
  have h13 : s0.Keeps F x13 := by
    unfold x13
    refine State.modMem_keeps (hF.le rfl) ?_ (fun _ => rfl) (fun _ => rfl)
    refine Snd.of_eq₂ ?_ (by assumption)
    apply State.stage_keeps (hF.le rfl)
    exact h3
  clear_value x13
  split
  · apply State.resolve_keeps (hF.le rfl)
    exact h13
  · exact h13

theorem State.writeT0_keeps {s0 s : State} {F : List Part} (hF : Within [.dict, .t0, .mem, .media] F) {dpa mask : Nat} {d : List Byte} {bad : Bool} (h_s : s0.Keeps F s) :
    s0.Keeps F (State.writeT0 s dpa mask d bad) := by
  unfold State.writeT0
  split
  extract_lets +onlyGivenNames x6
  clear_value x6
  refine State.modMem_t0_keeps (hF.le rfl) ?_ (fun _ => rfl) ?_
  · refine Snd.of_eq₂ ?_ (by assumption)
    apply State.stage_keeps (hF.le rfl)
    exact h_s
  · intro v7 h8
    exact Tab.wf_writeRun _ _ _ (by assumption)

theorem State.blockAtHub_keeps {s0 s : State} {F : List Part} (hF : Within [.dict, .hbm, .mem, .arb, .out, .freeCtr, .fac, .jobs, .shared, .ports, .svc, .reg, .stackTab, .media, .recov, .power, .glody] F) {hid b : Nat} {env : Env} (h_s : s0.Keeps F s) :
    (Snd (s0.Keeps F)) (State.blockAtHub s hid b env) := by
  unfold State.blockAtHub
  extract_lets +onlyGivenNames x1 x2
  clear_value x1 x2
  split
  · apply Snd.mk
    exact h_s
  · apply Snd.mk
    exact h_s
  · extract_lets +onlyGivenNames x17
    clear_value x17
    split
    · apply Snd.mk
      exact h_s
    · split
      · apply Snd.mk
        exact h_s
      · split
        · split
          extract_lets +onlyGivenNames x27
          clear_value x27
          split
          · apply Snd.mk
            exact h_s
          · split
            · split
              · split
                · apply Snd.mk
                  refine Snd.of_eq ?_ (by assumption)
                  apply State.content_keeps (hF.le rfl)
                  exact h_s
                · apply Snd.mk
                  refine Snd.of_eq ?_ (by assumption)
                  apply State.content_keeps (hF.le rfl)
                  exact h_s
              · apply Snd.mk
                exact h_s
            · split
              · split
                · extract_lets +onlyGivenNames x46
                  have h46 : s0.Keeps F x46 := by
                    unfold x46
                    apply State.delivered_keeps (hF.le rfl)
                    refine Snd.of_eq ?_ (by assumption)
                    apply State.reconBlock_keeps (hF.le rfl)
                    exact h_s
                  clear_value x46
                  apply Snd.mk
                  exact h46
                · apply Snd.mk
                  refine Snd.of_eq ?_ (by assumption)
                  apply State.reconBlock_keeps (hF.le rfl)
                  exact h_s
              · split
                · apply Snd.mk
                  refine Snd.of_eq ?_ (by assumption)
                  apply State.content_keeps (hF.le rfl)
                  exact h_s
                · apply Snd.mk
                  refine Snd.of_eq ?_ (by assumption)
                  apply State.content_keeps (hF.le rfl)
                  exact h_s
        · split
          · apply Snd.mk
            refine Snd.of_eq ?_ (by assumption)
            apply State.content_keeps (hF.le rfl)
            exact h_s
          · apply Snd.mk
            refine Snd.of_eq ?_ (by assumption)
            apply State.content_keeps (hF.le rfl)
            exact h_s

theorem State.blocksAtHub_keeps {s0 s : State} {F : List Part} (hF : Within [.dict, .hbm, .mem, .arb, .out, .freeCtr, .fac, .jobs, .shared, .ports, .svc, .reg, .stackTab, .media, .recov, .power, .glody] F) {hid b : Nat} {env : Env} {x0 : Nat} (h_s : s0.Keeps F s) :
    (Snd (s0.Keeps F)) (State.blocksAtHub s hid b env x0) := by
  induction x0 generalizing s hid b env with
  | zero =>
    unfold State.blocksAtHub
    apply Snd.mk
    exact h_s
  | succ m ih =>
    unfold State.blocksAtHub
    split
    extract_lets +onlyGivenNames x5
    clear_value x5
    split
    apply Snd.mk
    refine Snd.of_eq ?_ (by assumption)
    apply ih
    refine Snd.of_eq ?_ (by assumption)
    apply State.blockAtHub_keeps (hF.le rfl)
    exact h_s

theorem State.rangeAtHub_keeps {s0 s : State} {F : List Part} (hF : Within [.dict, .hbm, .mem, .arb, .out, .freeCtr, .fac, .jobs, .shared, .ports, .svc, .reg, .stackTab, .media, .recov, .power, .glody] F) {hid dpa n : Nat} {env : Env} (h_s : s0.Keeps F s) :
    (Snd (s0.Keeps F)) (State.rangeAtHub s hid dpa n env) := by
  unfold State.rangeAtHub
  split
  · apply Snd.mk
    exact h_s
  · split
    extract_lets +onlyGivenNames x7
    clear_value x7
    apply Snd.mk
    refine Snd.of_eq ?_ (by assumption)
    apply State.blocksAtHub_keeps (hF.le rfl)
    exact h_s

end Sys2Proof.Machine
end

