-- ==== Sys2Proof/Laws/KeepsShare.lean ====
section
/-! SUPPORT. Every effect of Machine/Share.lean leaves the queue alone, keeps the canonical form and writes only the parts named. -/
namespace Sys2Proof.Machine

theorem State.answerRead_keeps {s0 s : State} {F : List Part} (hF : Within [.dict, .hbm, .mem, .arb, .out, .freeCtr, .fac, .jobs, .shared, .ports, .svc, .reg, .stackTab, .media, .recov, .power, .glody] F) {p : PipeRead} (h_s : s0.Keeps F s) :
    s0.Keeps F (State.answerRead s p) := by
  unfold State.answerRead
  split
  · apply State.reply_keeps (hF.le rfl)
    exact h_s
  · extract_lets +onlyGivenNames x6
    clear_value x6
    split
    · apply State.reply_keeps (hF.le rfl)
      refine Snd.of_eq ?_ (by assumption)
      apply State.reconBlock_keeps (hF.le rfl)
      exact h_s
    · apply State.reply_keeps (hF.le rfl)
      apply State.delivered_keeps (hF.le rfl)
      refine Snd.of_eq ?_ (by assumption)
      apply State.reconBlock_keeps (hF.le rfl)
      exact h_s

theorem State.finishReads_keeps {s0 s : State} {F : List Part} (hF : Within [.dict, .hbm, .mem, .arb, .out, .freeCtr, .fac, .jobs, .shared, .ports, .svc, .reg, .stackTab, .media, .recov, .power, .glody] F) {n : Nat} {pick : PipeRead → Bool} (h_s : s0.Keeps F s) :
    s0.Keeps F (State.finishReads s n pick) := by
  unfold State.finishReads
  extract_lets +onlyGivenNames x1 x2
  clear_value x1 x2
  split
  · exact h_s
  · extract_lets +onlyGivenNames x5
    have h5 : s0.Keeps F x5 := by
      unfold x5
      apply State.modFac_keeps (hF.le rfl)
      exact h_s
    clear_value x5
    apply forAll_keeps
    · intro v6 v7 h8
      apply State.answerRead_keeps (hF.le rfl)
      exact h8
    · exact h5

theorem State.reclaim_keeps {s0 s : State} {F : List Part} (hF : Within [.dict, .hbm, .mem, .arb, .out, .freeCtr, .fac, .jobs, .shared, .ports, .svc, .reg, .stackTab, .media, .recov, .power, .glody] F) {n : Nat} (h_s : s0.Keeps F s) :
    s0.Keeps F (State.reclaim s n) := by
  unfold State.reclaim
  extract_lets +onlyGivenNames x1
  clear_value x1
  extract_lets +onlyGivenNames x2
  have h2 : s0.Keeps F x2 := by
    unfold x2
    apply State.finishReads_keeps (hF.le rfl)
    exact h_s
  clear_value x2
  extract_lets +onlyGivenNames x3
  clear_value x3
  extract_lets +onlyGivenNames x4
  have h4 : s0.Keeps F x4 := by
    unfold x4
    apply State.modSr_keeps (hF.le rfl)
    exact h2
  clear_value x4
  extract_lets +onlyGivenNames x5
  have h5 : s0.Keeps F x5 := by
    unfold x5
    apply forAll_keeps
    · intro v6 v7 h8
      apply forAll_keeps
      · intro v9 v10 h11
        apply State.release_keeps (hF.le rfl)
        exact h11
      · exact h8
    · exact h4
  clear_value x5
  apply State.setPar_keeps (hF.le rfl)
  exact h5

theorem State.withRefs_keeps {s0 s : State} {F : List Part} (hF : Within [.dict, .hbm, .mem, .arb, .out, .freeCtr, .fac, .jobs, .shared, .ports, .svc, .reg, .stackTab, .media, .recov, .power, .glody] F) {n : Nat} {f : State → State} (h_s : s0.Keeps F s) (h_f : ∀ a0, s0.Keeps F a0 → s0.Keeps F (f a0)) :
    s0.Keeps F (State.withRefs s n f) := by
  unfold State.withRefs
  extract_lets +onlyGivenNames x1
  clear_value x1
  extract_lets +onlyGivenNames x2
  have h2 : s0.Keeps F x2 := by
    unfold x2
    apply State.reclaim_keeps (hF.le rfl)
    apply h_f
    exact h_s
  clear_value x2
  extract_lets +onlyGivenNames x3
  clear_value x3
  extract_lets +onlyGivenNames x4
  have h4 : ∀ a0 a1 a2 a3, s0.Keeps F a0 → s0.Keeps F (x4 a0 a1 a2 a3) := by
    unfold x4
    intro v5 v6 v7 v8 h9
    apply State.count_keeps (hF.le rfl)
    apply State.uncount_keeps (hF.le rfl)
    exact h9
  clear_value x4
  extract_lets +onlyGivenNames x10
  have h10 : s0.Keeps F x10 := by
    unfold x10
    apply h4
    apply h4
    apply h4
    exact h2
  clear_value x10
  apply State.uncount_keeps (hF.le rfl)
  apply State.count_keeps (hF.le rfl)
  exact h10

theorem State.dropOpen_keeps {s0 s : State} {F : List Part} (hF : Within [.dict, .hbm, .mem, .arb, .out, .freeCtr, .fac, .jobs, .shared, .ports, .svc, .reg, .stackTab, .media, .recov, .power, .glody] F) {n h : Nat} (h_s : s0.Keeps F s) :
    s0.Keeps F (State.dropOpen s n h) := by
  unfold State.dropOpen
  split
  · exact h_s
  · extract_lets +onlyGivenNames x6
    clear_value x6
    extract_lets +onlyGivenNames x7
    have h7 : s0.Keeps F x7 := by
      unfold x7
      apply State.finishReads_keeps (hF.le rfl)
      exact h_s
    clear_value x7
    extract_lets +onlyGivenNames x8
    have h8 : s0.Keeps F x8 := by
      unfold x8
      refine State.modMem_keeps (hF.le rfl) ?_ (fun _ => rfl) (fun _ => rfl)
      exact h7
    clear_value x8
    extract_lets +onlyGivenNames x9
    have h9 : s0.Keeps F x9 := by
      unfold x9
      apply forAll_keeps
      · intro v10 v11 h12
        split
        · apply State.unpromote_keeps (hF.le rfl)
          exact h12
        · exact h12
      · exact h8
    clear_value x9
    extract_lets +onlyGivenNames x15
    have h15 : s0.Keeps F x15 := by
      unfold x15
      apply State.modSr_keeps (hF.le rfl)
      exact h9
    clear_value x15
    apply forAll_keeps
    · intro v16 v17 h18
      apply State.release_keeps (hF.le rfl)
      exact h18
    · exact h15

theorem State.takeVersion_keeps {s0 s : State} {F : List Part} (hF : Within [.dict, .shared, .glody] F) (h_s : s0.Keeps F s) :
    (Snd (s0.Keeps F)) (State.takeVersion s) := by
  unfold State.takeVersion
  extract_lets +onlyGivenNames x1 x2
  clear_value x1 x2
  extract_lets +onlyGivenNames x3
  have h3 : s0.Keeps F x3 := by
    unfold x3
    split
    · refine State.Keeps.congr (s := s) (D := [.shared]) (hF.le rfl) ?_ rfl rfl rfl rfl (by rintro ⟨⟩ <;> (first | exact .inr rfl | simp))
      exact h_s
    · apply State.setPar_keeps (hF.le rfl)
      exact h_s
  clear_value x3
  apply Snd.mk
  split
  · apply State.notice_keeps (hF.le rfl)
    exact h3
  · exact h3

theorem State.settleOpen_keeps {s0 s : State} {F : List Part} (hF : Within [.dict, .hbm, .mem, .arb, .out, .freeCtr, .fac, .jobs, .shared, .ports, .svc, .reg, .stackTab, .media, .recov, .power, .glody] F) {n h : Nat} (h_s : s0.Keeps F s) :
    s0.Keeps F (State.settleOpen s n h) := by
  unfold State.settleOpen
  extract_lets +onlyGivenNames x1 x2
  clear_value x1 x2
  extract_lets +onlyGivenNames x3
  have h3 : s0.Keeps F x3 := by
    unfold x3
    apply forAll_keeps
    · intro v4 v5 h6
      apply State.resolve_keeps (hF.le rfl)
      apply State.settlePack_keeps (hF.le rfl)
      exact h6
    · exact h_s
  clear_value x3
  extract_lets +onlyGivenNames x7
  clear_value x7
  apply forAll_keeps
  · intro v8 v9 h10
    apply State.packEnd_keeps (hF.le rfl)
    exact h10
  · exact h3

theorem State.publish_keeps {s0 s : State} {F : List Part} (hF : Within [.dict, .hbm, .mem, .arb, .out, .freeCtr, .fac, .jobs, .shared, .ports, .svc, .reg, .stackTab, .media, .recov, .power, .glody] F) {n h : Nat} (h_s : s0.Keeps F s) :
    (Snd (s0.Keeps F)) (State.publish s n h) := by
  unfold State.publish
  split
  · apply Snd.mk
    exact h_s
  · split
    extract_lets +onlyGivenNames x10
    have h10 : s0.Keeps F x10 := by
      unfold x10
      apply State.finishReads_keeps (hF.le rfl)
      refine Snd.of_eq ?_ (by assumption)
      apply State.takeVersion_keeps (hF.le rfl)
      exact h_s
    clear_value x10
    extract_lets +onlyGivenNames x11
    clear_value x11
    extract_lets +onlyGivenNames x12
    have h12 : s0.Keeps F x12 := by
      unfold x12
      apply State.modSr_keeps (hF.le rfl)
      exact h10
    clear_value x12
    extract_lets +onlyGivenNames x13
    have h13 : s0.Keeps F x13 := by
      unfold x13
      apply forAll_keeps
      · intro v14 v15 h16
        extract_lets +onlyGivenNames x17
        clear_value x17
        split
        · split
          · apply State.useFrame_keeps (hF.le rfl)
            apply State.useFrame_keeps (hF.le rfl)
            exact h16
          · apply State.useFrame_keeps (hF.le rfl)
            exact h16
        · exact h16
      · exact h12
    clear_value x13
    extract_lets +onlyGivenNames x25
    have h25 : s0.Keeps F x25 := by
      unfold x25
      apply forAll_keeps
      · intro v26 v27 h28
        split
        · apply State.unpromote_keeps (hF.le rfl)
          exact h28
        · exact h28
      · exact h13
    clear_value x25
    apply Snd.mk
    apply State.setPar_keeps (hF.le rfl)
    exact h25

theorem State.leaseFull_keeps {s0 s : State} {F : List Part} (hF : Within [.shared] F) {n h : Nat} (h_s : s0.Keeps F s) :
    s0.Keeps F (State.leaseFull s n h) := by
  unfold State.leaseFull
  apply State.modSr_keeps (hF.le rfl)
  exact h_s

theorem State.leaseTouch_keeps {s0 s : State} {F : List Part} (hF : Within [.shared] F) {n h : Nat} (h_s : s0.Keeps F s) :
    s0.Keeps F (State.leaseTouch s n h) := by
  unfold State.leaseTouch
  split
  · apply State.leaseFull_keeps (hF.le rfl)
    exact h_s
  · exact h_s

theorem State.setDir_keeps {s0 s : State} {F : List Part} (hF : Within [.shared] F) {line : Nat} {e : Option DirEnt} (h_s : s0.Keeps F s) :
    s0.Keeps F (State.setDir s line e) := by
  unfold State.setDir
  extract_lets +onlyGivenNames x1
  clear_value x1
  refine State.Keeps.congr (s := s) (D := [.shared]) (hF.le rfl) ?_ rfl rfl rfl rfl (by rintro ⟨⟩ <;> (first | exact .inr rfl | simp))
  exact h_s

theorem State.grantDir_keeps {s0 s : State} {F : List Part} (hF : Within [.shared] F) {e : DirEnt} (h_s : s0.Keeps F s) :
    s0.Keeps F (State.grantDir s e) := by
  unfold State.grantDir
  extract_lets +onlyGivenNames x1
  clear_value x1
  refine State.Keeps.congr (s := s) (D := [.shared]) (hF.le rfl) ?_ rfl rfl rfl rfl (by rintro ⟨⟩ <;> (first | exact .inr rfl | simp))
  exact h_s

theorem State.snoop_keeps {s0 s : State} {F : List Part} (hF : Within [.out, .shared, .ports] F) {line h : Nat} {inv : Bool} (h_s : s0.Keeps F s) :
    s0.Keeps F (State.snoop s line h inv) := by
  unfold State.snoop
  split
  · exact h_s
  · extract_lets +onlyGivenNames x3 x4
    clear_value x3 x4
    extract_lets +onlyGivenNames x5
    have h5 : s0.Keeps F x5 := by
      unfold x5
      refine State.Keeps.congr (s := s) (D := [.shared]) (hF.le rfl) ?_ rfl rfl rfl rfl (by rintro ⟨⟩ <;> (first | exact .inr rfl | simp))
      exact h_s
    clear_value x5
    split
    · apply State.send_keeps (hF.le rfl)
      exact h5
    · exact h5

theorem State.snoopAll_keeps {s0 s : State} {F : List Part} (hF : Within [.out, .shared, .ports] F) {e : DirEnt} {inv : Bool} (h_s : s0.Keeps F s) :
    s0.Keeps F (State.snoopAll s e inv) := by
  unfold State.snoopAll
  apply forAll_keeps
  · intro v1 v2 h3
    apply State.snoop_keeps (hF.le rfl)
    exact h3
  · exact h_s

theorem State.cohGrant_keeps {s0 s : State} {F : List Part} (hF : Within [.shared] F) {line h want : Nat} (h_s : s0.Keeps F s) :
    s0.Keeps F (State.cohGrant s line h want) := by
  unfold State.cohGrant
  split
  · exact h_s
  · split
    · split
      · apply State.grantDir_keeps (hF.le rfl)
        exact h_s
      · split
        · apply State.grantDir_keeps (hF.le rfl)
          exact h_s
        · split
          · apply State.grantDir_keeps (hF.le rfl)
            exact h_s
          · apply State.grantDir_keeps (hF.le rfl)
            exact h_s
    · apply State.grantDir_keeps (hF.le rfl)
      exact h_s

theorem State.snoopAnswer_keeps {s0 s : State} {F : List Part} (hF : Within [.shared] F) {line h : Nat} {keeps : Bool} (h_s : s0.Keeps F s) :
    s0.Keeps F (State.snoopAnswer s line h keeps) := by
  unfold State.snoopAnswer
  extract_lets +onlyGivenNames x1
  clear_value x1
  extract_lets +onlyGivenNames x2
  have h2 : s0.Keeps F x2 := by
    unfold x2
    refine State.Keeps.congr (s := s) (D := [.shared]) (hF.le rfl) ?_ rfl rfl rfl rfl (by rintro ⟨⟩ <;> (first | exact .inr rfl | simp))
    exact h_s
  clear_value x2
  split
  · exact h2
  · split
    · apply State.setDir_keeps (hF.le rfl)
      exact h2
    · extract_lets +onlyGivenNames x10 x11
      clear_value x10 x11
      apply State.setDir_keeps (hF.le rfl)
      exact h2

theorem State.cohWriteback_keeps {s0 s : State} {F : List Part} (hF : Within [.shared] F) {line h keep : Nat} (h_s : s0.Keeps F s) :
    s0.Keeps F (State.cohWriteback s line h keep) := by
  unfold State.cohWriteback
  split
  · exact h_s
  · split
    · exact h_s
    · split
      · apply State.setDir_keeps (hF.le rfl)
        exact h_s
      · apply State.setDir_keeps (hF.le rfl)
        exact h_s

theorem State.cohReady_keeps {s0 s : State} {F : List Part} (hF : Within [.out, .shared, .ports] F) {dpa len : Nat} {write : Bool} (h_s : s0.Keeps F s) :
    (Snd (s0.Keeps F)) (State.cohReady s dpa len write) := by
  unfold State.cohReady
  split
  · apply Snd.mk
    exact h_s
  · extract_lets +onlyGivenNames x3
    clear_value x3
    apply Snd.mk
    apply forAll_keeps
    · intro v4 v5 h6
      split
      · apply State.snoopAll_keeps (hF.le rfl)
        exact h6
      · exact h6
    · exact h_s

theorem State.poisonLine_keeps {s0 s : State} {F : List Part} (hF : Within [.dict, .hbm, .t0, .mem, .arb, .out, .freeCtr, .fac, .jobs, .shared, .ports, .svc, .reg, .stackTab, .media, .recov, .power, .glody] F) {dpa : Nat} (h_s : s0.Keeps F s) :
    s0.Keeps F (State.poisonLine s dpa) := by
  unfold State.poisonLine
  split
  · exact h_s
  · split
    · apply State.writeT0_keeps (hF.le rfl)
      exact h_s
    · apply State.gatherLine_keeps (hF.le rfl)
      exact h_s

theorem State.loseLine_keeps {s0 s : State} {F : List Part} (hF : Within [.dict, .hbm, .t0, .mem, .arb, .out, .freeCtr, .fac, .jobs, .shared, .ports, .svc, .reg, .stackTab, .media, .recov, .power, .glody] F) {n line h cause : Nat} (h_s : s0.Keeps F s) :
    s0.Keeps F (State.loseLine s n line h cause) := by
  unfold State.loseLine
  extract_lets +onlyGivenNames x1
  have h1 : s0.Keeps F x1 := by
    unfold x1
    apply State.count_keeps (hF.le rfl)
    apply State.poisonLine_keeps (hF.le rfl)
    exact h_s
  clear_value x1
  extract_lets +onlyGivenNames x2
  have h2 : s0.Keeps F x2 := by
    unfold x2
    apply State.setPar_keeps (hF.le rfl)
    exact h1
  clear_value x2
  apply State.eventAll_keeps (hF.le rfl)
  exact h2

theorem State.blankRange_keeps {s0 s : State} {F : List Part} (hF : Within [.dict, .t0, .mem, .out, .jobs, .shared, .svc, .glody] F) {b n : Nat} (h_s : s0.Keeps F s) :
    s0.Keeps F (State.blankRange s b n) := by
  unfold State.blankRange
  extract_lets +onlyGivenNames x1 x2
  clear_value x1 x2
  extract_lets +onlyGivenNames x3
  have h3 : s0.Keeps F x3 := by
    unfold x3
    apply forAll_keeps
    · intro v4 v5 h6
      split
      · apply State.unpromote_keeps (hF.le rfl)
        apply State.dropFlush_keeps (hF.le rfl)
        exact h6
      · exact h6
    · exact h_s
  clear_value x3
  extract_lets +onlyGivenNames x9
  clear_value x9
  extract_lets +onlyGivenNames x10
  have h10 : s0.Keeps F x10 := by
    unfold x10
    refine State.modMem_t0_keeps (hF.le rfl) ?_ (fun _ => rfl) ?_
    · exact h3
    · intro v11 h12
      exact Tab.wfBy_filter _ _ (by assumption)
  clear_value x10
  extract_lets +onlyGivenNames x13
  extract_lets +onlyGivenNames x14
  clear_value x14
  extract_lets +onlyGivenNames x15
  have h15 : s0.Keeps F x15 := by
    unfold x15
    refine State.Keeps.congr (s := x10) (D := [.mem, .jobs, .shared]) (hF.le rfl) ?_ rfl rfl rfl rfl (by rintro ⟨⟩ <;> (first | exact .inr rfl | simp))
    exact h10
  clear_value x15
  apply forAll_keeps
  · intro v16 v17 h18
    apply State.release_keeps (hF.le rfl)
    exact h18
  · exact h15

theorem State.extentFreed_keeps {s0 s : State} {F : List Part} (hF : Within [.dict, .t0, .mem, .out, .jobs, .shared, .svc, .glody] F) {x : Nat} (h_s : s0.Keeps F s) :
    s0.Keeps F (State.extentFreed s x) := by
  unfold State.extentFreed
  split
  · exact h_s
  · apply State.blankRange_keeps (hF.le rfl)
    exact h_s

theorem State.dropExtent_keeps {s0 s : State} {F : List Part} (hF : Within [.dict, .t0, .mem, .out, .jobs, .shared, .ports, .svc, .glody] F) {key x : Nat} (h_s : s0.Keeps F s) :
    s0.Keeps F (State.dropExtent s key x) := by
  unfold State.dropExtent
  apply State.extentFreed_keeps (hF.le rfl)
  apply State.modLd_keeps (hF.le rfl)
  exact h_s

theorem State.hidDeath_keeps {s0 s : State} {F : List Part} (hF : Within [.dict, .hbm, .t0, .mem, .arb, .out, .freeCtr, .fac, .jobs, .shared, .ports, .svc, .reg, .stackTab, .media, .recov, .power, .glody] F) {n h : Nat} (h_s : s0.Keeps F s) :
    s0.Keeps F (State.hidDeath s n h) := by
  unfold State.hidDeath
  extract_lets +onlyGivenNames x1
  clear_value x1
  extract_lets +onlyGivenNames x2
  have h2 : s0.Keeps F x2 := by
    unfold x2
    apply State.setPar_keeps (hF.le rfl)
    exact h_s
  clear_value x2
  extract_lets +onlyGivenNames x3
  have h3 : s0.Keeps F x3 := by
    unfold x3
    apply State.withRefs_keeps (hF.le rfl)
    · exact h2
    · intro v4 h5
      apply State.modSr_keeps (hF.le rfl)
      apply State.dropOpen_keeps (hF.le rfl)
      exact h5
  clear_value x3
  extract_lets +onlyGivenNames x6 x7
  clear_value x6 x7
  extract_lets +onlyGivenNames x8
  have h8 : s0.Keeps F x8 := by
    unfold x8
    refine State.Keeps.congr (s := x3) (D := [.shared]) (hF.le rfl) ?_ rfl rfl rfl rfl (by rintro ⟨⟩ <;> (first | exact .inr rfl | simp))
    exact h3
  clear_value x8
  extract_lets +onlyGivenNames x9
  have h9 : s0.Keeps F x9 := by
    unfold x9
    apply forAll_keeps
    · intro v10 v11 h12
      apply State.loseLine_keeps (hF.le rfl)
      exact h12
    · exact h8
  clear_value x9
  extract_lets +onlyGivenNames x13
  have h13 : s0.Keeps F x13 := by
    unfold x13
    apply forAll_keeps
    · intro v14 v15 h16
      apply forAll_keeps
      · intro v17 v18 h19
        split
        · apply State.dropExtent_keeps (hF.le rfl)
          exact h19
        · exact h19
      · exact h16
    · exact h9
  clear_value x13
  apply State.notice_keeps (hF.le rfl)
  exact h13

theorem State.rejoin_keeps {s0 s : State} {F : List Part} (hF : Within [.dict, .shared] F) {n h : Nat} (h_s : s0.Keeps F s) :
    s0.Keeps F (State.rejoin s n h) := by
  unfold State.rejoin
  split
  · exact h_s
  · extract_lets +onlyGivenNames x3
    have h3 : s0.Keeps F x3 := by
      unfold x3
      apply State.setPar_keeps (hF.le rfl)
      exact h_s
    clear_value x3
    split
    · apply State.leaseFull_keeps (hF.le rfl)
      exact h3
    · exact h3

theorem State.shareDrop_keeps {s0 s : State} {F : List Part} (hF : Within [.dict, .hbm, .t0, .mem, .arb, .out, .freeCtr, .fac, .jobs, .shared, .ports, .svc, .reg, .stackTab, .media, .recov, .power, .glody] F) {cause : Nat} (h_s : s0.Keeps F s) :
    s0.Keeps F (State.shareDrop s cause) := by
  unfold State.shareDrop
  extract_lets +onlyGivenNames x1
  have h1 : s0.Keeps F x1 := by
    unfold x1
    apply forAll_keeps
    · intro v2 v3 h4
      extract_lets +onlyGivenNames x5
      clear_value x5
      extract_lets +onlyGivenNames x6
      have h6 : s0.Keeps F x6 := by
        unfold x6
        apply forAll_keeps
        · intro v7 v8 h9
          apply State.loseLine_keeps (hF.le rfl)
          exact h9
        · exact h4
      clear_value x6
      apply State.withRefs_keeps (hF.le rfl)
      · exact h6
      · intro v10 h11
        apply forAll_keeps
        · intro v12 v13 h14
          apply State.dropOpen_keeps (hF.le rfl)
          exact h14
        · exact h11
    · exact h_s
  clear_value x1
  refine State.Keeps.congr (s := x1) (D := [.shared]) (hF.le rfl) ?_ rfl rfl rfl rfl (by rintro ⟨⟩ <;> (first | exact .inr rfl | simp))
  exact h1

theorem State.srCommit_keeps {s0 s : State} {F : List Part} (hF : Within [.dict, .hbm, .mem, .arb, .out, .freeCtr, .fac, .jobs, .shared, .ports, .svc, .reg, .stackTab, .media, .recov, .power, .glody] F) {n : Nat} (h_s : s0.Keeps F s) :
    s0.Keeps F (State.srCommit s n) := by
  unfold State.srCommit
  extract_lets +onlyGivenNames x1
  clear_value x1
  extract_lets +onlyGivenNames x2
  have h2 : s0.Keeps F x2 := by
    unfold x2
    apply State.setPar_keeps (hF.le rfl)
    exact h_s
  clear_value x2
  split
  · exact h2
  · extract_lets +onlyGivenNames x5
    clear_value x5
    extract_lets +onlyGivenNames x6
    have h6 : s0.Keeps F x6 := by
      unfold x6
      apply State.modSr_keeps (hF.le rfl)
      exact h2
    clear_value x6
    extract_lets +onlyGivenNames x7
    have h7 : s0.Keeps F x7 := by
      unfold x7
      apply forAll_keeps
      · intro v8 v9 h10
        apply State.setPar_keeps (hF.le rfl)
        exact h10
      · exact h6
    clear_value x7
    split
    · apply State.withRefs_keeps (hF.le rfl)
      · exact h7
      · intro v12 h13
        split
        apply State.setPar_keeps (hF.le rfl)
        apply State.modSr_keeps (hF.le rfl)
        refine Snd.of_eq ?_ (by assumption)
        apply State.takeVersion_keeps (hF.le rfl)
        exact h13
    · apply State.setPar_keeps (hF.le rfl)
      apply State.setPar_keeps (hF.le rfl)
      exact h7

theorem State.srRelease_keeps {s0 s : State} {F : List Part} (hF : Within [.dict, .mem, .out, .shared, .svc, .glody] F) {n : Nat} (h_s : s0.Keeps F s) :
    s0.Keeps F (State.srRelease s n) := by
  unfold State.srRelease
  extract_lets +onlyGivenNames x1 x2
  clear_value x1 x2
  split
  · apply State.setPar_keeps (hF.le rfl)
    exact h_s
  · extract_lets +onlyGivenNames x5 x6 x7
    clear_value x5 x6 x7
    extract_lets +onlyGivenNames x8
    have h8 : s0.Keeps F x8 := by
      unfold x8
      refine State.Keeps.congr (s := s) (D := [.shared]) (hF.le rfl) ?_ rfl rfl rfl rfl (by rintro ⟨⟩ <;> (first | exact .inr rfl | simp))
      exact h_s
    clear_value x8
    extract_lets +onlyGivenNames x9
    have h9 : s0.Keeps F x9 := by
      unfold x9
      apply forAll_keeps
      · intro v10 v11 h12
        apply State.release_keeps (hF.le rfl)
        exact h12
      · exact h8
    clear_value x9
    extract_lets +onlyGivenNames x13
    have h13 : s0.Keeps F x13 := by
      unfold x13
      apply State.uncount_keeps (hF.le rfl)
      apply State.uncount_keeps (hF.le rfl)
      apply State.uncount_keeps (hF.le rfl)
      exact h9
    clear_value x13
    extract_lets +onlyGivenNames x14
    have h14 : s0.Keeps F x14 := by
      unfold x14
      apply State.count_keeps (hF.le rfl)
      exact h13
    clear_value x14
    apply State.setPar_keeps (hF.le rfl)
    apply State.setPar_keeps (hF.le rfl)
    apply State.setPar_keeps (hF.le rfl)
    exact h14

theorem execSrCommit_keeps {s0 : State} {F : List Part} (hF : Within [.dict, .hbm, .mem, .arb, .out, .freeCtr, .fac, .jobs, .shared, .ports, .svc, .reg, .stackTab, .media, .recov, .power, .glody] F) {region : Fin 256} {s : State} (h_s : s0.Keeps F s) :
    (Nxt (s0.Keeps F)) (execSrCommit region s) := by
  unfold execSrCommit
  apply Nxt.next
  apply State.barWrite_keeps (hF.le rfl)
  · exact h_s
  · intro v1 h2
    apply State.srCommit_keeps (hF.le rfl)
    exact h2

theorem execSrRelease_keeps {s0 : State} {F : List Part} (hF : Within [.dict, .mem, .out, .freeCtr, .shared, .svc, .glody] F) {region : Fin 256} {s : State} (h_s : s0.Keeps F s) :
    (Nxt (s0.Keeps F)) (execSrRelease region s) := by
  unfold execSrRelease
  apply Nxt.next
  apply State.barWrite_keeps (hF.le rfl)
  · exact h_s
  · intro v1 h2
    apply State.srRelease_keeps (hF.le rfl)
    exact h2

theorem State.versionReset_keeps {s0 s : State} {F : List Part} (hF : Within [.dict, .shared] F) (h_s : s0.Keeps F s) :
    s0.Keeps F (State.versionReset s) := by
  unfold State.versionReset
  extract_lets +onlyGivenNames x1
  have h1 : s0.Keeps F x1 := by
    unfold x1
    apply State.setPar_keeps (hF.le rfl)
    exact h_s
  clear_value x1
  refine State.Keeps.congr (s := x1) (D := [.shared]) (hF.le rfl) ?_ rfl rfl rfl rfl (by rintro ⟨⟩ <;> (first | exact .inr rfl | simp))
  exact h1

theorem execShareVersionReset_keeps {s0 s : State} {F : List Part} (hF : Within [.dict, .out, .freeCtr, .shared, .svc] F) (h_s : s0.Keeps F s) :
    (Nxt (s0.Keeps F)) (execShareVersionReset s) := by
  unfold execShareVersionReset
  apply Nxt.next
  apply State.barWrite_keeps (hF.le rfl)
  · exact h_s
  · intro v1 h2
    apply State.versionReset_keeps (hF.le rfl)
    exact h2

theorem State.leaseEnable_keeps {s0 s : State} {F : List Part} (hF : Within [.dict, .shared] F) {n v : Nat} (h_s : s0.Keeps F s) :
    s0.Keeps F (State.leaseEnable s n v) := by
  unfold State.leaseEnable
  extract_lets +onlyGivenNames x1
  clear_value x1
  extract_lets +onlyGivenNames x2
  have h2 : s0.Keeps F x2 := by
    unfold x2
    apply State.setPar_keeps (hF.le rfl)
    exact h_s
  clear_value x2
  split
  · apply State.modSr_keeps (hF.le rfl)
    exact h2
  · split
    · exact h2
    · extract_lets +onlyGivenNames x7
      clear_value x7
      apply forAll_keeps
      · intro v8 v9 h10
        apply State.leaseFull_keeps (hF.le rfl)
        exact h10
      · exact h2

theorem execLeaseEnableWrite_keeps {s0 : State} {F : List Part} (hF : Within [.dict, .out, .freeCtr, .shared, .svc] F) {region : Fin 256} {value : Nat} {s : State} (h_s : s0.Keeps F s) :
    (Nxt (s0.Keeps F)) (execLeaseEnableWrite region value s) := by
  unfold execLeaseEnableWrite
  apply Nxt.next
  apply State.barWrite_keeps (hF.le rfl)
  · exact h_s
  · intro v1 h2
    apply State.leaseEnable_keeps (hF.le rfl)
    exact h2

theorem State.vrefFail_keeps {s0 s : State} {F : List Part} (hF : Within [.dict, .out, .svc, .recov, .glody] F) (h_s : s0.Keeps F s) :
    s0.Keeps F (State.vrefFail s) := by
  unfold State.vrefFail
  apply State.auditFail_keeps (hF.le rfl)
  apply State.count_keeps (hF.le rfl)
  exact h_s

theorem execVersionTableWalkPass_keeps {s0 s : State} {F : List Part} (hF : Within [.dict, .out, .svc, .recov, .glody] F) (h_s : s0.Keeps F s) :
    (Nxt (s0.Keeps F)) (execVersionTableWalkPass s) := by
  unfold execVersionTableWalkPass
  apply Nxt.next
  split
  · apply State.count_keeps (hF.le rfl)
    exact h_s
  · apply State.vrefFail_keeps (hF.le rfl)
    exact h_s

end Sys2Proof.Machine
end

