-- ==== Sys2Proof/Laws/KeepsMem.lean ====
section
/-! SUPPORT. Every effect of Machine/Mem.lean leaves the queue alone, keeps the canonical form and writes only the parts named. -/
namespace Sys2Proof.Machine

theorem State.accessFail_keeps {s0 s : State} {F : List Part} (hF : Within [.dict, .out, .own, .ports, .glody] F) {r : HeldReq} {reason : Nat} (h_s : s0.Keeps F s) :
    s0.Keeps F (State.accessFail s r reason) := by
  unfold State.accessFail
  extract_lets +onlyGivenNames x1
  clear_value x1
  extract_lets +onlyGivenNames x2
  have h2 : s0.Keeps F x2 := by
    unfold x2
    apply State.setPar_keeps (hF.le rfl)
    apply State.count_keeps (hF.le rfl)
    exact h_s
  clear_value x2
  extract_lets +onlyGivenNames x3 x4
  clear_value x3 x4
  extract_lets +onlyGivenNames x5
  have h5 : s0.Keeps F x5 := by
    unfold x5
    split
    · apply State.notice_keeps (hF.le rfl)
      refine State.Keeps.congr (s := x2) (D := [.own]) (hF.le rfl) ?_ rfl rfl rfl rfl (by rintro ⟨⟩ <;> (first | exact .inr rfl | simp))
      exact h2
    · exact h2
  clear_value x5
  apply State.reply_keeps (hF.le rfl)
  exact h5

theorem State.t0Put_keeps {s0 s : State} {F : List Part} (hF : Within [.mem] F) {b : Nat} (h_s : s0.Keeps F s) :
    s0.Keeps F (State.t0Put s b) := by
  unfold State.t0Put
  extract_lets +onlyGivenNames x1 x2
  clear_value x1 x2
  split
  · exact h_s
  · extract_lets +onlyGivenNames x5
    have h5 : s0.Keeps F x5 := by
      unfold x5
      split
      · exact h_s
      · split
        · refine State.modMem_keeps (hF.le rfl) ?_ (fun _ => rfl) (fun _ => rfl)
          exact h_s
        · exact h_s
    clear_value x5
    refine State.modMem_keeps (hF.le rfl) ?_ (fun _ => rfl) (fun _ => rfl)
    exact h5

theorem State.access_keeps {s0 s : State} {F : List Part} (hF : Within [.dict, .mem, .power] F) {w dpa : Nat} (h_s : s0.Keeps F s) :
    s0.Keeps F (State.access s w dpa) := by
  unfold State.access
  extract_lets +onlyGivenNames x1 x2
  clear_value x1 x2
  extract_lets +onlyGivenNames x3
  have h3 : s0.Keeps F x3 := by
    unfold x3
    apply State.busy_keeps (hF.le rfl)
    refine State.modMem_keeps (hF.le rfl) ?_ (fun _ => rfl) (fun _ => rfl)
    exact h_s
  clear_value x3
  split
  · exact h3
  · extract_lets +onlyGivenNames x6 x7 x8
    clear_value x6 x7 x8
    extract_lets +onlyGivenNames x9
    have h9 : s0.Keeps F x9 := by
      unfold x9
      split
      · split
        · refine State.modMem_keeps (hF.le rfl) ?_ (fun _ => rfl) (fun _ => rfl)
          exact h3
        · apply State.count_keeps (hF.le rfl)
          exact h3
      · exact h3
    clear_value x9
    split
    · apply State.t0Put_keeps (hF.le rfl)
      exact h9
    · exact h9

theorem State.hubWait_keeps {s0 s : State} {F : List Part} (hF : Within [.recov] F) {r : HeldReq} (h_s : s0.Keeps F s) :
    s0.Keeps F (State.hubWait s r) := by
  unfold State.hubWait
  refine State.Keeps.congr (s := s) (D := [.recov]) (hF.le rfl) ?_ rfl rfl rfl rfl (by rintro ⟨⟩ <;> (first | exact .inr rfl | simp))
  exact h_s

theorem State.detourRead_keeps {s0 s : State} {F : List Part} (hF : Within [.mem, .svc] F) {r : HeldReq} {slot : Nat} (h_s : s0.Keeps F s) :
    s0.Keeps F (State.detourRead s r slot) := by
  unfold State.detourRead
  extract_lets +onlyGivenNames x1
  clear_value x1
  refine State.modMem_keeps (hF.le rfl) ?_ (fun _ => rfl) (fun _ => rfl)
  apply State.svcPut_keeps (hF.le rfl)
  exact h_s

theorem State.serveStored_keeps {s0 s : State} {F : List Part} (hF : Within [.dict, .hbm, .mem, .arb, .out, .freeCtr, .fac, .jobs, .shared, .ports, .svc, .reg, .stackTab, .media, .recov, .power, .glody] F) {r : HeldReq} {v : View} {b wb : Nat} {ph : Phys} (h_s : s0.Keeps F s) :
    s0.Keeps F (State.serveStored s r v b wb ph) := by
  unfold State.serveStored
  split
  extract_lets +onlyGivenNames x5
  clear_value x5
  split
  · split
    · apply State.reply_keeps (hF.le rfl)
      refine Snd.of_eq ?_ (by assumption)
      apply State.readEntry_keeps (hF.le rfl)
      exact h_s
    · apply State.detourRead_keeps (hF.le rfl)
      refine Snd.of_eq ?_ (by assumption)
      apply State.readEntry_keeps (hF.le rfl)
      exact h_s
  · split
    apply State.reply_keeps (hF.le rfl)
    refine Snd.of_eq ?_ (by assumption)
    apply State.readLineAt_keeps (hF.le rfl)
    refine Snd.of_eq ?_ (by assumption)
    apply State.readEntry_keeps (hF.le rfl)
    exact h_s

theorem State.servePart_keeps {s0 s : State} {F : List Part} (hF : Within [.dict, .hbm, .mem, .arb, .out, .freeCtr, .fac, .jobs, .shared, .ports, .svc, .reg, .stackTab, .media, .recov, .power, .glody] F) {r : HeldReq} {v : View} {key : Nat} {ph : Phys} (h_s : s0.Keeps F s) :
    s0.Keeps F (State.servePart s r v key ph) := by
  unfold State.servePart
  extract_lets +onlyGivenNames x1
  clear_value x1
  split
  · apply State.reply_keeps (hF.le rfl)
    exact h_s
  · split
    · apply State.reply_keeps (hF.le rfl)
      exact h_s
    · split
      · apply State.hubWait_keeps (hF.le rfl)
        exact h_s
      · split
        apply State.reply_keeps (hF.le rfl)
        refine Snd.of_eq ?_ (by assumption)
        apply State.readLine_keeps (hF.le rfl)
        exact h_s

theorem State.serveFactor_keeps {s0 s : State} {F : List Part} (hF : Within [.dict, .hbm, .mem, .arb, .out, .freeCtr, .fac, .jobs, .shared, .ports, .svc, .reg, .stackTab, .media, .recov, .power, .glody] F) {r : HeldReq} {v : View} {w i : Nat} {ph : Phys} (h_s : s0.Keeps F s) :
    s0.Keeps F (State.serveFactor s r v w i ph) := by
  unfold State.serveFactor
  extract_lets +onlyGivenNames x1 x2 x3 x4 x5 x6 x7 x8 x9
  clear_value x1 x2 x3 x4 x5 x6 x7 x8 x9
  split
  · apply State.reply_keeps (hF.le rfl)
    apply State.delivered_keeps (hF.le rfl)
    exact h_s
  · split
    · apply State.pipePush_keeps (hF.le rfl)
      exact h_s
    · split
      · split
        · split
          · apply State.pipePush_keeps (hF.le rfl)
            refine Snd.of_eq ?_ (by assumption)
            apply State.stagedBuilt_keeps (hF.le rfl)
            exact h_s
          · apply State.reply_keeps (hF.le rfl)
            apply State.delivered_keeps (hF.le rfl)
            refine Snd.of_eq ?_ (by assumption)
            apply State.stagedBuilt_keeps (hF.le rfl)
            exact h_s
        · apply State.pipePush_keeps (hF.le rfl)
          refine Snd.of_eq ?_ (by assumption)
          apply State.stagedBuilt_keeps (hF.le rfl)
          exact h_s
      · split
        · apply State.count_keeps (hF.le rfl)
          apply State.modFac_keeps (hF.le rfl)
          exact h_s
        · apply State.pipePush_keeps (hF.le rfl)
          exact h_s

theorem State.serveRead_keeps {s0 s : State} {F : List Part} (hF : Within [.dict, .hbm, .mem, .arb, .out, .freeCtr, .fac, .jobs, .shared, .ports, .svc, .reg, .stackTab, .media, .recov, .power, .glody] F) {r : HeldReq} {v : View} {w : Nat} {ph : Phys} (h_s : s0.Keeps F s) :
    s0.Keeps F (State.serveRead s r v w ph) := by
  unfold State.serveRead
  extract_lets +onlyGivenNames x1 x2 x3
  clear_value x1 x2 x3
  split
  · apply State.reply_keeps (hF.le rfl)
    exact h_s
  · split
    · apply State.reply_keeps (hF.le rfl)
      apply State.count_keeps (hF.le rfl)
      exact h_s
    · split
      · split
        extract_lets +onlyGivenNames x13 x14
        clear_value x13 x14
        split
        · apply State.reply_keeps (hF.le rfl)
          exact h_s
        · split
          · apply State.serveFactor_keeps (hF.le rfl)
            exact h_s
          · apply State.serveStored_keeps (hF.le rfl)
            exact h_s
        · split
          · apply State.reply_keeps (hF.le rfl)
            exact h_s
          · split
            · apply State.serveStored_keeps (hF.le rfl)
              exact h_s
            · apply State.reply_keeps (hF.le rfl)
              exact h_s
        · apply State.serveStored_keeps (hF.le rfl)
          exact h_s
      · split
        · apply State.reply_keeps (hF.le rfl)
          exact h_s
        · apply State.servePart_keeps (hF.le rfl)
          exact h_s
        · extract_lets +onlyGivenNames x36
          clear_value x36
          apply State.serveStored_keeps (hF.le rfl)
          exact h_s

theorem State.poisonSeen_keeps {s0 s : State} {F : List Part} (hF : Within [.out, .ports] F) {r : HeldReq} (h_s : s0.Keeps F s) :
    s0.Keeps F (State.poisonSeen s r) := by
  unfold State.poisonSeen
  split
  · apply State.event_keeps (hF.le rfl)
    exact h_s
  · exact h_s

theorem State.facDrop_keeps {s0 s : State} {F : List Part} (hF : Within [.dict, .out, .ports] F) {r : HeldReq} (h_s : s0.Keeps F s) :
    s0.Keeps F (State.facDrop s r) := by
  unfold State.facDrop
  apply State.reply_keeps (hF.le rfl)
  apply State.count_keeps (hF.le rfl)
  exact h_s

theorem State.serveWrite_keeps {s0 s : State} {F : List Part} (hF : Within [.dict, .hbm, .t0, .mem, .arb, .out, .freeCtr, .fac, .jobs, .reds, .shared, .queues, .ports, .svc, .reg, .stackTab, .media, .recov, .power, .glody] F) {r : HeldReq} {v : View} {w : Nat} (h_s : s0.Keeps F s) :
    s0.Keeps F (State.serveWrite s r v w) := by
  unfold State.serveWrite
  extract_lets +onlyGivenNames x1 x2 x3 x4
  clear_value x1 x2 x3 x4
  extract_lets +onlyGivenNames x5
  have h5 : ∀ a0, s0.Keeps F a0 → s0.Keeps F (x5 a0) := by
    unfold x5
    intro v6 h7
    split
    · apply State.hostTouch_keeps (hF.le rfl)
      exact h7
    · exact h7
  clear_value x5
  split
  · apply State.gradWrite_keeps (hF.le rfl)
    apply State.poisonSeen_keeps (hF.le rfl)
    exact h_s
  · split
    · apply State.reply_keeps (hF.le rfl)
      apply State.writeT0_keeps (hF.le rfl)
      apply State.poisonSeen_keeps (hF.le rfl)
      exact h_s
    · split
      · extract_lets +onlyGivenNames x15
        clear_value x15
        apply State.reply_keeps (hF.le rfl)
        apply State.event_keeps (hF.le rfl)
        exact h_s
      · split
        · split
          split
          · split
            · apply State.reply_keeps (hF.le rfl)
              apply State.gatherLine_keeps (hF.le rfl)
              apply h5
              apply State.invalidate_keeps (hF.le rfl)
              apply State.poisonSeen_keeps (hF.le rfl)
              exact h_s
            · apply State.facDrop_keeps (hF.le rfl)
              exact h_s
          · split
            · apply State.facDrop_keeps (hF.le rfl)
              exact h_s
            · extract_lets +onlyGivenNames x28
              clear_value x28
              apply State.count_keeps (hF.le rfl)
              apply State.modFac_keeps (hF.le rfl)
              apply State.poisonSeen_keeps (hF.le rfl)
              exact h_s
        · apply State.reply_keeps (hF.le rfl)
          apply State.gatherLine_keeps (hF.le rfl)
          apply h5
          apply State.poisonSeen_keeps (hF.le rfl)
          exact h_s

theorem State.stray_keeps {s0 s : State} {F : List Part} (hF : Within [.dict, .out, .ports, .glody] F) {r : HeldReq} (h_s : s0.Keeps F s) :
    s0.Keeps F (State.stray s r) := by
  unfold State.stray
  extract_lets +onlyGivenNames x1
  clear_value x1
  extract_lets +onlyGivenNames x2
  have h2 : s0.Keeps F x2 := by
    unfold x2
    apply State.event_keeps (hF.le rfl)
    apply State.count_keeps (hF.le rfl)
    exact h_s
  clear_value x2
  apply State.reply_keeps (hF.le rfl)
  apply State.notice_keeps (hF.le rfl)
  exact h2

theorem State.atHub_keeps {s0 s : State} {F : List Part} (hF : Within [.dict, .hbm, .t0, .mem, .arb, .out, .freeCtr, .fac, .jobs, .reds, .shared, .queues, .ports, .svc, .reg, .stackTab, .media, .recov, .power, .glody] F) {r : HeldReq} {v : View} {w : Nat} {ph : Phys} (h_s : s0.Keeps F s) :
    s0.Keeps F (State.atHub s r v w ph) := by
  unfold State.atHub
  extract_lets +onlyGivenNames x1 x2 x3
  clear_value x1 x2 x3
  split
  · extract_lets +onlyGivenNames x5
    have h5 : s0.Keeps F x5 := by
      unfold x5
      split
      · apply State.wakeRegion_keeps (hF.le rfl)
        apply State.hubWait_keeps (hF.le rfl)
        exact h_s
      · apply State.hubWait_keeps (hF.le rfl)
        exact h_s
    clear_value x5
    split
    · apply State.syncReq_keeps (hF.le rfl)
      exact h5
    · exact h5
  · extract_lets +onlyGivenNames x11
    have h11 : s0.Keeps F x11 := by
      unfold x11
      apply State.hubGrant_keeps (hF.le rfl)
      exact h_s
    clear_value x11
    split
    · split
      · apply State.serveWrite_keeps (hF.le rfl)
        exact h11
      · apply State.serveRead_keeps (hF.le rfl)
        exact h11
    · split
      · split
        · apply State.cohWriteback_keeps (hF.le rfl)
          apply State.serveWrite_keeps (hF.le rfl)
          exact h11
        · apply State.stray_keeps (hF.le rfl)
          exact h11
      · extract_lets +onlyGivenNames x23
        clear_value x23
        split
        extract_lets +onlyGivenNames x28
        clear_value x28
        split
        · extract_lets +onlyGivenNames x30
          have h30 : s0.Keeps F x30 := by
            unfold x30
            apply forAll_keeps
            · intro v31 v32 h33
              apply State.snoop_keeps (hF.le rfl)
              exact h33
            · exact h11
          clear_value x30
          refine State.Keeps.congr (s := x30) (D := [.shared]) (hF.le rfl) ?_ rfl rfl rfl rfl (by rintro ⟨⟩ <;> (first | exact .inr rfl | simp))
          exact h30
        · split
          · extract_lets +onlyGivenNames x36
            have h36 : s0.Keeps F x36 := by
              unfold x36
              split
              · apply State.snoopAll_keeps (hF.le rfl)
                exact h11
              · exact h11
            clear_value x36
            refine State.Keeps.congr (s := x36) (D := [.shared]) (hF.le rfl) ?_ rfl rfl rfl rfl (by rintro ⟨⟩ <;> (first | exact .inr rfl | simp))
            exact h36
          · apply State.serveRead_keeps (hF.le rfl)
            apply State.cohGrant_keeps (hF.le rfl)
            exact h11

theorem State.accepted_keeps {s0 s : State} {F : List Part} (hF : Within [.dict, .mem, .shared, .power] F) {r : HeldReq} {w : Nat} (h_s : s0.Keeps F s) :
    s0.Keeps F (State.accepted s r w) := by
  unfold State.accepted
  extract_lets +onlyGivenNames x1
  have h1 : s0.Keeps F x1 := by
    unfold x1
    split
    · apply State.leaseTouch_keeps (hF.le rfl)
      exact h_s
    · exact h_s
  clear_value x1
  apply State.abandonS2_keeps (hF.le rfl)
  apply State.access_keeps (hF.le rfl)
  exact h1

theorem State.letIn_keeps {s0 s : State} {F : List Part} (hF : Within [.dict, .hbm, .t0, .mem, .arb, .out, .freeCtr, .own, .fac, .jobs, .reds, .shared, .queues, .ports, .svc, .reg, .stackTab, .media, .recov, .power, .glody] F) {r : HeldReq} {ph : Phys} (h_s : s0.Keeps F s) :
    s0.Keeps F (State.letIn s r ph) := by
  unfold State.letIn
  split
  · apply State.accessFail_keeps (hF.le rfl)
    exact h_s
  · apply State.atHub_keeps (hF.le rfl)
    apply State.accepted_keeps (hF.le rfl)
    exact h_s

theorem State.again_keeps {s0 s : State} {F : List Part} (hF : Within [.dict, .hbm, .t0, .mem, .arb, .out, .freeCtr, .own, .fac, .jobs, .reds, .shared, .queues, .ports, .svc, .reg, .stackTab, .media, .recov, .power, .glody] F) {r : HeldReq} {ph : Phys} (h_s : s0.Keeps F s) :
    s0.Keeps F (State.again s r ph) := by
  unfold State.again
  split
  · apply State.atHub_keeps (hF.le rfl)
    exact h_s
  · apply State.accessFail_keeps (hF.le rfl)
    exact h_s
  · apply State.accessFail_keeps (hF.le rfl)
    exact h_s

theorem State.serveHeld_keeps {s0 : State} {F : List Part} (hF : Within [.dict, .hbm, .t0, .mem, .arb, .out, .freeCtr, .own, .fac, .jobs, .reds, .shared, .queues, .ports, .svc, .reg, .stackTab, .media, .recov, .power, .glody] F) {ph : Phys} {x0 : Nat} {x1 : List HeldReq} {x2 : State} (h_x2 : s0.Keeps F x2) :
    s0.Keeps F (State.serveHeld ph x0 x1 x2) := by
  induction x0 generalizing ph x1 x2 with
  | zero =>
    unfold State.serveHeld
    refine State.Keeps.congr (s := x2) (D := [.recov]) (hF.le rfl) ?_ rfl rfl rfl rfl (by rintro ⟨⟩ <;> (first | exact .inr rfl | simp))
    exact h_x2
  | succ m ih =>
    unfold State.serveHeld
    split
    · apply ih
      apply State.again_keeps (hF.le rfl)
      exact h_x2
    · refine State.Keeps.congr (s := x2) (D := [.recov]) (hF.le rfl) ?_ rfl rfl rfl rfl (by rintro ⟨⟩ <;> (first | exact .inr rfl | simp))
      exact h_x2

theorem State.retryHub_keeps {s0 s : State} {F : List Part} (hF : Within [.dict, .hbm, .t0, .mem, .arb, .out, .freeCtr, .own, .fac, .jobs, .reds, .shared, .queues, .ports, .svc, .reg, .stackTab, .media, .recov, .power, .glody] F) {ph : Phys} (h_s : s0.Keeps F s) :
    s0.Keeps F (State.retryHub s ph) := by
  unfold State.retryHub
  apply State.serveHeld_keeps (hF.le rfl)
  refine State.Keeps.congr (s := s) (D := [.recov]) (hF.le rfl) ?_ rfl rfl rfl rfl (by rintro ⟨⟩ <;> (first | exact .inr rfl | simp))
  exact h_s

theorem State.retryCoh_keeps {s0 s : State} {F : List Part} (hF : Within [.dict, .hbm, .t0, .mem, .arb, .out, .freeCtr, .own, .fac, .jobs, .reds, .shared, .queues, .ports, .svc, .reg, .stackTab, .media, .recov, .power, .glody] F) {ph : Phys} (h_s : s0.Keeps F s) :
    s0.Keeps F (State.retryCoh s ph) := by
  unfold State.retryCoh
  extract_lets +onlyGivenNames x1
  clear_value x1
  apply forAll_keeps
  · intro v2 v3 h4
    apply State.again_keeps (hF.le rfl)
    exact h4
  · refine State.Keeps.congr (s := s) (D := [.shared]) (hF.le rfl) ?_ rfl rfl rfl rfl (by rintro ⟨⟩ <;> (first | exact .inr rfl | simp))
    exact h_s

theorem State.gateSpend_keeps {s0 s : State} {F : List Part} (hF : Within [.dict, .reg] F) {r : HeldReq} (h_s : s0.Keeps F s) :
    s0.Keeps F (State.gateSpend s r) := by
  unfold State.gateSpend
  extract_lets +onlyGivenNames x1
  clear_value x1
  extract_lets +onlyGivenNames x2
  have h2 : s0.Keeps F x2 := by
    unfold x2
    apply State.spend_keeps (hF.le rfl)
    exact h_s
  clear_value x2
  split
  · apply State.count_keeps (hF.le rfl)
    exact h2
  · exact h2

theorem State.gatePass_keeps {s0 s : State} {F : List Part} (hF : Within [.dict, .hbm, .t0, .mem, .arb, .out, .freeCtr, .own, .fac, .jobs, .reds, .shared, .queues, .ports, .svc, .reg, .stackTab, .media, .recov, .power, .glody] F) {r : HeldReq} {ph : Phys} (h_s : s0.Keeps F s) :
    s0.Keeps F (State.gatePass s r ph) := by
  unfold State.gatePass
  extract_lets +onlyGivenNames x1
  have h1 : s0.Keeps F x1 := by
    unfold x1
    apply State.letIn_keeps (hF.le rfl)
    apply State.gateSpend_keeps (hF.le rfl)
    exact h_s
  clear_value x1
  split
  · apply State.retryHub_keeps (hF.le rfl)
    exact h1
  · exact h1

theorem State.portRefuses_keeps {s0 s : State} {F : List Part} (hF : Within [.dict, .out, .own, .ports, .glody] F) {r : HeldReq} (h_s : s0.Keeps F s) :
    (Opt (s0.Keeps F)) (State.portRefuses s r) := by
  unfold State.portRefuses
  split
  · apply Opt.some
    apply State.accessFail_keeps (hF.le rfl)
    apply State.count_keeps (hF.le rfl)
    exact h_s
  · split
    · apply Opt.some
      apply State.reply_keeps (hF.le rfl)
      exact h_s
    · apply Opt.none

theorem State.backWith_keeps {s0 s : State} {F : List Part} (hF : Within [.dict, .hbm, .t0, .mem, .arb, .out, .freeCtr, .own, .fac, .jobs, .reds, .shared, .queues, .ports, .svc, .reg, .stackTab, .media, .recov, .power, .glody] F) {k : Nat} {ph : Phys} (h_s : s0.Keeps F s) :
    s0.Keeps F (State.backWith s k ph) := by
  unfold State.backWith
  split
  · split
    · apply State.syncReq_keeps (hF.le rfl)
      apply State.retryHub_keeps (hF.le rfl)
      apply State.creditsBack_keeps (hF.le rfl)
      exact h_s
    · apply State.creditsBack_keeps (hF.le rfl)
      exact h_s
  · exact h_s

theorem State.arrive_keeps {s0 s : State} {F : List Part} (hF : Within [.dict, .hbm, .t0, .mem, .arb, .out, .freeCtr, .own, .fac, .jobs, .reds, .shared, .queues, .ports, .svc, .reg, .stackTab, .media, .recov, .power, .glody] F) {r : HeldReq} {ph : Phys} (h_s : s0.Keeps F s) :
    s0.Keeps F (State.arrive s r ph) := by
  unfold State.arrive
  split
  · exact h_s
  · split
    · refine Opt.of_eq ?_ (by assumption)
      apply State.portRefuses_keeps (hF.le rfl)
      exact h_s
    · split
      · apply State.gatePass_keeps (hF.le rfl)
        exact h_s
      · apply State.holdAtGate_keeps (hF.le rfl)
        exact h_s

theorem State.noDpa_keeps {s0 s : State} {F : List Part} (hF : Within [.dict, .out, .own, .ports, .glody] F) {r : HeldReq} (h_s : s0.Keeps F s) :
    s0.Keeps F (State.noDpa s r) := by
  unfold State.noDpa
  split
  · exact h_s
  · split
    · refine Opt.of_eq ?_ (by assumption)
      apply State.portRefuses_keeps (hF.le rfl)
      exact h_s
    · apply State.accessFail_keeps (hF.le rfl)
      exact h_s

theorem execTollgateRelease_keeps {s0 : State} {F : List Part} (hF : Within [.dict, .hbm, .t0, .mem, .arb, .out, .freeCtr, .own, .fac, .jobs, .reds, .shared, .queues, .ports, .svc, .reg, .stackTab, .media, .recov, .power, .glody] F) {port : Fin 512} {ph : Phys} {s : State} (h_s : s0.Keeps F s) :
    (Nxt (s0.Keeps F)) (execTollgateRelease port ph s) := by
  unfold execTollgateRelease
  apply Nxt.next
  split
  · exact h_s
  · split
    · apply State.gatePass_keeps (hF.le rfl)
      apply State.syncReq_keeps (hF.le rfl)
      apply State.modMaster_keeps (hF.le rfl)
      exact h_s
    · exact h_s

theorem execGatherTimeout_keeps {s0 : State} {F : List Part} (hF : Within [.dict, .hbm, .t0, .mem, .arb, .out, .freeCtr, .own, .fac, .jobs, .reds, .shared, .queues, .ports, .svc, .reg, .stackTab, .media, .recov, .power, .glody] F) {block : Fin 1073741824} {owner : Fin 257} {env : Env} {s : State} (h_s : s0.Keeps F s) :
    (Nxt (s0.Keeps F)) (execGatherTimeout block owner env s) := by
  unfold execGatherTimeout
  extract_lets +onlyGivenNames x1
  clear_value x1
  apply Nxt.next
  split
  · split
    · apply State.retryHub_keeps (hF.le rfl)
      apply State.resolve_keeps (hF.le rfl)
      apply State.settlePack_keeps (hF.le rfl)
      exact h_s
    · exact h_s
  · exact h_s

theorem State.loseCopies_keeps {s0 s : State} {F : List Part} (hF : Within [.dict, .mem, .out, .fac, .shared, .ports, .svc, .recov, .glody] F) {w area i : Nat} (h_s : s0.Keeps F s) :
    s0.Keeps F (State.loseCopies s w area i) := by
  unfold State.loseCopies
  extract_lets +onlyGivenNames x1
  have h1 : s0.Keeps F x1 := by
    unfold x1
    apply State.invalidate_keeps (hF.le rfl)
    exact h_s
  clear_value x1
  extract_lets +onlyGivenNames x2 x3 x4
  clear_value x2 x3 x4
  apply forAll_keeps
  · intro v5 v6 h7
    apply State.snoopAll_keeps (hF.le rfl)
    exact h7
  · exact h1

theorem State.compAccept_keeps {s0 s : State} {F : List Part} (hF : Within [.dict, .hbm, .mem, .arb, .out, .freeCtr, .fac, .jobs, .shared, .queues, .ports, .svc, .reg, .stackTab, .media, .recov, .power, .glody] F) {x : CompWrite} {w : Nat} {v : View} (h_s : s0.Keeps F s) :
    s0.Keeps F (State.compAccept s x w v) := by
  unfold State.compAccept
  extract_lets +onlyGivenNames x1
  clear_value x1
  extract_lets +onlyGivenNames x2
  have h2 : s0.Keeps F x2 := by
    unfold x2
    apply State.loseCopies_keeps (hF.le rfl)
    exact h_s
  clear_value x2
  extract_lets +onlyGivenNames x3
  have h3 : s0.Keeps F x3 := by
    unfold x3
    split
    · apply State.hostTouch_keeps (hF.le rfl)
      exact h2
    · exact h2
  clear_value x3
  apply State.reply_keeps (hF.le rfl)
  apply State.gatherLine_keeps (hF.le rfl)
  exact h3

theorem execComponentInvalidate_keeps {s0 : State} {F : List Part} (hF : Within [.dict, .hbm, .t0, .mem, .arb, .out, .freeCtr, .own, .fac, .jobs, .reds, .shared, .queues, .ports, .svc, .reg, .stackTab, .media, .recov, .power, .glody] F) {ph : Phys} {s : State} (h_s : s0.Keeps F s) :
    (Nxt (s0.Keeps F)) (execComponentInvalidate ph s) := by
  unfold execComponentInvalidate
  apply Nxt.next
  split
  · exact h_s
  · extract_lets +onlyGivenNames x7
    have h7 : s0.Keeps F x7 := by
      unfold x7
      apply State.modFac_keeps (hF.le rfl)
      exact h_s
    clear_value x7
    split
    · apply State.retryHub_keeps (hF.le rfl)
      apply State.compAccept_keeps (hF.le rfl)
      exact h7
    · apply State.reply_keeps (hF.le rfl)
      exact h7

theorem State.detourDone_keeps {s0 s : State} {F : List Part} (hF : Within [.dict, .hbm, .t0, .mem, .arb, .out, .freeCtr, .own, .fac, .jobs, .reds, .shared, .queues, .ports, .svc, .reg, .stackTab, .media, .recov, .power, .glody] F) {host : HostData} (h_s : s0.Keeps F s) :
    s0.Keeps F (State.detourDone s host) := by
  unfold State.detourDone
  split
  · exact h_s
  · extract_lets +onlyGivenNames x7
    have h7 : s0.Keeps F x7 := by
      unfold x7
      apply State.linkGrant_keeps (hF.le rfl)
      apply State.devGrant_keeps (hF.le rfl)
      refine State.modMem_keeps (hF.le rfl) ?_ (fun _ => rfl) (fun _ => rfl)
      exact h_s
    clear_value x7
    extract_lets +onlyGivenNames x8 x9
    clear_value x8 x9
    split
    · apply State.retryHub_keeps (hF.le rfl)
      apply State.flushDone_keeps (hF.le rfl)
      exact h7
    · extract_lets +onlyGivenNames x12 x13
      clear_value x12 x13
      split
      · split
        · apply State.reply_keeps (hF.le rfl)
          exact h7
        · apply State.serveStored_keeps (hF.le rfl)
          exact h7
      · split
        · apply State.reply_keeps (hF.le rfl)
          apply State.count_keeps (hF.le rfl)
          exact h7
        · apply State.reply_keeps (hF.le rfl)
          apply State.detourBad_keeps (hF.le rfl)
          exact h7
        · apply State.reply_keeps (hF.le rfl)
          exact h7

theorem execDetourReadComplete_keeps {s0 : State} {F : List Part} (hF : Within [.dict, .hbm, .t0, .mem, .arb, .out, .freeCtr, .own, .fac, .jobs, .reds, .shared, .queues, .ports, .svc, .reg, .stackTab, .media, .recov, .power, .glody] F) {host : HostData} {s : State} (h_s : s0.Keeps F s) :
    (Nxt (s0.Keeps F)) (execDetourReadComplete host s) := by
  unfold execDetourReadComplete
  apply Nxt.next
  apply State.detourDone_keeps (hF.le rfl)
  exact h_s

end Sys2Proof.Machine
end

