-- ==== Sys2Proof/Laws/KeepsEngine.lean ====
section
/-! SUPPORT. Every effect of Machine/Engine.lean leaves the queue alone, keeps the canonical form and writes only the parts named. -/
namespace Sys2Proof.Machine

theorem State.modRecov_keeps {s0 s : State} {F : List Part} (hF : Within [.recov] F) {f : Recov → Recov} (h_s : s0.Keeps F s) :
    s0.Keeps F (State.modRecov s f) := by
  unfold State.modRecov
  refine State.Keeps.congr (s := s) (D := [.recov]) (hF.le rfl) ?_ rfl rfl rfl rfl (by rintro ⟨⟩ <;> (first | exact .inr rfl | simp))
  exact h_s

theorem State.modInteg_keeps {s0 s : State} {F : List Part} (hF : Within [.integ] F) {f : Integ → Integ} (h_s : s0.Keeps F s) :
    s0.Keeps F (State.modInteg s f) := by
  unfold State.modInteg
  refine State.Keeps.congr (s := s) (D := [.integ]) (hF.le rfl) ?_ rfl rfl rfl rfl (by rintro ⟨⟩ <;> (first | exact .inr rfl | simp))
  exact h_s

theorem State.saveRec_keeps {s0 s : State} {F : List Part} (hF : Within [.dict, .boot] F) {f : DevRecord → DevRecord} (h_s : s0.Keeps F s) :
    s0.Keeps F (State.saveRec s f) := by
  unfold State.saveRec
  extract_lets +onlyGivenNames x1
  clear_value x1
  extract_lets +onlyGivenNames x2
  have h2 : s0.Keeps F x2 := by
    unfold x2
    split
    · apply State.setPar_keeps (hF.le rfl)
      exact h_s
    · exact h_s
  clear_value x2
  extract_lets +onlyGivenNames x5 x6
  clear_value x5 x6
  refine State.Keeps.congr (s := x2) (D := [.boot]) (hF.le rfl) ?_ rfl rfl rfl rfl (by rintro ⟨⟩ <;> (first | exact .inr rfl | simp))
  exact h2

theorem State.setCtx_keeps {s0 s : State} {F : List Part} (hF : Within [.recov] F) {k : Nat} {c : Ctx} (h_s : s0.Keeps F s) :
    s0.Keeps F (State.setCtx s k c) := by
  unfold State.setCtx
  apply State.modRecov_keeps (hF.le rfl)
  exact h_s

theorem State.clearCtxs_keeps {s0 s : State} {F : List Part} (hF : Within [.recov] F) {h : Nat} (h_s : s0.Keeps F s) :
    s0.Keeps F (State.clearCtxs s h) := by
  unfold State.clearCtxs
  apply State.modRecov_keeps (hF.le rfl)
  exact h_s

theorem State.placeOn_keeps {s0 s : State} {F : List Part} (hF : Within [.arb, .recov, .power] F) {c : Ctx} {p : TilePlan} {x0 : List Nat} {x1 : Nat} (h_s : s0.Keeps F s) :
    (Fst (s0.Keeps F)) (State.placeOn s c p x0 x1) := by
  induction x0 generalizing s c p x1 with
  | nil =>
    unfold State.placeOn
    apply Fst.mk
    exact h_s
  | cons w l ih =>
    unfold State.placeOn
    split
    · apply ih
      exact h_s
    · split
      · apply ih
        apply State.blkGrant_keeps (hF.le rfl)
        apply State.arbGrant_keeps (hF.le rfl)
        apply State.arbGrant_keeps (hF.le rfl)
        apply State.setCtx_keeps (hF.le rfl)
        exact h_s
      · apply ih
        exact h_s

theorem State.dispatchStep_keeps {s0 s : State} {F : List Part} (hF : Within [.arb, .jobs, .recov, .power] F) {j : Nat} {x : StepRec} (h_s : s0.Keeps F s) :
    s0.Keeps F (State.dispatchStep s j x) := by
  unfold State.dispatchStep
  split
  · exact h_s
  · split
    apply State.modJob_keeps (hF.le rfl)
    refine Fst.of_eq ?_ (by assumption)
    apply State.placeOn_keeps (hF.le rfl)
    exact h_s

theorem State.dispatchFactor_keeps {s0 s : State} {F : List Part} (hF : Within [.arb, .fac, .recov, .power] F) {d : Nat} {x : FactorRun} (h_s : s0.Keeps F s) :
    s0.Keeps F (State.dispatchFactor s d x) := by
  unfold State.dispatchFactor
  split
  · exact h_s
  · extract_lets +onlyGivenNames x3
    clear_value x3
    split
    apply State.modFac_keeps (hF.le rfl)
    refine Fst.of_eq ?_ (by assumption)
    apply State.placeOn_keeps (hF.le rfl)
    exact h_s

theorem State.dispatchAll_keeps {s0 s : State} {F : List Part} (hF : Within [.arb, .fac, .jobs, .recov, .power] F) (h_s : s0.Keeps F s) :
    s0.Keeps F (State.dispatchAll s) := by
  unfold State.dispatchAll
  extract_lets +onlyGivenNames x1
  have h1 : s0.Keeps F x1 := by
    unfold x1
    apply forAll_keeps
    · intro v2 v3 h4
      apply forAll_keeps
      · intro v5 v6 h7
        apply State.dispatchStep_keeps (hF.le rfl)
        exact h7
      · exact h4
    · exact h_s
  clear_value x1
  apply forAll_keeps
  · intro v8 v9 h10
    apply State.dispatchFactor_keeps (hF.le rfl)
    exact h10
  · exact h1

theorem State.countReplay_keeps {s0 s : State} {F : List Part} (hF : Within [.dict] F) {c : Ctx} (h_s : s0.Keeps F s) :
    s0.Keeps F (State.countReplay s c) := by
  unfold State.countReplay
  split
  · apply State.count_keeps (hF.le rfl)
    apply State.count_keeps (hF.le rfl)
    exact h_s
  · exact h_s

theorem State.moveCtxs_keeps {s0 s : State} {F : List Part} (hF : Within [.dict, .recov] F) {cb : Nat} (h_s : s0.Keeps F s) :
    s0.Keeps F (State.moveCtxs s cb) := by
  unfold State.moveCtxs
  apply forAll_keeps
  · intro v1 v2 h3
    extract_lets +onlyGivenNames x4
    clear_value x4
    split
    · exact h3
    · split
      · apply State.setCtx_keeps (hF.le rfl)
        apply State.setCtx_keeps (hF.le rfl)
        apply State.countReplay_keeps (hF.le rfl)
        exact h3
      · exact h3
  · exact h_s

theorem State.setActive_keeps {s0 s : State} {F : List Part} (hF : Within [.dict] F) (h_s : s0.Keeps F s) :
    s0.Keeps F (State.setActive s) := by
  unfold State.setActive
  apply State.setPar_keeps (hF.le rfl)
  exact h_s

theorem State.modBlk_keeps {s0 s : State} {F : List Part} (hF : Within [.integ] F) {cb : Nat} {f : BlkRec → BlkRec} (h_s : s0.Keeps F s) :
    s0.Keeps F (State.modBlk s cb f) := by
  unfold State.modBlk
  apply State.modInteg_keeps (hF.le rfl)
  exact h_s

theorem State.observe_keeps {s0 s : State} {F : List Part} (hF : Within [.dict, .integ] F) {cb : Nat} (h_s : s0.Keeps F s) :
    s0.Keeps F (State.observe s cb) := by
  unfold State.observe
  extract_lets +onlyGivenNames x1
  have h1 : s0.Keeps F x1 := by
    unfold x1
    apply State.modBlk_keeps (hF.le rfl)
    exact h_s
  clear_value x1
  split
  · apply State.setPar_keeps (hF.le rfl)
    exact h1
  · exact h1

theorem State.retiredRecord_keeps {s0 s : State} {F : List Part} (hF : Within [.dict, .out, .svc, .glody] F) {cb repl : Nat} (h_s : s0.Keeps F s) :
    s0.Keeps F (State.retiredRecord s cb repl) := by
  unfold State.retiredRecord
  extract_lets +onlyGivenNames x1
  clear_value x1
  apply State.record_keeps (hF.le rfl)
  exact h_s

theorem State.movePipe_keeps {s0 s : State} {F : List Part} (hF : Within [.dict, .fac] F) {cb : Nat} (h_s : s0.Keeps F s) :
    s0.Keeps F (State.movePipe s cb) := by
  unfold State.movePipe
  apply forAll_keeps
  · intro v1 v2 h3
    apply State.pipePush_keeps (hF.le rfl)
    exact h3
  · apply State.modFac_keeps (hF.le rfl)
    exact h_s

theorem State.retireBlock_keeps {s0 s : State} {F : List Part} (hF : Within [.dict, .arb, .out, .fac, .jobs, .svc, .integ, .recov, .power, .boot, .glody] F) {cb : Nat} (h_s : s0.Keeps F s) :
    s0.Keeps F (State.retireBlock s cb) := by
  unfold State.retireBlock
  extract_lets +onlyGivenNames x1
  clear_value x1
  split
  · exact h_s
  · extract_lets +onlyGivenNames x4
    have h4 : s0.Keeps F x4 := by
      unfold x4
      apply State.setActive_keeps (hF.le rfl)
      apply State.setPar_keeps (hF.le rfl)
      exact h_s
    clear_value x4
    extract_lets +onlyGivenNames x5
    have h5 : s0.Keeps F x5 := by
      unfold x5
      apply State.movePipe_keeps (hF.le rfl)
      apply State.moveCtxs_keeps (hF.le rfl)
      apply State.saveRec_keeps (hF.le rfl)
      exact h4
    clear_value x5
    extract_lets +onlyGivenNames x6
    clear_value x6
    extract_lets +onlyGivenNames x7
    have h7 : s0.Keeps F x7 := by
      unfold x7
      split
      · apply State.modBlk_keeps (hF.le rfl)
        exact h5
      · apply State.retiredRecord_keeps (hF.le rfl)
        exact h5
    clear_value x7
    extract_lets +onlyGivenNames x10
    have h10 : s0.Keeps F x10 := by
      unfold x10
      apply State.dispatchAll_keeps (hF.le rfl)
      exact h7
    clear_value x10
    split
    · apply State.raiseOut_keeps (hF.le rfl)
      exact h10
    · exact h10

theorem State.permanent_keeps {s0 s : State} {F : List Part} (hF : Within [.dict, .arb, .out, .fac, .jobs, .svc, .integ, .recov, .power, .boot, .glody] F) {cb : Nat} (h_s : s0.Keeps F s) :
    s0.Keeps F (State.permanent s cb) := by
  unfold State.permanent
  extract_lets +onlyGivenNames x1 x2
  clear_value x1 x2
  extract_lets +onlyGivenNames x3
  have h3 : s0.Keeps F x3 := by
    unfold x3
    apply State.saveRec_keeps (hF.le rfl)
    apply State.setPar_keeps (hF.le rfl)
    exact h_s
  clear_value x3
  extract_lets +onlyGivenNames x4
  have h4 : s0.Keeps F x4 := by
    unfold x4
    apply State.observe_keeps (hF.le rfl)
    exact h3
  clear_value x4
  split
  · apply State.retireBlock_keeps (hF.le rfl)
    exact h4
  · exact h4

theorem State.replaceLane_keeps {s0 s : State} {F : List Part} (hF : Within [.dict, .arb, .out, .fac, .jobs, .svc, .integ, .recov, .power, .boot, .glody] F) {cb l : Nat} (h_s : s0.Keeps F s) :
    s0.Keeps F (State.replaceLane s cb l) := by
  unfold State.replaceLane
  extract_lets +onlyGivenNames x1
  clear_value x1
  split
  · exact h_s
  · extract_lets +onlyGivenNames x4
    clear_value x4
    extract_lets +onlyGivenNames x5
    have h5 : s0.Keeps F x5 := by
      unfold x5
      apply State.setPar_keeps (hF.le rfl)
      exact h_s
    clear_value x5
    split
    · apply State.retireBlock_keeps (hF.le rfl)
      exact h5
    · split
      · apply State.saveRec_keeps (hF.le rfl)
        exact h5
      · extract_lets +onlyGivenNames x10
        have h10 : s0.Keeps F x10 := by
          unfold x10
          apply State.setPar_keeps (hF.le rfl)
          exact h5
        clear_value x10
        extract_lets +onlyGivenNames x11
        have h11 : s0.Keeps F x11 := by
          unfold x11
          apply State.saveRec_keeps (hF.le rfl)
          exact h10
        clear_value x11
        apply State.record_keeps (hF.le rfl)
        exact h11

theorem State.laneFault_keeps {s0 s : State} {F : List Part} (hF : Within [.dict, .arb, .out, .fac, .jobs, .svc, .integ, .recov, .power, .boot, .glody] F) {cb l : Nat} (h_s : s0.Keeps F s) :
    s0.Keeps F (State.laneFault s cb l) := by
  unfold State.laneFault
  extract_lets +onlyGivenNames x1 x2
  clear_value x1 x2
  extract_lets +onlyGivenNames x3
  have h3 : s0.Keeps F x3 := by
    unfold x3
    apply State.setPar_keeps (hF.le rfl)
    exact h_s
  clear_value x3
  split
  · apply State.replaceLane_keeps (hF.le rfl)
    exact h3
  · exact h3

theorem State.hangByte_keeps {s0 s : State} {F : List Part} (hF : Within [.recov] F) {seq pos v : Nat} (h_s : s0.Keeps F s) :
    s0.Keeps F (State.hangByte s seq pos v) := by
  unfold State.hangByte
  apply State.modRecov_keeps (hF.le rfl)
  exact h_s

theorem State.hangSave_keeps {s0 s : State} {F : List Part} (hF : Within [.dict, .out, .freeCtr, .svc, .recov, .glody] F) {unit trigger n waiting : Nat} (h_s : s0.Keeps F s) :
    s0.Keeps F (State.hangSave s unit trigger n waiting) := by
  unfold State.hangSave
  extract_lets +onlyGivenNames x1 x2 x3
  clear_value x1 x2 x3
  extract_lets +onlyGivenNames x4
  have h4 : s0.Keeps F x4 := by
    unfold x4
    apply State.modRecov_keeps (hF.le rfl)
    apply State.setPar_keeps (hF.le rfl)
    exact h_s
  clear_value x4
  apply State.record_keeps (hF.le rfl)
  refine State.Keeps.congr (s := x4) (D := [.freeCtr]) (hF.le rfl) ?_ rfl rfl rfl rfl (by rintro ⟨⟩ <;> (first | exact .inr rfl | simp))
  exact h4

theorem State.diceAbandon_keeps {s0 s : State} {F : List Part} (hF : Within [.integ] F) {cb : Nat} {again : Bool} (h_s : s0.Keeps F s) :
    s0.Keeps F (State.diceAbandon s cb again) := by
  unfold State.diceAbandon
  extract_lets +onlyGivenNames x1
  clear_value x1
  extract_lets +onlyGivenNames x2
  have h2 : s0.Keeps F x2 := by
    unfold x2
    apply State.modInteg_keeps (hF.le rfl)
    exact h_s
  clear_value x2
  apply forAll_keeps
  · intro v3 v4 h5
    split
    · apply State.modBlk_keeps (hF.le rfl)
      exact h5
    · exact h5
  · exact h2

theorem State.dropPad_keeps {s0 s : State} {F : List Part} (hF : Within [.fac] F) {cb : Nat} (h_s : s0.Keeps F s) :
    s0.Keeps F (State.dropPad s cb) := by
  unfold State.dropPad
  apply State.modFac_keeps (hF.le rfl)
  exact h_s

theorem State.engStart_keeps {s0 s : State} {F : List Part} (hF : Within [.dict, .out, .freeCtr, .fac, .svc, .integ, .recov, .glody] F) {unit trigger waiting : Nat} (h_s : s0.Keeps F s) :
    s0.Keeps F (State.engStart s unit trigger waiting) := by
  unfold State.engStart
  split
  · exact h_s
  · extract_lets +onlyGivenNames x3 x4
    clear_value x3 x4
    extract_lets +onlyGivenNames x5
    have h5 : s0.Keeps F x5 := by
      unfold x5
      apply State.hangSave_keeps (hF.le rfl)
      apply State.count_keeps (hF.le rfl)
      exact h_s
    clear_value x5
    extract_lets +onlyGivenNames x6
    clear_value x6
    extract_lets +onlyGivenNames x7
    have h7 : s0.Keeps F x7 := by
      unfold x7
      apply State.modRecov_keeps (hF.le rfl)
      exact h5
    clear_value x7
    split
    · apply State.dropPad_keeps (hF.le rfl)
      apply State.diceAbandon_keeps (hF.le rfl)
      exact h7
    · exact h7

end Sys2Proof.Machine
end

