-- ==== Sys2Proof/Laws/KeepsRecon.lean ====
section
/-! SUPPORT. Every effect of Machine/Recon.lean leaves the queue alone, keeps the canonical form and writes only the parts named. -/
namespace Sys2Proof.Machine

theorem State.reconAnswer_keeps {s0 s : State} {F : List Part} (hF : Within [.dict, .hbm, .mem, .arb, .out, .freeCtr, .fac, .jobs, .shared, .ports, .svc, .reg, .stackTab, .media, .recov, .power, .glody] F) {w i cb : Nat} {env : Env} {p : PipeRead} (h_s : s0.Keeps F s) :
    s0.Keeps F (State.reconAnswer s w i cb env p) := by
  unfold State.reconAnswer
  extract_lets +onlyGivenNames x1 x2 x3
  clear_value x1 x2 x3
  extract_lets +onlyGivenNames x4
  have h4 : s0.Keeps F x4 := by
    unfold x4
    split
    · apply State.count_keeps (hF.le rfl)
      exact h_s
    · exact h_s
  clear_value x4
  split
  · apply State.reply_keeps (hF.le rfl)
    apply State.delivered_keeps (hF.le rfl)
    exact h4
  · split
    · apply State.reply_keeps (hF.le rfl)
      refine Snd.of_eq ?_ (by assumption)
      apply State.reconBlock_keeps (hF.le rfl)
      exact h4
    · extract_lets +onlyGivenNames x19
      have h19 : s0.Keeps F x19 := by
        unfold x19
        split
        · apply State.modFac_keeps (hF.le rfl)
          refine Snd.of_eq ?_ (by assumption)
          apply State.reconBlock_keeps (hF.le rfl)
          exact h4
        · refine Snd.of_eq ?_ (by assumption)
          apply State.reconBlock_keeps (hF.le rfl)
          exact h4
      clear_value x19
      apply State.reply_keeps (hF.le rfl)
      apply State.delivered_keeps (hF.le rfl)
      exact h19

theorem State.retryPipes_keeps {s0 s : State} {F : List Part} (hF : Within [.dict, .fac] F) (h_s : s0.Keeps F s) :
    s0.Keeps F (State.retryPipes s) := by
  unfold State.retryPipes
  extract_lets +onlyGivenNames x1
  clear_value x1
  apply forAll_keeps
  · intro v2 v3 h4
    apply State.pipeJoin_keeps (hF.le rfl)
    exact h4
  · apply State.modFac_keeps (hF.le rfl)
    exact h_s

theorem State.takeLine_keeps {s0 s : State} {F : List Part} (hF : Within [.fac] F) {k : Nat} (h_s : s0.Keeps F s) :
    s0.Keeps F (State.takeLine s k) := by
  unfold State.takeLine
  apply State.modFac_keeps (hF.le rfl)
  exact h_s

theorem State.passLine_keeps {s0 s : State} {F : List Part} (hF : Within [.fac] F) {k : Nat} (h_s : s0.Keeps F s) :
    s0.Keeps F (State.passLine s k) := by
  unfold State.passLine
  apply State.modFac_keeps (hF.le rfl)
  exact h_s

theorem State.passThrough_keeps {s0 s : State} {F : List Part} (hF : Within [.fac] F) {cb : Nat} (h_s : s0.Keeps F s) :
    s0.Keeps F (State.passThrough s cb) := by
  unfold State.passThrough
  extract_lets +onlyGivenNames x1
  have h1 : s0.Keeps F x1 := by
    unfold x1
    apply State.takeLine_keeps (hF.le rfl)
    apply State.takeLine_keeps (hF.le rfl)
    exact h_s
  clear_value x1
  apply State.passLine_keeps (hF.le rfl)
  apply State.takeLine_keeps (hF.le rfl)
  apply State.passLine_keeps (hF.le rfl)
  apply State.passLine_keeps (hF.le rfl)
  exact h1

theorem State.loseCredit_keeps {s0 s : State} {F : List Part} (hF : Within [.fac] F) {cb : Nat} (h_s : s0.Keeps F s) :
    s0.Keeps F (State.loseCredit s cb) := by
  unfold State.loseCredit
  apply State.modFac_keeps (hF.le rfl)
  exact h_s

theorem State.reconHead_keeps {s0 s : State} {F : List Part} (hF : Within [.dict, .hbm, .mem, .arb, .out, .freeCtr, .own, .fac, .jobs, .shared, .ports, .svc, .reg, .stackTab, .media, .recov, .power, .glody] F) {cb : Nat} {env : Env} (h_s : s0.Keeps F s) :
    s0.Keeps F (State.reconHead s cb env) := by
  unfold State.reconHead
  split
  · exact h_s
  · extract_lets +onlyGivenNames x7
    clear_value x7
    extract_lets +onlyGivenNames x8
    have h8 : s0.Keeps F x8 := by
      unfold x8
      apply State.modFac_keeps (hF.le rfl)
      exact h_s
    clear_value x8
    extract_lets +onlyGivenNames x9
    have h9 : s0.Keeps F x9 := by
      unfold x9
      split
      · apply forAll_keeps
        · intro v12 v13 h14
          apply State.accessFail_keeps (hF.le rfl)
          exact h14
        · exact h8
      · apply forAll_keeps
        · intro v18 v19 h20
          apply State.reconAnswer_keeps (hF.le rfl)
          apply State.passThrough_keeps (hF.le rfl)
          exact h20
        · apply State.blkGrant_keeps (hF.le rfl)
          apply State.arbGrant_keeps (hF.le rfl)
          exact h8
    clear_value x9
    apply State.retryPipes_keeps (hF.le rfl)
    exact h9

theorem State.reconstruct_keeps {s0 s : State} {F : List Part} (hF : Within [.dict, .hbm, .mem, .arb, .out, .freeCtr, .own, .fac, .jobs, .shared, .ports, .svc, .reg, .stackTab, .media, .integ, .recov, .power, .glody] F) {cb : Nat} {env : Env} {creditFault : Bool} (h_s : s0.Keeps F s) :
    s0.Keeps F (State.reconstruct s cb env creditFault) := by
  unfold State.reconstruct
  split
  · exact h_s
  · split
    · exact h_s
    · extract_lets +onlyGivenNames x9
      have h9 : s0.Keeps F x9 := by
        unfold x9
        split
        · apply State.loseCredit_keeps (hF.le rfl)
          exact h_s
        · exact h_s
      clear_value x9
      split
      · apply State.engStart_keeps (hF.le rfl)
        apply State.count_keeps (hF.le rfl)
        exact h9
      · apply State.reconHead_keeps (hF.le rfl)
        exact h9

theorem execFactorReconstruct_keeps {s0 : State} {F : List Part} (hF : Within [.dict, .hbm, .mem, .arb, .out, .freeCtr, .own, .fac, .jobs, .shared, .ports, .svc, .reg, .stackTab, .media, .integ, .recov, .power, .glody] F) {region : Fin 4} {block : Fin 9} {env : Env} {creditFault : Bool} {s : State} (h_s : s0.Keeps F s) :
    (Nxt (s0.Keeps F)) (execFactorReconstruct region block env creditFault s) := by
  unfold execFactorReconstruct
  apply Nxt.next
  apply State.reconstruct_keeps (hF.le rfl)
  exact h_s

theorem State.stagedRead_keeps {s0 s : State} {F : List Part} (hF : Within [.dict, .hbm, .mem, .arb, .out, .freeCtr, .fac, .jobs, .shared, .ports, .svc, .reg, .stackTab, .media, .recov, .power, .glody] F) {u w : Nat} {env : Env} {p : PipeRead} (h_s : s0.Keeps F s) :
    s0.Keeps F (State.stagedRead s u w env p) := by
  unfold State.stagedRead
  extract_lets +onlyGivenNames x1 x2
  clear_value x1 x2
  split
  · apply State.pipePush_keeps (hF.le rfl)
    exact h_s
  · split
    · apply State.pipePush_keeps (hF.le rfl)
      refine Snd.of_eq ?_ (by assumption)
      apply State.stagedBuilt_keeps (hF.le rfl)
      exact h_s
    · split
      · apply State.pipePush_keeps (hF.le rfl)
        refine Snd.of_eq ?_ (by assumption)
        apply State.stagedBuilt_keeps (hF.le rfl)
        exact h_s
      · apply State.reply_keeps (hF.le rfl)
        apply State.delivered_keeps (hF.le rfl)
        refine Snd.of_eq ?_ (by assumption)
        apply State.stagedBuilt_keeps (hF.le rfl)
        exact h_s

theorem State.wpStage_keeps {s0 s : State} {F : List Part} (hF : Within [.dict, .hbm, .mem, .arb, .out, .freeCtr, .fac, .jobs, .shared, .ports, .svc, .reg, .stackTab, .media, .recov, .power, .glody] F) {u : Nat} {env : Env} (h_s : s0.Keeps F s) :
    s0.Keeps F (State.wpStage s u env) := by
  unfold State.wpStage
  split
  · exact h_s
  · split
    · extract_lets +onlyGivenNames x9
      clear_value x9
      split
      split
      · apply State.unwait_keeps (hF.le rfl)
        refine Snd.of_eq ?_ (by assumption)
        apply State.stageTile_keeps (hF.le rfl)
        exact h_s
      · extract_lets +onlyGivenNames x16
        clear_value x16
        extract_lets +onlyGivenNames x17
        have h17 : s0.Keeps F x17 := by
          unfold x17
          apply State.modFac_keeps (hF.le rfl)
          refine Snd.of_eq ?_ (by assumption)
          apply State.stageTile_keeps (hF.le rfl)
          exact h_s
        clear_value x17
        apply forAll_keeps
        · intro v18 v19 h20
          apply State.stagedRead_keeps (hF.le rfl)
          exact h20
        · exact h17
    · exact h_s

theorem execWaypointTileStaged_keeps {s0 : State} {F : List Part} (hF : Within [.dict, .hbm, .mem, .arb, .out, .freeCtr, .fac, .jobs, .shared, .ports, .svc, .reg, .stackTab, .media, .recov, .power, .glody] F) {waypoint : Fin 512} {env : Env} {s : State} (h_s : s0.Keeps F s) :
    (Nxt (s0.Keeps F)) (execWaypointTileStaged waypoint env s) := by
  unfold execWaypointTileStaged
  apply Nxt.next
  apply State.wpStage_keeps (hF.le rfl)
  exact h_s

theorem State.winGone_keeps {s0 s : State} {F : List Part} (hF : Within [.dict, .mem, .out, .own, .jobs, .reds, .queues, .ports, .svc, .glody] F) {w : Nat} (h_s : s0.Keeps F s) :
    s0.Keeps F (State.winGone s w) := by
  unfold State.winGone
  extract_lets +onlyGivenNames x1
  clear_value x1
  extract_lets +onlyGivenNames x2
  have h2 : s0.Keeps F x2 := by
    unfold x2
    refine State.Keeps.congr (s := s) (D := [.own]) (hF.le rfl) ?_ rfl rfl rfl rfl (by rintro ⟨⟩ <;> (first | exact .inr rfl | simp))
    exact h_s
  clear_value x2
  extract_lets +onlyGivenNames x3
  clear_value x3
  extract_lets +onlyGivenNames x4
  have h4 : s0.Keeps F x4 := by
    unfold x4
    apply forAll_keeps
    · intro v5 v6 h7
      apply State.redDestLost_keeps (hF.le rfl)
      exact h7
    · apply State.winDown_keeps (hF.le rfl)
      exact h2
  clear_value x4
  apply forAll_keeps
  · intro v8 v9 h10
    extract_lets +onlyGivenNames x11 x12
    clear_value x11 x12
    split
    · apply State.haltQueue_keeps (hF.le rfl)
      exact h10
    · exact h10
  · exact h4

theorem State.winSettle_keeps {s0 s : State} {F : List Part} (hF : Within [.dict, .mem, .out, .own, .jobs, .reds, .queues, .ports, .svc, .glody] F) (h_s : s0.Keeps F s) :
    s0.Keeps F (State.winSettle s) := by
  unfold State.winSettle
  apply forAll_keeps
  · intro v1 v2 h3
    split
    · exact h3
    · apply State.winGone_keeps (hF.le rfl)
      exact h3
  · exact h_s

theorem State.markEarly_keeps {s0 s : State} {F : List Part} (hF : Within [.reg] F) {w : Nat} (h_s : s0.Keeps F s) :
    s0.Keeps F (State.markEarly s w) := by
  unfold State.markEarly
  refine State.Keeps.congr (s := s) (D := [.reg]) (hF.le rfl) ?_ rfl rfl rfl rfl (by rintro ⟨⟩ <;> (first | exact .inr rfl | simp))
  exact h_s

theorem State.winWithdraw_keeps {s0 s : State} {F : List Part} (hF : Within [.dict, .mem, .out, .own, .jobs, .reds, .queues, .ports, .svc, .reg, .glody] F) {w : Nat} (h_s : s0.Keeps F s) :
    s0.Keeps F (State.winWithdraw s w) := by
  unfold State.winWithdraw
  split
  · apply State.setPar_keeps (hF.le rfl)
    exact h_s
  · split
    · apply State.setPar_keeps (hF.le rfl)
      exact h_s
    · apply State.winSettle_keeps (hF.le rfl)
      apply State.markEarly_keeps (hF.le rfl)
      extract_lets +onlyGivenNames x5
      have h5 : s0.Keeps F x5 := by
        unfold x5
        apply State.setPar_keeps (hF.le rfl)
        exact h_s
      clear_value x5
      refine State.Keeps.congr (s := x5) (D := [.own]) (hF.le rfl) ?_ rfl rfl rfl rfl (by rintro ⟨⟩ <;> (first | exact .inr rfl | simp))
      exact h5

theorem execWinCommit_keeps {s0 : State} {F : List Part} (hF : Within [.dict, .t0, .mem, .out, .freeCtr, .svc] F) {window : Fin 1024} {s : State} (h_s : s0.Keeps F s) :
    (Nxt (s0.Keeps F)) (execWinCommit window s) := by
  unfold execWinCommit
  apply Nxt.next
  apply State.barWrite_keeps (hF.le rfl)
  · exact h_s
  · intro v1 h2
    apply State.t0Fit_keeps (hF.le rfl)
    apply State.winCommit_keeps (hF.le rfl)
    exact h2

theorem execWinWithdraw_keeps {s0 : State} {F : List Part} (hF : Within [.dict, .mem, .out, .freeCtr, .own, .jobs, .reds, .queues, .ports, .svc, .reg, .glody] F) {window : Fin 1024} {s : State} (h_s : s0.Keeps F s) :
    (Nxt (s0.Keeps F)) (execWinWithdraw window s) := by
  unfold execWinWithdraw
  apply Nxt.next
  apply State.barWrite_keeps (hF.le rfl)
  · exact h_s
  · intro v1 h2
    apply State.winWithdraw_keeps (hF.le rfl)
    exact h2

end Sys2Proof.Machine
end

