-- ==== Sys2Proof/Laws/KeepsCopy.lean ====
section
/-! SUPPORT. Every effect of Machine/Copy.lean leaves the queue alone, keeps the canonical form and writes only the parts named. -/
namespace Sys2Proof.Machine

theorem State.leaseRange_keeps {s0 s : State} {F : List Part} (hF : Within [.shared] F) {hid a n : Nat} (h_s : s0.Keeps F s) :
    s0.Keeps F (State.leaseRange s hid a n) := by
  unfold State.leaseRange
  apply forAll_keeps
  · intro v1 v2 h3
    split
    · apply State.leaseTouch_keeps (hF.le rfl)
      exact h3
    · exact h3
  · exact h_s

theorem State.engineBlock_keeps {s0 s : State} {F : List Part} (hF : Within [.dict, .hbm, .t0, .mem, .arb, .out, .freeCtr, .fac, .jobs, .reds, .shared, .queues, .ports, .svc, .reg, .stackTab, .media, .recov, .power, .glody] F) {hid b : Nat} {ls : List Piece} {env : Env} (h_s : s0.Keeps F s) :
    (Opt (s0.Keeps F)) (State.engineBlock s hid b ls env) := by
  unfold State.engineBlock
  split
  · extract_lets +onlyGivenNames x7 x8
    clear_value x7 x8
    split
    · apply Opt.some
      apply forAll_keeps
      · intro v10 v11 h12
        apply State.gradWrite_keeps (hF.le rfl)
        exact h12
      · exact h_s
    · split
      · apply Opt.some
        apply forAll_keeps
        · intro v15 v16 h17
          apply State.writeT0_keeps (hF.le rfl)
          exact h17
        · exact h_s
      · split
        · apply Opt.none
        · split
          split
          · apply Opt.some
            apply State.count_keeps (hF.le rfl)
            exact h_s
          · extract_lets +onlyGivenNames x27
            have h27 : s0.Keeps F x27 := by
              unfold x27
              split
              · apply State.invalidate_keeps (hF.le rfl)
                exact h_s
              · exact h_s
            clear_value x27
            extract_lets +onlyGivenNames x30
            have h30 : s0.Keeps F x30 := by
              unfold x30
              split
              · apply State.hostTouch_keeps (hF.le rfl)
                exact h27
              · exact h27
            clear_value x30
            extract_lets +onlyGivenNames x33
            clear_value x33
            extract_lets +onlyGivenNames x34
            have h34 : s0.Keeps F x34 := by
              unfold x34
              apply forAll_keeps
              · intro v35 v36 h37
                apply State.gatherLine_keeps (hF.le rfl)
                exact h37
              · exact h30
            clear_value x34
            extract_lets +onlyGivenNames x38
            have h38 : s0.Keeps F x38 := by
              unfold x38
              apply State.resolve_keeps (hF.le rfl)
              exact h34
            clear_value x38
            extract_lets +onlyGivenNames x39
            have h39 : s0.Keeps F x39 := by
              unfold x39
              split
              · apply State.resolve_keeps (hF.le rfl)
                exact h38
              · exact h38
            clear_value x39
            extract_lets +onlyGivenNames x42
            have h42 : s0.Keeps F x42 := by
              unfold x42
              apply State.settlePack_keeps (hF.le rfl)
              exact h39
            clear_value x42
            split
            · apply Opt.some
              exact h42
            · apply Opt.none
  · apply Opt.some
    exact h_s

theorem State.engineWrite_keeps {s0 s : State} {F : List Part} (hF : Within [.dict, .hbm, .t0, .mem, .arb, .out, .freeCtr, .fac, .jobs, .reds, .shared, .queues, .ports, .svc, .reg, .stackTab, .media, .recov, .power, .glody] F) {hid dpa : Nat} {d : List Byte} {bad : List Nat} {env : Env} {x0 : Nat} (h_s : s0.Keeps F s) :
    (Snd (Snd (s0.Keeps F))) (State.engineWrite s hid dpa d bad env x0) := by
  induction x0 generalizing s hid dpa d bad env with
  | zero =>
    unfold State.engineWrite
    apply Snd.mk
    apply Snd.mk
    exact h_s
  | succ m ih =>
    unfold State.engineWrite
    extract_lets +onlyGivenNames x1 x2
    clear_value x1 x2
    split
    · apply Snd.mk
      apply Snd.mk
      exact h_s
    · split
      apply Snd.mk
      apply Snd.mk
      refine Snd.of_eq₂ ?_ (by assumption)
      apply ih
      refine Opt.of_eq ?_ (by assumption)
      apply State.engineBlock_keeps (hF.le rfl)
      exact h_s

theorem State.copyEnd_keeps {s0 s : State} {F : List Part} (hF : Within [.dict, .queues] F) {h lines bad : Nat} {ok : Bool} (h_s : s0.Keeps F s) :
    s0.Keeps F (State.copyEnd s h lines bad ok) := by
  unfold State.copyEnd
  split
  · apply State.finish_keeps (hF.le rfl)
    exact h_s
  · split
    · apply State.finish_keeps (hF.le rfl)
      exact h_s
    · apply State.finish_keeps (hF.le rfl)
      exact h_s

theorem State.copyDevice_keeps {s0 s : State} {F : List Part} (hF : Within [.dict, .hbm, .t0, .mem, .arb, .out, .freeCtr, .fac, .jobs, .reds, .shared, .queues, .ports, .svc, .reg, .stackTab, .media, .recov, .power, .glody] F) {h : Nat} {c : Cmd} {env : Env} (h_s : s0.Keeps F s) :
    s0.Keeps F (State.copyDevice s h c env) := by
  unfold State.copyDevice
  extract_lets +onlyGivenNames x1 x2 x3 x4
  clear_value x1 x2 x3 x4
  split
  · apply State.fail_keeps (hF.le rfl)
    exact h_s
  · split
    · apply State.fail_keeps (hF.le rfl)
      exact h_s
    · split
      · apply State.fail_keeps (hF.le rfl)
        exact h_s
      · split
        split
        split
        · refine Snd.of_eq ?_ (by assumption)
          apply State.cohReady_keeps (hF.le rfl)
          refine Snd.of_eq ?_ (by assumption)
          apply State.cohReady_keeps (hF.le rfl)
          exact h_s
        · extract_lets +onlyGivenNames x21
          have h21 : s0.Keeps F x21 := by
            unfold x21
            apply State.leaseRange_keeps (hF.le rfl)
            apply State.leaseRange_keeps (hF.le rfl)
            refine Snd.of_eq ?_ (by assumption)
            apply State.cohReady_keeps (hF.le rfl)
            refine Snd.of_eq ?_ (by assumption)
            apply State.cohReady_keeps (hF.le rfl)
            exact h_s
          clear_value x21
          split
          split
          apply State.copyEnd_keeps (hF.le rfl)
          refine Snd.of_eq₂ ?_ (by assumption)
          apply State.engineWrite_keeps (hF.le rfl)
          refine Snd.of_eq ?_ (by assumption)
          apply State.rangeAtHub_keeps (hF.le rfl)
          exact h21

theorem State.copyFromHost_keeps {s0 s : State} {F : List Part} (hF : Within [.dict, .hbm, .t0, .mem, .arb, .out, .freeCtr, .fac, .jobs, .reds, .shared, .queues, .ports, .svc, .reg, .stackTab, .media, .recov, .power, .glody] F) {h : Nat} {c : Cmd} {env : Env} (h_s : s0.Keeps F s) :
    s0.Keeps F (State.copyFromHost s h c env) := by
  unfold State.copyFromHost
  extract_lets +onlyGivenNames x1 x2 x3 x4
  clear_value x1 x2 x3 x4
  split
  · apply State.fail_keeps (hF.le rfl)
    exact h_s
  · split
    · apply State.fail_keeps (hF.le rfl)
      exact h_s
    · split
      split
      · refine Snd.of_eq ?_ (by assumption)
        apply State.cohReady_keeps (hF.le rfl)
        exact h_s
      · extract_lets +onlyGivenNames x15
        have h15 : s0.Keeps F x15 := by
          unfold x15
          apply State.hostRead_keeps (hF.le rfl)
          apply State.leaseRange_keeps (hF.le rfl)
          refine Snd.of_eq ?_ (by assumption)
          apply State.cohReady_keeps (hF.le rfl)
          exact h_s
        clear_value x15
        split
        split
        apply State.copyEnd_keeps (hF.le rfl)
        refine Snd.of_eq₂ ?_ (by assumption)
        apply State.engineWrite_keeps (hF.le rfl)
        exact h15

theorem State.copyToHost_keeps {s0 s : State} {F : List Part} (hF : Within [.dict, .hbm, .mem, .arb, .out, .freeCtr, .fac, .jobs, .shared, .queues, .ports, .svc, .reg, .stackTab, .media, .recov, .power, .glody] F) {h : Nat} {c : Cmd} {env : Env} (h_s : s0.Keeps F s) :
    s0.Keeps F (State.copyToHost s h c env) := by
  unfold State.copyToHost
  extract_lets +onlyGivenNames x1 x2 x3 x4
  clear_value x1 x2 x3 x4
  split
  · apply State.fail_keeps (hF.le rfl)
    exact h_s
  · split
    · apply State.fail_keeps (hF.le rfl)
      exact h_s
    · split
      split
      · refine Snd.of_eq ?_ (by assumption)
        apply State.cohReady_keeps (hF.le rfl)
        exact h_s
      · split
        apply State.copyEnd_keeps (hF.le rfl)
        apply State.hostWrite_keeps (hF.le rfl)
        refine Snd.of_eq ?_ (by assumption)
        apply State.rangeAtHub_keeps (hF.le rfl)
        apply State.leaseRange_keeps (hF.le rfl)
        refine Snd.of_eq ?_ (by assumption)
        apply State.cohReady_keeps (hF.le rfl)
        exact h_s

theorem execCopyDevice_keeps {s0 : State} {F : List Part} (hF : Within [.dict, .hbm, .t0, .mem, .arb, .out, .freeCtr, .fac, .jobs, .reds, .shared, .queues, .ports, .svc, .reg, .stackTab, .media, .recov, .power, .glody] F) {queue : Fin 32768} {idx : Fin 65536} {env : Env} {s : State} (h_s : s0.Keeps F s) :
    (Nxt (s0.Keeps F)) (execCopyDevice queue idx env s) := by
  unfold execCopyDevice
  apply Nxt.next
  apply State.runMove_keeps (hF.le rfl)
  · exact h_s
  · intro v1 v2 v3 h4
    apply State.copyDevice_keeps (hF.le rfl)
    exact h4

theorem execCopyFromHost_keeps {s0 : State} {F : List Part} (hF : Within [.dict, .hbm, .t0, .mem, .arb, .out, .freeCtr, .fac, .jobs, .reds, .shared, .queues, .ports, .svc, .reg, .stackTab, .media, .recov, .power, .glody] F) {queue : Fin 32768} {idx : Fin 65536} {env : Env} {s : State} (h_s : s0.Keeps F s) :
    (Nxt (s0.Keeps F)) (execCopyFromHost queue idx env s) := by
  unfold execCopyFromHost
  apply Nxt.next
  apply State.runMove_keeps (hF.le rfl)
  · exact h_s
  · intro v1 v2 v3 h4
    apply State.copyFromHost_keeps (hF.le rfl)
    exact h4

theorem execCopyToHost_keeps {s0 : State} {F : List Part} (hF : Within [.dict, .hbm, .mem, .arb, .out, .freeCtr, .fac, .jobs, .shared, .queues, .ports, .svc, .reg, .stackTab, .media, .recov, .power, .glody] F) {queue : Fin 32768} {idx : Fin 65536} {env : Env} {s : State} (h_s : s0.Keeps F s) :
    (Nxt (s0.Keeps F)) (execCopyToHost queue idx env s) := by
  unfold execCopyToHost
  apply Nxt.next
  apply State.runMove_keeps (hF.le rfl)
  · exact h_s
  · intro v1 v2 v3 h4
    apply State.copyToHost_keeps (hF.le rfl)
    exact h4

theorem State.fillRange_keeps {s0 s : State} {F : List Part} (hF : Within [.dict, .hbm, .t0, .mem, .arb, .out, .freeCtr, .fac, .jobs, .reds, .shared, .queues, .ports, .svc, .reg, .stackTab, .media, .recov, .power, .glody] F) {h : Nat} {c : Cmd} {env : Env} (h_s : s0.Keeps F s) :
    s0.Keeps F (State.fillRange s h c env) := by
  unfold State.fillRange
  extract_lets +onlyGivenNames x1 x2 x3
  clear_value x1 x2 x3
  split
  · apply State.fail_keeps (hF.le rfl)
    exact h_s
  · split
    · apply State.fail_keeps (hF.le rfl)
      exact h_s
    · split
      split
      · refine Snd.of_eq ?_ (by assumption)
        apply State.cohReady_keeps (hF.le rfl)
        exact h_s
      · split
        apply State.copyEnd_keeps (hF.le rfl)
        refine Snd.of_eq₂ ?_ (by assumption)
        apply State.engineWrite_keeps (hF.le rfl)
        apply State.leaseRange_keeps (hF.le rfl)
        refine Snd.of_eq ?_ (by assumption)
        apply State.cohReady_keeps (hF.le rfl)
        exact h_s

theorem execFill_keeps {s0 : State} {F : List Part} (hF : Within [.dict, .hbm, .t0, .mem, .arb, .out, .freeCtr, .fac, .jobs, .reds, .shared, .queues, .ports, .svc, .reg, .stackTab, .media, .recov, .power, .glody] F) {queue : Fin 32768} {idx : Fin 65536} {env : Env} {s : State} (h_s : s0.Keeps F s) :
    (Nxt (s0.Keeps F)) (execFill queue idx env s) := by
  unfold execFill
  apply Nxt.next
  apply State.runMove_keeps (hF.le rfl)
  · exact h_s
  · intro v1 v2 v3 h4
    apply State.fillRange_keeps (hF.le rfl)
    exact h4

theorem State.moveForm_keeps {s0 s : State} {F : List Part} (hF : Within [.dict, .hbm, .mem, .out, .freeCtr, .jobs, .shared, .svc, .reg, .media, .glody] F) {v : View} {b : Nat} {f : Form} (h_s : s0.Keeps F s) :
    (Opt (s0.Keeps F)) (State.moveForm s v b f) := by
  unfold State.moveForm
  split
  · apply Opt.none
  · split
    · apply Opt.none
    · apply State.commitForm_keeps (hF.le rfl)
      exact h_s

theorem State.packBlock_keeps {s0 s : State} {F : List Part} (hF : Within [.dict, .hbm, .mem, .arb, .out, .freeCtr, .fac, .jobs, .shared, .ports, .svc, .reg, .stackTab, .media, .recov, .power, .glody] F) {v : View} {b : Nat} {ph : Phys} (h_s : s0.Keeps F s) :
    (Opt (Snd (s0.Keeps F))) (State.packBlock s v b ph) := by
  unfold State.packBlock
  extract_lets +onlyGivenNames x1
  clear_value x1
  split
  · apply Opt.some
    apply Snd.mk
    exact h_s
  · split
    · apply Opt.some
      apply Snd.mk
      refine Snd.of_eq ?_ (by assumption)
      apply State.readBlock_keeps (hF.le rfl)
      exact h_s
    · split
      · split
        · refine Opt.mapK (P := (s0.Keeps F)) ?_ ?_
          · apply State.moveForm_keeps (hF.le rfl)
            refine Snd.of_eq ?_ (by assumption)
            apply State.laneForm_keeps (hF.le rfl)
            refine Snd.of_eq ?_ (by assumption)
            apply State.readBlock_keeps (hF.le rfl)
            exact h_s
          · intro v19 h20
            apply Snd.mk
            exact h20
        · apply Opt.some
          apply Snd.mk
          refine Snd.of_eq ?_ (by assumption)
          apply State.laneForm_keeps (hF.le rfl)
          refine Snd.of_eq ?_ (by assumption)
          apply State.readBlock_keeps (hF.le rfl)
          exact h_s
      · split
        · split
          · refine Opt.mapK (P := (s0.Keeps F)) ?_ ?_
            · apply State.moveForm_keeps (hF.le rfl)
              refine Snd.of_eq ?_ (by assumption)
              apply State.readBlock_keeps (hF.le rfl)
              exact h_s
            · intro v30 h31
              apply Snd.mk
              apply State.count_keeps (hF.le rfl)
              exact h31
          · apply Opt.some
            apply Snd.mk
            refine Snd.of_eq ?_ (by assumption)
            apply State.readBlock_keeps (hF.le rfl)
            exact h_s
        · apply Opt.some
          apply Snd.mk
          refine Snd.of_eq ?_ (by assumption)
          apply State.readBlock_keeps (hF.le rfl)
          exact h_s

theorem State.unpackBlock_keeps {s0 s : State} {F : List Part} (hF : Within [.dict, .hbm, .mem, .arb, .out, .freeCtr, .fac, .jobs, .shared, .ports, .svc, .reg, .stackTab, .media, .recov, .power, .glody] F) {v : View} {b : Nat} {ph : Phys} (h_s : s0.Keeps F s) :
    (Opt (Snd (s0.Keeps F))) (State.unpackBlock s v b ph) := by
  unfold State.unpackBlock
  extract_lets +onlyGivenNames x1
  clear_value x1
  split
  · apply Opt.some
    apply Snd.mk
    exact h_s
  · split
    · apply Opt.some
      apply Snd.mk
      exact h_s
    · extract_lets +onlyGivenNames x9
      clear_value x9
      split
      · apply Opt.none
      · split
        · apply Opt.some
          apply Snd.mk
          refine Snd.of_eq ?_ (by assumption)
          apply State.readBlock_keeps (hF.le rfl)
          exact h_s
        · refine Opt.mapK (P := (s0.Keeps F)) ?_ ?_
          · apply State.moveForm_keeps (hF.le rfl)
            refine Snd.of_eq ?_ (by assumption)
            apply State.readBlock_keeps (hF.le rfl)
            exact h_s
          · intro v20 h21
            apply Snd.mk
            apply State.count_keeps (hF.le rfl)
            refine State.modMem_keeps (hF.le rfl) ?_ (fun _ => rfl) (fun _ => rfl)
            exact h21

theorem State.eachBlock_keeps {s0 s : State} {F : List Part} (hF : Within [] F) {f : State → Nat → Option (Bool × State)} {b x0 : Nat} (h_s : s0.Keeps F s) (h_f : ∀ a0 a1, s0.Keeps F a0 → (Opt (Snd (s0.Keeps F))) (f a0 a1)) :
    (Snd (Snd (s0.Keeps F))) (State.eachBlock s f b x0) := by
  induction x0 generalizing s f b with
  | zero =>
    unfold State.eachBlock
    apply Snd.mk
    apply Snd.mk
    exact h_s
  | succ m ih =>
    unfold State.eachBlock
    split
    · apply Snd.mk
      apply Snd.mk
      exact h_s
    · split
      apply Snd.mk
      apply Snd.mk
      refine Snd.of_eq₂ ?_ (by assumption)
      apply ih
      · refine Opt.snd_of_eq ?_ (by assumption)
        apply h_f
        exact h_s
      · intro v12 v13 h14
        apply h_f
        exact h14

theorem State.packRange_keeps {s0 s : State} {F : List Part} (hF : Within [.dict, .hbm, .mem, .arb, .out, .freeCtr, .fac, .jobs, .shared, .queues, .ports, .svc, .reg, .stackTab, .media, .recov, .power, .glody] F) {h : Nat} {c : Cmd} {unpack : Bool} {ph : Phys} (h_s : s0.Keeps F s) :
    s0.Keeps F (State.packRange s h c unpack ph) := by
  unfold State.packRange
  extract_lets +onlyGivenNames x1 x2 x3
  clear_value x1 x2 x3
  split
  · apply State.fail_keeps (hF.le rfl)
    exact h_s
  · split
    · apply State.fail_keeps (hF.le rfl)
      exact h_s
    · split
      · apply State.fail_keeps (hF.le rfl)
        exact h_s
      · extract_lets +onlyGivenNames x10
        have h10 : ∀ a0 a1, s0.Keeps F a0 → (Opt (Snd (s0.Keeps F))) (x10 a0 a1) := by
          unfold x10
          intro v11 v12 h13
          split
          · split
            · apply State.unpackBlock_keeps (hF.le rfl)
              exact h13
            · apply State.packBlock_keeps (hF.le rfl)
              exact h13
          · apply Opt.some
            apply Snd.mk
            exact h13
        clear_value x10
        split
        apply State.finish_keeps (hF.le rfl)
        refine Snd.of_eq₂ ?_ (by assumption)
        apply State.eachBlock_keeps (hF.le rfl)
        · apply State.leaseRange_keeps (hF.le rfl)
          exact h_s
        · intro v27 v28 h29
          apply h10
          exact h29

theorem execPack_keeps {s0 : State} {F : List Part} (hF : Within [.dict, .hbm, .mem, .arb, .out, .freeCtr, .fac, .jobs, .shared, .queues, .ports, .svc, .reg, .stackTab, .media, .recov, .power, .glody] F) {queue : Fin 32768} {idx : Fin 65536} {ph : Phys} {s : State} (h_s : s0.Keeps F s) :
    (Nxt (s0.Keeps F)) (execPack queue idx ph s) := by
  unfold execPack
  apply Nxt.next
  apply State.runMove_keeps (hF.le rfl)
  · exact h_s
  · intro v1 v2 v3 h4
    apply State.packRange_keeps (hF.le rfl)
    exact h4

theorem execUnpack_keeps {s0 : State} {F : List Part} (hF : Within [.dict, .hbm, .mem, .arb, .out, .freeCtr, .fac, .jobs, .shared, .queues, .ports, .svc, .reg, .stackTab, .media, .recov, .power, .glody] F) {queue : Fin 32768} {idx : Fin 65536} {ph : Phys} {s : State} (h_s : s0.Keeps F s) :
    (Nxt (s0.Keeps F)) (execUnpack queue idx ph s) := by
  unfold execUnpack
  apply Nxt.next
  apply State.runMove_keeps (hF.le rfl)
  · exact h_s
  · intro v1 v2 v3 h4
    apply State.packRange_keeps (hF.le rfl)
    exact h4

theorem State.sampleBlock_keeps {s0 s : State} {F : List Part} (hF : Within [.dict, .hbm, .mem, .arb, .out, .freeCtr, .fac, .jobs, .shared, .ports, .svc, .reg, .stackTab, .media, .recov, .power, .glody] F) {hid b : Nat} {env : Env} {a : Sample} (h_s : s0.Keeps F s) :
    (Snd (s0.Keeps F)) (State.sampleBlock s hid b env a) := by
  unfold State.sampleBlock
  split
  · apply Snd.mk
    exact h_s
  · extract_lets +onlyGivenNames x7 x8
    clear_value x7 x8
    split
    · apply Snd.mk
      exact h_s
    · split
      · split
        · apply Snd.mk
          refine Snd.of_eq ?_ (by assumption)
          apply State.content_keeps (hF.le rfl)
          exact h_s
        · apply Snd.mk
          refine Snd.of_eq ?_ (by assumption)
          apply State.content_keeps (hF.le rfl)
          exact h_s
      · apply Snd.mk
        exact h_s

theorem State.sampleAll_keeps {s0 s : State} {F : List Part} (hF : Within [.dict, .hbm, .mem, .arb, .out, .freeCtr, .fac, .jobs, .shared, .ports, .svc, .reg, .stackTab, .media, .recov, .power, .glody] F) {hid b : Nat} {env : Env} {a : Sample} {x0 : Nat} (h_s : s0.Keeps F s) :
    (Snd (s0.Keeps F)) (State.sampleAll s hid b env a x0) := by
  induction x0 generalizing s hid b env a with
  | zero =>
    unfold State.sampleAll
    apply Snd.mk
    exact h_s
  | succ m ih =>
    unfold State.sampleAll
    split
    apply ih
    refine Snd.of_eq ?_ (by assumption)
    apply State.sampleBlock_keeps (hF.le rfl)
    exact h_s

theorem State.fitEstimate_keeps {s0 s : State} {F : List Part} (hF : Within [.dict, .hbm, .t0, .mem, .arb, .out, .freeCtr, .fac, .jobs, .reds, .shared, .queues, .ports, .svc, .reg, .stackTab, .media, .recov, .power, .glody] F) {h : Nat} {c : Cmd} {env : Env} (h_s : s0.Keeps F s) :
    s0.Keeps F (State.fitEstimate s h c env) := by
  unfold State.fitEstimate
  extract_lets +onlyGivenNames x1 x2 x3
  clear_value x1 x2 x3
  split
  · apply State.fail_keeps (hF.le rfl)
    exact h_s
  · split
    · apply State.fail_keeps (hF.le rfl)
      exact h_s
    · split
      · apply State.fail_keeps (hF.le rfl)
        exact h_s
      · split
        split
        · refine Snd.of_eq ?_ (by assumption)
          apply State.cohReady_keeps (hF.le rfl)
          exact h_s
        · split
          split
          · apply State.fail_keeps (hF.le rfl)
            refine Snd.of_eq ?_ (by assumption)
            apply State.sampleAll_keeps (hF.le rfl)
            apply State.leaseRange_keeps (hF.le rfl)
            apply State.leaseRange_keeps (hF.le rfl)
            refine Snd.of_eq ?_ (by assumption)
            apply State.cohReady_keeps (hF.le rfl)
            exact h_s
          · extract_lets +onlyGivenNames x22 x23 x24 x25 x26 x27 x28 x29 x30 x31 x32 x33 x34
            clear_value x22 x23 x24 x25 x26 x27 x28 x29 x30 x31 x32 x33 x34
            extract_lets +onlyGivenNames x35 x36 x37 x38 x39
            clear_value x35 x36 x37 x38 x39
            split
            split
            · apply State.finish_keeps (hF.le rfl)
              refine Snd.of_eq₂ ?_ (by assumption)
              apply State.engineWrite_keeps (hF.le rfl)
              refine Snd.of_eq ?_ (by assumption)
              apply State.sampleAll_keeps (hF.le rfl)
              apply State.leaseRange_keeps (hF.le rfl)
              apply State.leaseRange_keeps (hF.le rfl)
              refine Snd.of_eq ?_ (by assumption)
              apply State.cohReady_keeps (hF.le rfl)
              exact h_s
            · apply State.fail_keeps (hF.le rfl)
              refine Snd.of_eq₂ ?_ (by assumption)
              apply State.engineWrite_keeps (hF.le rfl)
              refine Snd.of_eq ?_ (by assumption)
              apply State.sampleAll_keeps (hF.le rfl)
              apply State.leaseRange_keeps (hF.le rfl)
              apply State.leaseRange_keeps (hF.le rfl)
              refine Snd.of_eq ?_ (by assumption)
              apply State.cohReady_keeps (hF.le rfl)
              exact h_s

theorem execFitEstimate_keeps {s0 : State} {F : List Part} (hF : Within [.dict, .hbm, .t0, .mem, .arb, .out, .freeCtr, .fac, .jobs, .reds, .shared, .queues, .ports, .svc, .reg, .stackTab, .media, .recov, .power, .glody] F) {queue : Fin 32768} {idx : Fin 65536} {env : Env} {s : State} (h_s : s0.Keeps F s) :
    (Nxt (s0.Keeps F)) (execFitEstimate queue idx env s) := by
  unfold execFitEstimate
  apply Nxt.next
  apply State.runMove_keeps (hF.le rfl)
  · exact h_s
  · intro v1 v2 v3 h4
    apply State.fitEstimate_keeps (hF.le rfl)
    exact h4

end Sys2Proof.Machine
end

