-- ==== Sys2Proof/Laws/KeepsReduceCmd.lean ====
section
/-! SUPPORT. Every effect of Machine/ReduceCmd.lean leaves the queue alone, keeps the canonical form and writes only the parts named. -/
namespace Sys2Proof.Machine

theorem State.reduceOpen_keeps {s0 s : State} {F : List Part} (hF : Within [.dict, .hbm, .mem, .arb, .out, .freeCtr, .fac, .jobs, .reds, .shared, .queues, .ports, .svc, .reg, .stackTab, .media, .recov, .power, .glody] F) {h : Nat} {c : Cmd} {env : Env} (h_s : s0.Keeps F s) :
    s0.Keeps F (State.reduceOpen s h c env) := by
  unfold State.reduceOpen
  extract_lets +onlyGivenNames x1 x2 x3 x4 x5
  clear_value x1 x2 x3 x4 x5
  split
  · apply State.fail_keeps (hF.le rfl)
    exact h_s
  · split
    · apply State.fail_keeps (hF.le rfl)
      exact h_s
    · split
      split
      · refine Snd.of_eq ?_ (by assumption)
        split
        · apply Snd.mk
          exact h_s
        · apply State.cohReady_keeps (hF.le rfl)
          exact h_s
      · split
        extract_lets +onlyGivenNames x23
        clear_value x23
        split
        · apply State.fail_keeps (hF.le rfl)
          refine Snd.of_eq ?_ (by assumption)
          split
          · apply Snd.mk
            exact h_s
          · apply State.cohReady_keeps (hF.le rfl)
            exact h_s
        · split
          · apply State.fail_keeps (hF.le rfl)
            refine Snd.of_eq ?_ (by assumption)
            split
            · apply Snd.mk
              exact h_s
            · apply State.cohReady_keeps (hF.le rfl)
              exact h_s
          · split
            · apply State.fail_keeps (hF.le rfl)
              refine Snd.of_eq ?_ (by assumption)
              split
              · apply Snd.mk
                exact h_s
              · apply Snd.mk
                exact h_s
            · split
              · split
                · apply State.fail_keeps (hF.le rfl)
                  refine Snd.of_eq ?_ (by assumption)
                  split
                  · apply Snd.mk
                    exact h_s
                  · apply State.cohReady_keeps (hF.le rfl)
                    exact h_s
                · split
                  · apply State.fail_keeps (hF.le rfl)
                    refine Snd.of_eq ?_ (by assumption)
                    apply State.rangeAtHub_keeps (hF.le rfl)
                    refine Snd.of_eq ?_ (by assumption)
                    split
                    · apply Snd.mk
                      exact h_s
                    · apply State.cohReady_keeps (hF.le rfl)
                      exact h_s
                  · extract_lets +onlyGivenNames x47
                    clear_value x47
                    extract_lets +onlyGivenNames x48
                    have h48 : s0.Keeps F x48 := by
                      unfold x48
                      apply State.setPar_keeps (hF.le rfl)
                      apply State.modRed_keeps (hF.le rfl)
                      refine Snd.of_eq ?_ (by assumption)
                      apply State.rangeAtHub_keeps (hF.le rfl)
                      refine Snd.of_eq ?_ (by assumption)
                      split
                      · apply Snd.mk
                        exact h_s
                      · apply State.cohReady_keeps (hF.le rfl)
                        exact h_s
                    clear_value x48
                    extract_lets +onlyGivenNames x51
                    have h51 : s0.Keeps F x51 := by
                      unfold x51
                      apply State.setPar_keeps (hF.le rfl)
                      apply State.setPar_keeps (hF.le rfl)
                      apply State.setPar_keeps (hF.le rfl)
                      exact h48
                    clear_value x51
                    apply State.accept_keeps (hF.le rfl)
                    apply State.redMissing_keeps (hF.le rfl)
                    exact h51
              · split
                · apply State.fail_keeps (hF.le rfl)
                  refine Snd.of_eq ?_ (by assumption)
                  split
                  · apply Snd.mk
                    exact h_s
                  · apply State.cohReady_keeps (hF.le rfl)
                    exact h_s
                · split
                  · apply State.fail_keeps (hF.le rfl)
                    refine Snd.of_eq ?_ (by assumption)
                    apply State.rangeAtHub_keeps (hF.le rfl)
                    refine Snd.of_eq ?_ (by assumption)
                    split
                    · apply Snd.mk
                      exact h_s
                    · apply State.cohReady_keeps (hF.le rfl)
                      exact h_s
                  · extract_lets +onlyGivenNames x62
                    clear_value x62
                    extract_lets +onlyGivenNames x63
                    have h63 : s0.Keeps F x63 := by
                      unfold x63
                      apply State.setPar_keeps (hF.le rfl)
                      apply State.modRed_keeps (hF.le rfl)
                      refine Snd.of_eq ?_ (by assumption)
                      apply State.rangeAtHub_keeps (hF.le rfl)
                      refine Snd.of_eq ?_ (by assumption)
                      split
                      · apply Snd.mk
                        exact h_s
                      · apply State.cohReady_keeps (hF.le rfl)
                        exact h_s
                    clear_value x63
                    extract_lets +onlyGivenNames x66
                    have h66 : s0.Keeps F x66 := by
                      unfold x66
                      apply State.setPar_keeps (hF.le rfl)
                      apply State.setPar_keeps (hF.le rfl)
                      apply State.setPar_keeps (hF.le rfl)
                      exact h63
                    clear_value x66
                    apply State.accept_keeps (hF.le rfl)
                    apply State.redMissing_keeps (hF.le rfl)
                    exact h66

theorem execReduceOpen_keeps {s0 : State} {F : List Part} (hF : Within [.dict, .hbm, .mem, .arb, .out, .freeCtr, .fac, .jobs, .reds, .shared, .queues, .ports, .svc, .reg, .stackTab, .media, .recov, .power, .glody] F) {queue : Fin 32768} {idx : Fin 65536} {env : Env} {s : State} (h_s : s0.Keeps F s) :
    (Nxt (s0.Keeps F)) (execReduceOpen queue idx env s) := by
  unfold execReduceOpen
  apply Nxt.next
  apply State.runMove_keeps (hF.le rfl)
  · exact h_s
  · intro v1 v2 v3 h4
    apply State.reduceOpen_keeps (hF.le rfl)
    exact h4

theorem State.contribSome_keeps {s0 s : State} {F : List Part} (hF : Within [.dict, .mem, .reds] F) {n : Nat} {w : RedWait} {x0 : Nat} (h_s : s0.Keeps F s) :
    (Snd (s0.Keeps F)) (State.contribSome s n w x0) := by
  induction x0 generalizing s n w with
  | zero =>
    unfold State.contribSome
    apply Snd.mk
    exact h_s
  | succ m ih =>
    unfold State.contribSome
    extract_lets +onlyGivenNames x1 x2
    clear_value x1 x2
    split
    · apply ih
      apply State.addTile_keeps (hF.le rfl)
      refine Opt.of_eq ?_ (by assumption)
      apply State.redTileOpen_keeps (hF.le rfl)
      exact h_s
    · apply Snd.mk
      exact h_s

theorem State.reduceContrib_keeps {s0 s : State} {F : List Part} (hF : Within [.dict, .hbm, .mem, .arb, .out, .freeCtr, .fac, .jobs, .reds, .shared, .queues, .ports, .svc, .reg, .stackTab, .media, .recov, .power, .glody] F) {h : Nat} {c : Cmd} {env : Env} (h_s : s0.Keeps F s) :
    s0.Keeps F (State.reduceContrib s h c env) := by
  unfold State.reduceContrib
  extract_lets +onlyGivenNames x1 x2 x3 x4 x5 x6 x7 x8 x9
  clear_value x1 x2 x3 x4 x5 x6 x7 x8 x9
  split
  · apply State.fail_keeps (hF.le rfl)
    apply State.redReject_keeps (hF.le rfl)
    exact h_s
  · split
    · apply State.fail_keeps (hF.le rfl)
      apply State.redReject_keeps (hF.le rfl)
      exact h_s
    · split
      · apply State.fail_keeps (hF.le rfl)
        exact h_s
      · split
        · apply State.fail_keeps (hF.le rfl)
          exact h_s
        · split
          · apply State.fail_keeps (hF.le rfl)
            apply State.redReject_keeps (hF.le rfl)
            exact h_s
          · split
            split
            · refine Snd.of_eq ?_ (by assumption)
              split
              · apply Snd.mk
                exact h_s
              · apply State.cohReady_keeps (hF.le rfl)
                exact h_s
            · split
              extract_lets +onlyGivenNames x33
              clear_value x33
              split
              · apply State.contribRun_keeps (hF.le rfl)
                apply State.accept_keeps (hF.le rfl)
                refine Snd.of_eq₂ ?_ (by assumption)
                split
                · extract_lets +onlyGivenNames x36
                  have h36 : s0.Keeps F x36 := by
                    unfold x36
                    apply State.hostRead_keeps (hF.le rfl)
                    refine Snd.of_eq ?_ (by assumption)
                    split
                    · apply Snd.mk
                      exact h_s
                    · apply Snd.mk
                      exact h_s
                  clear_value x36
                  split
                  · apply Snd.mk
                    apply Snd.mk
                    exact h36
                  · apply Snd.mk
                    apply Snd.mk
                    exact h36
                · split
                  apply Snd.mk
                  apply Snd.mk
                  refine Snd.of_eq ?_ (by assumption)
                  apply State.rangeAtHub_keeps (hF.le rfl)
                  refine Snd.of_eq ?_ (by assumption)
                  split
                  · apply Snd.mk
                    exact h_s
                  · apply State.cohReady_keeps (hF.le rfl)
                    exact h_s
              · split
                apply State.finish_keeps (hF.le rfl)
                apply State.redFault_keeps (hF.le rfl)
                refine Snd.of_eq ?_ (by assumption)
                apply State.contribSome_keeps (hF.le rfl)
                refine Snd.of_eq₂ ?_ (by assumption)
                split
                · extract_lets +onlyGivenNames x60
                  have h60 : s0.Keeps F x60 := by
                    unfold x60
                    apply State.hostRead_keeps (hF.le rfl)
                    refine Snd.of_eq ?_ (by assumption)
                    split
                    · apply Snd.mk
                      exact h_s
                    · apply Snd.mk
                      exact h_s
                  clear_value x60
                  split
                  · apply Snd.mk
                    apply Snd.mk
                    exact h60
                  · apply Snd.mk
                    apply Snd.mk
                    exact h60
                · split
                  apply Snd.mk
                  apply Snd.mk
                  refine Snd.of_eq ?_ (by assumption)
                  apply State.rangeAtHub_keeps (hF.le rfl)
                  refine Snd.of_eq ?_ (by assumption)
                  split
                  · apply Snd.mk
                    exact h_s
                  · apply State.cohReady_keeps (hF.le rfl)
                    exact h_s

theorem execReduceContrib_keeps {s0 : State} {F : List Part} (hF : Within [.dict, .hbm, .mem, .arb, .out, .freeCtr, .fac, .jobs, .reds, .shared, .queues, .ports, .svc, .reg, .stackTab, .media, .recov, .power, .glody] F) {queue : Fin 32768} {idx : Fin 65536} {env : Env} {s : State} (h_s : s0.Keeps F s) :
    (Nxt (s0.Keeps F)) (execReduceContrib queue idx env s) := by
  unfold execReduceContrib
  apply Nxt.next
  apply State.runMove_keeps (hF.le rfl)
  · exact h_s
  · intro v1 v2 v3 h4
    apply State.reduceContrib_keeps (hF.le rfl)
    exact h4

theorem State.reduceCancel_keeps {s0 s : State} {F : List Part} (hF : Within [.dict, .mem, .out, .jobs, .reds, .queues, .ports, .svc, .glody] F) {h : Nat} {c : Cmd} (h_s : s0.Keeps F s) :
    s0.Keeps F (State.reduceCancel s h c) := by
  unfold State.reduceCancel
  extract_lets +onlyGivenNames x1
  clear_value x1
  split
  · apply State.fail_keeps (hF.le rfl)
    exact h_s
  · split
    · apply State.fail_keeps (hF.le rfl)
      exact h_s
    · apply State.finish_keeps (hF.le rfl)
      apply State.redFault_keeps (hF.le rfl)
      exact h_s

theorem execReduceCancel_keeps {s0 : State} {F : List Part} (hF : Within [.dict, .mem, .out, .jobs, .reds, .queues, .ports, .svc, .glody] F) {queue : Fin 32768} {idx : Fin 65536} {s : State} (h_s : s0.Keeps F s) :
    (Nxt (s0.Keeps F)) (execReduceCancel queue idx s) := by
  unfold execReduceCancel
  apply Nxt.next
  apply State.runCmd_keeps (hF.le rfl)
  · exact h_s
  · intro v1 v2 v3 h4
    apply State.reduceCancel_keeps (hF.le rfl)
    exact h4

theorem execReduceTileOpen_keeps {s0 s : State} {F : List Part} (hF : Within [.dict, .mem, .out, .jobs, .reds, .queues, .ports, .svc, .glody] F) (h_s : s0.Keeps F s) :
    (Nxt (s0.Keeps F)) (execReduceTileOpen s) := by
  unfold execReduceTileOpen
  apply Nxt.next
  apply State.redRetry_keeps (hF.le rfl)
  exact h_s

theorem execReduceFrontTimeout_keeps {s0 : State} {F : List Part} (hF : Within [.dict, .mem, .out, .jobs, .reds, .queues, .ports, .svc, .glody] F) {reduction : Fin 256} {s : State} (h_s : s0.Keeps F s) :
    (Nxt (s0.Keeps F)) (execReduceFrontTimeout reduction s) := by
  unfold execReduceFrontTimeout
  apply Nxt.next
  split
  · apply State.redFault_keeps (hF.le rfl)
    exact h_s
  · exact h_s

theorem execReduceTimeout_keeps {s0 : State} {F : List Part} (hF : Within [.dict, .mem, .out, .jobs, .reds, .queues, .ports, .svc, .glody] F) {reduction : Fin 256} {s : State} (h_s : s0.Keeps F s) :
    (Nxt (s0.Keeps F)) (execReduceTimeout reduction s) := by
  unfold execReduceTimeout
  apply Nxt.next
  split
  · apply State.redFault_keeps (hF.le rfl)
    exact h_s
  · exact h_s

end Sys2Proof.Machine
end

