-- ==== Sys2Proof/Laws/KeepsShareCmd.lean ====
section
/-! SUPPORT. Every effect of Machine/ShareCmd.lean leaves the queue alone, keeps the canonical form and writes only the parts named. -/
namespace Sys2Proof.Machine

theorem State.bindRead_keeps {s0 s : State} {F : List Part} (hF : Within [.shared] F) {n h v : Nat} (h_s : s0.Keeps F s) :
    s0.Keeps F (State.bindRead s n h v) := by
  unfold State.bindRead
  apply State.modSr_keeps (hF.le rfl)
  exact h_s

theorem State.bindWrite_keeps {s0 s : State} {F : List Part} (hF : Within [.shared] F) {n h v : Nat} (h_s : s0.Keeps F s) :
    s0.Keeps F (State.bindWrite s n h v) := by
  unfold State.bindWrite
  apply State.modSr_keeps (hF.le rfl)
  exact h_s

theorem State.openRead_keeps {s0 s : State} {F : List Part} (hF : Within [.dict, .hbm, .mem, .arb, .out, .freeCtr, .fac, .jobs, .shared, .queues, .ports, .svc, .reg, .stackTab, .media, .recov, .power, .glody] F) {hd : Nat} {c : Cmd} {latest : Bool} (h_s : s0.Keeps F s) :
    s0.Keeps F (State.openRead s hd c latest) := by
  unfold State.openRead
  extract_lets +onlyGivenNames x1 x2 x3 x4
  clear_value x1 x2 x3 x4
  split
  · apply State.fail_keeps (hF.le rfl)
    exact h_s
  · split
    · apply State.fail_keeps (hF.le rfl)
      exact h_s
    · apply State.finish_keeps (hF.le rfl)
      apply State.withRefs_keeps (hF.le rfl)
      · apply State.leaseTouch_keeps (hF.le rfl)
        exact h_s
      · intro v9 h10
        apply State.bindRead_keeps (hF.le rfl)
        exact h10

theorem State.openWrite_keeps {s0 s : State} {F : List Part} (hF : Within [.dict, .hbm, .mem, .arb, .out, .freeCtr, .fac, .jobs, .shared, .queues, .ports, .svc, .reg, .stackTab, .media, .recov, .power, .glody] F) {hd : Nat} {c : Cmd} {latest : Bool} (h_s : s0.Keeps F s) :
    s0.Keeps F (State.openWrite s hd c latest) := by
  unfold State.openWrite
  extract_lets +onlyGivenNames x1 x2 x3 x4
  clear_value x1 x2 x3 x4
  split
  · apply State.fail_keeps (hF.le rfl)
    exact h_s
  · split
    · apply State.fail_keeps (hF.le rfl)
      exact h_s
    · split
      · apply State.fail_keeps (hF.le rfl)
        exact h_s
      · apply State.finish_keeps (hF.le rfl)
        apply State.withRefs_keeps (hF.le rfl)
        · apply State.leaseTouch_keeps (hF.le rfl)
          exact h_s
        · intro v11 h12
          apply State.bindWrite_keeps (hF.le rfl)
          exact h12

theorem State.unbind_keeps {s0 s : State} {F : List Part} (hF : Within [.dict, .hbm, .mem, .arb, .out, .freeCtr, .fac, .jobs, .shared, .queues, .ports, .svc, .reg, .stackTab, .media, .recov, .power, .glody] F) {hd : Nat} {c : Cmd} (h_s : s0.Keeps F s) :
    s0.Keeps F (State.unbind s hd c) := by
  unfold State.unbind
  extract_lets +onlyGivenNames x1 x2 x3
  clear_value x1 x2 x3
  split
  · apply State.fail_keeps (hF.le rfl)
    exact h_s
  · apply State.finish_keeps (hF.le rfl)
    apply State.withRefs_keeps (hF.le rfl)
    · apply State.leaseTouch_keeps (hF.le rfl)
      exact h_s
    · intro v6 h7
      apply State.bindRead_keeps (hF.le rfl)
      exact h7

theorem execOpenVersionRead_keeps {s0 : State} {F : List Part} (hF : Within [.dict, .hbm, .mem, .arb, .out, .freeCtr, .fac, .jobs, .shared, .queues, .ports, .svc, .reg, .stackTab, .media, .recov, .power, .glody] F) {queue : Fin 32768} {idx : Fin 65536} {s : State} (h_s : s0.Keeps F s) :
    (Nxt (s0.Keeps F)) (execOpenVersionRead queue idx s) := by
  unfold execOpenVersionRead
  apply Nxt.next
  apply State.runCmd_keeps (hF.le rfl)
  · exact h_s
  · intro v1 v2 v3 h4
    apply State.openRead_keeps (hF.le rfl)
    exact h4

theorem execOpenVersionReadLatest_keeps {s0 : State} {F : List Part} (hF : Within [.dict, .hbm, .mem, .arb, .out, .freeCtr, .fac, .jobs, .shared, .queues, .ports, .svc, .reg, .stackTab, .media, .recov, .power, .glody] F) {queue : Fin 32768} {idx : Fin 65536} {s : State} (h_s : s0.Keeps F s) :
    (Nxt (s0.Keeps F)) (execOpenVersionReadLatest queue idx s) := by
  unfold execOpenVersionReadLatest
  apply Nxt.next
  apply State.runCmd_keeps (hF.le rfl)
  · exact h_s
  · intro v1 v2 v3 h4
    apply State.openRead_keeps (hF.le rfl)
    exact h4

theorem execOpenVersionWrite_keeps {s0 : State} {F : List Part} (hF : Within [.dict, .hbm, .mem, .arb, .out, .freeCtr, .fac, .jobs, .shared, .queues, .ports, .svc, .reg, .stackTab, .media, .recov, .power, .glody] F) {queue : Fin 32768} {idx : Fin 65536} {s : State} (h_s : s0.Keeps F s) :
    (Nxt (s0.Keeps F)) (execOpenVersionWrite queue idx s) := by
  unfold execOpenVersionWrite
  apply Nxt.next
  apply State.runCmd_keeps (hF.le rfl)
  · exact h_s
  · intro v1 v2 v3 h4
    apply State.openWrite_keeps (hF.le rfl)
    exact h4

theorem execOpenVersionWriteLatest_keeps {s0 : State} {F : List Part} (hF : Within [.dict, .hbm, .mem, .arb, .out, .freeCtr, .fac, .jobs, .shared, .queues, .ports, .svc, .reg, .stackTab, .media, .recov, .power, .glody] F) {queue : Fin 32768} {idx : Fin 65536} {s : State} (h_s : s0.Keeps F s) :
    (Nxt (s0.Keeps F)) (execOpenVersionWriteLatest queue idx s) := by
  unfold execOpenVersionWriteLatest
  apply Nxt.next
  apply State.runCmd_keeps (hF.le rfl)
  · exact h_s
  · intro v1 v2 v3 h4
    apply State.openWrite_keeps (hF.le rfl)
    exact h4

theorem execOpenVersionUnbind_keeps {s0 : State} {F : List Part} (hF : Within [.dict, .hbm, .mem, .arb, .out, .freeCtr, .fac, .jobs, .shared, .queues, .ports, .svc, .reg, .stackTab, .media, .recov, .power, .glody] F) {queue : Fin 32768} {idx : Fin 65536} {s : State} (h_s : s0.Keeps F s) :
    (Nxt (s0.Keeps F)) (execOpenVersionUnbind queue idx s) := by
  unfold execOpenVersionUnbind
  apply Nxt.next
  apply State.runCmd_keeps (hF.le rfl)
  · exact h_s
  · intro v1 v2 v3 h4
    apply State.unbind_keeps (hF.le rfl)
    exact h4

theorem State.bindAfter_keeps {s0 s : State} {F : List Part} (hF : Within [.dict, .hbm, .mem, .arb, .out, .freeCtr, .fac, .jobs, .shared, .ports, .svc, .reg, .stackTab, .media, .recov, .power, .glody] F) {n h v : Nat} {cont : Bool} (h_s : s0.Keeps F s) :
    (Snd (s0.Keeps F)) (State.bindAfter s n h v cont) := by
  unfold State.bindAfter
  split
  · apply Snd.mk
    exact h_s
  · split
    · apply Snd.mk
      exact h_s
    · apply Snd.mk
      apply State.withRefs_keeps (hF.le rfl)
      · exact h_s
      · intro v5 h6
        apply State.bindWrite_keeps (hF.le rfl)
        exact h6

theorem State.publishCmd_keeps {s0 s : State} {F : List Part} (hF : Within [.dict, .hbm, .mem, .arb, .out, .freeCtr, .fac, .jobs, .shared, .queues, .ports, .svc, .reg, .stackTab, .media, .recov, .power, .glody] F) {hd : Nat} {c : Cmd} {cas : Bool} (h_s : s0.Keeps F s) :
    s0.Keeps F (State.publishCmd s hd c cas) := by
  unfold State.publishCmd
  extract_lets +onlyGivenNames x1 x2 x3 x4
  clear_value x1 x2 x3 x4
  split
  · apply State.fail_keeps (hF.le rfl)
    exact h_s
  · extract_lets +onlyGivenNames x7
    have h7 : s0.Keeps F x7 := by
      unfold x7
      apply State.settleOpen_keeps (hF.le rfl)
      apply State.leaseTouch_keeps (hF.le rfl)
      exact h_s
    clear_value x7
    extract_lets +onlyGivenNames x8
    clear_value x8
    split
    · apply State.fail_keeps (hF.le rfl)
      exact h7
    · split
      · apply State.finish_keeps (hF.le rfl)
        exact h7
      · extract_lets +onlyGivenNames x13
        clear_value x13
        extract_lets +onlyGivenNames x14
        have h14 : s0.Keeps F x14 := by
          unfold x14
          apply State.withRefs_keeps (hF.le rfl)
          · exact h7
          · intro v15 h16
            apply State.bindRead_keeps (hF.le rfl)
            apply Snd.get
            apply State.publish_keeps (hF.le rfl)
            exact h16
        clear_value x14
        split
        apply State.finish_keeps (hF.le rfl)
        refine Snd.of_eq ?_ (by assumption)
        apply State.bindAfter_keeps (hF.le rfl)
        exact h14

theorem execPublishPlain_keeps {s0 : State} {F : List Part} (hF : Within [.dict, .hbm, .mem, .arb, .out, .freeCtr, .fac, .jobs, .shared, .queues, .ports, .svc, .reg, .stackTab, .media, .recov, .power, .glody] F) {queue : Fin 32768} {idx : Fin 65536} {s : State} (h_s : s0.Keeps F s) :
    (Nxt (s0.Keeps F)) (execPublishPlain queue idx s) := by
  unfold execPublishPlain
  apply Nxt.next
  apply State.runCmd_keeps (hF.le rfl)
  · exact h_s
  · intro v1 v2 v3 h4
    apply State.publishCmd_keeps (hF.le rfl)
    exact h4

theorem execPublishCas_keeps {s0 : State} {F : List Part} (hF : Within [.dict, .hbm, .mem, .arb, .out, .freeCtr, .fac, .jobs, .shared, .queues, .ports, .svc, .reg, .stackTab, .media, .recov, .power, .glody] F) {queue : Fin 32768} {idx : Fin 65536} {s : State} (h_s : s0.Keeps F s) :
    (Nxt (s0.Keeps F)) (execPublishCas queue idx s) := by
  unfold execPublishCas
  apply Nxt.next
  apply State.runCmd_keeps (hF.le rfl)
  · exact h_s
  · intro v1 v2 v3 h4
    apply State.publishCmd_keeps (hF.le rfl)
    exact h4

theorem State.closeVersion_keeps {s0 s : State} {F : List Part} (hF : Within [.dict, .hbm, .mem, .arb, .out, .freeCtr, .fac, .jobs, .shared, .queues, .ports, .svc, .reg, .stackTab, .media, .recov, .power, .glody] F) {hd : Nat} {c : Cmd} (h_s : s0.Keeps F s) :
    s0.Keeps F (State.closeVersion s hd c) := by
  unfold State.closeVersion
  extract_lets +onlyGivenNames x1 x2 x3 x4
  clear_value x1 x2 x3 x4
  split
  · apply State.fail_keeps (hF.le rfl)
    exact h_s
  · apply State.finish_keeps (hF.le rfl)
    apply State.withRefs_keeps (hF.le rfl)
    · apply State.leaseTouch_keeps (hF.le rfl)
      exact h_s
    · intro v7 h8
      apply State.dropOpen_keeps (hF.le rfl)
      exact h8

theorem execCloseVersion_keeps {s0 : State} {F : List Part} (hF : Within [.dict, .hbm, .mem, .arb, .out, .freeCtr, .fac, .jobs, .shared, .queues, .ports, .svc, .reg, .stackTab, .media, .recov, .power, .glody] F) {queue : Fin 32768} {idx : Fin 65536} {s : State} (h_s : s0.Keeps F s) :
    (Nxt (s0.Keeps F)) (execCloseVersion queue idx s) := by
  unfold execCloseVersion
  apply Nxt.next
  apply State.runCmd_keeps (hF.le rfl)
  · exact h_s
  · intro v1 v2 v3 h4
    apply State.closeVersion_keeps (hF.le rfl)
    exact h4

theorem State.leaseRenew_keeps {s0 s : State} {F : List Part} (hF : Within [.dict, .shared, .queues] F) {hd : Nat} {c : Cmd} (h_s : s0.Keeps F s) :
    s0.Keeps F (State.leaseRenew s hd c) := by
  unfold State.leaseRenew
  extract_lets +onlyGivenNames x1 x2
  clear_value x1 x2
  split
  · extract_lets +onlyGivenNames x4
    clear_value x4
    split
    · apply State.fail_keeps (hF.le rfl)
      exact h_s
    · apply State.finish_keeps (hF.le rfl)
      apply forAll_keeps
      · intro v10 v11 h12
        apply State.leaseFull_keeps (hF.le rfl)
        exact h12
      · exact h_s
  · extract_lets +onlyGivenNames x14
    clear_value x14
    split
    · apply State.fail_keeps (hF.le rfl)
      exact h_s
    · split
      · apply State.fail_keeps (hF.le rfl)
        exact h_s
      · split
        · apply State.fail_keeps (hF.le rfl)
          exact h_s
        · apply State.finish_keeps (hF.le rfl)
          apply State.leaseFull_keeps (hF.le rfl)
          exact h_s

theorem execLeaseRenew_keeps {s0 : State} {F : List Part} (hF : Within [.dict, .shared, .queues] F) {queue : Fin 32768} {idx : Fin 65536} {s : State} (h_s : s0.Keeps F s) :
    (Nxt (s0.Keeps F)) (execLeaseRenew queue idx s) := by
  unfold execLeaseRenew
  apply Nxt.next
  apply State.runCmd_keeps (hF.le rfl)
  · exact h_s
  · intro v1 v2 v3 h4
    apply State.leaseRenew_keeps (hF.le rfl)
    exact h4

theorem State.leaseRelease_keeps {s0 s : State} {F : List Part} (hF : Within [.dict, .hbm, .mem, .arb, .out, .freeCtr, .fac, .jobs, .shared, .queues, .ports, .svc, .reg, .stackTab, .media, .recov, .power, .glody] F) {hd : Nat} {c : Cmd} (h_s : s0.Keeps F s) :
    s0.Keeps F (State.leaseRelease s hd c) := by
  unfold State.leaseRelease
  extract_lets +onlyGivenNames x1 x2 x3
  clear_value x1 x2 x3
  split
  · apply State.fail_keeps (hF.le rfl)
    exact h_s
  · split
    · apply State.fail_keeps (hF.le rfl)
      exact h_s
    · split
      · apply State.fail_keeps (hF.le rfl)
        exact h_s
      · extract_lets +onlyGivenNames x10
        clear_value x10
        split
        · apply forAll_keeps
          · intro v12 v13 h14
            apply State.snoop_keeps (hF.le rfl)
            exact h14
          · exact h_s
        · apply State.finish_keeps (hF.le rfl)
          apply State.modSr_keeps (hF.le rfl)
          apply State.withRefs_keeps (hF.le rfl)
          · exact h_s
          · intro v16 h17
            apply State.bindRead_keeps (hF.le rfl)
            exact h17

theorem execLeaseRelease_keeps {s0 : State} {F : List Part} (hF : Within [.dict, .hbm, .mem, .arb, .out, .freeCtr, .fac, .jobs, .shared, .queues, .ports, .svc, .reg, .stackTab, .media, .recov, .power, .glody] F) {queue : Fin 32768} {idx : Fin 65536} {s : State} (h_s : s0.Keeps F s) :
    (Nxt (s0.Keeps F)) (execLeaseRelease queue idx s) := by
  unfold execLeaseRelease
  apply Nxt.next
  apply State.runCmd_keeps (hF.le rfl)
  · exact h_s
  · intro v1 v2 v3 h4
    apply State.leaseRelease_keeps (hF.le rfl)
    exact h4

theorem State.rejoinCmd_keeps {s0 s : State} {F : List Part} (hF : Within [.dict, .shared, .queues] F) {hd : Nat} {c : Cmd} (h_s : s0.Keeps F s) :
    s0.Keeps F (State.rejoinCmd s hd c) := by
  unfold State.rejoinCmd
  extract_lets +onlyGivenNames x1 x2 x3
  clear_value x1 x2 x3
  split
  · apply State.fail_keeps (hF.le rfl)
    exact h_s
  · apply State.finish_keeps (hF.le rfl)
    apply State.rejoin_keeps (hF.le rfl)
    exact h_s

theorem execRejoin_keeps {s0 : State} {F : List Part} (hF : Within [.dict, .shared, .queues] F) {queue : Fin 32768} {idx : Fin 65536} {s : State} (h_s : s0.Keeps F s) :
    (Nxt (s0.Keeps F)) (execRejoin queue idx s) := by
  unfold execRejoin
  apply Nxt.next
  apply State.runCmd_keeps (hF.le rfl)
  · exact h_s
  · intro v1 v2 v3 h4
    apply State.rejoinCmd_keeps (hF.le rfl)
    exact h4

theorem State.declareDead_keeps {s0 s : State} {F : List Part} (hF : Within [.dict, .hbm, .t0, .mem, .arb, .out, .freeCtr, .fac, .jobs, .shared, .ports, .svc, .reg, .stackTab, .media, .recov, .power, .glody] F) {n h : Nat} (h_s : s0.Keeps F s) :
    s0.Keeps F (State.declareDead s n h) := by
  unfold State.declareDead
  split
  · exact h_s
  · apply State.hidDeath_keeps (hF.le rfl)
    exact h_s

theorem execLeaseExpiryCheck_keeps {s0 : State} {F : List Part} (hF : Within [.dict, .hbm, .t0, .mem, .arb, .out, .freeCtr, .own, .fac, .jobs, .reds, .shared, .queues, .ports, .svc, .reg, .stackTab, .media, .recov, .power, .glody] F) {ph : Phys} {s : State} (h_s : s0.Keeps F s) :
    (Nxt (s0.Keeps F)) (execLeaseExpiryCheck ph s) := by
  unfold execLeaseExpiryCheck
  apply Nxt.next
  split
  · exact h_s
  · extract_lets +onlyGivenNames x3
    clear_value x3
    extract_lets +onlyGivenNames x4
    have h4 : s0.Keeps F x4 := by
      unfold x4
      refine State.Keeps.congr (s := s) (D := [.shared]) (hF.le rfl) ?_ rfl rfl rfl rfl (by rintro ⟨⟩ <;> (first | exact .inr rfl | simp))
      exact h_s
    clear_value x4
    apply State.retryCoh_keeps (hF.le rfl)
    apply forAll_keeps
    · intro v5 v6 h7
      extract_lets +onlyGivenNames x8
      clear_value x8
      apply forAll_keeps
      · intro v9 v10 h11
        apply State.declareDead_keeps (hF.le rfl)
        exact h11
      · exact h7
    · exact h4

theorem execShareDeclareDead_keeps {s0 : State} {F : List Part} (hF : Within [.dict, .hbm, .t0, .mem, .arb, .out, .freeCtr, .own, .fac, .jobs, .reds, .shared, .queues, .ports, .svc, .reg, .stackTab, .media, .recov, .power, .glody] F) {value : Nat} {ph : Phys} {s : State} (h_s : s0.Keeps F s) :
    (Nxt (s0.Keeps F)) (execShareDeclareDead value ph s) := by
  unfold execShareDeclareDead
  apply Nxt.next
  apply State.barWrite_keeps (hF.le rfl)
  · exact h_s
  · intro v1 h2
    apply State.retryCoh_keeps (hF.le rfl)
    apply State.declareDead_keeps (hF.le rfl)
    exact h2

theorem execShareRevive_keeps {s0 : State} {F : List Part} (hF : Within [.dict, .out, .freeCtr, .shared, .svc] F) {value : Nat} {s : State} (h_s : s0.Keeps F s) :
    (Nxt (s0.Keeps F)) (execShareRevive value s) := by
  unfold execShareRevive
  apply Nxt.next
  apply State.barWrite_keeps (hF.le rfl)
  · exact h_s
  · intro v1 h2
    apply State.rejoin_keeps (hF.le rfl)
    exact h2

theorem execLinkGraceExpiry_keeps {s0 : State} {F : List Part} (hF : Within [.dict, .hbm, .t0, .mem, .arb, .out, .freeCtr, .own, .fac, .jobs, .reds, .shared, .queues, .ports, .svc, .reg, .stackTab, .media, .recov, .power, .glody] F) {hid : Fin 256} {ph : Phys} {s : State} (h_s : s0.Keeps F s) :
    (Nxt (s0.Keeps F)) (execLinkGraceExpiry hid ph s) := by
  unfold execLinkGraceExpiry
  extract_lets +onlyGivenNames x1 x2
  clear_value x1 x2
  apply Nxt.next
  split
  · exact h_s
  · apply State.retryCoh_keeps (hF.le rfl)
    apply forAll_keeps
    · intro v5 v6 h7
      split
      · apply State.declareDead_keeps (hF.le rfl)
        exact h7
      · exact h7
    · exact h_s

theorem execBisnpResponse_keeps {s0 : State} {F : List Part} (hF : Within [.dict, .hbm, .t0, .mem, .arb, .out, .freeCtr, .own, .fac, .jobs, .reds, .shared, .queues, .ports, .svc, .reg, .stackTab, .media, .recov, .power, .glody] F) {port : Fin 512} {line : Nat} {shared : Bool} {ph : Phys} {s : State} (h_s : s0.Keeps F s) :
    (Nxt (s0.Keeps F)) (execBisnpResponse port line shared ph s) := by
  unfold execBisnpResponse
  extract_lets +onlyGivenNames x1
  clear_value x1
  apply Nxt.next
  split
  · exact h_s
  · apply State.retryCoh_keeps (hF.le rfl)
    apply State.snoopAnswer_keeps (hF.le rfl)
    exact h_s

theorem execBisnpTimeout_keeps {s0 : State} {F : List Part} (hF : Within [.dict, .hbm, .t0, .mem, .arb, .out, .freeCtr, .own, .fac, .jobs, .reds, .shared, .queues, .ports, .svc, .reg, .stackTab, .media, .recov, .power, .glody] F) {line : Nat} {hid : Fin 256} {ph : Phys} {s : State} (h_s : s0.Keeps F s) :
    (Nxt (s0.Keeps F)) (execBisnpTimeout line hid ph s) := by
  unfold execBisnpTimeout
  apply Nxt.next
  split
  · exact h_s
  · split
    · exact h_s
    · split
      · extract_lets +onlyGivenNames x9
        clear_value x9
        extract_lets +onlyGivenNames x10
        have h10 : s0.Keeps F x10 := by
          unfold x10
          refine State.Keeps.congr (s := s) (D := [.shared]) (hF.le rfl) ?_ rfl rfl rfl rfl (by rintro ⟨⟩ <;> (first | exact .inr rfl | simp))
          exact h_s
        clear_value x10
        split
        · apply State.send_keeps (hF.le rfl)
          exact h10
        · exact h10
      · extract_lets +onlyGivenNames x17
        have h17 : s0.Keeps F x17 := by
          unfold x17
          split
          · apply State.declareDead_keeps (hF.le rfl)
            exact h_s
          · exact h_s
        clear_value x17
        extract_lets +onlyGivenNames x23
        clear_value x23
        extract_lets +onlyGivenNames x24
        have h24 : s0.Keeps F x24 := by
          unfold x24
          refine State.Keeps.congr (s := x17) (D := [.shared]) (hF.le rfl) ?_ rfl rfl rfl rfl (by rintro ⟨⟩ <;> (first | exact .inr rfl | simp))
          exact h17
        clear_value x24
        apply State.retryCoh_keeps (hF.le rfl)
        exact h24

theorem execBiconflict_keeps {s0 : State} {F : List Part} (hF : Within [.out, .ports] F) {port : Fin 512} {line : Nat} {s : State} (h_s : s0.Keeps F s) :
    (Nxt (s0.Keeps F)) (execBiconflict port line s) := by
  unfold execBiconflict
  apply Nxt.next
  split
  · apply State.send_keeps (hF.le rfl)
    exact h_s
  · exact h_s

end Sys2Proof.Machine
end

