-- ==== Sys2Proof/Laws/KeepsMover.lean ====
section
/-! SUPPORT. Every effect of Machine/Mover.lean leaves the queue alone, keeps the canonical form and writes only the parts named. -/
namespace Sys2Proof.Machine

theorem State.settleMismatch_keeps {s0 s : State} {F : List Part} (hF : Within [.dict, .arb, .out, .fac, .jobs, .svc, .integ, .recov, .power, .boot, .glody] F) {j : PackJob} {code : Nat} {own partner : Bool} (h_s : s0.Keeps F s) :
    s0.Keeps F (State.settleMismatch s j code own partner) := by
  unfold State.settleMismatch
  extract_lets +onlyGivenNames x1 x2
  clear_value x1 x2
  extract_lets +onlyGivenNames x3
  have h3 : ∀ a0 a1 a2 a3, s0.Keeps F a0 → s0.Keeps F (x3 a0 a1 a2 a3) := by
    unfold x3
    intro v4 v5 v6 v7 h8
    apply State.record_keeps (hF.le rfl)
    exact h8
  clear_value x3
  split
  · exact h_s
  · extract_lets +onlyGivenNames x13 x14
    clear_value x13 x14
    extract_lets +onlyGivenNames x15
    have h15 : s0.Keeps F x15 := by
      unfold x15
      apply State.laneFault_keeps (hF.le rfl)
      exact h_s
    clear_value x15
    apply h3
    exact h15
  · apply h3
    apply State.observe_keeps (hF.le rfl)
    exact h_s
  · apply h3
    apply State.observe_keeps (hF.le rfl)
    exact h_s

theorem State.checkEnd_keeps {s0 s : State} {F : List Part} (hF : Within [.dict, .hbm, .t0, .mem, .arb, .out, .freeCtr, .own, .fac, .jobs, .reds, .shared, .queues, .ports, .svc, .reg, .stackTab, .media, .integ, .recov, .power, .boot, .glody] F) {key : Nat} {flag : Bool} {code : Nat} {own partner : Bool} {ph : Phys} (h_s : s0.Keeps F s) :
    s0.Keeps F (State.checkEnd s key flag code own partner ph) := by
  unfold State.checkEnd
  split
  · exact h_s
  · extract_lets +onlyGivenNames x6 x7
    clear_value x6 x7
    extract_lets +onlyGivenNames x8
    have h8 : s0.Keeps F x8 := by
      unfold x8
      apply State.packEnd_keeps (hF.le rfl)
      exact h_s
    clear_value x8
    apply State.retryHub_keeps (hF.le rfl)
    split
    · exact h8
    · apply State.settleMismatch_keeps (hF.le rfl)
      exact h8

theorem execCheckerRoundTrip_keeps {s0 : State} {F : List Part} (hF : Within [.dict, .hbm, .t0, .mem, .arb, .out, .freeCtr, .own, .fac, .jobs, .reds, .shared, .queues, .ports, .svc, .reg, .stackTab, .media, .integ, .recov, .power, .boot, .glody] F) {block : Fin 1073741824} {owner : Fin 257} {flag : Bool} {code : Fin 32} {own partner : Bool} {ph : Phys} {s : State} (h_s : s0.Keeps F s) :
    (Nxt (s0.Keeps F)) (execCheckerRoundTrip block owner flag code own partner ph s) := by
  unfold execCheckerRoundTrip
  apply Nxt.next
  apply State.checkEnd_keeps (hF.le rfl)
  exact h_s

theorem State.moverCommit_keeps {s0 s : State} {F : List Part} (hF : Within [.dict, .hbm, .mem, .out, .freeCtr, .jobs, .shared, .svc, .reg, .media, .glody] F) {v : View} {b : Nat} {f : Form} (h_s : s0.Keeps F s) :
    (Opt (s0.Keeps F)) (State.moverCommit s v b f) := by
  unfold State.moverCommit
  apply State.commitForm_keeps (hF.le rfl)
  exact h_s

theorem State.relocate_keeps {s0 s : State} {F : List Part} (hF : Within [.dict, .hbm, .mem, .out, .freeCtr, .fac, .jobs, .shared, .ports, .svc, .reg, .stackTab, .media, .glody] F) {b : Nat} {w : MapWord} {ph : Phys} (h_s : s0.Keeps F s) :
    (Opt (s0.Keeps F)) (State.relocate s b w ph) := by
  unfold State.relocate
  extract_lets +onlyGivenNames x1
  clear_value x1
  split
  · apply Opt.none
  · split
    split
    split
    · apply Opt.map
      intro v16
      apply State.failBlock_keeps (hF.le rfl)
      refine Snd.of_eq ?_ (by assumption)
      split
      · apply Snd.mk
        refine Fst.of_eq ?_ (by assumption)
        apply State.noteLines_keeps (hF.le rfl)
        exact h_s
      · split
        · apply Snd.mk
          refine Fst.of_eq ?_ (by assumption)
          apply State.noteLines_keeps (hF.le rfl)
          exact h_s
        · split
          apply Snd.mk
          refine Fst.of_eq ?_ (by assumption)
          apply State.noteLines_keeps (hF.le rfl)
          refine Fst.of_eq ?_ (by assumption)
          apply State.noteLines_keeps (hF.le rfl)
          exact h_s
    · extract_lets +onlyGivenNames x30 x31 x32
      clear_value x30 x31 x32
      split
      · apply Opt.none
      · extract_lets +onlyGivenNames x40 x41
        clear_value x40 x41
        extract_lets +onlyGivenNames x42
        have h42 : s0.Keeps F x42 := by
          unfold x42
          apply State.storeBytes_keeps (hF.le rfl)
          refine Opt.snd_of_eq₂ ?_ (by assumption)
          apply State.allocCopies_keeps (hF.le rfl)
          refine Snd.of_eq ?_ (by assumption)
          split
          · apply Snd.mk
            refine Fst.of_eq ?_ (by assumption)
            apply State.noteLines_keeps (hF.le rfl)
            exact h_s
          · split
            · apply Snd.mk
              refine Fst.of_eq ?_ (by assumption)
              apply State.noteLines_keeps (hF.le rfl)
              exact h_s
            · split
              apply Snd.mk
              refine Fst.of_eq ?_ (by assumption)
              apply State.noteLines_keeps (hF.le rfl)
              refine Fst.of_eq ?_ (by assumption)
              apply State.noteLines_keeps (hF.le rfl)
              exact h_s
        clear_value x42
        extract_lets +onlyGivenNames x54
        have h54 : s0.Keeps F x54 := by
          unfold x54
          split
          · exact h42
          · refine State.modMem_keeps (hF.le rfl) ?_ (fun _ => rfl) (fun _ => rfl)
            apply State.storeBytes_keeps (hF.le rfl)
            exact h42
        clear_value x54
        extract_lets +onlyGivenNames x57
        clear_value x57
        apply Opt.some
        apply State.release_keeps (hF.le rfl)
        apply State.swapWord_keeps (hF.le rfl)
        exact h54

theorem State.shutFrame_keeps {s0 s : State} {F : List Part} (hF : Within [.mem] F) {key : Nat} (h_s : s0.Keeps F s) :
    s0.Keeps F (State.shutFrame s key) := by
  unfold State.shutFrame
  refine State.modMem_keeps (hF.le rfl) ?_ (fun _ => rfl) (fun _ => rfl)
  exact h_s

theorem execRelocateBlock_keeps {s0 : State} {F : List Part} (hF : Within [.dict, .hbm, .mem, .arb, .out, .freeCtr, .fac, .jobs, .shared, .ports, .svc, .reg, .stackTab, .media, .power, .glody] F) {block : Fin 1073741824} {ph : Phys} {s : State} (h_s : s0.Keeps F s) :
    (Nxt (s0.Keeps F)) (execRelocateBlock block ph s) := by
  unfold execRelocateBlock
  extract_lets +onlyGivenNames x1 x2
  clear_value x1 x2
  apply Nxt.next
  split
  · exact h_s
  · apply Opt.getD
    · apply State.relocate_keeps (hF.le rfl)
      apply forAll_keeps
      · intro v8 v9 h10
        apply State.shutFrame_keeps (hF.le rfl)
        exact h10
      · apply State.moverGrant_keeps (hF.le rfl)
        exact h_s
    · exact h_s

theorem execMirrorHomeRewrite_keeps {s0 : State} {F : List Part} (hF : Within [.dict, .hbm, .mem, .arb, .out, .freeCtr, .fac, .jobs, .shared, .ports, .svc, .reg, .stackTab, .media, .power, .glody] F) {block : Fin 1073741824} {ph : Phys} {s : State} (h_s : s0.Keeps F s) :
    (Nxt (s0.Keeps F)) (execMirrorHomeRewrite block ph s) := by
  unfold execMirrorHomeRewrite
  extract_lets +onlyGivenNames x1 x2 x3 x4
  clear_value x1 x2 x3 x4
  apply Nxt.next
  split
  · exact h_s
  · apply forAll_keeps
    · intro v7 v8 h9
      extract_lets +onlyGivenNames x10
      clear_value x10
      split
      · split
        · exact h9
        · split
          · refine Snd.of_eq ?_ (by assumption)
            apply State.fetchLines_keeps (hF.le rfl)
            apply State.moverGrant_keeps (hF.le rfl)
            exact h9
          · split
            · apply State.rewrite_keeps (hF.le rfl)
              refine Snd.of_eq ?_ (by assumption)
              apply State.fetchLines_keeps (hF.le rfl)
              refine Snd.of_eq ?_ (by assumption)
              apply State.fetchLines_keeps (hF.le rfl)
              apply State.moverGrant_keeps (hF.le rfl)
              exact h9
            · apply State.failBlock_keeps (hF.le rfl)
              refine Snd.of_eq ?_ (by assumption)
              apply State.fetchLines_keeps (hF.le rfl)
              refine Snd.of_eq ?_ (by assumption)
              apply State.fetchLines_keeps (hF.le rfl)
              apply State.moverGrant_keeps (hF.le rfl)
              exact h9
      · exact h9
    · exact h_s

theorem State.moverRead_keeps {s0 s : State} {F : List Part} (hF : Within [.dict, .hbm, .mem, .arb, .out, .freeCtr, .fac, .jobs, .shared, .ports, .svc, .reg, .stackTab, .media, .recov, .power, .glody] F) {b : Nat} {ph : Phys} (h_s : s0.Keeps F s) :
    s0.Keeps F (State.moverRead s b ph) := by
  unfold State.moverRead
  split
  · exact h_s
  · split
    · exact h_s
    · apply forAll_keeps
      · intro v8 v9 h10
        extract_lets +onlyGivenNames x11
        clear_value x11
        split
        · exact h10
        · exact h10
        · split
          · exact h10
          · split
            · refine State.modMem_keeps (hF.le rfl) ?_ (fun _ => rfl) (fun _ => rfl)
              refine Snd.of_eq ?_ (by assumption)
              apply State.readBlock_keeps (hF.le rfl)
              apply State.moverGrant_keeps (hF.le rfl)
              exact h10
            · refine Snd.of_eq ?_ (by assumption)
              apply State.readBlock_keeps (hF.le rfl)
              apply State.moverGrant_keeps (hF.le rfl)
              exact h10
      · exact h_s

theorem execMoverSweep_keeps {s0 : State} {F : List Part} (hF : Within [.dict, .hbm, .mem, .arb, .out, .freeCtr, .fac, .jobs, .shared, .ports, .svc, .reg, .stackTab, .media, .recov, .power, .glody] F) {region : Fin 4} {ph : Phys} {s : State} (h_s : s0.Keeps F s) :
    (Nxt (s0.Keeps F)) (execMoverSweep region ph s) := by
  unfold execMoverSweep
  extract_lets +onlyGivenNames x1
  clear_value x1
  apply Nxt.next
  split
  · exact h_s
  · extract_lets +onlyGivenNames x4
    have h4 : s0.Keeps F x4 := by
      unfold x4
      apply State.decay_keeps (hF.le rfl)
      exact h_s
    clear_value x4
    extract_lets +onlyGivenNames x5
    clear_value x5
    extract_lets +onlyGivenNames x6
    have h6 : s0.Keeps F x6 := by
      unfold x6
      refine State.modMem_keeps (hF.le rfl) ?_ (fun _ => rfl) (fun _ => rfl)
      exact h4
    clear_value x6
    apply forAll_keeps
    · intro v7 v8 h9
      apply State.moverRead_keeps (hF.le rfl)
      exact h9
    · exact h6

theorem State.recompress_keeps {s0 s : State} {F : List Part} (hF : Within [.dict, .hbm, .mem, .arb, .out, .freeCtr, .jobs, .shared, .svc, .reg, .media, .power, .glody] F) {w b : Nat} {x : MapWord} {d : List Byte} (h_s : s0.Keeps F s) :
    s0.Keeps F (State.recompress s w b x d) := by
  unfold State.recompress
  extract_lets +onlyGivenNames x1
  clear_value x1
  split
  · exact h_s
  · extract_lets +onlyGivenNames x7
    clear_value x7
    split
    · exact h_s
    · split
      · split
        · apply Opt.getD
          · apply State.moverCommit_keeps (hF.le rfl)
            refine Snd.of_eq ?_ (by assumption)
            apply State.laneForm_keeps (hF.le rfl)
            apply State.moverGrant_keeps (hF.le rfl)
            exact h_s
          · refine Snd.of_eq ?_ (by assumption)
            apply State.laneForm_keeps (hF.le rfl)
            apply State.moverGrant_keeps (hF.le rfl)
            exact h_s
        · refine Snd.of_eq ?_ (by assumption)
          apply State.laneForm_keeps (hF.le rfl)
          apply State.moverGrant_keeps (hF.le rfl)
          exact h_s
      · split
        · split
          · apply State.count_keeps (hF.le rfl)
            refine Opt.of_eq ?_ (by assumption)
            apply State.moverCommit_keeps (hF.le rfl)
            exact h_s
          · refine Opt.of_eq ?_ (by assumption)
            apply State.moverCommit_keeps (hF.le rfl)
            exact h_s
        · exact h_s

theorem execMoverRecompress_keeps {s0 : State} {F : List Part} (hF : Within [.dict, .hbm, .mem, .arb, .out, .freeCtr, .jobs, .shared, .svc, .reg, .media, .power, .glody] F) {block : Fin 1073741824} {s : State} (h_s : s0.Keeps F s) :
    (Nxt (s0.Keeps F)) (execMoverRecompress block s) := by
  unfold execMoverRecompress
  extract_lets +onlyGivenNames x1 x2
  clear_value x1 x2
  apply Nxt.next
  split
  · refine State.modMem_keeps (hF.le rfl) ?_ (fun _ => rfl) (fun _ => rfl)
    exact h_s
  · apply forAll_keeps
    · intro v8 v9 h10
      apply State.recompress_keeps (hF.le rfl)
      exact h10
    · refine State.modMem_keeps (hF.le rfl) ?_ (fun _ => rfl) (fun _ => rfl)
      exact h_s

theorem execMoverPromote_keeps {s0 : State} {F : List Part} (hF : Within [.dict, .hbm, .mem, .arb, .out, .freeCtr, .fac, .jobs, .shared, .ports, .svc, .reg, .stackTab, .media, .recov, .power, .glody] F) {region : Fin 4} {ph : Phys} {s : State} (h_s : s0.Keeps F s) :
    (Nxt (s0.Keeps F)) (execMoverPromote region ph s) := by
  unfold execMoverPromote
  extract_lets +onlyGivenNames x1
  clear_value x1
  apply Nxt.next
  split
  · exact h_s
  · extract_lets +onlyGivenNames x8
    have h8 : s0.Keeps F x8 := by
      unfold x8
      refine State.modMem_keeps (hF.le rfl) ?_ (fun _ => rfl) (fun _ => rfl)
      exact h_s
    clear_value x8
    split
    · extract_lets +onlyGivenNames x15
      clear_value x15
      split
      · exact h8
      · split
        · refine Snd.of_eq ?_ (by assumption)
          apply State.readBlock_keeps (hF.le rfl)
          apply State.moverGrant_keeps (hF.le rfl)
          exact h8
        · split
          · refine Snd.of_eq ?_ (by assumption)
            apply State.readBlock_keeps (hF.le rfl)
            apply State.moverGrant_keeps (hF.le rfl)
            exact h8
          · split
            · refine Snd.of_eq ?_ (by assumption)
              apply State.readBlock_keeps (hF.le rfl)
              apply State.moverGrant_keeps (hF.le rfl)
              exact h8
            · apply State.count_keeps (hF.le rfl)
              refine State.modMem_keeps (hF.le rfl) ?_ (fun _ => rfl) (fun _ => rfl)
              refine Opt.of_eq ?_ (by assumption)
              apply State.moverCommit_keeps (hF.le rfl)
              refine Snd.of_eq ?_ (by assumption)
              apply State.readBlock_keeps (hF.le rfl)
              apply State.moverGrant_keeps (hF.le rfl)
              exact h8
    · exact h8

theorem execDetourSpill_keeps {s0 : State} {F : List Part} (hF : Within [.dict, .hbm, .mem, .arb, .out, .freeCtr, .fac, .jobs, .shared, .ports, .svc, .reg, .stackTab, .media, .recov, .power, .glody] F) {block : Fin 1073741824} {flushed : Bool} {ph : Phys} {s : State} (h_s : s0.Keeps F s) :
    (Nxt (s0.Keeps F)) (execDetourSpill block flushed ph s) := by
  unfold execDetourSpill
  extract_lets +onlyGivenNames x1 x2
  clear_value x1 x2
  apply Nxt.next
  split
  · exact h_s
  · split
    · split
      split
      · apply State.commitSlot_keeps (hF.le rfl)
        refine Snd.of_eq ?_ (by assumption)
        apply State.fillSlot_keeps (hF.le rfl)
        refine Snd.of_eq ?_ (by assumption)
        apply State.readBlock_keeps (hF.le rfl)
        apply State.moverGrant_keeps (hF.le rfl)
        exact h_s
      · apply State.freeSlot_keeps (hF.le rfl)
        refine Snd.of_eq ?_ (by assumption)
        apply State.fillSlot_keeps (hF.le rfl)
        refine Snd.of_eq ?_ (by assumption)
        apply State.readBlock_keeps (hF.le rfl)
        apply State.moverGrant_keeps (hF.le rfl)
        exact h_s
    · refine Snd.of_eq ?_ (by assumption)
      apply State.readBlock_keeps (hF.le rfl)
      apply State.moverGrant_keeps (hF.le rfl)
      exact h_s

theorem execDetourRecall_keeps {s0 : State} {F : List Part} (hF : Within [.dict, .hbm, .mem, .arb, .out, .freeCtr, .fac, .jobs, .shared, .ports, .svc, .reg, .media, .power, .glody] F) {block : Fin 1073741824} {host : HostData} {s : State} (h_s : s0.Keeps F s) :
    (Nxt (s0.Keeps F)) (execDetourRecall block host s) := by
  unfold execDetourRecall
  extract_lets +onlyGivenNames x1 x2
  clear_value x1 x2
  apply Nxt.next
  split
  · split
    · exact h_s
    · extract_lets +onlyGivenNames x11
      have h11 : s0.Keeps F x11 := by
        unfold x11
        apply State.svcPut_keeps (hF.le rfl)
        apply State.moverGrant_keeps (hF.le rfl)
        exact h_s
      clear_value x11
      split
      · apply State.count_keeps (hF.le rfl)
        exact h11
      · apply State.detourBad_keeps (hF.le rfl)
        exact h11
      · split
        apply Opt.getD
        · apply State.commitForm_keeps (hF.le rfl)
          refine Snd.of_eq ?_ (by assumption)
          apply State.homeForm_keeps (hF.le rfl)
          exact h11
        · refine Snd.of_eq ?_ (by assumption)
          apply State.homeForm_keeps (hF.le rfl)
          exact h11
  · exact h_s

theorem State.detourLost_keeps {s0 s : State} {F : List Part} (hF : Within [.dict, .hbm, .mem, .arb, .out, .freeCtr, .fac, .jobs, .shared, .ports, .svc, .reg, .stackTab, .media, .recov, .power, .glody] F) (h_s : s0.Keeps F s) :
    s0.Keeps F (State.detourLost s) := by
  unfold State.detourLost
  split
  · exact h_s
  · extract_lets +onlyGivenNames x3
    clear_value x3
    extract_lets +onlyGivenNames x4
    have h4 : s0.Keeps F x4 := by
      unfold x4
      apply forAll_keeps
      · intro v5 v6 h7
        apply State.slotPoison_keeps (hF.le rfl)
        exact h7
      · apply State.setPar_keeps (hF.le rfl)
        exact h_s
    clear_value x4
    extract_lets +onlyGivenNames x8
    clear_value x8
    extract_lets +onlyGivenNames x9
    have h9 : s0.Keeps F x9 := by
      unfold x9
      refine State.modMem_keeps (hF.le rfl) ?_ (fun _ => rfl) (fun _ => rfl)
      exact h4
    clear_value x9
    extract_lets +onlyGivenNames x10
    have h10 : s0.Keeps F x10 := by
      unfold x10
      apply forAll_keeps
      · intro v11 v12 h13
        split
        · apply State.flushDone_keeps (hF.le rfl)
          exact h13
        · apply State.reply_keeps (hF.le rfl)
          exact h13
      · exact h9
    clear_value x10
    apply State.raise_keeps (hF.le rfl)
    exact h10

theorem State.detSizes_keeps {s0 s : State} {F : List Part} (hF : Within [.dict] F) (h_s : s0.Keeps F s) :
    s0.Keeps F (State.detSizes s) := by
  unfold State.detSizes
  split
  · exact h_s
  · apply State.setPar_keeps (hF.le rfl)
    apply State.setPar_keeps (hF.le rfl)
    exact h_s

theorem State.detourBack_keeps {s0 s : State} {F : List Part} (hF : Within [.dict] F) (h_s : s0.Keeps F s) :
    s0.Keeps F (State.detourBack s) := by
  unfold State.detourBack
  extract_lets +onlyGivenNames x1
  have h1 : s0.Keeps F x1 := by
    unfold x1
    apply State.detSizes_keeps (hF.le rfl)
    exact h_s
  clear_value x1
  split
  · apply State.setPar_keeps (hF.le rfl)
    exact h1
  · exact h1

theorem State.detourOn_keeps {s0 s : State} {F : List Part} (hF : Within [.dict] F) (h_s : s0.Keeps F s) :
    s0.Keeps F (State.detourOn s) := by
  unfold State.detourOn
  extract_lets +onlyGivenNames x1
  have h1 : s0.Keeps F x1 := by
    unfold x1
    apply State.detourBack_keeps (hF.le rfl)
    exact h_s
  clear_value x1
  split
  · apply State.setPar_keeps (hF.le rfl)
    exact h1
  · exact h1

theorem execDetourLost_keeps {s0 s : State} {F : List Part} (hF : Within [.dict, .hbm, .mem, .arb, .out, .freeCtr, .fac, .jobs, .shared, .ports, .svc, .reg, .stackTab, .media, .recov, .power, .glody] F) (h_s : s0.Keeps F s) :
    (Nxt (s0.Keeps F)) (execDetourLost s) := by
  unfold execDetourLost
  apply Nxt.next
  split
  · apply State.detourLost_keeps (hF.le rfl)
    exact h_s
  · exact h_s

end Sys2Proof.Machine
end

