-- ==== Sys2Proof/Laws/KeepsDice.lean ====
section
/-! SUPPORT. Every effect of Machine/Dice.lean leaves the queue alone, keeps the canonical form and writes only the parts named. -/
namespace Sys2Proof.Machine

theorem State.diceStart_keeps {s0 s : State} {F : List Part} (hF : Within [.dict, .integ] F) {q cb : Nat} (h_s : s0.Keeps F s) :
    s0.Keeps F (State.diceStart s q cb) := by
  unfold State.diceStart
  extract_lets +onlyGivenNames x1 x2
  clear_value x1 x2
  extract_lets +onlyGivenNames x3
  have h3 : s0.Keeps F x3 := by
    unfold x3
    apply State.modInteg_keeps (hF.le rfl)
    exact h_s
  clear_value x3
  extract_lets +onlyGivenNames x4
  have h4 : s0.Keeps F x4 := by
    unfold x4
    apply State.modBlk_keeps (hF.le rfl)
    exact h3
  clear_value x4
  apply State.setPar_keeps (hF.le rfl)
  exact h4

theorem State.diceTry_keeps {s0 s : State} {F : List Part} (hF : Within [.dict, .integ] F) {q : Nat} {ok : Nat → Bool} (h_s : s0.Keeps F s) :
    s0.Keeps F (State.diceTry s q ok) := by
  unfold State.diceTry
  split
  · apply State.diceStart_keeps (hF.le rfl)
    exact h_s
  · exact h_s

theorem State.diceCommit_keeps {s0 s : State} {F : List Part} (hF : Within [.dict, .integ] F) (h_s : s0.Keeps F s) :
    s0.Keeps F (State.diceCommit s) := by
  unfold State.diceCommit
  extract_lets +onlyGivenNames x1
  have h1 : s0.Keeps F x1 := by
    unfold x1
    apply State.modInteg_keeps (hF.le rfl)
    exact h_s
  clear_value x1
  apply forAll_keeps
  · intro v2 v3 h4
    apply State.diceTry_keeps (hF.le rfl)
    exact h4
  · exact h1

theorem State.diceWake_keeps {s0 s : State} {F : List Part} (hF : Within [.dict, .freeCtr, .integ] F) {q : Nat} (h_s : s0.Keeps F s) :
    s0.Keeps F (State.diceWake s q) := by
  unfold State.diceWake
  extract_lets +onlyGivenNames x1
  have h1 : s0.Keeps F x1 := by
    unfold x1
    apply forAll_keeps
    · intro v2 v3 h4
      extract_lets +onlyGivenNames x5
      clear_value x5
      split
      · apply State.modBlk_keeps (hF.le rfl)
        apply State.freeNext_keeps (hF.le rfl)
        exact h4
      · exact h4
    · exact h_s
  clear_value x1
  apply State.diceTry_keeps (hF.le rfl)
  exact h1

theorem execDiceRoundDue_keeps {s0 : State} {F : List Part} (hF : Within [.dict, .freeCtr, .integ] F) {region : Fin 4} {block : Fin 9} {s : State} (h_s : s0.Keeps F s) :
    (Nxt (s0.Keeps F)) (execDiceRoundDue region block s) := by
  unfold execDiceRoundDue
  extract_lets +onlyGivenNames x1
  clear_value x1
  apply Nxt.next
  split
  · apply State.diceTry_keeps (hF.le rfl)
    apply State.modBlk_keeps (hF.le rfl)
    apply State.freeNext_keeps (hF.le rfl)
    exact h_s
  · exact h_s

theorem execDiceDeferExpiry_keeps {s0 : State} {F : List Part} (hF : Within [.dict, .integ] F) {region : Fin 4} {s : State} (h_s : s0.Keeps F s) :
    (Nxt (s0.Keeps F)) (execDiceDeferExpiry region s) := by
  unfold execDiceDeferExpiry
  apply Nxt.next
  apply State.diceTry_keeps (hF.le rfl)
  exact h_s

end Sys2Proof.Machine
end

