-- ==== Sys2Proof/Laws/KeepsFactorRun.lean ====
section
/-! SUPPORT. Every effect of Machine/FactorRun.lean leaves the queue alone, keeps the canonical form and writes only the parts named. -/
namespace Sys2Proof.Machine

theorem State.engineForm_keeps {s0 s : State} {F : List Part} (hF : Within [.dict, .hbm, .mem, .out, .freeCtr, .jobs, .shared, .svc, .reg, .media, .glody] F) {v : View} {b : Nat} {f : Form} (h_s : s0.Keeps F s) :
    (Opt (s0.Keeps F)) (State.engineForm s v b f) := by
  unfold State.engineForm
  split
  · apply Opt.none
  · split
    · apply Opt.none
    · apply State.commitForm_keeps (hF.le rfl)
      exact h_s

theorem State.engineBlocks_keeps {s0 s : State} {F : List Part} (hF : Within [.dict, .hbm, .mem, .arb, .out, .freeCtr, .fac, .jobs, .shared, .svc, .reg, .media, .recov, .power, .glody] F) {v : View} {w b : Nat} {x0 : List (List Byte)} (h_s : s0.Keeps F s) :
    (Snd (s0.Keeps F)) (State.engineBlocks s v w b x0) := by
  induction x0 generalizing s v w b with
  | nil =>
    unfold State.engineBlocks
    apply Snd.mk
    exact h_s
  | cons w l ih =>
    unfold State.engineBlocks
    split
    split
    · apply Snd.mk
      refine Snd.of_eq ?_ (by assumption)
      apply State.homeForm_keeps (hF.le rfl)
      exact h_s
    · apply ih
      apply State.invalidate_keeps (hF.le rfl)
      refine Opt.of_eq ?_ (by assumption)
      apply State.engineForm_keeps (hF.le rfl)
      refine Snd.of_eq ?_ (by assumption)
      apply State.homeForm_keeps (hF.le rfl)
      exact h_s

theorem State.storeFactors_keeps {s0 s : State} {F : List Part} (hF : Within [.dict, .hbm, .mem, .arb, .out, .freeCtr, .fac, .jobs, .shared, .ports, .svc, .reg, .stackTab, .media, .recov, .power, .glody] F) {hid : Nat} {v : View} {w : Nat} {t : TDesc} {env : Env} (h_s : s0.Keeps F s) :
    (Snd (s0.Keeps F)) (State.storeFactors s hid v w t env) := by
  unfold State.storeFactors
  extract_lets +onlyGivenNames x1
  clear_value x1
  split
  extract_lets +onlyGivenNames x6 x7 x8 x9 x10 x11
  clear_value x6 x7 x8 x9 x10 x11
  extract_lets +onlyGivenNames x12
  have h12 : ∀ a0 a1 a2, (Snd (s0.Keeps F)) a0 → (Snd (s0.Keeps F)) (x12 a0 a1 a2) := by
    unfold x12
    intro v13 v14 v15 h16
    split
    · apply State.engineBlocks_keeps (hF.le rfl)
      exact h16
    · exact h16
  clear_value x12
  split
  apply Snd.mk
  apply State.descDamage_keeps (hF.le rfl)
  refine Snd.of_eq ?_ (by assumption)
  apply h12
  apply h12
  apply h12
  apply h12
  apply Snd.mk
  apply State.count_keeps (hF.le rfl)
  apply State.freeNext_keeps (hF.le rfl)
  refine Snd.of_eq ?_ (by assumption)
  apply State.blocksAtHub_keeps (hF.le rfl)
  exact h_s

theorem State.factorStart_keeps {s0 s : State} {F : List Part} (hF : Within [.dict, .hbm, .mem, .arb, .out, .freeCtr, .fac, .jobs, .shared, .queues, .ports, .svc, .reg, .stackTab, .media, .recov, .power, .glody] F) {h : Nat} {c : Cmd} {resOnly : Bool} {env : Env} (h_s : s0.Keeps F s) :
    s0.Keeps F (State.factorStart s h c resOnly env) := by
  unfold State.factorStart
  extract_lets +onlyGivenNames x1 x2 x3
  clear_value x1 x2 x3
  split
  · apply State.fail_keeps (hF.le rfl)
    exact h_s
  · extract_lets +onlyGivenNames x9 x10
    clear_value x9 x10
    split
    · apply State.fail_keeps (hF.le rfl)
      exact h_s
    · split
      · apply State.fail_keeps (hF.le rfl)
        exact h_s
      · split
        · apply State.fail_keeps (hF.le rfl)
          exact h_s
        · split
          · apply State.fail_keeps (hF.le rfl)
            exact h_s
          · split
            · apply State.fail_keeps (hF.le rfl)
              exact h_s
            · split
              · apply State.finish_keeps (hF.le rfl)
                refine Snd.of_eq ?_ (by assumption)
                split
                · apply Snd.mk
                  exact h_s
                · apply State.storeFactors_keeps (hF.le rfl)
                  exact h_s
              · extract_lets +onlyGivenNames x29
                clear_value x29
                apply State.dispatchAll_keeps (hF.le rfl)
                apply State.descBit_keeps (hF.le rfl)
                apply State.modFac_keeps (hF.le rfl)
                apply State.accept_keeps (hF.le rfl)
                refine Snd.of_eq ?_ (by assumption)
                split
                · apply Snd.mk
                  exact h_s
                · apply State.storeFactors_keeps (hF.le rfl)
                  exact h_s

theorem execFactorFull_keeps {s0 : State} {F : List Part} (hF : Within [.dict, .hbm, .mem, .arb, .out, .freeCtr, .fac, .jobs, .shared, .queues, .ports, .svc, .reg, .stackTab, .media, .recov, .power, .glody] F) {queue : Fin 32768} {start : FactorStart} {s : State} (h_s : s0.Keeps F s) :
    (Nxt (s0.Keeps F)) (execFactorFull queue start s) := by
  unfold execFactorFull
  apply Nxt.next
  apply State.runMove_keeps (hF.le rfl)
  · exact h_s
  · intro v1 v2 v3 h4
    apply State.factorStart_keeps (hF.le rfl)
    exact h4

theorem execFactorResidualOnly_keeps {s0 : State} {F : List Part} (hF : Within [.dict, .hbm, .mem, .arb, .out, .freeCtr, .fac, .jobs, .shared, .queues, .ports, .svc, .reg, .stackTab, .media, .recov, .power, .glody] F) {queue : Fin 32768} {idx : Fin 65536} {s : State} (h_s : s0.Keeps F s) :
    (Nxt (s0.Keeps F)) (execFactorResidualOnly queue idx s) := by
  unfold execFactorResidualOnly
  apply Nxt.next
  apply State.runMove_keeps (hF.le rfl)
  · exact h_s
  · intro v1 v2 v3 h4
    apply State.factorStart_keeps (hF.le rfl)
    exact h4

theorem State.factorEnd_keeps {s0 s : State} {F : List Part} (hF : Within [.dict, .fac, .queues, .recov] F) {d status : Nat} (h_s : s0.Keeps F s) :
    s0.Keeps F (State.factorEnd s d status) := by
  unfold State.factorEnd
  extract_lets +onlyGivenNames x1
  clear_value x1
  split
  · exact h_s
  · extract_lets +onlyGivenNames x4
    have h4 : s0.Keeps F x4 := by
      unfold x4
      apply State.descBit_keeps (hF.le rfl)
      apply State.modFac_keeps (hF.le rfl)
      exact h_s
    clear_value x4
    extract_lets +onlyGivenNames x5
    have h5 : s0.Keeps F x5 := by
      unfold x5
      split
      · apply State.count_keeps (hF.le rfl)
        exact h4
      · exact h4
    clear_value x5
    apply State.finish_keeps (hF.le rfl)
    apply State.clearCtxs_keeps (hF.le rfl)
    exact h5

theorem State.residStore_keeps {s0 s : State} {F : List Part} (hF : Within [.dict, .arb, .power] F) {w b : Nat} {ds : List Nat} (h_s : s0.Keeps F s) :
    (Snd (s0.Keeps F)) (State.residStore s w b ds) := by
  unfold State.residStore
  extract_lets +onlyGivenNames x1
  clear_value x1
  split
  apply Snd.mk
  refine Snd.of_eq ?_ (by assumption)
  apply State.laneForm_keeps (hF.le rfl)
  exact h_s

theorem State.residStores_keeps {s0 s : State} {F : List Part} (hF : Within [.dict, .arb, .power] F) {w : Nat} {x0 : List (Nat × List Nat)} (h_s : s0.Keeps F s) :
    (Snd (s0.Keeps F)) (State.residStores s w x0) := by
  induction x0 generalizing s w with
  | nil =>
    unfold State.residStores
    apply Snd.mk
    exact h_s
  | cons w l ih =>
    unfold State.residStores
    split
    split
    apply Snd.mk
    refine Snd.of_eq ?_ (by assumption)
    apply ih
    refine Snd.of_eq ?_ (by assumption)
    apply State.residStore_keeps (hF.le rfl)
    exact h_s

theorem State.putRecord_keeps {s0 s : State} {F : List Part} (hF : Within [.dict, .hbm, .mem, .arb, .out, .freeCtr, .fac, .jobs, .shared, .svc, .reg, .media, .recov, .power, .glody] F) {v : View} {w i rec_ : Nat} (h_s : s0.Keeps F s) :
    (Opt (s0.Keeps F)) (State.putRecord s v w i rec_) := by
  unfold State.putRecord
  extract_lets +onlyGivenNames x1 x2
  clear_value x1 x2
  split
  · apply Opt.some
    exact h_s
  · split
    refine Opt.mapK (P := (s0.Keeps F)) ?_ ?_
    · apply State.engineForm_keeps (hF.le rfl)
      refine Snd.of_eq ?_ (by assumption)
      apply State.homeForm_keeps (hF.le rfl)
      exact h_s
    · intro v9 h10
      apply State.recount_keeps (hF.le rfl)
      apply State.invalidate_keeps (hF.le rfl)
      exact h10

theorem State.commitBlocks_keeps {s0 s : State} {F : List Part} (hF : Within [.dict, .hbm, .mem, .out, .freeCtr, .fac, .jobs, .shared, .svc, .reg, .media, .recov, .glody] F) {v : View} {w : Nat} {x0 : List (Nat × Form)} (h_s : s0.Keeps F s) :
    (Opt (s0.Keeps F)) (State.commitBlocks s v w x0) := by
  induction x0 generalizing s v w with
  | nil =>
    unfold State.commitBlocks
    apply Opt.some
    exact h_s
  | cons w l ih =>
    unfold State.commitBlocks
    split
    · apply Opt.none
    · apply ih
      apply State.invalidate_keeps (hF.le rfl)
      refine Opt.of_eq ?_ (by assumption)
      apply State.engineForm_keeps (hF.le rfl)
      exact h_s

theorem State.readTile_keeps {s0 s : State} {F : List Part} (hF : Within [.dict, .hbm, .mem, .arb, .out, .freeCtr, .fac, .jobs, .shared, .ports, .svc, .reg, .stackTab, .media, .recov, .power, .glody] F) {v : View} {hid : Nat} {dirty : Tab Bool} {t : TDesc} {env : Env} {x0 : List Nat} (h_s : s0.Keeps F s) :
    (Snd (s0.Keeps F)) (State.readTile s v hid dirty t env x0) := by
  induction x0 generalizing s v hid dirty t env with
  | nil =>
    unfold State.readTile
    apply Snd.mk
    exact h_s
  | cons w l ih =>
    unfold State.readTile
    extract_lets +onlyGivenNames x1
    clear_value x1
    split
    split
    extract_lets +onlyGivenNames x10
    clear_value x10
    split
    apply Snd.mk
    refine Snd.of_eq ?_ (by assumption)
    apply ih
    refine Snd.of_eq ?_ (by assumption)
    apply State.blockAtHub_keeps (hF.le rfl)
    exact h_s

theorem State.switchTile_keeps {s0 s : State} {F : List Part} (hF : Within [.dict, .hbm, .mem, .arb, .out, .freeCtr, .fac, .jobs, .shared, .ports, .svc, .reg, .stackTab, .media, .recov, .power, .glody] F) {x : FactorRun} {v : View} {w i : Nat} {env : Env} (h_s : s0.Keeps F s) :
    (Opt (Snd (s0.Keeps F))) (State.switchTile s x v w i env) := by
  unfold State.switchTile
  extract_lets +onlyGivenNames x1 x2 x3
  clear_value x1 x2 x3
  split
  extract_lets +onlyGivenNames x8
  clear_value x8
  split
  · apply Opt.some
    apply Snd.mk
    refine Snd.of_eq ?_ (by assumption)
    apply State.readTile_keeps (hF.le rfl)
    exact h_s
  · extract_lets +onlyGivenNames x11
    clear_value x11
    extract_lets +onlyGivenNames x12
    have h12 : ∀ a0 a1, s0.Keeps F a0 → (Snd (s0.Keeps F)) (x12 a0 a1) := by
      unfold x12
      intro v13 v14 h15
      split
      · apply Snd.mk
        exact h15
      · apply State.panel_keeps (hF.le rfl)
        exact h15
    clear_value x12
    extract_lets +onlyGivenNames x18
    have h18 : ∀ a0 a1 a2, s0.Keeps F a0 → (Opt (Snd (s0.Keeps F))) (x18 a0 a1 a2) := by
      unfold x18
      intro v19 v20 v21 h22
      extract_lets +onlyGivenNames x23
      have h23 : s0.Keeps F x23 := by
        unfold x23
        split
        · apply State.count_keeps (hF.le rfl)
          exact h22
        · exact h22
      clear_value x23
      split
      split
      · apply Opt.none
      · refine Opt.mapK (P := (s0.Keeps F)) ?_ ?_
        · apply State.commitBlocks_keeps (hF.le rfl)
          refine Opt.of_eq ?_ (by assumption)
          apply State.putRecord_keeps (hF.le rfl)
          refine Snd.of_eq ?_ (by assumption)
          apply State.residStores_keeps (hF.le rfl)
          exact h23
        · intro v35 h36
          apply Snd.mk
          apply State.redense_keeps (hF.le rfl)
          exact h36
    clear_value x18
    split
    · split
      · apply Opt.some
        apply Snd.mk
        refine Snd.of_eq ?_ (by assumption)
        apply h12
        refine Snd.of_eq ?_ (by assumption)
        apply State.readTile_keeps (hF.le rfl)
        exact h_s
      · split
        apply h18
        split
        · apply State.count_keeps (hF.le rfl)
          refine Snd.of_eq ?_ (by assumption)
          apply h12
          refine Snd.of_eq ?_ (by assumption)
          apply State.readTile_keeps (hF.le rfl)
          exact h_s
        · refine Snd.of_eq ?_ (by assumption)
          apply h12
          refine Snd.of_eq ?_ (by assumption)
          apply State.readTile_keeps (hF.le rfl)
          exact h_s
    · split
      · apply Opt.some
        apply Snd.mk
        refine Snd.of_eq ?_ (by assumption)
        apply State.tileRecord_keeps (hF.le rfl)
        refine Snd.of_eq ?_ (by assumption)
        apply State.readTile_keeps (hF.le rfl)
        exact h_s
      · split
        · apply Opt.some
          apply Snd.mk
          refine Snd.of_eq ?_ (by assumption)
          apply State.tileRecord_keeps (hF.le rfl)
          refine Snd.of_eq ?_ (by assumption)
          apply State.readTile_keeps (hF.le rfl)
          exact h_s
        · split
          · apply Opt.some
            apply Snd.mk
            refine Snd.of_eq ?_ (by assumption)
            apply h12
            refine Snd.of_eq ?_ (by assumption)
            apply State.tileRecord_keeps (hF.le rfl)
            refine Snd.of_eq ?_ (by assumption)
            apply State.readTile_keeps (hF.le rfl)
            exact h_s
          · extract_lets +onlyGivenNames x68
            clear_value x68
            apply h18
            refine Snd.of_eq ?_ (by assumption)
            apply h12
            refine Snd.of_eq ?_ (by assumption)
            apply State.tileRecord_keeps (hF.le rfl)
            refine Snd.of_eq ?_ (by assumption)
            apply State.readTile_keeps (hF.le rfl)
            exact h_s

theorem State.tileSwitch_keeps {s0 s : State} {F : List Part} (hF : Within [.dict, .hbm, .mem, .arb, .out, .freeCtr, .fac, .jobs, .shared, .queues, .ports, .svc, .reg, .stackTab, .media, .recov, .power, .glody] F) {d : Nat} {env : Env} (h_s : s0.Keeps F s) :
    s0.Keeps F (State.tileSwitch s d env) := by
  unfold State.tileSwitch
  extract_lets +onlyGivenNames x1
  clear_value x1
  split
  · apply State.factorEnd_keeps (hF.le rfl)
    exact h_s
  · extract_lets +onlyGivenNames x7
    clear_value x7
    split
    · exact h_s
    · split
      · apply State.factorEnd_keeps (hF.le rfl)
        exact h_s
      · split
        · apply State.factorEnd_keeps (hF.le rfl)
          exact h_s
        · extract_lets +onlyGivenNames x22
          have h22 : s0.Keeps F x22 := by
            unfold x22
            apply State.modFac_keeps (hF.le rfl)
            refine Opt.snd_of_eq ?_ (by assumption)
            split
            · apply Opt.none
            · apply State.switchTile_keeps (hF.le rfl)
              exact h_s
          clear_value x22
          split
          · apply State.factorEnd_keeps (hF.le rfl)
            exact h22
          · exact h22

theorem execTileSwitch_keeps {s0 : State} {F : List Part} (hF : Within [.dict, .hbm, .mem, .arb, .out, .freeCtr, .fac, .jobs, .shared, .queues, .ports, .svc, .reg, .stackTab, .media, .recov, .power, .glody] F) {descriptor : Fin 2048} {env : Env} {s : State} (h_s : s0.Keeps F s) :
    (Nxt (s0.Keeps F)) (execTileSwitch descriptor env s) := by
  unfold execTileSwitch
  apply Nxt.next
  apply State.paid_keeps (hF.le rfl)
  · apply State.tileSwitch_keeps (hF.le rfl)
    exact h_s
  · exact h_s

theorem State.moveBlocks_keeps {s0 s : State} {F : List Part} (hF : Within [.dict, .hbm, .mem, .out, .freeCtr, .fac, .jobs, .shared, .svc, .reg, .media, .recov, .glody] F) {v : View} {w : Nat} {x0 : List (Nat × Form)} (h_s : s0.Keeps F s) :
    (Opt (s0.Keeps F)) (State.moveBlocks s v w x0) := by
  induction x0 generalizing s v w with
  | nil =>
    unfold State.moveBlocks
    apply Opt.some
    exact h_s
  | cons w l ih =>
    unfold State.moveBlocks
    split
    · apply Opt.none
    · apply ih
      apply State.invalidate_keeps (hF.le rfl)
      refine Opt.of_eq ?_ (by assumption)
      apply State.commitForm_keeps (hF.le rfl)
      exact h_s

theorem State.lowerPut_keeps {s0 s : State} {F : List Part} (hF : Within [.dict, .hbm, .mem, .arb, .out, .freeCtr, .fac, .jobs, .shared, .svc, .reg, .media, .recov, .power, .glody] F) {v : View} {w i rec_ : Nat} {l : List (Nat × Form)} (h_s : s0.Keeps F s) :
    s0.Keeps F (State.lowerPut s v w i rec_ l) := by
  unfold State.lowerPut
  extract_lets +onlyGivenNames x1 x2
  clear_value x1 x2
  split
  split
  · refine Snd.of_eq ?_ (by assumption)
    apply State.homeForm_keeps (hF.le rfl)
    exact h_s
  · extract_lets +onlyGivenNames x12
    have h12 : s0.Keeps F x12 := by
      unfold x12
      apply State.recount_keeps (hF.le rfl)
      refine Opt.of_eq ?_ (by assumption)
      apply State.moveBlocks_keeps (hF.le rfl)
      refine Snd.of_eq ?_ (by assumption)
      apply State.homeForm_keeps (hF.le rfl)
      exact h_s
    clear_value x12
    split
    · apply State.notice_keeps (hF.le rfl)
      exact h12
    · exact h12

theorem State.passOver_keeps {s0 s : State} {F : List Part} (hF : Within [.fac] F) {d i : Nat} (h_s : s0.Keeps F s) :
    s0.Keeps F (State.passOver s d i) := by
  unfold State.passOver
  apply State.modFac_keeps (hF.le rfl)
  exact h_s

theorem State.lowerResids_keeps {s0 s : State} {F : List Part} (hF : Within [.dict, .hbm, .mem, .arb, .out, .freeCtr, .fac, .jobs, .shared, .ports, .svc, .reg, .stackTab, .media, .recov, .power, .glody] F) {v : View} {w : Nat} {env : Env} {ps : List (List (Int × Int))} {x0 : List Nat} (h_s : s0.Keeps F s) :
    (Snd (s0.Keeps F)) (State.lowerResids s v w env ps x0) := by
  induction x0 generalizing s v w env ps with
  | nil =>
    unfold State.lowerResids
    apply Snd.mk
    exact h_s
  | cons w l ih =>
    unfold State.lowerResids
    extract_lets +onlyGivenNames x1 x2
    clear_value x1 x2
    split
    · apply Snd.mk
      refine Snd.of_eq ?_ (by assumption)
      apply State.reconBlock_keeps (hF.le rfl)
      exact h_s
    · split
      · apply Snd.mk
        refine Snd.of_eq ?_ (by assumption)
        apply State.reconBlock_keeps (hF.le rfl)
        exact h_s
      · split
        · apply Snd.mk
          refine Snd.of_eq ?_ (by assumption)
          apply ih
          refine Snd.of_eq ?_ (by assumption)
          apply State.reconBlock_keeps (hF.le rfl)
          exact h_s
        · apply Snd.mk
          refine Snd.of_eq ?_ (by assumption)
          apply ih
          refine Snd.of_eq ?_ (by assumption)
          apply State.reconBlock_keeps (hF.le rfl)
          exact h_s

theorem State.lowerTile_keeps {s0 s : State} {F : List Part} (hF : Within [.dict, .hbm, .mem, .arb, .out, .freeCtr, .fac, .jobs, .shared, .ports, .svc, .reg, .stackTab, .media, .recov, .power, .glody] F) {w i : Nat} {env : Env} (h_s : s0.Keeps F s) :
    s0.Keeps F (State.lowerTile s w i env) := by
  unfold State.lowerTile
  extract_lets +onlyGivenNames x1 x2 x3 x4 x5
  clear_value x1 x2 x3 x4 x5
  split
  · apply State.passOver_keeps (hF.le rfl)
    refine Snd.of_eq ?_ (by assumption)
    apply State.tileRecord_keeps (hF.le rfl)
    exact h_s
  · split
    · apply State.passOver_keeps (hF.le rfl)
      refine Snd.of_eq ?_ (by assumption)
      apply State.tileRecord_keeps (hF.le rfl)
      exact h_s
    · split
      · apply State.lowerPut_keeps (hF.le rfl)
        refine Snd.of_eq ?_ (by assumption)
        apply State.tileRecord_keeps (hF.le rfl)
        exact h_s
      · extract_lets +onlyGivenNames x17
        clear_value x17
        split
        · apply State.passOver_keeps (hF.le rfl)
          refine Snd.of_eq ?_ (by assumption)
          split
          · apply Snd.mk
            refine Snd.of_eq ?_ (by assumption)
            apply State.tileRecord_keeps (hF.le rfl)
            exact h_s
          · apply State.panel_keeps (hF.le rfl)
            refine Snd.of_eq ?_ (by assumption)
            apply State.tileRecord_keeps (hF.le rfl)
            exact h_s
        · split
          · apply State.passOver_keeps (hF.le rfl)
            refine Snd.of_eq ?_ (by assumption)
            apply State.lowerResids_keeps (hF.le rfl)
            refine Snd.of_eq ?_ (by assumption)
            split
            · apply Snd.mk
              refine Snd.of_eq ?_ (by assumption)
              apply State.tileRecord_keeps (hF.le rfl)
              exact h_s
            · apply State.panel_keeps (hF.le rfl)
              refine Snd.of_eq ?_ (by assumption)
              apply State.tileRecord_keeps (hF.le rfl)
              exact h_s
          · split
            split
            · apply State.passOver_keeps (hF.le rfl)
              refine Snd.of_eq ?_ (by assumption)
              apply State.residStores_keeps (hF.le rfl)
              refine Snd.of_eq ?_ (by assumption)
              apply State.lowerResids_keeps (hF.le rfl)
              refine Snd.of_eq ?_ (by assumption)
              split
              · apply Snd.mk
                refine Snd.of_eq ?_ (by assumption)
                apply State.tileRecord_keeps (hF.le rfl)
                exact h_s
              · apply State.panel_keeps (hF.le rfl)
                refine Snd.of_eq ?_ (by assumption)
                apply State.tileRecord_keeps (hF.le rfl)
                exact h_s
            · apply State.lowerPut_keeps (hF.le rfl)
              refine Snd.of_eq ?_ (by assumption)
              apply State.residStores_keeps (hF.le rfl)
              refine Snd.of_eq ?_ (by assumption)
              apply State.lowerResids_keeps (hF.le rfl)
              refine Snd.of_eq ?_ (by assumption)
              split
              · apply Snd.mk
                refine Snd.of_eq ?_ (by assumption)
                apply State.tileRecord_keeps (hF.le rfl)
                exact h_s
              · apply State.panel_keeps (hF.le rfl)
                refine Snd.of_eq ?_ (by assumption)
                apply State.tileRecord_keeps (hF.le rfl)
                exact h_s

theorem execLowerTile_keeps {s0 : State} {F : List Part} (hF : Within [.dict, .hbm, .mem, .arb, .out, .freeCtr, .fac, .jobs, .shared, .ports, .svc, .reg, .stackTab, .media, .recov, .power, .glody] F) {descriptor : Fin 2048} {tile : Fin 268435456} {env : Env} {s : State} (h_s : s0.Keeps F s) :
    (Nxt (s0.Keeps F)) (execLowerTile descriptor tile env s) := by
  unfold execLowerTile
  apply Nxt.next
  split
  · exact h_s
  · extract_lets +onlyGivenNames x6
    clear_value x6
    split
    · exact h_s
    · apply State.lowerTile_keeps (hF.le rfl)
      apply State.moverGrant_keeps (hF.le rfl)
      exact h_s

end Sys2Proof.Machine
end

