-- ==== Sys2Proof/Laws/KeepsRetire.lean ====
section
/-! SUPPORT. Every effect of Machine/Retire.lean leaves the queue alone, keeps the canonical form and writes only the parts named. -/
namespace Sys2Proof.Machine

theorem State.moveHolder_keeps {s0 s : State} {F : List Part} (hF : Within [.dict, .hbm, .mem, .out, .freeCtr, .fac, .jobs, .ports, .svc, .reg, .stackTab, .media, .glody] F) {key : Nat} {ph : Phys} (h_s : s0.Keeps F s) :
    (Opt (s0.Keeps F)) (State.moveHolder s key ph) := by
  unfold State.moveHolder
  extract_lets +onlyGivenNames x1
  clear_value x1
  split
  · apply Opt.some
    exact h_s
  · extract_lets +onlyGivenNames x4
    clear_value x4
    split
    split
    · apply Opt.some
      apply State.loseTile_keeps (hF.le rfl)
      refine Fst.of_eq ?_ (by assumption)
      apply State.noteLines_keeps (hF.le rfl)
      exact h_s
    · apply Opt.none
    · extract_lets +onlyGivenNames x23
      have h23 : s0.Keeps F x23 := by
        unfold x23
        apply State.storeBytes_keeps (hF.le rfl)
        refine Opt.snd_of_eq ?_ (by assumption)
        apply State.newFrame_keeps (hF.le rfl)
        refine Fst.of_eq ?_ (by assumption)
        apply State.noteLines_keeps (hF.le rfl)
        exact h_s
      clear_value x23
      extract_lets +onlyGivenNames x24
      clear_value x24
      extract_lets +onlyGivenNames x25
      have h25 : s0.Keeps F x25 := by
        unfold x25
        apply State.modFac_keeps (hF.le rfl)
        exact h23
      clear_value x25
      extract_lets +onlyGivenNames x26
      have h26 : s0.Keeps F x26 := by
        unfold x26
        refine State.Keeps.congr (s := x25) (D := [.jobs]) (hF.le rfl) ?_ rfl rfl rfl rfl (by rintro ⟨⟩ <;> (first | exact .inr rfl | simp))
        exact h25
      clear_value x26
      apply Opt.some
      apply State.setFrame_keeps (hF.le rfl)
      exact h26

theorem State.relocateAll_keeps {s0 s : State} {F : List Part} (hF : Within [.dict, .hbm, .mem, .out, .freeCtr, .fac, .jobs, .shared, .ports, .svc, .reg, .stackTab, .media, .glody] F) {ph : Phys} {x0 : List (Nat × MapWord)} (h_s : s0.Keeps F s) :
    (Snd (s0.Keeps F)) (State.relocateAll s ph x0) := by
  induction x0 generalizing s ph with
  | nil =>
    unfold State.relocateAll
    apply Snd.mk
    exact h_s
  | cons w l ih =>
    unfold State.relocateAll
    split
    · apply Snd.mk
      exact h_s
    · apply ih
      refine Opt.of_eq ?_ (by assumption)
      apply State.relocate_keeps (hF.le rfl)
      exact h_s

theorem State.retireOne_keeps {s0 s : State} {F : List Part} (hF : Within [.dict, .hbm, .mem, .out, .freeCtr, .fac, .jobs, .shared, .ports, .svc, .reg, .stackTab, .media, .glody] F) {key : Nat} {ph : Phys} (h_s : s0.Keeps F s) :
    (Snd (s0.Keeps F)) (State.retireOne s key ph) := by
  unfold State.retireOne
  split
  · apply Snd.mk
    refine Snd.of_eq ?_ (by assumption)
    apply State.relocateAll_keeps (hF.le rfl)
    exact h_s
  · split
    · apply Snd.mk
      refine Snd.of_eq ?_ (by assumption)
      apply State.relocateAll_keeps (hF.le rfl)
      exact h_s
    · apply Snd.mk
      apply State.retireFrame_keeps (hF.le rfl)
      refine Opt.of_eq ?_ (by assumption)
      apply State.moveHolder_keeps (hF.le rfl)
      refine Snd.of_eq ?_ (by assumption)
      apply State.relocateAll_keeps (hF.le rfl)
      exact h_s

theorem State.retireAll_keeps {s0 s : State} {F : List Part} (hF : Within [.dict, .hbm, .mem, .out, .freeCtr, .fac, .jobs, .shared, .ports, .svc, .reg, .stackTab, .media, .glody] F) {ph : Phys} {x0 : List Nat} {x1 : Nat} (h_s : s0.Keeps F s) :
    (Snd (s0.Keeps F)) (State.retireAll s ph x0 x1) := by
  induction x0 generalizing s ph x1 with
  | nil =>
    unfold State.retireAll
    apply Snd.mk
    exact h_s
  | cons w l ih =>
    unfold State.retireAll
    split
    · apply ih
      exact h_s
    · split
      · apply Snd.mk
        refine Snd.of_eq ?_ (by assumption)
        apply State.retireOne_keeps (hF.le rfl)
        exact h_s
      · apply ih
        refine Snd.of_eq ?_ (by assumption)
        apply State.retireOne_keeps (hF.le rfl)
        exact h_s

theorem State.retire_keeps {s0 s : State} {F : List Part} (hF : Within [.dict, .hbm, .mem, .out, .freeCtr, .fac, .jobs, .shared, .ports, .svc, .reg, .stackTab, .media, .glody] F) {keys : List Nat} {ph : Phys} (h_s : s0.Keeps F s) :
    (Snd (s0.Keeps F)) (State.retire s keys ph) := by
  unfold State.retire
  extract_lets +onlyGivenNames x1
  have h1 : s0.Keeps F x1 := by
    unfold x1
    apply forAll_keeps
    · intro v2 v3 h4
      apply State.shutFrame_keeps (hF.le rfl)
      exact h4
    · exact h_s
  clear_value x1
  extract_lets +onlyGivenNames x5
  clear_value x5
  extract_lets +onlyGivenNames x6
  have h6 : s0.Keeps F x6 := by
    unfold x6
    apply forAll_keeps
    · intro v7 v8 h9
      apply State.retireFrame_keeps (hF.le rfl)
      exact h9
    · exact h1
  clear_value x6
  extract_lets +onlyGivenNames x10
  clear_value x10
  apply State.retireAll_keeps (hF.le rfl)
  exact h6

theorem State.retireCmd_keeps {s0 s : State} {F : List Part} (hF : Within [.dict, .hbm, .mem, .out, .freeCtr, .fac, .jobs, .shared, .queues, .ports, .svc, .reg, .stackTab, .media, .boot, .glody] F) {h : Nat} {c : Cmd} {ph : Phys} (h_s : s0.Keeps F s) :
    s0.Keeps F (State.retireCmd s h c ph) := by
  unfold State.retireCmd
  split
  · apply State.fail_keeps (hF.le rfl)
    exact h_s
  · split
    · apply State.fail_keeps (hF.le rfl)
      exact h_s
    · split
      rename_i y12 y13 y14 y15 y16
      extract_lets +onlyGivenNames x17 x18
      clear_value x17 x18
      extract_lets +onlyGivenNames x19
      have h19 : s0.Keeps F x19 := by
        unfold x19
        refine State.Keeps.congr (s := y15) (D := [.media]) (hF.le rfl) ?_ rfl rfl rfl rfl (by rintro ⟨⟩ <;> (first | exact .inr rfl | simp))
        refine Snd.of_eq ?_ (by assumption)
        apply State.retire_keeps (hF.le rfl)
        exact h_s
      clear_value x19
      extract_lets +onlyGivenNames x20
      have h20 : s0.Keeps F x20 := by
        unfold x20
        split
        · refine Snd.of_eq ?_ (by assumption)
          apply State.retire_keeps (hF.le rfl)
          exact h_s
        · apply State.logMedia_keeps (hF.le rfl)
          apply State.setPar_keeps (hF.le rfl)
          apply State.saveRec_keeps (hF.le rfl)
          exact h19
      clear_value x20
      apply State.finish_keeps (hF.le rfl)
      exact h20

theorem State.retireRelease_keeps {s0 s : State} {F : List Part} (hF : Within [.dict, .mem, .out, .queues, .svc, .glody] F) {h : Nat} {c : Cmd} (h_s : s0.Keeps F s) :
    s0.Keeps F (State.retireRelease s h c) := by
  unfold State.retireRelease
  split
  · apply State.fail_keeps (hF.le rfl)
    exact h_s
  · extract_lets +onlyGivenNames x8 x9
    clear_value x8 x9
    split
    · apply State.finish_keeps (hF.le rfl)
      apply State.setFrame_keeps (hF.le rfl)
      exact h_s
    · apply State.fail_keeps (hF.le rfl)
      exact h_s

theorem execRetireFrame_keeps {s0 : State} {F : List Part} (hF : Within [.dict, .hbm, .mem, .out, .freeCtr, .fac, .jobs, .shared, .queues, .ports, .svc, .reg, .stackTab, .media, .boot, .glody] F) {queue : Fin 32768} {idx : Fin 65536} {ph : Phys} {s : State} (h_s : s0.Keeps F s) :
    (Nxt (s0.Keeps F)) (execRetireFrame queue idx ph s) := by
  unfold execRetireFrame
  apply Nxt.next
  apply State.runCmd_keeps (hF.le rfl)
  · exact h_s
  · intro v1 v2 v3 h4
    apply State.retireCmd_keeps (hF.le rfl)
    exact h4

theorem execRetireRow_keeps {s0 : State} {F : List Part} (hF : Within [.dict, .hbm, .mem, .out, .freeCtr, .fac, .jobs, .shared, .queues, .ports, .svc, .reg, .stackTab, .media, .boot, .glody] F) {queue : Fin 32768} {idx : Fin 65536} {ph : Phys} {s : State} (h_s : s0.Keeps F s) :
    (Nxt (s0.Keeps F)) (execRetireRow queue idx ph s) := by
  unfold execRetireRow
  apply Nxt.next
  apply State.runCmd_keeps (hF.le rfl)
  · exact h_s
  · intro v1 v2 v3 h4
    apply State.retireCmd_keeps (hF.le rfl)
    exact h4

theorem execRetireBank_keeps {s0 : State} {F : List Part} (hF : Within [.dict, .hbm, .mem, .out, .freeCtr, .fac, .jobs, .shared, .queues, .ports, .svc, .reg, .stackTab, .media, .boot, .glody] F) {queue : Fin 32768} {idx : Fin 65536} {ph : Phys} {s : State} (h_s : s0.Keeps F s) :
    (Nxt (s0.Keeps F)) (execRetireBank queue idx ph s) := by
  unfold execRetireBank
  apply Nxt.next
  apply State.runCmd_keeps (hF.le rfl)
  · exact h_s
  · intro v1 v2 v3 h4
    apply State.retireCmd_keeps (hF.le rfl)
    exact h4

theorem execRetireRelease_keeps {s0 : State} {F : List Part} (hF : Within [.dict, .mem, .out, .queues, .svc, .glody] F) {queue : Fin 32768} {idx : Fin 65536} {s : State} (h_s : s0.Keeps F s) :
    (Nxt (s0.Keeps F)) (execRetireRelease queue idx s) := by
  unfold execRetireRelease
  apply Nxt.next
  apply State.runCmd_keeps (hF.le rfl)
  · exact h_s
  · intro v1 v2 v3 h4
    apply State.retireRelease_keeps (hF.le rfl)
    exact h4

end Sys2Proof.Machine
end

