-- ==== Sys2Proof/Laws/KeepsOptStep.lean ====
section
/-! SUPPORT. Every effect of Machine/OptStep.lean leaves the queue alone, keeps the canonical form and writes only the parts named. -/
namespace Sys2Proof.Machine

theorem State.holdFrames_keeps {s0 s : State} {F : List Part} (hF : Within [.dict, .hbm, .mem, .out, .freeCtr, .svc, .media, .glody] F) {n b : Nat} {fenced : Bool} {x0 : Nat} (h_s : s0.Keeps F s) :
    (Exc (Snd (s0.Keeps F))) (State.holdFrames s n b fenced x0) := by
  induction x0 generalizing s n b fenced with
  | zero =>
    unfold State.holdFrames
    apply Exc.ok
    apply Snd.mk
    exact h_s
  | succ m ih =>
    unfold State.holdFrames
    extract_lets +onlyGivenNames x1
    clear_value x1
    split
    · apply Exc.error
    · split
      · apply Exc.error
      · split
        · apply Exc.error
        · split
          · apply Exc.error
          · apply Exc.ok
            apply Snd.mk
            refine Exc.snd_of_eq ?_ (by assumption)
            apply ih
            refine Opt.snd_of_eq ?_ (by assumption)
            apply State.newFrame_keeps (hF.le rfl)
            exact h_s

theorem State.settleBlock_keeps {s0 s : State} {F : List Part} (hF : Within [.dict, .hbm, .mem, .arb, .out, .freeCtr, .fac, .jobs, .shared, .ports, .svc, .reg, .stackTab, .media, .recov, .power, .glody] F) {b : Nat} {env : Env} (h_s : s0.Keeps F s) :
    s0.Keeps F (State.settleBlock s b env) := by
  unfold State.settleBlock
  extract_lets +onlyGivenNames x1
  have h1 : s0.Keeps F x1 := by
    unfold x1
    apply State.resolve_keeps (hF.le rfl)
    apply State.settlePack_keeps (hF.le rfl)
    exact h_s
  clear_value x1
  extract_lets +onlyGivenNames x2
  have h2 : s0.Keeps F x2 := by
    unfold x2
    split
    · apply State.resolve_keeps (hF.le rfl)
      exact h1
    · exact h1
  clear_value x2
  apply State.settlePack_keeps (hF.le rfl)
  exact h2

theorem State.shadowBase_keeps {s0 s : State} {F : List Part} (hF : Within [.dict, .hbm, .mem, .arb, .out, .freeCtr, .fac, .jobs, .shared, .ports, .svc, .reg, .stackTab, .media, .recov, .power, .glody] F) {j hid b : Nat} {env : Env} (h_s : s0.Keeps F s) :
    (Snd (s0.Keeps F)) (State.shadowBase s j hid b env) := by
  unfold State.shadowBase
  split
  · split
    apply Snd.mk
    refine Snd.of_eq ?_ (by assumption)
    apply State.readBlock_keeps (hF.le rfl)
    exact h_s
  · split
    apply Snd.mk
    refine Snd.of_eq ?_ (by assumption)
    apply State.blockAtHub_keeps (hF.le rfl)
    exact h_s

theorem State.shadowPut_keeps {s0 s : State} {F : List Part} (hF : Within [.dict, .hbm, .mem, .arb, .out, .freeCtr, .jobs, .shared, .svc, .reg, .media, .power, .glody] F) {j b : Nat} {d : List Byte} {marks : List Nat} {fenced : Bool} (h_s : s0.Keeps F s) :
    (Exc (s0.Keeps F)) (State.shadowPut s j b d marks fenced) := by
  unfold State.shadowPut
  split
  · split
    split
    · apply Exc.error
    · split
      · apply Exc.error
      · split
        · apply Exc.ok
          refine Opt.of_eq ?_ (by assumption)
          apply State.commitForm_keeps (hF.le rfl)
          refine Snd.of_eq ?_ (by assumption)
          split
          · apply State.homeForm_keeps (hF.le rfl)
            exact h_s
          · apply Snd.mk
            exact h_s
        · apply Exc.error
  · apply Exc.error

theorem State.shadowRange_keeps {s0 s : State} {F : List Part} (hF : Within [.dict, .hbm, .mem, .arb, .out, .freeCtr, .fac, .jobs, .shared, .ports, .svc, .reg, .stackTab, .media, .recov, .power, .glody] F) {j hid b : Nat} {d : List Byte} {fenced : Bool} {env : Env} {x0 : Nat} (h_s : s0.Keeps F s) :
    (Exc (s0.Keeps F)) (State.shadowRange s j hid b d fenced env x0) := by
  induction x0 generalizing s j hid b d fenced env with
  | zero =>
    unfold State.shadowRange
    apply Exc.ok
    exact h_s
  | succ m ih =>
    unfold State.shadowRange
    extract_lets +onlyGivenNames x1
    clear_value x1
    split
    extract_lets +onlyGivenNames x7
    clear_value x7
    split
    · apply Exc.error
    · apply ih
      refine Exc.of_eq ?_ (by assumption)
      apply State.shadowPut_keeps (hF.le rfl)
      refine Snd.of_eq ?_ (by assumption)
      split
      · apply Snd.mk
        exact h_s
      · apply State.shadowBase_keeps (hF.le rfl)
        exact h_s

theorem State.shadowAll_keeps {s0 s : State} {F : List Part} (hF : Within [.dict, .hbm, .mem, .arb, .out, .freeCtr, .fac, .jobs, .shared, .ports, .svc, .reg, .stackTab, .media, .recov, .power, .glody] F) {j hid : Nat} {fenced : Bool} {env : Env} {x0 : List (Nat × List Byte)} (h_s : s0.Keeps F s) :
    (Exc (s0.Keeps F)) (State.shadowAll s j hid fenced env x0) := by
  induction x0 generalizing s j hid fenced env with
  | nil =>
    unfold State.shadowAll
    apply Exc.ok
    exact h_s
  | cons w l ih =>
    unfold State.shadowAll
    split
    · apply Exc.error
    · apply ih
      refine Exc.of_eq ?_ (by assumption)
      apply State.shadowRange_keeps (hF.le rfl)
      exact h_s

theorem State.readState_keeps {s0 s : State} {F : List Part} (hF : Within [.dict, .hbm, .mem, .arb, .out, .freeCtr, .fac, .jobs, .shared, .ports, .svc, .reg, .stackTab, .media, .recov, .power, .glody] F) {hid : Nat} {env : Env} {x0 : List (Nat × Nat)} (h_s : s0.Keeps F s) :
    (Snd (s0.Keeps F)) (State.readState s hid env x0) := by
  induction x0 generalizing s hid env with
  | nil =>
    unfold State.readState
    apply Snd.mk
    exact h_s
  | cons w l ih =>
    unfold State.readState
    split
    split
    · apply Snd.mk
      refine Snd.of_eq ?_ (by assumption)
      apply State.rangeAtHub_keeps (hF.le rfl)
      exact h_s
    · split
      · apply Snd.mk
        refine Snd.of_eq ?_ (by assumption)
        apply ih
        refine Snd.of_eq ?_ (by assumption)
        apply State.rangeAtHub_keeps (hF.le rfl)
        exact h_s
      · apply Snd.mk
        refine Snd.of_eq ?_ (by assumption)
        apply ih
        refine Snd.of_eq ?_ (by assumption)
        apply State.rangeAtHub_keeps (hF.le rfl)
        exact h_s

theorem State.stepWork_keeps {s0 s : State} {F : List Part} (hF : Within [.dict, .hbm, .mem, .arb, .out, .freeCtr, .fac, .jobs, .shared, .ports, .svc, .reg, .stackTab, .media, .recov, .power, .glody] F) {o : StepCmd} {hid : Nat} {hyper grad p : List Byte} {fenced : Bool} {env : Env} (h_s : s0.Keeps F s) :
    (Exc (Snd (s0.Keeps F))) (State.stepWork s o hid hyper grad p fenced env) := by
  unfold State.stepWork
  extract_lets +onlyGivenNames x1
  clear_value x1
  extract_lets +onlyGivenNames x2
  have h2 : s0.Keeps F x2 := by
    unfold x2
    apply forAll_keeps
    · intro v3 v4 h5
      apply forAll_keeps
      · intro v6 v7 h8
        apply State.settleBlock_keeps (hF.le rfl)
        exact h8
      · exact h5
    · exact h_s
  clear_value x2
  split
  · apply Exc.error
  · extract_lets +onlyGivenNames x16
    clear_value x16
    split
    · apply Exc.error
    · apply Exc.ok
      apply Snd.mk
      refine Exc.of_eq ?_ (by assumption)
      apply State.shadowAll_keeps (hF.le rfl)
      refine Snd.of_eq ?_ (by assumption)
      apply State.readState_keeps (hF.le rfl)
      exact h2

theorem State.addNonfinite_keeps {s0 s : State} {F : List Part} (hF : Within [.dict] F) {j n : Nat} (h_s : s0.Keeps F s) :
    s0.Keeps F (State.addNonfinite s j n) := by
  unfold State.addNonfinite
  apply State.jobField_keeps (hF.le rfl)
  exact h_s

theorem State.claimJob_keeps {s0 s : State} {F : List Part} (hF : Within [.dict] F) {j hid : Nat} (h_s : s0.Keeps F s) :
    s0.Keeps F (State.claimJob s j hid) := by
  unfold State.claimJob
  split
  · exact h_s
  · apply State.jobField_keeps (hF.le rfl)
    apply State.jobField_keeps (hF.le rfl)
    exact h_s

theorem State.openJob_keeps {s0 s : State} {F : List Part} (hF : Within [.dict] F) {j hid : Nat} (h_s : s0.Keeps F s) :
    s0.Keeps F (State.openJob s j hid) := by
  unfold State.openJob
  apply State.setPar_keeps (hF.le rfl)
  apply State.jobField_keeps (hF.le rfl)
  apply State.claimJob_keeps (hF.le rfl)
  exact h_s

theorem State.modStep_keeps {s0 s : State} {F : List Part} (hF : Within [.jobs] F) {j h : Nat} {f : StepRec → StepRec} (h_s : s0.Keeps F s) :
    s0.Keeps F (State.modStep s j h f) := by
  unfold State.modStep
  apply State.modJob_keeps (hF.le rfl)
  exact h_s

theorem State.stepRun_keeps {s0 s : State} {F : List Part} (hF : Within [.dict, .hbm, .mem, .arb, .out, .freeCtr, .fac, .jobs, .shared, .queues, .ports, .svc, .reg, .stackTab, .media, .recov, .power, .glody] F) {h hid : Nat} {o : StepCmd} {hyper grad p : List Byte} {env : Env} (h_s : s0.Keeps F s) :
    s0.Keeps F (State.stepRun s h hid o hyper grad p env) := by
  unfold State.stepRun
  split
  · apply State.dispatchAll_keeps (hF.le rfl)
    apply State.jobFrames_keeps (hF.le rfl)
    apply State.modStep_keeps (hF.le rfl)
    apply State.addNonfinite_keeps (hF.le rfl)
    refine Exc.snd_of_eq ?_ (by assumption)
    apply State.stepWork_keeps (hF.le rfl)
    exact h_s
  · apply State.jobDamage_keeps (hF.le rfl)
    exact h_s
  · apply State.jobDamage_keeps (hF.le rfl)
    exact h_s

theorem State.takeTiles_keeps {s0 s : State} {F : List Part} (hF : Within [.dict, .hbm, .mem, .arb, .out, .freeCtr, .fac, .jobs, .reds, .shared, .queues, .ports, .svc, .reg, .stackTab, .media, .recov, .power, .glody] F) {n : Nat} {env : Env} (h_s : s0.Keeps F s) :
    s0.Keeps F (State.takeTiles s n env) := by
  unfold State.takeTiles
  extract_lets +onlyGivenNames x1
  clear_value x1
  split
  · exact h_s
  · extract_lets +onlyGivenNames x6 x7
    clear_value x6 x7
    extract_lets +onlyGivenNames x8
    have h8 : s0.Keeps F x8 := by
      unfold x8
      apply State.modStep_keeps (hF.le rfl)
      apply State.modRed_keeps (hF.le rfl)
      exact h_s
    clear_value x8
    split
    · exact h8
    · extract_lets +onlyGivenNames x14
      clear_value x14
      split
      · exact h8
      · apply State.redClose_keeps (hF.le rfl)
        apply State.stepRun_keeps (hF.le rfl)
        exact h8

theorem State.stepReady_keeps {s0 s : State} {F : List Part} (hF : Within [.out, .shared, .ports] F) {o : StepCmd} (h_s : s0.Keeps F s) :
    (Snd (s0.Keeps F)) (State.stepReady s o) := by
  unfold State.stepReady
  apply foldl_snd_keeps
  · intro v1 v2 h3
    split
    · apply State.cohReady_keeps (hF.le rfl)
      exact h3
    · exact h3
  · apply Snd.mk
    exact h_s

theorem State.readGrad_keeps {s0 s : State} {F : List Part} (hF : Within [.dict, .hbm, .mem, .arb, .out, .freeCtr, .fac, .jobs, .shared, .ports, .svc, .reg, .stackTab, .media, .recov, .power, .glody] F) {q hid h : Nat} {o : StepCmd} {env : Env} (h_s : s0.Keeps F s) :
    (Snd (s0.Keeps F)) (State.readGrad s q hid h o env) := by
  unfold State.readGrad
  split
  · split
    apply Snd.mk
    refine Snd.of_eq ?_ (by assumption)
    apply State.rangeAtHub_keeps (hF.le rfl)
    exact h_s
  · extract_lets +onlyGivenNames x10
    have h10 : s0.Keeps F x10 := by
      unfold x10
      apply State.hostRead_keeps (hF.le rfl)
      exact h_s
    clear_value x10
    split
    · apply Snd.mk
      exact h10
    · apply Snd.mk
      exact h10
  · apply Snd.mk
    exact h_s

theorem State.stepAccept_keeps {s0 s : State} {F : List Part} (hF : Within [.dict, .jobs, .queues] F) {h hid : Nat} {o : StepCmd} {hyper p : List Byte} {ks sc : List Nat} (h_s : s0.Keeps F s) :
    s0.Keeps F (State.stepAccept s h hid o hyper p ks sc) := by
  unfold State.stepAccept
  extract_lets +onlyGivenNames x1
  clear_value x1
  extract_lets +onlyGivenNames x2
  have h2 : s0.Keeps F x2 := by
    unfold x2
    apply State.accept_keeps (hF.le rfl)
    apply State.openJob_keeps (hF.le rfl)
    exact h_s
  clear_value x2
  apply State.jobFrames_keeps (hF.le rfl)
  apply State.modJob_keeps (hF.le rfl)
  exact h2

theorem State.stepStart_keeps {s0 s : State} {F : List Part} (hF : Within [.dict, .hbm, .mem, .arb, .out, .freeCtr, .fac, .jobs, .reds, .shared, .queues, .ports, .svc, .reg, .stackTab, .media, .recov, .power, .glody] F) {h : Nat} {o : StepCmd} {rec_ : List Byte} {env : Env} (h_s : s0.Keeps F s) :
    s0.Keeps F (State.stepStart s h o rec_ env) := by
  unfold State.stepStart
  extract_lets +onlyGivenNames x1 x2 x3
  clear_value x1 x2 x3
  split
  · apply State.fail_keeps (hF.le rfl)
    exact h_s
  · split
    · apply State.fail_keeps (hF.le rfl)
      exact h_s
    · split
      · apply State.fail_keeps (hF.le rfl)
        exact h_s
      · extract_lets +onlyGivenNames x20
        clear_value x20
        split
        split
        extract_lets +onlyGivenNames x30
        have h30 : s0.Keeps F x30 := by
          unfold x30
          apply State.stepAccept_keeps (hF.le rfl)
          refine Snd.of_eq ?_ (by assumption)
          split
          · apply Snd.mk
            refine Snd.of_eq ?_ (by assumption)
            apply State.readState_keeps (hF.le rfl)
            refine Snd.of_eq ?_ (by assumption)
            apply State.readGrad_keeps (hF.le rfl)
            refine Exc.snd_of_eq ?_ (by assumption)
            apply State.holdFrames_keeps (hF.le rfl)
            refine Exc.snd_of_eq ?_ (by assumption)
            apply State.holdFrames_keeps (hF.le rfl)
            exact h_s
          · apply Snd.mk
            refine Snd.of_eq ?_ (by assumption)
            apply State.readState_keeps (hF.le rfl)
            refine Snd.of_eq ?_ (by assumption)
            apply State.readGrad_keeps (hF.le rfl)
            refine Exc.snd_of_eq ?_ (by assumption)
            apply State.holdFrames_keeps (hF.le rfl)
            refine Exc.snd_of_eq ?_ (by assumption)
            apply State.holdFrames_keeps (hF.le rfl)
            exact h_s
        clear_value x30
        split
        · apply State.jobDamage_keeps (hF.le rfl)
          exact h30
        · split
          · apply State.jobDamage_keeps (hF.le rfl)
            exact h30
          · split
            · apply State.takeTiles_keeps (hF.le rfl)
              exact h30
            · split
              · apply State.fail_keeps (hF.le rfl)
                exact h_s
              · apply State.stepRun_keeps (hF.le rfl)
                exact h30

theorem State.optStep_keeps {s0 s : State} {F : List Part} (hF : Within [.dict, .hbm, .mem, .arb, .out, .freeCtr, .fac, .jobs, .reds, .shared, .queues, .ports, .svc, .reg, .stackTab, .media, .recov, .power, .glody] F) {h : Nat} {c : Cmd} {env : Env} (h_s : s0.Keeps F s) :
    s0.Keeps F (State.optStep s h c env) := by
  unfold State.optStep
  extract_lets +onlyGivenNames x1 x2
  clear_value x1 x2
  split
  · apply State.fail_keeps (hF.le rfl)
    exact h_s
  · split
    split
    · refine Snd.of_eq ?_ (by assumption)
      apply State.stepReady_keeps (hF.le rfl)
      exact h_s
    · split
      split
      · apply State.fail_keeps (hF.le rfl)
        refine Snd.of_eq ?_ (by assumption)
        apply State.rangeAtHub_keeps (hF.le rfl)
        refine Snd.of_eq ?_ (by assumption)
        apply State.stepReady_keeps (hF.le rfl)
        exact h_s
      · split
        · apply State.fail_keeps (hF.le rfl)
          refine Snd.of_eq ?_ (by assumption)
          apply State.rangeAtHub_keeps (hF.le rfl)
          refine Snd.of_eq ?_ (by assumption)
          apply State.stepReady_keeps (hF.le rfl)
          exact h_s
        · split
          · apply State.fail_keeps (hF.le rfl)
            refine Snd.of_eq ?_ (by assumption)
            apply State.rangeAtHub_keeps (hF.le rfl)
            refine Snd.of_eq ?_ (by assumption)
            apply State.stepReady_keeps (hF.le rfl)
            exact h_s
          · apply State.stepStart_keeps (hF.le rfl)
            refine Snd.of_eq ?_ (by assumption)
            apply State.rangeAtHub_keeps (hF.le rfl)
            refine Snd.of_eq ?_ (by assumption)
            apply State.stepReady_keeps (hF.le rfl)
            exact h_s

theorem execOptStepSgdMomentum_keeps {s0 : State} {F : List Part} (hF : Within [.dict, .hbm, .mem, .arb, .out, .freeCtr, .fac, .jobs, .reds, .shared, .queues, .ports, .svc, .reg, .stackTab, .media, .recov, .power, .glody] F) {queue : Fin 32768} {idx : Fin 65536} {env : Env} {s : State} (h_s : s0.Keeps F s) :
    (Nxt (s0.Keeps F)) (execOptStepSgdMomentum queue idx env s) := by
  unfold execOptStepSgdMomentum
  apply Nxt.next
  apply State.runMove_keeps (hF.le rfl)
  · exact h_s
  · intro v1 v2 v3 h4
    apply State.optStep_keeps (hF.le rfl)
    exact h4

theorem execOptStepAdamw_keeps {s0 : State} {F : List Part} (hF : Within [.dict, .hbm, .mem, .arb, .out, .freeCtr, .fac, .jobs, .reds, .shared, .queues, .ports, .svc, .reg, .stackTab, .media, .recov, .power, .glody] F) {queue : Fin 32768} {idx : Fin 65536} {env : Env} {s : State} (h_s : s0.Keeps F s) :
    (Nxt (s0.Keeps F)) (execOptStepAdamw queue idx env s) := by
  unfold execOptStepAdamw
  apply Nxt.next
  apply State.runMove_keeps (hF.le rfl)
  · exact h_s
  · intro v1 v2 v3 h4
    apply State.optStep_keeps (hF.le rfl)
    exact h4

theorem execOptStepSignMomentum_keeps {s0 : State} {F : List Part} (hF : Within [.dict, .hbm, .mem, .arb, .out, .freeCtr, .fac, .jobs, .reds, .shared, .queues, .ports, .svc, .reg, .stackTab, .media, .recov, .power, .glody] F) {queue : Fin 32768} {idx : Fin 65536} {env : Env} {s : State} (h_s : s0.Keeps F s) :
    (Nxt (s0.Keeps F)) (execOptStepSignMomentum queue idx env s) := by
  unfold execOptStepSignMomentum
  apply Nxt.next
  apply State.runMove_keeps (hF.le rfl)
  · exact h_s
  · intro v1 v2 v3 h4
    apply State.optStep_keeps (hF.le rfl)
    exact h4

theorem execOptStepProjectedAdamw_keeps {s0 : State} {F : List Part} (hF : Within [.dict, .hbm, .mem, .arb, .out, .freeCtr, .fac, .jobs, .reds, .shared, .queues, .ports, .svc, .reg, .stackTab, .media, .recov, .power, .glody] F) {queue : Fin 32768} {idx : Fin 65536} {env : Env} {s : State} (h_s : s0.Keeps F s) :
    (Nxt (s0.Keeps F)) (execOptStepProjectedAdamw queue idx env s) := by
  unfold execOptStepProjectedAdamw
  apply Nxt.next
  apply State.runMove_keeps (hF.le rfl)
  · exact h_s
  · intro v1 v2 v3 h4
    apply State.optStep_keeps (hF.le rfl)
    exact h4

theorem State.stepEnd_keeps {s0 s : State} {F : List Part} (hF : Within [.dict, .mem, .out, .jobs, .queues, .svc, .recov, .glody] F) {j h : Nat} (h_s : s0.Keeps F s) :
    s0.Keeps F (State.stepEnd s j h) := by
  unfold State.stepEnd
  split
  · exact h_s
  · apply State.fail_keeps (hF.le rfl)
    apply State.jobFrames_keeps (hF.le rfl)
    apply State.freeHeld_keeps (hF.le rfl)
    apply State.modStep_keeps (hF.le rfl)
    apply State.clearCtxs_keeps (hF.le rfl)
    exact h_s

theorem State.tileNext_keeps {s0 s : State} {F : List Part} (hF : Within [.recov] F) {k next : Nat} {p : TilePlan} (h_s : s0.Keeps F s) :
    (Fst (s0.Keeps F)) (State.tileNext s k next p) := by
  unfold State.tileNext
  extract_lets +onlyGivenNames x1
  clear_value x1
  split
  · apply Fst.mk
    apply State.setCtx_keeps (hF.le rfl)
    exact h_s
  · split
    · apply Fst.mk
      apply State.setCtx_keeps (hF.le rfl)
      exact h_s
    · apply Fst.mk
      apply State.setCtx_keeps (hF.le rfl)
      exact h_s

theorem State.tileRetire_keeps {s0 s : State} {F : List Part} (hF : Within [.dict, .mem, .arb, .out, .fac, .jobs, .queues, .svc, .recov, .power, .glody] F) {k : Nat} (h_s : s0.Keeps F s) :
    s0.Keeps F (State.tileRetire s k) := by
  unfold State.tileRetire
  extract_lets +onlyGivenNames x1
  clear_value x1
  split
  · exact h_s
  · split
    · split
      · apply State.setCtx_keeps (hF.le rfl)
        exact h_s
      · extract_lets +onlyGivenNames x10
        clear_value x10
        split
        extract_lets +onlyGivenNames x15
        have h15 : s0.Keeps F x15 := by
          unfold x15
          apply State.modStep_keeps (hF.le rfl)
          refine Fst.of_eq ?_ (by assumption)
          apply State.tileNext_keeps (hF.le rfl)
          exact h_s
        clear_value x15
        apply State.dispatchAll_keeps (hF.le rfl)
        split
        · apply State.stepEnd_keeps (hF.le rfl)
          exact h15
        · exact h15
    · extract_lets +onlyGivenNames x19
      clear_value x19
      split
      · apply State.setCtx_keeps (hF.le rfl)
        exact h_s
      · extract_lets +onlyGivenNames x22
        clear_value x22
        split
        apply State.dispatchAll_keeps (hF.le rfl)
        apply State.modFac_keeps (hF.le rfl)
        refine Fst.of_eq ?_ (by assumption)
        apply State.tileNext_keeps (hF.le rfl)
        exact h_s

theorem execWorkTileRetire_keeps {s0 : State} {F : List Part} (hF : Within [.dict, .mem, .arb, .out, .fac, .jobs, .queues, .svc, .integ, .recov, .power, .glody] F) {region : Fin 4} {block : Fin 9} {context : Fin 14} {s : State} (h_s : s0.Keeps F s) :
    (Nxt (s0.Keeps F)) (execWorkTileRetire region block context s) := by
  unfold execWorkTileRetire
  extract_lets +onlyGivenNames x1
  clear_value x1
  apply Nxt.next
  split
  · apply State.diceTry_keeps (hF.le rfl)
    apply State.tileRetire_keeps (hF.le rfl)
    exact h_s
  · exact h_s

theorem State.stepReplay_keeps {s0 s : State} {F : List Part} (hF : Within [.dict, .integ] F) {i : Nat} (h_s : s0.Keeps F s) :
    s0.Keeps F (State.stepReplay s i) := by
  unfold State.stepReplay
  split
  · exact h_s
  · split
    · split
      · exact h_s
      · apply State.count_keeps (hF.le rfl)
        apply State.count_keeps (hF.le rfl)
        apply State.modInteg_keeps (hF.le rfl)
        exact h_s
    · exact h_s

theorem execStepReplay_keeps {s0 : State} {F : List Part} (hF : Within [.dict, .integ] F) {flag : Nat} {s : State} (h_s : s0.Keeps F s) :
    (Nxt (s0.Keeps F)) (execStepReplay flag s) := by
  unfold execStepReplay
  apply Nxt.next
  apply State.stepReplay_keeps (hF.le rfl)
  exact h_s

end Sys2Proof.Machine
end

