-- ==== Sys2Proof/Laws/KeepsJobCmd.lean ====
section
/-! SUPPORT. Every effect of Machine/JobCmd.lean leaves the queue alone, keeps the canonical form and writes only the parts named. -/
namespace Sys2Proof.Machine

theorem State.prepareCmd_keeps {s0 s : State} {F : List Part} (hF : Within [.dict, .jobs, .queues] F) {h : Nat} {c : Cmd} (h_s : s0.Keeps F s) :
    s0.Keeps F (State.prepareCmd s h c) := by
  unfold State.prepareCmd
  extract_lets +onlyGivenNames x1 x2
  clear_value x1 x2
  split
  · apply State.fail_keeps (hF.le rfl)
    exact h_s
  · split
    · apply State.fail_keeps (hF.le rfl)
      exact h_s
    · split
      · apply State.finish_keeps (hF.le rfl)
        exact h_s
      · split
        · apply State.finish_keeps (hF.le rfl)
          exact h_s
        · extract_lets +onlyGivenNames x11
          have h11 : s0.Keeps F x11 := by
            unfold x11
            apply State.modJob_keeps (hF.le rfl)
            apply State.accept_keeps (hF.le rfl)
            apply State.claimJob_keeps (hF.le rfl)
            exact h_s
          clear_value x11
          apply State.jobField_keeps (hF.le rfl)
          exact h11

theorem execPrepare_keeps {s0 : State} {F : List Part} (hF : Within [.dict, .jobs, .queues] F) {queue : Fin 32768} {idx : Fin 65536} {s : State} (h_s : s0.Keeps F s) :
    (Nxt (s0.Keeps F)) (execPrepare queue idx s) := by
  unfold execPrepare
  apply Nxt.next
  apply State.runCmd_keeps (hF.le rfl)
  · exact h_s
  · intro v1 v2 v3 h4
    apply State.prepareCmd_keeps (hF.le rfl)
    exact h4

theorem State.prepared_keeps {s0 s : State} {F : List Part} (hF : Within [.dict, .jobs, .queues] F) {j : Nat} (h_s : s0.Keeps F s) :
    s0.Keeps F (State.prepared s j) := by
  unfold State.prepared
  extract_lets +onlyGivenNames x1
  clear_value x1
  split
  · extract_lets +onlyGivenNames x3
    have h3 : s0.Keeps F x3 := by
      unfold x3
      apply State.jobField_keeps (hF.le rfl)
      apply State.jobField_keeps (hF.le rfl)
      exact h_s
    clear_value x3
    extract_lets +onlyGivenNames x4
    have h4 : s0.Keeps F x4 := by
      unfold x4
      apply State.modJob_keeps (hF.le rfl)
      exact h3
    clear_value x4
    apply forAll_keeps
    · intro v5 v6 h7
      apply State.finish_keeps (hF.le rfl)
      exact h7
    · exact h4
  · exact h_s

theorem execPrepareComplete_keeps {s0 : State} {F : List Part} (hF : Within [.dict, .jobs, .queues] F) {job : Fin 65536} {s : State} (h_s : s0.Keeps F s) :
    (Nxt (s0.Keeps F)) (execPrepareComplete job s) := by
  unfold execPrepareComplete
  apply Nxt.next
  apply State.prepared_keeps (hF.le rfl)
  exact h_s

theorem State.reVersion_keeps {s0 s : State} {F : List Part} (hF : Within [.dict, .hbm, .mem, .reg, .media] F) {b : Nat} {w : MapWord} {ver : Nat} (h_s : s0.Keeps F s) :
    (Snd (s0.Keeps F)) (State.reVersion s b w ver) := by
  unfold State.reVersion
  extract_lets +onlyGivenNames x1
  clear_value x1
  split
  · apply Snd.mk
    exact h_s
  · split
    · apply Snd.mk
      exact h_s
    · extract_lets +onlyGivenNames x6 x7
      clear_value x6 x7
      extract_lets +onlyGivenNames x8
      have h8 : ∀ a0 a1, s0.Keeps F a0 → s0.Keeps F (x8 a0 a1) := by
        unfold x8
        intro v9 v10 h11
        apply State.storeBytes_keeps (hF.le rfl)
        exact h11
      clear_value x8
      extract_lets +onlyGivenNames x12
      have h12 : s0.Keeps F x12 := by
        unfold x12
        apply h8
        exact h_s
      clear_value x12
      extract_lets +onlyGivenNames x13
      have h13 : s0.Keeps F x13 := by
        unfold x13
        split
        · apply h8
          exact h12
        · exact h12
      clear_value x13
      extract_lets +onlyGivenNames x19
      clear_value x19
      apply Snd.mk
      exact h13

theorem State.keepFrozen_keeps {s0 s : State} {F : List Part} (hF : Within [.jobs] F) {b : Nat} {old : MapWord} (h_s : s0.Keeps F s) :
    s0.Keeps F (State.keepFrozen s b old) := by
  unfold State.keepFrozen
  refine State.Keeps.congr (s := s) (D := [.jobs]) (hF.le rfl) ?_ rfl rfl rfl rfl (by rintro ⟨⟩ <;> (first | exact .inr rfl | simp))
  exact h_s

theorem State.commitBlock_keeps {s0 s : State} {F : List Part} (hF : Within [.dict, .hbm, .mem, .out, .fac, .jobs, .shared, .svc, .reg, .media, .recov, .glody] F) {b : Nat} {w : MapWord} (h_s : s0.Keeps F s) :
    s0.Keeps F (State.commitBlock s b w) := by
  unfold State.commitBlock
  extract_lets +onlyGivenNames x1
  clear_value x1
  split
  extract_lets +onlyGivenNames x6
  clear_value x6
  extract_lets +onlyGivenNames x7
  have h7 : s0.Keeps F x7 := by
    unfold x7
    apply State.setWord_keeps (hF.le rfl)
    apply State.keepFrozen_keeps (hF.le rfl)
    refine Snd.of_eq ?_ (by assumption)
    apply State.reVersion_keeps (hF.le rfl)
    exact h_s
  clear_value x7
  extract_lets +onlyGivenNames x8
  have h8 : s0.Keeps F x8 := by
    unfold x8
    apply State.useFrame_keeps (hF.le rfl)
    exact h7
  clear_value x8
  extract_lets +onlyGivenNames x9
  have h9 : s0.Keeps F x9 := by
    unfold x9
    split
    · split
      · apply State.useFrame_keeps (hF.le rfl)
        exact h8
      · exact h8
    · exact h7
  clear_value x9
  extract_lets +onlyGivenNames x17
  have h17 : s0.Keeps F x17 := by
    unfold x17
    apply State.release_keeps (hF.le rfl)
    exact h9
  clear_value x17
  split
  · extract_lets +onlyGivenNames x21
    have h21 : s0.Keeps F x21 := by
      unfold x21
      apply State.writeSeen_keeps (hF.le rfl)
      exact h17
    clear_value x21
    split
    · apply State.descDamage_keeps (hF.le rfl)
      apply State.redense_keeps (hF.le rfl)
      apply State.invalidate_keeps (hF.le rfl)
      exact h21
    · exact h21
  · exact h17

theorem State.closeJob_keeps {s0 s : State} {F : List Part} (hF : Within [.dict, .jobs] F) {j : Nat} (h_s : s0.Keeps F s) :
    s0.Keeps F (State.closeJob s j) := by
  unfold State.closeJob
  extract_lets +onlyGivenNames x1
  have h1 : s0.Keeps F x1 := by
    unfold x1
    apply State.modJob_keeps (hF.le rfl)
    exact h_s
  clear_value x1
  extract_lets +onlyGivenNames x2
  clear_value x2
  extract_lets +onlyGivenNames x3
  have h3 : s0.Keeps F x3 := by
    unfold x3
    apply State.setPar_keeps (hF.le rfl)
    exact h1
  clear_value x3
  apply State.setPar_keeps (hF.le rfl)
  apply State.setPar_keeps (hF.le rfl)
  apply State.setPar_keeps (hF.le rfl)
  exact h3

theorem State.commitJob_keeps {s0 s : State} {F : List Part} (hF : Within [.dict, .hbm, .mem, .out, .fac, .jobs, .shared, .ports, .svc, .reg, .media, .recov, .glody] F) {j : Nat} (h_s : s0.Keeps F s) :
    s0.Keeps F (State.commitJob s j) := by
  unfold State.commitJob
  extract_lets +onlyGivenNames x1
  clear_value x1
  extract_lets +onlyGivenNames x2
  have h2 : s0.Keeps F x2 := by
    unfold x2
    apply State.modJob_keeps (hF.le rfl)
    exact h_s
  clear_value x2
  extract_lets +onlyGivenNames x3
  have h3 : s0.Keeps F x3 := by
    unfold x3
    apply forAll_keeps
    · intro v4 v5 h6
      apply State.commitBlock_keeps (hF.le rfl)
      exact h6
    · exact h2
  clear_value x3
  extract_lets +onlyGivenNames x7
  have h7 : s0.Keeps F x7 := by
    unfold x7
    apply State.freeHeld_keeps (hF.le rfl)
    exact h3
  clear_value x7
  extract_lets +onlyGivenNames x8
  clear_value x8
  apply State.wpCommit_keeps (hF.le rfl)
  apply State.closeJob_keeps (hF.le rfl)
  apply State.setPar_keeps (hF.le rfl)
  exact h7

theorem State.commitCmd_keeps {s0 s : State} {F : List Part} (hF : Within [.dict, .hbm, .mem, .out, .fac, .jobs, .shared, .queues, .ports, .svc, .reg, .media, .integ, .recov, .glody] F) {h : Nat} {c : Cmd} (h_s : s0.Keeps F s) :
    s0.Keeps F (State.commitCmd s h c) := by
  unfold State.commitCmd
  extract_lets +onlyGivenNames x1 x2
  clear_value x1 x2
  split
  · apply State.fail_keeps (hF.le rfl)
    exact h_s
  · split
    · apply State.finish_keeps (hF.le rfl)
      exact h_s
    · split
      · apply State.diceCommit_keeps (hF.le rfl)
        apply State.finish_keeps (hF.le rfl)
        apply State.commitJob_keeps (hF.le rfl)
        exact h_s
      · apply State.fail_keeps (hF.le rfl)
        exact h_s

theorem execCommit_keeps {s0 : State} {F : List Part} (hF : Within [.dict, .hbm, .mem, .out, .fac, .jobs, .shared, .queues, .ports, .svc, .reg, .media, .integ, .recov, .glody] F) {queue : Fin 32768} {idx : Fin 65536} {s : State} (h_s : s0.Keeps F s) :
    (Nxt (s0.Keeps F)) (execCommit queue idx s) := by
  unfold execCommit
  apply Nxt.next
  apply State.runCmd_keeps (hF.le rfl)
  · exact h_s
  · intro v1 v2 v3 h4
    apply State.commitCmd_keeps (hF.le rfl)
    exact h4

theorem State.abortCmd_keeps {s0 s : State} {F : List Part} (hF : Within [.dict, .mem, .out, .jobs, .queues, .svc, .integ, .glody] F) {h : Nat} {c : Cmd} (h_s : s0.Keeps F s) :
    s0.Keeps F (State.abortCmd s h c) := by
  unfold State.abortCmd
  extract_lets +onlyGivenNames x1
  clear_value x1
  split
  · apply State.fail_keeps (hF.le rfl)
    exact h_s
  · split
    · apply State.fail_keeps (hF.le rfl)
      exact h_s
    · extract_lets +onlyGivenNames x6
      clear_value x6
      extract_lets +onlyGivenNames x7
      have h7 : s0.Keeps F x7 := by
        unfold x7
        apply State.dropShadow_keeps (hF.le rfl)
        exact h_s
      clear_value x7
      extract_lets +onlyGivenNames x8
      have h8 : s0.Keeps F x8 := by
        unfold x8
        apply forAll_keeps
        · intro v9 v10 h11
          split
          · exact h11
          · apply State.fail_keeps (hF.le rfl)
            exact h11
        · exact h7
      clear_value x8
      extract_lets +onlyGivenNames x14
      have h14 : s0.Keeps F x14 := by
        unfold x14
        apply forAll_keeps
        · intro v15 v16 h17
          apply State.fail_keeps (hF.le rfl)
          exact h17
        · exact h8
      clear_value x14
      extract_lets +onlyGivenNames x18
      have h18 : s0.Keeps F x18 := by
        unfold x18
        apply State.modInteg_keeps (hF.le rfl)
        exact h14
      clear_value x18
      apply State.fail_keeps (hF.le rfl)
      apply State.closeJob_keeps (hF.le rfl)
      exact h18

theorem execAbortMilestone_keeps {s0 : State} {F : List Part} (hF : Within [.dict, .mem, .out, .jobs, .queues, .svc, .integ, .glody] F) {queue : Fin 32768} {idx : Fin 65536} {s : State} (h_s : s0.Keeps F s) :
    (Nxt (s0.Keeps F)) (execAbortMilestone queue idx s) := by
  unfold execAbortMilestone
  apply Nxt.next
  apply State.runCmd_keeps (hF.le rfl)
  · exact h_s
  · intro v1 v2 v3 h4
    apply State.abortCmd_keeps (hF.le rfl)
    exact h4

theorem State.jobBase_keeps {s0 s : State} {F : List Part} (hF : Within [.dict] F) {j v : Nat} (h_s : s0.Keeps F s) :
    s0.Keeps F (State.jobBase s j v) := by
  unfold State.jobBase
  apply State.setPar_keeps (hF.le rfl)
  apply State.setPar_keeps (hF.le rfl)
  exact h_s

theorem State.jobFree_keeps {s0 s : State} {F : List Part} (hF : Within [.dict] F) {j : Nat} (h_s : s0.Keeps F s) :
    s0.Keeps F (State.jobFree s j) := by
  unfold State.jobFree
  apply State.jobField_keeps (hF.le rfl)
  apply State.jobField_keeps (hF.le rfl)
  exact h_s

theorem execJobBaseWrite_keeps {s0 : State} {F : List Part} (hF : Within [.dict, .out, .freeCtr, .svc] F) {job : Fin 65536} {value : Nat} {s : State} (h_s : s0.Keeps F s) :
    (Nxt (s0.Keeps F)) (execJobBaseWrite job value s) := by
  unfold execJobBaseWrite
  apply Nxt.next
  apply State.barWrite_keeps (hF.le rfl)
  · exact h_s
  · intro v1 h2
    apply State.jobBase_keeps (hF.le rfl)
    exact h2

theorem execJobRelease_keeps {s0 : State} {F : List Part} (hF : Within [.dict, .out, .freeCtr, .svc] F) {job : Fin 65536} {value : Nat} {s : State} (h_s : s0.Keeps F s) :
    (Nxt (s0.Keeps F)) (execJobRelease job value s) := by
  unfold execJobRelease
  apply Nxt.next
  apply State.barWrite_keeps (hF.le rfl)
  · exact h_s
  · intro v1 h2
    apply State.jobFree_keeps (hF.le rfl)
    exact h2

theorem State.redWrite_keeps {s0 s : State} {F : List Part} (hF : Within [.dict, .hbm, .t0, .mem, .arb, .out, .freeCtr, .fac, .jobs, .reds, .shared, .queues, .ports, .svc, .reg, .stackTab, .media, .recov, .power, .glody] F) {n z : Nat} {d : List Byte} {env : Env} (h_s : s0.Keeps F s) :
    s0.Keeps F (State.redWrite s n z d env) := by
  unfold State.redWrite
  extract_lets +onlyGivenNames x1 x2
  clear_value x1 x2
  split
  · apply State.redDestLost_keeps (hF.le rfl)
    exact h_s
  · split
    · refine Snd.of_eq₂ ?_ (by assumption)
      apply State.engineWrite_keeps (hF.le rfl)
      exact h_s
    · apply State.redFault_keeps (hF.le rfl)
      exact h_s

theorem State.tileRound_keeps {s0 s : State} {F : List Part} (hF : Within [.dict, .hbm, .t0, .mem, .arb, .out, .freeCtr, .fac, .jobs, .reds, .shared, .queues, .ports, .svc, .reg, .stackTab, .media, .recov, .power, .glody] F) {n : Nat} {env : Env} (h_s : s0.Keeps F s) :
    s0.Keeps F (State.tileRound s n env) := by
  unfold State.tileRound
  split
  · exact h_s
  · extract_lets +onlyGivenNames x6
    clear_value x6
    split
    split
    · refine Snd.of_eq ?_ (by assumption)
      split
      · apply Snd.mk
        exact h_s
      · apply State.cohReady_keeps (hF.le rfl)
        exact h_s
    · split
      extract_lets +onlyGivenNames x19
      have h19 : s0.Keeps F x19 := by
        unfold x19
        split
        · apply State.takeTiles_keeps (hF.le rfl)
          apply State.modRed_keeps (hF.le rfl)
          refine Snd.of_eq ?_ (by assumption)
          apply State.redRound_keeps (hF.le rfl)
          refine Snd.of_eq ?_ (by assumption)
          split
          · apply Snd.mk
            exact h_s
          · apply Snd.mk
            exact h_s
        · apply State.redWrite_keeps (hF.le rfl)
          refine Snd.of_eq ?_ (by assumption)
          apply State.redRound_keeps (hF.le rfl)
          refine Snd.of_eq ?_ (by assumption)
          split
          · apply Snd.mk
            exact h_s
          · apply State.cohReady_keeps (hF.le rfl)
            exact h_s
      clear_value x19
      apply State.redRetry_keeps (hF.le rfl)
      apply State.redClose_keeps (hF.le rfl)
      apply State.redAdvance_keeps (hF.le rfl)
      exact h19

theorem execReduceTileRound_keeps {s0 : State} {F : List Part} (hF : Within [.dict, .hbm, .t0, .mem, .arb, .out, .freeCtr, .fac, .jobs, .reds, .shared, .queues, .ports, .svc, .reg, .stackTab, .media, .recov, .power, .glody] F) {reduction : Fin 256} {env : Env} {s : State} (h_s : s0.Keeps F s) :
    (Nxt (s0.Keeps F)) (execReduceTileRound reduction env s) := by
  unfold execReduceTileRound
  apply Nxt.next
  apply State.paid_keeps (hF.le rfl)
  · apply State.tileRound_keeps (hF.le rfl)
    exact h_s
  · exact h_s

end Sys2Proof.Machine
end

