-- ==== Sys2Proof/Laws/KeepsCkpt.lean ====
section
/-! SUPPORT. Every effect of Machine/Ckpt.lean leaves the queue alone, keeps the canonical form and writes only the parts named. -/
namespace Sys2Proof.Machine

theorem State.modFreeze_keeps {s0 s : State} {F : List Part} (hF : Within [.jobs] F) {j : Nat} {f : Freeze → Freeze} (h_s : s0.Keeps F s) :
    s0.Keeps F (State.modFreeze s j f) := by
  unfold State.modFreeze
  apply State.modJob_keeps (hF.le rfl)
  exact h_s

theorem State.ckptFreeze_keeps {s0 s : State} {F : List Part} (hF : Within [.dict, .hbm, .mem, .arb, .out, .freeCtr, .fac, .jobs, .shared, .queues, .ports, .svc, .reg, .stackTab, .media, .recov, .power, .glody] F) {h : Nat} {c : Cmd} {env : Env} (h_s : s0.Keeps F s) :
    s0.Keeps F (State.ckptFreeze s h c env) := by
  unfold State.ckptFreeze
  extract_lets +onlyGivenNames x1 x2 x3 x4
  clear_value x1 x2 x3 x4
  split
  · apply State.fail_keeps (hF.le rfl)
    exact h_s
  · split
    · apply State.fail_keeps (hF.le rfl)
      exact h_s
    · extract_lets +onlyGivenNames x9
      clear_value x9
      split
      extract_lets +onlyGivenNames x15
      clear_value x15
      split
      · apply State.fail_keeps (hF.le rfl)
        refine Snd.of_eq ?_ (by assumption)
        apply State.rangeAtHub_keeps (hF.le rfl)
        exact h_s
      · extract_lets +onlyGivenNames x18 x19 x20
        clear_value x18 x19 x20
        extract_lets +onlyGivenNames x21
        have h21 : s0.Keeps F x21 := by
          unfold x21
          apply forAll_keeps
          · intro v22 v23 h24
            apply State.settleBlock_keeps (hF.le rfl)
            exact h24
          · refine Snd.of_eq ?_ (by assumption)
            apply State.rangeAtHub_keeps (hF.le rfl)
            exact h_s
        clear_value x21
        apply State.finish_keeps (hF.le rfl)
        apply State.jobField_keeps (hF.le rfl)
        apply State.modFreeze_keeps (hF.le rfl)
        exact h21

theorem execCkptFreeze_keeps {s0 : State} {F : List Part} (hF : Within [.dict, .hbm, .mem, .arb, .out, .freeCtr, .fac, .jobs, .shared, .queues, .ports, .svc, .reg, .stackTab, .media, .recov, .power, .glody] F) {queue : Fin 32768} {idx : Fin 65536} {env : Env} {s : State} (h_s : s0.Keeps F s) :
    (Nxt (s0.Keeps F)) (execCkptFreeze queue idx env s) := by
  unfold execCkptFreeze
  apply Nxt.next
  apply State.runMove_keeps (hF.le rfl)
  · exact h_s
  · intro v1 v2 v3 h4
    apply State.ckptFreeze_keeps (hF.le rfl)
    exact h4

theorem State.thaw_keeps {s0 s : State} {F : List Part} (hF : Within [.dict, .mem, .out, .jobs, .svc, .glody] F) {j : Nat} (h_s : s0.Keeps F s) :
    s0.Keeps F (State.thaw s j) := by
  unfold State.thaw
  extract_lets +onlyGivenNames x1
  clear_value x1
  extract_lets +onlyGivenNames x2
  have h2 : s0.Keeps F x2 := by
    unfold x2
    apply State.jobField_keeps (hF.le rfl)
    apply State.modFreeze_keeps (hF.le rfl)
    exact h_s
  clear_value x2
  apply forAll_keeps
  · intro v3 v4 h5
    apply State.release_keeps (hF.le rfl)
    exact h5
  · exact h2

theorem State.ckptRelease_keeps {s0 s : State} {F : List Part} (hF : Within [.dict, .mem, .out, .jobs, .queues, .svc, .glody] F) {h : Nat} {c : Cmd} (h_s : s0.Keeps F s) :
    s0.Keeps F (State.ckptRelease s h c) := by
  unfold State.ckptRelease
  extract_lets +onlyGivenNames x1 x2
  clear_value x1 x2
  split
  · apply State.fail_keeps (hF.le rfl)
    exact h_s
  · extract_lets +onlyGivenNames x5
    have h5 : s0.Keeps F x5 := by
      unfold x5
      split
      · exact h_s
      · apply State.fail_keeps (hF.le rfl)
        exact h_s
    clear_value x5
    apply State.fail_keeps (hF.le rfl)
    apply State.thaw_keeps (hF.le rfl)
    exact h5

theorem execCkptFreezeRelease_keeps {s0 : State} {F : List Part} (hF : Within [.dict, .mem, .out, .jobs, .queues, .svc, .glody] F) {queue : Fin 32768} {idx : Fin 65536} {s : State} (h_s : s0.Keeps F s) :
    (Nxt (s0.Keeps F)) (execCkptFreezeRelease queue idx s) := by
  unfold execCkptFreezeRelease
  apply Nxt.next
  apply State.runCmd_keeps (hF.le rfl)
  · exact h_s
  · intro v1 v2 v3 h4
    apply State.ckptRelease_keeps (hF.le rfl)
    exact h4

theorem State.imageBlock_keeps {s0 s : State} {F : List Part} (hF : Within [.dict, .hbm, .mem, .arb, .out, .freeCtr, .fac, .jobs, .shared, .ports, .svc, .reg, .stackTab, .media, .recov, .power, .glody] F) {j hid b : Nat} {env : Env} (h_s : s0.Keeps F s) :
    (Snd (s0.Keeps F)) (State.imageBlock s j hid b env) := by
  unfold State.imageBlock
  extract_lets +onlyGivenNames x1
  have h1 : ∀ a0, s0.Keeps F a0 → (Snd (s0.Keeps F)) (x1 a0) := by
    unfold x1
    intro v2 h3
    split
    split
    · apply Snd.mk
      refine Snd.of_eq ?_ (by assumption)
      apply State.blockAtHub_keeps (hF.le rfl)
      exact h3
    · apply Snd.mk
      refine Snd.of_eq ?_ (by assumption)
      apply State.blockAtHub_keeps (hF.le rfl)
      exact h3
  clear_value x1
  split
  · apply h1
    exact h_s
  · extract_lets +onlyGivenNames x17
    clear_value x17
    extract_lets +onlyGivenNames x18
    have h18 : ∀ a0 a1, s0.Keeps F a0 → s0.Keeps F (x18 a0 a1) := by
      unfold x18
      intro v19 v20 h21
      refine State.modMem_keeps (hF.le rfl) ?_ (fun _ => rfl) (fun _ => rfl)
      exact h21
    clear_value x18
    split
    extract_lets +onlyGivenNames x26
    clear_value x26
    extract_lets +onlyGivenNames x27
    have h27 : s0.Keeps F x27 := by
      unfold x27
      apply h18
      refine Snd.of_eq ?_ (by assumption)
      apply h1
      apply h18
      exact h_s
    clear_value x27
    apply Snd.mk
    split
    · exact h27
    · apply State.modFreeze_keeps (hF.le rfl)
      exact h27

theorem State.drainPut_keeps {s0 s : State} {F : List Part} (hF : Within [.svc] F) {addr cls : Nat} {d : List Byte} {last : Bool} (h_s : s0.Keeps F s) :
    s0.Keeps F (State.drainPut s addr cls d last) := by
  unfold State.drainPut
  apply State.svcPut_keeps (hF.le rfl)
  exact h_s

theorem State.drainFlush_keeps {s0 s : State} {F : List Part} (hF : Within [.svc] F) {addr h : Nat} (h_s : s0.Keeps F s) :
    s0.Keeps F (State.drainFlush s addr h) := by
  unfold State.drainFlush
  apply State.svcPut_keeps (hF.le rfl)
  exact h_s

theorem State.drainBlock_keeps {s0 s : State} {F : List Part} (hF : Within [.dict, .hbm, .mem, .arb, .out, .freeCtr, .fac, .jobs, .shared, .ports, .svc, .reg, .stackTab, .media, .recov, .power, .glody] F) {j hid base : Nat} {env : Env} (h_s : s0.Keeps F s) :
    s0.Keeps F (State.drainBlock s j hid base env) := by
  unfold State.drainBlock
  extract_lets +onlyGivenNames x1 x2
  clear_value x1 x2
  split
  extract_lets +onlyGivenNames x7 x8
  clear_value x7 x8
  extract_lets +onlyGivenNames x9
  have h9 : s0.Keeps F x9 := by
    unfold x9
    apply State.drainPut_keeps (hF.le rfl)
    apply State.linkGrant_keeps (hF.le rfl)
    refine Snd.of_eq ?_ (by assumption)
    apply State.imageBlock_keeps (hF.le rfl)
    exact h_s
  clear_value x9
  apply State.modFreeze_keeps (hF.le rfl)
  exact h9

theorem State.drainRun_keeps {s0 s : State} {F : List Part} (hF : Within [.dict, .hbm, .mem, .arb, .out, .freeCtr, .fac, .jobs, .shared, .ports, .svc, .reg, .stackTab, .media, .recov, .power, .glody] F) {j hid base : Nat} {env : Env} {x0 : Nat} (h_s : s0.Keeps F s) :
    s0.Keeps F (State.drainRun s j hid base env x0) := by
  induction x0 generalizing s j hid base env with
  | zero =>
    unfold State.drainRun
    exact h_s
  | succ m ih =>
    unfold State.drainRun
    extract_lets +onlyGivenNames x1
    clear_value x1
    split
    · exact h_s
    · apply ih
      apply State.drainBlock_keeps (hF.le rfl)
      exact h_s

theorem State.drainStop_keeps {s0 s : State} {F : List Part} (hF : Within [.dict, .jobs, .queues] F) {j status : Nat} (h_s : s0.Keeps F s) :
    s0.Keeps F (State.drainStop s j status) := by
  unfold State.drainStop
  extract_lets +onlyGivenNames x1
  clear_value x1
  split
  · exact h_s
  · apply State.fail_keeps (hF.le rfl)
    apply State.modFreeze_keeps (hF.le rfl)
    exact h_s

theorem State.drainsStop_keeps {s0 s : State} {F : List Part} (hF : Within [.dict, .jobs, .queues] F) {status : Nat} (h_s : s0.Keeps F s) :
    s0.Keeps F (State.drainsStop s status) := by
  unfold State.drainsStop
  apply forAll_keeps
  · intro v1 v2 h3
    apply State.drainStop_keeps (hF.le rfl)
    exact h3
  · exact h_s

theorem State.drainEnd_keeps {s0 s : State} {F : List Part} (hF : Within [.dict, .mem, .out, .jobs, .queues, .svc, .glody] F) {j h base : Nat} {host : HostData} (h_s : s0.Keeps F s) :
    s0.Keeps F (State.drainEnd s j h base host) := by
  unfold State.drainEnd
  extract_lets +onlyGivenNames x1 x2
  clear_value x1 x2
  extract_lets +onlyGivenNames x3
  have h3 : s0.Keeps F x3 := by
    unfold x3
    split
    · exact h_s
    · apply State.drainFlush_keeps (hF.le rfl)
      exact h_s
  clear_value x3
  split
  · extract_lets +onlyGivenNames x9
    have h9 : s0.Keeps F x9 := by
      unfold x9
      apply State.thaw_keeps (hF.le rfl)
      apply State.drainPut_keeps (hF.le rfl)
      exact h3
    clear_value x9
    split
    · apply State.finish_keeps (hF.le rfl)
      exact h9
    · apply State.finish_keeps (hF.le rfl)
      exact h9
  · extract_lets +onlyGivenNames x17
    have h17 : s0.Keeps F x17 := by
      unfold x17
      apply State.thaw_keeps (hF.le rfl)
      apply State.drainPut_keeps (hF.le rfl)
      exact h3
    clear_value x17
    split
    · apply State.finish_keeps (hF.le rfl)
      exact h17
    · apply State.finish_keeps (hF.le rfl)
      exact h17
  · apply State.drainStop_keeps (hF.le rfl)
    apply State.drainFlush_keeps (hF.le rfl)
    exact h3

theorem State.ckptDrain_keeps {s0 s : State} {F : List Part} (hF : Within [.dict, .hbm, .mem, .arb, .out, .freeCtr, .fac, .jobs, .shared, .queues, .ports, .svc, .reg, .stackTab, .media, .recov, .power, .glody] F) {h : Nat} {c : Cmd} {count : Nat} {env : Env} (h_s : s0.Keeps F s) :
    s0.Keeps F (State.ckptDrain s h c count env) := by
  unfold State.ckptDrain
  extract_lets +onlyGivenNames x1 x2 x3
  clear_value x1 x2 x3
  split
  · apply State.fail_keeps (hF.le rfl)
    exact h_s
  · split
    · apply State.fail_keeps (hF.le rfl)
      exact h_s
    · split
      · apply State.fail_keeps (hF.le rfl)
        apply State.modFreeze_keeps (hF.le rfl)
        exact h_s
      · split
        · apply State.fail_keeps (hF.le rfl)
          apply State.modFreeze_keeps (hF.le rfl)
          exact h_s
        · extract_lets +onlyGivenNames x12
          have h12 : s0.Keeps F x12 := by
            unfold x12
            apply State.modFreeze_keeps (hF.le rfl)
            exact h_s
          clear_value x12
          split
          · exact h12
          · extract_lets +onlyGivenNames x15
            have h15 : s0.Keeps F x15 := by
              unfold x15
              apply State.drainRun_keeps (hF.le rfl)
              exact h12
            clear_value x15
            extract_lets +onlyGivenNames x16
            clear_value x16
            split
            · exact h15
            · apply State.drainEnd_keeps (hF.le rfl)
              exact h15

theorem execCkptDrain_keeps {s0 : State} {F : List Part} (hF : Within [.dict, .hbm, .mem, .arb, .out, .freeCtr, .fac, .jobs, .shared, .queues, .ports, .svc, .reg, .stackTab, .media, .recov, .power, .glody] F) {queue : Fin 32768} {idx : Fin 65536} {count : Nat} {env : Env} {s : State} (h_s : s0.Keeps F s) :
    (Nxt (s0.Keeps F)) (execCkptDrain queue idx count env s) := by
  unfold execCkptDrain
  apply Nxt.next
  apply State.runMove_keeps (hF.le rfl)
  · exact h_s
  · intro v1 v2 v3 h4
    apply State.ckptDrain_keeps (hF.le rfl)
    exact h4

end Sys2Proof.Machine
end

