-- ==== Sys2Proof/Laws/KeepsPorts.lean ====
section
/-! SUPPORT. Every effect of Machine/Ports.lean leaves the queue alone, keeps the canonical form and writes only the parts named. -/
namespace Sys2Proof.Machine

theorem State.stopHostSteps_keeps {s0 s : State} {F : List Part} (hF : Within [.dict, .mem, .out, .jobs, .queues, .svc, .glody] F) {hit : Nat → Bool} {status : Nat} (h_s : s0.Keeps F s) :
    s0.Keeps F (State.stopHostSteps s hit status) := by
  unfold State.stopHostSteps
  extract_lets +onlyGivenNames x1
  clear_value x1
  apply forAll_keeps
  · intro v2 v3 h4
    extract_lets +onlyGivenNames x5
    clear_value x5
    apply State.jobDamage_keeps (hF.le rfl)
    apply forAll_keeps
    · intro v6 v7 h8
      apply State.fail_keeps (hF.le rfl)
      exact h8
    · exact h4
  · exact h_s

theorem State.haltPath_keeps {s0 s : State} {F : List Part} (hF : Within [.dict, .mem, .out, .jobs, .reds, .queues, .ports, .svc, .glody] F) {hit : Nat → Bool} (h_s : s0.Keeps F s) :
    s0.Keeps F (State.haltPath s hit) := by
  unfold State.haltPath
  extract_lets +onlyGivenNames x1
  clear_value x1
  extract_lets +onlyGivenNames x2
  have h2 : s0.Keeps F x2 := by
    unfold x2
    apply forAll_keeps
    · intro v3 v4 h5
      extract_lets +onlyGivenNames x6
      clear_value x6
      extract_lets +onlyGivenNames x7
      have h7 : s0.Keeps F x7 := by
        unfold x7
        apply State.modQ_keeps (hF.le rfl)
        apply State.haltQueue_keeps (hF.le rfl)
        exact h5
      clear_value x7
      extract_lets +onlyGivenNames x8
      clear_value x8
      apply forAll_keeps
      · intro v9 v10 h11
        extract_lets +onlyGivenNames x12
        have h12 : s0.Keeps F x12 := by
          unfold x12
          apply State.contribStop_keeps (hF.le rfl)
          exact h11
        clear_value x12
        split
        · apply State.jobDamage_keeps (hF.le rfl)
          exact h12
        · exact h12
      · exact h7
    · exact h_s
  clear_value x2
  apply State.stopHostSteps_keeps (hF.le rfl)
  exact h2

theorem State.ldSilence_keeps {s0 s : State} {F : List Part} (hF : Within [.dict, .mem, .out, .jobs, .reds, .queues, .ports, .svc, .glody] F) {port : Nat} (h_s : s0.Keeps F s) :
    s0.Keeps F (State.ldSilence s port) := by
  unfold State.ldSilence
  extract_lets +onlyGivenNames x1 x2
  clear_value x1 x2
  apply State.haltPath_keeps (hF.le rfl)
  apply State.modLd_keeps (hF.le rfl)
  exact h_s

theorem State.ldReset_keeps {s0 s : State} {F : List Part} (hF : Within [.dict, .mem, .out, .jobs, .reds, .queues, .ports, .svc, .glody] F) {port : Nat} (h_s : s0.Keeps F s) :
    s0.Keeps F (State.ldReset s port) := by
  unfold State.ldReset
  apply forAll_keeps
  · intro v1 v2 h3
    apply State.modQ_keeps (hF.le rfl)
    exact h3
  · apply State.modLd_keeps (hF.le rfl)
    apply State.ldSilence_keeps (hF.le rfl)
    exact h_s

theorem State.fmReset_keeps {s0 s : State} {F : List Part} (hF : Within [.ports] F) {k : Nat} (h_s : s0.Keeps F s) :
    s0.Keeps F (State.fmReset s k) := by
  unfold State.fmReset
  apply State.modLd_keeps (hF.le rfl)
  exact h_s

theorem State.setLink_keeps {s0 s : State} {F : List Part} (hF : Within [.dict, .ports] F) {k : Nat} {f : LinkRec → LinkRec} (h_s : s0.Keeps F s) :
    s0.Keeps F (State.setLink s k f) := by
  unfold State.setLink
  extract_lets +onlyGivenNames x1
  have h1 : s0.Keeps F x1 := by
    unfold x1
    apply State.modLink_keeps (hF.le rfl)
    exact h_s
  clear_value x1
  apply State.setPar_keeps (hF.le rfl)
  exact h1

theorem State.noteLinks_keeps {s0 s : State} {F : List Part} (hF : Within [.shared] F) {before : List Nat} (h_s : s0.Keeps F s) :
    s0.Keeps F (State.noteLinks s before) := by
  unfold State.noteLinks
  extract_lets +onlyGivenNames x1 x2 x3
  clear_value x1 x2 x3
  refine State.Keeps.congr (s := s) (D := [.shared]) (hF.le rfl) ?_ rfl rfl rfl rfl (by rintro ⟨⟩ <;> (first | exact .inr rfl | simp))
  exact h_s

theorem State.dropReads_keeps {s0 s : State} {F : List Part} (hF : Within [.mem, .fac, .shared, .recov] F) {k : Nat} (h_s : s0.Keeps F s) :
    s0.Keeps F (State.dropReads s k) := by
  unfold State.dropReads
  extract_lets +onlyGivenNames x1 x2
  clear_value x1 x2
  refine State.Keeps.congr (s := s) (D := [.mem, .fac, .shared, .recov]) (hF.le rfl) ?_ rfl rfl rfl rfl (by rintro ⟨⟩ <;> (first | exact .inr rfl | simp))
  exact h_s

theorem State.dropGates_keeps {s0 s : State} {F : List Part} (hF : Within [.dict, .hbm, .t0, .mem, .arb, .out, .freeCtr, .own, .fac, .jobs, .reds, .shared, .queues, .ports, .svc, .reg, .stackTab, .media, .recov, .power, .glody] F) {k : Nat} (h_s : s0.Keeps F s) :
    s0.Keeps F (State.dropGates s k) := by
  unfold State.dropGates
  extract_lets +onlyGivenNames x1 x2
  clear_value x1 x2
  extract_lets +onlyGivenNames x3
  have h3 : s0.Keeps F x3 := by
    unfold x3
    apply forAll_keeps
    · intro v4 v5 h6
      apply State.modMaster_keeps (hF.le rfl)
      exact h6
    · exact h_s
  clear_value x3
  extract_lets +onlyGivenNames x7
  have h7 : s0.Keeps F x7 := by
    unfold x7
    apply forAll_keeps
    · intro v8 v9 h10
      apply forAll_keeps
      · intro v11 v12 h13
        apply State.clearBucket_keeps (hF.le rfl)
        exact h13
      · apply State.clearShared_keeps (hF.le rfl)
        exact h10
    · exact h3
  clear_value x7
  split
  · apply forAll_keeps
    · intro v15 v16 h17
      apply State.letIn_keeps (hF.le rfl)
      exact h17
    · exact h7
  · exact h7

theorem State.linkLeave_keeps {s0 s : State} {F : List Part} (hF : Within [.dict, .hbm, .t0, .mem, .arb, .out, .freeCtr, .own, .fac, .jobs, .reds, .shared, .queues, .ports, .svc, .reg, .stackTab, .media, .recov, .power, .glody] F) {k reason dest : Nat} (h_s : s0.Keeps F s) :
    s0.Keeps F (State.linkLeave s k reason dest) := by
  unfold State.linkLeave
  extract_lets +onlyGivenNames x1 x2
  clear_value x1 x2
  extract_lets +onlyGivenNames x3
  have h3 : s0.Keeps F x3 := by
    unfold x3
    apply State.setLink_keeps (hF.le rfl)
    apply State.count_keeps (hF.le rfl)
    exact h_s
  clear_value x3
  extract_lets +onlyGivenNames x4
  have h4 : s0.Keeps F x4 := by
    unfold x4
    apply State.dropGates_keeps (hF.le rfl)
    apply State.modLink_keeps (hF.le rfl)
    apply State.dropReads_keeps (hF.le rfl)
    exact h3
  clear_value x4
  extract_lets +onlyGivenNames x5
  have h5 : s0.Keeps F x5 := by
    unfold x5
    apply State.retryHub_keeps (hF.le rfl)
    exact h4
  clear_value x5
  extract_lets +onlyGivenNames x6
  have h6 : s0.Keeps F x6 := by
    unfold x6
    apply forAll_keeps
    · intro v7 v8 h9
      apply State.ldReset_keeps (hF.le rfl)
      exact h9
    · apply State.fmReset_keeps (hF.le rfl)
      exact h5
  clear_value x6
  apply State.tolExits_keeps (hF.le rfl)
  apply State.setTol_keeps (hF.le rfl)
  apply State.noteLinks_keeps (hF.le rfl)
  exact h6

theorem State.linkOff_keeps {s0 s : State} {F : List Part} (hF : Within [.dict, .hbm, .t0, .mem, .arb, .out, .freeCtr, .own, .fac, .jobs, .reds, .shared, .queues, .ports, .svc, .reg, .stackTab, .media, .recov, .power, .glody] F) {k dest : Nat} (h_s : s0.Keeps F s) :
    s0.Keeps F (State.linkOff s k dest) := by
  unfold State.linkOff
  split
  · apply State.linkLeave_keeps (hF.le rfl)
    exact h_s
  · apply State.setLink_keeps (hF.le rfl)
    exact h_s

theorem State.delayLink_keeps {s0 s : State} {F : List Part} (hF : Within [.dict, .ports] F) {k : Nat} (h_s : s0.Keeps F s) :
    s0.Keeps F (State.delayLink s k) := by
  unfold State.delayLink
  apply State.setLink_keeps (hF.le rfl)
  exact h_s

theorem State.linkFall_keeps {s0 s : State} {F : List Part} (hF : Within [.dict, .hbm, .t0, .mem, .arb, .out, .freeCtr, .own, .fac, .jobs, .reds, .shared, .queues, .ports, .svc, .reg, .stackTab, .media, .recov, .power, .glody] F) {k reason : Nat} (h_s : s0.Keeps F s) :
    s0.Keeps F (State.linkFall s k reason) := by
  unfold State.linkFall
  split
  · exact h_s
  · extract_lets +onlyGivenNames x3
    have h3 : s0.Keeps F x3 := by
      unfold x3
      apply State.delayLink_keeps (hF.le rfl)
      apply State.linkLeave_keeps (hF.le rfl)
      exact h_s
    clear_value x3
    apply State.setLink_keeps (hF.le rfl)
    exact h3

theorem execLinkDown_keeps {s0 : State} {F : List Part} (hF : Within [.dict, .hbm, .t0, .mem, .arb, .out, .freeCtr, .own, .fac, .jobs, .reds, .shared, .queues, .ports, .svc, .reg, .stackTab, .media, .recov, .power, .glody] F) {link : Fin 32} {hotReset : Bool} {s : State} (h_s : s0.Keeps F s) :
    (Nxt (s0.Keeps F)) (execLinkDown link hotReset s) := by
  unfold execLinkDown
  apply Nxt.next
  apply State.linkFall_keeps (hF.le rfl)
  exact h_s

theorem execReplayLimitExhausted_keeps {s0 : State} {F : List Part} (hF : Within [.dict, .hbm, .t0, .mem, .arb, .out, .freeCtr, .own, .fac, .jobs, .reds, .shared, .queues, .ports, .svc, .reg, .stackTab, .media, .recov, .power, .glody] F) {link : Fin 32} {s : State} (h_s : s0.Keeps F s) :
    (Nxt (s0.Keeps F)) (execReplayLimitExhausted link s) := by
  unfold execReplayLimitExhausted
  apply Nxt.next
  apply State.linkFall_keeps (hF.le rfl)
  exact h_s

theorem State.setRas_keeps {s0 s : State} {F : List Part} (hF : Within [.ports] F) {port bit : Nat} (h_s : s0.Keeps F s) :
    s0.Keeps F (State.setRas s port bit) := by
  unfold State.setRas
  apply State.modLd_keeps (hF.le rfl)
  exact h_s

theorem execMalformedMessage_keeps {s0 : State} {F : List Part} (hF : Within [.dict, .hbm, .t0, .mem, .arb, .out, .freeCtr, .own, .fac, .jobs, .reds, .shared, .queues, .ports, .svc, .reg, .stackTab, .media, .recov, .power, .glody] F) {port : Fin 512} {s : State} (h_s : s0.Keeps F s) :
    (Nxt (s0.Keeps F)) (execMalformedMessage port s) := by
  unfold execMalformedMessage
  apply Nxt.next
  split
  · apply State.linkFall_keeps (hF.le rfl)
    apply State.setRas_keeps (hF.le rfl)
    exact h_s
  · exact h_s

theorem State.overflow_keeps {s0 s : State} {F : List Part} (hF : Within [.dict, .hbm, .t0, .mem, .arb, .out, .freeCtr, .own, .fac, .jobs, .reds, .shared, .queues, .ports, .svc, .reg, .stackTab, .media, .recov, .power, .glody] F) {port : Nat} (h_s : s0.Keeps F s) :
    s0.Keeps F (State.overflow s port) := by
  unfold State.overflow
  split
  · apply State.linkFall_keeps (hF.le rfl)
    apply State.setRas_keeps (hF.le rfl)
    apply State.count_keeps (hF.le rfl)
    exact h_s
  · exact h_s

theorem execRxOverflow_keeps {s0 : State} {F : List Part} (hF : Within [.dict, .hbm, .t0, .mem, .arb, .out, .freeCtr, .own, .fac, .jobs, .reds, .shared, .queues, .ports, .svc, .reg, .stackTab, .media, .recov, .power, .glody] F) {port : Fin 512} {s : State} (h_s : s0.Keeps F s) :
    (Nxt (s0.Keeps F)) (execRxOverflow port s) := by
  unfold execRxOverflow
  apply Nxt.next
  apply State.overflow_keeps (hF.le rfl)
  exact h_s

theorem execCreditStall_keeps {s0 : State} {F : List Part} (hF : Within [.dict, .hbm, .t0, .mem, .arb, .out, .freeCtr, .own, .fac, .jobs, .reds, .shared, .queues, .ports, .svc, .reg, .stackTab, .media, .recov, .power, .glody] F) {link : Fin 32} {s : State} (h_s : s0.Keeps F s) :
    (Nxt (s0.Keeps F)) (execCreditStall link s) := by
  unfold execCreditStall
  extract_lets +onlyGivenNames x1
  clear_value x1
  apply Nxt.next
  split
  · apply State.linkFall_keeps (hF.le rfl)
    exact h_s
  · exact h_s

theorem execBackoffExpiry_keeps {s0 : State} {F : List Part} (hF : Within [.dict, .ports] F) {link : Fin 32} {s : State} (h_s : s0.Keeps F s) :
    (Nxt (s0.Keeps F)) (execBackoffExpiry link s) := by
  unfold execBackoffExpiry
  extract_lets +onlyGivenNames x1
  clear_value x1
  apply Nxt.next
  split
  · apply State.setLink_keeps (hF.le rfl)
    exact h_s
  · exact h_s

theorem State.cxlMem_keeps {s0 s : State} {F : List Part} (hF : Within [.dict, .hbm, .t0, .mem, .arb, .out, .freeCtr, .own, .fac, .jobs, .reds, .shared, .queues, .ports, .svc, .reg, .stackTab, .media, .recov, .power, .glody] F) {port addr : Nat} {mk : Nat → HeldReq} {ph : Phys} (h_s : s0.Keeps F s) :
    (Nxt (s0.Keeps F)) (State.cxlMem s port addr mk ph) := by
  unfold State.cxlMem
  extract_lets +onlyGivenNames x1
  have h1 : s0.Keeps F x1 := by
    unfold x1
    split
    · apply State.backWith_keeps (hF.le rfl)
      exact h_s
    · exact h_s
  clear_value x1
  apply Nxt.next
  split
  · apply State.overflow_keeps (hF.le rfl)
    exact h1
  · split
    · apply State.noDpa_keeps (hF.le rfl)
      exact h1
    · split
      · apply State.noDpa_keeps (hF.le rfl)
        exact h1
      · apply State.arrive_keeps (hF.le rfl)
        exact h1

theorem execCxlMemRead_keeps {s0 : State} {F : List Part} (hF : Within [.dict, .hbm, .t0, .mem, .arb, .out, .freeCtr, .own, .fac, .jobs, .reds, .shared, .queues, .ports, .svc, .reg, .stackTab, .media, .recov, .power, .glody] F) {port : Fin 512} {address : Nat} {want : Fin 3} {ph : Phys} {s : State} (h_s : s0.Keeps F s) :
    (Nxt (s0.Keeps F)) (execCxlMemRead port address want ph s) := by
  unfold execCxlMemRead
  apply State.cxlMem_keeps (hF.le rfl)
  exact h_s

theorem execCxlMemWrite_keeps {s0 : State} {F : List Part} (hF : Within [.dict, .hbm, .t0, .mem, .arb, .out, .freeCtr, .own, .fac, .jobs, .reds, .shared, .queues, .ports, .svc, .reg, .stackTab, .media, .recov, .power, .glody] F) {port : Fin 512} {address : Nat} {data : List Byte} {mask : Nat} {mark : WriteMark} {keep : Fin 3} {s : State} (h_s : s0.Keeps F s) :
    (Nxt (s0.Keeps F)) (execCxlMemWrite port address data mask mark keep s) := by
  unfold execCxlMemWrite
  apply State.cxlMem_keeps (hF.le rfl)
  exact h_s

theorem State.alignLink_keeps {s0 s : State} {F : List Part} (hF : Within [.dict, .hbm, .t0, .mem, .arb, .out, .freeCtr, .own, .fac, .jobs, .reds, .shared, .queues, .ports, .svc, .reg, .stackTab, .media, .recov, .power, .glody] F) {k old : Nat} (h_s : s0.Keeps F s) :
    s0.Keeps F (State.alignLink s k old) := by
  unfold State.alignLink
  extract_lets +onlyGivenNames x1 x2 x3
  clear_value x1 x2 x3
  split
  · exact h_s
  · split
    · split
      · exact h_s
      · apply State.linkOff_keeps (hF.le rfl)
        exact h_s
    · split
      · apply State.setLink_keeps (hF.le rfl)
        exact h_s
      · split
        · apply State.linkOff_keeps (hF.le rfl)
          exact h_s
        · exact h_s

theorem State.readLayout_keeps {s0 s : State} {F : List Part} (hF : Within [.dict, .hbm, .t0, .mem, .arb, .out, .freeCtr, .own, .fac, .jobs, .reds, .shared, .queues, .ports, .svc, .reg, .stackTab, .media, .recov, .power, .glody] F) {j : Nat} (h_s : s0.Keeps F s) :
    s0.Keeps F (State.readLayout s j) := by
  unfold State.readLayout
  extract_lets +onlyGivenNames x1 x2 x3
  clear_value x1 x2 x3
  extract_lets +onlyGivenNames x4
  have h4 : s0.Keeps F x4 := by
    unfold x4
    refine State.Keeps.congr (s := s) (D := [.ports]) (hF.le rfl) ?_ rfl rfl rfl rfl (by rintro ⟨⟩ <;> (first | exact .inr rfl | simp))
    exact h_s
  clear_value x4
  apply forAll_keeps
  · intro v5 v6 h7
    apply State.alignLink_keeps (hF.le rfl)
    exact h7
  · exact h4

theorem State.readLayouts_keeps {s0 s : State} {F : List Part} (hF : Within [.dict, .hbm, .t0, .mem, .arb, .out, .freeCtr, .own, .fac, .jobs, .reds, .shared, .queues, .ports, .svc, .reg, .stackTab, .media, .recov, .power, .glody] F) (h_s : s0.Keeps F s) :
    s0.Keeps F (State.readLayouts s) := by
  unfold State.readLayouts
  apply forAll_keeps
  · intro v1 v2 h3
    apply State.readLayout_keeps (hF.le rfl)
    exact h3
  · exact h_s

theorem State.enablePort_keeps {s0 s : State} {F : List Part} (hF : Within [.dict, .hbm, .t0, .mem, .arb, .out, .freeCtr, .own, .fac, .jobs, .reds, .shared, .queues, .ports, .svc, .reg, .stackTab, .media, .recov, .power, .glody] F) {p : Nat} (h_s : s0.Keeps F s) :
    s0.Keeps F (State.enablePort s p) := by
  unfold State.enablePort
  apply State.readLayout_keeps (hF.le rfl)
  apply forAll_keeps
  · intro v1 v2 h3
    apply State.setLink_keeps (hF.le rfl)
    exact h3
  · exact h_s

theorem execPortEnableWrite_keeps {s0 : State} {F : List Part} (hF : Within [.dict, .hbm, .t0, .mem, .arb, .out, .freeCtr, .own, .fac, .jobs, .reds, .shared, .queues, .ports, .svc, .reg, .stackTab, .media, .recov, .power, .glody] F) {block : Fin 16} {value : Nat} {s : State} (h_s : s0.Keeps F s) :
    (Nxt (s0.Keeps F)) (execPortEnableWrite block value s) := by
  unfold execPortEnableWrite
  apply Nxt.next
  apply State.barWrite_keeps (hF.le rfl)
  · exact h_s
  · intro v1 h2
    apply State.enablePort_keeps (hF.le rfl)
    apply State.storeWrite_keeps (hF.le rfl)
    exact h2

theorem execLinkDetectTick_keeps {s0 : State} {F : List Part} (hF : Within [.dict, .ports] F) {link : Fin 32} {present : Bool} {s : State} (h_s : s0.Keeps F s) :
    (Nxt (s0.Keeps F)) (execLinkDetectTick link present s) := by
  unfold execLinkDetectTick
  apply Nxt.next
  split
  · apply State.setLink_keeps (hF.le rfl)
    exact h_s
  · exact h_s

theorem State.trained_keeps {s0 s : State} {F : List Part} (hF : Within [.dict, .shared, .ports, .power] F) {k : Nat} {p : Partner} (h_s : s0.Keeps F s) :
    s0.Keeps F (State.trained s k p) := by
  unfold State.trained
  extract_lets +onlyGivenNames x1 x2 x3 x4 x5
  clear_value x1 x2 x3 x4 x5
  split
  · apply State.delayLink_keeps (hF.le rfl)
    apply State.setLink_keeps (hF.le rfl)
    exact h_s
  · split
    · apply State.delayLink_keeps (hF.le rfl)
      apply State.setLink_keeps (hF.le rfl)
      exact h_s
    · extract_lets +onlyGivenNames x13 x14 x15 x16
      clear_value x13 x14 x15 x16
      extract_lets +onlyGivenNames x17
      have h17 : s0.Keeps F x17 := by
        unfold x17
        apply State.setLink_keeps (hF.le rfl)
        exact h_s
      clear_value x17
      apply State.tolExits_keeps (hF.le rfl)
      apply State.setTol_keeps (hF.le rfl)
      apply State.noteLinks_keeps (hF.le rfl)
      exact h17

theorem execLinkTrained_keeps {s0 : State} {F : List Part} (hF : Within [.dict, .shared, .ports, .power] F) {link : Fin 32} {partner : Partner} {s : State} (h_s : s0.Keeps F s) :
    (Nxt (s0.Keeps F)) (execLinkTrained link partner s) := by
  unfold execLinkTrained
  apply Nxt.next
  split
  · apply State.trained_keeps (hF.le rfl)
    exact h_s
  · exact h_s

theorem execIdeKeyProgram_keeps {s0 : State} {F : List Part} (hF : Within [.dict, .ports] F) {link : Fin 32} {keys : List Byte} {containment : Bool} {s : State} (h_s : s0.Keeps F s) :
    (Nxt (s0.Keeps F)) (execIdeKeyProgram link keys containment s) := by
  unfold execIdeKeyProgram
  apply Nxt.next
  split
  · apply State.setLink_keeps (hF.le rfl)
    exact h_s
  · exact h_s

theorem execIdeIntegrityFail_keeps {s0 : State} {F : List Part} (hF : Within [.dict, .hbm, .t0, .mem, .arb, .out, .freeCtr, .own, .fac, .jobs, .reds, .shared, .queues, .ports, .svc, .reg, .stackTab, .media, .recov, .power, .glody] F) {link : Fin 32} {s : State} (h_s : s0.Keeps F s) :
    (Nxt (s0.Keeps F)) (execIdeIntegrityFail link s) := by
  unfold execIdeIntegrityFail
  apply Nxt.next
  split
  · apply State.linkFall_keeps (hF.le rfl)
    exact h_s
  · exact h_s

theorem execLdFlr_keeps {s0 : State} {F : List Part} (hF : Within [.dict, .mem, .out, .jobs, .reds, .queues, .ports, .svc, .glody] F) {port : Fin 512} {s : State} (h_s : s0.Keeps F s) :
    (Nxt (s0.Keeps F)) (execLdFlr port s) := by
  unfold execLdFlr
  apply Nxt.next
  split
  · apply State.ldReset_keeps (hF.le rfl)
    exact h_s
  · exact h_s

theorem execLdBmeClear_keeps {s0 : State} {F : List Part} (hF : Within [.dict, .mem, .out, .jobs, .reds, .queues, .ports, .svc, .glody] F) {port : Fin 512} {s : State} (h_s : s0.Keeps F s) :
    (Nxt (s0.Keeps F)) (execLdBmeClear port s) := by
  unfold execLdBmeClear
  apply Nxt.next
  split
  · apply State.ldSilence_keeps (hF.le rfl)
    exact h_s
  · exact h_s

theorem execLdCplTimeout_keeps {s0 : State} {F : List Part} (hF : Within [.ports] F) {port : Fin 512} {tag : Nat} {s : State} (h_s : s0.Keeps F s) :
    (Nxt (s0.Keeps F)) (execLdCplTimeout port tag s) := by
  unfold execLdCplTimeout
  extract_lets +onlyGivenNames x1
  clear_value x1
  apply Nxt.next
  split
  · exact h_s
  · apply State.modLd_keeps (hF.le rfl)
    exact h_s

theorem execLdCompletionArrival_keeps {s0 : State} {F : List Part} (hF : Within [.dict, .ports] F) {port : Fin 512} {tag : Nat} {s : State} (h_s : s0.Keeps F s) :
    (Nxt (s0.Keeps F)) (execLdCompletionArrival port tag s) := by
  unfold execLdCompletionArrival
  extract_lets +onlyGivenNames x1
  clear_value x1
  apply Nxt.next
  split
  · apply State.modLd_keeps (hF.le rfl)
    exact h_s
  · split
    · apply State.count_keeps (hF.le rfl)
      exact h_s
    · exact h_s

theorem State.resetPort_keeps {s0 s : State} {F : List Part} (hF : Within [.dict, .hbm, .t0, .mem, .arb, .out, .freeCtr, .own, .fac, .jobs, .reds, .shared, .queues, .ports, .svc, .reg, .stackTab, .media, .recov, .power, .glody] F) {p : Nat} {failed : Bool} (h_s : s0.Keeps F s) :
    s0.Keeps F (State.resetPort s p failed) := by
  unfold State.resetPort
  extract_lets +onlyGivenNames x1
  clear_value x1
  extract_lets +onlyGivenNames x2
  have h2 : s0.Keeps F x2 := by
    unfold x2
    split
    · refine State.Keeps.congr (s := s) (D := [.recov]) (hF.le rfl) ?_ rfl rfl rfl rfl (by rintro ⟨⟩ <;> (first | exact .inr rfl | simp))
      exact h_s
    · exact h_s
  clear_value x2
  apply forAll_keeps
  · intro v5 v6 h7
    extract_lets +onlyGivenNames x8
    have h8 : s0.Keeps F x8 := by
      unfold x8
      split
      · apply State.linkFall_keeps (hF.le rfl)
        exact h7
      · exact h7
    clear_value x8
    split
    · apply State.setLink_keeps (hF.le rfl)
      exact h8
    · exact h8
  · exact h2

theorem State.resetLinks_keeps {s0 s : State} {F : List Part} (hF : Within [.dict, .hbm, .t0, .mem, .arb, .out, .freeCtr, .own, .fac, .jobs, .reds, .shared, .queues, .ports, .svc, .reg, .stackTab, .media, .recov, .power, .glody] F) {ks : List Nat} (h_s : s0.Keeps F s) :
    s0.Keeps F (State.resetLinks s ks) := by
  unfold State.resetLinks
  apply forAll_keeps
  · intro v1 v2 h3
    extract_lets +onlyGivenNames x4
    clear_value x4
    split
    · exact h3
    · split
      · apply State.linkLeave_keeps (hF.le rfl)
        exact h3
      · apply State.setLink_keeps (hF.le rfl)
        exact h3
  · exact h_s

end Sys2Proof.Machine
end

