-- ==== Sys2Proof/Laws/KeepsLdFn.lean ====
section
/-! SUPPORT. Every effect of Machine/LdFn.lean leaves the queue alone, keeps the canonical form and writes only the parts named. -/
namespace Sys2Proof.Machine

theorem State.ldAnswer_keeps {s0 s : State} {F : List Part} (hF : Within [.out, .ports] F) {link ld kind status : Nat} {d : List Byte} (h_s : s0.Keeps F s) :
    s0.Keeps F (State.ldAnswer s link ld kind status d) := by
  unfold State.ldAnswer
  apply State.send_keeps (hF.le rfl)
  exact h_s

theorem State.ldPending_keeps {s0 s : State} {F : List Part} (hF : Within [.out, .ports] F) {k ld : Nat} (h_s : s0.Keeps F s) :
    s0.Keeps F (State.ldPending s k ld) := by
  unfold State.ldPending
  extract_lets +onlyGivenNames x1
  clear_value x1
  split
  · exact h_s
  · apply forAll_keeps
    · intro v4 v5 h6
      split
      · apply State.msixLd_keeps (hF.le rfl)
        apply State.modLd_keeps (hF.le rfl)
        exact h6
      · exact h6
    · exact h_s

theorem State.ldCfgWrite_keeps {s0 s : State} {F : List Part} (hF : Within [.dict, .mem, .out, .jobs, .reds, .queues, .ports, .svc, .glody] F) {k ld i v : Nat} (h_s : s0.Keeps F s) :
    s0.Keeps F (State.ldCfgWrite s k ld i v) := by
  unfold State.ldCfgWrite
  split
  · exact h_s
  · extract_lets +onlyGivenNames x3 x4 x5 x6
    clear_value x3 x4 x5 x6
    extract_lets +onlyGivenNames x7
    have h7 : s0.Keeps F x7 := by
      unfold x7
      apply State.modLd_keeps (hF.le rfl)
      exact h_s
    clear_value x7
    split
    · apply State.ldPending_keeps (hF.le rfl)
      exact h7
    · extract_lets +onlyGivenNames x10 x11
      clear_value x10 x11
      split
      · apply State.ldSilence_keeps (hF.le rfl)
        exact h7
      · apply State.ldPending_keeps (hF.le rfl)
        apply State.modLd_keeps (hF.le rfl)
        exact h7

theorem execCxlConfigRequest_keeps {s0 : State} {F : List Part} (hF : Within [.dict, .mem, .out, .jobs, .reds, .queues, .ports, .svc, .glody] F) {link : Fin 32} {ld : Fin 17} {write : Bool} {offset : Fin 1024} {value : Nat} {s : State} (h_s : s0.Keeps F s) :
    (Nxt (s0.Keeps F)) (execCxlConfigRequest link ld write offset value s) := by
  unfold execCxlConfigRequest
  apply Nxt.next
  split
  · exact h_s
  · split
    · apply State.ldAnswer_keeps (hF.le rfl)
      apply State.ldCfgWrite_keeps (hF.le rfl)
      exact h_s
    · apply State.ldAnswer_keeps (hF.le rfl)
      exact h_s

theorem execCdatRead_keeps {s0 : State} {F : List Part} (hF : Within [.out, .ports] F) {port : Fin 512} {s : State} (h_s : s0.Keeps F s) :
    (Nxt (s0.Keeps F)) (execCdatRead port s) := by
  unfold execCdatRead
  extract_lets +onlyGivenNames x1
  clear_value x1
  apply Nxt.next
  split
  · apply State.ldAnswer_keeps (hF.le rfl)
    exact h_s
  · exact h_s

theorem execHdmDecoderCommit_keeps {s0 : State} {F : List Part} (hF : Within [.out, .ports] F) {port : Fin 512} {decoder : Fin 4} {commit : Bool} {base size ways gran skip : Nat} {lock : Bool} {s : State} (h_s : s0.Keeps F s) :
    (Nxt (s0.Keeps F)) (execHdmDecoderCommit port decoder commit base size ways gran skip lock s) := by
  unfold execHdmDecoderCommit
  extract_lets +onlyGivenNames x1 x2 x3 x4
  clear_value x1 x2 x3 x4
  apply Nxt.next
  split
  · exact h_s
  · split
    · apply State.ldAnswer_keeps (hF.le rfl)
      exact h_s
    · split
      · split
        · apply State.ldAnswer_keeps (hF.le rfl)
          exact h_s
        · apply State.ldAnswer_keeps (hF.le rfl)
          apply State.modLd_keeps (hF.le rfl)
          exact h_s
      · split
        · extract_lets +onlyGivenNames x14
          clear_value x14
          apply State.ldAnswer_keeps (hF.le rfl)
          apply State.modLd_keeps (hF.le rfl)
          exact h_s
        · apply State.ldAnswer_keeps (hF.le rfl)
          exact h_s

theorem State.dcAdd_keeps {s0 s : State} {F : List Part} (hF : Within [.ports] F) {port first n : Nat} (h_s : s0.Keeps F s) :
    (Snd (s0.Keeps F)) (State.dcAdd s port first n) := by
  unfold State.dcAdd
  extract_lets +onlyGivenNames x1 x2
  clear_value x1 x2
  split
  · apply Snd.mk
    apply State.modLd_keeps (hF.le rfl)
    exact h_s
  · apply Snd.mk
    exact h_s

theorem State.dcRelease_keeps {s0 s : State} {F : List Part} (hF : Within [.dict, .t0, .mem, .out, .jobs, .shared, .ports, .svc, .glody] F) {port first n : Nat} (h_s : s0.Keeps F s) :
    (Snd (s0.Keeps F)) (State.dcRelease s port first n) := by
  unfold State.dcRelease
  extract_lets +onlyGivenNames x1 x2
  clear_value x1 x2
  split
  · apply Snd.mk
    apply forAll_keeps
    · intro v4 v5 h6
      split
      · apply State.dropExtent_keeps (hF.le rfl)
        exact h6
      · apply State.modLd_keeps (hF.le rfl)
        exact h6
    · exact h_s
  · apply Snd.mk
    exact h_s

theorem State.fmDc_keeps {s0 s : State} {F : List Part} (hF : Within [.out, .ports] F) {port : Nat} {r : Bool × State} (h_s : s0.Keeps F s) (h_r : (Snd (s0.Keeps F)) r) :
    s0.Keeps F (State.fmDc s port r) := by
  unfold State.fmDc
  split
  · apply State.ldAnswer_keeps (hF.le rfl)
    exact h_r
  · exact h_s

theorem execDcAddExtent_keeps {s0 : State} {F : List Part} (hF : Within [.out, .ports] F) {port : Fin 512} {first count : Nat} {s : State} (h_s : s0.Keeps F s) :
    (Nxt (s0.Keeps F)) (execDcAddExtent port first count s) := by
  unfold execDcAddExtent
  apply Nxt.next
  apply State.fmDc_keeps (hF.le rfl)
  · exact h_s
  · apply State.dcAdd_keeps (hF.le rfl)
    exact h_s

theorem execDcReleaseExtent_keeps {s0 : State} {F : List Part} (hF : Within [.dict, .t0, .mem, .out, .jobs, .shared, .ports, .svc, .glody] F) {port : Fin 512} {first count : Nat} {s : State} (h_s : s0.Keeps F s) :
    (Nxt (s0.Keeps F)) (execDcReleaseExtent port first count s) := by
  unfold execDcReleaseExtent
  apply Nxt.next
  apply State.fmDc_keeps (hF.le rfl)
  · exact h_s
  · apply State.dcRelease_keeps (hF.le rfl)
    exact h_s

end Sys2Proof.Machine
end

