-- ==== Sys2Proof/Laws/KeepsMailbox.lean ====
section
/-! SUPPORT. Every effect of Machine/Mailbox.lean leaves the queue alone, keeps the canonical form and writes only the parts named. -/
namespace Sys2Proof.Machine

theorem State.mbox_keeps {s0 s : State} {F : List Part} (hF : Within [.out, .ports] F) {port : Nat} {r : Nat × List Byte × State} (h_s : s0.Keeps F s) (h_r : (Snd (Snd (s0.Keeps F))) r) :
    (Nxt (s0.Keeps F)) (State.mbox s port r) := by
  unfold State.mbox
  apply Nxt.next
  split
  · apply State.ldAnswer_keeps (hF.le rfl)
    exact h_r
  · exact h_s

theorem execIdentifyMemoryDevice_keeps {s0 : State} {F : List Part} (hF : Within [.out, .ports] F) {port : Fin 512} {s : State} (h_s : s0.Keeps F s) :
    (Nxt (s0.Keeps F)) (execIdentifyMemoryDevice port s) := by
  unfold execIdentifyMemoryDevice
  extract_lets +onlyGivenNames x1
  clear_value x1
  apply State.mbox_keeps (hF.le rfl)
  · exact h_s
  · apply Snd.mk
    apply Snd.mk
    exact h_s

theorem execGetSupportedLogs_keeps {s0 : State} {F : List Part} (hF : Within [.out, .ports] F) {port : Fin 512} {s : State} (h_s : s0.Keeps F s) :
    (Nxt (s0.Keeps F)) (execGetSupportedLogs port s) := by
  unfold execGetSupportedLogs
  apply State.mbox_keeps (hF.le rfl)
  · exact h_s
  · apply Snd.mk
    apply Snd.mk
    exact h_s

theorem execGetLog_keeps {s0 : State} {F : List Part} (hF : Within [.out, .ports] F) {port : Fin 512} {uuid offset length : Nat} {s : State} (h_s : s0.Keeps F s) :
    (Nxt (s0.Keeps F)) (execGetLog port uuid offset length s) := by
  unfold execGetLog
  extract_lets +onlyGivenNames x1
  clear_value x1
  apply State.mbox_keeps (hF.le rfl)
  · exact h_s
  · split
    · apply Snd.mk
      apply Snd.mk
      exact h_s
    · split
      · apply Snd.mk
        apply Snd.mk
        exact h_s
      · apply Snd.mk
        apply Snd.mk
        exact h_s

theorem execGetEventRecords_keeps {s0 : State} {F : List Part} (hF : Within [.out, .ports] F) {port : Fin 512} {log : Nat} {s : State} (h_s : s0.Keeps F s) :
    (Nxt (s0.Keeps F)) (execGetEventRecords port log s) := by
  unfold execGetEventRecords
  extract_lets +onlyGivenNames x1 x2 x3
  clear_value x1 x2 x3
  apply State.mbox_keeps (hF.le rfl)
  · exact h_s
  · split
    · apply Snd.mk
      apply Snd.mk
      exact h_s
    · apply Snd.mk
      apply Snd.mk
      exact h_s

theorem execClearEventRecords_keeps {s0 : State} {F : List Part} (hF : Within [.out, .ports] F) {port : Fin 512} {log : Nat} {all : Bool} {handles : List Nat} {s : State} (h_s : s0.Keeps F s) :
    (Nxt (s0.Keeps F)) (execClearEventRecords port log all handles s) := by
  unfold execClearEventRecords
  extract_lets +onlyGivenNames x1 x2
  clear_value x1 x2
  extract_lets +onlyGivenNames x3
  have h3 : ∀ a0, s0.Keeps F (x3 a0) := by
    unfold x3
    intro v4
    apply State.modLd_keeps (hF.le rfl)
    exact h_s
  clear_value x3
  apply State.mbox_keeps (hF.le rfl)
  · exact h_s
  · split
    · apply Snd.mk
      apply Snd.mk
      exact h_s
    · split
      · split
        · apply Snd.mk
          apply Snd.mk
          exact h_s
        · apply Snd.mk
          apply Snd.mk
          apply h3
      · split
        · apply Snd.mk
          apply Snd.mk
          apply h3
        · apply Snd.mk
          apply Snd.mk
          exact h_s

theorem execGetEventInterruptPolicy_keeps {s0 : State} {F : List Part} (hF : Within [.out, .ports] F) {port : Fin 512} {s : State} (h_s : s0.Keeps F s) :
    (Nxt (s0.Keeps F)) (execGetEventInterruptPolicy port s) := by
  unfold execGetEventInterruptPolicy
  apply State.mbox_keeps (hF.le rfl)
  · exact h_s
  · apply Snd.mk
    apply Snd.mk
    exact h_s

theorem execSetEventInterruptPolicy_keeps {s0 : State} {F : List Part} (hF : Within [.out, .ports] F) {port : Fin 512} {settings : List Byte} {s : State} (h_s : s0.Keeps F s) :
    (Nxt (s0.Keeps F)) (execSetEventInterruptPolicy port settings s) := by
  unfold execSetEventInterruptPolicy
  extract_lets +onlyGivenNames x1
  clear_value x1
  apply State.mbox_keeps (hF.le rfl)
  · exact h_s
  · split
    · apply Snd.mk
      apply Snd.mk
      exact h_s
    · apply Snd.mk
      apply Snd.mk
      apply State.modLd_keeps (hF.le rfl)
      exact h_s

theorem execGetTimestamp_keeps {s0 : State} {F : List Part} (hF : Within [.out, .ports] F) {port : Fin 512} {s : State} (h_s : s0.Keeps F s) :
    (Nxt (s0.Keeps F)) (execGetTimestamp port s) := by
  unfold execGetTimestamp
  apply State.mbox_keeps (hF.le rfl)
  · exact h_s
  · apply Snd.mk
    apply Snd.mk
    exact h_s

theorem execSetTimestamp_keeps {s0 : State} {F : List Part} (hF : Within [.out, .ports] F) {port : Fin 512} {value : Nat} {s : State} (h_s : s0.Keeps F s) :
    (Nxt (s0.Keeps F)) (execSetTimestamp port value s) := by
  unfold execSetTimestamp
  apply State.mbox_keeps (hF.le rfl)
  · exact h_s
  · apply Snd.mk
    apply Snd.mk
    apply State.modLd_keeps (hF.le rfl)
    exact h_s

theorem execGetHealthInfo_keeps {s0 : State} {F : List Part} (hF : Within [.out, .ports] F) {port : Fin 512} {s : State} (h_s : s0.Keeps F s) :
    (Nxt (s0.Keeps F)) (execGetHealthInfo port s) := by
  unfold execGetHealthInfo
  apply State.mbox_keeps (hF.le rfl)
  · exact h_s
  · apply Snd.mk
    apply Snd.mk
    exact h_s

theorem execGetAlertConfiguration_keeps {s0 : State} {F : List Part} (hF : Within [.out, .ports] F) {port : Fin 512} {s : State} (h_s : s0.Keeps F s) :
    (Nxt (s0.Keeps F)) (execGetAlertConfiguration port s) := by
  unfold execGetAlertConfiguration
  extract_lets +onlyGivenNames x1
  clear_value x1
  apply State.mbox_keeps (hF.le rfl)
  · exact h_s
  · apply Snd.mk
    apply Snd.mk
    exact h_s

theorem execSetAlertConfiguration_keeps {s0 : State} {F : List Part} (hF : Within [.out, .ports] F) {port : Fin 512} {settings : List Byte} {s : State} (h_s : s0.Keeps F s) :
    (Nxt (s0.Keeps F)) (execSetAlertConfiguration port settings s) := by
  unfold execSetAlertConfiguration
  apply State.mbox_keeps (hF.le rfl)
  · exact h_s
  · split
    · apply Snd.mk
      apply Snd.mk
      exact h_s
    · apply Snd.mk
      apply Snd.mk
      apply State.modLd_keeps (hF.le rfl)
      exact h_s

theorem execGetFwInfo_keeps {s0 : State} {F : List Part} (hF : Within [.out, .ports] F) {port : Fin 512} {s : State} (h_s : s0.Keeps F s) :
    (Nxt (s0.Keeps F)) (execGetFwInfo port s) := by
  unfold execGetFwInfo
  apply State.mbox_keeps (hF.le rfl)
  · exact h_s
  · apply Snd.mk
    apply Snd.mk
    exact h_s

theorem execGetPoisonList_keeps {s0 : State} {F : List Part} (hF : Within [.out, .ports] F) {port : Fin 512} {dpa length : Nat} {s : State} (h_s : s0.Keeps F s) :
    (Nxt (s0.Keeps F)) (execGetPoisonList port dpa length s) := by
  unfold execGetPoisonList
  extract_lets +onlyGivenNames x1
  clear_value x1
  apply State.mbox_keeps (hF.le rfl)
  · exact h_s
  · apply Snd.mk
    apply Snd.mk
    exact h_s

theorem State.injectPoison_keeps {s0 s : State} {F : List Part} (hF : Within [.dict, .mem, .out, .fac, .jobs, .shared, .queues, .ports, .svc, .recov, .glody] F) {port dpa : Nat} (h_s : s0.Keeps F s) :
    (Snd (Snd (s0.Keeps F))) (State.injectPoison s port dpa) := by
  unfold State.injectPoison
  split
  · apply Snd.mk
    apply Snd.mk
    exact h_s
  · extract_lets +onlyGivenNames x7 x8
    clear_value x7 x8
    split
    split
    · apply Snd.mk
      apply Snd.mk
      exact h_s
    · split
      · apply Snd.mk
        apply Snd.mk
        refine State.modMem_keeps (hF.le rfl) ?_ (fun _ => rfl) (fun _ => rfl)
        exact h_s
      · extract_lets +onlyGivenNames x17
        have h17 : s0.Keeps F x17 := by
          unfold x17
          split
          · apply State.invalidate_keeps (hF.le rfl)
            exact h_s
          · exact h_s
        clear_value x17
        extract_lets +onlyGivenNames x20
        have h20 : s0.Keeps F x20 := by
          unfold x20
          split
          · apply State.hostTouch_keeps (hF.le rfl)
            exact h17
          · exact h17
        clear_value x20
        apply Snd.mk
        apply Snd.mk
        apply State.poison_keeps (hF.le rfl)
        exact h20

theorem execInjectPoison_keeps {s0 : State} {F : List Part} (hF : Within [.dict, .mem, .out, .fac, .jobs, .shared, .queues, .ports, .svc, .recov, .glody] F) {port : Fin 512} {dpa : Nat} {s : State} (h_s : s0.Keeps F s) :
    (Nxt (s0.Keeps F)) (execInjectPoison port dpa s) := by
  unfold execInjectPoison
  apply State.mbox_keeps (hF.le rfl)
  · exact h_s
  · split
    · apply Snd.mk
      apply Snd.mk
      exact h_s
    · apply State.injectPoison_keeps (hF.le rfl)
      exact h_s

theorem execClearPoison_keeps {s0 : State} {F : List Part} (hF : Within [.dict, .hbm, .t0, .mem, .arb, .out, .freeCtr, .own, .fac, .jobs, .reds, .shared, .queues, .ports, .svc, .reg, .stackTab, .media, .recov, .power, .glody] F) {port : Fin 512} {dpa : Nat} {data : List Byte} {ph : Phys} {s : State} (h_s : s0.Keeps F s) :
    (Nxt (s0.Keeps F)) (execClearPoison port dpa data ph s) := by
  unfold execClearPoison
  apply State.mbox_keeps (hF.le rfl)
  · exact h_s
  · split
    · apply Snd.mk
      apply Snd.mk
      exact h_s
    · split
      · apply Snd.mk
        apply Snd.mk
        exact h_s
      · split
        · apply Snd.mk
          apply Snd.mk
          exact h_s
        · apply Snd.mk
          apply Snd.mk
          apply State.letIn_keeps (hF.le rfl)
          exact h_s

theorem State.dcMbox_keeps {s0 s : State} {F : List Part} (hF : Within [.out, .ports] F) {port : Nat} {r : Nat × List Byte × State} (h_s : s0.Keeps F s) (h_r : (Snd (Snd (s0.Keeps F))) r) :
    (Nxt (s0.Keeps F)) (State.dcMbox s port r) := by
  unfold State.dcMbox
  apply State.mbox_keeps (hF.le rfl)
  · exact h_s
  · split
    · exact h_r
    · apply Snd.mk
      apply Snd.mk
      exact h_s

theorem execGetDcConfiguration_keeps {s0 : State} {F : List Part} (hF : Within [.out, .ports] F) {port : Fin 512} {s : State} (h_s : s0.Keeps F s) :
    (Nxt (s0.Keeps F)) (execGetDcConfiguration port s) := by
  unfold execGetDcConfiguration
  extract_lets +onlyGivenNames x1
  clear_value x1
  apply State.dcMbox_keeps (hF.le rfl)
  · exact h_s
  · apply Snd.mk
    apply Snd.mk
    exact h_s

theorem execGetDcExtentList_keeps {s0 : State} {F : List Part} (hF : Within [.out, .ports] F) {port : Fin 512} {count start : Nat} {s : State} (h_s : s0.Keeps F s) :
    (Nxt (s0.Keeps F)) (execGetDcExtentList port count start s) := by
  unfold execGetDcExtentList
  extract_lets +onlyGivenNames x1 x2
  clear_value x1 x2
  apply State.dcMbox_keeps (hF.le rfl)
  · exact h_s
  · split
    · apply Snd.mk
      apply Snd.mk
      exact h_s
    · apply Snd.mk
      apply Snd.mk
      exact h_s

theorem execAddDcResponse_keeps {s0 : State} {F : List Part} (hF : Within [.out, .ports] F) {port : Fin 512} {accepted : List (Nat × Nat)} {s : State} (h_s : s0.Keeps F s) :
    (Nxt (s0.Keeps F)) (execAddDcResponse port accepted s) := by
  unfold execAddDcResponse
  extract_lets +onlyGivenNames x1 x2
  clear_value x1 x2
  apply State.dcMbox_keeps (hF.le rfl)
  · exact h_s
  · split
    · apply Snd.mk
      apply Snd.mk
      exact h_s
    · extract_lets +onlyGivenNames x5
      clear_value x5
      split
      · apply Snd.mk
        apply Snd.mk
        exact h_s
      · split
        · apply Snd.mk
          apply Snd.mk
          exact h_s
        · apply Snd.mk
          apply Snd.mk
          apply State.modLd_keeps (hF.le rfl)
          exact h_s

theorem execReleaseDc_keeps {s0 : State} {F : List Part} (hF : Within [.dict, .t0, .mem, .out, .jobs, .shared, .ports, .svc, .glody] F) {port : Fin 512} {released : List (Nat × Nat)} {s : State} (h_s : s0.Keeps F s) :
    (Nxt (s0.Keeps F)) (execReleaseDc port released s) := by
  unfold execReleaseDc
  extract_lets +onlyGivenNames x1
  clear_value x1
  apply State.dcMbox_keeps (hF.le rfl)
  · exact h_s
  · split
    · apply Snd.mk
      apply Snd.mk
      exact h_s
    · extract_lets +onlyGivenNames x4
      clear_value x4
      split
      · apply Snd.mk
        apply Snd.mk
        exact h_s
      · split
        · apply Snd.mk
          apply Snd.mk
          exact h_s
        · apply Snd.mk
          apply Snd.mk
          apply forAll_keeps
          · intro v9 v10 h11
            apply State.dropExtent_keeps (hF.le rfl)
            exact h11
          · exact h_s

theorem execMailboxUnsupported_keeps {s0 : State} {F : List Part} (hF : Within [.out, .ports] F) {port : Fin 512} {opcode : Fin 65536} {s : State} (h_s : s0.Keeps F s) :
    (Nxt (s0.Keeps F)) (execMailboxUnsupported port opcode s) := by
  unfold execMailboxUnsupported
  apply State.mbox_keeps (hF.le rfl)
  · exact h_s
  · apply Snd.mk
    apply Snd.mk
    exact h_s

theorem execDictRead_keeps {s0 : State} {F : List Part} (hF : Within [.out, .ports] F) {port : Fin 512} {index : Fin 65536} {sub : DictSub} {s : State} (h_s : s0.Keeps F s) :
    (Nxt (s0.Keeps F)) (execDictRead port index sub s) := by
  unfold execDictRead
  apply State.mbox_keeps (hF.le rfl)
  · exact h_s
  · split
    · apply Snd.mk
      apply Snd.mk
      exact h_s
    · split
      · apply Snd.mk
        apply Snd.mk
        exact h_s
      · apply Snd.mk
        apply Snd.mk
        exact h_s

theorem execGetSignatures_keeps {s0 : State} {F : List Part} (hF : Within [.out, .ports] F) {port : Fin 512} {start : Nat} {s : State} (h_s : s0.Keeps F s) :
    (Nxt (s0.Keeps F)) (execGetSignatures port start s) := by
  unfold execGetSignatures
  extract_lets +onlyGivenNames x1 x2
  clear_value x1 x2
  split
  apply State.mbox_keeps (hF.le rfl)
  · exact h_s
  · apply Snd.mk
    apply Snd.mk
    exact h_s

theorem execGetPortMode_keeps {s0 : State} {F : List Part} (hF : Within [.out, .ports] F) {port : Fin 512} {s : State} (h_s : s0.Keeps F s) :
    (Nxt (s0.Keeps F)) (execGetPortMode port s) := by
  unfold execGetPortMode
  apply State.mbox_keeps (hF.le rfl)
  · exact h_s
  · apply Snd.mk
    apply Snd.mk
    exact h_s

theorem execGetBinding_keeps {s0 : State} {F : List Part} (hF : Within [.out, .ports] F) {port : Fin 512} {s : State} (h_s : s0.Keeps F s) :
    (Nxt (s0.Keeps F)) (execGetBinding port s) := by
  unfold execGetBinding
  extract_lets +onlyGivenNames x1 x2
  clear_value x1 x2
  apply State.mbox_keeps (hF.le rfl)
  · exact h_s
  · apply Snd.mk
    apply Snd.mk
    exact h_s

theorem execGetOwnFail_keeps {s0 : State} {F : List Part} (hF : Within [.out, .ports] F) {port : Fin 512} {s : State} (h_s : s0.Keeps F s) :
    (Nxt (s0.Keeps F)) (execGetOwnFail port s) := by
  unfold execGetOwnFail
  extract_lets +onlyGivenNames x1
  clear_value x1
  apply State.mbox_keeps (hF.le rfl)
  · exact h_s
  · apply Snd.mk
    apply Snd.mk
    exact h_s

end Sys2Proof.Machine
end

