-- ==== Sys2Proof/Laws/KeepsSvc.lean ====
section
/-! SUPPORT. Every effect of Machine/Svc.lean leaves the queue alone, keeps the canonical form and writes only the parts named. -/
namespace Sys2Proof.Machine

theorem State.sv_keeps {s0 s : State} {F : List Part} (hF : Within [.svc] F) {f : Svc → Svc} (h_s : s0.Keeps F s) :
    s0.Keeps F (State.sv s f) := by
  unfold State.sv
  refine State.Keeps.congr (s := s) (D := [.svc]) (hF.le rfl) ?_ rfl rfl rfl rfl (by rintro ⟨⟩ <;> (first | exact .inr rfl | simp))
  exact h_s

theorem State.syncTags_keeps {s0 s : State} {F : List Part} (hF : Within [.dict] F) (h_s : s0.Keeps F s) :
    s0.Keeps F (State.syncTags s) := by
  unfold State.syncTags
  apply State.setPar_keeps (hF.le rfl)
  exact h_s

theorem State.quarTag_keeps {s0 s : State} {F : List Part} (hF : Within [.dict, .svc] F) {tag wait : Nat} (h_s : s0.Keeps F s) :
    s0.Keeps F (State.quarTag s tag wait) := by
  unfold State.quarTag
  apply State.syncTags_keeps (hF.le rfl)
  apply State.sv_keeps (hF.le rfl)
  exact h_s

theorem State.svcSilence_keeps {s0 s : State} {F : List Part} (hF : Within [.dict, .mem, .out, .jobs, .reds, .queues, .ports, .svc, .glody] F) {keep : Bool} (h_s : s0.Keeps F s) :
    s0.Keeps F (State.svcSilence s keep) := by
  unfold State.svcSilence
  extract_lets +onlyGivenNames x1 x2
  clear_value x1 x2
  extract_lets +onlyGivenNames x3
  have h3 : s0.Keeps F x3 := by
    unfold x3
    apply forAll_keeps
    · intro v4 v5 h6
      apply State.quarTag_keeps (hF.le rfl)
      exact h6
    · exact h_s
  clear_value x3
  apply State.drainsStop_keeps (hF.le rfl)
  apply State.haltPath_keeps (hF.le rfl)
  apply State.sv_keeps (hF.le rfl)
  exact h3

theorem State.svcRegsReset_keeps {s0 s : State} {F : List Part} (hF : Within [.dict, .svc, .power] F) (h_s : s0.Keeps F s) :
    s0.Keeps F (State.svcRegsReset s) := by
  unfold State.svcRegsReset
  apply State.tolExits_keeps (hF.le rfl)
  apply State.setTol_keeps (hF.le rfl)
  apply State.sv_keeps (hF.le rfl)
  exact h_s

theorem State.svcFlr_keeps {s0 s : State} {F : List Part} (hF : Within [.dict, .hbm, .mem, .arb, .out, .freeCtr, .fac, .jobs, .reds, .shared, .queues, .ports, .svc, .reg, .stackTab, .media, .recov, .power, .glody] F) (h_s : s0.Keeps F s) :
    s0.Keeps F (State.svcFlr s) := by
  unfold State.svcFlr
  split
  · apply State.svcRegsReset_keeps (hF.le rfl)
    apply State.detourLost_keeps (hF.le rfl)
    apply State.sv_keeps (hF.le rfl)
    apply State.svcSilence_keeps (hF.le rfl)
    exact h_s
  · exact h_s

theorem execSvcFlr_keeps {s0 s : State} {F : List Part} (hF : Within [.dict, .hbm, .mem, .arb, .out, .freeCtr, .fac, .jobs, .reds, .shared, .queues, .ports, .svc, .reg, .stackTab, .media, .recov, .power, .glody] F) (h_s : s0.Keeps F s) :
    (Nxt (s0.Keeps F)) (execSvcFlr s) := by
  unfold execSvcFlr
  apply Nxt.next
  apply State.svcFlr_keeps (hF.le rfl)
  exact h_s

theorem execSvcFlrComplete_keeps {s0 s : State} {F : List Part} (hF : Within [.svc] F) (h_s : s0.Keeps F s) :
    (Nxt (s0.Keeps F)) (execSvcFlrComplete s) := by
  unfold execSvcFlrComplete
  apply Nxt.next
  apply State.sv_keeps (hF.le rfl)
  exact h_s

theorem State.bmeClear_keeps {s0 s : State} {F : List Part} (hF : Within [.dict, .hbm, .mem, .arb, .out, .freeCtr, .fac, .jobs, .reds, .shared, .queues, .ports, .svc, .reg, .stackTab, .media, .recov, .power, .glody] F) (h_s : s0.Keeps F s) :
    s0.Keeps F (State.bmeClear s) := by
  unfold State.bmeClear
  split
  · apply State.detourLost_keeps (hF.le rfl)
    apply State.svcSilence_keeps (hF.le rfl)
    exact h_s
  · exact h_s

theorem State.msixPending_keeps {s0 s : State} {F : List Part} (hF : Within [.svc] F) (h_s : s0.Keeps F s) :
    s0.Keeps F (State.msixPending s) := by
  unfold State.msixPending
  split
  · apply forAll_keeps
    · intro v2 v3 h4
      split
      · apply State.msixSvc_keeps (hF.le rfl)
        apply State.sv_keeps (hF.le rfl)
        exact h4
      · exact h4
    · exact h_s
  · exact h_s

theorem State.svcBack_keeps {s0 s : State} {F : List Part} (hF : Within [.dict, .svc] F) (h_s : s0.Keeps F s) :
    s0.Keeps F (State.svcBack s) := by
  unfold State.svcBack
  extract_lets +onlyGivenNames x1
  have h1 : s0.Keeps F x1 := by
    unfold x1
    split
    · apply State.sv_keeps (hF.le rfl)
      exact h_s
    · exact h_s
  clear_value x1
  apply State.detourBack_keeps (hF.le rfl)
  exact h1

theorem State.bmeSet_keeps {s0 s : State} {F : List Part} (hF : Within [.dict, .svc] F) (h_s : s0.Keeps F s) :
    s0.Keeps F (State.bmeSet s) := by
  unfold State.bmeSet
  split
  · apply State.svcBack_keeps (hF.le rfl)
    apply State.msixPending_keeps (hF.le rfl)
    apply State.sv_keeps (hF.le rfl)
    exact h_s
  · exact h_s

theorem execSvcBmeClear_keeps {s0 s : State} {F : List Part} (hF : Within [.dict, .hbm, .mem, .arb, .out, .freeCtr, .fac, .jobs, .reds, .shared, .queues, .ports, .svc, .reg, .stackTab, .media, .recov, .power, .glody] F) (h_s : s0.Keeps F s) :
    (Nxt (s0.Keeps F)) (execSvcBmeClear s) := by
  unfold execSvcBmeClear
  apply Nxt.next
  apply State.bmeClear_keeps (hF.le rfl)
  exact h_s

theorem execSvcBmeSet_keeps {s0 s : State} {F : List Part} (hF : Within [.dict, .svc] F) (h_s : s0.Keeps F s) :
    (Nxt (s0.Keeps F)) (execSvcBmeSet s) := by
  unfold execSvcBmeSet
  apply Nxt.next
  apply State.bmeSet_keeps (hF.le rfl)
  exact h_s

theorem State.svcReset_keeps {s0 s : State} {F : List Part} (hF : Within [.dict, .mem, .out, .jobs, .reds, .queues, .ports, .svc, .power, .glody] F) (h_s : s0.Keeps F s) :
    s0.Keeps F (State.svcReset s) := by
  unfold State.svcReset
  extract_lets +onlyGivenNames x1
  have h1 : s0.Keeps F x1 := by
    unfold x1
    apply State.svcRegsReset_keeps (hF.le rfl)
    apply State.svcSilence_keeps (hF.le rfl)
    exact h_s
  clear_value x1
  apply State.sv_keeps (hF.le rfl)
  exact h1

theorem execPerstAssert_keeps {s0 : State} {F : List Part} (hF : Within [.dict, .mem, .out, .jobs, .reds, .queues, .ports, .svc, .power, .glody] F) {cause : Fin 3} {s : State} (h_s : s0.Keeps F s) :
    (Nxt (s0.Keeps F)) (execPerstAssert cause s) := by
  unfold execPerstAssert
  apply Nxt.next
  apply State.sv_keeps (hF.le rfl)
  apply State.svcReset_keeps (hF.le rfl)
  exact h_s

theorem State.perstUp_keeps {s0 s : State} {F : List Part} (hF : Within [.svc] F) (h_s : s0.Keeps F s) :
    s0.Keeps F (State.perstUp s) := by
  unfold State.perstUp
  apply State.sv_keeps (hF.le rfl)
  exact h_s

theorem execPerstDeassert_keeps {s0 s : State} {F : List Part} (hF : Within [.svc] F) (h_s : s0.Keeps F s) :
    (Nxt (s0.Keeps F)) (execPerstDeassert s) := by
  unfold execPerstDeassert
  apply Nxt.next
  split
  · exact h_s
  · split
    · apply State.perstUp_keeps (hF.le rfl)
      exact h_s
    · apply State.sv_keeps (hF.le rfl)
      exact h_s

theorem execSvcLinkUp_keeps {s0 s : State} {F : List Part} (hF : Within [.dict, .freeCtr, .svc] F) (h_s : s0.Keeps F s) :
    (Nxt (s0.Keeps F)) (execSvcLinkUp s) := by
  unfold execSvcLinkUp
  apply Nxt.next
  split
  · exact h_s
  · apply State.svcBack_keeps (hF.le rfl)
    apply State.sv_keeps (hF.le rfl)
    apply State.freeNext_keeps (hF.le rfl)
    apply State.freeNext_keeps (hF.le rfl)
    exact h_s

theorem execSvcLinkDownGraceExpiry_keeps {s0 s : State} {F : List Part} (hF : Within [.dict, .hbm, .mem, .arb, .out, .freeCtr, .fac, .jobs, .shared, .ports, .svc, .reg, .stackTab, .media, .recov, .power, .glody] F) (h_s : s0.Keeps F s) :
    (Nxt (s0.Keeps F)) (execSvcLinkDownGraceExpiry s) := by
  unfold execSvcLinkDownGraceExpiry
  apply Nxt.next
  split
  · apply State.detourLost_keeps (hF.le rfl)
    apply State.sv_keeps (hF.le rfl)
    exact h_s
  · exact h_s

theorem State.d3hot_keeps {s0 s : State} {F : List Part} (hF : Within [.svc] F) (h_s : s0.Keeps F s) :
    s0.Keeps F (State.d3hot s) := by
  unfold State.d3hot
  split
  · apply State.sv_keeps (hF.le rfl)
    exact h_s
  · exact h_s

theorem execSvcD3hotEntry_keeps {s0 s : State} {F : List Part} (hF : Within [.svc] F) (h_s : s0.Keeps F s) :
    (Nxt (s0.Keeps F)) (execSvcD3hotEntry s) := by
  unfold execSvcD3hotEntry
  apply Nxt.next
  apply State.d3hot_keeps (hF.le rfl)
  exact h_s

theorem State.d0Entry_keeps {s0 s : State} {F : List Part} (hF : Within [.dict, .svc] F) (h_s : s0.Keeps F s) :
    s0.Keeps F (State.d0Entry s) := by
  unfold State.d0Entry
  split
  · apply State.svcBack_keeps (hF.le rfl)
    apply State.msixPending_keeps (hF.le rfl)
    apply State.sv_keeps (hF.le rfl)
    exact h_s
  · exact h_s

theorem execSvcD0Entry_keeps {s0 s : State} {F : List Part} (hF : Within [.dict, .svc] F) (h_s : s0.Keeps F s) :
    (Nxt (s0.Keeps F)) (execSvcD0Entry s) := by
  unfold execSvcD0Entry
  apply Nxt.next
  apply State.d0Entry_keeps (hF.le rfl)
  exact h_s

theorem execSvcD3coldEntry_keeps {s0 s : State} {F : List Part} (hF : Within [.dict, .hbm, .mem, .arb, .out, .freeCtr, .fac, .jobs, .reds, .shared, .queues, .ports, .svc, .reg, .stackTab, .media, .recov, .power, .glody] F) (h_s : s0.Keeps F s) :
    (Nxt (s0.Keeps F)) (execSvcD3coldEntry s) := by
  unfold execSvcD3coldEntry
  apply Nxt.next
  split
  · extract_lets +onlyGivenNames x2
    have h2 : s0.Keeps F x2 := by
      unfold x2
      apply State.sv_keeps (hF.le rfl)
      apply State.svcSilence_keeps (hF.le rfl)
      exact h_s
    clear_value x2
    apply State.detourLost_keeps (hF.le rfl)
    exact h2
  · exact h_s

theorem State.detourGiveUp_keeps {s0 s : State} {F : List Part} (hF : Within [.dict, .hbm, .mem, .arb, .out, .freeCtr, .fac, .jobs, .shared, .ports, .svc, .reg, .stackTab, .media, .recov, .power, .glody] F) (h_s : s0.Keeps F s) :
    s0.Keeps F (State.detourGiveUp s) := by
  unfold State.detourGiveUp
  split
  · exact h_s
  · extract_lets +onlyGivenNames x7
    have h7 : s0.Keeps F x7 := by
      unfold x7
      refine State.modMem_keeps (hF.le rfl) ?_ (fun _ => rfl) (fun _ => rfl)
      exact h_s
    clear_value x7
    extract_lets +onlyGivenNames x8
    have h8 : s0.Keeps F x8 := by
      unfold x8
      apply State.sv_keeps (hF.le rfl)
      exact h7
    clear_value x8
    split
    · apply State.flushDone_keeps (hF.le rfl)
      exact h8
    · apply State.reply_keeps (hF.le rfl)
      exact h8

theorem execSvcD3WaitExpiry_keeps {s0 s : State} {F : List Part} (hF : Within [.dict, .hbm, .mem, .arb, .out, .freeCtr, .fac, .jobs, .shared, .ports, .svc, .reg, .stackTab, .media, .recov, .power, .glody] F) (h_s : s0.Keeps F s) :
    (Nxt (s0.Keeps F)) (execSvcD3WaitExpiry s) := by
  unfold execSvcD3WaitExpiry
  apply Nxt.next
  split
  · split
    · apply State.detourGiveUp_keeps (hF.le rfl)
      exact h_s
    · exact h_s
  · exact h_s

theorem execWakeCauseSignal_keeps {s0 : State} {F : List Part} (hF : Within [.out, .svc] F) {cause : Fin 4} {s : State} (h_s : s0.Keeps F s) :
    (Nxt (s0.Keeps F)) (execWakeCauseSignal cause s) := by
  unfold execWakeCauseSignal
  extract_lets +onlyGivenNames x1
  clear_value x1
  apply Nxt.next
  split
  · apply State.wakeSvc_keeps (hF.le rfl)
    exact h_s
  · exact h_s

theorem State.svcIssue_keeps {s0 s : State} {F : List Part} (hF : Within [.out, .svc] F) {r : SvcReq} (h_s : s0.Keeps F s) :
    s0.Keeps F (State.svcIssue s r) := by
  unfold State.svcIssue
  split
  · split
    · exact h_s
    · apply State.emit_keeps (hF.le rfl)
      apply State.sv_keeps (hF.le rfl)
      exact h_s
  · split
    · apply State.emit_keeps (hF.le rfl)
      exact h_s
    · split
      · apply State.emit_keeps (hF.le rfl)
        exact h_s
      · apply State.emit_keeps (hF.le rfl)
        exact h_s

theorem execSvcEgressGrant_keeps {s0 s : State} {F : List Part} (hF : Within [.arb, .out, .svc, .power] F) (h_s : s0.Keeps F s) :
    (Nxt (s0.Keeps F)) (execSvcEgressGrant s) := by
  unfold execSvcEgressGrant
  apply Nxt.next
  split
  · exact h_s
  · split
    · exact h_s
    · split
      · apply State.svcIssue_keeps (hF.le rfl)
        apply State.sv_keeps (hF.le rfl)
        apply State.devGrant_keeps (hF.le rfl)
        exact h_s
      · exact h_s

theorem execSvcCompletionArrival_keeps {s0 : State} {F : List Part} (hF : Within [.dict, .out, .freeCtr, .svc] F) {tag : Nat} {defect : CplDefect} {s : State} (h_s : s0.Keeps F s) :
    (Nxt (s0.Keeps F)) (execSvcCompletionArrival tag defect s) := by
  unfold execSvcCompletionArrival
  apply Nxt.next
  split
  · apply State.aerUncorr_keeps (hF.le rfl)
    exact h_s
  · split
    · extract_lets +onlyGivenNames x4
      have h4 : s0.Keeps F x4 := by
        unfold x4
        apply State.sv_keeps (hF.le rfl)
        exact h_s
      clear_value x4
      split
      · apply State.aerUncorr_keeps (hF.le rfl)
        exact h4
      · exact h4
    · split
      · apply State.aerUncorr_keeps (hF.le rfl)
        apply State.count_keeps (hF.le rfl)
        exact h_s
      · apply State.aerUncorr_keeps (hF.le rfl)
        exact h_s

theorem execSvcCompletionTimeout_keeps {s0 : State} {F : List Part} (hF : Within [.dict, .out, .freeCtr, .svc] F) {tag : Nat} {s : State} (h_s : s0.Keeps F s) :
    (Nxt (s0.Keeps F)) (execSvcCompletionTimeout tag s) := by
  unfold execSvcCompletionTimeout
  apply Nxt.next
  split
  · apply State.aerUncorr_keeps (hF.le rfl)
    apply State.quarTag_keeps (hF.le rfl)
    exact h_s
  · exact h_s

theorem execTagQuarantineExpiry_keeps {s0 : State} {F : List Part} (hF : Within [.dict, .svc] F) {tag : Nat} {s : State} (h_s : s0.Keeps F s) :
    (Nxt (s0.Keeps F)) (execTagQuarantineExpiry tag s) := by
  unfold execTagQuarantineExpiry
  apply Nxt.next
  split
  · split
    · apply State.syncTags_keeps (hF.le rfl)
      apply State.sv_keeps (hF.le rfl)
      exact h_s
    · exact h_s
  · exact h_s

theorem State.svcCfgWrite_keeps {s0 s : State} {F : List Part} (hF : Within [.dict, .hbm, .mem, .arb, .out, .freeCtr, .fac, .jobs, .reds, .shared, .queues, .ports, .svc, .reg, .stackTab, .media, .recov, .power, .glody] F) {i v : Nat} (h_s : s0.Keeps F s) :
    s0.Keeps F (State.svcCfgWrite s i v) := by
  unfold State.svcCfgWrite
  split
  · apply State.sv_keeps (hF.le rfl)
    exact h_s
  · split
    · apply State.sv_keeps (hF.le rfl)
      exact h_s
    · extract_lets +onlyGivenNames x5
      clear_value x5
      extract_lets +onlyGivenNames x6
      have h6 : s0.Keeps F x6 := by
        unfold x6
        apply State.sv_keeps (hF.le rfl)
        exact h_s
      clear_value x6
      split
      · extract_lets +onlyGivenNames x8
        have h8 : s0.Keeps F x8 := by
          unfold x8
          apply State.sv_keeps (hF.le rfl)
          exact h6
        clear_value x8
        split
        · apply State.bmeSet_keeps (hF.le rfl)
          exact h8
        · split
          · apply State.bmeClear_keeps (hF.le rfl)
            exact h8
          · exact h8
      · split
        · extract_lets +onlyGivenNames x15
          have h15 : s0.Keeps F x15 := by
            unfold x15
            split
            · apply State.sv_keeps (hF.le rfl)
              exact h6
            · exact h6
          clear_value x15
          split
          · apply State.d3hot_keeps (hF.le rfl)
            exact h15
          · split
            · apply State.d0Entry_keeps (hF.le rfl)
              exact h15
            · exact h15
        · split
          · apply State.msixPending_keeps (hF.le rfl)
            exact h6
          · split
            · extract_lets +onlyGivenNames x26
              have h26 : s0.Keeps F x26 := by
                unfold x26
                apply State.sv_keeps (hF.le rfl)
                exact h6
              clear_value x26
              split
              · apply State.svcFlr_keeps (hF.le rfl)
                exact h26
              · exact h26
            · split
              · apply State.tolExits_keeps (hF.le rfl)
                apply State.setTol_keeps (hF.le rfl)
                exact h6
              · exact h6

theorem execSvcConfigRequest_keeps {s0 : State} {F : List Part} (hF : Within [.dict, .hbm, .mem, .arb, .out, .freeCtr, .fac, .jobs, .reds, .shared, .queues, .ports, .svc, .reg, .stackTab, .media, .recov, .power, .glody] F) {write : Bool} {offset : Fin 1024} {value : Nat} {s : State} (h_s : s0.Keeps F s) :
    (Nxt (s0.Keeps F)) (execSvcConfigRequest write offset value s) := by
  unfold execSvcConfigRequest
  apply Nxt.next
  split
  · exact h_s
  · split
    · apply State.emit_keeps (hF.le rfl)
      exact h_s
    · split
      · apply State.emit_keeps (hF.le rfl)
        apply State.svcCfgWrite_keeps (hF.le rfl)
        exact h_s
      · apply State.emit_keeps (hF.le rfl)
        exact h_s

theorem State.readClears_keeps {s0 s : State} {F : List Part} (hF : Within [.dict] F) {k : Nat} (h_s : s0.Keeps F s) :
    s0.Keeps F (State.readClears s k) := by
  unfold State.readClears
  split
  · apply State.setPar_keeps (hF.le rfl)
    exact h_s
  · exact h_s

theorem execBar0Read_keeps {s0 : State} {F : List Part} (hF : Within [.dict, .out, .freeCtr, .svc] F) {offset : Fin 134217728} {size : Nat} {s : State} (h_s : s0.Keeps F s) :
    (Nxt (s0.Keeps F)) (execBar0Read offset size s) := by
  unfold execBar0Read
  extract_lets +onlyGivenNames x1
  clear_value x1
  apply Nxt.next
  split
  · apply State.emit_keeps (hF.le rfl)
    apply State.aerUncorr_keeps (hF.le rfl)
    exact h_s
  · apply State.readClears_keeps (hF.le rfl)
    apply State.emit_keeps (hF.le rfl)
    exact h_s

theorem execLtrSend_keeps {s0 s : State} {F : List Part} (hF : Within [.out, .svc] F) (h_s : s0.Keeps F s) :
    (Nxt (s0.Keeps F)) (execLtrSend s) := by
  unfold execLtrSend
  apply Nxt.next
  split
  · exact h_s
  · extract_lets +onlyGivenNames x3 x4 x5
    clear_value x3 x4 x5
    apply State.emit_keeps (hF.le rfl)
    apply State.sv_keeps (hF.le rfl)
    exact h_s

theorem execAspmSupportWrite_keeps {s0 : State} {F : List Part} (hF : Within [.dict, .out, .freeCtr, .svc] F) {value : Nat} {s : State} (h_s : s0.Keeps F s) :
    (Nxt (s0.Keeps F)) (execAspmSupportWrite value s) := by
  unfold execAspmSupportWrite
  apply Nxt.next
  apply State.barWrite_keeps (hF.le rfl)
  · exact h_s
  · intro v1 h2
    apply State.setPar_keeps (hF.le rfl)
    exact h2

end Sys2Proof.Machine
end

