-- ==== Sys2Proof/Laws/KeepsInteg.lean ====
section
/-! SUPPORT. Every effect of Machine/Integ.lean leaves the queue alone, keeps the canonical form and writes only the parts named. -/
namespace Sys2Proof.Machine

theorem State.transient_keeps {s0 s : State} {F : List Part} (hF : Within [.dict, .integ] F) {cb : Nat} (h_s : s0.Keeps F s) :
    s0.Keeps F (State.transient s cb) := by
  unfold State.transient
  extract_lets +onlyGivenNames x1
  have h1 : s0.Keeps F x1 := by
    unfold x1
    apply State.count_keeps (hF.le rfl)
    exact h_s
  clear_value x1
  extract_lets +onlyGivenNames x2
  clear_value x2
  extract_lets +onlyGivenNames x3
  have h3 : s0.Keeps F x3 := by
    unfold x3
    apply State.modBlk_keeps (hF.le rfl)
    exact h1
  clear_value x3
  split
  · apply State.observe_keeps (hF.le rfl)
    exact h3
  · exact h3

theorem State.classEffect_keeps {s0 s : State} {F : List Part} (hF : Within [.dict, .arb, .out, .fac, .jobs, .svc, .integ, .recov, .power, .boot, .glody] F) {cls cb : Nat} (h_s : s0.Keeps F s) :
    s0.Keeps F (State.classEffect s cls cb) := by
  unfold State.classEffect
  extract_lets +onlyGivenNames x1
  clear_value x1
  split
  · apply State.count_keeps (hF.le rfl)
    exact h_s
  · split
    · apply State.transient_keeps (hF.le rfl)
      exact h_s
    · split
      · apply State.observe_keeps (hF.le rfl)
        apply State.count_keeps (hF.le rfl)
        exact h_s
      · split
        · apply State.permanent_keeps (hF.le rfl)
          exact h_s
        · split
          · apply State.permanent_keeps (hF.le rfl)
            exact h_s
          · apply State.observe_keeps (hF.le rfl)
            apply State.count_keeps (hF.le rfl)
            exact h_s

theorem State.workFails_keeps {s0 s : State} {F : List Part} (hF : Within [.dict, .mem, .out, .fac, .jobs, .reds, .queues, .ports, .svc, .recov, .glody] F) {x0 : Work} (h_s : s0.Keeps F s) :
    s0.Keeps F (State.workFails s x0) := by
  unfold State.workFails
  split
  · extract_lets +onlyGivenNames x4
    have h4 : s0.Keeps F x4 := by
      unfold x4
      apply State.count_keeps (hF.le rfl)
      apply State.record_keeps (hF.le rfl)
      exact h_s
    clear_value x4
    apply State.jobDamage_keeps (hF.le rfl)
    exact h4
  · extract_lets +onlyGivenNames x8
    clear_value x8
    split
    · apply State.factorEnd_keeps (hF.le rfl)
      exact h_s
    · exact h_s
  · extract_lets +onlyGivenNames x13 x14
    clear_value x13 x14
    extract_lets +onlyGivenNames x15
    have h15 : s0.Keeps F x15 := by
      unfold x15
      apply State.modFac_keeps (hF.le rfl)
      exact h_s
    clear_value x15
    apply forAll_keeps
    · intro v16 v17 h18
      apply State.reply_keeps (hF.le rfl)
      exact h18
    · exact h15
  · apply State.redFault_keeps (hF.le rfl)
    exact h_s

theorem State.checkFlag_keeps {s0 s : State} {F : List Part} (hF : Within [.dict, .integ] F) {f : FlagRec} (h_s : s0.Keeps F s) :
    s0.Keeps F (State.checkFlag s f) := by
  unfold State.checkFlag
  extract_lets +onlyGivenNames x1
  have h1 : s0.Keeps F x1 := by
    unfold x1
    split
    · apply State.count_keeps (hF.le rfl)
      apply State.count_keeps (hF.le rfl)
      exact h_s
    · apply State.count_keeps (hF.le rfl)
      exact h_s
  clear_value x1
  split
  · exact h1
  · apply State.modInteg_keeps (hF.le rfl)
    exact h1

theorem execCheckFlag_keeps {s0 : State} {F : List Part} (hF : Within [.dict, .integ] F) {region : Fin 4} {block : Fin 9} {check : Fin 8} {work : Work} {result predicted found : Nat} {s : State} (h_s : s0.Keeps F s) :
    (Nxt (s0.Keeps F)) (execCheckFlag region block check work result predicted found s) := by
  unfold execCheckFlag
  extract_lets +onlyGivenNames x1
  clear_value x1
  apply Nxt.next
  split
  · apply State.checkFlag_keeps (hF.le rfl)
    exact h_s
  · exact h_s

theorem State.repeatDecide_keeps {s0 s : State} {F : List Part} (hF : Within [.dict, .mem, .arb, .out, .fac, .jobs, .reds, .queues, .ports, .svc, .integ, .recov, .power, .boot, .glody] F) {flag : Nat} {a2 b c : Run} (h_s : s0.Keeps F s) :
    s0.Keeps F (State.repeatDecide s flag a2 b c) := by
  unfold State.repeatDecide
  split
  · exact h_s
  · split
    · exact h_s
    · extract_lets +onlyGivenNames x8 x9 x10 x11 x12 x13
      clear_value x8 x9 x10 x11 x12 x13
      extract_lets +onlyGivenNames x14
      have h14 : s0.Keeps F x14 := by
        unfold x14
        apply State.modInteg_keeps (hF.le rfl)
        exact h_s
      clear_value x14
      extract_lets +onlyGivenNames x15
      clear_value x15
      extract_lets +onlyGivenNames x16
      have h16 : s0.Keeps F x16 := by
        unfold x16
        apply State.classEffect_keeps (hF.le rfl)
        exact h14
      clear_value x16
      extract_lets +onlyGivenNames x17
      have h17 : s0.Keeps F x17 := by
        unfold x17
        split
        · exact h16
        · apply State.record_keeps (hF.le rfl)
          exact h16
      clear_value x17
      split
      · apply State.workFails_keeps (hF.le rfl)
        exact h17
      · exact h17

theorem execRepeatDecide_keeps {s0 : State} {F : List Part} (hF : Within [.dict, .mem, .arb, .out, .fac, .jobs, .reds, .queues, .ports, .svc, .integ, .recov, .power, .boot, .glody] F) {flag : Nat} {a2 b c : Run} {s : State} (h_s : s0.Keeps F s) :
    (Nxt (s0.Keeps F)) (execRepeatDecide flag a2 b c s) := by
  unfold execRepeatDecide
  apply Nxt.next
  apply State.repeatDecide_keeps (hF.le rfl)
  exact h_s

theorem State.testRound_keeps {s0 s : State} {F : List Part} (hF : Within [.dict, .queues, .integ] F) {h : Nat} {c : Cmd} (h_s : s0.Keeps F s) :
    s0.Keeps F (State.testRound s h c) := by
  unfold State.testRound
  extract_lets +onlyGivenNames x1 x2
  clear_value x1 x2
  split
  · apply State.fail_keeps (hF.le rfl)
    exact h_s
  · split
    · apply State.fail_keeps (hF.le rfl)
      exact h_s
    · split
      · apply State.fail_keeps (hF.le rfl)
        exact h_s
      · extract_lets +onlyGivenNames x9
        have h9 : s0.Keeps F x9 := by
          unfold x9
          apply State.modBlk_keeps (hF.le rfl)
          apply State.accept_keeps (hF.le rfl)
          exact h_s
        clear_value x9
        apply State.diceTry_keeps (hF.le rfl)
        exact h9

theorem execTestRound_keeps {s0 : State} {F : List Part} (hF : Within [.dict, .queues, .integ] F) {queue : Fin 32768} {idx : Fin 65536} {s : State} (h_s : s0.Keeps F s) :
    (Nxt (s0.Keeps F)) (execTestRound queue idx s) := by
  unfold execTestRound
  apply Nxt.next
  apply State.runCmd_keeps (hF.le rfl)
  · exact h_s
  · intro v1 v2 v3 h4
    apply State.testRound_keeps (hF.le rfl)
    exact h4

theorem State.roundPass_keeps {s0 s : State} {F : List Part} (hF : Within [.dict, .integ] F) {cb : Nat} (h_s : s0.Keeps F s) :
    s0.Keeps F (State.roundPass s cb) := by
  unfold State.roundPass
  extract_lets +onlyGivenNames x1
  clear_value x1
  extract_lets +onlyGivenNames x2
  have h2 : s0.Keeps F x2 := by
    unfold x2
    apply State.setPar_keeps (hF.le rfl)
    exact h_s
  clear_value x2
  extract_lets +onlyGivenNames x3
  have h3 : s0.Keeps F x3 := by
    unfold x3
    apply State.modBlk_keeps (hF.le rfl)
    exact h2
  clear_value x3
  split
  · apply State.modBlk_keeps (hF.le rfl)
    apply State.setPar_keeps (hF.le rfl)
    exact h3
  · exact h3

theorem State.roundFail_keeps {s0 s : State} {F : List Part} (hF : Within [.dict, .arb, .out, .fac, .jobs, .svc, .integ, .recov, .power, .boot, .glody] F) {cb : Nat} {again : Bool} (h_s : s0.Keeps F s) :
    s0.Keeps F (State.roundFail s cb again) := by
  unfold State.roundFail
  extract_lets +onlyGivenNames x1
  have h1 : s0.Keeps F x1 := by
    unfold x1
    apply State.setPar_keeps (hF.le rfl)
    exact h_s
  clear_value x1
  split
  · apply State.permanent_keeps (hF.le rfl)
    exact h1
  · apply State.transient_keeps (hF.le rfl)
    exact h1

theorem State.spareDecide_keeps {s0 s : State} {F : List Part} (hF : Within [.dict, .arb, .out, .fac, .jobs, .svc, .integ, .recov, .power, .glody] F) {q : Nat} {pass : Bool} (h_s : s0.Keeps F s) :
    s0.Keeps F (State.spareDecide s q pass) := by
  unfold State.spareDecide
  extract_lets +onlyGivenNames x1 x2
  clear_value x1 x2
  split
  · exact h_s
  · extract_lets +onlyGivenNames x5
    have h5 : s0.Keeps F x5 := by
      unfold x5
      apply State.modBlk_keeps (hF.le rfl)
      exact h_s
    clear_value x5
    split
    · apply State.dispatchAll_keeps (hF.le rfl)
      apply State.retiredRecord_keeps (hF.le rfl)
      apply State.setActive_keeps (hF.le rfl)
      apply State.setPar_keeps (hF.le rfl)
      exact h5
    · apply State.retiredRecord_keeps (hF.le rfl)
      exact h5

theorem State.diceEnd_keeps {s0 s : State} {F : List Part} (hF : Within [.dict, .arb, .out, .fac, .jobs, .queues, .svc, .integ, .recov, .power, .boot, .glody] F) {q own partner third again : Nat} {lanes : List Nat} (h_s : s0.Keeps F s) :
    s0.Keeps F (State.diceEnd s q own partner third again lanes) := by
  unfold State.diceEnd
  split
  · exact h_s
  · extract_lets +onlyGivenNames x6 x7 x8
    clear_value x6 x7 x8
    extract_lets +onlyGivenNames x9
    have h9 : s0.Keeps F x9 := by
      unfold x9
      apply State.count_keeps (hF.le rfl)
      apply State.modInteg_keeps (hF.le rfl)
      exact h_s
    clear_value x9
    extract_lets +onlyGivenNames x10
    have h10 : ∀ a0 a1 a2 a3 a4, s0.Keeps F a0 → s0.Keeps F (x10 a0 a1 a2 a3 a4) := by
      unfold x10
      intro v11 v12 v13 v14 v15 h16
      apply State.record_keeps (hF.le rfl)
      exact h16
    clear_value x10
    extract_lets +onlyGivenNames x17 x18 x19
    clear_value x17 x18 x19
    extract_lets +onlyGivenNames x20
    have h20 : s0.Keeps F x20 := by
      unfold x20
      apply State.roundFail_keeps (hF.le rfl)
      apply State.roundPass_keeps (hF.le rfl)
      apply State.count_keeps (hF.le rfl)
      exact h9
    clear_value x20
    extract_lets +onlyGivenNames x21
    have h21 : s0.Keeps F x21 := by
      unfold x21
      apply forAll_keeps
      · intro v22 v23 h24
        split
        · apply State.replaceLane_keeps (hF.le rfl)
          exact h24
        · exact h24
      · exact h20
    clear_value x21
    extract_lets +onlyGivenNames x27
    have h27 : s0.Keeps F x27 := by
      unfold x27
      apply h10
      exact h21
    clear_value x27
    extract_lets +onlyGivenNames x28
    have h28 : s0.Keeps F x28 := by
      unfold x28
      apply State.count_keeps (hF.le rfl)
      apply State.count_keeps (hF.le rfl)
      exact h9
    clear_value x28
    extract_lets +onlyGivenNames x29
    have h29 : s0.Keeps F x29 := by
      unfold x29
      apply forAll_keeps
      · intro v30 v31 h32
        apply State.observe_keeps (hF.le rfl)
        apply State.setPar_keeps (hF.le rfl)
        exact h32
      · exact h28
    clear_value x29
    extract_lets +onlyGivenNames x33
    have h33 : s0.Keeps F x33 := by
      unfold x33
      split
      · apply State.spareDecide_keeps (hF.le rfl)
        apply State.modBlk_keeps (hF.le rfl)
        apply State.roundPass_keeps (hF.le rfl)
        apply State.roundPass_keeps (hF.le rfl)
        exact h9
      · split
        · apply State.spareDecide_keeps (hF.le rfl)
          exact h27
        · apply State.spareDecide_keeps (hF.le rfl)
          apply h10
          exact h29
    clear_value x33
    extract_lets +onlyGivenNames x38
    have h38 : s0.Keeps F x38 := by
      unfold x38
      split
      · exact h33
      · apply State.finish_keeps (hF.le rfl)
        exact h33
    clear_value x38
    apply forAll_keeps
    · intro v41 v42 h43
      apply State.diceTry_keeps (hF.le rfl)
      exact h43
    · exact h38

theorem execDiceRoundComplete_keeps {s0 : State} {F : List Part} (hF : Within [.dict, .arb, .out, .fac, .jobs, .queues, .svc, .integ, .recov, .power, .boot, .glody] F) {region : Fin 4} {own partner third again : Nat} {lanes : List Nat} {s : State} (h_s : s0.Keeps F s) :
    (Nxt (s0.Keeps F)) (execDiceRoundComplete region own partner third again lanes s) := by
  unfold execDiceRoundComplete
  apply Nxt.next
  apply State.diceEnd_keeps (hF.le rfl)
  exact h_s

end Sys2Proof.Machine
end

