-- ==== Sys2Proof/Laws/KeepsRecov.lean ====
section
/-! SUPPORT. Every effect of Machine/Recov.lean leaves the queue alone, keeps the canonical form and writes only the parts named. -/
namespace Sys2Proof.Machine

theorem State.hangOutcome_keeps {s0 s : State} {F : List Part} (hF : Within [.recov] F) {e : EngReset} {v : Nat} (h_s : s0.Keeps F s) :
    s0.Keeps F (State.hangOutcome s e v) := by
  unfold State.hangOutcome
  apply State.hangByte_keeps (hF.le rfl)
  exact h_s

theorem State.regionFalls_keeps {s0 s : State} {F : List Part} (hF : Within [.recov] F) {q sig : Nat} (h_s : s0.Keeps F s) :
    s0.Keeps F (State.regionFalls s q sig) := by
  unfold State.regionFalls
  split
  · exact h_s
  · apply State.modRecov_keeps (hF.le rfl)
    exact h_s

theorem State.engFault_keeps {s0 s : State} {F : List Part} (hF : Within [.dict, .hbm, .t0, .mem, .arb, .out, .freeCtr, .own, .fac, .jobs, .reds, .shared, .queues, .ports, .svc, .reg, .stackTab, .media, .integ, .recov, .power, .glody] F) {kind idx trigger waiting : Nat} (h_s : s0.Keeps F s) :
    s0.Keeps F (State.engFault s kind idx trigger waiting) := by
  unfold State.engFault
  extract_lets +onlyGivenNames x1
  clear_value x1
  split
  · exact h_s
  · extract_lets +onlyGivenNames x4
    clear_value x4
    split
    · extract_lets +onlyGivenNames x6
      have h6 : s0.Keeps F x6 := by
        unfold x6
        apply State.hangSave_keeps (hF.le rfl)
        exact h_s
      clear_value x6
      apply State.regionFalls_keeps (hF.le rfl)
      apply State.hangByte_keeps (hF.le rfl)
      exact h6
    · extract_lets +onlyGivenNames x8
      have h8 : s0.Keeps F x8 := by
        unfold x8
        apply State.engStart_keeps (hF.le rfl)
        exact h_s
      clear_value x8
      split
      · split
        · apply State.modStack_keeps (hF.le rfl)
          exact h8
        · exact h8
      · apply State.resetPort_keeps (hF.le rfl)
        exact h8
      · exact h8

theorem execBlockWatchdogExpiry_keeps {s0 : State} {F : List Part} (hF : Within [.dict, .hbm, .t0, .mem, .arb, .out, .freeCtr, .own, .fac, .jobs, .reds, .shared, .queues, .ports, .svc, .reg, .stackTab, .media, .integ, .recov, .power, .glody] F) {kind : Fin 4} {index : Fin 64} {waiting : Nat} {s : State} (h_s : s0.Keeps F s) :
    (Nxt (s0.Keeps F)) (execBlockWatchdogExpiry kind index waiting s) := by
  unfold execBlockWatchdogExpiry
  apply Nxt.next
  split
  · apply State.engFault_keeps (hF.le rfl)
    exact h_s
  · exact h_s

theorem execEngineFault_keeps {s0 : State} {F : List Part} (hF : Within [.dict, .hbm, .t0, .mem, .arb, .out, .freeCtr, .own, .fac, .jobs, .reds, .shared, .queues, .ports, .svc, .reg, .stackTab, .media, .integ, .recov, .power, .glody] F) {kind : Fin 4} {index : Fin 64} {waiting : Nat} {s : State} (h_s : s0.Keeps F s) :
    (Nxt (s0.Keeps F)) (execEngineFault kind index waiting s) := by
  unfold execEngineFault
  apply Nxt.next
  apply State.engFault_keeps (hF.le rfl)
  exact h_s

theorem State.resetRecord_keeps {s0 s : State} {F : List Part} (hF : Within [.dict, .out, .svc, .glody] F) {unit domain cause start : Nat} (h_s : s0.Keeps F s) :
    s0.Keeps F (State.resetRecord s unit domain cause start) := by
  unfold State.resetRecord
  apply State.record_keeps (hF.le rfl)
  exact h_s

theorem State.flatChecks_keeps {s0 s : State} {F : List Part} (hF : Within [.dict, .hbm, .mem, .out, .freeCtr, .fac, .jobs, .shared, .ports, .svc, .reg, .media, .glody] F) {cb : Nat} (h_s : s0.Keeps F s) :
    s0.Keeps F (State.flatChecks s cb) := by
  unfold State.flatChecks
  apply forAll_keeps
  · intro v1 v2 h3
    extract_lets +onlyGivenNames x4
    clear_value x4
    extract_lets +onlyGivenNames x5
    have h5 : s0.Keeps F x5 := by
      unfold x5
      apply State.count_keeps (hF.le rfl)
      refine State.modMem_keeps (hF.le rfl) ?_ (fun _ => rfl) (fun _ => rfl)
      exact h3
    clear_value x5
    extract_lets +onlyGivenNames x6
    clear_value x6
    apply State.settle_keeps (hF.le rfl)
    exact h5
  · exact h_s

theorem State.replaySteps_keeps {s0 s : State} {F : List Part} (hF : Within [.dict, .recov] F) {cb : Nat} (h_s : s0.Keeps F s) :
    s0.Keeps F (State.replaySteps s cb) := by
  unfold State.replaySteps
  apply forAll_keeps
  · intro v1 v2 h3
    extract_lets +onlyGivenNames x4
    clear_value x4
    split
    · exact h3
    · extract_lets +onlyGivenNames x7
      have h7 : s0.Keeps F x7 := by
        unfold x7
        apply State.countReplay_keeps (hF.le rfl)
        exact h3
      clear_value x7
      split
      · apply State.setCtx_keeps (hF.le rfl)
        apply State.setCtx_keeps (hF.le rfl)
        exact h7
      · exact h7
  · exact h_s

theorem State.blkBack_keeps {s0 s : State} {F : List Part} (hF : Within [.dict, .arb, .fac, .jobs, .integ, .recov, .power] F) {cb : Nat} (h_s : s0.Keeps F s) :
    s0.Keeps F (State.blkBack s cb) := by
  unfold State.blkBack
  extract_lets +onlyGivenNames x1
  have h1 : s0.Keeps F x1 := by
    unfold x1
    apply State.modRecov_keeps (hF.le rfl)
    exact h_s
  clear_value x1
  apply State.diceTry_keeps (hF.le rfl)
  apply State.retryPipes_keeps (hF.le rfl)
  apply State.dispatchAll_keeps (hF.le rfl)
  exact h1

theorem State.searchEnds_keeps {s0 s : State} {F : List Part} (hF : Within [.dict, .arb, .fac, .jobs, .integ, .recov, .power] F) {cb : Nat} {e : EngReset} (h_s : s0.Keeps F s) :
    s0.Keeps F (State.searchEnds s cb e) := by
  unfold State.searchEnds
  apply State.blkBack_keeps (hF.le rfl)
  apply State.count_keeps (hF.le rfl)
  apply State.hangOutcome_keeps (hF.le rfl)
  exact h_s

theorem State.blkReset_keeps {s0 s : State} {F : List Part} (hF : Within [.dict, .hbm, .mem, .arb, .out, .freeCtr, .fac, .jobs, .shared, .ports, .svc, .reg, .media, .integ, .recov, .power, .boot, .glody] F) {cb : Nat} {e : EngReset} (h_s : s0.Keeps F s) :
    s0.Keeps F (State.blkReset s cb e) := by
  unfold State.blkReset
  extract_lets +onlyGivenNames x1
  clear_value x1
  extract_lets +onlyGivenNames x2
  have h2 : s0.Keeps F x2 := by
    unfold x2
    split
    · apply State.flatChecks_keeps (hF.le rfl)
      exact h_s
    · exact h_s
  clear_value x2
  split
  · apply State.retireBlock_keeps (hF.le rfl)
    apply State.modRecov_keeps (hF.le rfl)
    apply State.hangOutcome_keeps (hF.le rfl)
    exact h2
  · split
    · apply State.blkBack_keeps (hF.le rfl)
      apply State.replaySteps_keeps (hF.le rfl)
      apply State.hangOutcome_keeps (hF.le rfl)
      exact h2
    · split
      · apply State.searchEnds_keeps (hF.le rfl)
        exact h2
      · split
        · apply State.searchEnds_keeps (hF.le rfl)
          exact h2
        · apply State.modRecov_keeps (hF.le rfl)
          exact h2

theorem State.stackReset_keeps {s0 s : State} {F : List Part} (hF : Within [.dict, .hbm, .t0, .mem, .arb, .out, .freeCtr, .own, .fac, .jobs, .reds, .shared, .queues, .ports, .svc, .reg, .stackTab, .media, .recov, .power, .glody] F) {k : Nat} {ph : Phys} (h_s : s0.Keeps F s) :
    s0.Keeps F (State.stackReset s k ph) := by
  unfold State.stackReset
  apply State.retryHub_keeps (hF.le rfl)
  apply State.modStack_keeps (hF.le rfl)
  exact h_s

theorem State.hubReset_keeps {s0 s : State} {F : List Part} (hF : Within [.dict, .hbm, .t0, .mem, .arb, .out, .freeCtr, .own, .fac, .jobs, .reds, .shared, .queues, .ports, .svc, .reg, .stackTab, .media, .recov, .power, .glody] F) {q : Nat} {ph : Phys} (h_s : s0.Keeps F s) :
    s0.Keeps F (State.hubReset s q ph) := by
  unfold State.hubReset
  apply State.retryHub_keeps (hF.le rfl)
  refine State.Keeps.congr (s := s) (D := [.arb]) (hF.le rfl) ?_ rfl rfl rfl rfl (by rintro ⟨⟩ <;> (first | exact .inr rfl | simp))
  exact h_s

theorem State.engDone_keeps {s0 s : State} {F : List Part} (hF : Within [.dict, .hbm, .t0, .mem, .arb, .out, .freeCtr, .own, .fac, .jobs, .reds, .shared, .queues, .ports, .svc, .reg, .stackTab, .media, .integ, .recov, .power, .boot, .glody] F) {kind idx : Nat} {ph : Phys} (h_s : s0.Keeps F s) :
    s0.Keeps F (State.engDone s kind idx ph) := by
  unfold State.engDone
  extract_lets +onlyGivenNames x1
  clear_value x1
  split
  · exact h_s
  · split
    · exact h_s
    · extract_lets +onlyGivenNames x9
      have h9 : s0.Keeps F x9 := by
        unfold x9
        apply State.resetRecord_keeps (hF.le rfl)
        exact h_s
      clear_value x9
      split
      · apply State.blkReset_keeps (hF.le rfl)
        exact h9
      · extract_lets +onlyGivenNames x12
        have h12 : s0.Keeps F x12 := by
          unfold x12
          apply State.modRecov_keeps (hF.le rfl)
          apply State.hangOutcome_keeps (hF.le rfl)
          exact h9
        clear_value x12
        split
        · apply State.stackReset_keeps (hF.le rfl)
          exact h12
        · exact h12
        · apply State.hubReset_keeps (hF.le rfl)
          exact h12

theorem execEngineResetComplete_keeps {s0 : State} {F : List Part} (hF : Within [.dict, .hbm, .t0, .mem, .arb, .out, .freeCtr, .own, .fac, .jobs, .reds, .shared, .queues, .ports, .svc, .reg, .stackTab, .media, .integ, .recov, .power, .boot, .glody] F) {kind : Fin 4} {index : Fin 64} {ph : Phys} {s : State} (h_s : s0.Keeps F s) :
    (Nxt (s0.Keeps F)) (execEngineResetComplete kind index ph s) := by
  unfold execEngineResetComplete
  apply Nxt.next
  apply State.armsGo_keeps (hF.le rfl)
  apply State.engDone_keeps (hF.le rfl)
  exact h_s

theorem execEngineResetOverrun_keeps {s0 : State} {F : List Part} (hF : Within [.recov] F) {kind : Fin 4} {index : Fin 64} {s : State} (h_s : s0.Keeps F s) :
    (Nxt (s0.Keeps F)) (execEngineResetOverrun kind index s) := by
  unfold execEngineResetOverrun
  extract_lets +onlyGivenNames x1
  clear_value x1
  apply Nxt.next
  split
  · exact h_s
  · split
    · exact h_s
    · apply State.regionFalls_keeps (hF.le rfl)
      apply State.hangOutcome_keeps (hF.le rfl)
      exact h_s

theorem State.guiltyCmd_keeps {s0 s : State} {F : List Part} (hF : Within [.dict, .mem, .out, .fac, .jobs, .queues, .ports, .svc, .recov, .glody] F) {c : Ctx} (h_s : s0.Keeps F s) :
    s0.Keeps F (State.guiltyCmd s c) := by
  unfold State.guiltyCmd
  extract_lets +onlyGivenNames x1
  have h1 : s0.Keeps F x1 := by
    unfold x1
    split
    · apply State.jobDamage_keeps (hF.le rfl)
      apply State.fail_keeps (hF.le rfl)
      exact h_s
    · apply State.fail_keeps (hF.le rfl)
      apply State.factorEnd_keeps (hF.le rfl)
      exact h_s
  clear_value x1
  apply State.haltQueue_keeps (hF.le rfl)
  apply State.clearCtxs_keeps (hF.le rfl)
  exact h1

theorem State.guiltyTile_keeps {s0 s : State} {F : List Part} (hF : Within [.dict, .hbm, .mem, .arb, .out, .freeCtr, .own, .fac, .jobs, .shared, .ports, .svc, .reg, .stackTab, .media, .recov, .power, .glody] F) {cb : Nat} (h_s : s0.Keeps F s) :
    s0.Keeps F (State.guiltyTile s cb) := by
  unfold State.guiltyTile
  split
  · exact h_s
  · split
    · apply State.reconHead_keeps (hF.le rfl)
      exact h_s
    · extract_lets +onlyGivenNames x12 x13 x14 x15 x16 x17
      clear_value x12 x13 x14 x15 x16 x17
      extract_lets +onlyGivenNames x18
      have h18 : s0.Keeps F x18 := by
        unfold x18
        apply State.setPar_keeps (hF.le rfl)
        apply State.modRecov_keeps (hF.le rfl)
        exact h_s
      clear_value x18
      extract_lets +onlyGivenNames x19
      have h19 : s0.Keeps F x19 := by
        unfold x19
        apply State.modFac_keeps (hF.le rfl)
        exact h18
      clear_value x19
      apply forAll_keeps
      · intro v20 v21 h22
        apply State.reply_keeps (hF.le rfl)
        apply State.factorFail_keeps (hF.le rfl)
        exact h22
      · exact h19

theorem State.suspectResult_keeps {s0 s : State} {F : List Part} (hF : Within [.dict, .hbm, .mem, .arb, .out, .freeCtr, .own, .fac, .jobs, .shared, .queues, .ports, .svc, .reg, .stackTab, .media, .integ, .recov, .power, .glody] F) {cb : Nat} {hung : Bool} {env : Env} (h_s : s0.Keeps F s) :
    s0.Keeps F (State.suspectResult s cb hung env) := by
  unfold State.suspectResult
  split
  · exact h_s
  · split
    · split
      · extract_lets +onlyGivenNames x13
        have h13 : s0.Keeps F x13 := by
          unfold x13
          apply State.dropPad_keeps (hF.le rfl)
          apply State.count_keeps (hF.le rfl)
          apply State.hangByte_keeps (hF.le rfl)
          apply State.hangOutcome_keeps (hF.le rfl)
          exact h_s
        clear_value x13
        apply State.blkBack_keeps (hF.le rfl)
        split
        · apply State.guiltyTile_keeps (hF.le rfl)
          exact h13
        · apply State.guiltyCmd_keeps (hF.le rfl)
          exact h13
      · extract_lets +onlyGivenNames x17
        have h17 : s0.Keeps F x17 := by
          unfold x17
          split
          · apply State.reconHead_keeps (hF.le rfl)
            exact h_s
          · apply State.tileRetire_keeps (hF.le rfl)
            apply State.countReplay_keeps (hF.le rfl)
            exact h_s
        clear_value x17
        split
        · apply State.searchEnds_keeps (hF.le rfl)
          exact h17
        · apply State.modRecov_keeps (hF.le rfl)
          exact h17
    · exact h_s

theorem execSuspectTileResult_keeps {s0 : State} {F : List Part} (hF : Within [.dict, .hbm, .mem, .arb, .out, .freeCtr, .own, .fac, .jobs, .shared, .queues, .ports, .svc, .reg, .stackTab, .media, .integ, .recov, .power, .glody] F) {region : Fin 4} {block : Fin 9} {hung : Bool} {env : Env} {s : State} (h_s : s0.Keeps F s) :
    (Nxt (s0.Keeps F)) (execSuspectTileResult region block hung env s) := by
  unfold execSuspectTileResult
  apply Nxt.next
  apply State.armsGo_keeps (hF.le rfl)
  apply State.suspectResult_keeps (hF.le rfl)
  exact h_s

theorem State.journalOut_keeps {s0 s : State} {F : List Part} (hF : Within [.dict, .mem, .recov] F) {q : Nat} (h_s : s0.Keeps F s) :
    s0.Keeps F (State.journalOut s q) := by
  unfold State.journalOut
  extract_lets +onlyGivenNames x1 x2
  clear_value x1 x2
  extract_lets +onlyGivenNames x3
  have h3 : s0.Keeps F x3 := by
    unfold x3
    apply forAll_keeps
    · intro v4 v5 h6
      split
      · exact h6
      · apply State.dropFlush_keeps (hF.le rfl)
        exact h6
    · exact h_s
  clear_value x3
  extract_lets +onlyGivenNames x9
  have h9 : s0.Keeps F x9 := by
    unfold x9
    refine State.modMem_keeps (hF.le rfl) ?_ (fun _ => rfl) (fun _ => rfl)
    exact h3
  clear_value x9
  split
  · exact h9
  · apply State.count_keeps (hF.le rfl)
    apply State.modRecov_keeps (hF.le rfl)
    exact h9

theorem State.replayLine_keeps {s0 s : State} {F : List Part} (hF : Within [.dict, .hbm, .mem, .arb, .out, .freeCtr, .fac, .jobs, .shared, .ports, .svc, .reg, .stackTab, .media, .recov, .power, .glody] F) {l : JLine} {lost : Bool} (h_s : s0.Keeps F s) :
    s0.Keeps F (State.replayLine s l lost) := by
  unfold State.replayLine
  extract_lets +onlyGivenNames x1 x2
  clear_value x1 x2
  split
  · exact h_s
  · split
    · extract_lets +onlyGivenNames x6
      have h6 : s0.Keeps F x6 := by
        unfold x6
        apply State.count_keeps (hF.le rfl)
        apply State.gatherLine_keeps (hF.le rfl)
        exact h_s
      clear_value x6
      apply State.eventAll_keeps (hF.le rfl)
      exact h6
    · extract_lets +onlyGivenNames x8
      clear_value x8
      apply State.gatherLine_keeps (hF.le rfl)
      exact h_s

theorem State.journalIn_keeps {s0 s : State} {F : List Part} (hF : Within [.dict, .hbm, .mem, .arb, .out, .freeCtr, .fac, .jobs, .shared, .ports, .svc, .reg, .stackTab, .media, .recov, .power, .glody] F) {q : Nat} {lost : List Nat} {env : Env} (h_s : s0.Keeps F s) :
    s0.Keeps F (State.journalIn s q lost env) := by
  unfold State.journalIn
  extract_lets +onlyGivenNames x1 x2
  clear_value x1 x2
  extract_lets +onlyGivenNames x3
  have h3 : s0.Keeps F x3 := by
    unfold x3
    apply State.modRecov_keeps (hF.le rfl)
    exact h_s
  clear_value x3
  extract_lets +onlyGivenNames x4
  have h4 : s0.Keeps F x4 := by
    unfold x4
    apply forAll_keeps
    · intro v5 v6 h7
      apply State.replayLine_keeps (hF.le rfl)
      exact h7
    · exact h3
  clear_value x4
  apply forAll_keeps
  · intro v8 v9 h10
    apply State.settlePack_keeps (hF.le rfl)
    apply State.resolve_keeps (hF.le rfl)
    apply State.settlePack_keeps (hF.le rfl)
    exact h10
  · exact h4

theorem State.poisonReads_keeps {s0 s : State} {F : List Part} (hF : Within [.mem, .out, .fac, .shared, .ports, .recov] F) {hit : Nat → Bool} (h_s : s0.Keeps F s) :
    s0.Keeps F (State.poisonReads s hit) := by
  unfold State.poisonReads
  extract_lets +onlyGivenNames x1 x2 x3 x4
  clear_value x1 x2 x3 x4
  extract_lets +onlyGivenNames x5
  extract_lets +onlyGivenNames x6 x7 x8
  clear_value x6 x7 x8
  extract_lets +onlyGivenNames x9
  have h9 : s0.Keeps F x9 := by
    unfold x9
    refine State.Keeps.congr (s := s) (D := [.mem, .fac, .shared, .recov]) (hF.le rfl) ?_ rfl rfl rfl rfl (by rintro ⟨⟩ <;> (first | exact .inr rfl | simp))
    exact h_s
  clear_value x9
  apply forAll_keeps
  · intro v10 v11 h12
    apply State.reply_keeps (hF.le rfl)
    exact h12
  · apply forAll_keeps
    · intro v13 v14 h15
      apply State.reply_keeps (hF.le rfl)
      exact h15
    · exact h9

theorem State.recoveryNotices_keeps {s0 s : State} {F : List Part} (hF : Within [.dict, .glody] F) {phase domain region cause : Nat} {cores : Bool} {jobs : List Nat} {x0 : Nat} (h_s : s0.Keeps F s) :
    s0.Keeps F (State.recoveryNotices s phase domain region cause cores jobs x0) := by
  induction x0 generalizing s phase domain region cause cores jobs with
  | zero =>
    unfold State.recoveryNotices
    exact h_s
  | succ m ih =>
    unfold State.recoveryNotices
    extract_lets +onlyGivenNames x1 x2 x3
    clear_value x1 x2 x3
    extract_lets +onlyGivenNames x4
    have h4 : s0.Keeps F x4 := by
      unfold x4
      apply State.recoveryNotice_keeps (hF.le rfl)
      exact h_s
    clear_value x4
    split
    · exact h4
    · apply ih
      exact h4

theorem State.stopRegion_keeps {s0 s : State} {F : List Part} (hF : Within [.dict, .mem, .out, .fac, .jobs, .queues, .svc, .recov, .glody] F) {q : Nat} (h_s : s0.Keeps F s) :
    s0.Keeps F (State.stopRegion s q) := by
  unfold State.stopRegion
  extract_lets +onlyGivenNames x1 x2
  clear_value x1 x2
  extract_lets +onlyGivenNames x3
  have h3 : s0.Keeps F x3 := by
    unfold x3
    apply forAll_keeps
    · intro v4 v5 h6
      apply State.jobDamage_keeps (hF.le rfl)
      exact h6
    · exact h_s
  clear_value x3
  extract_lets +onlyGivenNames x7
  have h7 : s0.Keeps F x7 := by
    unfold x7
    apply forAll_keeps
    · intro v8 v9 h10
      apply State.factorEnd_keeps (hF.le rfl)
      exact h10
    · exact h3
  clear_value x7
  apply State.modRecov_keeps (hF.le rfl)
  exact h7

theorem State.dropT0Waypoints_keeps {s0 s : State} {F : List Part} (hF : Within [.dict, .mem, .out, .fac, .svc, .glody] F) {hit : Nat → Bool} (h_s : s0.Keeps F s) :
    s0.Keeps F (State.dropT0Waypoints s hit) := by
  unfold State.dropT0Waypoints
  apply forAll_keeps
  · intro v1 v2 h3
    split
    · exact h3
    · extract_lets +onlyGivenNames x9 x10
      clear_value x9 x10
      split
      · exact h3
      · extract_lets +onlyGivenNames x13
        have h13 : s0.Keeps F x13 := by
          unfold x13
          apply forAll_keeps
          · intro v14 v15 h16
            apply State.dropTile_keeps (hF.le rfl)
            exact h16
          · exact h3
        clear_value x13
        split
        · apply State.setWp_keeps (hF.le rfl)
          exact h13
        · exact h13
  · exact h_s

theorem State.markT0_keeps {s0 s : State} {F : List Part} (hF : Within [.mem] F) {q : Nat} (h_s : s0.Keeps F s) :
    s0.Keeps F (State.markT0 s q) := by
  unfold State.markT0
  apply forAll_keeps
  · intro v1 v2 h3
    apply forAll_keeps
    · intro v4 v5 h6
      extract_lets +onlyGivenNames x7
      clear_value x7
      split
      · refine State.modMem_keeps (hF.le rfl) ?_ (fun _ => rfl) (fun _ => rfl)
        exact h6
      · exact h6
    · exact h3
  · exact h_s

theorem State.dropRegion_keeps {s0 s : State} {F : List Part} (hF : Within [.dict, .mem, .arb, .out, .fac, .svc, .integ, .recov, .glody] F) {q : Nat} (h_s : s0.Keeps F s) :
    s0.Keeps F (State.dropRegion s q) := by
  unfold State.dropRegion
  extract_lets +onlyGivenNames x1
  clear_value x1
  extract_lets +onlyGivenNames x2
  have h2 : s0.Keeps F x2 := by
    unfold x2
    refine State.modMem_keeps (hF.le rfl) ?_ (fun _ => rfl) (fun _ => rfl)
    exact h_s
  clear_value x2
  extract_lets +onlyGivenNames x3
  have h3 : s0.Keeps F x3 := by
    unfold x3
    refine State.Keeps.congr (s := x2) (D := [.arb]) (hF.le rfl) ?_ rfl rfl rfl rfl (by rintro ⟨⟩ <;> (first | exact .inr rfl | simp))
    exact h2
  clear_value x3
  extract_lets +onlyGivenNames x4
  have h4 : s0.Keeps F x4 := by
    unfold x4
    apply State.modFac_keeps (hF.le rfl)
    exact h3
  clear_value x4
  extract_lets +onlyGivenNames x5
  have h5 : s0.Keeps F x5 := by
    unfold x5
    apply State.modInteg_keeps (hF.le rfl)
    exact h4
  clear_value x5
  extract_lets +onlyGivenNames x6
  have h6 : s0.Keeps F x6 := by
    unfold x6
    apply State.modRecov_keeps (hF.le rfl)
    exact h5
  clear_value x6
  apply State.markT0_keeps (hF.le rfl)
  apply State.dropT0Waypoints_keeps (hF.le rfl)
  exact h6

theorem State.loseRegionLines_keeps {s0 s : State} {F : List Part} (hF : Within [.dict, .hbm, .t0, .mem, .arb, .out, .freeCtr, .fac, .jobs, .shared, .ports, .svc, .reg, .stackTab, .media, .recov, .power, .glody] F) {q : Nat} (h_s : s0.Keeps F s) :
    s0.Keeps F (State.loseRegionLines s q) := by
  unfold State.loseRegionLines
  extract_lets +onlyGivenNames x1 x2
  clear_value x1 x2
  extract_lets +onlyGivenNames x3
  have h3 : s0.Keeps F x3 := by
    unfold x3
    refine State.Keeps.congr (s := s) (D := [.shared]) (hF.le rfl) ?_ rfl rfl rfl rfl (by rintro ⟨⟩ <;> (first | exact .inr rfl | simp))
    exact h_s
  clear_value x3
  apply forAll_keeps
  · intro v4 v5 h6
    split
    · apply State.loseLine_keeps (hF.le rfl)
      exact h6
    · exact h6
  · exact h3

theorem State.faultReds_keeps {s0 s : State} {F : List Part} (hF : Within [.dict, .mem, .out, .jobs, .reds, .queues, .ports, .svc, .glody] F) {q : Nat} (h_s : s0.Keeps F s) :
    s0.Keeps F (State.faultReds s q) := by
  unfold State.faultReds
  apply forAll_keeps
  · intro v1 v2 h3
    split
    · apply State.redFault_keeps (hF.le rfl)
      exact h3
    · exact h3
  · exact h_s

theorem State.regionDies_keeps {s0 s : State} {F : List Part} (hF : Within [.dict, .out, .svc, .recov, .glody] F) {q : Nat} (h_s : s0.Keeps F s) :
    s0.Keeps F (State.regionDies s q) := by
  unfold State.regionDies
  apply State.raiseOut_keeps (hF.le rfl)
  apply State.record_keeps (hF.le rfl)
  exact h_s

theorem State.abandonIn_keeps {s0 s : State} {F : List Part} (hF : Within [.integ, .recov] F) {q : Nat} (h_s : s0.Keeps F s) :
    s0.Keeps F (State.abandonIn s q) := by
  unfold State.abandonIn
  extract_lets +onlyGivenNames x1
  clear_value x1
  extract_lets +onlyGivenNames x2
  have h2 : s0.Keeps F x2 := by
    unfold x2
    apply forAll_keeps
    · intro v3 v4 h5
      apply State.hangOutcome_keeps (hF.le rfl)
      exact h5
    · exact h_s
  clear_value x2
  extract_lets +onlyGivenNames x6
  have h6 : s0.Keeps F x6 := by
    unfold x6
    apply State.modRecov_keeps (hF.le rfl)
    exact h2
  clear_value x6
  apply forAll_keeps
  · intro v7 v8 h9
    apply State.diceAbandon_keeps (hF.le rfl)
    exact h9
  · exact h6

theorem State.regionReset_keeps {s0 s : State} {F : List Part} (hF : Within [.dict, .hbm, .t0, .mem, .arb, .out, .freeCtr, .own, .fac, .jobs, .reds, .shared, .queues, .ports, .svc, .reg, .stackTab, .media, .integ, .recov, .power, .glody] F) {q : Nat} (h_s : s0.Keeps F s) :
    s0.Keeps F (State.regionReset s q) := by
  unfold State.regionReset
  extract_lets +onlyGivenNames x1 x2
  clear_value x1 x2
  split
  · apply State.regionDies_keeps (hF.le rfl)
    apply State.abandonIn_keeps (hF.le rfl)
    exact h_s
  · extract_lets +onlyGivenNames x5
    clear_value x5
    extract_lets +onlyGivenNames x6
    have h6 : s0.Keeps F x6 := by
      unfold x6
      apply State.modRecov_keeps (hF.le rfl)
      apply State.count_keeps (hF.le rfl)
      apply State.abandonIn_keeps (hF.le rfl)
      exact h_s
    clear_value x6
    extract_lets +onlyGivenNames x7
    have h7 : s0.Keeps F x7 := by
      unfold x7
      apply State.poisonReads_keeps (hF.le rfl)
      apply State.resetLinks_keeps (hF.le rfl)
      exact h6
    clear_value x7
    extract_lets +onlyGivenNames x8
    have h8 : s0.Keeps F x8 := by
      unfold x8
      apply State.modRecov_keeps (hF.le rfl)
      apply State.journalOut_keeps (hF.le rfl)
      exact h7
    clear_value x8
    extract_lets +onlyGivenNames x9
    have h9 : s0.Keeps F x9 := by
      unfold x9
      apply State.loseRegionLines_keeps (hF.le rfl)
      apply State.dropRegion_keeps (hF.le rfl)
      apply State.stopRegion_keeps (hF.le rfl)
      apply State.faultReds_keeps (hF.le rfl)
      exact h8
    clear_value x9
    extract_lets +onlyGivenNames x10
    have h10 : s0.Keeps F x10 := by
      unfold x10
      apply State.recoveryNotices_keeps (hF.le rfl)
      exact h9
    clear_value x10
    extract_lets +onlyGivenNames x11
    have h11 : s0.Keeps F x11 := by
      unfold x11
      apply forAll_keeps
      · intro v12 v13 h14
        apply State.enterSelf_keeps (hF.le rfl)
        exact h14
      · exact h10
    clear_value x11
    apply forAll_keeps
    · intro v15 v16 h17
      split
      · apply State.queueWake_keeps (hF.le rfl)
        exact h17
      · exact h17
    · apply State.queueWake_keeps (hF.le rfl)
      exact h11

theorem execRegionReset_keeps {s0 : State} {F : List Part} (hF : Within [.dict, .hbm, .t0, .mem, .arb, .out, .freeCtr, .own, .fac, .jobs, .reds, .shared, .queues, .ports, .svc, .reg, .stackTab, .media, .integ, .recov, .power, .glody] F) {region : Fin 4} {fatal : Bool} {s : State} (h_s : s0.Keeps F s) :
    (Nxt (s0.Keeps F)) (execRegionReset region fatal s) := by
  unfold execRegionReset
  apply Nxt.next
  split
  · apply State.regionReset_keeps (hF.le rfl)
    exact h_s
  · exact h_s

theorem State.regionDone_keeps {s0 s : State} {F : List Part} (hF : Within [.dict, .hbm, .t0, .mem, .arb, .out, .freeCtr, .own, .fac, .jobs, .reds, .shared, .queues, .ports, .svc, .reg, .stackTab, .media, .recov, .power, .glody] F) {q : Nat} {lost : List Nat} {env : Env} (h_s : s0.Keeps F s) :
    s0.Keeps F (State.regionDone s q lost env) := by
  unfold State.regionDone
  split
  · exact h_s
  · split
    · exact h_s
    · extract_lets +onlyGivenNames x8 x9
      clear_value x8 x9
      extract_lets +onlyGivenNames x10
      have h10 : s0.Keeps F x10 := by
        unfold x10
        apply State.modRecov_keeps (hF.le rfl)
        exact h_s
      clear_value x10
      extract_lets +onlyGivenNames x11
      have h11 : s0.Keeps F x11 := by
        unfold x11
        apply State.resetRecord_keeps (hF.le rfl)
        apply State.journalIn_keeps (hF.le rfl)
        exact h10
      clear_value x11
      extract_lets +onlyGivenNames x12
      have h12 : s0.Keeps F x12 := by
        unfold x12
        apply State.recoveryNotices_keeps (hF.le rfl)
        exact h11
      clear_value x12
      apply State.retryPipes_keeps (hF.le rfl)
      apply State.retryHub_keeps (hF.le rfl)
      apply State.dispatchAll_keeps (hF.le rfl)
      exact h12

theorem execRegionResetComplete_keeps {s0 : State} {F : List Part} (hF : Within [.dict, .hbm, .t0, .mem, .arb, .out, .freeCtr, .own, .fac, .jobs, .reds, .shared, .queues, .ports, .svc, .reg, .stackTab, .media, .recov, .power, .glody] F) {region : Fin 4} {lost : List Nat} {env : Env} {s : State} (h_s : s0.Keeps F s) :
    (Nxt (s0.Keeps F)) (execRegionResetComplete region lost env s) := by
  unfold execRegionResetComplete
  apply Nxt.next
  apply State.armsGo_keeps (hF.le rfl)
  apply State.regionDone_keeps (hF.le rfl)
  exact h_s

theorem execRegionResetOverrun_keeps {s0 : State} {F : List Part} (hF : Within [.dict, .recov] F) {region : Fin 4} {s : State} (h_s : s0.Keeps F s) :
    (Nxt (s0.Keeps F)) (execRegionResetOverrun region s) := by
  unfold execRegionResetOverrun
  apply Nxt.next
  split
  · split
    · apply State.raiseSafe_keeps (hF.le rfl)
      exact h_s
    · exact h_s
  · exact h_s

theorem State.stopQueues_keeps {s0 s : State} {F : List Part} (hF : Within [.dict, .mem, .out, .fac, .jobs, .reds, .queues, .ports, .svc, .recov, .glody] F) {reason : Nat} (h_s : s0.Keeps F s) :
    s0.Keeps F (State.stopQueues s reason) := by
  unfold State.stopQueues
  extract_lets +onlyGivenNames x1
  clear_value x1
  extract_lets +onlyGivenNames x2
  have h2 : s0.Keeps F x2 := by
    unfold x2
    apply forAll_keeps
    · intro v3 v4 h5
      split
      · apply State.haltQueue_keeps (hF.le rfl)
        exact h5
      · split
        · apply State.setQMode_keeps (hF.le rfl)
          exact h5
        · exact h5
    · exact h_s
  clear_value x2
  extract_lets +onlyGivenNames x10
  have h10 : s0.Keeps F x10 := by
    unfold x10
    apply forAll_keeps
    · intro v11 v12 h13
      apply State.redFault_keeps (hF.le rfl)
      exact h13
    · exact h2
  clear_value x10
  extract_lets +onlyGivenNames x14
  have h14 : s0.Keeps F x14 := by
    unfold x14
    apply forAll_keeps
    · intro v15 v16 h17
      apply State.factorEnd_keeps (hF.le rfl)
      exact h17
    · exact h10
  clear_value x14
  extract_lets +onlyGivenNames x18
  have h18 : s0.Keeps F x18 := by
    unfold x18
    apply State.drainsStop_keeps (hF.le rfl)
    exact h14
  clear_value x18
  apply forAll_keeps
  · intro v19 v20 h21
    apply forAll_keeps
    · intro v22 v23 h24
      split
      · apply State.fail_keeps (hF.le rfl)
        exact h24
      · exact h24
    · exact h21
  · exact h18

theorem State.endRequests_keeps {s0 s : State} {F : List Part} (hF : Within [.mem, .out, .fac, .shared, .ports, .reg, .recov] F) (h_s : s0.Keeps F s) :
    s0.Keeps F (State.endRequests s) := by
  unfold State.endRequests
  extract_lets +onlyGivenNames x1
  have h1 : s0.Keeps F x1 := by
    unfold x1
    apply State.poisonReads_keeps (hF.le rfl)
    exact h_s
  clear_value x1
  extract_lets +onlyGivenNames x2 x3 x4 x5 x6 x7 x8
  clear_value x2 x3 x4 x5 x6 x7 x8
  extract_lets +onlyGivenNames x9
  have h9 : s0.Keeps F x9 := by
    unfold x9
    refine State.Keeps.congr (s := x1) (D := [.fac, .shared, .reg, .recov]) (hF.le rfl) ?_ rfl rfl rfl rfl (by rintro ⟨⟩ <;> (first | exact .inr rfl | simp))
    exact h1
  clear_value x9
  apply forAll_keeps
  · intro v10 v11 h12
    apply State.syncReq_keeps (hF.le rfl)
    exact h12
  · apply forAll_keeps
    · intro v13 v14 h15
      apply State.reply_keeps (hF.le rfl)
      exact h15
    · exact h9

theorem State.stateRecord_keeps {s0 s : State} {F : List Part} (hF : Within [.dict, .out, .svc, .glody] F) {out : Bool} (h_s : s0.Keeps F s) :
    s0.Keeps F (State.stateRecord s out) := by
  unfold State.stateRecord
  apply State.record_keeps (hF.le rfl)
  exact h_s

theorem State.goOut_keeps {s0 s : State} {F : List Part} (hF : Within [.dict, .out, .freeCtr, .svc, .recov, .glody] F) (h_s : s0.Keeps F s) :
    s0.Keeps F (State.goOut s) := by
  unfold State.goOut
  extract_lets +onlyGivenNames x1
  have h1 : s0.Keeps F x1 := by
    unfold x1
    apply State.modRecov_keeps (hF.le rfl)
    apply State.stateRecord_keeps (hF.le rfl)
    exact h_s
  clear_value x1
  extract_lets +onlyGivenNames x2
  have h2 : s0.Keeps F x2 := by
    unfold x2
    apply State.setPar_keeps (hF.le rfl)
    apply State.setDev_keeps (hF.le rfl)
    exact h1
  clear_value x2
  apply State.recoveryNotices_keeps (hF.le rfl)
  apply State.aerUncorr_keeps (hF.le rfl)
  exact h2

theorem State.warmStart_keeps {s0 s : State} {F : List Part} (hF : Within [.dict, .out, .freeCtr, .svc, .recov, .glody] F) {counted : Bool} (h_s : s0.Keeps F s) :
    s0.Keeps F (State.warmStart s counted) := by
  unfold State.warmStart
  extract_lets +onlyGivenNames x1
  clear_value x1
  split
  · exact h_s
  · split
    · apply State.goOut_keeps (hF.le rfl)
      exact h_s
    · extract_lets +onlyGivenNames x6
      have h6 : s0.Keeps F x6 := by
        unfold x6
        apply State.modRecov_keeps (hF.le rfl)
        exact h_s
      clear_value x6
      extract_lets +onlyGivenNames x7
      have h7 : s0.Keeps F x7 := by
        unfold x7
        apply State.setPar_keeps (hF.le rfl)
        exact h6
      clear_value x7
      extract_lets +onlyGivenNames x8
      clear_value x8
      extract_lets +onlyGivenNames x9
      have h9 : s0.Keeps F x9 := by
        unfold x9
        refine State.Keeps.congr (s := x7) (D := [.glody]) (hF.le rfl) ?_ rfl rfl rfl rfl (by rintro ⟨⟩ <;> (first | exact .inr rfl | simp))
        exact h7
      clear_value x9
      apply State.setPar_keeps (hF.le rfl)
      apply State.count_keeps (hF.le rfl)
      exact h9

theorem State.safeEntry_keeps {s0 s : State} {F : List Part} (hF : Within [.dict, .hbm, .t0, .mem, .arb, .out, .freeCtr, .own, .fac, .jobs, .reds, .shared, .queues, .ports, .svc, .reg, .stackTab, .media, .integ, .recov, .power, .glody] F) (h_s : s0.Keeps F s) :
    s0.Keeps F (State.safeEntry s) := by
  unfold State.safeEntry
  extract_lets +onlyGivenNames x1
  clear_value x1
  extract_lets +onlyGivenNames x2
  have h2 : s0.Keeps F x2 := by
    unfold x2
    apply State.stopQueues_keeps (hF.le rfl)
    exact h_s
  clear_value x2
  extract_lets +onlyGivenNames x3
  have h3 : s0.Keeps F x3 := by
    unfold x3
    apply State.endRequests_keeps (hF.le rfl)
    exact h2
  clear_value x3
  extract_lets +onlyGivenNames x4
  have h4 : s0.Keeps F x4 := by
    unfold x4
    apply State.shareDrop_keeps (hF.le rfl)
    refine State.modMem_keeps (hF.le rfl) ?_ (fun _ => rfl) (fun _ => rfl)
    exact h3
  clear_value x4
  extract_lets +onlyGivenNames x5
  have h5 : s0.Keeps F x5 := by
    unfold x5
    apply forAll_keeps
    · intro v6 v7 h8
      apply State.journalOut_keeps (hF.le rfl)
      exact h8
    · exact h4
  clear_value x5
  extract_lets +onlyGivenNames x9
  have h9 : s0.Keeps F x9 := by
    unfold x9
    apply forAll_keeps
    · intro v10 v11 h12
      apply State.winDown_keeps (hF.le rfl)
      exact h12
    · exact h5
  clear_value x9
  extract_lets +onlyGivenNames x13
  clear_value x13
  extract_lets +onlyGivenNames x14
  have h14 : s0.Keeps F x14 := by
    unfold x14
    refine State.Keeps.congr (s := x9) (D := [.own]) (hF.le rfl) ?_ rfl rfl rfl rfl (by rintro ⟨⟩ <;> (first | exact .inr rfl | simp))
    exact h9
  clear_value x14
  extract_lets +onlyGivenNames x15
  have h15 : s0.Keeps F x15 := by
    unfold x15
    apply forAll_keeps
    · intro v16 v17 h18
      apply State.jobDamage_keeps (hF.le rfl)
      exact h18
    · exact h14
  clear_value x15
  extract_lets +onlyGivenNames x19
  have h19 : s0.Keeps F x19 := by
    unfold x19
    apply forAll_keeps
    · intro v20 v21 h22
      apply State.hangOutcome_keeps (hF.le rfl)
      exact h22
    · exact h15
  clear_value x19
  extract_lets +onlyGivenNames x23
  have h23 : s0.Keeps F x23 := by
    unfold x23
    apply State.modInteg_keeps (hF.le rfl)
    apply State.modRecov_keeps (hF.le rfl)
    exact h19
  clear_value x23
  extract_lets +onlyGivenNames x24
  have h24 : s0.Keeps F x24 := by
    unfold x24
    apply State.modFac_keeps (hF.le rfl)
    exact h23
  clear_value x24
  extract_lets +onlyGivenNames x25
  have h25 : s0.Keeps F x25 := by
    unfold x25
    apply forAll_keeps
    · intro v26 v27 h28
      apply State.modBlk_keeps (hF.le rfl)
      exact h28
    · exact h24
  clear_value x25
  extract_lets +onlyGivenNames x29
  have h29 : s0.Keeps F x29 := by
    unfold x29
    apply State.clearTokens_keeps (hF.le rfl)
    exact h25
  clear_value x29
  extract_lets +onlyGivenNames x30
  have h30 : s0.Keeps F x30 := by
    unfold x30
    apply forAll_keeps
    · intro v31 v32 h33
      apply State.enterSelf_keeps (hF.le rfl)
      exact h33
    · exact h29
  clear_value x30
  extract_lets +onlyGivenNames x34
  have h34 : s0.Keeps F x34 := by
    unfold x34
    apply State.stateRecord_keeps (hF.le rfl)
    exact h30
  clear_value x34
  extract_lets +onlyGivenNames x35
  have h35 : s0.Keeps F x35 := by
    unfold x35
    apply State.setDev_keeps (hF.le rfl)
    exact h34
  clear_value x35
  extract_lets +onlyGivenNames x36
  have h36 : s0.Keeps F x36 := by
    unfold x36
    split
    · apply State.aerUncorr_keeps (hF.le rfl)
      exact h35
    · exact h35
  clear_value x36
  split
  · apply State.goOut_keeps (hF.le rfl)
    exact h36
  · split
    · apply State.warmStart_keeps (hF.le rfl)
      exact h36
    · exact h36

theorem execSafeEntry_keeps {s0 s : State} {F : List Part} (hF : Within [.dict, .hbm, .t0, .mem, .arb, .out, .freeCtr, .own, .fac, .jobs, .reds, .shared, .queues, .ports, .svc, .reg, .stackTab, .media, .integ, .recov, .power, .glody] F) (h_s : s0.Keeps F s) :
    (Nxt (s0.Keeps F)) (execSafeEntry s) := by
  unfold execSafeEntry
  apply Nxt.next
  split
  · apply State.safeEntry_keeps (hF.le rfl)
    exact h_s
  · split
    · apply State.goOut_keeps (hF.le rfl)
      exact h_s
    · exact h_s

theorem execSafeAutoExpiry_keeps {s0 s : State} {F : List Part} (hF : Within [.dict, .out, .freeCtr, .svc, .recov, .glody] F) (h_s : s0.Keeps F s) :
    (Nxt (s0.Keeps F)) (execSafeAutoExpiry s) := by
  unfold execSafeAutoExpiry
  apply Nxt.next
  split
  · apply State.warmStart_keeps (hF.le rfl)
    exact h_s
  · exact h_s

theorem execCoreWatchdogExpiry_keeps {s0 s : State} {F : List Part} (hF : Within [.dict, .recov] F) (h_s : s0.Keeps F s) :
    (Nxt (s0.Keeps F)) (execCoreWatchdogExpiry s) := by
  unfold execCoreWatchdogExpiry
  apply Nxt.next
  apply State.raiseSafe_keeps (hF.le rfl)
  exact h_s

theorem execLockstepMismatch_keeps {s0 s : State} {F : List Part} (hF : Within [.dict, .recov] F) (h_s : s0.Keeps F s) :
    (Nxt (s0.Keeps F)) (execLockstepMismatch s) := by
  unfold execLockstepMismatch
  apply Nxt.next
  apply State.raiseSafe_keeps (hF.le rfl)
  exact h_s

theorem State.wakeStacks_keeps {s0 s : State} {F : List Part} (hF : Within [.dict, .stackTab, .power] F) (h_s : s0.Keeps F s) :
    s0.Keeps F (State.wakeStacks s) := by
  unfold State.wakeStacks
  extract_lets +onlyGivenNames x1
  have h1 : s0.Keeps F x1 := by
    unfold x1
    apply forAll_keeps
    · intro v2 v3 h4
      split
      · apply State.enterSelf_keeps (hF.le rfl)
        exact h4
      · exact h4
    · exact h_s
  clear_value x1
  apply forAll_keeps
  · intro v7 v8 h9
    apply State.wakeRegion_keeps (hF.le rfl)
    exact h9
  · exact h1

theorem State.enterService_keeps {s0 s : State} {F : List Part} (hF : Within [.dict, .hbm, .t0, .mem, .arb, .out, .freeCtr, .own, .fac, .jobs, .reds, .shared, .queues, .ports, .svc, .reg, .stackTab, .media, .integ, .recov, .power, .glody] F) (h_s : s0.Keeps F s) :
    s0.Keeps F (State.enterService s) := by
  unfold State.enterService
  extract_lets +onlyGivenNames x1
  have h1 : s0.Keeps F x1 := by
    unfold x1
    apply State.setDev_keeps (hF.le rfl)
    exact h_s
  clear_value x1
  extract_lets +onlyGivenNames x2
  have h2 : s0.Keeps F x2 := by
    unfold x2
    apply State.setPar_keeps (hF.le rfl)
    apply State.readLayouts_keeps (hF.le rfl)
    exact h1
  clear_value x2
  extract_lets +onlyGivenNames x3
  have h3 : s0.Keeps F x3 := by
    unfold x3
    apply forAll_keeps
    · intro v4 v5 h6
      apply forAll_keeps
      · intro v7 v8 h9
        apply State.leaseFull_keeps (hF.le rfl)
        exact h9
      · exact h6
    · exact h2
  clear_value x3
  extract_lets +onlyGivenNames x10
  have h10 : s0.Keeps F x10 := by
    unfold x10
    apply forAll_keeps
    · intro v11 v12 h13
      apply State.modBlk_keeps (hF.le rfl)
      exact h13
    · exact h3
  clear_value x10
  extract_lets +onlyGivenNames x14
  have h14 : s0.Keeps F x14 := by
    unfold x14
    apply forAll_keeps
    · intro v15 v16 h17
      apply State.busy_keeps (hF.le rfl)
      exact h17
    · exact h10
  clear_value x14
  apply State.detourOn_keeps (hF.le rfl)
  apply State.wakeStacks_keeps (hF.le rfl)
  exact h14

theorem State.enterStandby_keeps {s0 s : State} {F : List Part} (hF : Within [.dict, .out, .svc, .glody] F) (h_s : s0.Keeps F s) :
    s0.Keeps F (State.enterStandby s) := by
  unfold State.enterStandby
  apply State.setDev_keeps (hF.le rfl)
  exact h_s

theorem State.devRequest_keeps {s0 s : State} {F : List Part} (hF : Within [.dict, .hbm, .t0, .mem, .arb, .out, .freeCtr, .own, .fac, .jobs, .reds, .shared, .queues, .ports, .svc, .reg, .stackTab, .media, .integ, .recov, .power, .glody] F) {v : Nat} (h_s : s0.Keeps F s) :
    s0.Keeps F (State.devRequest s v) := by
  unfold State.devRequest
  split
  · apply State.enterService_keeps (hF.le rfl)
    exact h_s
  · apply State.enterStandby_keeps (hF.le rfl)
    exact h_s
  · apply State.warmStart_keeps (hF.le rfl)
    exact h_s
  · apply State.raiseSafe_keeps (hF.le rfl)
    exact h_s
  · exact h_s

theorem execEnterService_keeps {s0 s : State} {F : List Part} (hF : Within [.dict, .hbm, .t0, .mem, .arb, .out, .freeCtr, .own, .fac, .jobs, .reds, .shared, .queues, .ports, .svc, .reg, .stackTab, .media, .integ, .recov, .power, .glody] F) (h_s : s0.Keeps F s) :
    (Nxt (s0.Keeps F)) (execEnterService s) := by
  unfold execEnterService
  apply Nxt.next
  apply State.barWrite_keeps (hF.le rfl)
  · exact h_s
  · intro v1 h2
    apply State.devRequest_keeps (hF.le rfl)
    exact h2

theorem execEnterStandby_keeps {s0 s : State} {F : List Part} (hF : Within [.dict, .hbm, .t0, .mem, .arb, .out, .freeCtr, .own, .fac, .jobs, .reds, .shared, .queues, .ports, .svc, .reg, .stackTab, .media, .integ, .recov, .power, .glody] F) (h_s : s0.Keeps F s) :
    (Nxt (s0.Keeps F)) (execEnterStandby s) := by
  unfold execEnterStandby
  apply Nxt.next
  apply State.barWrite_keeps (hF.le rfl)
  · exact h_s
  · intro v1 h2
    apply State.devRequest_keeps (hF.le rfl)
    exact h2

theorem execRecover_keeps {s0 s : State} {F : List Part} (hF : Within [.dict, .hbm, .t0, .mem, .arb, .out, .freeCtr, .own, .fac, .jobs, .reds, .shared, .queues, .ports, .svc, .reg, .stackTab, .media, .integ, .recov, .power, .glody] F) (h_s : s0.Keeps F s) :
    (Nxt (s0.Keeps F)) (execRecover s) := by
  unfold execRecover
  apply Nxt.next
  apply State.barWrite_keeps (hF.le rfl)
  · exact h_s
  · intro v1 h2
    apply State.devRequest_keeps (hF.le rfl)
    exact h2

theorem execEnterSafe_keeps {s0 s : State} {F : List Part} (hF : Within [.dict, .hbm, .t0, .mem, .arb, .out, .freeCtr, .own, .fac, .jobs, .reds, .shared, .queues, .ports, .svc, .reg, .stackTab, .media, .integ, .recov, .power, .glody] F) (h_s : s0.Keeps F s) :
    (Nxt (s0.Keeps F)) (execEnterSafe s) := by
  unfold execEnterSafe
  apply Nxt.next
  apply State.barWrite_keeps (hF.le rfl)
  · exact h_s
  · intro v1 h2
    apply State.devRequest_keeps (hF.le rfl)
    exact h2

end Sys2Proof.Machine
end

