-- ==== Sys2Proof/Laws/KeepsMedia.lean ====
section
/-! SUPPORT. Every effect of Machine/Media.lean leaves the queue alone, keeps the canonical form and writes only the parts named. -/
namespace Sys2Proof.Machine

theorem State.modMedia_keeps {s0 s : State} {F : List Part} (hF : Within [.media] F) {f : Media → Media} (h_s : s0.Keeps F s) :
    s0.Keeps F (State.modMedia s f) := by
  unfold State.modMedia
  refine State.Keeps.congr (s := s) (D := [.media]) (hF.le rfl) ?_ rfl rfl rfl rfl (by rintro ⟨⟩ <;> (first | exact .inr rfl | simp))
  exact h_s

theorem State.repairBlock_keeps {s0 s : State} {F : List Part} (hF : Within [.dict, .hbm, .mem, .out, .freeCtr, .fac, .jobs, .shared, .ports, .svc, .reg, .stackTab, .media, .glody] F) {b i : Nat} {w : MapWord} {homeBad : Bool} {ph : Phys} (h_s : s0.Keeps F s) :
    s0.Keeps F (State.repairBlock s b i w homeBad ph) := by
  unfold State.repairBlock
  extract_lets +onlyGivenNames x1 x2
  clear_value x1 x2
  split
  · exact h_s
  · split
    · apply State.failBlock_keeps (hF.le rfl)
      exact h_s
    · extract_lets +onlyGivenNames x13
      clear_value x13
      split
      split
      · apply State.failBlock_keeps (hF.le rfl)
        refine Fst.of_eq ?_ (by assumption)
        apply State.noteLines_keeps (hF.le rfl)
        exact h_s
      · extract_lets +onlyGivenNames x20
        have h20 : s0.Keeps F x20 := by
          unfold x20
          split
          · refine Fst.of_eq ?_ (by assumption)
            apply State.noteLines_keeps (hF.le rfl)
            exact h_s
          · apply State.bicelFail_keeps (hF.le rfl)
            refine Fst.of_eq ?_ (by assumption)
            apply State.noteLines_keeps (hF.le rfl)
            exact h_s
        clear_value x20
        apply State.rewrite_keeps (hF.le rfl)
        apply State.failEvent_keeps (hF.le rfl)
        exact h20

theorem State.repairLine_keeps {s0 s : State} {F : List Part} (hF : Within [.dict, .hbm, .mem, .out, .freeCtr, .fac, .jobs, .shared, .ports, .svc, .reg, .stackTab, .media, .glody] F) {l : Nat} {ph : Phys} (h_s : s0.Keeps F s) :
    s0.Keeps F (State.repairLine s l ph) := by
  unfold State.repairLine
  apply forAll_keeps
  · intro v1 v2 h3
    extract_lets +onlyGivenNames x4 x5
    clear_value x4 x5
    apply State.repairBlock_keeps (hF.le rfl)
    exact h3
  · exact h_s

theorem State.metaFail_keeps {s0 s : State} {F : List Part} (hF : Within [.dict, .mem, .out, .fac, .jobs, .shared, .queues, .ports, .svc, .media, .recov, .glody] F) {q : Nat} {m : MetaPart} (h_s : s0.Keeps F s) :
    s0.Keeps F (State.metaFail s q m) := by
  unfold State.metaFail
  extract_lets +onlyGivenNames x1
  clear_value x1
  extract_lets +onlyGivenNames x2
  have h2 : s0.Keeps F x2 := by
    unfold x2
    apply State.logMedia_keeps (hF.le rfl)
    apply State.count_keeps (hF.le rfl)
    exact h_s
  clear_value x2
  split
  · split
    · apply State.mapLost_keeps (hF.le rfl)
      exact h_s
    · exact h_s
  · split
    · refine State.modMem_keeps (hF.le rfl) ?_ (fun _ => rfl) (fun _ => rfl)
      apply State.record_keeps (hF.le rfl)
      exact h2
    · exact h_s
  · extract_lets +onlyGivenNames x13 x14
    clear_value x13 x14
    split
    · exact h_s
    · extract_lets +onlyGivenNames x17
      have h17 : s0.Keeps F x17 := by
        unfold x17
        apply State.record_keeps (hF.le rfl)
        exact h2
      clear_value x17
      split
      · apply State.slotPoison_keeps (hF.le rfl)
        exact h17
      · apply State.freeSlot_keeps (hF.le rfl)
        exact h17
  · split
    · exact h_s
    · apply State.haltQueue_keeps (hF.le rfl)
      apply State.syncQ_keeps (hF.le rfl)
      apply State.moveSlots_keeps (hF.le rfl)
      apply State.modQ_keeps (hF.le rfl)
      apply State.record_keeps (hF.le rfl)
      exact h2
  · apply State.raiseSafe_keeps (hF.le rfl)
    apply State.record_keeps (hF.le rfl)
    exact h2

theorem State.scrubRead_keeps {s0 s : State} {F : List Part} (hF : Within [.dict, .hbm, .mem, .arb, .out, .freeCtr, .fac, .jobs, .shared, .queues, .ports, .svc, .reg, .stackTab, .media, .recov, .power, .glody] F) {k : Nat} {lost : Option MetaPart} {ph : Phys} (h_s : s0.Keeps F s) :
    s0.Keeps F (State.scrubRead s k lost ph) := by
  unfold State.scrubRead
  split
  · exact h_s
  · extract_lets +onlyGivenNames x3 x4 x5
    clear_value x3 x4 x5
    extract_lets +onlyGivenNames x6
    have h6 : s0.Keeps F x6 := by
      unfold x6
      apply State.openRow_keeps (hF.le rfl)
      apply State.noteLine_keeps (hF.le rfl)
      apply State.scrubGrant_keeps (hF.le rfl)
      exact h_s
    clear_value x6
    extract_lets +onlyGivenNames x7
    clear_value x7
    extract_lets +onlyGivenNames x8
    have h8 : s0.Keeps F x8 := by
      unfold x8
      apply State.modMedia_keeps (hF.le rfl)
      exact h6
    clear_value x8
    extract_lets +onlyGivenNames x9
    have h9 : s0.Keeps F x9 := by
      unfold x9
      split
      · apply State.count_keeps (hF.le rfl)
        exact h8
      · exact h8
    clear_value x9
    split
    · exact h9
    · split
      · split
        · apply State.metaFail_keeps (hF.le rfl)
          exact h9
        · apply State.repairLine_keeps (hF.le rfl)
          exact h9
      · apply State.repairLine_keeps (hF.le rfl)
        exact h9

theorem execPatrolScrubRead_keeps {s0 : State} {F : List Part} (hF : Within [.dict, .hbm, .mem, .arb, .out, .freeCtr, .fac, .jobs, .shared, .queues, .ports, .svc, .reg, .stackTab, .media, .recov, .power, .glody] F) {stack : Fin 16} {events : ScrubEvents} {s : State} (h_s : s0.Keeps F s) :
    (Nxt (s0.Keeps F)) (execPatrolScrubRead stack events s) := by
  unfold execPatrolScrubRead
  apply Nxt.next
  apply State.scrubRead_keeps (hF.le rfl)
  exact h_s

theorem execScrubWriteback_keeps {s0 : State} {F : List Part} (hF : Within [.dict, .hbm, .mem, .arb, .reg, .media, .power] F) {stack : Fin 16} {s : State} (h_s : s0.Keeps F s) :
    (Nxt (s0.Keeps F)) (execScrubWriteback stack s) := by
  unfold execScrubWriteback
  apply Nxt.next
  split
  · exact h_s
  · extract_lets +onlyGivenNames x6 x7
    clear_value x6 x7
    extract_lets +onlyGivenNames x8
    have h8 : s0.Keeps F x8 := by
      unfold x8
      apply State.modMedia_keeps (hF.le rfl)
      exact h_s
    clear_value x8
    split
    · exact h8
    · apply State.storeBytes_keeps (hF.le rfl)
      apply State.scrubGrant_keeps (hF.le rfl)
      exact h8

theorem State.sramLost_keeps {s0 s : State} {F : List Part} (hF : Within [.dict, .hbm, .t0, .mem, .arb, .out, .freeCtr, .own, .fac, .jobs, .reds, .shared, .queues, .ports, .svc, .reg, .stackTab, .media, .integ, .recov, .power, .glody] F) {q kind at_ : Nat} (h_s : s0.Keeps F s) :
    s0.Keeps F (State.sramLost s q kind at_) := by
  unfold State.sramLost
  split
  · refine State.modMem_keeps (hF.le rfl) ?_ (fun _ => rfl) (fun _ => rfl)
    exact h_s
  · split
    · apply State.loseTile_keeps (hF.le rfl)
      exact h_s
    · exact h_s
  · apply State.modFac_keeps (hF.le rfl)
    exact h_s
  · apply State.modFac_keeps (hF.le rfl)
    exact h_s
  · split
    · exact h_s
    · split
      · refine State.modMem_keeps (hF.le rfl) ?_ (fun _ => rfl) (fun _ => rfl)
        exact h_s
      · exact h_s
  · split
    · split
      · refine State.modMem_keeps (hF.le rfl) ?_ (fun _ => rfl) (fun _ => rfl)
        exact h_s
      · exact h_s
    · split
      · refine State.modMem_keeps (hF.le rfl) ?_ (fun _ => rfl) (fun _ => rfl)
        exact h_s
      · exact h_s
  · apply State.redFault_keeps (hF.le rfl)
    exact h_s
  · apply State.engFault_keeps (hF.le rfl)
    exact h_s
  · exact h_s

theorem execSramScrub_keeps {s0 : State} {F : List Part} (hF : Within [.dict, .hbm, .t0, .mem, .arb, .out, .freeCtr, .own, .fac, .jobs, .reds, .shared, .queues, .ports, .svc, .reg, .stackTab, .media, .integ, .recov, .power, .glody] F) {region : Fin 4} {scratch : Option (Fin 9)} {outcome : Fin 15} {holding : Fin 9} {place : Nat} {s : State} (h_s : s0.Keeps F s) :
    (Nxt (s0.Keeps F)) (execSramScrub region scratch outcome holding place s) := by
  unfold execSramScrub
  extract_lets +onlyGivenNames x1
  clear_value x1
  apply Nxt.next
  split
  · extract_lets +onlyGivenNames x4 x5
    clear_value x4 x5
    split
    extract_lets +onlyGivenNames x11
    have h11 : s0.Keeps F x11 := by
      unfold x11
      apply State.noteSram_keeps (hF.le rfl)
      refine Snd.of_eq₂ ?_ (by assumption)
      split
      · split
        apply Snd.mk
        apply Snd.mk
        apply State.disarm_keeps (hF.le rfl)
        exact h_s
      · apply Snd.mk
        apply Snd.mk
        exact h_s
    clear_value x11
    split
    · apply State.sramLost_keeps (hF.le rfl)
      exact h11
    · exact h11
  · extract_lets +onlyGivenNames x22
    clear_value x22
    extract_lets +onlyGivenNames x23
    have h23 : s0.Keeps F x23 := by
      unfold x23
      apply State.noteSram_keeps (hF.le rfl)
      exact h_s
    clear_value x23
    split
    · apply State.sramLost_keeps (hF.le rfl)
      exact h23
    · exact h23

theorem execFlipArm_keeps {s0 : State} {F : List Part} (hF : Within [.dict, .out, .freeCtr, .svc] F) {value : Nat} {s : State} (h_s : s0.Keeps F s) :
    (Nxt (s0.Keeps F)) (execFlipArm value s) := by
  unfold execFlipArm
  apply Nxt.next
  extract_lets +onlyGivenNames x1
  clear_value x1
  apply State.barWrite_keeps (hF.le rfl)
  · exact h_s
  · intro v2 h3
    apply State.storeWrite_keeps (hF.le rfl)
    exact h3

theorem execCodeFetchUe_keeps {s0 : State} {F : List Part} (hF : Within [.media] F) {inHandler : Bool} {s : State} (h_s : s0.Keeps F s) :
    (Nxt (s0.Keeps F)) (execCodeFetchUe inHandler s) := by
  unfold execCodeFetchUe
  apply Nxt.next
  split
  · exact h_s
  · extract_lets +onlyGivenNames x3
    clear_value x3
    apply State.modMedia_keeps (hF.le rfl)
    exact h_s

theorem execDmaSourceUe_keeps {s0 : State} {F : List Part} (hF : Within [.dict, .out, .svc, .recov, .glody] F) {channel : Fin 8} {source : Nat} {mirror metadata : Bool} {s : State} (h_s : s0.Keeps F s) :
    (Nxt (s0.Keeps F)) (execDmaSourceUe channel source mirror metadata s) := by
  unfold execDmaSourceUe
  extract_lets +onlyGivenNames x1
  have h1 : s0.Keeps F x1 := by
    unfold x1
    apply State.setPar_keeps (hF.le rfl)
    apply State.setPar_keeps (hF.le rfl)
    exact h_s
  clear_value x1
  apply Nxt.next
  split
  · apply State.setPar_keeps (hF.le rfl)
    exact h1
  · extract_lets +onlyGivenNames x4
    have h4 : s0.Keeps F x4 := by
      unfold x4
      apply State.record_keeps (hF.le rfl)
      exact h1
    clear_value x4
    split
    · apply State.raiseSafe_keeps (hF.le rfl)
      exact h4
    · exact h4

theorem State.stackDies_keeps {s0 s : State} {F : List Part} (hF : Within [.dict, .out, .svc, .media, .recov, .power, .glody] F) {k : Nat} (h_s : s0.Keeps F s) :
    s0.Keeps F (State.stackDies s k) := by
  unfold State.stackDies
  split
  · exact h_s
  · extract_lets +onlyGivenNames x3
    have h3 : s0.Keeps F x3 := by
      unfold x3
      apply State.logUnit_keeps (hF.le rfl)
      apply State.setPar_keeps (hF.le rfl)
      exact h_s
    clear_value x3
    extract_lets +onlyGivenNames x4
    have h4 : s0.Keeps F x4 := by
      unfold x4
      apply State.record_keeps (hF.le rfl)
      exact h3
    clear_value x4
    extract_lets +onlyGivenNames x5
    have h5 : s0.Keeps F x5 := by
      unfold x5
      apply State.countWakes_keeps (hF.le rfl)
      apply State.pw_keeps (hF.le rfl)
      exact h4
    clear_value x5
    extract_lets +onlyGivenNames x6
    have h6 : s0.Keeps F x6 := by
      unfold x6
      apply State.modMedia_keeps (hF.le rfl)
      exact h5
    clear_value x6
    extract_lets +onlyGivenNames x7
    have h7 : s0.Keeps F x7 := by
      unfold x7
      apply State.setPar_keeps (hF.le rfl)
      exact h6
    clear_value x7
    split
    · apply State.regionDies_keeps (hF.le rfl)
      exact h7
    · exact h7

theorem execStackDeath_keeps {s0 : State} {F : List Part} (hF : Within [.dict, .out, .svc, .media, .recov, .power, .glody] F) {stack : Fin 16} {s : State} (h_s : s0.Keeps F s) :
    (Nxt (s0.Keeps F)) (execStackDeath stack s) := by
  unfold execStackDeath
  apply Nxt.next
  apply State.stackDies_keeps (hF.le rfl)
  exact h_s

theorem State.walkBlock_keeps {s0 s : State} {F : List Part} (hF : Within [.dict, .hbm, .mem, .out, .freeCtr, .fac, .jobs, .shared, .ports, .svc, .reg, .stackTab, .media, .glody] F) {k : Nat} {p : Nat × MapWord} {ph : Phys} (h_s : s0.Keeps F s) :
    s0.Keeps F (State.walkBlock s k p ph) := by
  unfold State.walkBlock
  extract_lets +onlyGivenNames x1 x2
  clear_value x1 x2
  split
  · exact h_s
  · split
    · split
      · apply State.poison_keeps (hF.le rfl)
        exact h_s
      · exact h_s
    · split
      · exact h_s
      · extract_lets +onlyGivenNames x17
        clear_value x17
        split
        split
        · apply State.poison_keeps (hF.le rfl)
          refine Fst.of_eq ?_ (by assumption)
          apply State.noteLines_keeps (hF.le rfl)
          exact h_s
        · apply State.rewrite_keeps (hF.le rfl)
          refine Fst.of_eq ?_ (by assumption)
          apply State.noteLines_keeps (hF.le rfl)
          exact h_s

theorem State.dropT1On_keeps {s0 s : State} {F : List Part} (hF : Within [.dict, .mem, .out, .fac, .svc, .glody] F) {k : Nat} (h_s : s0.Keeps F s) :
    s0.Keeps F (State.dropT1On s k) := by
  unfold State.dropT1On
  apply forAll_keeps
  · intro v1 v2 h3
    split
    · extract_lets +onlyGivenNames x5
      have h5 : s0.Keeps F x5 := by
        unfold x5
        apply State.dropTile_keeps (hF.le rfl)
        exact h3
      clear_value x5
      split
      · apply State.setWp_keeps (hF.le rfl)
        exact h5
      · exact h5
    · exact h3
  · exact h_s

theorem State.retireStack_keeps {s0 s : State} {F : List Part} (hF : Within [.dict, .mem, .out, .svc, .stackTab, .glody] F) {k : Nat} (h_s : s0.Keeps F s) :
    s0.Keeps F (State.retireStack s k) := by
  unfold State.retireStack
  extract_lets +onlyGivenNames x1 x2
  clear_value x1 x2
  extract_lets +onlyGivenNames x3
  have h3 : s0.Keeps F x3 := by
    unfold x3
    apply forAll_keeps
    · intro v4 v5 h6
      split
      · exact h6
      · apply State.setFrame_keeps (hF.le rfl)
        apply State.setFrame_keeps (hF.le rfl)
        exact h6
    · exact h_s
  clear_value x3
  extract_lets +onlyGivenNames x9
  clear_value x9
  extract_lets +onlyGivenNames x10
  have h10 : s0.Keeps F x10 := by
    unfold x10
    refine State.modMem_keeps (hF.le rfl) ?_ (fun _ => rfl) (fun _ => rfl)
    exact h3
  clear_value x10
  extract_lets +onlyGivenNames x11
  have h11 : s0.Keeps F x11 := by
    unfold x11
    apply State.modStack_keeps (hF.le rfl)
    exact h10
  clear_value x11
  apply State.press_keeps (hF.le rfl)
  apply State.moveSlots_keeps (hF.le rfl)
  exact h11

theorem execStackDeathWalkComplete_keeps {s0 : State} {F : List Part} (hF : Within [.dict, .hbm, .mem, .out, .freeCtr, .fac, .jobs, .shared, .ports, .svc, .reg, .stackTab, .media, .glody] F) {stack : Fin 16} {ph : Phys} {s : State} (h_s : s0.Keeps F s) :
    (Nxt (s0.Keeps F)) (execStackDeathWalkComplete stack ph s) := by
  unfold execStackDeathWalkComplete
  extract_lets +onlyGivenNames x1
  clear_value x1
  apply Nxt.next
  split
  · exact h_s
  · extract_lets +onlyGivenNames x7
    clear_value x7
    extract_lets +onlyGivenNames x8
    have h8 : s0.Keeps F x8 := by
      unfold x8
      apply forAll_keeps
      · intro v9 v10 h11
        apply State.walkBlock_keeps (hF.le rfl)
        exact h11
      · exact h_s
    clear_value x8
    extract_lets +onlyGivenNames x12
    have h12 : s0.Keeps F x12 := by
      unfold x12
      apply State.modMedia_keeps (hF.le rfl)
      exact h8
    clear_value x12
    apply State.retireStack_keeps (hF.le rfl)
    apply State.dropT1On_keeps (hF.le rfl)
    exact h12

theorem execRegionDeath_keeps {s0 : State} {F : List Part} (hF : Within [.dict, .out, .svc, .recov, .glody] F) {region : Fin 4} {s : State} (h_s : s0.Keeps F s) :
    (Nxt (s0.Keeps F)) (execRegionDeath region s) := by
  unfold execRegionDeath
  apply Nxt.next
  split
  · exact h_s
  · apply State.regionDies_keeps (hF.le rfl)
    exact h_s

end Sys2Proof.Machine
end

