-- ==== Sys2Proof/Laws/KeepsWakes.lean ====
section
/-! SUPPORT. Every effect of Machine/Wakes.lean leaves the queue alone, keeps the canonical form and writes only the parts named. -/
namespace Sys2Proof.Machine

theorem State.regionCheck_keeps {s0 s : State} {F : List Part} (hF : Within [.dict, .mem, .freeCtr, .integ, .power] F) {q : Nat} (h_s : s0.Keeps F s) :
    s0.Keeps F (State.regionCheck s q) := by
  unfold State.regionCheck
  split
  · apply State.diceWake_keeps (hF.le rfl)
    apply State.regionUp_keeps (hF.le rfl)
    exact h_s
  · exact h_s

theorem execPllLock_keeps {s0 : State} {F : List Part} (hF : Within [.dict, .hbm, .t0, .mem, .arb, .out, .freeCtr, .own, .fac, .jobs, .reds, .shared, .queues, .ports, .svc, .reg, .stackTab, .media, .integ, .recov, .power, .glody] F) {region : Fin 4} {ph : Phys} {s : State} (h_s : s0.Keeps F s) :
    (Nxt (s0.Keeps F)) (execPllLock region ph s) := by
  unfold execPllLock
  apply Nxt.next
  split
  · extract_lets +onlyGivenNames x2
    have h2 : s0.Keeps F x2 := by
      unfold x2
      apply State.pw_keeps (hF.le rfl)
      exact h_s
    clear_value x2
    extract_lets +onlyGivenNames x3
    have h3 : s0.Keeps F x3 := by
      unfold x3
      apply forAll_keeps
      · intro v4 v5 h6
        split
        · apply State.setPar_keeps (hF.le rfl)
          exact h6
        · exact h6
      · exact h2
    clear_value x3
    apply State.retryHub_keeps (hF.le rfl)
    apply State.regionCheck_keeps (hF.le rfl)
    exact h3
  · exact h_s

theorem State.wakeStarts_keeps {s0 s : State} {F : List Part} (hF : Within [.dict, .mem, .power] F) {w : Wake} (h_s : s0.Keeps F s) :
    s0.Keeps F (State.wakeStarts s w) := by
  unfold State.wakeStarts
  split
  · apply State.pw_keeps (hF.le rfl)
    exact h_s
  · split
    · exact h_s
    · apply State.regionUp_keeps (hF.le rfl)
      exact h_s
    · apply State.pw_keeps (hF.le rfl)
      exact h_s
  · split
    · apply State.setPar_keeps (hF.le rfl)
      exact h_s
    · apply State.pw_keeps (hF.le rfl)
      exact h_s

theorem execWakeGrant_keeps {s0 : State} {F : List Part} (hF : Within [.dict, .hbm, .t0, .mem, .arb, .out, .freeCtr, .own, .fac, .jobs, .reds, .shared, .queues, .ports, .svc, .reg, .stackTab, .media, .recov, .power, .glody] F) {ph : Phys} {s : State} (h_s : s0.Keeps F s) :
    (Nxt (s0.Keeps F)) (execWakeGrant ph s) := by
  unfold execWakeGrant
  apply Nxt.next
  split
  · exact h_s
  · extract_lets +onlyGivenNames x7
    have h7 : ∀ a0, s0.Keeps F a0 → s0.Keeps F (x7 a0) := by
      unfold x7
      intro v8 h9
      apply State.countWakes_keeps (hF.le rfl)
      apply State.pw_keeps (hF.le rfl)
      exact h9
    clear_value x7
    split
    · apply h7
      exact h_s
    · split
      · exact h_s
      · split
        · exact h_s
        · apply State.retryHub_keeps (hF.le rfl)
          apply State.wakeStarts_keeps (hF.le rfl)
          apply State.spendWake_keeps (hF.le rfl)
          apply h7
          exact h_s

theorem execSelfRefreshExit_keeps {s0 : State} {F : List Part} (hF : Within [.dict, .hbm, .t0, .mem, .arb, .out, .freeCtr, .own, .fac, .jobs, .reds, .shared, .queues, .ports, .svc, .reg, .stackTab, .media, .integ, .recov, .power, .glody] F) {stack : Fin 16} {ph : Phys} {s : State} (h_s : s0.Keeps F s) :
    (Nxt (s0.Keeps F)) (execSelfRefreshExit stack ph s) := by
  unfold execSelfRefreshExit
  apply Nxt.next
  split
  · apply State.retryHub_keeps (hF.le rfl)
    apply State.regionCheck_keeps (hF.le rfl)
    apply State.outOfSelf_keeps (hF.le rfl)
    exact h_s
  · exact h_s

theorem execHubRestoreComplete_keeps {s0 : State} {F : List Part} (hF : Within [.dict, .hbm, .t0, .mem, .arb, .out, .freeCtr, .own, .fac, .jobs, .reds, .shared, .queues, .ports, .svc, .reg, .stackTab, .media, .recov, .power, .glody] F) {ph : Phys} {s : State} (h_s : s0.Keeps F s) :
    (Nxt (s0.Keeps F)) (execHubRestoreComplete ph s) := by
  unfold execHubRestoreComplete
  apply Nxt.next
  split
  · apply State.retryHub_keeps (hF.le rfl)
    apply State.setPwrState_keeps (hF.le rfl)
    apply State.pw_keeps (hF.le rfl)
    exact h_s
  · exact h_s

end Sys2Proof.Machine
end

