-- ==== Sys2Proof/Laws/KeepsBoot.lean ====
section
/-! SUPPORT. Every effect of Machine/Boot.lean leaves the queue alone, keeps the canonical form and writes only the parts named. -/
namespace Sys2Proof.Machine

theorem State.modBoot_keeps {s0 s : State} {F : List Part} (hF : Within [.boot] F) {f : Boot → Boot} (h_s : s0.Keeps F s) :
    s0.Keeps F (State.modBoot s f) := by
  unfold State.modBoot
  refine State.Keeps.congr (s := s) (D := [.boot]) (hF.le rfl) ?_ rfl rfl rfl rfl (by rintro ⟨⟩ <;> (first | exact .inr rfl | simp))
  exact h_s

theorem State.bootRecord_keeps {s0 s : State} {F : List Part} (hF : Within [.dict, .out, .svc, .glody] F) {code : Nat} (h_s : s0.Keeps F s) :
    s0.Keeps F (State.bootRecord s code) := by
  unfold State.bootRecord
  apply State.record_keeps (hF.le rfl)
  exact h_s

theorem State.recovery_keeps {s0 s : State} {F : List Part} (hF : Within [.dict, .out, .svc, .boot, .glody] F) {code : Nat} (h_s : s0.Keeps F s) :
    s0.Keeps F (State.recovery s code) := by
  unfold State.recovery
  extract_lets +onlyGivenNames x1
  have h1 : s0.Keeps F x1 := by
    unfold x1
    apply State.modBoot_keeps (hF.le rfl)
    exact h_s
  clear_value x1
  extract_lets +onlyGivenNames x2
  have h2 : s0.Keeps F x2 := by
    unfold x2
    apply forAll_keeps
    · intro v3 v4 h5
      apply State.setPar_keeps (hF.le rfl)
      exact h5
    · exact h1
  clear_value x2
  extract_lets +onlyGivenNames x6
  have h6 : s0.Keeps F x6 := by
    unfold x6
    split
    · exact h2
    · apply State.bootRecord_keeps (hF.le rfl)
      exact h2
  clear_value x6
  extract_lets +onlyGivenNames x9
  have h9 : s0.Keeps F x9 := by
    unfold x9
    apply State.setPar_keeps (hF.le rfl)
    exact h6
  clear_value x9
  extract_lets +onlyGivenNames x10
  have h10 : s0.Keeps F x10 := by
    unfold x10
    apply State.setPar_keeps (hF.le rfl)
    apply State.setPar_keeps (hF.le rfl)
    exact h9
  clear_value x10
  refine State.Keeps.congr (s := x10) (D := [.glody]) (hF.le rfl) ?_ rfl rfl rfl rfl (by rintro ⟨⟩ <;> (first | exact .inr rfl | simp))
  exact h10

theorem State.runImage_keeps {s0 s : State} {F : List Part} (hF : Within [.dict, .media, .boot] F) {img : List Byte} (h_s : s0.Keeps F s) :
    s0.Keeps F (State.runImage s img) := by
  unfold State.runImage
  extract_lets +onlyGivenNames x1
  have h1 : s0.Keeps F x1 := by
    unfold x1
    apply State.modBoot_keeps (hF.le rfl)
    exact h_s
  clear_value x1
  extract_lets +onlyGivenNames x2
  have h2 : s0.Keeps F x2 := by
    unfold x2
    apply State.setPar_keeps (hF.le rfl)
    apply State.setPar_keeps (hF.le rfl)
    apply State.setPar_keeps (hF.le rfl)
    exact h1
  clear_value x2
  apply State.modMedia_keeps (hF.le rfl)
  exact h2

theorem State.endVerify_keeps {s0 s : State} {F : List Part} (hF : Within [.dict, .out, .svc, .media, .boot, .glody] F) {flashOk pufOk : Bool} (h_s : s0.Keeps F s) :
    s0.Keeps F (State.endVerify s flashOk pufOk) := by
  unfold State.endVerify
  split
  · apply State.recovery_keeps (hF.le rfl)
    exact h_s
  · split
    · split
      · apply State.raise_keeps (hF.le rfl)
        apply State.setPar_keeps (hF.le rfl)
        apply State.setPar_keeps (hF.le rfl)
        exact h_s
      · extract_lets +onlyGivenNames x7
        have h7 : s0.Keeps F x7 := by
          unfold x7
          apply State.runImage_keeps (hF.le rfl)
          exact h_s
        clear_value x7
        extract_lets +onlyGivenNames x8
        clear_value x8
        extract_lets +onlyGivenNames x9
        have h9 : s0.Keeps F x9 := by
          unfold x9
          split
          · apply State.bootRecord_keeps (hF.le rfl)
            apply State.setPar_keeps (hF.le rfl)
            exact h7
          · exact h7
        clear_value x9
        apply State.setPar_keeps (hF.le rfl)
        exact h9
    · apply State.recovery_keeps (hF.le rfl)
      exact h_s

theorem State.applyRepair_keeps {s0 s : State} {F : List Part} (hF : Within [.dict] F) {r : DevRecord} (h_s : s0.Keeps F s) :
    s0.Keeps F (State.applyRepair s r) := by
  unfold State.applyRepair
  extract_lets +onlyGivenNames x1
  have h1 : s0.Keeps F x1 := by
    unfold x1
    apply forAll_keeps
    · intro v2 v3 h4
      extract_lets +onlyGivenNames x5 x6 x7
      clear_value x5 x6 x7
      extract_lets +onlyGivenNames x8
      have h8 : s0.Keeps F x8 := by
        unfold x8
        apply State.setPar_keeps (hF.le rfl)
        apply State.setPar_keeps (hF.le rfl)
        exact h4
      clear_value x8
      extract_lets +onlyGivenNames x9
      have h9 : s0.Keeps F x9 := by
        unfold x9
        apply forAll_keeps
        · intro v10 v11 h12
          apply State.setPar_keeps (hF.le rfl)
          exact h12
        · exact h8
      clear_value x9
      split
      · exact h9
      · apply State.setPar_keeps (hF.le rfl)
        exact h9
    · exact h_s
  clear_value x1
  extract_lets +onlyGivenNames x15
  clear_value x15
  apply State.setActive_keeps (hF.le rfl)
  apply State.setPar_keeps (hF.le rfl)
  exact h1

theorem State.endBist_keeps {s0 s : State} {F : List Part} (hF : Within [.dict, .out, .svc, .boot, .glody] F) {bist : List Nat} (h_s : s0.Keeps F s) :
    s0.Keeps F (State.endBist s bist) := by
  unfold State.endBist
  extract_lets +onlyGivenNames x1 x2 x3 x4
  clear_value x1 x2 x3 x4
  extract_lets +onlyGivenNames x5
  have h5 : s0.Keeps F x5 := by
    unfold x5
    apply State.applyRepair_keeps (hF.le rfl)
    apply State.modBoot_keeps (hF.le rfl)
    exact h_s
  clear_value x5
  extract_lets +onlyGivenNames x6
  clear_value x6
  extract_lets +onlyGivenNames x7
  have h7 : s0.Keeps F x7 := by
    unfold x7
    apply forAll_keeps
    · intro v8 v9 h10
      apply State.record_keeps (hF.le rfl)
      exact h10
    · exact h5
  clear_value x7
  extract_lets +onlyGivenNames x11
  have h11 : s0.Keeps F x11 := by
    unfold x11
    apply forAll_keeps
    · intro v12 v13 h14
      split
      · apply State.retiredRecord_keeps (hF.le rfl)
        exact h14
      · exact h14
    · exact h7
  clear_value x11
  apply State.setPar_keeps (hF.le rfl)
  exact h11

theorem State.endTrain_keeps {s0 s : State} {F : List Part} (hF : Within [.dict, .out, .svc, .stackTab, .media, .recov, .power, .glody] F) {remaps : List (Nat × Nat × Nat)} {dead : List Nat} (h_s : s0.Keeps F s) :
    s0.Keeps F (State.endTrain s remaps dead) := by
  unfold State.endTrain
  extract_lets +onlyGivenNames x1
  have h1 : s0.Keeps F x1 := by
    unfold x1
    apply forAll_keeps
    · intro v2 v3 h4
      split
      · apply State.setPar_keeps (hF.le rfl)
        apply State.logMedia_keeps (hF.le rfl)
        exact h4
      · exact h4
    · exact h_s
  clear_value x1
  extract_lets +onlyGivenNames x7
  have h7 : s0.Keeps F x7 := by
    unfold x7
    apply forAll_keeps
    · intro v8 v9 h10
      apply State.setPar_keeps (hF.le rfl)
      exact h10
    · exact h1
  clear_value x7
  extract_lets +onlyGivenNames x11
  have h11 : s0.Keeps F x11 := by
    unfold x11
    apply forAll_keeps
    · intro v12 v13 h14
      apply State.stackDies_keeps (hF.le rfl)
      apply State.modStack_keeps (hF.le rfl)
      exact h14
    · exact h7
  clear_value x11
  apply State.setPar_keeps (hF.le rfl)
  exact h11

theorem State.reapply_keeps {s0 s : State} {F : List Part} (hF : Within [.dict, .mem, .out, .svc, .glody] F) (h_s : s0.Keeps F s) :
    s0.Keeps F (State.reapply s) := by
  unfold State.reapply
  apply forAll_keeps
  · intro v1 v2 h3
    split
    · apply forAll_keeps
      · intro v8 v9 h10
        apply State.retireFrame_keeps (hF.le rfl)
        exact h10
      · exact h3
    · exact h3
  · exact h_s

theorem State.endRecord_keeps {s0 s : State} {F : List Part} (hF : Within [.dict, .mem, .out, .freeCtr, .svc, .stackTab, .media, .recov, .boot, .glody] F) (h_s : s0.Keeps F s) :
    s0.Keeps F (State.endRecord s) := by
  unfold State.endRecord
  extract_lets +onlyGivenNames x1
  clear_value x1
  extract_lets +onlyGivenNames x2
  have h2 : s0.Keeps F x2 := by
    unfold x2
    apply State.reapply_keeps (hF.le rfl)
    apply State.setPar_keeps (hF.le rfl)
    apply State.modMedia_keeps (hF.le rfl)
    exact h_s
  clear_value x2
  extract_lets +onlyGivenNames x3
  clear_value x3
  extract_lets +onlyGivenNames x4
  have h4 : s0.Keeps F x4 := by
    unfold x4
    apply State.modBoot_keeps (hF.le rfl)
    apply State.saveRec_keeps (hF.le rfl)
    exact h2
  clear_value x4
  extract_lets +onlyGivenNames x5
  have h5 : s0.Keeps F x5 := by
    unfold x5
    apply forAll_keeps
    · intro v6 v7 h8
      apply State.enterSelf_keeps (hF.le rfl)
      exact h8
    · exact h4
  clear_value x5
  extract_lets +onlyGivenNames x9
  have h9 : s0.Keeps F x9 := by
    unfold x9
    apply State.setPar_keeps (hF.le rfl)
    apply State.setPar_keeps (hF.le rfl)
    exact h5
  clear_value x9
  extract_lets +onlyGivenNames x10
  clear_value x10
  split
  · apply State.goOut_keeps (hF.le rfl)
    exact h9
  · apply State.setDev_keeps (hF.le rfl)
    exact h9

theorem execBootPhaseEnd_keeps {s0 : State} {F : List Part} (hF : Within [.dict, .mem, .out, .freeCtr, .svc, .stackTab, .media, .recov, .power, .boot, .glody] F) {flashOk pufOk : Bool} {bist : List Nat} {remaps : List (Nat × Nat × Nat)} {dead : List Nat} {s : State} (h_s : s0.Keeps F s) :
    (Nxt (s0.Keeps F)) (execBootPhaseEnd flashOk pufOk bist remaps dead s) := by
  unfold execBootPhaseEnd
  apply Nxt.next
  split
  · exact h_s
  · split
    · split
      · exact h_s
      · apply State.setPar_keeps (hF.le rfl)
        apply State.setPar_keeps (hF.le rfl)
        exact h_s
    · apply State.endVerify_keeps (hF.le rfl)
      exact h_s
    · apply State.endBist_keeps (hF.le rfl)
      exact h_s
    · apply State.endTrain_keeps (hF.le rfl)
      exact h_s
    · apply State.setPar_keeps (hF.le rfl)
      exact h_s
    · apply State.endRecord_keeps (hF.le rfl)
      exact h_s
    · exact h_s

theorem State.restart_keeps {s0 s : State} {F : List Part} (hF : Within [.dict, .hbm, .t0, .mem, .arb, .out, .now, .freeCtr, .own, .fac, .jobs, .reds, .shared, .queues, .ports, .svc, .reg, .stackTab, .media, .integ, .recov, .power, .boot, .glody] F) (h_s : s0.Keeps F s) :
    s0.Keeps F (State.restart s) := by
  unfold State.restart
  extract_lets +onlyGivenNames x1
  have h1 : s0.Keeps F x1 := by
    unfold x1
    apply State.unpowered_keeps (hF.le rfl)
    exact h_s
  clear_value x1
  extract_lets +onlyGivenNames x2
  have h2 : ∀ a0 a1, s0.Keeps F a1 → s0.Keeps F (x2 a0 a1) := by
    unfold x2
    intro v3 v4 h5
    apply State.setPar_keeps (hF.le rfl)
    exact h5
  clear_value x2
  extract_lets +onlyGivenNames x6
  have h6 : s0.Keeps F x6 := by
    unfold x6
    apply h2
    apply h2
    apply h2
    exact h1
  clear_value x6
  extract_lets +onlyGivenNames x7
  have h7 : s0.Keeps F x7 := by
    unfold x7
    apply State.setPar_keeps (hF.le rfl)
    exact h6
  clear_value x7
  refine State.Keeps.congr (s := x7) (D := [.now, .power, .boot, .glody]) (hF.le rfl) ?_ rfl rfl rfl rfl (by rintro ⟨⟩ <;> (first | exact .inr rfl | simp))
  exact h7

theorem State.stageBytes_keeps {s0 s : State} {F : List Part} (hF : Within [.dict, .boot] F) {off : Nat} {d : List Byte} (h_s : s0.Keeps F s) :
    (Exc (s0.Keeps F)) (State.stageBytes s off d) := by
  unfold State.stageBytes
  extract_lets +onlyGivenNames x1
  clear_value x1
  split
  · apply Exc.error
  · split
    · apply Exc.error
    · extract_lets +onlyGivenNames x6 x7
      clear_value x6 x7
      extract_lets +onlyGivenNames x8
      have h8 : s0.Keeps F x8 := by
        unfold x8
        apply State.modBoot_keeps (hF.le rfl)
        exact h_s
      clear_value x8
      apply Exc.ok
      split
      · apply State.setPar_keeps (hF.le rfl)
        exact h8
      · split
        · apply State.setPar_keeps (hF.le rfl)
          exact h8
        · exact h8

theorem State.fwCommit_keeps {s0 s : State} {F : List Part} (hF : Within [.dict, .boot] F) (h_s : s0.Keeps F s) :
    s0.Keeps F (State.fwCommit s) := by
  unfold State.fwCommit
  split
  · apply State.setPar_keeps (hF.le rfl)
    exact h_s
  · apply State.modBoot_keeps (hF.le rfl)
    apply State.setPar_keeps (hF.le rfl)
    apply State.setPar_keeps (hF.le rfl)
    exact h_s

theorem execFwCommit_keeps {s0 s : State} {F : List Part} (hF : Within [.dict, .out, .freeCtr, .svc, .boot] F) (h_s : s0.Keeps F s) :
    (Nxt (s0.Keeps F)) (execFwCommit s) := by
  unfold execFwCommit
  apply Nxt.next
  apply State.barWrite_keeps (hF.le rfl)
  · exact h_s
  · intro v1 h2
    apply State.fwCommit_keeps (hF.le rfl)
    exact h2

theorem execFwWriteComplete_keeps {s0 : State} {F : List Part} (hF : Within [.dict, .boot] F) {good : Bool} {s : State} (h_s : s0.Keeps F s) :
    (Nxt (s0.Keeps F)) (execFwWriteComplete good s) := by
  unfold execFwWriteComplete
  apply Nxt.next
  split
  · exact h_s
  · extract_lets +onlyGivenNames x3
    clear_value x3
    extract_lets +onlyGivenNames x4
    have h4 : s0.Keeps F x4 := by
      unfold x4
      apply State.setPar_keeps (hF.le rfl)
      exact h_s
    clear_value x4
    split
    · apply State.setPar_keeps (hF.le rfl)
      apply State.modBoot_keeps (hF.le rfl)
      exact h4
    · apply State.setPar_keeps (hF.le rfl)
      exact h4

theorem State.keyErase_keeps {s0 s : State} {F : List Part} (hF : Within [.dict, .boot] F) {slot : Nat} (h_s : s0.Keeps F s) :
    s0.Keeps F (State.keyErase s slot) := by
  unfold State.keyErase
  apply State.setPar_keeps (hF.le rfl)
  apply State.setPar_keeps (hF.le rfl)
  apply State.modBoot_keeps (hF.le rfl)
  exact h_s

theorem execKeyErase_keeps {s0 : State} {F : List Part} (hF : Within [.dict, .out, .freeCtr, .svc, .boot] F) {slot : Fin 256} {s : State} (h_s : s0.Keeps F s) :
    (Nxt (s0.Keeps F)) (execKeyErase slot s) := by
  unfold execKeyErase
  apply Nxt.next
  apply State.barWrite_keeps (hF.le rfl)
  · exact h_s
  · intro v1 h2
    apply State.keyErase_keeps (hF.le rfl)
    exact h2

theorem State.keyLoad_keeps {s0 s : State} {F : List Part} (hF : Within [.dict, .boot] F) {id slot : Nat} {key1 key2 : List Byte} (h_s : s0.Keeps F s) :
    (Snd (s0.Keeps F)) (State.keyLoad s id slot key1 key2) := by
  unfold State.keyLoad
  extract_lets +onlyGivenNames x1 x2 x3
  clear_value x1 x2 x3
  split
  · apply Snd.mk
    exact h_s
  · split
    · apply Snd.mk
      exact h_s
    · split
      · apply Snd.mk
        exact h_s
      · apply Snd.mk
        apply State.setPar_keeps (hF.le rfl)
        apply State.setPar_keeps (hF.le rfl)
        apply State.modBoot_keeps (hF.le rfl)
        exact h_s

theorem execKeyLoad_keeps {s0 : State} {F : List Part} (hF : Within [.dict, .out, .boot] F) {session : Nat} {slot : Fin 256} {key1 key2 : List Byte} {s : State} (h_s : s0.Keeps F s) :
    (Nxt (s0.Keeps F)) (execKeyLoad session slot key1 key2 s) := by
  unfold execKeyLoad
  split
  apply Nxt.next
  apply State.emit_keeps (hF.le rfl)
  refine Snd.of_eq ?_ (by assumption)
  apply State.keyLoad_keeps (hF.le rfl)
  exact h_s

end Sys2Proof.Machine
end

