-- ==== Sys2Proof/Laws/KeepsWarm.lean ====
section
/-! SUPPORT. Every effect of Machine/Warm.lean leaves the queue alone, keeps the canonical form and writes only the parts named. -/
namespace Sys2Proof.Machine

theorem State.warmLogic_keeps {s0 s : State} {F : List Part} (hF : Within [.dict, .t0, .mem, .arb, .out, .fac, .reds, .queues, .ports, .svc, .reg, .stackTab, .media, .integ, .recov, .glody] F) (h_s : s0.Keeps F s) :
    s0.Keeps F (State.warmLogic s) := by
  unfold State.warmLogic
  extract_lets +onlyGivenNames x1
  clear_value x1
  extract_lets +onlyGivenNames x2
  have h2 : s0.Keeps F x2 := by
    unfold x2
    apply State.dropT0Waypoints_keeps (hF.le rfl)
    exact h_s
  clear_value x2
  extract_lets +onlyGivenNames x3
  have h3 : s0.Keeps F x3 := by
    unfold x3
    refine State.modMem_t0_keeps (hF.le rfl) ?_ (fun _ => rfl) ?_
    · exact h2
    · intro v4 h5
      rfl
  clear_value x3
  extract_lets +onlyGivenNames x6
  clear_value x6
  extract_lets +onlyGivenNames x7
  have h7 : s0.Keeps F x7 := by
    unfold x7
    refine State.Keeps.congr (s := x3) (D := [.arb, .svc]) (hF.le rfl) ?_ rfl rfl rfl rfl (by rintro ⟨⟩ <;> (first | exact .inr rfl | simp))
    exact h3
  clear_value x7
  extract_lets +onlyGivenNames x8
  have h8 : s0.Keeps F x8 := by
    unfold x8
    apply State.modFac_keeps (hF.le rfl)
    exact h7
  clear_value x8
  extract_lets +onlyGivenNames x9 x10
  clear_value x9 x10
  extract_lets +onlyGivenNames x11
  have h11 : s0.Keeps F x11 := by
    unfold x11
    refine State.Keeps.filter (s := x8) (D := [.dict, .reds, .queues, .ports]) (hF.le rfl) ?_ _ rfl rfl rfl rfl (by rintro ⟨⟩ <;> (first | exact .inr rfl | simp))
    exact h8
  clear_value x11
  extract_lets +onlyGivenNames x12
  have h12 : s0.Keeps F x12 := by
    unfold x12
    apply State.modRecov_keeps (hF.le rfl)
    exact h11
  clear_value x12
  extract_lets +onlyGivenNames x13
  have h13 : s0.Keeps F x13 := by
    unfold x13
    apply State.modInteg_keeps (hF.le rfl)
    exact h12
  clear_value x13
  extract_lets +onlyGivenNames x14
  have h14 : s0.Keeps F x14 := by
    unfold x14
    apply State.modMedia_keeps (hF.le rfl)
    exact h13
  clear_value x14
  extract_lets +onlyGivenNames x15
  have h15 : s0.Keeps F x15 := by
    unfold x15
    apply forAll_keeps
    · intro v16 v17 h18
      apply State.modStack_keeps (hF.le rfl)
      exact h18
    · exact h14
  clear_value x15
  extract_lets +onlyGivenNames x19
  have h19 : s0.Keeps F x19 := by
    unfold x19
    apply forAll_keeps
    · intro v20 v21 h22
      split
      · apply State.setQMode_keeps (hF.le rfl)
        exact h22
      · exact h22
    · exact h15
  clear_value x19
  extract_lets +onlyGivenNames x25
  have h25 : s0.Keeps F x25 := by
    unfold x25
    split
    · apply State.setPar_keeps (hF.le rfl)
      exact h19
    · exact h19
  clear_value x25
  apply State.clearTokens_keeps (hF.le rfl)
  exact h25

theorem State.warmFirmware_keeps {s0 s : State} {F : List Part} (hF : Within [.dict, .out, .svc, .media, .boot, .glody] F) (h_s : s0.Keeps F s) :
    s0.Keeps F (State.warmFirmware s) := by
  unfold State.warmFirmware
  split
  · split
    · apply State.setPar_keeps (hF.le rfl)
      apply State.modMedia_keeps (hF.le rfl)
      exact h_s
    · apply State.recovery_keeps (hF.le rfl)
      apply State.setPar_keeps (hF.le rfl)
      apply State.setPar_keeps (hF.le rfl)
      exact h_s
  · split
    · apply State.setPar_keeps (hF.le rfl)
      apply State.runImage_keeps (hF.le rfl)
      exact h_s
    · apply State.recovery_keeps (hF.le rfl)
      apply State.setPar_keeps (hF.le rfl)
      apply State.setPar_keeps (hF.le rfl)
      exact h_s

theorem State.warmWake_keeps {s0 s : State} {F : List Part} (hF : Within [.dict, .power] F) (h_s : s0.Keeps F s) :
    s0.Keeps F (State.warmWake s) := by
  unfold State.warmWake
  extract_lets +onlyGivenNames x1 x2 x3
  clear_value x1 x2 x3
  extract_lets +onlyGivenNames x4
  have h4 : s0.Keeps F x4 := by
    unfold x4
    apply State.setPar_keeps (hF.le rfl)
    apply State.count_keeps (hF.le rfl)
    exact h_s
  clear_value x4
  extract_lets +onlyGivenNames x5
  have h5 : s0.Keeps F x5 := by
    unfold x5
    apply State.spendWake_keeps (hF.le rfl)
    exact h4
  clear_value x5
  extract_lets +onlyGivenNames x6
  have h6 : s0.Keeps F x6 := by
    unfold x6
    apply State.pw_keeps (hF.le rfl)
    exact h5
  clear_value x6
  extract_lets +onlyGivenNames x7
  have h7 : s0.Keeps F x7 := by
    unfold x7
    apply forAll_keeps
    · intro v8 v9 h10
      apply State.setPar_keeps (hF.le rfl)
      exact h10
    · exact h6
  clear_value x7
  extract_lets +onlyGivenNames x11
  have h11 : s0.Keeps F x11 := by
    unfold x11
    apply forAll_keeps
    · intro v12 v13 h14
      apply State.setPar_keeps (hF.le rfl)
      exact h14
    · exact h7
  clear_value x11
  apply State.setPar_keeps (hF.le rfl)
  apply State.setPwrState_keeps (hF.le rfl)
  apply State.countWakes_keeps (hF.le rfl)
  exact h11

theorem State.recountRefs_keeps {s0 s : State} {F : List Part} (hF : Within [.dict] F) (h_s : s0.Keeps F s) :
    s0.Keeps F (State.recountRefs s) := by
  unfold State.recountRefs
  extract_lets +onlyGivenNames x1 x2 x3 x4
  clear_value x1 x2 x3 x4
  apply State.setPar_keeps (hF.le rfl)
  apply State.setPar_keeps (hF.le rfl)
  apply State.setPar_keeps (hF.le rfl)
  apply State.setPar_keeps (hF.le rfl)
  exact h_s

theorem State.warmRevalidate_keeps {s0 s : State} {F : List Part} (hF : Within [.dict, .mem, .out, .freeCtr, .fac, .jobs, .shared, .ports, .svc, .media, .recov, .glody] F) {ph : Phys} {tables : Bool} (h_s : s0.Keeps F s) :
    s0.Keeps F (State.warmRevalidate s ph tables) := by
  unfold State.warmRevalidate
  split
  · apply State.goOut_keeps (hF.le rfl)
    exact h_s
  · extract_lets +onlyGivenNames x3
    clear_value x3
    extract_lets +onlyGivenNames x4
    have h4 : s0.Keeps F x4 := by
      unfold x4
      apply forAll_keeps
      · intro v5 v6 h7
        split
        split
        · refine Snd.of_eq ?_ (by assumption)
          apply State.readEntry_keeps (hF.le rfl)
          exact h7
        · apply State.mapLost_keeps (hF.le rfl)
          refine Snd.of_eq ?_ (by assumption)
          apply State.readEntry_keeps (hF.le rfl)
          exact h7
      · exact h_s
    clear_value x4
    extract_lets +onlyGivenNames x14
    have h14 : s0.Keeps F x14 := by
      unfold x14
      apply forAll_keeps
      · intro v15 v16 h17
        extract_lets +onlyGivenNames x18
        clear_value x18
        extract_lets +onlyGivenNames x19
        have h19 : s0.Keeps F x19 := by
          unfold x19
          apply forAll_keeps
          · intro v20 v21 h22
            apply State.setPar_keeps (hF.le rfl)
            exact h22
          · exact h17
        clear_value x19
        apply State.press_keeps (hF.le rfl)
        apply State.setPar_keeps (hF.le rfl)
        exact h19
      · exact h4
    clear_value x14
    apply State.setPar_keeps (hF.le rfl)
    apply State.recountRefs_keeps (hF.le rfl)
    exact h14

theorem State.warmReplay_keeps {s0 s : State} {F : List Part} (hF : Within [.dict, .hbm, .t0, .mem, .arb, .out, .freeCtr, .own, .fac, .jobs, .reds, .shared, .queues, .ports, .svc, .reg, .stackTab, .media, .integ, .recov, .power, .glody] F) {lost : List Nat} {env : Env} (h_s : s0.Keeps F s) :
    s0.Keeps F (State.warmReplay s lost env) := by
  unfold State.warmReplay
  extract_lets +onlyGivenNames x1
  have h1 : s0.Keeps F x1 := by
    unfold x1
    apply forAll_keeps
    · intro v2 v3 h4
      apply State.journalIn_keeps (hF.le rfl)
      exact h4
    · exact h_s
  clear_value x1
  extract_lets +onlyGivenNames x5
  clear_value x5
  extract_lets +onlyGivenNames x6
  have h6 : s0.Keeps F x6 := by
    unfold x6
    apply State.setPar_keeps (hF.le rfl)
    apply State.setPar_keeps (hF.le rfl)
    exact h1
  clear_value x6
  extract_lets +onlyGivenNames x7
  have h7 : s0.Keeps F x7 := by
    unfold x7
    apply State.setDev_keeps (hF.le rfl)
    exact h6
  clear_value x7
  extract_lets +onlyGivenNames x8
  have h8 : s0.Keeps F x8 := by
    unfold x8
    apply State.resetRecord_keeps (hF.le rfl)
    exact h7
  clear_value x8
  extract_lets +onlyGivenNames x9
  have h9 : s0.Keeps F x9 := by
    unfold x9
    apply State.recoveryNotices_keeps (hF.le rfl)
    exact h8
  clear_value x9
  extract_lets +onlyGivenNames x10
  have h10 : s0.Keeps F x10 := by
    unfold x10
    apply State.modRecov_keeps (hF.le rfl)
    exact h9
  clear_value x10
  split
  · apply State.enterService_keeps (hF.le rfl)
    exact h10
  · apply forAll_keeps
    · intro v13 v14 h15
      apply State.enterSelf_keeps (hF.le rfl)
      exact h15
    · exact h10

theorem State.warmDown_keeps {s0 s : State} {F : List Part} (hF : Within [.dict, .hbm, .t0, .mem, .arb, .out, .freeCtr, .own, .fac, .jobs, .reds, .shared, .queues, .ports, .svc, .reg, .stackTab, .media, .recov, .power, .glody] F) (h_s : s0.Keeps F s) :
    s0.Keeps F (State.warmDown s) := by
  unfold State.warmDown
  extract_lets +onlyGivenNames x1
  clear_value x1
  extract_lets +onlyGivenNames x2
  have h2 : s0.Keeps F x2 := by
    unfold x2
    apply State.recoveryNotices_keeps (hF.le rfl)
    exact h_s
  clear_value x2
  extract_lets +onlyGivenNames x3
  have h3 : s0.Keeps F x3 := by
    unfold x3
    apply State.resetLinks_keeps (hF.le rfl)
    exact h2
  clear_value x3
  extract_lets +onlyGivenNames x4
  have h4 : s0.Keeps F x4 := by
    unfold x4
    apply forAll_keeps
    · intro v5 v6 h7
      apply State.enterSelf_keeps (hF.le rfl)
      exact h7
    · exact h3
  clear_value x4
  apply forAll_keeps
  · intro v8 v9 h10
    split
    · apply State.inSelf_keeps (hF.le rfl)
      exact h10
    · exact h10
  · exact h4

theorem execWarmResetPhaseEnd_keeps {s0 : State} {F : List Part} (hF : Within [.dict, .hbm, .t0, .mem, .arb, .out, .freeCtr, .own, .fac, .jobs, .reds, .shared, .queues, .ports, .svc, .reg, .stackTab, .media, .integ, .recov, .power, .boot, .glody] F) {env : Env} {tables : Bool} {lost : List Nat} {s : State} (h_s : s0.Keeps F s) :
    (Nxt (s0.Keeps F)) (execWarmResetPhaseEnd env tables lost s) := by
  unfold execWarmResetPhaseEnd
  apply Nxt.next
  split
  · apply State.setPar_keeps (hF.le rfl)
    exact h_s
  · apply State.setPar_keeps (hF.le rfl)
    exact h_s
  · apply State.setPar_keeps (hF.le rfl)
    apply State.warmDown_keeps (hF.le rfl)
    exact h_s
  · apply State.setPar_keeps (hF.le rfl)
    apply State.warmLogic_keeps (hF.le rfl)
    exact h_s
  · apply State.warmFirmware_keeps (hF.le rfl)
    exact h_s
  · apply State.warmWake_keeps (hF.le rfl)
    exact h_s
  · apply State.warmRevalidate_keeps (hF.le rfl)
    exact h_s
  · apply State.armsGo_keeps (hF.le rfl)
    apply State.warmReplay_keeps (hF.le rfl)
    exact h_s
  · exact h_s

theorem execWarmResetOverrun_keeps {s0 s : State} {F : List Part} (hF : Within [.dict, .out, .freeCtr, .svc, .recov, .glody] F) (h_s : s0.Keeps F s) :
    (Nxt (s0.Keeps F)) (execWarmResetOverrun s) := by
  unfold execWarmResetOverrun
  apply Nxt.next
  split
  · apply State.goOut_keeps (hF.le rfl)
    exact h_s
  · exact h_s

end Sys2Proof.Machine
end

