-- ==== Sys2Proof/Laws/KeepsAudit.lean ====
section
/-! SUPPORT. Every effect of Machine/Audit.lean leaves the queue alone, keeps the canonical form and writes only the parts named. -/
namespace Sys2Proof.Machine

theorem State.audit_keeps {s0 s : State} {F : List Part} (hF : Within [.dict, .out, .svc, .recov, .glody] F) {ok : Bool} {pass fail law unit : Nat} {counts : List Nat} (h_s : s0.Keeps F s) :
    s0.Keeps F (State.audit s ok pass fail law unit counts) := by
  unfold State.audit
  split
  · apply State.count_keeps (hF.le rfl)
    exact h_s
  · apply State.auditFail_keeps (hF.le rfl)
    apply State.count_keeps (hF.le rfl)
    exact h_s

theorem State.auditLaw_keeps {s0 s : State} {F : List Part} (hF : Within [.dict, .out, .svc, .recov, .glody] F) {law : Nat} (h_s : s0.Keeps F s) :
    s0.Keeps F (State.auditLaw s law) := by
  unfold State.auditLaw
  split
  · apply forAll_keeps
    · intro v2 v3 h4
      apply State.capAudit_keeps (hF.le rfl)
      exact h4
    · exact h_s
  · apply State.audit_keeps (hF.le rfl)
    exact h_s
  · split
    · apply State.count_keeps (hF.le rfl)
      exact h_s
    · apply State.vrefFail_keeps (hF.le rfl)
      exact h_s
  · apply forAll_keeps
    · intro v10 v11 h12
      apply State.audit_keeps (hF.le rfl)
      exact h12
    · exact h_s
  · split
    · apply State.count_keeps (hF.le rfl)
      exact h_s
    · apply State.auditFail_keeps (hF.le rfl)
      apply State.count_keeps (hF.le rfl)
      exact h_s
  · apply State.audit_keeps (hF.le rfl)
    exact h_s
  · apply State.audit_keeps (hF.le rfl)
    exact h_s
  · exact h_s

theorem execConservationAudit_keeps {s0 : State} {F : List Part} (hF : Within [.dict, .out, .svc, .recov, .glody] F) {law : Fin 8} {s : State} (h_s : s0.Keeps F s) :
    (Nxt (s0.Keeps F)) (execConservationAudit law s) := by
  unfold execConservationAudit
  apply Nxt.next
  split
  · apply State.auditLaw_keeps (hF.le rfl)
    exact h_s
  · exact h_s

end Sys2Proof.Machine
end

