-- ==== Sys2Proof/Laws/KeepsDictWrite.lean ====
section
/-! SUPPORT. Every effect of Machine/DictWrite.lean leaves the queue alone, keeps the canonical form and writes only the parts named. -/
namespace Sys2Proof.Machine

theorem State.domWrite_keeps {s0 s : State} {F : List Part} (hF : Within [.dict, .boot] F) {i v : Nat} (h_s : s0.Keeps F s) :
    (Exc (s0.Keeps F)) (State.domWrite s i v) := by
  unfold State.domWrite
  split
  · apply Exc.error
  · apply State.stageBytes_keeps (hF.le rfl)
    exact h_s

theorem State.diagLatch_keeps {s0 s : State} {F : List Part} (hF : Within [.dict, .freeCtr] F) {ph : Phys} (h_s : s0.Keeps F s) :
    s0.Keeps F (State.diagLatch s ph) := by
  unfold State.diagLatch
  extract_lets +onlyGivenNames x1 x2 x3 x4 x5 x6
  clear_value x1 x2 x3 x4 x5 x6
  extract_lets +onlyGivenNames x7
  have h7 : s0.Keeps F x7 := by
    unfold x7
    split
    · apply State.freeNext_keeps (hF.le rfl)
      exact h_s
    · exact h_s
  clear_value x7
  apply State.setPar_keeps (hF.le rfl)
  apply State.setPar_keeps (hF.le rfl)
  apply State.setPar_keeps (hF.le rfl)
  exact h7

theorem State.objWrite_keeps {s0 s : State} {F : List Part} (hF : Within [.dict, .hbm, .t0, .mem, .arb, .out, .freeCtr, .own, .fac, .jobs, .reds, .shared, .queues, .ports, .svc, .reg, .stackTab, .media, .recov, .power, .boot, .glody] F) {k v : Nat} {ph : Phys} (h_s : s0.Keeps F s) :
    (Opt (s0.Keeps F)) (State.objWrite s k v ph) := by
  unfold State.objWrite
  extract_lets +onlyGivenNames x1 x2
  clear_value x1 x2
  dsimp only
  apply Opt.ite
  · apply Opt.some
    split
    · apply State.ownCommit_keeps (hF.le rfl)
      exact h_s
    · apply State.ownShadow_keeps (hF.le rfl)
      exact h_s
  · apply Opt.ite
    · split
      · apply Opt.some
        split
        · apply State.partCommit_keeps (hF.le rfl)
          exact h_s
        · apply State.partRelease_keeps (hF.le rfl)
          exact h_s
      · apply Opt.none
    · apply Opt.ite
      · split
        · apply Opt.some
          split
          · apply State.winCommit_keeps (hF.le rfl)
            exact h_s
          · apply State.winWithdraw_keeps (hF.le rfl)
            exact h_s
        · apply Opt.none
      · apply Opt.ite
        · split
          · apply Opt.some
            split
            · apply State.srCommit_keeps (hF.le rfl)
              exact h_s
            · apply State.srRelease_keeps (hF.le rfl)
              exact h_s
          · split
            · apply Opt.some
              apply State.withRefs_keeps (hF.le rfl)
              · exact h_s
              · intro v18 h19
                apply State.setPar_keeps (hF.le rfl)
                exact h19
            · split
              · apply Opt.some
                apply State.leaseEnable_keeps (hF.le rfl)
                exact h_s
              · apply Opt.none
        · split
          · split
            · apply Opt.some
              apply State.wpWrite_keeps (hF.le rfl)
              exact h_s
            · apply Opt.none
          · split
            · split
              · apply Opt.some
                split
                · apply State.descCommit_keeps (hF.le rfl)
                  exact h_s
                · apply State.descRelease_keeps (hF.le rfl)
                  exact h_s
              · apply Opt.none
            · split
              · split
                · apply Opt.some
                  split
                  · apply State.rcCommit_keeps (hF.le rfl)
                    exact h_s
                  · apply State.rcRelease_keeps (hF.le rfl)
                    exact h_s
                · split
                  · apply Opt.some
                    apply State.rcWrite_keeps (hF.le rfl)
                    exact h_s
                  · apply Opt.none
              · split
                · split
                  · apply Opt.some
                    apply State.qCtl_keeps (hF.le rfl)
                    exact h_s
                  · apply Opt.none
                · split
                  · split
                    · apply Opt.some
                      apply State.jobBase_keeps (hF.le rfl)
                      exact h_s
                    · split
                      · apply Opt.some
                        apply State.jobFree_keeps (hF.le rfl)
                        exact h_s
                      · apply Opt.none
                  · split
                    · apply Opt.some
                      split
                      · apply State.trnCtlWrite_keeps (hF.le rfl)
                        exact h_s
                      · split
                        · apply State.trnLaneWrite_keeps (hF.le rfl)
                          exact h_s
                        · apply State.trnHoldWrite_keeps (hF.le rfl)
                          exact h_s
                    · split
                      · apply Opt.some
                        apply State.keyErase_keeps (hF.le rfl)
                        exact h_s
                      · split
                        · split
                          · apply Opt.some
                            apply State.enablePort_keeps (hF.le rfl)
                            apply State.storeWrite_keeps (hF.le rfl)
                            exact h_s
                          · split
                            · apply Opt.some
                              apply State.tolExits_keeps (hF.le rfl)
                              apply State.setPar_keeps (hF.le rfl)
                              exact h_s
                            · apply Opt.none
                        · split
                          · apply Opt.some
                            apply State.diagLatch_keeps (hF.le rfl)
                            apply State.storeWrite_keeps (hF.le rfl)
                            exact h_s
                          · apply Opt.none

theorem State.devWrite_keeps {s0 s : State} {F : List Part} (hF : Within [.dict, .hbm, .t0, .mem, .arb, .out, .freeCtr, .own, .fac, .jobs, .reds, .shared, .queues, .ports, .svc, .reg, .stackTab, .media, .integ, .recov, .power, .boot, .glody] F) {k v : Nat} {ph : Phys} (h_s : s0.Keeps F s) :
    (Opt (s0.Keeps F)) (State.devWrite s k v ph) := by
  unfold State.devWrite
  split
  · apply Opt.some
    apply State.devRequest_keeps (hF.le rfl)
    exact h_s
  · split
    · apply Opt.some
      apply State.fwCommit_keeps (hF.le rfl)
      exact h_s
    · split
      · apply Opt.some
        apply State.versionReset_keeps (hF.le rfl)
        exact h_s
      · split
        · apply Opt.some
          apply State.retryCoh_keeps (hF.le rfl)
          apply State.declareDead_keeps (hF.le rfl)
          exact h_s
        · split
          · apply Opt.some
            apply State.rejoin_keeps (hF.le rfl)
            exact h_s
          · split
            · apply Opt.some
              apply State.tolExits_keeps (hF.le rfl)
              apply State.setPar_keeps (hF.le rfl)
              exact h_s
            · split
              · apply Opt.some
                apply State.detSizes_keeps (hF.le rfl)
                apply State.setPar_keeps (hF.le rfl)
                exact h_s
              · split
                · apply Opt.some
                  apply forAll_keeps
                  · intro v16 v17 h18
                    apply State.press_keeps (hF.le rfl)
                    exact h18
                  · apply State.setPar_keeps (hF.le rfl)
                    exact h_s
                · apply Opt.none

theorem State.writeEffect_keeps {s0 s : State} {F : List Part} (hF : Within [.dict, .hbm, .t0, .mem, .arb, .out, .freeCtr, .own, .fac, .jobs, .reds, .shared, .queues, .ports, .svc, .reg, .stackTab, .media, .integ, .recov, .power, .boot, .glody] F) {k v : Nat} {ph : Phys} (h_s : s0.Keeps F s) :
    s0.Keeps F (State.writeEffect s k v ph) := by
  unfold State.writeEffect
  split
  · refine Opt.of_eq ?_ (by assumption)
    apply State.objWrite_keeps (hF.le rfl)
    exact h_s
  · apply Opt.getD
    · apply State.devWrite_keeps (hF.le rfl)
      exact h_s
    · apply State.storeWrite_keeps (hF.le rfl)
      exact h_s

theorem State.applyWrite_keeps {s0 s : State} {F : List Part} (hF : Within [.dict, .hbm, .t0, .mem, .arb, .out, .freeCtr, .own, .fac, .jobs, .reds, .shared, .queues, .ports, .svc, .reg, .stackTab, .media, .integ, .recov, .power, .boot, .glody] F) {k v : Nat} {ph : Phys} {tie : Bool} (h_s : s0.Keeps F s) :
    (Exc (s0.Keeps F)) (State.applyWrite s k v ph tie) := by
  unfold State.applyWrite
  split
  · apply Exc.error
  · split
    · apply State.domWrite_keeps (hF.le rfl)
      exact h_s
    · apply Exc.ok
      apply State.writeEffect_keeps (hF.le rfl)
      exact h_s

theorem State.barPut_keeps {s0 s : State} {F : List Part} (hF : Within [.dict, .hbm, .t0, .mem, .arb, .out, .freeCtr, .own, .fac, .jobs, .reds, .shared, .queues, .ports, .svc, .reg, .stackTab, .media, .integ, .recov, .power, .boot, .glody] F) {off size v : Nat} {ph : Phys} (h_s : s0.Keeps F s) :
    s0.Keeps F (State.barPut s off size v ph) := by
  unfold State.barPut
  extract_lets +onlyGivenNames x1
  clear_value x1
  split
  · apply State.aerUr_keeps (hF.le rfl)
    exact h_s
  · split
    · exact h_s
    · split
      · apply State.barRefuse_keeps (hF.le rfl)
        exact h_s
      · split
        · apply State.barRefuse_keeps (hF.le rfl)
          exact h_s
        · split
          · apply State.barRefuse_keeps (hF.le rfl)
            exact h_s
          · split
            · apply State.barRefuse_keeps (hF.le rfl)
              exact h_s
            · refine Exc.of_eq ?_ (by assumption)
              apply State.applyWrite_keeps (hF.le rfl)
              exact h_s

theorem execDictWrite_keeps {s0 : State} {F : List Part} (hF : Within [.dict, .hbm, .t0, .mem, .arb, .out, .freeCtr, .own, .fac, .jobs, .reds, .shared, .queues, .ports, .svc, .reg, .stackTab, .media, .integ, .recov, .power, .boot, .glody] F) {offset : Fin 134217728} {size : Nat} {data : DictData} {ph : Phys} {s : State} (h_s : s0.Keeps F s) :
    (Nxt (s0.Keeps F)) (execDictWrite offset size data ph s) := by
  unfold execDictWrite
  apply Nxt.next
  split
  · apply State.aerUncorr_keeps (hF.le rfl)
    exact h_s
  · apply State.barPut_keeps (hF.le rfl)
    exact h_s

theorem execDomDataWrite_keeps {s0 : State} {F : List Part} (hF : Within [.dict, .hbm, .t0, .mem, .arb, .out, .freeCtr, .own, .fac, .jobs, .reds, .shared, .queues, .ports, .svc, .reg, .stackTab, .media, .integ, .recov, .power, .boot, .glody] F) {slot : Fin 256} {size value : Nat} {s : State} (h_s : s0.Keeps F s) :
    (Nxt (s0.Keeps F)) (execDomDataWrite slot size value s) := by
  unfold execDomDataWrite
  apply Nxt.next
  apply State.barPut_keeps (hF.le rfl)
  exact h_s

theorem execDiagMapLatch_keeps {s0 : State} {F : List Part} (hF : Within [.dict, .hbm, .t0, .mem, .arb, .out, .freeCtr, .own, .fac, .jobs, .reds, .shared, .queues, .ports, .svc, .reg, .stackTab, .media, .integ, .recov, .power, .boot, .glody] F) {entry : Fin 3} {value : Nat} {ph : Phys} {s : State} (h_s : s0.Keeps F s) :
    (Nxt (s0.Keeps F)) (execDiagMapLatch entry value ph s) := by
  unfold execDiagMapLatch
  extract_lets +onlyGivenNames x1
  clear_value x1
  apply Nxt.next
  apply State.barPut_keeps (hF.le rfl)
  exact h_s

end Sys2Proof.Machine
end

