-- ==== Sys2Proof/Laws/KeepsMgmt.lean ====
section
/-! SUPPORT. Every effect of Machine/Mgmt.lean leaves the queue alone, keeps the canonical form and writes only the parts named. -/
namespace Sys2Proof.Machine

theorem State.modGlody_keeps {s0 s : State} {F : List Part} (hF : Within [.glody] F) {f : Glody → Glody} (h_s : s0.Keeps F s) :
    s0.Keeps F (State.modGlody s f) := by
  unfold State.modGlody
  refine State.Keeps.congr (s := s) (D := [.glody]) (hF.le rfl) ?_ rfl rfl rfl rfl (by rintro ⟨⟩ <;> (first | exact .inr rfl | simp))
  exact h_s

theorem State.gClose_keeps {s0 s : State} {F : List Part} (hF : Within [.dict, .glody] F) {id : Nat} (h_s : s0.Keeps F s) :
    s0.Keeps F (State.gClose s id) := by
  unfold State.gClose
  extract_lets +onlyGivenNames x1
  clear_value x1
  apply State.setPar_keeps (hF.le rfl)
  apply State.modGlody_keeps (hF.le rfl)
  exact h_s

theorem State.spdmEnd_keeps {s0 s : State} {F : List Part} (hF : Within [.dict, .boot, .glody] F) {id : Nat} (h_s : s0.Keeps F s) :
    s0.Keeps F (State.spdmEnd s id) := by
  unfold State.spdmEnd
  apply State.gClose_keeps (hF.le rfl)
  apply State.modBoot_keeps (hF.le rfl)
  exact h_s

theorem State.spdmSeen_keeps {s0 s : State} {F : List Part} (hF : Within [.boot] F) {id : Nat} (h_s : s0.Keeps F s) :
    s0.Keeps F (State.spdmSeen s id) := by
  unfold State.spdmSeen
  apply State.modBoot_keeps (hF.le rfl)
  exact h_s

theorem execSpdmGetMeasurements_keeps {s0 : State} {F : List Part} (hF : Within [.out, .freeCtr, .boot] F) {session : Nat} {operation : Fin 256} {signed : Bool} {nonce : List Byte} {s : State} (h_s : s0.Keeps F s) :
    (Nxt (s0.Keeps F)) (execSpdmGetMeasurements session operation signed nonce s) := by
  unfold execSpdmGetMeasurements
  apply Nxt.next
  split
  · exact h_s
  · extract_lets +onlyGivenNames x3
    have h3 : s0.Keeps F x3 := by
      unfold x3
      apply State.spdmSeen_keeps (hF.le rfl)
      exact h_s
    clear_value x3
    extract_lets +onlyGivenNames x4
    clear_value x4
    split
    · apply State.emit_keeps (hF.le rfl)
      exact h3
    · extract_lets +onlyGivenNames x7 x8
      clear_value x7 x8
      split
      · apply State.emit_keeps (hF.le rfl)
        apply State.freeNext_keeps (hF.le rfl)
        exact h3
      · apply State.emit_keeps (hF.le rfl)
        exact h3

theorem execSpdmKeyExchange_keeps {s0 : State} {F : List Part} (hF : Within [.out, .freeCtr, .boot] F) {id : Nat} {mauth : Bool} {transport : Fin 3} {heartbeat : Nat} {s : State} (h_s : s0.Keeps F s) :
    (Nxt (s0.Keeps F)) (execSpdmKeyExchange id mauth transport heartbeat s) := by
  unfold execSpdmKeyExchange
  apply Nxt.next
  split
  · exact h_s
  · split
    · apply State.emit_keeps (hF.le rfl)
      exact h_s
    · extract_lets +onlyGivenNames x5
      clear_value x5
      apply State.emit_keeps (hF.le rfl)
      apply State.modBoot_keeps (hF.le rfl)
      apply State.freeNext_keeps (hF.le rfl)
      exact h_s

theorem execSpdmRequest_keeps {s0 : State} {F : List Part} (hF : Within [.dict, .out, .freeCtr, .boot, .glody] F) {session : Nat} {code : Fin 256} {payload : List Byte} {s : State} (h_s : s0.Keeps F s) :
    (Nxt (s0.Keeps F)) (execSpdmRequest session code payload s) := by
  unfold execSpdmRequest
  apply Nxt.next
  split
  · exact h_s
  · split
    · apply State.emit_keeps (hF.le rfl)
      exact h_s
    · extract_lets +onlyGivenNames x5
      have h5 : s0.Keeps F x5 := by
        unfold x5
        apply State.spdmSeen_keeps (hF.le rfl)
        exact h_s
      clear_value x5
      extract_lets +onlyGivenNames x6
      have h6 : s0.Keeps F x6 := by
        unfold x6
        split
        · apply State.spdmEnd_keeps (hF.le rfl)
          exact h5
        · exact h5
      clear_value x6
      apply State.emit_keeps (hF.le rfl)
      apply State.freeNext_keeps (hF.le rfl)
      exact h6

theorem execSpdmHeartbeatTimeout_keeps {s0 : State} {F : List Part} (hF : Within [.dict, .boot, .glody] F) {session : Nat} {s : State} (h_s : s0.Keeps F s) :
    (Nxt (s0.Keeps F)) (execSpdmHeartbeatTimeout session s) := by
  unfold execSpdmHeartbeatTimeout
  apply Nxt.next
  split
  · split
    · apply State.spdmEnd_keeps (hF.le rfl)
      exact h_s
    · exact h_s
  · exact h_s

theorem execMctpPacket_keeps {s0 : State} {F : List Part} (hF : Within [.dict, .power] F) {glody : Bool} {eid length : Nat} {s : State} (h_s : s0.Keeps F s) :
    (Nxt (s0.Keeps F)) (execMctpPacket glody eid length s) := by
  unfold execMctpPacket
  apply Nxt.next
  split
  · exact h_s
  · split
    · split
      · apply State.wakeHub_keeps (hF.le rfl)
        exact h_s
      · exact h_s
    · split
      · apply State.wakeHub_keeps (hF.le rfl)
        exact h_s
      · exact h_s

theorem execSetEndpointId_keeps {s0 : State} {F : List Part} (hF : Within [.out, .glody] F) {eid : Fin 256} {s : State} (h_s : s0.Keeps F s) :
    (Nxt (s0.Keeps F)) (execSetEndpointId eid s) := by
  unfold execSetEndpointId
  apply Nxt.next
  split
  · apply State.emit_keeps (hF.le rfl)
    apply State.modGlody_keeps (hF.le rfl)
    exact h_s
  · apply State.emit_keeps (hF.le rfl)
    exact h_s

theorem State.gError_keeps {s0 s : State} {F : List Part} (hF : Within [.dict, .glody] F) {op status seq src : Nat} (h_s : s0.Keeps F s) :
    s0.Keeps F (State.gError s op status seq src) := by
  unfold State.gError
  extract_lets +onlyGivenNames x1 x2
  clear_value x1 x2
  split
  · exact h_s
  · apply State.enqueue_keeps (hF.le rfl)
    apply State.modGlody_keeps (hF.le rfl)
    exact h_s

theorem State.lReply_keeps {s0 s : State} {F : List Part} (hF : Within [.dict, .glody] F) {op status seq src : Nat} {payload : List Byte} (h_s : s0.Keeps F s) :
    s0.Keeps F (State.lReply s op status seq src payload) := by
  unfold State.lReply
  apply State.enqueue_keeps (hF.le rfl)
  exact h_s

theorem execBegin_keeps {s0 : State} {F : List Part} (hF : Within [.dict, .boot, .glody] F) {source seq object length : Nat} {s : State} (h_s : s0.Keeps F s) :
    (Nxt (s0.Keeps F)) (execBegin source seq object length s) := by
  unfold execBegin
  apply Nxt.next
  split
  · exact h_s
  · split
    · apply State.lReply_keeps (hF.le rfl)
      exact h_s
    · split
      · apply State.lReply_keeps (hF.le rfl)
        exact h_s
      · split
        · apply State.lReply_keeps (hF.le rfl)
          exact h_s
        · split
          · apply State.lReply_keeps (hF.le rfl)
            exact h_s
          · extract_lets +onlyGivenNames x11
            clear_value x11
            apply State.lReply_keeps (hF.le rfl)
            apply State.modGlody_keeps (hF.le rfl)
            apply State.modBoot_keeps (hF.le rfl)
            exact h_s

theorem execData_keeps {s0 : State} {F : List Part} (hF : Within [.dict, .boot, .glody] F) {source seq offset : Nat} {bytes : List Byte} {s : State} (h_s : s0.Keeps F s) :
    (Nxt (s0.Keeps F)) (execData source seq offset bytes s) := by
  unfold execData
  apply Nxt.next
  split
  · exact h_s
  · extract_lets +onlyGivenNames x3
    clear_value x3
    split
    · apply State.lReply_keeps (hF.le rfl)
      exact h_s
    · split
      · apply State.lReply_keeps (hF.le rfl)
        exact h_s
      · extract_lets +onlyGivenNames x8
        have h8 : s0.Keeps F x8 := by
          unfold x8
          apply State.modGlody_keeps (hF.le rfl)
          exact h_s
        clear_value x8
        split
        · apply State.lReply_keeps (hF.le rfl)
          exact h8
        · split
          · extract_lets +onlyGivenNames x12
            clear_value x12
            apply State.lReply_keeps (hF.le rfl)
            apply State.modGlody_keeps (hF.le rfl)
            apply State.modBoot_keeps (hF.le rfl)
            exact h8
          · split
            · apply State.lReply_keeps (hF.le rfl)
              exact h8
            · apply State.lReply_keeps (hF.le rfl)
              exact h8

theorem execEnd_keeps {s0 : State} {F : List Part} (hF : Within [.dict, .hbm, .t0, .mem, .arb, .out, .now, .freeCtr, .own, .fac, .jobs, .reds, .shared, .queues, .ports, .svc, .reg, .stackTab, .media, .integ, .recov, .power, .boot, .glody] F) {source seq : Nat} {s : State} (h_s : s0.Keeps F s) :
    (Nxt (s0.Keeps F)) (execEnd source seq s) := by
  unfold execEnd
  apply Nxt.next
  split
  · exact h_s
  · split
    · apply State.lReply_keeps (hF.le rfl)
      exact h_s
    · split
      · apply State.lReply_keeps (hF.le rfl)
        exact h_s
      · extract_lets +onlyGivenNames x7
        clear_value x7
        extract_lets +onlyGivenNames x8
        have h8 : s0.Keeps F x8 := by
          unfold x8
          apply State.modGlody_keeps (hF.le rfl)
          exact h_s
        clear_value x8
        extract_lets +onlyGivenNames x9
        have h9 : s0.Keeps F x9 := by
          unfold x9
          apply State.lReply_keeps (hF.le rfl)
          exact h8
        clear_value x9
        split
        · apply State.restart_keeps (hF.le rfl)
          exact h9
        · exact h9

theorem execLoaderTransferTimeout_keeps {s0 s : State} {F : List Part} (hF : Within [.glody] F) (h_s : s0.Keeps F s) :
    (Nxt (s0.Keeps F)) (execLoaderTransferTimeout s) := by
  unfold execLoaderTransferTimeout
  apply Nxt.next
  split
  · apply State.modGlody_keeps (hF.le rfl)
    exact h_s
  · exact h_s

theorem State.protectedReq_keeps {s0 s : State} {F : List Part} (hF : Within [.dict, .boot, .glody] F) {r : Req} {op : Nat} {f : State → Nat × List Byte × State} (h_s : s0.Keeps F s) (h_f : ∀ a0, s0.Keeps F a0 → (Snd (Snd (s0.Keeps F))) (f a0)) :
    s0.Keeps F (State.protectedReq s r op f) := by
  unfold State.protectedReq
  split
  · apply State.count_keeps (hF.le rfl)
    exact h_s
  · extract_lets +onlyGivenNames x3 x4
    clear_value x3 x4
    split
    · apply State.count_keeps (hF.le rfl)
      exact h_s
    · extract_lets +onlyGivenNames x7
      have h7 : s0.Keeps F x7 := by
        unfold x7
        apply State.spdmSeen_keeps (hF.le rfl)
        exact h_s
      clear_value x7
      extract_lets +onlyGivenNames x8
      have h8 : ∀ a0 a1, s0.Keeps F a0 → s0.Keeps F (x8 a0 a1) := by
        unfold x8
        intro v9 v10 h11
        extract_lets +onlyGivenNames x12 x13
        clear_value x12 x13
        apply State.setPar_keeps (hF.le rfl)
        apply State.modGlody_keeps (hF.le rfl)
        exact h11
      clear_value x8
      split
      · split
        · apply State.enqueue_keeps (hF.le rfl)
          apply h8
          exact h7
        · split
          extract_lets +onlyGivenNames x23
          clear_value x23
          extract_lets +onlyGivenNames x24
          have h24 : s0.Keeps F x24 := by
            unfold x24
            apply State.enqueue_keeps (hF.le rfl)
            apply h8
            refine Snd.of_eq₂ ?_ (by assumption)
            apply h_f
            exact h7
          clear_value x24
          split
          · apply State.gClose_keeps (hF.le rfl)
            exact h24
          · exact h24
      · split
        extract_lets +onlyGivenNames x33
        clear_value x33
        extract_lets +onlyGivenNames x34
        have h34 : s0.Keeps F x34 := by
          unfold x34
          apply State.enqueue_keeps (hF.le rfl)
          apply h8
          refine Snd.of_eq₂ ?_ (by assumption)
          apply h_f
          exact h7
        clear_value x34
        split
        · apply State.gClose_keeps (hF.le rfl)
          exact h34
        · exact h34

theorem State.request_keeps {s0 s : State} {F : List Part} (hF : Within [.dict, .power, .boot, .glody] F) {r : Req} {op : Nat} {f : State → Nat × List Byte × State} (h_s : s0.Keeps F s) (h_f : ∀ a0, s0.Keeps F a0 → (Snd (Snd (s0.Keeps F))) (f a0)) :
    s0.Keeps F (State.request s r op f) := by
  unfold State.request
  split
  · apply State.gError_keeps (hF.le rfl)
    exact h_s
  · split
    · exact h_s
    · extract_lets +onlyGivenNames x5
      have h5 : ∀ a0, s0.Keeps F a0 → (Snd (Snd (s0.Keeps F))) (x5 a0) := by
        unfold x5
        intro v6 h7
        split
        · apply Snd.mk
          apply Snd.mk
          exact h7
        · apply h_f
          exact h7
      clear_value x5
      extract_lets +onlyGivenNames x10
      have h10 : s0.Keeps F x10 := by
        unfold x10
        apply State.wakeHub_keeps (hF.le rfl)
        exact h_s
      clear_value x10
      split
      · apply State.protectedReq_keeps (hF.le rfl)
        · exact h10
        · intro v12 h13
          apply h5
          exact h13
      · split
        · split
          apply State.enqueue_keeps (hF.le rfl)
          refine Snd.of_eq₂ ?_ (by assumption)
          apply h5
          exact h10
        · apply State.gError_keeps (hF.le rfl)
          exact h10

theorem State.gRead_keeps {s0 s : State} {F : List Part} (hF : Within [.dict] F) {items : List Nat} (h_s : s0.Keeps F s) :
    (Snd (Snd (s0.Keeps F))) (State.gRead s items) := by
  unfold State.gRead
  split
  · apply Snd.mk
    apply Snd.mk
    exact h_s
  · extract_lets +onlyGivenNames x3
    clear_value x3
    apply Snd.mk
    apply Snd.mk
    apply forAll_keeps
    · intro v4 v5 h6
      apply State.readClears_keeps (hF.le rfl)
      exact h6
    · exact h_s

theorem execGlodyRead_keeps {s0 : State} {F : List Part} (hF : Within [.dict, .power, .boot, .glody] F) {session seq : Nat} {tagOk : Bool} {src : Nat} {items : List (Fin 16777216)} {s : State} (h_s : s0.Keeps F s) :
    (Nxt (s0.Keeps F)) (execGlodyRead session seq tagOk src items s) := by
  unfold execGlodyRead
  apply Nxt.next
  apply State.request_keeps (hF.le rfl)
  · exact h_s
  · intro v1 h2
    apply State.gRead_keeps (hF.le rfl)
    exact h2

theorem State.applyItems_keeps {s0 s : State} {F : List Part} (hF : Within [.dict, .hbm, .t0, .mem, .arb, .out, .freeCtr, .own, .fac, .jobs, .reds, .shared, .queues, .ports, .svc, .reg, .stackTab, .media, .integ, .recov, .power, .boot, .glody] F) {ph : Phys} {x0 : List (Nat × Nat)} {x1 : Nat} (h_s : s0.Keeps F s) :
    (Exc (s0.Keeps F)) (State.applyItems s ph x0 x1) := by
  induction x0 generalizing s ph x1 with
  | nil =>
    unfold State.applyItems
    apply Exc.ok
    exact h_s
  | cons w l ih =>
    unfold State.applyItems
    split
    · apply Exc.error
    · apply ih
      refine Exc.of_eq ?_ (by assumption)
      apply State.applyWrite_keeps (hF.le rfl)
      exact h_s

theorem State.gWrite_keeps {s0 s : State} {F : List Part} (hF : Within [.dict, .hbm, .t0, .mem, .arb, .out, .freeCtr, .own, .fac, .jobs, .reds, .shared, .queues, .ports, .svc, .reg, .stackTab, .media, .integ, .recov, .power, .boot, .glody] F) {items : List (Nat × Nat)} {ph : Phys} (h_s : s0.Keeps F s) :
    (Snd (Snd (s0.Keeps F))) (State.gWrite s items ph) := by
  unfold State.gWrite
  extract_lets +onlyGivenNames x1
  have h1 : ∀ a0 a1, (Snd (Snd (s0.Keeps F))) (x1 a0 a1) := by
    unfold x1
    intro v2 v3
    apply Snd.mk
    apply Snd.mk
    exact h_s
  clear_value x1
  split
  · apply Snd.mk
    apply Snd.mk
    exact h_s
  · split
    · extract_lets +onlyGivenNames x10
      clear_value x10
      split
      apply Snd.mk
      apply Snd.mk
      apply State.badStart_keeps (hF.le rfl)
      refine Snd.of_eq₂ ?_ (by assumption)
      apply h1
    · split
      · apply h1
      · apply Snd.mk
        apply Snd.mk
        refine Exc.of_eq ?_ (by assumption)
        apply State.applyItems_keeps (hF.le rfl)
        exact h_s

theorem execGlodyWrite_keeps {s0 : State} {F : List Part} (hF : Within [.dict, .hbm, .t0, .mem, .arb, .out, .freeCtr, .own, .fac, .jobs, .reds, .shared, .queues, .ports, .svc, .reg, .stackTab, .media, .integ, .recov, .power, .boot, .glody] F) {session seq : Nat} {tagOk : Bool} {src : Nat} {items : List (Fin 16777216 × Nat)} {ph : Phys} {s : State} (h_s : s0.Keeps F s) :
    (Nxt (s0.Keeps F)) (execGlodyWrite session seq tagOk src items ph s) := by
  unfold execGlodyWrite
  apply Nxt.next
  apply State.request_keeps (hF.le rfl)
  · exact h_s
  · intro v1 h2
    apply State.gWrite_keeps (hF.le rfl)
    exact h2

theorem State.gReadDomain_keeps {s0 s : State} {F : List Part} (hF : Within [] F) {k off n : Nat} (h_s : s0.Keeps F s) :
    (Snd (Snd (s0.Keeps F))) (State.gReadDomain s k off n) := by
  unfold State.gReadDomain
  split
  · apply Snd.mk
    apply Snd.mk
    exact h_s
  · split
    · apply Snd.mk
      apply Snd.mk
      exact h_s
    · extract_lets +onlyGivenNames x5
      clear_value x5
      apply Snd.mk
      apply Snd.mk
      exact h_s

theorem execReadDomain_keeps {s0 : State} {F : List Part} (hF : Within [.dict, .power, .boot, .glody] F) {session seq : Nat} {tagOk : Bool} {src : Nat} {key : Fin 16777216} {offset length : Nat} {s : State} (h_s : s0.Keeps F s) :
    (Nxt (s0.Keeps F)) (execReadDomain session seq tagOk src key offset length s) := by
  unfold execReadDomain
  apply Nxt.next
  apply State.request_keeps (hF.le rfl)
  · exact h_s
  · intro v1 h2
    apply State.gReadDomain_keeps (hF.le rfl)
    exact h2

theorem State.gWriteDomain_keeps {s0 s : State} {F : List Part} (hF : Within [.dict, .boot] F) {k off : Nat} {d : List Byte} (h_s : s0.Keeps F s) :
    (Snd (Snd (s0.Keeps F))) (State.gWriteDomain s k off d) := by
  unfold State.gWriteDomain
  split
  · apply Snd.mk
    apply Snd.mk
    exact h_s
  · split
    · apply Snd.mk
      apply Snd.mk
      exact h_s
    · split
      · apply Snd.mk
        apply Snd.mk
        exact h_s
      · split
        · apply Snd.mk
          apply Snd.mk
          exact h_s
        · apply Snd.mk
          apply Snd.mk
          refine Exc.of_eq ?_ (by assumption)
          apply State.stageBytes_keeps (hF.le rfl)
          exact h_s

theorem execWriteDomain_keeps {s0 : State} {F : List Part} (hF : Within [.dict, .power, .boot, .glody] F) {session seq : Nat} {tagOk : Bool} {src : Nat} {key : Fin 16777216} {offset : Nat} {bytes : List Byte} {s : State} (h_s : s0.Keeps F s) :
    (Nxt (s0.Keeps F)) (execWriteDomain session seq tagOk src key offset bytes s) := by
  unfold execWriteDomain
  apply Nxt.next
  apply State.request_keeps (hF.le rfl)
  · exact h_s
  · intro v1 h2
    apply State.gWriteDomain_keeps (hF.le rfl)
    exact h2

theorem State.gDc_keeps {s0 s : State} {F : List Part} (hF : Within [.dict, .t0, .mem, .out, .jobs, .shared, .ports, .svc, .glody] F) {add : Bool} {port count dpa : Nat} (h_s : s0.Keeps F s) :
    (Snd (Snd (s0.Keeps F))) (State.gDc s add port count dpa) := by
  unfold State.gDc
  split
  · apply Snd.mk
    apply Snd.mk
    exact h_s
  · split
    split
    · apply Snd.mk
      apply Snd.mk
      refine Snd.of_eq ?_ (by assumption)
      split
      · apply State.dcAdd_keeps (hF.le rfl)
        exact h_s
      · apply State.dcRelease_keeps (hF.le rfl)
        exact h_s
    · apply Snd.mk
      apply Snd.mk
      exact h_s

theorem execDcAdd_keeps {s0 : State} {F : List Part} (hF : Within [.dict, .t0, .mem, .out, .jobs, .shared, .ports, .svc, .power, .boot, .glody] F) {session seq : Nat} {tagOk : Bool} {src : Nat} {port : Fin 16} {half : Fin 2} {ld : Fin 16} {count dpa : Nat} {s : State} (h_s : s0.Keeps F s) :
    (Nxt (s0.Keeps F)) (execDcAdd session seq tagOk src port half ld count dpa s) := by
  unfold execDcAdd
  apply Nxt.next
  apply State.request_keeps (hF.le rfl)
  · exact h_s
  · intro v1 h2
    apply State.gDc_keeps (hF.le rfl)
    exact h2

theorem execDcRelease_keeps {s0 : State} {F : List Part} (hF : Within [.dict, .t0, .mem, .out, .jobs, .shared, .ports, .svc, .power, .boot, .glody] F) {session seq : Nat} {tagOk : Bool} {src : Nat} {port : Fin 16} {half : Fin 2} {ld : Fin 16} {count dpa : Nat} {s : State} (h_s : s0.Keeps F s) :
    (Nxt (s0.Keeps F)) (execDcRelease session seq tagOk src port half ld count dpa s) := by
  unfold execDcRelease
  apply Nxt.next
  apply State.request_keeps (hF.le rfl)
  · exact h_s
  · intro v1 h2
    apply State.gDc_keeps (hF.le rfl)
    exact h2

theorem execKeepalive_keeps {s0 : State} {F : List Part} (hF : Within [.dict, .power, .boot, .glody] F) {session seq : Nat} {tagOk : Bool} {src : Nat} {s : State} (h_s : s0.Keeps F s) :
    (Nxt (s0.Keeps F)) (execKeepalive session seq tagOk src s) := by
  unfold execKeepalive
  apply Nxt.next
  apply State.request_keeps (hF.le rfl)
  · exact h_s
  · intro v1 h2
    apply Snd.mk
    apply Snd.mk
    exact h2

theorem execClose_keeps {s0 : State} {F : List Part} (hF : Within [.dict, .power, .boot, .glody] F) {session seq : Nat} {tagOk : Bool} {src : Nat} {s : State} (h_s : s0.Keeps F s) :
    (Nxt (s0.Keeps F)) (execClose session seq tagOk src s) := by
  unfold execClose
  extract_lets +onlyGivenNames x1
  clear_value x1
  extract_lets +onlyGivenNames x2
  have h2 : s0.Keeps F x2 := by
    unfold x2
    apply State.request_keeps (hF.le rfl)
    · exact h_s
    · intro v3 h4
      apply Snd.mk
      apply Snd.mk
      exact h4
  clear_value x2
  extract_lets +onlyGivenNames x5
  clear_value x5
  apply Nxt.next
  split
  · apply State.gClose_keeps (hF.le rfl)
    exact h2
  · exact h2

theorem execGlodySessionIdleExpiry_keeps {s0 : State} {F : List Part} (hF : Within [.dict, .glody] F) {session : Nat} {s : State} (h_s : s0.Keeps F s) :
    (Nxt (s0.Keeps F)) (execGlodySessionIdleExpiry session s) := by
  unfold execGlodySessionIdleExpiry
  apply Nxt.next
  split
  · split
    · apply State.gClose_keeps (hF.le rfl)
      exact h_s
    · exact h_s
  · exact h_s

theorem execGlodyDatagramDrop_keeps {s0 : State} {F : List Part} (hF : Within [.dict, .power, .boot, .glody] F) {kind : Fin 4} {session seq : Nat} {op : Fin 256} {src : Nat} {s : State} (h_s : s0.Keeps F s) :
    (Nxt (s0.Keeps F)) (execGlodyDatagramDrop kind session seq op src s) := by
  unfold execGlodyDatagramDrop
  apply Nxt.next
  split
  · apply State.request_keeps (hF.le rfl)
    · exact h_s
    · intro v3 h4
      apply Snd.mk
      apply Snd.mk
      exact h4
  · split
    · exact h_s
    · apply State.request_keeps (hF.le rfl)
      · exact h_s
      · intro v9 h10
        apply Snd.mk
        apply Snd.mk
        exact h10
  · split
    · exact h_s
    · apply State.request_keeps (hF.le rfl)
      · exact h_s
      · intro v15 h16
        apply Snd.mk
        apply Snd.mk
        exact h16
  · exact h_s

theorem execNoticeRepeat_keeps {s0 s : State} {F : List Part} (hF : Within [.dict, .glody] F) (h_s : s0.Keeps F s) :
    (Nxt (s0.Keeps F)) (execNoticeRepeat s) := by
  unfold execNoticeRepeat
  apply Nxt.next
  split
  · split
    · apply State.enqueue_keeps (hF.le rfl)
      apply State.modGlody_keeps (hF.le rfl)
      exact h_s
    · exact h_s
  · exact h_s

theorem execGlodyTransmit_keeps {s0 s : State} {F : List Part} (hF : Within [.out, .freeCtr, .glody] F) (h_s : s0.Keeps F s) :
    (Nxt (s0.Keeps F)) (execGlodyTransmit s) := by
  unfold execGlodyTransmit
  apply Nxt.next
  split
  · exact h_s
  · extract_lets +onlyGivenNames x6
    have h6 : s0.Keeps F x6 := by
      unfold x6
      apply State.modGlody_keeps (hF.le rfl)
      exact h_s
    clear_value x6
    split
    · apply State.emit_keeps (hF.le rfl)
      apply State.freeNext_keeps (hF.le rfl)
      exact h6
    · apply State.emit_keeps (hF.le rfl)
      exact h6

theorem execAnnounce_keeps {s0 s : State} {F : List Part} (hF : Within [.dict, .glody] F) (h_s : s0.Keeps F s) :
    (Nxt (s0.Keeps F)) (execAnnounce s) := by
  unfold execAnnounce
  extract_lets +onlyGivenNames x1
  clear_value x1
  apply Nxt.next
  split
  · apply State.enqueue_keeps (hF.le rfl)
    apply State.modGlody_keeps (hF.le rfl)
    exact h_s
  · exact h_s

theorem execPlcaBeacon_keeps {s0 s : State} {F : List Part} (hF : Within [.out] F) (h_s : s0.Keeps F s) :
    (Nxt (s0.Keeps F)) (execPlcaBeacon s) := by
  unfold execPlcaBeacon
  apply Nxt.next
  split
  · apply State.emit_keeps (hF.le rfl)
    exact h_s
  · exact h_s

theorem execPlcaBeaconStatusChange_keeps {s0 : State} {F : List Part} (hF : Within [.glody] F) {present : Bool} {s : State} (h_s : s0.Keeps F s) :
    (Nxt (s0.Keeps F)) (execPlcaBeaconStatusChange present s) := by
  unfold execPlcaBeaconStatusChange
  apply Nxt.next
  split
  · exact h_s
  · apply State.modGlody_keeps (hF.le rfl)
    exact h_s

theorem execNeighborSolicitation_keeps {s0 : State} {F : List Part} (hF : Within [.out] F) {target : Nat} {s : State} (h_s : s0.Keeps F s) :
    (Nxt (s0.Keeps F)) (execNeighborSolicitation target s) := by
  unfold execNeighborSolicitation
  apply Nxt.next
  split
  · apply State.emit_keeps (hF.le rfl)
    exact h_s
  · exact h_s

theorem execI3cDynamicAddressAssignment_keeps {s0 : State} {F : List Part} (hF : Within [.out, .glody] F) {address : Fin 128} {s : State} (h_s : s0.Keeps F s) :
    (Nxt (s0.Keeps F)) (execI3cDynamicAddressAssignment address s) := by
  unfold execI3cDynamicAddressAssignment
  apply Nxt.next
  split
  · exact h_s
  · extract_lets +onlyGivenNames x3
    clear_value x3
    apply State.emit_keeps (hF.le rfl)
    apply State.modGlody_keeps (hF.le rfl)
    exact h_s

end Sys2Proof.Machine
end

