-- ==== Sys2Proof/Laws/KeepsIdle.lean ====
section
/-! SUPPORT. Every effect of Machine/Idle.lean leaves the queue alone, keeps the canonical form and writes only the parts named. -/
namespace Sys2Proof.Machine

theorem State.tick_keeps {s0 s : State} {F : List Part} (hF : Within [.dict, .mem, .out, .now, .own, .jobs, .reds, .queues, .ports, .svc, .glody] F) (h_s : s0.Keeps F s) :
    s0.Keeps F (State.tick s) := by
  unfold State.tick
  extract_lets +onlyGivenNames x1
  have h1 : s0.Keeps F x1 := by
    unfold x1
    apply State.winSettle_keeps (hF.le rfl)
    refine State.Keeps.congr (s := s) (D := [.now]) (hF.le rfl) ?_ rfl rfl rfl rfl (by rintro ⟨⟩ <;> (first | exact .inr rfl | simp))
    exact h_s
  clear_value x1
  split
  · apply State.perstUp_keeps (hF.le rfl)
    exact h1
  · exact h1

end Sys2Proof.Machine
end

