-- ==== Sys2Proof/Tests/States.lean ====
section
/-! SUPPORT. Small states for the tests. -/
namespace Sys2Proof.Tests
open Sys2Proof Sys2Proof.Machine

/-- Dictionary entries written over a powered device whose service link decodes BAR0. -/
def st (ps : List (Nat × Nat)) : State :=
  ps.foldl (fun s p => s.setPar p.1 p.2) { State.reset with svc := { State.reset.svc with mse := true, perstOff := false } }

/-- In STANDBY, in SERVICE. -/
def standby (ps : List (Nat × Nat)) : State := st ([(P.bootPhase, 6), (P.devState, 1)] ++ ps)
def service (ps : List (Nat × Nat)) : State := st ([(P.bootPhase, 6), (P.devState, 2)] ++ ps)

def partPs (kind : Nat) : List (Nat × Nat) :=
  [(P.partBase 0, 0), (P.partSize 0, 2 ^ 21), (P.partKind 0, kind), (P.partOwnerHid 0, 5)]
def onPart (s : State) : State := s.modPart 0 (fun r => { r with inForce := true })
def wPart : State := standby (partPs 1)
def wPartOn : State := onPart (service (partPs 1))
def wPartIdle : State := onPart (standby (partPs 1))
def wPartGoing : State := (service (partPs 1)).modPart 0 (fun r => { r with releasing := true, relSize := 2 ^ 21 })
def winPs (kind : Nat) : List (Nat × Nat) :=
  partPs 1 ++ [(P.winBase 0, 0), (P.winSize 0, 2 ^ 21), (P.winKind 0, kind), (P.winPartition 0, 0)]
def wWin : State := onPart (service (winPs wTransparent))
def wWinOn : State := onPart (service (winPs wTransparent ++ [(P.winState 0, 1)]))
def wUp : State := service []
def wFenced : State := onPart (service (partPs 1 ++ [(P.partFence 0, 1), (P.partStackSet 0, 1)]))

/-- HID 5 may read and write window 0 of a given kind through LD 0 of link 0, whose decoder 0 passes addresses on as they are. -/
def wLink (kind : Nat) : State :=
  let s := onPart (service (winPs kind ++ [(P.winState 0, 1), (hidKey 0, 5), (P.ownWord 0 1, 2 ^ 63), (P.ownWord 0 2, 3), (P.ownWord 0 3, 32)]))
  { s with
    ports := { s.ports with
      link := [(0, { (default : LinkRec) with st := 3, lds := 16 })]
      ld := [(0, { (default : LdRec) with hdm := [(0, { (default : HdmDec) with base := 0, size := 2 ^ 43, gran := 4096, ways := 1, on := true })] })] }
    reg := { s.reg with masters := [(0, { (default : MasterRec) with shared := [(0, 8192), (1, 8192), (2, 8192), (3, 8192)] })] } }
/-- Every credit of link 0's request channels is taken. -/
def wSpent : State := (wLink 0x10).setLink 0 (fun l => { l with granted := [], occ := [(0, 1), (1, 1)] })
def wHold : State :=
  (wLink 0x10).modMaster 0 (fun m => { m with hold := [{ port := 0, dpa := 0x1040, write := false, data := [], mask := 0, bad := false, want := 0, gated := true, since := 0, promoted := false }] })
def wGather : State := { (wLink wTransparent).modMem (fun m => { m with gather := [(1, default)] }) with now := 10 ^ 6 }
def wComp : State :=
  (wLink wTransparent).modFac (fun f => { f with compWait := [{ dpa := 0x1040, data := [], mask := 0, bad := false, port := 0, hid := 5, since := 0 }] })
def wDetRead : State := (wLink wTransparent).modMem (fun m => { m with detReads := [{ blk := 1, dpa := 4096, port := 0, hid := 5 }] })


def descPs : List (Nat × Nat) :=
  [(P.descWord 0 0, 2 ^ 44), (P.descWord 0 1, 2 ^ 32 + 1), (P.descWord 0 2, 100 * 2 ^ 32 + 200), (P.descWord 0 3, 300 * 2 ^ 32 + 400),
   (P.descWord 0 4, 500 * 2 ^ 32 + 600)]
def wDesc : State := service descPs
def wDescOn : State := service (descPs ++ [(P.descState 0, 1)])

/-! Stored blocks: block 1 of window 0, kept as the model stores it. -/
def roomy (s : State) : State := [0, 1, 2, 3].foldl (fun s q => (s.setPar (P.capFree q) 9000000).setPar (P.capTotal q) 9000000) s
def store (s : State) (f : Form) : State := (s.commitForm .main 1 f [] false).getD s
def wT : State := roomy wWinOn
def packJob : PackJob :=
  { orig := zeros 4096, codec := cZero, coded := [], state := stPacked, lane := 0, win := 0, fenced := false, port := 512, hid := 5 }
def wPack : State := wT.modMem (fun m => { m with packJobs := [(1, packJob)] })
/-- Block 1 holds the entry of a FLAT or a RAW block at sector 256 of stack 4, its frame in use; all its bytes 0. -/
def put (s : State) (state codec len : Nat) : State :=
  let w := entryWord (({ ver := 1, keySlot := 0, addr := 2 ^ 34 + 256, len := len, codec := codec, state := state, check := 0 } : MapEntry).sealed 0)
  s.modMem (fun m => { m with
    mapPri := [(1, w)], mapMir := [(1, w)]
    frames := [(frameOf (2 ^ 34 + 256), { st := fUsed, mask := 2 ^ len - 1, part := 1, copy := false })] })
def wMirror : State := (put wT stPacked cRaw 1).modMem (fun m => { m with partner := [(2 ^ 34 + 256, 321)] })
def wPromote : State := (store wT zeroForm).modMem (fun m => { m with promoQ := [(0, [1])], parcels := [(0, 255)] })
def wCold : State := put wT stFlat 0 16
def coldBytes : List Byte :=
  wCold.plainAt 1 (entryOf (wCold.wordIn .main 1)) (entryOf (wCold.wordIn .main 1)).addr
def wMover : State := wCold.modMem (fun m => { m with mover := [(1, [(wCold.wordIn .main 1, coldBytes)])] })
def wSparse : State := put wT stPacked 2 1
def wSpill : State :=
  store ([(P.partKind 0, 2), (P.partPolicy 0, 1), (P.capPressure 0, 1), (P.capPressure 1, 1), (P.capPressure 2, 1), (P.capPressure 3, 1), (P.detState, 1), (P.detFree, 4), (P.detSlots, 4)].foldl
    (fun s p => s.setPar p.1 p.2) wT) zeroForm
def wDetour : State := (service [(P.detState, 1)]).sv (fun v => { v with flr := true })
def cmdOf (op mode : Nat) : Cmd :=
  { idx := 0, entry := leBytes 8 (op + mode * 2 ^ 32) ++ zeros 56, phase := 1, status := 0, result := 0, flags := 0 }
/-- Queue 0 of HID 5, RUNNING, with one started command. -/
def onQueue (s : State) (c : Cmd) : State :=
  ((s.setPar (P.grpHid 0) 5).setPar (P.qState 0) 1).modQ 0 (fun r => { r with cmds := [c] })
def ownPs : List (Nat × Nat) := [(P.ownWord 0 1, 2 ^ 63), (P.ownWord 0 2, 15), (P.ownWord 0 3, 32)]
def facPs (kind : Nat) : List (Nat × Nat) :=
  winPs kind ++ descPs ++ ownPs ++ [(P.winState 0, 1), (P.winDescriptor 0, 0), (P.winSize 0, 2 ^ 22), (P.partSize 0, 2 ^ 22),
    (P.ownWord 0 1, 2 ^ 63 + 2 ^ 21), (P.descState 0, 1), (P.descGen 0, 1)]
def wFactorCmd (mode : Nat) : State := onQueue (roomy (onPart (service (facPs wFactoring)))) (cmdOf 0x08 mode)
def wSwitch : State :=
  (roomy (onPart (service (facPs wFactoring)))).modFac (fun f => { f with runs := [(0, { (default : FactorRun) with on := true })] })
def wLower : State :=
  roomy (onPart (service (facPs wFactor ++ [(P.partKind 0, 2), (P.partPolicy 0, 2), (P.capPressure 0, 1), (P.descWord 0 0, 2 ^ 44 + 2 * 2 ^ 55)])))
def wPipe : State := wUp.modFac (fun f => { f with pipes := [(0, [default])] })

theorem pad_zeros (n : Nat) : padTo n (zeros n) = zeros n := by simp [padTo, zeros]
theorem packJob_checks : Form.checks { state := packJob.state, codec := packJob.codec, bytes := packJob.coded }
    (wPack.streamWb packJob.win 1) packJob.orig = true := by
  show (zeros 4096 == padTo 4096 (zeros 4096)) = true
  rw [pad_zeros]
  exact beq_self_eq_true _

/-- A ZERO block reads as zeros. -/
theorem read_zero {s : State} {b wb hid : Nat} {ph : Phys} {port : Option Nat} (h1 : ph.mapPri = [])
    (h : (mapCheckOk (s.wordIn .main b) (s.hdrAt b (entryOf (s.wordIn .main b))) && (entryOf (s.wordIn .main b)).fieldsOk (s.placeKind b) &&
      (entryOf (s.wordIn .main b)).state == stPacked && (entryOf (s.wordIn .main b)).codec == cZero &&
      s.spanOk b (entryOf (s.wordIn .main b))) = true) :
    (s.readBlock .main b wb ph port hid).1 = some (zeros 4096, []) := by
  simp only [Bool.and_eq_true, beq_iff_eq] at h
  obtain ⟨⟨⟨⟨a, f⟩, st⟩, c⟩, sp⟩ := h
  have l : (List.map (fun _ => zeros 64) (List.range 64)).flatten = zeros 4096 := by
    simp only [zeros, List.map_const', List.length_range, List.flatten_replicate_replicate]
  unfold State.readBlock
  generalize List.range 64 = r at l ⊢
  have m := l
  simp only [List.map_const'] at m
  simp [State.readEntry, State.readLinesAt, State.fetchLines, h1, a, f, st, c, sp, l, m, stPacked, stUnwritten, stPoison, stDetour, stFlat]

theorem cold_plain : (wMover.modMem (fun m => { m with mover := Tab.set 1 [] m.mover })).plainAt 1
    (entryOf (wCold.wordIn .main 1)) (entryOf (wCold.wordIn .main 1)).addr = coldBytes := by
  have p : ∀ (f : Mem → Tab (List (MapWord × List Byte))) (s : State) (e : MapEntry) (a : Nat),
      (s.modMem (fun m => { m with mover := f m })).plainAt 1 e a = s.plainAt 1 e a := fun _ _ _ _ => rfl
  rw [p, wMover, p (fun _ => [(1, [(wCold.wordIn .main 1, coldBytes)])])]
  rfl

/-- Block 1 lies in slot 2 of the detour area, its content zeros. -/
def wRecall : State :=
  let w := entryWord (({ ver := 1, keySlot := 0, addr := 2, len := 16, codec := cRaw, state := stDetour, check := 0 } : MapEntry).sealed 0)
  (([(P.detState, 1), (P.detSlots, 4)].foldl (fun s p => s.setPar p.1 p.2) wT)).modMem (fun m => { m with
    mapPri := [(1, w)], mapMir := [(1, w)], parcels := [(0, 255)], slotDir := [(2, Config.crc32 (zeros 4096) % 2 ^ 32)] })
theorem get_one (k x : Nat) : Tab.get k [(k, x)] = x := by simp [Tab.get, Tab.getD, Tab.find?]
theorem slot_reads {s : State} {b slot : Nat} {ph : Phys} {host : HostData} (h : s.encSlot b = none)
    (hc : Tab.get slot s.mem.slotDir = Config.crc32 (zeros 4096) % 2 ^ 32) :
    s.slotData b slot { ph := ph, host := host, slots := [(slot, .data (zeros 4096))] } = some (some (zeros 4096)) := by
  simp [State.slotData, State.decBlock, h, pad_zeros, hc]
theorem recall_slot : ((wRecall.moverGrant 1).svcPut { who := 2, read := true, addr := (wRecall.moverGrant 1).slotAddr (entryOf (wRecall.wordIn .main 1)).addr, len := 4096, data := [], bad := [], tok := (entryOf (wRecall.wordIn .main 1)).addr, since := 0 }).slotData 1
    (entryOf (wRecall.wordIn .main 1)).addr { ph := noPhys, host := .failed, slots := [((entryOf (wRecall.wordIn .main 1)).addr, .data (zeros 4096))] } =
    some (some (zeros 4096)) :=
  slot_reads (by decide +kernel) (by rw [show (entryOf (wRecall.wordIn .main 1)).addr = 2 by decide +kernel]; exact get_one 2 _)

/-! Shared regions, contracts, queues. -/
def srPs (mode : Nat) : List (Nat × Nat) := partPs 1 ++ [(P.partOwnerHid 0, 0xFFFF), (P.partShareMode 0, mode), (P.srBase 0, 0), (P.srSize 0, 2 ^ 21)]
def wSr : State := onPart (standby (srPs 1))
def wSrOn : State := (onPart (standby (srPs 1))).modSr 0 (fun r => { r with on := true })
def wContract : State := service [(P.rcMaster 0, 2 ^ 14), (P.rcStackSet 0, 0), (P.rcMin 0, 0), (P.rcWeight 0, 1), (P.rcBurst 0, 16)]
def wBoundary : State :=
  { (service [(P.rcState 0, 1), (P.rcWeight 0, 1), (P.rcBurst 0, 16)]).modCon 0 (fun r => { r with bucket := 10 ^ 6 }) with now := 100 }
def wQueue : State := (service [(P.grpHid 0, 5), (P.qCfg 0, 15), (P.qState 0, 1)]).modQ 0 (fun r => { r with phase := true })
def wFetch : State := { wQueue.modQ 0 (fun r => { r with tail := 1 }) with svc := { wQueue.svc with bme := true, dl := true } }
def wFetchDev : State :=
  (onPart (service (winPs wT0 ++ ownPs ++ [(P.winState 0, 1), (P.grpHid 0, 5), (P.qCfg 0, 2 ^ 16 + 15), (P.qState 0, 1)]))).modQ 0
    (fun r => { r with tail := 1 })
def wPost : State :=
  let s := onQueue wQueue { cmdOf 0x01 0 with phase := 3 }
  { s with svc := { s.svc with bme := true, dl := true } }
def wCoal : State := { (wQueue.setPar (P.qCfg 0) (15 + 2 ^ 56)).modQ 0 (fun r => { r with unsig := 1 }) with now := 10 ^ 6 }

/-! Queue commands. -/
def cmdArgs (op mode : Nat) (ds : List Nat) : Cmd :=
  { cmdOf op mode with entry := padTo 64 (leBytes 8 (op + mode * 2 ^ 32) ++ (ds.map (leBytes 8)).flatten) }
def wMove (c : Cmd) : State := onQueue (onPart (service (winPs wT0 ++ ownPs ++ [(P.winState 0, 1)]))) c
def wPackCmd (c : Cmd) : State := onQueue (roomy (onPart (service (winPs wTransparent ++ ownPs ++ [(P.winState 0, 1)])))) c
/-- OPT_STEP of 16 elements by kernel: FP32, gradient in host memory; `r` is rank and rows. -/
def stepCmd (kern r : Nat) : Cmd :=
  let v := if kern = 1 ∨ kern = 3 then 1 else 0
  cmdArgs 0x10 kern [1, 2 ^ 31 + 2 ^ 33 + 2 ^ 36 + v * 2 ^ 39 + 2 ^ 42 + 7 * 2 ^ 45 + r * 2 ^ 48, 1, v * 3 * 2 ^ 32 + r * 4, 2, 0, r * 2 ^ 37 + 16]
def wStep (c : Cmd) : State := wPackCmd c
def wJob (mode : Nat) (c : Cmd) : State := onQueue (service [(P.jobStatus 0, mode)]) c
def redCmd : Cmd := cmdArgs 0x14 0 [2 ^ 8 + 2 ^ 19 + 2 ^ 22 + 2 ^ 38 + 2 ^ 47, 16, 0, 4096]
def wRedOpen : State := (wMove redCmd).modMem (fun m => { m with t0 := [(0, 32)] })
def redRec (dest : Nat) : RedRec :=
  { (default : RedRec) with src := 0, inFmt := 1, outFmt := 1, count := 16, bitmap := 32, perHid := 1, depth := 1, dest := dest, hid := 5 }
def wRed (c : Cmd) : State := ((wMove c).modRed 0 (fun _ => redRec 4097)).setPar (P.redState 0) 1
/-- Reduction 0 with a complete tile. -/
def wRedTile (dest : Nat) : State :=
  (wRed (cmdOf 0 0)).modRed 0 (fun _ => { redRec dest with tiles := [(0, { (default : RedTile) with counts := [(5, 1)] })] })
def wFrozen (c : Cmd) : State := (wMove c).modFreeze 0 (fun f => { f with on := true, ranges := [(0, 4096)], keySlot := 0xFFFF })
def wDrain (c : Cmd) : State := { wFrozen c with svc := { (wFrozen c).svc with bme := true, dl := true } }
/-- Waypoint 0, T0, STAGING over tile 0 of descriptor 0. -/
def wStaging : State :=
  roomy (onPart (service (facPs wFactor ++ [(P.wpWord 0 3, 2 ^ 47 + 2 * 2 ^ 44), (P.wpWord 0 4, 2 ^ 32)])))

/-! Versions, leases, coherent lines, retirement. -/
def wSrv (mode : Nat) (f : SrRec → SrRec) (c : Cmd) : State :=
  onQueue ((onPart (service (srPs mode ++ ownPs ++ [(P.srLatest 0, 1), (P.srLive 0, 1), (P.srLeaseEnable 0, 1), (P.srLeaseMs 0, 100)]))).modSr 0
    (fun _ => f { (default : SrRec) with on := true, versions := [{ num := 1, map := [] }] })) c
def openBy (r : SrRec) : SrRec := { r with opens := [{ hid := 5, base := 1, own := [], broken := false }] }
def wSnoop (again : Bool) : State :=
  let s := onPart (service (srPs 2 ++ [(hidKey 0, 5)]))
  { s with
    now := 10 ^ 9
    shared := { s.shared with snoops := [{ line := 1, hid := 5, inv := true, since := 0, again := again }] }
    ports := { s.ports with link := [(0, { (default : LinkRec) with st := 3, lds := 16 })] } }

/-! Checks, rounds, engines, recovery. -/
def flag1 (w : Work) (ran : Bool) : FlagRec := { (default : FlagRec) with blk := 0, check := 1, work := w, a1 := 1, ran := ran }
def wFlag (w : Work) : State := wUp.modInteg (fun i => { i with flags := [flag1 w true] })
/-- A FACTOR of descriptor 0 is under way. -/
def wRun : State := wUp.modFac (fun f => { f with runs := [(0, { (default : FactorRun) with on := true })] })
def run0 (cmd : Nat) : DiceRun := { blk := 0, partner := 16, seed := 7, cmd := cmd, start := 0 }
def wRound : State := wUp.modInteg (fun i => { i with dice := [(0, run0 0)] })
/-- Compute block 0 runs a work tile. -/
def wBusy : State := wUp.setCtx 0 { (default : Ctx) with kind := 1 }
def eng1 (trigger : Nat) (suspects : List Nat) (searching : Bool) : EngReset :=
  { start := 0, trigger := trigger, hang := 1, sig := 1, suspects := suspects, searching := searching, replay := 1 }
def wEng (unit : Nat) (e : EngReset) : State := (wUp.modRecov (fun r => { r with eng := [(unit, e)] }))
def wRegion : State := { (wUp.modRecov (fun r => { r with region := [(0, 0)] })) with now := 10 ^ 9 }
def wSafe : State := { (service [(P.devState, 3), (P.devSafeCause, 2 ^ 56), (P.devSafeAutoMs, 1)]) with now := 10 ^ 9 }
def wWarm (phase : Nat) : State := standby [(P.devResetPhase, phase)]
def wDue : State := wUp.modRecov (fun r => { r with safeDue := 1 })

/-! Media and stacks. -/
def wScrub : State :=
  wUp.modMedia (fun m => { m with scrubRead := [(0, { line := dataLines, data := zeros 64, cancelled := false })] })
def wStack (st : Nat) : State := service [(P.mcSrState 0, st)]
def wDying : State := wUp.modStack 0 (fun r => { r with dying := true })
def wHot : State := { (wUp.modStack 0 (fun r => { r with holdAt := 1 })) with now := 10 ^ 12 }
def wOpenBank : State := { (wUp.modBank 0 (bankKey 0 0) (fun b => { b with row := some 3, used := 0 })) with now := 10 ^ 9 }
def wStarved : State := { wUp with
  now := 10 ^ 9
  recov := { wUp.recov with held := [{ port := 0, dpa := 0, write := false, data := [], mask := 0, bad := false, want := 0, gated := false, since := 0, promoted := false }] } }
def wRt : State :=
  service [(P.rcState 0, 1), (P.rcMaster 0, 2 ^ 15), (P.mcPanicState 0, 0)]

/-! Links, logical devices, mailboxes. -/
def wLk (r : LinkRec) : State := { wUp with ports := { wUp.ports with link := [(0, r)] } }
def upLink : LinkRec := { (default : LinkRec) with st := 3, lds := 16, rate := 2, dc := true }
/-- LD 0 of link 0 is bound to HID 5. -/
def wLd (f : LdRec → LdRec) : State := ((wLink wTransparent).setLink 0 (fun _ => upLink)).modLd 0 f
def event1 : EventRec := { (default : EventRec) with log := 0, handle := 1 }
/-- In T0 a LD may write. -/
def wLdT0 : State := ((wLink wT0).setLink 0 (fun _ => { upLink with dc := false }))

/-! The service function. -/
def wSvc (f : Svc → Svc) : State := { wUp with svc := f { wUp.svc with dl := true, inReset := false, bme := true } }
def svcRead : SvcReq := { who := 2, read := true, addr := 0, len := 64, data := [], bad := [], tok := 0, since := 0 }

/-! Boot, management, power. -/
def wBoot (phase : Nat) : State :=
  { (st [(P.bootPhase, phase)]) with power := { State.reset.power with applied := true, refHold := false } }
def sess (mauth : Bool) : Session := { id := 7, mauth := mauth, transport := 1, beat := 1, seen := 0 }
/-- The SPDM responder runs and session 7 is open. -/
def wSpdm : State := { { wUp with boot := { wUp.boot with aliasKey := true, sessions := [sess true] } } with now := 10 ^ 9, power := { wUp.power with applied := true } }
def wLoad (l : Loader) : State := { { wBoot 8 with boot := { (wBoot 8).boot with recovery := true } } with now := 10 ^ 12, glody := { State.reset.glody with loader := l } }
def loader0 : Loader := { busy := true, source := 1, object := 3, length := 100, next := 0, prev := 0, used := 0 }
def wPowered : State := { wUp with now := 10 ^ 13, power := { wUp.power with applied := true } }
def wFit : State := wPowered.setPar P.pwrDefaultTolNs (10 ^ 9)
def gs : GSession := { id := 7, last := 1, reply := gReply 2 7 0 7 1 1 [], used := 0 }
/-- A Glody session on SPDM session 7. -/
def wGlody : State := { (wSpdm.setPar P.glodyEnable 1) with glody := { wSpdm.glody with sessions := [gs] } }
/-- LD 0 reaches a COHERENT shared region whose directory is empty. -/
def wStray : State :=
  let s := ((srPs 2).foldl (fun s p => s.setPar p.1 p.2) (wLink wTransparent)).modSr 0 (fun _ => { (default : SrRec) with on := true })
  { s with ports := { s.ports with link := s.ports.link.map (fun p => (p.1, { p.2 with hdmDb := true })) } }

end Sys2Proof.Tests
end

