-- ==== Sys2Proof/Tests/Met.lean ====
section
/-! SUPPORT. For every clause of an obligation with premises, values that meet them all together. -/
namespace Sys2Proof.Tests
open Sys2Proof Sys2Proof.Machine

set_option linter.unusedVariables false
set_option Elab.async false

theorem met_StepRunsFront :
    ∃ (c : Instr) (rest : List Instr) (s : State), s.pending = c :: rest := ⟨.svcFlrComplete, [], { State.reset with pending := [.svcFlrComplete] }, rfl⟩

theorem met_StepIdles :
    ∃ (s : State), s.pending = [] ∧ s.own.leaving = [] := ⟨State.reset, rfl, rfl⟩

theorem met_StepKeepsCanonical :
    ∃ (s t : State), s.Canonical ∧ step s = .next t := ⟨State.reset, State.reset.tick, ⟨rfl, rfl, rfl⟩, rfl⟩

theorem met_StepTakesOne :
    ∃ (c : Instr) (rest : List Instr) (s t : State), s.pending = c :: rest ∧ step s = .next t := ⟨.svcFlrComplete, [], { State.reset with pending := [.svcFlrComplete] }, State.reset.sv (fun v => { v with flr := false }), rfl, rfl⟩

theorem met_PartitionsAndWindows_1 :
    ∃ (n : Fin 64) (s : State), s.takes (P.partCommit n) 1 = true ∧ s.partCheck n = 0 := ⟨0, wPart, by decide +kernel⟩

theorem met_PartitionsAndWindows_2 :
    ∃ (n : Fin 64) (s : State), s.takes (P.partCommit n) 2 = true ∧ s.partBusy n = false := ⟨0, wPartIdle, by decide +kernel⟩

theorem met_PartitionsAndWindows_3 :
    ∃ (n : Fin 64) (s : State), (Tab.get n.val s.own.parts).releasing = true := ⟨0, wPartGoing, by decide +kernel⟩

theorem met_PartitionsAndWindows_4 :
    ∃ (w : Fin 1024) (s : State), s.takes (P.winCommit w) 1 = true ∧ s.winCheck w = 0 := ⟨0, wWin, by decide +kernel⟩

theorem met_PartitionsAndWindows_5 :
    ∃ (w : Fin 1024) (s : State), s.takes (P.winCommit w) 2 = true ∧ s.par (P.winState w) = 1 ∧ s.own.leaving.contains w.val =
      false := ⟨0, wWinOn, by decide +kernel⟩

theorem met_OwnershipAndDescriptors_1 :
    ∃ (e : Fin 4096) (v : Nat) (s : State), s.takes (P.ownWord e 1) v = true ∧ s.ownCheck e v = 0 := ⟨0, 2 ^ 63 + 2 ^ 21, wPartOn, by decide +kernel⟩

theorem met_OwnershipAndDescriptors_2 :
    ∃ (d : Fin 2048) (s : State), s.takes (P.descCommit d) 1 = true ∧ s.descOn d = false ∧ s.descCheck d = 0 := ⟨0, wDesc, by decide +kernel⟩

theorem met_OwnershipAndDescriptors_3 :
    ∃ (d : Fin 2048) (s : State), s.takes (P.descCommit d) 2 = true ∧ s.descOn d = true ∧ fld (s.par (P.descState d)) 1 1 = 0 := ⟨0, wDescOn, by decide +kernel⟩

theorem met_CapacityChecks_1 :
    ∃ (s : State), s.dev ≠ dsInit ∧ s.warm = false := ⟨wUp, by decide +kernel⟩

theorem met_CapacityChecks_2 :
    ∃ (q : Fin 4) (s : State), s.mem.frames = [] ∧ s.stackTab = [] ∧ [1, 2, 3, 4].all (fun st => s.tally q st == s.par (capKey
      q st)) = true ∧ s.par (P.capTotal q) - s.deadFrames q = s.par (P.capFree q) := ⟨0, wUp, by decide +kernel⟩

theorem met_CapacityChecks_3 :
    ∃ (law : Fin 8) (s : State), s.audits = true := ⟨7, wUp, by decide +kernel⟩

theorem met_CapacityChecks_4 :
    ∃ (n : Fin 64) (s : State), s.par (P.partFence n) = 1 ∧ (setRegions (s.par (P.partStackSet n))).all (fun q => decide
      ((s.lowWater : Int) ≤ s.headroom q)) = true := ⟨0, wFenced, by decide +kernel⟩

theorem met_CxlMemReadServed_1 :
    ∃ (port : Fin 512) (address dpa : Nat) (want : Fin 3) (ph : Phys) (w : Nat) (v : View) (s : State), s.ldUp port = true ∧
      ((s.backWith (port / 16) ph).link (port / 16)).noCredit (s.readReq port want 0) = false ∧ (s.backWith (port / 16)
      ph).ldUp port = true ∧ (s.backWith (port / 16) ph).decodeHdm port address = some dpa ∧ dpa < dpaEnd ∧ (s.backWith (port /
      16) ph).ideRefuses (s.readReq port want (dpa / 64 * 64)) = false ∧ (s.backWith (port / 16) ph).serving = true ∧ (Tab.get
      port.val (s.backWith (port / 16) ph).reg.masters).hold = [] ∧ (s.backWith (port / 16) ph).gateOk (s.readReq port want
      (dpa / 64 * 64)) = true ∧ (((s.backWith (port / 16) ph).gateSpend (s.readReq port want (dpa / 64 * 64))).checks
      (s.readReq port want (dpa / 64 * 64))).toOption = some (w, v) ∧ (((s.backWith (port / 16) ph).gateSpend (s.readReq port
      want (dpa / 64 * 64))).accepted (s.readReq port want (dpa / 64 * 64)) w).hubReady (s.readReq port want (dpa / 64 * 64)) v
      w = true ∧ ((((s.backWith (port / 16) ph).gateSpend (s.readReq port want (dpa / 64 * 64))).accepted (s.readReq port want
      (dpa / 64 * 64)) w).hubGrant (((((s.backWith (port / 16) ph).gateSpend (s.readReq port want (dpa / 64 * 64))).accepted
      (s.readReq port want (dpa / 64 * 64)) w).home (s.readReq port want (dpa / 64 * 64)).dpa).getD 0) ((s.readReq port want
      (dpa / 64 * 64)).port / 32)).cohAt (s.readReq port want (dpa / 64 * 64)).dpa = none := ⟨0, 0x1040, 0x1040, 0, noPhys, 0, .main, wLink 0x10, by decide +kernel⟩

theorem met_CxlMemReadServed_2 :
    ∃ (port : Fin 512) (address dpa : Nat) (want : Fin 3) (ph : Phys) (w : Nat) (v : View) (s : State), s.ldUp port = true ∧
      ((s.backWith (port / 16) ph).link (port / 16)).noCredit (s.readReq port want 0) = false ∧ (s.backWith (port / 16)
      ph).ldUp port = true ∧ (s.backWith (port / 16) ph).decodeHdm port address = some dpa ∧ dpa < dpaEnd ∧ (s.backWith (port /
      16) ph).ideRefuses (s.readReq port want (dpa / 64 * 64)) = false ∧ (s.backWith (port / 16) ph).serving = true ∧ (Tab.get
      port.val (s.backWith (port / 16) ph).reg.masters).hold = [] ∧ (s.backWith (port / 16) ph).gateOk (s.readReq port want
      (dpa / 64 * 64)) = true ∧ (((s.backWith (port / 16) ph).gateSpend (s.readReq port want (dpa / 64 * 64))).checks
      (s.readReq port want (dpa / 64 * 64))).toOption = some (w, v) ∧ (((s.backWith (port / 16) ph).gateSpend (s.readReq port
      want (dpa / 64 * 64))).accepted (s.readReq port want (dpa / 64 * 64)) w).hubReady (s.readReq port want (dpa / 64 * 64)) v
      w = true ∧ ((((s.backWith (port / 16) ph).gateSpend (s.readReq port want (dpa / 64 * 64))).accepted (s.readReq port want
      (dpa / 64 * 64)) w).hubGrant (((((s.backWith (port / 16) ph).gateSpend (s.readReq port want (dpa / 64 * 64))).accepted
      (s.readReq port want (dpa / 64 * 64)) w).home (s.readReq port want (dpa / 64 * 64)).dpa).getD 0) ((s.readReq port want
      (dpa / 64 * 64)).port / 32)).cohAt (s.readReq port want (dpa / 64 * 64)).dpa = none ∧ ((((s.backWith (port / 16)
      ph).gateSpend (s.readReq port want (dpa / 64 * 64))).accepted (s.readReq port want (dpa / 64 * 64)) w).hubGrant
      (((((s.backWith (port / 16) ph).gateSpend (s.readReq port want (dpa / 64 * 64))).accepted (s.readReq port want (dpa / 64
      * 64)) w).home (s.readReq port want (dpa / 64 * 64)).dpa).getD 0) ((s.readReq port want (dpa / 64 * 64)).port / 32)).par
      (P.winKind w) = wT0 ∧ Tab.get ((s.readReq port want (dpa / 64 * 64)).dpa / 64) ((((s.backWith (port / 16) ph).gateSpend
      (s.readReq port want (dpa / 64 * 64))).accepted (s.readReq port want (dpa / 64 * 64)) w).hubGrant (((((s.backWith (port /
      16) ph).gateSpend (s.readReq port want (dpa / 64 * 64))).accepted (s.readReq port want (dpa / 64 * 64)) w).home
      (s.readReq port want (dpa / 64 * 64)).dpa).getD 0) ((s.readReq port want (dpa / 64 * 64)).port / 32)).mem.t0marks = false := ⟨0, 0x1040, 0x1040, 0, noPhys, 0, .main, wLink wT0, by decide +kernel⟩

theorem met_CxlMemWriteAccepted_1 :
    ∃ (port : Fin 512) (address dpa : Nat) (data : List Byte) (mask : Nat) (mark : WriteMark) (keep : Fin 3) (w : Nat) (v :
      View) (s : State), s.ldUp port = true ∧ ((s.backWith (port / 16) noPhys).link (port / 16)).noCredit (s.writeReq port data
      mask mark.poison mark.parity keep 0) = false ∧ (s.backWith (port / 16) noPhys).ldUp port = true ∧ (s.backWith (port / 16)
      noPhys).decodeHdm port address = some dpa ∧ dpa < dpaEnd ∧ (s.backWith (port / 16) noPhys).ideRefuses (s.writeReq port
      data mask mark.poison mark.parity keep (dpa / 64 * 64)) = false ∧ (s.backWith (port / 16) noPhys).serving = true ∧
      (Tab.get port.val (s.backWith (port / 16) noPhys).reg.masters).hold = [] ∧ (s.backWith (port / 16) noPhys).gateOk
      (s.writeReq port data mask mark.poison mark.parity keep (dpa / 64 * 64)) = true ∧ (((s.backWith (port / 16)
      noPhys).gateSpend (s.writeReq port data mask mark.poison mark.parity keep (dpa / 64 * 64))).checks (s.writeReq port data
      mask mark.poison mark.parity keep (dpa / 64 * 64))).toOption = some (w, v) ∧ (((s.backWith (port / 16) noPhys).gateSpend
      (s.writeReq port data mask mark.poison mark.parity keep (dpa / 64 * 64))).accepted (s.writeReq port data mask mark.poison
      mark.parity keep (dpa / 64 * 64)) w).hubReady (s.writeReq port data mask mark.poison mark.parity keep (dpa / 64 * 64)) v
      w = true ∧ ((((s.backWith (port / 16) noPhys).gateSpend (s.writeReq port data mask mark.poison mark.parity keep (dpa / 64
      * 64))).accepted (s.writeReq port data mask mark.poison mark.parity keep (dpa / 64 * 64)) w).hubGrant (((((s.backWith
      (port / 16) noPhys).gateSpend (s.writeReq port data mask mark.poison mark.parity keep (dpa / 64 * 64))).accepted
      (s.writeReq port data mask mark.poison mark.parity keep (dpa / 64 * 64)) w).home (s.writeReq port data mask mark.poison
      mark.parity keep (dpa / 64 * 64)).dpa).getD 0) ((s.writeReq port data mask mark.poison mark.parity keep (dpa / 64 *
      64)).port / 32)).cohAt (s.writeReq port data mask mark.poison mark.parity keep (dpa / 64 * 64)).dpa = none := ⟨0, 0x1040, 0x1040, [1], 0, ⟨false, false⟩, 0, 0, .main, wLink 0x10, by decide +kernel⟩

theorem met_CxlMemWriteAccepted_2 :
    ∃ (port : Fin 512) (address dpa : Nat) (data : List Byte) (mark : WriteMark) (keep : Fin 3) (w : Nat) (v : View) (s :
      State), s.ldUp port = true ∧ ((s.backWith (port / 16) noPhys).link (port / 16)).noCredit (s.writeReq port data 0
      mark.poison mark.parity keep 0) = false ∧ (s.backWith (port / 16) noPhys).ldUp port = true ∧ (s.backWith (port / 16)
      noPhys).decodeHdm port address = some dpa ∧ dpa < dpaEnd ∧ (s.backWith (port / 16) noPhys).ideRefuses (s.writeReq port
      data 0 mark.poison mark.parity keep (dpa / 64 * 64)) = false ∧ (s.backWith (port / 16) noPhys).serving = true ∧ (Tab.get
      port.val (s.backWith (port / 16) noPhys).reg.masters).hold = [] ∧ (s.backWith (port / 16) noPhys).gateOk (s.writeReq port
      data 0 mark.poison mark.parity keep (dpa / 64 * 64)) = true ∧ (((s.backWith (port / 16) noPhys).gateSpend (s.writeReq
      port data 0 mark.poison mark.parity keep (dpa / 64 * 64))).checks (s.writeReq port data 0 mark.poison mark.parity keep
      (dpa / 64 * 64))).toOption = some (w, v) ∧ (((s.backWith (port / 16) noPhys).gateSpend (s.writeReq port data 0
      mark.poison mark.parity keep (dpa / 64 * 64))).accepted (s.writeReq port data 0 mark.poison mark.parity keep (dpa / 64 *
      64)) w).hubReady (s.writeReq port data 0 mark.poison mark.parity keep (dpa / 64 * 64)) v w = true ∧ ((((s.backWith (port
      / 16) noPhys).gateSpend (s.writeReq port data 0 mark.poison mark.parity keep (dpa / 64 * 64))).accepted (s.writeReq port
      data 0 mark.poison mark.parity keep (dpa / 64 * 64)) w).hubGrant (((((s.backWith (port / 16) noPhys).gateSpend
      (s.writeReq port data 0 mark.poison mark.parity keep (dpa / 64 * 64))).accepted (s.writeReq port data 0 mark.poison
      mark.parity keep (dpa / 64 * 64)) w).home (s.writeReq port data 0 mark.poison mark.parity keep (dpa / 64 * 64)).dpa).getD
      0) ((s.writeReq port data 0 mark.poison mark.parity keep (dpa / 64 * 64)).port / 32)).cohAt (s.writeReq port data 0
      mark.poison mark.parity keep (dpa / 64 * 64)).dpa = none ∧ mark.poison = false ∧ mark.parity = false ∧ ((((s.backWith
      (port / 16) noPhys).gateSpend (s.writeReq port data 0 mark.poison mark.parity keep (dpa / 64 * 64))).accepted (s.writeReq
      port data 0 mark.poison mark.parity keep (dpa / 64 * 64)) w).hubGrant (((((s.backWith (port / 16) noPhys).gateSpend
      (s.writeReq port data 0 mark.poison mark.parity keep (dpa / 64 * 64))).accepted (s.writeReq port data 0 mark.poison
      mark.parity keep (dpa / 64 * 64)) w).home (s.writeReq port data 0 mark.poison mark.parity keep (dpa / 64 * 64)).dpa).getD
      0) ((s.writeReq port data 0 mark.poison mark.parity keep (dpa / 64 * 64)).port / 32)).par (P.winKind w) = wT0 ∧
      ((((s.backWith (port / 16) noPhys).gateSpend (s.writeReq port data 0 mark.poison mark.parity keep (dpa / 64 *
      64))).accepted (s.writeReq port data 0 mark.poison mark.parity keep (dpa / 64 * 64)) w).hubGrant (((((s.backWith (port /
      16) noPhys).gateSpend (s.writeReq port data 0 mark.poison mark.parity keep (dpa / 64 * 64))).accepted (s.writeReq port
      data 0 mark.poison mark.parity keep (dpa / 64 * 64)) w).home (s.writeReq port data 0 mark.poison mark.parity keep (dpa /
      64 * 64)).dpa).getD 0) ((s.writeReq port data 0 mark.poison mark.parity keep (dpa / 64 * 64)).port / 32)).flipSram 1
      ((((((s.backWith (port / 16) noPhys).gateSpend (s.writeReq port data 0 mark.poison mark.parity keep (dpa / 64 *
      64))).accepted (s.writeReq port data 0 mark.poison mark.parity keep (dpa / 64 * 64)) w).hubGrant (((((s.backWith (port /
      16) noPhys).gateSpend (s.writeReq port data 0 mark.poison mark.parity keep (dpa / 64 * 64))).accepted (s.writeReq port
      data 0 mark.poison mark.parity keep (dpa / 64 * 64)) w).home (s.writeReq port data 0 mark.poison mark.parity keep (dpa /
      64 * 64)).dpa).getD 0) ((s.writeReq port data 0 mark.poison mark.parity keep (dpa / 64 * 64)).port / 32)).home
      (s.writeReq port data 0 mark.poison mark.parity keep (dpa / 64 * 64)).dpa).getD 0) = false := ⟨0, 0x1040, 0x1040, [1], ⟨false, false⟩, 0, 0, .main, wLink wT0, by decide +kernel⟩

theorem met_CxlMemNoWindow_1 :
    ∃ (port : Fin 512) (address : Nat) (want : Fin 3) (ph : Phys) (s : State), s.ldUp port = true ∧ ((s.backWith (port / 16)
      ph).link (port / 16)).noCredit (s.readReq port want 0) = false ∧ (s.backWith (port / 16) ph).ldUp port = true ∧
      (s.backWith (port / 16) ph).ideRefuses (s.readReq port want (((s.backWith (port / 16) ph).decodeHdm port address).elim
      (address % 2 ^ 42) (· % 2 ^ 42))) = false ∧ (s.backWith (port / 16) ph).serving = true ∧ ((s.backWith (port / 16)
      ph).decodeHdm port address).all (fun d => decide (dpaEnd ≤ d)) = true := ⟨0, 2 ^ 42, 0, noPhys, wLink 0x10, by decide +kernel⟩

theorem met_CxlMemNoWindow_2 :
    ∃ (port : Fin 512) (address : Nat) (data : List Byte) (mask : Nat) (mark : WriteMark) (keep : Fin 3) (s : State), s.ldUp
      port = true ∧ ((s.backWith (port / 16) noPhys).link (port / 16)).noCredit (s.writeReq port data mask mark.poison
      mark.parity keep 0) = false ∧ (s.backWith (port / 16) noPhys).ldUp port = true ∧ (s.backWith (port / 16)
      noPhys).ideRefuses (s.writeReq port data mask mark.poison mark.parity keep (((s.backWith (port / 16) noPhys).decodeHdm
      port address).elim (address % 2 ^ 42) (· % 2 ^ 42))) = false ∧ (s.backWith (port / 16) noPhys).serving = true ∧
      ((s.backWith (port / 16) noPhys).decodeHdm port address).all (fun d => decide (dpaEnd ≤ d)) = true := ⟨0, 2 ^ 42, [], 0, ⟨false, false⟩, 0, wLink 0x10, by decide +kernel⟩

theorem met_CxlMemNoWindow_3 :
    ∃ (port : Fin 512) (address : Nat) (want : Fin 3) (ph : Phys) (s : State), s.ldUp port = true ∧ (s.backWith (port / 16)
      ph).ldUp port = true ∧ ((s.backWith (port / 16) ph).link (port / 16)).noCredit (s.readReq port want 0) = true := ⟨0, 0x1040, 0, noPhys, wSpent, by decide +kernel⟩

theorem met_CxlMemNoWindow_4 :
    ∃ (port : Fin 512) (address : Nat) (data : List Byte) (mask : Nat) (mark : WriteMark) (keep : Fin 3) (s : State), s.ldUp
      port = true ∧ (s.backWith (port / 16) noPhys).ldUp port = true ∧ ((s.backWith (port / 16) noPhys).link (port /
      16)).noCredit (s.writeReq port data mask mark.poison mark.parity keep 0) = true := ⟨0, 0x1040, [], 0, ⟨false, false⟩, 0, wSpent, by decide +kernel⟩

theorem met_HubEvents_1 :
    ∃ (port : Fin 512) (ph : Phys) (r : HeldReq) (rs : List HeldReq) (s : State), (Tab.get port.val s.reg.masters).hold = r ::
      rs ∧ s.gateOk r = true := ⟨0, noPhys, { port := 0, dpa := 0x1040, write := false, data := [], mask := 0, bad := false, want := 0, gated := true, since := 0, promoted := false }, [], wHold, by decide +kernel⟩

theorem met_HubEvents_2 :
    ∃ (block : Fin 1073741824) (owner : Fin 257) (env : Env) (g : Gather) (s : State), Tab.find? (block.val + 2 ^ 30 *
      owner.val) s.mem.gather = some g ∧ g.first + usT 4 ≤ s.now := ⟨1, 0, ⟨noPhys, .failed, []⟩, default, wGather, by decide +kernel⟩

theorem met_HubEvents_3 :
    ∃ (ph : Phys) (x : CompWrite) (xs : List CompWrite) (w : Nat) (v : View) (s : State), s.fac.compWait = x :: xs ∧ (s.modFac
      (fun f => { f with compWait := xs })).winAt x.dpa = some w ∧ ((s.modFac (fun f => { f with compWait := xs })).viewFor
      x.hid x.dpa true).toOption = some v := ⟨noPhys, { dpa := 0x1040, data := [], mask := 0, bad := false, port := 0, hid := 5, since := 0 }, [], 0, .main, wComp, by decide +kernel⟩

theorem met_HubEvents_4 :
    ∃ (host : HostData) (d : DetRead) (ds : List DetRead) (s : State), s.mem.detReads = d :: ds := ⟨.failed, { blk := 1, dpa := 4096, port := 0, hid := 5 }, [], wDetRead, by decide +kernel⟩

theorem met_CapacityMover_1 :
    ∃ (block : Fin 1073741824) (owner : Fin 257) (code : Fin 32) (own partner : Bool) (ph : Phys) (j : PackJob) (s : State),
      Tab.find? (block.val + 2 ^ 30 * owner.val) s.mem.packJobs = some j ∧ Form.checks
      { state := j.state, codec := j.codec, bytes := j.coded } (s.streamWb j.win ((block.val + 2 ^ 30 * owner.val) % 2 ^ 30))
      j.orig = true := ⟨1, 0, 0, false, false, noPhys, packJob, wPack, rfl, packJob_checks⟩

theorem met_CapacityMover_2 :
    ∃ (block : Fin 1073741824) (ph : Phys) (w : MapWord) (a : Nat) (v : View) (s : State), s.moverMay ((s.home (block.val *
      4096)).getD 0) 2 = true ∧ s.wordsOf block.val = [w] ∧ s.partnerOf (entryOf w).addr = some a ∧ s.viewOf block.val w = some
      v ∧ (entryOf w).inHbm = true ∧ ((s.moverGrant ((s.home (block.val * 4096)).getD 0)).fetchLines block.val (entryOf w)
      (entryOf w).addr (List.range 64) ((s.winAt (block.val * 4096)).elim 0 (fun x => s.streamWb x block.val)) ph).1.toOption =
      none ∧ (((s.moverGrant ((s.home (block.val * 4096)).getD 0)).fetchLines block.val (entryOf w) (entryOf w).addr
      (List.range 64) ((s.winAt (block.val * 4096)).elim 0 (fun x => s.streamWb x block.val)) ph).2.fetchLines block.val
      (entryOf w) a (List.range 64) ((s.winAt (block.val * 4096)).elim 0 (fun x => s.streamWb x block.val))
      ph).1.toOption.isSome = true := ⟨1, { noPhys with ue := [4831839232] }, wMirror.wordIn .main 1, 320, .main, wMirror, by decide +kernel, by decide +kernel, by decide +kernel, by decide +kernel, by decide +kernel, by decide +kernel, by decide +kernel⟩

theorem met_CapacityMover_3 :
    ∃ (region : Fin 4) (ph : Phys) (s : State), s.par (P.pwrRegionState region) < 2 ∧ s.power.hubOff = false := ⟨0, noPhys, wUp, by decide +kernel⟩

theorem met_CapacityMover_4 :
    ∃ (region : Fin 4) (ph : Phys) (b : Nat) (bs : List Nat) (w n : Nat) (d : List Byte) (s : State), Tab.get region.val
      s.mem.promoQ = b :: bs ∧ (s.modMem (fun m => { m with promoQ := Tab.set region.val bs m.promoQ })).winAt (b * 4096) =
      some w ∧ (s.modMem (fun m => { m with promoQ := Tab.set region.val bs m.promoQ })).partAt (b * 4096) = some n ∧ (entryOf
      ((s.modMem (fun m => { m with promoQ := Tab.set region.val bs m.promoQ })).wordIn .main b)).state = stPacked ∧ (s.modMem
      (fun m => { m with promoQ := Tab.set region.val bs m.promoQ })).floatWin w = true ∧ (s.modMem (fun m =>
      { m with promoQ := Tab.set region.val bs m.promoQ })).par P.capPromoteT1 ≤ (s.modMem (fun m =>
      { m with promoQ := Tab.set region.val bs m.promoQ })).parcel (b * 4096) ∧ ((s.modMem (fun m =>
      { m with promoQ := Tab.set region.val bs m.promoQ })).copyRegions n b).all (fun q => (s.modMem (fun m =>
      { m with promoQ := Tab.set region.val bs m.promoQ })).promoRoom q 1) = true ∧ (s.modMem (fun m =>
      { m with promoQ := Tab.set region.val bs m.promoQ })).moverMay region.val 2 = true ∧ (((s.modMem (fun m =>
      { m with promoQ := Tab.set region.val bs m.promoQ })).moverGrant region.val).readBlock .main b 0 ph none 0xFF).1 = some
      (d, []) ∧ ((((s.modMem (fun m => { m with promoQ := Tab.set region.val bs m.promoQ })).moverGrant region.val).readBlock
      .main b 0 ph none 0xFF).2.moverCommit .main b (flatForm d)).isSome = true := ⟨0, noPhys, 1, [], 0, 0, zeros 4096, wPromote, by decide +kernel, by decide +kernel, by decide +kernel, by decide +kernel, by decide +kernel, by decide +kernel, by decide +kernel, by decide +kernel, read_zero rfl (by decide +kernel), by decide +kernel⟩

theorem met_CapacityMover_5 :
    ∃ (block : Fin 1073741824) (x : MapWord) (d : List Byte) (v : View) (w : Nat) (s : State), Tab.get block.val s.mem.mover =
      [(x, d)] ∧ s.winAt (block.val * 4096) = some w ∧ (s.modMem (fun m =>
      { m with mover := Tab.set block.val [] m.mover })).viewOf block.val x = some v ∧ (entryOf x).state = stFlat ∧ (s.modMem
      (fun m => { m with mover := Tab.set block.val [] m.mover })).marksOf (entryOf x) = [] ∧ (s.modMem (fun m =>
      { m with mover := Tab.set block.val [] m.mover })).moverMay (((s.modMem (fun m =>
      { m with mover := Tab.set block.val [] m.mover })).home (block.val * 4096)).getD 0) (if (Tab.find? (gatherKey v
      block.val) (s.modMem (fun m => { m with mover := Tab.set block.val [] m.mover })).mem.promoted).isSome then 2 else 3) =
      true ∧ (s.modMem (fun m => { m with mover := Tab.set block.val [] m.mover })).plainAt block.val (entryOf x) (entryOf
      x).addr = d := ⟨1, wCold.wordIn .main 1, coldBytes, .main, 0, wMover, rfl, by decide +kernel, by decide +kernel, by decide +kernel, by decide +kernel, by decide +kernel, cold_plain⟩

theorem met_CapacityMover_6 :
    ∃ (block : Fin 1073741824) (ph : Phys) (w : MapWord) (s : State), s.toRelocate ((s.home (block.val * 4096)).getD 0)
      block.val = some w ∧ ((forAll (fun k s => s.shutFrame k) (s.framesOf (entryOf w)) (s.moverGrant ((s.home (block.val *
      4096)).getD 0))).relocate block.val w ph).isSome = true := ⟨1, noPhys, wSparse.wordIn .main 1, wSparse, by decide +kernel⟩

theorem met_DetourMoves_1 :
    ∃ (block : Fin 1073741824) (ph : Phys) (d : List Byte) (s : State), s.spillNext ((s.home (block.val * 4096)).getD 0) = some
      block.val ∧ s.moverMay ((s.home (block.val * 4096)).getD 0) 4 = true ∧ ((s.moverGrant ((s.home (block.val * 4096)).getD
      0)).readBlock .main block.val 0 ph none 0xFF).1 = some (d, []) := ⟨1, noPhys, zeros 4096, wSpill, by decide +kernel, by decide +kernel, read_zero rfl (by decide +kernel)⟩

theorem met_DetourMoves_2 :
    ∃ (block : Fin 1073741824) (host : HostData) (w q : Nat) (d : List Byte) (s : State), s.winAt (block.val * 4096) = some w ∧
      s.home (block.val * 4096) = some q ∧ (entryOf (s.wordIn .main block.val)).state = stDetour ∧ s.par P.detState = 1 ∧ s.par
      P.capPromoteT1 ≤ s.parcel (block.val * 4096) ∧ (s.lowWater : Int) ≤ s.headroom q ∧ s.moverMay q 2 = true ∧ (Tab.find?
      block.val s.mem.packJobs).isSome = false ∧ ((s.moverGrant q).svcPut
      { who := 2, read := true, addr := (s.moverGrant q).slotAddr (entryOf (s.wordIn .main block.val)).addr, len := 4096, data := [], bad := [], tok := (entryOf (s.wordIn .main block.val)).addr, since := 0 }).slotData
      block.val (entryOf (s.wordIn .main block.val)).addr
      { ph := noPhys, host := .failed, slots := [((entryOf (s.wordIn .main block.val)).addr, host)] } = some (some d) ∧
      ((((s.moverGrant q).svcPut
      { who := 2, read := true, addr := (s.moverGrant q).slotAddr (entryOf (s.wordIn .main block.val)).addr, len := 4096, data := [], bad := [], tok := (entryOf (s.wordIn .main block.val)).addr, since := 0 }).homeForm
      w block.val d).2.commitForm .main block.val (((s.moverGrant q).svcPut
      { who := 2, read := true, addr := (s.moverGrant q).slotAddr (entryOf (s.wordIn .main block.val)).addr, len := 4096, data := [], bad := [], tok := (entryOf (s.wordIn .main block.val)).addr, since := 0 }).homeForm
      w block.val d).1 [] false).isSome = true := ⟨1, .data (zeros 4096), 0, 1, zeros 4096, wRecall, by decide +kernel, by decide +kernel, by decide +kernel, by decide +kernel, by decide +kernel, by decide +kernel, by decide +kernel, by decide +kernel, recall_slot, by decide +kernel⟩

theorem met_DetourMoves_3 :
    ∃ (s : State), (s.svc.flr = true ∨ (s.svc.bme = false ∧ s.svc.downAt = 0) ∨ s.svc.dstate = 2 ∨ (s.svc.downAt ≠ 0 ∧
      s.svc.downAt + msT 100 ≤ s.now + 1)) := ⟨wDetour, by decide +kernel⟩

theorem met_DetourMoves_4 :
    ∃ (s : State), (s.svc.flr = true ∨ (s.svc.bme = false ∧ s.svc.downAt = 0) ∨ s.svc.dstate = 2 ∨ (s.svc.downAt ≠ 0 ∧
      s.svc.downAt + msT 100 ≤ s.now + 1)) ∧ s.par P.detState = 1 ∧ s.mem.detReads.all (fun d => !d.flush) = true := ⟨wDetour, by decide +kernel⟩

theorem met_FactoredTensors_1 :
    ∃ (queue : Fin 32768) (start : FactorStart) (c : Cmd) (w : Nat) (s : State), s.runs queue.val start.idx.val 0x08 0 c = true
      ∧ s.winOfDesc (fld (c.d 1) 10 0) = some w ∧ s.rangeStatus (s.qHid (cmdKey queue.val start.idx.val / 65536)) (s.par
      (P.winBase w)) (s.par (P.winSize w)) true = 0 ∧ s.isBroken (s.factorView (s.qHid (cmdKey queue.val start.idx.val /
      65536)) w) = false ∧ s.par (P.winKind w) ≠ wFactor ∧ (Tab.get (fld (c.d 1) 10 0) s.fac.runs).on = false ∧ s.anyFactor
      (s.factorView (s.qHid (cmdKey queue.val start.idx.val / 65536)) w) w (s.desc (fld (c.d 1) 10 0)) = false := ⟨0, ⟨0, ⟨noPhys, .failed, []⟩⟩, cmdOf 0x08 0, 0, wFactorCmd 0, by decide +kernel⟩

theorem met_FactoredTensors_2 :
    ∃ (queue : Fin 32768) (idx : Fin 65536) (c : Cmd) (w : Nat) (s : State), s.runs queue.val idx.val 0x08 1 c = true ∧
      s.winOfDesc (fld (c.d 1) 10 0) = some w ∧ s.rangeStatus (s.qHid (cmdKey queue.val idx.val / 65536)) (s.par (P.winBase w))
      (s.par (P.winSize w)) true = 0 ∧ s.isBroken (s.factorView (s.qHid (cmdKey queue.val idx.val / 65536)) w) = false ∧ s.par
      (P.winKind w) ≠ wFactor ∧ (Tab.get (fld (c.d 1) 10 0) s.fac.runs).on = false ∧ s.par (P.descGen (fld (c.d 1) 10 0)) ≠ 0 := ⟨0, 0, cmdOf 0x08 1, 0, wFactorCmd 1, by decide +kernel⟩

theorem met_FactoredTensors_3 :
    ∃ (descriptor : Fin 2048) (env : Env) (w : Nat) (v : View) (s : State), s.winOfDesc descriptor.val = some w ∧ (Tab.get
      descriptor.val s.fac.runs).on = true ∧ (Tab.get descriptor.val s.fac.runs).next < ((s.desc descriptor.val).tiles) ∧
      (Tab.get descriptor.val s.fac.runs).next + 1 + (Tab.get descriptor.val s.fac.runs).tiles ≤ ((s.desc
      descriptor.val).tiles) ∧ (s.viewFor (s.qHid ((Tab.get descriptor.val s.fac.runs).cmd / 65536)) (s.par (P.winBase w))
      true).toOption = some v ∧ s.isBroken v = false := ⟨0, ⟨noPhys, .failed, []⟩, 0, .main, wSwitch, by decide +kernel⟩

theorem met_FactoredTensors_4 :
    ∃ (descriptor : Fin 2048) (tile : Fin 268435456) (env : Env) (w : Nat) (r : TileRec) (s : State), s.winOfDesc
      descriptor.val = some w ∧ s.lowerNext ((s.home ((s.par (P.winBase w) / 4096 + tile.val * (s.winDesc w).wOut) *
      4096)).getD 0) = some (w, tile.val) ∧ s.moverMay ((s.home ((s.par (P.winBase w) / 4096 + tile.val * (s.winDesc w).wOut) *
      4096)).getD 0) 5 = true ∧ ((s.moverGrant ((s.home ((s.par (P.winBase w) / 4096 + tile.val * (s.winDesc w).wOut) *
      4096)).getD 0)).tileRecord ((s.moverGrant ((s.home ((s.par (P.winBase w) / 4096 + tile.val * (s.winDesc w).wOut) *
      4096)).getD 0)).latestView ((s.moverGrant ((s.home ((s.par (P.winBase w) / 4096 + tile.val * (s.winDesc w).wOut) *
      4096)).getD 0)).par (P.winBase w) / 4096)) ((s.moverGrant ((s.home ((s.par (P.winBase w) / 4096 + tile.val * (s.winDesc
      w).wOut) * 4096)).getD 0)).par (P.winBase w) / 4096) ((s.moverGrant ((s.home ((s.par (P.winBase w) / 4096 + tile.val *
      (s.winDesc w).wOut) * 4096)).getD 0)).winDesc w) tile.val env).1 = some r ∧ r.bad = false ∧ r.low = false ∧
      ((s.moverGrant ((s.home ((s.par (P.winBase w) / 4096 + tile.val * (s.winDesc w).wOut) * 4096)).getD 0)).winDesc
      w).lowerMode = 2 := ⟨0, 0, ⟨noPhys, .failed, []⟩, 0, (wLower.winDesc 0).record 0, wLower, by decide +kernel⟩

theorem met_FactoredTensors_5 :
    ∃ (region : Fin 4) (block : Fin 9) (env : Env) (p : PipeRead) (ps : List PipeRead) (s : State), Tab.get (region.val * 16 +
      block.val) s.fac.pipes = p :: ps ∧ s.blkAway (region.val * 16 + block.val) = false ∧ s.integ.flags.any (fun f => f.work
      == .recon p.blk) = false ∧ s.creditsOk (region.val * 16 + block.val) = true := ⟨0, 0, ⟨noPhys, .failed, []⟩, default, [], wPipe, by decide +kernel⟩

theorem met_SharedRegionObjects_1 :
    ∃ (region : Fin 256) (s : State), s.takes (P.srCommit region) 1 = true ∧ s.srCheck region = 0 := ⟨0, wSr, by decide +kernel⟩

theorem met_SharedRegionObjects_2 :
    ∃ (region : Fin 256) (s : State), s.takes (P.srCommit region) 2 = true ∧ s.srOn region = true ∧ s.winsOn.any (fun w =>
      overlaps (s.par (P.srBase region)) (s.par (P.srSize region)) (s.par (P.winBase w)) (s.par (P.winSize w))) = false := ⟨0, wSrOn, by decide +kernel⟩

theorem met_SharedRegionObjects_3 :
    ∃ (s : State), s.takes P.shareVersionReset 1 = true := ⟨standby [], by decide +kernel⟩

theorem met_SharedRegionObjects_4 :
    ∃ (region : Fin 256) (s : State), s.takes (P.srLeaseEnable region) 0 = true := ⟨0, wSrOn, by decide +kernel⟩

theorem met_SharedRegionObjects_5 :
    ∃ (region : Fin 256) (s : State), s.takes (P.srLeaseEnable region) 1 = true ∧ s.par (P.srLeaseEnable region) = 0 := ⟨0, wSrOn, by decide +kernel⟩

theorem met_SharedRegionObjects_6 :
    ∃ (s : State), s.vrefWalkOk = true := ⟨wUp, by decide +kernel⟩

theorem met_BandwidthContracts_1 :
    ∃ (contract : Fin 1024) (s : State), s.takes (P.rcCommit contract) 1 = true ∧ s.rcCheck contract = 0 := ⟨0, wContract, by decide +kernel⟩

theorem met_BandwidthContracts_2 :
    ∃ (contract : Fin 1024) (s : State), s.takes (P.rcCommit contract) 2 = true ∧ s.par (P.rcState contract) ≠ 0 := ⟨0, service [(P.rcState 0, 1)], by decide +kernel⟩

theorem met_BandwidthContracts_3 :
    ∃ (s : State), s.reg.boundary < s.us + 1 ∧ s.dev ≠ dsInit ∧ s.warm = false := ⟨{ wUp with now := 100 }, by decide +kernel⟩

theorem met_BandwidthContracts_4 :
    ∃ (s : State), 100 ≤ s.reg.windowAt ∧ s.serving = true := ⟨{ wUp with reg := { wUp.reg with windowAt := 100 } }, by decide +kernel⟩

theorem met_BucketsStayWithinBurst :
    ∃ (c : Nat) (s : State), s.reg.boundary < s.us + 1 ∧ s.serving = true ∧ s.warm = false ∧ c ∈ s.boundary.consOn := ⟨0, wBoundary, by decide +kernel⟩

theorem met_QueueControl_1 :
    ∃ (queue : Fin 32768) (s : State), s.takes (P.qCtl queue) 1 = true ∧ s.qCheck queue = 0 := ⟨0, service [(P.grpHid 0, 5), (P.qCfg 0, 15)], by decide +kernel⟩

theorem met_QueueControl_2 :
    ∃ (queue : Fin 32768) (s : State), s.takes (P.qCtl queue) 2 = true ∧ s.qMode queue ≠ 0 := ⟨0, wQueue, by decide +kernel⟩

theorem met_QueueControl_3 :
    ∃ (queue : Fin 32768) (s : State), s.takes (P.qCtl queue) 3 = true ∧ s.qMode queue = 2 ∧ (s.qr queue).disabling = false ∧
      s.haltStays queue = false ∧ s.serving = true ∧ ((s.qr queue).needBme = false ∨ s.qBme queue = true) := ⟨0, wQueue.setPar (P.qState 0) 2, by decide +kernel⟩

theorem met_QueueControl_4 :
    ∃ (queue : Fin 32768) (s : State), (s.qr queue).disabling = true ∧ (s.qr queue).cmds = [] := ⟨0, wQueue.modQ 0 (fun r => { r with disabling := true }), by decide +kernel⟩

theorem met_QueueControl_5 :
    ∃ (via : Option (Fin 512)) (queue : Fin 32768) (value : Nat) (s : State), (via ≠ none ∨ s.barOn = true) ∧ s.warm = false ∧
      s.dbReaches (via.map Fin.val) queue = true ∧ s.qMode queue ≠ 0 ∧ value < s.qSize queue := ⟨none, 0, 3, wQueue, by decide +kernel⟩

theorem met_QueueControl_6 :
    ∃ (via : Option (Fin 512)) (queue : Fin 32768) (value : Nat) (s : State), (via ≠ none ∨ s.barOn = true) ∧ s.warm = false ∧
      s.dbReaches (via.map Fin.val) queue = true ∧ s.qMode queue ≠ 0 ∧ value < s.qSize queue ∧ ringDist (s.qSize queue) (s.qr
      queue).head (value % 2 ^ 32) ≤ ringDist (s.qSize queue) (s.qr queue).head (s.cqTail queue) := ⟨none, 0, 0, wQueue, by decide +kernel⟩

theorem met_QueueControl_7 :
    ∃ (via : Option (Fin 512)) (queue : Fin 32768) (tail head : Nat) (s : State), (via ≠ none ∨ s.barOn = true) ∧ s.warm =
      false ∧ s.dbReaches (via.map Fin.val) queue = true ∧ s.qMode queue ≠ 0 := ⟨none, 0, 3, 0, wQueue, by decide +kernel⟩

theorem met_QueueFlow_1 :
    ∃ (host : HostData) (ph : Phys) (q : Nat) (d : List Byte) (s : State), s.grantQueue = some q ∧ fld (s.par (P.qCfg q)) 16 16
      = 0 ∧ host = .data d := ⟨.data [], noPhys, 0, [], wFetch, by decide +kernel⟩

theorem met_QueueFlow_2 :
    ∃ (host : HostData) (ph : Phys) (q : Nat) (d : List Byte) (s : State), s.grantQueue = some q ∧ fld (s.par (P.qCfg q)) 16 16
      = 1 ∧
      ({ s with queues := { s.queues with groupPtr := (q / 64 + 1) % 512, queuePtr := Tab.set (q / 64) ((q % 64 + 1) % 64) s.queues.queuePtr } }).ringOk
      (({ s with queues := { s.queues with groupPtr := (q / 64 + 1) % 512, queuePtr := Tab.set (q / 64) ((q % 64 + 1) % 64) s.queues.queuePtr } }).par
      (P.qSqBase q)) (64 *
      ({ s with queues := { s.queues with groupPtr := (q / 64 + 1) % 512, queuePtr := Tab.set (q / 64) ((q % 64 + 1) % 64) s.queues.queuePtr } }).qSize
      q)
      (({ s with queues := { s.queues with groupPtr := (q / 64 + 1) % 512, queuePtr := Tab.set (q / 64) ((q % 64 + 1) % 64) s.queues.queuePtr } }).qHid
      q) rR = true ∧
      (({ s with queues := { s.queues with groupPtr := (q / 64 + 1) % 512, queuePtr := Tab.set (q / 64) ((q % 64 + 1) % 64) s.queues.queuePtr } }).ringRead
      (({ s with queues := { s.queues with groupPtr := (q / 64 + 1) % 512, queuePtr := Tab.set (q / 64) ((q % 64 + 1) % 64) s.queues.queuePtr } }).par
      (P.qSqBase q) + 64 *
      ({ s with queues := { s.queues with groupPtr := (q / 64 + 1) % 512, queuePtr := Tab.set (q / 64) ((q % 64 + 1) % 64) s.queues.queuePtr } }).sqHead
      q) ph
      (({ s with queues := { s.queues with groupPtr := (q / 64 + 1) % 512, queuePtr := Tab.set (q / 64) ((q % 64 + 1) % 64) s.queues.queuePtr } }).qHid
      q) (Nat.min
      (({ s with queues := { s.queues with groupPtr := (q / 64 + 1) % 512, queuePtr := Tab.set (q / 64) ((q % 64 + 1) % 64) s.queues.queuePtr } }).fetchCount
      q)
      (({ s with queues := { s.queues with groupPtr := (q / 64 + 1) % 512, queuePtr := Tab.set (q / 64) ((q % 64 + 1) % 64) s.queues.queuePtr } }).qSize
      q -
      ({ s with queues := { s.queues with groupPtr := (q / 64 + 1) % 512, queuePtr := Tab.set (q / 64) ((q % 64 + 1) % 64) s.queues.queuePtr } }).sqHead
      q))).1 = some d := ⟨.failed, noPhys, 0, zeros 64, wFetchDev, by decide +kernel⟩

theorem met_QueueFlow_3 :
    ∃ (queue : Fin 32768) (c : Cmd) (cs : List Cmd) (s : State), (s.qr queue).cmds = c :: cs ∧ c.phase = 0 ∧ (entryCheck
      { c with phase := 1 } (s.qPriv queue) = 0 ∨ entryCheck c (s.qPriv queue) = 0) := ⟨0, { cmdOf 0x01 0 with phase := 0 }, [], onQueue wUp { cmdOf 0x01 0 with phase := 0 }, by decide +kernel⟩

theorem met_QueueFlow_4 :
    ∃ (queue : Fin 32768) (ph : Phys) (c : Cmd) (s : State), (s.qr queue).held = [] ∧ (s.qr queue).cmds.find? (fun c => c.phase
      == 3) = some c ∧ s.qMode queue = 1 ∧ s.cqFree queue = true ∧ fld (s.par (P.qCfg queue)) 17 17 = 0 ∧ s.qReach queue = true := ⟨0, noPhys, { cmdOf 0x01 0 with phase := 3 }, wPost, by decide +kernel⟩

theorem met_QueueFlow_5 :
    ∃ (queue : Fin 32768) (s : State), (s.qr queue).unsig ≠ 0 ∧ fld (s.par (P.qCfg queue)) 63 56 ≠ 0 ∧ (s.qr queue).unsigAt +
      usT (fld (s.par (P.qCfg queue)) 63 56) ≤ s.now := ⟨0, wCoal, by decide +kernel⟩

theorem met_QueueFlow_6 :
    ∃ (entry : MsixEntry) (s : State), s.barOn = true := ⟨⟨0, 0, 0, false⟩, { wUp with svc := { wUp.svc with msix := [(0, 3)] } }, by decide +kernel⟩

theorem met_QueueFlow_7 :
    ∃ (port : Fin 512) (entry : MsixEntry) (s : State), entry.vector.val < 128 := ⟨0, ⟨0, 0, 0, false⟩, wUp.modLd 0 (fun l => { l with msix := [(0, 3)] }), by decide +kernel⟩

theorem met_DataMovers_1 :
    ∃ (queue : Fin 32768) (idx : Fin 65536) (env : Env) (c : Cmd) (s : State), s.runs queue.val idx.val 0x01 0 c = true ∧ lenOk
      (c.d 3) = true ∧ (c.d 1) % 64 = 0 ∧ (c.d 2) % 64 = 0 ∧ (c.d 1) + (c.d 3) ≤ dpaEnd ∧ (c.d 2) + (c.d 3) ≤ dpaEnd ∧ overlaps
      (c.d 1) (c.d 3) (c.d 2) (c.d 3) = false ∧ s.rangeStatus (s.qHid (cmdKey queue.val idx.val / 65536)) (c.d 1) (c.d 3) false
      = 0 ∧ s.rangeStatus (s.qHid (cmdKey queue.val idx.val / 65536)) (c.d 2) (c.d 3) true = 0 ∧ (s.cohReady (c.d 1) (c.d 3)
      false).1 = true ∧ ((s.cohReady (c.d 1) (c.d 3) false).2.cohReady (c.d 2) (c.d 3) true).1 = true := ⟨0, 0, noEnv, cmdArgs 0x01 0 [0, 4096, 64], wMove (cmdArgs 0x01 0 [0, 4096, 64]), by decide +kernel⟩

theorem met_DataMovers_2 :
    ∃ (queue : Fin 32768) (idx : Fin 65536) (d : List Byte) (ph : Phys) (slots : List (Nat × HostData)) (c : Cmd) (s : State),
      s.runs queue.val idx.val 0x01 1 c = true ∧ lenOk (c.d 3) = true ∧ c.d 1 % 64 = 0 ∧ (c.d 2) % 64 = 0 ∧ (c.d 2) + (c.d 3) ≤
      dpaEnd ∧ s.rangeStatus (s.qHid (cmdKey queue.val idx.val / 65536)) (c.d 2) (c.d 3) true = 0 ∧ (s.cohReady (c.d 2) (c.d 3)
      true).1 = true := ⟨0, 0, [1], noPhys, [], cmdArgs 0x01 1 [0, 4096, 64], wMove (cmdArgs 0x01 1 [0, 4096, 64]), by decide +kernel⟩

theorem met_DataMovers_3 :
    ∃ (queue : Fin 32768) (idx : Fin 65536) (env : Env) (c : Cmd) (s : State), s.runs queue.val idx.val 0x01 2 c = true ∧ lenOk
      (c.d 3) = true ∧ c.d 2 % 64 = 0 ∧ (c.d 1) % 64 = 0 ∧ (c.d 1) + (c.d 3) ≤ dpaEnd ∧ s.rangeStatus (s.qHid (cmdKey queue.val
      idx.val / 65536)) (c.d 1) (c.d 3) false = 0 ∧ (s.cohReady (c.d 1) (c.d 3) false).1 = true := ⟨0, 0, noEnv, cmdArgs 0x01 2 [0, 4096, 64], wMove (cmdArgs 0x01 2 [0, 4096, 64]), by decide +kernel⟩

theorem met_DataMovers_4 :
    ∃ (queue : Fin 32768) (idx : Fin 65536) (env : Env) (c : Cmd) (s : State), s.runs queue.val idx.val 0x02 0 c = true ∧ lenOk
      (c.d 2) = true ∧ (c.d 1) % 64 = 0 ∧ (c.d 1) + (c.d 2) ≤ dpaEnd ∧ s.rangeStatus (s.qHid (cmdKey queue.val idx.val /
      65536)) (c.d 1) (c.d 2) true = 0 ∧ (s.cohReady (c.d 1) (c.d 2) true).1 = true := ⟨0, 0, noEnv, cmdArgs 0x02 0 [4096, 64], wMove (cmdArgs 0x02 0 [4096, 64]), by decide +kernel⟩

theorem met_DataMovers_5 :
    ∃ (queue : Fin 32768) (idx : Fin 65536) (ph : Phys) (c : Cmd) (ws : List Nat) (s : State), s.runs queue.val idx.val 0x03 0
      c = true ∧ (c.d 2) ≠ 0 ∧ (c.d 2) % 4096 = 0 ∧ (c.d 1) % 4096 = 0 ∧ (c.d 1) + (c.d 2) ≤ dpaEnd ∧ s.rangeStatus (s.qHid
      (cmdKey queue.val idx.val / 65536)) (c.d 1) (c.d 2) true = 0 ∧ s.rangeWins (c.d 1) (c.d 2) = some ws ∧ ws.all (fun w =>
      s.par (P.winKind w) == wTransparent) = true := ⟨0, 0, noPhys, cmdArgs 0x03 0 [0, 4096], [0], wPackCmd (cmdArgs 0x03 0 [0, 4096]), by decide +kernel⟩

theorem met_DataMovers_6 :
    ∃ (queue : Fin 32768) (idx : Fin 65536) (ph : Phys) (c : Cmd) (ws : List Nat) (s : State), s.runs queue.val idx.val 0x04 0
      c = true ∧ (c.d 2) ≠ 0 ∧ (c.d 2) % 4096 = 0 ∧ (c.d 1) % 4096 = 0 ∧ (c.d 1) + (c.d 2) ≤ dpaEnd ∧ s.rangeStatus (s.qHid
      (cmdKey queue.val idx.val / 65536)) (c.d 1) (c.d 2) true = 0 ∧ s.rangeWins (c.d 1) (c.d 2) = some ws ∧ ws.all (fun w =>
      s.par (P.winKind w) == wTransparent && s.par (P.winResidency w) == 0) = true := ⟨0, 0, noPhys, cmdArgs 0x04 0 [0, 4096], [0], wPackCmd (cmdArgs 0x04 0 [0, 4096]), by decide +kernel⟩

theorem met_DataMovers_7 :
    ∃ (queue : Fin 32768) (idx : Fin 65536) (env : Env) (c : Cmd) (s : State), s.runs queue.val idx.val 0x22 0 c = true ∧ c.d 2
      % 2 ^ 21 = 0 ∧ c.d 3 % 4096 = 0 ∧ c.d 4 % 4096 = 0 ∧ 4096 ≤ c.d 4 ∧ c.d 4 ≤ 2 ^ 30 ∧ c.d 5 % 128 = 0 ∧ c.d 3 + c.d 4 ≤
      dpaEnd ∧ c.d 5 + 128 ≤ dpaEnd ∧ (Tab.get (c.d 1) s.own.parts).inForce = true ∧ s.rangeStatus (s.qHid (cmdKey queue.val
      idx.val / 65536)) (c.d 3) (c.d 4) false = 0 ∧ s.rangeStatus (s.qHid (cmdKey queue.val idx.val / 65536)) (c.d 5) 128 true
      = 0 ∧ (s.cohReady (c.d 5) 128 true).1 = true := ⟨0, 0, noEnv, cmdArgs 0x22 0 [0, 0, 0, 4096, 8192], wMove (cmdArgs 0x22 0 [0, 0, 0, 4096, 8192]), by decide +kernel⟩

theorem met_OptSteps_1 :
    ∃ (queue : Fin 32768) (idx : Fin 65536) (env : Env) (c : Cmd) (s : State), s.runs queue.val idx.val 0x10 0 c = true ∧
      s.stepCheck (cmdKey queue.val idx.val) c.step = 0 ∧ (s.stepReady c.step).1 = true ∧ ((s.stepReady c.step).2.rangeAtHub
      ((s.stepReady c.step).2.qHid ((cmdKey queue.val idx.val) / 65536)) (c.step.hyper * 4096) 64 env).1.2 = [] ∧ allZero
      (((s.stepReady c.step).2.rangeAtHub ((s.stepReady c.step).2.qHid ((cmdKey queue.val idx.val) / 65536)) (c.step.hyper *
      4096) 64 env).1.1.drop 0x2C) = true ∧ ((s.stepReady c.step).2.rangeAtHub ((s.stepReady c.step).2.qHid ((cmdKey queue.val
      idx.val) / 65536)) (c.step.hyper * 4096) 64 env).2.stepBusy c.step = false := ⟨0, 0, noEnv, stepCmd 0 0, wStep (stepCmd 0 0), by decide +kernel⟩

theorem met_OptSteps_2 :
    ∃ (queue : Fin 32768) (idx : Fin 65536) (env : Env) (c : Cmd) (s : State), s.runs queue.val idx.val 0x10 1 c = true ∧
      s.stepCheck (cmdKey queue.val idx.val) c.step = 0 ∧ (s.stepReady c.step).1 = true ∧ ((s.stepReady c.step).2.rangeAtHub
      ((s.stepReady c.step).2.qHid ((cmdKey queue.val idx.val) / 65536)) (c.step.hyper * 4096) 64 env).1.2 = [] ∧ allZero
      (((s.stepReady c.step).2.rangeAtHub ((s.stepReady c.step).2.qHid ((cmdKey queue.val idx.val) / 65536)) (c.step.hyper *
      4096) 64 env).1.1.drop 0x2C) = true ∧ ((s.stepReady c.step).2.rangeAtHub ((s.stepReady c.step).2.qHid ((cmdKey queue.val
      idx.val) / 65536)) (c.step.hyper * 4096) 64 env).2.stepBusy c.step = false := ⟨0, 0, noEnv, stepCmd 1 0, wStep (stepCmd 1 0), by decide +kernel⟩

theorem met_OptSteps_3 :
    ∃ (queue : Fin 32768) (idx : Fin 65536) (env : Env) (c : Cmd) (s : State), s.runs queue.val idx.val 0x10 2 c = true ∧
      s.stepCheck (cmdKey queue.val idx.val) c.step = 0 ∧ (s.stepReady c.step).1 = true ∧ ((s.stepReady c.step).2.rangeAtHub
      ((s.stepReady c.step).2.qHid ((cmdKey queue.val idx.val) / 65536)) (c.step.hyper * 4096) 64 env).1.2 = [] ∧ allZero
      (((s.stepReady c.step).2.rangeAtHub ((s.stepReady c.step).2.qHid ((cmdKey queue.val idx.val) / 65536)) (c.step.hyper *
      4096) 64 env).1.1.drop 0x2C) = true ∧ ((s.stepReady c.step).2.rangeAtHub ((s.stepReady c.step).2.qHid ((cmdKey queue.val
      idx.val) / 65536)) (c.step.hyper * 4096) 64 env).2.stepBusy c.step = false := ⟨0, 0, noEnv, stepCmd 2 0, wStep (stepCmd 2 0), by decide +kernel⟩

theorem met_OptSteps_4 :
    ∃ (queue : Fin 32768) (idx : Fin 65536) (env : Env) (c : Cmd) (s : State), s.runs queue.val idx.val 0x10 3 c = true ∧
      s.stepCheck (cmdKey queue.val idx.val) c.step = 0 ∧ (s.stepReady c.step).1 = true ∧ ((s.stepReady c.step).2.rangeAtHub
      ((s.stepReady c.step).2.qHid ((cmdKey queue.val idx.val) / 65536)) (c.step.hyper * 4096) 64 env).1.2 = [] ∧ allZero
      (((s.stepReady c.step).2.rangeAtHub ((s.stepReady c.step).2.qHid ((cmdKey queue.val idx.val) / 65536)) (c.step.hyper *
      4096) 64 env).1.1.drop 0x2C) = true ∧ ((s.stepReady c.step).2.rangeAtHub ((s.stepReady c.step).2.qHid ((cmdKey queue.val
      idx.val) / 65536)) (c.step.hyper * 4096) 64 env).2.stepBusy c.step = false := ⟨0, 0, noEnv, stepCmd 3 1, wStep (stepCmd 3 1), by decide +kernel⟩

theorem met_OptSteps_5 :
    ∃ (region : Fin 4) (block : Fin 9) (context : Fin 14) (s : State), s.blockRuns (region.val * 16 + block.val) = true ∧
      s.blkAway (region.val * 16 + block.val) = false ∧ (s.blk (region.val * 16 + block.val)).woke = false := ⟨0, 0, 0, wUp, by decide +kernel⟩

theorem met_OptSteps_6 :
    ∃ (flag : Nat) (f : FlagRec) (j tile : Nat) (s : State), s.integ.flags[flag]? = some f ∧ f.work = .step j tile ∧ f.ran =
      false := ⟨0, { (default : FlagRec) with work := .step 0 0 }, 0, 0, wUp.modInteg (fun x => { x with flags := [{ (default : FlagRec) with work := .step 0 0 }] }), by decide +kernel⟩

theorem met_Milestones_1 :
    ∃ (queue : Fin 32768) (idx : Fin 65536) (c : Cmd) (s : State), s.runs queue.val idx.val 0x11 0 c = true ∧ s.jobForeign
      (cmdKey queue.val idx.val) (fld (c.d 2) 15 0) = false ∧ c.d 1 = s.par (P.jobCommitted (fld (c.d 2) 15 0)) + 1 ∧
      (s.jobMode (fld (c.d 2) 15 0) = 1 ∨ s.jobMode (fld (c.d 2) 15 0) = 2) := ⟨0, 0, cmdArgs 0x11 0 [1], wJob 1 (cmdArgs 0x11 0 [1]), by decide +kernel⟩

theorem met_Milestones_2 :
    ∃ (job : Fin 65536) (s : State), s.jobMode job = 2 ∧ (s.job job).steps.all StepRec.done = true ∧ s.jobFlags job = false := ⟨0, wJob 2 (cmdArgs 0x11 0 [1]), by decide +kernel⟩

theorem met_Milestones_3 :
    ∃ (queue : Fin 32768) (idx : Fin 65536) (c : Cmd) (s : State), s.runs queue.val idx.val 0x12 0 c = true ∧ s.jobForeign
      (cmdKey queue.val idx.val) (fld (c.d 2) 15 0) = false ∧ c.d 1 = s.par (P.jobCommitted (fld (c.d 2) 15 0)) + 1 ∧ s.jobMode
      (fld (c.d 2) 15 0) = 3 := ⟨0, 0, cmdArgs 0x12 0 [1], wJob 3 (cmdArgs 0x12 0 [1]), by decide +kernel⟩

theorem met_Milestones_4 :
    ∃ (queue : Fin 32768) (idx : Fin 65536) (c : Cmd) (s : State), s.runs queue.val idx.val 0x12 0 c = true ∧ s.jobForeign
      (cmdKey queue.val idx.val) (fld (c.d 2) 15 0) = false ∧ c.d 1 = s.par (P.jobCommitted (fld (c.d 2) 15 0)) := ⟨0, 0, cmdArgs 0x12 0 [0], wJob 3 (cmdArgs 0x12 0 [0]), by decide +kernel⟩

theorem met_Milestones_5 :
    ∃ (queue : Fin 32768) (idx : Fin 65536) (c : Cmd) (s : State), s.runs queue.val idx.val 0x13 0 c = true ∧ s.jobForeign
      (cmdKey queue.val idx.val) (fld (c.d 2) 15 0) = false ∧ c.d 1 = s.par (P.jobCommitted (fld (c.d 2) 15 0)) + 1 ∧ s.jobMode
      (fld (c.d 2) 15 0) ≠ 0 := ⟨0, 0, cmdArgs 0x13 0 [1], wJob 3 (cmdArgs 0x13 0 [1]), by decide +kernel⟩

theorem met_Milestones_6 :
    ∃ (job : Fin 65536) (value : Nat) (s : State), s.takes (P.jobBase job) value = true := ⟨0, 7, wUp, by decide +kernel⟩

theorem met_Milestones_7 :
    ∃ (job : Fin 65536) (value : Nat) (s : State), s.takes (P.jobRelease job) value = true := ⟨0, 1, wUp, by decide +kernel⟩

theorem met_Reductions_1 :
    ∃ (queue : Fin 32768) (idx : Fin 65536) (env : Env) (c : Cmd) (s : State), s.runs queue.val idx.val 0x14 0 c = true ∧
      s.redOpen (c.redOpen).n = false ∧ s.redFields (c.redOpen) = true ∧ ((c.redOpen).consumed = true ∨ s.rangeStatus (s.qHid
      (cmdKey queue.val idx.val / 65536)) (c.redOpen).dest (c.redOpen).destBytes true = 0) ∧ s.rangeStatus (s.qHid (cmdKey
      queue.val idx.val / 65536)) (c.redOpen).bitmap 32 false = 0 ∧ (c.redOpen).window = none ∧ (s.cohReady ((c.redOpen).bitmap
      / 64 * 64) 64 false).1 = true ∧ ((s.cohReady ((c.redOpen).bitmap / 64 * 64) 64 false).2.rangeAtHub (s.qHid (cmdKey
      queue.val idx.val / 65536)) ((c.redOpen).bitmap / 64 * 64) 64 env).1.2 = [] ∧ ofLe (cut ((c.redOpen).bitmap % 64) 32
      ((s.cohReady ((c.redOpen).bitmap / 64 * 64) 64 false).2.rangeAtHub (s.qHid (cmdKey queue.val idx.val / 65536))
      ((c.redOpen).bitmap / 64 * 64) 64 env).1.1) ≠ 0 := ⟨0, 0, noEnv, redCmd, wRedOpen, by decide +kernel⟩

theorem met_Reductions_2 :
    ∃ (queue : Fin 32768) (idx : Fin 65536) (d : List Byte) (ph : Phys) (slots : List (Nat × HostData)) (c : Cmd) (s : State),
      s.runs queue.val idx.val 0x14 1 c = true ∧ s.redOpen (fld (c.d 1) 7 0) = true ∧ (s.red (fld (c.d 1) 7 0)).src = 0 ∧ fld
      (c.d 2) 48 24 ≠ 0 ∧ fld (c.d 2) 23 0 + fld (c.d 2) 48 24 ≤ (s.red (fld (c.d 1) 7 0)).tileCount ∧ c.d 3 % 64 = 0 ∧ (s.red
      (fld (c.d 1) 7 0)).bitmap.testBit (s.qHid (cmdKey queue.val idx.val / 65536)) = true ∧ (Tab.keys (s.red (fld (c.d 1) 7
      0)).tiles ++ Tab.keys (s.red (fld (c.d 1) 7 0)).rounded).any (fun z => decide (fld (c.d 2) 23 0 ≤ z ∧ z < fld (c.d 2) 23
      0 + fld (c.d 2) 48 24) && (s.red (fld (c.d 1) 7 0)).hidDone z (s.qHid (cmdKey queue.val idx.val / 65536))) = false ∧ fld
      (c.d 1) 8 8 = 1 := ⟨0, 0, [1], noPhys, [], cmdArgs 0x14 1 [256, 2 ^ 24, 0], wRed (cmdArgs 0x14 1 [256, 2 ^ 24, 0]), by decide +kernel⟩

theorem met_Reductions_3 :
    ∃ (queue : Fin 32768) (idx : Fin 65536) (env : Env) (c : Cmd) (s : State), s.runs queue.val idx.val 0x14 1 c = true ∧
      s.redOpen (fld (c.d 1) 7 0) = true ∧ (s.red (fld (c.d 1) 7 0)).src = 0 ∧ fld (c.d 2) 48 24 ≠ 0 ∧ fld (c.d 2) 23 0 + fld
      (c.d 2) 48 24 ≤ (s.red (fld (c.d 1) 7 0)).tileCount ∧ c.d 3 % 64 = 0 ∧ (s.red (fld (c.d 1) 7 0)).bitmap.testBit (s.qHid
      (cmdKey queue.val idx.val / 65536)) = true ∧ (Tab.keys (s.red (fld (c.d 1) 7 0)).tiles ++ Tab.keys (s.red (fld (c.d 1) 7
      0)).rounded).any (fun z => decide (fld (c.d 2) 23 0 ≤ z ∧ z < fld (c.d 2) 23 0 + fld (c.d 2) 48 24) && (s.red (fld (c.d
      1) 7 0)).hidDone z (s.qHid (cmdKey queue.val idx.val / 65536))) = false ∧ fld (c.d 1) 8 8 = 0 ∧ c.d 3 + ((Nat.min (s.red
      (fld (c.d 1) 7 0)).count (65536 * (fld (c.d 2) 23 0 + fld (c.d 2) 48 24)) - 65536 * fld (c.d 2) 23 0) * (s.red (fld (c.d
      1) 7 0)).wIn) ≤ dpaEnd ∧ s.rangeStatus (s.qHid (cmdKey queue.val idx.val / 65536)) (c.d 3) ((Nat.min (s.red (fld (c.d 1)
      7 0)).count (65536 * (fld (c.d 2) 23 0 + fld (c.d 2) 48 24)) - 65536 * fld (c.d 2) 23 0) * (s.red (fld (c.d 1) 7 0)).wIn)
      false = 0 ∧ (s.cohReady (c.d 3) ((Nat.min (s.red (fld (c.d 1) 7 0)).count (65536 * (fld (c.d 2) 23 0 + fld (c.d 2) 48
      24)) - 65536 * fld (c.d 2) 23 0) * (s.red (fld (c.d 1) 7 0)).wIn) false).1 = true ∧ ((s.cohReady (c.d 3) ((Nat.min (s.red
      (fld (c.d 1) 7 0)).count (65536 * (fld (c.d 2) 23 0 + fld (c.d 2) 48 24)) - 65536 * fld (c.d 2) 23 0) * (s.red (fld (c.d
      1) 7 0)).wIn) false).2.rangeAtHub (s.qHid (cmdKey queue.val idx.val / 65536)) (c.d 3) ((Nat.min (s.red (fld (c.d 1) 7
      0)).count (65536 * (fld (c.d 2) 23 0 + fld (c.d 2) 48 24)) - 65536 * fld (c.d 2) 23 0) * (s.red (fld (c.d 1) 7 0)).wIn)
      env).1.2 = [] := ⟨0, 0, noEnv, cmdArgs 0x14 1 [0, 2 ^ 24, 0], wRed (cmdArgs 0x14 1 [0, 2 ^ 24, 0]), by decide +kernel⟩

theorem met_Reductions_4 :
    ∃ (queue : Fin 32768) (idx : Fin 65536) (c : Cmd) (s : State), s.runs queue.val idx.val 0x14 2 c = true ∧ s.redOpen (fld
      (c.d 1) 7 0) = true ∧ ((s.red (fld (c.d 1) 7 0)).hid = s.qHid ((cmdKey queue.val idx.val) / 65536) ∨ s.qPriv ((cmdKey
      queue.val idx.val) / 65536) = true) := ⟨0, 0, cmdArgs 0x14 2 [0], wRed (cmdArgs 0x14 2 [0]), by decide +kernel⟩

theorem met_Reductions_6 :
    ∃ (reduction : Fin 256) (env : Env) (z : Nat) (s : State), s.redOpen reduction = true ∧ s.redNext reduction = some z ∧
      (s.red reduction).dest = 0 := ⟨0, noEnv, 0, wRedTile 0, by decide +kernel⟩

theorem met_Reductions_7 :
    ∃ (reduction : Fin 256) (env : Env) (z : Nat) (s : State), s.redOpen reduction = true ∧ s.redNext reduction = some z ∧
      (s.red reduction).dest ≠ 0 ∧ (s.cohReady ((s.red reduction).dest - 1 + z * 65536 * (s.red reduction).wOut) ((s.red
      reduction).elems z * (s.red reduction).wOut) true).1 = true := ⟨0, noEnv, 0, wRedTile 4097, by decide +kernel⟩

theorem met_Reductions_8 :
    ∃ (reduction : Fin 256) (s : State), s.redOpen reduction = true ∧ (s.red reduction).waits.any (fun w => !w.contrib &&
      decide (w.since + usT 2000 ≤ s.now)) = true := ⟨0, { (wRedTile 0).modRed 0 (fun r => { r with waits := [default] }) with now := 10 ^ 9 }, by decide +kernel⟩

theorem met_Reductions_9 :
    ∃ (reduction : Fin 256) (s : State), s.redOpen reduction = true ∧ (s.red reduction).advanced + msT (s.par P.redTimeoutMs) ≤
      s.now := ⟨0, { wRedTile 0 with now := 10 ^ 12 }, by decide +kernel⟩

theorem met_Checkpoints_1 :
    ∃ (queue : Fin 32768) (idx : Fin 65536) (env : Env) (c : Cmd) (s : State), s.runs queue.val idx.val 0x20 0 c = true ∧ 1 ≤
      c.d 3 ∧ c.d 3 ≤ 64 ∧ (fld (c.d 1) 31 16 < 256 ∨ fld (c.d 1) 31 16 = 0xFFFF) ∧ c.d 2 % 64 = 0 ∧ c.d 2 + 16 * c.d 3 ≤
      dpaEnd ∧ (s.job (fld (c.d 1) 15 0)).freeze.on = false ∧ s.jobMode (fld (c.d 1) 15 0) ≠ 4 ∧ (s.rangeAtHub (s.qHid (cmdKey
      queue.val idx.val / 65536)) (c.d 2 / 64 * 64) (cdiv (c.d 2 - (c.d 2 / 64 * 64) + 16 * c.d 3) 64 * 64) env).1.2 = [] ∧
      (rangesOf (c.d 3) ((s.rangeAtHub (s.qHid (cmdKey queue.val idx.val / 65536)) (c.d 2 / 64 * 64) (cdiv (c.d 2 - (c.d 2 / 64
      * 64) + 16 * c.d 3) 64 * 64) env).1.1.drop (c.d 2 - (c.d 2 / 64 * 64)))).all (fun r => r.1 % 4096 == 0 && r.2 % 4096 == 0
      && decide (r.1 + r.2 ≤ dpaEnd)) = true := ⟨0, 0, noEnv, cmdArgs 0x20 0 [0, 0, 1], wMove (cmdArgs 0x20 0 [0, 0, 1]), by decide +kernel⟩

theorem met_Checkpoints_2 :
    ∃ (queue : Fin 32768) (idx : Fin 65536) (c : Cmd) (s : State), s.runs queue.val idx.val 0x20 1 c = true ∧ (s.job (fld (c.d
      1) 15 0)).freeze.on = true := ⟨0, 0, cmdArgs 0x20 1 [0], wFrozen (cmdArgs 0x20 1 [0]), by decide +kernel⟩

theorem met_Checkpoints_3 :
    ∃ (queue : Fin 32768) (idx : Fin 65536) (count : Nat) (env : Env) (c : Cmd) (s : State), s.runs queue.val idx.val 0x21 0 c
      = true ∧ (((s.job (fld (c.d 1) 15 0)).freeze).drain.cmd = 0 ∨ ((s.job (fld (c.d 1) 15 0)).freeze).drain.cmd = (cmdKey
      queue.val idx.val) + 1) ∧ ((s.job (fld (c.d 1) 15 0)).freeze).on = true ∧ c.d 2 % 2 ^ 21 = 0 ∧ 4096 * ((s.job (fld (c.d
      1) 15 0)).freeze).blocks + 4096 ≤ c.d 3 ∧ s.svc.bme = true ∧ s.svc.dl = true ∧ s.svc.dstate = 0 ∧ ((s.job (fld (c.d 1) 15
      0)).freeze).broken = false ∧ (((s.modFreeze (fld (c.d 1) 15 0) (fun f =>
      { f with drain := { f.drain with cmd := (cmdKey queue.val idx.val) + 1 } })).drainRun (fld (c.d 1) 15 0) (s.qHid (cmdKey
      queue.val idx.val / 65536)) (c.d 2) env count).job (fld (c.d 1) 15 0)).freeze.drain.pos < (((s.modFreeze (fld (c.d 1) 15
      0) (fun f => { f with drain := { f.drain with cmd := (cmdKey queue.val idx.val) + 1 } })).drainRun (fld (c.d 1) 15 0)
      (s.qHid (cmdKey queue.val idx.val / 65536)) (c.d 2) env count).job (fld (c.d 1) 15 0)).freeze.blocks := ⟨0, 0, 0, noEnv, cmdArgs 0x21 0 [0, 0, 8192], wDrain (cmdArgs 0x21 0 [0, 0, 8192]), by decide +kernel⟩

theorem met_Checkpoints_4 :
    ∃ (queue : Fin 32768) (idx : Fin 65536) (count : Nat) (ph : Phys) (d : List Byte) (slots : List (Nat × HostData)) (c : Cmd)
      (s : State), s.runs queue.val idx.val 0x21 0 c = true ∧ (((s.job (fld (c.d 1) 15 0)).freeze).drain.cmd = 0 ∨ ((s.job (fld
      (c.d 1) 15 0)).freeze).drain.cmd = (cmdKey queue.val idx.val) + 1) ∧ ((s.job (fld (c.d 1) 15 0)).freeze).on = true ∧ c.d
      2 % 2 ^ 21 = 0 ∧ 4096 * ((s.job (fld (c.d 1) 15 0)).freeze).blocks + 4096 ≤ c.d 3 ∧ s.svc.bme = true ∧ s.svc.dl = true ∧
      s.svc.dstate = 0 ∧ ((s.job (fld (c.d 1) 15 0)).freeze).broken = false ∧ ((((s.modFreeze (fld (c.d 1) 15 0) (fun f =>
      { f with drain := { f.drain with cmd := (cmdKey queue.val idx.val) + 1 } })).drainRun (fld (c.d 1) 15 0) (s.qHid (cmdKey
      queue.val idx.val / 65536)) (c.d 2) ⟨ph, .data d, slots⟩ count).job (fld (c.d 1) 15 0)).freeze).blocks ≤ ((((s.modFreeze
      (fld (c.d 1) 15 0) (fun f => { f with drain := { f.drain with cmd := (cmdKey queue.val idx.val) + 1 } })).drainRun (fld
      (c.d 1) 15 0) (s.qHid (cmdKey queue.val idx.val / 65536)) (c.d 2) ⟨ph, .data d, slots⟩ count).job (fld (c.d 1) 15
      0)).freeze).drain.pos ∧ ((((s.modFreeze (fld (c.d 1) 15 0) (fun f =>
      { f with drain := { f.drain with cmd := (cmdKey queue.val idx.val) + 1 } })).drainRun (fld (c.d 1) 15 0) (s.qHid (cmdKey
      queue.val idx.val / 65536)) (c.d 2) ⟨ph, .data d, slots⟩ count).job (fld (c.d 1) 15 0)).freeze).blocks ≠ 0 := ⟨0, 0, 0, noPhys, [], [], cmdArgs 0x21 0 [0, 0, 8192], (wDrain (cmdArgs 0x21 0 [0, 0, 8192])).modFreeze 0 (fun f => { f with drain := { f.drain with pos := 1 } }), by decide +kernel⟩

theorem met_Waypoints_1 :
    ∃ (queue : Fin 32768) (idx : Fin 65536) (c : Cmd) (s : State), s.runs queue.val idx.val 0x09 0 c = true ∧ s.resetRuns =
      false ∧ s.wpArmed (c.d 1) = false ∧ fld (c.d 4) 39 38 < 2 ∧ fld (c.d 4) 26 19 ≠ 0 ∧ fld (c.d 5) 60 32 ≠ 0 ∧ fld (c.d 5)
      60 32 ≤ 2 ^ 28 := ⟨0, 0, cmdArgs 0x09 0 [0, 0, 0, 2 ^ 19, 2 ^ 32], wMove (cmdArgs 0x09 0 [0, 0, 0, 2 ^ 19, 2 ^ 32]), by decide +kernel⟩

theorem met_Waypoints_2 :
    ∃ (queue : Fin 32768) (idx : Fin 65536) (c : Cmd) (s : State), s.runs queue.val idx.val 0x09 1 c = true := ⟨0, 0, cmdArgs 0x09 1 [0], wMove (cmdArgs 0x09 1 [0]), by decide +kernel⟩

theorem met_Waypoints_3 :
    ∃ (waypoint : Fin 512) (value : Nat) (s : State), s.takes (P.wpWord waypoint 3) value = true ∧ fld (setFld (setFld value 46
      44 (fld (s.par (P.wpWord waypoint 3)) 46 44)) 43 40 (fld (s.par (P.wpWord waypoint 3)) 43 40)) 47 47 = 1 ∧ s.wpArmed
      waypoint = false := ⟨0, 2 ^ 47 + 2 ^ 19, wUp, by decide +kernel⟩

theorem met_Waypoints_4 :
    ∃ (waypoint : Fin 512) (value : Nat) (s : State), s.takes (P.wpWord waypoint 3) value = true ∧ fld value 47 47 = 0 ∧
      s.wpArmed waypoint = true := ⟨0, 2 ^ 19, wUp.setPar (P.wpWord 0 3) (2 ^ 47 + 2 ^ 44 + 2 ^ 19), by decide +kernel⟩

theorem met_Waypoints_5 :
    ∃ (waypoint : Fin 512) (env : Env) (i w : Nat) (s : State), (s.wpState waypoint = 2 ∨ s.wpState waypoint = 4) ∧ s.nextTile
      waypoint = some i ∧ s.winOfDesc (s.wpDesc waypoint) = some w ∧ (s.stageTile waypoint i env).1 = true := ⟨0, noEnv, 0, 0, wStaging, by decide +kernel⟩

theorem met_Versions_1 :
    ∃ (queue : Fin 32768) (idx : Fin 65536) (c : Cmd) (s : State), s.runs queue.val idx.val 0x18 0 c = true ∧ s.openCheck (fld
      (c.d 1) 7 0) (s.qHid (cmdKey queue.val idx.val / 65536)) = 0 ∧ s.liveVer (fld (c.d 1) 7 0) (fld (c.d 2) 31 0) = true := ⟨0, 0, cmdArgs 0x18 0 [0, 1], wSrv 1 id (cmdArgs 0x18 0 [0, 1]), by decide +kernel⟩

theorem met_Versions_2 :
    ∃ (queue : Fin 32768) (idx : Fin 65536) (c : Cmd) (s : State), s.runs queue.val idx.val 0x18 1 c = true ∧ s.openCheck (fld
      (c.d 1) 7 0) (s.qHid (cmdKey queue.val idx.val / 65536)) = 0 ∧ s.liveVer (fld (c.d 1) 7 0) (s.par (P.srLatest (fld (c.d
      1) 7 0))) = true := ⟨0, 0, cmdArgs 0x18 1 [0, 1], wSrv 1 id (cmdArgs 0x18 1 [0, 1]), by decide +kernel⟩

theorem met_Versions_3 :
    ∃ (queue : Fin 32768) (idx : Fin 65536) (c : Cmd) (s : State), s.runs queue.val idx.val 0x18 2 c = true ∧ s.openCheck (fld
      (c.d 1) 7 0) (s.qHid (cmdKey queue.val idx.val / 65536)) = 0 ∧ s.liveVer (fld (c.d 1) 7 0) (fld (c.d 2) 31 0) = true ∧
      s.par (P.srLive (fld (c.d 1) 7 0)) < 16 := ⟨0, 0, cmdArgs 0x18 2 [0, 1], wSrv 1 id (cmdArgs 0x18 2 [0, 1]), by decide +kernel⟩

theorem met_Versions_4 :
    ∃ (queue : Fin 32768) (idx : Fin 65536) (c : Cmd) (s : State), s.runs queue.val idx.val 0x18 3 c = true ∧ s.openCheck (fld
      (c.d 1) 7 0) (s.qHid (cmdKey queue.val idx.val / 65536)) = 0 ∧ s.liveVer (fld (c.d 1) 7 0) (s.par (P.srLatest (fld (c.d
      1) 7 0))) = true ∧ s.par (P.srLive (fld (c.d 1) 7 0)) < 16 := ⟨0, 0, cmdArgs 0x18 3 [0, 1], wSrv 1 id (cmdArgs 0x18 3 [0, 1]), by decide +kernel⟩

theorem met_Versions_5 :
    ∃ (queue : Fin 32768) (idx : Fin 65536) (c : Cmd) (s : State), s.runs queue.val idx.val 0x18 4 c = true ∧ s.openCheck (fld
      (c.d 1) 7 0) (s.qHid (cmdKey queue.val idx.val / 65536)) = 0 := ⟨0, 0, cmdArgs 0x18 4 [0], wSrv 1 id (cmdArgs 0x18 4 [0]), by decide +kernel⟩

theorem met_Versions_6 :
    ∃ (queue : Fin 32768) (idx : Fin 65536) (c : Cmd) (o : OpenVer) (s : State), s.runs queue.val idx.val 0x19 0 c = true ∧
      s.publishCheck (fld (c.d 1) 7 0) (s.qHid (cmdKey queue.val idx.val / 65536)) = 0 ∧ ((s.leaseTouch (fld (c.d 1) 7 0)
      (s.qHid (cmdKey queue.val idx.val / 65536))).settleOpen (fld (c.d 1) 7 0) (s.qHid (cmdKey queue.val idx.val /
      65536))).isBroken (.opened (fld (c.d 1) 7 0) (s.qHid (cmdKey queue.val idx.val / 65536))) = false ∧ openOf
      (((s.leaseTouch (fld (c.d 1) 7 0) (s.qHid (cmdKey queue.val idx.val / 65536))).settleOpen (fld (c.d 1) 7 0) (s.qHid
      (cmdKey queue.val idx.val / 65536))).sr (fld (c.d 1) 7 0)) (s.qHid (cmdKey queue.val idx.val / 65536)) = some o := ⟨0, 0, cmdArgs 0x19 0 [0], { hid := 5, base := 1, own := [], broken := false }, wSrv 1 openBy (cmdArgs 0x19 0 [0]), by decide +kernel⟩

theorem met_Versions_7 :
    ∃ (queue : Fin 32768) (idx : Fin 65536) (c : Cmd) (o : OpenVer) (s : State), s.runs queue.val idx.val 0x19 1 c = true ∧
      s.publishCheck (fld (c.d 1) 7 0) (s.qHid (cmdKey queue.val idx.val / 65536)) = 0 ∧ ((s.leaseTouch (fld (c.d 1) 7 0)
      (s.qHid (cmdKey queue.val idx.val / 65536))).settleOpen (fld (c.d 1) 7 0) (s.qHid (cmdKey queue.val idx.val /
      65536))).isBroken (.opened (fld (c.d 1) 7 0) (s.qHid (cmdKey queue.val idx.val / 65536))) = false ∧ openOf
      (((s.leaseTouch (fld (c.d 1) 7 0) (s.qHid (cmdKey queue.val idx.val / 65536))).settleOpen (fld (c.d 1) 7 0) (s.qHid
      (cmdKey queue.val idx.val / 65536))).sr (fld (c.d 1) 7 0)) (s.qHid (cmdKey queue.val idx.val / 65536)) = some o ∧ o.base
      = ((s.leaseTouch (fld (c.d 1) 7 0) (s.qHid (cmdKey queue.val idx.val / 65536))).settleOpen (fld (c.d 1) 7 0) (s.qHid
      (cmdKey queue.val idx.val / 65536))).par (P.srLatest (fld (c.d 1) 7 0)) := ⟨0, 0, cmdArgs 0x19 1 [0], { hid := 5, base := 1, own := [], broken := false }, wSrv 1 openBy (cmdArgs 0x19 1 [0]), by decide +kernel⟩

theorem met_Versions_8 :
    ∃ (queue : Fin 32768) (idx : Fin 65536) (c : Cmd) (s : State), s.runs queue.val idx.val 0x1A 0 c = true ∧ (fld (c.d 1) 15 8
      = (s.qHid (cmdKey queue.val idx.val / 65536)) ∨ s.qPriv ((cmdKey queue.val idx.val) / 65536) = true) ∧ s.srOn (fld (c.d
      1) 7 0) = true ∧ s.srVersioned (fld (c.d 1) 7 0) = true ∧ s.srGrant (fld (c.d 1) 7 0) (s.qHid (cmdKey queue.val idx.val /
      65536)) rP = true ∧ s.isDead (fld (c.d 1) 7 0) (s.qHid (cmdKey queue.val idx.val / 65536)) = false ∧ (openOf (s.sr (fld
      (c.d 1) 7 0)) (fld (c.d 1) 15 8)).isSome = true := ⟨0, 0, cmdArgs 0x1A 0 [5 * 256], wSrv 1 openBy (cmdArgs 0x1A 0 [5 * 256]), by decide +kernel⟩

theorem met_LeasesAndDeaths_1 :
    ∃ (queue : Fin 32768) (idx : Fin 65536) (c : Cmd) (s : State), s.runs queue.val idx.val 0x1B 0 c = true ∧ (fld (c.d 1) 15
      0) ≠ 0xFFFF ∧ s.leaseCheck (fld (c.d 1) 15 0) (s.qHid (cmdKey queue.val idx.val / 65536)) = 0 ∧ s.isDead (fld (c.d 1) 15
      0) (s.qHid (cmdKey queue.val idx.val / 65536)) = false ∧ s.par (P.srLeaseEnable (fld (c.d 1) 15 0)) ≠ 0 := ⟨0, 0, cmdArgs 0x1B 0 [0], wSrv 1 id (cmdArgs 0x1B 0 [0]), by decide +kernel⟩

theorem met_LeasesAndDeaths_2 :
    ∃ (queue : Fin 32768) (idx : Fin 65536) (c : Cmd) (ms : Nat) (s : State), s.runs queue.val idx.val 0x1B 0 c = true ∧ (fld
      (c.d 1) 15 0) = 0xFFFF ∧ ((s.srsOn.filter (fun n => s.par (P.srLeaseEnable n) == 1 && !s.isDead n (s.qHid (cmdKey
      queue.val idx.val / 65536)) && s.srSome n (s.qHid (cmdKey queue.val idx.val / 65536)))).map (fun n => s.par (P.srLeaseMs
      n))).min? = some ms := ⟨0, 0, cmdArgs 0x1B 0 [0xFFFF], 100, wSrv 1 id (cmdArgs 0x1B 0 [0xFFFF]), by decide +kernel⟩

theorem met_LeasesAndDeaths_3 :
    ∃ (queue : Fin 32768) (idx : Fin 65536) (c : Cmd) (s : State), s.runs queue.val idx.val 0x1B 1 c = true ∧ s.leaseCheck (fld
      (c.d 1) 15 0) (s.qHid (cmdKey queue.val idx.val / 65536)) = 0 ∧ s.isDead (fld (c.d 1) 15 0) (s.qHid (cmdKey queue.val
      idx.val / 65536)) = false ∧ openOf (s.sr (fld (c.d 1) 15 0)) (s.qHid (cmdKey queue.val idx.val / 65536)) = none ∧
      (s.dirIn (fld (c.d 1) 15 0)).any (fun e => e.holders.contains (s.qHid (cmdKey queue.val idx.val / 65536))) = false := ⟨0, 0, cmdArgs 0x1B 1 [0], wSrv 1 id (cmdArgs 0x1B 1 [0]), by decide +kernel⟩

theorem met_LeasesAndDeaths_4 :
    ∃ (queue : Fin 32768) (idx : Fin 65536) (c : Cmd) (s : State), s.runs queue.val idx.val 0x1B 2 c = true ∧ s.leaseCheck (fld
      (c.d 1) 15 0) (s.qHid (cmdKey queue.val idx.val / 65536)) = 0 := ⟨0, 0, cmdArgs 0x1B 2 [0], wSrv 1 id (cmdArgs 0x1B 2 [0]), by decide +kernel⟩

theorem met_LeasesAndDeaths_5 :
    ∃ (ph : Phys) (s : State), s.serving = true ∧ s.shared.checked + msT 1 ≤ s.now := ⟨noPhys, wSnoop false, by decide +kernel⟩

theorem met_LeasesAndDeaths_6 :
    ∃ (value : Nat) (ph : Phys) (s : State), s.takes P.shareDeclareDead value = true := ⟨5, noPhys, wSrv 1 id (cmdOf 0 0), by decide +kernel⟩

theorem met_LeasesAndDeaths_7 :
    ∃ (value : Nat) (s : State), s.takes P.shareRevive value = true := ⟨5, (wSrv 1 id (cmdOf 0 0)).setPar (P.srDead 0 0) 32, by decide +kernel⟩

theorem met_LeasesAndDeaths_8 :
    ∃ (hid : Fin 256) (ph : Phys) (s : State), s.par P.shareLinkGraceMs ≠ 0 ∧ s.hidDown hid ≠ 0 ∧ s.hidDown hid + msT (s.par
      P.shareLinkGraceMs) < s.now + 1 := ⟨5, noPhys, { (service [(P.shareLinkGraceMs, 1), (hidKey 0, 5)]) with now := 10 ^ 9, shared := { State.reset.shared with downSince := [(5, 1)] } }, by decide +kernel⟩

theorem met_Snoops_1 :
    ∃ (port : Fin 512) (line : Nat) (keep : Bool) (ph : Phys) (x : Snoop) (s : State), s.shared.snoops.find? (fun x => x.line
      == line && x.hid == s.hidOf port) = some x := ⟨0, 1, false, noPhys, { line := 1, hid := 5, inv := true, since := 0, again := false }, wSnoop false, by decide +kernel⟩

theorem met_Snoops_2 :
    ∃ (line : Nat) (hid : Fin 256) (ph : Phys) (x : Snoop) (p : Nat) (s : State), s.shared.snoops.find? (fun x => x.line ==
      line && x.hid == hid.val) = some x ∧ x.since + usT (s.par P.shareBiTimeoutUs) ≤ s.now ∧ x.again = false ∧ s.portOfHid hid
      = some p := ⟨1, 5, noPhys, { line := 1, hid := 5, inv := true, since := 0, again := false }, 0, wSnoop false, by decide +kernel⟩

theorem met_Snoops_3 :
    ∃ (line : Nat) (hid : Fin 256) (ph : Phys) (x : Snoop) (n : Nat) (s : State), s.shared.snoops.find? (fun x => x.line ==
      line && x.hid == hid.val) = some x ∧ x.since + usT (s.par P.shareBiTimeoutUs) ≤ s.now ∧ x.again = true ∧ s.cohAt (line *
      64) = some n := ⟨1, 5, noPhys, { line := 1, hid := 5, inv := true, since := 0, again := true }, 0, (wSnoop true).modSr 0 (fun _ => { (default : SrRec) with on := true }), by decide +kernel⟩

theorem met_Snoops_4 :
    ∃ (port : Fin 512) (line : Nat) (s : State), s.linkUp (port / 16) = true := ⟨0, 1, wSnoop false, by decide +kernel⟩

theorem met_Retirement_1 :
    ∃ (queue : Fin 32768) (idx : Fin 65536) (ph : Phys) (c : Cmd) (s : State), s.runs queue.val idx.val 0x28 0 c = true ∧
      (retireRange 0 (c.d 1)).toOption.isSome = true ∧ s.media.retire.length < 1024 := ⟨0, 0, noPhys, cmdArgs 0x28 0 [0], wMove (cmdArgs 0x28 0 [0]), by decide +kernel⟩

theorem met_Retirement_2 :
    ∃ (queue : Fin 32768) (idx : Fin 65536) (ph : Phys) (c : Cmd) (s : State), s.runs queue.val idx.val 0x28 1 c = true ∧
      (retireRange 1 (c.d 1)).toOption.isSome = true ∧ s.media.retire.length < 1024 := ⟨0, 0, noPhys, cmdArgs 0x28 1 [0], wMove (cmdArgs 0x28 1 [0]), by decide +kernel⟩

theorem met_Retirement_3 :
    ∃ (queue : Fin 32768) (idx : Fin 65536) (ph : Phys) (c : Cmd) (s : State), s.runs queue.val idx.val 0x28 2 c = true ∧
      (retireRange 2 (c.d 1)).toOption.isSome = true ∧ s.media.retire.length < 1024 := ⟨0, 0, noPhys, cmdArgs 0x28 2 [0], wMove (cmdArgs 0x28 2 [0]), by decide +kernel⟩

theorem met_Retirement_4 :
    ∃ (queue : Fin 32768) (idx : Fin 65536) (c : Cmd) (g : List Nat × Nat × Nat × Nat) (s : State), s.runs queue.val idx.val
      0x28 3 c = true ∧ (retireRange 3 (c.d 1)).toOption = some g ∧ (s.frame (g.1.headD 0)).st = fQuar ∧ (s.frame (g.1.headD
      0)).mask = 0 := ⟨0, 0, cmdArgs 0x28 3 [0], ((retireRange 3 0).toOption.getD default), (wMove (cmdArgs 0x28 3 [0])).modMem (fun m => { m with frames := [(0, { st := fQuar, mask := 0, part := 0, copy := false })] }), by decide +kernel⟩

theorem met_FlaggedChecks_1 :
    ∃ (region : Fin 4) (block : Fin 9) (check : Fin 8) (work : Work) (result predicted found : Nat) (s : State), flags check
      predicted found = true ∧ s.blkSt (region.val * 16 + block.val) ≤ 2 ∧ s.workOn work = true ∧ check ≠ 6 ∧ s.par
      P.integChecks ≠ 0 ∧ s.integ.dice = [] := ⟨0, 0, 1, .factor 0 0, 1, 2, 3, wRun, by decide +kernel⟩

theorem met_FlaggedChecks_2 :
    ∃ (region : Fin 4) (block : Fin 9) (check : Fin 8) (work : Work) (result predicted found : Nat) (s : State), flags check
      predicted found = false := ⟨0, 0, 1, .factor 0 0, 1, 3, 3, wRun, by decide +kernel⟩

theorem met_FlaggedChecks_3 :
    ∃ (flag : Nat) (a2 b c : Run) (f : FlagRec) (s : State), s.integ.flags[flag]? = some f ∧ f.ran = true ∧ repeatClass f.a1 a2
      b c = clTransient := ⟨0, ⟨2, true⟩, ⟨2, true⟩, ⟨0, true⟩, flag1 (.factor 0 0) true, wFlag (.factor 0 0), by decide +kernel⟩

theorem met_FlaggedChecks_4 :
    ∃ (flag : Nat) (a2 b c : Run) (f : FlagRec) (s : State), s.integ.flags[flag]? = some f ∧ f.ran = true ∧ repeatClass f.a1 a2
      b c = clUnresolved := ⟨0, ⟨2, true⟩, ⟨3, true⟩, ⟨4, true⟩, flag1 (.factor 0 0) true, wFlag (.factor 0 0), by decide +kernel⟩

theorem met_DiceRounds_1 :
    ∃ (queue : Fin 32768) (idx : Fin 65536) (c : Cmd) (s : State), s.runs queue.val idx.val 0x29 0 c = true ∧ (fld (c.d 1) 7 0)
      < 64 ∧ (fld (c.d 1) 7 0) % 16 < 9 ∧ ((fld (c.d 1) 15 8) = 0xFF ∨ ((fld (c.d 1) 15 8) < 64 ∧ (fld (c.d 1) 15 8) % 16 < 9 ∧
      (fld (c.d 1) 15 8) / 16 ≠ (fld (c.d 1) 7 0) / 16 ∧ s.roundOk (fld (c.d 1) 15 8) = true)) ∧ s.roundOk (fld (c.d 1) 7 0) =
      true ∧ (s.blk (fld (c.d 1) 7 0)).cmd = 0 ∧ s.integ.dice.any (fun x => x.2.blk == (fld (c.d 1) 7 0) && x.2.cmd != 0) =
      false := ⟨0, 0, cmdArgs 0x29 0 [0xFF00, 7], wMove (cmdArgs 0x29 0 [0xFF00, 7]), by decide +kernel⟩

theorem met_DiceRounds_2 :
    ∃ (region : Fin 4) (block : Fin 9) (s : State), s.diceRegion region = true ∧ s.blkSt (region.val * 16 + block.val) ≤ 2 ∧
      (s.blk (region.val * 16 + block.val)).due = false ∧ s.diceFalls (region.val * 16 + block.val) = true ∧ s.integ.dice.any
      (fun p => p.2.blk == (region.val * 16 + block.val)) = false := ⟨0, 0, { wUp with now := 10 ^ 14 }, by decide +kernel⟩

theorem met_DiceRounds_4 :
    ∃ (region : Fin 4) (own third again : Nat) (lanes : List Nat) (r : DiceRun) (s : State), Tab.find? region.val s.integ.dice
      = some r ∧ r.cmd = 0 := ⟨0, 1, 0, 0, [], run0 0, wRound, by decide +kernel⟩

theorem met_EngineResets_1 :
    ∃ (index : Fin 64) (waiting : Nat) (s : State), s.engBusy 0 index = true ∧ s.recovRuns = true ∧ s.engLive 0 index = true ∧
      Tab.find? (unitBlk index) s.recov.eng = none ∧ Tab.find? (unitRegion (unitBlk index)) s.recov.region = none := ⟨0, 0, wBusy, by decide +kernel⟩

theorem met_EngineResets_2 :
    ∃ (index : Fin 64) (waiting : Nat) (s : State), s.recovRuns = true ∧ s.engLive 3 index = true ∧ Tab.find? (unitOf 1 index)
      s.recov.eng = none ∧ Tab.find? (unitRegion (unitOf 1 index)) s.recov.region = none ∧ s.engCount (unitOf 1 index) < 4 := ⟨0, 0, wUp, by decide +kernel⟩

theorem met_EngineResets_3 :
    ∃ (index : Fin 64) (waiting : Nat) (s : State), s.recovRuns = true ∧ s.engLive 2 index = true ∧ Tab.find? (unitOf 5 (2 *
      index)) s.recov.eng = none ∧ Tab.find? (unitRegion (unitOf 5 (2 * index))) s.recov.region = none := ⟨0, 0, wUp, by decide +kernel⟩

theorem met_EngineResets_4 :
    ∃ (index : Fin 64) (ph : Phys) (e : EngReset) (s : State), Tab.find? (unitBlk index) s.recov.eng = some e ∧ e.searching =
      false := ⟨0, noPhys, eng1 1 [0] false, wEng (unitBlk 0) (eng1 1 [0] false), by decide +kernel⟩

theorem met_EngineResets_5 :
    ∃ (index : Fin 64) (ph : Phys) (e : EngReset) (s : State), Tab.find? (unitOf 1 index) s.recov.eng = some e ∧ e.searching =
      false := ⟨0, noPhys, eng1 2 [] false, wEng (unitOf 1 0) (eng1 2 [] false), by decide +kernel⟩

theorem met_EngineResets_6 :
    ∃ (kind : Fin 4) (index : Fin 64) (e : EngReset) (s : State), Tab.find? (engUnit kind index) s.recov.eng = some e ∧
      e.searching = false ∧ e.start + msT 1 ≤ s.now := ⟨0, 0, eng1 1 [0] false, { wEng (unitBlk 0) (eng1 1 [0] false) with now := 10 ^ 9 }, by decide +kernel⟩

theorem met_EngineResets_7 :
    ∃ (index : Fin 64) (ph : Phys) (e : EngReset) (s : State), Tab.find? (engUnit 1 index) s.recov.eng = some e ∧ e.searching =
      false := ⟨0, noPhys, eng1 2 [] false, wEng (engUnit 1 0) (eng1 2 [] false), by decide +kernel⟩

theorem met_EngineResets_8 :
    ∃ (region : Fin 4) (block : Fin 9) (env : Env) (e : EngReset) (i : Nat) (rest : List Nat) (s : State), Tab.find? (unitBlk
      (region.val * 16 + block.val)) s.recov.eng = some e ∧ e.searching = true ∧ e.suspects = i :: rest := ⟨0, 0, noEnv, eng1 1 [0, 1] true, 0, [1], wEng (unitBlk 0) (eng1 1 [0, 1] true), by decide +kernel⟩

theorem met_EngineResets_9 :
    ∃ (region : Fin 4) (block : Fin 9) (env : Env) (e : EngReset) (i j : Nat) (rest : List Nat) (s : State), Tab.find? (unitBlk
      (region.val * 16 + block.val)) s.recov.eng = some e ∧ e.searching = true ∧ e.suspects = i :: j :: rest := ⟨0, 0, noEnv, eng1 1 [0, 1] true, 0, 1, [], wEng (unitBlk 0) (eng1 1 [0, 1] true), by decide +kernel⟩

theorem met_EngineResets_10 :
    ∃ (region : Fin 4) (block : Fin 9) (env : Env) (e : EngReset) (i : Nat) (s : State), Tab.find? (unitBlk (region.val * 16 +
      block.val)) s.recov.eng = some e ∧ e.searching = true ∧ e.suspects = [i] := ⟨0, 0, noEnv, eng1 1 [0] true, 0, wEng (unitBlk 0) (eng1 1 [0] true), by decide +kernel⟩

theorem met_DeviceStates_1 :
    ∃ (region : Fin 4) (fatal : Bool) (s : State), s.recovRuns = true ∧ (Tab.get region.val s.recov.regionDue = true ∨ fatal =
      true) ∧ Tab.find? region.val s.recov.region = none := ⟨0, true, wUp, by decide +kernel⟩

theorem met_DeviceStates_2 :
    ∃ (region : Fin 4) (lost : List Nat) (env : Env) (t : Nat) (s : State), Tab.find? region.val s.recov.region = some t ∧
      s.regionStacksUp region = true ∧ s.power.queue.any (fun w => w.kind == 1 && w.unit == region.val) = false := ⟨0, [], noEnv, 0, (standby []).modRecov (fun r => { r with region := [(0, 0)] }), by decide +kernel⟩

theorem met_DeviceStates_3 :
    ∃ (region : Fin 4) (t : Nat) (s : State), Tab.find? region.val s.recov.region = some t ∧ t + msT 5 ≤ s.now := ⟨0, 0, wRegion, by decide +kernel⟩

theorem met_DeviceStates_4 :
    ∃ (env : Env) (tables : Bool) (lost : List Nat) (s : State), s.par P.devResetPhase = 1 := ⟨noEnv, false, [], wWarm 1, by decide +kernel⟩

theorem met_DeviceStates_5 :
    ∃ (env : Env) (tables : Bool) (lost : List Nat) (s : State), s.par P.devResetPhase = 2 := ⟨noEnv, false, [], wWarm 2, by decide +kernel⟩

theorem met_DeviceStates_6 :
    ∃ (env : Env) (tables : Bool) (lost : List Nat) (s : State), s.par P.devResetPhase = 3 := ⟨noEnv, false, [], wWarm 3, by decide +kernel⟩

theorem met_DeviceStates_7 :
    ∃ (env : Env) (tables : Bool) (lost : List Nat) (s : State), s.par P.devResetPhase = 4 := ⟨noEnv, false, [], wWarm 4, by decide +kernel⟩

theorem met_DeviceStates_8 :
    ∃ (env : Env) (tables : Bool) (lost : List Nat) (s : State), s.par P.devResetPhase = 5 := ⟨noEnv, false, [], wWarm 5, by decide +kernel⟩

theorem met_DeviceStates_9 :
    ∃ (env : Env) (tables : Bool) (lost : List Nat) (s : State), s.par P.devResetPhase = 6 := ⟨noEnv, false, [], wWarm 6, by decide +kernel⟩

theorem met_DeviceStates_10 :
    ∃ (env : Env) (tables : Bool) (lost : List Nat) (s : State), s.par P.devResetPhase = 7 := ⟨noEnv, false, [], wWarm 7, by decide +kernel⟩

theorem met_DeviceStates_11 :
    ∃ (env : Env) (tables : Bool) (lost : List Nat) (s : State), s.par P.devResetPhase = 8 := ⟨noEnv, false, [], wWarm 8, by decide +kernel⟩

theorem met_DeviceStates_12 :
    ∃ (s : State), s.warm = true ∧ s.recov.warmAt + msT 400 ≤ s.now := ⟨{ wWarm 2 with now := 10 ^ 9 }, by decide +kernel⟩

theorem met_DeviceStates_13 :
    ∃ (s : State), s.recov.safeDue ≠ 0 := ⟨wDue, by decide +kernel⟩

theorem met_DeviceStates_14 :
    ∃ (s : State), s.dev = dsSafe ∧ s.warm = false ∧ s.safeHeld = false := ⟨wSafe, by decide +kernel⟩

theorem met_DeviceStates_15 :
    ∃ (s : State), s.takes P.devRequest 1 = true := ⟨standby [], by decide +kernel⟩

theorem met_DeviceStates_16 :
    ∃ (s : State), s.takes P.devRequest 2 = true := ⟨wUp, by decide +kernel⟩

theorem met_DeviceStates_17 :
    ∃ (s : State), s.takes P.devRequest 3 = true := ⟨wSafe, by decide +kernel⟩

theorem met_DeviceStates_18 :
    ∃ (s : State), s.takes P.devRequest 4 = true := ⟨wUp, by decide +kernel⟩

theorem met_MediaFaults_1 :
    ∃ (stack : Fin 16) (events : ScrubEvents) (s : State), s.par (P.mcSrState stack) = srActive ∧ s.par (P.stackHealth stack) ≠
      2 := ⟨0, ⟨none, noPhys⟩, wStack srActive, by decide +kernel⟩

theorem met_MediaFaults_2 :
    ∃ (region : Fin 4) (outcome : Fin 15) (holding : Fin 9) (place : Nat) (s : State), outcome ≠ 14 := ⟨0, 3, 0, 0, wUp, by decide +kernel⟩

theorem met_MediaFaults_3 :
    ∃ (region : Fin 4) (block : Fin 9) (holding : Fin 9) (place : Nat) (s : State), s.flipSram 2 (region.val * 16 + block.val)
      = false := ⟨0, 0, 0, 0, wUp, by decide +kernel⟩

theorem met_MediaFaults_4 :
    ∃ (value : Nat) (s : State), s.takes P.flipTarget (setFld value 15 15 1) = true := ⟨0, wUp, by decide +kernel⟩

theorem met_MediaFaults_5 :
    ∃ (s : State), s.media.coresLost = false ∧ s.media.codeFault = 0 := ⟨wUp, by decide +kernel⟩

theorem met_MediaFaults_7 :
    ∃ (stack : Fin 16) (s : State), (s.stack stack).dying = true ∧ s.par (P.stackHealth stack) ≠ 2 := ⟨0, wDying, by decide +kernel⟩

theorem met_MediaFaults_8 :
    ∃ (stack : Fin 16) (ph : Phys) (t : Nat) (s : State), Tab.find? stack.val s.media.walks = some t := ⟨0, noPhys, 0, wUp.modMedia (fun m => { m with walks := [(0, 0)] }), by decide +kernel⟩

theorem met_MediaFaults_9 :
    ∃ (region : Fin 4) (s : State), s.dev ≠ dsOut ∧ s.recov.oosDue = false := ⟨0, wUp, by decide +kernel⟩

theorem met_StackControllers_1 :
    ∃ (stack : Fin 16) (celsius : Int) (s : State), condAfter (s.par (P.mcCond stack)) celsius = s.par (P.mcCond stack) := ⟨0, 40, wUp, by decide +kernel⟩

theorem met_StackControllers_2 :
    ∃ (stack : Fin 16) (s : State), (s.stack stack).holdAt ≠ 0 ∧ (s.stack stack).holdSaid = false ∧ (s.stack stack).holdAt +
      msT (s.par P.mcThermalHoldMs) ≤ s.now + 1 := ⟨0, wHot, by decide +kernel⟩

theorem met_StackControllers_3 :
    ∃ (stack : Fin 16) (pc : Fin 64) (bank : Fin 48) (promoted : Bool) (s : State), (s.par (P.mcSrState stack) = srActive ∨
      s.par (P.mcSrState stack) = srIdle) := ⟨0, 0, 0, false, wStack srActive, by decide +kernel⟩

theorem met_StackControllers_4 :
    ∃ (stack : Fin 16) (pc : Fin 64) (bank : Fin 48) (s : State), (Tab.get (bankKey pc bank) (s.stack stack).banks).row.isSome
      = true ∧ (Tab.get (bankKey pc bank) (s.stack stack).banks).used + nsT (Tab.get (bankKey pc bank) (s.stack
      stack).banks).idle ≤ s.now := ⟨0, 0, 0, wOpenBank, by decide +kernel⟩

theorem met_StackControllers_5 :
    ∃ (place : Nat) (r : HeldReq) (s : State), s.recov.held[place]? = some r ∧ r.since + nsT (s.par P.mcStarveNs) ≤ s.now := ⟨0, { port := 0, dpa := 0, write := false, data := [], mask := 0, bad := false, want := 0, gated := false, since := 0, promoted := false }, wStarved, by decide +kernel⟩

theorem met_StackControllers_6 :
    ∃ (stack : Fin 16) (channel : Fin 32) (s : State), (s.par (P.mcChannelOffline stack)).testBit channel = false ∧ ((Tab.get
      channel.val (s.stack stack).chans).alerts < 3 ∨ (Tab.get channel.val (s.stack stack).chans).replaying = false) := ⟨0, 0, wUp, by decide +kernel⟩

theorem met_StackControllers_7 :
    ∃ (stack : Fin 16) (channel : Fin 32) (s : State), (Tab.get channel.val (s.stack stack).chans).replaying = true := ⟨0, 0, wUp.modChan 0 0 (fun x => { x with replaying := true }), by decide +kernel⟩

theorem met_StackControllers_8 :
    ∃ (stack : Fin 16) (channel : Fin 32) (s : State), (s.par (P.mcChannelOffline stack)).testBit channel = true ∧ s.par
      (P.mcChannelOffline stack) = 2 ^ channel.val ∧ s.par (P.stackHealth stack) = 1 := ⟨0, 0, service [(P.mcChannelOffline 0, 1), (P.stackHealth 0, 1)], by decide +kernel⟩

theorem met_StackControllers_9 :
    ∃ (master : Fin 512) (fill reads : Nat) (s : State), s.rtMaster master = true ∧ s.panicking master = false ∧ fill < 16 ∧ 0
      < reads := ⟨0, 0, 1, wRt, by decide +kernel⟩

theorem met_StackControllers_10 :
    ∃ (master : Fin 512) (fill reads : Nat) (s : State), s.panicking master = true ∧ (32 ≤ fill ∨ reads = 0) := ⟨0, 0, 0, service [(P.mcPanicState 0, 1)], by decide +kernel⟩

theorem met_StackControllers_11 :
    ∃ (stack : Fin 16) (value : Nat) (s : State), s.takes (P.trnHold stack) value = true := ⟨0, 1, standby [], by decide +kernel⟩

theorem met_StackControllers_12 :
    ∃ (stack : Fin 16) (value : Nat) (s : State), s.takes (P.trnCtl stack) value = true ∧ fld value 63 63 = 1 := ⟨0, 2 ^ 63 + 2 ^ 32 + 1, standby [(P.trnHold 0, 1), (P.mcSrState 0, 1)], by decide +kernel⟩

theorem met_StackControllers_13 :
    ∃ (stack : Fin 16) (mismatch errors : Nat) (s : State), (s.stack stack).running = true ∧ (s.stack stack).returning = false := ⟨0, 1, 2, wUp.modStack 0 (fun r => { r with running := true }), by decide +kernel⟩

theorem met_StackControllers_14 :
    ∃ (stack : Fin 16) (s : State), s.par (P.mcSrState stack) = srEntering := ⟨0, wStack srEntering, by decide +kernel⟩

theorem met_StackControllers_15 :
    ∃ (stack : Fin 16) (ph : Phys) (s : State), s.par (P.mcSrState stack) = srExiting := ⟨0, noPhys, wStack srExiting, by decide +kernel⟩

theorem met_ScrubWriteback_1 :
    ∃ (stack : Fin 16) (r : ScrubRead) (s : State), Tab.find? stack.val s.media.scrubRead = some r ∧ r.cancelled = false ∧
      r.data.length = 64 ∧ r.line < dataLines → scrubs (s.frame (frameKey stack (r.line / 64))) = true := ⟨0, { line := dataLines, data := zeros 64, cancelled := false }, wScrub, by decide +kernel⟩

theorem met_ScrubWriteback_2 :
    ∃ (stack : Fin 16) (r : ScrubRead) (s : State), Tab.find? stack.val s.media.scrubRead = some r ∧ r.cancelled = true := ⟨0, { line := 0, data := zeros 64, cancelled := true }, wUp.modMedia (fun m => { m with scrubRead := [(0, { line := 0, data := zeros 64, cancelled := true })] }), by decide +kernel⟩

theorem met_LinkStates_1 :
    ∃ (link : Fin 32) (s : State), (s.link link).st = lkDetect ∧ s.mayTrain link = true := ⟨0, wLk { (default : LinkRec) with st := lkDetect }, by decide +kernel⟩

theorem met_LinkStates_2 :
    ∃ (link : Fin 32) (partner : Partner) (r : Nat) (s : State), (s.link link).st = lkTraining ∧ s.mayTrain link = true ∧
      trainRate partner.rates (if (s.link link).cap = 0 then s.par (P.portMaxRate (link / 2)) else Nat.min (s.par
      (P.portMaxRate (link / 2))) ((s.link link).cap - 1)) = some r ∧ trainWidth (s.cfgWidth link) partner.lanes ≠ 0 ∧
      partner.cxl = true := ⟨0, { (default : Partner) with lanes := 4, rates := 7, cxl := true }, 2, (wLk { (default : LinkRec) with st := lkTraining }).setPar (P.portMaxRate 0) 2, by decide +kernel⟩

theorem met_LinkStates_3 :
    ∃ (link : Fin 32) (partner : Partner) (s : State), (s.link link).st = lkTraining ∧ s.mayTrain link = true ∧ trainWidth
      (s.cfgWidth link) partner.lanes ≠ 0 ∧ partner.cxl = false := ⟨0, { (default : Partner) with lanes := 4, rates := 7, cxl := false }, (wLk { (default : LinkRec) with st := lkTraining }), by decide +kernel⟩

theorem met_LinkStates_4 :
    ∃ (link : Fin 32) (hotReset : Bool) (s : State), s.linkUp link = true := ⟨0, false, wLk upLink, by decide +kernel⟩

theorem met_LinkStates_5 :
    ∃ (link : Fin 32) (s : State), (s.link link).egress ≠ [] ∧ (s.link link).stallAt + msT (s.par (P.portCreditStallMs (link /
      2))) ≤ s.now := ⟨0, { wLk { upLink with egress := [(1, .memDone 0 0 0)] } with now := 10 ^ 12 }, by decide +kernel⟩

theorem met_LinkStates_6 :
    ∃ (link : Fin 32) (s : State), ((s.link link).st = lkBackoff ∨ (s.link link).st = lkIncompatible) ∧ (s.link link).backoff ≤
      s.now := ⟨0, wLk { (default : LinkRec) with st := lkBackoff }, by decide +kernel⟩

theorem met_LinkStates_7 :
    ∃ (block : Fin 16) (value : Nat) (s : State), s.takes (P.portEnable block) value = true := ⟨0, 3, wUp, by decide +kernel⟩

theorem met_LinkStates_8 :
    ∃ (port : Fin 512) (s : State), s.linkUp (port / 16) = true := ⟨0, wLk upLink, by decide +kernel⟩

theorem met_LinkStates_9 :
    ∃ (link : Fin 32) (keys : List Byte) (containment : Bool) (s : State), s.linkUp link = true ∧ s.par (P.portIde (link / 2))
      ≠ 0 := ⟨0, [], true, (wLk upLink).setPar (P.portIde 0) 1, by decide +kernel⟩

theorem met_LinkStates_10 :
    ∃ (link : Fin 32) (s : State), (s.link link).stream = 1 := ⟨0, wLk { upLink with stream := 1 }, by decide +kernel⟩

theorem met_LogicalDevices_1 :
    ∃ (port : Fin 512) (s : State), s.linkUp (port / 16) = true := ⟨0, wLk upLink, by decide +kernel⟩

theorem met_LogicalDevices_2 :
    ∃ (port : Fin 512) (s : State), s.linkUp (port / 16) = true ∧ (s.ld (ldKey port)).bme = true := ⟨0, (wLk upLink).modLd 0 (fun l => { l with bme := true }), by decide +kernel⟩

theorem met_LogicalDevices_3 :
    ∃ (port : Fin 512) (tag : Nat) (s : State), Tab.get tag (s.ld (ldKey port)).reads ≠ 0 := ⟨0, 0, (wLk upLink).modLd 0 (fun l => { l with reads := [(0, 1)] }), by decide +kernel⟩

theorem met_LogicalDevices_4 :
    ∃ (port : Fin 512) (tag : Nat) (s : State), Tab.get tag (s.ld (ldKey port)).reads = 0 ∧ s.now < Tab.get tag (s.ld (ldKey
      port)).tags := ⟨0, 0, (wLk upLink).modLd 0 (fun l => { l with tags := [(0, 1)] }), by decide +kernel⟩

theorem met_LogicalDevices_5 :
    ∃ (link : Fin 32) (ld : Fin 17) (offset : Fin 1024) (value : Nat) (s : State), s.fnOn link ld = true := ⟨0, 0, 1, 4, wLk upLink, by decide +kernel⟩

theorem met_LogicalDevices_6 :
    ∃ (port : Fin 512) (s : State), s.ldUp port = true := ⟨0, wLd id, by decide +kernel⟩

theorem met_LogicalDevices_7 :
    ∃ (port : Fin 512) (decoder : Fin 4) (base size ways gran skip : Nat) (lock : Bool) (s : State), s.ldUp port = true ∧
      (Tab.get decoder.val (s.ld (ldKey port)).hdm).lock = false ∧ hdmOk (s.ld (ldKey port)).hdm decoder base size ways gran
      skip = true := ⟨0, 0, 0, 2 ^ 28, 1, 256, 0, false, wLd (fun l => { l with hdm := [] }), by decide +kernel⟩

theorem met_LogicalDevices_8 :
    ∃ (port : Fin 512) (first count : Nat) (s : State), s.linkUp (port / 16) = true := ⟨0, 0, 1, wLd id, by decide +kernel⟩

theorem met_LogicalDevices_9 :
    ∃ (port : Fin 512) (first count : Nat) (s : State), s.linkUp (port / 16) = true ∧ (s.link (port / 16)).dc = true ∧
      s.inPartition first count = true ∧ (blocksFrom first count).all (fun b => !Tab.get b (s.ld (ldKey port)).extents &&
      !Tab.get b (s.ld (ldKey port)).offered) = true ∧ (s.ld (ldKey port)).extents.length + (s.ld (ldKey port)).offered.length
      + count ≤ 1024 := ⟨0, 0, 1, wLd id, by decide +kernel⟩

theorem met_MailboxReads_1 :
    ∃ (port : Fin 512) (opcode : Fin 65536) (s : State), s.ldUp port = true := ⟨0, 0, wLd id, by decide +kernel⟩

theorem met_MailboxReads_2 :
    ∃ (port : Fin 512) (dpa length start : Nat) (s : State), s.ldUp port = true := ⟨0, 0, 0, 0, wLd id, by decide +kernel⟩

theorem met_MailboxReads_3 :
    ∃ (port : Fin 512) (offset length : Nat) (s : State), s.ldUp port = true ∧ offset + length ≤ (celBytes (s.link (port /
      16)).dc).length := ⟨0, 0, 4, wLd id, by decide +kernel⟩

theorem met_MailboxReads_4 :
    ∃ (port : Fin 512) (log : Nat) (s : State), s.ldUp port = true ∧ log < 4 := ⟨0, 0, wLd id, by decide +kernel⟩

theorem met_MailboxReads_5 :
    ∃ (port : Fin 512) (count start : Nat) (s : State), s.ldUp port = true ∧ (s.link (port / 16)).dc = true ∧ start ≤ (s.ld
      (ldKey port)).extents.length := ⟨0, 0, 0, wLd id, by decide +kernel⟩

theorem met_MailboxReads_6 :
    ∃ (port : Fin 512) (index : Fin 65536) (sub : DictSub) (s : State), s.ldUp port = true ∧ sub.rest = 0 ∧ s.par
      (P.portMboxDict (port / 32)) = 1 ∧ s.dictOn = true := ⟨0, 0, ⟨0, 0⟩, (wLd id).setPar (P.portMboxDict 0) 1, by decide +kernel⟩

theorem met_MailboxReads_7 :
    ∃ (port : Fin 512) (index : Fin 65536) (sub : DictSub) (s : State), s.ldUp port = true ∧ sub.rest ≠ 0 ∧ s.par
      (P.portMboxDict (port / 32)) = 1 ∧ s.dictOn = true := ⟨0, 0, ⟨0, 1⟩, (wLd id).setPar (P.portMboxDict 0) 1, by decide +kernel⟩

theorem met_MailboxWrites_1 :
    ∃ (port : Fin 512) (log : Nat) (handles : List Nat) (s : State), s.ldUp port = true ∧ log < 4 ∧ ((s.logOf (ldKey port)
      log).take handles.length).map EventRec.handle = handles := ⟨0, 0, [1], wLd (fun l => { l with log := [event1] }), by decide +kernel⟩

theorem met_MailboxWrites_2 :
    ∃ (port : Fin 512) (a b c d : Byte) (s : State), s.ldUp port = true ∧ a.toNat % 16 ≤ 1 ∧ b.toNat % 16 ≤ 1 ∧ c.toNat % 16 ≤
      1 ∧ d.toNat % 16 ≤ 1 := ⟨0, 1, 0, 0, 1, wLd id, by decide +kernel⟩

theorem met_MailboxWrites_3 :
    ∃ (port : Fin 512) (value : Nat) (s : State), s.ldUp port = true := ⟨0, 9, wLd id, by decide +kernel⟩

theorem met_MailboxWrites_4 :
    ∃ (port : Fin 512) (settings : List Byte) (s : State), s.ldUp port = true ∧ settings.length = 12 ∧ ((settings[0]?).getD
      0).toNat < 4 ∧ ((settings[1]?).getD 0).toNat < 4 := ⟨0, zeros 12, wLd id, by decide +kernel⟩

theorem met_MailboxWrites_5 :
    ∃ (port : Fin 512) (dpa w : Nat) (v : View) (s : State), s.ldUp port = true ∧ dpa < dpaEnd ∧ dpa % 64 = 0 ∧ s.serving =
      true ∧ s.mayWrite port dpa = some (w, v) ∧ s.par (P.winKind w) = wT0 := ⟨0, 0, 0, .main, wLdT0, by decide +kernel⟩

theorem met_MailboxWrites_6 :
    ∃ (port : Fin 512) (dpa : Nat) (data : List Byte) (ph : Phys) (s : State), s.ldUp port = true ∧ dpa < dpaEnd ∧ dpa % 64 = 0
      ∧ s.serving = true ∧ (s.mayWrite port dpa).isSome = true := ⟨0, 0, [1], noPhys, wLdT0, by decide +kernel⟩

theorem met_MailboxWrites_7 :
    ∃ (port : Fin 512) (accepted : List (Nat × Nat)) (s : State), s.ldUp port = true ∧ (s.link (port / 16)).dc = true ∧
      (accepted.map Prod.snd).sum ≤ 1024 ∧ (rangeBlocks accepted).any (fun x => Tab.get x (s.ld (ldKey port)).extents) = false
      ∧ (rangeBlocks accepted).any (fun x => !Tab.get x (s.ld (ldKey port)).offered) = false ∧ (distinct (rangeBlocks
      accepted)).length = (rangeBlocks accepted).length := ⟨0, [(0, 1)], wLd (fun l => { l with offered := [(0, true)] }), by decide +kernel⟩

theorem met_MailboxWrites_8 :
    ∃ (port : Fin 512) (released : List (Nat × Nat)) (s : State), s.ldUp port = true ∧ (s.link (port / 16)).dc = true ∧
      (released.map Prod.snd).sum ≤ 1024 ∧ (rangeBlocks released).any (fun x => !Tab.get x (s.ld (ldKey port)).extents) = false
      ∧ (distinct (rangeBlocks released)).length = (rangeBlocks released).length := ⟨0, [(0, 1)], wLd (fun l => { l with extents := [(0, true)] }), by decide +kernel⟩

theorem met_ServiceResets_1 :
    ∃ (s : State), s.svcThere = true ∧ s.svc.inReset = false := ⟨wSvc id, by decide +kernel⟩

theorem met_ServiceResets_3 :
    ∃ (s : State), s.svc.bme = true := ⟨wSvc id, by decide +kernel⟩

theorem met_ServiceResets_4 :
    ∃ (s : State), s.svcThere = true ∧ s.svc.inReset = false ∧ s.svc.flr = false := ⟨wSvc id, by decide +kernel⟩

theorem met_ServiceResets_6 :
    ∃ (s : State), s.svc.perstOff = true ∧ s.perstReady = true := ⟨{ (wSvc (fun v => { v with perstOff := true })).pw (fun p => { p with applied := true, refHold := false }) with now := 10 ^ 10 }, by decide +kernel⟩

theorem met_ServiceResets_7 :
    ∃ (s : State), s.svc.perstOff = true ∧ s.perstReady = false := ⟨wSvc (fun v => { v with perstOff := true }), by decide +kernel⟩

theorem met_ServiceResets_8 :
    ∃ (s : State), s.svc.perstOff = false ∧ s.svc.dstate ≠ 2 := ⟨wSvc id, by decide +kernel⟩

theorem met_ServiceResets_9 :
    ∃ (s : State), s.svc.downAt ≠ 0 ∧ s.svc.downAt + msT 100 ≤ s.now + 1 := ⟨{ wSvc (fun v => { v with downAt := 1 }) with now := 10 ^ 9 }, by decide +kernel⟩

theorem met_ServiceResets_10 :
    ∃ (s : State), s.svcThere = true ∧ s.svc.dstate = 0 ∧ s.svc.inReset = false ∧ s.svc.flr = false := ⟨wSvc id, by decide +kernel⟩

theorem met_ServiceResets_11 :
    ∃ (s : State), s.svc.dstate = 1 := ⟨wSvc (fun v => { v with dstate := 1 }), by decide +kernel⟩

theorem met_ServiceResets_12 :
    ∃ (s : State), s.svcThere = true := ⟨wSvc id, by decide +kernel⟩

theorem met_ServiceResets_13 :
    ∃ (r : SvcReq) (s : State), s.svc.egress.find? (fun r => r.who == 2 && r.read) = some r ∧ s.svc.dstate = 1 ∧ Nat.max
      r.since s.svc.d3At + msT (s.par P.svcD3WaitMs) ≤ s.now := ⟨svcRead, { wSvc (fun v => { v with dstate := 1, egress := [svcRead] }) with now := 10 ^ 12 }, by decide +kernel⟩

theorem met_ServiceResets_14 :
    ∃ (s : State), s.par P.svcIrqStatus ≠ 0 := ⟨wUp.setPar P.svcIrqStatus 1, by decide +kernel⟩

theorem met_ServiceRequests_1 :
    ∃ (n i : Nat) (r : SvcReq) (s : State), s.svcOpen = true ∧ rotPick 5 s.svc.ptr (fun n => (s.svcHead n).isSome) = some n ∧
      s.svc.egress.findIdx? (fun r => r.who == n) = some i ∧ s.svcHead n = some r := ⟨2, 0, svcRead, wSvc (fun v => { v with egress := [svcRead] }), by decide +kernel⟩

theorem met_ServiceRequests_2 :
    ∃ (tag : Nat) (defect : CplDefect) (s : State), (defect.badEcrc = false ∨ (s.svcReg (0x118 / 4)).testBit 8 = false) ∧
      (Tab.find? tag s.svc.tags).isSome = true := ⟨0, ⟨false, false⟩, wSvc (fun v => { v with tags := [(0, svcRead)] }), by decide +kernel⟩

theorem met_ServiceRequests_3 :
    ∃ (tag t : Nat) (s : State), Tab.find? tag s.svc.quar = some t ∧ t ≤ s.now + 1 := ⟨0, 1, wSvc (fun v => { v with quar := [(0, 1)] }), by decide +kernel⟩

theorem met_ServiceRequests_4 :
    ∃ (offset : Fin 1024) (value : Nat) (s : State), s.svc.dstate ≠ 2 ∧ s.svc.perstOff = false ∧ s.svc.inReset = false ∧
      s.svc.flr = false := ⟨0, 0, wSvc id, by decide +kernel⟩

theorem met_ServiceRequests_5 :
    ∃ (offset : Fin 134217728) (s : State), s.barOn = true ∧ offset.val % 8 = 0 := ⟨0, wSvc id, by decide +kernel⟩

theorem met_ServiceRequests_6 :
    ∃ (offset : Fin 134217728) (data : DictData) (ph : Phys) (s : State), data.poisoned = false ∧ s.barOn = true ∧ s.dictOn =
      true ∧ offset.val % 8 = 0 ∧ (cardOf (offset.val / 8)).any (fun c => !c.dom) = true ∧ s.checkOne (offset.val / 8)
      (data.value % 2 ^ 64) = none ∧ offset.val / 8 / 256 ≠ 0x1410 ∧ s.objWrite (offset.val / 8) (data.value % 2 ^ 64) ph =
      none ∧ s.devWrite (offset.val / 8) (data.value % 2 ^ 64) ph = none := ⟨⟨P.srLeaseMs 0 * 8, by decide⟩, ⟨500, false⟩, noPhys, service [], by decide +kernel⟩

theorem met_ServiceRequests_7 :
    ∃ (s : State), (s.svcReg (0x88 / 4)).testBit 10 = true ∧ s.svcThere = true ∧ s.svc.inReset = false ∧ s.ltrNeeds = true ∧
      s.svc.ltr = false := ⟨(wSvc (fun v => { v with cfg := [(34, 2 ^ 10)] })).setPar P.detUsed 1, by decide +kernel⟩

theorem met_ServiceRequests_8 :
    ∃ (value : Nat) (s : State), s.takes P.svcAspmSupport value = true := ⟨1, standby [], by decide +kernel⟩

theorem met_BootAndFirmware_1 :
    ∃ (flashOk pufOk : Bool) (bist : List Nat) (remaps : List (Nat × Nat × Nat)) (dead : List Nat) (s : State), s.power.applied
      = true ∧ s.power.tripped = false ∧ s.dev = dsInit ∧ s.boot.recovery = false ∧ s.par P.bootPhase = 1 ∧ s.power.refHold =
      false := ⟨true, true, [], [], [], wBoot 1, by decide +kernel⟩

theorem met_BootAndFirmware_2 :
    ∃ (flashOk pufOk : Bool) (bist : List Nat) (remaps : List (Nat × Nat × Nat)) (dead : List Nat) (s : State), s.power.applied
      = true ∧ s.power.tripped = false ∧ s.dev = dsInit ∧ s.boot.recovery = false ∧ s.par P.bootPhase = 2 := ⟨true, true, [], [], [], wBoot 2, by decide +kernel⟩

theorem met_BootAndFirmware_3 :
    ∃ (flashOk pufOk : Bool) (bist : List Nat) (remaps : List (Nat × Nat × Nat)) (dead : List Nat) (s : State), s.power.applied
      = true ∧ s.power.tripped = false ∧ s.dev = dsInit ∧ s.boot.recovery = false ∧ s.par P.bootPhase = 3 := ⟨true, true, [], [], [], wBoot 3, by decide +kernel⟩

theorem met_BootAndFirmware_4 :
    ∃ (flashOk pufOk : Bool) (bist : List Nat) (remaps : List (Nat × Nat × Nat)) (dead : List Nat) (s : State), s.power.applied
      = true ∧ s.power.tripped = false ∧ s.dev = dsInit ∧ s.boot.recovery = false ∧ s.par P.bootPhase = 4 := ⟨true, true, [], [], [], wBoot 4, by decide +kernel⟩

theorem met_BootAndFirmware_5 :
    ∃ (flashOk pufOk : Bool) (bist : List Nat) (remaps : List (Nat × Nat × Nat)) (dead : List Nat) (s : State), s.power.applied
      = true ∧ s.power.tripped = false ∧ s.dev = dsInit ∧ s.boot.recovery = false ∧ s.par P.bootPhase = 5 := ⟨true, true, [], [], [], wBoot 5, by decide +kernel⟩

theorem met_BootAndFirmware_6 :
    ∃ (flashOk pufOk : Bool) (bist : List Nat) (remaps : List (Nat × Nat × Nat)) (dead : List Nat) (s : State), s.power.applied
      = true ∧ s.power.tripped = false ∧ s.dev = dsInit ∧ s.boot.recovery = false ∧ s.par P.bootPhase = 6 := ⟨true, true, [], [], [], wBoot 6, by decide +kernel⟩

theorem met_BootAndFirmware_7 :
    ∃ (s : State), s.takes P.fwCommit 1 = true := ⟨standby [(P.fwUpdateState, 1)], by decide +kernel⟩

theorem met_BootAndFirmware_8 :
    ∃ (s : State), s.par P.fwUpdateState = 2 := ⟨wUp.setPar P.fwUpdateState 2, by decide +kernel⟩

theorem met_BootAndFirmware_9 :
    ∃ (slot : Fin 256) (s : State), s.takes (P.keyErase slot) 1 = true := ⟨0, standby [], by decide +kernel⟩

theorem met_BootAndFirmware_10 :
    ∃ (session : Nat) (slot : Fin 256) (key1 key2 : List Byte) (x : Session) (s : State), s.session session = some x ∧ x.mauth
      = true ∧ (s.dev = dsStandby ∨ s.dev = dsService) ∧ s.warm = false ∧ s.par (P.keyState slot) ≠ 1 ∧ padTo 32 key1 ≠ padTo
      32 key2 := ⟨7, 0, [1], [2], sess true, wSpdm, by decide +kernel⟩

theorem met_BootAndFirmware_11 :
    ∃ (value : Nat) (slot : Fin 256) (s : State), s.barOn = true ∧ s.dictOn = true ∧ s.par P.domSelect = P.fwStage ∧ s.par
      P.fwUpdateState ≠ 2 ∧ s.par P.domOffset + 8 * slot.val = s.boot.stage.length ∧ s.par P.domOffset + 8 * slot.val ≠ 0 ∧
      s.boot.stage.length + 8 ≤ 66060288 ∧ (s.checkOne (P.domData slot) (value % 2 ^ 64)) = none := ⟨1, 1, { (standby [(P.domSelect, P.fwStage)]) with boot := { State.reset.boot with stage := zeros 8 } }, by decide +kernel⟩

theorem met_BootAndFirmware_12 :
    ∃ (value : Nat) (ph : Phys) (s : State), s.takes P.diagMapLatch (value % 2 ^ 64) = true ∧ ph.mapPri = [] ∧ ph.mapMir = [] := ⟨1, noPhys, wUp, by decide +kernel⟩

theorem met_GlodyRequests_1 :
    ∃ (session seq src : Nat) (x : GSession) (items : List (Fin 16777216)) (s : State), s.boot.recovery = false ∧ s.gOn = true
      ∧ s.warmShut = false ∧ session ≠ 0 ∧ (s.wakeHub 17).qualifies session = true ∧ (s.wakeHub 17).glody.sessions.find? (fun x
      => x.id == session) = some x ∧ x.last < seq ∧ seq < 2 ^ 32 - 1 := ⟨7, 2, 1, gs, [], wGlody, by decide +kernel⟩

theorem met_GlodyRequests_2 :
    ∃ (session seq src : Nat) (x : GSession) (items : List (Fin 16777216 × Nat)) (ph : Phys) (s : State), s.boot.recovery =
      false ∧ s.gOn = true ∧ s.warmShut = false ∧ session ≠ 0 ∧ (s.wakeHub 17).qualifies session = true ∧ (s.wakeHub
      17).glody.sessions.find? (fun x => x.id == session) = some x ∧ x.last < seq ∧ seq < 2 ^ 32 - 1 := ⟨7, 2, 1, gs, [], noPhys, wGlody, by decide +kernel⟩

theorem met_GlodyRequests_3 :
    ∃ (session seq src : Nat) (x : GSession) (key : Fin 16777216) (offset length : Nat) (s : State), s.boot.recovery = false ∧
      s.gOn = true ∧ s.warmShut = false ∧ session ≠ 0 ∧ (s.wakeHub 17).qualifies session = true ∧ (s.wakeHub
      17).glody.sessions.find? (fun x => x.id == session) = some x ∧ x.last < seq ∧ seq < 2 ^ 32 - 1 := ⟨7, 2, 1, gs, 0, 0, 1, wGlody, by decide +kernel⟩

theorem met_GlodyRequests_4 :
    ∃ (session seq src : Nat) (x : GSession) (key : Fin 16777216) (offset : Nat) (bytes : List Byte) (s : State),
      s.boot.recovery = false ∧ s.gOn = true ∧ s.warmShut = false ∧ session ≠ 0 ∧ (s.wakeHub 17).qualifies session = true ∧
      (s.wakeHub 17).glody.sessions.find? (fun x => x.id == session) = some x ∧ x.last < seq ∧ seq < 2 ^ 32 - 1 := ⟨7, 2, 1, gs, 0, 0, [1], wGlody, by decide +kernel⟩

theorem met_GlodyRequests_5 :
    ∃ (session seq src : Nat) (x : GSession) (port : Fin 16) (half : Fin 2) (ld : Fin 16) (count dpa : Nat) (s : State),
      s.boot.recovery = false ∧ s.gOn = true ∧ s.warmShut = false ∧ session ≠ 0 ∧ (s.wakeHub 17).qualifies session = true ∧
      (s.wakeHub 17).glody.sessions.find? (fun x => x.id == session) = some x ∧ x.last < seq ∧ seq < 2 ^ 32 - 1 := ⟨7, 2, 1, gs, 0, 0, 0, 1, 0, wGlody, by decide +kernel⟩

theorem met_GlodyRequests_6 :
    ∃ (session seq src : Nat) (x : GSession) (port : Fin 16) (half : Fin 2) (ld : Fin 16) (count dpa : Nat) (s : State),
      s.boot.recovery = false ∧ s.gOn = true ∧ s.warmShut = false ∧ session ≠ 0 ∧ (s.wakeHub 17).qualifies session = true ∧
      (s.wakeHub 17).glody.sessions.find? (fun x => x.id == session) = some x ∧ x.last < seq ∧ seq < 2 ^ 32 - 1 := ⟨7, 2, 1, gs, 0, 0, 0, 1, 0, wGlody, by decide +kernel⟩

theorem met_GlodyRequests_7 :
    ∃ (session seq src : Nat) (x : GSession) (s : State), s.boot.recovery = false ∧ s.gOn = true ∧ s.warmShut = false ∧ session
      ≠ 0 ∧ (s.wakeHub 17).qualifies session = true ∧ (s.wakeHub 17).glody.sessions.find? (fun x => x.id == session) = some x ∧
      x.last < seq ∧ seq < 2 ^ 32 - 1 := ⟨7, 2, 1, gs, wGlody, by decide +kernel⟩

theorem met_GlodyRequests_8 :
    ∃ (session seq src : Nat) (x : GSession) (s : State), s.boot.recovery = false ∧ s.gOn = true ∧ s.warmShut = false ∧ session
      ≠ 0 ∧ (s.wakeHub 17).qualifies session = true ∧ (s.wakeHub 17).glody.sessions.find? (fun x => x.id == session) = some x ∧
      x.last < seq ∧ seq < 2 ^ 32 - 1 := ⟨7, 2, 1, gs, wGlody, by decide +kernel⟩

theorem met_GlodyRequests_9 :
    ∃ (session : Nat) (x : GSession) (s : State), s.glody.sessions.find? (fun x => x.id == session) = some x ∧ x.used + msT
      (s.par P.glodySessionIdleMs) ≤ s.now := ⟨7, gs, { wGlody with now := 10 ^ 12 }, by decide +kernel⟩

theorem met_GlodyRequests_10 :
    ∃ (session seq : Nat) (op : Fin 256) (src : Nat) (s : State), s.boot.recovery = false ∧ s.gOn = true ∧ op ≠ 1 := ⟨0, 0, 2, 0, wGlody, by decide +kernel⟩

theorem met_ManagementTraffic_1 :
    ∃ (session : Nat) (nonce : List Byte) (s : State), s.spdmOn = true := ⟨7, [], wSpdm, by decide +kernel⟩

theorem met_ManagementTraffic_2 :
    ∃ (id : Nat) (mauth : Bool) (transport : Fin 3) (heartbeat : Nat) (s : State), s.spdmOn = true ∧ s.boot.sessions.length < 4
      ∧ s.session id = none := ⟨8, true, 1, 0, wSpdm, by decide +kernel⟩

theorem met_ManagementTraffic_3 :
    ∃ (session : Nat) (code : Fin 256) (payload : List Byte) (s : State), s.spdmOn = true ∧ spdmAbsent code = false ∧ 0x81 ≤
      code.val ∧ code ≠ 0xEC := ⟨7, 0x84, [], wSpdm, by decide +kernel⟩

theorem met_ManagementTraffic_4 :
    ∃ (session : Nat) (x : Session) (s : State), s.session session = some x ∧ x.beat ≠ 0 ∧ x.seen + x.beat ≤ s.now := ⟨7, sess true, wSpdm, by decide +kernel⟩

theorem met_ManagementTraffic_5 :
    ∃ (eid length : Nat) (s : State), (s.glody.eid = none ∨ s.glody.eid = some eid ∨ eid = 0) := ⟨9, 64, wSpdm, by decide +kernel⟩

theorem met_ManagementTraffic_6 :
    ∃ (eid : Fin 256) (s : State), 8 ≤ eid.val ∧ eid.val ≤ 254 := ⟨9, wSpdm, by decide +kernel⟩

theorem met_ManagementTraffic_7 :
    ∃ (source seq length : Nat) (s : State), s.boot.recovery = true ∧ s.glody.loader.busy = false ∧ length ≤ areaSize 3 := ⟨1, 1, 100, wLoad default, by decide +kernel⟩

theorem met_ManagementTraffic_8 :
    ∃ (source seq offset : Nat) (bytes : List Byte) (s : State), s.boot.recovery = true ∧ s.loads source = true ∧ bytes ≠ [] ∧
      bytes.length ≤ 1024 ∧ offset = s.glody.loader.next ∧ offset + bytes.length ≤ s.glody.loader.length := ⟨1, 1, 0, [1], wLoad loader0, by decide +kernel⟩

theorem met_ManagementTraffic_9 :
    ∃ (source seq : Nat) (s : State), s.boot.recovery = true ∧ s.loads source = true := ⟨1, 1, wLoad loader0, by decide +kernel⟩

theorem met_ManagementTraffic_10 :
    ∃ (s : State), s.glody.loader.busy = true ∧ s.glody.loader.used + msT 10000 ≤ s.now := ⟨wLoad loader0, by decide +kernel⟩

theorem met_ManagementTraffic_11 :
    ∃ (t : Nat) (d : Datagram) (rest : List (Nat × Datagram)) (s : State), s.glody.again = (t, d) :: rest ∧ t ≤ s.now := ⟨0, gReply 2 7 0 0 0 0 [], [], { wSpdm with glody := { wSpdm.glody with again := [(0, gReply 2 7 0 0 0 0 [])] } }, by decide +kernel⟩

theorem met_ManagementTraffic_12 :
    ∃ (d : Datagram) (s : State), headOfTx s.glody.txq = some d ∧ d.flags / 2 % 2 = 0 := ⟨gReply 2 7 0 0 0 0 [], { wSpdm with glody := { wSpdm.glody with txq := [gReply 2 7 0 0 0 0 []] } }, by decide +kernel⟩

theorem met_ManagementTraffic_13 :
    ∃ (s : State), s.named = true ∧ s.boot.recovery = false ∧ s.glody.announced + msT (1000 * s.par P.glodyAnnounceS) ≤ s.now := ⟨{ wSpdm with now := 10 ^ 14 }, by decide +kernel⟩

theorem met_ManagementTraffic_14 :
    ∃ (s : State), s.par P.glodyPlcaCoord = 1 ∧ s.named = true := ⟨wSpdm.setPar P.glodyPlcaCoord 1, by decide +kernel⟩

theorem met_ManagementTraffic_15 :
    ∃ (present : Bool) (s : State), s.par P.glodyPlcaCoord ≠ 1 := ⟨true, wSpdm, by decide +kernel⟩

theorem met_ManagementTraffic_16 :
    ∃ (s : State), s.named = true := ⟨wSpdm, by decide +kernel⟩

theorem met_ManagementTraffic_17 :
    ∃ (address : Fin 128) (s : State), s.power.applied = true ∧ 2 ≤ s.par P.bootPhase := ⟨9, wSpdm, by decide +kernel⟩

theorem met_PowerAndInputs_1 :
    ∃ (region : Fin 4) (s : State), s.s1Ready region = true := ⟨0, wFit, by decide +kernel⟩

theorem met_PowerAndInputs_2 :
    ∃ (region : Fin 4) (s : State), s.s2Ready region = true ∧ [0, 1, 2, 3].all (fun r => r == region.val || !s.s2Ready r) =
      true := ⟨0, wFit.setPar (P.pwrRegionState 0) 1, by decide +kernel⟩

theorem met_PowerAndInputs_3 :
    ∃ (s : State), s.pwrFree = true ∧ s.power.hubOff = false ∧ [0, 1, 2, 3].all (fun q => s.par (P.pwrRegionState q) == 2) =
      true ∧ s.power.allS2 + msT (s.par P.pwrS3IdleMs) ≤ s.now ∧ s.glody.sessions = [] ∧ 3 ≤ s.par P.pwrMaxState ∧ 2000000 ≤
      s.tolerance := ⟨[0, 1, 2, 3].foldl (fun s q => s.setPar (P.pwrRegionState q) 2) (wFit.setPar P.pwrMaxState 3), by decide +kernel⟩

theorem met_PowerAndInputs_5 :
    ∃ (ph : Phys) (w : Wake) (ws : List Wake) (s : State), s.power.queue = w :: ws ∧ s.wakeLive w = true ∧ w.kind ≠ 2 ∧
      wakeCost w ≤ s.par P.wkHeld := ⟨noPhys, ⟨17, 1, 0⟩, [], ((wFit.setPar (P.pwrRegionState 0) 1).setPar P.wkHeld 40).pw (fun p => { p with queue := [⟨17, 1, 0⟩] }), by decide +kernel⟩

theorem met_PowerAndInputs_6 :
    ∃ (region : Fin 4) (ph : Phys) (s : State), Tab.get region.val s.power.exiting = 1 := ⟨0, noPhys, wFit.pw (fun p => { p with exiting := [(0, 1)] }), by decide +kernel⟩

theorem met_PowerAndInputs_7 :
    ∃ (ph : Phys) (s : State), s.power.hubBusy = true := ⟨noPhys, wFit.pw (fun p => { p with hubBusy := true }), by decide +kernel⟩

theorem met_PowerAndInputs_8 :
    ∃ (value : Nat) (s : State), s.takes P.pwrDefaultTolNs value = true := ⟨100, wUp, by decide +kernel⟩

theorem met_PowerAndInputs_9 :
    ∃ (port : Fin 16) (value : Nat) (s : State), s.takes (P.portLatTolNs port) value = true := ⟨0, 100, wUp, by decide +kernel⟩

theorem met_PowerAndInputs_11 :
    ∃ (millivolts : Nat) (s : State), s.power.applied = true ∧ (millivolts < 29000 ∨ 40500 < millivolts) := ⟨1, wFit, by decide +kernel⟩

theorem met_PowerAndInputs_12 :
    ∃ (millivolts : Nat) (s : State), s.power.inputBad = true ∧ 30000 ≤ millivolts ∧ millivolts ≤ 40000 := ⟨36000, wFit.pw (fun p => { p with inputBad := true }), by decide +kernel⟩

theorem met_PowerAndInputs_13 :
    ∃ (s : State), s.power.refLost = false := ⟨wFit, by decide +kernel⟩

theorem met_PowerAndInputs_14 :
    ∃ (s : State), s.power.refLost = true := ⟨wFit.pw (fun p => { p with refLost := true }), by decide +kernel⟩

theorem met_PowerAndInputs_15 :
    ∃ (s : State), s.power.refHold = true := ⟨wFit.pw (fun p => { p with refHold := true }), by decide +kernel⟩

theorem met_PowerAndInputs_17 :
    ∃ (millivolts : Nat) (slot : Fin 8) (refStable : Bool) (s : State), s.power.applied = false ∧ s.power.tripped = false ∧
      30000 ≤ millivolts ∧ millivolts < 65536 := ⟨36000, 0, true, State.reset, by decide +kernel⟩

theorem met_PowerAndInputs_18 :
    ∃ (unit : Nat) (celsius : Int) (s : State), s.power.applied = true ∧ s.power.tripped = false := ⟨0, 120, wFit, by decide +kernel⟩

theorem met_Frames :
    ∃ (c : Instr) (p : Part) (s t : State), exec c s = .next t ∧ p ∉ touches c := ⟨.svcFlrComplete, .dict, State.reset, State.reset.sv (fun v => { v with flr := false }), rfl, by decide⟩

theorem met_WakeTokens_1 :
    ∃ (s : State), s.power.tokenAt + usT 25 ≤ s.now ∧ s.par P.wkHeld < 40 := ⟨wFit.setPar P.wkHeld 3, by decide +kernel⟩

theorem met_WakeTokens_2 :
    ∃ (s : State), s.power.tokenAt + usT 25 ≤ s.now ∧ 40 ≤ s.par P.wkHeld := ⟨wFit.setPar P.wkHeld 40, by decide +kernel⟩

theorem met_WakeTokens_3 :
    ∃ (s : State), s.now < s.power.tokenAt + usT 25 := ⟨wFit.pw (fun p => { p with tokenAt := wFit.now }), by decide +kernel⟩

theorem met_WakeTokens_4 :
    ∃ (s : State), s.Canonical ∧ s.par P.wkIssued + 1 < 2 ^ 64 ∧ s.par P.wkExpired + 1 < 2 ^ 64 ∧ s.par P.wkHeld ≤ 40 ∧ s.par
      P.wkIssued + 40 = s.par P.wkHeld + s.par P.wkSpent + s.par P.wkExpired := ⟨State.reset.setPar P.wkHeld 40, ⟨by decide +kernel, by decide +kernel, by decide +kernel⟩, by decide +kernel⟩

theorem met_WakeTokens_5 :
    ∃ (s : State) (n : Nat), s.Canonical ∧ n ≤ s.par P.wkHeld ∧ s.par P.wkSpent + n < 2 ^ 64 ∧ s.par P.wkHeld ≤ 40 ∧ s.par
      P.wkIssued + 40 = s.par P.wkHeld + s.par P.wkSpent + s.par P.wkExpired := ⟨State.reset.setPar P.wkHeld 40, 4, ⟨by decide +kernel, by decide +kernel, by decide +kernel⟩, by decide +kernel, by decide +kernel, by decide +kernel, by decide +kernel⟩

theorem met_WakeTokens_6 :
    ∃ (w : Wake), w.kind ≤ 2 := ⟨⟨0, 2, 0⟩, by decide⟩

theorem met_ExactResidualRestores_1 :
    ∃ (wb p : Nat), 1 ≤ wb ∧ p < 2 ^ wb := ⟨8, 0x80, by decide⟩

theorem met_ExactResidualRestores_2 :
    ∃ (wb : Nat) (o : Int), 1 ≤ wb ∧ -(2 ^ (wb - 1) : Int) ≤ o ∧ o < 2 ^ (wb - 1) := ⟨8, -1, by decide⟩

theorem met_ExactResidualRestores_3 :
    ∃ (wb p q : Nat), 1 ≤ wb ∧ p < q ∧ q < 2 ^ wb := ⟨8, 1, 2, by decide⟩

theorem met_ExactResidualRestores_4 :
    ∃ (code x : Nat) (pol : Bool) (sum e eps : Int), code < 6 ∧ x < 2 ^ (8 * (fmtOf code).bytes) := ⟨3, 0x8000, true, 1, -26, 0, by decide⟩

theorem met_ContributionEffect_1 :
    ∃ (f : Fmt) (a : Int) (x : Nat) (u : SupAcc), f.value x = .nan := ⟨fp32, -149, 0x7FC00000, default, by decide⟩

theorem met_ContributionEffect_2 :
    ∃ (f : Fmt) (a : Int) (x : Nat) (sg : Bool) (u : SupAcc), f.value x = .inf sg := ⟨fp32, -149, 0xFF800000, true, default, by decide⟩

theorem met_ContributionEffect_3 :
    ∃ (code x m : Nat) (e : Int) (sg : Bool) (u : SupAcc), 1 ≤ code ∧ code < 6 ∧ (fmtOf code).value x = .fin sg m e ∧ -(2 ^ 293
      : Int) ≤ u.acc + (if sg then -1 else 1) * (m * 2 ^ (e + 149).toNat) ∧ u.acc + (if sg then -1 else 1) * (m * 2 ^ (e +
      149).toNat) < (2 ^ 293 : Int) := ⟨1, 0x3F800000, 2 ^ 23, -23, false, default, by decide⟩

theorem met_ContributionEffect_4 :
    ∃ (a : Int) (x m : Nat) (e : Int) (sg : Bool) (u : SupAcc), fp64.value x = .fin sg m e ∧ rne m (e - a) < 2 ^ 277 ∧ -(2 ^
      293 : Int) ≤ u.acc + (if sg then -1 else 1) * rne m (e - a) ∧ u.acc + (if sg then -1 else 1) * rne m (e - a) < (2 ^ 293 :
      Int) := ⟨-60, 0x3FF0000000000000, 2 ^ 52, -52, false, default, by decide⟩

theorem met_ContributionEffect_5 :
    ∃ (a : Int) (x m : Nat) (e : Int) (sg : Bool) (u : SupAcc), fp64.value x = .fin sg m e ∧ 2 ^ 277 ≤ rne m (e - a) := ⟨-1000, 0x3FF0000000000000, 2 ^ 52, -52, false, default, by decide +kernel⟩

theorem met_ReductionOrderFree_1 :
    ∃ (f g : Fmt) (pol : Bool) (a : Int) (xs ys : List Nat) (u : SupAcc), xs.Perm ys := ⟨fp32, bf16, false, -149, [1, 2], [2, 1], default, List.Perm.swap 2 1 []⟩

theorem met_OverflowResult_1 :
    ∃ (code : Nat) (pol : Bool) (x e : Int), code < 6 ∧ x ≠ 0 ∧ if code = 4 then ((if code = 0 then 2 ^ 1024 - 2 ^ 970 else if
      code = 1 then 2 ^ 128 - 2 ^ 103 else if code = 2 then 2 ^ 128 - 2 ^ 119 else if code = 3 then 65520 else if code = 4 then
      464 else 61440)) * 2 ^ (-e).toNat < x.natAbs * 2 ^ e.toNat else ((if code = 0 then 2 ^ 1024 - 2 ^ 970 else if code = 1
      then 2 ^ 128 - 2 ^ 103 else if code = 2 then 2 ^ 128 - 2 ^ 119 else if code = 3 then 65520 else if code = 4 then 464 else
      61440)) * 2 ^ (-e).toNat ≤ x.natAbs * 2 ^ e.toNat := ⟨4, false, 465, 0, by decide +kernel⟩

theorem met_OverflowResult_2 :
    ∃ (code : Nat) (x e : Int), code < 6 ∧ x ≠ 0 ∧ if code = 4 then x.natAbs * 2 ^ e.toNat ≤ ((if code = 0 then 2 ^ 1024 - 2 ^
      970 else if code = 1 then 2 ^ 128 - 2 ^ 103 else if code = 2 then 2 ^ 128 - 2 ^ 119 else if code = 3 then 65520 else if
      code = 4 then 464 else 61440)) * 2 ^ (-e).toNat else x.natAbs * 2 ^ e.toNat < ((if code = 0 then 2 ^ 1024 - 2 ^ 970 else
      if code = 1 then 2 ^ 128 - 2 ^ 103 else if code = 2 then 2 ^ 128 - 2 ^ 119 else if code = 3 then 65520 else if code = 4
      then 464 else 61440)) * 2 ^ (-e).toNat := ⟨4, 464, 0, by decide +kernel⟩

theorem met_BlockTweak_1 :
    ∃ (dpa ver : Nat), dpa < 2 ^ 42 ∧ ver < 2 ^ 20 := ⟨4096, 1, by decide⟩

theorem met_BlockTweak_2 :
    ∃ (b c v w : Nat), v < 2 ^ 20 ∧ w < 2 ^ 20 ∧ blockTweak b v = blockTweak c w := ⟨1, 1, 1, 1, by decide⟩

theorem met_BlockTweak_3 :
    ∃ (b v n : Nat), v < 2 ^ 20 := ⟨1, 1, 0, by decide⟩

theorem met_BlockTweak_4 :
    ∃ (b v k : Nat) (d : List Byte) (s : State), s.encSlot b = some k := ⟨0, 1, 0, [], wPartOn.setPar (P.partEncrypt 0) 1, by decide +kernel⟩

theorem met_MapCheck_5 :
    ∃ (e : MapEntry) (h : Nat), e.resv < 2 ^ 36 ∧ e.ver < 2 ^ 20 ∧ e.keySlot < 2 ^ 8 ∧ e.addr < 2 ^ 36 ∧ e.len < 2 ^ 5 ∧
      e.codec < 2 ^ 4 ∧ e.state < 2 ^ 3 := ⟨{ ver := 1, keySlot := 0, addr := 256, len := 16, codec := 0, state := 1, check := 0 }, 0, by decide⟩

theorem met_UnprotectedRequests_1 :
    ∃ (seq : Nat) (tagOk : Bool) (src : Nat) (items : List (Fin 16777216)) (s : State), s.boot.recovery = false ∧ s.gOn = true
      ∧ s.warmShut = false ∧ (s.wakeHub 17).par P.glodyReadOpen = 1 := ⟨2, false, 1, [], wGlody.setPar P.glodyReadOpen 1, by decide +kernel⟩

theorem met_UnprotectedRequests_2 :
    ∃ (seq : Nat) (tagOk : Bool) (src : Nat) (items : List (Fin 16777216)) (s : State), s.boot.recovery = false ∧ s.gOn = true
      ∧ (s.wakeHub 17).par P.glodyReadOpen ≠ 1 := ⟨2, false, 1, [], wGlody.setPar P.glodyReadOpen 0, by decide +kernel⟩

theorem met_UnprotectedRequests_3 :
    ∃ (seq : Nat) (tagOk : Bool) (src : Nat) (items : List (Fin 16777216 × Nat)) (ph : Phys) (s : State), s.boot.recovery =
      false ∧ s.gOn = true := ⟨2, false, 1, [], noPhys, wGlody, by decide +kernel⟩

theorem met_UnprotectedRequests_4 :
    ∃ (seq : Nat) (tagOk : Bool) (src : Nat) (key : Fin 16777216) (offset length : Nat) (s : State), s.boot.recovery = false ∧
      s.gOn = true := ⟨2, false, 1, 0, 0, 1, wGlody, by decide +kernel⟩

theorem met_UnprotectedRequests_5 :
    ∃ (seq : Nat) (tagOk : Bool) (src : Nat) (key : Fin 16777216) (offset : Nat) (bytes : List Byte) (s : State),
      s.boot.recovery = false ∧ s.gOn = true := ⟨2, false, 1, 0, 0, [1], wGlody, by decide +kernel⟩

theorem met_UnprotectedRequests_6 :
    ∃ (seq : Nat) (tagOk : Bool) (src : Nat) (port : Fin 16) (half : Fin 2) (ld : Fin 16) (count dpa : Nat) (s : State),
      s.boot.recovery = false ∧ s.gOn = true := ⟨2, false, 1, 0, 0, 0, 1, 0, wGlody, by decide +kernel⟩

theorem met_UnprotectedRequests_7 :
    ∃ (seq : Nat) (tagOk : Bool) (src : Nat) (port : Fin 16) (half : Fin 2) (ld : Fin 16) (count dpa : Nat) (s : State),
      s.boot.recovery = false ∧ s.gOn = true := ⟨2, false, 1, 0, 0, 0, 1, 0, wGlody, by decide +kernel⟩

theorem met_UnprotectedRequests_8 :
    ∃ (seq : Nat) (tagOk : Bool) (src : Nat) (s : State), s.boot.recovery = false ∧ s.gOn = true := ⟨2, false, 1, wGlody, by decide +kernel⟩

theorem met_UnprotectedRequests_9 :
    ∃ (seq : Nat) (tagOk : Bool) (src : Nat) (s : State), s.boot.recovery = false ∧ s.gOn = true := ⟨2, false, 1, wGlody, by decide +kernel⟩

theorem met_UnprotectedRequests_10 :
    ∃ (op seq src : Nat) (s : State), (s.glody.errStart + msT 1000 ≤ s.now ∨ s.glody.errSent < 10) := ⟨2, 1, 1, wGlody, by decide +kernel⟩

theorem met_UnprotectedRequests_11 :
    ∃ (op seq src : Nat) (s : State), s.now < s.glody.errStart + msT 1000 ∧ 10 ≤ s.glody.errSent := ⟨2, 1, 1, { wGlody with glody := { wGlody.glody with errStart := wGlody.now, errSent := 10 } }, by decide +kernel⟩

theorem met_StrayWriteback :
    ∃ (port : Fin 512) (address dpa : Nat) (data : List Byte) (mask : Nat) (mark : WriteMark) (keep : Fin 3) (w : Nat) (v :
      View) (n : Nat) (s : State), s.ldUp port = true ∧ ((s.backWith (port / 16) noPhys).link (port / 16)).noCredit (s.writeReq
      port data mask mark.poison mark.parity keep 0) = false ∧ (s.backWith (port / 16) noPhys).ldUp port = true ∧ (s.backWith
      (port / 16) noPhys).decodeHdm port address = some dpa ∧ dpa < dpaEnd ∧ (s.backWith (port / 16) noPhys).ideRefuses
      (s.writeReq port data mask mark.poison mark.parity keep (dpa / 64 * 64)) = false ∧ (s.backWith (port / 16)
      noPhys).serving = true ∧ (Tab.get port.val (s.backWith (port / 16) noPhys).reg.masters).hold = [] ∧ (s.backWith (port /
      16) noPhys).gateOk (s.writeReq port data mask mark.poison mark.parity keep (dpa / 64 * 64)) = true ∧ (((s.backWith (port
      / 16) noPhys).gateSpend (s.writeReq port data mask mark.poison mark.parity keep (dpa / 64 * 64))).checks (s.writeReq port
      data mask mark.poison mark.parity keep (dpa / 64 * 64))).toOption = some (w, v) ∧ (((s.backWith (port / 16)
      noPhys).gateSpend (s.writeReq port data mask mark.poison mark.parity keep (dpa / 64 * 64))).accepted (s.writeReq port
      data mask mark.poison mark.parity keep (dpa / 64 * 64)) w).hubReady (s.writeReq port data mask mark.poison mark.parity
      keep (dpa / 64 * 64)) v w = true ∧ ((((s.backWith (port / 16) noPhys).gateSpend (s.writeReq port data mask mark.poison
      mark.parity keep (dpa / 64 * 64))).accepted (s.writeReq port data mask mark.poison mark.parity keep (dpa / 64 * 64))
      w).hubGrant (((((s.backWith (port / 16) noPhys).gateSpend (s.writeReq port data mask mark.poison mark.parity keep (dpa /
      64 * 64))).accepted (s.writeReq port data mask mark.poison mark.parity keep (dpa / 64 * 64)) w).home (s.writeReq port
      data mask mark.poison mark.parity keep (dpa / 64 * 64)).dpa).getD 0) ((s.writeReq port data mask mark.poison mark.parity
      keep (dpa / 64 * 64)).port / 32)).cohAt (s.writeReq port data mask mark.poison mark.parity keep (dpa / 64 * 64)).dpa =
      some n ∧ ((((s.backWith (port / 16) noPhys).gateSpend (s.writeReq port data mask mark.poison mark.parity keep (dpa / 64 *
      64))).accepted (s.writeReq port data mask mark.poison mark.parity keep (dpa / 64 * 64)) w).hubGrant (((((s.backWith (port
      / 16) noPhys).gateSpend (s.writeReq port data mask mark.poison mark.parity keep (dpa / 64 * 64))).accepted (s.writeReq
      port data mask mark.poison mark.parity keep (dpa / 64 * 64)) w).home (s.writeReq port data mask mark.poison mark.parity
      keep (dpa / 64 * 64)).dpa).getD 0) ((s.writeReq port data mask mark.poison mark.parity keep (dpa / 64 * 64)).port /
      32)).holdsE ((s.writeReq port data mask mark.poison mark.parity keep (dpa / 64 * 64)).dpa / 64) (((((s.backWith (port /
      16) noPhys).gateSpend (s.writeReq port data mask mark.poison mark.parity keep (dpa / 64 * 64))).accepted (s.writeReq port
      data mask mark.poison mark.parity keep (dpa / 64 * 64)) w).hubGrant (((((s.backWith (port / 16) noPhys).gateSpend
      (s.writeReq port data mask mark.poison mark.parity keep (dpa / 64 * 64))).accepted (s.writeReq port data mask mark.poison
      mark.parity keep (dpa / 64 * 64)) w).home (s.writeReq port data mask mark.poison mark.parity keep (dpa / 64 *
      64)).dpa).getD 0) ((s.writeReq port data mask mark.poison mark.parity keep (dpa / 64 * 64)).port / 32)).hidOf (s.writeReq
      port data mask mark.poison mark.parity keep (dpa / 64 * 64)).port) = false := ⟨0, 0x1040, 0x1040, [1], 0, ⟨false, false⟩, 0, 0, .main, 0, wStray, by decide +kernel⟩

theorem met_EnableValidation_1 :
    ∃ (queue : Fin 32768) (s : State), s.takes (P.qCtl queue) 1 = true ∧ s.Canonical ∧ s.par (P.grpPortLd (queue / 64)) < 256 ∧
      s.par (P.grpPath (queue / 64)) < 2 := ⟨0, service [(P.grpHid 0, 5), (P.qCfg 0, 15)], by decide +kernel, ⟨by decide +kernel, by decide +kernel, by decide +kernel⟩, by decide +kernel, by decide +kernel⟩

theorem met_EnableValidation_2 :
    ∃ (queue : Fin 32768) (s : State), s.qMode queue ≠ 0 ∧ s.barOn = true ∧ s.dictOn = true := ⟨0, wQueue, by decide +kernel⟩

end Sys2Proof.Tests
end

