-- ==== Sys2Proof/WellFormed.lean ====
section
/-! DEFINITION. Which operands a command can carry: the widths of the fields that bring them (R30, R33, R229, R254, R275, R407, R417,
R427, R438, R439) and the sizes of what a link or a bus delivers. -/
namespace Sys2Proof

/-- A number that a field of `w` bits holds. -/
def fits (w n : Nat) : Bool := decide (n < 2 ^ w)

/-- A line of 64 bytes (R31, R33). -/
def isLine (l : List Byte) : Bool := l.length == 64

/-- No more bytes than one message carries. -/
def atMost (n : Nat) (l : List Byte) : Bool := decide (l.length ≤ n)

/-- HBM lines: 16 stacks of 72 GiB (R37). -/
def hbmLine (l : Nat) : Bool := decide (l < 16 * 72 * 2 ^ 24)

/-- Physical outcomes name lines that exist, symbols of a codeword (R324) and blocks of the block map (R66). -/
def Phys.wf (p : Phys) : Bool :=
  p.ce.all (fun x => hbmLine x.1 && fits 8 x.2) && p.ue.all hbmLine && p.par.all hbmLine && p.mapPri.all (fits 30) && p.mapMir.all (fits 30)

/-- Physical outcomes, and detour slots that exist (R164). -/
def Env.wf (e : Env) : Bool := e.ph.wf && e.slots.all (fun x => fits 26 x.1)

/-- A partner's offer: rate codes 1-6, at most 16 lanes and 16 LDs, four credit counts (R247, R254). -/
def Partner.wf (p : Partner) : Bool :=
  fits 8 p.rates && decide (p.lanes ≤ 16) && decide (p.lds ≤ 16) && p.credits.length == 4 && p.credits.all (fits 16) && fits 2 p.back

/-- A flagged result's work: a job, descriptor, block or reduction that exists. -/
def Work.wf : Work → Bool
  | .step job tile => fits 16 job && fits 64 tile
  | .factor desc tile => fits 11 desc && fits 64 tile
  | .recon blk => fits 30 blk
  | .reduce red => fits 8 red

/-- A doorbell access carries words of 32 bits (R224). -/
def DbAccess.wf : DbAccess → Bool
  | .one v => fits 32 v
  | .both t h => fits 32 t && fits 32 h
  | .read => true

/-- Metadata that exists: blocks, parcels, detour slots, queues. -/
def MetaPart.wf : MetaPart → Bool
  | .block b => fits 30 b
  | .parcel p => fits 26 p
  | .slot i => fits 26 i
  | .completion q => fits 15 q
  | .table => true

def DictSub.wf (d : DictSub) : Bool := fits 40 d.rest
def DictData.wf (d : DictData) : Bool := fits 64 d.value
def MsixEntry.wf (e : MsixEntry) : Bool := fits 64 e.addr && fits 32 e.data
def ScrubEvents.wf (e : ScrubEvents) : Bool := e.lost.all MetaPart.wf && e.ph.wf
def FactorStart.wf (x : FactorStart) : Bool := x.env.wf

/-- The value of a run fits the widest result, a superaccumulator. -/
def Run.wf (r : Run) : Bool := fits 1024 r.value

/-- A temperature of the sensors' range in degrees Celsius. -/
def temperature (c : Int) : Bool := decide (-128 ≤ c ∧ c ≤ 255)

/-- The operands of a command lie within the fields that carry them. -/
def Instr.wf : Instr → Bool
  | .cxlMemRead _ address _ ph => fits 64 address && ph.wf
  | .cxlMemWrite _ address data mask _ _ => fits 64 address && isLine data && fits 64 mask
  | .tollgateRelease _ ph => ph.wf
  | .gatherTimeout _ _ env => env.wf
  | .checkerRoundTrip _ _ _ _ _ _ ph => ph.wf
  | .mirrorHomeRewrite _ ph => ph.wf
  | .factorReconstruct _ _ env _ => env.wf
  | .componentInvalidate ph => ph.wf
  | .moverSweep _ ph => ph.wf
  | .moverPromote _ ph => ph.wf
  | .moverRecompress _ => true
  | .relocateBlock _ ph => ph.wf
  | .detourSpill _ _ ph => ph.wf
  | .detourRecall _ _ => true
  | .detourReadComplete _ => true
  | .detourLost => true
  | .lowerTile _ _ env => env.wf
  | .fenceLift _ => true
  | .capacityAudit => true
  | .frameWalkPass _ => true
  | .conservationAudit _ => true
  | .partCommit _ => true
  | .partRelease _ => true
  | .partReleaseComplete _ => true
  | .winCommit _ => true
  | .winWithdraw _ => true
  | .ownershipWord1Write _ value => fits 64 value
  | .descCommit _ => true
  | .descRelease _ => true
  | .srCommit _ => true
  | .srRelease _ => true
  | .rcCommit _ => true
  | .rcRelease _ => true
  | .tokenBoundary => true
  | .guaranteeWindowEnd => true
  | .qEnable _ => true
  | .qDisable _ => true
  | .qRestart _ => true
  | .qDisableComplete _ => true
  | .sqTailDoorbell _ _ access => access.wf
  | .cqHeadDoorbell _ _ access => access.wf
  | .queueFetch _ ph => ph.wf
  | .fenceStart _ => true
  | .completionPost _ ph => ph.wf
  | .coalesceTimeout _ => true
  | .copyDevice _ _ env => env.wf
  | .copyFromHost _ _ env => env.wf
  | .copyToHost _ _ env => env.wf
  | .fill _ _ env => env.wf
  | .pack _ _ ph => ph.wf
  | .unpack _ _ ph => ph.wf
  | .factorFull _ start => start.wf
  | .factorResidualOnly _ _ => true
  | .tileSwitch _ env => env.wf
  | .stageArm _ _ => true
  | .stageDisarm _ _ => true
  | .waypointArmWrite _ value => fits 64 value
  | .waypointTileStaged _ env => env.wf
  | .optStepSgdMomentum _ _ env => env.wf
  | .optStepAdamw _ _ env => env.wf
  | .optStepSignMomentum _ _ env => env.wf
  | .optStepProjectedAdamw _ _ env => env.wf
  | .workTileRetire _ _ _ => true
  | .stepReplay flag => fits 32 flag
  | .prepare _ _ => true
  | .prepareComplete _ => true
  | .commitStep _ _ => true
  | .abortMilestone _ _ => true
  | .jobBaseWrite _ value => fits 64 value
  | .jobRelease _ value => fits 64 value
  | .reduceOpen _ _ env => env.wf
  | .reduceContrib _ _ env => env.wf
  | .reduceCancel _ _ => true
  | .reduceTileOpen => true
  | .reduceTileRound _ env => env.wf
  | .reduceFrontTimeout _ => true
  | .reduceTimeout _ => true
  | .ckptFreeze _ _ env => env.wf
  | .ckptFreezeRelease _ _ => true
  | .ckptDrain _ _ count env => fits 64 count && env.wf
  | .fitEstimate _ _ env => env.wf
  | .openVersionRead _ _ => true
  | .openVersionReadLatest _ _ => true
  | .openVersionWrite _ _ => true
  | .openVersionWriteLatest _ _ => true
  | .openVersionUnbind _ _ => true
  | .publishPlain _ _ => true
  | .publishCas _ _ => true
  | .closeVersion _ _ => true
  | .leaseRenew _ _ => true
  | .leaseRelease _ _ => true
  | .rejoin _ _ => true
  | .leaseExpiryCheck ph => ph.wf
  | .leaseEnableWrite _ value => fits 64 value
  | .shareDeclareDead value ph => fits 64 value && ph.wf
  | .shareRevive value => fits 64 value
  | .shareVersionReset => true
  | .linkGraceExpiry _ ph => ph.wf
  | .bisnpResponse _ line _ ph => fits 36 line && ph.wf
  | .bisnpTimeout line _ ph => fits 36 line && ph.wf
  | .biconflict _ line => fits 36 line
  | .retireFrame _ _ ph => ph.wf
  | .retireRow _ _ ph => ph.wf
  | .retireBank _ _ ph => ph.wf
  | .retireRelease _ _ => true
  | .testRound _ _ => true
  | .diceRoundDue _ _ => true
  | .diceRoundComplete _ own partner third again lanes => fits 64 own && fits 64 partner && fits 64 third && fits 64 again && lanes.all (fits 12)
  | .diceDeferExpiry _ => true
  | .checkFlag _ _ _ work result predicted found => work.wf && fits 1024 result && fits 7 predicted && fits 48 found
  | .repeatDecide flag a2 b c => fits 32 flag && a2.wf && b.wf && c.wf
  | .blockWatchdogExpiry _ _ waiting => fits 32 waiting
  | .engineFault _ _ waiting => fits 32 waiting
  | .engineResetComplete _ _ ph => ph.wf
  | .engineResetOverrun _ _ => true
  | .suspectTileResult _ _ _ env => env.wf
  | .regionReset _ _ => true
  | .regionResetComplete _ lost env => lost.all (fits 42) && env.wf
  | .regionResetOverrun _ => true
  | .warmResetPhaseEnd env _ lost => env.wf && lost.all (fits 42)
  | .warmResetOverrun => true
  | .safeEntry => true
  | .safeAutoExpiry => true
  | .coreWatchdogExpiry => true
  | .lockstepMismatch => true
  | .codeFetchUe _ => true
  | .dmaSourceUe _ source _ _ => fits 64 source
  | .enterService => true
  | .enterStandby => true
  | .recover => true
  | .enterSafe => true
  | .patrolScrubRead _ events => events.wf
  | .scrubWriteback _ => true
  | .sramScrub _ _ _ _ place => fits 32 place
  | .stackDeath _ => true
  | .stackDeathWalkComplete _ ph => ph.wf
  | .regionDeath _ => true
  | .flipArm value => fits 64 value
  | .stackTempSample _ celsius => temperature celsius
  | .thermalHoldExpiry _ => true
  | .refreshDue _ _ _ _ _ => true
  | .pageIdleExpiry _ _ _ => true
  | .requestStarvePromote place => fits 32 place
  | .commandParityAlert _ _ => true
  | .replayComplete _ _ => true
  | .channelRetrainComplete _ _ _ => true
  | .panicAssert _ filled reads => fits 32 filled && fits 32 reads
  | .panicDeassert _ filled reads => fits 32 filled && fits 32 reads
  | .trnHoldWrite _ value => fits 64 value
  | .trnCtlStart _ value => fits 64 value
  | .trnRunComplete _ mismatch errors => fits 40 mismatch && fits 32 errors
  | .selfRefreshEntry _ => true
  | .selfRefreshExit _ ph => ph.wf
  | .linkDetectTick _ _ => true
  | .linkTrained _ partner => partner.wf
  | .linkDown _ _ => true
  | .backoffExpiry _ => true
  | .portEnableWrite _ value => fits 64 value
  | .rxOverflow _ => true
  | .creditStall _ => true
  | .replayLimitExhausted _ => true
  | .malformedMessage _ => true
  | .ideKeyProgram _ keys _ => atMost 128 keys
  | .ideIntegrityFail _ => true
  | .ldFlr _ => true
  | .ldBmeClear _ => true
  | .ldCplTimeout _ tag => fits 16 tag
  | .ldCompletionArrival _ tag => fits 16 tag
  | .cxlConfigRequest _ _ _ _ value => fits 64 value
  | .cdatRead _ => true
  | .dcAddExtent _ first count => fits 32 first && fits 32 count
  | .dcReleaseExtent _ first count => fits 32 first && fits 32 count
  | .identifyMemoryDevice _ => true
  | .getSupportedLogs _ => true
  | .getLog _ uuid offset length => fits 128 uuid && fits 32 offset && fits 32 length
  | .getEventRecords _ log => fits 8 log
  | .clearEventRecords _ log _ handles => fits 8 log && handles.all (fits 16)
  | .getEventInterruptPolicy _ => true
  | .setEventInterruptPolicy _ settings => atMost 64 settings
  | .getTimestamp _ => true
  | .setTimestamp _ value => fits 64 value
  | .getHealthInfo _ => true
  | .getAlertConfiguration _ => true
  | .setAlertConfiguration _ settings => atMost 64 settings
  | .getFwInfo _ => true
  | .getPoisonList _ dpa length => fits 64 dpa && fits 64 length
  | .injectPoison _ dpa => fits 64 dpa
  | .clearPoison _ dpa data ph => fits 64 dpa && isLine data && ph.wf
  | .getDcConfiguration _ => true
  | .getDcExtentList _ count start => fits 32 count && fits 32 start
  | .addDcResponse _ accepted => accepted.all (fun x => fits 64 x.1 && fits 64 x.2)
  | .releaseDc _ released => released.all (fun x => fits 64 x.1 && fits 64 x.2)
  | .mailboxUnsupported _ _ => true
  | .dictRead _ _ sub => sub.wf
  | .getSignatures _ start => fits 32 start
  | .getPortMode _ => true
  | .getBinding _ => true
  | .getOwnFail _ => true
  | .svcFlr => true
  | .svcFlrComplete => true
  | .svcBmeClear => true
  | .svcBmeSet => true
  | .perstAssert _ => true
  | .perstDeassert => true
  | .svcLinkDownGraceExpiry => true
  | .svcD3hotEntry => true
  | .svcD0Entry => true
  | .svcD3coldEntry => true
  | .svcD3WaitExpiry => true
  | .wakeCauseSignal _ => true
  | .svcCompletionArrival tag _ => fits 16 tag
  | .svcCompletionTimeout tag => fits 16 tag
  | .tagQuarantineExpiry tag => fits 16 tag
  | .svcEgressGrant => true
  | .bar0Read _ size => fits 16 size
  | .dictWrite _ size data ph => fits 16 size && data.wf && ph.wf
  | .ltrSend => true
  | .aspmSupportWrite value => fits 64 value
  | .domDataWrite _ size value => fits 16 size && fits 64 value
  | .fwCommit => true
  | .fwWriteComplete _ => true
  | .keyErase _ => true
  | .diagMapLatch _ value ph => fits 64 value && ph.wf
  | .keyLoad session _ key1 key2 => fits 32 session && key1.length == 32 && key2.length == 32
  | .spdmGetMeasurements session _ _ nonce => fits 32 session && nonce.length == 32
  | .spdmKeyExchange id _ _ heartbeat => fits 32 id && fits 8 heartbeat
  | .spdmRequest session _ payload => fits 32 session && atMost 4096 payload
  | .mctpPacket _ eid length => fits 8 eid && fits 32 length
  | .setEndpointId _ => true
  | .glodyRead session seq _ src items => fits 32 session && fits 32 seq && fits 144 src && decide (items.length ≤ 256)
  | .glodyWrite session seq _ src items ph => fits 32 session && fits 32 seq && fits 144 src && decide (items.length ≤ 128) && items.all (fun x => fits 64 x.2) && ph.wf
  | .readDomain session seq _ src _ offset length => fits 32 session && fits 32 seq && fits 144 src && fits 32 offset && fits 32 length
  | .writeDomain session seq _ src _ offset bytes => fits 32 session && fits 32 seq && fits 144 src && fits 32 offset && atMost 1420 bytes
  | .dcAdd session seq _ src _ _ _ count dpa => fits 32 session && fits 32 seq && fits 144 src && fits 32 count && fits 64 dpa
  | .dcRelease session seq _ src _ _ _ count dpa => fits 32 session && fits 32 seq && fits 144 src && fits 32 count && fits 64 dpa
  | .keepalive session seq _ src => fits 32 session && fits 32 seq && fits 144 src
  | .closeSession session seq _ src => fits 32 session && fits 32 seq && fits 144 src
  | .glodySessionIdleExpiry session => fits 32 session
  | .glodyDatagramDrop _ session seq _ src => fits 32 session && fits 32 seq && fits 144 src
  | .noticeRepeat => true
  | .glodyTransmit => true
  | .announce => true
  | .plcaBeacon => true
  | .neighborSolicitation target => fits 64 target
  | .beginOp source seq object length => fits 144 source && fits 32 seq && fits 32 object && fits 32 length
  | .dataOp source seq offset bytes => fits 144 source && fits 32 seq && fits 32 offset && atMost 1420 bytes
  | .endOp source seq => fits 144 source && fits 32 seq
  | .loaderTransferTimeout => true
  | .bootPhaseEnd _ _ bist remaps dead => bist.all (fits 64) && remaps.all (fun x => fits 4 x.1 && fits 8 x.2.1 && fits 8 x.2.2) && dead.all (fits 4)
  | .powerInputApplied millivolts _ _ => fits 20 millivolts
  | .refclkStable => true
  | .inputOutOfRange millivolts => fits 20 millivolts
  | .inputRestored millivolts => fits 20 millivolts
  | .inputCollapse => true
  | .refclkLost => true
  | .refclkRestored => true
  | .thermalTrip unit celsius => fits 8 unit && temperature celsius
  | .governorSample watts => fits 16 watts
  | .powerS1Entry _ => true
  | .powerS2Entry _ => true
  | .powerS3Entry _ _ => true
  | .wakeCause _ _ => true
  | .wakeTokenTick => true
  | .wakeGrant ph => ph.wf
  | .pllLock _ ph => ph.wf
  | .hubRestoreComplete ph => ph.wf
  | .latencyToleranceWrite _ value => fits 64 value
  | .hdmDecoderCommit _ _ _ base size ways gran skip _ => fits 64 base && fits 64 size && fits 8 ways && fits 8 gran && fits 64 skip
  | .versionTableWalkPass => true
  | .spdmHeartbeatTimeout session => fits 32 session
  | .i3cDynamicAddressAssignment _ => true
  | .msixVectorUnmask _ entry => entry.wf
  | .plcaBeaconStatusChange _ => true
  | .svcLinkUp => true
  | .svcConfigRequest _ _ value => fits 64 value

end Sys2Proof
end

