-- ==== Sys2Proof/Tests/Slice0.lean ====
section
/-! SUPPORT. Tests: a term that each check of WellFormed refuses, the spec's worked examples, and single commands on small
states. Every expected value is the spec's or follows from it by hand. -/
namespace Sys2Proof.Tests
open Sys2Proof Sys2Proof.Machine

/-! Well-formedness. -/

theorem test_wf_accepts : (Instr.cxlMemWrite 0 0x1040 (zeros 64) 0 ⟨false, false⟩ 0).wf = true := by decide +kernel
theorem test_wf_fits : (Instr.ownershipWord1Write 0 (2 ^ 64)).wf = false := by decide
theorem test_wf_line : (Instr.cxlMemWrite 0 0 (zeros 63) 0 ⟨false, false⟩ 0).wf = false := by decide
theorem test_wf_mask : (Instr.cxlMemWrite 0 0 (zeros 64) (2 ^ 64) ⟨false, false⟩ 0).wf = false := by decide +kernel
theorem test_wf_at_most : (Instr.ideKeyProgram 0 (zeros 129) false).wf = false := by decide +kernel
theorem test_wf_hbm_line : (Instr.tollgateRelease 0 { noPhys with ue := [16 * 72 * 2 ^ 24] }).wf = false := by decide +kernel
theorem test_wf_symbol : (Instr.tollgateRelease 0 { noPhys with ce := [(0, 256)] }).wf = false := by decide
theorem test_wf_map_block : (Instr.tollgateRelease 0 { noPhys with mapPri := [2 ^ 30] }).wf = false := by decide
theorem test_wf_map_mirror : (Instr.tollgateRelease 0 { noPhys with mapMir := [2 ^ 30] }).wf = false := by decide
theorem test_wf_env_slot : (Instr.fill 0 0 ⟨noPhys, .failed, [(2 ^ 26, .failed)]⟩).wf = false := by decide
theorem test_wf_partner_lanes : (Instr.linkTrained 0 { (default : Partner) with lanes := 17 }).wf = false := by decide
theorem test_wf_partner_credits : (Instr.linkTrained 0 { (default : Partner) with credits := [1] }).wf = false := by decide
theorem test_wf_work : (Instr.checkFlag 0 0 0 (.factor 2048 0) 0 0 0).wf = false := by decide
theorem test_wf_residue : fits 7 128 = false := by decide
theorem fits_self (w : Nat) : fits w (2 ^ w) = false := by simp [fits]
theorem test_wf_run : ∃ n, (Run.mk n true).wf = false := ⟨_, fits_self 1024⟩
theorem test_wf_temperature : (Instr.stackTempSample 0 256).wf = false := by decide
theorem test_wf_lanes : (Instr.diceRoundComplete 0 0 0 0 0 [4096]).wf = false := by decide
theorem test_wf_lost : (Instr.regionResetComplete 0 [2 ^ 42] ⟨noPhys, .failed, []⟩).wf = false := by decide
theorem test_wf_key : (Instr.keyLoad 0 0 (zeros 31) (zeros 32)).wf = false := by decide
theorem test_wf_items : (Instr.glodyWrite 0 0 true 0 [(0, 2 ^ 64)] noPhys).wf = false := by decide
theorem test_wf_parity : (Instr.tollgateRelease 0 { noPhys with par := [16 * 72 * 2 ^ 24] }).wf = false := by decide +kernel
theorem test_wf_doorbell : (Instr.sqTailDoorbell none 0 (.both 0 (2 ^ 32))).wf = false ∧ (Instr.cqHeadDoorbell none 0 (.one (2 ^ 32))).wf = false := by
  decide
theorem test_wf_metadata : (Instr.patrolScrubRead 0 ⟨some (.slot (2 ^ 26)), noPhys⟩).wf = false := by decide
theorem test_wf_factor_start : (Instr.factorFull 0 ⟨0, noPhys, .failed, [(2 ^ 26, .failed)]⟩).wf = false := by decide
theorem test_wf_dict_sub : (Instr.dictRead 0 0 ⟨0, 2 ^ 40⟩).wf = false := by decide
theorem test_wf_dict_data : (Instr.dictWrite 0 8 ⟨2 ^ 64, false⟩ noPhys).wf = false := by decide
theorem test_wf_msix_entry : (Instr.msixVectorUnmask none ⟨0, 0, 2 ^ 32, false⟩).wf = false := by decide
theorem test_wf_remaps : (Instr.bootPhaseEnd true true [] [(16, 0, 0)] []).wf = false := by decide

/-! Worked examples of the spec. -/

/-- R14: entry 0x3010.02 lies at BAR0 offset 0x0180_8010. -/
theorem test_bar0_slot : P.portStatus 0 = 0x301002 → P.portStatus 0 * 8 = 0x1808010 := by decide
/-- R54: window 37's win_kind is 0x4202.53. -/
theorem test_win_kind_37 : P.winKind 37 = 0x420253 := by decide
/-- R61: word 1 of ownership entry 37 is 0x5102.51. -/
theorem test_own_word_37 : P.ownWord 37 1 = 0x510251 := by decide
/-- R67. -/
theorem test_crc16 : crc16 [0x31, 0x32, 0x33, 0x34, 0x35, 0x36, 0x37, 0x38, 0x39] = 0x29B1#16 := by decide +kernel
/-- R72: the header of the bit-level walk: codec 2, 2,728 bytes, sub-stream 7 at 2,389. -/
theorem test_header : let b : List Byte := [0x82, 0xAA, 0x10, 0x30, 0x16, 0xB6, 0x92, 0x40, 0x5C, 0xF5, 0x6A, 0x02, 0x58, 0x95, 0, 0]
    hdrCodec b = 2 ∧ hdrLogical b = 2728 ∧ hdrOff b 0 = 16 ∧ hdrOff b 3 = 1033 ∧ hdrOff b 7 = 2389 ∧ hdrOff b 8 = 2728 := by decide
/-- R104: d = -3 under k = 1 is the four bits 1, 1, 0, 1, lowest first. -/
theorem test_rice : riceCode 16 1 0xFFFD = (0b1011, 4) ∧ unzig 16 5 = 0xFFFD := by decide
/-- R130: 2,049 and 2,051 are ties in FP16. -/
theorem test_round_ties : (fmtOf 3).roundInt false 2049 0 = (0x6800, false) ∧ (fmtOf 3).roundInt false 2051 0 = (0x6802, false) := by decide
/-- R130: 3 × 2^-26 rounds up to a subnormal, −2^-26 to −0. -/
theorem test_round_small : (fmtOf 3).roundInt false 3 (-26) = (1, false) ∧ (fmtOf 3).roundInt false (-1) (-26) = (0x8000, false) := by decide
/-- R130: 464 is the last value below E4M3's overflow. -/
theorem test_round_e4m3 : (fmtOf 4).roundInt false 29 4 = (0x7E, false) ∧ (fmtOf 4).roundInt true 465 0 = (0x7F, true) := by decide
/-- R135: the sum of the factored element, its product under NONE, and its EXACT and BOUNDED residuals. -/
theorem test_element : dotSum [12000, -3000, 500, 7] [-20000, -1000, 4000, -300] 4 = -235002100 ∧
    deliver bf16 false (-235002100) (-29) 2 0 0 = (0xBEE0, false) ∧ exactResidual bf16 false (-235002100) (-29) 0xBEE2 = 0xFFFE ∧
    boundedResidual bf16 (-235002100) (-29) (-8) 0xBEE2 = some 0xFFFF := by decide
/-- R143: 1.0, 2^-149 and −1.0 sum to 2^-149 in FP32 and +0 in BF16. -/
theorem test_superaccumulator : let u := [0x3F800000, 1, 0xBF800000].foldl (fun u x => SupAcc.add fp32 (-149) x u) default
    SupAcc.final fp32 false (-149) u = (1, false) ∧ SupAcc.final bf16 false (-149) u = (0, false) := by decide +kernel
/-- The hyperparameters of the example under R186. -/
def hyper : Hyper :=
  ⟨0x3A800000, 0x3D800000, 0x3F600000, 0x3E000000, 0x3F7FC000, 0x3A800000, 0x33800000, 0x41000000, 0x44800000, 0x3F800000, 0⟩
/-- R181: the ADAMW element of that example. -/
theorem test_adamw : (adamElem ⟨fp32, bf16, bf16, bf16⟩ hyper 0x3F00 0x3F800000 0 0).w = 0x3F7FBC00 ∧
    fconv fp32 bf16 (adamElem ⟨fp32, bf16, bf16, bf16⟩ hyper 0x3F00 0x3F800000 0 0).m = 0x3D80 ∧
    fconv fp32 bf16 (adamElem ⟨fp32, bf16, bf16, bf16⟩ hyper 0x3F00 0x3F800000 0 0).v = 0x3980 ∧ fconv fp32 bf16 0x3F7FBC00 = 0x3F80 := by
  decide +kernel
/-- R308: the first line of sector 0x0012_3450. -/
theorem test_place : placeOf 4772160 = { pc := 5, bank := 4, row := 97, col := 5 } ∧ lineAt ⟨5, 4, 97, 5⟩ = 4772160 := by decide
/-- R343: the residue of 0xFFFF_F1FE_270C is 97, and 33 with bit 20 flipped. -/
theorem test_residue : residue48 0xFFFFF1FE270C = 97 ∧ residue48 (0xFFFFF1FE270C ^^^ 2 ^ 20) = 33 := by decide
/-- R362: the head of the example's record. -/
theorem test_cbor : (cborMap [(0, cborUint 1), (1, cborUint 4711), (2, cborUint 3600250)]).drop 1 =
    [0x00, 0x01, 0x01, 0x19, 0x12, 0x67, 0x02, 0x1A, 0x00, 0x36, 0xEF, 0x7A] := by decide +kernel
/-- FIPS 197: the S-box of 0x53. -/
theorem test_sbox : sbox 0x53 = 0xED := by decide +kernel

/-! One command on a small state. -/

/-- The next state satisfies `f`. -/
def next (r : R) (f : State → Bool) : Bool := match r with | .next t => f t | _ => false

/-- R312: the condition rises at 92 and falls below 90. -/
theorem test_temp_rises : next (exec (.stackTempSample 3 92) wUp) (fun t => t.par (P.mcCond 3) == 2 && t.par (P.mcCond 2) == 0) = true := by
  decide +kernel
theorem test_temp_falls : next (exec (.stackTempSample 3 89) (wUp.setPar (P.mcCond 3) 2)) (fun t => t.par (P.mcCond 3) == 1) = true := by
  decide +kernel
/-- R31: an UNWRITTEN block reads as zero. -/
theorem test_read_unwritten : next (exec (.cxlMemRead 0 0x1040 0 noPhys) (wLink wTransparent))
    (fun t => match t.out.head? with | some (.memData 0 0x1040 _ false d) => d == zeros 64 | _ => false) = true := by decide +kernel
/-- R41, R56: a DPA beyond 4 TiB lies in no window: NO_WINDOW, recorded as the last failure. -/
theorem test_read_beyond : next (exec (.cxlMemRead 0 (2 ^ 42) 0 noPhys) (wLink wTransparent))
    (fun t => t.par P.ownLastFail != 0 && match t.out with | .memData 0 _ _ true _ :: _ => true | _ => false) = true := by decide +kernel
/-- R51, R55: a line of an explicit-T0 window reads back. -/
theorem test_write_t0 : next (exec (.cxlMemWrite 0 0x1040 (1 :: zeros 63) 0 ⟨false, false⟩ 0) (wLink wT0))
    (fun t => next (exec (.cxlMemRead 0 0x1040 0 noPhys) t)
      (fun u => match u.out.head? with | some (.memData 0 0x1040 _ false d) => d == 1 :: zeros 63 | _ => false)) = true := by decide +kernel
/-- R57: a partition of size 0 is refused with ALIGNMENT and stays out of force. -/
theorem test_part_refused : next (exec (.partCommit 0) (standby [(P.partSize 0, 0)]))
    (fun t => t.par (P.partStatus 0) != 0 && !(Tab.get 0 t.own.parts).inForce) = true := by decide +kernel
/-- R223: size_m1 of 0 is RING. -/
theorem test_enable_ring : next (exec (.qEnable 0) (service [(P.grpHid 0, 5)])) (fun t => t.par (P.qState 0) == 0x200) = true := by
  decide +kernel
/-- R395: a full bucket lets the token expire. -/
theorem test_token_expires : next (exec .wakeTokenTick (wFit.setPar P.wkHeld 40))
    (fun t => t.par P.wkHeld == 40 && t.par P.wkExpired == 1 && t.par P.wkIssued == 1) = true := by decide +kernel
/-- R410: a free key slot is erased. -/
theorem test_key_erase : next (exec (.keyErase 3) (standby [(P.keyState 3, 1)])) (fun t => t.par (P.keyState 3) == 0) = true := by decide +kernel
/-- R386: 28.5 V sends the device to SAFE with cause SUPPLY. -/
theorem test_supply : next (exec (.inputOutOfRange 28500) wFit) (fun t => t.par P.devSafeCause / 2 ^ 56 == 9) = true := by decide +kernel

end Sys2Proof.Tests
end

section
/-! The tweak of a block (R85, R86): block number and version read back from it, and its period in commits. -/
namespace Sys2Proof.Machine

/-- The version is the tweak's low 20 bits. -/
@[simp] theorem blockTweak_mod (b v : Nat) : blockTweak b v % 2 ^ 20 = v % 2 ^ 20 := by
  simp [blockTweak]

/-- The block number is what stands above the version. -/
@[simp] theorem blockTweak_div (b v : Nat) : blockTweak b v / 2 ^ 20 = b := by
  rw [blockTweak, Nat.mul_comm, Nat.mul_add_div (by decide), Nat.mod_div_self, Nat.add_zero]

/-- Two tweaks are one exactly where the block numbers are one and the versions agree on their 20 bits. -/
theorem blockTweak_eq_iff (b c v w : Nat) : blockTweak b v = blockTweak c w ↔ b = c ∧ v % 2 ^ 20 = w % 2 ^ 20 := by
  constructor
  · intro h
    have hdiv := congrArg (· / 2 ^ 20) h
    have hmod := congrArg (· % 2 ^ 20) h
    simp only [blockTweak_div, blockTweak_mod] at hdiv hmod
    exact ⟨hdiv, hmod⟩
  · rintro ⟨rfl, h⟩
    rw [blockTweak, h, blockTweak]

/-- A version below 2^20 fills the bits that the shifted block number leaves free. -/
theorem blockTweak_eq_shiftLeft_or {v : Nat} (h : v < 2 ^ 20) (b : Nat) : blockTweak b v = b <<< 20 ||| v := by
  rw [← Nat.shiftLeft_add_eq_or_of_lt h, Nat.shiftLeft_eq, blockTweak, Nat.mod_eq_of_lt h]

/-- A block number of 30 bits leaves bits 127 to 50 of the tweak zero. -/
theorem blockTweak_lt {b : Nat} (h : b < 2 ^ 30) (v : Nat) : blockTweak b v < 2 ^ 50 := by
  refine Nat.lt_of_div_lt_div (c := 2 ^ 20) ?_
  rwa [blockTweak_div]

/-- The tweak after n commits is that of now exactly where n is a multiple of the version's period. -/
theorem blockTweak_add_commits_iff (b v n : Nat) : blockTweak b (v + n) = blockTweak b v ↔ 2 ^ 20 ∣ n := by
  rw [blockTweak_eq_iff, and_iff_right rfl]
  omega

/-- The tweak takes the version modulo 2^20 itself. -/
theorem blockTweak_mod_version (b v : Nat) : blockTweak b (v % 2 ^ 20) = blockTweak b v := by
  rw [blockTweak_eq_iff]
  exact ⟨rfl, Nat.mod_mod _ _⟩

/-- Where b's partition encrypts, its block goes through AES-256-XTS under the partition's key slot and the block's tweak. -/
theorem State.encBlock_of_encSlot {s : State} {b k : Nat} (h : s.encSlot b = some k) (v : Nat) (d : List Byte) :
    s.encBlock b v d = xtsEnc (s.keyOf k) (blockTweak b v) d := by
  rw [State.encBlock, h]

/-- The rule of R86 with the version's bound a premise of the whole third clause: block number and version are quotient and
remainder of the tweak by 2^20, and the cipher's first tweak is the tweak's 16 bytes, lowest first, through the tweak key. -/
theorem blockTweak_layout_unique_period_cipher :
    (∀ dpa ver : Nat, dpa < 2 ^ 42 → ver < 2 ^ 20 →
      blockTweak (dpa / 2 ^ 12) ver = ((dpa / 2 ^ 12) <<< 20) ||| ver ∧ blockTweak (dpa / 2 ^ 12) ver < 2 ^ 50 ∧
        dpa / 2 ^ 12 < 2 ^ 30) ∧
    (∀ b c v w : Nat, v < 2 ^ 20 → w < 2 ^ 20 → blockTweak b v = blockTweak c w → b = c ∧ v = w) ∧
    (∀ b v n : Nat, v < 2 ^ 20 → (blockTweak b ((v + n) % 2 ^ 20) = blockTweak b v ↔ 1048576 ∣ n)) ∧
    (∀ (b v k : Nat) (d : List Byte) (s : State), s.encSlot b = some k →
      s.encBlock b v d = xtsUnits (aesEnc (roundKeys ((s.keyOf k).take 32))) (d.length / 16)
        (aesEnc (roundKeys ((s.keyOf k).drop 32)) (leBytes 16 (blockTweak b v))) d) := by
  refine ⟨fun dpa ver hdpa hver => ?_, fun b c v w hv hw h => ?_, fun b v n _ => ?_, fun b v k d s hk => ?_⟩
  · have hblk : dpa / 2 ^ 12 < 2 ^ 30 := Nat.div_lt_of_lt_mul hdpa
    exact ⟨blockTweak_eq_shiftLeft_or hver _, blockTweak_lt hblk _, hblk⟩
  · obtain ⟨hb, hvw⟩ := (blockTweak_eq_iff b c v w).mp h
    rw [Nat.mod_eq_of_lt hv, Nat.mod_eq_of_lt hw] at hvw
    exact ⟨hb, hvw⟩
  · rw [blockTweak_mod_version]
    exact blockTweak_add_commits_iff b v n
  · rw [State.encBlock_of_encSlot hk, xtsEnc]

end Sys2Proof.Machine
end

section
open Sys2Proof.Machine

/-- Refutes O56 as it is written: `→` binds tighter than `↔`, so its third clause says that `v < 2 ^ 20 → …` is equivalent to
`1048576 ∣ n`. For block 0, version 2^20 and one commit the left side holds, for its premise fails, and 1048576 does not divide 1.
The rule of R86 itself holds of the model: `blockTweak_layout_unique_period_cipher` is the same statement with the third
clause's equivalence in parentheses. -/
theorem not_blockTweak : ¬ Obligations.BlockTweak := by
  unfold Obligations.BlockTweak
  rintro ⟨-, -, hperiod, -⟩
  have hdvd : 1048576 ∣ 1 := (hperiod 0 (2 ^ 20) 1).mp fun hver => absurd hver (Nat.lt_irrefl _)
  exact absurd hdvd (by decide)

end

section
/-! The CRC-16 of R67 bit by bit, and the word of a map entry with its check (R66, R67). -/
namespace Sys2Proof.Machine

/-- One message bit enters the CRC: what it makes of the register's top bit decides whether the polynomial is added (R67). -/
def crc16Bit (c : BitVec 16) (b : Bool) : BitVec 16 := if c.msb ^^ b then (c <<< 1) ^^^ 0x1021#16 else c <<< 1

/-- A step of the register with `x` added takes in the top bit of `x`; the rest of `x` waits one place higher. -/
theorem crc16Step_xor (c x : BitVec 16) : crc16Step (c ^^^ x) = crc16Bit c x.msb ^^^ x <<< 1 := by
  simp only [crc16Step, crc16Bit, BitVec.msb_xor, BitVec.shiftLeft_xor_distrib]
  split
  · ac_rfl
  · rfl

/-- `n` steps of the register with `x` added take in the `n` top bits of `x`, the highest first. -/
theorem crc16Step_repeat_xor (n : Nat) (c x : BitVec 16) :
    Nat.repeat crc16Step n (c ^^^ x) = ((List.range n).map x.getMsbD).foldl crc16Bit c ^^^ x <<< n := by
  induction n with
  | zero => rw [Nat.repeat, BitVec.shiftLeft_zero, List.range_zero, List.map_nil, List.foldl_nil]
  | succ n ih =>
    rw [Nat.repeat, ih, crc16Step_xor, BitVec.msb_shiftLeft, ← BitVec.shiftLeft_add, List.range_succ]
    simp only [List.map_append, List.map_singleton, List.foldl_append, List.foldl_cons, List.foldl_nil]

/-- The byte laid at the register's top has its own bits as top bits. -/
theorem getMsbD_byte_at_top (b : Byte) (i : Nat) : ((b.zeroExtend 16) <<< 8).getMsbD i = b.getMsbD i := by
  simp [BitVec.getMsbD_setWidth]

/-- A byte enters bit by bit, most significant bit first. -/
theorem crc16Byte_eq_foldl_bits (c : BitVec 16) (b : Byte) :
    crc16Byte c b = ((List.range 8).map b.getMsbD).foldl crc16Bit c := by
  have hout : (b.zeroExtend 16) <<< 8 <<< 8 = 0#16 := by
    rw [← BitVec.shiftLeft_add]
    exact BitVec.shiftLeft_eq_zero (Nat.le_refl 16)
  have h := crc16Step_repeat_xor 8 c ((b.zeroExtend 16) <<< 8)
  rw [hout, BitVec.xor_zero, funext (getMsbD_byte_at_top b)] at h
  exact h

/-- The CRC-16 is one pass of the message's bits over the register. -/
theorem crc16_eq_foldl_bits (bs : List Byte) :
    crc16 bs = (bs.flatMap (fun b => (List.range 8).map b.getMsbD)).foldl crc16Bit 0xFFFF#16 := by
  simp only [crc16, List.foldl_flatMap, ← crc16Byte_eq_foldl_bits]

/-- Leaving out the `k` low bytes is dividing by 256^k. -/
theorem leBytes_drop (k n v : Nat) : (leBytes (k + n) v).drop k = leBytes n (v / 256 ^ k) := by
  induction k generalizing v with
  | zero => simp
  | succ k ih =>
    rw [Nat.succ_add, leBytes, List.drop_succ_cons, ih, Nat.div_div_eq_div_mul, Nat.pow_succ']

/-- A field and what lies below it make up the low bits up to the field's top. -/
theorem fld_mul_add_mod (v : Nat) {hi lo : Nat} (h : lo ≤ hi + 1) :
    fld v hi lo * 2 ^ lo + v % 2 ^ lo = v % 2 ^ (hi + 1) := by
  rw [← Nat.pow_sub_mul_pow 2 h, Nat.mul_comm (2 ^ _), Nat.mod_mul, fld, Nat.shiftRight_eq_div_pow, Nat.mul_comm, Nat.add_comm]

/-- A field keeps its value when it is cut to its width. -/
theorem fld_mod_width (v : Nat) {hi lo k : Nat} (h : hi + 1 - lo = k) : fld v hi lo % 2 ^ k = fld v hi lo := by
  rw [← h, fld, Nat.mod_mod]

/-- The fields of R66 side by side, each cut to its width. -/
theorem entryWord_toNat (e : MapEntry) :
    (entryWord e).toNat = (e.resv % 2 ^ 36) * 2 ^ 92 + (e.ver % 2 ^ 20) * 2 ^ 72 + (e.keySlot % 2 ^ 8) * 2 ^ 64
      + (e.addr % 2 ^ 36) * 2 ^ 28 + (e.len % 2 ^ 5) * 2 ^ 23 + (e.codec % 2 ^ 4) * 2 ^ 19
      + (e.state % 2 ^ 3) * 2 ^ 16 + e.check % 2 ^ 16 := by
  rw [entryWord, BitVec.toNat_ofNat, Nat.mod_eq_of_lt]
  omega

/-- Every word is the word of its fields. -/
theorem entryWord_entryOf (w : MapWord) : entryWord (entryOf w) = w := by
  apply BitVec.eq_of_toNat_eq
  have hcheck : fld w.toNat 15 0 = w.toNat % 2 ^ 16 := rfl
  rw [entryWord_toNat]
  simp only [entryOf, fld_mod_width, Nat.reduceAdd, Nat.reduceSub]
  simp only [hcheck, Nat.add_assoc, fld_mul_add_mod, Nat.reduceAdd, Nat.reduceLeDiff]
  exact Nat.mod_eq_of_lt w.isLt

/-- A word gives back each field it was made of, cut to its width. -/
theorem entryOf_entryWord (e : MapEntry) :
    entryOf (entryWord e) =
      { ver := e.ver % 2 ^ 20, keySlot := e.keySlot % 2 ^ 8, addr := e.addr % 2 ^ 36, len := e.len % 2 ^ 5
        codec := e.codec % 2 ^ 4, state := e.state % 2 ^ 3, check := e.check % 2 ^ 16, resv := e.resv % 2 ^ 36 } := by
  simp only [entryOf, entryWord_toNat, fld, Nat.shiftRight_eq_div_pow, MapEntry.mk.injEq]
  omega

/-- An entry's block carries a header: PACKED or FACTOR, with a codec other than RAW and ZERO. -/
theorem MapEntry.headed_iff (e : MapEntry) : e.headed = true ↔ (e.state = 2 ∨ e.state = 3) ∧ 2 ≤ e.codec := by
  simp [MapEntry.headed, stPacked, stFactor]

/-- map_check of a word is the CRC of its bytes 2 to 15 and of a headed block's hdr_crc. -/
theorem mapCheckOf_entryOf (w : MapWord) (h : Nat) :
    mapCheckOf (entryOf w) h =
      (crc16 ((leBytes 16 w.toNat).drop 2 ++ if (entryOf w).headed then leBytes 2 h else [])).toNat := by
  rw [mapCheckOf, entryWord_entryOf]

/-- Bytes 2 to 15 of an entry's word do not depend on its check. -/
theorem leBytes_entryWord_drop_check (e : MapEntry) (c : Nat) :
    (leBytes 16 (entryWord { e with check := c }).toNat).drop 2 = (leBytes 16 (entryWord e).toNat).drop 2 := by
  rw [leBytes_drop 2 14, leBytes_drop 2 14]
  congr 1
  simp only [entryWord_toNat]
  omega

/-- Sealing an entry does not change the check it is sealed with. -/
@[simp] theorem mapCheckOf_sealed (e : MapEntry) (h : Nat) : mapCheckOf (e.sealed h) h = mapCheckOf e h := by
  simp only [mapCheckOf, MapEntry.sealed, leBytes_entryWord_drop_check]
  rfl

theorem mapCheckOf_lt (e : MapEntry) (h : Nat) : mapCheckOf e h < 2 ^ 16 := BitVec.isLt _

/-- A sealed entry of legal fields reads back from its word. -/
theorem entryOf_entryWord_sealed {e : MapEntry} (hresv : e.resv < 2 ^ 36) (hver : e.ver < 2 ^ 20)
    (hkey : e.keySlot < 2 ^ 8) (haddr : e.addr < 2 ^ 36) (hlen : e.len < 2 ^ 5) (hcodec : e.codec < 2 ^ 4)
    (hstate : e.state < 2 ^ 3) (h : Nat) : entryOf (entryWord (e.sealed h)) = e.sealed h := by
  rw [entryOf_entryWord]
  simp only [MapEntry.sealed, Nat.mod_eq_of_lt, mapCheckOf_lt, hresv, hver, hkey, haddr, hlen, hcodec, hstate]

/-- An entry that reads back from its word with the check it is due passes. -/
theorem mapCheckOk_sealed {e : MapEntry} {h : Nat} (hread : entryOf (entryWord (e.sealed h)) = e.sealed h) :
    mapCheckOk (entryWord (e.sealed h)) h = true := by
  have hcheck : (e.sealed h).check = mapCheckOf (e.sealed h) h := by
    rw [mapCheckOf_sealed, MapEntry.sealed]
  simp [mapCheckOk, hread, ← hcheck]

/-- A check that answers with another code, before checks that do not answer with `x`. -/
theorem ite_some_ne {p : Prop} [Decidable p] {a x : Nat} {rest : Option Nat} (ha : a ≠ x) (hrest : rest ≠ some x) :
    (if p then some a else rest) ≠ some x := by
  split
  · exact fun h => ha (Option.some.inj h)
  · exact hrest

/-- The header's CRC is checked first, and no later check answers with its code. -/
theorem headerFail_hdrCrc_iff (codec len : Nat) (b : List Byte) (subs : List Nat) :
    headerFail codec len b subs = some fHdrCrc ↔ hdrCrcOf b ≠ (crc16 (b.take 14)).toNat := by
  unfold headerFail
  by_cases hcrc : hdrCrcOf b = (crc16 (b.take 14)).toNat
  · simp only [hcrc, ne_eq, not_true_eq_false, if_false, iff_false]
    exact ite_some_ne (by decide) (ite_some_ne (by decide) (ite_some_ne (by decide) nofun))
  · simp [hcrc]

end Sys2Proof.Machine
end

section
open Sys2Proof.Machine

/-- Settles O57: the byte steps of the CRC are its bit steps, a word and its fields give each other back, and the check does
not enter itself. -/
theorem mapCheck : Obligations.MapCheck := by
  unfold Obligations.MapCheck
  refine ⟨crc16_eq_foldl_bits, by decide +kernel, fun w h => ?_, headerFail_hdrCrc_iff,
    fun e h hresv hver hkey haddr hlen hcodec hstate => ?_⟩
  · rw [mapCheckOk, mapCheckOf_entryOf]
    simp only [MapEntry.headed_iff]
    rfl
  · have hread := entryOf_entryWord_sealed hresv hver hkey haddr hlen hcodec hstate h
    exact ⟨hread, mapCheckOk_sealed hread⟩

end

section
/-! Two's complement in `w` bits (R124) and the ordered-integer map with its inverse (R135). -/
namespace Sys2Proof.Machine

/-- XOR with `n` ones reflects the low `n` bits and keeps the rest. -/
theorem xor_ones (u n : Nat) : u ^^^ (2 ^ n - 1) = 2 ^ n * (u / 2 ^ n) + (2 ^ n - 1 - u % 2 ^ n) := by
  have hlow : u % 2 ^ n ^^^ (2 ^ n - 1) = 2 ^ n - 1 - u % 2 ^ n := by
    have h := congrArg BitVec.toNat (BitVec.xor_allOnes (x := BitVec.ofNat n u))
    rwa [BitVec.toNat_xor, BitVec.toNat_allOnes, BitVec.toNat_not, BitVec.toNat_ofNat] at h
  have hones : 2 ^ n - 1 < 2 ^ n := Nat.sub_lt (Nat.two_pow_pos n) Nat.one_pos
  rw [← Nat.div_add_mod (u ^^^ (2 ^ n - 1)) (2 ^ n), Nat.xor_div_two_pow, Nat.xor_mod_two_pow, Nat.mod_eq_of_lt hones,
    hlow, Nat.div_eq_of_lt hones, Nat.xor_zero]

/-- With bit n the highest set, XOR with `n` ones reflects what stands below it. -/
theorem xor_ones_of_top {n u : Nat} (h : 2 ^ n ≤ u) (hu : u < 2 ^ (n + 1)) : u ^^^ (2 ^ n - 1) = 3 * 2 ^ n - 1 - u := by
  have hdiv : u / 2 ^ n = 1 := Nat.div_eq_of_lt_le (by omega) (by omega)
  have hmod : u % 2 ^ n = u - 2 ^ n := by rw [Nat.mod_eq_sub_mod h, Nat.mod_eq_of_lt (by omega)]
  rw [xor_ones, hdiv, hmod]
  omega

/-- The low bits of an integer, as an integer. -/
theorem natCast_unsigned (w : Nat) (i : Int) : (unsigned w i : Int) = i % 2 ^ w :=
  Int.toNat_of_nonneg (Int.emod_nonneg i (Int.pow_ne_zero (by decide)))

theorem unsigned_lt (w : Nat) (i : Int) : unsigned w i < 2 ^ w := by
  have h : (unsigned w i : Int) < 2 ^ w := natCast_unsigned w i ▸ Int.emod_lt_of_pos i (Int.pow_pos (by decide))
  exact_mod_cast h

/-- Reading a pattern as two's complement does not change it modulo 2^w. -/
theorem signed_emod (w v : Nat) : signed w v % 2 ^ w = v % 2 ^ w := by
  have hmod : ((v % 2 ^ w : Nat) : Int) % 2 ^ w = v % 2 ^ w := by
    rw [Int.natCast_emod, Int.natCast_pow, Int.cast_ofNat_Int, Int.emod_emod]
  rw [signed]
  split
  · rw [Int.sub_emod_right, hmod]
  · exact hmod

/-- Wrapping to `w` bits of two's complement does not change an integer modulo 2^w. -/
theorem signed_unsigned_emod (w : Nat) (i : Int) : signed w (unsigned w i) % 2 ^ w = i % 2 ^ w := by
  rw [signed_emod, natCast_unsigned, Int.emod_emod]

/-- The low bits of an integer are those of what it is congruent to. -/
theorem unsigned_congr {w : Nat} {i j : Int} (h : i % 2 ^ w = j % 2 ^ w) : unsigned w i = unsigned w j := by
  rw [unsigned, h, unsigned]

theorem signed_of_lt_half {n v : Nat} (h : v < 2 ^ n) : signed (n + 1) v = v := by
  rw [signed, Nat.mod_eq_of_lt (by omega)]
  exact if_neg fun hge => absurd hge.1 (Nat.not_le.mpr h)

theorem signed_of_half_le {n v : Nat} (h : 2 ^ n ≤ v) (hv : v < 2 ^ (n + 1)) : signed (n + 1) v = v - 2 ^ (n + 1) := by
  rw [signed, Nat.mod_eq_of_lt hv]
  exact if_pos ⟨h, n.succ_pos⟩

/-- An integer that two's complement in n + 1 bits holds keeps its value. -/
theorem signed_unsigned_of_range {n : Nat} {i : Int} (hlo : -2 ^ n ≤ i) (hhi : i < 2 ^ n) :
    signed (n + 1) (unsigned (n + 1) i) = i := by
  have hpow : ((2 ^ n : Nat) : Int) = 2 ^ n := Int.natCast_pow 2 n
  have hcast := natCast_unsigned (n + 1) i
  rcases Int.lt_or_le i 0 with hneg | hpos
  · rw [← Int.add_emod_right, Int.emod_eq_of_lt (by omega) (by omega)] at hcast
    rw [signed_of_half_le (by omega) (unsigned_lt _ _)]
    omega
  · rw [Int.emod_eq_of_lt hpos (by omega)] at hcast
    rw [signed_of_lt_half (by omega), hcast]

/-- A pattern with sign bit 0 maps to itself. -/
theorem ordOf_of_lt_half {n p : Nat} (h : p < 2 ^ n) : ordOf (n + 1) p = p := by
  rw [ordOf, signed_of_lt_half h]
  exact if_pos (Int.natCast_nonneg p)

/-- A pattern with sign bit 1 maps below zero, the lowest magnitude highest. -/
theorem ordOf_of_half_le {n p : Nat} (h : 2 ^ n ≤ p) (hp : p < 2 ^ (n + 1)) : ordOf (n + 1) p = 2 ^ n - 1 - p := by
  have hpow : ((2 ^ n : Nat) : Int) = 2 ^ n := Int.natCast_pow 2 n
  have hneg : ¬ 0 ≤ (p : Int) - 2 ^ (n + 1) := by omega
  rw [ordOf, signed_of_half_le h hp, if_neg hneg, Nat.mod_eq_of_lt hp, Nat.add_sub_cancel, xor_ones_of_top h hp,
    signed_of_half_le (by omega) (by omega)]
  omega


/-- Both halves of the map at once: each pattern's order. -/
theorem ordOf_eq {n p : Nat} (hp : p < 2 ^ (n + 1)) :
    ordOf (n + 1) p = if p < 2 ^ n then (p : Int) else 2 ^ n - 1 - p := by
  split
  case isTrue h => exact ordOf_of_lt_half h
  case isFalse h => exact ordOf_of_half_le (Nat.not_lt.mp h) hp

/-- Integers from 0 upward come from the pattern of the same number. -/
theorem unordOf_of_nonneg {n : Nat} {o : Int} (h0 : 0 ≤ o) (hhi : o < 2 ^ n) : (unordOf (n + 1) o : Int) = o := by
  have hpow : ((2 ^ n : Nat) : Int) = 2 ^ n := Int.natCast_pow 2 n
  have hcast := natCast_unsigned (n + 1) o
  rw [Int.emod_eq_of_lt h0 (by omega)] at hcast
  rw [unordOf, Nat.add_sub_cancel, if_pos (by omega), hcast]

/-- Negative integers come from the patterns with sign bit 1. -/
theorem unordOf_of_neg {n : Nat} {o : Int} (hneg : o < 0) (hlo : -2 ^ n ≤ o) :
    (unordOf (n + 1) o : Int) = 2 ^ n - 1 - o := by
  have hpow : ((2 ^ n : Nat) : Int) = 2 ^ n := Int.natCast_pow 2 n
  have hcast := natCast_unsigned (n + 1) o
  rw [← Int.add_emod_right, Int.emod_eq_of_lt (by omega) (by omega)] at hcast
  rw [unordOf, Nat.add_sub_cancel, if_neg (by omega), xor_ones_of_top (by omega) (unsigned_lt _ _)]
  omega

/-- Whatever is congruent to the order of a pattern gives the pattern back (R134: the sum wraps). -/
theorem unordOf_of_congr {n p : Nat} {o : Int} (hp : p < 2 ^ (n + 1))
    (h : o % 2 ^ (n + 1) = ordOf (n + 1) p % 2 ^ (n + 1)) : unordOf (n + 1) o = p := by
  have hpow : ((2 ^ n : Nat) : Int) = 2 ^ n := Int.natCast_pow 2 n
  have hback : (unordOf (n + 1) (ordOf (n + 1) p) : Int) = p := by
    rw [ordOf_eq hp]
    split
    · exact unordOf_of_nonneg (by omega) (by omega)
    · rw [unordOf_of_neg (by omega) (by omega)]
      omega
  rw [unordOf, unsigned_congr h, ← unordOf]
  exact_mod_cast hback

theorem unordOf_ordOf {n p : Nat} (hp : p < 2 ^ (n + 1)) : unordOf (n + 1) (ordOf (n + 1) p) = p :=
  unordOf_of_congr hp rfl

/-- The inverse gives a pattern, and the map takes that back to the integer. -/
theorem ordOf_unordOf {n : Nat} {o : Int} (hlo : -2 ^ n ≤ o) (hhi : o < 2 ^ n) :
    ordOf (n + 1) (unordOf (n + 1) o) = o ∧ unordOf (n + 1) o < 2 ^ (n + 1) := by
  have hpow : ((2 ^ n : Nat) : Int) = 2 ^ n := Int.natCast_pow 2 n
  rcases Int.lt_or_le o 0 with hneg | hpos
  · have hpat := unordOf_of_neg hneg hlo
    have hlt : unordOf (n + 1) o < 2 ^ (n + 1) := by omega
    refine ⟨?_, hlt⟩
    rw [ordOf_of_half_le (by omega) hlt, hpat]
    omega
  · have hpat := unordOf_of_nonneg hpos hhi
    refine ⟨?_, by omega⟩
    rw [ordOf_of_lt_half (by omega), hpat]

/-- Among patterns of one sign the map keeps the order of the magnitudes, or reverses it below zero. -/
theorem ordOf_lt_of_lt {n p q : Nat} (hpq : p < q) (hq : q < 2 ^ (n + 1)) :
    (q < 2 ^ n → ordOf (n + 1) p < ordOf (n + 1) q) ∧ (2 ^ n ≤ p → ordOf (n + 1) q < ordOf (n + 1) p) := by
  rw [ordOf_eq hq, ordOf_eq (Nat.lt_trans hpq hq)]
  constructor
  · intro h
    rw [if_pos h, if_pos (Nat.lt_trans hpq h)]
    omega
  · intro h
    rw [if_neg (by omega), if_neg (by omega)]
    omega

/-- An EXACT residual is the difference of the orders modulo 2^Wb. -/
theorem natCast_exactResidual (f : Fmt) (pol : Bool) (sum e : Int) (x : Nat) :
    (exactResidual f pol sum e x : Int) =
      (ordOf (8 * f.bytes) x - ordOf (8 * f.bytes) (f.roundInt pol sum e).1) % 2 ^ (8 * f.bytes) :=
  natCast_unsigned _ _

/-- Under EXACT the residual added to the order of the rounded product wraps to the order of the original. -/
theorem deliver_exactResidual {f : Fmt} {x : Nat} (hf : 1 ≤ f.bytes) (hx : x < 2 ^ (8 * f.bytes)) (pol : Bool)
    (sum e eps : Int) : deliver f pol sum e 0 eps (exactResidual f pol sum e x) = (x, false) := by
  obtain ⟨n, hn⟩ : ∃ n, 8 * f.bytes = n + 1 := ⟨8 * f.bytes - 1, by omega⟩
  rw [deliver, if_pos rfl, exactResidual]
  simp only [hn] at hx ⊢
  rw [unordOf_of_congr hx]
  rw [← Int.add_emod_emod, signed_unsigned_emod, Int.add_emod_emod, Int.add_comm, Int.sub_add_cancel]

theorem fmtOf_bytes_pos (code : Nat) : 1 ≤ (fmtOf code).bytes := by
  unfold fmtOf
  split <;> decide

end Sys2Proof.Machine
end

section
open Sys2Proof.Machine

/-- Settles O52: the order of every pattern is known, its inverse wraps modulo 2^wb, and the residual makes up the difference
of two orders modulo 2^Wb. -/
theorem exactResidualRestores : Obligations.ExactResidualRestores := by
  unfold Obligations.ExactResidualRestores
  refine ⟨fun wb p hwb hp => ?_, fun wb o hwb hlo hhi => ?_, fun wb p q hwb hpq hq => ?_,
    fun code x pol sum e eps _ hx => ⟨natCast_exactResidual _ _ _ _ _, deliver_exactResidual (fmtOf_bytes_pos code) hx ..⟩⟩
  all_goals obtain ⟨n, rfl⟩ := Nat.exists_eq_add_of_le' hwb
  · exact ⟨ordOf_eq hp, unordOf_ordOf hp⟩
  · exact ordOf_unordOf hlo hhi
  · have hpow : ((2 ^ n : Nat) : Int) = 2 ^ n := Int.natCast_pow 2 n
    obtain ⟨hup, hdown⟩ := ordOf_lt_of_lt hpq hq
    refine ⟨hup, hdown, ordOf_of_lt_half (Nat.two_pow_pos n), ?_⟩
    rw [Nat.add_sub_cancel, ordOf_of_half_le (Nat.le_refl _) (Nat.pow_lt_pow_succ Nat.one_lt_two)]
    omega

end

section
/-! A contribution's effect on a superaccumulator, class by class (R141), and the nearest integer (R130). -/
namespace Sys2Proof.Machine

/-- acc after the integer `i` has come to it: 294 bits of two's complement (R140). -/
def wrapAcc (i : Int) : Int := signed 294 (unsigned 294 i)

theorem wrapAcc_of_range {i : Int} (hlo : -2 ^ 293 ≤ i) (hhi : i < 2 ^ 293) : wrapAcc i = i :=
  signed_unsigned_of_range hlo hhi

/-- A sum wraps to the same whether or not its first part has wrapped before. -/
theorem wrapAcc_wrapAcc_add (i j : Int) : wrapAcc (wrapAcc i + j) = wrapAcc (i + j) := by
  have h : (wrapAcc i + j) % 2 ^ 294 = (i + j) % 2 ^ 294 := by
    rw [← Int.emod_add_emod, wrapAcc, signed_unsigned_emod, Int.emod_add_emod]
  rw [wrapAcc, unsigned_congr h, wrapAcc]

/-- acc after the integer of a contribution that has one; a contribution without one leaves it. -/
def takeTerm (t : Option Int) (acc : Int) : Int := t.elim acc fun i => wrapAcc (acc + i)

theorem takeTerm_comm (t r : Option Int) (acc : Int) : takeTerm t (takeTerm r acc) = takeTerm r (takeTerm t acc) := by
  cases t with
  | none => simp only [takeTerm, Option.elim_none]
  | some i =>
    cases r with
    | none => simp only [takeTerm, Option.elim_none]
    | some j =>
      simp only [takeTerm, Option.elim_some, wrapAcc_wrapAcc_add]
      rw [Int.add_right_comm]

/-- ±r, the sign as in a finite value. -/
theorem ite_neg_eq_mul (sg : Bool) (r : Int) : (if sg then -r else r) = (if sg then -1 else 1) * r := by
  cases sg <;> simp

/-- A NaN contribution. -/
theorem SupAcc.add_of_nan {f : Fmt} {x : Nat} (h : f.value x = .nan) (a : Int) (u : SupAcc) :
    SupAcc.add f a x u = { u with count := u.count + 1, notNegZero := true, nan := true } := by
  simp only [SupAcc.add, h]

/-- A contribution of an infinity. -/
theorem SupAcc.add_of_inf {f : Fmt} {x : Nat} {sg : Bool} (h : f.value x = .inf sg) (a : Int) (u : SupAcc) :
    SupAcc.add f a x u =
      { u with count := u.count + 1, notNegZero := true, posInf := u.posInf || !sg, negInf := u.negInf || sg } := by
  cases sg <;> simp [SupAcc.add, h]

/-- Bits of m × 2^e stand below 2^a. -/
def bitsBelow (a : Int) (m : Nat) (e : Int) : Bool := decide (e < a ∧ ¬ 2 ^ (a - e).toNat ∣ m)

theorem bitsBelow_of_le {a e : Int} (h : a ≤ e) (m : Nat) : bitsBelow a m e = false :=
  decide_eq_false fun hlt => absurd hlt.1 (Int.not_lt.mpr h)

/-- The model's test of bits below the anchor is divisibility. -/
theorem bitsBelow_eq (a : Int) (m : Nat) (e : Int) :
    (decide (e < a) && decide (m % 2 ^ (a - e).toNat ≠ 0)) = bitsBelow a m e := by
  simp only [bitsBelow, Nat.dvd_iff_mod_eq_zero, ne_eq, Bool.decide_and]

/-- A finite contribution that acc takes. -/
theorem SupAcc.add_of_fin {f : Fmt} {a : Int} {x m : Nat} {e : Int} {sg : Bool} (h : f.value x = .fin sg m e)
    (htake : f.bytes = 8 → rne m (e - a) < 2 ^ 277) (u : SupAcc) :
    SupAcc.add f a x u =
      { u with count := u.count + 1, notNegZero := u.notNegZero || !(sg && m == 0),
               inexact := u.inexact || bitsBelow a m e,
               acc := wrapAcc (u.acc + (if sg then -1 else 1) * rne m (e - a)) } := by
  have hnot : ¬ (f.bytes = 8 ∧ 2 ^ 277 ≤ rne m (e - a)) := fun hov => absurd (htake hov.1) (Nat.not_lt.mpr hov.2)
  rw [← ite_neg_eq_mul]
  simp only [SupAcc.add, h, if_neg hnot, bitsBelow_eq, wrapAcc]

/-- An FP64 contribution at 2^277 anchor multiples or more. -/
theorem SupAcc.add_of_over {f : Fmt} {a : Int} {x m : Nat} {e : Int} {sg : Bool} (h : f.value x = .fin sg m e)
    (hf : f.bytes = 8) (hover : 2 ^ 277 ≤ rne m (e - a)) (u : SupAcc) :
    SupAcc.add f a x u =
      { u with count := u.count + 1, notNegZero := u.notNegZero || !(sg && m == 0),
               inexact := u.inexact || bitsBelow a m e, posOver := u.posOver || !sg, negOver := u.negOver || sg } := by
  simp only [SupAcc.add, h, if_pos (And.intro hf hover), bitsBelow_eq]
  cases sg <;> simp

/-- `u` after the marks of `c` (its flags and its count) and after the integer `t`, where there is one, has come to acc. -/
def SupAcc.join (c : SupAcc) (t : Option Int) (u : SupAcc) : SupAcc where
  nan := u.nan || c.nan
  posInf := u.posInf || c.posInf
  negInf := u.negInf || c.negInf
  posOver := u.posOver || c.posOver
  negOver := u.negOver || c.negOver
  inexact := u.inexact || c.inexact
  notNegZero := u.notNegZero || c.notNegZero
  count := u.count + c.count
  acc := takeTerm t u.acc

/-- The mark that every contribution makes: one more in the count. -/
def oneMark : SupAcc :=
  { nan := false, posInf := false, negInf := false, posOver := false, negOver := false, inexact := false,
    notNegZero := false, count := 1, acc := 0 }

/-- Flags are ORs, the count and acc are sums: two joins have one effect in either order. -/
theorem SupAcc.join_comm (c d : SupAcc) (t r : Option Int) (u : SupAcc) :
    SupAcc.join c t (SupAcc.join d r u) = SupAcc.join d r (SupAcc.join c t u) := by
  simp only [join, takeTerm_comm t r, Bool.or_right_comm, Nat.add_right_comm]

/-- Every contribution is a join whose marks and integer do not depend on the superaccumulator it meets. -/
theorem SupAcc.exists_add_eq_join (f : Fmt) (a : Int) (x : Nat) :
    ∃ (c : SupAcc) (t : Option Int), SupAcc.add f a x = SupAcc.join c t := by
  cases h : f.value x with
  | nan =>
    exact ⟨{ oneMark with count := 1, notNegZero := true, nan := true }, none,
      funext fun u => by simp [add_of_nan h, join, takeTerm, oneMark]⟩
  | inf sg =>
    exact ⟨{ oneMark with count := 1, notNegZero := true, posInf := !sg, negInf := sg }, none,
      funext fun u => by simp [add_of_inf h, join, takeTerm, oneMark]⟩
  | fin sg m e =>
    by_cases hover : f.bytes = 8 ∧ 2 ^ 277 ≤ rne m (e - a)
    · exact ⟨{ oneMark with count := 1, notNegZero := !(sg && m == 0), inexact := bitsBelow a m e,
                                       posOver := !sg, negOver := sg }, none,
        funext fun u => by rw [add_of_over h hover.1 hover.2]; simp [join, takeTerm, oneMark]⟩
    · have htake : f.bytes = 8 → rne m (e - a) < 2 ^ 277 := fun hf => Nat.not_le.mp fun hle => hover ⟨hf, hle⟩
      exact ⟨{ oneMark with count := 1, notNegZero := !(sg && m == 0), inexact := bitsBelow a m e },
        some ((if sg then -1 else 1) * rne m (e - a)),
        funext fun u => by rw [add_of_fin h htake]; simp [join, takeTerm, oneMark]⟩

/-- Two contributions have one effect in either order. -/
theorem SupAcc.add_comm (f : Fmt) (a : Int) (x y : Nat) (u : SupAcc) :
    SupAcc.add f a x (SupAcc.add f a y u) = SupAcc.add f a y (SupAcc.add f a x u) := by
  obtain ⟨c, t, hx⟩ := SupAcc.exists_add_eq_join f a x
  obtain ⟨d, r, hy⟩ := SupAcc.exists_add_eq_join f a y
  rw [hx, hy, SupAcc.join_comm]

/-- A finite pattern's last place lies at or above that of the format's smallest subnormal (R125). -/
theorem Fmt.last_le_of_value {f : Fmt} {x m : Nat} {e : Int} {sg : Bool} (h : f.value x = .fin sg m e) :
    f.emin - f.mBits ≤ e := by
  simp only [Fmt.value] at h
  split at h
  · split at h <;> cases h
  · split at h
    · cases h
      exact Int.le_refl _
    · cases h
      omega

/-- Every format but FP64 has its last places at or above 2^−149, and fewer than 8 bytes (R125, R141). -/
theorem fmtOf_last_and_bytes {code : Nat} (h : 1 ≤ code) :
    -149 ≤ (fmtOf code).emin - (fmtOf code).mBits ∧ (fmtOf code).bytes ≠ 8 := by
  unfold fmtOf
  split
  case h_1 => exact absurd h (by decide)
  all_goals decide

theorem rne_of_nonneg {sh : Int} (h : 0 ≤ sh) (m : Nat) : rne m sh = m * 2 ^ sh.toNat := if_pos h

/-- A quotient by 2^k goes up where the remainder is over a half, or is a half and the quotient odd (R130). -/
theorem rne_neg (m k : Nat) :
    rne m (-(k : Int)) =
      if 2 ^ k < 2 * (m % 2 ^ k) ∨ (2 * (m % 2 ^ k) = 2 ^ k ∧ m / 2 ^ k % 2 = 1) then m / 2 ^ k + 1 else m / 2 ^ k := by
  cases k with
  | zero => simp [rne, Nat.mod_one]
  | succ k => rw [rne, if_neg (by omega)]; simp only [Int.neg_neg, Int.toNat_natCast]

/-- The nearest integer is half a unit away at most, and even where it is half a unit away. -/
theorem rne_neg_nearest (m k : Nat) :
    2 * (rne m (-(k : Int)) * 2 ^ k) ≤ 2 * m + 2 ^ k ∧ 2 * m ≤ 2 * (rne m (-(k : Int)) * 2 ^ k) + 2 ^ k ∧
      (2 * (m % 2 ^ k) = 2 ^ k → rne m (-(k : Int)) % 2 = 0) := by
  have hdiv := Nat.div_add_mod' m (2 ^ k)
  have hrem := Nat.mod_lt m (Nat.two_pow_pos k)
  have hup : (m / 2 ^ k + 1) * 2 ^ k = m / 2 ^ k * 2 ^ k + 2 ^ k := Nat.add_one_mul _ _
  rw [rne_neg]
  split
  · rw [hup]
    omega
  · omega

end Sys2Proof.Machine
end

section
open Sys2Proof.Machine

/-- Settles O53: one lemma per class of contribution, and every contribution joins marks and a term that do not depend on
what came before. -/
theorem contributionEffect : Obligations.ContributionEffect := by
  unfold Obligations.ContributionEffect
  refine ⟨fun f a x u h => SupAcc.add_of_nan h a u, fun f a x sg u h => SupAcc.add_of_inf h a u,
    fun code x m e sg u h1 _ h hlo hhi => ?_, fun a x m e sg u h hlt hlo hhi => ?_,
    fun a x m e sg u h hover => SupAcc.add_of_over h rfl hover u, rne_neg_nearest, SupAcc.add_comm⟩
  · obtain ⟨hlast, hbytes⟩ := fmtOf_last_and_bytes h1
    have he : -149 ≤ e := Int.le_trans hlast (Fmt.last_le_of_value h)
    have hr : rne m (e - -149) = m * 2 ^ (e + 149).toNat := by
      rw [Int.sub_neg, rne_of_nonneg (by omega)]
    refine ⟨he, ?_⟩
    rw [SupAcc.add_of_fin h (fun hb => absurd hb hbytes), bitsBelow_of_le he, Bool.or_false, hr]
    push_cast
    rw [wrapAcc_of_range hlo hhi]
  · rw [SupAcc.add_of_fin h (fun _ => hlt), wrapAcc_of_range hlo hhi]
    rfl

end

section
/-! The one rounder of R130: its magnitude pattern, and the threshold from which it overflows (R132). -/
namespace Sys2Proof.Machine

/-- a × 2^i is the quotient `numer a i / denom i`. -/
def numer (a : Nat) (i : Int) : Nat := a * 2 ^ i.toNat

def denom (i : Int) : Nat := 2 ^ (-i).toNat

theorem denom_pos (i : Int) : 0 < denom i := Nat.two_pow_pos _

/-- a × 2^i rounds above n: it lies beyond n + 1/2, or on this tie with n odd. -/
def PastTie (n a : Nat) (i : Int) : Prop :=
  if n % 2 = 1 then (2 * n + 1) * denom i ≤ 2 * numer a i else (2 * n + 1) * denom i < 2 * numer a i

theorem PastTie.half_le {n a : Nat} {i : Int} (h : PastTie n a i) : (2 * n + 1) * denom i ≤ 2 * numer a i := by
  unfold PastTie at h
  split at h
  · exact h
  · exact Nat.le_of_lt h

theorem pastTie_of_half_lt {n a : Nat} {i : Int} (h : (2 * n + 1) * denom i < 2 * numer a i) : PastTie n a i := by
  unfold PastTie
  split
  · exact Nat.le_of_lt h
  · exact h

/-- From n + 1 upward a number is past the tie over n. -/
theorem pastTie_of_lt {n k a : Nat} {i : Int} (hk : n < k) (h : k * denom i ≤ numer a i) : PastTie n a i := by
  have hpos := denom_pos i
  have hmul := Nat.mul_le_mul_right (denom i) (Nat.succ_le_of_lt hk)
  have htie : (2 * n + 1) * denom i = 2 * (n * denom i) + denom i := by rw [Nat.add_one_mul, Nat.mul_assoc]
  rw [Nat.succ_mul] at hmul
  exact pastTie_of_half_lt (by omega)

/-- Up to n a number is not past the tie over n. -/
theorem not_pastTie_of_le {n k a : Nat} {i : Int} (hk : k ≤ n) (h : numer a i ≤ k * denom i) : ¬ PastTie n a i := by
  intro hpast
  have hpos := denom_pos i
  have hmul := Nat.mul_le_mul_right (denom i) hk
  have htie : (2 * n + 1) * denom i = 2 * (n * denom i) + denom i := by rw [Nat.add_one_mul, Nat.mul_assoc]
  have hhalf := hpast.half_le
  omega

/-- The rounder of R130 lifts a number above n exactly where it is past the tie over n. -/
theorem lt_rne_iff (n m : Nat) (sh : Int) : n < rne m sh ↔ PastTie n m sh := by
  rcases Int.lt_or_le sh 0 with h | h
  · obtain ⟨k, rfl⟩ : ∃ k : Nat, sh = -(k : Int) := ⟨(-sh).toNat, by omega⟩
    have hdiv := Nat.div_add_mod' m (2 ^ k)
    have hrem := Nat.mod_lt m (Nat.two_pow_pos k)
    have hnum : numer m (-(k : Int)) = m := by
      rw [numer, Int.toNat_of_nonpos (by omega : -(k : Int) ≤ 0), Nat.pow_zero, Nat.mul_one]
    have hden : denom (-(k : Int)) = 2 ^ k := by rw [denom, Int.neg_neg, Int.toNat_natCast]
    have htie : (2 * n + 1) * 2 ^ k = 2 * (n * 2 ^ k) + 2 ^ k := by rw [Nat.add_one_mul, Nat.mul_assoc]
    rw [rne_neg, PastTie, hnum, hden, htie]
    rcases Nat.lt_trichotomy n (m / 2 ^ k) with hlt | heq | hgt
    · have hmul := Nat.mul_le_mul_right (2 ^ k) (Nat.succ_le_of_lt hlt)
      rw [Nat.succ_mul] at hmul
      split <;> split <;> omega
    · rw [heq]
      split <;> split <;> omega
    · have hmul := Nat.mul_le_mul_right (2 ^ k) (Nat.succ_le_of_lt hgt)
      rw [Nat.succ_mul] at hmul
      split <;> split <;> omega
  · have hden : denom sh = 1 := by rw [denom, Int.toNat_of_nonpos (by omega : -sh ≤ 0), Nat.pow_zero]
    rw [rne_of_nonneg h, PastTie, hden, ← numer]
    split <;> omega

/-- The exponent of the leading bit of a × 2^e (R130). -/
def leadExp (a : Nat) (e : Int) : Int := bitlen a - 1 + e

theorem leadExp_sub (a : Nat) (e q : Int) : leadExp a (e - q) = leadExp a e - q := by
  simp only [leadExp]
  omega

theorem leadExp_eq_log2_add {a : Nat} (ha : a ≠ 0) (e : Int) : leadExp a e = a.log2 + e := by
  rw [leadExp, bitlen, if_neg ha]
  omega

/-- A number whose leading bit stands below 2^n is below 2^n. -/
theorem numer_lt_of_leadExp_lt {a : Nat} (ha : a ≠ 0) {i : Int} {n : Nat} (h : leadExp a i < n) :
    numer a i < 2 ^ n * denom i := by
  rw [leadExp_eq_log2_add ha] at h
  calc numer a i < 2 ^ (a.log2 + 1) * 2 ^ i.toNat := Nat.mul_lt_mul_of_pos_right Nat.lt_log2_self (Nat.two_pow_pos _)
    _ = 2 ^ (a.log2 + 1 + i.toNat) := (Nat.pow_add ..).symm
    _ ≤ 2 ^ (n + (-i).toNat) := Nat.pow_le_pow_right Nat.two_pos (by omega)
    _ = 2 ^ n * denom i := Nat.pow_add ..

/-- A number whose leading bit stands at 2^n or above is 2^n or more. -/
theorem le_numer_of_le_leadExp {a : Nat} (ha : a ≠ 0) {i : Int} {n : Nat} (h : n ≤ leadExp a i) :
    2 ^ n * denom i ≤ numer a i := by
  rw [leadExp_eq_log2_add ha] at h
  calc 2 ^ n * denom i = 2 ^ (n + (-i).toNat) := (Nat.pow_add ..).symm
    _ ≤ 2 ^ (a.log2 + i.toNat) := Nat.pow_le_pow_right Nat.two_pos (by omega)
    _ = 2 ^ a.log2 * 2 ^ i.toNat := Nat.pow_add ..
    _ ≤ numer a i := Nat.mul_le_mul_right _ (Nat.log2_self_le ha)

/-- How many binades above the lowest a × 2^e stands; a subnormal stands in the lowest. -/
def Fmt.binade (f : Fmt) (a : Nat) (e : Int) : Nat := (max (leadExp a e) f.emin - f.emin).toNat

/-- The significand of a × 2^e at the last place that its binade keeps, a carry not yet moved up. -/
def Fmt.signif (f : Fmt) (a : Nat) (e : Int) : Nat := rne a (e - (f.emin + f.binade a e - f.mBits))

theorem Fmt.emin_add_binade (f : Fmt) (a : Nat) (e : Int) : f.emin + f.binade a e = max (leadExp a e) f.emin := by
  rw [binade]
  omega

theorem Fmt.signif_le (f : Fmt) {a : Nat} (ha : a ≠ 0) (e : Int) : f.signif a e ≤ 2 ^ (f.mBits + 1) := by
  have hmax := f.emin_add_binade a e
  have hlead : leadExp a (e - (f.emin + f.binade a e - f.mBits)) < (f.mBits + 1 : Nat) := by
    rw [leadExp_sub]
    omega
  have hlt := numer_lt_of_leadExp_lt ha hlead
  exact Nat.not_lt.mp (mt (lt_rne_iff _ _ _).mp (not_pastTie_of_le (Nat.le_refl _) (Nat.le_of_lt hlt)))

/-- Above the lowest binade the hidden bit is set. -/
theorem Fmt.le_signif {f : Fmt} {a : Nat} (ha : a ≠ 0) {e : Int} (h : 0 < f.binade a e) :
    2 ^ f.mBits ≤ f.signif a e := by
  have hmax := f.emin_add_binade a e
  have hlead : f.mBits ≤ leadExp a (e - (f.emin + f.binade a e - f.mBits)) := by
    rw [leadExp_sub]
    omega
  have hpos := Nat.two_pow_pos f.mBits
  have hlt : 2 ^ f.mBits - 1 < f.signif a e :=
    (lt_rne_iff _ _ _).mpr (pastTie_of_lt (by omega) (le_numer_of_le_leadExp ha hlead))
  omega

/-- The magnitude pattern of the rounding: patterns of magnitudes go up by one at each place, from binade to binade. -/
def Fmt.roundMag (f : Fmt) (a : Nat) (e : Int) : Nat := f.binade a e * 2 ^ f.mBits + f.signif a e

/-- R130 moves a carry up into the next binade. -/
def Fmt.moveCarry (f : Fmt) (m : Nat) (qe : Int) : Nat × Int := if m = 2 ^ (f.mBits + 1) then (m / 2, qe + 1) else (m, qe)

/-- R130 packs a significand and the exponent of its last place. -/
def Fmt.packMag (f : Fmt) (p : Nat × Int) : Nat :=
  if p.1 < 2 ^ f.mBits then p.1 else (p.2 + f.mBits + f.bias).toNat * 2 ^ f.mBits + (p.1 - 2 ^ f.mBits)

/-- Packing n binades up gives n · 2^mBits more than the significand, with a carry or without, and in the lowest binade with
the hidden bit or without. -/
theorem Fmt.packMag_moveCarry {f : Fmt} (hbias : f.bias = 1 - f.emin) {m n : Nat} (hge : 0 < n → 2 ^ f.mBits ≤ m) :
    f.packMag (f.moveCarry m (f.emin + n - f.mBits)) = n * 2 ^ f.mBits + m := by
  rw [moveCarry]
  split
  case isTrue hcarry =>
    have hhalf : m / 2 = 2 ^ f.mBits := by omega
    have hexp : (f.emin + n - f.mBits + 1 + f.mBits + f.bias).toNat = n + 2 := by omega
    simp only [packMag, hhalf, hexp, Nat.lt_irrefl, if_false, Nat.sub_self]
    rw [hcarry, Nat.pow_succ', Nat.add_mul, Nat.add_zero]
  case isFalse =>
    have hexp : (f.emin + n - f.mBits + f.mBits + f.bias).toNat = n + 1 := by omega
    simp only [packMag, hexp, Nat.add_one_mul]
    split
    case isTrue hsub =>
      have hn : n = 0 := Nat.eq_zero_of_not_pos fun hpos => absurd (hge hpos) (Nat.not_le.mpr hsub)
      rw [hn, Nat.zero_mul, Nat.zero_add]
    case isFalse => omega

/-- The rounder makes that pattern, and overflows where it lies above that of the largest finite magnitude (R130). -/
theorem Fmt.round_eq {f : Fmt} (hbias : f.bias = 1 - f.emin) {a : Nat} (ha : a ≠ 0) (pol s : Bool) (e : Int) :
    f.round pol s a e =
      if f.maxFinite < f.roundMag a e then (f.overflow pol s, true) else (f.withSign s (f.roundMag a e), false) := by
  have hmag : f.packMag (f.moveCarry (f.signif a e) (max (leadExp a e) f.emin - f.mBits)) = f.roundMag a e := by
    rw [← f.emin_add_binade]
    exact packMag_moveCarry hbias (le_signif ha)
  rw [← hmag, signif, f.emin_add_binade]
  rfl

/-- Where a format stops: its largest finite magnitude is F in units of the last place of binade K, 2^(t + 1), with the
hidden bit set, and its exponents are biased to begin at 1 (R125). -/
structure Fmt.Stops (f : Fmt) (K F t : Nat) : Prop where
  bias : f.bias = 1 - f.emin
  maxFinite : f.maxFinite = K * 2 ^ f.mBits + F
  hidden : 2 ^ f.mBits ≤ F
  below : F < 2 ^ (f.mBits + 1)
  last : f.emin + K - f.mBits = t + 1

/-- The pattern passes that of the largest finite magnitude exactly where the number passes the tie over that magnitude. -/
theorem Fmt.Stops.maxFinite_lt_roundMag_iff {f : Fmt} {K F t : Nat} (h : f.Stops K F t) {a : Nat} (ha : a ≠ 0) (e : Int) :
    f.maxFinite < f.roundMag a e ↔ PastTie F a (e - (t + 1)) := by
  obtain ⟨-, hmax, hhidden, hbelow, hlast⟩ := h
  have hbin := f.emin_add_binade a e
  have hlead := leadExp_sub a e (t + 1)
  have hsig := f.signif_le ha e
  have hdouble : 2 ^ (f.mBits + 1) = 2 * 2 ^ f.mBits := Nat.pow_succ'
  rw [hmax, roundMag]
  rcases Nat.lt_trichotomy (f.binade a e) K with hlt | heq | hgt
  · have hmul := Nat.mul_le_mul_right (2 ^ f.mBits) (Nat.succ_le_of_lt hlt)
    have hunder := numer_lt_of_leadExp_lt (n := f.mBits) (i := e - (t + 1)) ha (by omega)
    rw [Nat.succ_mul] at hmul
    exact iff_of_false (by omega) (not_pastTie_of_le hhidden (Nat.le_of_lt hunder))
  · rw [← lt_rne_iff, ← hlast, ← heq, ← signif]
    omega
  · have hmul := Nat.mul_le_mul_right (2 ^ f.mBits) (Nat.succ_le_of_lt hgt)
    have hge := f.le_signif ha (e := e) (by omega)
    have hover := le_numer_of_le_leadExp (n := f.mBits + 1) (i := e - (t + 1)) ha (by omega)
    rw [Nat.succ_mul] at hmul
    exact iff_of_true (by omega) (pastTie_of_lt hbelow hover)

/-- Two comparisons of multiples of powers of two are one where the exponents differ by as much on both sides. -/
theorem two_pow_scale (b c : Nat) {p q r s : Nat} (h : p + s = r + q) :
    (b * 2 ^ p ≤ c * 2 ^ q ↔ b * 2 ^ r ≤ c * 2 ^ s) ∧ (b * 2 ^ p < c * 2 ^ q ↔ b * 2 ^ r < c * 2 ^ s) := by
  have hcross : b * 2 ^ p * 2 ^ s = b * 2 ^ r * 2 ^ q := by
    rw [Nat.mul_assoc, Nat.mul_assoc, ← Nat.pow_add, ← Nat.pow_add, h]
  have hswap : c * 2 ^ q * 2 ^ s = c * 2 ^ s * 2 ^ q := Nat.mul_right_comm ..
  rw [← Nat.mul_le_mul_right_iff (Nat.two_pow_pos s), ← Nat.mul_lt_mul_right (Nat.two_pow_pos s), hcross, hswap,
    Nat.mul_le_mul_right_iff (Nat.two_pow_pos q), Nat.mul_lt_mul_right (Nat.two_pow_pos q)]
  exact ⟨Iff.rfl, Iff.rfl⟩

/-- A format's threshold: the middle between its largest finite magnitude and the next one of unbounded exponent. -/
theorem pastTie_stop_iff (F t a : Nat) (e : Int) :
    PastTie F a (e - (t + 1)) ↔
      if F % 2 = 1 then (2 * F + 1) * 2 ^ t * 2 ^ (-e).toNat ≤ a * 2 ^ e.toNat
      else (2 * F + 1) * 2 ^ t * 2 ^ (-e).toNat < a * 2 ^ e.toNat := by
  have hexp : (-(e - (t + 1))).toNat + e.toNat = t + (-e).toNat + ((e - (t + 1)).toNat + 1) := by omega
  have htwice : 2 * (a * 2 ^ (e - (t + 1)).toNat) = a * 2 ^ ((e - (t + 1)).toNat + 1) := by
    rw [Nat.pow_succ', Nat.mul_left_comm]
  obtain ⟨hle, hlt⟩ := two_pow_scale (2 * F + 1) a hexp
  rw [PastTie, numer, denom, htwice, hle, hlt, Nat.pow_add, Nat.mul_assoc]

theorem Fmt.withSign_eq_add (f : Fmt) (s : Bool) (mag : Nat) :
    f.withSign s mag = (if s then f.signBit else 0) + mag := by
  cases s
  · exact (Nat.zero_add mag).symm
  · rfl

/-- The rounding of a nonzero y past the stop: the result of the policy, counted (R132). -/
theorem Fmt.Stops.roundInt_of_past {f : Fmt} {K F t : Nat} (h : f.Stops K F t) {x : Int} (hx : x ≠ 0) {e : Int}
    (hpast : PastTie F x.natAbs (e - (t + 1))) (pol : Bool) :
    f.roundInt pol x e =
      ((if x < 0 then f.signBit else 0) + (if pol then f.infPat else f.maxFinite), true) := by
  have ha := Int.natAbs_ne_zero.mpr hx
  rw [Fmt.roundInt, if_neg hx, Fmt.round_eq h.bias ha, if_pos ((h.maxFinite_lt_roundMag_iff ha e).mpr hpast),
    Fmt.overflow, Fmt.withSign_eq_add]
  simp only [decide_eq_true_eq]

/-- The rounding of any other nonzero y: a finite pattern of its sign, under either policy alike. -/
theorem Fmt.Stops.roundInt_of_not_past {f : Fmt} {K F t : Nat} (h : f.Stops K F t) {x : Int} (hx : x ≠ 0) {e : Int}
    (hin : ¬ PastTie F x.natAbs (e - (t + 1))) :
    ∃ n, n ≤ f.maxFinite ∧ ∀ pol, f.roundInt pol x e = ((if x < 0 then f.signBit else 0) + n, false) := by
  have ha := Int.natAbs_ne_zero.mpr hx
  have hle := mt (h.maxFinite_lt_roundMag_iff ha e).mp hin
  refine ⟨f.roundMag x.natAbs e, Nat.not_lt.mp hle, fun pol => ?_⟩
  rw [Fmt.roundInt, if_neg hx, Fmt.round_eq h.bias ha, if_neg hle, Fmt.withSign_eq_add]
  simp only [decide_eq_true_eq]

/-- The thresholds of R130 by format code. -/
def overflowThreshold (code : Nat) : Nat :=
  if code = 0 then 2 ^ 1024 - 2 ^ 970 else if code = 1 then 2 ^ 128 - 2 ^ 103 else if code = 2 then 2 ^ 128 - 2 ^ 119
  else if code = 3 then 65520 else if code = 4 then 464 else 61440

/-- The patterns of the largest finite magnitude and of the overflow under policy 1, by format code (R125, R132). -/
def overflowPatterns (code : Nat) : Nat × Nat :=
  if code = 0 then (0x7FEFFFFFFFFFFFFF, 0x7FF0000000000000) else if code = 1 then (0x7F7FFFFF, 0x7F800000)
  else if code = 2 then (0x7F7F, 0x7F80) else if code = 3 then (0x7BFF, 0x7C00) else if code = 4 then (0x7E, 0x7F)
  else (0x7B, 0x7C)

/-- y = x × 2^e rounds to overflow by R130's table: at the threshold or beyond it, for E4M3 beyond it only. -/
def AtOverflow (code : Nat) (x e : Int) : Prop :=
  if code = 4 then overflowThreshold code * 2 ^ (-e).toNat < x.natAbs * 2 ^ e.toNat
  else overflowThreshold code * 2 ^ (-e).toNat ≤ x.natAbs * 2 ^ e.toNat

/-- Where each format stops, and that its threshold of R130 is the tie there; E4M3 alone has an even significand there. -/
theorem fmtOf_stops {code : Nat} (hcode : code < 6) :
    ∃ K F t, (fmtOf code).Stops K F t ∧ overflowThreshold code = (2 * F + 1) * 2 ^ t ∧ (F % 2 = 1 ↔ code ≠ 4) := by
  match code, hcode with
  | 0, _ => exact ⟨2045, 2 ^ 53 - 1, 970, ⟨rfl, by decide, by decide, by decide, by decide⟩, by decide +kernel, by decide⟩
  | 1, _ => exact ⟨253, 2 ^ 24 - 1, 103, ⟨rfl, by decide, by decide, by decide, by decide⟩, by decide, by decide⟩
  | 2, _ => exact ⟨253, 2 ^ 8 - 1, 119, ⟨rfl, by decide, by decide, by decide, by decide⟩, by decide, by decide⟩
  | 3, _ => exact ⟨29, 2 ^ 11 - 1, 4, ⟨rfl, by decide, by decide, by decide, by decide⟩, by decide, by decide⟩
  | 4, _ => exact ⟨14, 14, 4, ⟨rfl, by decide, by decide, by decide, by decide⟩, by decide, by decide⟩
  | 5, _ => exact ⟨29, 2 ^ 3 - 1, 12, ⟨rfl, by decide, by decide, by decide, by decide⟩, by decide, by decide⟩

theorem fmtOf_overflowPatterns {code : Nat} (hcode : code < 6) :
    ((fmtOf code).maxFinite, (fmtOf code).infPat) = overflowPatterns code := by
  match code, hcode with
  | 0, _ | 1, _ | 2, _ | 3, _ | 4, _ | 5, _ => decide

/-- A format's threshold of R130 is the tie over its largest finite magnitude. -/
theorem exists_stops_atOverflow_iff {code : Nat} (hcode : code < 6) :
    ∃ K F t, (fmtOf code).Stops K F t ∧
      ∀ x e : Int, AtOverflow code x e ↔ PastTie F x.natAbs (e - (t + 1)) := by
  obtain ⟨K, F, t, hstops, hth, hodd⟩ := fmtOf_stops hcode
  refine ⟨K, F, t, hstops, fun x e => ?_⟩
  rw [pastTie_stop_iff, AtOverflow, hth]
  by_cases h4 : code = 4
  · rw [if_pos h4, if_neg fun h1 => hodd.mp h1 h4]
  · rw [if_neg h4, if_pos (hodd.mpr h4)]

/-- The rule of R130 and R132: a nonzero y that is at overflow rounds to the result of its policy with the sign of y, counted,
and any other to a finite pattern with the sign of y, uncounted and under either policy alike. -/
theorem roundInt_overflows_exactly_at_threshold :
    (∀ (code : Nat) (pol : Bool) (x e : Int), code < 6 → x ≠ 0 → AtOverflow code x e →
      (fmtOf code).roundInt pol x e =
        ((if x < 0 then 2 ^ (8 * (fmtOf code).bytes - 1) else 0) +
          (if pol then (overflowPatterns code).2 else (overflowPatterns code).1), true)) ∧
    (∀ (code : Nat) (x e : Int), code < 6 → x ≠ 0 → ¬ AtOverflow code x e →
      ∃ n, n ≤ (overflowPatterns code).1 ∧ ∀ pol, (fmtOf code).roundInt pol x e =
        ((if x < 0 then 2 ^ (8 * (fmtOf code).bytes - 1) else 0) + n, false)) := by
  constructor
  · intro code pol x e hcode hx hat
    obtain ⟨K, F, t, hstops, hiff⟩ := exists_stops_atOverflow_iff hcode
    rw [← fmtOf_overflowPatterns hcode]
    exact hstops.roundInt_of_past hx ((hiff x e).mp hat) pol
  · intro code x e hcode hx hat
    obtain ⟨K, F, t, hstops, hiff⟩ := exists_stops_atOverflow_iff hcode
    rw [← fmtOf_overflowPatterns hcode]
    exact hstops.roundInt_of_not_past hx (mt (hiff x e).mpr hat)

end Sys2Proof.Machine
end

section
open Sys2Proof.Machine

/-- Refutes O55 as it is written: in `if code = 4 then … else … → …` the last `→` belongs to the else branch alone, so for E4M3
the first clause claims that every nonzero y lies beyond 464, and y = 1 does not. The rule of R130 and R132 itself holds of
the model: `roundInt_overflows_exactly_at_threshold` states it with the whole comparison as the premise. -/
theorem not_overflowResult : ¬ Obligations.OverflowResult := by
  unfold Obligations.OverflowResult
  rintro ⟨hover, -⟩
  have hbeyond : 464 * 2 ^ (-0 : Int).toNat < (1 : Int).natAbs * 2 ^ (0 : Int).toNat :=
    hover 4 false 1 0 (by decide) (by decide)
  exact absurd hbeyond (by decide)

end

section
/-! What an effect leaves as it was: the parts it does not write, and parameters beside those of the notices. -/
namespace Sys2Proof.Machine

variable {s t : State} {F : List Part}

theorem Within.refl (F : List Part) : Within F F := fun _ => id

/-- A part that is not among those written is as it was. -/
theorem State.Keeps.same {p : Part} (h : s.Keeps F t) (hp : p ∉ F) : p.same s t := (h.frame p).resolve_left hp

/-- Where none of memory's three parts is written, memory is as it was. -/
theorem State.Keeps.mem_eq (h : s.Keeps F t) (hhbm : .hbm ∉ F) (ht0 : .t0 ∉ F) (hmem : .mem ∉ F) : t.mem = s.mem := by
  have hrest : ({ t.mem with hbm := [], t0 := [] } : Mem) = { s.mem with hbm := [], t0 := [] } := h.same hmem
  calc t.mem = { ({ t.mem with hbm := [], t0 := [] } : Mem) with hbm := t.mem.hbm, t0 := t.mem.t0 } := Eq.refl _
    _ = { ({ s.mem with hbm := [], t0 := [] } : Mem) with hbm := s.mem.hbm, t0 := s.mem.t0 } := by
      rw [hrest, show t.mem.hbm = s.mem.hbm from h.same hhbm, show t.mem.t0 = s.mem.t0 from h.same ht0]

/-- Where the dictionary is not written, every parameter reads as before. -/
theorem State.Keeps.par_eq (h : s.Keeps F t) (hF : .dict ∉ F) (k : Nat) : t.par k = s.par k :=
  congrArg (Tab.getD (dictDefault k) k) (h.same hF : t.dict = s.dict)

theorem State.event_par (s : State) (port : Nat) (a : EventArgs) (k : Nat) : (s.event port a).par k = s.par k :=
  (State.event_keeps (F := [.out, .ports]) (.refl _) .rfl).par_eq (by decide) k

theorem State.reply_par (s : State) (r : HeldReq) (d : Option (List Byte)) (k : Nat) : (s.reply r d).par k = s.par k :=
  (State.reply_keeps (F := [.out, .ports]) (.refl _) .rfl).par_eq (by decide) k

theorem State.notice_ports (s : State) (event : Nat) (args : List (Nat × List Byte)) : (s.notice event args).ports = s.ports :=
  (State.notice_keeps (F := [.dict, .glody]) (.refl _) .rfl).same (p := .ports) (by decide)

/-- A datagram put into the transmit queue writes no parameter but the count of those dropped (R423). -/
theorem State.enqueue_par_other {k : Nat} (h : k ≠ P.glodyNoticeDrop) (s : State) (d : Datagram) :
    (s.enqueue d).par k = s.par k := by
  unfold State.enqueue
  dsimp only
  split
  · rfl
  · split
    · rfl
    · exact State.par_setPar_other _ h _

theorem State.sendNotice_par_other {k : Nat} (h : k ≠ P.glodyNoticeDrop) (s : State) (prio op : Nat) (sign : Bool) (seq : Nat)
    (payload : List Byte) : (s.sendNotice prio op sign seq payload).par k = s.par k := by
  unfold State.sendNotice
  extract_lets d s1
  have h1 : s1.par k = s.par k := State.enqueue_par_other h s d
  split
  · exact h1
  · exact h1

/-- An event notice writes no parameter but the notice sequence and the count of datagrams dropped (R423, R424). -/
theorem State.notice_par_other {k : Nat} (hseq : k ≠ P.glodyNoticeSeq) (hdrop : k ≠ P.glodyNoticeDrop) (s : State) (event : Nat)
    (args : List (Nat × List Byte)) : (s.notice event args).par k = s.par k :=
  (State.sendNotice_par_other hdrop _ _ _ _ _ _).trans (State.par_setPar_other s hseq _)

/-- A counter of 64 bits counts modulo 2^64. -/
theorem State.count_par_same {k : Nat} (hk : widthOf k = 64) (s : State) (n : Nat) :
    (s.count k n).par k = (s.par k + n) % 2 ^ 64 := by
  rw [State.count, State.par_setPar_same, hk, Nat.mod_mod]

end Sys2Proof.Machine
end

section
/-! The way of a CXL.mem request from its port to its home hub where nothing stops it (R30, R41, R56, R245, R250, R297). -/
namespace Sys2Proof.Machine

variable {s : State} {r : HeldReq} {ph : Phys}

/-- A request with a credit of its channel whose host address decodes to a DPA that exists arrives at its port. -/
theorem State.cxlMem_of_decodeHdm {port addr dpa : Nat} {mk : Nat → HeldReq} (hup : s.ldUp port = true)
    (hcredit : ((s.backWith (port / 16) ph).link (port / 16)).noCredit (mk 0) = false)
    (hdec : (s.backWith (port / 16) ph).decodeHdm port addr = some dpa) (hdpa : dpa < dpaEnd) :
    s.cxlMem port addr mk ph = .next ((s.backWith (port / 16) ph).arrive (mk (dpa / 64 * 64)) ph) := by
  simp [State.cxlMem, hup, hcredit, hdec, Nat.not_le.mpr hdpa]

/-- In SERVICE, where its IDE policy takes it, a port does not answer a request itself. -/
theorem State.portRefuses_eq_none (hide : s.ideRefuses r = false) (hserve : s.serving = true) : s.portRefuses r = none := by
  simp [State.portRefuses, hide, hserve]

/-- A request passes its tollgate where none waits there before it and its master has a token. -/
theorem State.arrive_of_gateOk (hup : s.ldUp r.port = true) (hport : s.portRefuses r = none)
    (hhold : (Tab.get r.port s.reg.masters).hold = []) (hgate : s.gateOk r = true) : s.arrive r ph = s.gatePass r ph := by
  simp [State.arrive, hup, hport, hhold, hgate]

/-- A request that passes its checks goes to its hub. -/
theorem State.letIn_of_checks {w : Nat} {v : View} (h : (s.checks r).toOption = some (w, v)) :
    s.letIn r ph = (s.accepted r w).atHub r v w ph := by
  rw [State.letIn]
  cases hc : s.checks r with
  | error c => rw [hc] at h; cases h
  | ok p => rw [hc] at h; cases h; rfl

/-- An arbiter's grant changes no HID (R63). -/
theorem State.hubGrant_hidOf (s : State) (q port p : Nat) : (s.hubGrant q port).hidOf p = s.hidOf p :=
  (State.hubGrant_keeps (F := [.arb, .power]) (.refl _) .rfl).par_eq (by decide) _

/-- A granted write of a COHERENT line that its sender does not hold in E is a stray writeback (R212). -/
theorem State.atHub_of_stray {v : View} {w n q : Nat} (hq : (s.home r.dpa).getD 0 = q) (hwrite : r.write = true)
    (hready : s.hubReady r v w = true) (hcoh : (s.hubGrant q (r.port / 32)).cohAt r.dpa = some n)
    (hE : (s.hubGrant q (r.port / 32)).holdsE (r.dpa / 64) ((s.hubGrant q (r.port / 32)).hidOf r.port) = false) :
    s.atHub r v w ph = (s.hubGrant q (r.port / 32)).stray r := by
  subst hq
  rw [State.hubGrant_hidOf] at hE
  simp [State.atHub, hready, hcoh, hwrite, hE]

end Sys2Proof.Machine
end

section
/-! When a completion goes out at once, and what leaves that so (R250, R252, R267). -/
namespace Sys2Proof.Machine

/-- Link `l` is UP and still the one a request accepted at `since` came on, its partner grants NDR credits without limit, and no
completion waits: one for that request goes out at once. -/
structure LinkRec.CompletesNow (since : Nat) (l : LinkRec) : Prop where
  up : l.st = lkUp
  sameLink : l.upAt ≤ since
  credit : Tab.get 0 l.adv = 0
  noneWaits : ∀ m ∈ l.egress, m.1 ≠ 0

variable {s : State} {since : Nat}

theorem State.link_modLink_same (s : State) (k : Nat) (f : LinkRec → LinkRec) : (s.modLink k f).link k = f (s.link k) :=
  Tab.get_mod_same _ _ _

/-- What sending a message does to its link: the credit goes (R250). -/
theorem State.link_transmit_same (s : State) (k ch : Nat) (o : Output) :
    (s.transmit k ch o).link k =
      if (s.link k).back = 0 ∨ Tab.get ch (s.link k).adv = 0 then s.link k
      else { s.link k with tx := Tab.mod ch (· - 1) (s.link k).tx, sent := Tab.mod ch (· + 1) (s.link k).sent } :=
  State.link_modLink_same s k _

/-- A message of another channel, sent or waiting, is not in a completion's way. -/
theorem State.send_completesNow {k ch : Nat} (hch : ch ≠ 0) (o : Output) (h : (s.link k).CompletesNow since) :
    ((s.send k ch o).link k).CompletesNow since := by
  obtain ⟨hup, hsame, hcredit, hnone⟩ := h
  unfold State.send
  dsimp only
  split
  · rw [State.link_transmit_same]
    split
    · exact ⟨hup, hsame, hcredit, hnone⟩
    · exact ⟨hup, hsame, hcredit, hnone⟩
  · rw [State.link_modLink_same]
    refine ⟨hup, hsame, hcredit, fun m hm => ?_⟩
    rcases List.mem_append.mp hm with hm | hm
    · exact hnone m hm
    · rw [List.mem_singleton.mp hm]
      exact hch

/-- A logical device's interrupt goes on channel 3. -/
theorem State.msixLd_completesNow (port v : Nat) (h : (s.link (port / 16)).CompletesNow since) :
    ((s.msixLd port v).link (port / 16)).CompletesNow since := by
  unfold State.msixLd
  dsimp only
  split
  · exact State.send_completesNow (by decide) _ h
  · exact h

/-- A record and its interrupt are not in a completion's way. -/
theorem State.addEvent_completesNow (port log : Nat) (dram : Bool) (kind trans dpa place : Nat) (comp : List Byte)
    (h : (s.link (port / 16)).CompletesNow since) :
    ((s.addEvent port log dram kind trans dpa place comp).link (port / 16)).CompletesNow since := by
  unfold State.addEvent
  dsimp only
  split
  · exact h
  · split
    · exact State.msixLd_completesNow _ _ h
    · exact h

/-- A write completes at its port at once where its link lets it. -/
theorem State.reply_memDone {r : HeldReq} (d : Option (List Byte)) (hquiet : r.quiet = false) (hwrite : r.write = true)
    (h : (s.link (r.port / 16)).CompletesNow r.since) :
    ∃ load, (s.reply r d).out.head? = some (.memDone r.port r.dpa load) := by
  obtain ⟨hup, hsame, hcredit, hnone⟩ := h
  have hlink : s.linkUp (r.port / 16) = true := beq_iff_eq.mpr hup
  have hwaits : (s.link (r.port / 16)).egress.any (fun m => m.1 == 0) = false := by simpa using hnone
  refine ⟨s.devLoad r.port r.dpa r.write r.gated, ?_⟩
  simp [State.reply, hquiet, hwrite, hlink, Nat.not_lt.mpr hsame, State.send, LinkRec.mayTx, hcredit, hwaits, State.transmit]

end Sys2Proof.Machine
end

section
/-! A stray writeback (R212): what it leaves, what it counts, and its completion. -/
namespace Sys2Proof.Machine

theorem State.stray_keeps_self (s : State) (r : HeldReq) : s.Keeps [.dict, .out, .ports, .glody] (s.stray r) :=
  State.stray_keeps (.refl _) .rfl

theorem State.stray_mem (s : State) (r : HeldReq) : (s.stray r).mem = s.mem :=
  (s.stray_keeps_self r).mem_eq (by decide) (by decide) (by decide)

theorem State.stray_shared (s : State) (r : HeldReq) : (s.stray r).shared = s.shared :=
  (s.stray_keeps_self r).same (p := .shared) (by decide)

/-- share_stray_wb counts one (R218). -/
theorem State.stray_shareStrayWb (s : State) (r : HeldReq) :
    (s.stray r).par P.shareStrayWb = (s.par P.shareStrayWb + 1) % 2 ^ 64 := by
  rw [State.stray, State.reply_par, State.notice_par_other (by decide) (by decide), State.event_par,
    State.count_par_same (by decide +kernel)]

/-- Neither its record nor its notice is in its completion's way. -/
theorem State.stray_memDone {s : State} {r : HeldReq} (hquiet : r.quiet = false) (hwrite : r.write = true)
    (h : (s.link (r.port / 16)).CompletesNow r.since) :
    ∃ load, (s.stray r).out.head? = some (.memDone r.port r.dpa load) := by
  refine State.reply_memDone none hquiet hwrite ?_
  rw [State.link, State.notice_ports]
  exact State.addEvent_completesNow (s := s.count P.shareStrayWb 1) _ _ _ _ _ _ _ _ h

end Sys2Proof.Machine
end

section
open Sys2Proof.Machine

/-- Settles O59: the write goes from its port to its home hub without a stop, and what the hub does with a stray writeback
writes neither memory nor the directory. It rests on the model's choices of log 17 and 18 (the decoding of the host address) and 86
(the hub's grant); its completion goes out at once where the egress queue is empty and adv = 0, credits without limit by log 110. -/
theorem strayWriteback : Obligations.StrayWriteback := by
  unfold Obligations.StrayWriteback
  intro port address dpa data mask mark keep w v n s r s0 s1 s2 s3 hup hcredit hup0 hdec hdpa hide hserve hhold hgate hchecks
    hready hcoh hE
  have hexec : exec (.cxlMemWrite port address data mask mark keep) s = .next ((s3.stray r).retryHub noPhys) :=
    calc exec (.cxlMemWrite port address data mask mark keep) s
      _ = s.cxlMem port address (s.writeReq port data mask mark.poison mark.parity keep) noPhys := rfl
      _ = .next (s0.arrive r noPhys) := State.cxlMem_of_decodeHdm hup hcredit hdec hdpa
      _ = .next (s0.gatePass r noPhys) := by
        rw [State.arrive_of_gateOk hup0 (State.portRefuses_eq_none hide hserve) hhold hgate]
      _ = .next ((s1.letIn r noPhys).retryHub noPhys) := rfl
      _ = .next ((s3.stray r).retryHub noPhys) := by
        rw [State.letIn_of_checks hchecks, State.atHub_of_stray rfl rfl hready hcoh hE]
  refine ⟨s3.stray r, hexec, rfl, s3.stray_mem r, congrArg Shared.dir (s3.stray_shared r), s3.stray_shareStrayWb r, ?_⟩
  intro hlink hsame hegress hadv
  have hnone : ∀ m ∈ (s3.link (port / 16)).egress, m.1 ≠ 0 := by simp [hegress]
  exact State.stray_memDone rfl rfl ⟨beq_iff_eq.mp hlink, hsame, hadv, hnone⟩

end

section
/-! A field of a value after a field is written (R9), and the first code of a list of checks. -/
namespace Sys2Proof.Machine

theorem fld_lt (v hi lo : Nat) : fld v hi lo < 2 ^ (hi + 1 - lo) := Nat.mod_lt _ (Nat.two_pow_pos _)

theorem fld_eq_div (v : Nat) {hi lo : Nat} (h : lo ≤ hi + 1) : fld v hi lo = v % 2 ^ (hi + 1) / 2 ^ lo := by
  rw [fld, Nat.shiftRight_eq_div_pow, ← Nat.mod_mul_right_div_self, Nat.mul_comm, Nat.pow_sub_mul_pow 2 h]

/-- A field depends only on the bits up to its top. -/
theorem fld_mod_two_pow (v : Nat) {hi lo n : Nat} (hlo : lo ≤ hi + 1) (hn : hi + 1 ≤ n) : fld (v % 2 ^ n) hi lo = fld v hi lo := by
  rw [fld_eq_div _ hlo, fld_eq_div _ hlo, Nat.mod_mod_of_dvd v (Nat.pow_dvd_pow 2 hn)]

/-- What lies above the field, the new field, and what lies below it, side by side. -/
theorem setFld_eq (v x : Nat) {hi lo : Nat} (h : lo ≤ hi + 1) :
    setFld v hi lo x = 2 ^ (hi + 1) * (v / 2 ^ (hi + 1)) + (x % 2 ^ (hi + 1 - lo) * 2 ^ lo + v % 2 ^ lo) := by
  have hfield := fld_mul_add_mod v h
  have hall := Nat.div_add_mod v (2 ^ (hi + 1))
  unfold setFld
  omega

theorem fld_setFld_same (v x : Nat) {hi lo : Nat} (h : lo ≤ hi + 1) :
    fld (setFld v hi lo x) hi lo = x % 2 ^ (hi + 1 - lo) := by
  have hpos := Nat.two_pow_pos lo
  have hfit : x % 2 ^ (hi + 1 - lo) * 2 ^ lo + v % 2 ^ lo < 2 ^ (hi + 1) := by
    calc x % 2 ^ (hi + 1 - lo) * 2 ^ lo + v % 2 ^ lo
      _ < x % 2 ^ (hi + 1 - lo) * 2 ^ lo + 2 ^ lo := Nat.add_lt_add_left (Nat.mod_lt v hpos) _
      _ = (x % 2 ^ (hi + 1 - lo) + 1) * 2 ^ lo := (Nat.succ_mul _ _).symm
      _ ≤ 2 ^ (hi + 1 - lo) * 2 ^ lo := Nat.mul_le_mul_right _ (Nat.mod_lt x (Nat.two_pow_pos _))
      _ = 2 ^ (hi + 1) := Nat.pow_sub_mul_pow 2 h
  rw [fld_eq_div _ h, setFld_eq v x h, Nat.mul_add_mod, Nat.mod_eq_of_lt hfit, Nat.mul_comm _ (2 ^ lo),
    Nat.mul_add_div hpos, Nat.mod_div_self, Nat.add_zero]

/-- A field below the one written stays. -/
theorem fld_setFld_below (v x : Nat) {hi lo hi' lo' : Nat} (h : lo ≤ hi + 1) (hlo' : lo' ≤ hi' + 1) (hbelow : hi' < lo) :
    fld (setFld v hi lo x) hi' lo' = fld v hi' lo' := by
  have hmod : setFld v hi lo x % 2 ^ lo = v % 2 ^ lo := by
    rw [setFld_eq v x h, ← Nat.pow_sub_mul_pow 2 h, Nat.mul_right_comm, Nat.mul_add_mod', Nat.add_comm, Nat.add_mul_mod_self_right,
      Nat.mod_mod]
  rw [← fld_mod_two_pow _ hlo' hbelow, hmod, fld_mod_two_pow _ hlo' hbelow]

@[simp] theorem firstCode_nil : firstCode [] = 0 := rfl

@[simp] theorem firstCode_cons (b : Bool) (c : Nat) (l : List (Bool × Nat)) :
    firstCode ((b, c) :: l) = if b then c else firstCode l := by
  cases b <;> rfl

end Sys2Proof.Machine
end

section
/-! A BAR0 write that is accepted, and one that a rule on an object's own state refuses (R11, R275, R414). -/
namespace Sys2Proof.Machine

variable {s : State} {k v : Nat}

theorem State.checkOne_ne_none_of_objRefuse (h : s.objRefuse k v = true) : s.checkOne k v ≠ none := by
  have hwrite : s.checkWrite k v ≠ none := by
    unfold State.checkWrite
    cases cardOf k with
    | none => exact Option.some_ne_none _
    | some c => simp [h]
  unfold State.checkOne
  cases hc : s.checkWrite k v with
  | none => exact absurd hc hwrite
  | some r => exact Option.some_ne_none _

theorem State.objRefuse_eq_false_of_takes (h : s.takes k v = true) : s.objRefuse k v = false := by
  have hnone : s.checkOne k v = none := Option.isNone_iff_eq_none.mp (Bool.and_eq_true_iff.mp h).2
  exact Bool.eq_false_iff.mpr fun hr => State.checkOne_ne_none_of_objRefuse hr hnone

theorem State.barWrite_of_takes (h : s.takes k v = true) (f : State → State) : s.barWrite k v f = f s := by
  simp only [State.takes, Bool.and_eq_true, Option.isNone_iff_eq_none] at h
  obtain ⟨⟨hbar, hdict⟩, hnone⟩ := h
  simp [State.barWrite, hbar, hdict, hnone]

theorem State.barWrite_of_objRefuse (hbar : s.barOn = true) (hdict : s.dictOn = true) (h : s.objRefuse k v = true)
    (f : State → State) : ∃ reason, s.barWrite k v f = s.barRefuse k reason := by
  obtain ⟨reason, hr⟩ := Option.ne_none_iff_exists'.mp (State.checkOne_ne_none_of_objRefuse h)
  exact ⟨reason, by simp [State.barWrite, hbar, hdict, hr]⟩

theorem State.barRefuse_mem (s : State) (k reason : Nat) : (s.barRefuse k reason).mem = s.mem :=
  (State.barRefuse_keeps (F := [.dict]) (.refl _) .rfl).mem_eq (by decide) (by decide) (by decide)

theorem State.barRefuse_queues (s : State) (k reason : Nat) : (s.barRefuse k reason).queues = s.queues :=
  (State.barRefuse_keeps (F := [.dict]) (.refl _) .rfl).same (p := .queues) (by decide)

/-- Outside the training of stacks a refusal writes its count and its reason alone (R275). -/
theorem State.barRefuse_par_other {j : Nat} (hk : isTrnCtl k = false) (hcount : j ≠ P.svcBarRefused)
    (hstatus : j ≠ P.svcBarStatus) (s : State) (reason : Nat) : (s.barRefuse k reason).par j = s.par j := by
  have hbad : s.badStart k reason = s := by simp [State.badStart, hk]
  rw [State.barRefuse, hbad, State.par_setPar_other _ hstatus, State.count, State.par_setPar_other _ hcount]

end Sys2Proof.Machine
end

section
/-! The entries of a queue in the dictionary: where they lie, and what guards q_ctl (R221, R223). -/
namespace Sys2Proof.Machine

variable {q : Nat}

theorem P.qState_range (hq : q < 32768) : 0x8000 * 256 ≤ P.qState q ∧ P.qState q < 0x8400 * 256 := by
  unfold P.qState
  omega

theorem isTrnCtl_qCtl (hq : q < 32768) : isTrnCtl (P.qCtl q) = false := by
  have hlow : ¬ 0xC100 ≤ P.qCtl q / 256 := by unfold P.qCtl; omega
  simp [isTrnCtl, hlow]

/-- The rule on the queue's own state refuses ENABLE exactly where the queue is not DISABLED. -/
theorem State.objRefuse_qCtl_enable (hq : q < 32768) (s : State) : s.objRefuse (P.qCtl q) 1 = (s.qMode q != 0) := by
  have hindex : P.qCtl q / 256 = 0x8000 + q / 32 := by unfold P.qCtl; omega
  have hsub : P.qCtl q % 256 = q % 32 * 8 + 4 := by unfold P.qCtl; omega
  have hqueue : (0x8000 + q / 32 - 0x8000) * 32 + (q % 32 * 8 + 4) / 8 = q := by omega
  have hctl : (q % 32 * 8 + 4) % 8 = 4 := by omega
  unfold State.objRefuse
  simp (disch := omega) only [hindex, hsub, hqueue, hctl, if_neg, if_pos]
  rfl

end Sys2Proof.Machine
end

section
/-! What ENABLE finds, and what it makes of a DISABLED queue (R223). -/
namespace Sys2Proof.Machine

variable {s : State} {q : Nat}

/-- Row GROUP of R223's table. -/
@[reducible] def State.GroupFails (s : State) (q : Nat) : Prop :=
  s.par (P.grpHid (q / 64)) = 0xFFFF ∨
    (s.par (P.grpPath (q / 64)) = 1 ∧ s.par (hidKey (s.qPort q)) ≠ s.par (P.grpHid (q / 64)))

/-- Row RING. -/
@[reducible] def State.RingFails (s : State) (q : Nat) : Prop :=
  s.qSize q = 1 ∨ s.par (P.qSqBase q) % 64 ≠ 0 ∨ s.par (P.qCqBase q) % 64 ≠ 0 ∨
    (fld (s.par (P.qCfg q)) 16 16 = 1 ∧ s.ringOk (s.par (P.qSqBase q)) (64 * s.qSize q) (s.qHid q) rR = false) ∨
    (fld (s.par (P.qCfg q)) 17 17 = 1 ∧ s.ringOk (s.par (P.qCqBase q)) (16 * s.qSize q) (s.qHid q) rW = false)

/-- Row VECTOR: the MSI-X table of an LD function has 128 entries, that of the service function 2,048. -/
@[reducible] def State.VectorFails (s : State) (q : Nat) : Prop :=
  fld (s.par (P.qCfg q)) 43 43 = 1 ∧ (if s.par (P.grpPath (q / 64)) = 1 then 128 else 2048) ≤ fld (s.par (P.qCfg q)) 42 32

/-- Row CONFIG. -/
@[reducible] def State.ConfigFails (s : State) (q : Nat) : Prop :=
  fld (s.par (P.qCfg q)) 47 44 ≠ 0 ∨ fld (s.par (P.qCfg q)) 31 22 ≠ 0

/-- A vector field of 11 bits never lies beyond the service function's table, so only an LD's path is looked at. -/
theorem State.vectorFails_iff (s : State) (q : Nat) : s.VectorFails q ↔
    fld (s.par (P.qCfg q)) 43 43 = 1 ∧ s.par (P.grpPath (q / 64)) = 1 ∧ 128 ≤ fld (s.par (P.qCfg q)) 42 32 := by
  have hwidth : fld (s.par (P.qCfg q)) 42 32 < 2048 := fld_lt _ 42 32
  by_cases hpath : s.par (P.grpPath (q / 64)) = 1
  · simp [State.VectorFails, hpath]
  · simp [State.VectorFails, hpath, hwidth]

/-- The rows are tried from the first to the last, and the first that holds gives the reason (R223). -/
theorem State.qCheck_eq (hport : s.par (P.grpPortLd (q / 64)) < 256) :
    s.qCheck q = if s.GroupFails q then 1 else if s.RingFails q then 2 else if s.VectorFails q then 3
      else if s.ConfigFails q then 4 else 0 := by
  have hrange : ¬ 256 ≤ s.par (P.grpPortLd (q / 64)) := Nat.not_le.mpr hport
  simp only [State.vectorFails_iff]
  simp [State.qCheck, State.GroupFails, State.RingFails, State.ConfigFails, State.qHid, State.qLdPath, State.hidOf, hrange,
    or_assoc, and_assoc]

/-- A reason found leaves the queue DISABLED, with that reason in q_state. -/
theorem State.qEnable_of_reason {r : Nat} (hmode : s.qMode q = 0) (hcheck : s.qCheck q = r) (hne : r ≠ 0) (hr : r < 256) :
    (s.qEnable q).qMode q = 0 ∧ fld ((s.qEnable q).par (P.qState q)) 15 8 = r := by
  have heq : s.qEnable q = s.setQ q 15 8 r := by
    unfold State.qEnable
    split
    · next h => exact absurd (hcheck.symm.trans h) hne
    · rw [hcheck]
  have hstate : (s.qEnable q).par (P.qState q) = setFld (s.par (P.qState q)) 15 8 r % 2 ^ 64 := by
    rw [heq, State.setQ, State.par_setPar_same]
  refine ⟨?_, ?_⟩
  · rw [State.qMode, hstate, fld_mod_two_pow _ (by decide) (by decide), fld_setFld_below _ _ (by decide) (by decide) (by decide)]
    exact hmode
  · rw [hstate, fld_mod_two_pow _ (by decide) (by decide), fld_setFld_same _ _ (by decide)]
    exact Nat.mod_eq_of_lt hr

theorem State.qr_modQ_same (s : State) (q : Nat) (f : QRec → QRec) : (s.modQ q f).qr q = f (s.qr q) := Tab.get_mod_same _ _ _

/-- The count of running queues (R242) is no part of q_state. -/
theorem State.setQMode_par_qState (hne : P.qState q ≠ P.qRunning) (s : State) (mode reason : Nat) :
    (s.setQMode q mode reason).par (P.qState q) =
      setFld (setFld (s.par (P.qState q)) 7 0 mode % 2 ^ 64) 15 8 reason % 2 ^ 64 := by
  have hset : ((s.setQ q 7 0 mode).setQ q 15 8 reason).par (P.qState q) =
      setFld (setFld (s.par (P.qState q)) 7 0 mode % 2 ^ 64) 15 8 reason % 2 ^ 64 := by
    rw [State.setQ, State.par_setPar_same, State.setQ, State.par_setPar_same]
  unfold State.setQMode
  dsimp only
  split
  · rw [State.uncount, State.par_setPar_other _ hne, hset]
  · split
    · rw [State.count, State.par_setPar_other _ hne, hset]
    · exact hset

/-- Where no reason is found the queue runs: sq_head and cq_tail are fields of q_state, which reads 1. -/
theorem State.qEnable_of_pass (hne : P.qState q ≠ P.qRunning) (hcheck : s.qCheck q = 0) :
    (s.qEnable q).par (P.qState q) = 1 ∧ (s.qEnable q).qr q = { (default : QRec) with phase := true } := by
  have heq : s.qEnable q =
      ((s.setPar (P.qState q) 0).setQMode q 1 0).modQ q (fun _ => { (default : QRec) with phase := true }) := by
    simp only [State.qEnable, hcheck]
  refine ⟨?_, ?_⟩
  · rw [heq, State.modQ_par, State.setQMode_par_qState hne, State.par_setPar_same]
    decide
  · rw [heq, State.qr_modQ_same]

end Sys2Proof.Machine
end

section
open Sys2Proof.Machine

/-- Settles O60: the checks of an accepted ENABLE are R223's table from its first row to its last, and what they find decides
what q_state reads; on a queue that is not DISABLED the rule on its own state refuses the write. -/
theorem enableValidation : Obligations.EnableValidation := by
  unfold Obligations.EnableValidation
  refine ⟨?_, ?_⟩
  · intro q s htakes _ hport _
    have hmode : s.qMode q = 0 := by
      have h := State.objRefuse_eq_false_of_takes htakes
      simpa [State.objRefuse_qCtl_enable q.isLt] using h
    have hne : P.qState q ≠ P.qRunning := Nat.ne_of_lt (Nat.lt_of_lt_of_le (P.qState_range q.isLt).2 (by decide))
    have hcheck := State.qCheck_eq hport
    refine ⟨s.qEnable q, congrArg _ (State.barWrite_of_takes htakes _), ?_⟩
    by_cases hgroup : s.GroupFails q
    · rw [if_pos hgroup] at hcheck ⊢
      exact State.qEnable_of_reason hmode hcheck (by decide) (by decide)
    rw [if_neg hgroup] at hcheck ⊢
    by_cases hring : s.RingFails q
    · rw [if_pos hring] at hcheck ⊢
      exact State.qEnable_of_reason hmode hcheck (by decide) (by decide)
    rw [if_neg hring] at hcheck ⊢
    by_cases hvector : s.VectorFails q
    · rw [if_pos hvector] at hcheck ⊢
      exact State.qEnable_of_reason hmode hcheck (by decide) (by decide)
    rw [if_neg hvector] at hcheck ⊢
    by_cases hconfig : s.ConfigFails q
    · rw [if_pos hconfig] at hcheck ⊢
      exact State.qEnable_of_reason hmode hcheck (by decide) (by decide)
    rw [if_neg hconfig] at hcheck ⊢
    obtain ⟨hstate, hrec⟩ := State.qEnable_of_pass hne hcheck
    rw [hrec]
    exact ⟨hstate, rfl, rfl, rfl, rfl⟩
  · intro q s hmode hbar hdict
    have hrefuse : s.objRefuse (P.qCtl q) 1 = true := by
      rw [State.objRefuse_qCtl_enable q.isLt]
      simpa using hmode
    obtain ⟨reason, hwrite⟩ := State.barWrite_of_objRefuse hbar hdict hrefuse (fun s => s.qCtl q 1)
    have hcount : P.qState q ≠ P.svcBarRefused := Nat.ne_of_gt (Nat.lt_of_lt_of_le (by decide) (P.qState_range q.isLt).1)
    have hstatus : P.qState q ≠ P.svcBarStatus := Nat.ne_of_gt (Nat.lt_of_lt_of_le (by decide) (P.qState_range q.isLt).1)
    refine ⟨s.barRefuse (P.qCtl q) reason, congrArg _ hwrite, ?_, ?_, s.barRefuse_mem _ _⟩
    · exact State.barRefuse_par_other (isTrnCtl_qCtl q.isLt) hcount hstatus s reason
    · rw [State.qr, State.barRefuse_queues, State.qr]

end

section
/-! Requests without a session, and the limit on unprotected error replies (R421). -/
namespace Sys2Proof.Machine

variable {s : State} {seq src op : Nat} {tagOk : Bool} {f : State → Nat × List Byte × State}

/-- A READ while glody_read_open is 1 is executed, also during a warm reset, and answered without protection. -/
theorem State.request_openRead (hrec : s.boot.recovery = false) (hon : s.gOn = true)
    (hopen : (s.wakeHub 17).par P.glodyReadOpen = 1) :
    let r := f (s.wakeHub 17)
    s.request ⟨0, seq, tagOk, src⟩ 1 f = r.2.2.enqueue (gReply 2 1 r.1 0 seq src r.2.1) := by
  simp [State.request, hrec, hon, hopen]

/-- Any other request is answered AUTH, and `f` is not executed. -/
theorem State.request_unprotected (hrec : s.boot.recovery = false) (hon : s.gOn = true)
    (hclosed : op = 1 → (s.wakeHub 17).par P.glodyReadOpen ≠ 1) :
    s.request ⟨0, seq, tagOk, src⟩ op f = (s.wakeHub 17).gError op gAuth seq src := by
  have hread : ¬ (op = 1 ∧ (s.wakeHub 17).par P.glodyReadOpen = 1) := fun ⟨hop, hopen⟩ => hclosed hop hopen
  simp [State.request, hrec, hon, hread]

theorem State.request_notRead (hop : op ≠ 1) (hrec : s.boot.recovery = false) (hon : s.gOn = true) :
    s.request ⟨0, seq, tagOk, src⟩ op f = (s.wakeHub 17).gError op gAuth seq src :=
  State.request_unprotected hrec hon fun h => absurd h hop

/-- Without a session CLOSE is the request alone: there is none to close. -/
theorem execClose_no_session (seq : Nat) (tagOk : Bool) (src : Nat) (s : State) :
    execClose 0 seq tagOk src s = .next (s.request ⟨0, seq, tagOk, src⟩ 8 (fun s => (gOk, [], s))) := by
  simp [execClose]

/-- The reply opens a new second where the last one is over or has sent nothing, and counts in it. -/
theorem State.gError_of_room (h : s.glody.errStart + msT 1000 ≤ s.now ∨ s.glody.errSent < 10) (op status seq src : Nat) :
    let fresh := decide (s.glody.errStart + msT 1000 ≤ s.now ∨ s.glody.errSent = 0)
    s.gError op status seq src =
      (s.modGlody (fun g => { g with
        errStart := if fresh then s.now else s.glody.errStart
        errSent := (if fresh then 0 else s.glody.errSent) + 1 })).enqueue (gReply 2 op status 0 seq src []) := by
  intro fresh
  have hfresh : (decide (s.glody.errStart + msT 1000 ≤ s.now) || s.glody.errSent == 0) = fresh := by
    rw [Bool.beq_eq_decide_eq, ← Bool.decide_or]
  have hroom : ¬ 10 ≤ (if fresh then 0 else s.glody.errSent) := by
    by_cases hf : s.glody.errStart + msT 1000 ≤ s.now ∨ s.glody.errSent = 0
    · simp [fresh, hf]
    · have hsent : s.glody.errSent < 10 := h.resolve_left fun hnow => hf (.inl hnow)
      simp [fresh, hf, hsent]
  simp only [State.gError, hfresh, if_neg hroom, State.modGlody]

theorem State.gError_of_full (hnow : s.now < s.glody.errStart + msT 1000) (hsent : 10 ≤ s.glody.errSent)
    (op status seq src : Nat) : s.gError op status seq src = s := by
  have hzero : s.glody.errSent ≠ 0 := by omega
  simp [State.gError, Nat.not_le.mpr hnow, hzero, hsent]

end Sys2Proof.Machine
end

section
open Sys2Proof.Machine

/-- Settles O58: without a session `State.request` executes an open READ alone. Where the second of the ten error replies begins
is the model's choice of log 56: at the first of them. -/
theorem unprotectedRequests : Obligations.UnprotectedRequests := by
  unfold Obligations.UnprotectedRequests
  refine ⟨?read, ?closedRead, ?write, ?readDomain, ?writeDomain, ?dcAdd, ?dcRelease, ?keepalive, ?close, ?room, ?full⟩
  case read =>
    intro seq tagOk src items s r hrec hon _ hopen
    exact congrArg _ (State.request_openRead hrec hon hopen)
  case closedRead =>
    intro seq tagOk src items s hrec hon hclosed
    exact congrArg _ (State.request_unprotected hrec hon fun _ => hclosed)
  case write | readDomain | writeDomain | dcAdd | dcRelease | keepalive =>
    intros
    exact congrArg _ (State.request_notRead (by decide) ‹_› ‹_›)
  case close =>
    intro seq tagOk src s hrec hon
    calc exec (.closeSession 0 seq tagOk src) s
      _ = .next (s.request ⟨0, seq, tagOk, src⟩ 8 _) := execClose_no_session seq tagOk src s
      _ = .next ((s.wakeHub 17).gError 8 gAuth seq src) := by rw [State.request_notRead (by decide) hrec hon]
  case room =>
    intro op seq src s fr h
    exact State.gError_of_room h op 0x10 seq src
  case full =>
    intro op seq src s hnow hsent
    exact State.gError_of_full hnow hsent op 0x10 seq src

end

section
/-! A contribution to one element of a tile (R141, R142), and the order of contributions. -/
namespace Sys2Proof.Machine

/-- What adding `xs` from position `i` does to the superaccumulator at position `k`: the pattern that lies there, where its bytes
are enabled, is added (R141). -/
def contribAt (f : Fmt) (a : Int) (i : Nat) (xs : List (Nat × Bool)) (k : Nat) (u : SupAcc) : SupAcc :=
  match xs with
  | [] => u
  | (x, on) :: xs => contribAt f a (i + 1) xs k (if on = true ∧ i = k then SupAcc.add f a x u else u)

theorem get_addAll (f : Fmt) (a : Int) (i k : Nat) (xs : List (Nat × Bool)) (t : Tab SupAcc) :
    Tab.get k (addAll f a i xs t) = contribAt f a i xs k (Tab.get k t) := by
  induction xs generalizing i t with
  | nil => rfl
  | cons p xs ih =>
    obtain ⟨x, on⟩ := p
    have hhead : Tab.get k (if on then Tab.mod i (SupAcc.add f a x) t else t) =
        if on = true ∧ i = k then SupAcc.add f a x (Tab.get k t) else Tab.get k t := by
      by_cases hk : i = k
      · subst hk
        cases on <;> simp
      · cases on <;> simp [hk, Tab.get_mod_other (Ne.symm hk)]
    rw [addAll, ih, contribAt, hhead]

/-- One contribution added before or after those of a list. -/
theorem contribAt_add_comm (f : Fmt) (a : Int) (i k x : Nat) (xs : List (Nat × Bool)) (u : SupAcc) :
    contribAt f a i xs k (SupAcc.add f a x u) = SupAcc.add f a x (contribAt f a i xs k u) := by
  induction xs generalizing i u with
  | nil => rfl
  | cons p xs ih =>
    obtain ⟨y, on⟩ := p
    rw [contribAt, contribAt]
    split
    · rw [SupAcc.add_comm, ih]
    · exact ih (i + 1) u

theorem contribAt_comm (f : Fmt) (a : Int) (i j k : Nat) (xs ys : List (Nat × Bool)) (u : SupAcc) :
    contribAt f a i xs k (contribAt f a j ys k u) = contribAt f a j ys k (contribAt f a i xs k u) := by
  induction xs generalizing i u with
  | nil => rfl
  | cons p xs ih =>
    obtain ⟨x, on⟩ := p
    rw [contribAt, contribAt]
    split
    · rw [← contribAt_add_comm, ih]
    · exact ih (i + 1) u

theorem foldl_add_perm (f : Fmt) (a : Int) {xs ys : List Nat} (h : xs.Perm ys) (u : SupAcc) :
    xs.foldl (fun v x => SupAcc.add f a x v) u = ys.foldl (fun v x => SupAcc.add f a x v) u :=
  h.foldl_eq' (fun x _ y _ v => SupAcc.add_comm f a y x v) u

end Sys2Proof.Machine
end

section
open Sys2Proof.Machine

/-- Settles O54: two contributions commute, so a permutation of a list and the order of two lists leave every superaccumulator
the same. -/
theorem reductionOrderFree : Obligations.ReductionOrderFree := by
  unfold Obligations.ReductionOrderFree
  refine ⟨fun f g pol a xs ys u h => ?_, fun f a i j k xs ys t => ?_⟩
  · have hacc := foldl_add_perm f a h u
    exact ⟨hacc, congrArg (SupAcc.final g pol a) hacc⟩
  · rw [get_addAll, get_addAll, get_addAll, get_addAll]
    exact contribAt_comm f a i j k xs ys _

end

section
/-! What every command keeps: the queue, the canonical form, and the parts that `touches` does not name (R14, R41, R412). -/
namespace Sys2Proof.Machine

/-- Every command leaves the queue alone, keeps the canonical form and writes only the parts named for it. -/
theorem exec_keeps (c : Instr) (s : State) : Nxt (s.Keeps (touches c)) (exec c s) := by
  cases c with
  | cxlMemRead => exact execCxlMemRead_keeps (.refl _) .rfl
  | cxlMemWrite => exact execCxlMemWrite_keeps (.refl _) .rfl
  | tollgateRelease => exact execTollgateRelease_keeps (.refl _) .rfl
  | gatherTimeout => exact execGatherTimeout_keeps (.refl _) .rfl
  | checkerRoundTrip => exact execCheckerRoundTrip_keeps (.refl _) .rfl
  | mirrorHomeRewrite => exact execMirrorHomeRewrite_keeps (.refl _) .rfl
  | factorReconstruct => exact execFactorReconstruct_keeps (.refl _) .rfl
  | componentInvalidate => exact execComponentInvalidate_keeps (.refl _) .rfl
  | moverSweep => exact execMoverSweep_keeps (.refl _) .rfl
  | moverPromote => exact execMoverPromote_keeps (.refl _) .rfl
  | moverRecompress => exact execMoverRecompress_keeps (.refl _) .rfl
  | relocateBlock => exact execRelocateBlock_keeps (.refl _) .rfl
  | detourSpill => exact execDetourSpill_keeps (.refl _) .rfl
  | detourRecall => exact execDetourRecall_keeps (.refl _) .rfl
  | detourReadComplete => exact execDetourReadComplete_keeps (.refl _) .rfl
  | detourLost => exact execDetourLost_keeps (.refl _) .rfl
  | lowerTile => exact execLowerTile_keeps (.refl _) .rfl
  | fenceLift => exact execFenceLift_keeps (.refl _) .rfl
  | capacityAudit => exact execCapacityAudit_keeps (.refl _) .rfl
  | frameWalkPass => exact execFrameWalkPass_keeps (.refl _) .rfl
  | conservationAudit => exact execConservationAudit_keeps (.refl _) .rfl
  | partCommit => exact execPartCommit_keeps (.refl _) .rfl
  | partRelease => exact execPartRelease_keeps (.refl _) .rfl
  | partReleaseComplete => exact execPartReleaseComplete_keeps (.refl _) .rfl
  | winCommit => exact execWinCommit_keeps (.refl _) .rfl
  | winWithdraw => exact execWinWithdraw_keeps (.refl _) .rfl
  | ownershipWord1Write => exact execOwnershipWord1Write_keeps (.refl _) .rfl
  | descCommit => exact execDescCommit_keeps (.refl _) .rfl
  | descRelease => exact execDescRelease_keeps (.refl _) .rfl
  | srCommit => exact execSrCommit_keeps (.refl _) .rfl
  | srRelease => exact execSrRelease_keeps (.refl _) .rfl
  | rcCommit => exact execRcCommit_keeps (.refl _) .rfl
  | rcRelease => exact execRcRelease_keeps (.refl _) .rfl
  | tokenBoundary => exact execTokenBoundary_keeps (.refl _) .rfl
  | guaranteeWindowEnd => exact execGuaranteeWindowEnd_keeps (.refl _) .rfl
  | qEnable => exact execQEnable_keeps (.refl _) .rfl
  | qDisable => exact execQDisable_keeps (.refl _) .rfl
  | qRestart => exact execQRestart_keeps (.refl _) .rfl
  | qDisableComplete => exact execQDisableComplete_keeps (.refl _) .rfl
  | sqTailDoorbell => exact execSqTailDoorbell_keeps (.refl _) .rfl
  | cqHeadDoorbell => exact execCqHeadDoorbell_keeps (.refl _) .rfl
  | queueFetch host ph =>
    change Nxt _ (execQueueFetch host ph s)
    exact execQueueFetch_keeps (.refl _) .rfl
  | fenceStart => exact execFenceStart_keeps (.refl _) .rfl
  | completionPost => exact execCompletionPost_keeps (.refl _) .rfl
  | coalesceTimeout => exact execCoalesceTimeout_keeps (.refl _) .rfl
  | copyDevice => exact execCopyDevice_keeps (.refl _) .rfl
  | copyFromHost => exact execCopyFromHost_keeps (.refl _) .rfl
  | copyToHost => exact execCopyToHost_keeps (.refl _) .rfl
  | fill => exact execFill_keeps (.refl _) .rfl
  | pack => exact execPack_keeps (.refl _) .rfl
  | unpack => exact execUnpack_keeps (.refl _) .rfl
  | factorFull => exact execFactorFull_keeps (.refl _) .rfl
  | factorResidualOnly => exact execFactorResidualOnly_keeps (.refl _) .rfl
  | tileSwitch => exact execTileSwitch_keeps (.refl _) .rfl
  | stageArm => exact execStageArm_keeps (.refl _) .rfl
  | stageDisarm => exact execStageDisarm_keeps (.refl _) .rfl
  | waypointArmWrite => exact execWaypointArmWrite_keeps (.refl _) .rfl
  | waypointTileStaged => exact execWaypointTileStaged_keeps (.refl _) .rfl
  | optStepSgdMomentum => exact execOptStepSgdMomentum_keeps (.refl _) .rfl
  | optStepAdamw => exact execOptStepAdamw_keeps (.refl _) .rfl
  | optStepSignMomentum => exact execOptStepSignMomentum_keeps (.refl _) .rfl
  | optStepProjectedAdamw => exact execOptStepProjectedAdamw_keeps (.refl _) .rfl
  | workTileRetire => exact execWorkTileRetire_keeps (.refl _) .rfl
  | stepReplay => exact execStepReplay_keeps (.refl _) .rfl
  | prepare => exact execPrepare_keeps (.refl _) .rfl
  | prepareComplete => exact execPrepareComplete_keeps (.refl _) .rfl
  | commitStep => exact execCommit_keeps (.refl _) .rfl
  | abortMilestone => exact execAbortMilestone_keeps (.refl _) .rfl
  | jobBaseWrite => exact execJobBaseWrite_keeps (.refl _) .rfl
  | jobRelease => exact execJobRelease_keeps (.refl _) .rfl
  | reduceOpen => exact execReduceOpen_keeps (.refl _) .rfl
  | reduceContrib => exact execReduceContrib_keeps (.refl _) .rfl
  | reduceCancel => exact execReduceCancel_keeps (.refl _) .rfl
  | reduceTileOpen => exact execReduceTileOpen_keeps (.refl _) .rfl
  | reduceTileRound => exact execReduceTileRound_keeps (.refl _) .rfl
  | reduceFrontTimeout => exact execReduceFrontTimeout_keeps (.refl _) .rfl
  | reduceTimeout => exact execReduceTimeout_keeps (.refl _) .rfl
  | ckptFreeze => exact execCkptFreeze_keeps (.refl _) .rfl
  | ckptFreezeRelease => exact execCkptFreezeRelease_keeps (.refl _) .rfl
  | ckptDrain => exact execCkptDrain_keeps (.refl _) .rfl
  | openVersionRead => exact execOpenVersionRead_keeps (.refl _) .rfl
  | openVersionReadLatest => exact execOpenVersionReadLatest_keeps (.refl _) .rfl
  | openVersionWrite => exact execOpenVersionWrite_keeps (.refl _) .rfl
  | openVersionWriteLatest => exact execOpenVersionWriteLatest_keeps (.refl _) .rfl
  | openVersionUnbind => exact execOpenVersionUnbind_keeps (.refl _) .rfl
  | publishPlain => exact execPublishPlain_keeps (.refl _) .rfl
  | publishCas => exact execPublishCas_keeps (.refl _) .rfl
  | closeVersion => exact execCloseVersion_keeps (.refl _) .rfl
  | leaseRenew => exact execLeaseRenew_keeps (.refl _) .rfl
  | leaseRelease => exact execLeaseRelease_keeps (.refl _) .rfl
  | rejoin => exact execRejoin_keeps (.refl _) .rfl
  | leaseExpiryCheck => exact execLeaseExpiryCheck_keeps (.refl _) .rfl
  | leaseEnableWrite => exact execLeaseEnableWrite_keeps (.refl _) .rfl
  | shareDeclareDead => exact execShareDeclareDead_keeps (.refl _) .rfl
  | shareRevive => exact execShareRevive_keeps (.refl _) .rfl
  | shareVersionReset => exact execShareVersionReset_keeps (.refl _) .rfl
  | linkGraceExpiry => exact execLinkGraceExpiry_keeps (.refl _) .rfl
  | bisnpResponse => exact execBisnpResponse_keeps (.refl _) .rfl
  | bisnpTimeout => exact execBisnpTimeout_keeps (.refl _) .rfl
  | biconflict => exact execBiconflict_keeps (.refl _) .rfl
  | retireFrame => exact execRetireFrame_keeps (.refl _) .rfl
  | retireRow => exact execRetireRow_keeps (.refl _) .rfl
  | retireBank => exact execRetireBank_keeps (.refl _) .rfl
  | retireRelease => exact execRetireRelease_keeps (.refl _) .rfl
  | testRound => exact execTestRound_keeps (.refl _) .rfl
  | diceRoundDue => exact execDiceRoundDue_keeps (.refl _) .rfl
  | diceRoundComplete => exact execDiceRoundComplete_keeps (.refl _) .rfl
  | diceDeferExpiry => exact execDiceDeferExpiry_keeps (.refl _) .rfl
  | checkFlag => exact execCheckFlag_keeps (.refl _) .rfl
  | repeatDecide => exact execRepeatDecide_keeps (.refl _) .rfl
  | blockWatchdogExpiry => exact execBlockWatchdogExpiry_keeps (.refl _) .rfl
  | engineFault => exact execEngineFault_keeps (.refl _) .rfl
  | engineResetComplete => exact execEngineResetComplete_keeps (.refl _) .rfl
  | engineResetOverrun => exact execEngineResetOverrun_keeps (.refl _) .rfl
  | suspectTileResult => exact execSuspectTileResult_keeps (.refl _) .rfl
  | regionReset => exact execRegionReset_keeps (.refl _) .rfl
  | regionResetComplete => exact execRegionResetComplete_keeps (.refl _) .rfl
  | regionResetOverrun => exact execRegionResetOverrun_keeps (.refl _) .rfl
  | warmResetPhaseEnd => exact execWarmResetPhaseEnd_keeps (.refl _) .rfl
  | warmResetOverrun => exact execWarmResetOverrun_keeps (.refl _) .rfl
  | safeEntry => exact execSafeEntry_keeps (.refl _) .rfl
  | safeAutoExpiry => exact execSafeAutoExpiry_keeps (.refl _) .rfl
  | coreWatchdogExpiry => exact execCoreWatchdogExpiry_keeps (.refl _) .rfl
  | lockstepMismatch => exact execLockstepMismatch_keeps (.refl _) .rfl
  | codeFetchUe => exact execCodeFetchUe_keeps (.refl _) .rfl
  | dmaSourceUe => exact execDmaSourceUe_keeps (.refl _) .rfl
  | enterService => exact execEnterService_keeps (.refl _) .rfl
  | enterStandby => exact execEnterStandby_keeps (.refl _) .rfl
  | recover => exact execRecover_keeps (.refl _) .rfl
  | enterSafe => exact execEnterSafe_keeps (.refl _) .rfl
  | patrolScrubRead => exact execPatrolScrubRead_keeps (.refl _) .rfl
  | scrubWriteback => exact execScrubWriteback_keeps (.refl _) .rfl
  | sramScrub => exact execSramScrub_keeps (.refl _) .rfl
  | stackDeath => exact execStackDeath_keeps (.refl _) .rfl
  | stackDeathWalkComplete => exact execStackDeathWalkComplete_keeps (.refl _) .rfl
  | regionDeath => exact execRegionDeath_keeps (.refl _) .rfl
  | flipArm => exact execFlipArm_keeps (.refl _) .rfl
  | stackTempSample => exact execStackTempSample_keeps (.refl _) .rfl
  | thermalHoldExpiry => exact execThermalHoldExpiry_keeps (.refl _) .rfl
  | refreshDue => exact execRefreshDue_keeps (.refl _) .rfl
  | pageIdleExpiry => exact execPageIdleExpiry_keeps (.refl _) .rfl
  | requestStarvePromote => exact execRequestStarvePromote_keeps (.refl _) .rfl
  | commandParityAlert => exact execCommandParityAlert_keeps (.refl _) .rfl
  | replayComplete => exact execReplayComplete_keeps (.refl _) .rfl
  | channelRetrainComplete => exact execChannelRetrainComplete_keeps (.refl _) .rfl
  | panicAssert => exact execPanicAssert_keeps (.refl _) .rfl
  | panicDeassert => exact execPanicDeassert_keeps (.refl _) .rfl
  | trnHoldWrite => exact execTrnHoldWrite_keeps (.refl _) .rfl
  | trnCtlStart => exact execTrnCtlStart_keeps (.refl _) .rfl
  | trnRunComplete => exact execTrnRunComplete_keeps (.refl _) .rfl
  | selfRefreshEntry => exact execSelfRefreshEntry_keeps (.refl _) .rfl
  | selfRefreshExit => exact execSelfRefreshExit_keeps (.refl _) .rfl
  | linkDetectTick => exact execLinkDetectTick_keeps (.refl _) .rfl
  | linkTrained => exact execLinkTrained_keeps (.refl _) .rfl
  | linkDown => exact execLinkDown_keeps (.refl _) .rfl
  | backoffExpiry => exact execBackoffExpiry_keeps (.refl _) .rfl
  | portEnableWrite => exact execPortEnableWrite_keeps (.refl _) .rfl
  | rxOverflow => exact execRxOverflow_keeps (.refl _) .rfl
  | creditStall => exact execCreditStall_keeps (.refl _) .rfl
  | replayLimitExhausted => exact execReplayLimitExhausted_keeps (.refl _) .rfl
  | malformedMessage => exact execMalformedMessage_keeps (.refl _) .rfl
  | ideKeyProgram => exact execIdeKeyProgram_keeps (.refl _) .rfl
  | ideIntegrityFail => exact execIdeIntegrityFail_keeps (.refl _) .rfl
  | ldFlr => exact execLdFlr_keeps (.refl _) .rfl
  | ldBmeClear => exact execLdBmeClear_keeps (.refl _) .rfl
  | ldCplTimeout => exact execLdCplTimeout_keeps (.refl _) .rfl
  | ldCompletionArrival => exact execLdCompletionArrival_keeps (.refl _) .rfl
  | cxlConfigRequest => exact execCxlConfigRequest_keeps (.refl _) .rfl
  | cdatRead => exact execCdatRead_keeps (.refl _) .rfl
  | dcAddExtent => exact execDcAddExtent_keeps (.refl _) .rfl
  | dcReleaseExtent => exact execDcReleaseExtent_keeps (.refl _) .rfl
  | identifyMemoryDevice => exact execIdentifyMemoryDevice_keeps (.refl _) .rfl
  | getSupportedLogs => exact execGetSupportedLogs_keeps (.refl _) .rfl
  | getLog => exact execGetLog_keeps (.refl _) .rfl
  | getEventRecords => exact execGetEventRecords_keeps (.refl _) .rfl
  | clearEventRecords => exact execClearEventRecords_keeps (.refl _) .rfl
  | getEventInterruptPolicy => exact execGetEventInterruptPolicy_keeps (.refl _) .rfl
  | setEventInterruptPolicy => exact execSetEventInterruptPolicy_keeps (.refl _) .rfl
  | getTimestamp => exact execGetTimestamp_keeps (.refl _) .rfl
  | setTimestamp => exact execSetTimestamp_keeps (.refl _) .rfl
  | getHealthInfo => exact execGetHealthInfo_keeps (.refl _) .rfl
  | getAlertConfiguration => exact execGetAlertConfiguration_keeps (.refl _) .rfl
  | setAlertConfiguration => exact execSetAlertConfiguration_keeps (.refl _) .rfl
  | getFwInfo => exact execGetFwInfo_keeps (.refl _) .rfl
  | getPoisonList => exact execGetPoisonList_keeps (.refl _) .rfl
  | injectPoison => exact execInjectPoison_keeps (.refl _) .rfl
  | clearPoison => exact execClearPoison_keeps (.refl _) .rfl
  | getDcConfiguration => exact execGetDcConfiguration_keeps (.refl _) .rfl
  | getDcExtentList => exact execGetDcExtentList_keeps (.refl _) .rfl
  | addDcResponse => exact execAddDcResponse_keeps (.refl _) .rfl
  | releaseDc => exact execReleaseDc_keeps (.refl _) .rfl
  | mailboxUnsupported => exact execMailboxUnsupported_keeps (.refl _) .rfl
  | dictRead => exact execDictRead_keeps (.refl _) .rfl
  | getSignatures => exact execGetSignatures_keeps (.refl _) .rfl
  | getPortMode => exact execGetPortMode_keeps (.refl _) .rfl
  | getBinding => exact execGetBinding_keeps (.refl _) .rfl
  | getOwnFail => exact execGetOwnFail_keeps (.refl _) .rfl
  | svcFlr => exact execSvcFlr_keeps (.refl _) .rfl
  | svcFlrComplete => exact execSvcFlrComplete_keeps (.refl _) .rfl
  | svcBmeClear => exact execSvcBmeClear_keeps (.refl _) .rfl
  | svcBmeSet => exact execSvcBmeSet_keeps (.refl _) .rfl
  | perstAssert => exact execPerstAssert_keeps (.refl _) .rfl
  | perstDeassert => exact execPerstDeassert_keeps (.refl _) .rfl
  | svcLinkDownGraceExpiry => exact execSvcLinkDownGraceExpiry_keeps (.refl _) .rfl
  | svcD3hotEntry => exact execSvcD3hotEntry_keeps (.refl _) .rfl
  | svcD0Entry => exact execSvcD0Entry_keeps (.refl _) .rfl
  | svcD3coldEntry => exact execSvcD3coldEntry_keeps (.refl _) .rfl
  | svcD3WaitExpiry => exact execSvcD3WaitExpiry_keeps (.refl _) .rfl
  | wakeCauseSignal => exact execWakeCauseSignal_keeps (.refl _) .rfl
  | svcCompletionArrival => exact execSvcCompletionArrival_keeps (.refl _) .rfl
  | svcCompletionTimeout => exact execSvcCompletionTimeout_keeps (.refl _) .rfl
  | tagQuarantineExpiry => exact execTagQuarantineExpiry_keeps (.refl _) .rfl
  | svcEgressGrant => exact execSvcEgressGrant_keeps (.refl _) .rfl
  | bar0Read => exact execBar0Read_keeps (.refl _) .rfl
  | dictWrite => exact execDictWrite_keeps (.refl _) .rfl
  | ltrSend => exact execLtrSend_keeps (.refl _) .rfl
  | aspmSupportWrite => exact execAspmSupportWrite_keeps (.refl _) .rfl
  | domDataWrite => exact execDomDataWrite_keeps (.refl _) .rfl
  | fwCommit => exact execFwCommit_keeps (.refl _) .rfl
  | fwWriteComplete => exact execFwWriteComplete_keeps (.refl _) .rfl
  | keyErase => exact execKeyErase_keeps (.refl _) .rfl
  | diagMapLatch => exact execDiagMapLatch_keeps (.refl _) .rfl
  | keyLoad => exact execKeyLoad_keeps (.refl _) .rfl
  | spdmGetMeasurements => exact execSpdmGetMeasurements_keeps (.refl _) .rfl
  | spdmKeyExchange => exact execSpdmKeyExchange_keeps (.refl _) .rfl
  | spdmRequest => exact execSpdmRequest_keeps (.refl _) .rfl
  | mctpPacket => exact execMctpPacket_keeps (.refl _) .rfl
  | setEndpointId => exact execSetEndpointId_keeps (.refl _) .rfl
  | glodyRead => exact execGlodyRead_keeps (.refl _) .rfl
  | glodyWrite => exact execGlodyWrite_keeps (.refl _) .rfl
  | readDomain => exact execReadDomain_keeps (.refl _) .rfl
  | writeDomain => exact execWriteDomain_keeps (.refl _) .rfl
  | dcAdd => exact execDcAdd_keeps (.refl _) .rfl
  | dcRelease => exact execDcRelease_keeps (.refl _) .rfl
  | keepalive => exact execKeepalive_keeps (.refl _) .rfl
  | closeSession => exact execClose_keeps (.refl _) .rfl
  | glodySessionIdleExpiry => exact execGlodySessionIdleExpiry_keeps (.refl _) .rfl
  | glodyDatagramDrop => exact execGlodyDatagramDrop_keeps (.refl _) .rfl
  | noticeRepeat => exact execNoticeRepeat_keeps (.refl _) .rfl
  | glodyTransmit => exact execGlodyTransmit_keeps (.refl _) .rfl
  | announce => exact execAnnounce_keeps (.refl _) .rfl
  | plcaBeacon => exact execPlcaBeacon_keeps (.refl _) .rfl
  | neighborSolicitation => exact execNeighborSolicitation_keeps (.refl _) .rfl
  | beginOp => exact execBegin_keeps (.refl _) .rfl
  | dataOp => exact execData_keeps (.refl _) .rfl
  | endOp => exact execEnd_keeps (.refl _) .rfl
  | loaderTransferTimeout => exact execLoaderTransferTimeout_keeps (.refl _) .rfl
  | bootPhaseEnd => exact execBootPhaseEnd_keeps (.refl _) .rfl
  | powerInputApplied => exact execPowerInputApplied_keeps (.refl _) .rfl
  | refclkStable => exact execRefclkStable_keeps (.refl _) .rfl
  | inputOutOfRange => exact execInputOutOfRange_keeps (.refl _) .rfl
  | inputRestored => exact execInputRestored_keeps (.refl _) .rfl
  | inputCollapse => exact execInputCollapse_keeps (.refl _) .rfl
  | refclkLost => exact execRefclkLost_keeps (.refl _) .rfl
  | refclkRestored => exact execRefclkRestored_keeps (.refl _) .rfl
  | thermalTrip => exact execThermalTrip_keeps (.refl _) .rfl
  | governorSample => exact execGovernorSample_keeps (.refl _) .rfl
  | powerS1Entry => exact execPowerS1Entry_keeps (.refl _) .rfl
  | powerS2Entry => exact execPowerS2Entry_keeps (.refl _) .rfl
  | powerS3Entry => exact execPowerS3Entry_keeps (.refl _) .rfl
  | wakeCause => exact execWakeCause_keeps (.refl _) .rfl
  | wakeTokenTick => exact execWakeTokenTick_keeps (.refl _) .rfl
  | wakeGrant => exact execWakeGrant_keeps (.refl _) .rfl
  | pllLock => exact execPllLock_keeps (.refl _) .rfl
  | hubRestoreComplete => exact execHubRestoreComplete_keeps (.refl _) .rfl
  | latencyToleranceWrite => exact execLatencyToleranceWrite_keeps (.refl _) .rfl
  | hdmDecoderCommit => exact execHdmDecoderCommit_keeps (.refl _) .rfl
  | versionTableWalkPass => exact execVersionTableWalkPass_keeps (.refl _) .rfl
  | spdmHeartbeatTimeout => exact execSpdmHeartbeatTimeout_keeps (.refl _) .rfl
  | i3cDynamicAddressAssignment => exact execI3cDynamicAddressAssignment_keeps (.refl _) .rfl
  | msixVectorUnmask => exact execMsixVectorUnmask_keeps (.refl _) .rfl
  | plcaBeaconStatusChange => exact execPlcaBeaconStatusChange_keeps (.refl _) .rfl
  | svcLinkUp => exact execSvcLinkUp_keeps (.refl _) .rfl
  | svcConfigRequest => exact execSvcConfigRequest_keeps (.refl _) .rfl

  | fitEstimate => exact execFitEstimate_keeps (.refl _) .rfl

/-- Every command answers a next state: none faults and none is refused. -/
theorem exec_answers (c : Instr) (s : State) : ∃ t, exec c s = .next t := by
  cases c <;> exact ⟨_, rfl⟩

theorem exec_pending {c : Instr} {s t : State} (h : exec c s = .next t) : t.pending = s.pending := (exec_keeps c s t h).queue

/-- The queue is no part of the canonical form. -/
theorem State.Canonical.withPending {s : State} (h : s.Canonical) (p : List Instr) : ({ s with pending := p } : State).Canonical := by
  obtain ⟨hdict, hhbm, ht0⟩ := h
  exact ⟨hdict, hhbm, ht0⟩

theorem step_nil {s : State} (h : s.pending = []) : step s = .next s.tick := by
  unfold step
  rw [h]

theorem step_cons {s : State} {c : Instr} {rest : List Instr} (h : s.pending = c :: rest) :
    step s = exec c { s with pending := rest } := by
  unfold step
  rw [h]

theorem State.tick_canonical {s : State} (h : s.Canonical) : s.tick.Canonical :=
  (State.tick_keeps (Within.refl _) .rfl).canon h

theorem step_canonical {s t : State} (hs : s.Canonical) (h : step s = .next t) : t.Canonical := by
  cases hq : s.pending with
  | nil =>
    rw [step_nil hq] at h
    cases h
    exact State.tick_canonical hs
  | cons c rest =>
    rw [step_cons hq] at h
    exact (exec_keeps c _ t h).canon (hs.withPending rest)

/-- An unpowered device whose PERST# was deasserted too early, one period before the deassertion may be taken (R444). -/
def State.perstDue : State :=
  { State.reset with
    now := msT 200
    svc := { State.reset.svc with perstWait := true }
    power := { State.reset.power with applied := true } }

end Sys2Proof.Machine
end

section
open Sys2Proof.Machine

/-- Settles O5: every command and every tick keeps the canonical form. -/
theorem stepKeepsCanonical : Obligations.StepKeepsCanonical := by
  unfold Obligations.StepKeepsCanonical
  exact fun s t => step_canonical

/-- Settles O6: a command leaves the rest of the queue alone. -/
theorem stepTakesOne : Obligations.StepTakesOne := by
  unfold Obligations.StepTakesOne
  intro c rest s t hq h
  rw [step_cons hq] at h
  exact exec_pending h

/-- Settles O7: every arm of `exec` is a next state; a DPA out of range is refused at its port by an answer, the choice of log 17. -/
theorem everyCommandCompletes : Obligations.EveryCommandCompletes := by
  unfold Obligations.EveryCommandCompletes
  exact exec_answers

/-- Settles O50: a part that `touches` does not name is as it was. -/
theorem frames : Obligations.Frames := by
  unfold Obligations.Frames
  intro c p s t h hp
  exact (exec_keeps c s t h).same hp

/-- Settles O1: a step is the front command on the rest of the queue. -/
theorem stepRunsFront : Obligations.StepRunsFront := by
  unfold Obligations.StepRunsFront
  exact fun c rest s => step_cons

/-- Refutes O2 as it is written: a tick also takes a deassertion of PERST# that came too early, once it may (R444). In the state
`State.perstDue` nothing is queued and no window leaves, and the tick ends the wait for it. -/
theorem not_stepIdles : ¬ Obligations.StepIdles := by
  unfold Obligations.StepIdles
  intro h
  have hstep : step State.perstDue = .next State.perstDue.tick := step_nil rfl
  rw [h State.perstDue rfl rfl] at hstep
  have hwait := congrArg (fun t : State => t.svc.perstWait) (Host.Outcome.next.inj hstep)
  exact absurd hwait (by decide)

/-- Settles O3: the tables of the state after reset are empty, so every entry reads as its default. -/
theorem resetLeaves : Obligations.ResetLeaves := by
  unfold Obligations.ResetLeaves
  exact ⟨fun _ => rfl, fun _ => rfl, fun _ => rfl, fun _ => rfl, fun _ => rfl, rfl, rfl⟩

/-- Settles O4: an empty table is in canonical form. -/
theorem resetCanonical : Obligations.ResetCanonical := by
  unfold Obligations.ResetCanonical
  exact ⟨rfl, rfl, rfl⟩

end

section
/-! A step for each item of a list: what it keeps. -/
namespace Sys2Proof.Machine

/-- What every step keeps, the whole keeps. -/
theorem forAll_induction {α : Type} {f : α → State → State} {P : State → Prop} {l : List α} {s : State}
    (hstep : ∀ a ∈ l, ∀ s, P s → P (f a s)) (h : P s) : P (forAll f l s) := by
  induction l generalizing s with
  | nil => exact h
  | cons a l ih =>
    exact ih (fun b hb => hstep b (List.mem_cons_of_mem a hb)) (hstep a List.mem_cons_self s h)

/-- What no step changes is as it was. -/
theorem forAll_proj {α β : Type} {f : α → State → State} (g : State → β) (hstep : ∀ a s, g (f a s) = g s) (l : List α) (s : State) :
    g (forAll f l s) = g s :=
  forAll_induction (P := fun t => g t = g s) (fun a _ t ht => (hstep a t).trans ht) rfl

end Sys2Proof.Machine
end

section
/-! The cut of guaranteed buckets at a boundary (R296, R298). -/
namespace Sys2Proof.Machine

/-- The guaranteed bucket of contract `c`. -/
def State.bucket (s : State) (c : Nat) : Nat := (Tab.get c s.reg.con).bucket

theorem State.bucket_modCon_of_kept {f : ContractRec → ContractRec} (hf : ∀ r, (f r).bucket = r.bucket) (s : State) (c d : Nat) :
    (s.modCon c f).bucket d = s.bucket d := by
  by_cases h : d = c
  · subst h
    simp [State.bucket, State.modCon, hf]
  · simp [State.bucket, State.modCon, Tab.get_mod_other h]

/-- The contracts in force are parameters of the dictionary. -/
theorem State.consOn_congr {s t : State} (h : t.dict = s.dict) : t.consOn = s.consOn := by
  simp [State.consOn, State.objs, State.par, h]

theorem State.cutBucket_dict (s : State) (c : Nat) : (s.cutBucket c).dict = s.dict :=
  (State.cutBucket_keeps (F := [.reg]) (.refl _) .rfl).same (p := .dict) (by decide)

theorem State.cutBucket_par (s : State) (c k : Nat) : (s.cutBucket c).par k = s.par k :=
  congrArg (Tab.getD (dictDefault k) k) (s.cutBucket_dict c)

/-- The bucket cut is within its depth. -/
theorem State.bucket_cutBucket_same (s : State) (c : Nat) : (s.cutBucket c).bucket c ≤ s.par (P.rcBurst c) * 4096 := by
  unfold State.cutBucket
  dsimp only
  split
  · assumption
  · simp [State.bucket, State.modCon, State.tgCount]

/-- No bucket grows by a cut. -/
theorem State.bucket_cutBucket_le (s : State) (c d : Nat) : (s.cutBucket c).bucket d ≤ s.bucket d := by
  unfold State.cutBucket
  dsimp only
  split
  · exact Nat.le_refl _
  · next hover =>
    by_cases h : d = c
    · subst h
      simpa [State.bucket, State.modCon, State.tgCount] using Nat.le_of_not_le hover
    · simp [State.bucket, State.modCon, State.tgCount, Tab.get_mod_other h]

theorem State.cutBuckets_dict (s : State) (l : List Nat) : (forAll (fun c s => s.cutBucket c) l s).dict = s.dict :=
  forAll_proj State.dict (fun c s => s.cutBucket_dict c) l s

/-- Every bucket of the contracts cut is within its depth. -/
theorem State.bucket_cutBuckets_le {l : List Nat} {d : Nat} (hd : d ∈ l) (s : State) :
    (forAll (fun c s => s.cutBucket c) l s).bucket d ≤ s.par (P.rcBurst d) * 4096 := by
  induction l generalizing s with
  | nil => exact absurd hd List.not_mem_nil
  | cons c l ih =>
    rw [← s.cutBucket_par c]
    by_cases hl : d ∈ l
    · exact ih hl (s.cutBucket c)
    · obtain rfl : d = c := (List.mem_cons.mp hd).resolve_right hl
      have hfirst := s.bucket_cutBucket_same d
      rw [← s.cutBucket_par d] at hfirst
      exact forAll_induction (s := s.cutBucket d) (P := fun t => t.bucket d ≤ (s.cutBucket d).par (P.rcBurst d) * 4096)
        (fun a _ t ht => Nat.le_trans (t.bucket_cutBucket_le a d) ht) hfirst

/-- What a boundary does after the cut: the rate counts restart, and the window is counted or restarts (R303, R305). -/
def State.afterCut (s : State) : State :=
  let s := forAll (fun m s => s.modMaster m (fun r => { r with spent := 0 })) (Tab.keys s.reg.masters) s
  if !s.serving then s.restartWindow
  else
    let s := forAll (fun c s' => s'.modCon c (fun r =>
      { r with quiet := r.quiet || !s.waiting (masterOf (s.par (P.rcMaster c))) (s.par (P.rcStackSet c)) })) s.consOn s
    { s with reg := { s.reg with windowAt := s.reg.windowAt + 1 } }

/-- A boundary ends with the cut of every contract in force. -/
theorem State.boundary_eq_cut (s : State) :
    ∃ u : State, s.boundary = (forAll (fun c s => s.cutBucket c) u.consOn u).afterCut := by
  generalize ht : s.boundary = t
  unfold State.boundary at ht
  extract_lets +onlyGivenNames _ s1 s2 s3 s4 _ s5 s6 s7 s8 at ht
  clear_value s8
  exact ⟨s8, ht.symm⟩

theorem State.afterCut_keeps {s0 s : State} (h : s0.Keeps [.reg] s) : s0.Keeps [.reg] s.afterCut := by
  unfold State.afterCut
  extract_lets u v w
  have hu : s0.Keeps [.reg] u := forAll_keeps (fun _ _ h => State.modMaster_keeps (.refl _) h) h
  split
  · exact State.restartWindow_keeps (.refl _) hu
  · have hv : s0.Keeps [.reg] v := forAll_keeps (fun _ _ h => State.modCon_keeps (.refl _) h) hu
    exact .congr (.refl _) hv rfl rfl rfl rfl (by rintro ⟨⟩ <;> simp [Part.same, w])

theorem State.afterCut_dict (s : State) : s.afterCut.dict = s.dict :=
  (State.afterCut_keeps .rfl).same (p := .dict) (by decide)

theorem State.bucket_restartWindow (s : State) (d : Nat) : s.restartWindow.bucket d = s.bucket d :=
  forAll_proj (fun t => t.bucket d) (fun c t => t.bucket_modCon_of_kept (fun _ => by rfl) c d) (Tab.keys s.reg.con) s

theorem State.bucket_afterCut (s : State) (d : Nat) : s.afterCut.bucket d = s.bucket d := by
  unfold State.afterCut
  extract_lets u v w
  have hu : u.bucket d = s.bucket d := forAll_proj (fun t => t.bucket d) (fun _ _ => by rfl) (Tab.keys s.reg.masters) s
  split
  · exact (u.bucket_restartWindow d).trans hu
  · have hv : v.bucket d = u.bucket d :=
      forAll_proj (fun t => t.bucket d) (fun c t => t.bucket_modCon_of_kept (fun _ => by rfl) c d) u.consOn u
    exact hv.trans hu

theorem State.boundary_bucket_le {s : State} {c : Nat} (hc : c ∈ s.boundary.consOn) :
    s.boundary.bucket c ≤ s.boundary.par (P.rcBurst c) * 4096 := by
  obtain ⟨u, hu⟩ := s.boundary_eq_cut
  have hdict : s.boundary.dict = u.dict := by rw [hu, State.afterCut_dict, State.cutBuckets_dict]
  have hpar : s.boundary.par (P.rcBurst c) = u.par (P.rcBurst c) := congrArg (Tab.getD _ _) hdict
  rw [State.consOn_congr hdict] at hc
  rw [hpar, hu, State.bucket_afterCut]
  exact State.bucket_cutBuckets_le hc u

/-- A boundary that is due runs, once the device has left INIT and while no warm reset does. -/
theorem execTokenBoundary_of_due {s : State} (hdue : s.reg.boundary < s.us + 1) (hdev : s.dev ≠ dsInit) (hwarm : s.warm = false) :
    execTokenBoundary s = .next s.boundary := by
  simp [execTokenBoundary, Nat.not_le.mpr hdue, hdev, hwarm]

theorem State.dev_of_serving {s : State} (h : s.serving = true) : s.dev = dsService := beq_iff_eq.mp h

end Sys2Proof.Machine
end

section
open Sys2Proof.Machine

/-- Settles O20: a boundary ends with a cut of every contract in force, after which no bucket grows. -/
theorem bucketsStayWithinBurst : Obligations.BucketsStayWithinBurst := by
  unfold Obligations.BucketsStayWithinBurst
  intro c s hdue hserve hwarm hc
  have hdev : s.dev ≠ dsInit := by rw [State.dev_of_serving hserve]; decide
  exact ⟨s.boundary, execTokenBoundary_of_due hdue hdev hwarm, State.boundary_bucket_le hc⟩

end

section
/-! The token bucket of wakes (R395, R398). -/
namespace Sys2Proof.Machine

theorem State.count_par_other {j k : Nat} (h : j ≠ k) (s : State) (n : Nat) : (s.count k n).par j = s.par j :=
  State.par_setPar_other s h _

/-- A count below the width of its counter does not wrap. -/
theorem State.count_par_same_of_lt {k n : Nat} {s : State} (hw : widthOf k ≤ 64) (h : s.par k + n < 2 ^ widthOf k) :
    (s.count k n).par k = s.par k + n := by
  rw [State.count, State.par_setPar_same, Nat.mod_eq_of_lt h,
    Nat.mod_eq_of_lt (Nat.lt_of_lt_of_le h (Nat.pow_le_pow_right (by decide) hw))]

theorem widthOf_wkIssued : widthOf P.wkIssued = 64 := by decide +kernel
theorem widthOf_wkHeld : widthOf P.wkHeld = 8 := by decide +kernel
theorem widthOf_wkSpent : widthOf P.wkSpent = 64 := by decide +kernel
theorem widthOf_wkExpired : widthOf P.wkExpired = 64 := by decide +kernel

/-- A token is issued at this tick. -/
def State.issueToken (s : State) : State := (s.pw (fun p => { p with tokenAt := s.now })).count P.wkIssued 1

theorem State.issueToken_par_other {k : Nat} (h : k ≠ P.wkIssued) (s : State) : s.issueToken.par k = s.par k :=
  State.count_par_other h _ 1

theorem execWakeTokenTick_of_room {s : State} (hdue : s.power.tokenAt + usT 25 ≤ s.now) (hroom : s.par P.wkHeld < 40) :
    execWakeTokenTick s = .next (s.issueToken.count P.wkHeld 1) := by
  have hheld : s.issueToken.par P.wkHeld < 40 := by rwa [State.issueToken_par_other (by decide)]
  rw [execWakeTokenTick, if_neg (Nat.not_lt.mpr hdue)]
  exact congrArg _ (if_pos hheld)

theorem execWakeTokenTick_of_full {s : State} (hdue : s.power.tokenAt + usT 25 ≤ s.now) (hfull : 40 ≤ s.par P.wkHeld) :
    execWakeTokenTick s = .next (s.issueToken.count P.wkExpired 1) := by
  have hheld : ¬ s.issueToken.par P.wkHeld < 40 := by rwa [State.issueToken_par_other (by decide), Nat.not_lt]
  rw [execWakeTokenTick, if_neg (Nat.not_lt.mpr hdue)]
  exact congrArg _ (if_neg hheld)

theorem execWakeTokenTick_of_early {s : State} (h : s.now < s.power.tokenAt + usT 25) : execWakeTokenTick s = .next s := by
  rw [execWakeTokenTick, if_pos h]

/-- Tokens issued, with the 40 of the cold bucket, are held, spent or expired (R395). -/
@[reducible] def State.TokensAddUp (s : State) : Prop :=
  s.par P.wkIssued + 40 = s.par P.wkHeld + s.par P.wkSpent + s.par P.wkExpired

theorem State.issueToken_wkIssued {s : State} (h : s.par P.wkIssued + 1 < 2 ^ 64) :
    s.issueToken.par P.wkIssued = s.par P.wkIssued + 1 :=
  State.count_par_same_of_lt (s := s.pw _) (Nat.le_of_eq widthOf_wkIssued) (by rw [widthOf_wkIssued]; exact h)

/-- A token put into a bucket with room. -/
theorem State.tokensAddUp_held {s : State} (hissued : s.par P.wkIssued + 1 < 2 ^ 64) (hroom : s.par P.wkHeld < 40)
    (h : s.TokensAddUp) : (s.issueToken.count P.wkHeld 1).TokensAddUp ∧ (s.issueToken.count P.wkHeld 1).par P.wkHeld ≤ 40 := by
  have hheld : (s.issueToken.count P.wkHeld 1).par P.wkHeld = s.par P.wkHeld + 1 := by
    rw [← State.issueToken_par_other (k := P.wkHeld) (by decide) s] at hroom ⊢
    exact State.count_par_same_of_lt (by rw [widthOf_wkHeld]; decide) (by rw [widthOf_wkHeld]; omega)
  have hother {k : Nat} (hk : k ≠ P.wkHeld) : (s.issueToken.count P.wkHeld 1).par k = s.issueToken.par k :=
    State.count_par_other hk _ 1
  unfold State.TokensAddUp at h ⊢
  rw [hheld, hother (by decide), hother (by decide), hother (by decide), State.issueToken_wkIssued hissued,
    State.issueToken_par_other (k := P.wkSpent) (by decide), State.issueToken_par_other (k := P.wkExpired) (by decide)]
  omega

/-- A token that finds the bucket full. -/
theorem State.tokensAddUp_expired {s : State} (hissued : s.par P.wkIssued + 1 < 2 ^ 64) (hexpired : s.par P.wkExpired + 1 < 2 ^ 64)
    (hle : s.par P.wkHeld ≤ 40) (h : s.TokensAddUp) :
    (s.issueToken.count P.wkExpired 1).TokensAddUp ∧ (s.issueToken.count P.wkExpired 1).par P.wkHeld ≤ 40 := by
  have hexp : (s.issueToken.count P.wkExpired 1).par P.wkExpired = s.par P.wkExpired + 1 := by
    rw [← State.issueToken_par_other (k := P.wkExpired) (by decide) s] at hexpired ⊢
    exact State.count_par_same_of_lt (Nat.le_of_eq widthOf_wkExpired) (by rw [widthOf_wkExpired]; exact hexpired)
  have hother {k : Nat} (hk : k ≠ P.wkExpired) : (s.issueToken.count P.wkExpired 1).par k = s.issueToken.par k :=
    State.count_par_other hk _ 1
  unfold State.TokensAddUp at h ⊢
  rw [hexp, hother (by decide), hother (k := P.wkHeld) (by decide), hother (by decide), State.issueToken_wkIssued hissued,
    State.issueToken_par_other (k := P.wkSpent) (by decide), State.issueToken_par_other (k := P.wkHeld) (by decide)]
  omega

/-- A granted wake moves tokens from the bucket to those spent, and nothing else. -/
theorem State.spendWake_pars {s : State} {n : Nat} (hspent : s.par P.wkSpent + n < 2 ^ 64) (hle : s.par P.wkHeld ≤ 40) :
    (s.spendWake n).par P.wkHeld = s.par P.wkHeld - n ∧ (s.spendWake n).par P.wkSpent = s.par P.wkSpent + n ∧
      ∀ k, k ≠ P.wkHeld → k ≠ P.wkSpent → (s.spendWake n).par k = s.par k := by
  have hunc {k : Nat} (hk : k ≠ P.wkHeld) : (s.uncount P.wkHeld n).par k = s.par k := State.par_setPar_other s hk _
  refine ⟨?_, ?_, fun k h1 h2 => ?_⟩
  · rw [State.spendWake, State.count_par_other (by decide), State.uncount, State.par_setPar_same]
    exact Nat.mod_eq_of_lt (by omega)
  · rw [← hunc (k := P.wkSpent) (by decide)] at hspent ⊢
    exact State.count_par_same_of_lt (Nat.le_of_eq widthOf_wkSpent) (by rw [widthOf_wkSpent]; exact hspent)
  · rw [State.spendWake, State.count_par_other h2, hunc h1]

end Sys2Proof.Machine
end

section
open Sys2Proof.Machine

/-- Settles O51: each tick issues a token that is held or expires, and a granted wake moves tokens from held to spent. That the 40
tokens of the cold bucket count as held is the model's choice of log 46. -/
theorem wakeTokens : Obligations.WakeTokens := by
  unfold Obligations.WakeTokens
  refine ⟨fun s => execWakeTokenTick_of_room, fun s => execWakeTokenTick_of_full, fun s => execWakeTokenTick_of_early,
    fun s _ hissued hexpired hle h => ?tick, fun s n _ hn hspent hle h => ?spend, fun w hkind => ?cost⟩
  case tick =>
    by_cases hearly : s.now < s.power.tokenAt + usT 25
    · exact ⟨s, execWakeTokenTick_of_early hearly, h, hle, fun _ _ _ _ => rfl⟩
    have hdue := Nat.not_lt.mp hearly
    by_cases hroom : s.par P.wkHeld < 40
    · obtain ⟨hsum, hheld⟩ := State.tokensAddUp_held hissued hroom h
      refine ⟨_, execWakeTokenTick_of_room hdue hroom, hsum, hheld, fun k h1 h2 _ => ?_⟩
      rw [State.count_par_other h2, State.issueToken_par_other h1]
    · obtain ⟨hsum, hheld⟩ := State.tokensAddUp_expired hissued hexpired hle h
      refine ⟨_, execWakeTokenTick_of_full hdue (Nat.not_lt.mp hroom), hsum, hheld, fun k h1 _ h3 => ?_⟩
      rw [State.count_par_other h3, State.issueToken_par_other h1]
  case spend =>
    obtain ⟨hheld, hspent', hother⟩ := State.spendWake_pars hspent hle
    rw [hheld, hspent', hother P.wkIssued (by decide) (by decide), hother P.wkExpired (by decide) (by decide)]
    omega
  case cost =>
    unfold wakeCost
    have hcases : w.kind = 0 ∨ w.kind = 1 ∨ w.kind = 2 := by omega
    rcases hcases with h | h | h <;> rw [h] <;> rfl

end

section
/-! A table's values after a map that keeps its keys, and one line stored in HBM (R324, R328, R337). -/
namespace Sys2Proof.Machine

theorem Tab.find_map {α β : Type} (k : Nat) (f : Nat × α → β) (t : Tab α) :
    Tab.find? k (t.map (fun p => (p.1, f p))) = (Tab.find? k t).map (fun v => f (k, v)) := by
  induction t with
  | nil => rfl
  | cons p t ih =>
    obtain ⟨j, v⟩ := p
    rw [List.map_cons, Tab.find_cons, Tab.find_cons, ih]
    by_cases h : j = k
    · simp [h]
    · simp [h]

/-- Every parameter is read from the dictionary. -/
theorem State.par_congr {s t : State} (h : t.dict = s.dict) : t.par = s.par := by
  funext k
  rw [State.par, State.par, h]

/-- A run of values written from key `a` on: inside it the values, outside it what was there. -/
theorem Tab.getD_writeRun {α : Type} [DecidableEq α] (d : α) (a n k : Nat) (vs : List α) (t : Tab α) (hn : vs.length = n) :
    Tab.getD d k (Tab.writeRun d a vs t) = if a ≤ k ∧ k < a + n then vs.getD (k - a) d else Tab.getD d k t := by
  subst hn
  split
  · next h =>
    have hlt : k - a < vs.length := by omega
    have hinside := Tab.getD_writeRun_inside d a (k - a) vs t hlt
    rw [List.getD_eq_getElem?_getD, List.getElem?_eq_getElem hlt, Option.getD_some]
    rwa [Nat.add_sub_cancel' h.1] at hinside
  · exact Tab.getD_writeRun_outside d a vs t (by omega)

variable (s : State) (base l : Nat) (d : List Byte)

/-- The media record of one line stored at line `l`, clean but for an armed flip. -/
theorem State.storeBytes_line_media (hd : d.length = 64) :
    (s.storeBytes (64 * l) d []).media = { s.media with
      flips := match s.flipFor (lineStack l) [l] with
        | some (x, e) => Tab.set x e (s.media.flips.filter (fun p => decide (p.1 < l ∨ l + 1 ≤ p.1)))
        | none => s.media.flips.filter (fun p => decide (p.1 < l ∨ l + 1 ≤ p.1))
      scrubRead := s.media.scrubRead.map (fun p =>
        (p.1, if p.1 = lineStack l ∧ [l].contains (lineStack l * stackLines + p.2.line) then { p.2 with cancelled := true } else p.2)) } := by
  have hl : 64 * l / 64 = l := Nat.mul_div_cancel_left l (by decide)
  have hlines : (List.range (cdiv d.length 64)).map (fun i => 64 * l / 64 + i) = [l] := by simp [hd, hl, cdiv]
  unfold State.storeBytes
  dsimp only
  rw [hlines, hl, hd]
  cases s.flipFor (lineStack l) [l] <;> rfl

/-- A flip armed for one line names that line. -/
theorem State.flipFor_singleton {k x e : Nat} (h : s.flipFor k [l] = some (x, e)) : x = l := by
  unfold State.flipFor at h
  dsimp only at h
  split at h
  · split at h
    · cases h
      rfl
    · obtain ⟨y, hy, hxy⟩ := Option.map_eq_some_iff.mp h
      cases hxy
      exact List.mem_singleton.mp (List.mem_of_find?_eq_some hy)
  · cases h

/-- The line holds the error of a flip armed for it, and no other. -/
theorem State.storeBytes_line_flip (hd : d.length = 64) :
    Tab.get l (s.storeBytes (64 * l) d []).media.flips = (s.flipFor (lineStack l) [l]).elim 0 Prod.snd := by
  rw [State.storeBytes_line_media s l d hd]
  cases hf : s.flipFor (lineStack l) [l] with
  | none =>
    have hgone := Tab.find_filter_key l (fun x => decide (x < l ∨ l + 1 ≤ x)) s.media.flips
    rw [if_neg (by simp)] at hgone
    exact congrArg (Option.getD · 0) hgone
  | some p =>
    obtain ⟨x, e⟩ := p
    obtain rfl := s.flipFor_singleton l hf
    simp

theorem State.storeBytes_line_scrubRead (hd : d.length = 64) {k : Nat} (h : Tab.find? k s.media.scrubRead = none) :
    Tab.find? k (s.storeBytes (64 * l) d []).media.scrubRead = none := by
  rw [State.storeBytes_line_media s l d hd]
  dsimp only
  rw [Tab.find_map, h]
  rfl

/-- Bytes stored without a mark are those of HBM, whether a flip meets them or not. -/
theorem State.storeBytes_unmarked_hbm : (s.storeBytes base d []).mem.hbm = Tab.writeRun 0 base d s.mem.hbm := by
  unfold State.storeBytes
  dsimp only
  split <;> rfl

/-- Without an armed flip a line stored without a mark writes no parameter. -/
theorem State.storeBytes_line_dict (hd : d.length = 64) (hflip : s.flipFor (lineStack l) [l] = none) :
    (s.storeBytes (64 * l) d []).dict = s.dict := by
  have hl : 64 * l / 64 = l := Nat.mul_div_cancel_left l (by decide)
  have hlines : (List.range (cdiv d.length 64)).map (fun i => 64 * l / 64 + i) = [l] := by simp [hd, hl, cdiv]
  unfold State.storeBytes
  dsimp only
  rw [hlines, hl, hflip]
  rfl

end Sys2Proof.Machine
end

section
/-! SCRUB_WRITEBACK (R331). -/
namespace Sys2Proof.Machine

variable {s : State} {stack : Fin 16} {r : ScrubRead}

/-- The state without the line that the scrub of `stack` holds. -/
def State.dropScrubRead (s : State) (stack : Nat) : State :=
  s.modMedia (fun m => { m with scrubRead := Tab.erase stack m.scrubRead })

theorem execScrubWriteback_of_stored (hread : Tab.find? stack.val s.media.scrubRead = some r) (hkept : r.cancelled = false)
    (hscope : scrubs (s.frame (frameKey stack (r.line / 64))) = true) :
    execScrubWriteback stack s =
      .next (((s.dropScrubRead stack).scrubGrant (stack.val / 4)).storeBytes (64 * (stack.val * stackLines + r.line)) r.data []) := by
  simp [execScrubWriteback, hread, hkept, hscope, State.dropScrubRead]

theorem execScrubWriteback_of_cancelled (hread : Tab.find? stack.val s.media.scrubRead = some r) (hkept : r.cancelled = true) :
    execScrubWriteback stack s = .next (s.dropScrubRead stack) := by
  simp [execScrubWriteback, hread, hkept, State.dropScrubRead]

theorem State.find_dropScrubRead (s : State) (k : Nat) : Tab.find? k (s.dropScrubRead k).media.scrubRead = none :=
  Tab.find_erase_same k _

theorem State.scrubGrant_keeps_self (s : State) (q : Nat) : s.Keeps [.arb, .power] (s.scrubGrant q) :=
  State.scrubGrant_keeps (.refl _) .rfl

/-- A flip is armed by parameters alone. -/
theorem State.flipFor_congr {s t : State} (h : t.dict = s.dict) (k : Nat) (ls : List Nat) : t.flipFor k ls = s.flipFor k ls := by
  unfold State.flipFor
  rw [State.par_congr h]

end Sys2Proof.Machine
end

section
open Sys2Proof.Machine

/-- Settles O39: the write-back is one line stored without a mark, at the line that was read. -/
theorem scrubWriteback : Obligations.ScrubWriteback := by
  unfold Obligations.ScrubWriteback
  refine ⟨?stored, fun stack r s hread hkept => ?cancelled⟩
  case stored =>
    intro stack r s l hread hkept hlen _ hscope
    have hgrant := (s.dropScrubRead stack).scrubGrant_keeps_self (stack.val / 4)
    have hdict : ((s.dropScrubRead stack).scrubGrant (stack.val / 4)).dict = s.dict := hgrant.same (p := .dict) (by decide)
    have hmedia : ((s.dropScrubRead stack).scrubGrant (stack.val / 4)).media = (s.dropScrubRead stack).media :=
      hgrant.same (p := .media) (by decide)
    have hhbm : ((s.dropScrubRead stack).scrubGrant (stack.val / 4)).mem.hbm = s.mem.hbm := hgrant.same (p := .hbm) (by decide)
    have hflips := State.flipFor_congr hdict (lineStack l) [l]
    refine ⟨_, execScrubWriteback_of_stored hread hkept hscope, fun hnone => ?_, ?_, ?_, fun a => ?_⟩
    · rw [← hflips] at hnone
      exact (State.storeBytes_line_dict _ l r.data hlen hnone).trans hdict
    · exact State.storeBytes_line_scrubRead _ l r.data hlen (hmedia ▸ s.find_dropScrubRead stack)
    · rw [← hflips]
      exact State.storeBytes_line_flip _ l r.data hlen
    · rw [State.storeBytes_unmarked_hbm, hhbm]
      exact Tab.getD_writeRun 0 (64 * l) 64 a r.data s.mem.hbm hlen
  case cancelled =>
    exact ⟨_, execScrubWriteback_of_cancelled hread hkept, rfl, s.find_dropScrubRead stack, rfl, rfl⟩

end

section
/-! A CXL.mem request at its home hub, and one that reaches no DPA or has no credit (R30, R33, R41, R51, R253). -/
namespace Sys2Proof.Machine

variable {s : State} {r : HeldReq} {ph : Phys} {v : View} {w : Nat}

/-- A request whose tollgate has a token passes it. -/
theorem State.cxlMem_of_gateOk {port addr dpa : Nat} {mk : Nat → HeldReq} (hr : mk (dpa / 64 * 64) = r) (hport : r.port = port)
    (hup : s.ldUp port = true) (hcredit : ((s.backWith (port / 16) ph).link (port / 16)).noCredit (mk 0) = false)
    (hup0 : (s.backWith (port / 16) ph).ldUp port = true) (hdec : (s.backWith (port / 16) ph).decodeHdm port addr = some dpa)
    (hdpa : dpa < dpaEnd) (hide : (s.backWith (port / 16) ph).ideRefuses r = false) (hserve : (s.backWith (port / 16) ph).serving = true)
    (hhold : (Tab.get port (s.backWith (port / 16) ph).reg.masters).hold = []) (hgate : (s.backWith (port / 16) ph).gateOk r = true) :
    s.cxlMem port addr mk ph = .next ((s.backWith (port / 16) ph).gatePass r ph) := by
  subst hport hr
  rw [State.cxlMem_of_decodeHdm hup hcredit hdec hdpa,
    State.arrive_of_gateOk hup0 (State.portRefuses_eq_none hide hserve) hhold hgate]

/-- A read that its hub can serve, whose line no directory watches, is granted and served. -/
theorem State.atHub_of_ready_read (hread : r.write = false) (hready : s.hubReady r v w = true)
    (hcoh : (s.hubGrant ((s.home r.dpa).getD 0) (r.port / 32)).cohAt r.dpa = none) :
    s.atHub r v w ph = (s.hubGrant ((s.home r.dpa).getD 0) (r.port / 32)).serveRead r v w ph := by
  simp [State.atHub, hready, hcoh, hread]

/-- A write that its hub can take, whose line no directory watches, is granted and accepted. -/
theorem State.atHub_of_ready_write (hwrite : r.write = true) (hready : s.hubReady r v w = true)
    (hcoh : (s.hubGrant ((s.home r.dpa).getD 0) (r.port / 32)).cohAt r.dpa = none) :
    s.atHub r v w ph = (s.hubGrant ((s.home r.dpa).getD 0) (r.port / 32)).serveWrite r v w := by
  simp [State.atHub, hready, hcoh, hwrite]

/-- A read that passes its tollgate and its checks is served by its hub. -/
theorem State.gatePass_of_read (hread : r.write = false) (hchecks : ((s.gateSpend r).checks r).toOption = some (w, v)) :
    s.gatePass r ph = ((s.gateSpend r).accepted r w).atHub r v w ph := by
  rw [State.gatePass, State.letIn_of_checks hchecks]
  simp [hread]

/-- After a write that passes its tollgate and its checks the hub tries its held requests. -/
theorem State.gatePass_of_write (hwrite : r.write = true) (hchecks : ((s.gateSpend r).checks r).toOption = some (w, v)) :
    s.gatePass r ph = (((s.gateSpend r).accepted r w).atHub r v w ph).retryHub ph := by
  rw [State.gatePass, State.letIn_of_checks hchecks]
  simp [hwrite]

/-- A clean line of an explicit-T0 window is read from staging. -/
theorem State.serveRead_of_t0 (hkind : s.par (P.winKind w) = wT0) (hmark : Tab.get (r.dpa / 64) s.mem.t0marks = false) :
    s.serveRead r v w ph = s.reply r (some (Tab.readRun 0 (r.dpa / 64 * 64) 64 s.mem.t0)) := by
  simp [State.serveRead, hkind, hmark]

/-- A clean write to an explicit-T0 window writes staging and completes. -/
theorem State.serveWrite_of_t0 (hkind : s.par (P.winKind w) = wT0) (hbad : r.bad = false) (hparity : r.parity = false) :
    s.serveWrite r v w = (s.writeT0 (r.dpa / 64 * 64) (normMask r.mask) r.data false).reply r none := by
  have hgrad : ¬ wT0 = wGradient := by decide
  simp [State.serveWrite, hkind, hgrad, State.poisonSeen, HeldReq.poisoned, hbad, hparity]

theorem State.stage_of_no_flip {q mask : Nat} {d : List Byte} {bad : Bool} (h : s.flipSram 1 q = false) :
    s.stage q mask d bad = (d, bad, s) := by
  simp [State.stage, h]

theorem padTo_length (n : Nat) (l : List Byte) : (padTo n l).length = n := by
  simp only [padTo, zeros, List.length_append, List.length_take, List.length_replicate]
  omega

theorem padTo_of_length {n : Nat} {l : List Byte} (h : l.length = n) : padTo n l = l := by
  subst h
  simp [padTo, zeros]

/-- A whole clean line written in staging: its 64 bytes, and no other. -/
theorem State.writeT0_whole {dpa : Nat} {d : List Byte} (hd : d.length = 64) (hflip : s.flipSram 1 ((s.home dpa).getD 0) = false)
    (a : Nat) : Tab.getD 0 a (s.writeT0 dpa 0 d false).mem.t0 =
      if dpa ≤ a ∧ a < dpa + 64 then d.getD (a - dpa) 0 else Tab.getD 0 a s.mem.t0 := by
  have hmem : (s.writeT0 dpa 0 d false).mem.t0 = Tab.writeRun 0 dpa d s.mem.t0 := by
    simp [State.writeT0, State.stage_of_no_flip hflip, State.modMem, maskBytes, padTo_of_length hd]
  rw [hmem]
  exact Tab.getD_writeRun 0 dpa 64 a d s.mem.t0 hd

/-- Writing staging writes no byte of HBM. -/
theorem State.writeT0_hbm (s : State) (dpa mask : Nat) (d : List Byte) (bad : Bool) :
    (s.writeT0 dpa mask d bad).mem.hbm = s.mem.hbm :=
  (State.writeT0_keeps (F := [.dict, .t0, .mem, .media]) (.refl _) .rfl).same (p := .hbm) (by decide)

theorem State.reply_mem (s : State) (r : HeldReq) (d : Option (List Byte)) : (s.reply r d).mem = s.mem :=
  (State.reply_keeps (F := [.out, .ports]) (.refl _) .rfl).mem_eq (by decide) (by decide) (by decide)

/-- A request that no decoder takes, or whose DPA does not exist, is refused with NO_WINDOW. -/
theorem State.cxlMem_of_no_dpa {port addr : Nat} {mk : Nat → HeldReq}
    (hr : mk (((s.backWith (port / 16) ph).decodeHdm port addr).elim (addr % 2 ^ 42) (· % 2 ^ 42)) = r) (hport : r.port = port)
    (hup : s.ldUp port = true) (hcredit : ((s.backWith (port / 16) ph).link (port / 16)).noCredit (mk 0) = false)
    (hup0 : (s.backWith (port / 16) ph).ldUp port = true) (hide : (s.backWith (port / 16) ph).ideRefuses r = false)
    (hserve : (s.backWith (port / 16) ph).serving = true)
    (hdec : ((s.backWith (port / 16) ph).decodeHdm port addr).all (fun d => decide (dpaEnd ≤ d)) = true) :
    s.cxlMem port addr mk ph = .next ((s.backWith (port / 16) ph).accessFail r 1) := by
  subst hport
  have hrefuse : (s.backWith (r.port / 16) ph).noDpa r = (s.backWith (r.port / 16) ph).accessFail r 1 := by
    simp [State.noDpa, hup0, State.portRefuses_eq_none hide hserve]
  have harrive : s.cxlMem r.port addr mk ph = .next ((s.backWith (r.port / 16) ph).noDpa
      (mk (((s.backWith (r.port / 16) ph).decodeHdm r.port addr).elim (addr % 2 ^ 42) (· % 2 ^ 42)))) := by
    cases hd : (s.backWith (r.port / 16) ph).decodeHdm r.port addr with
    | none => simp [State.cxlMem, hup, hcredit, hd]
    | some dpa =>
      rw [hd] at hdec
      have hend : dpaEnd ≤ dpa := by simpa using hdec
      simp [State.cxlMem, hup, hcredit, hd, hend]
  rw [harrive, hr, hrefuse]

/-- A request beyond the credits of its channel is discarded and its link falls. -/
theorem State.cxlMem_of_noCredit {port addr : Nat} {mk : Nat → HeldReq} (hup : s.ldUp port = true)
    (hup0 : (s.backWith (port / 16) ph).ldUp port = true)
    (hcredit : ((s.backWith (port / 16) ph).link (port / 16)).noCredit (mk 0) = true) :
    s.cxlMem port addr mk ph = .next ((s.backWith (port / 16) ph).overflow port) := by
  simp [State.cxlMem, hup, hup0, hcredit]

end Sys2Proof.Machine
end

section
open Sys2Proof.Machine

/-- Settles O11: the read goes from its port to its home hub without a stop. It rests on the model's choices of log 14 (the hub's
depth), 17 and 18 (the decoding of the host address) and 86 (the hub's grant). -/
theorem cxlMemReadServed : Obligations.CxlMemReadServed := by
  unfold Obligations.CxlMemReadServed
  refine ⟨?served, ?staged⟩
  case served =>
    intro port address dpa want ph w v s r s0 s1 s2 s3 hup hcredit hup0 hdec hdpa hide hserve hhold hgate hchecks hready hcoh
    calc exec (.cxlMemRead port address want ph) s
      _ = s.cxlMem port address (s.readReq port want) ph := rfl
      _ = .next (s0.gatePass r ph) := State.cxlMem_of_gateOk rfl rfl hup hcredit hup0 hdec hdpa hide hserve hhold hgate
      _ = .next (s3.serveRead r v w ph) := by
        rw [State.gatePass_of_read rfl hchecks, State.atHub_of_ready_read rfl hready hcoh]
  case staged =>
    intro port address dpa want ph w v s r s0 s1 s2 s3 hup hcredit hup0 hdec hdpa hide hserve hhold hgate hchecks hready hcoh
      hkind hmark
    calc exec (.cxlMemRead port address want ph) s
      _ = s.cxlMem port address (s.readReq port want) ph := rfl
      _ = .next (s0.gatePass r ph) := State.cxlMem_of_gateOk rfl rfl hup hcredit hup0 hdec hdpa hide hserve hhold hgate
      _ = .next (s3.serveRead r v w ph) := by
        rw [State.gatePass_of_read rfl hchecks, State.atHub_of_ready_read rfl hready hcoh]
      _ = .next (s3.reply r (some (Tab.readRun 0 (r.dpa / 64 * 64) 64 s3.mem.t0))) := by
        rw [State.serveRead_of_t0 hkind hmark]

/-- Settles O12: the write goes from its port to its home hub without a stop, and in an explicit-T0 window it is the 64 bytes of
its line. It rests on the model's choices of log 17 and 18 (the decoding of the host address) and 86 (the hub's grant). -/
theorem cxlMemWriteAccepted : Obligations.CxlMemWriteAccepted := by
  unfold Obligations.CxlMemWriteAccepted
  refine ⟨?served, ?staged⟩
  case served =>
    intro port address dpa data mask mark keep w v s r s0 s1 s2 s3 hup hcredit hup0 hdec hdpa hide hserve hhold hgate hchecks
      hready hcoh
    calc exec (.cxlMemWrite port address data mask mark keep) s
      _ = s.cxlMem port address (s.writeReq port data mask mark.poison mark.parity keep) noPhys := rfl
      _ = .next (s0.gatePass r noPhys) := State.cxlMem_of_gateOk rfl rfl hup hcredit hup0 hdec hdpa hide hserve hhold hgate
      _ = .next ((s3.serveWrite r v w).retryHub noPhys) := by
        rw [State.gatePass_of_write rfl hchecks, State.atHub_of_ready_write rfl hready hcoh]
  case staged =>
    intro port address dpa data mark keep w v s r s0 s1 s2 s3 hup hcredit hup0 hdec hdpa hide hserve hhold hgate hchecks
      hready hcoh hbad hparity hkind hflip
    have hline : r.dpa / 64 * 64 = r.dpa := by simp [r, State.writeReq]
    have hstage : s3.serveWrite r v w = (s3.writeT0 (r.dpa / 64 * 64) 0 (padTo 64 data) false).reply r none :=
      State.serveWrite_of_t0 hkind hbad hparity
    refine ⟨s3.serveWrite r v w, ?_, ?_, fun a => ?_⟩
    · calc exec (.cxlMemWrite port address data 0 mark keep) s
        _ = s.cxlMem port address (s.writeReq port data 0 mark.poison mark.parity keep) noPhys := rfl
        _ = .next (s0.gatePass r noPhys) := State.cxlMem_of_gateOk rfl rfl hup hcredit hup0 hdec hdpa hide hserve hhold hgate
        _ = .next ((s3.serveWrite r v w).retryHub noPhys) := by
          rw [State.gatePass_of_write rfl hchecks, State.atHub_of_ready_write rfl hready hcoh]
    · rw [hstage, State.reply_mem, State.writeT0_hbm]
    · rw [hstage, State.reply_mem, hline]
      exact State.writeT0_whole (padTo_length 64 data) hflip a

/-- Settles O13: the two ways in which a request ends at its port. It rests on the model's choices of log 17 and 18 (the decoding of
the host address) and 87 (the DPA recorded). -/
theorem cxlMemNoWindow : Obligations.CxlMemNoWindow := by
  unfold Obligations.CxlMemNoWindow
  refine ⟨?read, ?write, ?readCredit, ?writeCredit⟩
  case read =>
    intro port address want ph s s0 r hup hcredit hup0 hide hserve hdec
    exact State.cxlMem_of_no_dpa (r := r) rfl rfl hup hcredit hup0 hide hserve hdec
  case write =>
    intro port address data mask mark keep s s0 r hup hcredit hup0 hide hserve hdec
    exact State.cxlMem_of_no_dpa (r := r) rfl rfl hup hcredit hup0 hide hserve hdec
  case readCredit =>
    intro port address want ph s s0 hup hup0 hcredit
    exact State.cxlMem_of_noCredit hup hup0 hcredit
  case writeCredit =>
    intro port address data mask mark keep s s0 hup hup0 hcredit
    exact State.cxlMem_of_noCredit hup hup0 hcredit

end

section
/-! The commit and the release of a partition, and what PART_RELEASE_COMPLETE leaves (R44). -/
namespace Sys2Proof.Machine

variable {s : State} {n : Nat}

/-- Headroom and pressure write neither the partitions in force nor memory (R153, R154). -/
theorem State.pressSet_keeps_self (s : State) (set : Nat) : s.Keeps [.dict, .out, .svc, .glody] (s.pressSet set) :=
  State.pressSet_keeps (.refl _) .rfl

theorem State.pressSet_own (s : State) (set : Nat) : (s.pressSet set).own = s.own :=
  (s.pressSet_keeps_self set).same (p := .own) (by decide)

theorem State.pressSet_mem (s : State) (set : Nat) : (s.pressSet set).mem = s.mem :=
  (s.pressSet_keeps_self set).mem_eq (by decide) (by decide) (by decide)

/-- A commit whose checks pass puts the partition into force; of memory it writes the rotation pointers alone. -/
theorem State.partCommit_of_pass (h : s.partCheck n = 0) :
    (s.partCommit n).own.parts = Tab.mod n (fun r => { r with inForce := true }) s.own.parts ∧
      (s.partCommit n).mem.hbm = s.mem.hbm ∧ (s.partCommit n).mem.mapPri = s.mem.mapPri := by
  unfold State.partCommit
  rw [h]
  exact ⟨congrArg Own.parts (State.pressSet_own _ _), (congrArg Mem.hbm (State.pressSet_mem _ _)).trans rfl,
    (congrArg Mem.mapPri (State.pressSet_mem _ _)).trans rfl⟩

/-- A release that R44 does not refuse ends the force and remembers the range to give up. -/
theorem State.partRelease_of_free (h : s.partBusy n = false) :
    (s.partRelease n).own.parts = Tab.mod n (fun r =>
      { r with inForce := false, releasing := true, relBase := s.par (P.partBase n), relSize := s.par (P.partSize n) }) s.own.parts ∧
      (s.partRelease n).mem = s.mem := by
  unfold State.partRelease
  rw [if_neg (by simp [h])]
  exact ⟨congrArg Own.parts (State.pressSet_own _ _), State.pressSet_mem _ _⟩

/-- The record of a partition whose released content is given up. -/
def PartRec.emptied (r : PartRec) : PartRec := { (default : PartRec) with inForce := r.inForce }

/-- Giving up the released content ends with the partition's record and figures cleared; what comes before writes no
partition's record. -/
theorem State.partEmpty_of_releasing (h : (Tab.get n s.own.parts).releasing = true) :
    ∃ u : State, u.own = s.own ∧ s.partEmpty n = ((u.setPar (P.partDetourBlocks n) 0).setPar (P.partStatus n) 0).modPart n
      PartRec.emptied := by
  generalize ht : s.partEmpty n = t
  unfold State.partEmpty at ht
  extract_lets r gone words s1 s2 s3 s4 at ht
  rw [if_neg (by simp [r, h])] at ht
  have hF : Within [.dict, .mem, .out, .svc, .glody] [.dict, .mem, .out, .svc, .glody] := .refl _
  have h1 : s.Keeps [.dict, .mem, .out, .svc, .glody] s1 := by
    refine forAll_keeps (fun p u hu => ?_) .rfl
    extract_lets e
    split
    · exact State.freeEntry_keeps hF hu
    · split
      · exact State.freeSlot_keeps (hF.le rfl) hu
      · exact hu
  have h2 : s.Keeps [.dict, .mem, .out, .svc, .glody] s2 := by
    refine forAll_keeps (fun b u hu => ?_) h1
    split
    · exact State.unpromote_keeps (hF.le rfl) hu
    · exact hu
  have h3 : s.Keeps [.dict, .mem, .out, .svc, .glody] s3 :=
    State.modMem_keeps (hF.le rfl) h2 (fun _ => by rfl) (fun _ => by rfl)
  have h4 : s.Keeps [.dict, .mem, .out, .svc, .glody] s4 := by
    refine forAll_keeps (fun p u hu => ?_) h3
    split
    · split
      · exact State.setFrame_keeps hF hu
      · split
        · exact State.setFrame_keeps hF hu
        · exact hu
    · exact hu
  exact ⟨s4, h4.same (p := .own) (by decide), ht.symm⟩

theorem State.partEmpty_record (h : (Tab.get n s.own.parts).releasing = true) :
    Tab.get n (s.partEmpty n).own.parts = { (default : PartRec) with inForce := (Tab.get n s.own.parts).inForce } ∧
      (s.partEmpty n).par (P.partStatus n) = 0 ∧ (s.partEmpty n).par (P.partDetourBlocks n) = 0 := by
  obtain ⟨u, hown, heq⟩ := State.partEmpty_of_releasing h
  have hne : P.partDetourBlocks n ≠ P.partStatus n := by unfold P.partDetourBlocks P.partStatus; omega
  rw [heq, ← hown]
  refine ⟨Tab.get_mod_same n PartRec.emptied u.own.parts, State.par_setPar_same _ _ _, ?_⟩
  exact (State.par_setPar_other _ hne _).trans (State.par_setPar_same _ _ _)

end Sys2Proof.Machine
end

section
/-! The commit of a window (R54, R97). -/
namespace Sys2Proof.Machine

variable {s : State} {k : Nat}

/-- Pairs written under other keys leave a key as it was. -/
theorem Tab.getD_putAll_other {α : Type} [DecidableEq α] (d : α) {l : List (Nat × α)} {b : Nat} (h : ∀ p ∈ l, p.1 ≠ b) (t : Tab α) :
    Tab.getD d b (Tab.putAll d l t) = Tab.getD d b t := by
  unfold Tab.putAll
  induction l generalizing t with
  | nil => rfl
  | cons p l ih =>
    rw [List.foldl_cons, ih fun q hq => h q (List.mem_cons_of_mem p hq)]
    exact Tab.getD_setD_other d d (Ne.symm (h p List.mem_cons_self)) _ t

/-- Leaving out entries of other keys leaves a key as it was. -/
theorem Tab.getD_filter_key {α : Type} (d : α) {f : Nat → Bool} {b : Nat} (h : f b = true) (t : Tab α) :
    Tab.getD d b (t.filter (fun p => f p.1)) = Tab.getD d b t := by
  rw [Tab.getD, Tab.find_filter_key, if_pos h, Tab.getD]

theorem State.unpromote_par_other (h : k ≠ P.capPromoFrames) (s : State) (b : Nat) : (s.unpromote b).par k = s.par k := by
  unfold State.unpromote
  dsimp only
  split
  · rfl
  · exact State.par_setPar_other _ h _

theorem State.unpromote_mapPri (s : State) (b : Nat) : (s.unpromote b).mem.mapPri = s.mem.mapPri := by
  unfold State.unpromote
  dsimp only
  split <;> rfl

/-- What the storage shown for a range leaves: parameters beside the count of promoted frames. -/
theorem State.showStore_par_other (h : k ≠ P.capPromoFrames) (s : State) (t1 : Bool) (base size : Nat) :
    (s.showStore t1 base size).par k = s.par k := by
  unfold State.showStore
  extract_lets isIn back away u
  refine forAll_proj (fun t => t.par k) (fun b t => ?_) (Tab.keys s.mem.promoted) s
  split
  · exact State.unpromote_par_other h t b
  · rfl

/-- The block map shows other storage inside the range alone (R51). -/
theorem State.showStore_mapPri_outside {base size b : Nat} (h : within (b * 4096) 4096 base size = false) (s : State) (t1 : Bool) :
    Tab.getD 0 b (s.showStore t1 base size).mem.mapPri = Tab.getD 0 b s.mem.mapPri := by
  unfold State.showStore
  extract_lets isIn back away u
  have hout : isIn b = false := by simp [isIn, h]
  have hback : ∀ p ∈ back, p.1 ≠ b := by
    intro p hp hb
    have hin : isIn p.1 = true := (List.mem_filter.mp hp).2
    rw [hb, hout] at hin
    cases hin
  have hu : u.mem.mapPri = s.mem.mapPri := by
    refine forAll_proj (fun t => t.mem.mapPri) (fun b t => ?_) (Tab.keys s.mem.promoted) s
    split
    · exact State.unpromote_mapPri t b
    · rfl
  rw [← hu]
  exact (Tab.getD_putAll_other 0 hback _).trans (Tab.getD_filter_key 0 (f := fun a => !isIn a) (by simp [hout]) _)

/-- A parameter that the figures of a tensor descriptor do not hold (R94). -/
theorem State.descBit_par_other {d bit : Nat} {on : Bool} (h : k < 0x4800 * 256) (s : State) : (s.descBit d bit on).par k = s.par k := by
  refine State.par_setPar_other s ?_ _
  unfold P.descState
  omega

theorem State.descDamage_par_other {w : Nat} (h : k < 0x4800 * 256) (s : State) : (s.descDamage w).par k = s.par k := by
  unfold State.descDamage
  dsimp only
  split
  · rfl
  · exact State.descBit_par_other h s

/-- Trimming the T0 caches writes their listing alone (R162). -/
theorem State.t0Trim_mapPri (s : State) (q n : Nat) : (s.t0Trim q n).mem.mapPri = s.mem.mapPri := by
  induction n generalizing s with
  | zero => rfl
  | succ n ih =>
    unfold State.t0Trim
    split
    · rfl
    · split
      · exact ih _
      · rfl

theorem State.t0Fit_mapPri (s : State) : s.t0Fit.mem.mapPri = s.mem.mapPri :=
  forAll_proj (fun t => t.mem.mapPri) (fun q t => t.t0Trim_mapPri q _) [0, 1, 2, 3] s

theorem State.t0Fit_par (s : State) (k : Nat) : s.t0Fit.par k = s.par k :=
  (State.t0Fit_keeps (F := [.mem]) (.refl _) .rfl).par_eq (by decide) k

/-- What a window in force is given: the storage it shows, zeroed staging, or its descriptor's figures (R51, R97, R328). -/
def State.winOpen (s : State) (w base size d : Nat) : State :=
  let s := if s.par (P.winKind w) = wT0 ∨ s.par (P.winKind w) = wGradient then s else s.showStore (s.par (P.winKind w) == wT1) base size
  if s.par (P.winKind w) = wT0 then
    s.modMem (fun m => { m with t0 := m.t0.filter (fun p => !within p.1 1 base size), t0marks := m.t0marks.filter (fun p => !within (p.1 * 64) 1 base size) })
  else if s.par (P.winKind w) = wFactor ∨ s.par (P.winKind w) = wFactoring then
    let s := ((s.descBit d 1 true).setPar (P.descLoweredTiles d) (s.lowTiles w)).setLossy d
    (s.setPar (P.descDenseBlocks d) (if s.par (P.winKind w) = wFactoring then s.denseBlocks w (s.desc d) else 0)).descDamage w
  else s

theorem State.winCommit_of_pass {w : Nat} (h : s.winCheck w = 0) :
    s.winCommit w = ((s.setPar (P.winStatus w) 0).setPar (P.winState w) 1).winOpen w
      ((s.setPar (P.winStatus w) 0).par (P.winBase w)) ((s.setPar (P.winStatus w) 0).par (P.winSize w))
      ((s.setPar (P.winStatus w) 0).par (P.winDescriptor w)) := by
  unfold State.winCommit
  rw [h]
  exact if_neg (by decide)

/-- The parameters below those of the descriptors, but for the count of promoted frames, are as they were. -/
theorem State.winOpen_par_other (hk : k < 0x4800 * 256) (hpromo : k ≠ P.capPromoFrames) (s : State) (w base size d : Nat) :
    (s.winOpen w base size d).par k = s.par k := by
  unfold State.winOpen
  extract_lets u v
  have hu : u.par k = s.par k := by
    unfold u
    split
    · rfl
    · exact State.showStore_par_other hpromo s _ base size
  rw [← hu]
  split
  · rfl
  · split
    · have hv : v.par k = u.par k := by
        refine (State.descBit_par_other hk _).trans ((State.par_setPar_other _ ?_ _).trans (State.descBit_par_other hk u))
        unfold P.descLoweredTiles
        omega
      rw [← hv]
      refine (State.descDamage_par_other hk _).trans (State.par_setPar_other v ?_ _)
      unfold P.descDenseBlocks
      omega
    · rfl

/-- The damage bit of a descriptor is a parameter. -/
theorem State.descDamage_mem (s : State) (w : Nat) : (s.descDamage w).mem = s.mem := by
  unfold State.descDamage
  dsimp only
  split <;> rfl

theorem State.winOpen_mapPri_outside {base size b : Nat} (h : within (b * 4096) 4096 base size = false) (s : State) (w d : Nat) :
    Tab.getD 0 b (s.winOpen w base size d).mem.mapPri = Tab.getD 0 b s.mem.mapPri := by
  unfold State.winOpen
  extract_lets u v
  have hu : Tab.getD 0 b u.mem.mapPri = Tab.getD 0 b s.mem.mapPri := by
    unfold u
    split
    · rfl
    · exact State.showStore_mapPri_outside h s _
  rw [← hu]
  split
  · rfl
  · split
    · rw [State.descDamage_mem]
      rfl
    · rfl

/-- The window's own parameters lie below those of the descriptors. -/
theorem P.winParam_lt {w : Nat} (hw : w < 1024) : P.winState w < 0x4800 * 256 ∧ P.winStatus w < 0x4800 * 256 := by
  unfold P.winState P.winStatus
  omega

theorem P.winParam_ne_promo {w : Nat} : P.winState w ≠ P.capPromoFrames ∧ P.winStatus w ≠ P.capPromoFrames := by
  unfold P.winState P.winStatus P.capPromoFrames
  omega

theorem State.winCommit_pars {w : Nat} (hw : w < 1024) (h : s.winCheck w = 0) :
    (s.winCommit w).par (P.winState w) = 1 ∧ (s.winCommit w).par (P.winStatus w) = 0 := by
  have hne : P.winStatus w ≠ P.winState w := by unfold P.winStatus P.winState; omega
  rw [State.winCommit_of_pass h, State.winOpen_par_other (P.winParam_lt hw).1 P.winParam_ne_promo.1,
    State.winOpen_par_other (P.winParam_lt hw).2 P.winParam_ne_promo.2]
  exact ⟨State.par_setPar_same _ _ _, (State.par_setPar_other _ hne _).trans (State.par_setPar_same _ _ _)⟩

theorem State.winCommit_mapPri_outside {w b : Nat} (h : s.winCheck w = 0)
    (hout : within (b * 4096) 4096 (s.par (P.winBase w)) (s.par (P.winSize w)) = false) :
    Tab.getD 0 b (s.winCommit w).mem.mapPri = Tab.getD 0 b s.mem.mapPri := by
  have hbase : P.winBase w ≠ P.winStatus w := by unfold P.winBase P.winStatus; omega
  have hsize : P.winSize w ≠ P.winStatus w := by unfold P.winSize P.winStatus; omega
  rw [State.winCommit_of_pass h, State.par_setPar_other _ hbase, State.par_setPar_other _ hsize]
  exact State.winOpen_mapPri_outside hout _ w _

/-- A withdraw of a window in force that does not leave yet makes it leave. -/
theorem State.winWithdraw_of_on {w : Nat} (hstate : s.par (P.winState w) = 1) (hleaving : s.own.leaving.contains w = false) :
    s.winWithdraw w =
      (({ s.setPar (P.winStatus w) 0 with own := { s.own with leaving := s.own.leaving ++ [w] } } : State).markEarly w).winSettle := by
  unfold State.winWithdraw
  rw [if_neg (by simp [hstate]), if_neg (by simp only [hleaving, Bool.false_eq_true, not_false_eq_true])]

end Sys2Proof.Machine
end

section
open Sys2Proof.Machine

/-- Settles O8: each accepted write is the named operation, and the parts that its command does not touch are as they were. It
rests on the model's choices of log 67, 83, 84 and 85 (the withdraw that waits, the checks, the storage a version holds, a second withdraw). -/
theorem partitionsAndWindows : Obligations.PartitionsAndWindows := by
  unfold Obligations.PartitionsAndWindows
  refine ⟨?partCommit, ?partRelease, ?partEmpty, ?winCommit, ?winWithdraw⟩
  case partCommit =>
    intro n s htakes hcheck
    have hexec : exec (.partCommit n) s = .next (s.partCommit n) := congrArg _ (State.barWrite_of_takes htakes _)
    have hkeeps := exec_keeps _ _ _ hexec
    obtain ⟨hparts, hhbm, hmap⟩ := State.partCommit_of_pass hcheck
    exact ⟨_, hexec, hparts, hhbm, hmap, hkeeps.same (p := .queues) (by simp [touches]), hkeeps.same (p := .boot) (by simp [touches])⟩
  case partRelease =>
    intro n s htakes hfree
    have hexec : exec (.partRelease n) s = .next (s.partRelease n) := congrArg _ (State.barWrite_of_takes htakes _)
    have hkeeps := exec_keeps _ _ _ hexec
    obtain ⟨hparts, hmem⟩ := State.partRelease_of_free hfree
    exact ⟨_, hexec, hparts, hmem, hkeeps.same (p := .queues) (by simp [touches]), hkeeps.same (p := .boot) (by simp [touches])⟩
  case partEmpty =>
    intro n s hreleasing
    have hexec : exec (.partReleaseComplete n) s = .next (s.partEmpty n) := rfl
    have hkeeps := exec_keeps _ _ _ hexec
    obtain ⟨hrec, hstatus, hdetour⟩ := State.partEmpty_record hreleasing
    exact ⟨_, hexec, hrec, hstatus, hdetour, hkeeps.same (p := .jobs) (by simp [touches]), hkeeps.same (p := .boot) (by simp [touches])⟩
  case winCommit =>
    intro w s htakes hcheck
    have hexec : exec (.winCommit w) s = .next (s.winCommit w).t0Fit := congrArg _ (State.barWrite_of_takes htakes _)
    have hkeeps := exec_keeps _ _ _ hexec
    obtain ⟨hstate, hstatus⟩ := State.winCommit_pars w.isLt hcheck
    refine ⟨_, hexec, ?_, ?_, hkeeps.same (p := .hbm) (by simp [touches]), fun b hout => ?_, hkeeps.same (p := .own) (by simp [touches])⟩
    · rw [State.t0Fit_par, hstate]
    · rw [State.t0Fit_par, hstatus]
    · rw [State.t0Fit_mapPri, State.winCommit_mapPri_outside hcheck hout]
  case winWithdraw =>
    intro w s htakes hstate hleaving
    calc exec (.winWithdraw w) s
      _ = .next (s.winWithdraw w) := congrArg _ (State.barWrite_of_takes htakes _)
      _ = .next _ := congrArg _ (State.winWithdraw_of_on hstate hleaving)

end

section
/-! The commit of an ownership entry, the commit and the release of a descriptor (R62, R96). -/
namespace Sys2Proof.Machine

variable {s : State}

theorem State.ownCommit_of_pass {e v : Nat} (h : s.ownCheck e v = 0) :
    s.ownCommit e v =
      let u := forAll (fun w s => s.setPar (P.ownWord e w) (s.ownNext e w v)) [1, 2, 3, 4, 5, 6] (s.setPar P.ownStatus 0)
      u.setPar P.ownEntriesValid u.entriesOn.length := by
  unfold State.ownCommit
  rw [h]
  exact if_neg (by decide)

theorem State.descCommit_of_pass {d : Nat} (hoff : s.descOn d = false) (h : s.descCheck d = 0) :
    s.descCommit d = ((s.setPar (P.descStatus d) 0).descBit d 0 true).setLossy d := by
  simp [State.descCommit, hoff, h]

theorem State.descRelease_of_unbound {d : Nat} (hon : s.descOn d = true) (hbound : fld (s.par (P.descState d)) 1 1 = 0) :
    s.descRelease d = ((s.setPar (P.descStatus d) 0).descBit d 0 false).unhang (fun x => x / 2 ^ 28 == d) := by
  simp [State.descRelease, hon, hbound]

end Sys2Proof.Machine
end

section
open Sys2Proof.Machine

/-- Settles O9: each accepted write is the named operation; its command writes neither memory nor the other part named. -/
theorem ownershipAndDescriptors : Obligations.OwnershipAndDescriptors := by
  unfold Obligations.OwnershipAndDescriptors
  refine ⟨?word1, ?descCommit, ?descRelease⟩
  case word1 =>
    intro e v s htakes hcheck
    have hexec : exec (.ownershipWord1Write e v) s = .next (s.ownCommit e v) := congrArg _ (State.barWrite_of_takes htakes _)
    have hkeeps := exec_keeps _ _ _ hexec
    exact ⟨_, hexec, State.ownCommit_of_pass hcheck,
      hkeeps.mem_eq (by simp [touches]) (by simp [touches]) (by simp [touches]),
      hkeeps.same (p := .own) (by simp [touches]), hkeeps.same (p := .queues) (by simp [touches])⟩
  case descCommit =>
    intro d s htakes hoff hcheck
    have hexec : exec (.descCommit d) s = .next (s.descCommit d) := congrArg _ (State.barWrite_of_takes htakes _)
    have hkeeps := exec_keeps _ _ _ hexec
    exact ⟨_, hexec, State.descCommit_of_pass hoff hcheck,
      hkeeps.mem_eq (by simp [touches]) (by simp [touches]) (by simp [touches]), hkeeps.same (p := .fac) (by simp [touches])⟩
  case descRelease =>
    intro d s htakes hon hbound
    have hexec : exec (.descRelease d) s = .next (s.descRelease d) := congrArg _ (State.barWrite_of_takes htakes _)
    have hkeeps := exec_keeps _ _ _ hexec
    exact ⟨_, hexec, State.descRelease_of_unbound hon hbound,
      hkeeps.mem_eq (by simp [touches]) (by simp [touches]) (by simp [touches]), hkeeps.same (p := .fac) (by simp [touches])⟩

end

section
/-! What leaves the reads that wait for the detour area as they were (R165). -/
namespace Sys2Proof.Machine

variable {s : State}

theorem State.putFrame_detReads (s : State) (key : Nat) (r : FrameRec) : (s.putFrame key r).mem.detReads = s.mem.detReads := by
  unfold State.putFrame
  extract_lets o q u v x
  have hv : v.mem.detReads = u.mem.detReads := by
    unfold v
    split <;> rfl
  have hx : x.mem.detReads = v.mem.detReads := by
    unfold x
    split <;> rfl
  have hu : x.mem.detReads = s.mem.detReads := hx.trans hv
  split
  · exact hu
  · exact hu

/-- The pressure that follows a frame's record is no part of memory. -/
theorem State.setFrame_detReads (s : State) (key : Nat) (r : FrameRec) : (s.setFrame key r).mem.detReads = s.mem.detReads := by
  have hpress : (s.setFrame key r).mem = (s.putFrame key r).mem :=
    (State.press_keeps (F := [.dict, .out, .svc, .glody]) (.refl _) .rfl).mem_eq (by decide) (by decide) (by decide)
  rw [hpress, State.putFrame_detReads]

theorem State.dropTile_detReads (s : State) (u i : Nat) : (s.dropTile u i).mem.detReads = s.mem.detReads := by
  unfold State.dropTile
  extract_lets key fr v x
  clear_value key fr
  have hx : x.mem.detReads = v.mem.detReads :=
    forAll_proj (fun t => t.mem.detReads) (fun k t => t.setFrame_detReads (k - 1) default) fr v
  have hv : v.mem = s.mem := State.modFac_mem s _
  rw [State.uncount, State.setPar_mem, hx, hv]

theorem State.dropBuilt_detReads (s : State) (win area b : Nat) : (s.dropBuilt win area b).mem.detReads = s.mem.detReads := by
  unfold State.dropBuilt
  extract_lets d t b0 off hit v
  have hv : v.mem = s.mem := State.modFac_mem s _
  rw [← hv]
  clear_value v
  refine forAll_proj (fun t => t.mem.detReads) (fun u t => ?_) v.wpsOn v
  split
  · rfl
  · extract_lets gone x
    split
    · rfl
    · have hx : x.mem.detReads = t.mem.detReads :=
        forAll_proj (fun t => t.mem.detReads) (fun i t => t.dropTile_detReads u i) gone t
      split
      · rw [State.setWp, State.setPar_mem, hx]
      · exact hx

theorem State.compPoisoned_detReads (s : State) (b : Nat) (wasFactor : Bool) :
    (s.compPoisoned b wasFactor).mem.detReads = s.mem.detReads := by
  unfold State.compPoisoned
  split
  · rfl
  · split
    · rfl
    · split
      extract_lets d x y
      have hx : x.mem.detReads = s.mem.detReads := State.dropBuilt_detReads s _ _ _
      have hy : y.mem = x.mem := by
        unfold y
        split
        · exact State.setPar_mem x _ _
        · rfl
      split
      · rw [State.descBit, State.setPar_mem, hy, hx]
      · rw [hy, hx]

theorem State.logPoison_mem (s : State) (b : Nat) : (s.logPoison b).mem = s.mem :=
  (State.logPoison_keeps (F := [.ports]) (.refl _) .rfl).mem_eq (by decide) (by decide) (by decide)

theorem State.freeSlot_detReads (s : State) (slot : Nat) : (s.freeSlot slot).mem.detReads = s.mem.detReads := by
  unfold State.freeSlot
  split <;> rfl

theorem State.unpromote_detReads (s : State) (b : Nat) : (s.unpromote b).mem.detReads = s.mem.detReads := by
  unfold State.unpromote
  dsimp only
  split <;> rfl

theorem State.slotPoison_detReads (s : State) (b : Nat) : (s.slotPoison b).mem.detReads = s.mem.detReads := by
  unfold State.slotPoison
  extract_lets e u new
  have hu : u.mem = s.mem := by
    unfold u
    split
    · exact State.setPar_mem s _ _
    · rfl
  rw [State.compPoisoned_detReads, State.logPoison_mem, State.setWord, State.unpromote_detReads, State.modMem_mem,
    State.freeSlot_detReads, hu]

theorem State.eventOn_mem (s : State) (port : Option Nat) (dpa : Nat) (a : EventArgs) : (s.eventOn port dpa a).mem = s.mem :=
  (State.eventOn_keeps (F := [.out, .ports]) (.refl _) .rfl).mem_eq (by decide) (by decide) (by decide)

theorem State.detourBad_detReads (s : State) (b : Nat) (port : Option Nat) (hid : Nat) :
    (s.detourBad b port hid).mem.detReads = s.mem.detReads := by
  unfold State.detourBad
  extract_lets u
  have hu : u.mem = s.mem := State.setPar_mem s _ _
  rw [State.slotPoison_detReads, State.eventOn_mem, hu]

/-- A block's read that returns from the detour area leaves the reads behind it waiting. -/
theorem State.detourDone_detReads {d : DetRead} {ds : List DetRead} (hreads : s.mem.detReads = d :: ds) (hflush : d.flush = false)
    (hstate : (entryOf (s.wordIn .main d.blk)).state = stDetour) (host : HostData) : (s.detourDone host).mem.detReads = ds := by
  unfold State.detourDone
  split
  · next hnil => exact absurd (hreads.symm.trans hnil) (List.cons_ne_nil d ds)
  next d' ds' hcons =>
  cases hreads.symm.trans hcons
  extract_lets u e env r
  have hkeeps : (s.modMem (fun m => { m with detReads := ds })).Keeps [.arb, .power] u :=
    State.linkGrant_keeps (.refl _) (State.devGrant_keeps (.refl _) .rfl)
  have hmem : u.mem = { s.mem with detReads := ds } := hkeeps.mem_eq (by decide) (by decide) (by decide)
  have he : e.state = stDetour := by rw [← hstate, State.wordIn, ← show u.mem.mapPri = s.mem.mapPri by rw [hmem]]; rfl
  have hu : u.mem.detReads = ds := congrArg Mem.detReads hmem
  rw [if_neg (by simp [hflush]), if_neg (by simp [he])]
  split
  · rw [State.reply_mem]
    exact hu
  · rw [State.reply_mem, State.detourBad_detReads, hu]
  · rw [State.reply_mem, hu]

end Sys2Proof.Machine
end

section
open Sys2Proof.Machine

/-- Settles O14: each event is met by what its command finds first in its queue. What the storage and the host give is an operand
(log 1), and a grant moves its pointer (log 86). -/
theorem hubEvents : Obligations.HubEvents := by
  unfold Obligations.HubEvents
  refine ⟨?tollgate, ?gather, ?component, ?detour⟩
  case tollgate =>
    intro port ph r rs s hhold hgate
    change execTollgateRelease port ph s = _
    simp only [execTollgateRelease, hhold, hgate, if_true]
  case gather =>
    intro block owner env g s hgather hdue
    change execGatherTimeout block owner env s = _
    simp only [execGatherTimeout, hgather, hdue, if_true]
  case component =>
    intro ph x xs w v s hwait hwin hview
    change execComponentInvalidate ph s = _
    cases hv : (s.modFac (fun f => { f with compWait := xs })).viewFor x.hid x.dpa true with
    | error c => rw [hv] at hview; cases hview
    | ok v' =>
      rw [hv] at hview
      cases hview
      simp only [execComponentInvalidate, hwait, hwin, hv]
  case detour =>
    exact fun host d ds s hreads => ⟨rfl, fun hflush hstate => State.detourDone_detReads hreads hflush hstate host⟩

end

section
/-! Results read through `toOption`. -/
namespace Sys2Proof.Machine

theorem exists_error_of_toOption {ε α : Type} {e : Except ε α} (h : e.toOption = none) : ∃ x, e = .error x := by
  cases e with
  | error x => exact ⟨x, rfl⟩
  | ok a => cases h

theorem exists_ok_of_toOption_isSome {ε α : Type} {e : Except ε α} (h : e.toOption.isSome = true) : ∃ a, e = .ok a := by
  cases e with
  | error x => cases h
  | ok a => exact ⟨a, rfl⟩

theorem eq_ok_of_toOption {ε α : Type} {e : Except ε α} {a : α} (h : e.toOption = some a) : e = .ok a := by
  cases e with
  | error x => cases h
  | ok b => cases h; rfl

end Sys2Proof.Machine
end

section
open Sys2Proof.Machine

/-- Settles O15: each event runs the operation that its conditions name. What a stored copy gives is an operand (log 1); the sweep
visits its region whole (log 71), a packed block waits for its checker's verdict (log 72), and what counts as compaction work is log 102. -/
theorem capacityMover : Obligations.CapacityMover := by
  unfold Obligations.CapacityMover
  refine ⟨?checker, ?mirror, ?sweep, ?promote, ?recompress, ?relocate⟩
  case checker =>
    intro block owner code own partner ph j s hjob hchecks
    change Host.Outcome.next (s.checkEnd _ false code own partner ph) = _
    simp only [State.checkEnd, hjob, hchecks, Bool.not_false, Bool.true_and, if_true]
  case mirror =>
    intro block ph w a v s wb s1 s2 hmay hwords hpartner hview hhbm hbad hgood
    obtain ⟨x, hx⟩ := exists_error_of_toOption hbad
    obtain ⟨d, hd⟩ := exists_ok_of_toOption_isSome hgood
    have h1 : (s.moverGrant ((s.home (block.val * 4096)).getD 0)).fetchLines block.val (entryOf w) (entryOf w).addr
        (List.range 64) wb ph = (.error x, s1.2) := Prod.ext hx rfl
    have h2 : s1.2.fetchLines block.val (entryOf w) a (List.range 64) wb ph = (.ok d, s2.2) := Prod.ext hd rfl
    change execMirrorHomeRewrite block ph s = _
    cases hwin : s.winAt (block.val * 4096) with
    | none =>
      have hwb : wb = 0 := by simp [wb, hwin]
      rw [hwb] at h1 h2
      simp only [execMirrorHomeRewrite, hwin, hmay, hwords, forAll, hpartner, hview, hhbm, h1, h2, Bool.not_true,
        Bool.false_eq_true, if_false]
    | some x =>
      have hwb : wb = s.streamWb x block.val := by simp [wb, hwin]
      rw [hwb] at h1 h2
      simp only [execMirrorHomeRewrite, hwin, hmay, hwords, forAll, hpartner, hview, hhbm, h1, h2, Bool.not_true,
        Bool.false_eq_true, if_false]
  case sweep =>
    intro region ph s s1 s2 hstate hhub
    change execMoverSweep region ph s = _
    have hrun : (decide (2 ≤ s.par (P.pwrRegionState region)) || s.power.hubOff) = false := by
      simp [hhub, hstate]
    simp only [execMoverSweep, hrun, Bool.false_eq_true, if_false]
    rfl
  case promote =>
    intro region ph b bs w n d s s1 x u hqueue hwin hpart hstate hfloat hcount hroom hmay hread hcommit
    obtain ⟨t, ht⟩ := Option.isSome_iff_exists.mp hcommit
    have hx : (s1.moverGrant region.val).readBlock .main b 0 ph none 0xFF = (some (d, []), x.2) := Prod.ext hread rfl
    have hu : x.2.moverCommit .main b (flatForm d) = some t := ht
    have hgo : (decide ((entryOf (s1.wordIn .main b)).state ≠ stPacked) || !s1.floatWin w ||
        decide (s1.parcel (b * 4096) < s1.par P.capPromoteT1) || !(s1.copyRegions n b).all (fun q => s1.promoRoom q 1) ||
        !s1.moverMay region.val 2) = false := by
      simp [hstate, hfloat, hcount, hmay, hroom]
    change execMoverPromote region ph s = _
    simp only [execMoverPromote, hqueue]
    rw [show s.modMem (fun m => { m with promoQ := Tab.set region.val bs m.promoQ }) = s1 from rfl, hwin, hpart]
    simp only [hgo, hx, hu, ht, Bool.false_eq_true, if_false, List.isEmpty_nil, Bool.not_true, Option.getD_some]
  case recompress =>
    intro block x d v w s s1 q hmover hwin hview hstate hmarks hmay hplain
    change execMoverRecompress block s = _
    have hgo : (decide ((entryOf x).state ≠ stFlat) || !(s1.marksOf (entryOf x)).isEmpty ||
        s1.plainAt block.val (entryOf x) (entryOf x).addr != d ||
        !s1.moverMay ((s1.home (block.val * 4096)).getD 0)
          (if (Tab.find? (gatherKey v block.val) s1.mem.promoted).isSome then 2 else 3)) = false := by
      rw [show s1.moverMay ((s1.home (block.val * 4096)).getD 0) _ = true from hmay]
      simp [hstate, hmarks, hplain]
    have hrun : execMoverRecompress block s = .next (s1.recompress w block.val x d) := by
      simp only [execMoverRecompress, hwin, hmover, forAll]
      rfl
    rw [hrun]
    unfold State.recompress
    rw [hview]
    simp only [hgo, Bool.false_eq_true, if_false]
    congr 1
    cases s1.coded w block.val d with
    | none => cases s1.moverCommit v block.val (if s1.storeOf w block.val = .data then rawForm d else s1.unpacked w block.val d) <;> rfl
    | some f =>
      change (match (s1.moverGrant q).laneForm w block.val f d with
        | (some f, s) => (s.moverCommit v block.val f).getD s
        | (none, s) => s) = _
      rw [Option.elim_some]
      rcases (s1.moverGrant q).laneForm w block.val f d with ⟨_ | g, t⟩ <;> rfl
  case relocate =>
    intro block ph w s q u hword _
    have hfound : s.toRelocate ((s.home (block.val * 4096)).getD 0) block.val = some w := hword
    change execRelocateBlock block ph s = _
    simp only [execRelocateBlock, hfound]
    rfl

end

section
/-! The detour area: a grant before an address, and the loss of an area no read of which flushes a slot (R163, R164, R166). -/
namespace Sys2Proof.Machine

variable {s : State}

/-- The mover's grant changes no parameter. -/
theorem State.moverGrant_slotAddr (s : State) (q slot : Nat) : (s.moverGrant q).slotAddr slot = s.slotAddr slot := by
  have hpar : (s.moverGrant q).par P.detBase = s.par P.detBase :=
    (State.moverGrant_keeps (F := [.arb, .power]) (.refl _) .rfl).par_eq (by decide) _
  rw [State.slotAddr, hpar, State.slotAddr]

theorem State.slotPoisons_detReads (s : State) (l : List Nat) : (forAll (fun b s => s.slotPoison b) l s).mem.detReads = s.mem.detReads :=
  forAll_proj (fun t => t.mem.detReads) (fun b t => t.slotPoison_detReads b) l s

theorem State.slotPoisons_hbm (s : State) (l : List Nat) : (forAll (fun b s => s.slotPoison b) l s).mem.hbm = s.mem.hbm :=
  forAll_proj (fun t => t.mem.hbm) (fun b _ => (State.slotPoison_keeps (F := [.dict, .mem, .out, .fac, .jobs, .shared, .ports, .svc, .glody])
    (.refl _) .rfl).same (p := .hbm) (by decide)) l s

theorem State.raise_mem (s : State) (n : Nat) : (s.raise n).mem = s.mem :=
  (State.raise_keeps (F := [.dict, .out, .svc]) (.refl _) .rfl).mem_eq (by decide) (by decide) (by decide)

/-- An ACTIVE area that is lost answers every waiting read; where none of them flushes a slot, nothing is stored. -/
theorem State.detourLost_mem (hactive : s.par P.detState = 1) (hreads : s.mem.detReads.all (fun d => !d.flush) = true) :
    s.detourLost.mem.detReads = [] ∧ s.detourLost.mem.hbm = s.mem.hbm := by
  unfold State.detourLost
  rw [if_neg (by simp [hactive])]
  extract_lets bs u ds v x
  have hds : ds = s.mem.detReads := (State.slotPoisons_detReads _ bs).trans (congrArg Mem.detReads (State.setPar_mem s _ _))
  have hx : x.mem = v.mem := by
    refine forAll_induction (P := fun t => t.mem = v.mem) (fun d hd t ht => ?_) rfl
    have hflush : d.flush = false := by
      rw [hds] at hd
      simpa using List.all_eq_true.mp hreads d hd
    simp only [hflush, Bool.false_eq_true, if_false]
    rw [State.reply_mem, ht]
  rw [State.raise_mem, hx]
  have hu : u.mem.hbm = s.mem.hbm := (State.slotPoisons_hbm _ bs).trans (congrArg Mem.hbm (State.setPar_mem s _ _))
  exact ⟨rfl, hu⟩

end Sys2Proof.Machine
end

section
open Sys2Proof.Machine

/-- Settles O16: a spill, a recall and a loss run the named operation where their conditions hold. It rests on the model's choices
of log 10 (the CRC of a slot), 98 (a flushing read that fails) and 103 (the size of the area). -/
theorem detourMoves : Obligations.DetourMoves := by
  unfold Obligations.DetourMoves
  have hlost (s : State) (h : s.svc.flr = true ∨ (s.svc.bme = false ∧ s.svc.downAt = 0) ∨ s.svc.dstate = 2 ∨
      (s.svc.downAt ≠ 0 ∧ s.svc.downAt + msT 100 ≤ s.now + 1)) : execDetourLost s = .next s.detourLost := by
    have hcause : (s.svc.flr || (!s.svc.bme && s.svc.downAt == 0) || s.svc.dstate == 2 ||
        (s.svc.downAt != 0 && decide (s.svc.downAt + msT 100 ≤ s.now + 1))) = true := by simpa [or_assoc] using h
    simp only [execDetourLost, hcause, if_true]
  refine ⟨?spill, ?callBack, hlost, fun s h hactive hreads => ⟨hlost s h, State.detourLost_mem hactive hreads⟩⟩
  case spill =>
    intro block ph d s q x hnext hmay hread
    have hgo : (decide (s.spillNext ((s.home (block.val * 4096)).getD 0) ≠ some block.val) ||
        !s.moverMay ((s.home (block.val * 4096)).getD 0) 4) = false := by
      rw [show s.spillNext ((s.home (block.val * 4096)).getD 0) = some block.val from hnext,
        show s.moverMay ((s.home (block.val * 4096)).getD 0) 4 = true from hmay]
      simp
    have hx : (s.moverGrant ((s.home (block.val * 4096)).getD 0)).readBlock .main block.val 0 ph none 0xFF = (some (d, []), x.2) :=
      Prod.ext hread rfl
    constructor
    · change execDetourSpill block true ph s = _
      simp only [execDetourSpill, hgo, hx, Bool.false_eq_true, if_false, if_true]
    · change execDetourSpill block false ph s = _
      simp only [execDetourSpill, hgo, hx, Bool.false_eq_true, if_false]
  case callBack =>
    intro block host w q d s e s1 u hwin hhome hstate hactive hhot hroom hmay hpack hdata hsome
    have hgo : (decide (e.state ≠ stDetour) || s.par P.detState != 1 || decide (s.parcel (block.val * 4096) < s.par P.capPromoteT1) ||
        decide (s.headroom q < (s.lowWater : Int)) || !s.moverMay q 2 || (Tab.find? block.val s.mem.packJobs).isSome) = false := by
      simp [hstate, hactive, hhot, hroom, hmay, hpack]
    change execDetourRecall block host s = _
    simp only [execDetourRecall, hwin, hhome]
    rw [if_neg (by rw [hgo]; decide), ← State.moverGrant_slotAddr s q]
    rw [show (s.moverGrant q).svcPut _ = s1 from rfl, hdata]
    obtain ⟨t, ht⟩ := Option.isSome_iff_exists.mp hsome
    change Host.Outcome.next (u.getD _) = .next (u.getD s)
    rw [ht]
    rfl

end

section
/-! A started command whose opcode and mode fit runs its work (R226). -/
namespace Sys2Proof.Machine

variable {s : State} {q idx op mode : Nat} {c : Cmd}

theorem State.runs_iff : s.runs q idx op mode c = true ↔ s.cmdAt (cmdKey q idx) = some c ∧ c.phase = 1 ∧ c.op = op ∧ c.mode = mode := by
  simp [State.runs, and_assoc]

theorem State.runCmd_of_runs (h : s.runs q idx op mode c = true) (f : Nat → Cmd → State → State) :
    s.runCmd q idx op mode f = f (cmdKey q idx) c s := by
  obtain ⟨hc, hphase, hop, hmode⟩ := State.runs_iff.mp h
  simp [State.runCmd, hc, hphase, hop, hmode]

theorem State.runMove_of_runs (h : s.runs q idx op mode c = true) (f : Nat → Cmd → State → State) :
    s.runMove q idx op mode f = (f (cmdKey q idx) c s).paid s q := by
  rw [State.runMove, State.runCmd_of_runs h]

end Sys2Proof.Machine
end

section
open Sys2Proof.Machine

/-- Settles O17: each step of a factored tensor runs the operation that its conditions name. It rests on the model's choices of log 12
(what a stored tile gives), 70 (the word of a lowered tile), 74 (the view of an open version), 104 (the sketch), 105 (the checks of a
tile at its switch) and 106 (a tile that is passed over). -/
theorem factoredTensors : Obligations.FactoredTensors := by
  unfold Obligations.FactoredTensors
  refine ⟨?full, ?residual, ?switched, ?lowered, ?recon⟩
  case full =>
    intro queue start c w s v x hruns hwin hrange hbroken hkind hon hany
    change Host.Outcome.next (s.runMove queue start.idx 0x08 0 _) = _
    rw [State.runMove_of_runs hruns]
    have hused : (decide (s.par (P.winKind w) = wFactor) || (Tab.get (fld (c.d 1) 10 0) s.fac.runs).on) = false := by
      simp [hkind, hon]
    have hopen : s.isBroken (s.factorView (s.qHid (cmdKey queue.val start.idx.val / 65536)) w) = false := hbroken
    have hnone : s.anyFactor (s.factorView (s.qHid (cmdKey queue.val start.idx.val / 65536)) w) w (s.desc (fld (c.d 1) 10 0)) = false := hany
    congr 2
    simp only [State.factorStart, hwin, hrange, hused, hopen, hnone, ne_eq, not_true_eq_false, Bool.not_false, Bool.false_and,
      Bool.false_eq_true, Bool.true_and, if_false, x, v]
    rcases s.storeFactors _ _ _ _ _ with ⟨_ | _, t⟩ <;> rfl
  case residual =>
    intro queue idx c w s v hruns hwin hrange hbroken hkind hon hgen
    change Host.Outcome.next (s.runMove queue idx 0x08 1 _) = _
    rw [State.runMove_of_runs hruns]
    have hused : (decide (s.par (P.winKind w) = wFactor) || (Tab.get (fld (c.d 1) 10 0) s.fac.runs).on) = false := by
      simp [hkind, hon]
    have hopen : s.isBroken (s.factorView (s.qHid (cmdKey queue.val idx.val / 65536)) w) = false := hbroken
    simp only [State.factorStart, hwin, hrange, hused, hopen, hgen, ne_eq, not_true_eq_false, Bool.not_true, Bool.false_and,
      Bool.false_eq_true, decide_false, Bool.true_and, if_false, if_true]
  case switched =>
    intro descriptor env w v s x n hwin hon hnext hretired hview hbroken
    have hdue : (!(Tab.get descriptor.val s.fac.runs).on || decide ((s.desc descriptor.val).tiles ≤ (Tab.get descriptor.val s.fac.runs).next) ||
        decide ((s.desc descriptor.val).tiles < (Tab.get descriptor.val s.fac.runs).next + 1 + (Tab.get descriptor.val s.fac.runs).tiles)) = false := by
      simp only [show (Tab.get descriptor.val s.fac.runs).on = true from hon, Bool.not_true, Bool.false_or, Bool.or_eq_false_iff,
        decide_eq_false_iff_not, Nat.not_le, Nat.not_lt]
      exact ⟨hnext, hretired⟩
    have hok : s.viewFor (s.qHid ((Tab.get descriptor.val s.fac.runs).cmd / 65536)) (s.par (P.winBase w)) true = .ok v := eq_ok_of_toOption hview
    change Host.Outcome.next (State.paid (s.tileSwitch descriptor env) s _) = _
    congr 2
    simp only [State.tileSwitch, hwin, hdue, hok, hbroken, Bool.false_eq_true, if_false]
    rcases s.switchTile _ _ _ _ _ with _ | ⟨changed, t⟩ <;> rfl
  case lowered =>
    intro descriptor tile env w r s q s0 b0 x hwin hnext hmay hread hbad hlow hmode
    have hgo : (decide (s.lowerNext ((s.home ((s.par (P.winBase w) / 4096 + tile.val * (s.winDesc w).wOut) * 4096)).getD 0) ≠
        some (w, tile.val)) || !s.moverMay ((s.home ((s.par (P.winBase w) / 4096 + tile.val * (s.winDesc w).wOut) * 4096)).getD 0) 5) = false := by
      rw [show s.lowerNext _ = some (w, tile.val) from hnext, show s.moverMay _ 5 = true from hmay]
      simp
    have hx : s0.tileRecord (s0.latestView (s0.par (P.winBase w) / 4096)) (s0.par (P.winBase w) / 4096) (s0.winDesc w) tile.val env =
        (some r, x.2) := Prod.ext hread rfl
    change execLowerTile descriptor tile env s = _
    simp only [execLowerTile, hwin, hgo, Bool.false_eq_true, if_false]
    change Host.Outcome.next (s0.lowerTile w tile env) = _
    rw [State.lowerTile]
    simp only [hx, hbad, hlow, hmode, Bool.or_self, Bool.false_eq_true, if_false, if_true]
    rfl
  case recon =>
    intro region block env p ps s hpipes haway hflags hcredits
    change Host.Outcome.next (s.reconstruct (region.val * 16 + block.val) env false) = _
    simp only [State.reconstruct, hpipes, haway, hflags, hcredits, Bool.or_self, Bool.not_true, Bool.false_eq_true, if_false]

end

section
/-! The release of a shared region (R199). -/
namespace Sys2Proof.Machine

variable {s : State} {n : Nat}

/-- A release that R199 does not refuse leaves the region's default record; what comes after writes parameters and map entries, no
shared region's record. -/
theorem State.srRelease_of_free (hon : s.srOn n = true)
    (hwins : s.winsOn.any (fun w => overlaps (s.par (P.srBase n)) (s.par (P.srSize n)) (s.par (P.winBase w)) (s.par (P.winSize w))) = false) :
    ∃ u : State, u.shared.regions = Tab.set n default s.shared.regions ∧
      s.srRelease n = ((u.setPar (P.srStatus n) 0).setPar (P.srLatest n) 0).setPar (P.srLive n) 0 := by
  generalize ht : s.srRelease n = t
  unfold State.srRelease at ht
  extract_lets base size refs words shared s1 s2 s3 s4 at ht
  rw [if_neg (by rw [hon, show s.winsOn.any _ = false from hwins]; decide)] at ht
  have hF : Within [.dict, .mem, .out, .svc, .glody] [.dict, .mem, .out, .svc, .glody] := .refl _
  have h2 : s1.Keeps [.dict, .mem, .out, .svc, .glody] s2 := forAll_keeps (fun _ _ hu => State.release_keeps hF hu) .rfl
  have h3 : s1.Keeps [.dict, .mem, .out, .svc, .glody] s3 :=
    State.uncount_keeps (hF.le rfl) (State.uncount_keeps (hF.le rfl) (State.uncount_keeps (hF.le rfl) h2))
  have h4 : s1.Keeps [.dict, .mem, .out, .svc, .glody] s4 := State.count_keeps (hF.le rfl) h3
  exact ⟨s4, congrArg Shared.regions (h4.same (p := .shared) (by decide)), ht.symm⟩

end Sys2Proof.Machine
end

section
open Sys2Proof.Machine

/-- Settles O18: each accepted write runs the named operation; a release leaves the region's record and figures empty. It rests on the
model's choices of log 68. -/
theorem sharedRegionObjects : Obligations.SharedRegionObjects := by
  unfold Obligations.SharedRegionObjects
  refine ⟨?commit, ?release, ?reset, ?disable, ?enable, ?walk⟩
  case commit =>
    intro region s s1 s2 htakes hcheck
    change Host.Outcome.next (s.barWrite (P.srCommit region) 1 (fun s => s.srCommit region)) = _
    rw [State.barWrite_of_takes htakes, State.srCommit, hcheck]
    rfl
  case release =>
    intro region s htakes hon hwins
    obtain ⟨u, hregions, heq⟩ := State.srRelease_of_free hon hwins
    have hexec : exec (.srRelease region) s = .next (s.srRelease region) := congrArg _ (State.barWrite_of_takes htakes _)
    have hjobs := (exec_keeps _ _ _ hexec).same (p := .jobs) (by simp [touches])
    have hhbm := (exec_keeps _ _ _ hexec).same (p := .hbm) (by simp [touches])
    have hne1 : P.srStatus region.val ≠ P.srLatest region.val := by unfold P.srStatus P.srLatest; omega
    have hne2 : P.srStatus region.val ≠ P.srLive region.val := by unfold P.srStatus P.srLive; omega
    have hne3 : P.srLatest region.val ≠ P.srLive region.val := by unfold P.srLatest P.srLive; omega
    refine ⟨_, hexec, ?_, ?_, ?_, ?_, hhbm, hjobs⟩ <;> rw [heq]
    · exact (congrArg (Tab.get region.val) hregions).trans (Tab.get_set_same _ _ _)
    · exact (State.par_setPar_other _ hne2 _).trans ((State.par_setPar_other _ hne1 _).trans (State.par_setPar_same _ _ _))
    · exact (State.par_setPar_other _ hne3 _).trans (State.par_setPar_same _ _ _)
    · exact State.par_setPar_same _ _ _
  case reset =>
    intro s htakes
    exact congrArg _ (State.barWrite_of_takes htakes _)
  case disable =>
    intro region s htakes
    exact congrArg _ (State.barWrite_of_takes htakes _)
  case enable =>
    intro region s s1 htakes hwas
    change Host.Outcome.next (s.barWrite (P.srLeaseEnable region) 1 (fun s => s.leaseEnable region 1)) = _
    rw [State.barWrite_of_takes htakes, State.leaseEnable]
    rw [if_neg (by decide), if_neg (by rw [hwas]; decide)]
  case walk =>
    intro s hwalk
    change Host.Outcome.next (if s.vrefWalkOk then s.count P.vrefWalkPass 1 else s.vrefFail) = _
    rw [if_pos hwalk]

end

section
open Sys2Proof.Machine

/-- Settles O19: an accepted commit or release records what the next boundary does, and each periodic event runs where its time is reached. -/
theorem bandwidthContracts : Obligations.BandwidthContracts := by
  unfold Obligations.BandwidthContracts
  refine ⟨?commit, ?release, ?boundary, ?window⟩
  case commit =>
    intro contract s htakes hcheck
    change Host.Outcome.next (s.barWrite (P.rcCommit contract) 1 (fun s => s.rcCommit contract)) = _
    rw [State.barWrite_of_takes htakes, State.rcCommit, hcheck]
    rfl
  case release =>
    intro contract s htakes hstate
    change Host.Outcome.next (s.barWrite (P.rcCommit contract) 2 (fun s => s.rcRelease contract)) = _
    rw [State.barWrite_of_takes htakes, State.rcRelease, if_neg hstate]
  case boundary =>
    intro s htime hdev hwarm
    have hdue : (decide (s.us + 1 ≤ s.reg.boundary) || s.dev == dsInit || s.warm) = false := by
      simp only [Nat.not_le.mpr htime, decide_false, Bool.false_or, hwarm, Bool.or_false]
      exact beq_eq_false_iff_ne.mpr hdev
    change execTokenBoundary s = _
    simp only [execTokenBoundary, hdue, Bool.false_eq_true, if_false]
  case window =>
    intro s hat hserving
    have hdue : (decide (s.reg.windowAt < 100) || !s.serving) = false := by simp [hat, hserving]
    change execGuaranteeWindowEnd s = _
    simp only [execGuaranteeWindowEnd, hdue, Bool.false_eq_true, if_false]

end

section
/-! The doorbells of a queue (R224, R225). -/
namespace Sys2Proof.Machine

variable {s : State} {via : Option Nat} {q v : Nat}

/-- A doorbell write that a BAR decodes takes effect on a queue that is not DISABLED and that its page reaches. -/
theorem State.doorbell_of_reaches (hvia : via ≠ none ∨ s.barOn = true) (hwarm : s.warm = false) (hreach : s.dbReaches via q = true)
    (hmode : s.qMode q ≠ 0) (f : State → State) : s.doorbell via q f = f s := by
  have hdecoded : (via.isNone && !s.barOn) = false := by
    rcases hvia with h | h
    · simp [Option.isNone_eq_false_iff.mpr (Option.ne_none_iff_isSome.mp h)]
    · simp [h]
  have htaken : (s.warm || !s.dbReaches via q || decide (s.qMode q = 0)) = false := by simp [hwarm, hreach, hmode]
  simp only [State.doorbell, hdecoded, htaken, Bool.false_eq_true, if_false]

/-- A tail inside the ring is taken. -/
theorem State.sqTail_of_lt (h : v < s.qSize q) : s.sqTail q v = s.modQ q (fun r => { r with tail := v }) := by
  have hsize : (s.modQ q (fun r => { r with tail := v })).qSize q = s.qSize q := rfl
  rw [State.sqTail]
  simp [hsize, Nat.not_le.mpr h]

/-- A head that frees no more slots than the device has written is taken. -/
theorem State.cqHead_of_le (h : v < s.qSize q) (hfreed : ringDist (s.qSize q) (s.qr q).head v ≤ ringDist (s.qSize q) (s.qr q).head (s.cqTail q)) :
    s.cqHead q v = s.modQ q (fun r =>
      { r with cqDb := v, head := v, outstanding := r.outstanding - ringDist (s.qSize q) (s.qr q).head v }) := by
  have hgood : s.cqBad q v = false := by simp [State.cqBad, h, hfreed]
  simp only [State.cqHead, hgood, Bool.false_eq_true, if_false]

/-- An 8-byte write sets both doorbells. -/
theorem State.dbAccess_both_of_reaches (hvia : via ≠ none ∨ s.barOn = true) (hwarm : s.warm = false) (hreach : s.dbReaches via q = true)
    (hmode : s.qMode q ≠ 0) (one : State → Nat → State) (tail head : Nat) :
    s.dbAccess via q one (.both tail head) = (s.sqTail q (tail % 2 ^ 32)).cqHead q (head % 2 ^ 32) :=
  State.doorbell_of_reaches hvia hwarm hreach hmode (fun s => (s.sqTail q (tail % 2 ^ 32)).cqHead q (head % 2 ^ 32))

end Sys2Proof.Machine
end

section
open Sys2Proof.Machine

/-- Settles O21: a control write or a doorbell whose checks pass has the effect of its operation. It rests on the model's choices of
log 111. -/
theorem queueControl : Obligations.QueueControl := by
  unfold Obligations.QueueControl
  have hvia {via : Option (Fin 512)} {s : State} (h : via ≠ none ∨ s.barOn = true) : via.map Fin.val ≠ none ∨ s.barOn = true :=
    h.imp_left fun h => by simpa using h
  refine ⟨?enable, ?disable, ?restart, ?disabled, ?tail, ?head, ?both, fun _ _ _ => ⟨rfl, rfl⟩⟩
  case enable =>
    intro queue s htakes hcheck
    change Host.Outcome.next (s.barWrite (P.qCtl queue) 1 (fun s => s.qEnable queue)) = _
    rw [State.barWrite_of_takes htakes]
    simp only [State.qEnable, hcheck]
  case disable =>
    intro queue s htakes hmode
    change Host.Outcome.next (s.barWrite (P.qCtl queue) 2 (fun s => s.qDisable queue)) = _
    rw [State.barWrite_of_takes htakes, State.qDisable, if_neg hmode]
  case restart =>
    intro queue s u htakes hmode hdisabling hstays hserving hbme
    have hgo : (decide (s.qMode queue ≠ 2) || (s.qr queue).disabling || s.haltStays queue || !s.serving ||
        ((s.qr queue).needBme && !s.qBme queue)) = false := by
      simp only [hmode, hdisabling, hstays, hserving]
      rcases hbme with h | h <;> simp [h]
    change Host.Outcome.next (s.barWrite (P.qCtl queue) 3 (fun s => s.qRestart queue)) = _
    rw [State.barWrite_of_takes htakes]
    simp only [State.qRestart, hgo, Bool.false_eq_true, if_false, u]
  case disabled =>
    intro queue s hdisabling hcmds
    change Host.Outcome.next (s.qDisabled queue) = _
    rw [State.qDisabled, if_pos (by simp [hdisabling, hcmds])]
  case tail =>
    intro via queue value s hbar hwarm hreach hmode hvalue
    change Host.Outcome.next (s.doorbell (via.map Fin.val) queue (fun s => s.sqTail queue (value % 2 ^ 32))) = _
    rw [State.doorbell_of_reaches (hvia hbar) hwarm hreach hmode, State.sqTail_of_lt (Nat.lt_of_le_of_lt (Nat.mod_le _ _) hvalue)]
  case head =>
    intro via queue value s hbar hwarm hreach hmode hvalue hfreed
    change Host.Outcome.next (s.doorbell (via.map Fin.val) queue (fun s => s.cqHead queue (value % 2 ^ 32))) = _
    rw [State.doorbell_of_reaches (hvia hbar) hwarm hreach hmode, State.cqHead_of_le (Nat.lt_of_le_of_lt (Nat.mod_le _ _) hvalue) hfreed]
  case both =>
    intro via queue tail head s hbar hwarm hreach hmode
    exact ⟨congrArg _ (State.dbAccess_both_of_reaches (hvia hbar) hwarm hreach hmode _ tail head),
      congrArg _ (State.dbAccess_both_of_reaches (hvia hbar) hwarm hreach hmode _ tail head)⟩

end

section
/-! A queue's size and the sums of the slots (R221, R430). -/
namespace Sys2Proof.Machine

theorem State.uncount_par_other {j k : Nat} (h : j ≠ k) (s : State) (n : Nat) : (s.uncount k n).par j = s.par j :=
  State.par_setPar_other _ h _

/-- The sums of free and started slots are no queue's q_cfg. -/
theorem State.moveSlots_started_qSize (s : State) (q n : Nat) : (s.moveSlots P.qeStarted P.qeFree n).qSize q = s.qSize q := by
  have hfree : P.qCfg q ≠ P.qeFree := by unfold P.qCfg P.qeFree; omega
  have hstarted : P.qCfg q ≠ P.qeStarted := by unfold P.qCfg P.qeStarted; omega
  rw [State.qSize, State.moveSlots, State.count_par_other hfree, State.uncount_par_other hstarted, State.qSize]

end Sys2Proof.Machine
end

section
open Sys2Proof.Machine

/-- Settles O22: a grant, a start, a post and an interrupt run their operation. What the host or a ring in the device gives is an operand
(log 1); a message's address and data come with the table entry (log 25). -/
theorem queueFlow : Obligations.QueueFlow := by
  unfold Obligations.QueueFlow
  refine ⟨?hostRing, ?deviceRing, ?fence, ?post, ?coalesce, ?vectorSvc, ?vectorLd⟩
  case hostRing =>
    intro host ph q d s s1 n hgrant hring hhost
    have hfld : fld (s1.par (P.qCfg q)) 16 16 ≠ 1 := by
      change fld (s.par (P.qCfg q)) 16 16 ≠ 1
      rw [hring]; decide
    change execQueueFetch host ph s = _
    simp only [execQueueFetch, hgrant]
    change Host.Outcome.next (s1.fetchQueue q host ph) = _
    simp only [State.fetchQueue, if_neg hfld, hhost]
    rfl
  case deviceRing =>
    intro host ph q d s s1 n hgrant hring hok hread
    have hfld : fld (s1.par (P.qCfg q)) 16 16 = 1 := hring
    have hx : s1.ringRead (s1.par (P.qSqBase q) + 64 * s1.sqHead q) ph (s1.qHid q)
        (Nat.min (s1.fetchCount q) (s1.qSize q - s1.sqHead q)) = (some d, (s1.ringRead (s1.par (P.qSqBase q) + 64 * s1.sqHead q) ph
          (s1.qHid q) n).2) := Prod.ext hread rfl
    change execQueueFetch host ph s = _
    simp only [execQueueFetch, hgrant]
    change Host.Outcome.next (s1.fetchQueue q host ph) = _
    simp only [State.fetchQueue, if_pos hfld, hok, hx, Bool.not_true, Bool.false_eq_true, if_false]
    rfl
  case fence =>
    intro queue c cs s hcmds hphase hcheck
    have hpass : entryCheck c (s.qPriv queue) = 0 := hcheck.elim id id
    have hpriv : (s.modCmd (cmdKey queue c.idx) (fun c => { c with phase := 1 })).qPriv queue = s.qPriv queue := rfl
    change execFenceStart queue s = _
    simp only [execFenceStart, hcmds, if_pos hphase, hpriv, hpass, ne_eq, not_true_eq_false, if_false]
  case post =>
    intro queue ph c s u hheld hfind hmode hfree hhost hreach
    have hgo : (decide (s.qMode queue ≠ 1) || !s.cqFree queue || (fld (s.par (P.qCfg queue)) 17 17 == 0 && !s.qReach queue)) = false := by
      simp [hmode, hfree, hreach]
    have hdev : (fld (s.par (P.qCfg queue)) 17 17 == 1) = false := by rw [hhost]; decide
    change Host.Outcome.next (s.post queue ph) = _
    simp only [State.post, hheld, hfind, hgo, hdev, Option.map_some, Bool.not_true, Bool.false_eq_true, if_false,
      State.moveSlots_started_qSize]
    rfl
  case coalesce =>
    intro queue s hunsig hdelay hat
    change execCoalesceTimeout queue s = _
    rw [execCoalesceTimeout, if_pos ⟨hunsig, hdelay, hat⟩]
  case vectorSvc =>
    intro entry s u hbar
    change execMsixVectorUnmask none entry s = _
    simp only [execMsixVectorUnmask, hbar, Bool.not_true, Bool.false_eq_true, if_false]
    exact congrArg _ (ite_congr (propext (by simp [and_comm])) (fun _ => rfl) (fun _ => rfl))
  case vectorLd =>
    intro port entry s u hvector
    change execMsixVectorUnmask (some port) entry s = _
    simp only [execMsixVectorUnmask, if_neg (Nat.not_le.mpr hvector)]
    exact congrArg _ (ite_congr (propext (by simp [and_comm])) (fun _ => rfl) (fun _ => rfl))

end

section
/-! PACK and UNPACK over a range that every check passes (R229). -/
namespace Sys2Proof.Machine

variable {s : State} {c : Cmd} {ws : List Nat}

/-- A range of transparent windows whose checks pass is treated block by block. -/
theorem State.packRange_of_pass {h : Nat} {unpack : Bool} (hpos : c.d 2 ≠ 0) (hlen : c.d 2 % 4096 = 0) (haddr : c.d 1 % 4096 = 0)
    (hend : c.d 1 + c.d 2 ≤ dpaEnd) (hrange : s.rangeStatus (s.qHid (h / 65536)) (c.d 1) (c.d 2) true = 0)
    (hwins : s.rangeWins (c.d 1) (c.d 2) = some ws)
    (hkinds : ws.all (fun w => s.par (P.winKind w) == wTransparent && (!unpack || s.par (P.winResidency w) == 0)) = true) (ph : Phys) :
    s.packRange h c unpack ph =
      (let y := (s.leaseRange (s.qHid (h / 65536)) (c.d 1) (c.d 2)).eachBlock (fun s' b =>
        if (s'.viewFor (s.qHid (h / 65536)) (b * 4096) true).toOption.isSome then
          (if unpack then s'.unpackBlock ((s'.viewFor (s.qHid (h / 65536)) (b * 4096) true).toOption.getD .main) b ph
          else s'.packBlock ((s'.viewFor (s.qHid (h / 65536)) (b * 4096) true).toOption.getD .main) b ph)
        else some (false, s')) (c.d 1 / 4096) (c.d 2 / 4096)
      y.2.2.finish h (if y.2.1 then 0 else stCapacity) y.1 0) := by
  have hgo : ¬(c.d 2 = 0 ∨ c.d 2 % 4096 ≠ 0 ∨ c.d 1 % 4096 ≠ 0 ∨ dpaEnd < c.d 1 + c.d 2) := by omega
  have hall : (!((s.rangeWins (c.d 1) (c.d 2)).getD []).all (fun w => s.par (P.winKind w) == wTransparent &&
      (!unpack || s.par (P.winResidency w) == 0))) = false := by
    rw [hwins, Option.getD_some, hkinds, Bool.not_true]
  unfold State.packRange
  extract_lets hid a n one y
  have hone : one = fun s' b => if (s'.viewFor hid (b * 4096) true).toOption.isSome then
      (if unpack then s'.unpackBlock ((s'.viewFor hid (b * 4096) true).toOption.getD .main) b ph
      else s'.packBlock ((s'.viewFor hid (b * 4096) true).toOption.getD .main) b ph)
      else some (false, s') := by
    funext s' b
    simp only [one]
    cases s'.viewFor hid (b * 4096) true <;> rfl
  rw [if_neg hgo, if_neg (Classical.not_not.mpr hrange), if_neg (by rw [hall]; decide), hone]

end Sys2Proof.Machine
end

section
open Sys2Proof.Machine

/-- Settles O23: a started data mover whose checks pass does the named work, paid under its queue's class. -/
theorem dataMovers : Obligations.DataMovers := by
  unfold Obligations.DataMovers
  refine ⟨?device, ?fromHost, ?toHost, ?fill, ?pack, ?unpack, ?fit⟩
  case device =>
    intro queue idx env c s k hid a z n r1 r2 x y hruns hlen ha hz haend hzend hoverlaps hread hwrite hr1 hr2
    have hgo : (!lenOk (c.d 3) || decide (c.d 1 % 64 ≠ 0) || decide (c.d 2 % 64 ≠ 0) ||
        decide (dpaEnd < c.d 1 + c.d 3 ∨ dpaEnd < c.d 2 + c.d 3) || overlaps (c.d 1) (c.d 3) (c.d 2) (c.d 3)) = false := by
      have hends : ¬(dpaEnd < c.d 1 + c.d 3 ∨ dpaEnd < c.d 2 + c.d 3) := by omega
      simp only [show lenOk (c.d 3) = true from hlen, show c.d 1 % 64 = 0 from ha, show c.d 2 % 64 = 0 from hz, hends,
        show overlaps (c.d 1) (c.d 3) (c.d 2) (c.d 3) = false from hoverlaps]
      decide
    have hx1 : s.cohReady (c.d 1) (c.d 3) false = (true, r1.2) := Prod.ext hr1 rfl
    have hx2 : r1.2.cohReady (c.d 2) (c.d 3) true = (true, r2.2) := Prod.ext hr2 rfl
    have hread' : s.rangeStatus (s.qHid (cmdKey queue idx / 65536)) (c.d 1) (c.d 3) false = 0 := hread
    have hwrite' : s.rangeStatus (s.qHid (cmdKey queue idx / 65536)) (c.d 2) (c.d 3) true = 0 := hwrite
    change Host.Outcome.next (s.runMove queue idx 0x01 0 _) = _
    rw [State.runMove_of_runs hruns]
    simp only [State.copyDevice, hgo, hread', hwrite', hx1, hx2, ne_eq, not_true_eq_false, Bool.and_self, Bool.not_true,
      Bool.false_eq_true, if_false]
    rfl
  case fromHost =>
    intro queue idx d ph slots c s k hid z n r y hruns hlen ha hz hzend hwrite hr
    have hend : ¬dpaEnd < c.d 2 + c.d 3 := Nat.not_lt.mpr hzend
    have hgo : (!lenOk (c.d 3) || decide (c.d 1 % 64 ≠ 0) || decide (c.d 2 % 64 ≠ 0) || decide (dpaEnd < c.d 2 + c.d 3)) = false := by
      simp only [show lenOk (c.d 3) = true from hlen, ha, show c.d 2 % 64 = 0 from hz, hend]
      decide
    have hx : s.cohReady (c.d 2) (c.d 3) true = (true, r.2) := Prod.ext hr rfl
    have hwrite' : s.rangeStatus (s.qHid (cmdKey queue idx / 65536)) (c.d 2) (c.d 3) true = 0 := hwrite
    change Host.Outcome.next (s.runMove queue idx 0x01 1 _) = _
    rw [State.runMove_of_runs hruns]
    simp only [State.copyFromHost, hgo, hwrite', hx, ne_eq, not_true_eq_false, Bool.not_true, Bool.false_eq_true, if_false]
    rfl
  case toHost =>
    intro queue idx env c s k hid a n r x hruns hlen hz ha haend hread hr
    have hend : ¬dpaEnd < c.d 1 + c.d 3 := Nat.not_lt.mpr haend
    have hgo : (!lenOk (c.d 3) || decide (c.d 2 % 64 ≠ 0) || decide (c.d 1 % 64 ≠ 0) || decide (dpaEnd < c.d 1 + c.d 3)) = false := by
      simp only [show lenOk (c.d 3) = true from hlen, hz, show c.d 1 % 64 = 0 from ha, hend]
      decide
    have hx : s.cohReady (c.d 1) (c.d 3) false = (true, r.2) := Prod.ext hr rfl
    have hread' : s.rangeStatus (s.qHid (cmdKey queue idx / 65536)) (c.d 1) (c.d 3) false = 0 := hread
    change Host.Outcome.next (s.runMove queue idx 0x01 2 _) = _
    rw [State.runMove_of_runs hruns]
    simp only [State.copyToHost, hgo, hread', hx, ne_eq, not_true_eq_false, Bool.not_true, Bool.false_eq_true, if_false]
    rfl
  case fill =>
    intro queue idx env c s k hid z n r y hruns hlen hz hzend hwrite hr
    have hend : ¬dpaEnd < c.d 1 + c.d 2 := Nat.not_lt.mpr hzend
    have hgo : (!lenOk (c.d 2) || decide (c.d 1 % 64 ≠ 0) || decide (dpaEnd < c.d 1 + c.d 2)) = false := by
      simp only [show lenOk (c.d 2) = true from hlen, show c.d 1 % 64 = 0 from hz, hend]
      decide
    have hx : s.cohReady (c.d 1) (c.d 2) true = (true, r.2) := Prod.ext hr rfl
    have hwrite' : s.rangeStatus (s.qHid (cmdKey queue idx / 65536)) (c.d 1) (c.d 2) true = 0 := hwrite
    change Host.Outcome.next (s.runMove queue idx 0x02 0 _) = _
    rw [State.runMove_of_runs hruns]
    simp only [State.fillRange, hgo, hwrite', hx, ne_eq, not_true_eq_false, Bool.not_true, Bool.false_eq_true, if_false]
    rfl
  case pack =>
    intro queue idx ph c ws s k hid a n y hruns hpos hlen haddr hend hrange hwins hkinds
    change Host.Outcome.next (s.runMove queue idx 0x03 0 _) = _
    rw [State.runMove_of_runs hruns, State.packRange_of_pass (unpack := false) hpos hlen haddr hend hrange hwins (by simpa using hkinds)]
    rfl
  case unpack =>
    intro queue idx ph c ws s k hid a n y hruns hpos hlen haddr hend hrange hwins hkinds
    change Host.Outcome.next (s.runMove queue idx 0x04 0 _) = _
    rw [State.runMove_of_runs hruns, State.packRange_of_pass (unpack := true) hpos hlen haddr hend hrange hwins (by simpa using hkinds)]
    rfl
  case fit =>
    intro queue idx env c s k hid r x hruns hsize haddr hlen hmin hmax hout hend hoend hforce hread hwrite hr
    have hgo : (decide (c.d 2 % 2 ^ 21 ≠ 0) || decide (c.d 3 % 4096 ≠ 0) || decide (c.d 4 % 4096 ≠ 0) ||
        decide (c.d 4 < 4096 ∨ 2 ^ 30 < c.d 4) || decide (c.d 5 % 128 ≠ 0) ||
        decide (dpaEnd < c.d 3 + c.d 4 ∨ dpaEnd < c.d 5 + 128) || !(Tab.get (c.d 1) s.own.parts).inForce) = false := by
      have hlens : ¬(c.d 4 < 4096 ∨ 2 ^ 30 < c.d 4) := by omega
      have hends : ¬(dpaEnd < c.d 3 + c.d 4 ∨ dpaEnd < c.d 5 + 128) := by omega
      simp only [hsize, haddr, hlen, hlens, hout, hends, hforce]
      decide
    have hx : s.cohReady (c.d 5) 128 true = (true, r.2) := Prod.ext hr rfl
    have hread' : s.rangeStatus (s.qHid (cmdKey queue idx / 65536)) (c.d 3) (c.d 4) false = 0 := hread
    have hwrite' : s.rangeStatus (s.qHid (cmdKey queue idx / 65536)) (c.d 5) 128 true = 0 := hwrite
    have hexec : exec (.fitEstimate queue idx env) s = .next ((s.fitEstimate k c env).paid s queue) :=
      congrArg _ (State.runMove_of_runs hruns _)
    rw [hexec]
    unfold State.fitEstimate
    extract_lets hid' n p blocks
    have hsample : ((r.2.leaseRange hid' (c.d 3) (c.d 4)).leaseRange hid' (c.d 5) 128).sampleAll hid' (c.d 3 / 4096) env
        { frames := [], counted := 0, low := 0 } (c.d 4 / 4096) = (x.1, x.2) := rfl
    rw [if_neg (by rw [hgo]; decide), if_neg (Classical.not_not.mpr hread), if_neg (Classical.not_not.mpr hwrite), hx]
    dsimp -zeta only
    rw [if_neg (by decide), hsample]
    dsimp -zeta only
    constructor
    · intro hcount
      rw [if_pos hcount]
    · intro hcount
      rw [if_neg hcount]
      extract_lets
      exact ⟨_, _, rfl⟩

end

section
/-! A step whose checks pass starts (R174). -/
namespace Sys2Proof.Machine

theorem State.optStep_of_pass {s : State} {h : Nat} {c : Cmd} {env : Env} (hcheck : s.stepCheck h c.step = 0)
    (hready : (s.stepReady c.step).1 = true)
    (hclean : ((s.stepReady c.step).2.rangeAtHub ((s.stepReady c.step).2.qHid (h / 65536)) (c.step.hyper * 4096) 64 env).1.2 = [])
    (hzero : allZero (((s.stepReady c.step).2.rangeAtHub ((s.stepReady c.step).2.qHid (h / 65536)) (c.step.hyper * 4096) 64 env).1.1.drop
      0x2C) = true)
    (hbusy : ((s.stepReady c.step).2.rangeAtHub ((s.stepReady c.step).2.qHid (h / 65536)) (c.step.hyper * 4096) 64 env).2.stepBusy
      c.step = false) :
    s.optStep h c env =
      ((s.stepReady c.step).2.rangeAtHub ((s.stepReady c.step).2.qHid (h / 65536)) (c.step.hyper * 4096) 64 env).2.stepStart h c.step
        ((s.stepReady c.step).2.rangeAtHub ((s.stepReady c.step).2.qHid (h / 65536)) (c.step.hyper * 4096) 64 env).1.1 env := by
  have hr : s.stepReady c.step = (true, (s.stepReady c.step).2) := Prod.ext hready rfl
  unfold State.optStep
  extract_lets o st
  rw [if_neg (Classical.not_not.mpr hcheck), hr]
  simp only [o, hclean, hzero, hbusy, List.isEmpty_nil, Bool.not_true, Bool.and_false, Bool.false_eq_true, if_false]

end Sys2Proof.Machine
end

section
open Sys2Proof.Machine

/-- Settles O24: each kernel's step starts where its checks pass; a retired or flagged work tile goes on. It rests on the model's
choices of log 63, 64 and 107. -/
theorem optSteps : Obligations.OptSteps := by
  unfold Obligations.OptSteps
  refine ⟨?sgd, ?adamw, ?sign, ?projected, ?retire, ?replay⟩
  case sgd =>
    intro queue idx env c s k r x hruns hcheck hready hclean hzero hbusy
    change Host.Outcome.next (s.runMove queue idx 0x10 0 _) = _
    rw [State.runMove_of_runs hruns, State.optStep_of_pass hcheck hready hclean hzero hbusy]
  case adamw =>
    intro queue idx env c s k r x hruns hcheck hready hclean hzero hbusy
    change Host.Outcome.next (s.runMove queue idx 0x10 1 _) = _
    rw [State.runMove_of_runs hruns, State.optStep_of_pass hcheck hready hclean hzero hbusy]
  case sign =>
    intro queue idx env c s k r x hruns hcheck hready hclean hzero hbusy
    change Host.Outcome.next (s.runMove queue idx 0x10 2 _) = _
    rw [State.runMove_of_runs hruns, State.optStep_of_pass hcheck hready hclean hzero hbusy]
  case projected =>
    intro queue idx env c s k r x hruns hcheck hready hclean hzero hbusy
    change Host.Outcome.next (s.runMove queue idx 0x10 3 _) = _
    rw [State.runMove_of_runs hruns, State.optStep_of_pass hcheck hready hclean hzero hbusy]
  case retire =>
    intro region block context s hruns haway hwoke
    change execWorkTileRetire region block context s = _
    simp only [execWorkTileRetire, hruns, haway, hwoke, Bool.not_false, Bool.and_self, if_true]
  case replay =>
    intro flag f j tile s hflag hwork hran
    change Host.Outcome.next (s.stepReplay flag) = _
    simp only [State.stepReplay, hflag, hwork, hran, Bool.false_eq_true, if_false]

end

section
open Sys2Proof.Machine

/-- Settles O25: each command of the commit protocol takes the branch that the job's state and step name. It rests on the model's
choices of log 64. -/
theorem milestones : Obligations.Milestones := by
  unfold Obligations.Milestones
  refine ⟨?prepare, ?prepared, ?commit, ?again, ?abort, ?base, ?release⟩
  case prepare =>
    intro queue idx c s k j hruns hforeign hnext hmode
    have hnext : c.d 1 = s.par (P.jobCommitted (fld (c.d 2) 15 0)) + 1 := hnext
    have hmode : s.jobMode (fld (c.d 2) 15 0) = 1 ∨ s.jobMode (fld (c.d 2) 15 0) = 2 := hmode
    have hrefuse : ¬(c.d 1 ≠ s.par (P.jobCommitted (fld (c.d 2) 15 0)) + 1 ∨ s.jobMode (fld (c.d 2) 15 0) = 0) := by omega
    have hmine : s.jobForeign (cmdKey queue idx) (fld (c.d 2) 15 0) = false := hforeign
    change Host.Outcome.next (s.runCmd queue idx 0x11 0 _) = _
    rw [State.runCmd_of_runs hruns]
    simp only [State.prepareCmd, hmine, Bool.false_eq_true, if_false, if_neg hrefuse]
    rw [if_neg (by omega), if_neg (by omega)]
  case prepared =>
    intro job s hmode hdone hflags
    change Host.Outcome.next (s.prepared job) = _
    rw [State.prepared, if_pos ⟨hmode, hdone, by simp [hflags]⟩]
  case commit =>
    intro queue idx c s k j hruns hforeign hnext hmode
    have hnext : c.d 1 = s.par (P.jobCommitted (fld (c.d 2) 15 0)) + 1 := hnext
    have hmode : s.jobMode (fld (c.d 2) 15 0) = 3 := hmode
    have hmine : s.jobForeign (cmdKey queue idx) (fld (c.d 2) 15 0) = false := hforeign
    change Host.Outcome.next (s.runCmd queue idx 0x12 0 _) = _
    rw [State.runCmd_of_runs hruns]
    simp only [State.commitCmd, hmine, Bool.false_eq_true, if_false]
    rw [if_neg (by omega), if_pos ⟨hnext, hmode⟩]
  case again =>
    intro queue idx c s k j hruns hforeign hsame
    have hmine : s.jobForeign (cmdKey queue idx) (fld (c.d 2) 15 0) = false := hforeign
    change Host.Outcome.next (s.runCmd queue idx 0x12 0 _) = _
    rw [State.runCmd_of_runs hruns]
    simp only [State.commitCmd, hmine, Bool.false_eq_true, if_false]
    rw [if_pos hsame]
  case abort =>
    intro queue idx c s k j s1 s2 hruns hforeign hnext hmode
    have hnext : c.d 1 = s.par (P.jobCommitted (fld (c.d 2) 15 0)) + 1 := hnext
    have hmode : s.jobMode (fld (c.d 2) 15 0) ≠ 0 := hmode
    have hrefuse : ¬(c.d 1 ≠ s.par (P.jobCommitted (fld (c.d 2) 15 0)) + 1 ∨ s.jobMode (fld (c.d 2) 15 0) = 0) := by omega
    have hmine : s.jobForeign (cmdKey queue idx) (fld (c.d 2) 15 0) = false := hforeign
    change Host.Outcome.next (s.runCmd queue idx 0x13 0 _) = _
    rw [State.runCmd_of_runs hruns]
    simp only [State.abortCmd, hmine, Bool.false_eq_true, if_false, if_neg hrefuse]
    rfl
  case base =>
    intro job value s htakes
    exact congrArg _ (State.barWrite_of_takes htakes _)
  case release =>
    intro job value s htakes
    exact congrArg _ (State.barWrite_of_takes htakes _)

end

section
/-! Reads for a reduction leave the always-on clock. -/
namespace Sys2Proof.Machine

theorem State.hostRead_now (s : State) (q tok addr n : Nat) : (s.hostRead q tok addr n).now = s.now :=
  (State.hostRead_keeps (F := [.out, .ports, .svc]) (.refl _) .rfl).same (p := .now) (by decide)

theorem State.rangeAtHub_now (s : State) (hid dpa n : Nat) (env : Env) : (s.rangeAtHub hid dpa n env).2.now = s.now :=
  (State.rangeAtHub_keeps (F := [.dict, .hbm, .mem, .arb, .out, .freeCtr, .fac, .jobs, .shared, .ports, .svc, .reg, .stackTab, .media,
    .recov, .power, .glody]) (.refl _) .rfl).same (p := .now) (by decide)

end Sys2Proof.Machine
end

section
open Sys2Proof.Machine

/-- Settles O26: a reduction opens, takes, rounds and ends by the named operations where their checks pass. It rests on the model's
choices of log 66 and 94. -/
theorem reductions : Obligations.Reductions := by
  unfold Obligations.Reductions
  refine ⟨?opened, ?fromHost, ?fromDevice, ?cancel, fun _ => rfl, ?taken, ?written, ?front, ?timeout⟩
  case opened =>
    intro queue idx env c s k hid o r x hruns hopen hfields hdest hmap hwindow hready hclean hbits
    have hx : s.cohReady (o.bitmap / 64 * 64) 64 false = (true, r.2) := Prod.ext hready rfl
    have hread : r.2.rangeAtHub hid (o.bitmap / 64 * 64) 64 env = ((x.1.1, []), x.2) := Prod.ext (Prod.ext rfl hclean) rfl
    have honDest : (if o.consumed then 0 else s.rangeStatus hid o.dest o.destBytes true) = 0 := by
      rcases hdest with h | h <;> simp [h]
    have hexec : exec (.reduceOpen queue idx env) s = .next ((s.reduceOpen k c env).paid s queue) :=
      congrArg _ (State.runMove_of_runs hruns _)
    refine ⟨_, o.fresh (ofLe (cut (o.bitmap % 64) 32 x.1.1)) k hid r.2.now, hexec.trans ?_, rfl, rfl, rfl, rfl, rfl, rfl, rfl, rfl, rfl⟩
    congr 2
    unfold State.reduceOpen
    extract_lets hid' line onDest onMap
    have hmap' : onMap = 0 := hmap
    have hdest' : onDest = 0 := honDest
    rw [if_neg (Bool.eq_false_iff.mp hopen), if_neg (by rw [show s.redFields o = true from hfields]; decide), if_neg (Classical.not_not.mpr hmap'),
      show s.cohReady line 64 false = (true, r.2) from hx]
    dsimp -zeta only
    rw [if_neg (by decide), show r.2.rangeAtHub hid' line 64 env = ((x.1.1, []), x.2) from hread]
    dsimp -zeta only
    extract_lets bits
    have hnamed : (([] : List Nat).isEmpty && bits == 0) = false := by simp only [List.isEmpty_nil, Bool.true_and]; exact beq_eq_false_iff_ne.mpr hbits
    rw [if_neg (Bool.eq_false_iff.mp hnamed), if_neg (Classical.not_not.mpr hdest'), if_neg (Classical.not_not.mpr hmap'), if_neg (by rw [hwindow]; exact Bool.false_ne_true),
      if_neg (by decide)]
  case fromHost =>
    intro queue idx d ph slots c s k hid n bytes hruns hopen hsrc hcount hrange haddr hbit hfresh hhost
    have hexec : exec (.reduceContrib queue idx { ph := ph, host := .data d, slots := slots }) s =
      .next ((s.reduceContrib k c { ph := ph, host := .data d, slots := slots }).paid s queue) := congrArg _ (State.runMove_of_runs hruns _)
    rw [hexec]
    unfold State.reduceContrib
    extract_lets q' hid' host' first cnt a r' bytes'
    have hhost' : host' = true := by simp only [host', hhost]; decide
    have hgo : ¬(cnt = 0 ∨ r'.tileCount < first + cnt ∨ a % 64 ≠ 0 ∨ (host' = false ∧ dpaEnd < a + bytes')) := by
      simp only [hhost', not_or, Classical.not_not, Nat.not_lt]
      exact ⟨hcount, hrange, haddr, by simp⟩
    have hmine : (!r'.bitmap.testBit hid' || (Tab.keys r'.tiles ++ Tab.keys r'.rounded).any (fun z =>
        decide (first ≤ z ∧ z < first + cnt) && r'.hidDone z hid')) = false := by
      rw [show r'.bitmap.testBit hid' = true from hbit, show (Tab.keys r'.tiles ++ Tab.keys r'.rounded).any _ = false from hfresh]
      decide
    rw [if_neg (by rw [show s.redOpen n = true from hopen]; decide), if_neg (Classical.not_not.mpr hsrc), if_neg hgo, if_neg (by simp [hhost']),
      if_neg (Bool.eq_false_iff.mp hmine), if_pos hhost']
    dsimp -zeta only
    rw [if_neg (by decide), if_pos hhost']
    dsimp only
    rw [State.hostRead_now]
  case fromDevice =>
    intro queue idx env c s k hid n bytes r x hruns hopen hsrc hcount hrange haddr hbit hfresh hdev hend hright hready hclean
    have hexec : exec (.reduceContrib queue idx env) s = .next ((s.reduceContrib k c env).paid s queue) :=
      congrArg _ (State.runMove_of_runs hruns _)
    rw [hexec]
    unfold State.reduceContrib
    extract_lets q' hid' host' first cnt a r' bytes'
    have hhost' : host' = false := by simp only [host', hdev]; decide
    have hgo : ¬(cnt = 0 ∨ r'.tileCount < first + cnt ∨ a % 64 ≠ 0 ∨ (host' = false ∧ dpaEnd < a + bytes')) := by
      simp only [not_or, Classical.not_not, Nat.not_lt, not_and]
      exact ⟨hcount, hrange, haddr, fun _ => hend⟩
    have hmine : (!r'.bitmap.testBit hid' || (Tab.keys r'.tiles ++ Tab.keys r'.rounded).any (fun z =>
        decide (first ≤ z ∧ z < first + cnt) && r'.hidDone z hid')) = false := by
      rw [show r'.bitmap.testBit hid' = true from hbit, show (Tab.keys r'.tiles ++ Tab.keys r'.rounded).any _ = false from hfresh]
      decide
    have hr : s.cohReady a bytes' false = (true, r.2) := Prod.ext hready rfl
    have hx : r.2.rangeAtHub hid' a bytes' env = ((x.1.1, []), x.2) := Prod.ext (Prod.ext rfl hclean) rfl
    have hnow : x.2.now = r.2.now := State.rangeAtHub_now _ _ _ _ _
    rw [if_neg (by rw [show s.redOpen n = true from hopen]; decide), if_neg (Classical.not_not.mpr hsrc), if_neg hgo,
      if_neg (by rw [show s.rangeStatus hid' a bytes' false = 0 from hright]; simp),
      if_neg (Bool.eq_false_iff.mp hmine), if_neg (Bool.eq_false_iff.mp hhost'), hr]
    dsimp -zeta only
    rw [if_neg (by decide), if_neg (Bool.eq_false_iff.mp hhost'), hx]
    dsimp -zeta only
    rw [hnow]
  case cancel =>
    intro queue idx c s k n hruns hopen hright
    have hopen' : s.redOpen (fld (c.d 1) 7 0) = true := hopen
    have hmay : ¬((s.red (fld (c.d 1) 7 0)).hid ≠ s.qHid (cmdKey queue idx / 65536) ∧ !s.qPriv (cmdKey queue idx / 65536)) := by
      rcases hright with h | h
      · exact fun hne => hne.1 h
      · rw [show s.qPriv (cmdKey queue idx / 65536) = true from h]
        exact fun hne => absurd hne.2 (by decide)
    change Host.Outcome.next (s.runCmd queue idx 0x14 2 _) = _
    rw [State.runCmd_of_runs hruns]
    simp only [State.reduceCancel, hopen', Bool.not_true, Bool.false_eq_true, if_false, if_neg hmay]
    rfl
  case taken =>
    intro reduction env z s x hopen hnext hdest
    change Host.Outcome.next (State.paid (s.tileRound reduction env) s _) = _
    simp only [State.tileRound, hopen, hnext, hdest, Bool.not_true, Bool.false_eq_true, if_true, if_false]
    rfl
  case written =>
    intro reduction env z s y x hopen hnext hdest hready
    have hy : s.cohReady ((s.red reduction).dest - 1 + z * 65536 * (s.red reduction).wOut) ((s.red reduction).elems z *
      (s.red reduction).wOut) true = (true, y.2) := Prod.ext hready rfl
    change Host.Outcome.next (State.paid (s.tileRound reduction env) s _) = _
    simp only [State.tileRound, hopen, hnext, hdest, hy, Bool.not_true, Bool.false_eq_true, if_true, if_false]
    rfl
  case front =>
    intro reduction s hopen hwaits
    change execReduceFrontTimeout reduction s = _
    simp only [execReduceFrontTimeout, hopen, hwaits, Bool.and_self, if_true]
  case timeout =>
    intro reduction s hopen hadvanced
    change execReduceTimeout reduction s = _
    simp only [execReduceTimeout, hopen, hadvanced, decide_true, Bool.and_self, if_true]

end

section
/-! A drain whose checks pass goes on with its blocks (R194, R196). -/
namespace Sys2Proof.Machine

/-- The state in which a drain of job `j` has taken up to `count` further blocks. -/
def State.drained (s : State) (h j base count : Nat) (env : Env) : State :=
  (s.modFreeze j (fun f => { f with drain := { f.drain with cmd := h + 1 } })).drainRun j (s.qHid (h / 65536)) base env count

theorem State.ckptDrain_of_pass {s : State} {h : Nat} {c : Cmd}
    (hfree : (s.job (fld (c.d 1) 15 0)).freeze.drain.cmd = 0 ∨ (s.job (fld (c.d 1) 15 0)).freeze.drain.cmd = h + 1)
    (hon : (s.job (fld (c.d 1) 15 0)).freeze.on = true) (hbase : c.d 2 % 2 ^ 21 = 0)
    (hlen : 4096 * (s.job (fld (c.d 1) 15 0)).freeze.blocks + 4096 ≤ c.d 3) (hbme : s.svc.bme = true) (hdl : s.svc.dl = true)
    (hstate : s.svc.dstate = 0) (hbroken : (s.job (fld (c.d 1) 15 0)).freeze.broken = false) (count : Nat) (env : Env) :
    s.ckptDrain h c count env =
      if ((s.drained h (fld (c.d 1) 15 0) (c.d 2) count env).job (fld (c.d 1) 15 0)).freeze.drain.pos <
          ((s.drained h (fld (c.d 1) 15 0) (c.d 2) count env).job (fld (c.d 1) 15 0)).freeze.blocks
        then s.drained h (fld (c.d 1) 15 0) (c.d 2) count env
        else (s.drained h (fld (c.d 1) 15 0) (c.d 2) count env).drainEnd (fld (c.d 1) 15 0) h (c.d 2) env.host := by
  unfold State.ckptDrain
  extract_lets j base f u
  have hmine : ¬(f.drain.cmd ≠ 0 ∧ f.drain.cmd ≠ h + 1) := fun hne => hfree.elim hne.1 hne.2
  have hsound : (!f.on || decide (base % 2 ^ 21 ≠ 0) || decide (c.d 3 < 4096 * f.blocks + 4096)) = false := by
    rw [show f.on = true from hon, show base % 2 ^ 21 = 0 from hbase, decide_eq_false (Nat.not_lt.mpr hlen)]
    decide
  have hlink : (!s.svc.bme || !s.svc.dl) = false := by rw [hbme, hdl]; decide
  rw [if_neg hmine, if_neg (Bool.eq_false_iff.mp hsound), if_neg (Bool.eq_false_iff.mp hlink), if_neg (Bool.eq_false_iff.mp hbroken),
    if_neg (Classical.not_not.mpr (show u.svc.dstate = 0 from hstate))]
  rfl

end Sys2Proof.Machine
end

section
open Sys2Proof.Machine

/-- Settles O27: a freeze, a release and a drain whose checks pass do the named work. It rests on the model's choices of log 65. -/
theorem checkpoints : Obligations.Checkpoints := by
  unfold Obligations.Checkpoints
  refine ⟨?freeze, ?release, ?drain, ?trailer⟩
  case freeze =>
    intro queue idx env c s k hid j a x rs fz hruns hmin hmax hslot halign hend hoff hmode hclean hranges
    have hexec : exec (.ckptFreeze queue idx env) s = .next ((s.ckptFreeze k c env).paid s queue) :=
      congrArg _ (State.runMove_of_runs hruns _)
    have hsound : ¬(c.d 3 = 0 ∨ 64 < c.d 3 ∨ (256 ≤ fld (c.d 1) 31 16 ∧ fld (c.d 1) 31 16 ≠ 0xFFFF) ∨ c.d 2 % 64 ≠ 0 ∨
        dpaEnd < c.d 2 + 16 * c.d 3) := by omega
    have hfree : ((s.job (fld (c.d 1) 15 0)).freeze.on || s.jobMode (fld (c.d 1) 15 0) == 4) = false := by
      rw [show (s.job (fld (c.d 1) 15 0)).freeze.on = false from hoff, Bool.false_or]
      exact beq_eq_false_iff_ne.mpr hmode
    have hread : s.rangeAtHub (s.qHid (k / 65536)) (c.d 2 / 64 * 64) (cdiv (c.d 2 - c.d 2 / 64 * 64 + 16 * c.d 3) 64 * 64) env =
      ((x.1.1, []), x.2) := Prod.ext (Prod.ext rfl hclean) rfl
    have hall : (rangesOf (c.d 3) (x.1.1.drop (c.d 2 - c.d 2 / 64 * 64))).all (fun r =>
      r.1 % 4096 == 0 && r.2 % 4096 == 0 && decide (r.1 + r.2 ≤ dpaEnd)) = true := hranges
    rw [hexec]
    simp only [State.ckptFreeze, if_neg hsound, hfree, hread, hall, List.isEmpty_nil, Bool.not_true, Bool.or_self, Bool.false_eq_true, if_false]
    rfl
  case release =>
    intro queue idx c s k j hruns hon
    have hexec : exec (.ckptFreezeRelease queue idx) s = .next (s.ckptRelease k c) := congrArg _ (State.runCmd_of_runs hruns _)
    rw [hexec, State.ckptRelease]
    simp only [show (s.job (fld (c.d 1) 15 0)).freeze.on = true from hon, Bool.not_true, Bool.false_eq_true, if_false]
    rfl
  case drain =>
    intro queue idx count env c s k hid j fz u hruns hfree hon hbase hlen hbme hdl hstate hbroken hleft
    have hleft : ((s.drained k (fld (c.d 1) 15 0) (c.d 2) count env).job (fld (c.d 1) 15 0)).freeze.drain.pos <
      ((s.drained k (fld (c.d 1) 15 0) (c.d 2) count env).job (fld (c.d 1) 15 0)).freeze.blocks := hleft
    have hexec : exec (.ckptDrain queue idx count env) s = .next ((s.ckptDrain k c count env).paid s queue) :=
      congrArg _ (State.runMove_of_runs hruns _)
    rw [hexec, State.ckptDrain_of_pass hfree hon hbase hlen hbme hdl hstate hbroken, if_pos hleft]
    rfl
  case trailer =>
    intro queue idx count ph d slots c s k hid j fz u g y hruns hfree hon hbase hlen hbme hdl hstate hbroken hdone hblocks
    have hdone : ¬((s.drained k (fld (c.d 1) 15 0) (c.d 2) count ⟨ph, .data d, slots⟩).job (fld (c.d 1) 15 0)).freeze.drain.pos <
      ((s.drained k (fld (c.d 1) 15 0) (c.d 2) count ⟨ph, .data d, slots⟩).job (fld (c.d 1) 15 0)).freeze.blocks := Nat.not_lt.mpr hdone
    have hexec : exec (.ckptDrain queue idx count ⟨ph, .data d, slots⟩) s =
      .next ((s.ckptDrain k c count ⟨ph, .data d, slots⟩).paid s queue) := congrArg _ (State.runMove_of_runs hruns _)
    rw [hexec, State.ckptDrain_of_pass hfree hon hbase hlen hbme hdl hstate hbroken, if_neg hdone]
    change Host.Outcome.next ((u.drainEnd j k (c.d 2) (.data d)).paid s queue) = _
    unfold State.drainEnd
    extract_lets pos flushed ended
    have hflush : flushed = u.drainFlush (c.d 2 + 4096 * g.blocks - 64) k := if_neg hblocks
    have hended : ended = y.thaw j := by simp only [ended, hflush, y]
    rw [hended]

end

section
/-! Fields above the one written, and a waypoint's words during a reset (R9, R118, R373). -/
namespace Sys2Proof.Machine

/-- A field above the one written stays. -/
theorem fld_setFld_above (v x : Nat) {hi lo hi' lo' : Nat} (h : lo ≤ hi + 1) (habove : hi < lo') :
    fld (setFld v hi lo x) hi' lo' = fld v hi' lo' := by
  have hpos := Nat.two_pow_pos lo
  have hfit : x % 2 ^ (hi + 1 - lo) * 2 ^ lo + v % 2 ^ lo < 2 ^ (hi + 1) := by
    calc x % 2 ^ (hi + 1 - lo) * 2 ^ lo + v % 2 ^ lo
      _ < x % 2 ^ (hi + 1 - lo) * 2 ^ lo + 2 ^ lo := Nat.add_lt_add_left (Nat.mod_lt v hpos) _
      _ = (x % 2 ^ (hi + 1 - lo) + 1) * 2 ^ lo := (Nat.succ_mul _ _).symm
      _ ≤ 2 ^ (hi + 1 - lo) * 2 ^ lo := Nat.mul_le_mul_right _ (Nat.mod_lt x (Nat.two_pow_pos _))
      _ = 2 ^ (hi + 1) := Nat.pow_sub_mul_pow 2 h
  have hsame : setFld v hi lo x / 2 ^ (hi + 1) = v / 2 ^ (hi + 1) := by
    rw [setFld_eq v x h, Nat.mul_add_div (Nat.two_pow_pos _), Nat.div_eq_of_lt hfit, Nat.add_zero]
  have hsplit : 2 ^ lo' = 2 ^ (hi + 1) * 2 ^ (lo' - (hi + 1)) := by rw [← Nat.pow_add, Nat.add_sub_cancel' habove]
  rw [fld, fld, Nat.shiftRight_eq_div_pow, Nat.shiftRight_eq_div_pow, hsplit, ← Nat.div_div_eq_div_mul, hsame, Nat.div_div_eq_div_mul]

/-- A waypoint's word tells nothing about a reset. -/
theorem State.setPar_wpWord_resetRuns (s : State) (e w v : Nat) : (s.setPar (P.wpWord e w) v).resetRuns = s.resetRuns := by
  have hne : P.devResetPhase ≠ P.wpWord e w := by unfold P.devResetPhase P.wpWord; omega
  simp only [State.resetRuns, State.warm, State.par_setPar_other _ hne, State.setPar_recov]

end Sys2Proof.Machine
end

section
open Sys2Proof.Machine

/-- Settles O28: an arm, a disarm and the staging of a tile run the named operations. It rests on the model's choices of log 90, 91, 92
and 93. -/
theorem waypoints : Obligations.Waypoints := by
  unfold Obligations.Waypoints
  refine ⟨?arm, ?disarm, ?writeArm, ?writeDisarm, ?staged⟩
  case arm =>
    intro queue idx c s k u hruns hreset harmed htier hlead hcount hmax
    have hexec : exec (.stageArm queue idx) s = .next (s.stageArm k c) := congrArg _ (State.runCmd_of_runs hruns _)
    have hsound : ¬(fld (c.d 4) 39 38 ≥ 2 ∨ fld (c.d 4) 26 19 = 0 ∨ fld (c.d 5) 60 32 = 0 ∨ 2 ^ 28 < fld (c.d 5) 60 32) := by omega
    rw [hexec]
    unfold State.stageArm
    extract_lets w w3 count v
    have hv : v.resetRuns = false := by simp only [v, State.setPar_wpWord_resetRuns, hreset]
    rw [if_neg (Bool.eq_false_iff.mp harmed), if_neg hsound, if_neg (Bool.eq_false_iff.mp hv), State.wpArm,
      if_neg (Bool.eq_false_iff.mp hv)]
    rfl
  case disarm =>
    intro queue idx c s k hruns
    exact congrArg _ (State.runCmd_of_runs hruns _)
  case writeArm =>
    intro waypoint value s v htakes hbit harmed
    change Host.Outcome.next (s.barWrite (P.wpWord waypoint 3) value (fun s => s.wpWrite waypoint value)) = _
    rw [State.barWrite_of_takes htakes]
    unfold State.wpWrite
    extract_lets was old
    rw [if_pos hbit, if_neg (Bool.eq_false_iff.mp (show was = false from harmed))]
  case writeDisarm =>
    intro waypoint value s htakes hbit harmed
    change Host.Outcome.next (s.barWrite (P.wpWord waypoint 3) value (fun s => s.wpWrite waypoint value)) = _
    rw [State.barWrite_of_takes htakes]
    unfold State.wpWrite
    extract_lets was old v
    have hv : fld v 47 47 = 0 := by
      rw [fld_setFld_above _ _ (by decide) (by decide), fld_setFld_above _ _ (by decide) (by decide), hbit]
    rw [if_neg (by rw [hv]; decide), if_pos (show was = true from harmed)]
  case staged =>
    intro waypoint env i w s s1 hstate hnext hwin hok
    have hx : s.stageTile waypoint i env = (true, s1.2) := Prod.ext hok rfl
    change Host.Outcome.next (s.wpStage waypoint env) = _
    unfold State.wpStage
    rw [if_neg (by omega)]
    simp only [hnext, hwin, hx, Bool.not_true, Bool.false_eq_true, if_false]

end

section
/-! Version commands whose checks pass (R203, R206). -/
namespace Sys2Proof.Machine

variable {s : State} {k : Nat} {c : Cmd}

theorem State.openRead_of_pass {latest : Bool} {v : Nat} (hv : (if latest then s.par (P.srLatest (fld (c.d 1) 7 0)) else fld (c.d 2) 31 0) = v)
    (hcheck : s.openCheck (fld (c.d 1) 7 0) (s.qHid (k / 65536)) = 0) (hlive : s.liveVer (fld (c.d 1) 7 0) v = true) :
    s.openRead k c latest = ((s.leaseTouch (fld (c.d 1) 7 0) (s.qHid (k / 65536))).withRefs (fld (c.d 1) 7 0) (fun s' =>
      s'.bindRead (fld (c.d 1) 7 0) (s.qHid (k / 65536)) v)).finish k 0 v 0 := by
  unfold State.openRead
  extract_lets h n v' code
  have hv' : v' = v := hv
  rw [if_neg (Classical.not_not.mpr (show code = 0 from hcheck)), hv', if_neg (by rw [show s.liveVer n v = true from hlive]; decide)]

theorem State.openWrite_of_pass {latest : Bool} {v : Nat} (hv : (if latest then s.par (P.srLatest (fld (c.d 1) 7 0)) else fld (c.d 2) 31 0) = v)
    (hcheck : s.openCheck (fld (c.d 1) 7 0) (s.qHid (k / 65536)) = 0) (hlive : s.liveVer (fld (c.d 1) 7 0) v = true)
    (hroom : s.par (P.srLive (fld (c.d 1) 7 0)) < 16) :
    s.openWrite k c latest = ((s.leaseTouch (fld (c.d 1) 7 0) (s.qHid (k / 65536))).withRefs (fld (c.d 1) 7 0) (fun s' =>
      s'.bindWrite (fld (c.d 1) 7 0) (s.qHid (k / 65536)) v)).finish k 0 v 0 := by
  unfold State.openWrite
  extract_lets h n v' code
  have hv' : v' = v := hv
  rw [if_neg (Classical.not_not.mpr (show code = 0 from hcheck)), hv', if_neg (by rw [show s.liveVer n v = true from hlive]; decide),
    if_neg (Nat.not_le.mpr hroom)]

/-- A publish goes on where every check passes and, under CAS, the base is still the latest. -/
theorem State.publishCmd_of_pass {cas : Bool} {u : State} {o : OpenVer}
    (hu : u = (s.leaseTouch (fld (c.d 1) 7 0) (s.qHid (k / 65536))).settleOpen (fld (c.d 1) 7 0) (s.qHid (k / 65536)))
    (hcheck : s.publishCheck (fld (c.d 1) 7 0) (s.qHid (k / 65536)) = 0)
    (hbroken : u.isBroken (.opened (fld (c.d 1) 7 0) (s.qHid (k / 65536))) = false)
    (hopen : openOf (u.sr (fld (c.d 1) 7 0)) (s.qHid (k / 65536)) = some o)
    (hbase : cas = false ∨ o.base = u.par (P.srLatest (fld (c.d 1) 7 0))) :
    s.publishCmd k c cas =
      (let h := s.qHid (k / 65536)
       let n := fld (c.d 1) 7 0
       let v := (u.publish n h).1
       let t := (u.withRefs n (fun s => (s.publish n h).2.bindRead n h v)).bindAfter n h v (fld (c.d 1) 8 8 == 1)
       t.2.finish k 0 v (if t.1 then 4 else 0)) := by
  have hkeep : (cas && o.base != u.par (P.srLatest (fld (c.d 1) 7 0))) = false := by
    rcases hbase with h | h <;> simp [h]
  unfold State.publishCmd
  extract_lets h n cont code u' base v' published v t
  have hu' : u' = u := hu.symm
  have hb : base = o.base := by simp only [base, hu', n, h, hopen]
  rw [if_neg (Classical.not_not.mpr (show code = 0 from hcheck)), hu', hb, if_neg (Bool.eq_false_iff.mp hbroken), if_neg (Bool.eq_false_iff.mp hkeep)]
  simp only [published, v', v, t, hu', cont]

end Sys2Proof.Machine
end

section
open Sys2Proof.Machine

/-- Settles O29: opening, publishing and closing a version run the named change under the region's references. It rests on the model's
choices of log 68. -/
theorem versions : Obligations.Versions := by
  unfold Obligations.Versions
  refine ⟨?read, ?readLatest, ?write, ?writeLatest, ?unbound, ?publishPlain, ?publishCas, ?closed⟩
  case read =>
    intro queue idx c s k h n v hruns hcheck hlive
    change Host.Outcome.next (s.runCmd queue idx 0x18 0 _) = _
    rw [State.runCmd_of_runs hruns, State.openRead_of_pass (latest := false) (v := v) rfl hcheck hlive]
  case readLatest =>
    intro queue idx c s k h n v hruns hcheck hlive
    change Host.Outcome.next (s.runCmd queue idx 0x18 1 _) = _
    rw [State.runCmd_of_runs hruns, State.openRead_of_pass (latest := true) (v := v) rfl hcheck hlive]
  case write =>
    intro queue idx c s k h n v hruns hcheck hlive hroom
    change Host.Outcome.next (s.runCmd queue idx 0x18 2 _) = _
    rw [State.runCmd_of_runs hruns, State.openWrite_of_pass (latest := false) (v := v) rfl hcheck hlive hroom]
  case writeLatest =>
    intro queue idx c s k h n v hruns hcheck hlive hroom
    change Host.Outcome.next (s.runCmd queue idx 0x18 3 _) = _
    rw [State.runCmd_of_runs hruns, State.openWrite_of_pass (latest := true) (v := v) rfl hcheck hlive hroom]
  case unbound =>
    intro queue idx c s k h n hruns hcheck
    change Host.Outcome.next (s.runCmd queue idx 0x18 4 _) = _
    rw [State.runCmd_of_runs hruns, State.unbind]
    exact congrArg _ (if_neg (Classical.not_not.mpr hcheck))
  case publishPlain =>
    intro queue idx c o s k h n u v t hruns hcheck hbroken hopen
    change Host.Outcome.next (s.runCmd queue idx 0x19 0 _) = _
    rw [State.runCmd_of_runs hruns, State.publishCmd_of_pass (u := u) (cas := false) rfl hcheck hbroken hopen (.inl rfl)]
  case publishCas =>
    intro queue idx c o s k h n u v t hruns hcheck hbroken hopen hbase
    change Host.Outcome.next (s.runCmd queue idx 0x19 1 _) = _
    rw [State.runCmd_of_runs hruns, State.publishCmd_of_pass (u := u) (cas := true) rfl hcheck hbroken hopen (.inr hbase)]
  case closed =>
    intro queue idx c s k h n hruns hmine hon hversioned hgrant hdead hopen
    have hwho : (fld (c.d 1) 15 8 != s.qHid (cmdKey queue idx / 65536) && !s.qPriv (cmdKey queue idx / 65536)) = false := by
      rcases hmine with hmine | hpriv
      · simp [show fld (c.d 1) 15 8 = s.qHid (cmdKey queue idx / 65536) from hmine]
      · simp [show s.qPriv (cmdKey queue idx / 65536) = true from hpriv]
    have hgrant' : s.srGrant n (s.qHid (cmdKey queue idx / 65536)) rP = true := hgrant
    have hdead' : s.isDead n (s.qHid (cmdKey queue idx / 65536)) = false := hdead
    have hnone : (openOf (s.sr n) (fld (c.d 1) 15 8)).isNone = false := by simpa using hopen
    change Host.Outcome.next (s.runCmd queue idx 0x1A 0 _) = _
    rw [State.runCmd_of_runs hruns]
    unfold State.closeVersion
    extract_lets q t code
    have hcode : code = 0 := by
      simp only [code, firstCode_cons, firstCode_nil, q, t, hwho, hon, hversioned, hnone, hdead', hgrant',
        Bool.not_true, Bool.or_self, Bool.false_eq_true, if_false]
    rw [if_neg (Classical.not_not.mpr hcode)]

end

section
open Sys2Proof.Machine

/-- Settles O30: renewing, releasing, rejoining and declaring dead run the named change where their checks pass. It rests on the model's
choices of log 20 and 68. -/
theorem leasesAndDeaths : Obligations.LeasesAndDeaths := by
  unfold Obligations.LeasesAndDeaths
  refine ⟨?renewOne, ?renewAll, ?release, ?rejoin, ?expiry, ?declare, ?revive, ?grace⟩
  case renewOne =>
    intro queue idx c s k h r hruns hone hcheck hdead henable
    change Host.Outcome.next (s.runCmd queue idx 0x1B 0 _) = _
    rw [State.runCmd_of_runs hruns]
    unfold State.leaseRenew
    extract_lets rs code
    rw [if_neg hone, if_neg (Classical.not_not.mpr (show code = 0 from hcheck)),
      if_neg (by rw [show s.isDead r h = false from hdead]; decide), if_neg henable]
  case renewAll =>
    intro queue idx c ms s k h r rs hruns hall hmin
    have hmin' : ((s.srsOn.filter (fun n => s.par (P.srLeaseEnable n) == 1 && !s.isDead n (s.qHid (cmdKey queue idx / 65536)) &&
      s.srSome n (s.qHid (cmdKey queue idx / 65536)))).map (fun n => s.par (P.srLeaseMs n))).min? = some ms := hmin
    change Host.Outcome.next (s.runCmd queue idx 0x1B 0 _) = _
    rw [State.runCmd_of_runs hruns, State.leaseRenew, if_pos hall]
    simp only [hmin']
    rfl
  case release =>
    intro queue idx c s k h r hruns hcheck hdead hopen hlines
    have hnone : (s.dirIn r).filter (fun e => e.holders.contains h) = [] := by
      rw [List.filter_eq_nil_iff]
      exact List.any_eq_false.mp hlines
    change Host.Outcome.next (s.runCmd queue idx 0x1B 1 _) = _
    rw [State.runCmd_of_runs hruns]
    unfold State.leaseRelease
    extract_lets code held
    rw [if_neg (Classical.not_not.mpr (show code = 0 from hcheck)), if_neg (by rw [show s.isDead r h = false from hdead]; decide),
      if_neg (by rw [show openOf (s.sr r) h = none from hopen]; decide), if_neg (by rw [show held = [] from hnone]; decide)]
  case rejoin =>
    intro queue idx c s k h r hruns hcheck
    change Host.Outcome.next (s.runCmd queue idx 0x1B 2 _) = _
    rw [State.runCmd_of_runs hruns, State.rejoinCmd]
    exact congrArg _ (if_neg (Classical.not_not.mpr hcheck))
  case expiry =>
    intro ph s u hserving hat
    change execLeaseExpiryCheck ph s = _
    rw [execLeaseExpiryCheck, if_neg (by simp [hserving, hat])]
  case declare =>
    intro value ph s htakes
    exact congrArg _ (State.barWrite_of_takes htakes _)
  case revive =>
    intro value s htakes
    exact congrArg _ (State.barWrite_of_takes htakes _)
  case grace =>
    intro hid ph s hgrace hdown hat
    change execLinkGraceExpiry hid ph s = _
    rw [execLinkGraceExpiry, if_neg (by omega)]

end

section
/-! A snoop that is issued once more (R211). -/
namespace Sys2Proof.Machine

/-- The snoop of a line at a HID, marked as issued again now. -/
def Snoop.repeated (y : Snoop) (line hid now : Nat) : Snoop :=
  if y.line = line ∧ y.hid = hid then { y with again := true, since := now } else y

/-- The state that holds the snoops of a line at a HID as issued again. -/
def State.snoopAgain (s : State) (line hid : Nat) : State :=
  { s with shared := { s.shared with snoops := s.shared.snoops.map (fun y => y.repeated line hid s.now) } }

theorem Snoop.repeated_of_line {y : Snoop} {line hid now : Nat} (hline : (y.repeated line hid now).line = line)
    (hhid : (y.repeated line hid now).hid = hid) :
    (y.repeated line hid now).again = true ∧ (y.repeated line hid now).since = now := by
  unfold Snoop.repeated at *
  split at hline
  · next h => rw [if_pos h]; exact ⟨rfl, rfl⟩
  · next h => rw [if_neg h] at hhid; exact absurd ⟨hline, hhid⟩ h

end Sys2Proof.Machine
end

section
open Sys2Proof.Machine

/-- Settles O31: answers and timeouts of an outstanding snoop end it or send it again. It rests on the model's choices of log 20 and 75. -/
theorem snoops : Obligations.Snoops := by
  unfold Obligations.Snoops
  refine ⟨?answer, ?again, ?dead, ?conflict⟩
  case answer =>
    intro port line keep ph x s hfind
    change execBisnpResponse port line keep ph s = _
    simp only [execBisnpResponse, hfind]
  case again =>
    intro line hid ph x p s hfind hdue hagain hport
    have hport' : (s.snoopAgain line hid).portOfHid hid = some p := hport
    refine ⟨s.snoopAgain line hid, ?_, rfl, rfl, rfl, ?_⟩
    · change execBisnpTimeout line hid ph s = _
      simp only [execBisnpTimeout, hfind, if_neg (Nat.not_lt.mpr hdue), hagain, Bool.not_false, if_true]
      change Host.Outcome.next (match (s.snoopAgain line hid).portOfHid hid with
        | some p => (s.snoopAgain line hid).send (p / 16) 2 (.biSnp p line x.inv)
        | none => s.snoopAgain line hid) = _
      rw [hport']
    · rintro y hy ⟨hline, hhid⟩
      obtain ⟨z, -, rfl⟩ := List.mem_map.mp hy
      exact Snoop.repeated_of_line hline hhid
  case dead =>
    intro line hid ph x n s u hfind hdue hagain hcoh
    change execBisnpTimeout line hid ph s = _
    simp only [execBisnpTimeout, hfind, if_neg (Nat.not_lt.mpr hdue), hagain, hcoh, Bool.not_true, Bool.false_eq_true, if_false]
    rfl
  case conflict =>
    intro port line s hup
    change execBiconflict port line s = _
    rw [execBiconflict, if_pos hup]

end

section
/-! A RETIRE whose range names frames of the part (R334). -/
namespace Sys2Proof.Machine

theorem State.retireCmd_of_named {s : State} {k mode : Nat} {c : Cmd} {ph : Phys} (hmode : c.mode = mode)
    (hnamed : (retireRange mode (c.d 1)).toOption.isSome = true) (hroom : s.media.retire.length < 1024) :
    s.retireCmd k c ph =
      (let g := (retireRange mode (c.d 1)).toOption.getD ([], 0, 0, 0)
       let x := s.retire g.1 ph
       let ls := (mode * 2 ^ 64 + c.d 1) :: x.2.media.retire
       State.finish (if x.1.2 = 0 then x.2 else
         ((({ x.2 with media := { x.2.media with retire := ls } } : State).saveRec (fun r => { r with retire := ls })).setPar
           P.retireListUsed ls.length).logMedia 11 (c.d 1 / 2 ^ 60) g.2.1 0xFF g.2.2.1 0xFF g.2.2.2) k (if x.1.1 then 0 else stCapacity)
         x.1.2 0) := by
  subst hmode
  obtain ⟨⟨keys, pc, bank, row⟩, hg⟩ := exists_ok_of_toOption_isSome hnamed
  simp only [State.retireCmd, hg, if_neg (Nat.not_le.mpr hroom)]
  rfl

end Sys2Proof.Machine
end

section
open Sys2Proof.Machine

/-- Settles O32: a RETIRE that names frames retires them and records it; a RELEASE of an empty quarantined frame frees it. It rests on the
model's choices of log 62. -/
theorem retirement : Obligations.Retirement := by
  unfold Obligations.Retirement
  refine ⟨?frame, ?row, ?bank, ?release⟩
  case frame =>
    intro queue idx ph c s k g x ls hruns hnamed hroom
    obtain ⟨-, -, -, hmode⟩ := State.runs_iff.mp hruns
    change Host.Outcome.next (s.runCmd queue idx 0x28 0 _) = _
    rw [State.runCmd_of_runs hruns, State.retireCmd_of_named hmode hnamed hroom]
  case row =>
    intro queue idx ph c s k g x ls hruns hnamed hroom
    obtain ⟨-, -, -, hmode⟩ := State.runs_iff.mp hruns
    change Host.Outcome.next (s.runCmd queue idx 0x28 1 _) = _
    rw [State.runCmd_of_runs hruns, State.retireCmd_of_named hmode hnamed hroom]
  case bank =>
    intro queue idx ph c s k g x ls hruns hnamed hroom
    obtain ⟨-, -, -, hmode⟩ := State.runs_iff.mp hruns
    change Host.Outcome.next (s.runCmd queue idx 0x28 2 _) = _
    rw [State.runCmd_of_runs hruns, State.retireCmd_of_named hmode hnamed hroom]
  case release =>
    intro queue idx c g s k hruns hnamed hquar hmask
    obtain ⟨-, -, -, hmode⟩ := State.runs_iff.mp hruns
    obtain ⟨keys, rest⟩ := g
    have hg : retireRange c.mode (c.d 1) = .ok (keys, rest) := hmode ▸ eq_ok_of_toOption hnamed
    change Host.Outcome.next (s.runCmd queue idx 0x28 3 _) = _
    rw [State.runCmd_of_runs hruns]
    simp only [State.retireRelease, hg]
    rw [if_pos ⟨hquar, hmask⟩]

end

section
/-! The record of a flagged result (R347, R363). -/
namespace Sys2Proof.Machine

/-- What a check keeps of the result it flags; a work tile's repeats have still to be launched. -/
def flagRecord (region : Fin 4) (block : Fin 9) (check : Fin 8) (work : Work) (result predicted found : Nat) : FlagRec :=
  { blk := region * 16 + block, check := check, work := work, a1 := result, predicted := predicted, found := foundResidue check found,
    ran := !(match work with | .step _ _ => true | _ => false) }

end Sys2Proof.Machine
end

section
open Sys2Proof.Machine

/-- Settles O33: a flag is counted and kept, and its repeats' class has its effect. It rests on the model's choices of log 36 and 77. -/
theorem flaggedChecks : Obligations.FlaggedChecks := by
  unfold Obligations.FlaggedChecks
  refine ⟨?kept, ?unflagged, ?transient, ?unresolved⟩
  case kept =>
    intro region block check work result predicted found s cb hflags hblk hwork hcheck hon hdice
    have hgo : (flags check predicted found && decide (s.blkSt (region * 16 + block) ≤ 2) &&
        (s.workOn work || s.integ.dice.any (fun p => p.2.blk == region.val * 16 + block.val))) = true := by
      simp only [hflags, hwork, decide_eq_true (show s.blkSt (region * 16 + block) ≤ 2 from hblk), Bool.true_or, Bool.and_self]
    have hne : check.val ≠ 6 := fun h => hcheck (Fin.ext h)
    have hchecks : (s.count P.integFlags 1).par P.integChecks = s.par P.integChecks := State.count_par_other (by decide) _ _
    have hkeep : (decide ((s.count P.integFlags 1).par P.integChecks = 0) || (s.count P.integFlags 1).integ.dice.any (fun p =>
        p.2.blk == region * 16 + block || p.2.partner == region * 16 + block)) = false := by
      rw [hchecks, show (s.count P.integFlags 1).integ.dice = [] from hdice]
      simpa using hon
    refine ⟨(s.count P.integFlags 1).modInteg (fun i => { i with flags := i.flags ++ [flagRecord region block check work result predicted found] }), ?_, ?_, ?_, rfl, rfl⟩
    · change execCheckFlag region block check work result predicted found s = _
      simp only [execCheckFlag, hgo, if_true, State.checkFlag, if_neg hne, hkeep, Bool.false_eq_true, if_false]
      rfl
    · exact (List.length_append).trans rfl
    · exact State.par_setPar_same _ _ _ |>.trans (Nat.mod_mod_of_dvd _ (by decide))
  case unflagged =>
    intro region block check work result predicted found s hflags
    change execCheckFlag region block check work result predicted found s = _
    simp only [execCheckFlag, hflags, Bool.false_and, Bool.false_eq_true, if_false]
  case transient =>
    intro flag a2 b c f s hflag hran hclass
    change Host.Outcome.next (s.repeatDecide flag a2 b c) = _
    simp only [State.repeatDecide, hflag, hran, hclass]
    rfl
  case unresolved =>
    intro flag a2 b c f s hflag hran hclass
    change ∃ u, Host.Outcome.next (s.repeatDecide flag a2 b c) = _
    simp only [State.repeatDecide, hflag, hran, hclass]
    exact ⟨_, rfl⟩

end

section
open Sys2Proof.Machine

/-- Settles O34: a round falls due, starts, and ends with a pass where the signatures agree. It rests on the model's choices of log 6
(the seed and the signatures are operands), 37 and 78. -/
theorem diceRounds : Obligations.DiceRounds := by
  unfold Obligations.DiceRounds
  refine ⟨?test, ?due, fun _ _ => rfl, ?complete⟩
  case test =>
    intro queue idx c s k cb pb u hruns hblk hindex hpartner hready hidle hdice
    change Host.Outcome.next (s.runCmd queue idx 0x29 0 _) = _
    rw [State.runCmd_of_runs hruns]
    unfold State.testRound
    extract_lets v
    have hsound : ¬(64 ≤ cb ∨ 9 ≤ cb % 16 ∨ (pb ≠ 0xFF ∧ (64 ≤ pb ∨ 9 ≤ pb % 16))) := by
      rcases hpartner with h | ⟨h1, h2, -, -⟩ <;> omega
    have hcan : (!s.roundOk cb || (pb != 0xFF && (!s.roundOk pb || pb / 16 == cb / 16))) = false := by
      rcases hpartner with h | ⟨-, -, hregion, hok⟩
      · simp [hready, h]
      · simp [hready, hok, hregion]
    have hfree : ¬((s.blk cb).cmd ≠ 0 ∨ s.integ.dice.any (fun x => x.2.blk == cb && x.2.cmd != 0) = true) := by
      simp [hidle, hdice]
    rw [if_neg hsound, if_neg (Bool.eq_false_iff.mp hcan), if_neg hfree]
    rfl
  case due =>
    intro region block s cb hregion hblk hdue hfalls hdice
    have hgo : (s.diceRegion region && decide (s.blkSt cb ≤ 2) && !(s.blk cb).due && s.diceFalls cb &&
        !s.integ.dice.any (fun p => p.2.blk == cb)) = true := by
      simp only [hregion, hblk, hdue, hfalls, hdice, decide_true, Bool.not_false, Bool.and_self]
    change execDiceRoundDue region block s = _
    unfold execDiceRoundDue
    extract_lets
    rw [if_pos hgo]
  case complete =>
    intro region own third again lanes r s u hround hcmd
    change Host.Outcome.next (s.diceEnd region _ _ _ _ lanes) = _
    simp only [State.diceEnd, hround, hcmd, if_true]
    rfl

end

section
/-! Engine resets (R372, R375). -/
namespace Sys2Proof.Machine

variable {s : State} {kind idx : Nat}

/-- What the start of a reset brings besides for the n-th one in ten minutes: a stack dies with the fourth, a port block's link is reset. -/
def State.afterStart (s : State) (kind idx n : Nat) : State :=
  match kind with
  | 1 => if 4 ≤ n then s.modStack idx (fun r => { r with dying := true }) else s
  | 2 => s.resetPort idx (decide (4 ≤ n))
  | _ => s

/-- The restart of an engine other than a compute block. -/
def State.restarted (s : State) (kind idx : Nat) (ph : Phys) : State :=
  match kind with
  | 1 => s.stackReset idx ph
  | 2 => s
  | _ => s.hubReset idx ph

/-- A fault of a live engine with no reset under way, below the count that escalates a hub, starts a reset. -/
theorem State.engFault_of_free (hruns : s.recovRuns = true) (hlive : s.engLive kind idx = true)
    (heng : Tab.find? (engUnit kind idx) s.recov.eng = none) (hregion : Tab.find? (unitRegion (engUnit kind idx)) s.recov.region = none)
    (hcount : kind = 3 → s.engCount (engUnit kind idx) < 4) (trigger waiting : Nat) :
    s.engFault kind idx trigger waiting =
      (s.engStart (engUnit kind idx) trigger waiting).afterStart kind idx (s.engCount (engUnit kind idx)) := by
  have hgo : (!s.recovRuns || !s.engLive kind idx || (Tab.find? (engUnit kind idx) s.recov.eng).isSome ||
      (Tab.find? (unitRegion (engUnit kind idx)) s.recov.region).isSome) = false := by simp [hruns, hlive, heng, hregion]
  unfold State.engFault
  extract_lets unit n v
  rw [if_neg (Bool.eq_false_iff.mp hgo), if_neg (fun h => absurd (hcount h.1) (Nat.not_lt.mpr h.2))]
  rfl

/-- The reset of an engine other than a compute block ends with its record, its hang's outcome and the engine's own restart. -/
theorem State.engDone_of_found {e : EngReset} (heng : Tab.find? (engUnit kind idx) s.recov.eng = some e) (hsearch : e.searching = false)
    (ph : Phys) :
    s.engDone kind idx ph =
      if kind = 0 then (s.resetRecord (engUnit kind idx) 1 11 e.start).blkReset idx e
      else
        (((s.resetRecord (engUnit kind idx) 1 11 e.start).hangOutcome e hgResumed).modRecov (fun r =>
          { r with eng := Tab.erase (engUnit kind idx) r.eng })).restarted kind idx ph := by
  simp only [State.engDone, heng, hsearch, Bool.false_eq_true, if_false]
  rfl

end Sys2Proof.Machine
end

section
open Sys2Proof.Machine

/-- Settles O35: a fault starts a reset, and a reset's end, its overrun and a search's verdict have their effect. It rests on the model's
choices of log 31 and 38. -/
theorem engineResets : Obligations.EngineResets := by
  unfold Obligations.EngineResets
  refine ⟨?watchdog, ?hubFault, ?portFault, ?blockDone, ?hubDone, ?overrun, ?stackDone, ?guilty, ?cleared, ?ends⟩
  case watchdog =>
    intro index waiting s hbusy hruns hlive heng hregion
    change Host.Outcome.next (if s.engBusy 0 index then s.engFault 0 index 1 waiting else s) = _
    rw [if_pos hbusy, State.engFault_of_free hruns hlive heng hregion (fun h => absurd h (by decide))]
    rfl
  case hubFault =>
    intro index waiting s hruns hlive heng hregion hcount
    change Host.Outcome.next (s.engFault 3 index 2 waiting) = _
    rw [State.engFault_of_free hruns hlive heng hregion (fun _ => hcount)]
    rfl
  case portFault =>
    intro index waiting s hruns hlive heng hregion
    change Host.Outcome.next (s.engFault 2 index 2 waiting) = _
    rw [State.engFault_of_free hruns hlive heng hregion (fun h => absurd h (by decide))]
    rfl
  case blockDone =>
    intro index ph e s heng hsearch
    change Host.Outcome.next (s.engDone 0 index ph).armsGo = _
    rw [State.engDone_of_found (kind := 0) (idx := index) heng hsearch]
    rfl
  case hubDone =>
    intro index ph e s heng hsearch
    change Host.Outcome.next (s.engDone 3 index ph).armsGo = _
    rw [State.engDone_of_found (kind := 3) (idx := index) heng hsearch]
    rfl
  case overrun =>
    intro kind index e s heng hsearch hat
    change execEngineResetOverrun kind index s = _
    simp only [execEngineResetOverrun, heng, hsearch, decide_eq_false (Nat.not_lt.mpr hat), Bool.or_self, Bool.false_eq_true, if_false]
  case stackDone =>
    intro index ph e s heng hsearch
    change Host.Outcome.next (s.engDone 1 index ph).armsGo = _
    rw [State.engDone_of_found heng hsearch]
    rfl
  case guilty =>
    intro region block env e i rest s cb u heng hsearch hsuspects
    change Host.Outcome.next (s.suspectResult cb true env).armsGo = _
    simp only [State.suspectResult, heng, hsearch, hsuspects, if_true]
    rfl
  case cleared =>
    intro region block env e i j rest s cb heng hsearch hsuspects
    change Host.Outcome.next (s.suspectResult cb false env).armsGo = _
    simp only [State.suspectResult, heng, hsearch, hsuspects, List.isEmpty_cons, Bool.false_eq_true, if_false]
  case ends =>
    intro region block env e i s cb heng hsearch hsuspects
    change Host.Outcome.next (s.suspectResult cb false env).armsGo = _
    simp only [State.suspectResult, heng, hsearch, hsuspects, List.isEmpty_nil, Bool.false_eq_true, if_false, if_true]

end

section
open Sys2Proof.Machine

/-- Settles O36: resets, SAFE and the requests of dev_request run the named operation where their conditions hold. It rests on the model's
choices of log 30, 31, 32 and 34. -/
theorem deviceStates : Obligations.DeviceStates := by
  unfold Obligations.DeviceStates
  refine ⟨?due, ?back, ?overrun, ?phase1, ?phase2, ?phase3, ?phase4, ?phase5, ?phase6, ?phase7, ?phase8, ?warmOverrun, ?safe, ?auto, ?service,
    ?standby, ?recovery, ?safeAsked, fun _ => ⟨rfl, rfl⟩⟩
  case due =>
    intro region fatal s hruns hdue hnone
    have hgo : (s.recovRuns && (Tab.get region.val s.recov.regionDue || fatal) && (Tab.find? region.val s.recov.region).isNone) = true := by
      rcases hdue with h | h <;> simp [hruns, h, hnone]
    change execRegionReset region fatal s = _
    simp only [execRegionReset, hgo, if_true]
  case back =>
    intro region lost env t s u hfound hup hqueue
    have hgo : (!s.regionStacksUp region || s.power.queue.any (fun w => w.kind == 1 && w.unit == region.val)) = false := by
      simp [hup, hqueue]
    change Host.Outcome.next (s.regionDone region lost env).armsGo = _
    simp only [State.regionDone, hfound, hgo, Bool.false_eq_true, if_false]
    rfl
  case overrun =>
    intro region t s hfound hat
    change execRegionResetOverrun region s = _
    simp only [execRegionResetOverrun, hfound, if_pos hat]
  case phase1 | phase2 | phase3 | phase4 | phase5 | phase6 | phase7 | phase8 =>
    intro env tables lost s hphase
    change execWarmResetPhaseEnd env tables lost s = _
    simp only [execWarmResetPhaseEnd, hphase]
  case warmOverrun =>
    intro s hwarm hat
    change execWarmResetOverrun s = _
    simp only [execWarmResetOverrun, hwarm, hat, decide_true, Bool.and_self, if_true]
  case safe =>
    intro s hdue
    change execSafeEntry s = _
    rw [execSafeEntry, if_pos hdue]
  case auto =>
    intro s hdev hwarm hheld
    change execSafeAutoExpiry s = _
    simp only [execSafeAutoExpiry, hdev, hwarm, hheld, decide_true, Bool.not_false, Bool.and_self, if_true]
  case service =>
    intro s htakes
    change Host.Outcome.next (s.barWrite P.devRequest 1 (fun s => s.devRequest 1)) = _
    rw [State.barWrite_of_takes htakes, State.devRequest]
  case standby =>
    intro s htakes
    change Host.Outcome.next (s.barWrite P.devRequest 2 (fun s => s.devRequest 2)) = _
    rw [State.barWrite_of_takes htakes, State.devRequest, State.enterStandby]
  case recovery =>
    intro s htakes
    change Host.Outcome.next (s.barWrite P.devRequest 3 (fun s => s.devRequest 3)) = _
    rw [State.barWrite_of_takes htakes, State.devRequest]
  case safeAsked =>
    intro s htakes
    change Host.Outcome.next (s.barWrite P.devRequest 4 (fun s => s.devRequest 4)) = _
    rw [State.barWrite_of_takes htakes, State.devRequest]

end

section
/-! What a stack's death leaves to walk (R340). -/
namespace Sys2Proof.Machine

variable {s : State} {k : Nat}

theorem State.regionDies_media (s : State) (q : Nat) : (s.regionDies q).media = s.media :=
  (State.regionDies_keeps (F := [.dict, .out, .svc, .recov, .glody]) (.refl _) .rfl).same (p := .media) (by decide)

/-- A stack whose cause of death stands is walked from then on. -/
theorem State.stackDies_walks (hdying : (s.stack k).dying = true) (hhealth : s.par (P.stackHealth k) ≠ 2) :
    (Tab.find? k (s.stackDies k).media.walks).isSome = true := by
  have hgo : (!(s.stack k).dying || s.par (P.stackHealth k) == 2) = false := by simp [hdying, hhealth]
  generalize ht : s.stackDies k = t
  unfold State.stackDies at ht
  rw [if_neg (Bool.eq_false_iff.mp hgo)] at ht
  extract_lets s1 s2 s3 s4 s5 at ht
  clear_value s3
  have hset : s4.media.walks = Tab.insert k s3.now (Tab.erase k s3.media.walks) := rfl
  have hwalks : (Tab.find? k s5.media.walks).isSome = true := by
    rw [show s5.media = s4.media from State.setPar_media _ _ _, hset, Tab.find_insert _ _ _ _ (Tab.find_erase_same _ _), if_pos rfl]
    rfl
  rw [← ht]
  split
  · rw [State.regionDies_media, hwalks]
  · exact hwalks

end Sys2Proof.Machine
end

section
open Sys2Proof.Machine

/-- Settles O37: the scrub, an armed flip, a fault and a death run the named operation. It rests on the model's choices of log 39, 41, 43
and 44. -/
theorem mediaFaults : Obligations.MediaFaults := by
  unfold Obligations.MediaFaults
  refine ⟨?patrol, ?clean, ?lost, ?arm, ?code, ?dma, ?death, ?walk, ?regionDeath⟩
  case patrol =>
    intro stack events s q l t u x hstate hhealth
    have hgo : (decide (s.par (P.mcSrState stack) ≠ srActive) || s.par (P.stackHealth stack) == 2) = false := by
      simp [hstate, hhealth]
    change Host.Outcome.next (s.scrubRead stack events.lost events.ph) = _
    unfold State.scrubRead
    rw [if_neg (Bool.eq_false_iff.mp hgo)]
    extract_lets st v last w y
    have hy : y = x := by simp only [y, x, w, u, last, decide_eq_true_eq, v, t, st]
    rw [hy]
    cases events.lost with
    | none => rw [Option.elim_none, ite_self]
    | some m => rfl
  case clean =>
    intro region outcome holding place s houtcome
    have hle : outcome.val ≤ 13 := by
      have hne : outcome.val ≠ 14 := fun h => houtcome (Fin.ext h)
      omega
    have hok : ¬((if outcome = 0 then 0 else 1) = 2 ∧ holding ≠ 8) := by
      rintro ⟨h, -⟩
      split at h <;> cases h
    change execSramScrub region none outcome holding place s = _
    simp only [execSramScrub, if_pos hle, if_neg hok]
  case lost =>
    intro region block holding place s hflip
    change execSramScrub region (some block) 14 holding place s = _
    simp only [execSramScrub, hflip, Bool.false_eq_true, if_false]
    rfl
  case arm =>
    intro value s htakes
    change Host.Outcome.next (s.barWrite P.flipTarget (setFld value 15 15 1) _) = _
    rw [State.barWrite_of_takes htakes]
  case code =>
    intro s hlost hfault
    change execCodeFetchUe false s = _
    simp only [execCodeFetchUe, hlost, hfault, State.modMedia, Bool.false_eq_true, if_false]
    rfl
  case dma =>
    intro channel source metadata s
    have hne : P.dmaFaultAddr channel.val ≠ P.dmaStatus channel.val := by unfold P.dmaFaultAddr P.dmaStatus; omega
    refine ⟨((s.setPar (P.dmaStatus channel) 2).setPar (P.dmaFaultAddr channel) (source % 2 ^ 64)).setPar (P.dmaStatus channel) 0, ?_, ?_, ?_, ?_⟩
    · change execDmaSourceUe channel source true metadata s = _
      rw [execDmaSourceUe]
      exact congrArg _ (if_pos rfl)
    · rw [State.par_setPar_other _ hne, State.par_setPar_same, Nat.mod_mod]
    · rw [State.par_setPar_same, Nat.zero_mod]
    · rw [State.setPar_mem, State.setPar_mem, State.setPar_mem]
  case death =>
    intro stack s hdying hhealth
    exact ⟨_, rfl, rfl, State.stackDies_walks hdying hhealth⟩
  case walk =>
    intro stack ph t s hwalk
    change execStackDeathWalkComplete stack ph s = _
    unfold execStackDeathWalkComplete
    extract_lets k hit u v
    rw [show Tab.find? k s.media.walks = some t from hwalk]
    have hhit : hit = fun p => (entryOf p.2).inHbm && ((entryOf p.2).addr / 2 ^ 32 == stack.val ||
        ((s.partnerOf (entryOf p.2).addr).map (· / 2 ^ 32) == some stack.val)) := by
      funext p
      simp only [hit]
      cases s.partnerOf (entryOf p.2).addr <;> rfl
    simp only [v, u, hhit, k]
  case regionDeath =>
    intro region s hdev hdue
    have hgo : (decide (s.dev = dsOut) || s.recov.oosDue) = false := by simp [hdev, hdue]
    change execRegionDeath region s = _
    simp only [execRegionDeath, hgo, Bool.false_eq_true, if_false]

end

section
/-! Banks after a change, the panic of a master, self-refresh (R309-R319). -/
namespace Sys2Proof.Machine

variable {s : State}

theorem State.stack_modStack_same (s : State) (k : Nat) (f : StackRec → StackRec) : (s.modStack k f).stack k = f (s.stack k) :=
  Tab.get_mod_same _ _ _

/-- A bank reads back as it was changed. -/
theorem State.bank_modBank_same (s : State) (k key : Nat) (f : BankRec → BankRec) :
    Tab.get key ((s.modBank k key f).stack k).banks = f (Tab.get key (s.stack k).banks) := by
  rw [State.modBank, State.stack_modStack_same]
  exact Tab.get_mod_same _ _ _

theorem State.modBank_mem (s : State) (k key : Nat) (f : BankRec → BankRec) : (s.modBank k key f).mem = s.mem := rfl

/-- Counting panics leaves who panics. -/
theorem State.panicking_countPanics {m : Nat} (hm : m < 512) (s : State) (l : List Nat) :
    (forAll (fun k s => s.count (P.mcPanicCount k) 1) l s).panicking m = s.panicking m := by
  refine forAll_proj (fun t => t.panicking m) (fun k t => ?_) l s
  have hne : P.mcPanicState (m / 64) ≠ P.mcPanicCount k := by unfold P.mcPanicState P.mcPanicCount; omega
  simp only [State.panicking, State.count_par_other hne]

/-- The counts of panics lie outside memory. -/
theorem State.countPanics_mem (s : State) (l : List Nat) : (forAll (fun k s => s.count (P.mcPanicCount k) 1) l s).mem = s.mem :=
  forAll_proj State.mem (fun _ _ => State.setPar_mem _ _ _) l s

/-- The held requests of a master are promoted (R313). -/
def State.promoteHeld (s : State) (m : Nat) : State :=
  { s with recov := { s.recov with held := s.recov.held.map (fun r => if r.port = m then { r with promoted := true } else r) } }

theorem State.promoteHeld_panicking (s : State) (m j : Nat) : (s.promoteHeld m).panicking j = s.panicking j := rfl

theorem State.promoteHeld_mem (s : State) (m : Nat) : (s.promoteHeld m).mem = s.mem := rfl

theorem State.promoteHeld_promoted {m : Nat} {r : HeldReq} (hr : r ∈ (s.promoteHeld m).recov.held) (hport : r.port = m) :
    r.promoted = true := by
  obtain ⟨r', -, rfl⟩ := List.mem_map.mp hr
  split at hport
  · next h => rw [if_pos h]
  · next h => exact absurd hport h

theorem State.panicking_set (s : State) (m : Nat) :
    (s.setPar (P.mcPanicState (m / 64)) (s.par (P.mcPanicState (m / 64)) ||| 2 ^ (m % 64))).panicking m = true := by
  have hlt : m % 64 < 64 := Nat.mod_lt _ (by decide)
  rw [State.panicking, State.par_setPar_same, Nat.testBit_mod_two_pow, decide_eq_true hlt, Bool.true_and, Nat.testBit_or,
    Nat.testBit_two_pow_self, Bool.or_true]

theorem State.panicking_cleared {m : Nat} (h : s.panicking m = true) :
    (s.setPar (P.mcPanicState (m / 64)) (s.par (P.mcPanicState (m / 64)) - 2 ^ (m % 64))).panicking m = false := by
  have hle : 2 ^ (m % 64) ≤ s.par (P.mcPanicState (m / 64)) := Nat.ge_two_pow_of_testBit h
  have hsum : (2 ^ (m % 64) + (s.par (P.mcPanicState (m / 64)) - 2 ^ (m % 64))).testBit (m % 64) = true := by
    rw [Nat.add_sub_cancel' hle]
    exact h
  rw [Nat.testBit_two_pow_add_eq, Bool.not_eq_true'] at hsum
  rw [State.panicking, State.par_setPar_same, Nat.testBit_mod_two_pow, hsum, Bool.and_false]

end Sys2Proof.Machine
end

section
open Sys2Proof.Machine

/-- Settles O38: each event of a stack's controller runs the named operation where its conditions hold. It rests on the model's choices of
log 20 and 80. -/
theorem stackControllers : Obligations.StackControllers := by
  unfold Obligations.StackControllers
  refine ⟨?sample, ?hold, ?refresh, ?idle, ?starve, ?alert, ?replayed, ?retrained, ?panic, ?calm, ?trnHold, ?trnStart, ?trnDone, ?entry, ?exit⟩
  case sample =>
    intro stack celsius s hcond
    change Host.Outcome.next (s.sampleTemp stack celsius) = _
    rw [State.sampleTemp]
    exact congrArg _ (if_pos hcond)
  case hold =>
    intro stack s hheld hsaid hat
    have hgo : (decide ((s.stack stack).holdAt = 0) || (s.stack stack).holdSaid ||
        decide (s.now + 1 < (s.stack stack).holdAt + msT (s.par P.mcThermalHoldMs))) = false := by
      simp only [hheld, hsaid, decide_false, Bool.false_or, decide_eq_false_iff_not]
      omega
    change ∃ u, execThermalHoldExpiry stack s = _
    unfold execThermalHoldExpiry
    extract_lets r v
    rw [if_neg (Bool.eq_false_iff.mp hgo)]
    exact ⟨_, rfl⟩
  case refresh =>
    intro stack pc bank promoted s hstate
    have hgo : ¬(s.par (P.mcSrState stack) ≠ srActive ∧ s.par (P.mcSrState stack) ≠ srIdle) := fun h => hstate.elim h.1 h.2
    let owed := Nat.max (s.par (P.mcRefreshOwedMax stack)) (Nat.min 8 ((Tab.get (bankKey pc bank) (s.stack stack).banks).owed + 1))
    refine ⟨(s.setPar (P.mcRefreshOwedMax stack) owed).modBank stack (bankKey pc bank) (fun x => { x with owed := 0, row := none }), ?_, ?_, ?_, ?_⟩
    · change Host.Outcome.next (s.refreshDue stack pc bank false promoted) = _
      rw [State.refreshDue, if_neg hgo]
      rfl
    · rw [State.bank_modBank_same]
    · rw [State.bank_modBank_same]
    · rw [State.modBank_mem, State.setPar_mem]
  case idle =>
    intro stack pc bank s b hrow hat
    have hgo : ((Tab.get (bankKey pc bank) (s.stack stack).banks).row.isSome && decide ((Tab.get (bankKey pc bank) (s.stack stack).banks).used +
        nsT (Tab.get (bankKey pc bank) (s.stack stack).banks).idle ≤ s.now)) = true := by
      rw [show (Tab.get (bankKey pc bank) (s.stack stack).banks).row.isSome = true from hrow, Bool.true_and, decide_eq_true hat]
    change execPageIdleExpiry stack pc bank s = _
    simp only [execPageIdleExpiry, hgo, if_true]
  case starve =>
    intro place r s hheld hat
    change execRequestStarvePromote place s = _
    simp only [execRequestStarvePromote, hheld, if_pos hat]
  case alert =>
    intro stack channel s x hoff hcount
    have hn : ¬4 ≤ if x.replaying then x.alerts + 1 else 0 := by
      rcases hcount with h | h
      · have h' : x.alerts < 3 := h
        split <;> omega
      · rw [show x.replaying = false from h]
        simp
    change Host.Outcome.next (s.parityAlert stack channel) = _
    rw [State.parityAlert, if_neg (Bool.eq_false_iff.mp hoff)]
    exact congrArg _ (if_neg hn)
  case replayed =>
    intro stack channel s hreplaying
    change execReplayComplete stack channel s = _
    rw [execReplayComplete, if_pos hreplaying]
  case retrained =>
    intro stack channel s _ hoff hhealth
    have hne : P.stackHealth stack.val ≠ P.mcChannelOffline stack.val := by unfold P.stackHealth P.mcChannelOffline; omega
    change execChannelRetrainComplete stack channel true s = _
    simp only [execChannelRetrainComplete, hoff, Nat.testBit_two_pow_self, Nat.sub_self, State.par_setPar_other _ hne, hhealth, Bool.not_true, Bool.false_eq_true,
      if_false, if_true]
  case panic =>
    intro master fill reads s hrt hcalm hfill hreads
    have hgo : (s.rtMaster master && !s.panicking master && decide (fill < 16 ∧ 0 < reads)) = true := by
      simp [hrt, hcalm, hfill, hreads]
    obtain ⟨u, hu⟩ : ∃ u, u = forAll (fun k s => s.count (P.mcPanicCount k) 1) (List.range 16) (s.setPar (P.mcPanicState (master / 64))
      (s.par (P.mcPanicState (master / 64)) ||| 2 ^ (master.val % 64))) := ⟨_, rfl⟩
    refine ⟨u.promoteHeld master, ?_, ?_, ?_, ?_⟩
    · change execPanicAssert master fill reads s = _
      rw [execPanicAssert, if_pos hgo, hu]
      rfl
    · rw [State.promoteHeld_panicking, hu, State.panicking_countPanics master.isLt, State.panicking_set]
    · rw [State.promoteHeld_mem, hu, State.countPanics_mem, State.setPar_mem]
    · exact fun r hr hport => State.promoteHeld_promoted hr hport
  case calm =>
    intro master fill reads s hpanic hwhy
    have hgo : (s.panicking master && decide (32 ≤ fill ∨ reads = 0)) = true := by simp [hpanic, hwhy]
    obtain ⟨u, hu⟩ : ∃ u, u = s.setPar (P.mcPanicState (master / 64)) (s.par (P.mcPanicState (master / 64)) - 2 ^ (master.val % 64)) := ⟨_, rfl⟩
    refine ⟨{ u with recov := { u.recov with held := u.recov.held.map (fun r =>
      if r.port = master.val then { r with promoted := decide (r.since + nsT (u.par P.mcStarveNs) ≤ u.now) } else r) } }, ?_, ?_, ?_⟩
    · change execPanicDeassert master fill reads s = _
      rw [execPanicDeassert, if_pos hgo, hu]
    · change u.panicking master = false
      rw [hu, State.panicking_cleared hpanic]
    · change u.mem = s.mem
      rw [hu, State.setPar_mem]
  case trnHold =>
    intro stack value s htakes
    exact congrArg _ (State.barWrite_of_takes htakes _)
  case trnStart =>
    intro stack value s htakes hstart
    change Host.Outcome.next (s.barWrite (P.trnCtl stack) value (fun s => s.trnCtlWrite stack value)) = _
    rw [State.barWrite_of_takes htakes, State.trnCtlWrite, if_neg (by rw [hstart]; decide)]
  case trnDone =>
    intro stack mismatch errors s hrunning hreturning
    change execTrnRunComplete stack mismatch errors s = _
    rw [execTrnRunComplete, if_neg (by rw [hrunning]; decide)]
    exact congrArg _ (if_neg (fun h => absurd (h.symm.trans hreturning) (by decide)))
  case entry =>
    intro stack s hstate
    refine ⟨s.inSelf stack, ?_, ?_, ?_, ?_⟩
    · change Host.Outcome.next (if s.par (P.mcSrState stack) = srEntering then s.inSelf stack else s) = _
      rw [if_pos hstate]
    · rw [State.inSelf, State.pw_par, State.modStack_par, State.par_setPar_same]
      rfl
    · rw [State.inSelf, State.stack, State.pw_stackTab]
      exact congrArg StackRec.banks (State.stack_modStack_same _ _ _)
    · rw [State.inSelf, State.pw_mem, State.modStack_mem, State.setPar_mem]
  case exit =>
    intro stack ph s hstate
    change execSelfRefreshExit stack ph s = _
    rw [execSelfRefreshExit, if_pos hstate]

end

section
/-! A link's record after it is set, and after it has trained (R245, R247). -/
namespace Sys2Proof.Machine

variable {s : State} {k : Nat}

theorem State.link_congr {t : State} (h : t.ports = s.ports) (k : Nat) : t.link k = s.link k := by
  rw [State.link, State.link, h]

theorem State.link_setLink_same (s : State) (k : Nat) (f : LinkRec → LinkRec) : (s.setLink k f).link k = f (s.link k) := by
  rw [State.setLink, State.link_congr (State.setPar_ports _ _ _), State.link_modLink_same]

theorem State.setLink_mem (s : State) (k : Nat) (f : LinkRec → LinkRec) : (s.setLink k f).mem = s.mem := by
  rw [State.setLink, State.setPar_mem, State.modLink_mem]

/-- A link with a common rate, a width and CXL comes up with them; what follows writes neither links nor memory. -/
theorem State.trained_of_common {p : Partner} {r : Nat}
    (hrate : trainRate p.rates (if (s.link k).cap = 0 then s.par (P.portMaxRate (k / 2)) else Nat.min (s.par (P.portMaxRate (k / 2)))
      ((s.link k).cap - 1)) = some r)
    (hwidth : trainWidth (s.cfgWidth k) p.lanes ≠ 0) (hcxl : p.cxl = true) :
    ((s.trained k p).link k).st = lkUp ∧ ((s.trained k p).link k).rate = r ∧
      ((s.trained k p).link k).width = trainWidth (s.cfgWidth k) p.lanes ∧ (s.trained k p).mem = s.mem := by
  generalize ht : s.trained k p = t
  unfold State.trained at ht
  extract_lets l b cfg w f lds before depths adv at ht
  rw [show trainRate p.rates (if l.cap = 0 then s.par (P.portMaxRate b) else Nat.min (s.par (P.portMaxRate b)) (l.cap - 1)) = some r from hrate] at ht
  dsimp -zeta only at ht
  extract_lets u at ht
  have hgo : (decide (w = 0) || !p.cxl) = false := by
    rw [decide_eq_false (show ¬w = 0 from hwidth), hcxl]
    rfl
  rw [if_neg (Bool.eq_false_iff.mp hgo)] at ht
  have hF : Within [.dict, .shared, .power] [.dict, .shared, .power] := .refl _
  have hkeeps : u.Keeps [.dict, .shared, .power] t := by
    rw [← ht]
    exact State.tolExits_keeps (hF.le rfl) (State.setTol_keeps (hF.le rfl) (State.noteLinks_keeps (hF.le rfl) .rfl))
  have hlink : t.link k = _ := (State.link_congr (hkeeps.same (p := .ports) (by decide)) k).trans (State.link_setLink_same s k _)
  have hmem : t.mem = s.mem := (hkeeps.mem_eq (by decide) (by decide) (by decide)).trans (State.setLink_mem s k _)
  rw [hlink, hmem]
  exact ⟨rfl, rfl, rfl, rfl⟩

end Sys2Proof.Machine
end

section
open Sys2Proof.Machine

/-- Settles O40: each event of a link changes its state as named. It rests on the model's choices of log 21, 23, 24 and 110. -/
theorem linkStates : Obligations.LinkStates := by
  unfold Obligations.LinkStates
  refine ⟨?detect, ?up, ?incompatible, fun _ _ _ _ => ⟨rfl, rfl⟩, ?stall, ?backoff, ?enable, ?faults, ?keys, ?integrity⟩
  case detect =>
    intro link s hst hmay
    have hgo : (decide ((s.link link).st = lkDetect) && true && s.mayTrain link) = true := by simp [hst, hmay]
    change execLinkDetectTick link true s = _
    rw [execLinkDetectTick, if_pos hgo]
  case up =>
    intro link partner r s hst hmay hrate hwidth hcxl
    have hgo : (decide ((s.link link).st = lkTraining) && s.mayTrain link) = true := by simp [hst, hmay]
    refine ⟨s.trained link partner, ?_, rfl, State.trained_of_common hrate hwidth hcxl⟩
    change execLinkTrained link partner s = _
    rw [execLinkTrained, if_pos hgo]
  case incompatible =>
    intro link partner s hst hmay hwidth hcxl
    have hgo : (decide ((s.link link).st = lkTraining) && s.mayTrain link) = true := by simp [hst, hmay]
    change execLinkTrained link partner s = _
    rw [execLinkTrained, if_pos hgo, State.trained]
    simp only [hcxl, Bool.not_false, Bool.or_true, if_true]
    cases trainRate partner.rates _ <;> rfl
  case stall =>
    intro link s hegress hat
    have hgo : (!(s.link link).egress.isEmpty && decide ((s.link link).stallAt + msT (s.par (P.portCreditStallMs (link / 2))) ≤ s.now)) = true := by
      simp [hegress, hat]
    change execCreditStall link s = _
    simp only [execCreditStall, hgo, if_true]
  case backoff =>
    intro link s hst hat
    change execBackoffExpiry link s = _
    rw [execBackoffExpiry]
    exact congrArg _ (if_pos ⟨hst, hat⟩)
  case enable =>
    intro block value s htakes
    change Host.Outcome.next (s.barWrite (P.portEnable block) value _) = _
    rw [State.barWrite_of_takes htakes]
  case faults =>
    intro port s hup
    constructor
    · change Host.Outcome.next (s.overflow port) = _
      rw [State.overflow, if_pos hup]
    · change execMalformedMessage port s = _
      rw [execMalformedMessage, if_pos hup]
  case keys =>
    intro link keys containment s hup hide
    have hgo : (s.linkUp link && s.par (P.portIde (link / 2)) != 0) = true := by simp [hup, hide]
    change execIdeKeyProgram link keys containment s = _
    rw [execIdeKeyProgram, if_pos hgo]
  case integrity =>
    intro link s hstream
    change execIdeIntegrityFail link s = _
    rw [execIdeIntegrityFail, if_pos hstream]

end

section
/-! Extents offered to a logical device, and an answer that leaves it (R254, R261). -/
namespace Sys2Proof.Machine

variable {s : State}

/-- A message that leaves on a link changes no logical device. -/
theorem State.send_ld (s : State) (k ch : Nat) (o : Output) (key : Nat) : (s.send k ch o).ld key = s.ld key := by
  unfold State.send
  dsimp only
  split <;> rfl

theorem State.send_mem (s : State) (k ch : Nat) (o : Output) : (s.send k ch o).mem = s.mem :=
  (State.send_keeps (F := [.out, .ports]) (.refl _) .rfl).mem_eq (by decide) (by decide) (by decide)

theorem State.send_dict (s : State) (k ch : Nat) (o : Output) : (s.send k ch o).dict = s.dict :=
  (State.send_keeps (F := [.out, .ports]) (.refl _) .rfl).same (p := .dict) (by decide)

theorem State.ld_modLd_same (s : State) (key : Nat) (f : LdRec → LdRec) : (s.modLd key f).ld key = f (s.ld key) :=
  Tab.get_mod_same _ _ _

/-- Setting a list of keys keeps a key that is set. -/
theorem Tab.get_setAll_of_get {b : Nat} (l : List Nat) {t : Tab Bool} (h : Tab.get b t = true) :
    Tab.get b (l.foldl (fun t b => Tab.set b true t) t) = true := by
  induction l generalizing t with
  | nil => exact h
  | cons a l ih =>
    refine ih ?_
    by_cases hab : b = a
    · rw [hab, Tab.get_set_same]
    · rw [Tab.get_set_other hab, h]

/-- Every key of a list that is set reads as set. -/
theorem Tab.get_setAll_of_mem {b : Nat} {l : List Nat} (hb : b ∈ l) (t : Tab Bool) :
    Tab.get b (l.foldl (fun t b => Tab.set b true t) t) = true := by
  induction l generalizing t with
  | nil => cases hb
  | cons a l ih =>
    rcases List.mem_cons.mp hb with rfl | hb
    · exact Tab.get_setAll_of_get l (Tab.get_set_same _ _ _)
    · exact ih hb _

theorem mem_blocksFrom {first n b : Nat} (hfirst : first ≤ b) (hlt : b < first + n) : b ∈ blocksFrom first n :=
  List.mem_map.mpr ⟨b - first, List.mem_range.mpr (by omega), by omega⟩

/-- The answer of the FM API through a link that is UP. -/
theorem State.fmDc_of_up {port : Nat} (h : s.linkUp (port / 16) = true) (r : Bool × State) :
    s.fmDc port r = r.2.ldAnswer (port / 16) 16 3 (extStatus r.1) [] := by
  rw [State.fmDc, if_pos h]

/-- An add of free extents inside partitions is offered. -/
theorem State.dcAdd_of_free {port first n : Nat} (hdc : (s.link (port / 16)).dc = true) (hin : s.inPartition first n = true)
    (hfree : (blocksFrom first n).all (fun b => !Tab.get b (s.ld (ldKey port)).extents && !Tab.get b (s.ld (ldKey port)).offered) = true)
    (hroom : (s.ld (ldKey port)).extents.length + (s.ld (ldKey port)).offered.length + n ≤ 1024) :
    s.dcAdd port first n = (true, s.modLd (ldKey port) (fun l =>
      { l with offered := (blocksFrom first n).foldl (fun t b => Tab.set b true t) l.offered })) := by
  have hgo : ((s.link (port / 16)).dc && decide (n ≤ 1024) && s.inPartition first n &&
      (blocksFrom first n).all (fun b => !Tab.get b (s.ld (ldKey port)).extents && !Tab.get b (s.ld (ldKey port)).offered) &&
      decide ((s.ld (ldKey port)).extents.length + (s.ld (ldKey port)).offered.length + n ≤ 1024)) = true := by
    rw [hdc, hin, hfree, decide_eq_true hroom, decide_eq_true (show n ≤ 1024 by omega)]
    rfl
  rw [State.dcAdd]
  exact if_pos hgo

end Sys2Proof.Machine
end

section
open Sys2Proof.Machine

/-- Settles O41: each request of a logical device's function runs the named operation or is answered as named. It rests on the model's
choices of log 15, 18, 21, 25, 26 and 112. -/
theorem logicalDevices : Obligations.LogicalDevices := by
  unfold Obligations.LogicalDevices
  refine ⟨?flr, ?silence, ?timeout, ?late, ?config, ?cdat, ?decoder, ?extents, ?offered⟩
  case flr =>
    intro port s hup
    change Host.Outcome.next (if s.linkUp (port / 16) then s.ldReset port else s) = _
    rw [if_pos hup, State.ldReset]
  case silence =>
    intro port s hup hbme
    have hgo : (s.linkUp (port / 16) && (s.ld (ldKey port)).bme) = true := by rw [hup, hbme]; rfl
    change execLdBmeClear port s = _
    rw [execLdBmeClear, if_pos hgo]
  case timeout =>
    intro port tag s hread
    constructor
    · change execLdCplTimeout port tag s = _
      rw [execLdCplTimeout]
      exact congrArg _ (if_neg hread)
    · change execLdCompletionArrival port tag s = _
      rw [execLdCompletionArrival]
      exact congrArg _ (if_pos hread)
  case late =>
    intro port tag s hread hlate
    change execLdCompletionArrival port tag s = _
    rw [execLdCompletionArrival]
    exact congrArg _ ((if_neg (Classical.not_not.mpr hread)).trans (if_pos hlate))
  case config =>
    intro link ld offset value s hon
    constructor
    · change execCxlConfigRequest link ld false offset value s = _
      simp only [execCxlConfigRequest, hon, Bool.not_true, Bool.false_eq_true, if_false]
    · change execCxlConfigRequest link ld true offset value s = _
      simp only [execCxlConfigRequest, hon, Bool.not_true, Bool.false_eq_true, if_false, if_true]
  case cdat =>
    intro port s hup
    change execCdatRead port s = _
    rw [execCdatRead]
    exact congrArg _ (if_pos hup)
  case decoder =>
    intro port decoder base size ways gran skip lock s hup hlock hok
    change execHdmDecoderCommit port decoder true base size ways gran skip lock s = _
    simp only [execHdmDecoderCommit, hup, hlock, hok, Bool.not_true, Bool.false_eq_true, if_false, if_true]
  case extents =>
    intro port first count s hup
    exact ⟨congrArg _ (State.fmDc_of_up hup _), congrArg _ (State.fmDc_of_up hup _)⟩
  case offered =>
    intro port first count s hup hdc hin hfree hroom
    have hexec : exec (.dcAddExtent port first count) s =
        .next ((s.dcAdd port first count).2.ldAnswer (port / 16) 16 3 (extStatus (s.dcAdd port first count).1) []) :=
      congrArg _ (State.fmDc_of_up hup _)
    rw [State.dcAdd_of_free hdc hin hfree hroom] at hexec
    refine ⟨_, hexec, fun b hb => ?_, ?_, ?_, ?_⟩
    · rw [State.ldAnswer, State.send_ld, State.ld_modLd_same]
      exact Tab.get_setAll_of_mem (mem_blocksFrom hb.1 hb.2) _
    · rw [State.ldAnswer, State.send_ld, State.ld_modLd_same]
    · rw [State.ldAnswer, State.send_mem, State.modLd_mem]
    · rw [State.ldAnswer, State.send_dict, State.modLd_dict]

end

section
/-! The mailbox of a logical device, and the lengths of what it answers (R254, R264). -/
namespace Sys2Proof.Machine

variable {s : State} {port : Nat}

theorem State.mbox_of_up (h : s.ldUp port = true) (r : Nat × List Byte × State) :
    s.mbox port r = .next (r.2.2.ldAnswer (port / 16) (port % 16) 1 r.1 r.2.1) := by
  rw [State.mbox, if_pos h]

theorem State.dcMbox_of_up (h : s.ldUp port = true) (hdc : (s.link (port / 16)).dc = true) (r : Nat × List Byte × State) :
    s.dcMbox port r = .next (r.2.2.ldAnswer (port / 16) (port % 16) 1 r.1 r.2.1) := by
  rw [State.dcMbox, if_pos hdc, State.mbox_of_up h]

@[simp] theorem leBytes_length (n v : Nat) : (leBytes n v).length = n := by
  induction n generalizing v with
  | zero => rfl
  | succ n ih => rw [leBytes, List.length_cons, ih]

theorem EventRec.bytes_length (r : EventRec) : r.bytes.length = 128 := padTo_length _ _

end Sys2Proof.Machine
end

section
open Sys2Proof.Machine

/-- Settles O42: a mailbox command that only reports answers its payload from the state and leaves the state. It rests on the model's
choices of log 22. -/
theorem mailboxReads : Obligations.MailboxReads := by
  unfold Obligations.MailboxReads
  refine ⟨?fixed, ?lists, ?log, ?records, ?capacity, ?entry, ?entryInvalid⟩
  case fixed =>
    intro port opcode s hup
    exact ⟨State.mbox_of_up hup _, State.mbox_of_up hup _, State.mbox_of_up hup _, State.mbox_of_up hup _, State.mbox_of_up hup _,
      State.mbox_of_up hup _, State.mbox_of_up hup _, State.mbox_of_up hup _, State.mbox_of_up hup _⟩
  case lists =>
    intro port dpa length start s hup
    refine ⟨⟨_, State.mbox_of_up hup _, padTo_length _ _⟩, ⟨_, State.mbox_of_up hup _⟩, ⟨_, State.mbox_of_up hup _⟩,
      ⟨_, State.mbox_of_up hup _, ?_⟩⟩
    simp only [List.length_append, leBytes_length]
  case log =>
    intro port offset length s hup hin
    change execGetLog port celUuid offset length s = _
    rw [execGetLog]
    simp only [ne_eq, not_true_eq_false, if_false, if_neg (Nat.not_lt.mpr hin)]
    exact State.mbox_of_up hup _
  case records =>
    intro port log s hup hlog
    change ∃ d, execGetEventRecords port log s = _ ∧ _
    rw [execGetEventRecords]
    simp only [if_neg (Nat.not_le.mpr hlog), State.mbox_of_up hup]
    simp only [List.append_assoc]
    refine ⟨_, rfl, ?_⟩
    simp only [List.length_append, List.length_cons, List.length_nil, leBytes_length, zeros, List.length_replicate, List.length_flatMap,
      EventRec.bytes_length, List.map_const', List.sum_replicate_nat]
    omega
  case capacity =>
    intro port count start s hup hdc hstart
    refine ⟨⟨_, State.dcMbox_of_up hup hdc _⟩, ?_⟩
    change ∃ d, execGetDcExtentList port count start s = _
    rw [execGetDcExtentList]
    simp only [if_neg (Nat.not_lt.mpr hstart)]
    exact ⟨_, State.dcMbox_of_up hup hdc _⟩
  case entry =>
    intro port index sub s hup hrest hmay hdict
    change execDictRead port index sub s = _
    rw [execDictRead, if_neg (by simp [hmay, hdict]), if_neg (Classical.not_not.mpr hrest), State.mbox_of_up hup]
  case entryInvalid =>
    intro port index sub s hup hrest hmay hdict
    change execDictRead port index sub s = _
    rw [execDictRead, if_neg (by simp [hmay, hdict]), if_pos hrest, State.mbox_of_up hup]

end

section
/-! What a mailbox command that writes leaves (R259, R261, R264, R336). -/
namespace Sys2Proof.Machine

variable {s : State}

theorem cut_length {α : Type} {off n : Nat} {l : List α} (h : off + n ≤ l.length) : (cut off n l).length = n := by
  rw [cut, List.length_take, List.length_drop]
  omega

/-- A byte with a setting in its low two bits and nothing in the next two passes the check of an interrupt policy. -/
theorem policy_sound {v : Nat} (h : v % 16 ≤ 1) : (decide (1 < v % 4) || v / 4 % 4 != 0) = false := by
  have hlow : ¬1 < v % 4 := by omega
  have hnext : v / 4 % 4 = 0 := by omega
  rw [decide_eq_false hlow, hnext]
  rfl

/-- Four settings read back in order. -/
theorem Tab.get_setFour (v : Nat → Nat) (t : Tab Nat) :
    (List.range 4).map (fun i => Tab.get i ((List.range 4).foldl (fun t i => Tab.set i (v i) t) t)) = (List.range 4).map v := by
  simp [List.range_succ, Tab.get_set_other]

/-- The alert configuration that valid settings leave (R336). -/
def alertAfter (settings alert : List Byte) : List Byte :=
  let valid := ((settings[0]?).getD 0).toNat
  let old := padTo 12 alert
  let en := (((settings[1]?).getD 0).toNat &&& valid) ||| (((old[1]?).getD 0).toNat &&& (3 - valid))
  [0] ++ leBytes 1 en ++ (if valid.testBit 0 then cut 2 1 settings else cut 2 1 old) ++ [0] ++
    (if valid.testBit 1 then cut 4 2 settings else cut 4 2 old) ++ zeros 6

theorem alertAfter_length {settings : List Byte} (h : settings.length = 12) (alert : List Byte) : (alertAfter settings alert).length = 12 := by
  have h1 : (cut 2 1 settings).length = 1 := cut_length (by omega)
  have h2 : (cut 4 2 settings).length = 2 := cut_length (by omega)
  have h3 : (cut 2 1 (padTo 12 alert)).length = 1 := cut_length (by rw [padTo_length]; decide)
  have h4 : (cut 4 2 (padTo 12 alert)).length = 2 := cut_length (by rw [padTo_length]; decide)
  have hone (b : Bool) : (if b then cut 2 1 settings else cut 2 1 (padTo 12 alert)).length = 1 := by cases b <;> assumption
  have htwo (b : Bool) : (if b then cut 4 2 settings else cut 4 2 (padTo 12 alert)).length = 2 := by cases b <;> assumption
  simp only [alertAfter, List.length_append, List.length_cons, List.length_nil, leBytes_length, hone, htwo, zeros, List.length_replicate]

/-- Both enables valid: the new ones stand. -/
theorem alertAfter_enables {settings : List Byte} (hvalid : ((settings[0]?).getD 0).toNat = 3) (hlt : ((settings[1]?).getD 0).toNat < 4)
    (alert : List Byte) : ((alertAfter settings alert)[1]?).getD 0 = (settings[1]?).getD 0 := by
  have hmask : ((settings[1]?).getD 0).toNat &&& 3 = ((settings[1]?).getD 0).toNat := by
    rw [show 3 = 2 ^ 2 - 1 from rfl, Nat.and_two_pow_sub_one_eq_mod, Nat.mod_eq_of_lt hlt]
  have hen : (alertAfter settings alert)[1]? = some (BitVec.ofNat 8 ((settings[1]?).getD 0).toNat) := by
    simp only [alertAfter, hvalid, hmask, Nat.sub_self, Nat.and_zero, Nat.or_zero, leBytes]
    rfl
  rw [hen, Option.getD_some, BitVec.ofNat_toNat, BitVec.setWidth_eq]

/-- The lines of a block that is marked, each of them (R88). -/
theorem Tab.get_markAll {j : Nat} (hj : j < 64) (b : Nat) (t : Tab Bool) :
    Tab.get (64 * b + j) ((List.range 64).foldl (fun t j => Tab.set (64 * b + j) true t) t) = true := by
  have hmap := List.foldl_map (f := fun j => 64 * b + j) (g := fun (t : Tab Bool) k => Tab.set k true t) (l := List.range 64) (init := t)
  rw [← hmap]
  exact Tab.get_setAll_of_mem (List.mem_map.mpr ⟨j, List.mem_range.mpr hj, rfl⟩) t

/-- Poison into an explicit T0 window that the LD may write marks its lines. -/
theorem State.injectPoison_of_t0 {port dpa w : Nat} {v : View} (hmay : s.mayWrite port dpa = some (w, v)) (hkind : s.par (P.winKind w) = wT0) :
    s.injectPoison port dpa = (mbOk, [], s.modMem (fun m =>
      { m with t0marks := (List.range 64).foldl (fun t j => Tab.set (64 * (dpa / 4096) + j) true t) m.t0marks })) := by
  have hfactor : s.factorWin w = false := by rw [State.factorWin, hkind]; rfl
  have hgo (area : Nat) : ¬(wT0 = wGradient ∨ (s.factorWin w = true ∧ (area = 7 ∨ (area = 0 ∧ wT0 = wFactor)))) := by
    rw [hfactor]
    rintro (h | h)
    · exact absurd h (by decide)
    · exact absurd h.1 (by decide)
  simp only [State.injectPoison, hmay, hkind, if_neg (hgo _), if_true]

end Sys2Proof.Machine
end

section
open Sys2Proof.Machine

/-- Settles O43: a mailbox command whose input is sound has its effect and answers Success. It rests on the model's choices of log 22. -/
theorem mailboxWrites : Obligations.MailboxWrites := by
  unfold Obligations.MailboxWrites
  refine ⟨?clear, ?policy, fun _ _ _ h => State.mbox_of_up h _, ?alerts, ?inject, ?unpoison, ?accept, ?release⟩
  case clear =>
    intro port log handles s hup hlog holdest
    change execClearEventRecords port log false handles s = _
    simp only [execClearEventRecords, if_neg (Nat.not_le.mpr hlog), Bool.false_eq_true, if_false, if_pos holdest]
    exact State.mbox_of_up hup _
  case policy =>
    intro port a b c d s hup ha hb hc hd
    have hall : (List.range 4).any (fun i => decide (1 < (([a, b, c, d][i]?).getD 0).toNat % 4) ||
        (([a, b, c, d][i]?).getD 0).toNat / 4 % 4 != 0) = false := by
      change ((decide (1 < a.toNat % 4) || a.toNat / 4 % 4 != 0) || ((decide (1 < b.toNat % 4) || b.toNat / 4 % 4 != 0) ||
        ((decide (1 < c.toNat % 4) || c.toNat / 4 % 4 != 0) || ((decide (1 < d.toNat % 4) || d.toNat / 4 % 4 != 0) || false)))) = false
      rw [policy_sound ha, policy_sound hb, policy_sound hc, policy_sound hd]
      rfl
    have hsound : ¬([a, b, c, d].length ≠ 4 ∨ (List.range 4).any (fun i => decide (1 < (([a, b, c, d][i]?).getD 0).toNat % 4) ||
        (([a, b, c, d][i]?).getD 0).toNat / 4 % 4 != 0) = true) := by
      rw [hall]
      simp
    have hexec : exec (.setEventInterruptPolicy port [a, b, c, d]) s = .next ((s.modLd (ldKey port) (fun l =>
        { l with policy := (List.range 4).foldl (fun t i => Tab.set i (([a, b, c, d][i]?).getD 0).toNat t) l.policy })).ldAnswer
        (port / 16) (port % 16) 1 mbOk []) := by
      change execSetEventInterruptPolicy port [a, b, c, d] s = _
      rw [execSetEventInterruptPolicy]
      simp only [if_neg hsound]
      exact State.mbox_of_up hup _
    refine ⟨_, hexec, ?_, ?_, ?_⟩
    · rw [State.ldAnswer, State.send_ld, State.ld_modLd_same]
      exact Tab.get_setFour (fun i => (([a, b, c, d][i]?).getD 0).toNat) _
    · rw [State.ldAnswer, State.send_mem, State.modLd_mem]
    · rw [State.ldAnswer, State.send_dict, State.modLd_dict]
  case alerts =>
    intro port settings s hup hlen hvalid hen
    have hsound : ¬(settings.length ≠ 12 ∨ 4 ≤ ((settings[0]?).getD 0).toNat ∨ 4 ≤ ((settings[1]?).getD 0).toNat) := by omega
    have hexec : exec (.setAlertConfiguration port settings) s = .next ((s.modLd (ldKey port) (fun l =>
        { l with alert := alertAfter settings l.alert })).ldAnswer (port / 16) (port % 16) 1 mbOk []) := by
      change execSetAlertConfiguration port settings s = _
      rw [execSetAlertConfiguration, if_neg hsound, State.mbox_of_up hup]
      rfl
    refine ⟨_, hexec, ?_, fun hboth => ?_, ?_, ?_⟩
    · rw [State.ldAnswer, State.send_ld, State.ld_modLd_same]
      exact alertAfter_length hlen _
    · rw [State.ldAnswer, State.send_ld, State.ld_modLd_same]
      exact alertAfter_enables hboth hen _
    · rw [State.ldAnswer, State.send_mem, State.modLd_mem]
    · rw [State.ldAnswer, State.send_dict, State.modLd_dict]
  case inject =>
    intro port dpa w v s hup hdpa halign _ hmay hkind
    have hexec : exec (.injectPoison port dpa) s = .next ((s.modMem (fun m =>
        { m with t0marks := (List.range 64).foldl (fun t j => Tab.set (64 * (dpa / 4096) + j) true t) m.t0marks })).ldAnswer
        (port / 16) (port % 16) 1 mbOk []) := by
      change execInjectPoison port dpa s = _
      rw [execInjectPoison, if_neg (by omega), State.injectPoison_of_t0 hmay hkind, State.mbox_of_up hup]
    refine ⟨_, hexec, fun j hj => ?_, ?_, ?_⟩
    · rw [State.ldAnswer, State.send_mem, State.modMem_mem]
      dsimp only
      rw [Tab.get_markAll hj]
    · rw [State.ldAnswer, State.send_mem, State.modMem_mem]
    · rw [State.ldAnswer, State.send_mem, State.modMem_mem]
  case unpoison =>
    intro port dpa data ph s hup hdpa halign hserving hmay
    obtain ⟨target, htarget⟩ := Option.isSome_iff_exists.mp hmay
    change execClearPoison port dpa data ph s = _
    rw [execClearPoison, if_neg (by omega)]
    simp only [htarget, hserving, Bool.not_true, Bool.false_eq_true, if_false]
    exact State.mbox_of_up hup _
  case accept =>
    intro port accepted s hup hdc hcount hnew hoffered hdistinct
    have hsame : ((rangeBlocks accepted).any (fun x => Tab.get x (s.ld (ldKey port)).extents) ||
        (distinct (rangeBlocks accepted)).length != (rangeBlocks accepted).length) = false := by
      rw [hnew, hdistinct, Bool.false_or]
      exact bne_self_eq_false _
    have hexec : exec (.addDcResponse port accepted) s = .next ((s.modLd (ldKey port) (fun l => { l with
        offered := [], extents := (rangeBlocks accepted).foldl (fun t x => Tab.set x true t) l.extents
        dcGen := if (rangeBlocks accepted).isEmpty then l.dcGen else (l.dcGen + 1) % 2 ^ 32 })).ldAnswer (port / 16) (port % 16) 1 mbOk []) := by
      change execAddDcResponse port accepted s = _
      simp only [execAddDcResponse, if_neg (Nat.not_lt.mpr hcount), hsame, hoffered, Bool.false_eq_true, if_false]
      exact State.dcMbox_of_up hup hdc _
    refine ⟨_, hexec, ?_, fun x hx => ?_, ?_, ?_⟩
    · rw [State.ldAnswer, State.send_ld, State.ld_modLd_same]
    · rw [State.ldAnswer, State.send_ld, State.ld_modLd_same]
      exact Tab.get_setAll_of_mem hx _
    · rw [State.ldAnswer, State.send_mem, State.modLd_mem]
    · rw [State.ldAnswer, State.send_dict, State.modLd_dict]
  case release =>
    intro port released s hup hdc hcount hheld hdistinct
    change execReleaseDc port released s = _
    simp only [execReleaseDc, if_neg (Nat.not_lt.mpr hcount), hdistinct, ne_eq, not_true_eq_false, hheld, Bool.false_eq_true, if_false]
    exact State.dcMbox_of_up hup hdc _

end

section
open Sys2Proof.Machine

/-- Settles O44: each reset, silence and power event of the service function runs the named operation. It rests on the model's choices of
log 21 and 27. -/
theorem serviceResets : Obligations.ServiceResets := by
  unfold Obligations.ServiceResets
  refine ⟨?flr, fun _ => rfl, ?bmeClear, ?bmeSet, fun _ _ => rfl, ?released, ?early, ?linkUp, ?grace, ?hot, ?d0, ?cold, ?waited, ?wake⟩
  case flr =>
    intro s hthere hreset
    change Host.Outcome.next s.svcFlr = _
    rw [State.svcFlr, if_pos (by rw [hthere, hreset]; rfl)]
  case bmeClear =>
    intro s hbme
    change Host.Outcome.next s.bmeClear = _
    rw [State.bmeClear, if_pos hbme]
  case bmeSet =>
    intro s hthere hreset hflr
    change Host.Outcome.next s.bmeSet = _
    rw [State.bmeSet, if_pos (by rw [hthere, hreset, hflr]; rfl)]
  case released =>
    intro s hoff hready
    change execPerstDeassert s = _
    rw [execPerstDeassert, if_neg (by rw [hoff]; decide), if_pos hready, State.perstUp]
  case early =>
    intro s hoff hready
    change execPerstDeassert s = _
    rw [execPerstDeassert, if_neg (by rw [hoff]; decide), if_neg (by rw [hready]; decide)]
  case linkUp =>
    intro s hoff hstate
    have hgo : (s.svc.perstOff || s.svc.dstate == 2) = false := by
      rw [hoff, Bool.false_or]
      exact beq_eq_false_iff_ne.mpr hstate
    change execSvcLinkUp s = _
    rw [execSvcLinkUp, if_neg (Bool.eq_false_iff.mp hgo)]
  case grace =>
    intro s hdown hat
    change execSvcLinkDownGraceExpiry s = _
    rw [execSvcLinkDownGraceExpiry, if_pos ⟨hdown, hat⟩]
  case hot =>
    intro s hthere hstate hreset hflr
    change Host.Outcome.next s.d3hot = _
    rw [State.d3hot, if_pos (by rw [hthere, hstate, hreset, hflr]; rfl)]
  case d0 =>
    intro s hstate
    change Host.Outcome.next s.d0Entry = _
    rw [State.d0Entry, if_pos hstate]
  case cold =>
    intro s hthere
    change execSvcD3coldEntry s = _
    rw [execSvcD3coldEntry]
    exact congrArg _ (if_pos hthere)
  case waited =>
    intro r s hfind hstate hat
    change execSvcD3WaitExpiry s = _
    simp only [execSvcD3WaitExpiry, hfind]
    rw [if_pos ⟨hstate, hat⟩]
  case wake =>
    intro s hstatus
    change execWakeCauseSignal 2 s = _
    rw [execWakeCauseSignal]
    exact congrArg _ (if_pos (bne_iff_ne.mpr hstatus))

end

section
/-! A BAR0 write of a whole slot. -/
namespace Sys2Proof.Machine

/-- A write of 8 bytes at an aligned offset of an entry without restricted domain leaves what applying its value leaves. -/
theorem State.barPut_of_applyWrite {s t : State} {off v : Nat} {ph : Phys} (hbar : s.barOn = true) (hdict : s.dictOn = true)
    (halign : off % 8 = 0) (hcard : (cardOf (off / 8)).any (fun c => !c.dom) = true)
    (hwrite : s.applyWrite (off / 8) (v % 2 ^ 64) ph true = .ok t) : s.barPut off 8 v ph = t := by
  have hgo : (!s.barOn || ((8 : Nat) != 4 && (8 : Nat) != 8) || off % 8 != 0) = false := by
    rw [hbar, halign]
    rfl
  unfold State.barPut
  extract_lets k
  rw [if_neg (Bool.eq_false_iff.mp hgo), if_neg (by rw [hdict]; decide)]
  cases hcardOf : cardOf k with
  | none => simp [k, hcardOf] at hcard
  | some card =>
    have hdom : card.dom = false := by simpa [k, hcardOf] using hcard
    have hsize : sizeRefuse card 8 off = false := rfl
    have hfull : s.applyWrite k (v % 2 ^ (8 * 8)) ph true = .ok t := hwrite
    simp only [hdom, hsize, hfull, Bool.false_eq_true, if_false]

end Sys2Proof.Machine
end

section
open Sys2Proof.Machine

/-- Settles O45: requests, completions and register accesses of the service function run the named operation where their checks pass. It
rests on the model's choices of log 15, 21, 27, 59, 86 and 114. -/
theorem serviceRequests : Obligations.ServiceRequests := by
  unfold Obligations.ServiceRequests
  refine ⟨?grant, ?completion, ?quarantine, ?config, ?read, ?write, ?ltr, ?aspm⟩
  case grant =>
    intro n i r s hopen hpick hfind hhead
    change execSvcEgressGrant s = _
    simp only [execSvcEgressGrant, hopen, hpick, hfind, hhead, Bool.not_true, Bool.false_eq_true, if_false]
  case completion =>
    intro tag defect s hecrc htag
    have hgood : (defect.badEcrc && (s.svcReg (0x118 / 4)).testBit 8) = false := by
      rcases hecrc with h | h <;> rw [h]
      · rfl
      · exact Bool.and_false _
    constructor
    · change execSvcCompletionArrival tag defect s = _
      simp only [execSvcCompletionArrival, hgood, htag, Bool.false_eq_true, if_false, if_true]
    · change execSvcCompletionTimeout tag s = _
      rw [execSvcCompletionTimeout, if_pos htag]
  case quarantine =>
    intro tag t s hfind hat
    change execTagQuarantineExpiry tag s = _
    simp only [execTagQuarantineExpiry, hfind, if_pos hat]
  case config =>
    intro offset value s hstate hoff hreset hflr
    have hthere : (s.svc.dstate == 2 || s.svc.perstOff) = false := by
      rw [hoff, Bool.or_false]
      exact beq_eq_false_iff_ne.mpr hstate
    constructor
    · change execSvcConfigRequest false offset value s = _
      simp only [execSvcConfigRequest, hthere, hreset, hflr, Bool.or_self, Bool.false_eq_true, if_false]
    · change execSvcConfigRequest true offset value s = _
      simp only [execSvcConfigRequest, hthere, hreset, hflr, Bool.or_self, Bool.false_eq_true, if_false, if_true]
  case read =>
    intro offset s hbar halign
    have hgo : (!s.barOn || ((8 : Nat) != 4 && (8 : Nat) != 8) || offset.val % 8 != 0) = false := by
      rw [hbar, halign]
      rfl
    change execBar0Read offset 8 s = _
    unfold execBar0Read
    extract_lets k
    rw [if_neg (Bool.eq_false_iff.mp hgo), halign]
  case write =>
    intro offset data ph s hpoison hbar hdict halign hcard hcheck hindex hobj hdev
    have hkey : ¬(0x1410 * 256 ≤ offset.val / 8 ∧ offset.val / 8 < 0x1411 * 256) := by omega
    have hwrite : s.applyWrite (offset.val / 8) (data.value % 2 ^ 64) ph true =
        .ok (s.storeWrite (offset.val / 8) (data.value % 2 ^ 64)) := by
      simp only [State.applyWrite, State.writeEffect, hcheck, hobj, hdev, if_neg hkey, if_true, Option.getD_none]
    change execDictWrite offset 8 data ph s = _
    rw [execDictWrite, if_neg (by rw [hpoison]; decide)]
    exact congrArg _ (State.barPut_of_applyWrite hbar hdict halign hcard hwrite)
  case ltr =>
    intro s henabled hthere hreset hneeds hltr
    have hgo : (!(s.svcReg (0x88 / 4)).testBit 10 || !s.svcThere || s.svc.inReset || s.ltrNeeds == s.svc.ltr) = false := by
      rw [henabled, hthere, hreset, hneeds, hltr]
      rfl
    change execLtrSend s = _
    unfold execLtrSend
    extract_lets r v on
    rw [if_neg (Bool.eq_false_iff.mp hgo)]
    simp only [on, hneeds, if_true, r, v]
  case aspm =>
    intro value s htakes
    exact congrArg _ (State.barWrite_of_takes htakes _)

end

section
/-! The boot phases, and the writes of a slot that the restricted domain and the map reader take. -/
namespace Sys2Proof.Machine

/-- The check of BOOT_PHASE_END lets a powered device in INIT pass that is not in recovery. -/
theorem State.booting {s : State} (happlied : s.power.applied = true) (htripped : s.power.tripped = false)
    (hdev : s.dev = dsInit) (hrec : s.boot.recovery = false) :
    (!s.power.applied || s.power.tripped || s.dev != dsInit || s.boot.recovery) = false := by
  rw [happlied, htripped, hdev, hrec]
  rfl

/-- A write that passes its checks names an entry outside the restricted domain. -/
theorem State.cardOf_of_checkOne {s : State} {k v : Nat} (hcheck : s.checkOne k v = none) :
    (cardOf k).any (fun c => !c.dom) = true := by
  cases hcard : cardOf k with
  | none => simp [State.checkOne, State.checkWrite, hcard] at hcheck
  | some card =>
    cases hdom : card.dom with
    | false => simp [hdom]
    | true => simp [State.checkOne, State.checkWrite, State.stateRefuse, hcard, hdom] at hcheck

/-- The plain effect of a write leaves every other parameter. -/
theorem State.storeWrite_par_other {s : State} {j k v : Nat} (h : j ≠ k) : (s.storeWrite k v).par j = s.par j := by
  unfold State.storeWrite
  split
  · rfl
  · split
    · exact State.par_setPar_other s h _
    · rfl
    · split <;> exact State.par_setPar_other s h _

/-- The plain effect of a write leaves memory. -/
theorem State.storeWrite_mem (s : State) (k v : Nat) : (s.storeWrite k v).mem = s.mem := by
  have hk : s.Keeps [.dict] (s.storeWrite k v) := State.storeWrite_keeps (.refl _) .rfl
  exact hk.mem_eq (by decide) (by decide) (by decide)

/-- The latch shows the selected copy's word and leaves memory. -/
theorem State.diagLatch_mem (s : State) (ph : Phys) : (s.diagLatch ph).mem = s.mem := by
  have hk : s.Keeps [.dict, .freeCtr] (s.diagLatch ph) := State.diagLatch_keeps (.refl _) .rfl
  exact hk.mem_eq (by decide) (by decide) (by decide)

/-- A primary map copy that reads good is latched as it stands, its low and high halves apart. -/
theorem State.diagLatch_shows {s : State} {ph : Phys} (hpri : ph.mapPri = []) (hmir : ph.mapMir = [])
    (hcopy : s.par P.diagMapCopy = 0) :
    (s.diagLatch ph).par P.diagMapLo + 2 ^ 64 * (s.diagLatch ph).par P.diagMapHi =
      (Tab.getD 0 (s.par P.diagMapDpa / 4096) s.mem.mapPri).toNat := by
  have hlt := (Tab.getD 0 (s.par P.diagMapDpa / 4096) s.mem.mapPri).isLt
  unfold State.diagLatch
  extract_lets b pri ue w ok v t
  have hpriB : pri = true := beq_iff_eq.mpr hcopy
  have hue : ue = false := by simp [ue, hpri, hmir]
  have hw : w = Tab.getD 0 (s.par P.diagMapDpa / 4096) s.mem.mapPri := by simp [w, hpriB, b]
  have hv : v = w.toNat := by simp [v, hue]
  rw [State.par_setPar_other _ (by decide), State.par_setPar_other _ (by decide), State.par_setPar_same,
    State.par_setPar_other _ (by decide), State.par_setPar_same, hv, hw]
  omega

end Sys2Proof.Machine
end

section
open Sys2Proof.Machine

/-- Settles O46: each phase of the boot, the firmware update and the key slots run the named operation, a write of dom_data stages its
bytes, and the latch shows the map entry selected. It rests on the model's choices of log 9, 48, 49, 50, 51, 57 and 115. -/
theorem bootAndFirmware : Obligations.BootAndFirmware := by
  unfold Obligations.BootAndFirmware
  refine ⟨?powerOn, ?verify, ?bist, ?train, ?record, ?last, ?commit, ?written, ?erase, ?load, ?stage, ?latch⟩
  case powerOn =>
    intro flashOk pufOk bist remaps dead s happlied htripped hdev hrec hphase href
    change execBootPhaseEnd flashOk pufOk bist remaps dead s = _
    simp only [execBootPhaseEnd, State.booting happlied htripped hdev hrec, hphase, href, Bool.false_eq_true, if_false]
  case verify =>
    intro flashOk pufOk bist remaps dead s happlied htripped hdev hrec hphase
    change execBootPhaseEnd flashOk pufOk bist remaps dead s = _
    simp only [execBootPhaseEnd, State.booting happlied htripped hdev hrec, hphase, Bool.false_eq_true, if_false]
  case bist =>
    intro flashOk pufOk bist remaps dead s happlied htripped hdev hrec hphase
    change execBootPhaseEnd flashOk pufOk bist remaps dead s = _
    simp only [execBootPhaseEnd, State.booting happlied htripped hdev hrec, hphase, Bool.false_eq_true, if_false]
  case train =>
    intro flashOk pufOk bist remaps dead s happlied htripped hdev hrec hphase
    change execBootPhaseEnd flashOk pufOk bist remaps dead s = _
    simp only [execBootPhaseEnd, State.booting happlied htripped hdev hrec, hphase, Bool.false_eq_true, if_false]
  case record =>
    intro flashOk pufOk bist remaps dead s happlied htripped hdev hrec hphase
    change execBootPhaseEnd flashOk pufOk bist remaps dead s = _
    simp only [execBootPhaseEnd, State.booting happlied htripped hdev hrec, hphase, Bool.false_eq_true, if_false]
  case last =>
    intro flashOk pufOk bist remaps dead s happlied htripped hdev hrec hphase
    change execBootPhaseEnd flashOk pufOk bist remaps dead s = _
    simp only [execBootPhaseEnd, State.booting happlied htripped hdev hrec, hphase, Bool.false_eq_true, if_false]
  case commit =>
    intro s htakes
    change (_ → Host.Outcome.next (s.barWrite P.fwCommit 1 State.fwCommit) = _) ∧
      (_ → Host.Outcome.next (s.barWrite P.fwCommit 1 State.fwCommit) = _)
    rw [State.barWrite_of_takes htakes, State.fwCommit]
    exact ⟨fun hpass => congrArg _ (if_neg (Classical.not_not.mpr hpass)), fun hfail => congrArg _ (if_pos hfail)⟩
  case written =>
    intro s hstate
    change execFwWriteComplete true s = _
    rw [execFwWriteComplete, if_neg (Classical.not_not.mpr hstate)]
    rfl
  case erase =>
    intro slot s htakes
    change Host.Outcome.next (s.barWrite (P.keyErase slot) 1 (fun s => s.keyErase slot)) = _
    rw [State.barWrite_of_takes htakes, State.keyErase]
  case load =>
    intro session slot key1 key2 x s hsession hauth hdev hwarm hstate hkeys
    have hgo : (!x.mauth || (s.dev != dsStandby && s.dev != dsService) || s.warm) = false := by
      rcases hdev with h | h <;> rw [hauth, hwarm, h] <;> rfl
    change execKeyLoad session slot key1 key2 s = _
    unfold execKeyLoad State.keyLoad
    simp only [hsession, hgo, if_neg hstate, if_neg hkeys, Bool.false_eq_true, if_false]
    rfl
  case stage =>
    intro value slot s hbar hdict hselect hstate hoff hne hlen hcheck
    have hslot : slot.val < 256 := slot.isLt
    have hdiv : P.domData slot * 8 / 8 = P.domData slot := by omega
    have hwrite : ∃ u, s.applyWrite (P.domData slot) (value % 2 ^ 64) default true = .ok u ∧
        u.boot.stage = s.boot.stage ++ leBytes 8 (value % 2 ^ 64) ∧ u.mem = s.mem := by
      have hkey : 0x1410 * 256 ≤ P.domData slot ∧ P.domData slot < 0x1411 * 256 := by
        unfold P.domData
        omega
      have hmod : P.domData slot % 256 = slot.val := by
        unfold P.domData
        omega
      simp only [State.applyWrite, hcheck, if_true, if_pos hkey, State.domWrite, hmod]
      rw [if_neg (Classical.not_not.mpr hselect)]
      have hfits : ¬((s.par P.domOffset + 8 * slot.val ≠ 0 ∧ s.par P.domOffset + 8 * slot.val ≠ s.boot.stage.length) ∨
          66060288 < s.par P.domOffset + 8 * slot.val + (leBytes 8 (value % 2 ^ 64)).length) := by
        rw [leBytes_length]
        omega
      unfold State.stageBytes
      extract_lets n st full t
      rw [if_neg hstate, if_neg hfits]
      refine ⟨_, rfl, ?_⟩
      have hstaged : t.boot.stage = s.boot.stage ++ leBytes 8 (value % 2 ^ 64) := if_neg hne
      rw [if_neg hne]
      split
      · exact ⟨hstaged, State.setPar_mem ..⟩
      · exact ⟨hstaged, rfl⟩
    obtain ⟨u, hok, hstage, hmem⟩ := hwrite
    refine ⟨u, ?_, hstage, hmem⟩
    change Host.Outcome.next (s.barPut (P.domData slot * 8) 8 value default) = _
    rw [State.barPut_of_applyWrite hbar hdict (Nat.mul_mod_left _ _) (by rw [hdiv]; exact State.cardOf_of_checkOne hcheck)
      (by rw [hdiv]; exact hok)]
  case latch =>
    intro value ph s htakes hpri hmir
    have hobj : ∀ v, s.objWrite P.diagMapLatch v ph = some ((s.storeWrite P.diagMapLatch v).diagLatch ph) := fun _ => rfl
    have htakes' := htakes
    simp only [State.takes, Bool.and_eq_true, Option.isNone_iff_eq_none] at htakes'
    obtain ⟨⟨hbar, hdict⟩, hcheck⟩ := htakes'
    have hwrite : s.applyWrite P.diagMapLatch (value % 2 ^ 64) ph true =
        .ok ((s.storeWrite P.diagMapLatch (value % 2 ^ 64)).diagLatch ph) := by
      simp only [State.applyWrite, State.writeEffect, hcheck, hobj, if_true]
      rfl
    have hdiv : P.diagMapLatch * 8 / 8 = P.diagMapLatch := rfl
    refine ⟨(s.storeWrite P.diagMapLatch (value % 2 ^ 64)).diagLatch ph, ?_, fun hcopy hdpa => ?_, ?_⟩
    · change Host.Outcome.next (s.barPut (P.diagMapLatch * 8) 8 value ph) = _
      rw [State.barPut_of_applyWrite hbar hdict (Nat.mul_mod_left _ _) (by rw [hdiv]; exact State.cardOf_of_checkOne hcheck)
        (by rw [hdiv]; exact hwrite)]
    · have hpar : ∀ j, j ≠ P.diagMapLatch → (s.storeWrite P.diagMapLatch (value % 2 ^ 64)).par j = s.par j := fun j hj =>
        State.storeWrite_par_other hj
      rw [State.diagLatch_shows hpri hmir (by rw [hpar _ (by decide), hcopy]), hpar _ (by decide), State.storeWrite_mem]
    · rw [State.diagLatch_mem, State.storeWrite_mem]

end

section
/-! A new request of a session (R419). -/
namespace Sys2Proof.Machine

/-- A wake of the hub leaves every part of the state but the dictionary and the power record. -/
theorem State.wakeHub_keeps_rest (s : State) (cause : Nat) : s.Keeps [.dict, .power] (s.wakeHub cause) :=
  State.wakeHub_keeps (.refl _) .rfl

theorem State.wakeHub_glody (s : State) (cause : Nat) : (s.wakeHub cause).glody = s.glody :=
  (s.wakeHub_keeps_rest cause).same (p := .glody) (by decide)

theorem State.wakeHub_boot (s : State) (cause : Nat) : (s.wakeHub cause).boot = s.boot :=
  (s.wakeHub_keeps_rest cause).same (p := .boot) (by decide)

/-- A wake of the hub only counts: the phase of a warm reset stays. -/
theorem State.wakeHub_par_other {s : State} {j cause : Nat} (h : j ≠ P.wkQueue) : (s.wakeHub cause).par j = s.par j := by
  unfold State.wakeHub
  split
  · unfold State.queueWake
    split
    · rfl
    · rw [State.countWakes, State.par_setPar_other _ h]
      rfl
  · rfl

theorem State.wakeHub_warmShut (s : State) (cause : Nat) : (s.wakeHub cause).warmShut = s.warmShut := by
  rw [State.warmShut, State.wakeHub_par_other (by decide), State.warmShut]

theorem State.enqueue_sessions (s : State) (d : Datagram) : (s.enqueue d).glody.sessions = s.glody.sessions := by
  unfold State.enqueue
  extract_lets q p
  split
  · rfl
  · split
    · rfl
    · rw [State.count, State.setPar_glody]

/-- A request whose tag holds, in a session that qualifies, with a sequence number above the session's last and below the
closing one, is executed; the reply becomes the session's last and is answered. -/
theorem State.request_fresh {s : State} {session seq src op : Nat} {x : GSession} {f : State → Nat × List Byte × State}
    (hrec : s.boot.recovery = false) (hon : s.gOn = true) (hshut : s.warmShut = false) (hsession : session ≠ 0)
    (hqual : (s.wakeHub 17).qualifies session = true)
    (hfind : (s.wakeHub 17).glody.sessions.find? (fun x => x.id == session) = some x) (hlast : x.last < seq)
    (hseq : seq < 2 ^ 32 - 1) :
    let r := f ((s.wakeHub 17).spdmSeen session)
    let ans := gReply 2 op r.1 session seq src r.2.1
    let all := r.2.2.glody.sessions.filter (fun (y : GSession) => y.id != session) ++ [⟨session, seq, ans, r.2.2.now⟩]
    s.request ⟨session, seq, true, src⟩ op f =
      State.enqueue (State.setPar (r.2.2.modGlody (fun g => { g with sessions := all })) P.glodySessions all.length) ans := by
  intro r ans all
  have hopen : ((s.wakeHub 17).spdmSeen session).warmShut = false := (s.wakeHub_warmShut 17).trans hshut
  have hnew : ¬(seq < x.last ∨ ((some x).isNone = true ∧ seq = 0)) := by
    rintro (h | ⟨h, -⟩)
    · omega
    · cases h
  unfold State.request
  rw [if_neg (by rw [hrec]; decide), if_neg (by rw [hon]; decide)]
  extract_lets g t
  rw [if_pos hsession]
  unfold State.protectedReq
  extract_lets old last u stamp
  have hold : old = some x := hfind
  have hlastEq : last = x.last := by simp [last, hold]
  have hg : g u = f u := by
    simp only [g, u, t, hopen, Bool.false_and, Bool.false_eq_true, if_false]
  rw [if_neg (by rw [hqual]; exact Bool.false_ne_true), hold, hlastEq]
  dsimp -zeta only
  rw [if_neg hnew, if_neg (Nat.ne_of_gt hlast), hg]
  exact if_neg (Nat.ne_of_lt hseq)

/-- After it the session holds its sequence number and reply. -/
theorem State.request_fresh_sessions {s : State} {session seq src op : Nat} {x : GSession} {f : State → Nat × List Byte × State}
    (hrec : s.boot.recovery = false) (hon : s.gOn = true) (hshut : s.warmShut = false) (hsession : session ≠ 0)
    (hqual : (s.wakeHub 17).qualifies session = true)
    (hfind : (s.wakeHub 17).glody.sessions.find? (fun x => x.id == session) = some x) (hlast : x.last < seq)
    (hseq : seq < 2 ^ 32 - 1) :
    let r := f ((s.wakeHub 17).spdmSeen session)
    (s.request ⟨session, seq, true, src⟩ op f).glody.sessions =
      r.2.2.glody.sessions.filter (fun (y : GSession) => y.id != session) ++
        [⟨session, seq, gReply 2 op r.1 session seq src r.2.1, r.2.2.now⟩] := by
  intro r
  rw [State.request_fresh hrec hon hshut hsession hqual hfind hlast hseq, State.enqueue_sessions, State.setPar_glody]
  rfl

/-- Without the sessions of one ID the list holds none with it. -/
theorem find?_filter_id_ne (l : List GSession) (id : Nat) : (l.filter (fun x => x.id != id)).find? (fun y => y.id == id) = none := by
  simp

/-- A session that closes is gone. -/
theorem State.gClose_sessions (s : State) (id : Nat) : (s.gClose id).glody.sessions.find? (fun y => y.id == id) = none := by
  exact find?_filter_id_ne _ _

end Sys2Proof.Machine
end

section
open Sys2Proof.Machine

/-- Settles O47: a new request of a session is executed, becomes its last one and is answered. It rests on the model's choices of log 52
and 56. -/
theorem glodyRequests : Obligations.GlodyRequests := by
  unfold Obligations.GlodyRequests
  refine ⟨?read, ?write, ?readDomain, ?writeDomain, ?dcAdd, ?dcRelease, ?keepalive, ?close, ?idle, ?unprotected⟩
  case read =>
    intro session seq src x items s s1 r ans all hrec hon hshut hsession hqual hfind hlast hseq
    exact congrArg _ (State.request_fresh hrec hon hshut hsession hqual hfind hlast hseq)
  case write =>
    intro session seq src x items ph s s1 r ans all hrec hon hshut hsession hqual hfind hlast hseq
    exact congrArg _ (State.request_fresh hrec hon hshut hsession hqual hfind hlast hseq)
  case readDomain =>
    intro session seq src x key offset length s s1 r ans all hrec hon hshut hsession hqual hfind hlast hseq
    exact congrArg _ (State.request_fresh hrec hon hshut hsession hqual hfind hlast hseq)
  case writeDomain =>
    intro session seq src x key offset bytes s s1 r ans all hrec hon hshut hsession hqual hfind hlast hseq
    exact congrArg _ (State.request_fresh hrec hon hshut hsession hqual hfind hlast hseq)
  case dcAdd =>
    intro session seq src x port half ld count dpa s s1 r ans all hrec hon hshut hsession hqual hfind hlast hseq
    exact congrArg _ (State.request_fresh hrec hon hshut hsession hqual hfind hlast hseq)
  case dcRelease =>
    intro session seq src x port half ld count dpa s s1 r ans all hrec hon hshut hsession hqual hfind hlast hseq
    exact congrArg _ (State.request_fresh hrec hon hshut hsession hqual hfind hlast hseq)
  case keepalive =>
    intro session seq src x s s1 hrec hon hshut hsession hqual hfind hlast hseq
    refine ⟨_, rfl, ?_, ?_⟩
    · rw [State.request_fresh_sessions hrec hon hshut hsession hqual hfind hlast hseq]
      rw [List.find?_append, find?_filter_id_ne, Option.none_or]
      simp
    · exact (execKeepalive_keeps (.refl _) .rfl _ rfl).mem_eq (by decide) (by decide) (by decide)
  case close =>
    intro session seq src x s s1 hrec hon hshut hsession hqual hfind hlast hseq
    have hfind' : s.glody.sessions.find? (fun x => x.id == session) = some x := by rw [← s.wakeHub_glody 17, hfind]
    have hqual' : s.qualifies session = true := by
      rw [State.qualifies, State.session, ← s.wakeHub_boot 17]
      exact hqual
    refine ⟨(s.request ⟨session, seq, true, src⟩ 8 (fun s => (gOk, [], s))).gClose session, ?_, ?_, ?_⟩
    · change execClose session seq true src s = _
      have hgo : (decide (session ≠ 0) && (true && s.qualifies session && s.gOn && decide (x.last < seq)) && !s.boot.recovery &&
          !s.warmShut) = true := by
        rw [decide_eq_true hsession, hqual', hon, hrec, hshut, decide_eq_true hlast]
        rfl
      simp only [execClose, hfind', hgo, if_true]
    · exact State.gClose_sessions _ _
    · have hk : s.Keeps [.dict, .power, .boot, .glody]
          ((s.request ⟨session, seq, true, src⟩ 8 (fun s => (gOk, [], s))).gClose session) :=
        State.gClose_keeps (Within.refl _ |>.le rfl) (State.request_keeps (.refl _) .rfl fun _ ha => .mk (.mk ha))
      exact hk.mem_eq (by decide) (by decide) (by decide)
  case idle =>
    intro session x s hfind hat
    change execGlodySessionIdleExpiry session s = _
    simp only [execGlodySessionIdleExpiry, hfind, if_pos hat]
  case unprotected =>
    intro session seq op src s hrec hon hop
    change Host.Outcome.next (if op = 1 then s else s.request ⟨0, seq, false, src⟩ op (fun s => (gAuth, [], s))) = _
    rw [if_neg hop, State.request_notRead (fun h => hop (Fin.ext h)) hrec hon]

end

section
/-! What a queued reply and the content of a flash area leave. -/
namespace Sys2Proof.Machine

theorem State.enqueue_boot (s : State) (d : Datagram) : (s.enqueue d).boot = s.boot :=
  (State.enqueue_keeps (.refl _) .rfl : s.Keeps [.dict, .glody] (s.enqueue d)).same (p := .boot) (by decide)

theorem State.enqueue_mem (s : State) (d : Datagram) : (s.enqueue d).mem = s.mem :=
  (State.enqueue_keeps (.refl _) .rfl : s.Keeps [.dict, .glody] (s.enqueue d)).mem_eq (by decide) (by decide) (by decide)

theorem State.enqueue_loader (s : State) (d : Datagram) : (s.enqueue d).glody.loader = s.glody.loader := by
  unfold State.enqueue
  extract_lets q p
  split
  · rfl
  · split
    · rfl
    · rw [State.count, State.setPar_glody]

/-- An area holds the content given to it. -/
theorem Boot.area_setArea (b : Boot) (o : Nat) (d : List Byte) : (b.setArea o d).area o = d := by
  match o with
  | 0 | 1 | 2 | _ + 3 => rfl

/-- The transfer of a source is under way, and no other source's. -/
theorem State.loader_mine {s : State} {source : Nat} (hloads : s.loads source = true) :
    s.glody.loader.busy = true ∧ (s.glody.loader.busy && s.glody.loader.source != source) = false := by
  obtain ⟨hbusy, hsource⟩ := Bool.and_eq_true_iff.mp hloads
  exact ⟨hbusy, by simp [beq_iff_eq.mp hsource]⟩

end Sys2Proof.Machine
end

section
open Sys2Proof.Machine

/-- Settles O48: each SPDM, MCTP, loader and network row runs the named operation where its checks pass. It rests on the model's choices
of log 16, 52, 53, 54, 55 and 56. -/
theorem managementTraffic : Obligations.ManagementTraffic := by
  unfold Obligations.ManagementTraffic
  refine ⟨?measure, ?exchange, ?spdm, ?beat, ?mctp, ?endpoint, ?begin, ?data, ?finish, ?timeout, ?repeated, ?transmit, ?announce,
    ?beacon, ?status, ?neighbor, ?i3c⟩
  case measure =>
    intro session nonce s hon
    change execSpdmGetMeasurements session 0 false nonce s = _
    rw [execSpdmGetMeasurements, if_neg (by rw [hon]; decide)]
    rfl
  case exchange =>
    intro id mauth transport heartbeat s hon hroom hnone
    have hfree : ¬(4 ≤ s.boot.sessions.length ∨ (s.session id).isSome = true) := by
      rw [hnone]
      rintro (h | h)
      · omega
      · cases h
    change ∃ t, execSpdmKeyExchange id mauth transport heartbeat s = .next t ∧ _
    rw [execSpdmKeyExchange, if_neg (by rw [hon]; decide), if_neg hfree]
    exact ⟨_, rfl, rfl, rfl, rfl⟩
  case spdm =>
    intro session code payload s hon hpresent hcode hend
    change ∃ d, execSpdmRequest session code payload s = _
    rw [execSpdmRequest, if_neg (by rw [hon]; decide), if_neg (by rw [hpresent]; decide)]
    dsimp only
    rw [if_neg hend]
    exact ⟨_, rfl⟩
  case beat =>
    intro session x s hfind hbeat hat
    change execSpdmHeartbeatTimeout session s = _
    simp [execSpdmHeartbeatTimeout, hfind, hbeat, hat]
  case mctp =>
    intro eid length s heid
    change execMctpPacket false eid length s = _
    rw [execMctpPacket, if_neg (by exact Bool.false_ne_true)]
    rcases heid with hnone | hsome | hzero
    · rw [hnone]
      rfl
    · rw [hsome]
      exact congrArg _ (if_pos (by simp))
    · rw [hzero]
      cases s.glody.eid with
      | none => rfl
      | some e => exact congrArg _ (if_pos (Bool.or_true _))
  case endpoint =>
    intro eid s hlow hhigh
    change execSetEndpointId eid s = _
    rw [execSetEndpointId, if_pos ⟨hlow, hhigh⟩]
  case begin =>
    intro source seq length s hrec hbusy hlen
    change execBegin source seq 3 length s = _
    rw [execBegin, if_neg (by rw [hrec]; decide), if_neg (by rw [hbusy]; exact Bool.false_ne_true), if_neg (by decide), if_neg (by simp),
      if_neg (Nat.not_lt.mpr hlen)]
  case data =>
    intro source seq offset bytes s hrec hloads hne hlen hoff hfits
    obtain ⟨hbusy, hmine⟩ := State.loader_mine hloads
    have hsize : ¬(bytes.isEmpty = true ∨ 1024 < bytes.length) := by
      rintro (h | h)
      · exact hne (List.isEmpty_iff.mp h)
      · omega
    change ∃ t, execData source seq offset bytes s = .next t ∧ _
    rw [execData, if_neg (by rw [hrec]; decide)]
    dsimp only
    rw [if_neg (Bool.eq_false_iff.mp hmine), if_neg (by rw [hbusy]; decide), if_neg hsize, if_pos ⟨hoff, hfits⟩, State.lReply]
    refine ⟨_, rfl, ?_, ?_, ?_⟩
    · rw [State.enqueue_boot]
      exact Boot.area_setArea ..
    · rw [State.enqueue_loader]
      rfl
    · rw [State.enqueue_mem]
      rfl
  case finish =>
    intro source seq s u hrec hloads
    change execEnd source seq s = _
    rw [execEnd, if_neg (by rw [hrec]; decide), if_neg (Bool.eq_false_iff.mp (State.loader_mine hloads).2),
      if_neg (by rw [hloads]; decide)]
  case timeout =>
    intro s hbusy hat
    change execLoaderTransferTimeout s = _
    rw [execLoaderTransferTimeout, if_pos (by rw [hbusy, decide_eq_true hat]; rfl)]
  case repeated =>
    intro t d rest s hagain hat
    change execNoticeRepeat s = _
    simp only [execNoticeRepeat, hagain, if_pos hat]
  case transmit =>
    intro d s hhead hsigned
    have hplain : ¬(d.flags / 2 % 2 = 1) := by omega
    change execGlodyTransmit s = _
    simp only [execGlodyTransmit, hhead, if_neg hplain]
  case announce =>
    intro s hnamed hrec hat
    change execAnnounce s = _
    unfold execAnnounce
    extract_lets ms
    have hms : ms = 1000 * s.par P.glodyAnnounceS := if_neg (by rw [hrec]; decide)
    rw [if_pos (by rw [hnamed, hms, decide_eq_true hat]; rfl)]
  case beacon =>
    intro s hcoord hnamed
    change execPlcaBeacon s = _
    rw [execPlcaBeacon, if_pos (by rw [hcoord, hnamed]; rfl)]
  case status =>
    intro present s hcoord
    change execPlcaBeaconStatusChange present s = _
    rw [execPlcaBeaconStatusChange, if_neg hcoord]
  case neighbor =>
    intro s hnamed
    change execNeighborSolicitation devId s = _
    rw [execNeighborSolicitation, if_pos (by rw [hnamed, beq_self_eq_true]; rfl)]
  case i3c =>
    intro address s happlied hphase
    have hgo : (!s.power.applied || decide (s.par P.bootPhase < 2)) = false := by
      rw [happlied, decide_eq_false (Nat.not_lt.mpr hphase)]
      rfl
    change ∃ d, execI3cDynamicAddressAssignment address s = _ ∧ _
    rw [execI3cDynamicAddressAssignment, if_neg (Bool.eq_false_iff.mp hgo)]
    refine ⟨_, rfl, ?_⟩
    rw [beBytes, List.length_reverse, leBytes_length]

end

section
/-! The throttle of the governor (R388). -/
namespace Sys2Proof.Machine

/-- A sample keeps the throttle within the sixteen steps, or lowers it. -/
theorem State.govern_throttle_le (s : State) (watts : Nat) : (s.govern watts).power.throttle ≤ Nat.max 15 s.power.throttle := by
  unfold State.govern
  extract_lets l lim overs hot th t u
  have hth : th ≤ Nat.max 15 s.power.throttle := by
    unfold th
    split
    · exact Nat.le_trans (Nat.min_le_left _ _) (Nat.le_max_left _ _)
    · exact Nat.le_trans (Nat.sub_le _ _) (Nat.le_max_right _ _)
  have hu : u.power.throttle = th := rfl
  split
  · exact Nat.le_trans (Nat.le_of_eq hu) hth
  · rw [State.count, State.setPar_power]
    exact Nat.le_trans (Nat.le_of_eq hu) hth

end Sys2Proof.Machine
end

section
open Sys2Proof.Machine

/-- Settles O49: each power state, wake, governor and input row runs the named operation where its checks pass. It rests on the model's
choices of log 3, 45, 58 and 116. -/
theorem powerAndInputs : Obligations.PowerAndInputs := by
  unfold Obligations.PowerAndInputs
  refine ⟨?s1, ?s2, ?s3, fun _ _ _ => rfl, ?grant, ?pll, ?hub, ?default, ?port, ?governor, ?outOfRange, ?restored, ?clockLost, ?clockBack,
    ?stable, ?collapse, ?applied, ?trip⟩
  case s1 =>
    intro region s hready
    change execPowerS1Entry region s = _
    rw [execPowerS1Entry, if_pos hready]
  case s2 =>
    intro region s hready hothers
    change execPowerS2Entry region s = _
    unfold execPowerS2Entry
    extract_lets before t u v
    have hfirst : [0, 1, 2, 3].any before = false := by
      rw [List.any_eq_false]
      intro r hr
      have hr' : (r == region.val || !s.s2Ready r) = true := List.all_eq_true.mp hothers r hr
      rcases Bool.or_eq_true_iff.mp hr' with heq | hnot
      · simp [before, beq_iff_eq.mp heq]
      · simp [before, (Bool.not_eq_true' _).mp hnot]
    have hnow : u.now = s.now := by
      refine (forAll_proj State.now (fun k x => ?_) _ t).trans (State.setPar_now ..)
      split
      · exact State.setPar_now ..
      · rfl
    rw [if_pos (by rw [hready, hfirst]; rfl)]
    unfold v
    rw [hnow]
  case s3 =>
    intro s hfree hhub hregions hidle hsessions hmax htol
    change execPowerS3Entry true true s = _
    rw [execPowerS3Entry, if_pos]
    rw [hfree, hhub, hregions, hsessions, decide_eq_true hidle, decide_eq_true hmax, decide_eq_true htol]
    rfl
  case grant =>
    intro ph w ws s hqueue hlive hkind hcost
    change execWakeGrant ph s = _
    unfold execWakeGrant
    rw [hqueue]
    dsimp only
    rw [if_neg (by rw [hlive]; decide), if_neg (fun h => hkind h.1), if_neg (Nat.not_lt.mpr hcost)]
  case pll =>
    intro region ph s hexiting
    change execPllLock region ph s = _
    rw [execPllLock, if_pos hexiting]
  case hub =>
    intro ph s hbusy
    change execHubRestoreComplete ph s = _
    rw [execHubRestoreComplete, if_pos hbusy]
  case default =>
    intro value s htakes
    change Host.Outcome.next (s.barWrite P.pwrDefaultTolNs value (fun s => (s.setPar P.pwrDefaultTolNs value).tolExits)) = _
    rw [State.barWrite_of_takes htakes]
  case port =>
    intro port value s htakes
    change execLatencyToleranceWrite _ value s = _
    unfold execLatencyToleranceWrite
    extract_lets k
    have hk : k = P.portLatTolNs port := if_pos port.isLt
    rw [hk, State.barWrite_of_takes htakes]
  case governor => exact fun watts s => ⟨rfl, s.govern_throttle_le watts⟩
  case outOfRange =>
    intro millivolts s happlied hrange
    change execInputOutOfRange millivolts s = _
    rw [execInputOutOfRange, if_pos (by rw [happlied, decide_eq_true hrange]; rfl)]
  case restored =>
    intro millivolts s hbad hlow hhigh
    change ∃ t, execInputRestored millivolts s = .next t ∧ _
    rw [execInputRestored, if_pos (by rw [hbad, decide_eq_true ⟨hlow, hhigh⟩]; rfl)]
    refine ⟨_, rfl, rfl, ?_, rfl⟩
    change (s.setPar P.pwrInputMv millivolts).par P.pwrInputMv = millivolts
    rw [State.par_setPar_same]
    omega
  case clockLost =>
    intro s hlost
    change execRefclkLost s = _
    rw [execRefclkLost, if_neg (by rw [hlost]; decide)]
  case clockBack =>
    intro s hlost
    change ∃ t, execRefclkRestored s = .next t ∧ _
    rw [execRefclkRestored, if_pos hlost]
    exact ⟨_, rfl, rfl, rfl, rfl⟩
  case stable =>
    intro s hhold
    change ∃ t, execRefclkStable s = .next t ∧ _
    rw [execRefclkStable, if_pos hhold]
    exact ⟨_, rfl, rfl, rfl, rfl, rfl⟩
  case collapse => exact fun s => ⟨_, rfl, rfl, rfl, rfl, rfl, rfl, rfl, rfl, rfl⟩
  case applied =>
    intro millivolts slot refStable s happlied htripped hlow hhigh
    have hgo : (s.power.applied || decide (millivolts < 30000)) = false := by
      rw [happlied, decide_eq_false (Nat.not_lt.mpr hlow)]
      rfl
    change ∃ t, execPowerInputApplied millivolts slot refStable s = .next t ∧ _
    rw [execPowerInputApplied, if_neg (Bool.eq_false_iff.mp hgo), if_neg (by rw [htripped]; exact Bool.false_ne_true)]
    refine ⟨_, rfl, rfl, ?_, ?_, rfl, rfl⟩
    · change (((s.unpowered.pw _).setPar P.bootPhase 1).setPar P.pwrInputMv millivolts).par P.bootPhase = 1
      exact (State.par_setPar_other _ (by decide) _).trans (State.par_setPar_same _ _ _)
    · change (((s.unpowered.pw _).setPar P.bootPhase 1).setPar P.pwrInputMv millivolts).par P.pwrInputMv = millivolts
      rw [State.par_setPar_same]
      omega
  case trip =>
    intro unit celsius s happlied htripped
    have hgo : (!s.power.applied || s.power.tripped) = false := by
      rw [happlied, htripped]
      rfl
    change ∃ t, execThermalTrip unit celsius s = .next t ∧ _
    rw [execThermalTrip, if_neg (Bool.eq_false_iff.mp hgo)]
    refine ⟨_, rfl, rfl, ?_, rfl, rfl⟩
    change (State.setPar _ P.devState dsOut).par P.devState = dsOut
    rw [State.par_setPar_same]
    rfl

end
